-- ==== Sys2Proof/Word.lean ====
section
/-! DEFINITION. The plain types every other file builds on: bytes and byte strings.

What the manual treats as bits is a bit vector; counts, instants and addresses used as keys are natural numbers.
Byte-order helpers stand in `Sys2Proof/Machine/Bytes.lean`. -/

namespace Sys2Proof

/-- One byte (R5). -/
abbrev Byte := BitVec 8

/-- A byte string, lowest address first (R5: little-endian, byte 0 holds bits [7:0]). -/
abbrev Bytes := List Byte

/-- A binary32 encoding (R9). -/
abbrev F32 := BitVec 32

/-- A BF16 encoding: sign [15], biased exponent [14:7], fraction [6:0] (R46). -/
abbrev BF16 := BitVec 16

end Sys2Proof
end

