-- ==== Sys2Proof/Syntax.lean ====
section
/-! DEFINITION. The commands of the block: one constructor of `Instr` for each of the 147 rows of spec/opcode_table.json.

No row has an encoding, so the operands are what the row's own words take from outside the package: which port, link,
stack or task the event is at, the value written, the data carried, and what the package observes there. A command of
Table 10.8 names only its mailbox, because its 128-byte entry (R265) is the one at the front of that mailbox's ring in
the state; a fabric message names its port and sub-channel, because the message is the one the frames of that
sub-channel have brought (R222); a peer command has no operand, because its entry stands at the front of queue 6
(R263). -/

namespace Sys2Proof

/-- The two host ports (R254). -/
inductive HPort where
  | a | b
  deriving DecidableEq, Repr

/-- The command mailboxes of Table 10.8's commands: port A, port B and the I3C target (R262). -/
inductive Mbox where
  | hostA | hostB | i3c
  deriving DecidableEq, Repr

/-- The six fabric ports, in the order of R359 (Table 9.1). -/
inductive FPort where
  | xp | xm | yp | ym | zp | zm
  deriving DecidableEq, Repr

/-- The slice-cache hints of Table 7.3, coded as in BAR2CTL and MOVE. -/
inductive Hint where
  | none | stream | keep | last
  deriving DecidableEq, Repr

/-- The four filtered board inputs (R332). -/
inductive BoardInput where
  | pwrok | perstA | perstB | pfail
  deriving DecidableEq, Repr

/-- A place with junction or DRAM sensors (R324). -/
inductive Sensor where
  | die (d : Fin 4) | hub | stack (s : Fin 32)
  deriving DecidableEq, Repr

/-- A rail with a current monitor (R326). -/
inductive Rail where
  | vcore (d : Fin 4) | vhub
  deriving DecidableEq, Repr

/-- The straps (Table 13.3). -/
structure Straps where
  posx : BitVec 5
  posy : BitVec 4
  posz : BitVec 4
  feed : BitVec 4
  oscdly : BitVec 3
  bootsel : BitVec 2
  deriving DecidableEq, Repr

/-- What far-tier setup observes at one port (Table 7.12): how the link trains, what enumeration finds, the
capacity the device reports, and the two rates measured in step 5, in units of 0.1 GB/s. -/
structure FarProbe where
  trains : Bool
  gts : Nat
  width : Nat
  enumerates : Bool
  supported : Bool
  capBytes : Nat
  wrRate : Nat
  rdRate : Nat
  deriving DecidableEq, Repr

/-- The failed wires one end reports for one bundle of one direction (R199). -/
structure WireList where
  rev : Bool
  bundle : Fin 128
  wires : List Nat
  deriving DecidableEq, Repr

/-- What the two ends of a die link observe in training (Table 8.3): whether PRESENT arrives, the masks that the
transmitter and the receiver of each direction propose (R202), the failed wires, and the bundles that fail the
flit test of step 7 the first and the second time. The first of each pair of masks is direction 0. -/
structure TrainObs where
  present : Bool
  tx : BitVec 128 × BitVec 128
  rx : BitVec 128 × BitVec 128
  wires : List WireList
  flitFail : BitVec 128 × BitVec 128
  flitFail2 : BitVec 128 × BitVec 128
  deriving DecidableEq, Repr

/-- What the three tests of a core find (R299, Table 10.16). -/
structure ScanResult where
  patterns : BitVec 32
  fails : BitVec 32
  first : BitVec 32
  tests : BitVec 3
  vfail : BitVec 16
  deriving DecidableEq, Repr

/-- What a link test reports for one wire (R210). -/
structure WireResult where
  link : Fin 41
  rev : Bool
  errors : Nat
  ps : Nat
  mv : Nat
  deriving DecidableEq, Repr

/-- Who issues a memory access: a thread of a core, an update engine, hub DMA, a host port's BAR2, the guest die. -/
inductive Requester where
  | core (die : Fin 4) (core : Nat) (thread : Fin 8)
  | update (s : Fin 32)
  | hub
  | host (p : HPort)
  | guest
  deriving DecidableEq, Repr

/-- What the error code of a sector finds on an access (R187), in a row of a bank of a pseudo-channel, and a slice-cache way
that shows an uncorrectable tag or data error (R171), or a fault that spans rows of a bank (R188). -/
inductive Ecc where
  | clean
  | corrected (pc : Fin 64) (bank : Nat) (row : Nat)
  | uncorrectable (pc : Fin 64) (bank : Nat) (row : Nat)
  | badWay (way : Nat)
  | bankFault (pc : Fin 64) (bank : Nat)
  deriving DecidableEq, Repr

/-- A BAR2 read (R274): how many bytes, and what the error code of a sector finds. -/
structure Bar2Span where
  len : Nat
  ecc : Ecc
  deriving DecidableEq, Repr

/-- A BAR2 write (R274): its bytes, and what the error code of a sector finds. -/
structure Bar2Data where
  data : Bytes
  ecc : Ecc
  deriving DecidableEq, Repr

/-- The lanes of an ADD32 (R178), and what the error code of the old value finds. -/
structure AddLanes where
  lanes : List (BitVec 32)
  ecc : Ecc
  deriving DecidableEq, Repr

/-- A flit as it arrives (R195, R196): 64 bytes and their CRC. -/
structure FlitIn where
  data : Bytes
  crc : Byte
  deriving DecidableEq, Repr

/-- A line request (R136, R167, R168): a read of a line, or a write of the bytes `data` at `addr`. `dst` is the
landing place in the requesting core's store; `prefetch` is the flag of the MOVE descriptor (R175). -/
structure LineReq where
  who : Requester
  id : Nat
  addr : Nat
  write : Bool
  data : Bytes
  hint : Hint
  prefetch : Bool
  dst : Nat
  ecc : Ecc
  deriving DecidableEq, Repr

/-- A narrow-path request (R172): up to four sectors of one stack, with a payload for each; `eccAt` is the sector in which the error
code finds `ecc`. -/
structure NarrowReq where
  who : Requester
  id : Nat
  addrs : List Nat
  data : List Bytes
  dst : Nat
  ecc : Ecc
  eccAt : Fin 4 := 0
  deriving DecidableEq, Repr

/-- A request that a core issues again after a RETRY (R181). -/
inductive Reissue where
  | line (r : LineReq)
  | gather (r : NarrowReq)
  | scatter (r : NarrowReq)
  | scatterAdd (r : NarrowReq)
  deriving DecidableEq, Repr

/-- The operations a guest die may ask for (Table 8.8). -/
inductive GuestOp where
  | lineRead | lineWrite | gather | scatter | enqueue | dequeue | other | malformed
  deriving DecidableEq, Repr

/-- A guest request at the levee (R211). -/
structure GuestReq where
  id : Nat
  op : GuestOp
  addr : Nat
  len : Nat
  addrs : List Nat
  data : Bytes
  queue : Nat
  ecc : Ecc
  deriving DecidableEq, Repr

/-- A received fabric frame (R221): the fields of its link header, the 12 header bytes that carry them, the
496-byte payload and the CRC. `ret` is the credit return: class, sub-channel and how many credits. -/
structure Frame where
  seq : BitVec 12
  nak : Bool
  ack : BitVec 12
  hdr : Bytes
  payload : Bytes
  crc : BitVec 32
  ret : Nat × Bool × Nat := (0, false, 0)
  deriving DecidableEq, Repr

/-- One wrong product of the matrix array: row, column and the amount by which it is wrong (R62). -/
structure ArrayFault where
  row : Nat
  col : Nat
  delta : Int
  pass : Fin 4 := 0
  deriving DecidableEq, Repr

/-- The commands, one for each row of spec/opcode_table.json, in the table's order. -/
inductive Instr where
  -- the warden's commands (Table 10.8)
  | nop (mb : Mbox)
  | identify (mb : Mbox) (dma : Bool)
  | gaugeRead (mb : Mbox) (dma : Bool)
  | eventRead (mb : Mbox) (dma : Bool)
  | wearReport (mb : Mbox) (dma : Bool)
  | ledgerRead (mb : Mbox) (dma : Bool)
  | exportTensor (mb : Mbox) (dma : Bool)
  | jobLoad (mb : Mbox) (data : Option Bytes)
  | jobStart (mb : Mbox)
  | jobStop (mb : Mbox)
  | jobUnload (mb : Mbox)
  | ckptStop (mb : Mbox)
  | restore (mb : Mbox) (first : Bytes) (second : Bytes)
  | twinPair (mb : Mbox)
  | twinUnpair (mb : Mbox)
  | memPolicy (mb : Mbox)
  | farTierSetup (mb : Mbox) (f0 : FarProbe) (f1 : FarProbe)
  | leveeWindow (mb : Mbox)
  | guestReset (mb : Mbox)
  | unitReset (mb : Mbox)
  | pkgReset (mb : Mbox)
  | clockMode (mb : Mbox)
  | inspectCfg (mb : Mbox)
  | guardMode (mb : Mbox)
  | linkTest (mb : Mbox) (dma : Bool) (wires : List WireResult)
  | coreScan (mb : Mbox) (dma : Bool) (result : ScanResult)
  | fwWrite (mb : Mbox) (data : Option Bytes)
  | fwActivate (mb : Mbox)
  | commandCompletion (i : Nat)
  -- peer commands (Table 11.1) and their timers
  | pairReq
  | unpair
  | ckptSched
  | ckptBegin
  | ckptEnd
  | ckptAck
  | ckptDone
  | ckptCommit
  | ckptCommitTimeout
  | failReport
  | restoreReq
  | copyReq
  | peerCompletion
  | pairTimeout
  -- the lock and the registers
  | acq (p : HPort) (v : BitVec 32)
  | rel (p : HPort) (v : BitVec 32)
  | renew (p : HPort) (v : BitVec 32)
  | lease (p : HPort) (v : BitVec 32)
  | leaseExpiry
  | cdb (p : HPort) (v : BitVec 32) (entries : List Bytes)
  | doorbellPoll (q : Nat)
  | doorbellUnmask (q : Nat)
  | mailboxEnable (p : HPort) (v : BitVec 32)
  | qdb (p : HPort) (q : Nat) (v : BitVec 32)
  | wbasehi (p : HPort) (v : BitVec 32)
  | tidelo (p : HPort) (len : Nat)
  | elseqlo (p : HPort) (len : Nat)
  | registerWrite (p : HPort) (off : Nat) (data : Bytes)
  | bar2Read (p : HPort) (off : Nat) (r : Bar2Span)
  | bar2Write (p : HPort) (off : Nat) (w : Bar2Data)
  -- the management bus
  | i3cPrivateWrite (data : Bytes)
  | i3cPrivateRead
  | setdasa (addr : BitVec 7) (dyn : BitVec 7)
  -- host port events and board inputs
  | perstAssert (p : HPort) (held : Nat) (inactive : Nat)
  | perstRelease (p : HPort) (atRating : Bool)
  | functionLevelReset (p : HPort)
  | pcieLinkLoss (p : HPort)
  | pcieRateChange (p : HPort) (atRating : Bool)
  | inputUnmask (i : BoardInput) (inactive : Nat)
  | inputEventLog (i : BoardInput)
  -- power and reset
  | pwrokRise (held : Nat) (inactive : Nat) (pins : Straps)
  | oscDelayExpiry
  | bootComplete (f0 : FarProbe) (f1 : FarProbe)
  | powerOnReset (held : Nat)
  | warmReset
  | coldReset
  | pfailAssert (held : Nat) (inactive : Nat)
  | pfailEnd (inactive : Nat)
  | junctionSample (u : Sensor) (celsius : Int)
  | overcurrentStop (r : Rail) (amps : Nat) (held : Nat)
  | overcurrentRestart (r : Rail) (below : Nat)
  | railDeviation (d : Fin 4) (mv : Nat) (held : Nat)
  | pllLossOfLock (u : Fin 36) (pll : Fin 2)
  | pllRelock (u : Fin 36) (ok : Bool)
  | boostStep (d : Fin 4) (step : Fin 5) (celsius : Int) (amps : Nat)
  | stackThermalSample (s : Fin 32) (celsius : Int)
  -- memory
  | lineRequest (r : LineReq)
  | gather (r : NarrowReq)
  | scatter (r : NarrowReq)
  | scatterAdd (r : NarrowReq)
  | land (addr : Nat) (lanes : List (BitVec 32))
  | add32 (addr : Nat) (x : AddLanes)
  | zero (addr : Nat) (count : Nat)
  | parkedRequestAdmit (s : Fin 32) (bank : Nat)
  | retryReissue (r : Reissue)
  | writeDrain (s : Fin 32) (pc : Fin 64)
  | refresh (s : Fin 32) (pc : Fin 64)
  | staleNoticeAck (s : Fin 32) (id : Nat)
  | lineLanding (die : Fin 4) (core : Nat) (id : Nat)
  | farTierLinkDown (f : Fin 2)
  -- die links
  | flit (l : Fin 41) (rev : Bool) (bundle : Fin 128) (seq : BitVec 6) (rx : FlitIn) (sent : Bytes)
  | nak (l : Fin 41) (rev : Bool) (bundle : Fin 128) (seq : BitVec 6)
  | linkTraining (l : Fin 41) (obs : TrainObs)
  | linkDrop (l : Fin 41)
  | dropAck (l : Fin 41)
  | dropAckTimeout (l : Fin 41)
  | forwardedClockLoss (l : Fin 41) (held : Nat)
  | bundleThreshold (l : Fin 41) (rev : Bool) (bundle : Fin 128)
  | bundleWireTest (l : Fin 41) (rev : Bool) (bundle : Fin 128) (failed : List Nat)
  -- the levee
  | guestRequest (r : GuestReq)
  | guestBucketAdmit (w : Fin 8)
  | guestResponseTimeout (id : Nat)
  | leveeViolationLog (k : Fin 9)
  -- the fabric
  | fabricFrame (p : FPort) (f : Frame)
  | frameNak (p : FPort) (seq : BitVec 12)
  | laneFailure (p : FPort) (lane : Fin 16)
  | linkid (p : FPort) (sub : Bool)
  | contrib (p : FPort) (sub : Bool)
  | result (p : FPort) (sub : Bool)
  | exch (p : FPort) (sub : Bool)
  | scale (p : FPort) (sub : Bool)
  | verdict (p : FPort) (sub : Bool)
  | qdata (p : FPort) (sub : Bool)
  | qcredit (p : FPort) (sub : Bool)
  | breach (p : FPort) (sub : Bool)
  | late (p : FPort) (sub : Bool)
  | write (p : FPort) (sub : Bool)
  | wrack (p : FPort) (sub : Bool)
  -- the tide clock
  | syncPeriod
  | syncRequest (p : FPort) (sub : Bool)
  | syncResponse (p : FPort) (sub : Bool)
  | tideUnsync
  | rootElection
  -- execution
  | stepBoundary
  | taskStart (task : Nat)
  | tileProductEnd (task : Nat) (slab : Nat) (col : Nat) (chunk : Nat) (faults : List ArrayFault)
  | fallbackBeyondFreeboard (task : Nat)
  | deadlineCheck (task : Nat) (remaining : Nat) (unitTime : Nat) (code : Fin 9) (origin : BitVec 16) (queue : BitVec 16)
  | taskEnd (task : Nat)
  | checkHorizon (task : Nat)
  | inspectionSlotStart
  | inspectionSlotEnd (result : ScanResult)
  -- wear
  | gaugeSample (gauge : Fin 7) (unit : Nat) (value : F32)
  | settlementDaily
  | settlementHourly
  | pairReqHoldExpiry
  | fabricPortUp (p : FPort) (low : Bool) (high : Bool)
  | firmwareBoot
  deriving DecidableEq, Repr

end Sys2Proof
end

