-- ==== Sys2Proof/Config.lean ====
section
/-! DEFINITION. What an implementation fixes and what the manual leaves open: constants with no body, so that no proof can
see a value of them (log entries 2, 9, 10, 11). -/

namespace Sys2Proof

/-- The n-th free value drawn (log entry 2): `State.freeCtr` counts the draws. -/
opaque Config.freeWord : Nat → BitVec 64

/-- The maximum of two values one of which is a NaN: no rule states it (R105, R111, R113; log entry 2). -/
opaque Config.maxNan : F32 → F32 → F32

/-- UX of berm factors that are all zero: no rule states it (R54; log entry 2). -/
opaque Config.uxNone : BitVec 16

/-- The set of the slice cache a line falls in, for a line number of the stack (R167 states no index; log entry 9). -/
opaque Config.cacheSet : Nat → Nat

/-- How far the pseudo-channels of a group of 64 units of a stack are turned, under the stream policy (false) or the sector policy
(true): the first hash function of R165, which no result depends on (log entry 9). -/
opaque Config.pcSkew : Bool → Nat → Nat

/-- How far the banks of a pseudo-channel are turned in a group of 4,096 units: the second hash function of R165 (log entry 9). -/
opaque Config.bankSkew : Bool → Nat → Nat → Nat

/-- The loss element of a row from the row the loss task works on and its targets: no rule states the value (R132; log entry 2). -/
opaque Config.lossOf : List (BitVec 32) → List (BitVec 32) → BitVec 32

/-- The hash of R198 that picks a bundle from a class, a source unit and a line address (log entry 9). -/
opaque Config.bundleHash : Nat → Nat → Nat → Nat

/-- The 12 header bytes that carry a sequence number, an acknowledgement and a credit return (class, sub-channel and number of
credits): R221 gives the fields and not their places (log entry 10). -/
opaque Config.linkHeader : Nat → Nat → Nat × Bool × Nat → Bytes

/-- The layout of GAUGE_READ's result: from the class mask and the kind of record asked for, and the values in the order
of Tables 4.7 and 4.8 (R103 gives no layout; log entry 11). -/
opaque Config.gaugeImage : Nat → Nat → List Nat → Bytes

/-- The layout of the link test's results (R210 gives no layout; log entry 11). -/
opaque Config.linkTestImage : List WireResult → Bytes

/-- The Kraiq public key whose hash is fused into the hub die (R279; log entry 5). -/
opaque Config.kraiqKey : Nat × Nat

end Sys2Proof
end

