-- ==== Sys2Proof/Machine/Bytes.lean ====
section
/-! DEFINITION. Byte strings: little-endian fields (R5), the CRCs of the manual (R34, R196, R221), SHA-384 (R144, R279). -/

namespace Sys2Proof.Machine

/-- The unsigned value of a byte string, byte 0 holding bits [7:0] (R5). -/
def leVal : Bytes → Nat
  | [] => 0
  | b :: bs => b.toNat + 256 * leVal bs

/-- The `n`-byte little-endian encoding of a number (R5). -/
def leBytes : Nat → Nat → Bytes
  | 0, _ => []
  | n + 1, v => BitVec.ofNat 8 (v % 256) :: leBytes n (v / 256)

/-- Exactly `n` bytes of a string from offset `off`; bytes past the end read as zero. -/
def slice (bs : Bytes) (off n : Nat) : Bytes :=
  let t := (bs.drop off).take n
  t ++ List.replicate (n - t.length) 0

/-- The little-endian field of `n` bytes at offset `off` (R5). -/
def field (bs : Bytes) (off n : Nat) : Nat := leVal ((bs.drop off).take n)

/-- Whether `n` bytes from offset `off` are all zero (a reserved field that must be zero, R7). -/
def allZero (bs : Bytes) (off n : Nat) : Bool := ((bs.drop off).take n).all (· == 0)

/-- The low `w` bits of a number read as two's complement. -/
def toSigned (w v : Nat) : Int :=
  if v % 2 ^ w < 2 ^ (w - 1) then (v % 2 ^ w : Nat) else (v % 2 ^ w : Nat) - (2 ^ w : Nat)

/-- The low `w` bits of the two's complement encoding of an integer. -/
def ofSigned (w : Nat) (v : Int) : Nat := (v % ((2 ^ w : Nat) : Int)).toNat

/-- A bit of a number. -/
def bit (v i : Nat) : Bool := v.testBit i

/-- The bits [hi:lo] of a number. -/
def bits (v hi lo : Nat) : Nat := (v / 2 ^ lo) % 2 ^ (hi + 1 - lo)

/-- A number from a truth value. -/
def b2n (b : Bool) : Nat := if b then 1 else 0

/-- ASCII text as bytes. -/
def ascii (s : String) : Bytes := s.toList.map fun c => BitVec.ofNat 8 c.toNat

/-- Apply a function `n` times. -/
def iter {α : Type} (f : α → α) : Nat → α → α
  | 0, x => x
  | n + 1, x => iter f n (f x)

/-- One bit step of a most-significant-bit-first CRC of width `w`. -/
def crcStepMsb (w poly : Nat) (c : Nat) : Nat :=
  if c.testBit (w - 1) then ((c * 2) % 2 ^ w) ^^^ poly else (c * 2) % 2 ^ w

/-- Fold a number over bytes; the match computes the number before each byte. -/
def foldBytes (f : Nat → Nat → Nat) : Nat → Bytes → Nat
  | c, [] => c
  | c, b :: r =>
    match c with
    | 0 => foldBytes f (f 0 b.toNat) r
    | k + 1 => foldBytes f (f (k + 1) b.toNat) r

/-- A CRC that takes each byte most significant bit first, without reflection and without a final XOR. -/
def crcMsb (w poly init : Nat) (bs : Bytes) : Nat :=
  foldBytes (fun c b => iter (crcStepMsb w poly) 8 (c ^^^ (b * 2 ^ (w - 8)))) init bs

/-- CRC-16 of a code block (R34). -/
def crc16 (bs : Bytes) : Nat := crcMsb 16 0x1021 0xFFFF bs

/-- CRC-8 of a flit (R196). -/
def crc8 (bs : Bytes) : Nat := crcMsb 8 0x07 0 bs

/-- One bit step of the reflected CRC-32C. -/
def crc32cStep (c : Nat) : Nat := if c % 2 = 1 then (c / 2) ^^^ 0x82F63B78 else c / 2

/-- CRC-32C (R221): polynomial 0x1EDC_6F41 reflected, initial value and final XOR 0xFFFF_FFFF. -/
def crc32c (bs : Bytes) : Nat :=
  foldBytes (fun c b => iter crc32cStep 8 (c ^^^ b)) 0xFFFFFFFF bs ^^^ 0xFFFFFFFF

/-! SHA-384 (FIPS 180-4), which R144 and R279 name for DIGEST and BODYHASH. Its constants are not tabled here: the
standard defines them by roots of primes, and so does this text. -/

/-- The integer `e`-th root of `v`, its `n` low bits decided from the top, onto the part `r` already found. -/
def rootBits (e v : Nat) : Nat → Nat → Nat
  | 0, r => r
  | n + 1, r => rootBits e v n (if (r + 2 ^ n) ^ e ≤ v then r + 2 ^ n else r)

/-- The first 64 bits of the fraction of the `e`-th root of `p`. -/
def rootFraction (e p : Nat) : Nat := rootBits e (p * 2 ^ (64 * e)) 70 0 % 2 ^ 64

/-- The primes below 410: the first 80. -/
def hashPrimes : List Nat :=
  (List.range 410).filter fun n => 2 ≤ n && (List.range n).all fun d => d < 2 || n % d != 0

/-- The exclusive or of a 64-bit word rotated right by each listed distance. -/
def rotations (x : Nat) (ns : List Nat) : Nat :=
  ns.foldl (fun y n => y ^^^ (x / 2 ^ n + x % 2 ^ n * 2 ^ (64 - n))) 0

/-- The word sixteen places on in the message schedule, from a window of sixteen words, oldest first. -/
def scheduleWord (win : List Nat) : Nat :=
  let mixed := fun (i p q sh : Nat) => rotations (win.getD i 0) [p, q] ^^^ (win.getD i 0 / 2 ^ sh)
  (win.getD 0 0 + win.getD 9 0 + mixed 1 1 8 7 + mixed 14 19 61 6) % 2 ^ 64

/-- One round on the eight working words (most significant first), the round's constant and schedule word added. -/
def hashRound (add : Nat) (v : List Nat) : List Nat :=
  let x := fun (i : Nat) => v.getD i 0
  let choice := (x 4 &&& x 5) ||| ((x 4 ^^^ (2 ^ 64 - 1)) &&& x 6)
  let fresh := x 7 + rotations (x 4) [14, 18, 41] + choice + add
  let vote := (x 0 &&& x 1) ||| (x 2 &&& (x 0 ||| x 1))
  [(fresh + rotations (x 0) [28, 34, 39] + vote) % 2 ^ 64, x 0, x 1, x 2, (x 3 + fresh) % 2 ^ 64, x 4, x 5, x 6]

/-- All rounds, one a constant of the list: the window slides by one word each round. -/
def hashRounds : List Nat → List Nat → List Nat → List Nat
  | [], _, v => v
  | k :: ks, win, v => hashRounds ks (win.drop 1 ++ [scheduleWord win]) (hashRound (k + win.getD 0 0) v)

/-- The compression of one 128-byte block into the eight chaining words, `ks` the round constants. -/
def hashBlock (ks v : List Nat) (blk : Bytes) : List Nat :=
  let win := (List.range 16).map fun i => leVal ((slice blk (8 * i) 8).reverse)
  (v.zip (hashRounds ks win v)).map fun pr => (pr.1 + pr.2) % 2 ^ 64

/-- All `n` blocks of a padded message. -/
def hashBlocks (ks : List Nat) : Nat → Bytes → List Nat → List Nat
  | 0, _, v => v
  | n + 1, bs, v => hashBlocks ks n (bs.drop 128) (hashBlock ks v (bs.take 128))

/-- SHA-384 of a byte string: 48 bytes. The chaining words start as square-root fractions of the ninth to sixteenth prime. -/
def sha384 (bs : Bytes) : Bytes :=
  let pad := (239 - bs.length % 128) % 128
  let msg := bs ++ [0x80] ++ List.replicate pad 0 ++ (leBytes 16 (8 * bs.length)).reverse
  let v0 := ((hashPrimes.drop 8).take 8).map (rootFraction 2)
  ((hashBlocks (hashPrimes.map (rootFraction 3)) (msg.length / 128) msg v0).take 6).flatMap fun x => (leBytes 8 x).reverse

/-! ECDSA on P-384 (R279), by the standard's definition. -/

/-- The prime of P-384. -/
def p384P : Nat := 2 ^ 384 - 2 ^ 128 - 2 ^ 96 + 2 ^ 32 - 1

/-- The order of P-384's group. -/
def p384N : Nat :=
  0xFFFFFFFFFFFFFFFFFFFFFFFFFFFFFFFFFFFFFFFFFFFFFFFFC7634D81F4372DDF581A0DB248B0A77AECEC196ACCC52973

/-- The base point. -/
def p384G : Nat × Nat :=
  (0xAA87CA22BE8B05378EB1C71EF320AD746E1D3B628BA79B9859F741E082542A385502F25DBF55296C3A545E3872760AB7,
   0x3617DE4A96262C6F5D9E98BF9292DC29F8F41DBD289A147CE9DA3113B5F0B8C00A60B1CE1D7E819D7A431D7C90EA0E5F)

/-- Modular power by the bits of the exponent, most significant of `n` bits first. -/
def powMod (b e m : Nat) : Nat → Nat
  | 0 => 1 % m
  | n + 1 =>
    let h := powMod b (e / 2) m n
    if e % 2 = 1 then h * h % m * b % m else h * h % m

/-- The inverse modulo a prime. -/
def invMod (a m : Nat) : Nat := powMod (a % m) (m - 2) m 384

/-- Point addition on P-384; `none` is the point at infinity. -/
def ecAdd : Option (Nat × Nat) → Option (Nat × Nat) → Option (Nat × Nat)
  | none, q => q
  | p, none => p
  | some (x1, y1), some (x2, y2) =>
    if x1 = x2 ∧ (y1 + y2) % p384P = 0 then none
    else
      let l := if x1 = x2 then (3 * x1 * x1 + (p384P - 3)) * invMod (2 * y1) p384P % p384P
               else (y2 + p384P - y1) * invMod (x2 + p384P - x1) p384P % p384P
      let x3 := (l * l + 2 * p384P - x1 - x2) % p384P
      some (x3, (l * (x1 + p384P - x3) + p384P - y1) % p384P)

/-- Scalar multiplication by the low `n` bits of `k`. -/
def ecMul (k : Nat) (q : Option (Nat × Nat)) : Nat → Option (Nat × Nat)
  | 0 => none
  | n + 1 =>
    let h := ecMul (k / 2) q n
    let d := ecAdd h h
    if k % 2 = 1 then ecAdd d q else d

/-- Whether (r, s) is a valid ECDSA P-384 signature over the hash `e` under the public key `q` (R279). -/
def ecdsaVerify (q : Nat × Nat) (e r s : Nat) : Bool :=
  if 0 < r ∧ r < p384N ∧ 0 < s ∧ s < p384N then
    let w := invMod s p384N
    match ecAdd (ecMul (e * w % p384N) (some p384G) 384) (ecMul (r * w % p384N) (some q) 384) with
    | none => false
    | some (x, _) => x % p384N == r
  else false

end Sys2Proof.Machine
end

