-- ==== Sys2Proof/Machine/Float.lean ====
section
/-! DEFINITION. binary32 and BF16 arithmetic by exact integers and one rounding (R9, R46, R51, R105).

A finite value is an integer times a power of two. Every operation is computed exactly (or exactly with a sticky bit)
and rounded once, to nearest with ties to even. -/

namespace Sys2Proof.Machine

/-- Divide by a power of two, rounding to nearest with ties to even (rne of R9). -/
def rneShift (v : Int) (k : Nat) : Int :=
  let q := v / (2 ^ k : Nat)
  let r := v % (2 ^ k : Nat)
  if 2 * r < (2 ^ k : Nat) then q
  else if (2 ^ k : Nat) < 2 * r then q + 1
  else if q % 2 = 0 then q else q + 1

/-- rne of `v × 2^e`. -/
def rnePow (v : Int) (e : Int) : Int := if 0 ≤ e then v * (2 ^ e.toNat : Nat) else rneShift v (-e).toNat

/-- A decoded number: finite (negative sign of zero kept apart), infinite or NaN. -/
inductive ExactNum where
  | fin (neg : Bool) (m : Nat) (e : Int)
  | inf (neg : Bool)
  | nan
  deriving DecidableEq, Repr

/-- The canonical binary32 NaN (R46). -/
def nan32 : F32 := 0x7FC00000#32

/-- The canonical BF16 NaN (R46). -/
def nan16 : BF16 := 0x7FC0#16

/-- A binary32 infinity. -/
def inf32 (neg : Bool) : F32 := if neg then 0xFF800000#32 else 0x7F800000#32

/-- A binary32 zero. -/
def zero32 (neg : Bool) : F32 := if neg then 0x80000000#32 else 0#32

/-- Decode binary32. -/
def num (x : F32) : ExactNum :=
  let v := x.toNat
  let neg := bit v 31
  let ex := bits v 30 23
  let fr := bits v 22 0
  if ex = 255 then (if fr = 0 then .inf neg else .nan)
  else if ex = 0 then .fin neg fr (-149)
  else .fin neg (fr + 2 ^ 23) ((ex : Int) - 150)

/-- Whether a binary32 value is finite. -/
def isFin (x : F32) : Bool := bits x.toNat 30 23 != 255

/-- Whether a binary32 value is a NaN. -/
def isNan (x : F32) : Bool := bits x.toNat 30 23 == 255 && bits x.toNat 22 0 != 0

/-- The binary32 encoding of `±m × 2^e` rounded to nearest, ties to even, subnormals kept, overflow to infinity
(to_fp32 of R51). -/
def round32 (neg : Bool) (m : Nat) (e : Int) : F32 :=
  if m = 0 then zero32 neg
  else
    let top : Int := (Nat.log2 m : Int) + e
    let q : Int := max (top - 23) (-149)
    let r : Nat := (rnePow (m : Int) (e - q)).toNat
    -- a carry out of the 24 bits moves the exponent by one, and the encoding below absorbs it
    let v : Nat := if q = -149 then r else ((q + 149).toNat * 2 ^ 23) + r
    if 0x7F800000 ≤ v then inf32 neg else BitVec.ofNat 32 (v + b2n neg * 2 ^ 31)

/-- to_fp32(n, E) of R51: the binary32 nearest `n × 2^E`; an exact zero is +0. -/
def toFp32 (n : Int) (e : Int) : F32 := round32 (decide (n < 0)) n.natAbs e

/-- Encode a decoded number; a NaN is the canonical one (R46). -/
def enc : ExactNum → F32
  | .fin neg m e => round32 neg m e
  | .inf neg => inf32 neg
  | .nan => nan32

/-- Signed integer mantissa. -/
def smant (neg : Bool) (m : Nat) : Int := if neg then -(m : Int) else m

/-- binary32 addition. -/
def fadd (x y : F32) : F32 :=
  match num x, num y with
  | .nan, _ => nan32
  | _, .nan => nan32
  | .inf a, .inf b => if a == b then inf32 a else nan32
  | .inf a, _ => inf32 a
  | _, .inf b => inf32 b
  | .fin a m e, .fin b n f =>
    let g := min e f
    let s := smant a m * (2 ^ (e - g).toNat : Nat) + smant b n * (2 ^ (f - g).toNat : Nat)
    if s = 0 then zero32 (a && b) else toFp32 s g

/-- Negation. -/
def fneg (x : F32) : F32 := if isNan x then nan32 else x ^^^ 0x80000000#32

/-- binary32 subtraction. -/
def fsub (x y : F32) : F32 := fadd x (fneg y)

/-- binary32 multiplication. -/
def fmul (x y : F32) : F32 :=
  match num x, num y with
  | .nan, _ => nan32
  | _, .nan => nan32
  | .inf a, .inf b => inf32 (a != b)
  | .inf a, .fin b n _ => if n = 0 then nan32 else inf32 (a != b)
  | .fin a m _, .inf b => if m = 0 then nan32 else inf32 (a != b)
  | .fin a m e, .fin b n f => round32 (a != b) (m * n) (e + f)

/-- A quotient of naturals with 80 extra bits and a sticky bit. -/
def divSticky (m n : Nat) : Nat :=
  let q := m * 2 ^ 80 / n
  2 * q + (if m * 2 ^ 80 % n = 0 then 0 else 1)

/-- binary32 division. -/
def fdiv (x y : F32) : F32 :=
  match num x, num y with
  | .nan, _ => nan32
  | _, .nan => nan32
  | .inf _, .inf _ => nan32
  | .inf a, .fin b _ _ => inf32 (a != b)
  | .fin a _ _, .inf b => zero32 (a != b)
  | .fin a m e, .fin b n f =>
    if n = 0 then (if m = 0 then nan32 else inf32 (a != b))
    else round32 (a != b) (divSticky m n) (e - f - 81)

/-- The integer square root, bit by bit from bit `k - 1`. -/
def isqrtAux (n : Nat) : Nat → Nat → Nat
  | 0, r => r
  | k + 1, r => let t := r + 2 ^ k; isqrtAux n k (if t * t ≤ n then t else r)

/-- The integer square root. -/
def isqrt (n : Nat) : Nat := isqrtAux n (Nat.log2 n / 2 + 1) 0

/-- binary32 square root, correctly rounded (R105). -/
def fsqrt (x : F32) : F32 :=
  match num x with
  | .nan => nan32
  | .inf a => if a then nan32 else inf32 false
  | .fin a m e =>
    if m = 0 then zero32 a
    else if a then nan32
    else
      let (m, e) := if e % 2 = 0 then (m, e) else (2 * m, e - 1)
      let w := m * 2 ^ 100
      let r := isqrt w
      round32 false (2 * r + (if r * r = w then 0 else 1)) (e / 2 - 51)

/-- The reciprocal, correctly rounded (R105). -/
def frecip (x : F32) : F32 := fdiv 0x3F800000#32 x

/-- Numerical order of two finite values or infinities; `false` when either is a NaN. -/
def flt (x y : F32) : Bool :=
  match num x, num y with
  | .nan, _ => false
  | _, .nan => false
  | .inf a, .inf b => a && !b
  | .inf a, _ => a
  | _, .inf b => !b
  | .fin a m e, .fin b n f =>
    let g := min e f
    decide (smant a m * (2 ^ (e - g).toNat : Nat) < smant b n * (2 ^ (f - g).toNat : Nat))

/-- The larger of two values, the first when neither is larger. -/
def fmax (x y : F32) : F32 := if flt x y then y else x

/-- The smaller of two values, the first when neither is smaller. -/
def fmin (x y : F32) : F32 := if flt y x then y else x

/-- The magnitude. -/
def fabs (x : F32) : F32 := x &&& 0x7FFFFFFF#32

/-- Whether a value is a zero of either sign. -/
def isZero (x : F32) : Bool := fabs x == 0#32

/-- Widen BF16 exactly; a NaN becomes the canonical NaN. -/
def widen (x : BF16) : F32 :=
  let y : F32 := BitVec.ofNat 32 (x.toNat * 65536)
  if isNan y then nan32 else y

/-- Round binary32 to BF16, to nearest with ties to even (R66). -/
def toBf16 (x : F32) : BF16 :=
  if isNan x then nan16
  else
    let v := x.toNat
    let r := (rneShift ((v % 2 ^ 31 : Nat) : Int) 16).toNat
    BitVec.ofNat 16 (r + b2n (bit v 31) * 2 ^ 15)

/-- Multiply by a power of two, rounded. -/
def fscale (x : F32) (k : Int) : F32 :=
  match num x with
  | .fin a m e => round32 a m (e + k)
  | y => enc y

/-- The exact value of a finite binary32 as a pair integer, exponent; zero for anything else. -/
def exact (x : F32) : Int × Int :=
  match num x with
  | .fin a m e => (smant a m, e)
  | _ => (0, 0)

/-- rne of a finite value times `2^k`, as an integer. -/
def rneF (x : F32) (k : Int) : Int := let (v, e) := exact x; rnePow v (e + k)

/-- The smallest integer `k` with `m × 2^e ≤ d × 2^k`, for `m` and `d` positive: ceil(log2(m 2^e / d)). -/
def ceilLog2Div (m : Nat) (e : Int) (d : Nat) : Int :=
  -- start two below the estimate and climb
  let k0 : Int := (Nat.log2 m : Int) - (Nat.log2 d : Int) - 2
  let ok := fun (k : Int) => if 0 ≤ k then decide (m ≤ d * 2 ^ k.toNat) else decide (m * 2 ^ (-k).toNat ≤ d)
  let k := if ok k0 then k0 else if ok (k0 + 1) then k0 + 1 else if ok (k0 + 2) then k0 + 2
           else if ok (k0 + 3) then k0 + 3 else k0 + 4
  k + e

/-- ceil(log2 n), the smallest `k` with `2^k ≥ n`; 0 for 0 and 1. -/
def ceilLog2 (n : Nat) : Nat := if n ≤ 1 then 0 else Nat.log2 (n - 1) + 1

/-! exp, tanh and erf (R105): fixed point with 512 fraction bits, then one rounding. -/

/-- The number of fraction bits of the fixed-point evaluation. -/
def fxBits : Nat := 512

/-- A finite binary32 in fixed point. -/
def toFx (x : F32) : Int := let (v, e) := exact x; rnePow v (e + fxBits)

/-- Sum of the Taylor series of exp at `x`, with `n` more terms, the current term and its index. -/
def fxExpAux (x : Int) : Nat → Int → Nat → Int → Int
  | 0, _, _, acc => acc
  | n + 1, t, k, acc => fxExpAux x n (t * x / (2 ^ fxBits : Nat) / ((k : Int) + 1)) (k + 1) (acc + t)

/-- exp in fixed point, for |x| at most about 110. -/
def fxExp (x : Int) : Int := fxExpAux x 800 (2 ^ fxBits : Nat) 0 0

/-- Sum of (-1)^n x^(2n+1)/(n! (2n+1)), with `n` more terms. -/
def fxErfAux (x2 : Int) : Nat → Int → Nat → Int → Int
  | 0, _, _, acc => acc
  | n + 1, t, k, acc =>
    fxErfAux x2 n (-(t * x2 / (2 ^ fxBits : Nat)) / ((k : Int) + 1)) (k + 1) (acc + t / (2 * (k : Int) + 1))

/-- arctan(1/q) in fixed point, `n` more terms. -/
def fxAtanAux (q : Nat) : Nat → Int → Nat → Int → Int
  | 0, _, _, acc => acc
  | n + 1, t, k, acc =>
    fxAtanAux q n (t / ((q * q : Nat) : Int)) (k + 1)
      (acc + (if k % 2 = 0 then 1 else -1) * (t / (2 * (k : Int) + 1)))

/-- π in fixed point, by Machin's formula. -/
def fxPi : Int :=
  16 * fxAtanAux 5 250 ((2 ^ fxBits : Nat) / 5) 0 0 - 4 * fxAtanAux 239 80 ((2 ^ fxBits : Nat) / 239) 0 0

/-- √π in fixed point. -/
def fxSqrtPi : Int := (isqrt (fxPi.toNat * 2 ^ fxBits) : Nat)

/-- Round a fixed-point value, with a sticky bit for what lies below. -/
def fxRound (v : Int) : F32 := toFp32 (2 * v + 1) (-(fxBits : Int) - 1)

/-- exp, correctly rounded (R105). -/
def fexp (x : F32) : F32 :=
  match num x with
  | .nan => nan32
  | .inf a => if a then zero32 false else inf32 false
  | .fin _ m _ =>
    if m = 0 then 0x3F800000#32
    else if flt 0x42B20000#32 x then inf32 false
    else if flt x 0xC2D20000#32 then zero32 false
    else fxRound (fxExp (toFx x))

/-- tanh, correctly rounded (R105). -/
def ftanh (x : F32) : F32 :=
  match num x with
  | .nan => nan32
  | .inf a => if a then 0xBF800000#32 else 0x3F800000#32
  | .fin a m _ =>
    if m = 0 then zero32 a
    else if flt 0x41200000#32 (fabs x) then (if a then 0xBF800000#32 else 0x3F800000#32)
    else
      let one : Int := (2 ^ fxBits : Nat)
      let t := fxExp (2 * toFx x)
      fxRound ((t - one) * one / (t + one))

/-- erf, correctly rounded (R105). -/
def ferf (x : F32) : F32 :=
  match num x with
  | .nan => nan32
  | .inf a => if a then 0xBF800000#32 else 0x3F800000#32
  | .fin a m _ =>
    if m = 0 then zero32 a
    else if flt 0x40800000#32 (fabs x) then (if a then 0xBF800000#32 else 0x3F800000#32)
    else
      let f := toFx x
      let s := fxErfAux (f * f / (2 ^ fxBits : Nat)) 300 f 0 0
      fxRound (2 * s * (2 ^ fxBits : Nat) / fxSqrtPi)

/-- A binary32 constant named by its real value: the nearest binary32 to a fixed-point value (R105). -/
def fxConst (v : Int) : F32 := fxRound v

/-- √(2/π). -/
def cSqrt2Pi : F32 := 0x3F4C422A#32

/-- 1/√2. -/
def cRsqrt2 : F32 := 0x3F3504F3#32

/-- 1/√(2π). -/
def cRsqrt2Pi : F32 := 0x3ECC422A#32

/-- Sigmoid, each of its three operations rounded (R105). -/
def fsigmoid (x : F32) : F32 := fdiv 0x3F800000#32 (fadd 0x3F800000#32 (fexp (fneg x)))

end Sys2Proof.Machine
end

