-- ==== Sys2Proof/Machine/Quant.lean ====
section
/-! DEFINITION. Number formats and quantisers: operand groups, weight tiles, INT8 planes, stash groups, rotation
(02_number_formats.md; 03_reference_arithmetic.md R55 to R59; 04_error_control.md R84 to R87, R98). -/

namespace Sys2Proof.Machine

/-- The gauge increments of one block (Table 4.7). -/
structure Counts where
  sat : Nat := 0
  flush : Nat := 0
  zero : Nat := 0
  satBlk : Nat := 0
  fall : Nat := 0
  overs : Nat := 0
  nonfin : Nat := 0
  mism : Nat := 0
  deriving DecidableEq, Repr

/-- Sum of increments. -/
def Counts.add (a b : Counts) : Counts :=
  { sat := a.sat + b.sat, flush := a.flush + b.flush, zero := a.zero + b.zero, satBlk := a.satBlk + b.satBlk,
    fall := a.fall + b.fall, overs := a.overs + b.overs, nonfin := a.nonfin + b.nonfin, mism := a.mism + b.mism }

/-- An operand group (R27, R28, R38): scale fields and codes; for a fall-back group the codes are the INT8 values. -/
structure CodeGroup where
  exp : Nat
  zp : Nat
  uns : Bool
  fb : Bool
  rot : Bool
  codes : List Int
  deriving DecidableEq, Repr

/-- The group scale word (Table 2.2). -/
def CodeGroup.word (g : CodeGroup) : Nat :=
  g.exp * 256 + g.zp * 16 + b2n g.uns * 8 + b2n g.fb * 4 + b2n g.rot * 2

/-- Whether the group is a zero group (R23). -/
def CodeGroup.isZero (g : CodeGroup) : Bool := g.exp == 255

/-- The exponent e = EXP − 127 (R23). -/
def CodeGroup.e (g : CodeGroup) : Int := (g.exp : Int) - 127

/-- The effective integer value of a code: v, c, or c − ZP; 0 in a zero group (R28, R38). -/
def CodeGroup.eff (g : CodeGroup) (j : Nat) : Int :=
  if g.isZero then 0 else if g.uns then g.codes.getD j 0 - g.zp else g.codes.getD j 0

/-- The magnitude exponent μ of a group (Table 3.2); `sat` is the operand quantiser's sat_flag. -/
def CodeGroup.mu (g : CodeGroup) (sat : Bool) : Int :=
  if sat then 128 else if g.fb then g.e + 7 else if g.uns then g.e + 4 else g.e + 3

/-- A reserved scale word: EXP 0xF8 to 0xFE, bit 0 set, ZP without UNS, or UNS with FB (R23, R27, R38). -/
def scaleWordReserved (w : Nat) : Bool :=
  let ex := bits w 15 8
  (decide (0xF8 ≤ ex) && decide (ex ≤ 0xFE)) || bit w 0 || (!bit w 3 && bits w 7 4 != 0) || (bit w 3 && bit w 2)

/-- The four-bit code at an index of a packed string (R24). -/
def nibble (bs : Bytes) (i : Nat) : Nat :=
  let b := (bs.getD (i / 2) 0).toNat
  if i % 2 = 0 then b % 16 else b / 16

/-- Pack four-bit codes two to a byte, even index in bits [3:0] (R24). -/
def packNibbles : List Nat → Bytes
  | [] => []
  | [a] => [BitVec.ofNat 8 (a % 16)]
  | a :: b :: r => BitVec.ofNat 8 (a % 16 + 16 * (b % 16)) :: packNibbles r

/-- The high plane floor(v / 16) of an INT8 code (R38). -/
def planeHigh (v : Int) : Int := v / 16

/-- The low plane v mod 16 of an INT8 code (R38). -/
def planeLow (v : Int) : Nat := (v % 16).toNat

/-- Decode an operand group from its scale word, its 16 data bytes and, for a fall-back group, the 16 bytes of its
high plane (R24, R25, R38). -/
def decodeGroup (w : Nat) (data high : Bytes) : CodeGroup :=
  let uns := bit w 3
  let fb := bit w 2
  let code := fun j => if fb then 16 * toSigned 4 (nibble high j) + (nibble data j : Int)
    else if uns then (nibble data j : Int) else toSigned 4 (nibble data j)
  { exp := bits w 15 8, zp := bits w 7 4, uns := uns, fb := fb, rot := bit w 1, codes := (List.range 32).map code }

/-- The 16 data bytes of a group: codes, or the low plane of a fall-back group (R24, R38). -/
def CodeGroup.data (g : CodeGroup) : Bytes := packNibbles (g.codes.map fun c => ofSigned 4 c)

/-- The operand extension entry of a fall-back group with index `i` (Table 2.5). -/
def CodeGroup.ext (g : CodeGroup) (i : Nat) : Bytes :=
  leBytes 4 i ++ packNibbles (g.codes.map fun c => ofSigned 4 (planeHigh c)) ++ List.replicate 12 0

/-! ### Rotation (R55) -/

/-- One butterfly stage of R55 with distance `h`. -/
def rotStage (h : Nat) (x : List F32) : List F32 :=
  let a := x.toArray
  (List.range x.length).map fun i =>
    if (i / h) % 2 = 0 then fadd (a.getD i 0) (a.getD (i + h) 0) else fsub (a.getD (i - h) 0) (a.getD i 0)

/-- The rotation of R55 on a sub-block of 16 or 256 values: the stages in ascending distance, then the normalisation. -/
def rotate (x : List F32) : List F32 :=
  let (stages, k) := if x.length = 16 then ([1, 2, 4, 8], -2) else ([1, 2, 4, 8, 16, 32, 64, 128], -4)
  (stages.foldl (fun y h => rotStage h y) x).map fun v => fscale v k

/-- Split a list into pieces of `n`, `k` pieces. -/
def pieces {α : Type} (n : Nat) : Nat → List α → List (List α)
  | 0, _ => []
  | k + 1, l => l.take n :: pieces n k (l.drop n)

/-- Rotate a row in sub-blocks of the given order; order 0 leaves it as it is (R55). -/
def rotateRow (order : Nat) (x : List F32) : List F32 :=
  if order = 0 then x else (pieces order (x.length / order) x).flatMap rotate

/-! ### The operand quantiser (R56) -/

/-- What the quantiser writes for a group, with the anchor's sat_flag and the gauge increments. -/
structure QGroup where
  g : CodeGroup
  satFlag : Bool
  nonfin : Bool
  overs : List Nat
  counts : Counts
  deriving DecidableEq, Repr

/-- The magnitude of a finite value as an integer and exponent. -/
def magE (x : F32) : Nat × Int := let (v, e) := exact x; (v.natAbs, e)

/-- ceil(log2(|x| / d)) on real numbers, very negative when x is zero (R56). -/
def ceilLogF (x : F32) (d : Nat) : Int :=
  let (m, e) := magE x
  if m = 0 then -100000 else ceilLog2Div m e d

/-- Insert into a list sorted by descending magnitude. -/
def insMag (x : F32) : List F32 → List F32
  | [] => [x]
  | y :: r => if flt y x then x :: y :: r else y :: insMag x r

/-- The k-th largest magnitude, counted from 1, repeated values counted separately (R84, R85). -/
def kthMag (k : Nat) (xs : List F32) : F32 := ((xs.foldl (fun l x => insMag (fabs x) l) []).getD (k - 1) 0)

/-- Whether |x| > 2^θ × ref with ref > 0 (R84, R85). -/
def overRange (theta : Nat) (ref x : F32) : Bool :=
  !isZero ref &&
    (let (m, e) := magE x
     let (n, f) := magE ref
     let g := min e (f + theta)
     decide (n * 2 ^ (f + theta - g).toNat < m * 2 ^ (e - g).toNat))

/-- The over-range elements of a group, by index: those not on the spillway with |x| > 2^θ × ref, ref the
fourth-largest magnitude outside the spillway (R84). -/
def overRangeGroup (theta : Nat) (xs : List F32) (spill : List Bool) : List Nat :=
  let ns := (List.range 32).filter fun j => !spill.getD j false
  let ref := kthMag 4 (ns.map fun j => xs.getD j 0)
  ns.filter fun j => overRange theta ref (xs.getD j 0)

/-- Clamp an integer (sat of R9). -/
def satI (x lo hi : Int) : Int := if x < lo then lo else if hi < x then hi else x

/-- The zero group that the quantiser writes (R28, R56). -/
def zeroGroup (uns : Bool) (zpt : Nat) (rot : Bool) : CodeGroup :=
  { exp := 255, zp := if uns then zpt else 0, uns := uns, fb := false, rot := rot,
    codes := List.replicate 32 (if uns then (zpt : Int) else 0) }

/-- quant_group of R56, with the fall-back decision already made. -/
def quantGroupCore (xs : List F32) (spill : List Bool) (fb uns : Bool) (zpt : Nat) (rot : Bool) : CodeGroup × Bool × Counts :=
  let ns := (List.range 32).filter fun j => !spill.getD j false
  let hi := ns.foldl (fun h j => fmax h (xs.getD j 0)) (0 : F32)
  let lo := ns.foldl (fun l j => fmin l (xs.getD j 0)) (0 : F32)
  if isZero hi && isZero lo then (zeroGroup uns zpt rot, false, {})
  else
    let m := fmax hi (fabs lo)
    -- the exponent of the four-bit code
    let e4 :=
      if uns then
        let a := ceilLogF hi (15 - zpt)
        if 0 < zpt then max a (ceilLogF lo zpt) else a
      else ceilLogF m 7
    let e1 := max (if fb then ceilLogF m 127 else e4) (-127)
    -- an exponent above 120, or one that would have been above it, is a saturated block (R56, R98, Table 4.7)
    let satBlk := decide (120 < e4)
    let e2 := if satBlk && !fb then ceilLogF m 127 else e1
    let fb := fb || satBlk
    let satFlag := decide (120 < e2)
    let e := if satFlag then 120 else e2
    let un := uns && !fb
    let raw := fun j => rneF (xs.getD j 0) (-e)
    let code := fun j =>
      if spill.getD j false then (if un then (zpt : Int) else 0)
      else if fb then satI (raw j) (-127) 127
      else if un then satI (raw j + zpt) 0 15
      else raw j
    let codes := (List.range 32).map code
    let clipped := (ns.filter fun j =>
      if fb then decide (raw j < -127 ∨ 127 < raw j)
      else un && (decide (raw j + zpt < 0 ∨ 15 < raw j + zpt) || (zpt == 0 && flt (xs.getD j 0) 0))).length
    let zeroCode : Int := if un then zpt else 0
    let flushes := (ns.filter fun j => !isZero (xs.getD j 0) && code j == zeroCode).length
    if codes.all (· == zeroCode) then
      (zeroGroup un (if un then zpt else 0) rot, satFlag,
        { sat := clipped, flush := flushes, zero := 1, satBlk := b2n satBlk })
    else
      ({ exp := (e + 127).toNat, zp := if un then zpt else 0, uns := un, fb := fb, rot := rot, codes := codes }, satFlag,
        { sat := clipped, flush := flushes, satBlk := b2n satBlk, fall := b2n fb })

/-- The quantiser on one group (R56, R57, R84, R86): `atCap` says that the block's spillway list is at capacity,
`spillway` that the product has a spillway at all. -/
def quantGroup (xs : List F32) (spill : List Bool) (spillway atCap uns : Bool) (zpt theta : Nat) (rot : Bool) : QGroup :=
  if xs.any (fun x => !isFin x) then
    { g := zeroGroup false 0 rot, satFlag := false, nonfin := true, overs := [], counts := { nonfin := 1 } }
  else
    let ov := overRangeGroup theta xs spill
    let (g, sf, c) := quantGroupCore xs spill (!ov.isEmpty) uns zpt rot
    { g := g, satFlag := sf, nonfin := false, overs := ov,
      counts := { c with overs := if spillway && atCap then ov.length else 0 } }

/-! ### The stash quantiser (R44, R58) -/

/-- A stash group: exponent field, unsigned flag, codes. -/
structure Stash where
  exp : Nat
  uns : Bool
  codes : List Int
  deriving DecidableEq, Repr

/-- The stash quantiser (R58, R129). -/
def quantStash (xs : List F32) (uns : Bool) : Stash × Counts :=
  let z : Stash := { exp := 255, uns := uns, codes := List.replicate 32 0 }
  if xs.any (fun x => !isFin x) then (z, { nonfin := 1 })
  else
    let m := xs.foldl (fun h x => fmax h (if uns then x else fabs x)) (0 : F32)
    let e0 := max (ceilLogF m (if uns then 255 else 127)) (-127)
    let e := min e0 120
    let (lo, hi) : Int × Int := if uns then (0, 255) else (-127, 127)
    let raw := xs.map fun x => rneF x (-e)
    let codes := raw.map fun v => satI v lo hi
    let anyIn := xs.any fun x => !isZero x
    let clipped := (xs.zip raw).countP fun xv => decide (hi < xv.2 ∨ xv.2 < lo) || (uns && flt xv.1 0)
    let flushes := (xs.zip codes).countP fun xc => !isZero xc.1 && xc.2 == 0
    if codes.all (· == 0) then (z, { sat := clipped, flush := flushes, zero := b2n anyIn })
    else ({ exp := (e + 127).toNat, uns := uns, codes := codes }, { sat := clipped, flush := flushes })

/-- The scale entry of a stash group with index `g` (Table 2.7). -/
def Stash.entry (s : Stash) (g : Nat) : Bytes :=
  [BitVec.ofNat 8 s.exp, BitVec.ofNat 8 (b2n s.uns)] ++ leBytes 2 (g % 65536)

/-- The 32 data bytes of a stash group (R44). -/
def Stash.data (s : Stash) : Bytes := s.codes.map fun c => BitVec.ofNat 8 (ofSigned 8 c)

/-- Decode a stash group of index `g`, checking GTAG and the reserved encodings (R44, R45, R26); `none` is a
stream mismatch. -/
def decodeStash (entry data : Bytes) (g : Nat) : Option (List F32) :=
  let ex := field entry 0 1
  let fl := field entry 1 1
  if field entry 2 2 ≠ g % 65536 ∨ 2 ≤ fl ∨ (0xF8 ≤ ex ∧ ex ≤ 0xFE) then none
  else some ((List.range 32).map fun j =>
    if ex = 255 then (0 : F32)
    else
      let b := (data.getD j 0).toNat
      toFp32 (if fl = 1 then (b : Int) else toSigned 8 b) ((ex : Int) - 127))

/-! ### Weight tiles (R30 to R40, R59) -/

/-- A side record (Tables 2.3, 2.4). -/
structure SideRec where
  exp : Nat
  zp : Nat
  rot : Bool
  berm : Bool
  fb : Bool
  spill : Bool
  tag : Nat
  rowsum : List Int
  colsum : List Int
  crc : Nat
  deriving DecidableEq, Repr

/-- Read a 40-byte side record (Table 2.3). -/
def decodeSide (bs : Bytes) : SideRec :=
  let f := field bs 1 1
  { exp := field bs 0 1, zp := f / 16, rot := bit f 3, berm := bit f 2, fb := bit f 1, spill := bit f 0, tag := field bs 2 2,
    rowsum := (List.range 16).map fun r => toSigned 8 (field bs (4 + r) 1),
    colsum := (List.range 16).map fun c => toSigned 8 (field bs (20 + c) 1), crc := field bs 36 2 }

/-- The 40 bytes of a side record (Table 2.3). -/
def SideRec.bytes (s : SideRec) : Bytes :=
  [BitVec.ofNat 8 s.exp, BitVec.ofNat 8 (16 * s.zp + 8 * b2n s.rot + 4 * b2n s.berm + 2 * b2n s.fb + b2n s.spill)] ++
    leBytes 2 s.tag ++ s.rowsum.map (fun v => BitVec.ofNat 8 (ofSigned 8 v)) ++
    s.colsum.map (fun v => BitVec.ofNat 8 (ofSigned 8 v)) ++ leBytes 2 s.crc ++ [0, 0]

/-- A weight tile as the engine uses it: its record, its codes (row-major), and for a fall-back tile the codes of
the high plane and its record. -/
structure Tile where
  s : SideRec
  codes : List Nat
  hrec : SideRec
  high : List Nat
  deriving DecidableEq, Repr

/-- Whether the tile is a zero tile (R33). -/
def Tile.isZero (t : Tile) : Bool := t.s.exp == 255

/-- The exponent of the tile (R31). -/
def Tile.e (t : Tile) : Int := (t.s.exp : Int) - 127

/-- The effective integer value at row r, column c (R31, R39). -/
def Tile.eff (t : Tile) (r c : Nat) : Int :=
  let l : Int := t.codes.getD (16 * r + c) 0
  if t.isZero then 0
  else if t.s.fb then 16 * ((t.high.getD (16 * r + c) 0 : Nat) - 8 : Int) + l
  else l - t.s.zp

/-- The magnitude exponent ν of a tile (Table 3.2). -/
def Tile.nu (t : Tile) : Int := if t.s.fb then t.e + 7 else t.e + 4

/-- The sum against 8 of a row of codes (R32). -/
def sumAgainst8 (codes : List Nat) (idx : List Nat) : Int := (idx.map fun i => ((codes.getD i 0 : Nat) : Int) - 8).sum

/-- The stored row and column sums of a code block (R32). -/
def codeSums (codes : List Nat) : List Int × List Int :=
  ((List.range 16).map fun r => sumAgainst8 codes ((List.range 16).map fun c => 16 * r + c),
   (List.range 16).map fun c => sumAgainst8 codes ((List.range 16).map fun r => 16 * r + c))

/-- The 128-byte code block of 256 codes (R30). -/
def codeBlock (codes : List Nat) : Bytes := packNibbles codes

/-- The codes of a 128-byte code block (R30). -/
def blockCodes (bs : Bytes) : List Nat := (List.range 256).map (nibble bs)

/-- Whether a tile is read as a stream mismatch: TAG or CRC fails, reserved EXP, a forbidden zero tile, a fall-back
pair that disagrees, or a ROT flag that disagrees with the order of the descriptor (R26, R33, R36, R39, R82). -/
def tileMismatch (t : Tile) (i : Nat) (block hblock : Bytes) (extIndex : Nat) (order : Nat) : Bool :=
  let s := t.s
  s.tag != i % 65536 || s.crc != crc16 block || (decide (0xF8 ≤ s.exp) && decide (s.exp ≤ 0xFE)) ||
    (t.isZero && (s.zp != 8 || s.fb || s.rot)) ||
    (!t.isZero && (s.rot != decide (order ≠ 0))) ||
    (!t.isZero && s.fb &&
      (s.zp != 0 || t.hrec.zp != 8 || t.hrec.exp != s.exp || t.hrec.tag != s.tag || !t.hrec.fb ||
        t.hrec.crc != crc16 hblock || extIndex != i))

/-- The zero tile of index i (R33), with the SPILL and BERM flags of its tensor. -/
def zeroTile (i : Nat) (berm spill : Bool) : Tile :=
  let codes := List.replicate 256 8
  let rec0 : SideRec :=
    { exp := 255, zp := 8, rot := false, berm := berm, fb := false, spill := spill, tag := i % 65536,
      rowsum := List.replicate 16 0, colsum := List.replicate 16 0, crc := crc16 (codeBlock codes) }
  { s := rec0, codes := codes, hrec := rec0, high := codes }

/-- ceil(−lo / 2^e), as −floor(lo / 2^e) (R59). -/
def tileZp (lo : F32) (e : Int) : Nat :=
  let (v, f) := exact lo
  let k := f - e
  (-(if 0 ≤ k then v * ((2 ^ k.toNat : Nat) : Int) else v / ((2 ^ (-k).toNat : Nat) : Int))).toNat

/-- quant_tile of R59 on 256 values, row-major, with the fall-back decision of R85 and R86. The difference hi − lo is taken exactly
(log entry 79). -/
def quantTile (w : List F32) (theta i : Nat) (rot berm spill : Bool) : Tile × Counts :=
  let ref := kthMag 16 w
  let fb0 := w.any fun x => overRange theta ref x
  let hi := w.foldl fmax (0 : F32)
  let lo := w.foldl fmin (0 : F32)
  if isZero hi && isZero lo then (zeroTile i berm spill, {})
  else
    -- hi − lo, exactly (log entry 79)
    let (a, ea) := exact hi
    let (b, eb) := exact lo
    let g := min ea eb
    let diff := (a * (2 ^ (ea - g).toNat : Nat) - b * (2 ^ (eb - g).toNat : Nat)).natAbs
    let e0 := max (ceilLog2Div diff g 15) (-127)
    let sat1 := decide (120 < e0)
    let fb1 := fb0 || decide (120 < e0)
    let zpOf := tileZp lo
    let tooBig := !fb1 && decide (15 < rneF hi (-e0) + zpOf e0)
    let sat2 := tooBig && decide (e0 = 120)
    let fb := fb1 || sat2
    let e1 := if tooBig && !sat2 then e0 + 1 else e0
    let m := fmax hi (fabs lo)
    let nz := w.filter fun x => !isZero x
    if !fb then
      let zp := zpOf e1
      let codes := w.map fun x => (rneF x (-e1) + zp).toNat
      let flushes := (w.zip codes).countP fun xc => !isZero xc.1 && xc.2 == zp
      if codes.all (· == zp) then (zeroTile i berm spill, { flush := flushes, zero := b2n (!nz.isEmpty) })
      else
        let (rs, cs) := codeSums codes
        let s : SideRec := { exp := (e1 + 127).toNat, zp := zp, rot := rot, berm := berm, fb := false, spill := spill, tag := i % 65536,
                             rowsum := rs, colsum := cs, crc := crc16 (codeBlock codes) }
        ({ s := s, codes := codes, hrec := s, high := [] }, { flush := flushes })
    else
      let e := min (max (ceilLogF m 127) (-127)) 120
      let vs := w.map fun x => satI (rneF x (-e)) (-127) 127
      let flushes := (w.zip vs).countP fun xv => !isZero xv.1 && xv.2 == 0
      let clipped := w.countP fun x => decide (rneF x (-e) < -127 ∨ 127 < rneF x (-e))
      if vs.all (· == 0) then
        (zeroTile i berm spill, { sat := clipped, flush := flushes, zero := 1, satBlk := b2n (sat1 || sat2) })
      else
        let low := vs.map planeLow
        let high := vs.map fun v => (planeHigh v + 8).toNat
        let (rs, cs) := codeSums low
        let (hrs, hcs) := codeSums high
        let s : SideRec := { exp := (e + 127).toNat, zp := 0, rot := rot, berm := berm, fb := true, spill := spill, tag := i % 65536,
                             rowsum := rs, colsum := cs, crc := crc16 (codeBlock low) }
        let h : SideRec := { s with zp := 8, rowsum := hrs, colsum := hcs, crc := crc16 (codeBlock high) }
        ({ s := s, codes := low, hrec := h, high := high },
          { sat := clipped, flush := flushes, satBlk := b2n (sat1 || sat2), fall := 1 })

/-- The 256-byte weight extension entry of a fall-back tile (Table 2.6). -/
def Tile.ext (t : Tile) (i : Nat) : Bytes :=
  codeBlock t.high ++ t.hrec.bytes ++ leBytes 4 i ++ List.replicate 84 0

/-- The offset of the code block of tile i (R30). -/
def tileOffset (i : Nat) : Nat := 128 * i

/-- The offset of the side record of tile i (R35). -/
def sideOffset (i : Nat) : Nat := 640 * (i / 16) + 40 * (i % 16)

/-! ### Spillway lists (R41, R91) -/

/-- Read a 32-byte channel list with capacity `cap`; `none` is a stream mismatch (R41). -/
def decodeChan (bs : Bytes) (cap : Nat) : Option (List Nat) :=
  let n := field bs 0 1
  let offs := (List.range n).map fun t => field bs (1 + t) 1
  if cap < n ∨ !(offs.zip (offs.drop 1)).all (fun ab => decide (ab.1 < ab.2)) then none else some offs

/-- The 32 bytes of a channel list (R41). -/
def encodeChan (offs : List Nat) : Bytes := slice ((BitVec.ofNat 8 offs.length) :: offs.map (BitVec.ofNat 8)) 0 32

/-- Insert into a list of (count, offset) sorted by count descending, then offset ascending (R91). -/
def insCand (x : Nat × Nat) : List (Nat × Nat) → List (Nat × Nat)
  | [] => [x]
  | y :: r => if y.1 < x.1 ∨ (y.1 = x.1 ∧ x.2 < y.2) then x :: y :: r else y :: insCand x r

/-- Insert into an ascending list. -/
def insAsc (x : Nat) : List Nat → List Nat
  | [] => [x]
  | y :: r => if x < y then x :: y :: r else y :: insAsc x r

/-- The channel-list update of R91: `counts` lists (offset, job-wide count). -/
def growChan (list : List Nat) (cap : Nat) (counts : List (Nat × Nat)) : List Nat :=
  let cand := (counts.filter fun oc => decide (0 < oc.2) && !list.contains oc.1).foldl (fun l oc => insCand (oc.2, oc.1) l) []
  ((cand.take (cap - list.length)).map (·.2)).foldl (fun l o => insAsc o l) list

end Sys2Proof.Machine
end

