-- ==== Sys2Proof/Machine/Gemm.lean ====
section
/-! DEFINITION. Products, the tile check, side paths, output conversion, weight gradients, the MX path, the mixer and
the digests (03_reference_arithmetic.md; R236 to R243 arithmetic). -/

namespace Sys2Proof.Machine

/-! ### Anchors (R53) -/

/-- L = ceil(log2 K) + 1 (R53). -/
def anchorL (k : Nat) : Int := (ceilLog2 k : Int) + 1

/-- Eacc(m) = MU(m) + NU + L − 31 (R53). -/
def eacc (mu nu : Int) (k : Nat) : Int := mu + nu + anchorL k - 31

/-- The largest of a list of exponents, or the value R53 gives when there is none. -/
def maxExp (d : Int) : List Int → Int
  | [] => d
  | x :: xs => xs.foldl max x

/-- The smallest integer k with |x| ≤ 2^k, for a non-zero finite x (Table 3.2). -/
def magExp (x : F32) : Int := let (m, e) := magE x; ceilLog2Div m e 1

/-! ### The tile product (R60, R61) -/

/-- The exact chunk product of effective values (R60). -/
def chunkSum (a w : List Int) : Int := ((a.zip w).map fun p => p.1 * p.2).sum

/-- The chunk product from raw codes and the stored sums, corrected for the zero points (R61). `sw8` is the stored
sum against 8 of the 16 weight codes. -/
def chunkRaw (a w : List Int) (zpa zpw sw8 : Int) : Int :=
  ((a.zip w).map fun p => p.1 * p.2).sum - zpw * a.sum - zpa * (sw8 + 128) + 16 * zpa * zpw

/-- A chunk aligned to the anchor (R60); in guard-bit mode the bits shifted out are dropped (R72). -/
def alignChunk (guard : Bool) (p sh : Int) : Int :=
  if 0 ≤ sh then p * ((2 ^ sh.toNat : Nat) : Int)
  else if guard then p / ((2 ^ (-sh).toNat : Nat) : Int) else rneShift p (-sh).toNat

/-- One addition into the accumulator; in guard-bit mode it saturates and sets the sticky flag (R60, R72). -/
def accAdd (guard : Bool) (acc : Int × Bool) (v : Int) : Int × Bool :=
  let s := acc.1 + v
  if guard && decide (s < -(2 ^ 31) ∨ 2 ^ 31 - 1 < s) then (satI s (-(2 ^ 31)) (2 ^ 31 - 1), true) else (s, acc.2)

/-- The accumulator of one output element from its chunks (product, exponent) and spillway terms (R60, R72). -/
def accumulate (guard : Bool) (ea : Int) (chunks : List (Int × Int)) (spills : List Int) : Int × Bool :=
  let ea := if guard then ea - 3 else ea
  let a := chunks.foldl (fun acc pe => accAdd guard acc (alignChunk guard pe.1 (pe.2 - ea))) (0, false)
  spills.foldl (accAdd guard) a

/-! ### The tile check (R62, Table 3.3) -/

/-- The classes of Table 3.3. -/
inductive CheckClass where
  | pass | compute | sideRecord
  deriving DecidableEq, Repr

/-- Row sums of a matrix given as rows. -/
def rowSums (p : List (List Int)) : List Int := p.map List.sum

/-- Column sums of a matrix of `n` columns. -/
def colSums (n : Nat) (p : List (List Int)) : List Int :=
  (List.range n).map fun c => (p.map fun r => r.getD c 0).sum

/-- The column check values: Σk sA[k] × w′[k][n], with sA the sums of the operand's columns (R62). -/
def colChk (n : Nat) (a w : List (List Int)) : List Int :=
  let sA := colSums 16 a
  (List.range n).map fun c => ((sA.zip w).map fun sr => sr.1 * sr.2.getD c 0).sum

/-- The row check values: Σk a′[m][k] × rw[k] (R62). -/
def rowChk (a : List (List Int)) (rw : List Int) : List Int := a.map fun r => chunkSum r rw

/-- Positions at which two lists differ. -/
def diffs (x y : List Int) : List Nat := (List.range x.length).filter fun i => x.getD i 0 != y.getD i 0

/-- The classification of Table 3.3, with the rows and columns that mismatch. -/
def tileCheck (isTile : Bool) (n : Nat) (a w p : List (List Int)) (rw : List Int) : CheckClass × List Nat × List Nat :=
  let cc := colChk n a w
  let rc := rowChk a rw
  let rows := diffs (rowSums p) rc
  let cols := diffs (colSums n p) cc
  let grand := cc.sum != rc.sum
  let cls :=
    if rows.isEmpty && cols.isEmpty then (if grand then CheckClass.compute else CheckClass.pass)
    else if !rows.isEmpty && cols.isEmpty then (if isTile then CheckClass.sideRecord else CheckClass.compute)
    else CheckClass.compute
  (cls, rows, cols)

/-! ### Spillway and berm terms (R64, R65) -/

/-- The binary32 sum of a spillway block in list order (R64): terms (x, decoded weight). -/
def spillSum (terms : List (F32 × F32)) : F32 := terms.foldl (fun s t => fadd s (fmul t.1 t.2)) 0

/-- Whether the running sum of R64 becomes infinite or NaN after any of its additions. -/
def spillNonFin (terms : List (F32 × F32)) : Bool :=
  (terms.foldl (fun (sb : F32 × Bool) t => let s := fadd sb.1 (fmul t.1 t.2); (s, sb.2 || !isFin s)) (0, false)).2

/-- The spillway term in units of the anchor (R64); in guard-bit mode the division is floored (R72). -/
def spillTerm (guard : Bool) (ea : Int) (terms : List (F32 × F32)) : Int :=
  let ea := if guard then ea - 3 else ea
  let (v, e) := exact (spillSum terms)
  let k := e - ea
  if guard && decide (k < 0) then v / ((2 ^ (-k).toNat : Nat) : Int) else rnePow v k

/-- Stage 1 of the berm for one rank index: the blocks' (x, U) pairs (R65). A block sum that is infinite or NaN adds 0 (log entry 80). -/
def bermStage1 (eu : Int) (blocks : List (List (F32 × F32))) : Int :=
  (blocks.map fun b => rneF (b.foldl (fun s t => fadd s (fmul t.1 t.2)) 0) (-eu)).sum

/-- Stage 2 of the berm: (ub, V) pairs in ascending rank index (R65). -/
def bermStage2 (eu : Int) (ubv : List (Int × F32)) : F32 :=
  ubv.foldl (fun y t => fadd y (fmul (toFp32 t.1 eu) t.2)) 0

/-! ### Output conversion (R66) -/

/-- The binary32 result before bias and clip: to_fp32 of the accumulator plus the berm term (R66). -/
def outBase (acc ea : Int) (berm : Option F32) : F32 :=
  match berm with
  | none => toFp32 acc ea
  | some y => fadd (toFp32 acc ea) y

/-- Output scale, bias and clip (R66). -/
def outFinish (z : F32) (osc : Int) (bias : BF16) (clo chi : BF16) : F32 :=
  let z := fadd (fscale z osc) (widen bias)
  if isFin z then fmin (fmax z (widen clo)) (widen chi) else z

/-! ### Weight gradients (R67, R68) -/

/-- Λ = 2^(31 − ceil(log2 NB)) (R68). -/
def lambda (nb : Nat) : Int := ((2 ^ (31 - ceilLog2 nb) : Nat) : Int)

/-- A weight-gradient element from its block values: the stored element, and whether a block reached Λ (R68). -/
def wgradElem (nb : Nat) (blocks : List Int) : Int × Bool :=
  let s := blocks.sum
  if blocks.any fun b => decide (lambda nb ≤ b.natAbs) then ((if 0 ≤ s then 2 ^ 31 - 1 else -(2 ^ 31 - 1)), true) else (s, false)

/-! ### The MX path (R48 to R50, R69 to R71) -/

/-- The MX element formats, in the order of MXA (Table 6.7). -/
inductive MxFmt where
  | e4m3 | e5m2 | e2m3 | e3m2 | e2m1 | mxint8
  deriving DecidableEq, Repr

/-- The format of a code of MXA, MXB or MXO. -/
def mxFmt : Nat → Option MxFmt
  | 0 => some .e4m3
  | 1 => some .e5m2
  | 2 => some .e2m3
  | 3 => some .e3m2
  | 4 => some .e2m1
  | 5 => some .mxint8
  | _ => none

/-- Width, mantissa bits, exponent bias, and the encoding of the largest magnitude (Table 2.8). -/
def MxFmt.shape : MxFmt → Nat × Nat × Int × Nat
  | .e4m3 => (8, 3, 7, 0x7E)
  | .e5m2 => (8, 2, 15, 0x7B)
  | .e2m3 => (6, 3, 1, 0x1F)
  | .e3m2 => (6, 2, 3, 0x1F)
  | .e2m1 => (4, 1, 1, 0x7)
  | .mxint8 => (8, 0, 0, 0x7F)

/-- An element as an integer times a power of two; `none` for an infinity or a NaN (R49, R50, R69). -/
def mxDecode (f : MxFmt) (c : Nat) : Option (Int × Int) :=
  match f with
  | .mxint8 => some (toSigned 8 c, -6)
  | _ =>
    let (w, mb, bias, _) := f.shape
    let neg := bit c (w - 1)
    let ex := bits c (w - 2) mb
    let fr := c % 2 ^ mb
    let bad := match f with
      | .e4m3 => ex == 15 && fr == 7
      | .e5m2 => ex == 31
      | _ => false
    if bad then none
    else
      let m := if ex = 0 then fr else fr + 2 ^ mb
      some (smant neg m, (if ex = 0 then 1 else (ex : Int)) - bias - mb)

/-- The codes of a block of 32 elements (R48). -/
def mxCodes (f : MxFmt) (bs : Bytes) : List Nat :=
  let w := f.shape.1
  let v := leVal bs
  (List.range 32).map fun j => (v / 2 ^ (w * j)) % 2 ^ w

/-- The bytes of one block of elements (R48). -/
def mxBlockBytes (f : MxFmt) : Nat := f.shape.1 * 4

/-- Whether a block is non-finite: a NaN scale or a NaN or infinite element (R49). -/
def mxNonFin (f : MxFmt) (x : Nat) (codes : List Nat) : Bool := x == 255 || codes.any fun c => (mxDecode f c).isNone

/-- The result of one block pair (R69). -/
def mxPair (fa fb : MxFmt) (xa xb : Nat) (ca cb : List Nat) : F32 :=
  let prods := (ca.zip cb).map fun c =>
    match mxDecode fa c.1, mxDecode fb c.2 with
    | some (i, q), some (j, r) => (i * j, q + r)
    | _, _ => (0, 0)
  let nz := prods.filter fun p => p.1 != 0
  if nz.isEmpty then 0
  else
    let qmax := maxExp 0 (nz.map (·.2))
    let g := (nz.map fun p => p.1 * ((2 ^ (p.2 - qmax + 64).toNat : Nat) : Int)).sum
    toFp32 g (qmax - 64 + (xa - 127) + (xb - 127))

/-- Cross-block sum in ascending block index (R70). -/
def mxSum (blocks : List F32) : F32 := blocks.foldl fadd 0

/-- The largest exponent of a format (R71). -/
def MxFmt.emax : MxFmt → Int
  | .e4m3 => 8
  | .e5m2 => 15
  | .e2m3 => 2
  | .e3m2 => 4
  | .e2m1 => 2
  | .mxint8 => 0

/-- floor(log2 |x|) of a non-zero finite value. -/
def floorLog2F (x : F32) : Int := let (m, e) := magE x; (Nat.log2 m : Int) + e

/-- One output element: v / 2^X in the format, rounded with ties to the even significand and clamped (R71). The second
component says whether it was clamped. -/
def mxEncode (f : MxFmt) (v : F32) (x : Int) : Nat × Bool :=
  let (sm, e) := exact v
  let neg := decide (sm < 0)
  match f with
  | .mxint8 =>
    let r := rnePow sm (e - x + 6)
    (ofSigned 8 (satI r (-127) 127), decide (r < -127 ∨ 127 < r))
  | _ =>
    let (w, mb, bias, top) := f.shape
    if sm = 0 then (b2n neg * 2 ^ (w - 1), false)
    else
      let fl := (Nat.log2 sm.natAbs : Int) + e - x
      let q := max fl (1 - bias) - mb
      let r := (rnePow (sm.natAbs : Int) (e - x - q)).toNat
      let code := ((q + mb + bias - 1).toNat * 2 ^ mb) + r
      ((if top < code then top else code) + b2n neg * 2 ^ (w - 1), decide (top < code))

/-- An MX output block: the scale byte, the 32 codes, and the gauge increments (R71). The codes of a non-finite block are 0 (log entry
81). -/
def mxOut (f : MxFmt) (vs : List F32) : Nat × List Nat × Counts :=
  if vs.any fun v => !isFin v then (255, vs.map fun _ => 0, { nonfin := 1 })
  else
    let m := vs.foldl (fun h v => fmax h (fabs v)) (0 : F32)
    let x := if isZero m then -127 else satI (floorLog2F m - f.emax) (-127) 127
    let es := vs.map fun v => mxEncode f v x
    ((x + 127).toNat, es.map (·.1),
      { sat := es.countP (·.2), flush := (vs.zip es).countP fun ve => !isZero ve.1 && ve.2.1 % 2 ^ (f.shape.1 - 1) == 0 })

/-- The bytes of a block of codes (R48). -/
def mxPack (f : MxFmt) (codes : List Nat) : Bytes :=
  leBytes (mxBlockBytes f) ((List.range codes.length).foldl (fun v j => v + codes.getD j 0 * 2 ^ (f.shape.1 * j)) 0)

/-! ### The mixer and stochastic rounding (R74, R75) -/

/-- Rotate a 64-bit word left (R51). -/
def rotl64 (x n : Nat) : Nat := ((x * 2 ^ n) % 2 ^ 64) ||| (x / 2 ^ (64 - n))

/-- One round of R74. -/
def mixRound (seed : Nat) (x : Nat × Nat) (ir : Nat × Nat) : Nat × Nat :=
  let k := (seed + (ir.1 + 1) * 0x6A5D39E1C2B74F13) % 2 ^ 64
  let x0 := (x.1 + x.2 + k) % 2 ^ 64
  let x1 := rotl64 x.2 ir.2 ^^^ x0
  let x0 := x0 * 0x8F3C5A27B1E46D95 % 2 ^ 64
  (x0, x1 ^^^ (x0 / 2 ^ 31))

/-- The uint64 value (x0 xor x1) of R74 before its final shift: mix64 of R238. -/
def mix64 (seed step tensor index : Nat) : Nat :=
  let x := [(0, 29), (1, 41), (2, 17), (3, 53)].foldl (mixRound seed)
    (index % 2 ^ 64, ((step % 2 ^ 32) * 2 ^ 32) ||| (tensor % 2 ^ 32))
  x.1 ^^^ x.2

/-- mix16 of R74. -/
def mix16 (seed step tensor index : Nat) : Nat := mix64 seed step tensor index / 2 ^ 48

/-- The outcome of stochastic rounding: the BF16 value, saturated, non-finite (R75). -/
def srBf16 (u : F32) (r : Nat) : BF16 × Bool × Bool :=
  if isNan u then (nan16, false, true)
  else if !isFin u then (BitVec.ofNat 16 (u.toNat / 65536), false, true)
  else
    let b := u.toNat
    let t := (b + r % 65536) % 2 ^ 32 / 65536
    if bits t 14 7 = 255 then (BitVec.ofNat 16 ((b / 2 ^ 31) * 2 ^ 15 + 0x7F7F), true, false) else (BitVec.ofNat 16 t, false, false)

/-! ### Digests (R238, R288) -/

/-- p = 2^61 − 1. -/
def digP : Nat := 2 ^ 61 - 1

/-- The weight of element i of reduction REDID in step t (R238). -/
def digWeight (seed step redid i : Nat) : Nat := 1 + mix64 seed step redid i % (digP - 1)

/-- An integer modulo p. -/
def modP (n : Int) : Nat := (n % (digP : Int)).toNat

/-- The digest of elements that start at index `i` (R238). -/
def digest (seed step redid : Nat) : Nat → List Int → Nat
  | _, [] => 0
  | i, n :: ns => (digWeight seed step redid i * modP n + digest seed step redid (i + 1) ns) % digP

/-! ### Contract scales (R241) -/

/-- The contract scale of the next step (R241). -/
def nextScale (s : Int) (m h nb : Nat) (psat pnf : Bool) : Int :=
  let v := if psat then s + 4
    else if pnf || m == 0 then s
    else (ceilLog2 m : Int) + s - 31 + h + ceilLog2 nb
  satI v (-126) 126

end Sys2Proof.Machine
end

