-- ==== Sys2Proof/Machine/Vector.lean ====
section
/-! DEFINITION. The vector unit and the update engine's arithmetic (05_training_passes.md R105, R106, R111 to R114,
R117, R120 to R124, R127, R132 to R134). -/

namespace Sys2Proof.Machine

/-- 1.0 -/
def f1 : F32 := 0x3F800000#32

/-- 0.5 -/
def fHalf : F32 := 0x3F000000#32

/-- 2.0 -/
def f2 : F32 := 0x40000000#32

/-- The sum of one block of 256 values in ascending order (R106). -/
def blockSum (v : List F32) : F32 := v.foldl fadd 0

/-- row_sum of R106: the row padded with zeros to a multiple of 256, block sums in ascending block index. -/
def rowSum (v : List F32) : F32 :=
  let n := (v.length + 255) / 256
  ((pieces 256 n (v ++ List.replicate (n * 256 - v.length) 0)).map blockSum).foldl fadd 0

/-- The binary32 value nearest 1/n (R113). -/
def invN (n : Nat) : F32 := fdiv f1 (toFp32 n 0)

/-- The maximum of two values; with a NaN it is a free value (log entry 2), and a NaN that is written is the canonical one (R46). -/
def vmax (x y : F32) : F32 :=
  if isNan x || isNan y then (if isNan (Config.maxNan x y) then nan32 else Config.maxNan x y) else fmax x y

/-- The forward activations of Tables 5.3 and 5.4, by OP code 0x01 to 0x09; `alpha` is the PARAM of leaky ReLU. -/
def activation (op : Nat) (alpha x : F32) : F32 :=
  match op with
  | 1 => vmax 0 x
  | 2 => if isNan x || flt x 0 then fmul alpha x else x
  | 3 => fsigmoid x
  | 4 => ftanh x
  | 5 => fexp x
  | 6 => fmul (vmax 0 x) (vmax 0 x)
  | 7 => fmul x (fsigmoid x)
  | 8 =>
    let u := fmul cSqrt2Pi (fadd x (fmul 0x3D372713#32 (fmul (fmul x x) x)))
    fmul (fmul fHalf x) (fadd f1 (ftanh u))
  | 9 => fmul (fmul fHalf x) (fadd f1 (ferf (fmul x cRsqrt2)))
  | _ => x

/-- The derivatives, by the same codes: from the saved output for 1 to 6 (R111), from the saved input for 7 to 9 (R112). -/
def derivative (op : Nat) (alpha v : F32) : F32 :=
  match op with
  | 1 => if flt 0 v then f1 else 0
  | 2 => if flt 0 v then f1 else alpha
  | 3 => fmul v (fsub f1 v)
  | 4 => fsub f1 (fmul v v)
  | 5 => v
  | 6 => fmul f2 (fsqrt v)
  | 7 => let s := fsigmoid v; fmul s (fadd f1 (fmul v (fsub f1 s)))
  | 8 =>
    let u := fmul cSqrt2Pi (fadd v (fmul 0x3D372713#32 (fmul (fmul v v) v)))
    let t := ftanh u
    fadd (fmul fHalf (fadd f1 t))
      (fmul (fmul fHalf v) (fmul (fsub f1 (fmul t t)) (fmul cSqrt2Pi (fadd f1 (fmul 0x3E095D4F#32 (fmul v v))))))
  | 9 => fadd (fmul fHalf (fadd f1 (ferf (fmul v cRsqrt2)))) (fmul v (fmul cRsqrt2Pi (fexp (fmul 0xBF000000#32 (fmul v v)))))
  | _ => v

/-- The derivative of an activation from a saved input: for an output-derivable function the output is recomputed (R112). -/
def derivFromInput (op : Nat) (alpha x : F32) : F32 :=
  if op ≤ 6 then derivative op alpha (activation op alpha x) else derivative op alpha x

/-- A vector-parameter gradient over one reduction block of rows: Σ rne(term / 2^(s − 31)) (R114). -/
def vparamBlock (s : Int) (terms : List F32) : Int := (terms.map fun t => rneF t (31 - s)).sum

/-- A loss element as an integer: rne(ℓ × 2^16) clamped to ±(2^32 − 1); the flags say clamped and non-finite (R132). -/
def lossInt (l : F32) : Int × Bool × Bool :=
  if !isFin l then (0, false, true)
  else
    let v := rneF l 16
    (satI v (-(2 ^ 32 - 1)) (2 ^ 32 - 1), decide (v < -(2 ^ 32 - 1) ∨ 2 ^ 32 - 1 < v), false)

/-! ### The optimizers (R117, R120 to R124) -/

/-- The optimizer record's values (Table 5.5). -/
structure OptRec where
  tensor : Nat
  opt : Nat
  clip : Nat
  b1 : F32
  b2 : F32
  eps : F32
  wd : F32
  gm : F32
  tau : F32
  p1 : F32
  p2 : F32
  napp : Nat
  lrt : Nat
  deriving DecidableEq, Repr

/-- Read a 64-byte optimizer record (Table 5.5). -/
def decodeOpt (bs : Bytes) : OptRec :=
  let f := fun o => (BitVec.ofNat 32 (field bs o 4) : F32)
  { tensor := field bs 0 4, opt := field bs 4 1, clip := field bs 5 1, b1 := f 8, b2 := f 12, eps := f 16, wd := f 20, gm := f 24,
    tau := f 28, p1 := f 32, p2 := f 36, napp := field bs 40 4, lrt := field bs 44 4 }

/-- The 64 bytes of an optimizer record (Table 5.5). -/
def OptRec.bytes (o : OptRec) : Bytes :=
  leBytes 4 o.tensor ++ [BitVec.ofNat 8 o.opt, BitVec.ofNat 8 o.clip, 0, 0] ++
    ([o.b1, o.b2, o.eps, o.wd, o.gm, o.tau, o.p1, o.p2].flatMap fun v => leBytes 4 v.toNat) ++
    leBytes 4 o.napp ++ leBytes 4 o.lrt ++ List.replicate 16 0

/-- P1, P2 and NAPP after one applied update: the powers and the count, updated once before the elements (R121,
R122). -/
def OptRec.advance (o : OptRec) : OptRec :=
  { o with p1 := fmul o.p1 o.b1, p2 := fmul o.p2 o.b2, napp := o.napp + 1 }

/-- The clip factor from the exact sum of squares Q at exponent 2(s − 31): `none` when q is infinite (R120). -/
def clipFactor (o : OptRec) (q : Nat) (s : Int) : Option F32 :=
  if o.clip = 1 then
    let qf := toFp32 (q : Int) (2 * (s - 31))
    if !isFin qf then none
    else
      let norm := fmul (fsqrt qf) (fabs o.gm)
      some (if flt o.tau norm then fdiv o.tau norm else f1)
  else some f1

/-- The tied sum of one element: uses (n, s), the largest scale smax (R117). -/
def tiedSum (uses : List (Int × Int)) (smax : Int) : Int := (uses.map fun u => rnePow u.1 (u.2 - smax)).sum

/-- The gradient of an element (R120). -/
def gradOf (o : OptRec) (n : Int) (s : Int) (cl : F32) : F32 := fmul (fmul (toFp32 n (s - 31)) o.gm) cl

/-- One element of the optimizer: new (w, m, v) in binary32 before rounding (R122). `o` holds the advanced P1, P2. -/
def optElem (o : OptRec) (lr w m v g : F32) : F32 × F32 × F32 :=
  let c1 := fsub f1 o.b1
  let c2 := fsub f1 o.b2
  match o.opt with
  | 1 =>
    let m1 := fadd (fmul o.b1 m) g
    let u := fadd m1 (fmul o.wd w)
    (fsub w (fmul lr u), m1, v)
  | 2 =>
    let m1 := fadd (fmul o.b1 m) (fmul c1 g)
    let v1 := fadd (fmul o.b2 v) (fmul c2 (fmul g g))
    let d := fadd (fsqrt (fmul v1 (fdiv f1 (fsub f1 o.p2)))) o.eps
    let r := fdiv (fmul m1 (fdiv f1 (fsub f1 o.p1))) d
    let u := fadd r (fmul o.wd w)
    (fsub w (fmul lr u), m1, v1)
  | 3 =>
    let c := fadd (fmul o.b1 m) (fmul c1 g)
    let sg : F32 := if isNan c then nan32 else if isZero c then 0 else if flt c 0 then 0xBF800000#32 else f1
    let u := fadd sg (fmul o.wd w)
    (fsub w (fmul lr u), fadd (fmul o.b2 m) (fmul c2 g), v)
  | _ => (w, m, v)

/-- The stored state of one element after the update, its saturations, and whether it was non-finite and kept
(R123, R124). `el` is the element index of R123. -/
def storeElem (seed step tensor el : Nat) (opt : Nat) (old : BF16 × BF16 × BF16) (new : F32 × F32 × F32) :
    (BF16 × BF16 × BF16) × Nat × Bool :=
  let second := opt == 2
  if !isFin new.1 || !isFin new.2.1 || (second && !isFin new.2.2) then (old, 0, true)
  else
    let a := srBf16 new.1 (mix16 seed step (tensor * 4) el)
    let b := srBf16 new.2.1 (mix16 seed step (tensor * 4 + 1) el)
    let c := if second then srBf16 new.2.2 (mix16 seed step (tensor * 4 + 2) el) else (old.2.2, false, false)
    ((a.1, b.1, c.1), b2n a.2.1 + b2n b.2.1 + b2n c.2.1, false)

/-! ### The berm update (R95, R96, R127) -/

/-- One column of the modified Gram–Schmidt of R127: project out the earlier columns, then normalise. -/
def mgsColumn (qs : List (List F32)) (y : List F32) : List F32 :=
  let y := qs.foldl (fun y q =>
    let d := rowSum ((q.zip y).map fun t => fmul t.1 t.2)
    (y.zip q).map fun t => fsub t.1 (fmul d t.2)) y
  let nrm := fsqrt (rowSum (y.map fun v => fmul v v))
  if isZero nrm then y.map fun _ => 0 else y.map fun v => fdiv v nrm

/-- The new factors from the residual ρ (rows k, columns n) and the stored V, as columns: the columns of Q and of V
before rounding to BF16 (R127). -/
def bermFactors (rho : List (List F32)) (vprev : List (List F32)) : List (List F32) × List (List F32) :=
  let ys := vprev.map fun vc => rho.map fun row => rowSum ((row.zip vc).map fun t => fmul t.1 t.2)
  let qs := ys.foldl (fun qs y => qs ++ [mgsColumn qs y]) []
  let ncols := (rho.headD []).length
  let vs := qs.map fun q => (List.range ncols).map fun n =>
    rowSum ((q.zip rho).map fun t => fmul (t.2.getD n 0) t.1)
  (qs, vs)

/-- Column n's residual norms before and after the berm, from the stored BF16 factors (R96). -/
def bermNorms (rho : List (List F32)) (us vs : List (List F32)) (n : Nat) : F32 × F32 :=
  let col := rho.map fun row => row.getD n 0
  let uv := fun (k : Nat) => (us.zip vs).foldl (fun s t => fadd s (fmul (t.1.getD k 0) (t.2.getD n 0))) 0
  let res := (List.range rho.length).map fun k => fsub (col.getD k 0) (uv k)
  (fsqrt (rowSum (col.map fun v => fmul v v)), fsqrt (rowSum (res.map fun v => fmul v v)))

/-! ### The step verdict (R134) -/

/-- Insert into an ascending list of integers. -/
def insInt (x : Int) : List Int → List Int
  | [] => [x]
  | y :: r => if x ≤ y then x :: y :: r else y :: insInt x r

/-- The 32nd smallest of the entered loss sums (R134). -/
def median64 (h : List Int) : Int := (h.foldl (fun l x => insInt x l) []).getD 31 0

/-- The loss-spike detector: spike, skip, and the new history, newest last (R134). -/
def verdictOf (hist : List Int) (s : Int) (nfLoss nfFwd : Nat) (f : Nat) (skipAct : Bool) : Bool × Bool × List Int :=
  let spike := decide (64 ≤ hist.length) && f != 0 && decide (f * median64 hist < 256 * s)
  let skip := nfLoss != 0 || nfFwd != 0 || (spike && skipAct)
  (spike, skip, if skip then hist else let h := hist ++ [s]; h.drop (h.length - 64))

end Sys2Proof.Machine
end

