-- ==== Sys2Proof/Machine/Types.lean ====
section
/-! DEFINITION. The records that the state is made of: messages, log entries, the job image, tasks, ports, stacks, links.
Every type is plain data. -/

namespace Sys2Proof.Machine

/-- Byte memory: address and byte pairs, addresses strictly rising, no entry equal to what an unlisted address reads as
(log entry 6). -/
abbrev Memory := List Host.Cell

/-! ### The job image (R143 to R150, R350 to R358) -/

/-- A tensor-table entry (Table 6.17); `base` is the raw pointer of R147. -/
structure TensorEntry where
  tensor : Nat
  skind : Nat
  cls : Nat
  flags : Nat
  base : Nat
  length : Nat
  dim0 : Nat
  dim1 : Nat
  unit : Nat
  stack : Nat
  deriving DecidableEq, Repr

/-- A wait entry (Table 6.2). -/
structure WaitEntry where
  lag : Bool
  commit : Bool
  token : Nat
  deriving DecidableEq, Repr

/-- A task record: header of Table 6.1 and body. -/
structure TaskRec where
  taskid : Nat
  stream : Nat
  flags : Nat
  unit : Nat
  start : Nat
  deadline : Nat
  waits : List WaitEntry
  issue : Nat
  dtype : Nat
  body : Bytes
  deriving DecidableEq, Repr

/-- A peer set (R351): holders as (logical ID, die) and the owner's position. -/
structure PeerSet where
  pset : Nat
  owner : Nat
  holders : List (Nat × Nat)
  deriving DecidableEq, Repr

/-- A collective plan entry (Table 6.20). -/
structure PlanEntry where
  redid : Nat
  kind : Nat
  axes : Nat
  peers : Nat
  elems : Nat
  cslot : Nat
  src : Nat
  dst : Nat
  token : Nat
  deadline : Nat
  dur : Nat
  deriving DecidableEq, Repr

/-- A contract slot (Table 6.23). -/
structure ContractSlot where
  cslot : Nat
  tensor : Nat
  scale : Int
  h : Nat
  nb : Nat
  deriving DecidableEq, Repr

/-- A payload entry of INIT, CHANLIST or BERM (Table 6.24). -/
structure Payload where
  tensor : Nat
  skind : Nat
  dest : Nat
  data : Bytes
  deriving DecidableEq, Repr

/-- A queue table entry (Table 6.21). -/
structure QueueEntry where
  queue : Nat
  depth : Nat
  esize : Nat
  prod : Nat
  cons : Nat
  ring : Nat
  remote : Nat
  deriving DecidableEq, Repr

/-- A levee window (Table 8.7). -/
structure Window where
  isOpen : Bool
  read : Bool
  write : Bool
  narrow : Bool
  queue : Bool
  rate : Nat
  base : Nat
  size : Nat
  qfirst : Nat
  qcount : Nat
  deriving DecidableEq, Repr

/-- A closed window (R211, R212). -/
def Window.closed : Window :=
  { isOpen := false, read := false, write := false, narrow := false, queue := false, rate := 0, base := 0, size := 0,
    qfirst := 0, qcount := 0 }

/-- The MAPPING record (Table 6.22). -/
structure Mapping where
  lx : Nat
  ly : Nat
  lz : Nat
  txfull : Nat
  vstage : Nat
  nl : Nat
  nb : Nat
  rings : Nat
  ckbytes : Nat
  policy : Nat
  dielinks : Nat
  fabports : Nat
  farports : Nat
  hostports : Nat
  windows : List Window
  deriving DecidableEq, Repr

/-- A parsed job image. -/
structure JobImage where
  target : Nat
  seed : Nat
  period : Nat
  step0 : Nat
  spikef : Nat
  spkact : Nat
  nloss : Nat
  tensors : List TensorEntry
  tasks : List TaskRec
  peers : List PeerSet
  plan : List PlanEntry
  contracts : List ContractSlot
  lrtables : List (List F32)
  optrecs : List OptRec
  init : List Payload
  chanlist : List Payload
  berm : List Payload
  queues : List QueueEntry
  mapping : Mapping
  digest : Bytes
  deriving DecidableEq, Repr

/-! ### Events, outputs, messages -/

/-- An entry of the event log (R275). -/
structure LogEntry where
  seq : Nat
  tide : Nat
  code : Nat
  level : Nat
  flags : Nat
  unit : Nat
  step : Nat
  d0 : Nat
  d1 : Nat
  d2 : Nat
  d3 : Nat
  deriving DecidableEq, Repr

/-- A fabric message: the header of Table 9.3 and the payload. -/
structure Msg where
  type : Nat
  cls : Nat
  sub : Bool
  axis : Nat
  pnf : Bool
  psat : Bool
  last : Bool
  resend : Bool
  bcast : Bool
  src : Nat
  srcPhys : Bool
  dst : Nat
  dstPhys : Bool
  jobtag : Nat
  step : Nat
  ref : Nat
  offset : Nat
  digest : Nat
  payload : Bytes
  at_ : Nat := 0
  deriving DecidableEq, Repr

/-- How a memory access completes (R161, R163, R181). -/
inductive MemStatus where
  | ok | error | retry
  deriving DecidableEq, Repr

/-- Link-control messages on SB1 (R195, R200, R204, R207): acknowledgements name a flit, a credit return names a class and its 64-byte
units, `maskOut` takes a bundle out of the agreed mask. -/
inductive SbMsg where
  | linkDrop | dropAck | present | linkUp
  | ack (rev : Bool) (bundle : Nat) (seq : Nat)
  | nak (rev : Bool) (bundle : Nat) (seq : Nat)
  | credit (cls : Nat) (units : Nat)
  | maskOut (rev : Bool) (bundle : Nat)
  deriving DecidableEq, Repr

/-- What the package sends out or completes, in order. -/
inductive Out where
  | cpl (mb : Mbox) (slot : Nat) (entry : Bytes)
  | dataOut (mb : Mbox) (addr : Nat) (data : Bytes)
  | msix (p : HPort) (vector : Nat)
  | readResp (p : HPort) (off : Nat) (data : Bytes)
  | unsupported (p : HPort)
  | i3cResp (data : Bytes)
  | ibi
  | msg (p : FPort) (m : Msg)
  | frame (p : FPort) (seq : Nat) (payload : Bytes) (ret : Nat × Bool × Nat) (crc : Nat)
  | frameNak (p : FPort) (seq : Nat)
  | halfMove (p : FPort) (half : Nat)
  | sb1 (l : Nat) (m : SbMsg)
  | flitOut (l : Nat) (rev : Bool) (bundle : Nat) (seq : Nat) (data : Bytes) (wires : List (Option Byte))
  | memDone (who : Requester) (id : Nat) (st : MemStatus) (data : Bytes)
  | adderAck (addr : Nat) (saturated : Nat)
  | staleNotice (die : Nat) (core : Nat) (id : Nat)
  | guestResp (id : Nat) (data : Option Bytes)
  deriving DecidableEq, Repr

/-! ### Hosts and the warden -/

/-- A mailbox of a host port (Table 10.6). `waiting` holds the command entries between CCI and the producer index that the
warden knows of, `unseen` those a masked doorbell has not yet told it of (R268). -/
structure Mailbox where
  cbaseLo : BitVec 20
  cbaseHi : BitVec 32
  clog : BitVec 4
  pbaseLo : BitVec 20
  pbaseHi : BitVec 32
  plog : BitVec 4
  cpi : BitVec 16
  cci : BitVec 16
  ppi : BitVec 16
  pci : BitVec 16
  en : Bool
  masked : Bool
  waiting : List Bytes
  unseen : List Bytes
  bad : List Nat
  lastBad : Nat
  lastPoll : Nat
  deriving DecidableEq, Repr

/-- The reset values of a mailbox (Table 10.6). -/
def Mailbox.reset : Mailbox :=
  { cbaseLo := 0, cbaseHi := 0, clog := 0, pbaseLo := 0, pbaseHi := 0, plog := 0, cpi := 0, cci := 0, ppi := 0, pci := 0,
    en := false, masked := false, waiting := [], unseen := [], bad := [], lastBad := 0, lastPoll := 0 }

/-- A host port: link, mailbox, interrupt and BAR2 registers (Tables 10.6, 10.12). `held` is the port reset input held
active, `state` the two bits of PORTST. -/
structure HostPort where
  held : Bool
  inReset : Bool
  state : BitVec 2
  mb : Mailbox
  irqen : BitVec 4
  irqst : BitVec 4
  wbaseLo : BitVec 32
  wbaseHi : BitVec 20
  base : Nat
  hint : BitVec 2
  elseqHi : BitVec 32
  ellvl : BitVec 3
  deriving DecidableEq, Repr

/-- The lock (Table 10.5). `leaseEnd` is the instant at which LEFT reaches 0. -/
structure Lock where
  gen : BitVec 16
  owner : Option HPort
  lease : BitVec 16
  leaseEnd : Nat
  deriving DecidableEq, Repr

/-- The I3C target (R277): queue 4, queue 5 and the 64 KiB buffer. -/
structure I3c where
  dyn : Option (BitVec 7)
  waiting : List Bytes
  done : List Bytes
  buffer : Bytes
  ibi : Bool
  deriving DecidableEq, Repr

/-- A peer entry as it arrived: the port, the sender's ID and whether physical, whether broadcast, the bytes. -/
structure PeerEntry where
  port : FPort
  src : Nat
  phys : Bool
  bcast : Bool
  bytes : Bytes
  deriving DecidableEq, Repr

/-- The peer mailbox: queue 6 and queue 7 (R262, R263, R361). -/
structure PeerBox where
  waiting : List PeerEntry
  completions : List PeerEntry
  deriving DecidableEq, Repr

/-- What the environment answers for a command: host memory, devices, tests. -/
inductive EnvAnswer where
  | none
  | dma (ok : Bool)
  | data (d : Option Bytes)
  | records (first : Bytes) (second : Bytes)
  | far (f0 : FarProbe) (f1 : FarProbe)
  | wires (ok : Bool) (w : List WireResult)
  | scan (ok : Bool) (r : ScanResult)
  deriving DecidableEq, Repr

/-- How an operation ended: status of Table 10.9, RESULT, SEQ of the logged fault or 0, and the earliest instant of the
DONE entry. -/
structure Done where
  status : Nat
  result : Nat
  fault : Nat
  at_ : Nat
  deriving DecidableEq, Repr

/-- A command accepted and not yet done (R267, R269). `orphan` marks a command whose port was reset since. -/
structure Accepted where
  mb : Mbox
  entry : Bytes
  deadline : Nat
  acceptedAt : Nat
  locked : Bool
  started : Bool
  done : Option Done
  orphan : Bool
  ext : EnvAnswer
  aux : Nat
  deriving DecidableEq, Repr

/-- The warden: accepted commands, the deadline of the last locked command, running firmware, boot outcome. -/
structure Warden where
  ready : Bool
  accepted : List Accepted
  lockedDeadline : Nat
  major : BitVec 8
  minor : BitVec 8
  build : BitVec 16
  slot : Bool
  fell : Bool
  recov : Bool
  svnMin : Nat
  guard : List (Nat × Nat)
  deriving DecidableEq, Repr

/-- A hardware queue that an image uses (R156, R272, Table 10.11). -/
structure HwQueue where
  queue : Nat
  role : Nat
  port : HPort
  masked : Bool
  depth : Nat
  pi : Nat
  ci : Nat
  esize : Nat
  ring : Nat
  prod : Nat
  cons : Nat
  remote : Nat
  credits : Nat
  unseen : Option Nat
  bad : List Nat
  lastBad : Nat
  lastPoll : Nat
  deriving DecidableEq, Repr

/-! ### The job and its tasks -/

/-- Job states (Table 10.4). -/
inductive JobState where
  | none | loaded | running | stopped | failed
  deriving DecidableEq, Repr

/-- Task states (Table 6.3). -/
inductive TaskSt where
  | speculative | firm | committed | discarded
  deriving DecidableEq, Repr

/-- A started task of a step; a task with no record is WAITING (Table 6.3). `undetected` lists the array faults that no check saw
(row, column, chunk, amount), `gauges` the increments that advance at commit (R102), `overs` the over-range counts (operand,
index, count; R90). `again` marks a run whose work has been committed and counted before, and that runs only to write its results once
more (Table 4.6, second attempt; R102); `wrote` one whose work is done and whose END waits for the acknowledgement of its last write
(R175). -/
structure TaskRun where
  task : Nat
  step : Nat
  st : TaskSt
  startT : Nat
  endT : Option Nat
  checksOk : Bool
  pnf : Bool
  psat : Bool
  undetected : List (Nat × Nat × Nat × Int)
  gauges : List (Nat × Nat × Counts)
  overs : List (Nat × Nat × Nat)
  nfFwd : Nat
  loss : Int
  nfLoss : Nat
  again : Bool
  wrote : Bool
  deriving DecidableEq, Repr

/-- Elements of a reduction that are present at a level (a position in the order of its axes): the index of the first, the
values, their digest and poison bits. -/
structure Piece where
  level : Nat
  lo : Nat
  vals : List Int
  dig : Nat
  pnf : Bool
  psat : Bool
  deriving DecidableEq, Repr

/-- A reduction of a step (R138, R236 to R243): the pieces this package can add, the partials that wait for them, what it has
sent and landed, poison bits, mismatches per hop, the largest magnitude landed, the candidates of SCALE (axis or peer set,
position, exponent), how many elements it completed itself, and whether this is a replay. -/
structure RedRun where
  redid : Nat
  step : Nat
  have_ : List Piece
  held : List Piece
  sent : List (Nat × Nat)
  landed : List (Nat × Nat)
  pnf : Bool
  psat : Bool
  endT : Option Nat
  breached : Bool
  bad : List (Nat × Nat)
  maxAbs : Nat
  scales : List (Nat × Nat × Int)
  scaleSent : Nat
  own : Nat
  again : Bool
  deriving DecidableEq, Repr

/-- A breach or late notice that counts for a step (R154): amount is Δ or the cumulative slip, task the TASKID it names. -/
structure Notice where
  breach : Bool
  step : Nat
  src : Nat
  nseq : Nat
  da : Nat
  amount : Nat
  code : Nat
  task : Nat
  deriving DecidableEq, Repr

/-- The verdict of a step (R133): records taken in, by package. -/
structure Verdict where
  step : Nat
  recs : List (Nat × Int × Nat × Nat)
  done : Bool
  spike : Bool
  skip : Bool
  deriving DecidableEq, Repr

/-- A received record of a peer-set exchange (R54, R106, R129). -/
structure ExchRec where
  pset : Nat
  step : Nat
  src : Nat
  offset : Nat
  payload : Bytes
  deriving DecidableEq, Repr

/-- The job as the host sees it (R151, R152, Table 10.4). `shift` sums the slips and checkpoint stops since the start. -/
structure JobCtl where
  state : JobState
  image : Option JobImage
  tag : BitVec 16
  x : Nat
  y : Nat
  z : Nat
  neigh : List Nat
  cstep : Nat
  ts : Nat
  t0 : Nat
  shift : Nat
  nextFirst : Nat
  startAt : Option Nat
  stopping : Bool
  failStopped : Bool
  invalid : Bool
  abandoned : Bool
  deriving DecidableEq, Repr

/-- The execution of the job's steps: `attempts` of stored items (step, address, count; R99), `prodFails` of tile products (task, step,
product, place, count; R63), `overs` the committed over-range counts (step, operand, index, count; R90), `origins` the origin of each
step that is not over, `doneTo` the first step with a task that has not committed, `nfLogged` the tensors whose first non-finite element
of a step has been logged (step, tensor; R124), `lists` the channel lists as the U tasks last wrote them (address, bytes; R99). -/
structure Exec where
  runs : List TaskRun
  reds : List RedRun
  notices : List Notice
  exch : List ExchRec
  scales : List (Nat × Nat × Int)
  verdicts : List Verdict
  history : List Int
  attempts : List (Nat × Nat × Nat)
  prodFails : List (Nat × Nat × Nat × Nat × Nat)
  overs : List (Nat × Nat × Nat × Nat)
  bermRecs : List (Nat × BF16 × BF16 × Nat)
  seedFlags : List Nat
  voided : Bool
  origins : List (Nat × Nat)
  doneTo : Nat
  nfLogged : List (Nat × Nat)
  lists : List (Nat × Bytes)
  deriving DecidableEq, Repr

/-- The gauges (R101) and the increments that R103 reports: 8 × step + class, saturated blocks, spillway overflows, non-finite, stream
mismatches. -/
structure Gauges where
  cells : List (Nat × Nat × Counts)
  step : List (Nat × Nat × Nat × Nat × Nat)
  deriving DecidableEq, Repr

/-! ### Dies, cores, stacks -/

/-- A thread context (R135). -/
inductive Thread where
  | idle | ready | needLine | needToken | needCredit
  deriving DecidableEq, Repr

/-- An outstanding line request of a core (R136); `resp` is the answer waiting to land, an error as `some none`; a write has `len` 0: it
lands nothing. `route` is the bundle that it took on each die link of its path (link, direction, bundle; R198). -/
structure Outst where
  id : Nat
  addr : Nat
  stack : Nat
  banks : List Nat
  thread : Nat
  dst : Nat
  len : Nat
  retryAt : Option Nat
  resp : Option (Option Bytes)
  route : List (Nat × Bool × Nat) := []
  deriving DecidableEq, Repr

/-- A core's control state (R135, R136, R160). A core with no record is idle and in service. -/
structure Core where
  die : Nat
  core : Nat
  threads : List Thread
  running : Nat
  outst : List Outst
  mapped : Bool
  sticky : Bool
  deriving DecidableEq, Repr

/-- A compute die. `handover` lists (logical core, physical core) pairs that differ from the plain numbering. -/
structure Die where
  inReset : Bool
  resetUntil : Nat
  hot : Bool
  overTrip : Bool
  ocStopped : Bool
  relief : Option Nat
  spares : Nat
  handover : List (Nat × Nat)
  pendingRelief : Bool
  deriving DecidableEq, Repr

/-- A line of the slice cache (R167 to R169) and the way of its set that holds it (R171). -/
structure CacheLine where
  line : Nat
  way : Nat
  data : Bytes
  dirty : Bool
  keep : Bool
  deriving DecidableEq, Repr

/-- A set: lines with the most recently used first, and the ways disabled in service (R171). -/
structure CacheSet where
  idx : Nat
  lines : List CacheLine
  disabled : List Nat
  deriving DecidableEq, Repr

/-- A request as a bank holds it. -/
inductive MemReq where
  | line (r : LineReq)
  | gather (r : NarrowReq)
  | scatter (r : NarrowReq)
  | scatterAdd (r : NarrowReq)
  deriving DecidableEq, Repr

/-- A bank's queue of at most 8 and its parking list of at most 24 (R181). -/
structure BankQ where
  bank : Nat
  queue : List MemReq
  parked : List MemReq
  deriving DecidableEq, Repr

/-- The acknowledgement of a write: of a request, of a SCATTER-ADD or of an adder operation, the last two with the count of saturated
lanes (R172, R177). -/
inductive WAck where
  | req (who : Requester) (id : Nat)
  | scatterAdd (who : Requester) (id : Nat) (addr : Nat) (saturated : Nat)
  | adder (addr : Nat) (saturated : Nat)
  deriving DecidableEq, Repr

/-- A prefetched range (R175, R176): where it landed in the core store, its stale bit, whether the core has acknowledged the stale
notice, and whether it found the watch table full. -/
structure Watch where
  id : Nat
  die : Nat
  core : Nat
  lo : Nat
  len : Nat
  dst : Nat
  stale : Bool
  acked : Bool
  overs : Bool
  deriving DecidableEq, Repr

/-- The acknowledgement of a write of `len` bytes at `addr` that waits for the stale notices of the listed prefetches (R175). -/
structure HeldAck where
  ack : WAck
  addr : Nat
  len : Nat
  ids : List Nat
  deriving DecidableEq, Repr

/-- Error bookkeeping of one row (R188). -/
structure RowErr where
  pc : Nat
  bank : Nat
  row : Nat
  times : List Nat
  marked : Bool
  deriving DecidableEq, Repr

/-- A memory stack. -/
structure Stack where
  inReset : Bool
  resetUntil : Nat
  stopped : Bool
  selfRefresh : Bool
  lost : Bool
  band : Nat
  temp : Int
  overTrip : Bool
  policy : Bool
  cache : List CacheSet
  ledgerWays : List (Nat × Nat)
  banks : List BankQ
  watch : List Watch
  withheld : List HeldAck
  rows : List RowErr
  bankMarks : List (Nat × Nat)
  writeQ : List (Nat × Nat)
  parkedCount : Nat
  retryCount : Nat
  watchFull : Nat
  corrected : Nat
  refreshed : List (Nat × Nat)
  deriving DecidableEq, Repr

/-- A far-tier port (Table 10.4, R192): state 0 unmapped, 1 below rating, 2 at rating; the mapped capacity in bytes. -/
structure FarPort where
  st : Nat
  cap : Nat
  wr : Nat
  rd : Nat
  linkUp : Bool
  deriving DecidableEq, Repr

/-- One direction of one bundle (R197, R199, R206). A bundle with no record has no fault and nothing in flight. `tx` is the replay buffer,
oldest first; `seen` the numbers of flits that were delivered on a bundle marked out before they were sent again on this one (R208). -/
structure Bundle where
  rev : Bool
  bundle : Nat
  failed : List Nat
  tx : List (Nat × Bytes)
  seen : List Nat
  txSeq : BitVec 6
  rxSeq : BitVec 6
  errTimes : List Nat
  fails : Nat
  overs : Bool
  testing : Bool
  deriving DecidableEq, Repr

/-- A die link (index of Table 11.9). -/
structure DieLink where
  up : Bool
  masks : BitVec 128 × BitVec 128
  bundles : List Bundle
  rx : List (Bool × Nat × Bytes)
  dropAt : Option Nat
  below : Bool
  deriving DecidableEq, Repr

/-! ### Levee, fabric, tide clock -/

/-- A violation counter (R216). -/
structure Viol where
  count : Nat
  first : Nat
  logged : Nat
  lastLog : Option Nat
  deriving DecidableEq, Repr

/-- A token bucket (R214): thousandths of a byte, and the instant up to which it has filled. -/
structure Bucket where
  level : Nat
  asOf : Nat
  deriving DecidableEq, Repr

/-- A response that waits for the guest (R215). -/
structure GuestResp where
  id : Nat
  addr : Nat
  data : Bytes
  since : Nat
  deriving DecidableEq, Repr

/-- The levee (R211 to R217). -/
structure Levee where
  windows : Vector Window 8
  changes : List (Nat × Window)
  buckets : Vector Bucket 8
  viols : Vector Viol 9
  times : List Nat
  quarantine : Bool
  guestReset : Bool
  resetUntil : Nat
  resps : List GuestResp
  dropped : Nat
  held : List (Nat × GuestReq)
  deriving DecidableEq, Repr

/-- What a neighbour's LINKID told (Table 9.10). -/
structure LinkRec where
  phys : Nat
  port : Nat
  feed : Nat
  stepping : Nat
  job : Bool
  jobtag : Nat
  deriving DecidableEq, Repr

/-- What a neighbour's SYNC told (Table 9.11). -/
structure SyncRec where
  tsync : Bool
  hops : Nat
  root : Nat
  deriving DecidableEq, Repr

/-- A fabric port. `half` 0 runs all 16 lanes, 1 lanes 0 to 7, 2 lanes 8 to 15. `used` counts the credits in use per class and
sub-channel (R222), `naked` says that frames are being discarded since a NAK (R221). -/
structure FabPort where
  up : Bool
  half : Nat
  failLow : Bool
  failHigh : Bool
  move : Bool
  neigh : Option LinkRec
  sync : Option SyncRec
  txSeq : BitVec 12
  rxSeq : BitVec 12
  tx : List (Nat × Bytes × Nat)
  parts : List (Nat × Bool × Bytes)
  fails : Nat
  naked : Bool
  used : List (Nat × Bool × Nat)
  drops : Nat
  inbox : List Msg
  deriving DecidableEq, Repr

/-- The tide clock (R248 to R250, R316). -/
structure Tide where
  count : BitVec 64
  running : Bool
  tsync : Bool
  slew : Int
  parent : Option FPort
  root : Nat
  hops : Nat
  lowest : Nat
  lastValid : Nat
  tR : Nat
  loaded : Bool
  offset : Int
  lastReq : Nat
  deriving DecidableEq, Repr

/-! ### Power -/

/-- Where the package stands in the sequences of Tables 12.6 and 12.8. -/
inductive Phase where
  | off | waitOsc | polders | booted | ready | recovery
  deriving DecidableEq, Repr

/-- A reset that has been accepted: level and the instant of acceptance (R319). -/
structure PendReset where
  level : Nat
  tA : Nat
  deriving DecidableEq, Repr

/-- A filtered board input (R332, R333). -/
structure InputSt where
  active : Bool
  masked : Bool
  acts : List Nat
  count : Nat
  logged : Nat
  kind : Nat
  lastLog : Option Nat
  deriving DecidableEq, Repr

/-- Phase, instants, straps, fuses, inputs, trips. ALERT_N is computed from the causes of Table 12.10 (`alertN`). -/
structure Power where
  phase : Phase
  tP : Nat
  tS : Nat
  tF : Nat
  pend : Option PendReset
  pins : Straps
  straps : Straps
  gsite : Bool
  assy : BitVec 10
  cvidFuse : Vector (BitVec 4) 4
  cvid : Vector (BitVec 4) 4
  pwrok : InputSt
  perstA : InputSt
  perstB : InputSt
  pfailIn : InputSt
  pfail : Bool
  thermtrip : Bool
  hubOver : Bool
  ocHub : Bool
  ocTimes : List (Nat × Nat)
  boost : Bool
  inspectHours : Nat
  deriving DecidableEq, Repr

/-- The two PLLs of a compute die (0 to 3) or a base die (4 to 35), and the source its polders run from (R308). -/
structure Plls where
  lock0 : Bool
  lock1 : Bool
  active : Nat
  standby : Bool
  losses : Nat
  freq : Nat
  lastChange : Nat
  costPs : Nat
  deriving DecidableEq, Repr

/-! ### Twin, checkpoints, flash -/

/-- A PAIR_REQ that is held (R282). -/
structure HeldPair where
  phys : Nat
  feed : Nat
  override : Bool
  twinok : Bool
  since : Nat
  deriving DecidableEq, Repr

/-- A checkpoint record that the twin receives (Table 11.4). -/
structure CkptRx where
  step : Nat
  slot : Nat
  length : Nat
  header : Bytes
  deriving DecidableEq, Repr

/-- Twin pairing and checkpoints (R282 to R293). Intervals in ns. `rollback` is the step and the slot of the committed record, `sched`
the steps whose checkpoint is scheduled, `byStop` whether CKPT_STOP scheduled it, `inProg` the step that is being written and `newOrigin` the
end of its stop, `doneFrom` what the lead has collected, `m` M and `ran` the running time since the last failure before the present
run, `schedRun` the one that CKPT_SCHED carried, `rx` the record being received, `gaugesCopy` the GAUGES section kept of a step, `sent`
the GAUGES section of the record in progress once it has been streamed, `changed` a new twin since the last committed checkpoint. -/
structure Twin where
  phys : Option Nat
  exposed : Bool
  held : List HeldPair
  rollback : Option (Nat × Nat)
  sched : List Nat
  byStop : Bool
  inProg : Option Nat
  newOrigin : Nat
  doneFrom : List (Nat × Nat)
  m : Nat
  ran : Nat
  runStart : Nat
  schedRun : Nat
  lastStopEnd : Nat
  nextCkpt : Option Nat
  rx : Option CkptRx
  gaugesCopy : Option (Nat × Bytes)
  unprotected : Bool
  areaLost : Bool
  sent : Option Bytes
  changed : Bool
  deriving DecidableEq, Repr

/-- A ledger record (Table 11.8); its CRC is computed when it is written out. -/
structure LedgerRec where
  seq : Nat
  kind : Nat
  srce : Nat
  index : Nat
  sub : Nat
  value : Bytes
  step : Nat
  deriving DecidableEq, Repr

/-- One copy of the ledger (R302). -/
structure LedgerCopy where
  gen : Nat
  recs : List LedgerRec
  deriving DecidableEq, Repr

/-- One copy of the boot record (Table 10.14). -/
structure BootRec where
  slot : Bool
  count : Nat
  deriving DecidableEq, Repr

/-- A daily slot of the settlement history (R305). -/
structure DaySlot where
  day : Nat
  values : List (Nat × Nat × F32)
  deriving DecidableEq, Repr

/-- One copy of the settlement history (R305). -/
structure Settle where
  gen : Nat
  hours : Nat
  refs : List (Nat × Nat × F32)
  days : List DaySlot
  deriving DecidableEq, Repr

/-- Board flash (Table 10.14) and what the warden has sampled since the last daily slot (R304). -/
structure Flash where
  ledgerA : LedgerCopy
  ledgerB : LedgerCopy
  bootA : BootRec
  bootB : BootRec
  slotA : Bytes
  slotB : Bytes
  settleA : Settle
  settleB : Settle
  current : List (Nat × Nat × F32)
  poweredNs : Nat
  deriving DecidableEq, Repr

/-- The inspection walk (R299 to R301): the slot in progress (die, physical core) and when its tests began, a scheduled core that waits
for its handover, the logical core whose sequence the relief core runs meanwhile, takeovers that wait for a boundary (die, logical
core), a core that returns at the next boundary (die, logical core, physical core), the next die, the last core tested of each die,
and the instant of the last slot start. -/
structure Inspect where
  slot : Option (Nat × Nat)
  since : Nat
  due : Option (Nat × Nat)
  lc : Option Nat
  wait : List (Nat × Nat)
  back : Option (Nat × Nat × Nat)
  nextDie : Nat
  lastCore : Vector (Option Nat) 4
  lastStart : Nat
  deriving DecidableEq, Repr

end Sys2Proof.Machine
end

