-- ==== Sys2Proof/Machine/State.lean ====
section
/-! DEFINITION. The state of the block, its reset value, and the reasons a step could stop. -/

namespace Sys2Proof.Machine

/-- The whole state: everything the manual gives the package, the queue of waiting commands, and the model's own time,
free-value counter and record of what went out. -/
@[ext]
structure State where
  pending : List Instr
  now : Nat
  freeCtr : Nat
  out : List Out
  power : Power
  plls : Vector Plls 36
  tide : Tide
  tideHi : BitVec 32
  hostA : HostPort
  hostB : HostPort
  lock : Lock
  i3c : I3c
  peer : PeerBox
  warden : Warden
  seq : Nat
  log : List LogEntry
  queues : List HwQueue
  job : JobCtl
  exec : Exec
  gauges : Gauges
  dies : Vector Die 4
  cores : List Core
  coreStore : Memory
  memStacks : Vector Stack 32
  mem : Memory
  far : Vector FarPort 2
  links : Vector DieLink 41
  levee : Levee
  fabric : Vector FabPort 6
  twin : Twin
  flash : Flash
  inspect : Inspect
  deriving DecidableEq, Repr

/-- Faults. There is none: the manual gives every bad access, command and message its own outcome (an error completion, a
refusal status, a logged drop), so no command stops the block. -/
inductive Fault
  deriving DecidableEq, Repr

/-- Refusals by the model. -/
inductive Refusal where
  /-- A row whose meaning is not modelled. Raised by `exec` alone; safe, since nothing is claimed of it. -/
  | notModelled (mnemonic : String)
  deriving DecidableEq, Repr

/-- A board input at reset: inactive, unmasked, counts zero (log entry 4). -/
def InputSt.reset : InputSt :=
  { active := false, masked := false, acts := [], count := 0, logged := 0, kind := 0, lastLog := none }

/-- Straps that are left open read 0 (R337). -/
def Straps.zero : Straps := { posx := 0, posy := 0, posz := 0, feed := 0, oscdly := 0, bootsel := 0 }

/-- A host port at reset (Tables 10.6, 10.12, 12.6). -/
def HostPort.reset : HostPort :=
  { held := false, inReset := true, state := 2, mb := Mailbox.reset, irqen := 0, irqst := 0, wbaseLo := 0, wbaseHi := 0, base := 0,
    hint := 0, elseqHi := 0, ellvl := 3 }

/-- The job at reset: NONE, tag 0 (Table 10.4). -/
def JobCtl.reset : JobCtl :=
  { state := .none, image := none, tag := 0, x := 0, y := 0, z := 0, neigh := [], cstep := 0, ts := 0, t0 := 0, shift := 0,
    nextFirst := 0, startAt := none, stopping := false, failStopped := false, invalid := false, abandoned := false }

/-- Execution with no task. -/
def Exec.reset : Exec :=
  { runs := [], reds := [], notices := [], exch := [], scales := [], verdicts := [], history := [],
    attempts := [], prodFails := [], overs := [], bermRecs := [], seedFlags := [], voided := false, origins := [],
    doneTo := 0, nfLogged := [], lists := [] }

/-- A compute die held in reset (Table 12.6): relief core 1023, all 64 spares left (log entry 5). -/
def Die.reset : Die :=
  { inReset := true, resetUntil := 0, hot := false, overTrip := false, ocStopped := false, relief := some 1023, spares := 64,
    handover := [], pendingRelief := false }

/-- A stack held in reset, cache invalid, stream policy (Table 12.7, R166). -/
def Stack.reset : Stack :=
  { inReset := true, resetUntil := 0, stopped := false, selfRefresh := false, lost := false, band := 0, temp := 0,
    overTrip := false, policy := false, cache := [], ledgerWays := [], banks := [], watch := [], withheld := [], rows := [], bankMarks := [],
    writeQ := [], parkedCount := 0, retryCount := 0, watchFull := 0, corrected := 0, refreshed := [] }

/-- A die link before training. -/
def DieLink.reset : DieLink :=
  { up := false, masks := (0, 0), bundles := [], rx := [], dropAt := none, below := false }

/-- A violation counter at zero. -/
def Viol.reset : Viol := { count := 0, first := 0, logged := 0, lastLog := none }

/-- The levee at power-up: every window closed (R211). -/
def Levee.reset : Levee :=
  { windows := Vector.replicate 8 Window.closed, changes := [], buckets := Vector.replicate 8 { level := 0, asOf := 0 },
    viols := Vector.replicate 9 Viol.reset, times := [], quarantine := false, guestReset := true, resetUntil := 0, resps := [],
    dropped := 0, held := [] }

/-- A fabric port before training. -/
def FabPort.reset : FabPort :=
  { up := false, half := 0, failLow := false, failHigh := false, move := false, neigh := none, sync := none, txSeq := 0, rxSeq := 0,
    tx := [], parts := [], fails := 0, naked := false, used := [], drops := 0, inbox := [] }

/-- PLLs off. -/
def Plls.reset : Plls :=
  { lock0 := false, lock1 := false, active := 0, standby := false, losses := 0, freq := 0, lastChange := 0, costPs := 0 }

/-- The tide clock at power-up: 0, unsynchronised (R316). -/
def Tide.reset : Tide :=
  { count := 0, running := false, tsync := false, slew := 0, parent := none, root := 0, hops := 0xFF, lowest := 0, lastValid := 0,
    tR := 0, loaded := false, offset := 0, lastReq := 0 }

/-- No twin; M starts at 86,400 s (R293). -/
def Twin.reset : Twin :=
  { phys := none, exposed := false, held := [], rollback := none, sched := [], byStop := false, inProg := none,
    newOrigin := 0, doneFrom := [], m := 86400000000000, ran := 0, runStart := 0, schedRun := 0, lastStopEnd := 0, nextCkpt := none,
    rx := none, gaugesCopy := none, unprotected := false, areaLost := false, sent := none, changed := false }

/-- No slot. -/
def Inspect.reset : Inspect :=
  { slot := none, since := 0, due := none, lc := none, wait := [], back := none, nextDie := 0, lastCore := Vector.replicate 4 none,
    lastStart := 0 }

/-- Board flash as the model starts with it: empty ledger and history, no firmware (log entry 5). -/
def Flash.reset : Flash :=
  { ledgerA := { gen := 0, recs := [] }, ledgerB := { gen := 0, recs := [] }, bootA := { slot := false, count := 0 },
    bootB := { slot := false, count := 0 }, slotA := [], slotB := [],
    settleA := { gen := 0, hours := 0, refs := [], days := [] }, settleB := { gen := 0, hours := 0, refs := [], days := [] },
    current := [], poweredNs := 0 }

/-- The machine right after a power-on reset, PWROK low (Table 12.7). -/
def State.reset : State :=
  { pending := [], now := 0, freeCtr := 0, out := [],
    power :=
      { phase := .off, tP := 0, tS := 0, tF := 0, pend := none, pins := Straps.zero, straps := Straps.zero, gsite := false, assy := 0,
        cvidFuse := Vector.replicate 4 8, cvid := Vector.replicate 4 8, pwrok := InputSt.reset, perstA := InputSt.reset,
        perstB := InputSt.reset, pfailIn := InputSt.reset, pfail := false, thermtrip := false, hubOver := false, ocHub := false,
        ocTimes := [], boost := false, inspectHours := 24 },
    plls := Vector.replicate 36 Plls.reset,
    tide := Tide.reset, tideHi := 0, hostA := HostPort.reset, hostB := HostPort.reset,
    lock := { gen := 0, owner := none, lease := 10000, leaseEnd := 0 },
    i3c := { dyn := none, waiting := [], done := [], buffer := [], ibi := false }, peer := { waiting := [], completions := [] },
    warden :=
      { ready := false, accepted := [], lockedDeadline := 0, major := 0, minor := 0, build := 0, slot := false, fell := false,
        recov := false, svnMin := 0, guard := [] },
    seq := 0, log := [], queues := [], job := JobCtl.reset, exec := Exec.reset, gauges := { cells := [], step := [] },
    dies := Vector.replicate 4 Die.reset, cores := [], coreStore := [], memStacks := Vector.replicate 32 Stack.reset, mem := [],
    far := Vector.replicate 2 { st := 0, cap := 0, wr := 0, rd := 0, linkUp := false },
    links := Vector.replicate 41 DieLink.reset, levee := Levee.reset, fabric := Vector.replicate 6 FabPort.reset,
    twin := Twin.reset, flash := Flash.reset,
    inspect := Inspect.reset }

end Sys2Proof.Machine
end

