-- ==== Sys2Proof/Machine/Ops.lean ====
section
/-! DEFINITION. The named operations on the state: memory, ports, the event log, interrupts, the ledger, gauges, free values,
time. Everything a command writes goes through these. -/

namespace Sys2Proof.Machine

/-! ### Byte memory (canonical form: addresses strictly rising, no zero byte listed; log entry 6) -/

/-- The byte at an address; an unlisted address reads 0. -/
def memGet : Memory → Nat → Byte
  | [], _ => 0
  | (k, v) :: r, a => if a = k then v else if a < k then 0 else memGet r a

/-- A cell in front of a memory, left out when it is zero. -/
def memCons (a : Nat) (b : Byte) (r : Memory) : Memory := if b = 0 then r else (a, b) :: r

/-- Write one byte, keeping the canonical form. -/
def memSet : Memory → Nat → Byte → Memory
  | [], a, b => memCons a b []
  | (k, v) :: r, a, b =>
    if a = k then memCons a b r
    else if a < k then memCons a b ((k, v) :: r)
    else (k, v) :: memSet r a b

/-- Read `n` bytes from address `a`. -/
def memRead (m : Memory) (a n : Nat) : Bytes := (List.range n).map fun i => memGet m (a + i)

/-- Write a byte string at address `a`. -/
def memWrite (m : Memory) (a : Nat) : Bytes → Memory
  | [] => m
  | b :: bs => memWrite (memSet m a b) (a + 1) bs

/-- Write zero to every address from `lo` to `hi − 1`. -/
def memClear (m : Memory) (lo hi : Nat) : Memory := m.filter fun c => decide (c.1 < lo) || decide (hi ≤ c.1)

/-- The canonical form: every listed address is above `lo`, rising, and no byte is zero. -/
def memWfFrom : Nat → Memory → Bool
  | _, [] => true
  | lo, (k, v) :: r => decide (lo ≤ k) && v != 0 && memWfFrom (k + 1) r

/-- The canonical form of a memory. -/
def Memory.wf (m : Memory) : Bool := memWfFrom 0 m

/-! ### Numbers of ports, rails, mailboxes -/

/-- Port A is 0, port B is 1. -/
def hportNo : HPort → Nat
  | .a => 0
  | .b => 1

/-- The host port of a mailbox; none for I3C. -/
def mboxPort : Mbox → Option HPort
  | .hostA => some .a
  | .hostB => some .b
  | .i3c => none

/-- The mailbox of a host port. -/
def portMbox : HPort → Mbox
  | .a => .hostA
  | .b => .hostB

/-- Fabric port numbers of Table 9.10. -/
def fportNo : FPort → Fin 6
  | .xp => 0
  | .xm => 1
  | .yp => 2
  | .ym => 3
  | .zp => 4
  | .zm => 5

/-- The fabric ports in order. -/
def fports : List FPort := [.xp, .xm, .yp, .ym, .zp, .zm]

/-- The port on an axis (0 X, 1 Y, 2 Z) in the + or − direction. -/
def axisPort (axis : Nat) (plus : Bool) : FPort :=
  match axis, plus with
  | 0, true => .xp
  | 0, false => .xm
  | 1, true => .yp
  | 1, false => .ym
  | _, true => .zp
  | _, false => .zm

/-- The opposite port (R225). -/
def oppPort : FPort → FPort
  | .xp => .xm
  | .xm => .xp
  | .yp => .ym
  | .ym => .yp
  | .zp => .zm
  | .zm => .zp

/-- The code of a hint in BAR2CTL and MOVE. -/
def hintOf : Nat → Hint
  | 1 => .stream
  | 2 => .keep
  | 3 => .last
  | _ => .none

/-- The numbers of the job states (Table 10.4). -/
def jobNo : JobState → Nat
  | .none => 0
  | .loaded => 1
  | .running => 2
  | .stopped => 3
  | .failed => 4

/-- A UNIT word of the event log (R275). -/
def unitWord (kind index sub : Nat) : Nat := kind * 2 ^ 28 + (index % 4096) * 2 ^ 16 + sub % 65536

/-- The UNIT word of a requester (R275). -/
def reqUnit : Requester → Nat
  | .core d c _ => unitWord 1 d c
  | .update s => unitWord 3 s 0
  | .hub => 0
  | .host p => unitWord 5 (hportNo p) 0
  | .guest => unitWord 6 0 0

/-! ### Parts of the state -/

/-- A host port. -/
def hostOf (p : HPort) (s : State) : HostPort :=
  match p with
  | .a => s.hostA
  | .b => s.hostB

/-- Change a host port. -/
def modHost (p : HPort) (f : HostPort → HostPort) (s : State) : State :=
  match p with
  | .a => { s with hostA := f s.hostA }
  | .b => { s with hostB := f s.hostB }

/-- A fabric port. -/
def fabOf (p : FPort) (s : State) : FabPort := s.fabric[fportNo p]

/-- Change a fabric port. -/
def modFab (p : FPort) (f : FabPort → FabPort) (s : State) : State :=
  { s with fabric := s.fabric.set (fportNo p) (f s.fabric[fportNo p]) }

/-- Change a stack. -/
def modStack (i : Fin 32) (f : Stack → Stack) (s : State) : State := { s with memStacks := s.memStacks.set i (f s.memStacks[i]) }

/-- Change a compute die. -/
def modDie (i : Fin 4) (f : Die → Die) (s : State) : State := { s with dies := s.dies.set i (f s.dies[i]) }

/-- Change a die link. -/
def modLink (i : Fin 41) (f : DieLink → DieLink) (s : State) : State := { s with links := s.links.set i (f s.links[i]) }

/-- Change a far-tier port. -/
def modFar (i : Fin 2) (f : FarPort → FarPort) (s : State) : State := { s with far := s.far.set i (f s.far[i]) }

/-- Record something that leaves the package. -/
def emit (o : Out) (s : State) : State := { s with out := s.out ++ [o] }

/-- Record several. -/
def emitAll (os : List Out) (s : State) : State := { s with out := s.out ++ os }

/-- The acknowledgement of a write. -/
def ackOut : WAck → Out
  | .req .guest id => .guestResp id (some [])
  | .req who id => .memDone who id .ok []
  | .scatterAdd _ _ addr n => .adderAck addr n
  | .adder addr n => .adderAck addr n

/-- The request that an acknowledgement completes, if it is one of a bank. -/
def WAck.key : WAck → Option (Requester × Nat)
  | .req who id => some (who, id)
  | .scatterAdd who id _ _ => some (who, id)
  | .adder _ _ => none

/-- Who issued a request of a bank, and its number. -/
def MemReq.key : MemReq → Requester × Nat
  | .line r => (r.who, r.id)
  | .gather r => (r.who, r.id)
  | .scatter r => (r.who, r.id)
  | .scatterAdd r => (r.who, r.id)

/-- Free the entries of a request in the banks of a stack (R181). -/
def leaveBanks (i : Fin 32) (k : Requester × Nat) (s : State) : State :=
  modStack i (fun st => { st with banks := (st.banks.map fun q => { q with queue := q.queue.filter fun r => r.key != k }).filter fun q =>
    !(q.queue.isEmpty && q.parked.isEmpty) }) s

/-- Draw a free value: the word and the state with the counter advanced (log entry 2). -/
def freshWord (s : State) : BitVec 64 × State := (Config.freeWord s.freeCtr, { s with freeCtr := s.freeCtr + 1 })

/-- The tide clock in ns (R248). -/
def tideNow (s : State) : Nat := s.tide.count.toNat

/-- The physical package ID: POSX + 32 × POSY + 512 × POSZ (R223). -/
def physId (s : State) : Nat :=
  s.power.straps.posx.toNat + 32 * s.power.straps.posy.toNat + 512 * s.power.straps.posz.toNat

/-- The logical package ID x + 32 y + 512 z (R224). -/
def logId (s : State) : Nat := s.job.x + 32 * s.job.y + 512 * s.job.z

/-- Whether a job is loaded (LOGV of Table 10.4). -/
def jobLoaded (s : State) : Bool := s.job.state != .none

/-- The STEP word of a log entry or ledger record (R275, Table 11.8). -/
def stepWord (s : State) : Nat := if jobLoaded s then s.job.cstep else 0xFFFFFFFF

/-! ### Interrupts and the event log (R275, R276, Table 10.12, Table 10.13) -/

/-- Set an interrupt cause on a port: 0 completion, 1 event, 2 host queue, 3 notice; the MSI-X message goes out when the
vector is enabled (Table 10.12). -/
def raiseIrq (p : HPort) (v : Nat) (s : State) : State :=
  let h := hostOf p s
  let s := modHost p (fun h => { h with irqst := h.irqst ||| BitVec.ofNat 4 (2 ^ v) }) s
  if h.irqen.getLsbD v && !h.inReset then emit (.msix p v) s else s

/-- Raise a cause on both ports. -/
def raiseBoth (v : Nat) (s : State) : State := raiseIrq .b v (raiseIrq .a v s)

/-- The level of an event code (Table 10.13). -/
def evLevel : Nat → Nat
  | 0x0001 => 2
  | 0x0002 => 2
  | 0x0003 => 1
  | 0x0004 => 0
  | 0x0010 => 3
  | 0x0011 => 3
  | 0x0012 => 2
  | 0x0013 => 3
  | 0x0014 => 1
  | 0x0015 => 1
  | 0x0020 => 4
  | 0x0021 => 4
  | 0x0022 => 3
  | 0x0023 => 1
  | 0x0024 => 2
  | 0x0025 => 2
  | 0x0030 => 2
  | 0x0031 => 1
  | 0x0032 => 2
  | 0x0033 => 2
  | 0x0034 => 3
  | 0x0040 => 2
  | 0x0041 => 4
  | 0x0042 => 2
  | 0x0050 => 3
  | 0x0051 => 2
  | 0x0060 => 1
  | 0x0061 => 2
  | 0x0062 => 2
  | 0x0063 => 2
  | 0x0070 => 1
  | 0x0071 => 3
  | 0x0072 => 1
  | 0x0073 => 4
  | _ => 0

/-- Log an event for a given step: the next sequence number, the tide clock, the code's level; the newest 4,096 entries
stay (R275). The event interrupt is raised at or above ELLVL (Table 10.12). -/
def logAt (step code unit d0 d1 d2 d3 : Nat) (s : State) : State :=
  let e : LogEntry :=
    { seq := s.seq + 1, tide := tideNow s, code := code, level := evLevel code, flags := 0, unit := unit, step := step,
      d0 := d0 % 2 ^ 64, d1 := d1 % 2 ^ 64, d2 := d2 % 2 ^ 64, d3 := d3 % 2 ^ 64 }
  let s := { s with seq := s.seq + 1, log := (e :: s.log).take 4096 }
  let s := if s.hostA.ellvl.toNat ≤ e.level then raiseIrq .a 1 s else s
  if s.hostB.ellvl.toNat ≤ e.level then raiseIrq .b 1 s else s

/-- Log an event (R275). -/
def logEv (code unit d0 d1 d2 d3 : Nat) (s : State) : State := logAt (stepWord s) code unit d0 d1 d2 d3 s

/-- The 64 bytes of a log entry (R275). -/
def entryBytes (e : LogEntry) : Bytes :=
  leBytes 8 e.seq ++ leBytes 8 e.tide ++ leBytes 2 e.code ++ leBytes 1 e.level ++ leBytes 1 e.flags ++ leBytes 4 e.unit ++
    leBytes 4 e.step ++ leBytes 4 0 ++ leBytes 8 e.d0 ++ leBytes 8 e.d1 ++ leBytes 8 e.d2 ++ leBytes 8 e.d3

/-- Log an access that completed with an error, with its cause of Table 10.15 (R161, R349). -/
def logAccess (addr : Nat) (who : Requester) (cause : Nat) (s : State) : State :=
  logEv 0x0010 (reqUnit who) addr (reqUnit who) cause 0 s

/-- Log a hardware loop that overrode a policy (R328). -/
def logLoop (loop policy value : Nat) (s : State) : State := logEv 0x0072 0 loop policy value 0 s

/-! ### The repair ledger (R302, R303) -/

/-- Records that fit one copy with 4 KiB left free: (8 MiB − 4 KiB header − 4 KiB) / 32 (R302, R303). -/
def ledgerRoom : Nat := (8 * 1048576 - 4096 - 4096) / 32

/-- Whether two records have the same key (R303). -/
def sameKey (a b : LedgerRec) : Bool := a.kind == b.kind && a.index == b.index && a.sub == b.sub

/-- The records in force: for each key the one with the highest SEQ (R303). -/
def inForce (rs : List LedgerRec) : List LedgerRec := rs.filter fun r => !rs.any fun q => sameKey q r && decide (r.seq < q.seq)

/-- The union of both copies by SEQ, in ascending SEQ (R302, R303). -/
def ledgerUnion (f : Flash) : List LedgerRec :=
  let extra := f.ledgerB.recs.filter fun r => !f.ledgerA.recs.any fun q => q.seq == r.seq
  extra.foldl (fun acc r => acc.takeWhile (fun q => decide (q.seq < r.seq)) ++ [r] ++ acc.dropWhile (fun q => decide (q.seq < r.seq)))
    f.ledgerA.recs

/-- The record in force for a key. -/
def ledgerFind (f : Flash) (kind index sub : Nat) : Option LedgerRec :=
  (inForce (ledgerUnion f)).find? fun r => r.kind == kind && r.index == index && r.sub == sub

/-- The highest SEQ written so far. -/
def ledgerTop (f : Flash) : Nat := ((f.ledgerA.recs ++ f.ledgerB.recs).map (·.seq)).foldl max 0

/-- Append a record to copy A and then to copy B; a copy that is short of space is rewritten with only the records in
force and a higher generation, B first (R302, R303). -/
def ledgerAppend (kind srce index sub : Nat) (value : Bytes) (s : State) : State :=
  let r : LedgerRec :=
    { seq := ledgerTop s.flash + 1, kind := kind, srce := srce, index := index, sub := sub, value := slice value 0 12,
      step := stepWord s }
  let a := s.flash.ledgerA.recs ++ [r]
  let b := s.flash.ledgerB.recs ++ [r]
  let f :=
    if ledgerRoom < a.length ∨ ledgerRoom < b.length then
      let all := inForce (ledgerUnion { s.flash with ledgerA := { s.flash.ledgerA with recs := a },
                                                     ledgerB := { s.flash.ledgerB with recs := b } })
      let g := max s.flash.ledgerA.gen s.flash.ledgerB.gen + 1
      { s.flash with ledgerB := { gen := g, recs := all }, ledgerA := { gen := g, recs := all } }
    else { s.flash with ledgerA := { s.flash.ledgerA with recs := a }, ledgerB := { s.flash.ledgerB with recs := b } }
  { s with flash := f }

/-- Append a record of a training or of a wire test; where it differs from the record in force, the package logs both
(R203). -/
def ledgerReplace (kind srce index sub : Nat) (value : Bytes) (s : State) : State :=
  match ledgerFind s.flash kind index sub with
  | none => ledgerAppend kind srce index sub value s
  | some old =>
    if old.value == slice value 0 12 then s
    else logEv 0x0031 0 kind index (leVal old.value) (leVal (slice value 0 12)) (ledgerAppend kind srce index sub value s)

/-- The 32 bytes of a ledger record (Table 11.8). -/
def ledgerBytes (r : LedgerRec) : Bytes :=
  let b := leBytes 4 r.seq ++ leBytes 1 r.kind ++ leBytes 1 r.srce ++ leBytes 2 r.index ++ leBytes 4 r.sub ++ slice r.value 0 12 ++
    leBytes 4 r.step
  b ++ leBytes 4 (crc32c b)

/-! ### Gauges (R101 to R103) -/

/-- Saturating addition of 64-bit counters (R101). -/
def sat64 (a b : Nat) : Nat := min (a + b) (2 ^ 64 - 1)

/-- Add increments to counters that saturate at 2^64 − 1 (R101). -/
def Counts.satAdd (a b : Counts) : Counts :=
  { sat := sat64 a.sat b.sat, flush := sat64 a.flush b.flush, zero := sat64 a.zero b.zero, satBlk := sat64 a.satBlk b.satBlk,
    fall := sat64 a.fall b.fall, overs := sat64 a.overs b.overs, nonfin := sat64 a.nonfin b.nonfin, mism := sat64 a.mism b.mism }

/-- Add to the cell of a class and format. -/
def addCell (cls fmt : Nat) (c : Counts) : List (Nat × Nat × Counts) → List (Nat × Nat × Counts)
  | [] => [(cls, fmt, Counts.satAdd {} c)]
  | (k, f, d) :: r => if k = cls ∧ f = fmt then (k, f, d.satAdd c) :: r else (k, f, d) :: addCell cls fmt c r

/-- Add to the increments of a step and class (8 × step + class) that R103 reports. -/
def addStep (key a b c d : Nat) : List (Nat × Nat × Nat × Nat × Nat) → List (Nat × Nat × Nat × Nat × Nat)
  | [] => [(key, a, b, c, d)]
  | (k, p, q, r, t) :: l => if k = key then (k, p + a, q + b, r + c, t + d) :: l else (k, p, q, r, t) :: addStep key a b c d l

/-- Advance the gauges of a class and format by the work of a step (R101, R102). -/
def gaugeIn (step cls fmt : Nat) (c : Counts) (s : State) : State :=
  { s with gauges :=
      { cells := addCell cls fmt c s.gauges.cells,
        step := if c.satBlk + c.overs + c.nonfin + c.mism = 0 then s.gauges.step
                else addStep (8 * step + cls % 8) c.satBlk c.overs c.nonfin c.mism s.gauges.step } }

/-- Advance the gauges of a class and format in the current step. -/
def addGauge (cls fmt : Nat) (c : Counts) (s : State) : State := gaugeIn s.job.cstep cls fmt c s

/-- Advance the gauges by a list of (class, format, increments) of a step. -/
def gaugeAll (step : Nat) (l : List (Nat × Nat × Counts)) (s : State) : State :=
  l.foldl (fun s g => gaugeIn step g.1 g.2.1 g.2.2 s) s

/-! ### Cores -/

/-- A core that no record mentions: idle and in service. -/
def Core.idle (d c : Nat) : Core :=
  { die := d, core := c, threads := List.replicate 8 .idle, running := 0, outst := [], mapped := false, sticky := false }

/-- The control state of a core. -/
def coreOf (d c : Nat) (s : State) : Core := (s.cores.find? fun k => k.die == d && k.core == c).getD (Core.idle d c)

/-- Replace the record of a core. -/
def putCore (k : Core) : List Core → List Core
  | [] => [k]
  | x :: r => if x.die = k.die ∧ x.core = k.core then k :: r else x :: putCore k r

/-- Change the control state of a core. -/
def modCore (d c : Nat) (f : Core → Core) (s : State) : State := { s with cores := putCore (f (coreOf d c s)) s.cores }

/-- Take a request that lands nothing, or has ended, out of the outstanding ones of its core (R136). -/
def dropOutst (k : Requester × Nat) (s : State) : State :=
  match k.1 with
  | .core d c _ => modCore d.val c (fun x => { x with outst := x.outst.filter fun o => o.id != k.2 }) s
  | _ => s

/-- Send an acknowledgement of a stack: its request leaves its banks and its core (R136, R181). -/
def sendAck (i : Fin 32) (a : WAck) (s : State) : State :=
  emit (ackOut a) (match a.key with
    | some k => dropOutst k (leaveBanks i k s)
    | none => s)

/-- Send the acknowledgements of a stack's writes that waited for nothing but stale notices of a set (R175). -/
def releaseAcks (i : Fin 32) (f : Nat → Bool) (s : State) : State :=
  let held := s.memStacks[i].withheld.map fun h => { h with ids := h.ids.filter fun k => !f k }
  (held.filter fun h => h.ids.isEmpty).foldl (fun s h => sendAck i h.ack s)
    (modStack i (fun st => { st with withheld := held.filter fun h => !h.ids.isEmpty }) s)

/-- Release the watch entries of landings that their cores abandon (R176): no stale notice of them stands any more. -/
def dropWatches (f : Watch → Bool) (s : State) : State :=
  (List.finRange 32).foldl (fun s i =>
    let gone := (s.memStacks[i].watch.filter f).map (·.id)
    if gone.isEmpty then s
    else releaseAcks i (fun k => gone.contains k) (modStack i (fun st => { st with watch := st.watch.filter fun w => !f w }) s)) s

/-- The bytes of a core store: 384 KiB (R4). -/
def storeBytes : Nat := 393216

/-- The key of a byte of a core store: 1,088 cores a die. -/
def storeKey (d c off : Nat) : Nat := (d * 1088 + c) * storeBytes + off

/-- The physical core that runs a logical core: the handover table, else the plain numbering (R159). -/
def physCore (d lc : Nat) (s : State) : Nat :=
  if h : d < 4 then ((s.dies[d].handover.find? fun p => p.1 == lc).map (·.2)).getD lc else lc

/-! ### Job state changes (event 0x0004) -/

/-- Take a job state, logging the change (Table 10.13). -/
def setJob (n : JobState) (s : State) : State :=
  if s.job.state == n then s
  else
    let old := jobNo s.job.state
    logEv 0x0004 0 old (jobNo n) s.job.tag.toNat 0 { s with job := { s.job with state := n } }

/-! ### Time -/

/-- One ns of the tide clock: the count, and a slew of at most 1 ns in each µs (R248). -/
def tideTick (now : Nat) (t : Tide) : Tide :=
  if !t.running then t
  else if now % 1000 = 0 ∧ t.slew ≠ 0 then
    if 0 < t.slew then { t with count := t.count + 2, slew := t.slew - 1 } else { t with slew := t.slew + 1 }
  else { t with count := t.count + 1 }

/-- One ns with nothing commanded (log entry 1). -/
def tick (s : State) : State := { s with now := s.now + 1, tide := tideTick (s.now + 1) s.tide }

/-- Whether a list of instants, kept to the last second, holds more than 64 (R216, R268, R332). -/
def lastSecond (now : Nat) (l : List Nat) : List Nat := l.filter fun t => decide (now < t + 1000000000)

/-- ceil(a / b). -/
def cdiv (a b : Nat) : Nat := (a + b - 1) / b

/-- LEFT: the remaining lease in ms, rounded up; 0 only while the lock is free (R260). -/
def lockLeft (s : State) : Nat :=
  match s.lock.owner with
  | none => 0
  | some _ => max 1 (cdiv (s.lock.leaseEnd - s.now) 1000000)

end Sys2Proof.Machine
end

