-- ==== Sys2Proof/Machine/Operands.lean ====
section
/-! DEFINITION. The operand forms: command entries (R265, Table 10.8), pointers (R147), task bodies (Tables 6.7, 6.25 to 6.29). -/

namespace Sys2Proof.Machine

/-! ### Command entries (R265) -/

/-- OPCODE. -/
def entOp (e : Bytes) : Nat := field e 0 2

/-- FLAGS bit 0: raise the completion interrupt for DONE. -/
def entIrq (e : Bytes) : Bool := bit (field e 2 1) 0

/-- TAG. -/
def entTag (e : Bytes) : Nat := field e 4 4

/-- LOCKGEN. -/
def entGen (e : Bytes) : Nat := field e 8 2

/-- DATA. -/
def entData (e : Bytes) : Nat := field e 16 8

/-- DATALEN. -/
def entLen (e : Bytes) : Nat := field e 24 8

/-- A field of ARGS. -/
def arg (e : Bytes) (off n : Nat) : Nat := field e (32 + off) n

/-- A command entry with the fields a peer command uses (R361). -/
def peerEntry (op tag : Nat) (args : Bytes) : Bytes :=
  leBytes 2 op ++ leBytes 2 0 ++ leBytes 4 tag ++ leBytes 24 0 ++ slice args 0 96

/-- A row of Table 10.8: whether it needs the lock, the job states, whether its entry names DATA, and the bytes of ARGS it
uses as (offset, length) pairs. -/
structure CmdRow where
  lock : Bool
  states : List JobState
  data : Bool
  used : List (Nat × Nat)

/-- Every job state. -/
def anyState : List JobState := [.none, .loaded, .running, .stopped, .failed]

/-- Table 10.8. -/
def cmdRow : Nat → Option CmdRow
  | 0x0001 => some { lock := false, states := anyState, data := false, used := [] }
  | 0x0002 => some { lock := false, states := anyState, data := true, used := [] }
  | 0x0003 => some { lock := false, states := anyState, data := true, used := [(0, 2)] }
  | 0x0004 => some { lock := false, states := anyState, data := true, used := [(0, 10)] }
  | 0x0005 => some { lock := false, states := anyState, data := true, used := [] }
  | 0x0006 => some { lock := false, states := anyState, data := true, used := [] }
  | 0x0007 => some { lock := false, states := [.loaded, .stopped], data := true, used := [(0, 5)] }
  | 0x0101 => some { lock := true, states := [.none, .loaded, .stopped], data := true, used := [(0, 3), (4, 2), (8, 12)] }
  | 0x0102 => some { lock := true, states := [.loaded, .stopped], data := false, used := [(0, 8)] }
  | 0x0103 => some { lock := true, states := [.running], data := false, used := [] }
  | 0x0104 => some { lock := true, states := [.loaded, .stopped, .failed], data := false, used := [] }
  | 0x0201 => some { lock := true, states := [.running], data := false, used := [] }
  | 0x0202 => some { lock := true, states := [.loaded, .stopped], data := false, used := [(0, 5)] }
  | 0x0203 => some { lock := true, states := [.none, .loaded, .stopped], data := false, used := [(0, 3)] }
  | 0x0204 => some { lock := true, states := [.none, .loaded, .stopped], data := false, used := [] }
  | 0x0301 => some { lock := true, states := [.none], data := false, used := [(0, 5)] }
  | 0x0302 => some { lock := true, states := [.none], data := false, used := [(0, 1)] }
  | 0x0303 =>
    some { lock := true, states := [.none, .loaded, .running, .stopped], data := false, used := [(0, 4), (8, 20)] }
  | 0x0304 => some { lock := true, states := [.none], data := false, used := [] }
  | 0x0305 => some { lock := true, states := [.none], data := false, used := [(0, 2)] }
  | 0x0306 => some { lock := true, states := anyState, data := false, used := [(0, 1)] }
  | 0x0307 => some { lock := true, states := [.none], data := false, used := [(0, 1)] }
  | 0x0308 => some { lock := true, states := [.none, .loaded, .running, .stopped], data := false, used := [(0, 2)] }
  | 0x0401 => some { lock := true, states := [.none], data := false, used := [(0, 4)] }
  | 0x0402 => some { lock := true, states := [.none], data := true, used := [(0, 3), (4, 4)] }
  | 0x0403 => some { lock := true, states := [.none], data := true, used := [(0, 3)] }
  | 0x0501 => some { lock := true, states := anyState, data := true, used := [(0, 1)] }
  | 0x0502 => some { lock := true, states := anyState, data := false, used := [(0, 1)] }
  | _ => none

/-- Whether offset `i` lies in one of the (offset, length) pairs. -/
def inUsed (used : List (Nat × Nat)) (i : Nat) : Bool := used.any fun u => decide (u.1 ≤ i ∧ i < u.1 + u.2)

/-- Whether a reserved byte or bit of an entry is set: FLAGS [7:1], bytes 3 and 10 to 15, unused ARGS (R265). -/
def entReserved (used : List (Nat × Nat)) (e : Bytes) : Bool :=
  field e 2 1 > 1 || !allZero e 3 1 || !allZero e 10 6 ||
    ((List.range 96).any fun i => !inUsed used i && arg e i 1 != 0)

/-! ### Pointers (R147) -/

/-- A decoded pointer. -/
inductive Ptr where
  | absent
  | phys (addr : Nat)
  | store (off : Nat)
  deriving DecidableEq, Repr

/-- The pointer a field holds. -/
def ptr (v : Nat) : Ptr :=
  match bits v 63 60 with
  | 1 => .phys (bits v 51 0)
  | 2 => .store (bits v 18 0)
  | _ => .absent

/-- Whether a pointer field breaks the layout of R147; the limit of a core-store offset is check 12. -/
def ptrReserved (v : Nat) : Bool :=
  match bits v 63 60 with
  | 0 => v != 0
  | 1 => bits v 59 52 != 0
  | 2 => bits v 59 19 != 0
  | _ => true

/-! ### Task units (Table 6.1) -/

/-- The compute die of an F or B task. -/
def unitDie (u : Nat) : Nat := bits u 11 10

/-- The logical core of an F or B task. -/
def unitCore (u : Nat) : Nat := bits u 9 0

/-- The thread context of an F or B task. -/
def unitCtx (u : Nat) : Nat := bits u 14 12

/-- The stack of a U task. -/
def unitStack (u : Nat) : Nat := bits u 4 0

/-! ### GEMM bodies (Tables 6.7, 6.8) -/

/-- The GEMM body. Pointers are raw. -/
structure Gemm where
  kind : Nat
  target : Nat
  mode : Nat
  osc : Int
  mxa : Nat
  mxb : Nat
  mxo : Nat
  clo : BF16
  chi : BF16
  tensor : Nat
  row0 : Nat
  rows : Nat
  col0 : Nat
  cols : Nat
  kb0 : Nat
  kbn : Nat
  ktot : Nat
  cslot : Nat
  peers : Nat
  asrc : Nat
  ascl : Nat
  aext : Nat
  bsrc : Nat
  bside : Nat
  bext : Nat
  bdir : Nat
  chan : Nat
  spv : Nat
  bermu : Nat
  bermv : Nat
  bias : Nat
  out : Nat
  stash : Nat
  stscl : Nat
  part : Nat
  tctl : Nat

/-- Read a GEMM body (Table 6.7). -/
def decodeGemm (b : Bytes) : Gemm :=
  { kind := field b 0 1, target := field b 1 1, mode := field b 2 2, osc := toSigned 8 (field b 4 1), mxa := field b 5 1,
    mxb := field b 6 1, mxo := field b 7 1, clo := BitVec.ofNat 16 (field b 8 2), chi := BitVec.ofNat 16 (field b 10 2),
    tensor := field b 12 4, row0 := field b 16 4, rows := field b 20 4, col0 := field b 24 4, cols := field b 28 4,
    kb0 := field b 32 4, kbn := field b 36 4, ktot := field b 40 4, cslot := field b 44 4, peers := field b 48 2,
    asrc := field b 64 8, ascl := field b 72 8, aext := field b 80 8, bsrc := field b 88 8, bside := field b 96 8,
    bext := field b 104 8, bdir := field b 112 8, chan := field b 120 8, spv := field b 128 8, bermu := field b 136 8,
    bermv := field b 144 8, bias := field b 152 8, out := field b 160 8, stash := field b 168 8, stscl := field b 176 8,
    part := field b 184 8, tctl := field b 192 8 }

/-- ROTO. -/
def Gemm.roto (g : Gemm) : Nat := bits g.mode 15 14

/-- The rotation order that ROTO selects: 0, 16 or 256. -/
def Gemm.order (g : Gemm) : Nat :=
  match g.roto with
  | 1 => 16
  | 2 => 256
  | _ => 0

/-- OROT. -/
def Gemm.orot (g : Gemm) : Bool := bit g.mode 13

/-- UNS. -/
def Gemm.uns (g : Gemm) : Bool := bit g.mode 12

/-- ZPT. -/
def Gemm.zpt (g : Gemm) : Nat := bits g.mode 10 8

/-- SCAP. -/
def Gemm.scap (g : Gemm) : Nat := bits g.mode 7 5

/-- The spillway capacity S. -/
def Gemm.cap (g : Gemm) : Nat :=
  match g.scap with
  | 1 => 4
  | 2 => 8
  | 3 => 16
  | 4 => 24
  | _ => 0

/-- THETA. -/
def Gemm.theta (g : Gemm) : Nat := bits g.mode 4 2

/-- RANK. -/
def Gemm.rankCode (g : Gemm) : Nat := bits g.mode 1 0

/-- The berm rank. -/
def Gemm.rank (g : Gemm) : Nat :=
  match g.rankCode with
  | 1 => 16
  | 2 => 32
  | 3 => 64
  | _ => 0

/-- The pointer fields of a GEMM body with the stream kinds that Table 6.18 gives them, in the order of Table 6.7. -/
def Gemm.ptrs (g : Gemm) : List Nat :=
  [g.asrc, g.ascl, g.aext, g.bsrc, g.bside, g.bext, g.bdir, g.chan, g.spv, g.bermu, g.bermv, g.bias, g.out, g.stash, g.stscl,
    g.part, g.tctl]

/-! ### VECTOR bodies (Tables 6.28, 6.29) -/

/-- An operation entry. -/
structure VecOp where
  op : Nat
  gated : Bool
  stashOut : Bool
  uns : Bool
  param : F32

/-- The VECTOR body. -/
structure VecBody where
  row0 : Nat
  rows : Nat
  cols : Nat
  nops : Nat
  peers : Nat
  src : Nat
  src2 : Nat
  dst : Nat
  stash : Nat
  stscl : Nat
  rowsc : Nat
  param1 : Nat
  param2 : Nat
  pten1 : Nat
  pten2 : Nat
  grad : Nat
  cslot : Nat
  loss : Nat
  ops : List VecOp

/-- Read an operation entry (Table 6.29). -/
def decodeVecOp (b : Bytes) : VecOp :=
  { op := field b 0 1, gated := bit (field b 1 1) 0, stashOut := bit (field b 1 1) 1, uns := bit (field b 1 1) 2,
    param := BitVec.ofNat 32 (field b 4 4) }

/-- Read a VECTOR body (Table 6.28). -/
def decodeVec (b : Bytes) : VecBody :=
  { row0 := field b 0 4, rows := field b 4 4, cols := field b 8 4, nops := field b 12 1, peers := field b 14 2,
    src := field b 16 8, src2 := field b 24 8, dst := field b 32 8, stash := field b 40 8, stscl := field b 48 8,
    rowsc := field b 56 8, param1 := field b 64 8, param2 := field b 72 8, pten1 := field b 80 4, pten2 := field b 84 4,
    grad := field b 88 8, cslot := field b 96 4, loss := field b 104 8,
    ops := (List.range (min (field b 12 1) 8)).map fun i => decodeVecOp (slice b (128 + 16 * i) 16) }

/-! ### UPDATE, MOVE and SEND bodies (Tables 6.25 to 6.27) -/

/-- The UPDATE body. -/
structure UpdBody where
  tensor : Nat
  first : Nat
  count : Nat
  nuses : Nat
  optrec : Nat
  master : Nat
  mom1 : Nat
  mom2 : Nat
  rbuf : Nat
  cslot : Nat
  uses : Nat
  codes : Nat
  side : Nat
  ext : Nat
  dir : Nat
  chan : Nat
  counts : Nat
  bermu : Nat
  bermv : Nat
  seed : Nat
  tctl : Nat

/-- Read an UPDATE body (Table 6.27). -/
def decodeUpd (b : Bytes) : UpdBody :=
  { tensor := field b 0 4, first := field b 4 4, count := field b 8 4, nuses := field b 12 2, optrec := field b 16 8,
    master := field b 24 8, mom1 := field b 32 8, mom2 := field b 40 8, rbuf := field b 48 8, cslot := field b 56 4,
    uses := field b 64 8, codes := field b 72 8, side := field b 80 8, ext := field b 88 8, dir := field b 96 8,
    chan := field b 104 8, counts := field b 112 8, bermu := field b 120 8, bermv := field b 128 8, seed := field b 136 8,
    tctl := field b 144 8 }

/-- The MOVE body. -/
structure MoveBody where
  src : Nat
  dst : Nat
  length : Nat
  hint : Nat
  prefetch : Bool

/-- Read a MOVE body (Table 6.25). -/
def decodeMove (b : Bytes) : MoveBody :=
  { src := field b 0 8, dst := field b 8 8, length := field b 16 8, hint := field b 24 1, prefetch := bit (field b 25 1) 0 }

/-- The SEND body. -/
structure SendBody where
  buf : Nat
  redid : Nat
  first : Nat
  count : Nat
  ptask : Nat

/-- Read a SEND body (Table 6.26). -/
def decodeSend (b : Bytes) : SendBody :=
  { buf := field b 0 8, redid := field b 8 4, first := field b 12 4, count := field b 16 4, ptask := field b 20 4 }

/-! ### Levee window records (Table 8.7) -/

/-- Read a window record: number, record. -/
def decodeWindow (b : Bytes) : Nat × Window :=
  (field b 0 1,
    { isOpen := bit (field b 1 1) 0, read := bit (field b 1 1) 1, write := bit (field b 1 1) 2, narrow := bit (field b 1 1) 3,
      queue := bit (field b 1 1) 4, rate := field b 2 2, base := field b 8 8, size := field b 16 8, qfirst := field b 24 2,
      qcount := field b 26 2 })

end Sys2Proof.Machine
end

