-- ==== Sys2Proof/Machine/Flags.lean ====
section
/-! DEFINITION. The register file of BAR0 as a port reads it (Tables 10.4 to 10.6, 10.11, 10.12), which bits a write may set (R6),
and the flags that are computed from the state: port and link status, ALERT_N. -/

namespace Sys2Proof.Machine

/-! ### Die links (Table 1.2, R201) -/

/-- The bundles a link has per direction: ring 128, hub 64, stack 32, guest 16 (Table 1.2; indices of Table 11.9). -/
def linkBundles (l : Nat) : Nat := if l < 4 then 128 else if l < 8 then 64 else if l < 40 then 32 else 16

/-- The rated bundles (Table 1.2). -/
def linkRated (l : Nat) : Nat := if l < 4 then 120 else if l < 8 then 60 else if l < 40 then 30 else 15

/-- How many bundles a mask holds. -/
def width (m : BitVec 128) : Nat := ((List.range 128).filter fun i => m.getLsbD i).length

/-- Whether a link is below rating or down (R201, PORTST). -/
def linkBelow (l : Fin 41) (s : State) : Bool :=
  let k := s.links[l]
  !k.up || decide (width k.masks.1 < linkRated l) || decide (width k.masks.2 < linkRated l)

/-- Bit `i` of a word from a list of flags, bit 0 first. -/
def flagWord : List Bool → Nat
  | [] => 0
  | b :: r => b2n b + 2 * flagWord r

/-- The 2-bit state of a fabric port: 0 at rating, 1 below, 2 down (PORTST). -/
def fabState (f : FabPort) : Nat := if !f.up then 2 else if f.half = 0 then 0 else 1

/-- Whether a host's accesses reach the package through a port. -/
def portAlive (p : HPort) (s : State) : Bool :=
  !(hostOf p s).inReset && (hostOf p s).state != 2 &&
    (match s.power.phase with
     | .booted => true
     | .ready => true
     | .recovery => true
     | _ => false)

/-! ### Identity and status (Table 10.4) -/

/-- OWNER. -/
def ownerNo : Option HPort → Nat
  | none => 0
  | some .a => 1
  | some .b => 2

/-- A word of Table 10.4 as port `p` reads it. -/
def statusWord (p : HPort) (off : Nat) (s : State) : Nat :=
  match off with
  | 0x0000 => 0x0432 * 2 ^ 16 + 0xB0 * 256 + 2 * b2n s.power.gsite + hportNo p
  | 0x0004 => s.warden.major.toNat * 2 ^ 24 + s.warden.minor.toNat * 2 ^ 16 + s.warden.build.toNat
  | 0x0008 => 16 * s.power.assy.toNat + 4 * b2n s.warden.recov + 2 * b2n s.warden.fell + b2n s.warden.slot
  | 0x000C => (if jobLoaded s then logId s * 2 ^ 16 + 2 ^ 15 else 0) + physId s
  | 0x0010 =>
    s.power.straps.bootsel.toNat * 2 ^ 20 + s.power.straps.oscdly.toNat * 2 ^ 17 + s.power.straps.feed.toNat * 2 ^ 13 + physId s
  | 0x0014 =>
    s.job.tag.toNat * 2 ^ 16 + 16 * jobNo s.job.state + 8 * b2n s.power.boost + 4 * b2n (!s.warden.guard.isEmpty) +
      2 * b2n s.tide.tsync + b2n s.warden.ready
  | 0x0018 => s.job.cstep % 2 ^ 32
  | 0x0020 => tideNow s % 2 ^ 32
  | 0x0024 => s.tideHi.toNat
  | 0x0030 =>
    ((fports.map fun q => fabState (fabOf q s) * 2 ^ (4 + 2 * (fportNo q).val)).sum) + 4 * s.hostB.state.toNat + s.hostA.state.toNat
  | 0x0034 =>
    256 * b2n (linkBelow 40 s) + 16 * flagWord ([4, 5, 6, 7].map fun l => linkBelow l s) +
      flagWord ([0, 1, 2, 3].map fun l => linkBelow l s)
  | 0x0038 => flagWord ((List.finRange 32).map fun i => linkBelow (Fin.ofNat 41 (8 + i.val)) s)
  | 0x003C => (s.far[1].st * 2 ^ 13 + s.far[1].cap / 2 ^ 30) * 2 ^ 16 + s.far[0].st * 2 ^ 13 + s.far[0].cap / 2 ^ 30
  | 0x0040 => flagWord ((List.finRange 32).map fun i => s.memStacks[i].policy)
  | 0x0044 => s.dies[3].spares * 2 ^ 24 + s.dies[2].spares * 2 ^ 16 + s.dies[1].spares * 256 + s.dies[0].spares
  | _ => 0

/-! ### Lock, mailbox, interrupt, queue and event-log words -/

/-- A lock register (Table 10.5). -/
def lockWord (off : Nat) (s : State) : Nat :=
  match off with
  | 0x1000 => s.lock.gen.toNat * 2 ^ 16 + ownerNo s.lock.owner * 256
  | 0x1004 => s.lock.lease.toNat
  | 0x1008 => lockLeft s
  | _ => 0

/-- A mailbox register of a port (Table 10.6). -/
def mboxWord (m : Mailbox) (off : Nat) : Nat :=
  match off with
  | 0x2000 => m.cbaseLo.toNat * 2 ^ 12
  | 0x2004 => m.cbaseHi.toNat
  | 0x2008 => m.clog.toNat
  | 0x2010 => m.pbaseLo.toNat * 2 ^ 12
  | 0x2014 => m.pbaseHi.toNat
  | 0x2018 => m.plog.toNat
  | 0x2024 => m.cci.toNat
  | 0x2028 => m.ppi.toNat
  | 0x202C => m.pci.toNat
  | 0x2030 => 2 * b2n m.masked + b2n m.en
  | _ => 0

/-- An interrupt, BAR2 or event-log register of a port (Table 10.12). -/
def irqWord (h : HostPort) (seq off : Nat) : Nat :=
  match off with
  | 0x3000 => h.irqen.toNat
  | 0x3004 => h.irqst.toNat
  | 0x3010 => h.wbaseLo.toNat
  | 0x3014 => h.wbaseHi.toNat
  | 0x3018 => h.hint.toNat
  | 0x3020 => seq % 2 ^ 32
  | 0x3024 => h.elseqHi.toNat
  | 0x3028 => h.ellvl.toNat
  | _ => 0

/-- The record of a hardware queue. -/
def queueOf (q : Nat) (s : State) : Option HwQueue := s.queues.find? fun e => e.queue == q

/-- A queue-control word (Table 10.11). -/
def queueWord (off : Nat) (s : State) : Nat :=
  match queueOf ((off - 0x100000) / 16) s with
  | none => 0
  | some e =>
    if e.queue < 16 then 0
    else match (off - 0x100000) % 16 with
    | 0 => (e.ci % 65536) * 65536 + e.pi % 65536
    | 4 => e.role * 2 ^ 30 + hportNo e.port * 2 ^ 29 + b2n e.masked * 2 ^ 28 + e.depth % 8192
    | _ => 0

/-- The event-log entry in a slot: the newest entry whose number falls there (R275). -/
def logSlot (i : Nat) (s : State) : Option LogEntry := s.log.find? fun e => e.seq % 4096 == i

/-- A word of the event-log window (R275). -/
def logWord (off : Nat) (s : State) : Nat :=
  match logSlot ((off - 0x200000) / 64) s with
  | none => 0
  | some e => field (entryBytes e) (off % 64) 4

/-- An aligned word of BAR0 as port `p` reads it (R257). -/
def bar0Word (p : HPort) (off : Nat) (s : State) : Nat :=
  if off < 0x1000 then statusWord p off s
  else if off < 0x2000 then lockWord off s
  else if off < 0x3000 then mboxWord (hostOf p s).mb off
  else if off < 0x4000 then irqWord (hostOf p s) s.seq off
  else if 0x100000 ≤ off ∧ off < 0x200000 then queueWord off s
  else if 0x200000 ≤ off ∧ off < 0x240000 then logWord off s
  else 0

/-- The bits a write may set, trigger or clear, for an aligned offset; none for an offset that no table defines (R6, R257). -/
def writeMask (off : Nat) : Option Nat :=
  match off with
  | 0x1000 => some 0x7
  | 0x1004 => some 0xFFFF
  | 0x1008 => some 0
  | 0x2000 => some 0xFFFFF000
  | 0x2004 => some 0xFFFFFFFF
  | 0x2008 => some 0xF
  | 0x2010 => some 0xFFFFF000
  | 0x2014 => some 0xFFFFFFFF
  | 0x2018 => some 0xF
  | 0x2020 => some 0xFFFF
  | 0x2024 => some 0
  | 0x2028 => some 0
  | 0x202C => some 0xFFFF
  | 0x2030 => some 0x1
  | 0x3000 => some 0xF
  | 0x3004 => some 0xF
  | 0x3010 => some 0xFFFFFFFF
  | 0x3014 => some 0xFFFFF
  | 0x3018 => some 0x3
  | 0x3020 => some 0
  | 0x3024 => some 0
  | 0x3028 => some 0x7
  | _ =>
    if off ≤ 0x0044 ∧ off ≠ 0x001C ∧ off ≠ 0x0028 ∧ off ≠ 0x002C then some 0
    else if 0x100000 ≤ off ∧ off < 0x200000 then (if off % 16 = 8 then some 0xFFFF else some 0)
    else if 0x200000 ≤ off ∧ off < 0x240000 then some 0
    else none

/-- The mask of the reserved and read-only bits that a write gives another value than they read (R6). -/
def diffMask (off v r : Nat) : Nat := (v ^^^ r) &&& (0xFFFFFFFF - (writeMask off).getD 0)

/-- Log a register write that was not applied, or not in the bits of `mask` (R6, R257). -/
def logWrite (p : HPort) (off v mask : Nat) (s : State) : State := logEv 0x0001 (unitWord 5 (hportNo p) 0) off v mask 0 s

/-- Log the reserved and read-only bits that a write gives another value than they read; nothing when there is none (R6). -/
def logDiff (p : HPort) (off v : Nat) (s : State) : State :=
  let d := diffMask off v (bar0Word p off s)
  if d = 0 then s else logWrite p off v d s

/-- Log a register write that is ignored as a whole, with the bits that differ from what the register reads (R6, R257; log
entry 13). -/
def logIgnored (p : HPort) (off v : Nat) (s : State) : State := logWrite p off v (v ^^^ bar0Word p off s) s

/-! ### ALERT_N (R327, Table 12.10) -/

/-- Whether ALERT_N is asserted. -/
def alertN (s : State) : Bool :=
  s.power.pfail || s.power.thermtrip || (List.finRange 4).any (fun d => s.dies[d].hot || s.dies[d].ocStopped) || s.power.ocHub ||
    (List.finRange 32).any (fun i => decide (2 ≤ s.memStacks[i].band)) || s.power.perstA.masked || s.power.perstB.masked ||
    s.power.pfailIn.masked || s.warden.recov

end Sys2Proof.Machine
end

