-- ==== Sys2Proof/Machine/Msg.lean ====
section
/-! DEFINITION. Fabric messages: their bytes (Table 9.3), their pieces and frames (R221, R222), routes and sub-channels (R231,
R232), broadcasts (R245). -/

namespace Sys2Proof.Machine

/-! ### Bytes of a message (R233) -/

/-- An ID field with its PHYS bit (Table 9.3). -/
def idField (id : Nat) (phys : Bool) : Nat := id % 8192 + 32768 * b2n phys

/-- The payload padded to whole 32-byte units. -/
def padUnits (bs : Bytes) : Bytes := slice bs 0 (32 * cdiv bs.length 32)

/-- The bytes of a message: header and payload (Table 9.3). -/
def msgBytes (m : Msg) : Bytes :=
  let pl := padUnits m.payload
  leBytes 1 m.type ++ leBytes 1 (m.cls + 8 * b2n m.sub + 16 * m.axis) ++
    leBytes 1 (b2n m.pnf + 2 * b2n m.psat + 4 * b2n m.last + 8 * b2n m.resend + 16 * b2n m.bcast) ++ leBytes 1 0 ++
    leBytes 2 (idField m.src m.srcPhys) ++ leBytes 2 (idField m.dst m.dstPhys) ++ leBytes 2 m.jobtag ++
    leBytes 2 (pl.length / 32) ++ leBytes 4 m.step ++ leBytes 4 m.ref ++ leBytes 4 m.offset ++ leBytes 8 m.digest ++ pl

/-- Read a message from its bytes, with its LEN field; the fields are taken as they stand. -/
def parseMsg (bs : Bytes) : Msg :=
  let r := field bs 1 1
  let f := field bs 2 1
  { type := field bs 0 1, cls := bits r 2 0, sub := bit r 3, axis := bits r 5 4, pnf := bit f 0, psat := bit f 1, last := bit f 2,
    resend := bit f 3, bcast := bit f 4, src := bits (field bs 4 2) 12 0, srcPhys := bit (field bs 4 2) 15,
    dst := bits (field bs 6 2) 12 0, dstPhys := bit (field bs 6 2) 15, jobtag := field bs 8 2, step := field bs 12 4,
    ref := field bs 16 4, offset := field bs 20 4, digest := field bs 24 8, payload := bs.drop 32 }

/-! ### Pieces and frames (R221, R222) -/

/-- The piece descriptor of Table 9.8. -/
def pieceDesc (cls : Nat) (sub first last : Bool) (plen : Nat) : Bytes :=
  leBytes 1 (cls + 8 * b2n sub + 16 * b2n first + 32 * b2n last) ++ leBytes 1 0 ++ leBytes 2 plen

/-- The frame payloads of a message: pieces of at most 492 bytes in ascending order, each padded to 496 bytes. -/
def framePayloads (m : Msg) : List Bytes :=
  let bs := msgBytes m
  let n := cdiv bs.length 492
  (List.range n).map fun i =>
    let p := (bs.drop (492 * i)).take 492
    slice (pieceDesc m.cls m.sub (i == 0) (i + 1 == n) p.length ++ p) 0 496

/-- The credit return that returns nothing. -/
def noReturn : Nat × Bool × Nat := (0, false, 0)

/-- How many credits a class and sub-channel has in use. -/
def creditsUsed (cls : Nat) (sub : Bool) (l : List (Nat × Bool × Nat)) : Nat :=
  ((l.find? fun x => x.1 == cls && x.2.1 == sub).map (·.2.2)).getD 0

/-- Set the credits in use of a class and sub-channel; none in use is no entry. -/
def setCredits (cls : Nat) (sub : Bool) (n : Nat) (l : List (Nat × Bool × Nat)) : List (Nat × Bool × Nat) :=
  (l.filter fun x => !(x.1 == cls && x.2.1 == sub)) ++ (if n = 0 then [] else [(cls, sub, n)])

/-- The class, the sub-channel and the credits, ceil(PLEN / 64), of the piece in a frame's payload; an idle frame uses none (R222). -/
def pieceCredits (payload : Bytes) : Nat × Bool × Nat :=
  let b := field payload 0 1
  (bits b 2 0, bit b 3, if bit b 6 then 0 else cdiv (field payload 2 2) 64)

/-- Send one frame on a port, with a credit return: it takes the next sequence number, stays among the last 256 frames, and goes out
with its CRC-32C (R221). Its piece uses its credits (R222); the shared part of the buffer has room for it (log entry 70). -/
def sendFrame (p : FPort) (payload : Bytes) (ret : Nat × Bool × Nat) (s : State) : State :=
  let f := fabOf p s
  let q := f.txSeq.toNat
  let crc := crc32c (Config.linkHeader q f.rxSeq.toNat ret ++ payload)
  let c := pieceCredits payload
  emit (.frame p q payload ret crc)
    (modFab p (fun f =>
      { f with txSeq := f.txSeq + 1, tx := (f.tx ++ [(q, payload, 1)]).drop (f.tx.length + 1 - 256),
               used := setCredits c.1 c.2.1 (creditsUsed c.1 c.2.1 f.used + c.2.2) f.used }) s)

/-- The payload of an idle frame (Table 9.8). -/
def idlePayload : Bytes := slice (leBytes 1 64) 0 496

/-- Take a credit return: those credits are in use no more. -/
def takeCredits (p : FPort) (r : Nat × Bool × Nat) (s : State) : State :=
  modFab p (fun f => { f with used := setCredits r.1 r.2.1 (creditsUsed r.1 r.2.1 f.used - r.2.2) f.used }) s

/-- Send a message on a port; nothing goes out on a port that is down. -/
def sendOn (p : FPort) (m : Msg) (s : State) : State :=
  if (fabOf p s).up then (framePayloads m).foldl (fun s f => sendFrame p f noReturn s) (emit (.msg p m) s) else s

/-! ### Routes (R231, R232) -/

/-- The coordinate of an ID on an axis. -/
def coord (id axis : Nat) : Nat :=
  match axis with
  | 0 => id % 32
  | 1 => id / 32 % 16
  | _ => id / 512 % 16

/-- The length of an axis of the loaded job's grid; 1 with no job. -/
def axisLen (axis : Nat) (s : State) : Nat :=
  match s.job.image with
  | none => 1
  | some im =>
    match axis with
    | 0 => im.mapping.lx
    | 1 => im.mapping.ly
    | _ => im.mapping.lz

/-- Whether an axis of the loaded job is a ring (RINGS, R227). -/
def axisRing (axis : Nat) (s : State) : Bool :=
  match s.job.image with
  | none => false
  | some im => bit im.mapping.rings axis

/-- The direction towards a target on an axis: on a ring the one with fewer hops, + when equal; on a line towards the
target (R231). -/
def towards (len : Nat) (ring : Bool) (pos tgt : Nat) : Option Bool :=
  if pos = tgt then none
  else if ring then some (decide ((tgt + len - pos) % len ≤ (pos + len - tgt) % len))
  else some (decide (pos < tgt))

/-- The next hop to a logical ID: first along X, then Y, then Z (R231). -/
def nextHop (dst : Nat) (s : State) : Option (Nat × Bool) :=
  [0, 1, 2].findSome? fun a => (towards (axisLen a s) (axisRing a s) (coord (logId s) a) (coord dst a)).map fun d => (a, d)

/-- Whether a hop crosses the dateline of its axis (R232). -/
def crosses (axis : Nat) (plus : Bool) (s : State) : Bool :=
  axisRing axis s && (if plus then decide (coord (logId s) axis + 1 = axisLen axis s) else decide (coord (logId s) axis = 0))

/-- The sub-channel of a message on its next hop (R232): 0 on entering an axis, 1 from the dateline on. -/
def hopSub (m : Msg) (axis : Nat) (plus : Bool) (s : State) : Bool := crosses axis plus s || (m.axis == axis && m.sub)

/-- Send a message one hop along an axis. -/
def sendAxis (axis : Nat) (plus : Bool) (m : Msg) (s : State) : State :=
  sendOn (axisPort axis plus) { m with axis := axis, sub := hopSub m axis plus s } s

/-- Send or forward a message towards its logical destination; nothing goes out when it is this package. -/
def sendLog (m : Msg) (s : State) : State :=
  match nextHop m.dst s with
  | none => s
  | some (a, d) => sendAxis a d m s

/-- The port whose neighbour's LINKID reported a physical ID. -/
def portTo (phys : Nat) (s : State) : Option FPort :=
  fports.find? fun p => (fabOf p s).up && ((fabOf p s).neigh.map (·.phys)) == some phys

/-- The next hop to a physical ID that no neighbour has: along the fixed torus of R227 (log entry 12). -/
def physHop (dst : Nat) (s : State) : Option (Nat × Bool) :=
  [(0, 32), (1, 16), (2, 16)].findSome? fun a =>
    (towards a.2 true (coord (physId s) a.1) (coord dst a.1)).map fun d => (a.1, d)

/-- The sub-channel of a message to a physical ID on its next hop (R232): each axis of the fixed torus is a ring, with its dateline
between its last position and 0 (log entry 12). -/
def physSub (m : Msg) (axis : Nat) (plus : Bool) (s : State) : Bool :=
  let c := coord (physId s) axis
  let len := if axis = 0 then 32 else 16
  (if plus then c + 1 == len else c == 0) || (m.axis == axis && m.sub)

/-- Send a message towards a physical ID. -/
def sendPhys (m : Msg) (s : State) : State :=
  match portTo m.dst s with
  | some p =>
    let a := (fportNo p).val / 2
    sendOn p { m with axis := a, sub := physSub m a ((fportNo p).val % 2 == 0) s } s
  | none =>
    match physHop m.dst s with
    | none => s
    | some (a, d) => sendOn (axisPort a d) { m with axis := a, sub := physSub m a d s } s

/-- Send a message to the destination its DST field names. -/
def sendMsg (m : Msg) (s : State) : State := if m.dstPhys then sendPhys m s else sendLog m s

/-! ### Broadcasts (R245) -/

/-- How many hops a broadcast travels on an axis from the sender's position: half the ring each way, + taking the larger
half; on a line, to both ends. -/
def bcastHops (len : Nat) (ring plus : Bool) (pos : Nat) : Nat :=
  if len ≤ 1 then 0
  else if ring then (if plus then len / 2 else (len - 1) / 2)
  else if plus then len - 1 - pos else pos

/-- The hops a broadcast has made on an axis from its sender's position to this one. -/
def hopsFrom (len : Nat) (ring plus : Bool) (src pos : Nat) : Nat :=
  if ring then (if plus then (pos + len - src) % len else (src + len - pos) % len) else if plus then pos - src else src - pos

/-- Start the phase of a broadcast on an axis, in both directions. -/
def bcastAxis (m : Msg) (s0 : State) (s : State) (axis : Nat) : State :=
  let len := axisLen axis s0
  let ring := axisRing axis s0
  let pos := coord (logId s0) axis
  let s := if 0 < bcastHops len ring true pos then sendAxis axis true { m with axis := 3 } s else s
  if 0 < bcastHops len ring false pos then sendAxis axis false { m with axis := 3 } s else s

/-- Send a broadcast: the X phase, and as a member of the X and Y phases the Y and Z phases (R245). -/
def bcastMsg (m : Msg) (s : State) : State := [0, 1, 2].foldl (bcastAxis { m with bcast := true, dst := 0, dstPhys := false } s) s

/-- Send a broadcast on: further along the axis and direction it came on, and into the later axes (R245). -/
def bcastForward (p : FPort) (m : Msg) (s : State) : State :=
  let m := { m with at_ := 0 }
  let axis := (fportNo p).val / 2
  let plus := (fportNo p).val % 2 == 1
  let len := axisLen axis s
  let ring := axisRing axis s
  let src := coord m.src axis
  let done := hopsFrom len ring plus src (coord (logId s) axis)
  let s1 := if done < bcastHops len ring plus src then sendAxis axis plus m s else s
  ([1, 2].filter fun a => decide (axis < a)).foldl (bcastAxis m s) s1

/-! ### Ready-made messages -/

/-- A job message from this package (logical IDs, the job tag). -/
def jobMsg (type cls dst step ref offset digest : Nat) (payload : Bytes) (s : State) : Msg :=
  { type := type, cls := cls, sub := false, axis := 3, pnf := false, psat := false, last := false, resend := false, bcast := false,
    src := logId s, srcPhys := false, dst := dst, dstPhys := false, jobtag := s.job.tag.toNat, step := step, ref := ref,
    offset := offset, digest := digest, payload := payload }

/-- A message outside a job (physical IDs, tag 0; Table 9.3). -/
def physMsg (type cls dst step ref offset : Nat) (payload : Bytes) (s : State) : Msg :=
  { type := type, cls := cls, sub := false, axis := 3, pnf := false, psat := false, last := false, resend := false, bcast := false,
    src := physId s, srcPhys := true, dst := dst, dstPhys := true, jobtag := 0, step := step, ref := ref, offset := offset, digest := 0,
    payload := payload }

/-- Send a peer command to a physical ID (R361). -/
def peerToPhys (op dst : Nat) (args : Bytes) (s : State) : State := sendMsg (physMsg 0x0B 4 dst 0 0 0 (peerEntry op 0 args) s) s

/-- Send a peer command to a logical ID; one to this package itself goes to its own queue 6 (R361). -/
def peerToLog (op dst step : Nat) (args : Bytes) (s : State) : State :=
  if dst = logId s then
    { s with peer := { s.peer with waiting := s.peer.waiting ++
        [{ port := .xp, src := logId s, phys := false, bcast := false, bytes := peerEntry op 0 args }] } }
  else sendMsg (jobMsg 0x0B 4 dst step 0 0 0 (peerEntry op 0 args) s) s

/-- Broadcast a peer command to the job (R361, R245). -/
def peerBcast (op step : Nat) (args : Bytes) (s : State) : State :=
  bcastMsg (jobMsg 0x0B 4 0 step 0 0 0 (peerEntry op 0 args) s) s

end Sys2Proof.Machine
end

