-- ==== Sys2Proof/Machine/Service.lean ====
section
/-! DEFINITION. Shared services of the warden: completion entries, the end of a command, step origins, notices and extended
deadlines, failure of the package. -/

namespace Sys2Proof.Machine

/-! ### Completion entries (R266, R267) -/

/-- Numbers of the completion kinds: 0 ACCEPTED, 1 DONE, 2 REFUSED, 3 EXTENDED. -/
def cplBytes (entry : Bytes) (kind status : Nat) (phase : Bool) (deadline result seq : Nat) : Bytes :=
  leBytes 4 (entTag entry) ++ leBytes 2 (entOp entry) ++ leBytes 1 status ++ leBytes 1 (kind + 128 * b2n phase) ++
    leBytes 8 deadline ++ leBytes 8 result ++ leBytes 8 seq

/-- The size of the completion ring of a port. -/
def pSize (m : Mailbox) : Nat := 2 ^ m.plog.toNat

/-- Whether the completion ring of a mailbox has space; queue 5 always has. -/
def cplSpace (mb : Mbox) (s : State) : Bool :=
  match mboxPort mb with
  | none => true
  | some p =>
    let m := (hostOf p s).mb
    decide ((m.ppi.toNat + 2 * pSize m - m.pci.toNat) % (2 * pSize m) < pSize m)

/-- The UNIT word of a mailbox (R275). -/
def mboxUnit : Mbox → Nat
  | .hostA => unitWord 5 0 0
  | .hostB => unitWord 5 1 2
  | .i3c => unitWord 7 0 4

/-- Log and write a completion entry (R266). `discard` is the entry of a command whose port was reset: it is logged with
KIND + 4 and not written (R255). The entry names `fault` as its SEQ where that is not 0 (Table 10.9), and else the event that
records it. -/
def putCpl (mb : Mbox) (entry : Bytes) (kind status deadline result fault : Nat) (discard : Bool) (s : State) : State :=
  let s := logEv 0x0003 (mboxUnit mb) (entOp entry) (kind + 4 * b2n discard) status (entTag entry) s
  let seq := if fault = 0 then s.seq else fault
  if discard then s
  else
    match mboxPort mb with
    | none =>
      let e := cplBytes entry kind status true deadline result seq
      emit .ibi { s with i3c := { s.i3c with done := s.i3c.done ++ [e], ibi := true } }
    | some p =>
      let m := (hostOf p s).mb
      let n := pSize m
      let e := cplBytes entry kind status (decide (m.ppi.toNat < n)) deadline result seq
      let s := emit (.cpl mb (m.ppi.toNat % n) e) s
      let s := modHost p (fun h => { h with mb := { h.mb with ppi := BitVec.ofNat 16 ((h.mb.ppi.toNat + 1) % (2 * n)) } }) s
      if kind = 1 ∧ entIrq entry then raiseIrq p 0 s else if kind = 3 then raiseIrq p 3 s else s

/-- Refuse a command: the refusal is logged (R7) and a REFUSED entry written (R267). -/
def refuse (mb : Mbox) (entry : Bytes) (status : Nat) (s : State) : State :=
  putCpl mb entry 2 status 0 0 0 false (logEv 0x0002 (mboxUnit mb) (entOp entry) status 0 (entTag entry) s)

/-! ### The end of accepted commands -/

/-- An operation that ended now. -/
def doneNow (status result : Nat) (s : State) : Done := { status := status, result := result, fault := 0, at_ := s.now }

/-- Record the end of the accepted commands that satisfy a test and have not ended. -/
def endWhere (f : Accepted → Bool) (d : Done) (s : State) : State :=
  { s with warden := { s.warden with
      accepted := s.warden.accepted.map fun a => if a.done.isNone && f a then { a with done := some d } else a } }

/-- Record the end of the accepted commands of an opcode. -/
def endOp (op : Nat) (d : Done) (s : State) : State := endWhere (fun a => entOp a.entry == op) d s

/-- The accepted commands of an opcode that have not ended. -/
def openOps (op : Nat) (s : State) : List Accepted := s.warden.accepted.filter fun a => a.done.isNone && entOp a.entry == op

/-! ### Step origins and slips (R151, R154) -/

/-- PERIOD of the loaded job. -/
def period (s : State) : Nat := (s.job.image.map (·.period)).getD 0

/-- Σ of a step: every Δ and the largest cumulative slip (R154). -/
def slipSum (step : Nat) (s : State) : Nat :=
  let ns := s.exec.notices.filter fun n => n.step == step
  ((ns.filter (·.breach)).map (·.amount)).sum + ((ns.filter fun n => !n.breach).map (·.amount)).foldl max 0

/-- The late slip that applies to a deadline offset: the largest cumulative slip among the late notices whose D_a is at or
below it (R154). -/
def lateSlip (step d : Nat) (s : State) : Nat :=
  ((s.exec.notices.filter fun n => n.step == step && !n.breach && decide (n.da ≤ d)).map (·.amount)).foldl max 0

/-- By how much a deadline offset of a step is extended (R154). -/
def slipFor (step d : Nat) (s : State) : Nat :=
  ((s.exec.notices.filter fun n => n.step == step && n.breach && decide (n.da ≤ d)).map (·.amount)).sum + lateSlip step d s

/-- T0 of the current step (R151). -/
def origin (s : State) : Nat := s.job.t0 + (s.job.cstep - s.job.ts) * period s + s.job.shift

/-- T0 of the step after the current one, as the notices so far put it (R151). -/
def nextOrigin (s : State) : Nat := origin s + period s + slipSum s.job.cstep s

/-- T0 of a step that is not over: recorded when it began (R151). -/
def originOf (step : Nat) (s : State) : Nat :=
  if step = s.job.cstep then origin s else ((s.exec.origins.find? fun x => x.1 == step).map (·.2)).getD (origin s)

/-- The stop time C of a checkpoint: CKBYTES / 240 GB/s + 0.3 s, in ns (R289). -/
def stopTime (s : State) : Nat := cdiv ((s.job.image.map (·.mapping.ckbytes)).getD 0) 240 + 300000000

/-! ### Deadlines that notices extend (R269) -/

/-- Whether the deadline of a command follows a step origin (Table 10.8). -/
def followsOrigin (a : Accepted) : Bool :=
  a.done.isNone && (entOp a.entry == 0x0103 || entOp a.entry == 0x0201 || (entOp a.entry == 0x0303 && a.aux != 0))

/-- The accepted commands whose deadlines move with a step origin: the first that follows it, and the locked ones accepted behind it, whose
bounds run from its deadline (R269). -/
def movedBy (l : List Accepted) : List Accepted := (l.dropWhile fun a => !followsOrigin a).filter fun a => a.locked && a.done.isNone

/-- Extend the deadlines that move with a step origin by `delta`, announcing each by an EXTENDED entry whose status is the exception
code (R266, R269). -/
def extendCommands (delta code : Nat) (s : State) : State :=
  let ext := movedBy s.warden.accepted
  if delta = 0 ∨ ext.isEmpty then s
  else
    let s := { s with warden := { s.warden with
      accepted := s.warden.accepted.map fun a => if ext.contains a then { a with deadline := a.deadline + delta } else a
      lockedDeadline := s.warden.lockedDeadline + delta } }
    ext.foldl (fun s a => putCpl a.mb a.entry 3 code (a.deadline + delta) 0 0 a.orphan s) s

/-! ### Notices (R154, R244, R245) -/

/-- The 32-byte notice record (Table 9.7). -/
def noticeBytes (da amount code origin task red nseq queue : Nat) : Bytes :=
  leBytes 8 da ++ leBytes 8 amount ++ leBytes 1 code ++ leBytes 1 0 ++ leBytes 2 origin ++ leBytes 4 task ++ leBytes 4 red ++
    leBytes 2 nseq ++ leBytes 2 queue

/-- Log a notice sent or received (Table 10.13). -/
def logNotice (breach : Bool) (step da amount code origin task red : Nat) (s : State) : State :=
  if breach then logAt step 0x0050 (unitWord 0 0 0) origin task red amount s
  else logAt step 0x0051 (unitWord 0 0 0) origin code da amount s

/-- Take a notice into its step's list: a notice of a step that has passed moves the origins since (R151), and the deadlines of
commands that follow an origin move with it. -/
def takeNotice (n : Notice) (s : State) : State :=
  let before := slipSum n.step s
  let s := { s with exec := { s.exec with notices := s.exec.notices ++ [n] } }
  let d := slipSum n.step s - before
  let s := if n.step < s.job.cstep then
      { s with job := { s.job with shift := s.job.shift + d },
               twin := { s.twin with newOrigin := s.twin.newOrigin + d },
               exec := { s.exec with origins := s.exec.origins.map fun x => (x.1, if n.step < x.1 then x.2 + d else x.2) } }
    else s
  if n.step ≤ s.job.cstep then extendCommands d n.code s else s

/-- Send a notice: a job broadcast with the next number of this package in the step (R244, R245). -/
def sendNotice (breach : Bool) (step da amount code origin task red queue : Nat) (s : State) : State :=
  let nseq := (s.exec.notices.filter fun n => n.src == logId s && n.step == step).length
  let n : Notice := { breach := breach, step := step, src := logId s, nseq := nseq, da := da, amount := amount, code := code, task := task }
  let s := bcastMsg (jobMsg (if breach then 0x08 else 0x09) 2 0 step 0 0 0 (noticeBytes da amount code origin task red nseq queue) s) s
  logNotice breach step da amount code origin task red (takeNotice n s)

/-- A notice that extends no deadline (R244): code 2 of a trip or overcurrent stop, code 3 at a step boundary. -/
def plainNotice (code : Nat) (s : State) : State := sendNotice false s.job.cstep 0 0 code (logId s) 0 0 0 s

/-! ### Running time and the inspection slot at a failure (R293, Table 11.7) -/

/-- Whether the job runs. -/
def running (s : State) : Bool := s.job.state == .running

/-- Running time since the last failure, or since the job started. -/
def runTime (s : State) : Nat := s.twin.ran + (if running s then tideNow s - s.twin.runStart else 0)

/-- The end of a run: its running time is added up. -/
def endRunTime (s : State) : State := { s with twin := { s.twin with ran := runTime s, runStart := tideNow s } }

/-- A failure of the job (R293): the lead moves M by an eighth of its distance to the running time since the previous one. -/
def noteFailure (s : State) : State :=
  let x := runTime s
  let m := if logId s = 0 then ((s.twin.m : Int) + ((x : Int) - s.twin.m) / 8).toNat else s.twin.m
  { s with twin := { s.twin with m := m, ran := 0, runStart := tideNow s } }

/-- Abort an inspection slot; a core that was handed over returns to its sequence at the restart (Table 11.7). -/
def abortSlot (s : State) : State :=
  let i := s.inspect
  let back := match i.slot, i.lc with
    | some (d, c), some lc => some (d, lc, c)
    | _, _ => i.back
  { s with inspect := { i with slot := none, lc := none, due := none, back := back } }

/-! ### Failure and abandonment (R297) -/

/-- Abandon every uncommitted task and reduction and void every deadline of the job. -/
def abandonTasks (s : State) : State :=
  let s := dropWatches (fun _ => true) s
  { s with exec := { s.exec with
      runs := s.exec.runs.filter fun r => r.st == .committed, reds := s.exec.reds.filter fun r => r.endT.isSome, notices := [], voided := true } }

/-- Commands that a failure overtakes: a JOB_START not yet in effect, a JOB_STOP or CKPT_STOP not yet done (R297, R292). -/
def overtake (status fault : Nat) (s : State) : State :=
  let d : Done := { status := status, result := 0, fault := fault, at_ := s.now }
  let s := endOp 0x0201 d (endOp 0x0103 d (endOp 0x0102 d s))
  { s with job := { s.job with startAt := none, stopping := false },
           twin := { s.twin with sched := [], inProg := none, sent := none, doneFrom := [], byStop := false } }

/-- Bytes of FAIL_REPORT's ARGS (Table 11.1). -/
def failArgs (id code step : Nat) : Bytes := leBytes 2 id ++ leBytes 1 code ++ leBytes 1 0 ++ leBytes 4 step

/-- The failure of this package with a code of Table 6.12 (R297): in R or S it broadcasts FAIL_REPORT and takes state FAILED, in
L it takes state FAILED, in N nothing. `fault` is the SEQ of the logged failure, `status` what overtaken commands end with. -/
def failPackage (code status fault : Nat) (s : State) : State :=
  match s.job.state with
  | .none => s
  | .failed => s
  | .loaded => overtake status fault (setJob .failed (abandonTasks (abortSlot s)))
  | _ =>
    let s := peerBcast 0x8020 s.job.cstep (failArgs (logId s) code s.job.cstep) s
    overtake status fault (setJob .failed (abandonTasks (abortSlot (noteFailure s))))

/-- D: how many data replicas a mapping cuts the batch into, Lz × Lx when TX = 1 and Lz when TX = Lx (R354, Table 9.2). -/
def dataReplicas (m : Mapping) : Nat := if m.txfull = 0 then m.lz * m.lx else m.lz

/-- Whether the job has no replica to replace a record that is lost with its holder (R298). -/
def noReplica (s : State) : Bool :=
  match s.job.image with
  | none => false
  | some im => decide (dataReplicas im.mapping ≤ 1)

/-- A FAIL_REPORT that names a package (R297): logged, every deadline void, every uncommitted task abandoned, and the job state
changed. Where no replica can replace the record that the failed package holds, a job that runs or is stopped fails (R298, log entry 75). -/
def receiveFail (id code : Nat) (s : State) : State :=
  let s := logEv 0x0051 0 id code 0 0 s
  let seq := s.seq
  let s := abandonTasks (abortSlot (noteFailure s))
  let s := { s with job := { s.job with failStopped := true } }
  if id = logId s then overtake 0x0A seq (if s.job.state == .none then s else setJob .failed s)
  else
    match s.job.state, noReplica s with
    | .running, false => overtake 0x0A seq (setJob .stopped s)
    | .running, true => overtake 0x0A seq (setJob .failed s)
    | .stopped, true => overtake 0x0A seq (setJob .failed s)
    | _, _ => overtake 0x0A seq s

/-- This package reports the failure of a neighbour (R297). -/
def reportOther (id code : Nat) (s : State) : State :=
  receiveFail id code (peerBcast 0x8020 s.job.cstep (failArgs id code s.job.cstep) s)

/-- A failure announced as a hardware fault (status 0x0A), the last event logged being the failure. -/
def failHere (code : Nat) (s : State) : State := failPackage code 0x0A s.seq s

/-! ### Watch of requests that end in error -/

/-- Answer a request in error, as it must be logged already. -/
def answerErr (who : Requester) (id : Nat) (s : State) : State := emit (.memDone who id .error []) s

end Sys2Proof.Machine
end

