-- ==== Sys2Proof/Machine/HostRegs.lean ====
section
/-! DEFINITION. The lock, the registers and the doorbells of a host port (R257 to R260, R264, R268, R273, R274). A command
through a port that is down or in reset never reaches the package and has no effect. -/

namespace Sys2Proof.Machine

/-! ### The lock (R259, R260) -/

/-- Restart the lease at its present value (R260). -/
def restartLease (s : State) : State :=
  { s with lock := { s.lock with leaseEnd := s.now + s.lock.lease.toNat * 1000000 } }

/-- Log a lock event: 0 acquired, 1 released, 2 expired, 3 lost (R260). -/
def logLock (what : Nat) (p : HPort) (s : State) : State :=
  logEv 0x0060 (unitWord 5 (hportNo p) 0) what (hportNo p) s.lock.gen.toNat 0 s

/-- Free the lock, logging why (R260); nothing when it is free. -/
def freeLock (what : Nat) (s : State) : State :=
  match s.lock.owner with
  | none => s
  | some p => logLock what p { s with lock := { s.lock with owner := none } }

/-- Acquire the lock for a port: the generation increments modulo 65,536, the lease starts (R259, R260). -/
def acquireLock (p : HPort) (s : State) : State :=
  logLock 0 p (restartLease { s with lock := { s.lock with owner := some p, gen := s.lock.gen + 1 } })

/-- A write of 0x1000 (R259): more than one of REL, RENEW and ACQ is ignored as a whole; REL and RENEW act for the owner alone;
ACQ acquires a free lock, and finds OWNER set otherwise. -/
def writeLock (p : HPort) (v : BitVec 32) (s : State) : State :=
  let own := s.lock.owner == some p
  match v.getLsbD 2, v.getLsbD 1, v.getLsbD 0 with
  | false, false, false => logDiff p 0x1000 v.toNat s
  | false, false, true =>
    let s := logDiff p 0x1000 v.toNat s
    if s.lock.owner.isNone then acquireLock p s else s
  | false, true, false => if own then restartLease (logDiff p 0x1000 v.toNat s) else logIgnored p 0x1000 v.toNat s
  | true, false, false => if own then freeLock 1 (logDiff p 0x1000 v.toNat s) else logIgnored p 0x1000 v.toNat s
  | _, _, _ => logIgnored p 0x1000 v.toNat s

/-- A write of LEASE (R259): 100 to 60,000, by the owner, or by either port while the lock is free. -/
def writeLease (p : HPort) (v : BitVec 32) (s : State) : State :=
  let n := v.toNat % 65536
  if (s.lock.owner.isNone ∨ s.lock.owner = some p) ∧ 100 ≤ n ∧ n ≤ 60000 then
    let s := logDiff p 0x1004 v.toNat s
    { s with lock := { s.lock with lease := BitVec.ofNat 16 n } }
  else logIgnored p 0x1004 v.toNat s

/-! ### Doorbells (R268, R273) -/

/-- The command-ring queue of a port. -/
def ringQueue (p : HPort) : Nat := 2 * hportNo p

/-- The size of the command ring. -/
def cSize (m : Mailbox) : Nat := 2 ^ m.clog.toNat

/-- Log a doorbell event: 0 spurious, 1 refused, 2 masked, 3 unmasked (R268). -/
def logRing (p : HPort) (queue ev v : Nat) (s : State) : State := logEv 0x0061 (unitWord 5 (hportNo p) queue) queue ev v 0 s

/-- A spurious ring or a refusal of the mailbox doorbell: logged, counted, and masking after more than 64 within 1 s (R268). -/
def badRing (p : HPort) (ev v : Nat) (s : State) : State :=
  let s := logRing p (ringQueue p) ev v s
  let bad := s.now :: lastSecond s.now (hostOf p s).mb.bad
  let s := modHost p (fun h => { h with mb := { h.mb with bad := bad, lastBad := s.now } }) s
  if 64 < bad.length ∧ !(hostOf p s).mb.masked then
    logRing p (ringQueue p) 2 v (modHost p (fun h => { h with mb := { h.mb with masked := true, lastPoll := s.now } }) s)
  else s

/-- A write of CDB (R268): it sets the producer index, or is a spurious ring, or is refused. The entries between the old and
the new index are what the warden reads there; it reads them at once only while the doorbell is not masked and EN is 1. -/
def writeCdb (p : HPort) (v : BitVec 32) (entries : List Bytes) (s : State) : State :=
  let s := logDiff p 0x2020 v.toNat s
  let m := (hostOf p s).mb
  let n := cSize m
  let new := v.toNat % 65536
  let moved := (new + 2 * n - m.cpi.toNat) % (2 * n)
  let free := n - (m.cpi.toNat + 2 * n - m.cci.toNat) % (2 * n)
  if 2 * n ≤ new then badRing p 1 new s
  else if new = m.cpi.toNat then badRing p 0 new s
  else if free < moved then badRing p 1 new s
  else
    let es := (List.range moved).map fun i => slice (entries.getD i []) 0 128
    modHost p (fun h => { h with mb :=
      if h.mb.masked || !h.mb.en then { h.mb with cpi := BitVec.ofNat 16 new, unseen := h.mb.unseen ++ es }
      else { h.mb with cpi := BitVec.ofNat 16 new, waiting := h.mb.waiting ++ es } }) s

/-- The warden takes up the entries it had not seen. -/
def seeEntries (p : HPort) (s : State) : State :=
  modHost p (fun h => { h with mb := { h.mb with waiting := h.mb.waiting ++ h.mb.unseen, unseen := [] } }) s

/-- A hardware queue that no image configures (Table 10.11 reset values). -/
def HwQueue.unused (q : Nat) (p : HPort) : HwQueue :=
  { queue := q, role := 0, port := p, masked := false, depth := 0, pi := 0, ci := 0, esize := 0, ring := 0, prod := 0, cons := 0,
    remote := 0xFFFF, credits := 0, unseen := none, bad := [], lastBad := 0, lastPoll := 0 }

/-- Replace or add the record of a queue. -/
def putQueue (e : HwQueue) : List HwQueue → List HwQueue
  | [] => [e]
  | x :: r => if x.queue = e.queue then e :: r else x :: putQueue e r

/-- Change the record of a queue. -/
def modQueue (q : Nat) (p : HPort) (f : HwQueue → HwQueue) (s : State) : State :=
  { s with queues := putQueue (f ((queueOf q s).getD (HwQueue.unused q p))) s.queues }

/-- A refusal of a queue doorbell, with the masking rule of R268 for that queue (R273). -/
def badQueueRing (p : HPort) (q v : Nat) (s : State) : State :=
  let s := logRing p q 1 v s
  let e := (queueOf q s).getD (HwQueue.unused q p)
  let bad := s.now :: lastSecond s.now e.bad
  let s := modQueue q p (fun e => { e with bad := bad, lastBad := s.now }) s
  if 64 < bad.length ∧ !e.masked then
    logRing p q 2 v (modQueue q p (fun e => { e with masked := true, lastPoll := s.now }) s)
  else s

/-- Move the index of a queue's host side: PI of a host-fed queue, CI of a host-drained queue, which returns the credits
(R273). -/
def moveIndex (e : HwQueue) (v : Nat) : HwQueue :=
  if e.role = 2 then { e with pi := v }
  else { e with ci := v, credits := e.credits + (v + 2 * e.depth - e.ci) % (2 * e.depth) }

/-- Entries between CI and PI. -/
def queueFill (e : HwQueue) : Nat := (e.pi + 2 * e.depth - e.ci) % (2 * e.depth)

/-- Whether a QDB write may take effect (R273): from the queue's port, its ROLE 2 or 3, below twice the depth, and forward
without passing the other index. -/
def qdbOk (p : HPort) (e : HwQueue) (v : Nat) : Bool :=
  let old := if e.role = 2 then e.pi else e.ci
  let moved := (v + 2 * e.depth - old) % (2 * e.depth)
  (e.role == 2 || e.role == 3) && e.port == p && decide (16 ≤ e.queue) && decide (v < 2 * e.depth) && decide (0 < moved) &&
    decide (moved ≤ if e.role = 2 then e.depth - queueFill e else queueFill e)

/-- A write of QDB (R273). -/
def writeQdb (p : HPort) (q : Nat) (v : BitVec 32) (s : State) : State :=
  let s := logDiff p (0x100008 + 16 * q) v.toNat s
  let n := v.toNat % 65536
  match queueOf q s with
  | none => badQueueRing p q n s
  | some e =>
    if qdbOk p e n then
      if e.masked then modQueue q p (fun e => { e with unseen := some n }) s else modQueue q p (fun e => moveIndex e n) s
    else badQueueRing p q n s

/-! ### The other registers (R257, R264, R274) -/

/-- Whether a BAR2 window base is allowed: a multiple of 2^36 in a stack range or a far-tier window (R274). -/
def baseOk (b : Nat) : Bool :=
  b % 2 ^ 36 == 0 && (decide (b < 0x40000000000) || (decide (0x100000000000 ≤ b) && decide (b < 0x180000000000)))

/-- A write of a base or size register: ignored and logged while EN = 1 (R264). -/
def writeRing (p : HPort) (off v : Nat) (f : Mailbox → Mailbox) (s : State) : State :=
  if (hostOf p s).mb.en then logIgnored p off v s else modHost p (fun h => { h with mb := f h.mb }) (logDiff p off v s)

/-- Whether the bases and sizes of a mailbox allow EN = 1 (R264, Table 10.6). -/
def ringsOk (m : Mailbox) : Bool :=
  (m.cbaseLo != 0 || m.cbaseHi != 0) && (m.pbaseLo != 0 || m.pbaseHi != 0) && decide (4 ≤ m.clog.toNat) && decide (m.clog.toNat ≤ 10) &&
    decide (m.clog.toNat + 1 ≤ m.plog.toNat) && decide (m.plog.toNat ≤ 11)

/-- A write of 0x2030 (R264): EN = 1 only with non-zero bases and sizes in range; EN = 0 stops the reading of commands. -/
def writeEn (p : HPort) (v : BitVec 32) (s : State) : State :=
  let on := v.getLsbD 0
  if on && !(hostOf p s).mb.en && !ringsOk (hostOf p s).mb then
    logWrite p 0x2030 v.toNat (diffMask 0x2030 v.toNat (bar0Word p 0x2030 s) ||| 1) s
  else
    let s := modHost p (fun h => { h with mb := { h.mb with en := on } }) (logDiff p 0x2030 v.toNat s)
    if on && !(hostOf p s).mb.masked then seeEntries p s else s

/-- A write of WBASEHI (R274): a base that is not allowed is ignored and logged, else it takes effect. -/
def writeWbaseHi (p : HPort) (v : BitVec 32) (s : State) : State :=
  let b := (hostOf p s).wbaseLo.toNat + (v.toNat % 2 ^ 20) * 2 ^ 32
  if baseOk b then
    modHost p (fun h => { h with wbaseHi := BitVec.ofNat 20 v.toNat, base := b }) (logDiff p 0x3014 v.toNat s)
  else logIgnored p 0x3014 v.toNat s

/-- A write of WBASELO (R274). -/
def writeWbaseLo (p : HPort) (v : BitVec 32) (s : State) : State :=
  if baseOk (v.toNat + (hostOf p s).wbaseHi.toNat * 2 ^ 32) then modHost p (fun h => { h with wbaseLo := v }) s
  else logIgnored p 0x3010 v.toNat s

/-- A write of one aligned word (R257). -/
def writeWord (p : HPort) (off : Nat) (v : BitVec 32) (s : State) : State :=
  match off with
  | 0x1000 => writeLock p v s
  | 0x1004 => writeLease p v s
  | 0x2000 => writeRing p off v.toNat (fun m => { m with cbaseLo := BitVec.ofNat 20 (v.toNat / 4096) }) s
  | 0x2004 => writeRing p off v.toNat (fun m => { m with cbaseHi := v }) s
  | 0x2008 => writeRing p off v.toNat (fun m => { m with clog := BitVec.ofNat 4 v.toNat }) s
  | 0x2010 => writeRing p off v.toNat (fun m => { m with pbaseLo := BitVec.ofNat 20 (v.toNat / 4096) }) s
  | 0x2014 => writeRing p off v.toNat (fun m => { m with pbaseHi := v }) s
  | 0x2018 => writeRing p off v.toNat (fun m => { m with plog := BitVec.ofNat 4 v.toNat }) s
  | 0x2020 => writeCdb p v [] s
  | 0x202C => modHost p (fun h => { h with mb := { h.mb with pci := BitVec.ofNat 16 v.toNat } }) (logDiff p off v.toNat s)
  | 0x2030 => writeEn p v s
  | 0x3000 => modHost p (fun h => { h with irqen := BitVec.ofNat 4 v.toNat }) (logDiff p off v.toNat s)
  | 0x3004 =>
    let s := logDiff p off v.toNat s
    modHost p (fun h => { h with irqst := h.irqst &&& ~~~(BitVec.ofNat 4 v.toNat) }) s
  | 0x3010 => writeWbaseLo p v s
  | 0x3014 => writeWbaseHi p v s
  | 0x3018 => modHost p (fun h => { h with hint := BitVec.ofNat 2 v.toNat }) (logDiff p off v.toNat s)
  | 0x3028 => modHost p (fun h => { h with ellvl := BitVec.ofNat 3 v.toNat }) (logDiff p off v.toNat s)
  | _ =>
    match writeMask off with
    | none => logIgnored p off v.toNat s
    | some 0 => logDiff p off v.toNat s
    | some _ => writeQdb p ((off - 0x100000) / 16) v s

/-- Write the words that a data string covers from offset `off`: a word with fewer than four bytes enabled is not written,
and the write to it is logged (R257). `fuel` bounds the words. -/
def writeWords (p : HPort) : Nat → Nat → Bytes → State → State
  | 0, _, _, s => s
  | _, _, [], s => s
  | fuel + 1, off, data, s =>
    let lo := off % 4
    let k := min (4 - lo) data.length
    let w := off - lo
    let v := leVal (data.take k) * 256 ^ lo
    let s :=
      if k = 4 then writeWord p w (BitVec.ofNat 32 v) s
      else logWrite p w v ((v ^^^ bar0Word p w s) &&& ((256 ^ k - 1) * 256 ^ lo)) s
    writeWords p fuel (off + k) (data.drop k) s

/-- The latches that a read of a word sets (R257): TIDEHI by TIDELO, ELSEQHI by ELSEQLO. -/
def latch (p : HPort) (off : Nat) (s : State) : State :=
  if off = 0x0020 then { s with tideHi := BitVec.ofNat 32 (tideNow s / 2 ^ 32) }
  else if off = 0x3020 then modHost p (fun h => { h with elseqHi := BitVec.ofNat 32 (s.seq / 2 ^ 32) }) s
  else s

/-- Read `n` words from an aligned offset, in ascending order with their side effects (R257). -/
def readWords (p : HPort) : Nat → Nat → State → Bytes × State
  | 0, _, s => ([], s)
  | n + 1, off, s =>
    let v := bar0Word p off s
    let (r, s) := readWords p n (off + 4) (latch p off s)
    (leBytes 4 v ++ r, s)

/-- A read of BAR0: every word it touches is returned whole (R257). -/
def readBar0 (p : HPort) (off len : Nat) (s : State) : State :=
  let w := off - off % 4
  let (bs, s) := readWords p (cdiv (off % 4 + len) 4) w s
  emit (.readResp p w bs) s

/-! ### The commands -/

/-- Run an access of a host port, which must be up. -/
def viaPort (p : HPort) (f : State → State) (s : State) : State := if portAlive p s then f s else s

/-- ACQ (R259). -/
def execAcq (p : HPort) (v : BitVec 32) (s : State) : Host.Outcome State Fault Refusal := .next (viaPort p (writeLock p v) s)

/-- REL (R259). -/
def execRel (p : HPort) (v : BitVec 32) (s : State) : Host.Outcome State Fault Refusal := .next (viaPort p (writeLock p v) s)

/-- RENEW (R259). -/
def execRenew (p : HPort) (v : BitVec 32) (s : State) : Host.Outcome State Fault Refusal := .next (viaPort p (writeLock p v) s)

/-- LEASE (R259). -/
def execLease (p : HPort) (v : BitVec 32) (s : State) : Host.Outcome State Fault Refusal := .next (viaPort p (writeLease p v) s)

/-- LEASE_EXPIRY (R260): LEFT has reached 0. -/
def execLeaseExpiry (s : State) : Host.Outcome State Fault Refusal :=
  .next (if s.lock.owner.isSome ∧ s.lock.leaseEnd ≤ s.now then freeLock 2 s else s)

/-- MAILBOX_ENABLE (R264). -/
def execMailboxEnable (p : HPort) (v : BitVec 32) (s : State) : Host.Outcome State Fault Refusal :=
  .next (viaPort p (writeEn p v) s)

/-- QDB (R273). -/
def execQdb (p : HPort) (q : Nat) (v : BitVec 32) (s : State) : Host.Outcome State Fault Refusal :=
  .next (viaPort p (writeQdb p (q % 65536) v) s)

/-- WBASEHI (R274). -/
def execWbasehi (p : HPort) (v : BitVec 32) (s : State) : Host.Outcome State Fault Refusal :=
  .next (viaPort p (writeWbaseHi p v) s)

/-- TIDELO (R257): a read of `len` bytes at 0x0020. -/
def execTidelo (p : HPort) (len : Nat) (s : State) : Host.Outcome State Fault Refusal :=
  .next (viaPort p (readBar0 p 0x0020 (max 1 len)) s)

/-- ELSEQLO (R257, Table 10.12): a read of `len` bytes at 0x3020. -/
def execElseqlo (p : HPort) (len : Nat) (s : State) : Host.Outcome State Fault Refusal :=
  .next (viaPort p (readBar0 p 0x3020 (max 1 len)) s)

/-- REGISTER_WRITE (R257). -/
def execRegisterWrite (p : HPort) (off : Nat) (data : Bytes) (s : State) : Host.Outcome State Fault Refusal :=
  .next (viaPort p (writeWords p (data.length + 1) off data) s)

/-- DOORBELL_UNMASK (R268, R273): a masked doorbell is unmasked after 10 ms without a spurious ring or a refusal. -/
def execDoorbellUnmask (q : Nat) (s : State) : Host.Outcome State Fault Refusal :=
  .next (
    if q < 16 then
      let p : HPort := if q = 0 then .a else .b
      let m := (hostOf p s).mb
      if (q = 0 ∨ q = 2) ∧ m.masked ∧ m.lastBad + 10000000 ≤ s.now then
        logRing p q 3 0 (seeEntries p (modHost p (fun h => { h with mb := { h.mb with masked := false } }) s))
      else s
    else
      match queueOf q s with
      | none => s
      | some e =>
        if e.masked ∧ e.lastBad + 10000000 ≤ s.now then
          logRing e.port q 3 0
            (modQueue q e.port (fun e =>
              let e := match e.unseen with
                | some v => moveIndex e v
                | none => e
              { e with masked := false, unseen := none }) s)
        else s)

end Sys2Proof.Machine
end

