-- ==== Sys2Proof/Machine/MemPath.lean ====
section
/-! DEFINITION. The address map, the path of an access, the slice cache, and package memory as an access reads and writes it
(R11, R15, R16, R161 to R171, R175, R187). -/

namespace Sys2Proof.Machine

/-! ### The address map (Table 7.1) -/

/-- A range of Table 7.1. -/
inductive Range where
  | stack (i : Fin 32)
  | far (f : Fin 2)
  | mmio
  | hole (k : Nat)
  deriving DecidableEq, Repr

/-- The range an address falls in. -/
def rangeOf (a : Nat) : Range :=
  if h : a / 2 ^ 37 < 32 then .stack ⟨a / 2 ^ 37, h⟩
  else if a < 0x100000000000 then .hole 0
  else if a < 0x140000000000 then .far 0
  else if a < 0x180000000000 then .far 1
  else if a < 0xF00000000000 then .hole 1
  else if a < 0xF00002000000 then .mmio
  else .hole 2

/-- The base address of a far-tier window. -/
def farBase (f : Fin 2) : Nat := if f = 0 then 0x100000000000 else 0x140000000000

/-- The compute die that owns a stack (R11). -/
def ownerDie (i : Fin 32) : Fin 4 := ⟨i.val / 8, by omega⟩

/-! ### Paths (R11, R15, R16) -/

/-- The index of the ring link between die `a` and die `a` + 1. -/
def ringLink (a : Nat) : Fin 41 := Fin.ofNat 41 (a % 4)

/-- The hub link of a die. -/
def hubLink (d : Nat) : Fin 41 := Fin.ofNat 41 (4 + d % 4)

/-- The stack link of a stack. -/
def stackLink (i : Nat) : Fin 41 := Fin.ofNat 41 (8 + i % 32)

/-- Whether a link is up. -/
def linkUp (l : Fin 41) (s : State) : Bool := s.links[l].up

/-- Whether the ring carries traffic from die `c` to die `d` (R15, R16): the direct link between neighbours, and through die
`c` + 1 to the opposite die. -/
def ringPath (c d : Fin 4) (s : State) : Bool :=
  if c = d then true
  else if d = c + 1 then linkUp (ringLink c.val) s
  else if c = d + 1 then linkUp (ringLink d.val) s
  else linkUp (ringLink c.val) s && linkUp (ringLink (c + 1).val) s && !s.dies[c + 1].inReset

/-- Whether the path from a requester to a stack works (R15, R16): the update engine and the adder sit on the stack itself; any
other party than the owning die needs that die out of reset and its hub link up. -/
def pathOk (who : Requester) (i : Fin 32) (s : State) : Bool :=
  let d := ownerDie i
  match who with
  | .update k => k == i
  | .core c _ _ =>
    linkUp (stackLink i.val) s && !s.dies[c].inReset &&
      (c == d || (linkUp (hubLink d.val) s && !s.dies[d].inReset && ringPath c d s))
  | _ => linkUp (stackLink i.val) s && linkUp (hubLink d.val) s && !s.dies[d].inReset

/-- The die links that the accesses of a requester to a stack take, with the direction (R15): direction 0 leads from a compute die to the
next one, from a compute die to its stacks, and from the hub to a compute die (log entry 69). -/
def pathHops (who : Requester) (i : Fin 32) : List (Fin 41 × Bool) :=
  let d := ownerDie i
  match who with
  | .update _ => []
  | .core c _ _ =>
    (if c = d then [] else if d = c + 1 then [(ringLink c.val, false)] else if c = d + 1 then [(ringLink d.val, true)]
     else [(ringLink c.val, false), (ringLink (c + 1).val, false)]) ++ [(stackLink i.val, false)]
  | _ => [(hubLink d.val, false), (stackLink i.val, false)]

/-- The die links of that path. -/
def pathLinks (who : Requester) (i : Fin 32) : List (Fin 41) := (pathHops who i).map (·.1)

/-- The cause of Table 10.15 for which an access of `len` bytes fails, if any (R161, R163, R16, R258). -/
def accessCause (who : Requester) (addr len : Nat) (s : State) : Option Nat :=
  if rangeOf addr ≠ rangeOf (addr + len - 1) then some 6
  else
    match rangeOf addr with
    | .hole _ => some 1
    | .mmio => some 5
    | .far f => if s.far[f].st = 0 ∨ !s.far[f].linkUp ∨ farBase f + s.far[f].cap < addr + len then some 2 else none
    | .stack i =>
      if s.memStacks[i].stopped || s.memStacks[i].inReset || s.memStacks[i].selfRefresh then some 3
      else if !pathOk who i s then some 4 else none

/-! ### The slice cache (R167 to R171) -/

/-- The line number of an address within its stack. -/
def lineNo (a : Nat) : Nat := a % 2 ^ 37 / 128

/-- The address of a line of a stack. -/
def lineAddr (i : Fin 32) (ln : Nat) : Nat := i.val * 2 ^ 37 + 128 * ln

/-- The set of a line: 32,768 sets. -/
def setIdx (ln : Nat) : Nat := Config.cacheSet ln % 32768

/-- A set of the slice cache; one with no record is empty. -/
def cacheSetOf (ln : Nat) (st : Stack) : CacheSet :=
  (st.cache.find? fun c => c.idx == setIdx ln).getD { idx := setIdx ln, lines := [], disabled := [] }

/-- Replace a set. -/
def putSet (c : CacheSet) : List CacheSet → List CacheSet
  | [] => [c]
  | x :: r => if x.idx = c.idx then c :: r else x :: putSet c r

/-- The enabled ways of a set: the first 16 of the 17 built that the ledger leaves, less those disabled in service (R171). -/
def enabledWays (st : Stack) (c : CacheSet) : List Nat :=
  (((List.range 17).filter fun w => !st.ledgerWays.contains (c.idx, w)).take 16).filter fun w => !c.disabled.contains w

/-- How many ways of a set are enabled. -/
def waysOf (st : Stack) (c : CacheSet) : Nat := (enabledWays st c).length

/-- The cached line, if the line is resident. -/
def cachedLine (ln : Nat) (st : Stack) : Option CacheLine := (cacheSetOf ln st).lines.find? fun l => l.line == ln

/-- The 128 bytes of a line of a stack: from the cache when resident, else from DRAM (R167). -/
def lineData (i : Fin 32) (ln : Nat) (s : State) : Bytes :=
  match cachedLine ln s.memStacks[i] with
  | some l => slice l.data 0 128
  | none => memRead s.mem (lineAddr i ln) 128

/-- The unit that stays in one row of one bank (Table 7.2): 1 KiB under the stream policy, a line under the sector policy. -/
def unitOf (sector : Bool) (ln : Nat) : Nat := if sector then ln else ln / 8

/-- The pseudo-channel of a unit: 64 consecutive units from an aligned one lie in the 64 pseudo-channels (Table 7.2; log entry 9). -/
def pcOfUnit (sector : Bool) (u : Nat) : Nat := (u % 64 + Config.pcSkew sector (u / 64)) % 64

/-- The bank of a unit within its pseudo-channel: 4,096 consecutive units from an aligned one lie in every bank of every
pseudo-channel (Table 7.2; log entry 9). -/
def bankOfUnit (sector : Bool) (u : Nat) : Nat :=
  (u / 64 % 64 + Config.bankSkew sector (u / 4096) (pcOfUnit sector u)) % 64

/-- The row of a unit in its bank: 1 KiB of units share a row (Table 7.2). -/
def rowOfUnit (sector : Bool) (u : Nat) : Nat := if sector then u / 4096 / 8 else u / 4096

/-- The pseudo-channel and bank of a line under the stack's policy (R165): pc × 64 + bank. -/
def bankOf (i : Fin 32) (ln : Nat) (s : State) : Nat :=
  let p := s.memStacks[i].policy
  64 * pcOfUnit p (unitOf p ln) + bankOfUnit p (unitOf p ln)

/-- One line more in the write queue of a pseudo-channel (R182). -/
def queueWrite (pc : Nat) : List (Nat × Nat) → List (Nat × Nat)
  | [] => [(pc, 1)]
  | (k, n) :: r => if k = pc then (k, min 256 (n + 1)) :: r else (k, n) :: queueWrite pc r

/-- Write a line back to DRAM through the write queue (R167). -/
def writeBack (i : Fin 32) (ln : Nat) (data : Bytes) (s : State) : State :=
  let pc := bankOf i ln s / 64
  modStack i (fun st => { st with writeQ := queueWrite pc st.writeQ }) { s with mem := memWrite s.mem (lineAddr i ln) (slice data 0 128) }

/-- Drop the last element that satisfies a test: the least recently used one of a list in order of use. -/
def dropLast (f : CacheLine → Bool) (ls : List CacheLine) : List CacheLine := ((ls.reverse).eraseP f).reverse

/-- Clear the keep mark of the least recently used marked line (R169). -/
def clearLruKeep (ls : List CacheLine) : List CacheLine :=
  match (ls.reverse).find? (·.keep) with
  | none => ls
  | some l => ls.map fun x => if x.line = l.line then { x with keep := false } else x

/-- The way that a line takes: the one it has, its victim's, or the first enabled one that no other line holds (R171). -/
def wayFor (ways : List Nat) (c : CacheSet) (others : List CacheLine) (victim : Option CacheLine) (ln : Nat) : Nat :=
  match c.lines.find? fun x => x.line == ln, victim with
  | some x, _ => x.way
  | none, some v => v.way
  | none, none => (ways.find? fun w => !others.any fun x => x.way == w).getD 0

/-- Put a line into its set at MRU or LRU, evicting a victim and bounding the keep marks (R168, R169). -/
def cacheInsert (i : Fin 32) (l : CacheLine) (mru : Bool) (s : State) : State :=
  let st := s.memStacks[i]
  let c := cacheSetOf l.line st
  let n := waysOf st c
  if n = 0 then (if l.dirty then writeBack i l.line l.data s else s)
  else
    let others := c.lines.filter fun x => x.line != l.line
    let others := if l.keep ∧ n - 4 ≤ (others.filter (·.keep)).length then clearLruKeep others else others
    let victim := if others.length < n then none else (others.reverse).find? fun x => !x.keep
    let others := if others.length < n then others else dropLast (fun x => !x.keep) others
    let l := { l with keep := l.keep && decide (4 < n), way := wayFor (enabledWays st c) c others victim l.line }
    let lines := if mru then l :: others else others ++ [l]
    let s := modStack i (fun st => { st with cache := putSet { c with lines := lines } st.cache }) s
    match victim with
    | some v => if v.dirty then writeBack i v.line v.data s else s
    | none => s

/-- Take a line out of its set. -/
def cacheRemove (i : Fin 32) (ln : Nat) (s : State) : State :=
  let c := cacheSetOf ln s.memStacks[i]
  if c.lines.any fun x => x.line == ln then
    modStack i (fun st => { st with cache := putSet { c with lines := c.lines.filter fun x => x.line != ln } st.cache }) s
  else s

/-- Replace the data of a resident line in place. -/
def cacheUpdate (i : Fin 32) (ln : Nat) (data : Bytes) (s : State) : State :=
  let c := cacheSetOf ln s.memStacks[i]
  modStack i (fun st => { st with cache := putSet { c with lines := c.lines.map fun x =>
    if x.line = ln then { x with data := data, dirty := true } else x } st.cache }) s

/-- A line read through the slice cache under a hint (Table 7.3): the line and the state. -/
def cacheRead (i : Fin 32) (ln : Nat) (h : Hint) (s : State) : Bytes × State :=
  let d := lineData i ln s
  match cachedLine ln s.memStacks[i] with
  | some l =>
    match h with
    | .none => (d, cacheInsert i l true s)
    | .stream => (d, s)
    | .keep => (d, cacheInsert i { l with keep := true } true s)
    | .last => (d, cacheRemove i ln (if l.dirty then writeBack i ln l.data s else s))
  | none =>
    let l : CacheLine := { line := ln, way := 0, data := d, dirty := false, keep := h == .keep }
    match h with
    | .none => (d, cacheInsert i l true s)
    | .stream => (d, cacheInsert i l false s)
    | .keep => (d, cacheInsert i l true s)
    | .last => (d, s)

/-- Replace the bytes from offset `off` of a line. -/
def mergeLine (old : Bytes) (off : Nat) (new : Bytes) : Bytes := (old.take off ++ new ++ old.drop (off + new.length)).take old.length

/-- A line write through the slice cache, whole or part, under a hint (R167, Table 7.3). -/
def cacheWrite (i : Fin 32) (a : Nat) (data : Bytes) (h : Hint) (s : State) : State :=
  let ln := lineNo a
  let d := mergeLine (lineData i ln s) (a % 128) data
  let keep := ((cachedLine ln s.memStacks[i]).map (·.keep)).getD false || h == .keep
  cacheInsert i { line := ln, way := 0, data := d, dirty := true, keep := keep } (h == .none || h == .keep) s

/-- A write that allocates no line: into the line where it is resident, whose position stays, else into DRAM (R173). -/
def narrowWrite (i : Fin 32) (a : Nat) (data : Bytes) (s : State) : State :=
  match cachedLine (lineNo a) s.memStacks[i] with
  | some l => cacheUpdate i (lineNo a) (mergeLine (slice l.data 0 128) (a % 128) data) s
  | none =>
    let pc := bankOf i (lineNo a) s / 64
    modStack i (fun st => { st with writeQ := queueWrite pc st.writeQ }) { s with mem := memWrite s.mem a data }

/-! ### Package memory as a whole -/

/-- The byte an access to an address finds: in the slice cache if its line is resident, else in DRAM or the far tier. -/
def physGet (s : State) (a : Nat) : Byte :=
  match rangeOf a with
  | .stack i =>
    match cachedLine (lineNo a) s.memStacks[i] with
    | some l => l.data.getD (a % 128) 0
    | none => memGet s.mem a
  | _ => memGet s.mem a

/-- Read bytes of package memory. -/
def physRead (s : State) (a n : Nat) : Bytes := (List.range n).map fun k => physGet s (a + k)

/-- The pieces of a byte string at an address that lie in one 128-byte line each; `fuel` bounds their number. -/
def linePieces : Nat → Nat → Bytes → List (Nat × Bytes)
  | 0, _, _ => []
  | _, _, [] => []
  | fuel + 1, a, bs =>
    let k := 128 - a % 128
    (a, bs.take k) :: linePieces fuel (a + k) (bs.drop k)

/-! ### Watch table (R175) -/

/-- Whether a write of `len` bytes at `addr` overlaps a watched range. -/
def watchHit (addr len : Nat) (w : Watch) : Bool := decide (w.lo < addr + len) && decide (addr < w.lo + w.len)

/-- Whether a write there must wait for the acknowledgement of a stale notice (R175). -/
def watchWaits (addr len : Nat) (w : Watch) : Bool := watchHit addr len w && w.stale && !w.acked

/-- Mark the prefetches that a write of `len` bytes at `addr` overlaps; each newly marked one sends a stale notice. -/
def markStale (i : Fin 32) (addr len : Nat) (s : State) : State :=
  let new := s.memStacks[i].watch.filter fun w => watchHit addr len w && !w.stale
  let s := modStack i (fun st => { st with watch := st.watch.map fun w => { w with stale := w.stale || watchHit addr len w } }) s
  emitAll (new.map fun w => .staleNotice w.die w.core w.id) s

/-- Whether an acknowledgement must wait for a stale notice of the stack. -/
def mustWait (i : Fin 32) (addr len : Nat) (s : State) : Bool := s.memStacks[i].watch.any (watchWaits addr len)

/-- Withhold an acknowledgement until the core has acknowledged the stale notice of every prefetch that the write overlaps (R175). -/
def withhold (i : Fin 32) (addr len : Nat) (k : WAck) (s : State) : State :=
  modStack i (fun st => { st with withheld := st.withheld ++
    [{ ack := k, addr := addr, len := len, ids := (st.watch.filter (watchWaits addr len)).map (·.id) }] }) s

/-- Read a range of package memory through the slice cache under a hint, line by line (R167, R168; no slice cache on the far tier,
R191); `fuel` bounds the lines. -/
def dmaRead (h : Hint) : Nat → Nat → Nat → State → Bytes × State
  | 0, _, _, s => ([], s)
  | fuel + 1, a, n, s =>
    if n = 0 then ([], s)
    else
      match rangeOf a with
      | .stack i =>
        let k := min n (128 - a % 128)
        let (d, s) := cacheRead i (lineNo a) h s
        let (r, s) := dmaRead h fuel (a + k) (n - k) s
        (slice d (a % 128) k ++ r, s)
      | _ => (memRead s.mem a n, s)

/-- Write a range of package memory through the slice cache under a hint, marking the prefetches it makes stale (R167, R168, R175). -/
def dmaWrite (h : Hint) (a : Nat) (data : Bytes) (s : State) : State :=
  (linePieces (data.length / 128 + 2) a data).foldl (fun s p =>
    match rangeOf p.1 with
    | .stack i => markStale i p.1 p.2.length (cacheWrite i p.1 p.2 h s)
    | _ => { s with mem := memWrite s.mem p.1 p.2 }) s

/-- What the read of `n` bytes under a hint does to the slice cache (R168). -/
def touch (h : Hint) (a n : Nat) (s : State) : State := (dmaRead h (n / 128 + 2) a n s).2

/-- Write bytes of package memory with no hint. -/
def physWrite (a : Nat) (data : Bytes) (s : State) : State := dmaWrite .none a data s

/-- Why a transfer of `n` bytes at an address fails, with the address that fails, if it does (R11, R16, R161, R163): its first and its
last line are asked for, since a transfer never passes through a third range. -/
def spanCause (who : Requester) (a n : Nat) (s : State) : Option (Nat × Nat) :=
  if n = 0 then none
  else
    match accessCause who a 1 s with
    | some k => some (a, k)
    | none => (accessCause who (a + n - 1) 1 s).map fun k => (a + n - 1, k)

/-! ### Core stores -/

/-- Read bytes of a core store; nothing lies beyond its 384 KiB (R4). -/
def storeRead (d c off n : Nat) (s : State) : Bytes :=
  let k := min n (storeBytes - off)
  memRead s.coreStore (storeKey d c off) k ++ List.replicate (n - k) 0

/-- Write bytes of a core store. -/
def storeWrite (d c off : Nat) (data : Bytes) (s : State) : State :=
  { s with coreStore := memWrite s.coreStore (storeKey d c off) (data.take (storeBytes - off)) }

/-- Zero the core stores of a die (R318). -/
def zeroStores (d : Nat) (s : State) : State :=
  { s with coreStore := memClear s.coreStore (storeKey d 0 0) (storeKey (d + 1) 0 0) }

/-! ### Whole-stack operations -/

/-- Write every dirty line of a stack back to DRAM (R167, R318). -/
def flushCache (i : Fin 32) (s : State) : State :=
  let dirty := (s.memStacks[i].cache.flatMap (·.lines)).filter (·.dirty)
  let s := dirty.foldl (fun s l => { s with mem := memWrite s.mem (lineAddr i l.line) (slice l.data 0 128) }) s
  modStack i (fun st => { st with writeQ := [], cache := st.cache.map fun c => { c with lines := c.lines.map fun l => { l with dirty := false } } }) s

/-- Invalidate the slice cache of a stack; disabled ways stay disabled until the next boot (R171). -/
def invalidateCache (i : Fin 32) (s : State) : State :=
  modStack i (fun st => { st with cache := (st.cache.map fun c => { c with lines := [] }).filter fun c => !c.disabled.isEmpty }) s

/-- Write every byte of a stack, and of its slice cache, to zero (R166). -/
def zeroStack (i : Fin 32) (s : State) : State :=
  invalidateCache i { s with mem := memClear s.mem (i.val * 2 ^ 37) ((i.val + 1) * 2 ^ 37) }

/-! ### Data that a pointer reaches (R147) -/

/-- Where a task runs: a physical core of a die, or a stack's update engine. -/
inductive Place where
  | core (die core : Nat)
  | stack (i : Nat)
  deriving DecidableEq, Repr

/-- Read through a pointer field at a byte offset. -/
def ptrRead (at_ : Place) (p off n : Nat) (s : State) : Bytes :=
  match ptr p, at_ with
  | .phys a, _ => physRead s (a + off) n
  | .store o, .core d c => storeRead d c (o + off) n s
  | _, _ => List.replicate n 0

/-- Write through a pointer field at a byte offset, under a hint (Table 7.3). -/
def ptrWriteH (h : Hint) (at_ : Place) (p off : Nat) (data : Bytes) (s : State) : State :=
  match ptr p, at_ with
  | .phys a, _ => dmaWrite h (a + off) data s
  | .store o, .core d c => storeWrite d c (o + off) data s
  | _, _ => s

/-- Write through a pointer field at a byte offset, with no hint. -/
def ptrWrite (at_ : Place) (p off : Nat) (data : Bytes) (s : State) : State := ptrWriteH .none at_ p off data s

/-- Why a transfer through a pointer fails, if it does; a core store never does. -/
def ptrCause (who : Requester) (p off n : Nat) (s : State) : Option (Nat × Nat) :=
  match ptr p with
  | .phys a => spanCause who (a + off) n s
  | _ => none

end Sys2Proof.Machine
end

