-- ==== Sys2Proof/Machine/ExecOps.lean ====
section
/-! DEFINITION. Looking up tasks, tokens and reductions; which work a breach reaches (R138 to R142, R19); the relief core and
map-outs (R159, R160, R63). -/

namespace Sys2Proof.Machine

/-! ### Look-ups -/

/-- The loaded image's tasks. -/
def tasks (s : State) : List TaskRec := (s.job.image.map (·.tasks)).getD []

/-- The loaded image's collective plan. -/
def plan (s : State) : List PlanEntry := (s.job.image.map (·.plan)).getD []

/-- A task record. -/
def taskRec (id : Nat) (s : State) : Option TaskRec := (tasks s).find? fun t => t.taskid == id

/-- A plan entry. -/
def planRec (id : Nat) (s : State) : Option PlanEntry := (plan s).find? fun r => r.redid == id

/-- The run of a task in a step. -/
def runOf (id step : Nat) (s : State) : Option TaskRun := s.exec.runs.find? fun r => r.task == id && r.step == step

/-- Replace or add a run. -/
def putRun (r : TaskRun) : List TaskRun → List TaskRun
  | [] => [r]
  | x :: l => if x.task = r.task ∧ x.step = r.step then r :: l else x :: putRun r l

/-- Store a run. -/
def setRun (r : TaskRun) (s : State) : State := { s with exec := { s.exec with runs := putRun r s.exec.runs } }

/-- A reduction of a step that nothing has reached. -/
def RedRun.new (redid step : Nat) : RedRun :=
  { redid := redid, step := step, have_ := [], held := [], sent := [], landed := [], pnf := false, psat := false, endT := none,
    breached := false, bad := [], maxAbs := 0, scales := [], scaleSent := 0, own := 0, again := false }

/-- The run of a reduction in a step. -/
def redOf (id step : Nat) (s : State) : RedRun :=
  (s.exec.reds.find? fun r => r.redid == id && r.step == step).getD (RedRun.new id step)

/-- Replace or add the run of a reduction. -/
def putRed (r : RedRun) : List RedRun → List RedRun
  | [] => [r]
  | x :: l => if x.redid = r.redid ∧ x.step = r.step then r :: l else x :: putRed r l

/-- Store the run of a reduction. -/
def setRed (r : RedRun) (s : State) : State := { s with exec := { s.exec with reds := putRed r s.exec.reds } }

/-- Where a task runs: for F and B the physical core of its logical core, for U its stack. -/
def placeOf (t : TaskRec) (s : State) : Place :=
  if t.stream = 2 then .stack (unitStack t.unit) else .core (unitDie t.unit) (physCore (unitDie t.unit) (unitCore t.unit) s)

/-- The requester a task is. -/
def requesterOf (t : TaskRec) (s : State) : Requester :=
  match placeOf t s with
  | .core d c => .core (Fin.ofNat 4 d) c (Fin.ofNat 8 (unitCtx t.unit))
  | .stack i => .update (Fin.ofNat 32 i)

/-- The UNIT word of a task (R275). -/
def taskUnit (t : TaskRec) (s : State) : Nat := reqUnit (requesterOf t s)

/-- The tensor-table entry of a tensor and stream kind. -/
def tensorOf (tensor skind : Nat) (s : State) : Option TensorEntry :=
  ((s.job.image.map (·.tensors)).getD []).find? fun e => e.tensor == tensor && e.skind == skind

/-- The compiled duration of a task: DEADLINE − START (log entry 14). -/
def durOf (t : TaskRec) : Nat := t.deadline - t.start

/-! ### Tokens (R138) -/

/-- B: how long a notice takes to reach every package, 0.5 µs for each hop of the longest route (R245). -/
def noticeBound (s : State) : Nat :=
  500 * ([0, 1, 2].map fun a => if axisRing a s then axisLen a s / 2 else axisLen a s - 1).sum

/-- Whether every task of this package that sends to a reduction has committed. -/
def sendersDone (redid step : Nat) (s : State) : Bool :=
  (tasks s).all fun t =>
    !(t.dtype == 5 && (decodeSend t.body).redid == redid) || ((runOf t.taskid step s).map (·.st)) == some .committed

/-- The check horizon of the last contribution of a reduction (R19, Table 1.4): 2 µs after the start of the collective phase that the
image plans, where the phase kept its deadline; else 2 µs after its end (log entry 15). -/
def lastHorizon (r : PlanEntry) (step endT : Nat) (s : State) : Nat :=
  let slip := slipFor step r.deadline s
  let o := originOf step s
  if endT ≤ o + r.deadline + slip then o + (r.deadline - r.dur) + slip + 2000 else endT + 2000

/-- Whether a reduction has committed (R19, R138): ended, its digests matched, no breach notice in force, its senders here committed, and
the check horizon of every contribution behind it (log entry 15). -/
def redCommitted (redid step : Nat) (s : State) : Bool :=
  let r := redOf redid step s
  match r.endT with
  | none => false
  | some e =>
    !r.breached && sendersDone redid step s &&
      match planRec redid s with
      | some p => decide (lastHorizon p step e s ≤ tideNow s)
      | none => false

/-- Whether a step is over: every task of it has committed. -/
def stepOver (step : Nat) (s : State) : Bool := decide (step < s.exec.doneTo)

/-- Whether the END event of a token has occurred in a step. -/
def tokenEnded (token step : Nat) (s : State) : Bool :=
  stepOver step s || ((tasks s).any fun t => t.issue == token && match runOf t.taskid step s with
    | some r => r.st != .discarded && r.endT.isSome
    | none => false) ||
  (plan s).any fun r => r.token == token && (redOf r.redid step s).endT.isSome

/-- Whether the COMMIT event of a token has occurred in a step. -/
def tokenCommitted (token step : Nat) (s : State) : Bool :=
  stepOver step s || ((tasks s).any fun t => t.issue == token && ((runOf t.taskid step s).map (·.st)) == some .committed) ||
  (plan s).any fun r => r.token == token && redCommitted r.redid step s

/-- Whether a wait of a task is satisfied in a step (R138, R139): LAG in the first step of a start is; EVT = 0 needs END for a
task with SPEC and COMMIT for one without; EVT = 1 needs COMMIT. -/
def waitOk (spec : Bool) (step : Nat) (s : State) (w : WaitEntry) : Bool :=
  w.token == 0 || (w.lag && step == s.job.ts) ||
    (let k := if w.lag then step - 1 else step
     if w.commit || !spec then tokenCommitted w.token k s else tokenEnded w.token k s)

/-- Whether every producer that a task waited on with EVT = 0 has committed (R140). -/
def isFirm (t : TaskRec) (step : Nat) (s : State) : Bool :=
  t.waits.all fun w => w.token == 0 || w.commit || (w.lag && step == s.job.ts) ||
    tokenCommitted w.token (if w.lag then step - 1 else step) s

/-! ### What a breach reaches (R142) -/

/-- One round of the closure: tasks whose EVT = 0 waits within the step name a token of the set, and reductions that a task of
the set feeds. -/
def reachStep (im : JobImage) (x : List Nat × List Nat) : List Nat × List Nat :=
  let toks := (im.tasks.filter fun t => x.1.contains t.taskid).map (·.issue) ++ (im.plan.filter fun r => x.2.contains r.redid).map (·.token)
  let ts := (im.tasks.filter fun t => x.1.contains t.taskid ||
    t.waits.any fun w => !w.lag && !w.commit && w.token != 0 && toks.contains w.token).map (·.taskid)
  let rs := (im.plan.filter fun r => x.2.contains r.redid || im.tasks.any fun t =>
    t.dtype == 5 && (decodeSend t.body).redid == r.redid && (x.1.contains t.taskid || x.1.contains (decodeSend t.body).ptask)).map (·.redid)
  (ts, rs)

/-- The tasks and reductions of a step that the failed task or reduction reaches (R142). -/
def reach (im : JobImage) (ts rs : List Nat) : List Nat × List Nat := iter (reachStep im) (im.tasks.length + im.plan.length + 1) (ts, rs)

/-- The tasks of the next step that wait with LAG = 1 and EVT = 0 on a token of the set, and what they reach. -/
def reachNext (im : JobImage) (x : List Nat × List Nat) : List Nat × List Nat :=
  let toks := (im.tasks.filter fun t => x.1.contains t.taskid).map (·.issue) ++ (im.plan.filter fun r => x.2.contains r.redid).map (·.token)
  reach im ((im.tasks.filter fun t => t.waits.any fun w => w.lag && !w.commit && w.token != 0 && toks.contains w.token).map (·.taskid)) []

/-- Whether a watch entry is that of the prefetch which a MOVE task made. -/
def prefetchedBy (t : TaskRec) (s : State) (w : Watch) : Bool :=
  let m := decodeMove t.body
  t.dtype == 4 && m.prefetch && w.id == t.taskid && placeOf t s == .core w.die w.core && w.len == m.length

/-- Whether a task has a run of a step that a discard undoes. -/
def undone (step : Nat) (ts : List Nat) (s : State) (t : TaskRec) : Bool :=
  ts.contains t.taskid && s.exec.runs.any fun r => r.task == t.taskid && r.step == step && r.st != .committed

/-- Discard the uncommitted runs of a step whose task is in a list; they run again (Table 6.3). A core abandons what they prefetched
(R176). -/
def discardRuns (step : Nat) (ts : List Nat) (s : State) : State :=
  let movers := (tasks s).filter (undone step ts s)
  let s := dropWatches (fun w => movers.any fun t => prefetchedBy t s w) s
  { s with exec := { s.exec with runs := s.exec.runs.map fun r =>
      if r.step == step && ts.contains r.task && r.st != .committed then
        { r with st := .discarded, endT := none, undetected := [], gauges := [], overs := [], nfFwd := 0, loss := 0,
                 nfLoss := 0, pnf := false, psat := false, checksOk := true, wrote := false }
      else r } }

/-- Whether every task of the step has committed. -/
def stepCommitted (step : Nat) (s : State) : Bool :=
  stepOver step s || (tasks s).all fun t => ((runOf t.taskid step s).map (·.st)) == some .committed

/-! ### Relief core and map-outs (R63, R159, R160, R301) -/

/-- The physical cores of a die that are not mapped out, scheduled or relief: the spares, lowest first. -/
def spareCores (d : Fin 4) (s : State) : List Nat :=
  (List.range 1088).filter fun c => decide (1024 ≤ c) && !(coreOf d.val c s).mapped && s.dies[d].relief != some c &&
    !(s.dies[d].handover.any fun p => p.2 == c)

/-- The logical core a physical core runs, if any. -/
def logicalOf (d : Fin 4) (c : Nat) (s : State) : Option Nat :=
  (List.range 1023).find? fun lc => physCore d.val lc s == c

/-- Set the physical core of a logical core. -/
def putHandover (lc c : Nat) : List (Nat × Nat) → List (Nat × Nat)
  | [] => [(lc, c)]
  | x :: l => if x.1 = lc then (lc, c) :: l else x :: putHandover lc c l

/-- Copy the contents of one core store into another (R159). -/
def copyStore (d from_ to_ : Nat) (s : State) : State :=
  let lo := storeKey d from_ 0
  let cells := s.coreStore.filter fun c => decide (lo ≤ c.1 ∧ c.1 < lo + storeBytes)
  let m := memClear s.coreStore (storeKey d to_ 0) (storeKey d to_ 0 + storeBytes)
  { s with coreStore := cells.foldl (fun m c => memSet m (storeKey d to_ 0 + (c.1 - lo)) c.2) m }

/-- Give a logical core to a physical core, with its live core-store contents (R159). -/
def handTo (d : Fin 4) (lc c : Nat) (s : State) : State :=
  let old := physCore d.val lc s
  modDie d (fun k => { k with handover := putHandover lc c k.handover }) (copyStore d.val old c s)

/-- Map out a core (R63, R160, R301): the relief core takes its sequence, the ledger and the log record it, and a new relief
core follows at the next step boundary. A core that runs no sequence only leaves service. While a relief core is still to be enabled
at the next boundary the takeover waits for it; with none and no spare left the package fails. If the relief core serves an inspection
slot, the slot is aborted and the takeover waits for the next boundary.
`srce` is the SRCE of Table 11.8. -/
def mapOut (d : Fin 4) (c srce : Nat) (s : State) : State :=
  let s0 := s
  let s := modCore d.val c (fun k => { k with mapped := true }) s
  let relief := s0.dies[d].relief
  let isSpare := (spareCores d s0).contains c
  let s := if isSpare then modDie d (fun k => { k with spares := k.spares - 1 }) s else s
  match logicalOf d c s0 with
  | none =>
    let s := logEv 0x0021 (unitWord 1 d.val c) d.val c 1 (relief.getD 0) (ledgerAppend 0x01 srce d.val c (leBytes 4 c) s)
    if relief = some c then modDie d (fun k => { k with relief := none, pendingRelief := true }) s else s
  | some lc =>
    match relief with
    | none =>
      let s := logEv 0x0021 (unitWord 1 d.val c) d.val c 1 0 (ledgerAppend 0x01 srce d.val c (leBytes 4 c) s)
      if s.dies[d].pendingRelief && !(spareCores d s).isEmpty then
        { s with inspect := { s.inspect with wait := s.inspect.wait ++ [(d.val, lc)] } }
      else failHere 4 s
    | some r =>
      let s := logEv 0x0021 (unitWord 1 d.val c) d.val c 1 r (ledgerAppend 0x01 srce d.val c (leBytes 4 r) s)
      let busy := (s.inspect.slot.any fun q => q.1 == d.val) && (logicalOf d r s).isSome
      if busy then
        { s with inspect :=
            { s.inspect with slot := none, lc := none, wait := s.inspect.wait ++ [(d.val, lc)],
                             back := match s.inspect.slot, s.inspect.lc with
                               | some (_, x), some l => some (d.val, l, x)
                               | _, _ => s.inspect.back } }
      else modDie d (fun k => { k with relief := none, pendingRelief := true }) (handTo d lc r s)

/-- Enable a spare as the new relief core of a die and record it (R160). -/
def enableRelief (d : Fin 4) (s : State) : State :=
  match spareCores d s with
  | [] => modDie d (fun k => { k with pendingRelief := false }) s
  | c :: _ =>
    let s := modDie d (fun k => { k with pendingRelief := false, relief := some c, spares := k.spares - 1 }) s
    ledgerAppend 0x03 2 d.val c [] s

/-- Record a transient fault of a core: the count in the ledger, and event 0x0021 (R63). -/
def recordTransient (d c : Nat) (s : State) : State :=
  let n := ((ledgerFind s.flash 0x02 d c).map fun r => leVal (r.value.take 4)).getD 0 + 1
  let relief := if h : d < 4 then s.dies[d].relief.getD 0 else 0
  logEv 0x0021 (unitWord 1 d c) d c 0 relief (ledgerAppend 0x02 2 d c (leBytes 4 n) s)

end Sys2Proof.Machine
end

