-- ==== Sys2Proof/Machine/Collective.lean ====
section
/-! DEFINITION. The collective engine (R236 to R243): reduce-scatter and all-gather along the axes of a reduction, digests, landing,
contract scales, and what a breach makes of it (R142, R240). -/

namespace Sys2Proof.Machine

/-! ### Elements (R237, R352) -/

/-- Bytes of an element of a KIND. -/
def elemSize : Nat → Nat
  | 1 => 8
  | 2 => 16
  | 4 => 2
  | _ => 4

/-- The value of an element. -/
def elemVal (kind : Nat) (b : Bytes) : Int :=
  match kind with
  | 2 => (leVal b : Int)
  | 3 => (leVal b : Int)
  | 5 => (leVal b : Int)
  | _ => toSigned (8 * elemSize kind) (leVal b)

/-- The elements of a byte string. -/
def elemsOf (kind : Nat) (bs : Bytes) : List Int :=
  (List.range (bs.length / elemSize kind)).map fun i => elemVal kind (slice bs (elemSize kind * i) (elemSize kind))

/-- The bytes of elements. -/
def elemBytes (kind : Nat) (vs : List Int) : Bytes := vs.flatMap fun v => leBytes (elemSize kind) (ofSigned (8 * elemSize kind) v)

/-- Combine two elements, and whether the lane saturated (R236, R237). -/
def combine (kind : Nat) (a b : Int) : Int × Bool :=
  match kind with
  | 0 => (satI (a + b) (-(2 ^ 31 - 1)) (2 ^ 31 - 1), decide (a + b < -(2 ^ 31 - 1) ∨ 2 ^ 31 - 1 < a + b))
  | 3 => (min (a + b) (2 ^ 32 - 1), decide (2 ^ 32 - 1 < a + b))
  | 4 => (max a b, false)
  | _ => (a + b, false)

/-- The job seed. -/
def seedOf (s : State) : Nat := (s.job.image.map (·.seed)).getD 0

/-- The digest of elements from index `lo` (R238); SATSUM32, MAX16 and GATHER digest the 32-bit words of the payload (R239). -/
def digestAt (kind step redid lo : Nat) (vs : List Int) (s : State) : Nat :=
  if kind ≤ 2 then digest (seedOf s) step redid lo vs
  else digest (seedOf s) step redid (lo * elemSize kind / 4) (elemsOf 0 (elemBytes kind vs))

/-! ### Axes, positions, segments (R236) -/

/-- A level of a reduction: its axis, the positions on it, this package's position. -/
structure Level where
  axis : Nat
  n : Nat
  pos : Nat

/-- The levels of a reduction, for the axes longer than 1 (AXES of Table 6.20). -/
def levelsOf (r : PlanEntry) (s : State) : List Level :=
  let axes := match r.axes with
    | 0 => [2]
    | 1 => [0, 2]
    | _ => [0, 1, 2]
  (axes.filter fun a => decide (1 < axisLen a s)).map fun a => { axis := a, n := axisLen a s, pos := coord (logId s) a }

/-- The elements a level works on: first index and count; a level takes the segment (position + 1) mod n of the one before. -/
def rangeAt : List Level → Nat → Nat × Nat → Nat × Nat
  | _, 0, x => x
  | [], _, x => x
  | l :: ls, i + 1, (lo, len) => rangeAt ls i (lo + (l.pos + 1) % l.n * (len / l.n), len / l.n)

/-- The logical ID of the next position on an axis. -/
def nextPos (l : Level) (s : State) : Nat :=
  let p := (l.pos + 1) % l.n
  match l.axis with
  | 0 => p + 32 * s.job.y + 512 * s.job.z
  | 1 => s.job.x + 32 * p + 512 * s.job.z
  | _ => s.job.x + 32 * s.job.y + 512 * p

/-- The logical ID of the position before on an axis: the package that a hop comes from. -/
def prevPos (l : Level) (s : State) : Nat := nextPos { l with pos := (l.pos + l.n - 2) % l.n } s

/-- Send elements of a reduction to the next position of a level, as CONTRIB or RESULT (R236). -/
def sendElems (type : Nat) (r : PlanEntry) (q : RedRun) (l : Level) (p : Piece) (last : Bool) (s : State) : State :=
  let m := jobMsg type 3 (nextPos l s) q.step r.redid p.lo p.dig (elemBytes r.kind p.vals) s
  sendLog { m with pnf := p.pnf, psat := p.psat, last := last, resend := q.again } s

/-- The values present at a level from index `lo`, if every one of `n` is; `fuel` bounds the pieces. -/
def inputAt (ps : List Piece) (level : Nat) : Nat → Nat → Nat → Option (List Int × Bool × Bool)
  | _, _, 0 => some ([], false, false)
  | 0, _, _ => none
  | fuel + 1, lo, n =>
    match ps.find? fun p => p.level == level && decide (p.lo ≤ lo ∧ lo < p.lo + p.vals.length) with
    | none => none
    | some p =>
      let k := min n (p.lo + p.vals.length - lo)
      (inputAt ps level fuel (lo + k) (n - k)).map fun x => ((p.vals.drop (lo - p.lo)).take k ++ x.1, p.pnf || x.2.1, p.psat || x.2.2)

/-- The contract scale of a slot in a step: the latest fixed for it, else that of the image (R241). -/
def scaleOf (slot step : Nat) (s : State) : Int :=
  match s.exec.scales.find? fun x => x.1 == slot && x.2.1 == step with
  | some x => x.2.2
  | none => (((s.job.image.map (·.contracts)).getD []).find? fun c => c.cslot == slot).map (·.scale) |>.getD 0

/-- Fix the contract scale of a slot for a step. -/
def setScale (slot step : Nat) (v : Int) (s : State) : State :=
  { s with exec := { s.exec with scales :=
      (slot, step, v) :: s.exec.scales.filter fun x => !(x.1 == slot && x.2.1 == step) && !(x.1 == slot && decide (x.2.1 + 2 ≤ step)) } }

/-! ### Contract scales (R241) -/

/-- The candidate of a holder with no non-zero element, below every exponent (log entry 16). -/
def noCandidate : Int := -32768

/-- The candidate exponent of the elements a package completed (R241). -/
def candidate (r : PlanEntry) (q : RedRun) (s : State) : Int :=
  let c := ((s.job.image.map (·.contracts)).getD []).find? fun c => c.cslot == r.cslot
  if !q.psat && !q.pnf && q.maxAbs == 0 then noCandidate
  else nextScale (scaleOf r.cslot q.step s) q.maxAbs ((c.map (·.h)).getD 2) ((c.map (·.nb)).getD 1) q.psat q.pnf

/-- The other packages of a reduction's peer set. -/
def peerPackages (r : PlanEntry) (s : State) : List Nat :=
  match ((s.job.image.map (·.peers)).getD []).find? fun p => p.pset == r.peers with
  | none => []
  | some p => ((p.holders.map (·.1)).filter fun i => i != logId s).eraseDups

/-- How many candidates a stage brings: the other positions of an axis, then the other packages of the peer set. -/
def stageSize (ls : List Level) (peers : Nat) (i : Nat) : Nat :=
  match ls[i]? with
  | some l => l.n - 1
  | none => if i = ls.length then peers else 0

/-- Whether every candidate of the first `i` stages has arrived. -/
def stagesIn (ls : List Level) (peers : Nat) (q : RedRun) (i : Nat) : Bool :=
  (List.range i).all fun k => decide (stageSize ls peers k ≤ (q.scales.filter fun x => x.1 == k).length)

/-- The largest candidate so far. -/
def bestScale (c : Int) (q : RedRun) : Int := (q.scales.map (·.2.2)).foldl max c

/-- The digest of a SCALE message: its payload as 32-bit words, the contract slot in place of a reduction ID (R239). -/
def scaleDigest (r : PlanEntry) (step : Nat) (v : Int) (s : State) : Nat :=
  digest (seedOf s) step r.cslot 0 [((ofSigned 16 v : Nat) : Int)]

/-- A SCALE message (R241): the candidate as an int16, OFFSET the position it comes from. -/
def scaleMsg (r : PlanEntry) (q : RedRun) (dst pos : Nat) (v : Int) (s : State) : Msg :=
  jobMsg 0x04 3 dst q.step r.cslot pos (scaleDigest r q.step v s) (leBytes 2 (ofSigned 16 v)) s

/-- Send the candidate of one more stage where the stages before it are in. -/
def sendStage (r : PlanEntry) (step : Nat) (s : State) : State :=
  let q := redOf r.redid step s
  let ls := levelsOf r s
  let ps := peerPackages r s
  let i := q.scaleSent
  if ls.length < i ∨ !stagesIn ls ps.length q i then s
  else
    let v := bestScale (candidate r q s) q
    let s := setRed { q with scaleSent := i + 1 } s
    match ls[i]? with
    | some l => sendLog (scaleMsg r q (nextPos l s) l.pos v s) s
    | none => ps.foldl (fun s d => sendLog (scaleMsg r q d (logId s) v s) s) s

/-- Whether the reduction needs a scale and it is fixed. -/
def scaleDone (r : PlanEntry) (q : RedRun) (s : State) : Bool :=
  r.kind != 0 || r.cslot == 0 ||
    (let ls := levelsOf r s
     decide (q.scaleSent = ls.length + 1) && stagesIn ls (peerPackages r s).length q (ls.length + 1))

/-- Go on with the scale exchange of a reduction whose own elements are complete, fixing the slot's next scale at its end. -/
def runScale (r : PlanEntry) (step : Nat) (s : State) : State :=
  let ls := levelsOf r s
  let own := (rangeAt ls ls.length (0, r.elems)).2
  if r.kind ≠ 0 ∨ r.cslot = 0 ∨ (redOf r.redid step s).own < own then s
  else
    let s := iter (sendStage r step) (ls.length + 1) s
    let q := redOf r.redid step s
    if scaleDone r q s then
      let v := bestScale (candidate r q s) q
      setScale r.cslot (step + 1) (if v = noCandidate then scaleOf r.cslot step s else v) s
    else s

/-- END of a reduction (R138): every element landed and the scale fixed. -/
def checkEnd (r : PlanEntry) (step : Nat) (s : State) : State :=
  let q := redOf r.redid step s
  if q.endT.isNone ∧ r.elems ≤ (q.landed.map (·.2)).sum ∧ scaleDone r q s then setRed { q with endT := some (tideNow s) } s else s

/-! ### Landing and all-gather (R236, R237) -/

/-- Land elements in the reduced buffer by LAND, keeping the poison bits (R236, R243). A landing that does not reach its stack fails and
is logged (R16, R161, R163). -/
def landPiece (r : PlanEntry) (step : Nat) (p : Piece) (s : State) : State :=
  let off := elemSize r.kind * p.lo
  let bs := elemBytes r.kind p.vals
  match ptrCause .hub r.dst off bs.length s with
  | some (a, k) => logAccess a .hub k s
  | none =>
    let s := ptrWrite (.stack 0) r.dst off bs s
    let q := redOf r.redid step s
    setRed { q with landed := q.landed ++ [(p.lo, p.vals.length)], pnf := q.pnf || p.pnf, psat := q.psat || p.psat } s

/-- The message chunks of a segment: at most 4 KiB each, in ascending order. -/
def chunksOf (kind lo len : Nat) : List (Nat × Nat) :=
  let k := 4096 / elemSize kind
  (List.range (cdiv len k)).map fun i => (lo + k * i, min k (len - k * i))

/-- The elements of one item of a level of a GATHER: the product of the positions below it. -/
def itemSize (ls : List Level) (elems level : Nat) : Nat :=
  elems / (ls.map (·.n)).foldl (· * ·) 1 * ((ls.take level).map (·.n)).foldl (· * ·) 1

/-- The index at which what this package brings to a level of a GATHER lands: ascending position order, a later axis being the major
one (log entry 17). -/
def itemLo (ls : List Level) (elems level : Nat) : Nat :=
  ((List.range ls.length).map fun i => match ls[i]? with
    | some l => if level ≤ i then l.pos * itemSize ls elems i else 0
    | none => 0).sum

/-- The elements that this package starts round the ring of a level as RESULT: its complete segment (R236), or its item of a GATHER
(R237). -/
def startRange (r : PlanEntry) (ls : List Level) (i : Nat) : Nat × Nat :=
  if r.kind = 5 then (itemLo ls r.elems i, itemSize ls r.elems i)
  else
    let (lo, len) := rangeAt ls i (0, r.elems)
    match ls[i]? with
    | some l => (lo + (l.pos + 1) % l.n * (len / l.n), len / l.n)
    | none => (lo, len)

/-- The level under which `RedRun.have_` and `RedRun.sent` hold what is there for the all-gather of a level. -/
def gatherKey (i : Nat) : Nat := 16 + i

/-- Send the next message of this package's own segment or item round a level, where its elements are there (R236): messages leave in
ascending element order, the last one of the segment with LAST. -/
def sendNext (r : PlanEntry) (step i : Nat) (s : State) : State :=
  let ls := levelsOf r s
  let q := redOf r.redid step s
  let (lo, len) := startRange r ls i
  match ls[i]?, (chunksOf r.kind lo len).find? fun c => !q.sent.contains (gatherKey i, c.1) with
  | some l, some c =>
    match inputAt q.have_ (gatherKey i) (q.have_.length + 1) c.1 c.2 with
    | none => s
    | some (vs, nf, sa) =>
      let p : Piece := { level := i, lo := c.1, vals := vs, dig := digestAt r.kind step r.redid c.1 vs s, pnf := nf, psat := sa }
      let q := { q with sent := q.sent ++ [(gatherKey i, c.1)] }
      sendElems 0x02 r q l p (c.1 + c.2 == lo + len) (setRed q s)
  | _, _ => s

/-- Make landed elements available to the all-gathers of some levels, and send what is complete. -/
def gatherOn (r : PlanEntry) (step : Nat) (p : Piece) (levels : List Nat) (s : State) : State :=
  let q := redOf r.redid step s
  let s := setRed { q with have_ := q.have_ ++ levels.map fun i => { p with level := gatherKey i } } s
  levels.foldl (fun s i => iter (sendNext r step i) (chunksOf r.kind 0 (startRange r (levelsOf r s) i).2).length s) s

/-- The segment an index falls in at a level. -/
def segOf (ls : List Level) (level : Nat) (elems lo : Nat) : Nat :=
  let (a, len) := rangeAt ls level (0, elems)
  match ls[level]? with
  | some l => (lo - a) / max 1 (len / l.n)
  | none => 0

/-- A completed segment of the last level: it lands, counts for the scale, and starts the all-gather (R236). -/
def finishPiece (r : PlanEntry) (step : Nat) (p : Piece) (s : State) : State :=
  let s := landPiece r step p s
  let q := redOf r.redid step s
  let s := setRed { q with own := q.own + p.vals.length, maxAbs := (p.vals.map Int.natAbs).foldl max q.maxAbs } s
  let ls := levelsOf r s
  checkEnd r step (runScale r step (gatherOn r step p (List.range ls.length) s))

/-! ### Reduce-scatter (R236, R239) -/

/-- Send the round-0 chunks of a level whose elements are present and that have not been sent. -/
def sendRound0 (r : PlanEntry) (step level : Nat) (s : State) : State :=
  let ls := levelsOf r s
  match ls[level]? with
  | none => s
  | some l =>
    let (lo, len) := rangeAt ls level (0, r.elems)
    let seg := len / l.n
    let cs := chunksOf r.kind (lo + l.pos * seg) seg
    cs.foldl (fun s c =>
      let q := redOf r.redid step s
      if q.sent.contains (level, c.1) then s
      else
        match inputAt q.have_ level (q.have_.length + 1) c.1 c.2 with
        | none => s
        | some (vs, nf, sa) =>
          let p : Piece := { level := level, lo := c.1, vals := vs, dig := digestAt r.kind step r.redid c.1 vs s, pnf := nf, psat := sa }
          sendElems 0x01 r q l p (c.1 + c.2 == lo + (l.pos + 1) * seg) (setRed { q with sent := q.sent ++ [(level, c.1)] } s)) s

/-- What combining a received partial with this package's elements gives: the piece, and whether a lane saturated (R239). -/
def addPiece (r : PlanEntry) (step : Nat) (p : Piece) (own : List Int × Bool × Bool) (s : State) : Piece × Nat :=
  let both := p.vals.zipWith (fun a b => combine r.kind a b) own.1
  let vs := both.map (·.1)
  let sats := (both.filter (·.2)).length
  let dig := if r.kind ≤ 2 ∧ sats = 0 then (p.dig + digestAt r.kind step r.redid p.lo own.1 s) % digP
    else digestAt r.kind step r.redid p.lo vs s
  ({ p with vals := vs, dig := dig, pnf := p.pnf || own.2.1, psat := p.psat || own.2.2 || sats != 0 }, sats)

/-- Work on the first held partial whose elements are present: forward it, or complete it at its level. Answers the level at which the
completed segment failed its digest check, if it did (R239). -/
def workOne (r : PlanEntry) (step : Nat) (s : State) : State × Option Nat :=
  let q := redOf r.redid step s
  let ls := levelsOf r s
  match q.held.find? fun p => (inputAt q.have_ p.level (q.have_.length + 1) p.lo p.vals.length).isSome with
  | none => (s, none)
  | some p =>
    let q := { q with held := q.held.filter fun x => !(x.level == p.level && x.lo == p.lo) }
    match inputAt q.have_ p.level (q.have_.length + 1) p.lo p.vals.length, ls[p.level]? with
    | some own, some l =>
      let (c, sats) := addPiece r step p own s
      let s := if sats = 0 then s else gaugeIn step 3 3 { sat := sats } s
      let (lo, len) := rangeAt ls p.level (0, r.elems)
      let seg := segOf ls p.level r.elems p.lo
      if seg = (l.pos + 1) % l.n then
        if sats = 0 ∧ digestAt r.kind step r.redid c.lo c.vals s ≠ c.dig then (setRed q s, some p.level)
        else
          let c := { c with dig := digestAt r.kind step r.redid c.lo c.vals s }
          if p.level + 1 < ls.length then
            let s := setRed { q with have_ := q.have_ ++ [{ c with level := p.level + 1 }] } s
            (sendRound0 r step (p.level + 1) s, none)
          else (finishPiece r step c (setRed q s), none)
      else (sendElems 0x01 r q l c (c.lo + c.vals.length == lo + (seg + 1) * (len / l.n)) (setRed q s), none)
    | _, _ => (setRed q s, none)

/-- Work on held partials until none can go on or a digest check fails. -/
def workHeld (r : PlanEntry) (step : Nat) : Nat → State → State × Option Nat
  | 0, s => (s, none)
  | n + 1, s =>
    let k := (redOf r.redid step s).held.length
    let (s, bad) := workOne r step s
    if bad.isSome then (s, bad) else if (redOf r.redid step s).held.length = k then (s, none) else workHeld r step n s

/-- How many partials a reduction can hold and bring while it is worked on. -/
def workFuel (r : PlanEntry) (step : Nat) (s : State) : Nat :=
  ((redOf r.redid step s).held.length + 1) * ((levelsOf r s).length + 1)

/-! ### GATHER (R237) -/

/-- Take in elements of this package's own item: they land, and every axis starts them. -/
def ownItem (r : PlanEntry) (step : Nat) (p : Piece) (s : State) : State :=
  let ls := levelsOf r s
  let p := { p with lo := itemLo ls r.elems 0 + p.lo }
  checkEnd r step (gatherOn r step p (List.range ls.length) (landPiece r step p s))

/-- Take in elements of an item from a level: they land, go on round its ring with their LAST, and the later axes start them. -/
def takeItem (r : PlanEntry) (step : Nat) (p : Piece) (i : Nat) (last : Bool) (s : State) : State :=
  let s := landPiece r step p s
  let ls := levelsOf r s
  let s := match ls[i]? with
    | none => s
    | some l =>
      let src := p.lo / max 1 (itemSize ls r.elems i) % l.n
      if (l.pos + l.n - src) % l.n + 1 < l.n then sendElems 0x02 r (redOf r.redid step s) l p last s else s
  checkEnd r step (gatherOn r step p ((List.range ls.length).filter fun k => decide (i < k)) s)

/-! ### Breaches (R142, R240) -/

/-- Start this package's own contribution of a reduction: its elements are present at level 0 (R236). Answers as `workHeld` does. -/
def startOwn (r : PlanEntry) (step : Nat) (p : Piece) (s : State) : State × Option Nat :=
  let ls := levelsOf r s
  let q := redOf r.redid step s
  let s := setRed { q with have_ := q.have_ ++ [p] } s
  if r.kind = 5 then (ownItem r step p s, none)
  else if ls.isEmpty then (finishPiece r step { p with dig := digestAt r.kind step r.redid p.lo p.vals s } s, none)
  else workHeld r step (workFuel r step s) (sendRound0 r step 0 s)

/-- Withdraw a reduction (R142): its elements are cleared by ZERO, END is withdrawn; the contribution stays held unless its
senders run again. -/
def withdraw (r : PlanEntry) (step : Nat) (keep : Bool) (s : State) : State :=
  let q := redOf r.redid step s
  let n := elemSize r.kind * r.elems
  let s := match ptrCause .hub r.dst 0 n s with
    | some (a, k) => logAccess a .hub k s
    | none => ptrWrite (.stack 0) r.dst 0 (List.replicate n 0) s
  setRed { q with have_ := if keep then q.have_.filter fun p => p.level == 0 else [], held := [], sent := [], landed := [], pnf := false,
                  psat := false, endT := none, maxAbs := 0, scales := [], scaleSent := 0, own := 0, again := true } s

/-- Send a held contribution again (R142). -/
def resendOwn (r : PlanEntry) (step : Nat) (s : State) : State :=
  let q := redOf r.redid step s
  if r.kind = 5 then (q.have_.filter fun p => p.level == 0).foldl (fun s p => ownItem r step p s) s
  else if (levelsOf r s).isEmpty then q.have_.foldl (fun s p => finishPiece r step p s) s
  else sendRound0 r step 0 s

/-- Apply a breach of a step to this package (R142 steps 2 to 4): discard what the failed tasks or reductions reach, withdraw
those reductions, and send the held contributions again. -/
def applyBreach (step : Nat) (ts rs : List Nat) (s : State) : State :=
  match s.job.image with
  | none => s
  | some im =>
    let (ts', rs') := reach im ts rs
    let s := discardRuns step ts' s
    let s := discardRuns (step + 1) (reachNext im (ts', rs')).1 s
    (plan s).foldl (fun s r =>
      if rs'.contains r.redid then
        let again := im.tasks.any fun t => t.dtype == 5 && (decodeSend t.body).redid == r.redid && ts'.contains t.taskid
        let s := withdraw r step (!again) s
        if again then s else resendOwn r step s
      else s) s

/-- Round an amount of ns up to a whole µs. -/
def upMicro (n : Nat) : Nat := cdiv n 1000 * 1000

/-- A digest mismatch (R240): a breach of the reduction with Δ = DUR + 2 µs; the second on the same hop in the replay of the step
makes the sending package a failed package, which this package reports. -/
def redMismatch (r : PlanEntry) (step hop src : Nat) (s : State) : State :=
  let q := redOf r.redid step s
  let n := ((q.bad.find? fun x => x.1 == hop).map (·.2)).getD 0 + 1
  let s := setRed { q with bad := (hop, n) :: q.bad.filter fun x => x.1 != hop } s
  let s := sendNotice true step r.deadline (upMicro (r.dur + 2000)) 4 (logId s) 0 r.redid 0 s
  if 2 ≤ n then receiveFail src 4 (peerBcast 0x8020 step (failArgs src 4 step) s)
  else applyBreach step [] [r.redid] s

/-- The mismatch of a segment that completed at a level: on the hop from the position before (R239, R240). -/
def failedHop (r : PlanEntry) (step : Nat) (bad : Option Nat) (s : State) : State :=
  match bad with
  | none => s
  | some i =>
    match (levelsOf r s)[i]? with
    | some l => redMismatch r step i (prevPos l s) s
    | none => s

/-! ### What arrives -/

/-- The level whose axis a message travels. -/
def levelIdx (ls : List Level) (axis : Nat) : Option Nat := ls.findIdx? fun l => l.axis == axis

/-- A CONTRIB (R236, R239): check its digest, then hold it until this package's elements are there. -/
def recvContrib (r : PlanEntry) (m : Msg) (s : State) : State :=
  let vs := elemsOf r.kind m.payload
  match levelIdx (levelsOf r s) m.axis with
  | none => s
  | some i =>
    if digestAt r.kind m.step r.redid m.offset vs s ≠ m.digest then redMismatch r m.step i m.src s
    else
      let q := redOf r.redid m.step s
      let p : Piece := { level := i, lo := m.offset, vals := vs, dig := m.digest, pnf := m.pnf, psat := m.psat }
      let s := setRed { q with held := q.held ++ [p] } s
      let (s, bad) := workHeld r m.step (workFuel r m.step s) s
      failedHop r m.step bad s

/-- A RESULT (R236, R239): check its digest, land it, and send it on along the all-gather order. -/
def recvResult (r : PlanEntry) (m : Msg) (s : State) : State :=
  let vs := elemsOf r.kind m.payload
  let ls := levelsOf r s
  match levelIdx ls m.axis with
  | none => s
  | some i =>
    if digestAt r.kind m.step r.redid m.offset vs s ≠ m.digest then redMismatch r m.step i m.src s
    else
      let p : Piece := { level := i, lo := m.offset, vals := vs, dig := m.digest, pnf := m.pnf, psat := m.psat }
      if r.kind = 5 then takeItem r m.step p i m.last s
      else
        match ls[i]? with
        | none => s
        | some l =>
          let round := (l.pos + l.n - segOf ls i r.elems m.offset % l.n) % l.n
          let s := landPiece r m.step p s
          let s := if round + 3 ≤ l.n then sendElems 0x02 r (redOf r.redid m.step s) l p m.last s else s
          checkEnd r m.step (gatherOn r m.step p (List.range i) s)

/-- A SCALE (R241): a candidate from a position of an axis, sent on round the ring, or from a package of the peer set. -/
def recvScale (r : PlanEntry) (m : Msg) (s : State) : State :=
  let v := toSigned 16 (field m.payload 0 2)
  let ls := levelsOf r s
  let q := redOf r.redid m.step s
  if (peerPackages r s).contains m.src ∧ m.offset = m.src then
    checkEnd r m.step (runScale r m.step (setRed { q with scales := q.scales ++ [(ls.length, m.src, v)] } s))
  else
    match levelIdx ls m.axis with
    | none => s
    | some i =>
      match ls[i]? with
      | none => s
      | some l =>
        let s := setRed { q with scales := q.scales ++ [(i, m.offset, v)] } s
        let s := if (l.pos + l.n - m.offset % l.n) % l.n + 1 < l.n then
            sendLog { scaleMsg r q (nextPos l s) m.offset v s with digest := m.digest } s
          else s
        checkEnd r m.step (runScale r m.step s)

end Sys2Proof.Machine
end

