-- ==== Sys2Proof/Machine/Image.lean ====
section
/-! DEFINITION. The job image as bytes: container, sections, entries (R143, R144, R350 to R358) and what is reserved in them
(check 4 of Table 6.16). -/

namespace Sys2Proof.Machine

/-! ### Container (R143, R144) -/

/-- An entry of the section table (Table 6.5). -/
structure Sect where
  type : Nat
  count : Nat
  off : Nat
  len : Nat
  resv : Bool
  deriving DecidableEq, Repr

/-- The section table. -/
def sections (bs : Bytes) : List Sect :=
  (List.range (field bs 12 4)).map fun i =>
    let o := 64 + 32 * i
    { type := field bs o 4, count := field bs (o + 4) 4, off := field bs (o + 8) 8, len := field bs (o + 16) 8,
      resv := !allZero bs (o + 24) 8 }

/-- The section of a type. -/
def sectOf (type : Nat) (bs : Bytes) : Option Sect := (sections bs).find? fun t => t.type == type

/-- Cut a byte string into `n` entries whose sizes `size` reads from their start; none unless they fill it exactly (R358). -/
def cutEntries (size : Bytes → Option Nat) : Nat → Bytes → Option (List Bytes)
  | 0, bs => if bs.isEmpty then some [] else none
  | n + 1, bs =>
    match size bs with
    | none => none
    | some k => if bs.length < k then none else (cutEntries size n (bs.drop k)).map fun r => bs.take k :: r

/-- `n` rounded up to a multiple of `k`. -/
def upTo (k n : Nat) : Nat := cdiv n k * k

/-- The size of the entry at the start of a byte string, for a section type (R350 to R356). -/
def entrySize (type : Nat) (bs : Bytes) : Option Nat :=
  match type with
  | 0x01 => some 64
  | 0x02 => if bs.length < 64 then none else some (if field bs 60 1 = 4 ∨ field bs 60 1 = 5 then 128 else 320)
  | 0x03 => if bs.length < 16 then none else some (16 + upTo 16 (4 * field bs 2 2))
  | 0x04 => some 64
  | 0x05 => some 16
  | 0x06 => if bs.length < 4 then none else some (4 + 4 * field bs 0 4)
  | 0x07 => some 64
  | 0x08 => if bs.length < 32 then none else some (32 + upTo 32 (field bs 8 8))
  | 0x09 => if bs.length < 32 then none else some (32 + upTo 32 (field bs 8 8))
  | 0x0A => if bs.length < 32 then none else some (32 + upTo 32 (field bs 8 8))
  | 0x0B => some 32
  | 0x0C => some 512
  | 0x0D => some 48
  | _ => none

/-- The entries of a section; a section that the image does not hold has none. -/
def entriesOf (type : Nat) (bs : Bytes) : Option (List Bytes) :=
  match sectOf type bs with
  | none => some []
  | some t => cutEntries (entrySize type) t.count ((bs.drop t.off).take t.len)

/-- The entries of a section that check 1 has passed. -/
def entries (type : Nat) (bs : Bytes) : List Bytes := (entriesOf type bs).getD []

/-- Strictly ascending keys. -/
def rising : List Nat → Bool
  | [] => true
  | [_] => true
  | a :: b :: r => decide (a < b) && rising (b :: r)

/-- Ascending keys. -/
def nonFalling : List Nat → Bool
  | [] => true
  | [_] => true
  | a :: b :: r => decide (a ≤ b) && nonFalling (b :: r)

/-- Whether the entries of equal key lie together. -/
def grouped : List Nat → Bool
  | [] => true
  | [_] => true
  | a :: b :: r => (a == b || !(b :: r).contains a) && grouped (b :: r)

/-- The order that a section's layout requires (R350 to R356): ascending keys, and task records grouped by unit and stream. -/
def orderOk (type : Nat) (es : List Bytes) : Bool :=
  match type with
  | 0x01 => rising (es.map fun e => field e 0 4 * 256 + field e 4 1)
  | 0x02 => grouped (es.map fun e => field e 6 2 * 256 + field e 4 1)
  | 0x03 => rising (es.map fun e => field e 0 2)
  | 0x04 => rising (es.map fun e => field e 0 4)
  | 0x05 => rising (es.map fun e => field e 0 4)
  | 0x07 => nonFalling (es.map fun e => field e 0 4)
  | 0x0B => rising (es.map fun e => field e 0 2)
  | 0x0C => decide (es.length = 1)
  | _ => true

/-- Whether two sections share a byte. -/
def sectOverlap (a b : Sect) : Bool := decide (a.off < b.off + b.len) && decide (b.off < a.off + a.len)

/-- Whether no two of a list of sections overlap. -/
def noOverlap : List Sect → Bool
  | [] => true
  | a :: r => r.all (fun b => !sectOverlap a b) && noOverlap r

/-- Check 1: the container (R143, R144, R358). -/
def check1 (bs : Bytes) : Bool :=
  let n := field bs 12 4
  let ts := sections bs
  decide (64 ≤ bs.length) && bs.take 8 == ascii "BNLJOB03" && field bs 8 2 == 3 && decide (1 ≤ n ∧ n ≤ 64) &&
    field bs 16 8 == bs.length && decide (64 + 32 * n ≤ bs.length) &&
    ts.all (fun t => decide (1 ≤ t.type ∧ t.type ≤ 13 ∧ 64 + 32 * n ≤ t.off ∧ t.off + t.len ≤ bs.length)) &&
    (ts.map (·.type)).eraseDups.length == n && noOverlap ts &&
    (match ts.getLast? with
     | some t => t.type == 0x0D && t.count == 1 && t.len == 48 && t.off + 48 == bs.length
     | none => false) &&
    ts.all fun t => match entriesOf t.type bs with
      | some es => orderOk t.type es
      | none => false

/-! ### The entries (R350 to R355) -/

/-- Read a tensor-table entry (Table 6.17). -/
def decodeTensor (e : Bytes) : TensorEntry :=
  { tensor := field e 0 4, skind := field e 4 1, cls := field e 5 1, flags := field e 6 1, base := field e 8 8, length := field e 16 8,
    dim0 := field e 24 4, dim1 := field e 28 4, unit := field e 32 2, stack := field e 34 1 }

/-- Read a wait entry (Table 6.2). -/
def decodeWait (v : Nat) : WaitEntry := { lag := bit v 31, commit := bit v 30, token := v % 2 ^ 30 }

/-- Read a task record (Table 6.1). -/
def decodeTask (e : Bytes) : TaskRec :=
  { taskid := field e 0 4, stream := field e 4 1, flags := field e 5 1, unit := field e 6 2, start := field e 8 8,
    deadline := field e 16 8, waits := (List.range 8).map fun i => decodeWait (field e (24 + 4 * i) 4), issue := field e 56 4,
    dtype := field e 60 1, body := e.drop 64 }

/-- Read a peer set (Table 6.19). -/
def decodePeers (e : Bytes) : PeerSet :=
  { pset := field e 0 2, owner := field e 4 2,
    holders := (List.range (field e 2 2)).map fun i => (bits (field e (16 + 4 * i) 2) 12 0, field e (18 + 4 * i) 1) }

/-- Read a plan entry (Table 6.20). -/
def decodePlan (e : Bytes) : PlanEntry :=
  { redid := field e 0 4, kind := field e 4 1, axes := field e 5 1, peers := field e 6 2, elems := field e 8 4, cslot := field e 12 4,
    src := field e 16 8, dst := field e 24 8, token := field e 32 4, deadline := field e 40 8, dur := field e 48 8 }

/-- Read a contract slot (Table 6.23). -/
def decodeContract (e : Bytes) : ContractSlot :=
  { cslot := field e 0 4, tensor := field e 4 4, scale := toSigned 16 (field e 8 2), h := field e 10 1, nb := field e 12 4 }

/-- Read a payload entry (Table 6.24). -/
def decodePayload (e : Bytes) : Payload :=
  { tensor := field e 0 4, skind := field e 4 1, dest := field e 16 8, data := (e.drop 32).take (field e 8 8) }

/-- Read a queue entry (Table 6.21). -/
def decodeQueue (e : Bytes) : QueueEntry :=
  { queue := field e 0 2, depth := field e 2 2, esize := field e 4 4, prod := field e 8 4, cons := field e 12 4, ring := field e 16 8,
    remote := field e 24 2 }

/-- A window record as the levee stores it: with OPEN = 0 every field is zero (R212). -/
def storedWindow (w : Window) : Window := if w.isOpen then w else Window.closed

/-- Read the MAPPING record (Table 6.22). -/
def decodeMapping (e : Bytes) : Mapping :=
  { lx := field e 0 2, ly := field e 2 2, lz := field e 4 2, txfull := field e 6 1, vstage := field e 7 1, nl := field e 8 4,
    nb := field e 12 4, rings := field e 16 1, ckbytes := field e 24 8, policy := field e 32 4, dielinks := field e 40 8,
    fabports := field e 48 1, farports := field e 49 1, hostports := field e 50 1,
    windows := (List.range 8).map fun i => storedWindow (decodeWindow (slice e (56 + 32 * i) 32)).2 }

/-- Read an image that check 1 has passed. -/
def decodeImage (bs : Bytes) : JobImage :=
  { target := field bs 10 2, seed := field bs 24 8, period := field bs 32 8, step0 := field bs 40 4, spikef := field bs 44 2,
    spkact := field bs 46 1, nloss := field bs 48 4, tensors := (entries 0x01 bs).map decodeTensor,
    tasks := (entries 0x02 bs).map decodeTask, peers := (entries 0x03 bs).map decodePeers, plan := (entries 0x04 bs).map decodePlan,
    contracts := (entries 0x05 bs).map decodeContract,
    lrtables := (entries 0x06 bs).map fun e => (List.range (field e 0 4)).map fun i => BitVec.ofNat 32 (field e (4 + 4 * i) 4),
    optrecs := (entries 0x07 bs).map decodeOpt, init := (entries 0x08 bs).map decodePayload,
    chanlist := (entries 0x09 bs).map decodePayload, berm := (entries 0x0A bs).map decodePayload,
    queues := (entries 0x0B bs).map decodeQueue, mapping := decodeMapping ((entries 0x0C bs).headD []),
    digest := bs.drop (bs.length - 48) }

/-! ### Check 4: reserved fields and encodings (R7, R358)

A number outside the range that a table states, where the table does not mark it reserved, fails no check of Table 6.16 (log entry 41). -/

/-- Reserved in the header and the section table. -/
def headReserved (bs : Bytes) : Bool :=
  !allZero bs 47 1 || !allZero bs 52 12 || decide (1 < field bs 46 1) || (sections bs).any (·.resv)

/-- Reserved in a tensor-table entry. -/
def tensorReserved (e : Bytes) : Bool :=
  let sk := field e 4 1
  let p := field e 8 8
  sk == 0 || decide (0x1D < sk) || decide (7 < field e 5 1) || decide (1 < field e 6 1) || !allZero e 7 1 || !allZero e 35 29 ||
    ptrReserved p || bits p 63 60 == 0 || decide (2 ^ 30 ≤ field e 0 4) || (bits p 63 60 == 2 && bit (field e 32 2) 15)

/-- Reserved in a GEMM body (Tables 6.7, 6.8). -/
def gemmReserved (b : Bytes) : Bool :=
  let g := decodeGemm b
  decide (3 < g.kind) || decide (5 < g.target) || g.roto == 3 || bit g.mode 11 || decide (4 < g.scap) ||
    (decide (g.kind < 3) && (g.theta == 0 || g.theta == 1 || g.theta == 7)) || decide (5 < g.mxa) || decide (5 < g.mxb) ||
    decide (5 < g.mxo) || !allZero b 50 14 || !allZero b 200 56 || g.ptrs.any ptrReserved

/-- Whether a byte is an operation code of Table 6.29. -/
def isVecOp (op : Nat) : Bool :=
  (decide (1 ≤ op) && decide (op ≤ 9)) || (decide (0x11 ≤ op) && decide (op ≤ 0x19)) || (decide (0x20 ≤ op) && decide (op ≤ 0x25)) ||
    op == 0x30 || op == 0x40

/-- Reserved in a VECTOR body (Tables 6.28, 6.29). -/
def vecReserved (b : Bytes) : Bool :=
  let v := decodeVec b
  !allZero b 13 1 || !allZero b 100 4 || !allZero b 112 16 ||
    ([v.src, v.src2, v.dst, v.stash, v.stscl, v.rowsc, v.param1, v.param2, v.grad, v.loss].any ptrReserved) ||
    !allZero b (128 + 16 * min v.nops 8) (128 - 16 * min v.nops 8) ||
    (List.range (min v.nops 8)).any fun i =>
      let o := 128 + 16 * i
      !isVecOp (field b o 1) || decide (7 < field b (o + 1) 1) || !allZero b (o + 2) 2 || !allZero b (o + 8) 8

/-- Reserved in an UPDATE body (Table 6.27). -/
def updReserved (b : Bytes) : Bool :=
  let u := decodeUpd b
  !allZero b 14 2 || !allZero b 60 4 || !allZero b 152 104 ||
    [u.optrec, u.master, u.mom1, u.mom2, u.rbuf, u.uses, u.codes, u.side, u.ext, u.dir, u.chan, u.counts, u.bermu, u.bermv, u.seed,
      u.tctl].any ptrReserved

/-- Reserved in a MOVE body (Table 6.25). -/
def moveReserved (b : Bytes) : Bool :=
  !allZero b 26 38 || decide (3 < field b 24 1) || decide (1 < field b 25 1) || ptrReserved (field b 0 8) || ptrReserved (field b 8 8)

/-- Reserved in a SEND body (Table 6.26). -/
def sendReserved (b : Bytes) : Bool := !allZero b 24 40 || ptrReserved (field b 0 8)

/-- Reserved in a task record (Table 6.1, R150, R353, R356). -/
def taskReserved (e : Bytes) : Bool :=
  let st := field e 4 1
  let unit := field e 6 2
  let b := e.drop 64
  decide (2 < st) || decide (3 < field e 5 1) || !allZero e 61 3 || (if st = 2 then decide (31 < unit) else bit unit 15) ||
    field e 0 4 == 0xFFFFFFF0 || field e 0 4 == 0xFFFFFFF1 ||
    (match field e 60 1 with
     | 1 => gemmReserved b
     | 2 => vecReserved b
     | 3 => updReserved b
     | 4 => moveReserved b
     | 5 => sendReserved b
     | _ => true)

/-- Whether the bytes that pad an entry from an offset on are not all zero (R351, R355). -/
def padded (e : Bytes) (o : Nat) : Bool := !(e.drop o).all (· == 0)

/-- Reserved in a peer-set entry. -/
def peersReserved (e : Bytes) : Bool :=
  let n := field e 2 2
  !allZero e 6 10 || padded e (16 + 4 * n) || (List.range n).any fun i => decide (31 < field e (17 + 4 * i) 1) || field e (19 + 4 * i) 1 != 0

/-- Reserved in a plan entry. -/
def planReserved (e : Bytes) : Bool :=
  let r := decodePlan e
  decide (5 < r.kind) || decide (2 < r.axes) || !allZero e 36 4 || !allZero e 56 8 || ptrReserved r.src || ptrReserved r.dst

/-- Reserved in a contract slot. -/
def contractReserved (e : Bytes) : Bool :=
  decide (15 < (decodeContract e).h) || !allZero e 11 1

/-- Reserved in an optimizer record (Table 5.5). -/
def optReserved (e : Bytes) : Bool :=
  decide (2 ^ 30 ≤ field e 0 4) || decide (3 < field e 4 1) || decide (1 < field e 5 1) || !allZero e 6 2 || !allZero e 48 16

/-- Reserved in a payload entry of INIT, CHANLIST or BERM. -/
def payloadReserved (type : Nat) (e : Bytes) : Bool :=
  let sk := field e 4 1
  let kinds := match type with
    | 0x08 => [0x15, 0x16, 0x17]
    | 0x09 => [0x07]
    | _ => [0x09, 0x0A]
  !kinds.contains sk || padded e (32 + field e 8 8) || !allZero e 5 3 || !allZero e 24 8 || ptrReserved (field e 16 8) ||
    bits (field e 16 8) 63 60 != 1

/-- Reserved in a queue entry. -/
def queueReserved (e : Bytes) : Bool :=
  !allZero e 26 6 || ptrReserved (decodeQueue e).ring

/-- Reserved in a window record (Table 8.7, R212); WIN above 7 is a value outside its stated range, and no reserved one. -/
def windowReserved (b : Bytes) : Bool :=
  decide (31 < field b 1 1) || !allZero b 4 4 || !allZero b 28 4 ||
    (bit (field b 1 1) 0 && (field b 2 2 == 0 || decide (60000 < field b 2 2)))

/-- Reserved in the MAPPING record. -/
def mappingReserved (e : Bytes) : Bool :=
  decide (1 < field e 6 1) || decide (7 < field e 16 1) || !allZero e 17 7 || !allZero e 36 4 || decide (2 ^ 41 ≤ field e 40 8) ||
    decide (63 < field e 48 1) || decide (3 < field e 49 1) || decide (3 < field e 50 1) || !allZero e 51 5 || !allZero e 312 200 ||
    (List.range 8).any fun i => windowReserved (slice e (56 + 32 * i) 32)

/-- Check 4. -/
def check4 (bs : Bytes) : Bool :=
  !(headReserved bs || (entries 0x01 bs).any tensorReserved || (entries 0x02 bs).any taskReserved ||
    (entries 0x03 bs).any peersReserved || (entries 0x04 bs).any planReserved || (entries 0x05 bs).any contractReserved ||
    (entries 0x07 bs).any optReserved || (entries 0x08 bs).any (payloadReserved 0x08) || (entries 0x09 bs).any (payloadReserved 0x09) ||
    (entries 0x0A bs).any (payloadReserved 0x0A) || (entries 0x0B bs).any queueReserved || (entries 0x0C bs).any mappingReserved)

end Sys2Proof.Machine
end

