-- ==== Sys2Proof/Machine/Streams.lean ====
section
/-! DEFINITION. Where a task's streams lie: the tensor-table entry of a pointer, the offset that a share selects (R29, R30, R35,
R42, R44, R149), and the byte ranges that a task reads and writes (R141). -/

namespace Sys2Proof.Machine

/-- The address or core-store offset of a pointer field. -/
def ptrAddr (v : Nat) : Nat := bits v 51 0

/-- The space of a pointer field. -/
def ptrSpace (v : Nat) : Nat := bits v 63 60

/-- Whether a pointer of a task unit lies inside a tensor-table entry; core stores are told apart by their core. -/
def inEntry (unit v : Nat) (e : TensorEntry) : Bool :=
  ptrSpace v == ptrSpace e.base && decide (ptrAddr e.base ≤ ptrAddr v) && decide (ptrAddr v < ptrAddr e.base + e.length) &&
    (ptrSpace v != 2 || bits unit 11 0 == bits e.unit 11 0)

/-- The entry of some stream kind that a pointer lies in. -/
def entryOf (im : JobImage) (unit v : Nat) (kinds : List Nat) : Option TensorEntry :=
  im.tensors.find? fun e => kinds.contains e.skind && inEntry unit v e

/-- The entry of a tensor and a stream kind. -/
def entryFor (im : JobImage) (tensor skind : Nat) : Option TensorEntry :=
  im.tensors.find? fun e => e.tensor == tensor && e.skind == skind

/-- N of a weight tensor: the second extent of its code stream. -/
def weightN (im : JobImage) (tensor : Nat) : Nat := ((entryFor im tensor 0x03).map (·.dim1)).getD 0

/-- K of a weight tensor. -/
def weightK (im : JobImage) (tensor : Nat) : Nat := ((entryFor im tensor 0x03).map (·.dim0)).getD 0

/-- The elements in a row of the stream that a pointer lies in; `d` where the tensor table has no entry for it. -/
def pitchOf (im : JobImage) (unit v : Nat) (kinds : List Nat) (d : Nat) : Nat :=
  ((entryOf im unit v kinds).map (·.dim1)).getD d

/-! ### The pointers of a GEMM body (R149) -/

/-- The stream kinds that the pointer field of a place in Table 6.7 names, and whether the stream belongs to the descriptor's
own tensor. -/
def gemmKinds (g : Gemm) : Nat → List Nat × Bool
  | 0 => (if g.kind = 2 then [0x0E] else if g.kind = 3 then [0x19] else [0x01], false)
  | 1 => (if g.kind = 2 then [0x0F] else [0x1A], false)
  | 2 => ([0x02], false)
  | 3 => if g.kind = 2 then ([0x01, 0x0D], false) else if g.kind = 3 then ([0x19], false) else ([0x03], true)
  | 4 => if g.kind = 3 then ([0x1A], false) else ([0x04], true)
  | 5 => ([0x05], true)
  | 6 => ([0x06], true)
  | 7 => ([0x07], true)
  | 8 => ([0x08], false)
  | 9 => ([0x09], true)
  | 10 => ([0x0A], true)
  | 11 => ([0x0C], false)
  | 12 => (if g.kind = 2 then [0x13] else if g.target = 3 ∨ g.target = 4 then [0x0E] else if g.target = 5 then [0x19]
           else [0x01, 0x0D], false)
  | 13 => ([0x0E], false)
  | 14 => ([0x0F], false)
  | 15 => ([0x11], false)
  | _ => ([0x12], true)

/-- The index of the first tile of the share: row tile 16 × KB0 and column tile COL0 / 16 in forward, and the roles exchanged when
the tiles are read transposed (R30, R37). -/
def firstTile (g : Gemm) (n : Nat) : Nat :=
  if g.kind = 1 then g.col0 / 16 * (n / 16) + 16 * g.kb0 else 16 * g.kb0 * (n / 16) + g.col0 / 16

/-- The group of 32 elements, in rows of `w` elements, that holds row `m` and column `k` (R29, R44). -/
def groupAt (w m k : Nat) : Nat := m * (w / 32) + k / 32

/-- The offset in its stream at which the pointer field of a place starts (R149); none for a stream that no share selects. `w` is
the row length of the stream's entry. -/
def gemmOffset (im : JobImage) (g : Gemm) (w : Nat) : Nat → Option Nat
  | 0 => if g.kind = 2 then some (32 * groupAt w (256 * g.kb0) g.row0) else none
  | 1 => if g.kind = 2 then some (4 * groupAt w (256 * g.kb0) g.row0) else none
  | 3 => if g.kind < 2 then some (tileOffset (firstTile g (weightN im g.tensor))) else none
  | 4 => if g.kind < 2 then some (sideOffset (firstTile g (weightN im g.tensor))) else none
  | 8 => some (2 * g.cap * (g.row0 * (g.ktot / 256) + g.kb0))
  | 12 =>
    if g.target = 3 ∨ g.target = 4 then some (32 * groupAt w g.row0 g.col0)
    else if g.target = 2 then some (16 * groupAt w g.row0 g.col0) else none
  | 13 => some (32 * groupAt g.ktot g.row0 (256 * g.kb0))
  | 14 =>
    if g.target = 3 ∨ g.target = 4 then some (4 * groupAt w g.row0 g.col0) else some (4 * groupAt g.ktot g.row0 (256 * g.kb0))
  | _ => none

/-- Whether the pointer field of a place passes check 7: absent or in a core store, or inside its entry and at the offset that the
share selects. -/
def gemmPtrOk (im : JobImage) (t : TaskRec) (g : Gemm) (i : Nat) : Bool :=
  let v := g.ptrs.getD i 0
  if ptrSpace v ≠ 1 then true
  else
    let (kinds, own) := gemmKinds g i
    im.tensors.any fun e => kinds.contains e.skind && (!own || e.tensor == g.tensor) && inEntry t.unit v e &&
      (match gemmOffset im g e.dim1 i with
       | some o => ptrAddr v == ptrAddr e.base + o
       | none => true)

/-! ### Byte ranges (R141) -/

/-- A rectangle of bytes: a space, a core for space 2, the first byte, the distance between rows, rows and bytes in a row. -/
structure Rect where
  space : Nat
  core : Nat
  base : Nat
  pitch : Nat
  rows : Nat
  width : Nat

/-- The rectangle of a pointer; none where the pointer is absent. -/
def rectOf (unit v pitch rows width : Nat) : List Rect :=
  if ptrSpace v = 0 then []
  else [{ space := ptrSpace v, core := if ptrSpace v = 2 then bits unit 11 0 else 0, base := ptrAddr v, pitch := pitch, rows := rows, width := width }]

/-- The rest of the entry that a pointer lies in. -/
def rectRest (im : JobImage) (unit v : Nat) (kinds : List Nat) : List Rect :=
  match entryOf im unit v kinds with
  | none => []
  | some e => rectOf unit v 0 1 (ptrAddr e.base + e.length - ptrAddr v)

/-- Whether two rectangles share a byte. -/
def rectHit (a b : Rect) : Bool :=
  a.space == b.space && a.core == b.core &&
    (List.range a.rows).any fun i => (List.range b.rows).any fun j =>
      decide (a.base + i * a.pitch < b.base + j * b.pitch + b.width) && decide (b.base + j * b.pitch < a.base + i * a.pitch + a.width)

/-- The streams that a GEMM task reads. -/
def gemmReads (im : JobImage) (t : TaskRec) (g : Gemm) : List Rect :=
  let u := t.unit
  let n := weightN im g.tensor
  let rest := fun i => rectRest im u (g.ptrs.getD i 0) (gemmKinds g i).1
  match g.kind with
  | 2 =>
    let w := pitchOf im u g.asrc [0x0E] g.rows
    rectOf u g.asrc w (256 * g.kbn) g.rows ++ rectOf u g.ascl (w / 8) (256 * g.kbn) (g.rows / 8) ++
      rectOf u g.bsrc (4 * pitchOf im u g.bsrc [0x01, 0x0D] g.cols) (256 * g.kbn) (4 * g.cols)
  | 3 => rest 0 ++ rest 1 ++ rest 3 ++ rest 4 ++ rest 11
  | _ =>
    let tiles := if g.kind = 1 then rectOf u g.bsrc (128 * (n / 16)) (g.cols / 16) (128 * 16 * g.kbn)
      else rectOf u g.bsrc (128 * (n / 16)) (16 * g.kbn) (128 * (g.cols / 16))
    rectOf u g.asrc (4 * pitchOf im u g.asrc [0x01] g.ktot) g.rows (1024 * g.kbn) ++ tiles ++ rest 4 ++ rest 5 ++ rest 6 ++ rest 7 ++
      rest 9 ++ rest 10 ++ rest 11 ++ rest 16

/-- The streams that a GEMM task writes. -/
def gemmWrites (im : JobImage) (t : TaskRec) (g : Gemm) : List Rect :=
  let u := t.unit
  let w := pitchOf im u g.out (gemmKinds g 12).1 g.cols
  let out := match g.kind, g.target with
    | 2, _ => rectOf u g.out (4 * w) g.rows (4 * g.cols)
    | _, 0 => rectOf u g.out (2 * w) g.rows (2 * g.cols)
    | _, 1 => rectOf u g.out (4 * w) g.rows (4 * g.cols)
    | _, 2 => rectOf u g.out (w / 2) g.rows (g.cols / 2)
    | _, 5 => rectRest im u g.out [0x19]
    | _, _ => rectOf u g.out w g.rows g.cols ++ rectOf u g.stscl (w / 8) g.rows (g.cols / 8)
  out ++ (if ptrSpace g.stash = 0 then [] else
    rectOf u g.stash g.ktot g.rows (256 * g.kbn) ++ rectOf u g.stscl (g.ktot / 8) g.rows (32 * g.kbn))

/-- Whether a vector operation reads the saved stash: the derivatives, the backward norms, the backward soft-maximum. -/
def vecBackward (op : Nat) : Bool := (decide (0x11 ≤ op) && decide (op ≤ 0x19)) || op == 0x21 || op == 0x23 || op == 0x25

/-- What a task reads. -/
def taskReads (im : JobImage) (t : TaskRec) : List Rect :=
  let u := t.unit
  match t.dtype with
  | 1 => gemmReads im t (decodeGemm t.body)
  | 2 =>
    let v := decodeVec t.body
    let w := fun p => pitchOf im u p [0x01, 0x0D] v.cols
    let back := v.ops.any fun o => vecBackward o.op
    rectOf u v.src (4 * w v.src) v.rows (4 * v.cols) ++ rectOf u v.src2 (4 * w v.src2) v.rows (4 * v.cols) ++
      rectOf u v.param1 0 1 (2 * v.cols) ++ rectOf u v.param2 0 1 (2 * v.cols) ++
      (if back then rectRest im u v.stash [0x0E] ++ rectRest im u v.stscl [0x0F] ++ rectOf u v.rowsc 4 v.rows 4 else [])
  | 3 =>
    let d := decodeUpd t.body
    rectOf u d.optrec 0 1 64 ++ rectOf u d.master 0 1 (2 * d.count) ++ rectOf u d.mom1 0 1 (2 * d.count) ++
      rectOf u d.mom2 0 1 (2 * d.count) ++ rectOf u d.rbuf 0 1 (4 * d.count) ++ rectOf u d.uses 0 1 (16 * d.nuses) ++
      rectRest im u d.chan [0x07] ++ rectRest im u d.counts [0x1D] ++ rectRest im u d.bermv [0x0A]
  | 4 => let m := decodeMove t.body; rectOf u m.src 0 1 m.length
  | _ => let b := decodeSend t.body; rectOf u b.buf 0 1 (4 * (b.first + b.count))

/-- What a task writes. -/
def taskWrites (im : JobImage) (t : TaskRec) : List Rect :=
  let u := t.unit
  match t.dtype with
  | 1 => gemmWrites im t (decodeGemm t.body)
  | 2 =>
    let v := decodeVec t.body
    let w := fun p => pitchOf im u p [0x01, 0x0D] v.cols
    let fwd := !(v.ops.any fun o => vecBackward o.op)
    let rows := if v.ops.any fun o => o.gated && decide (0x11 ≤ o.op) then 2 * v.rows else v.rows
    rectOf u v.dst (4 * w v.dst) rows (4 * v.cols) ++
      (if fwd then rectRest im u v.stash [0x0E] ++ rectRest im u v.stscl [0x0F] ++ rectOf u v.rowsc 4 v.rows 4 else []) ++
      rectRest im u v.grad [0x13] ++ rectOf u v.loss 4 v.rows 4
  | 3 =>
    let d := decodeUpd t.body
    rectOf u d.optrec 0 1 64 ++ rectOf u d.master 0 1 (2 * d.count) ++ rectOf u d.mom1 0 1 (2 * d.count) ++
      rectOf u d.mom2 0 1 (2 * d.count) ++ rectRest im u d.seed [0x0B] ++ rectRest im u d.codes [0x03] ++ rectRest im u d.side [0x04] ++ rectRest im u d.ext [0x05] ++ rectRest im u d.dir [0x06] ++
      rectRest im u d.chan [0x07] ++ rectRest im u d.bermu [0x09] ++ rectRest im u d.bermv [0x0A] ++ rectRest im u d.tctl [0x12]
  | 4 => let m := decodeMove t.body; rectOf u m.dst 0 1 m.length
  | _ => []

/-! ### Pointers of the other bodies -/

/-- The pointers of a task's body with the stream kinds they name; an empty list of kinds admits every kind. -/
def bodyPtrs (t : TaskRec) : List (Nat × List Nat) :=
  match t.dtype with
  | 1 => let g := decodeGemm t.body; (List.range 17).map fun i => (g.ptrs.getD i 0, (gemmKinds g i).1)
  | 2 =>
    let v := decodeVec t.body
    [(v.src, [0x01, 0x0D]), (v.src2, []), (v.dst, [0x01, 0x0D]), (v.stash, [0x0E]), (v.stscl, [0x0F]), (v.rowsc, [0x10]),
      (v.param1, []), (v.param2, []), (v.grad, [0x13]), (v.loss, [0x1C])]
  | 3 =>
    let u := decodeUpd t.body
    [(u.optrec, [0x18]), (u.master, [0x15]), (u.mom1, [0x16]), (u.mom2, [0x17]), (u.rbuf, [0x14]), (u.codes, [0x03]), (u.side, [0x04]),
      (u.ext, [0x05]), (u.dir, [0x06]), (u.chan, [0x07]), (u.counts, [0x1D]), (u.bermu, [0x09]), (u.bermv, [0x0A]), (u.seed, [0x0B]),
      (u.tctl, [0x12])]
  | 4 => let m := decodeMove t.body; [(m.src, []), (m.dst, [])]
  | _ => let b := decodeSend t.body; [(b.buf, [])]

/-- Whether a pointer of space 1 lies inside an entry of one of its stream kinds. -/
def ptrInside (im : JobImage) (unit : Nat) (p : Nat × List Nat) : Bool :=
  ptrSpace p.1 != 1 || im.tensors.any fun e => (p.2.isEmpty || p.2.contains e.skind) && inEntry unit p.1 e

end Sys2Proof.Machine
end

