-- ==== Sys2Proof/Machine/ImageChecks.lean ====
section
/-! DEFINITION. The checks of Table 6.16 at load, in ascending index (R145). -/

namespace Sys2Proof.Machine

/-- What JOB_LOAD names beside the image: the coordinate, the job tag, the neighbours at the six ports. -/
structure LoadArgs where
  x : Nat
  y : Nat
  z : Nat
  tag : Nat
  neigh : List Nat

/-- The GEMM bodies of an image. -/
def gemms (im : JobImage) : List Gemm := (im.tasks.filter fun t => t.dtype == 1).map fun t => decodeGemm t.body

/-! ### Check 5: combinations (R146, R148, Table 6.9) -/

/-- The places in Table 6.7 of the pointer fields that a KIND requires. -/
def gemmRequired (g : Gemm) : List Nat :=
  (match g.kind with
   | 2 => [0, 1, 2, 3, 12]
   | 3 => [0, 1, 3, 4, 12]
   | _ => [0, 2, 3, 4, 5, 6, 12, 16]) ++
    (if g.scap = 0 then [] else [7, 8]) ++ (if g.rankCode = 0 then [] else [9, 10]) ++ (if g.peers = 0 then [] else [15]) ++
    (if g.target = 3 ∨ g.target = 4 then [14] else []) ++ (if g.stash = 0 then [] else [14])

/-- The places that a KIND may use beside. -/
def gemmOptional (g : Gemm) : List Nat :=
  match g.kind with
  | 0 => [11, 13]
  | 2 => []
  | _ => [11]

/-- Whether a GEMM body is combined as its KIND requires. -/
def gemmCombined (g : Gemm) : Bool :=
  let req := gemmRequired g
  let opt := gemmOptional g
  ((List.range 17).all fun i => if g.ptrs.getD i 0 = 0 then !req.contains i else req.contains i || opt.contains i) &&
    !((g.target == 3 || g.target == 4) && g.stash != 0) &&
    g.row0 % 32 == 0 && g.rows != 0 && g.rows % 32 == 0 && g.col0 % 16 == 0 && g.cols != 0 && g.cols % 16 == 0 &&
    (g.kind == 2) == (g.cslot != 0) && (g.uns || g.zpt == 0) &&
    (match g.kind with
     | 3 => g.mode == 0 && g.peers == 0 && (g.target == 0 || g.target == 1 || g.target == 5) && (g.target == 5 || g.mxo == 0)
     | _ =>
       g.mxa == 0 && g.mxb == 0 && g.mxo == 0 && g.target != 5 &&
         (match g.kind with
          | 0 => !g.orot
          | 1 => g.orot == (g.roto != 0)
          | _ =>
            g.roto == 0 && !g.orot && g.scap == 0 && g.rankCode == 0 && g.target == 0 && g.osc == 0 && g.clo == 0 && g.chi == 0))

/-- Whether a VECTOR body leaves absent the pointers that none of its operations uses (R356; log entry 72). -/
def vecCombined (v : VecBody) : Bool :=
  let has := fun (f : Nat → Bool) => v.ops.any fun o => f o.op
  let back := has vecBackward
  let stashes := back || v.ops.any (·.stashOut)
  let row := has fun o => (decide (0x20 ≤ o) && decide (o ≤ 0x25)) || o == 0x40
  (v.src2 == 0 || back || v.ops.any (·.gated) || has (· == 0x30)) && ((v.stash == 0 && v.stscl == 0) || stashes) &&
    (v.rowsc == 0 || row) && (v.param2 == 0 || has fun o => o == 0x20 || o == 0x21) && (v.grad == 0 || back) &&
    (v.loss == 0 || has (· == 0x40))

/-- Whether an UPDATE body leaves absent the pointers that its tensor does not use (Table 6.27, R356; log entry 72). -/
def updCombined (im : JobImage) (u : UpdBody) : Bool :=
  let opt := ((im.optrecs.find? fun o => o.tensor == u.tensor).map (·.opt)).getD 0
  let spills := (gemms im).any fun g => decide (g.kind < 2) && g.tensor == u.tensor && g.scap != 0
  (u.mom2 == 0 || opt == 2) && (if u.nuses = 0 then u.uses == 0 else u.rbuf == 0) && ((u.chan == 0 && u.counts == 0) || spills) &&
    (u.codes != 0 || (u.side == 0 && u.ext == 0 && u.dir == 0 && u.tctl == 0)) && (u.bermu != 0 || (u.bermv == 0 && u.seed == 0))

/-- Check 5. -/
def check5 (im : JobImage) : Bool :=
  im.tasks.all fun t =>
    match t.dtype with
    | 1 => gemmCombined (decodeGemm t.body)
    | 2 => vecCombined (decodeVec t.body)
    | 3 => updCombined im (decodeUpd t.body)
    | _ => true

/-! ### Check 6: reduction ranges (R52, R70) -/

/-- Whether a reduction range starts and ends on reduction-block boundaries inside the axis, and an MX product is whole. -/
def rangeOk (g : Gemm) : Bool :=
  g.ktot != 0 && g.ktot % 256 == 0 && g.kbn != 0 && decide (g.kb0 + g.kbn ≤ g.ktot / 256) &&
    (g.kind != 3 || (g.kb0 == 0 && g.kbn == g.ktot / 256))

/-! ### Check 7: what the fields name (R100, R149, R358) -/

/-- Whether the image defines a tensor. -/
def hasTensor (im : JobImage) (id : Nat) : Bool := im.tensors.any fun e => e.tensor == id

/-- Whether the image defines a peer set; 0 names none. -/
def hasPeers (im : JobImage) (id : Nat) : Bool := id == 0 || im.peers.any fun p => p.pset == id

/-- Whether the image defines a contract slot; 0 names none. -/
def hasSlot (im : JobImage) (id : Nat) : Bool := id == 0 || im.contracts.any fun c => c.cslot == id

/-- Whether the image defines a task; 0 names none. -/
def hasTask (im : JobImage) (id : Nat) : Bool := id == 0 || im.tasks.any fun t => t.taskid == id

/-- Whether everything that a task names is defined and its pointers lie inside their streams. -/
def taskNames (im : JobImage) (t : TaskRec) : Bool :=
  (bodyPtrs t).all (ptrInside im t.unit) &&
    (match t.dtype with
     | 1 =>
       let g := decodeGemm t.body
       hasTensor im g.tensor && hasPeers im g.peers && hasSlot im g.cslot && (List.range 17).all (gemmPtrOk im t g)
     | 2 =>
       let v := decodeVec t.body
       hasPeers im v.peers && hasSlot im v.cslot && (v.pten1 == 0 || hasTensor im v.pten1) && (v.pten2 == 0 || hasTensor im v.pten2)
     | 3 =>
       let u := decodeUpd t.body
       hasTensor im u.tensor && hasSlot im u.cslot && (im.optrecs.any fun o => o.tensor == u.tensor)
     | 5 =>
       let b := decodeSend t.body
       (im.plan.any fun r => r.redid == b.redid) && hasTask im b.ptask
     | _ => true)

/-- Whether a queue's ends are host ports, tasks of this image, or tasks of the package that REMOTE names. -/
def queueNames (im : JobImage) (q : QueueEntry) : Bool :=
  let host := fun id => id == 0xFFFFFFF0 || id == 0xFFFFFFF1
  let here := fun id => id != 0 && hasTask im id
  let known := fun id => host id || here id || q.remote != 0xFFFF
  known q.prod && known q.cons && (host q.prod || host q.cons || here q.prod || here q.cons)

/-- Whether the ring of a queue lies inside an entry of its stream kind, that of a host queue in space 1 and in one stack range (R353). -/
def ringOk (im : JobImage) (q : QueueEntry) : Bool :=
  let host := fun id => id == 0xFFFFFFF0 || id == 0xFFFFFFF1
  let n := q.depth * q.esize
  (im.tensors.any fun e => e.skind == 0x1B && ptrSpace q.ring == ptrSpace e.base && decide (ptrAddr e.base ≤ ptrAddr q.ring) &&
    decide (ptrAddr q.ring + n ≤ ptrAddr e.base + e.length)) &&
  (!(host q.prod || host q.cons) ||
    (ptrSpace q.ring == 1 && decide (ptrAddr q.ring < 2 ^ 42) && rangeOf (ptrAddr q.ring) == rangeOf (ptrAddr q.ring + n - 1)))

/-- Check 7. -/
def check7 (im : JobImage) : Bool :=
  im.tasks.all (taskNames im) && im.queues.all (queueNames im) && im.queues.all (ringOk im) &&
    (im.plan.all fun r => hasPeers im r.peers && hasSlot im r.cslot && ptrInside im 0 (r.src, []) && ptrInside im 0 (r.dst, [])) &&
    (im.contracts.all fun c => hasTensor im c.tensor) &&
    (im.optrecs.all fun o => hasTensor im o.tensor && decide (o.lrt < im.lrtables.length)) &&
    (im.init ++ im.chanlist ++ im.berm).all fun p => im.tensors.any fun e => e.tensor == p.tensor && e.skind == p.skind &&
      inEntry 0 p.dest e && decide (ptrAddr p.dest + p.data.length ≤ ptrAddr e.base + e.length)

/-! ### Checks 8 and 9: units and tokens (R137 to R139, R291) -/

/-- Check 8. -/
def check8 (im : JobImage) : Bool :=
  im.tasks.all fun t => if t.stream < 2 then unitCore t.unit != 1023
    else !bit t.flags 0 && decide (t.deadline ≤ im.period + 100000000)

/-- The tokens that the image issues. -/
def issued (im : JobImage) : List Nat := (im.tasks.map (·.issue) ++ im.plan.map (·.token)).filter fun k => k != 0

/-- The tokens and tasks that a token waits on within a step: those of its task's waits, or of the tasks that send to its
reduction. -/
def tokenNeeds (im : JobImage) (k : Nat) : List Nat :=
  let waits := fun (t : TaskRec) => (t.waits.filter fun w => !w.lag && w.token != 0).map (·.token)
  ((im.tasks.filter fun t => t.issue == k).flatMap waits) ++
    (im.plan.filter fun r => r.token == k).flatMap fun r =>
      (im.tasks.filter fun t => t.dtype == 5 && (decodeSend t.body).redid == r.redid).flatMap fun t => if t.issue = 0 then waits t else [t.issue]

/-- One round of removing the tokens whose needs are all gone. -/
def dropReady (im : JobImage) (left : List Nat) : List Nat := left.filter fun k => (tokenNeeds im k).any fun n => left.contains n

/-- Check 9: task identities unique and non-zero, each token issued once, no cycle. -/
def check9 (im : JobImage) : Bool :=
  let ids := im.tasks.map (·.taskid)
  let ts := issued im
  !ids.contains 0 && ids.eraseDups.length == ids.length && ts.eraseDups.length == ts.length &&
    (im.tasks.all fun t => t.waits.all fun w => w.token == 0 || ts.contains w.token) && (iter (dropReady im) (ts.length + 1) ts).isEmpty

/-! ### Check 10: held inputs (R141) -/

/-- The number by which a reduction stands among tasks: task identities are below 2^32. -/
def redKey (r : PlanEntry) : Nat := 2 ^ 32 + r.redid

/-- The tasks that send to a reduction. -/
def senders (im : JobImage) (r : PlanEntry) : List TaskRec := im.tasks.filter fun t => t.dtype == 5 && (decodeSend t.body).redid == r.redid

/-- The (task or reduction, lag) pairs whose commit a wait makes sure of: the issuer of the token, or the reduction and the tasks that send
to it. -/
def waitTasks (im : JobImage) (lag : Nat) (w : WaitEntry) : List (Nat × Nat) :=
  if w.token = 0 then []
  else
    let l := lag + b2n w.lag
    ((im.tasks.filter fun t => t.issue == w.token).map fun t => (t.taskid, l)) ++
      (im.plan.filter fun r => r.token == w.token).flatMap fun r => (redKey r, l) :: (senders im r).map fun t => (t.taskid, l)

/-- One round of the closure: a task commits only after every task it waits on has. -/
def commitStep (im : JobImage) (l : List (Nat × Nat)) : List (Nat × Nat) :=
  (l ++ l.flatMap fun x => ((im.tasks.filter fun t => t.taskid == x.1).flatMap fun t => t.waits.flatMap (waitTasks im x.2)).filter
    fun y => decide (y.2 ≤ 1)).eraseDups

/-- The (task, lag) pairs that have committed before a task starts, through its waits with EVT = 1. -/
def commitsBefore (im : JobImage) (t : TaskRec) : List (Nat × Nat) :=
  iter (commitStep im) (2 * im.tasks.length) ((t.waits.filter (·.commit)).flatMap (waitTasks im 0))

/-- The tasks that start only after a task within the step. -/
def startsAfter (im : JobImage) (t : TaskRec) : List Nat :=
  let next := fun (l : List Nat) => (l ++ (im.tasks.filter fun u => u.waits.any fun w => !w.lag && w.token != 0 &&
    ((waitTasks im 0 w).any fun y => l.contains y.1)).map (·.taskid)).eraseDups
  iter next im.tasks.length [t.taskid]

/-- The contribution buffer of a reduction. -/
def sourceRect (r : PlanEntry) : List Rect := rectOf 0 r.src 0 1 (elemSize r.kind * r.elems)

/-- Check 10: a task that overwrites a range waits, by COMMIT, on every task that reads its previous contents: in the same step, or for a
reader that comes after it, in the previous one. A contribution buffer is held in the same way until its reduction has committed. -/
def check10 (im : JobImage) : Bool :=
  im.tasks.all fun w =>
    let out := taskWrites im w
    if out.isEmpty then true
    else
      let done := commitsBefore im w
      let after := startsAfter im w
      let hits := fun (l : List Rect) => l.any fun a => out.any (rectHit a)
      (im.tasks.all fun r =>
        r.taskid == w.taskid || !hits (taskReads im r) || done.contains (r.taskid, if after.contains r.taskid then 1 else 0)) &&
      im.plan.all fun r =>
        !hits (sourceRect r) || done.contains (redKey r, if (senders im r).all fun t => after.contains t.taskid then 1 else 0)

/-! ### Check 11: room for the notices of other packages (R246) -/

/-- The length of an axis in a mapping. -/
def mapLen (m : Mapping) : Nat → Nat
  | 0 => m.lx
  | 1 => m.ly
  | _ => m.lz

/-- B of a mapping: 0.5 µs for each hop of the longest route (R245). -/
def mapBound (m : Mapping) : Nat :=
  500 * ([0, 1, 2].map fun a => if bit m.rings a then mapLen m a / 2 else mapLen m a - 1).sum

/-- The axes of a reduction that are longer than 1. -/
def planAxes (m : Mapping) (r : PlanEntry) : List Nat :=
  (match r.axes with
   | 0 => [2]
   | 1 => [0, 2]
   | _ => [0, 1, 2]).filter fun a => decide (1 < mapLen m a)

/-- Check 11: a reduction that crosses packages, and every task that waits on it through any chain, has its deadline at least B + 2 µs
after the deadlines of the tasks that send to it. -/
def check11 (im : JobImage) : Bool :=
  im.plan.all fun r =>
    (planAxes im.mapping r).isEmpty ||
      (let need := ((senders im r).map fun t =>
          t.deadline + mapBound im.mapping + 2000).foldl max 0
       let waiting := (im.tasks.filter fun t => t.waits.any fun w => !w.lag && w.token == r.token && r.token != 0).flatMap fun t => startsAfter im t
       decide (need ≤ r.deadline) && im.tasks.all fun t => !waiting.contains t.taskid || decide (need ≤ t.deadline))

/-! ### Check 12: the core store (R147) -/

/-- Every core-store offset below 393,216, and every core-store stream inside it. -/
def check12 (im : JobImage) : Bool :=
  let ok := fun v => ptrSpace v != 2 || decide (ptrAddr v < 393216)
  (im.tasks.all fun t => (bodyPtrs t).all fun p => ok p.1) && (im.plan.all fun r => ok r.src && ok r.dst) && (im.queues.all fun q => ok q.ring) &&
    im.tensors.all fun e => ptrSpace e.base != 2 || decide (ptrAddr e.base + e.length ≤ 393216)

/-! ### Check 13: planned occupancy (R89, R93, R125, R153, R192, R213) -/

/-- The operand groups of a GEMM task: those of its first operand, and in a weight gradient those of its second one too (R93, R109). -/
def operandGroups (g : Gemm) : Nat := (g.rows + if g.kind = 2 then g.cols else 0) * g.kbn * 8

/-- Q of a GEMM task: 2 × floor(G / 100) × ceil(N / 32) (R93). -/
def reserveQ (g : Gemm) : Nat := 2 * (operandGroups g / 100) * cdiv g.cols 32

/-- The core cycles of a GEMM task: per row the larger of the array's and the side engine's (R89), and the fall-back reserve (R88). -/
def gemmCycles (g : Gemm) : Nat :=
  let k := 256 * g.kbn
  g.rows * max (cdiv (g.cols * k) 1024) (cdiv ((g.cap * g.cols + 256 * g.rank) * g.kbn + g.rank * g.cols) 64) +
    (if g.kind < 3 then 48 * reserveQ g else 0)

/-- The lane-cycles of an UPDATE task (Table 5.6). -/
def updLanes (im : JobImage) (u : UpdBody) : Nat :=
  let o := im.optrecs.find? fun o => o.tensor == u.tensor
  let opt := match (o.map (·.opt)).getD 0 with
    | 1 => 6
    | 2 => 14
    | 3 => 9
    | _ => 0
  let r := if u.bermu = 0 then 0 else ((entryFor im u.tensor 0x09).map (·.dim1)).getD 0
  u.count * (opt + (if u.nuses = 0 then 1 else 2 * u.nuses) + b2n ((o.map (·.clip)).getD 0 == 1) + (if u.codes = 0 then 0 else 3) +
    (if r = 0 then 0 else 4 + 6 * r))

/-- The bytes of MOVE tasks that read (or write) the far-tier window `f`. -/
def farBytes (im : JobImage) (f : Fin 2) (wr : Bool) : Nat :=
  (im.tasks.map fun t => if t.dtype = 4 then
      let m := decodeMove t.body
      let p := if wr then m.dst else m.src
      if ptrSpace p = 1 ∧ rangeOf (ptrAddr p) = .far f then m.length else 0
    else 0).sum

/-- The core cycles of a VECTOR task: one lane-cycle per element and operation, the least that 32 lanes can take (log entry 73). -/
def vecCycles (v : VecBody) : Nat := cdiv (v.rows * v.cols * v.nops) 32

/-! #### Memory traffic and the die links it takes -/

/-- A stretch of memory that a task moves, and whether it writes it. -/
abbrev Flow : Type := Rect × Bool

/-- A read or a write of each rectangle of a list. -/
def flows (wr : Bool) (l : List Rect) : List Flow := l.map fun r => (r, wr)

/-- What a GEMM task moves, each of its streams once: its share of the operand, the tiles, the side records, the lists and factors, and its
output. -/
def gemmFlows (im : JobImage) (t : TaskRec) (g : Gemm) : List Flow :=
  let u := t.unit
  let k := 256 * g.kbn
  let n := weightN im g.tensor
  let blocks := fun (c : Nat) => ((mxFmt c).map mxBlockBytes).getD 0
  let run := fun (v bytes : Nat) => rectOf u v 0 1 bytes
  match g.kind with
  | 2 => flows false (gemmReads im t g) ++ flows true (gemmWrites im t g)
  | 3 =>
    let b := g.ktot / 32
    flows false (run g.asrc (g.rows * b * blocks g.mxa) ++ run g.ascl (g.rows * b) ++ run g.bsrc (g.cols * b * blocks g.mxb) ++
      run g.bside (g.cols * b) ++ run g.bias (2 * g.cols)) ++
    flows true (if g.target = 5 then run g.out (g.rows * (g.cols / 32) * blocks g.mxo) else gemmWrites im t g)
  | _ =>
    let tiles := if g.kind = 1 then rectOf u g.bsrc (128 * (n / 16)) (g.cols / 16) (128 * 16 * g.kbn)
      else rectOf u g.bsrc (128 * (n / 16)) (16 * g.kbn) (128 * (g.cols / 16))
    flows false (rectOf u g.asrc (4 * pitchOf im u g.asrc [0x01] g.ktot) g.rows (4 * k) ++ tiles ++ run g.bside (40 * (k / 16) * (g.cols / 16)) ++
      run g.chan (32 * g.kbn) ++ run g.bermu (2 * g.rank * k) ++ run g.bermv (2 * g.rank * g.cols) ++ run g.bias (2 * g.cols)) ++
    flows true (gemmWrites im t g)

/-- What a task moves. -/
def taskFlows (im : JobImage) (t : TaskRec) : List Flow :=
  let u := t.unit
  match t.dtype with
  | 1 => gemmFlows im t (decodeGemm t.body)
  | 2 =>
    let v := decodeVec t.body
    let w := fun p => pitchOf im u p [0x01, 0x0D] v.cols
    let back := v.ops.any fun o => vecBackward o.op
    flows false (rectOf u v.src (4 * w v.src) v.rows (4 * v.cols) ++ rectOf u v.src2 (4 * w v.src2) v.rows (4 * v.cols)) ++
      flows (!back) (rectOf u v.stash 0 1 (v.rows * (32 * cdiv v.cols 32)) ++ rectOf u v.stscl 0 1 (v.rows * (4 * cdiv v.cols 32))) ++
      flows true (rectOf u v.dst (4 * w v.dst) v.rows (4 * v.cols) ++ rectOf u v.loss 0 1 (4 * v.rows))
  | 3 =>
    let d := decodeUpd t.body
    let state := rectOf u d.master 0 1 (2 * d.count) ++ rectOf u d.mom1 0 1 (2 * d.count) ++ rectOf u d.mom2 0 1 (2 * d.count)
    flows false (state ++ rectOf u d.rbuf 0 1 (4 * d.count)) ++
      flows true (state ++ rectOf u d.codes 0 1 (d.count / 2) ++ rectOf u d.side 0 1 (d.count * 5 / 32))
  | 4 => let m := decodeMove t.body; flows false (rectOf u m.src 0 1 m.length) ++ flows true (rectOf u m.dst 0 1 m.length)
  | _ => flows false ((im.plan.filter fun r => r.redid == (decodeSend t.body).redid).flatMap fun r =>
      rectOf u (decodeSend t.body).buf 0 1 (elemSize r.kind * (decodeSend t.body).count))

/-- Who makes the accesses of a task: its core, its update engine, or the hub for a contribution that it sends and for the far tier
(R153, R191). -/
def flowParty (t : TaskRec) : Requester :=
  let far := fun (p : Nat) => ptrSpace p == 1 && decide (farBase 0 ≤ ptrAddr p)
  if t.dtype = 5 ∨ (t.dtype = 4 ∧ (far (decodeMove t.body).src || far (decodeMove t.body).dst)) then .hub
  else if t.stream = 2 then .update (Fin.ofNat 32 (unitStack t.unit))
  else .core (Fin.ofNat 4 (unitDie t.unit)) (unitCore t.unit) (Fin.ofNat 8 (unitCtx t.unit))

/-- Every access of a step to memory: by the tasks, and by the collective engine that lands reduced sums. -/
def stepFlows (im : JobImage) : List (Requester × Flow) :=
  (im.tasks.flatMap fun t => (taskFlows im t).map fun f => (flowParty t, f)) ++
    im.plan.flatMap fun r => (flows true (rectOf 0 r.dst 0 1 (elemSize r.kind * r.elems))).map fun f => (Requester.hub, f)

/-- The stack that a stretch lies in. -/
def flowStack (r : Rect) : Option (Fin 32) :=
  if r.space ≠ 1 then none
  else match rangeOf r.base with
    | .stack i => some i
    | _ => none

/-- The bytes of a stretch. -/
def flowBytes (r : Rect) : Nat := r.rows * r.width

/-- Whether a stretch is sequential traffic: ascending runs of at least 1 KiB (Table 7.6). -/
def sequential (r : Rect) : Bool := decide (1024 ≤ if r.rows ≤ 1 ∨ r.pitch = r.width then flowBytes r else r.width)

/-- The bytes that a stretch is charged with: whole lines where it is not sequential (R180). -/
def chargedBytes (r : Rect) : Nat := if sequential r then flowBytes r else r.rows * (128 * cdiv r.width 128)

/-- The bytes per step that the caps of the open levee windows of a stack admit (R213). -/
def windowBytes (im : JobImage) (i : Fin 32) : Nat :=
  (im.mapping.windows.map fun w => if w.isOpen && !w.queue && decide (w.base / 2 ^ 37 = i.val) then w.rate * im.period / 1000 else 0).sum

/-- Whether the planned traffic of a stack lies within 92% of the efficiency figure of each mix under its policy (Tables 6.11, 7.6): 92%
and one third under the stream policy, 85% and 45% under the sector policy. -/
def stackFits (im : JobImage) (i : Fin 32) : Bool :=
  let fs := (stepFlows im).filterMap fun x => if flowStack x.2.1 == some i then some x.2.1 else none
  let sum := fun (q : Bool) => ((fs.filter fun r => sequential r == q).map chargedBytes).sum
  let seq := sum true + windowBytes im i
  let (e1, e2) := if bit im.mapping.policy i.val then (85 * 3, 45 * 3) else (92 * 3, 100)
  decide (300 * 100 * (seq * e2 + sum false * e1) ≤ 92 * im.period * 2000 * e1 * e2)

/-- The bytes per step on a die link in a direction: data goes with the request where it is written, and against it where it is read. The
hub link of a stack's die carries what its levee windows admit (R213), either way. -/
def linkBytes (im : JobImage) (l : Fin 41) (rev : Bool) : Nat :=
  ((stepFlows im).map fun x =>
    match flowStack x.2.1 with
    | some i => if (pathHops x.1 i).any fun h => h.1 == l && (h.2 != rev) == !x.2.2 then flowBytes x.2.1 else 0
    | none => 0).sum +
  ((List.finRange 32).map fun i => if hubLink (ownerDie i).val = l then windowBytes im i else 0).sum

/-! #### Fabric ports -/

/-- What the messages of a byte string cost on a port: ceil(b / 492) frames of 512 bytes for each message of up to 4 KiB and its header
(R222). -/
def wireCost (n : Nat) : Nat := 512 * (n / 4096 * 9 + if n % 4096 = 0 then 0 else cdiv (n % 4096 + 32) 492)

/-- The position of a logical ID on an axis, as JOB_LOAD places this package. -/
def loadPos (a : LoadArgs) : Nat → Nat
  | 0 => a.x
  | 1 => a.y
  | _ => a.z

/-- The port by which a message to a logical ID leaves (R231). -/
def loadHop (m : Mapping) (a : LoadArgs) (dst : Nat) : Option (Nat × Bool) :=
  [0, 1, 2].findSome? fun x => (towards (mapLen m x) (bit m.rings x) (loadPos a x) (coord dst x)).map fun d => (x, d)

/-- The bytes that a reduction sends round the rings of its axes by a port, level by level: 2 (n − 1) segments, n − 1 for GATHER (R236,
R237). On a line what goes from the last position to the first runs back along the − ports (R227). -/
def ringCost (m : Mapping) (a : LoadArgs) (r : PlanEntry) (axis : Nat) (plus : Bool) : Nat :=
  let axes := planAxes m r
  if !axes.contains axis then 0
  else
    let n := mapLen m axis
    let e := r.elems / ((axes.takeWhile (· != axis)).map (mapLen m)).foldl (· * ·) 1
    let seg := wireCost (elemSize r.kind * e / n) * (n - 1) * (if r.kind = 5 then 1 else 2)
    let line := !bit m.rings axis
    if plus then (if line && loadPos a axis + 1 == n then 0 else seg) else if line && 0 < loadPos a axis then seg else 0

/-- The bytes that leave by a port per step: the collective plan, pipeline entries and credits, and the partial sums of cut reductions. -/
def portBytes (im : JobImage) (a : LoadArgs) (axis : Nat) (plus : Bool) : Nat :=
  let m := im.mapping
  let me := a.x + 32 * a.y + 512 * a.z
  let via := fun (dst n : Nat) => if loadHop m a dst = some (axis, plus) then wireCost n else 0
  (im.plan.map fun r => ringCost m a r axis plus).sum +
    (im.queues.map fun q => if q.remote = 0xFFFF then 0
      else if im.tasks.any fun t => t.taskid == q.prod then via q.remote q.esize else via q.remote 32).sum +
    (im.tasks.map fun t => if t.dtype ≠ 1 then 0
      else
        let g := decodeGemm t.body
        match im.peers.find? fun p => g.peers != 0 && p.pset == g.peers with
        | some p => let o := (p.holders.getD p.owner (me, 0)).1; if o = me then 0 else via o ((if g.kind = 2 then 9 else 4) * g.rows * g.cols)
        | none => 0).sum

/-- Check 13: for every resource the planned occupancy lies within the charged capacity of Table 6.11. The schedule repeats every PERIOD,
so that every window of that length holds each task's occupancy once: the sum over one step. -/
def check13 (im : JobImage) (a : LoadArgs) : Bool :=
  let cores := (im.tasks.filter fun t => decide (t.stream < 2)).map fun t => bits t.unit 11 0
  let onCore := fun (c dtype : Nat) => im.tasks.filter fun t => decide (t.stream < 2) && t.dtype == dtype && bits t.unit 11 0 == c
  (cores.eraseDups.all fun c =>
    decide (((onCore c 1).map fun t => gemmCycles (decodeGemm t.body)).sum * 1000 ≤ im.period * 1164) &&
      decide (((onCore c 2).map fun t => vecCycles (decodeVec t.body)).sum * 1000 ≤ im.period * 1164)) &&
    ((List.finRange 32).all fun i =>
      decide (((im.tasks.filter fun t => t.stream == 2 && t.dtype == 3 && unitStack t.unit == i.val).map fun t =>
        updLanes im (decodeUpd t.body)).sum * 1000 ≤ im.period * 970 * 2048) && stackFits im i) &&
    ((List.finRange 41).all fun l => [true, false].all fun rev => decide (linkBytes im l rev ≤ im.period * (64 * linkRated l.val))) &&
    ([(0 : Fin 2), 1].all fun f => [true, false].all fun wr => decide (farBytes im f wr * 1000 ≤ im.period * 94668)) &&
    [0, 1, 2].all fun x => [true, false].all fun d => decide (portBytes im a x d ≤ im.period * 380)

/-! ### Checks 14 to 20 -/

/-- Check 14: one rotation order for each weight tensor (R82). -/
def check14 (im : JobImage) : Bool :=
  let gs := (gemms im).filter fun g => decide (g.kind < 2)
  gs.all fun a => gs.all fun b => a.tensor != b.tensor || a.roto == b.roto

/-- Check 16: grid, virtual stages and coordinate (R224, R228, R229). -/
def check16 (im : JobImage) (a : LoadArgs) : Bool :=
  let m := im.mapping
  decide (1 ≤ m.lx ∧ m.lx ≤ 32 ∧ 1 ≤ m.ly ∧ m.ly ≤ 16 ∧ 1 ≤ m.lz ∧ m.lz ≤ 16 ∧ 1 ≤ m.vstage ∧ m.vstage ≤ 16) &&
    [0, 1, 2].all (fun x => !(bit m.rings x && mapLen m x == 1)) && decide (a.x < m.lx ∧ a.y < m.ly ∧ a.z < m.lz)

/-- How many of `n` items the `i`-th of `k` takers holds when they are handed out evenly in contiguous runs, the first ones holding one
more: layers on virtual stages (R229), reduction blocks on data replicas (R230). -/
def evenShare (n k i : Nat) : Nat := n / k + b2n (decide (i < n % k))

/-- The layers that virtual stage `q` holds (R229). -/
def stageLayers (m : Mapping) (q : Nat) : Nat := evenShare m.nl (m.ly * m.vstage) q

/-- The y coordinate of the package that runs virtual stage `q` (R229). -/
def stageY (m : Mapping) (q : Nat) : Nat := q % m.ly

/-- The reduction blocks that data replica `r` holds (R230). -/
def replicaBlocks (m : Mapping) (r : Nat) : Nat := evenShare m.nb (dataReplicas m) r

/-- Whether a recorded window covers a current open one: open, its rights and its range within, its cap not above (R213). -/
def windowCovers (rec_ cur : Window) : Bool :=
  !cur.isOpen ||
    (rec_.isOpen && rec_.queue == cur.queue && (rec_.read || !cur.read) && (rec_.write || !cur.write) && (rec_.narrow || !cur.narrow) &&
      decide (cur.rate ≤ rec_.rate) &&
      (if cur.queue then decide (rec_.qfirst ≤ cur.qfirst ∧ cur.qfirst + cur.qcount ≤ rec_.qfirst + rec_.qcount)
       else decide (rec_.base ≤ cur.base ∧ cur.base + cur.size ≤ rec_.base + rec_.size)))

/-- The first stack whose policy is not the recorded one (R166). -/
def policyDiffers (im : JobImage) (s : State) : Option Nat :=
  ((List.finRange 32).find? fun i => s.memStacks[i].policy != bit im.mapping.policy i.val).map (·.val)

/-- Check 17: the resources that the image uses are at rating and as recorded. -/
def check17 (im : JobImage) (s : State) : Bool :=
  let m := im.mapping
  ((List.finRange 41).all fun l => !bit m.dielinks l.val || !linkBelow l s) &&
    (fports.all fun p => !bit m.fabports (fportNo p).val || fabState (fabOf p s) == 0) &&
    ([(0 : Fin 2), 1].all fun f => !(bit m.farports f.val || decide (0 < farBytes im f true + farBytes im f false)) || s.far[f].st == 2) &&
    ([HPort.a, .b].all fun p => !(bit m.hostports (hportNo p) || im.queues.any fun q =>
      q.prod == 0xFFFFFFF0 + hportNo p || q.cons == 0xFFFFFFF0 + hportNo p) || (hostOf p s).state == 0) &&
    (policyDiffers im s).isNone && (List.finRange 8).all fun i => windowCovers (m.windows.getD i.val Window.closed) s.levee.windows[i]

/-- The first port on an axis longer than 1 that does not reach the opposite port of the neighbour that JOB_LOAD names, with the
physical ID it found (R225). -/
def neighbourFails (im : JobImage) (a : LoadArgs) (s : State) : Option (Nat × Nat) :=
  let want := fun (p : FPort) => a.neigh.getD (fportNo p).val 0xFFFF
  let bad := fun (p : FPort) =>
    decide (1 < mapLen im.mapping ((fportNo p).val / 2)) &&
      (match (fabOf p s).neigh with
       | some k => !((fabOf p s).up) || k.phys != want p || k.port != (fportNo (oppPort p)).val ||
         (mapLen im.mapping ((fportNo p).val / 2) == 2 && want p != want (oppPort p))
       | none => true)
  (fports.find? bad).map fun p => ((fportNo p).val, (((fabOf p s).neigh.map (·.phys)).getD 0xFFFF))

/-- The sizes of the ten sections of the record that the package would write, in the order of Table 11.3 (R287, R357). -/
def recordSizes (im : JobImage) : List Nat :=
  let train := fun k => ((im.tensors.filter fun e => e.skind == k && bit e.flags 0).map (·.length)).sum
  let all := fun k => ((im.tensors.filter fun e => e.skind == k).map (·.length)).sum
  [train 0x15, train 0x16, train 0x17, train 0x18, all 0x07, 2 * im.contracts.length, all 0x0B, 516,
    1408 + 16 * (im.tensors.filter fun e => e.skind == 0x0B).length, 24]

/-- The length of a record with given section sizes: sections at multiples of 4 KiB after the header and the table (R287). -/
def recordLength (sizes : List Nat) : Nat := sizes.foldl (fun o n => upTo 4096 o + upTo 4 n) (256 + 32 * 10)

/-- Check 20: the checkpoint area and CKBYTES (R283, R289, R357). -/
def check20 (im : JobImage) : Bool :=
  (im.tensors.all fun e => ptrSpace e.base != 1 || [(0 : Fin 2), 1].all fun f =>
    decide (ptrAddr e.base + e.length ≤ farBase f) || decide (farBase f + 2 ^ 41 ≤ ptrAddr e.base)) &&
    decide (recordLength (recordSizes im) ≤ im.mapping.ckbytes) && decide (im.mapping.ckbytes ≤ 2088000000000)

/-- The index of the first check that fails, or 0 (R145). A BNL-1 image (TARGET 0x0001, R22) that holds GEMM tasks of KIND 0 to 2 fails no
check by that, and runs them natively (log entry 77). -/
def imageCheck (bs : Bytes) (a : LoadArgs) (s : State) : Nat :=
  if !check1 bs then 1
  else
    let im := decodeImage bs
    if im.target ≠ 0x0432 ∧ im.target ≠ 0x0001 then 2
    else if sha384 (bs.take (bs.length - 48)) ≠ im.digest then 3
    else if !check4 bs then 4
    else if !check5 im then 5
    else if !(gemms im).all rangeOk then 6
    else if !check7 im then 7
    else if !check8 im then 8
    else if !check9 im then 9
    else if !check10 im then 10
    else if !check11 im then 11
    else if !check12 im then 12
    else if !check13 im a then 13
    else if !check14 im then 14
    else if 2 ^ 31 < im.nloss then 15
    else if !check16 im a then 16
    else if !check17 im s then 17
    else if (neighbourFails im a s).isSome then 18
    else if !s.warden.guard.isEmpty then 19
    else if !check20 im then 20
    else 0

end Sys2Proof.Machine
end

