-- ==== Sys2Proof/Machine/Weights.lean ====
section
/-! DEFINITION. Weight streams and stash streams as a task reads and writes them (R30 to R45, R59, R126), channel lists and berm
factors, and what is read as a stream mismatch (R26, R36, R39, R40, R45, R348). -/

namespace Sys2Proof.Machine

/-- An item that failed its check: class and format of Table 4.9, stream kind, tensor, address and index; `space` is that of the pointer
through which it was read. -/
structure Mism where
  cls : Nat
  fmt : Nat
  skind : Nat
  tensor : Nat
  addr : Nat
  index : Nat
  space : Nat := 1
  deriving DecidableEq, Repr

/-- The weight streams of a tensor from their first tile: pointers, N, the rotation order that the reader expects. -/
structure Streams where
  tensor : Nat
  codes : Nat
  side : Nat
  ext : Nat
  dir : Nat
  n : Nat
  order : Nat

/-- The streams of a GEMM body, each pointer moved back to the start of its stream (R149). -/
def gemmStreams (im : JobImage) (g : Gemm) : Streams :=
  let n := weightN im g.tensor
  let i := firstTile g n
  { tensor := g.tensor, codes := g.bsrc - tileOffset i, side := g.bside - sideOffset i, ext := g.bext, dir := g.bdir, n := n, order := g.order }

/-- The index of the first tile of a shard. -/
def shardTile (n : Nat) (u : UpdBody) : Nat := if n = 0 then 0 else u.first / n / 16 * (n / 16)

/-- The streams of an UPDATE body, whose code and side pointers are at the start of the shard's tiles, each moved back to tile 0. -/
def updStreams (im : JobImage) (u : UpdBody) (order : Nat) : Streams :=
  let i := shardTile (weightN im u.tensor) u
  { tensor := u.tensor, codes := u.codes - tileOffset i, side := u.side - sideOffset i, ext := u.ext, dir := u.dir, n := weightN im u.tensor, order := order }

/-- The side record of a tile. -/
def readSide (at_ : Place) (w : Streams) (i : Nat) (s : State) : SideRec := decodeSide (ptrRead at_ w.side (sideOffset i) 40 s)

/-- The place of a fall-back tile's extension entry: the directory value of its set and the FB tiles before it in the set (R40). -/
def extPlace (at_ : Place) (w : Streams) (i : Nat) (s : State) : Nat :=
  leVal (ptrRead at_ w.dir (4 * (i / 16)) 4 s) + ((List.range (i % 16)).filter fun k => (readSide at_ w (16 * (i / 16) + k) s).fb).length

/-- Whether what fails in a tile's checks is its side record: TAG, a reserved EXP, a forbidden zero tile, ROT, or ZP of a fall-back. -/
def sideBad (r : SideRec) (i order : Nat) : Bool :=
  r.tag != i % 65536 || (decide (0xF8 ≤ r.exp) && decide (r.exp ≤ 0xFE)) ||
    (if r.exp = 255 then r.zp != 8 || r.fb || r.rot else r.rot != decide (order ≠ 0) || (r.fb && r.zp != 0))

/-- Read a tile with every check of R26, R33, R36, R39, R40 and R82; what failed is named as Table 4.9 lists it. -/
def readTile (at_ : Place) (w : Streams) (i : Nat) (s : State) : Except Mism Tile :=
  let sr := readSide at_ w i s
  let block := ptrRead at_ w.codes (tileOffset i) 128 s
  let e := if sr.fb && sr.exp != 255 then ptrRead at_ w.ext (256 * extPlace at_ w i s) 256 s else []
  let t : Tile := { s := sr, codes := blockCodes block, hrec := decodeSide (slice e 128 40), high := blockCodes (slice e 0 128) }
  if tileMismatch t i block (slice e 0 128) (field e 168 4) w.order then
    let mism := fun (f k p off : Nat) => Except.error
      ({ cls := 0, fmt := f, skind := k, tensor := w.tensor, addr := ptrAddr p + off, index := i, space := ptrSpace p } : Mism)
    if sideBad sr i w.order then mism 1 0x04 w.side (sideOffset i)
    else if sr.crc ≠ crc16 block then mism (if sr.fb then 2 else 1) 0x03 w.codes (tileOffset i)
    else mism 2 0x05 w.ext (256 * extPlace at_ w i s)
  else .ok t

/-- Read a channel list (R41), or report it (R348). -/
def readChan (at_ : Place) (v cap cls tensor b : Nat) (s : State) : Except Mism (List Nat) :=
  if cap = 0 then .ok []
  else
    match decodeChan (ptrRead at_ v (32 * b) 32 s) cap with
    | some l => .ok l
    | none => .error { cls := cls, fmt := 0, skind := 0x07, tensor := tensor, addr := ptrAddr v + 32 * b, index := b, space := ptrSpace v }

/-- Read a stash group: `data` and `scale` point at group 0 of the stream (R44, R45). -/
def readStash (at_ : Place) (data scale gi : Nat) (s : State) : Except Mism (List F32) :=
  match decodeStash (ptrRead at_ scale (4 * gi) 4 s) (ptrRead at_ data (32 * gi) 32 s) gi with
  | some l => .ok l
  | none => .error { cls := 4, fmt := 4, skind := 0x0E, tensor := 0, addr := ptrAddr data + 32 * gi, index := gi, space := ptrSpace data }

/-- A row of `k` binary32 values. -/
def readF32s (at_ : Place) (v off k : Nat) (s : State) : List F32 :=
  let b := ptrRead at_ v off (4 * k) s
  (List.range k).map fun i => BitVec.ofNat 32 (field b (4 * i) 4)

/-- A row of `k` BF16 values. -/
def readBf16s (at_ : Place) (v off k : Nat) (s : State) : List BF16 :=
  let b := ptrRead at_ v off (2 * k) s
  (List.range k).map fun i => BitVec.ofNat 16 (field b (2 * i) 2)

/-- Bytes of binary32 values; a NaN is written as the canonical one (R46). -/
def f32Bytes (l : List F32) : Bytes := l.flatMap fun x => leBytes 4 (if isNan x then nan32 else x).toNat

/-- Bytes of BF16 values. -/
def bf16Bytes (l : List BF16) : Bytes := l.flatMap fun x => leBytes 2 x.toNat

/-- The tensor control record: NU and UX as int16 (R54; the layout is the model's choice: log entry 43). -/
def tctlBytes (nu ux : Int) : Bytes := leBytes 2 (ofSigned 16 nu) ++ leBytes 2 (ofSigned 16 ux)

/-- NU and UX of a tensor. -/
def readTctl (at_ : Place) (v : Nat) (s : State) : Int × Int :=
  let b := ptrRead at_ v 0 4 s
  (toSigned 16 (field b 0 2), toSigned 16 (field b 2 2))

/-! ### Writing the tiles of a shard (R35, R40, R59, R126) -/

/-- The tiles of a shard of `rows` × `n` weights, in tile order, with their gauge increments: `w` are the values in the element index
of R123. -/
def shardTiles (w : List F32) (n count theta : Nat) (rot berm : Bool) (spill : Nat → Bool) (i0 : Nat) : List (Tile × Counts) :=
  let a := w.toArray
  let tn := n / 16
  (List.range (count / 256)).map fun t =>
    let kt := t / tn
    let nt := t % tn
    let vals := (List.range 256).map fun j => a.getD ((16 * kt + j / 16) * n + 16 * nt + j % 16) 0
    let i := i0 + t
    quantTile vals theta i rot berm (spill (i / tn / 16))

/-- The extension entries of the fall-back tiles of a tensor that lie outside a range of tiles, as they are stored. -/
def otherExts (at_ : Place) (w : Streams) (total i0 n : Nat) (s : State) : List (Nat × Bytes) :=
  ((List.range total).filter fun i => !(decide (i0 ≤ i) && decide (i < i0 + n)) && (readSide at_ w i s).fb && (readSide at_ w i s).exp != 255).map
    fun i => (i, ptrRead at_ w.ext (256 * extPlace at_ w i s) 256 s)

/-- Write tiles from index `i0` of a tensor of `total` tiles (R35, R40, R126): code blocks, side records, after the tensor's last tile the
unused slots of its set, and the extension stream and directory of the whole tensor, in which the entries of other shards' tiles stay.
The pointers are those of tile 0. -/
def writeTiles (at_ : Place) (w : Streams) (total i0 : Nat) (berm : Bool) (ts : List Tile) (s : State) : State :=
  let old := otherExts at_ w total i0 ts.length s
  let s := ptrWrite at_ w.codes (tileOffset i0) (ts.flatMap fun t => codeBlock t.codes) s
  let s := (ts.zipIdx).foldl (fun s t => ptrWrite at_ w.side (sideOffset (i0 + t.2)) t.1.s.bytes s) s
  let last := i0 + ts.length
  let s := if last < total then s
    else (List.range (upTo 16 last - last)).foldl (fun s k => ptrWrite at_ w.side (sideOffset (last + k)) (zeroTile (last + k) berm false).s.bytes s) s
  let new := ((ts.zipIdx).filter fun t => t.1.s.fb).map fun t => (i0 + t.2, t.1.ext (i0 + t.2))
  let exts := old.filter (fun e => decide (e.1 < i0)) ++ new ++ old.filter fun e => decide (i0 ≤ e.1)
  let s := ptrWrite at_ w.ext 0 (exts.flatMap fun e => e.2) s
  ptrWrite at_ w.dir 0 ((List.range (cdiv total 16)).flatMap fun q => leBytes 4 (exts.filter fun e => decide (e.1 / 16 < q)).length) s

/-- NU of a list of tiles (R53). -/
def tilesNu (ts : List Tile) : Int := maxExp (-123) ((ts.filter fun t => !t.isZero).map Tile.nu)

/-- UX of stored factors: the largest exponent of a non-zero entry (R54, Table 3.2); with none it is a free value (log entry 2). -/
def factorUx (fs : List BF16) : Int := maxExp Config.uxNone.toInt ((fs.filter fun x => !isZero (widen x)).map fun x => magExp (widen x))

end Sys2Proof.Machine
end

