-- ==== Sys2Proof/Machine/GemmRun.lean ====
section
/-! DEFINITION. What a GEMM task computes from memory and writes (R53 to R72, R84 to R93, R107, R109, R129 to R131; Tables 6.7 to
6.9). -/

namespace Sys2Proof.Machine

/-- What a task's work brings besides its stores: poison, gauge increments, over-range counts, forward non-finite count, loss sum and
non-finite loss count, INT8 chunk-products. -/
structure TaskFx where
  pnf : Bool := false
  psat : Bool := false
  gauges : List (Nat × Nat × Counts) := []
  overs : List (Nat × Nat × Nat) := []
  nfFwd : Nat := 0
  loss : Int := 0
  nfLoss : Nat := 0
  int8 : Nat := 0

/-! ### Operands (R55 to R57, R84) -/

/-- A quantised share of an operand row: the groups, the rotated values, the channel lists of its blocks, and whether a spillway term of
the row in some output column of the tensor is non-finite (R64). -/
structure OpRow where
  groups : List QGroup
  vals : List F32
  lists : List (List Nat)
  spillBad : Bool := false

/-- The class of a product's operands (Table 4.8). -/
def gemmClass (kind : Nat) : Nat :=
  match kind with
  | 0 => 1
  | 1 => 2
  | 2 => 3
  | _ => 7

/-- The format that a group is counted under. -/
def groupFmt (g : CodeGroup) : Nat := if g.fb then 2 else if g.uns then 1 else 0

/-- Quantise a share of a row of whole reduction blocks; only the operand of a forward product is rotated (Table 4.3). -/
def quantRow (g : Gemm) (lists : List (List Nat)) (x : List F32) : OpRow :=
  let x := if g.kind = 0 then rotateRow g.order x else x
  let spillway := decide (g.kind < 2)
  let gs := (pieces 256 g.kbn x).zipIdx.flatMap fun bx =>
    let offs := lists.getD bx.2 []
    (pieces 32 8 bx.1).zipIdx.map fun gx =>
      let spill := (List.range 32).map fun j => offs.contains (32 * gx.2 + j)
      quantGroup gx.1 spill spillway (offs.length == g.cap) g.uns g.zpt g.theta (g.kind == 0 && g.order != 0)
  { groups := gs, vals := x, lists := lists }

/-- The spillway values of a block: (offset, BF16 value) in list order (R42, R56). -/
def OpRow.spills (r : OpRow) (b : Nat) : List (Nat × BF16) := (r.lists.getD b []).map fun o => (o, toBf16 (r.vals.getD (256 * b + o) 0))

/-- Whether the row holds a non-finite group or has a non-finite spillway term (R57, R64). -/
def OpRow.nonfin (r : OpRow) : Bool := r.spillBad || r.groups.any (·.nonfin)

/-- The largest magnitude exponent of the share, over groups and spillway values; −124 with no non-zero item (R53). -/
def OpRow.mu (r : OpRow) : Int :=
  let gs := (r.groups.filter fun q => !q.nonfin && !q.g.isZero).map fun q => q.g.mu q.satFlag
  let xs := ((List.range r.lists.length).flatMap fun b => r.spills b).filter fun x => isFin (widen x.2) && !isZero (widen x.2)
  maxExp (-124) (gs ++ xs.map fun x => magExp (widen x.2))

/-- The gauge increments of a row's groups. -/
def OpRow.gauges (cls : Nat) (uns : Bool) (r : OpRow) : List (Nat × Nat × Counts) :=
  r.groups.map fun q => (cls, if q.nonfin then b2n uns else groupFmt q.g, q.counts)

/-- The over-range counts of a row (R90): the operand's key, the channel offset counted over the operand's blocks. -/
def OpRow.overs (key kb0 : Nat) (r : OpRow) : List (Nat × Nat × Nat) :=
  r.groups.zipIdx.flatMap fun q => q.1.overs.map fun j => (key, 256 * kb0 + 32 * q.2 + j, 1)

/-- The operand key of over-range counts: the weight tensor and which of its two products. -/
def overKey (g : Gemm) : Nat := 2 * g.tensor + b2n (g.kind == 1)

/-! ### Weights of a share -/

/-- The chunk of a share and an output column tile of 16: forward the tile (chunk, column), backward-data its transpose (R30, R37). -/
def tileIdx (g : Gemm) (n chunk colTile : Nat) : Nat :=
  if g.kind = 1 then (g.col0 / 16 + colTile) * (n / 16) + (16 * g.kb0 + chunk)
  else (16 * g.kb0 + chunk) * (n / 16) + (g.col0 / 16 + colTile)

/-- Every tile of a share, by chunk and then column tile. -/
def shareTiles (at_ : Place) (w : Streams) (g : Gemm) (s : State) : Except Mism (List (List Tile)) :=
  (List.range (16 * g.kbn)).mapM fun c => (List.range (g.cols / 16)).mapM fun t => readTile at_ w (tileIdx g w.n c t) s

/-- The effective weight of a chunk at reduction position `i` and column `c` of a tile. -/
def effAt (kind : Nat) (t : Tile) (i c : Nat) : Int := if kind = 1 then t.eff c i else t.eff i c

/-- The decoded weight that the spillway multiplies (R64). -/
def wdec (kind : Nat) (t : Tile) (i c : Nat) : F32 := toFp32 (effAt kind t i c) t.e

/-! ### Partial sums (R60, R64, R65) -/

/-- The share's partial sums of one row: the accumulators of its columns, berm stage 1, non-finite, the sticky flag of guard-bit mode. -/
structure Partial where
  acc : List Int
  ub : List Int
  nonfin : Bool
  sticky : Bool := false
  deriving DecidableEq, Repr

/-- The effective operand values of a chunk of a row. -/
def chunkA (r : OpRow) (c : Nat) : CodeGroup × List Int :=
  let q := r.groups.getD (c / 2) { g := zeroGroup false 0 false, satFlag := false, nonfin := true, overs := [], counts := {} }
  (q.g, (List.range 16).map fun i => if q.nonfin then 0 else q.g.eff (16 * (c % 2) + i))

/-- A plane of a chunk's 16 operand codes and their zero point (R38, R61): the low plane, or every code outside a fall-back, and the high
plane of a fall-back. A zero or non-finite group runs as zeros. -/
def planeA (q : QGroup) (half : Nat) (high : Bool) : List Int × Int :=
  let at_ := fun i => q.g.codes.getD (16 * half + i) 0
  if q.nonfin || q.g.isZero then (List.replicate 16 0, 0)
  else if q.g.fb then ((List.range 16).map fun i => if high then planeHigh (at_ i) else (planeLow (at_ i) : Int), 0)
  else if high then (List.replicate 16 0, 0)
  else ((List.range 16).map at_, if q.g.uns then (q.g.zp : Int) else 0)

/-- The codes, the record and the zero point of a plane of a weight tile; a plane that a tile does not have, and a zero tile, run as codes
equal to their zero point (R33, R39). -/
def planeOf (t : Tile) (high : Bool) : List Nat × SideRec × Int :=
  let none_ := (zeroTile 0 false false).s
  if t.isZero || (high && !t.s.fb) then (List.replicate 256 8, none_, 8)
  else if high then (t.high, t.hrec, 8)
  else (t.codes, t.s, t.s.zp)

/-- The stored code at reduction position `i` and column `c` of a plane: a tile is read transposed in backward-data (R37). -/
def codeAt (kind : Nat) (codes : List Nat) (i c : Nat) : Int := codes.getD (if kind = 1 then 16 * c + i else 16 * i + c) 0

/-- The stored sum of a column of a plane: COLSUM in forward, ROWSUM in backward-data (R37, R61). -/
def colSum8 (kind : Nat) (r : SideRec) (c : Nat) : Int := (if kind = 1 then r.rowsum else r.colsum).getD c 0

/-- The stored sum of a reduction position of a plane (R62). -/
def rowSum8 (kind : Nat) (r : SideRec) (i : Nat) : Int := (if kind = 1 then r.colsum else r.rowsum).getD i 0

/-- The plane passes of a chunk-product: 2 × (operand's high plane) + (weight's high plane). -/
def passHigh (pass : Nat) : Bool × Bool := (pass / 2 % 2 == 1, pass % 2 == 1)

/-- What a pass counts for in the product: high planes are shifted left by 4 (R61). -/
def passWeight (pass : Nat) : Int := ((16 ^ (pass / 2 % 2 + pass % 2) : Nat) : Int)

/-- A pass of a chunk product by R61: raw codes, and the correction by the zero points and the stored sum. -/
def chunkPass (kind : Nat) (q : QGroup) (half : Nat) (t : Tile) (c pass : Nat) : Int :=
  let (ha, hw) := passHigh pass
  let (a, za) := planeA q half ha
  let (codes, r, zw) := planeOf t hw
  chunkRaw a ((List.range 16).map fun i => codeAt kind codes i c) za zw (colSum8 kind r c)

/-- A chunk product of the engine (R61). -/
def chunkProd (kind : Nat) (q : QGroup) (half : Nat) (t : Tile) (c : Nat) : Int :=
  ((List.range 4).map fun p => passWeight p * chunkPass kind q half t c p).sum

/-- The group of a row that a chunk lies in; past the row, one that counts for nothing. -/
def groupOf (r : OpRow) (c : Nat) : QGroup :=
  r.groups.getD (c / 2) { g := zeroGroup false 0 false, satFlag := false, nonfin := true, overs := [], counts := {} }

/-- The spillway terms of a block and column: (value, decoded weight) in list order. -/
def spillTerms (g : Gemm) (tiles : List (List Tile)) (r : OpRow) (b col : Nat) : List (F32 × F32) :=
  (r.spills b).map fun ox =>
    let t := (tiles.getD (16 * b + ox.1 / 16) []).getD (col / 16) (zeroTile 0 false false)
    (widen ox.2, wdec g.kind t (ox.1 % 16) (col % 16))

/-- The faults that no check saw, at a row, column and chunk of the task (R62). -/
def faultAt (fs : List (Nat × Nat × Nat × Int)) (m col c : Nat) : Int :=
  ((fs.filter fun f => f.1 == m && f.2.1 == col && f.2.2.1 == c).map fun f => f.2.2.2).sum

/-- The partial sums of row `m` of a share with anchor `ea` and berm anchor `eu`, in guard-bit mode or not (R72); `fu` are the stage-1
factor rows of the share. -/
def rowPartial (guard : Bool) (g : Gemm) (tiles : List (List Tile)) (fs : List (Nat × Nat × Nat × Int)) (m : Nat) (r : OpRow) (ea eu : Int)
    (fu : List (List F32)) : Partial :=
  let acc := (List.range g.cols).map fun n =>
    let chunks := (List.range (16 * g.kbn)).map fun c =>
      let q := groupOf r c
      let t := (tiles.getD c []).getD (n / 16) (zeroTile 0 false false)
      (chunkProd g.kind q (c % 2) t (n % 16) + faultAt fs m n c, q.g.e + t.e)
    let sp := (List.range g.kbn).map fun b => spillTerms g tiles r b n
    accumulate guard ea chunks ((sp.filter fun l => !spillNonFin l).map (spillTerm guard ea))
  let xs := (r.vals.zip fu).map fun x => (widen (toBf16 x.1), x.2)
  let ub := (List.range g.rank).map fun q => bermStage1 eu (pieces 256 g.kbn (xs.map fun x => (x.1, x.2.getD q 0)))
  { acc := acc.map (·.1), ub := ub, nonfin := r.nonfin, sticky := acc.any (·.2) }

/-- Add the partial sums of two shares; a sum beyond the int32 range of an element occurs only in a poisoned contribution. -/
def Partial.add (a b : Partial) : Partial :=
  { acc := a.acc.zipWith (· + ·) b.acc, ub := a.ub.zipWith (· + ·) b.ub, nonfin := a.nonfin || b.nonfin, sticky := a.sticky || b.sticky }

/-- The bytes of a row of partial sums: int32 each, then the non-finite flag. -/
def Partial.bytes (p : Partial) : Bytes := ((p.acc ++ p.ub).flatMap fun v => leBytes 4 (ofSigned 32 v)) ++ leBytes 4 (b2n p.nonfin)

/-- Read a row of partial sums of `n` columns and rank `r`. -/
def decodePartial (n r : Nat) (b : Bytes) : Partial :=
  { acc := (List.range n).map fun i => toSigned 32 (field b (4 * i) 4),
    ub := (List.range r).map fun i => toSigned 32 (field b (4 * (n + i)) 4), nonfin := field b (4 * (n + r)) 4 != 0 }

/-! ### Output (R66, R71, R107) -/

/-- The binary32 result of a row from its complete sums (R65, R66): berm stage 2, rotation of the output axis in sub-blocks of the global
index, where columns outside the task count as zeros (log entry 65), scale, bias, clip; a non-finite row is NaN throughout (R129). -/
def rowOut (g : Gemm) (p : Partial) (ea eu : Int) (fv : List (List F32)) (bias : List BF16) : List F32 :=
  let z := p.acc.zipIdx.map fun a =>
    outBase a.1 ea (if g.rank = 0 then none else some (bermStage2 eu (p.ub.zip (fv.getD a.2 []))))
  let z := if g.orot ∧ g.order ≠ 0 then
      let lead := g.col0 % g.order
      let n := upTo g.order (lead + z.length)
      ((rotateRow g.order (List.replicate lead 0 ++ z ++ List.replicate (n - lead - z.length) 0)).drop lead).take z.length
    else z
  if p.nonfin then z.map fun _ => nan32
  else z.zipIdx.map fun x => let v := outFinish x.1 g.osc (bias.getD x.2 0) g.clo g.chi; if isNan v then nan32 else v

/-- The gauges of a row's conversion: class O in the target's format. -/
def outGauge (g : Gemm) (z : List F32) : Nat × Nat × Counts := (6, if g.target = 0 then 5 else 6, { nonfin := z.countP fun v => !isFin v })

/-- Store one output row in its target format (R66): the state and the gauge increments of the quantised targets. A group of TARGET 2 is
quantised signed, with zero point 0 and the task's own threshold, and the extension entry of a fall-back group lies after the scales, 32
bytes for each group of the stream (log entries 45, 64). -/
def storeRow (im : JobImage) (t : TaskRec) (at_ : Place) (g : Gemm) (m : Nat) (z : List F32) (s : State) :
    State × List (Nat × Nat × Counts) :=
  let w := pitchOf im t.unit g.out (gemmKinds g 12).1 g.cols
  let padded := z ++ List.replicate (upTo 32 z.length - z.length) (0 : F32)
  let blocks := pieces 32 (padded.length / 32) padded
  match g.target with
  | 0 => (ptrWrite at_ g.out (2 * w * m) (bf16Bytes (z.map toBf16)) s, [])
  | 1 => (ptrWrite at_ g.out (4 * w * m) (f32Bytes z) s, [])
  | 2 =>
    let gs := blocks.map fun b => quantGroup b (List.replicate 32 false) false false false 0 g.theta false
    let rows := ((entryOf im t.unit g.out (gemmKinds g 12).1).map (·.dim0)).getD (g.row0 + g.rows)
    let first := groupAt w g.row0 g.col0
    let scale := 16 * (rows * (w / 32)) - 16 * first + 2 * first
    let exts := 18 * (rows * (w / 32)) - 16 * first
    let s := ptrWrite at_ g.out (w / 2 * m) (gs.flatMap fun q => q.g.data) s
    let s := gs.zipIdx.foldl (fun s q =>
      let i := groupAt w (g.row0 + m) g.col0 + q.2
      if q.1.g.fb && !q.1.nonfin then ptrWrite at_ g.out (exts + 32 * i) (q.1.g.ext i) s else s) s
    (ptrWrite at_ g.out (scale + w / 16 * m) (gs.flatMap fun q => leBytes 2 q.g.word) s,
      gs.map fun q => (gemmClass g.kind, groupFmt q.g, q.counts))
  | 5 =>
    match mxFmt g.mxo with
    | none => (s, [])
    | some f =>
      let bs := blocks.map (mxOut f)
      let k := mxBlockBytes f
      let rows := ((entryOf im t.unit g.out [0x19]).map (·.dim0)).getD (g.row0 + g.rows)
      let first := groupAt w g.row0 g.col0
      let s := ptrWrite at_ g.out (k * (w / 32) * m) (bs.flatMap fun b => mxPack f b.2.1) s
      (ptrWrite at_ g.out (k * (rows * (w / 32)) - k * first + first + w / 32 * m) (bs.map fun b => BitVec.ofNat 8 b.1) s,
        bs.map fun b => (7, 7 + g.mxo, b.2.2))
  | _ =>
    let qs := blocks.map fun b => quantStash b (g.target == 4)
    let first := groupAt w (g.row0 + m) g.col0
    let s := ptrWriteH .stream at_ g.out (w * m) (qs.flatMap fun q => q.1.data) s
    (ptrWriteH .stream at_ g.stscl (w / 8 * m) (qs.zipIdx.flatMap fun q => q.1.1.entry (first + q.2)) s, qs.map fun q => (4, 4, q.2))

/-- Stash an operand row as the quantiser read it (R107): signed groups at the row's place in the stash. -/
def stashRow (at_ : Place) (g : Gemm) (m : Nat) (r : OpRow) (s : State) : State × List (Nat × Nat × Counts) :=
  if ptrSpace g.stash = 0 then (s, [])
  else
    let qs := (pieces 32 (8 * g.kbn) r.vals).map fun b => quantStash b false
    let first := groupAt g.ktot (g.row0 + m) (256 * g.kb0)
    let s := ptrWriteH .stream at_ g.stash (g.ktot * m) (qs.flatMap fun q => q.1.data) s
    (ptrWriteH .stream at_ g.stscl (g.ktot / 8 * m) (qs.zipIdx.flatMap fun q => q.1.1.entry (first + q.2)) s, qs.map fun q => (4, 4, q.2))

/-- Write the spillway values of a row: S entries a block (R42). -/
def spillRow (at_ : Place) (g : Gemm) (m : Nat) (r : OpRow) (s : State) : State :=
  if g.cap = 0 then s
  else ptrWrite at_ g.spv (2 * g.cap * (g.ktot / 256) * m)
    ((List.range g.kbn).flatMap fun b => slice (bf16Bytes ((r.spills b).map (·.2))) 0 (2 * g.cap)) s

/-! ### Forward and backward-data products -/

/-- The operand rows of a share (R109): binary32 rows quantised with the channel lists of its blocks. -/
def gemmRows (im : JobImage) (t : TaskRec) (at_ : Place) (g : Gemm) (s : State) : Except Mism (List OpRow) := do
  let lists ← (List.range g.kbn).mapM fun b => readChan at_ g.chan g.cap (gemmClass g.kind) g.tensor (g.kb0 + b) s
  let w := pitchOf im t.unit g.asrc [0x01] g.ktot
  return (List.range g.rows).map fun m => quantRow g lists (readF32s at_ g.asrc (4 * w * m) (256 * g.kbn) s)

/-- The rows of a factor array that a range of indices selects. -/
def factorRows (at_ : Place) (v r first count : Nat) (s : State) : List (List F32) :=
  if r = 0 then [] else (List.range count).map fun k => (readBf16s at_ v (2 * r * (first + k)) r s).map widen

/-- MU and the non-finite flag of each row of a share. -/
def rowMus (rows : List OpRow) : List (Int × Bool) := rows.map fun r => (r.mu, r.nonfin)

/-- The INT8 chunk-products of a share (R88): per slab of 32 rows, column tile of 32 and chunk. -/
def int8Count (rows : List (List Bool)) (tiles : List (List Bool)) (cols : Nat) : Nat :=
  ((List.range (cdiv rows.length 32)).map fun sl =>
    let slab := (rows.drop (32 * sl)).take 32
    ((List.range tiles.length).map fun c =>
      let fb := slab.any fun r => r.getD (c / 2) false
      ((List.range (cdiv cols 32)).filter fun t =>
        fb || (tiles.getD c []).getD (2 * t) false || (tiles.getD c []).getD (2 * t + 1) false).length).sum).sum

/-- The width of the output of a forward or backward-data product. -/
def outWidth (im : JobImage) (g : Gemm) : Nat := if g.kind = 1 then weightK im g.tensor else weightN im g.tensor

/-- Mark the rows of a share with a non-finite spillway term in any output column of the tensor (R64), whichever columns the task has. -/
def markSpills (im : JobImage) (at_ : Place) (w : Streams) (g : Gemm) (rows : List OpRow) (s : State) : Except Mism (List OpRow) :=
  if g.cap = 0 ∨ rows.all (fun r => r.lists.all List.isEmpty) then .ok rows
  else do
    let wide := { g with col0 := 0, cols := outWidth im g }
    let tiles ← shareTiles at_ w wide s
    let bad := fun (r : OpRow) => (List.range wide.cols).any fun n => (List.range g.kbn).any fun b => spillNonFin (spillTerms wide tiles r b n)
    return rows.map fun r => { r with spillBad := bad r }

/-- The partial sums of a forward or backward-data share, given the job-wide MU of its rows. -/
def gemmPartials (guard : Bool) (at_ : Place) (g : Gemm) (tiles : List (List Tile)) (rows : List OpRow) (mus : List (Int × Bool))
    (fs : List (Nat × Nat × Nat × Int)) (s : State) : List Partial :=
  let (nu, ux) := readTctl at_ g.tctl s
  let fu := factorRows at_ (if g.kind = 1 then g.bermv else g.bermu) g.rank (256 * g.kb0) (256 * g.kbn) s
  rows.zipIdx.map fun r =>
    let mu := (mus.getD r.2 (-124, false)).1
    let p := rowPartial guard g tiles fs r.2 r.1 (eacc mu nu g.ktot) (eacc mu ux g.ktot) fu
    { p with nonfin := p.nonfin || (mus.getD r.2 (-124, false)).2 }

/-- Convert and store complete rows: the state, the gauge increments, and the non-finite conversions. -/
def gemmStore (im : JobImage) (t : TaskRec) (at_ : Place) (g : Gemm) (ps : List Partial) (mus : List (Int × Bool)) (s : State) :
    State × List (Nat × Nat × Counts) × Nat :=
  let (nu, ux) := readTctl at_ g.tctl s
  let fv := factorRows at_ (if g.kind = 1 then g.bermu else g.bermv) g.rank g.col0 g.cols s
  let bias := if ptrSpace g.bias = 0 then [] else readBf16s at_ g.bias (2 * g.col0) g.cols s
  ps.zipIdx.foldl (fun x p =>
    let mu := (mus.getD p.2 (-124, false)).1
    let z := rowOut g p.1 (eacc mu nu g.ktot) (eacc mu ux g.ktot) fv bias
    let (s, gs) := storeRow im t at_ g p.2 z x.1
    (s, x.2.1 ++ outGauge g z :: gs, x.2.2 + z.countP fun v => !isFin v)) (s, [], 0)

/-- The side effects of quantising a share's operand: extension entries, spillway values, the stash, gauges, over-range counts and the
INT8 chunk-products. An operand element counts once, in the share of the first output columns (R102). -/
def operandFx (at_ : Place) (g : Gemm) (rows : List OpRow) (tiles : List (List Tile)) (s : State) : State × TaskFx :=
  let exts := rows.zipIdx.flatMap fun r => (r.1.groups.zipIdx.filter fun q => q.1.g.fb && !q.1.nonfin).map fun q =>
    q.1.g.ext (groupAt g.ktot (g.row0 + r.2) (256 * g.kb0) + q.2)
  let s := ptrWrite at_ g.aext 0 exts.flatten s
  let s := rows.zipIdx.foldl (fun s r => spillRow at_ g r.2 r.1 s) s
  let (s, st) := rows.zipIdx.foldl (fun x r => let (s, gs) := stashRow at_ g r.2 r.1 x.1; (s, x.2 ++ gs)) (s, [])
  let once := g.col0 == 0
  (s, { gauges := (if once then rows.flatMap fun r => r.gauges (gemmClass g.kind) g.uns else []) ++ st,
        overs := if once && g.cap != 0 then rows.flatMap fun r => r.overs (overKey g) g.kb0 else [],
        nfFwd := if g.kind = 0 then ((rows.flatMap (·.groups)).filter (·.nonfin)).length else 0,
        int8 := int8Count (rows.map fun r => r.groups.map fun q => q.g.fb) (tiles.map fun l => l.map fun t => t.s.fb) g.cols })

/-! ### Weight-gradient products (R67, R68, R109) -/

/-- A column of an operand quantised along the batch: groups of 32 rows (R109). -/
def quantColumn (g : Gemm) (uns : Bool) (x : List F32) : OpRow :=
  let gs := (pieces 32 (8 * g.kbn) x).map fun b => quantGroup b (List.replicate 32 false) false true uns (if uns then g.zpt else 0) g.theta false
  { groups := gs, vals := x, lists := [] }

/-- The decoded stash of a weight-gradient task by row of the batch: the groups that cover its share of K. -/
def stashRows (im : JobImage) (t : TaskRec) (at_ : Place) (g : Gemm) (s : State) : Except Mism (List (List F32)) :=
  let w := pitchOf im t.unit g.asrc [0x0E] g.rows
  let g0 := groupAt w (256 * g.kb0) g.row0
  (List.range (256 * g.kbn)).mapM fun m =>
    ((List.range (g.rows / 32)).mapM fun q => readStash at_ (g.asrc - 32 * g0) (g.ascl - 4 * g0) (g0 + m * (w / 32) + q) s).map List.flatten

/-- The value of a reduction block of one output element: its sixteen aligned chunks (R67, R68, R72). -/
def wgradBlock (guard : Bool) (ea : Int) (fs : List (Nat × Nat × Nat × Int)) (m n b : Nat) (x y : OpRow) : Int :=
  ((List.range 16).map fun j =>
    let c := 16 * b + j
    let (ga, a) := chunkA x c
    let (gb, w) := chunkA y c
    alignChunk guard (chunkSum a w + faultAt fs m n c) (ga.e + gb.e - if guard then ea - 3 else ea)).sum

/-- The quantised operands of a weight-gradient share: columns of the stash, columns of the incoming gradient. -/
def wgradOps (im : JobImage) (t : TaskRec) (at_ : Place) (g : Gemm) (s : State) : Except Mism (List OpRow × List OpRow) := do
  let xs ← stashRows im t at_ g s
  let w := pitchOf im t.unit g.bsrc [0x01, 0x0D] g.cols
  let ys := (List.range (256 * g.kbn)).map fun m => readF32s at_ g.bsrc (4 * w * m) g.cols s
  let xa := xs.map List.toArray
  let ya := ys.map List.toArray
  return ((List.range g.rows).map fun k => quantColumn g g.uns (xa.map fun r => r.getD k 0),
    (List.range g.cols).map fun n => quantColumn g false (ya.map fun r => r.getD n 0))

/-- The elements of a weight-gradient share by row: the exact sum of the block values, and how many of them reached Λ (R68). -/
def wgradShare (guard : Bool) (nb : Nat) (sc : Int) (g : Gemm) (fs : List (Nat × Nat × Nat × Int)) (x y : List OpRow) : List (List (Int × Nat)) :=
  x.zipIdx.map fun k => y.zipIdx.map fun n =>
    let bs := (List.range g.kbn).map fun b => wgradBlock guard (sc - 31) fs k.2 n.2 b k.1 n.1
    (bs.sum, bs.countP fun b => decide (lambda nb ≤ (b.natAbs : Int)))

/-- The element that a sum of block values gives: clamped by its sign where some block reached Λ (R68). -/
def clampSum (x : Int × Nat) : Int := if x.2 = 0 then x.1 else if 0 ≤ x.1 then 2 ^ 31 - 1 else -(2 ^ 31 - 1)

/-- The extension entries of a weight-gradient share (R38): the fall-back groups of X by column of X, then those of dY by column of dY,
numbered along the batch axis (log entry 64). -/
def wgradExts (g : Gemm) (x y : List OpRow) : Bytes :=
  let exts := fun (first : Nat) (l : List OpRow) => l.zipIdx.flatMap fun r =>
    (r.1.groups.zipIdx.filter fun q => q.1.g.fb && !q.1.nonfin).flatMap fun q => q.1.g.ext (groupAt g.ktot (first + r.2) (256 * g.kb0) + q.2)
  exts g.row0 x ++ exts g.col0 y

/-! ### MX products (R69 to R71) -/

/-- The blocks of an MX operand row. -/
def mxRow (at_ : Place) (f : MxFmt) (data scale : Nat) (k m : Nat) (s : State) : List (Nat × List Nat) :=
  (List.range (k / 32)).map fun b =>
    let i := m * (k / 32) + b
    (leVal (ptrRead at_ scale i 1 s), mxCodes f (ptrRead at_ data (mxBlockBytes f * i) (mxBlockBytes f) s))

/-- An MX product: the rows of the result, and the blocks that are non-finite by operand (R49, R70). -/
def mxRows (at_ : Place) (fa fb : MxFmt) (g : Gemm) (s : State) : List (List F32 × Bool) × Nat × Nat :=
  let k := g.ktot
  let a := (List.range g.rows).map fun m => mxRow at_ fa g.asrc g.ascl k m s
  let b := (List.range g.cols).map fun n => mxRow at_ fb g.bsrc g.bside k n s
  let bad := fun (f : MxFmt) (r : List (Nat × List Nat)) => (r.filter fun x => mxNonFin f x.1 x.2).length
  let bias := if ptrSpace g.bias = 0 then [] else readBf16s at_ g.bias (2 * g.col0) g.cols s
  (a.map fun ra =>
    (b.zipIdx.map fun rb =>
      let z := mxSum ((ra.zip rb.1).map fun p => mxPair fa fb p.1.1 p.2.1 p.1.2 p.2.2)
      let v := outFinish z g.osc (bias.getD rb.2 0) g.clo g.chi
      if bad fa ra + bad fb rb.1 ≠ 0 ∨ isNan v then nan32 else v, decide (bad fa ra ≠ 0)),
    (a.map (bad fa)).sum, (b.map (bad fb)).sum)

end Sys2Proof.Machine
end

