-- ==== Sys2Proof/Machine/VecRun.lean ====
section
/-! DEFINITION. What a VECTOR task computes (R105, R106, R107, R111 to R114, R132; Tables 6.28, 6.29). A row that is cut across
holders takes its row sums in phases: each phase is exchanged before the next (R106). -/

namespace Sys2Proof.Machine

/-! ### Row sums (R106) -/

/-- What other holders have sent: for each phase and row the parts in ascending block order. -/
structure RowEnv where
  cut : Bool
  recs : List (List (List F32))

/-- A row computation: it ends, or needs a phase to which this holder brings the given parts. -/
abbrev VecM := Except (Nat × List (List F32))

/-- The block sums of a row (R106). -/
def rowParts (v : List F32) : List F32 :=
  let n := cdiv v.length 256
  (pieces 256 n (v ++ List.replicate (n * 256 - v.length) 0)).map blockSum

/-- The sum of each row at a phase. -/
def sumAt (env : RowEnv) (k : Nat) (rows : List (List F32)) : VecM (List F32) :=
  if !env.cut then .ok (rows.map rowSum)
  else match env.recs[k]? with
    | some r => .ok (r.map fun l => l.foldl fadd 0)
    | none => .error (k, rows.map rowParts)

/-- The maximum of each row at a phase; exact in any order (R106). -/
def maxAt (env : RowEnv) (k : Nat) (rows : List (List F32)) : VecM (List F32) :=
  let mx := fun (l : List F32) => l.tail.foldl vmax (l.headD 0xFF800000#32)
  if !env.cut then .ok (rows.map mx)
  else match env.recs[k]? with
    | some r => .ok (r.map mx)
    | none => .error (k, rows.map fun l => [mx l])

/-- Combine rows with one scalar each. -/
def byRow (f : F32 → F32 → F32) (rows : List (List F32)) (c : List F32) : List (List F32) :=
  rows.zipWith (fun r x => r.map fun v => f v x) c

/-- Combine two matrices element by element. -/
def byElem (f : F32 → F32 → F32) (a b : List (List F32)) : List (List F32) := a.zipWith (fun r q => r.zipWith f q) b

/-- Scale every row sum by 1/n. -/
def meanOf (n : Nat) (l : List F32) : List F32 := l.map fun v => fmul v (invN n)

/-! ### Norms and soft-maximum (R113) -/

/-- Layer norm: the normalised rows and r, from phase `k`. -/
def layerFwd (env : RowEnv) (k n : Nat) (eps : F32) (x : List (List F32)) : VecM (List (List F32) × List F32) := do
  let mu := meanOf n (← sumAt env k x)
  let d := byRow fsub x mu
  let var := meanOf n (← sumAt env (k + 1) (byElem fmul d d))
  let r := var.map fun v => fdiv f1 (fsqrt (fadd v eps))
  return (byRow fmul d r, r)

/-- RMS norm: the normalised rows and r, from phase `k`. -/
def rmsFwd (env : RowEnv) (k n : Nat) (eps : F32) (x : List (List F32)) : VecM (List (List F32) × List F32) := do
  let q := meanOf n (← sumAt env k (byElem fmul x x))
  let r := q.map fun v => fdiv f1 (fsqrt (fadd v eps))
  return (byRow fmul x r, r)

/-- Gain and offset of a row. -/
def affine (gamma beta : List F32) (x : List (List F32)) : List (List F32) :=
  x.map fun r => ((r.zip gamma).zip beta).map fun t => fadd (fmul t.1.1 t.1.2) t.2

/-- The backward pass of a norm, from phase `k`; `centred` for the layer norm. -/
def normBack (env : RowEnv) (k n : Nat) (centred : Bool) (gamma : List F32) (dy xh : List (List F32)) (r : List F32) :
    VecM (List (List F32)) := do
  let dxh := dy.map fun row => row.zipWith fmul gamma
  let d ← if centred then do
      let a := meanOf n (← sumAt env k dxh)
      pure (byRow fsub dxh a)
    else pure dxh
  let b := meanOf n (← sumAt env (k + b2n centred) (byElem fmul dxh xh))
  return byRow (fun v c => fmul c v) (byElem fsub d (byRow fmul xh b)) r

/-- Soft-maximum, from phase `k`. -/
def softFwd (env : RowEnv) (k : Nat) (x : List (List F32)) : VecM (List (List F32)) := do
  let mx ← maxAt env k x
  let e := (byRow fsub x mx).map fun r => r.map fexp
  let t ← sumAt env (k + 1) e
  return byRow fmul e (t.map fun v => fdiv f1 v)

/-- Soft-maximum backward, from phase `k`. -/
def softBack (env : RowEnv) (k : Nat) (dy y : List (List F32)) : VecM (List (List F32)) := do
  let c ← sumAt env k (byElem fmul dy y)
  return byElem fmul y (byRow fsub dy c)

/-! ### Operations (Table 6.29) -/

/-- The inputs of a VECTOR task beside its rows. -/
structure VecIn where
  n : Nat
  src2 : List (List F32)
  saved : List (List F32)
  r : List F32
  gamma : List F32
  beta : List F32

/-- The state of a VECTOR task between operations: rows, next phase, what is stashed, the row scalars, the terms of dγ and dβ, whether
the rows are a soft-maximum's output, the loss elements, and db of a gated derivative (R112). -/
structure VecSt where
  rows : List (List F32)
  k : Nat
  stash : List (List F32)
  uns : Bool
  rowsc : List F32
  gterms : List (List F32)
  bterms : List (List F32)
  soft : Bool
  loss : List F32
  db : List (List F32)

/-- Stash rows when the operation asks for it (R107). -/
def VecSt.keep (o : VecOp) (l : List (List F32)) (x : VecSt) : VecSt := if o.stashOut then { x with stash := l, uns := o.uns } else x

/-- One operation. -/
def vecOp (env : RowEnv) (i : VecIn) (o : VecOp) (x : VecSt) : VecM VecSt :=
  let plain := { x with soft := false }
  match o.op with
  | 0x20 => do
    let (xh, r) ← layerFwd env x.k i.n o.param x.rows
    return VecSt.keep o xh { plain with rows := affine i.gamma i.beta xh, k := x.k + 2, rowsc := r }
  | 0x22 => do
    let (xh, r) ← rmsFwd env x.k i.n o.param x.rows
    return VecSt.keep o xh { plain with rows := affine i.gamma i.beta xh, k := x.k + 1, rowsc := r }
  | 0x21 => do
    let dx ← normBack env x.k i.n true i.gamma x.rows i.saved i.r
    return { plain with rows := dx, k := x.k + 2, gterms := byElem fmul x.rows i.saved, bterms := x.rows }
  | 0x23 => do
    let dx ← normBack env x.k i.n false i.gamma x.rows i.saved i.r
    return { plain with rows := dx, k := x.k + 1, gterms := byElem fmul x.rows i.saved, bterms := x.rows }
  | 0x24 => do
    let y ← softFwd env x.k x.rows
    return VecSt.keep o y { x with rows := y, k := x.k + 2, soft := true }
  | 0x25 => do
    let dx ← softBack env x.k x.rows i.saved
    return { plain with rows := dx, k := x.k + 1 }
  | 0x30 => let y := byElem fadd x.rows i.src2; .ok (VecSt.keep o y { plain with rows := y })
  | 0x40 => do
    let y ← if x.soft then pure x.rows else softFwd env x.k x.rows
    return VecSt.keep o y { plain with rows := (byElem fsub y i.src2).map fun r => r.map fun v => fmul v o.param,
                                       k := x.k + (if x.soft then 0 else 2),
                                       loss := x.rows.zipIdx.map fun r => Config.lossOf r.1 (i.src2.getD r.2 []) }
  | op =>
    if 0x11 ≤ op then
      if o.gated then
        .ok { plain with rows := byElem fmul (byElem fmul x.rows i.src2) (i.saved.map fun r => r.map (derivFromInput (op - 0x10) o.param)),
                         db := byElem fmul x.rows (i.saved.map fun r => r.map (activation (op - 0x10) o.param)) }
      else .ok { plain with rows := byElem fmul x.rows (i.saved.map fun r => r.map (derivative (op - 0x10) o.param)) }
    else
      let y := x.rows.map fun r => r.map (activation op o.param)
      if o.gated then .ok (VecSt.keep o (x.rows ++ i.src2) { plain with rows := byElem fmul y i.src2 })
      else .ok (VecSt.keep o (if op ≤ 6 then y else x.rows) { plain with rows := y })

/-! ### The task -/

/-- The columns of a row that a holder has: first column, width. A row that is cut lies in equal shares of the source's padded width
in holder order (log entry 44). -/
def vecShare (im : JobImage) (t : TaskRec) (v : VecBody) : Nat × Nat :=
  if v.peers = 0 then (0, v.cols)
  else
    let w := pitchOf im t.unit v.src [0x01, 0x0D] v.cols
    (w, w)

/-- Rows of a binary32 stream through a pointer at their first row. -/
def vecRows (im : JobImage) (t : TaskRec) (at_ : Place) (p rows n : Nat) (s : State) : List (List F32) :=
  let w := pitchOf im t.unit p [0x01, 0x0D] n
  (List.range rows).map fun m => readF32s at_ p (4 * w * m) n s

/-- The row length of the stash that a VECTOR task writes or reads. -/
def stashWidth (im : JobImage) (t : TaskRec) (v : VecBody) : Nat := pitchOf im t.unit v.stash [0x0E] (upTo 32 v.cols)

/-- The decoded stash rows of a VECTOR task from column `c0`, `n` values each. -/
def vecSaved (im : JobImage) (t : TaskRec) (at_ : Place) (v : VecBody) (c0 n : Nat) (s : State) : Except Mism (List (List F32)) :=
  let w := stashWidth im t v
  let g0 := groupAt w v.row0 c0
  (List.range v.rows).mapM fun m =>
    ((List.range (cdiv n 32)).mapM fun q => readStash at_ (v.stash - 32 * g0) (v.stscl - 4 * g0) (g0 + m * (w / 32) + q) s).map
      fun l => (l.flatten).take n

/-- Store stash rows of `n` values, the rows of a second input after those of the first. -/
def storeStash (im : JobImage) (t : TaskRec) (at_ : Place) (v : VecBody) (c0 : Nat) (uns : Bool) (rows : List (List F32)) (s : State) :
    State × List (Nat × Nat × Counts) :=
  let w := stashWidth im t v
  rows.zipIdx.foldl (fun x r =>
    let padded := r.1 ++ List.replicate (upTo 32 r.1.length - r.1.length) (0 : F32)
    let qs := (pieces 32 (padded.length / 32) padded).map fun b => quantStash b uns
    let first := groupAt w (v.row0 + r.2) c0
    let s := ptrWriteH .stream at_ v.stash (w * r.2) (qs.flatMap fun q => q.1.data) x.1
    (ptrWriteH .stream at_ v.stscl (w / 8 * r.2) (qs.zipIdx.flatMap fun q => q.1.1.entry (first + q.2)) s, x.2 ++ qs.map fun q => (4, 4, q.2))) (s, [])

/-- A vector-parameter gradient over the rows of the task, cut at the 256-row blocks of the batch (R114): the elements, whether a term
was non-finite, and how many blocks reached Λ. -/
def vparamGrad (nb : Nat) (sc : Int) (row0 : Nat) (terms : List (List F32)) : List Int × Bool × Nat :=
  let n := (terms.headD []).length
  let cols := (List.range n).map fun j =>
    let bs := (List.range (cdiv (row0 % 256 + terms.length) 256)).map fun b =>
      vparamBlock sc ((terms.zipIdx.filter fun r => (row0 % 256 + r.2) / 256 == b).map fun r =>
        let v := r.1.getD j 0
        if isFin v then v else 0)
    (wgradElem nb bs, bs.countP fun b => decide (lambda nb ≤ (b.natAbs : Int)))
  (cols.map (·.1.1), terms.any fun r => r.any fun v => !isFin v, (cols.map (·.2)).sum)

/-- What a VECTOR task finds in memory. -/
def vecInput (im : JobImage) (t : TaskRec) (at_ : Place) (v : VecBody) (c0 n : Nat) (s : State) : Except Mism VecIn := do
  let back := v.ops.any fun o => vecBackward o.op
  let gated := v.ops.any fun o => o.gated
  let src2 := if ptrSpace v.src2 = 0 then [] else vecRows im t at_ v.src2 v.rows n s
  let saved ← if !back then pure []
    else if ptrSpace v.src2 ≠ 0 ∧ !gated then pure src2
    else vecSaved im t at_ v c0 n s
  let param := fun p d => if ptrSpace p = 0 then List.replicate n d else (readBf16s at_ p (2 * c0) n s).map widen
  return { n := v.cols, src2 := src2, saved := saved,
           r := if back && ptrSpace v.rowsc != 0 then readF32s at_ v.rowsc 0 v.rows s else List.replicate v.rows f1,
           gamma := param v.param1 f1, beta := param v.param2 0 }

/-- Run the operations over the rows of a task. -/
def vecEval (env : RowEnv) (v : VecBody) (i : VecIn) (rows : List (List F32)) : VecM VecSt :=
  v.ops.foldlM (fun x o => vecOp env i o x)
    { rows := rows, k := 0, stash := [], uns := false, rowsc := [], gterms := [], bterms := [], soft := false, loss := [], db := [] }

/-- Store what a VECTOR task computed: the rows of db after those of da (log entry 44). -/
def vecStore (im : JobImage) (t : TaskRec) (at_ : Place) (v : VecBody) (c0 : Nat) (sc : Int) (nb : Nat) (x : VecSt) (s : State) :
    State × TaskFx :=
  let n := (x.rows.headD []).length
  let w := pitchOf im t.unit v.dst [0x01, 0x0D] n
  let s := (x.rows ++ x.db).zipIdx.foldl (fun s r => ptrWrite at_ v.dst (4 * w * r.2) (f32Bytes (r.1 ++ List.replicate (w - n) 0)) s) s
  let (s, st) := storeStash im t at_ v c0 x.uns x.stash s
  let s := if x.rowsc.isEmpty then s else ptrWriteH .stream at_ v.rowsc 0 (f32Bytes x.rowsc) s
  let bt := if x.bterms.isEmpty then x.rows else x.bterms
  let (dg, nf1, b1) := if v.pten1 = 0 ∨ x.gterms.isEmpty then ([], false, 0) else vparamGrad nb sc v.row0 x.gterms
  let wantB := v.pten2 ≠ 0 ∨ (v.pten1 ≠ 0 ∧ x.gterms.isEmpty)
  let (db, nf2, b2) := if wantB then vparamGrad nb sc v.row0 bt else ([], false, 0)
  let on := ptrSpace v.grad != 0
  let s := if on then ptrWrite at_ v.grad 0 ((dg ++ db).flatMap fun e => leBytes 4 (ofSigned 32 e)) s else s
  let s := ptrWrite at_ v.loss 0 (f32Bytes x.loss) s
  let li := x.loss.map lossInt
  (s, { pnf := on && (nf1 || nf2), psat := on && decide (0 < b1 + b2),
        gauges := st ++ [(3, 3, { satBlk := if on then b1 + b2 else 0 }), (6, 6, { sat := li.countP (·.2.1), nonfin := li.countP (·.2.2) })],
        loss := (li.map (·.1)).sum, nfLoss := li.countP (·.2.2) })

end Sys2Proof.Machine
end

