-- ==== Sys2Proof/Machine/UpdRun.lean ====
section
/-! DEFINITION. What an UPDATE task does (R85, R91, R95 to R97, R117 to R128, R290): the optimizer, the tiles, the berm factors, the
channel lists, NU and UX; and the same regeneration for a restore, a load and a second stream mismatch (R99, R295). -/

namespace Sys2Proof.Machine

/-! ### Facts of the image about a weight tensor -/

/-- A GEMM body of a KIND that uses a weight tensor. -/
def gemmOf (im : JobImage) (kind tensor : Nat) : Option Gemm := (gemms im).find? fun g => g.kind == kind && g.tensor == tensor

/-- The rotation order of a weight tensor (R82). -/
def tensorOrder (im : JobImage) (tensor : Nat) : Nat :=
  ((gemms im).find? fun g => decide (g.kind < 2) && g.tensor == tensor).map (·.order) |>.getD 0

/-- The spillway capacities of the forward and the backward-data operand. -/
def tensorCaps (im : JobImage) (tensor : Nat) : Nat × Nat :=
  (((gemmOf im 0 tensor).map (·.cap)).getD 0, ((gemmOf im 1 tensor).map (·.cap)).getD 0)

/-- The UPDATE tasks of a tensor in this image. -/
def updTasks (im : JobImage) (tensor : Nat) : List TaskRec :=
  im.tasks.filter fun t => t.dtype == 3 && (decodeUpd t.body).tensor == tensor

/-- Where a U task runs. -/
def updPlace (t : TaskRec) : Place := .stack (unitStack t.unit)

/-- The reduction that fills a reduced buffer. -/
def redInto (im : JobImage) (buf : Nat) : Option PlanEntry :=
  im.plan.find? fun r => ptrSpace buf != 0 && r.dst ≤ buf && buf < r.dst + elemSize r.kind * r.elems

/-- The uses of a tensor: (reduced buffer, contract slot), one for an untied tensor (R117). -/
def updUses (at_ : Place) (u : UpdBody) (s : State) : List (Nat × Nat) :=
  if u.nuses = 0 then [(u.rbuf, u.cslot)]
  else (List.range u.nuses).map fun i =>
    let b := ptrRead at_ u.uses (16 * i) 16 s
    (field b 0 8, field b 8 4)

/-! ### Tiles, factors, control record -/

/-- The stored master weights of a shard, widened. -/
def shardMaster (t : TaskRec) (u : UpdBody) (s : State) : List F32 := (readBf16s (updPlace t) u.master 0 u.count s).map widen

/-- Whether the channel list of a forward block is non-empty (the SPILL flag, Table 2.4). -/
def blockSpills (im : JobImage) (t : TaskRec) (u : UpdBody) (s : State) (b : Nat) : Bool :=
  (tensorCaps im u.tensor).1 != 0 && ptrSpace u.chan != 0 && leVal (ptrRead (updPlace t) u.chan (32 * b) 1 s) != 0

/-- Write the tiles of a shard from the stored master weights (R126); the outlier threshold is the default 3 of R85, which no
descriptor field overrides. -/
def regenTiles (im : JobImage) (t : TaskRec) (s : State) : State × List (Tile × Counts) :=
  let u := decodeUpd t.body
  let n := weightN im u.tensor
  if ptrSpace u.codes = 0 ∨ n = 0 then (s, [])
  else
    let order := tensorOrder im u.tensor
    let i0 := shardTile n u
    let ts := shardTiles (shardMaster t u s) n u.count 3 (order != 0) (ptrSpace u.bermu != 0) (blockSpills im t u s) i0
    (writeTiles (updPlace t) (updStreams im u order) (weightK im u.tensor / 16 * (n / 16)) i0 (ptrSpace u.bermu != 0) (ts.map (·.1)) s, ts)

/-- The berm rank of a tensor: the row length of its factor U. -/
def bermRank (im : JobImage) (tensor : Nat) : Nat := ((entryFor im tensor 0x09).map (·.dim1)).getD 0

/-- The columns of a stored factor of `rows` rows and rank `r`. -/
def factorCols (at_ : Place) (v rows r : Nat) (s : State) : List (List F32) :=
  let m := (List.range rows).map fun i => ((readBf16s at_ v (2 * r * i) r s).map widen).toArray
  (List.range r).map fun q => m.map fun row => row.getD q 0

/-- Store rows of a factor given as columns, row-major, from row `first`. -/
def putFactor (at_ : Place) (v first rows : Nat) (cols : List (List F32)) (s : State) : State :=
  let a := cols.map fun c => c.toArray
  ptrWrite at_ v (2 * cols.length * first) ((List.range rows).flatMap fun i => bf16Bytes (a.map fun c => toBf16 (c.getD i 0))) s

/-- Replace the berm record of a tensor (R97): norms before and after, column resets. -/
def putBerm (tensor : Nat) (before after : F32) (resets : Nat) (s : State) : State :=
  { s with exec := { s.exec with bermRecs :=
      (tensor, toBf16 before, toBf16 after, resets) :: s.exec.bermRecs.filter fun b => b.1 != tensor } }

/-- Insert a U task into a list in ascending FIRST. -/
def insShard (t : TaskRec) : List TaskRec → List TaskRec
  | [] => [t]
  | x :: l => if (decodeUpd t.body).first < (decodeUpd x.body).first then t :: x :: l else x :: insShard t l

/-- The U tasks of a tensor in ascending FIRST. -/
def updShards (im : JobImage) (tensor : Nat) : List TaskRec := (updTasks im tensor).foldl (fun l t => insShard t l) []

/-- The residual ρ of a shard by row: the stored master weights less the decoded tiles that they give (R95, R126). -/
def shardResidual (im : JobImage) (t : TaskRec) (s : State) : List (List F32) :=
  let u := decodeUpd t.body
  let n := weightN im u.tensor
  let w := (shardMaster t u s).toArray
  let ts := shardTiles (shardMaster t u s) n u.count 3 (tensorOrder im u.tensor != 0) true (fun _ => false) (shardTile n u)
  let ta := (ts.map (·.1)).toArray
  let zt := zeroTile 0 false false
  (List.range (u.count / max 1 n)).map fun i => (List.range n).map fun j =>
    let ti := ta.getD (i / 16 * (n / 16) + j / 16) zt
    fsub (w.getD (i * n + j) 0) (toFp32 (ti.eff (i % 16) (j % 16)) ti.e)

/-- Form the factors of a tensor from the residual of its shards in this package and a previous V (R95, R96, R127), and the record of R97.
BERMU and BERMV are the arrays of the whole tensor (log entry 63). -/
def regenBerm (im : JobImage) (t : TaskRec) (vprev : List (List F32)) (s : State) : State :=
  let u := decodeUpd t.body
  let n := weightN im u.tensor
  let at_ := updPlace t
  let rho := (updShards im u.tensor).flatMap fun q => shardResidual im q s
  let k0 := (((updTasks im u.tensor).map fun q => (decodeUpd q.body).first).foldl min u.first) / max 1 n
  let (qs, vs) := bermFactors rho vprev
  let us := qs.map fun c => c.map fun x => widen (toBf16 x)
  let vs := vs.map fun c => c.map fun x => widen (toBf16 x)
  let norms := (List.range n).map fun j => bermNorms rho us vs j
  let reset := norms.map fun p => !flt p.2 p.1
  let vs' := vs.map fun c => c.zipWith (fun x b => if b then (0 : F32) else x) reset
  let frob := fun (l : List F32) => fsqrt (rowSum (l.map fun x => fmul x x))
  let s := putFactor at_ u.bermv 0 n vs' (putFactor at_ u.bermu k0 rho.length us s)
  putBerm u.tensor (frob (norms.map (·.1))) (frob (norms.map fun p => if flt p.2 p.1 then p.2 else p.1)) (reset.countP id) s

/-- Write NU and UX (R54): NU from every side record of the tensor in this package, UX from the stored factors (log entry 63). -/
def regenTctl (im : JobImage) (t : TaskRec) (s : State) : State :=
  let u := decodeUpd t.body
  let n := weightN im u.tensor
  let k := weightK im u.tensor
  let at_ := updPlace t
  let r := bermRank im u.tensor
  let w := updStreams im u 0
  let sides := (List.range (k / 16 * (n / 16))).map fun i => readSide at_ w i s
  let nu := maxExp (-123) ((sides.filter fun x => x.exp != 255).map fun x => (x.exp : Int) - 127 + (if x.fb then 7 else 4))
  let fs := if ptrSpace u.bermu = 0 then [] else readBf16s at_ u.bermu 0 (k * r) s ++ readBf16s at_ u.bermv 0 (n * r) s
  if ptrSpace u.codes = 0 ∨ ptrSpace u.tctl = 0 then s else ptrWrite at_ u.tctl 0 (tctlBytes nu (factorUx fs)) s

/-- Write the channel lists of a tensor as they were last written (R99). -/
def regenLists (im : JobImage) (tensor : Nat) (s : State) : State :=
  match entryFor im tensor 0x07 with
  | none => s
  | some e =>
    (s.exec.lists.filter fun l => decide (ptrAddr e.base ≤ l.1) && decide (l.1 < ptrAddr e.base + e.length)).foldl
      (fun s l => physWrite l.1 l.2 s) s

/-- Regenerate the tiles, the control record and the channel lists of every shard of a tensor (R99, R295). -/
def regenTensor (im : JobImage) (tensor : Nat) (s : State) : State :=
  (updTasks im tensor).foldl (fun s t => regenTctl im t (regenTiles im t s).1) (regenLists im tensor s)

/-! ### Channel lists (R91) -/

/-- Keep what a channel list holds, for a regeneration (R99). -/
def keepList (a : Nat) (b : Bytes) (s : State) : State :=
  { s with exec := { s.exec with lists := (a, b) :: s.exec.lists.filter fun l => l.1 != a } }

/-- Keep a run of channel lists from an address on. -/
def keepLists (a : Nat) (b : Bytes) (s : State) : State :=
  (List.range (b.length / 32)).foldl (fun s i => keepList (a + 32 * i) (slice b (32 * i) 32) s) s

/-- Grow the lists of one operand: `nb` lists from byte offset `o` of CHAN with capacity `cap`, counts from element `c` of COUNTS. -/
def growLists (at_ : Place) (u : UpdBody) (o c cap nb : Nat) (s : State) : State :=
  if cap = 0 ∨ ptrSpace u.chan = 0 ∨ ptrSpace u.counts = 0 then s
  else (List.range nb).foldl (fun s b =>
    match decodeChan (ptrRead at_ u.chan (o + 32 * b) 32 s) cap with
    | none => s
    | some l =>
      let counts := ptrRead at_ u.counts (4 * (c + 256 * b)) 1024 s
      let new := encodeChan (growChan l cap ((List.range 256).map fun i => (i, field counts (4 * i) 4)))
      keepList (ptrAddr u.chan + o + 32 * b) new (ptrWrite at_ u.chan (o + 32 * b) new s)) s

/-- The first channel list of one operand that fails its check (R41, R348): class A for the forward operand, G for the other. -/
def badList (at_ : Place) (u : UpdBody) (o cap nb cls : Nat) (s : State) : Option Mism :=
  if cap = 0 ∨ ptrSpace u.chan = 0 then none
  else ((List.range nb).find? fun b => (decodeChan (ptrRead at_ u.chan (o + 32 * b) 32 s) cap).isNone).map fun b =>
    { cls := cls, fmt := 0, skind := 0x07, tensor := u.tensor, addr := ptrAddr u.chan + o + 32 * b, index := b, space := ptrSpace u.chan }

/-- How many blocks of each operand of a tensor have channel lists: forward, backward-data. -/
def listBlocks (im : JobImage) (tensor : Nat) : Nat × Nat :=
  let (cf, cb) := tensorCaps im tensor
  (if cf = 0 then 0 else cdiv (weightK im tensor) 256, if cb = 0 then 0 else cdiv (weightN im tensor) 256)

/-- The channel list of a U task that is read as a stream mismatch, if one is. -/
def updBadList (im : JobImage) (t : TaskRec) (s : State) : Option Mism :=
  let u := decodeUpd t.body
  let (cf, cb) := tensorCaps im u.tensor
  let (nf, nb) := listBlocks im u.tensor
  (badList (updPlace t) u 0 cf nf 1 s).or (badList (updPlace t) u (32 * nf) cb nb 2 s)

/-- Update the channel lists of both operands of a tensor. -/
def updLists (im : JobImage) (t : TaskRec) (s : State) : State :=
  let u := decodeUpd t.body
  let (cf, cb) := tensorCaps im u.tensor
  let (nf, nb) := listBlocks im u.tensor
  growLists (updPlace t) u (32 * nf) (256 * nf) cb nb (growLists (updPlace t) u 0 0 cf nf s)

/-! ### The optimizer (R117, R120 to R124) -/

/-- The integers of an element range of a reduced buffer. -/
def readInts (at_ : Place) (v n : Nat) (s : State) : List Int :=
  let b := ptrRead at_ v 0 (4 * n) s
  (List.range n).map fun i => toSigned 32 (field b (4 * i) 4)

/-- The gradient sums of a shard and their scale: the reduced sums at the slot's scale, or the tied sums at the largest (R117, R120). -/
def updSums (t : TaskRec) (step : Nat) (s : State) : List Int × Int :=
  let u := decodeUpd t.body
  let uses := (updUses (updPlace t) u s).map fun b => ((readInts (updPlace t) b.1 u.count s).toArray, scaleOf b.2 step s)
  let smax := maxExp (-126) (uses.map (·.2))
  if u.nuses = 0 then ((uses.headD (#[], 0)).1.toList, (uses.headD (#[], 0)).2)
  else ((List.range u.count).map fun i => tiedSum (uses.map fun x => (x.1.getD i 0, x.2)) smax, smax)

/-- The exact sum of squares over the shards of the tensor that this package holds. -/
def localSquares (im : JobImage) (tensor step : Nat) (s : State) : Nat :=
  ((updTasks im tensor).flatMap fun t => ((updSums t step s).1.map fun n => n.natAbs * n.natAbs)).sum

/-- The reduction that adds Q over packages: the U128SUM whose reduced buffer belongs to the tensor (R117, R120; log entry 66). -/
def normRed (im : JobImage) (tensor : Nat) : Option PlanEntry :=
  im.plan.find? fun r => r.kind == 2 && im.tensors.any fun e => e.tensor == tensor && inEntry 0 r.dst e

/-- Q of R120: over every element of the tensor, from its reduction where the tensor has one. -/
def updSquares (im : JobImage) (at_ : Place) (tensor step : Nat) (s : State) : Nat :=
  match normRed im tensor with
  | some r => leVal (ptrRead at_ r.dst 0 16 s)
  | none => localSquares im tensor step s

/-- The learning rate of a step: the table's entry, or its last one (R121). -/
def learningRate (im : JobImage) (lrt step : Nat) : F32 :=
  let tab := im.lrtables.getD lrt []
  tab.getD (min step (tab.length - 1)) 0

/-- One element in place: its new state, saturations, non-finite. -/
def updElem (o : OptRec) (lr cl : F32) (seed step el : Nat) (n sc : Int) (old : BF16 × BF16 × BF16) : (BF16 × BF16 × BF16) × Nat × Bool :=
  storeElem seed step o.tensor el o.opt old (optElem o lr (widen old.1) (widen old.2.1) (widen old.2.2) (gradOf o n sc cl))

/-- Log the first non-finite element of a tensor in a step (R124). -/
def logNonFinite (step tensor stack el : Nat) (s : State) : State :=
  if s.exec.nfLogged.contains (step, tensor) then s
  else logEv 0x0024 (unitWord 3 stack 0) tensor el 0 0 { s with exec := { s.exec with nfLogged := (step, tensor) :: s.exec.nfLogged } }

/-- Run the optimizer over a shard (R119 steps 2 and 3): none when the clip factor is infinite (R120). -/
def updState (im : JobImage) (t : TaskRec) (step : Nat) (s : State) : Option (State × TaskFx) :=
  let u := decodeUpd t.body
  let at_ := updPlace t
  let o := decodeOpt (ptrRead at_ u.optrec 0 64 s)
  let (ns, sc) := updSums t step s
  match clipFactor o (updSquares im at_ u.tensor step s) sc with
  | none => none
  | some cl =>
    let o := o.advance
    let lr := learningRate im o.lrt step
    let w := readBf16s at_ u.master 0 u.count s
    let m := readBf16s at_ u.mom1 0 u.count s
    let v := if ptrSpace u.mom2 = 0 then List.replicate u.count 0 else readBf16s at_ u.mom2 0 u.count s
    let es := ((w.zip (m.zip v)).zip ns).zipIdx.map fun e => updElem o lr cl im.seed step (u.first + e.2) e.1.2 sc (e.1.1.1, e.1.1.2.1, e.1.1.2.2)
    let s := ptrWrite at_ u.master 0 (bf16Bytes (es.map (·.1.1))) s
    let s := ptrWrite at_ u.mom1 0 (bf16Bytes (es.map (·.1.2.1))) s
    let s := if ptrSpace u.mom2 = 0 then s else ptrWrite at_ u.mom2 0 (bf16Bytes (es.map (·.1.2.2))) s
    let s := ptrWrite at_ u.optrec 0 o.bytes s
    let s := match es.findIdx? (·.2.2) with
      | some i => logNonFinite step u.tensor (unitStack t.unit) (u.first + i) s
      | none => s
    some (s, { gauges := [(5, 5, { sat := (es.map (·.2.1)).sum, nonfin := es.countP (·.2.2) })] })

/-- Whether a step's verdict, or the poison of a reduction into any shard of the tensor, makes the U task skip (R20, R119, R128, R130, R131,
R134): a tensor is never updated in part. -/
def updSkips (im : JobImage) (t : TaskRec) (step : Nat) (s : State) : Bool :=
  (s.exec.verdicts.any fun v => v.step == step && v.done && v.skip) ||
    (updTasks im (decodeUpd t.body).tensor).any fun q => (updUses (updPlace q) (decodeUpd q.body) s).any fun b =>
      match redInto im b.1 with
      | some r => (redOf r.redid step s).pnf || (redOf r.redid step s).psat
      | none => false

/-- Keep V in the seed buffer and set the seed flag, before new factors are written (R290). -/
def keepSeed (im : JobImage) (t : TaskRec) (s : State) : State :=
  let u := decodeUpd t.body
  if ptrSpace u.seed = 0 then s
  else
    let n := weightN im u.tensor * bermRank im u.tensor
    let s := ptrWrite (updPlace t) u.seed 0 (leBytes 4 1 ++ ptrRead (updPlace t) u.bermv 0 (2 * n) s) s
    { s with exec := { s.exec with seedFlags := u.tensor :: s.exec.seedFlags.filter fun k => k != u.tensor } }

/-- Whether every other shard of a tensor in this package has been updated in a step: the U task that ends last forms the factors. -/
def lastShard (im : JobImage) (t : TaskRec) (step : Nat) (s : State) : Bool :=
  (updTasks im (decodeUpd t.body).tensor).all fun q => q.taskid == t.taskid || ((runOf q.taskid step s).map (·.st)) == some .committed

/-- A U task (R119). A frozen tensor updates nothing but its channel lists; a channel list that fails its check is a stream mismatch
(R41). An infinite gradient sum of squares is counted once, by the shard of element 0 (R120). -/
def runUpdate (im : JobImage) (t : TaskRec) (step : Nat) (s : State) : Except Mism (State × TaskFx) :=
  let u := decodeUpd t.body
  let at_ := updPlace t
  if updSkips im t step s then .ok (s, {})
  else
    match updBadList im t s with
    | some m => .error m
    | none =>
      if (decodeOpt (ptrRead at_ u.optrec 0 64 s)).opt = 0 then .ok (updLists im t s, {})
      else
        match updState im t step s with
        | none => .ok (s, { gauges := if u.first = 0 then [(5, 5, { nonfin := 1 })] else [] })
        | some (s, fx) =>
          let (s, ts) := regenTiles im t s
          let s := if ptrSpace u.bermu = 0 ∨ !lastShard im t step s then s
            else
              let vprev := factorCols at_ u.bermv (weightN im u.tensor) (bermRank im u.tensor) s
              regenBerm im t vprev (keepSeed im t s)
          let s := updLists im t s
          let s := (if lastShard im t step s then updTasks im u.tensor else [t]).foldl (fun s q => regenTctl im q s) s
          .ok (s, { fx with gauges := fx.gauges ++ ts.map fun x => (0, if x.1.s.fb then 2 else 1, x.2) })

end Sys2Proof.Machine
end

