-- ==== Sys2Proof/Machine/TaskRun.lean ====
section
/-! DEFINITION. A task's whole work (R139, R150, R356): the exchanges of a cut row (R54, R106, R129), the products, vector rows,
updates, moves and sends, and the prefetched copies that it reads (R175, R176). -/

namespace Sys2Proof.Machine

/-! ### Exchanges of a cut axis (R54, R106, R351) -/

/-- The peer set of a task; 0 when its axis is not cut. -/
def taskPset (t : TaskRec) : Nat :=
  match t.dtype with
  | 1 => (decodeGemm t.body).peers
  | 2 => (decodeVec t.body).peers
  | _ => 0

/-- A peer set of the image. -/
def psetOf (im : JobImage) (n : Nat) : Option PeerSet := if n = 0 then none else im.peers.find? fun p => p.pset == n

/-- The rank of a task among the tasks of its die that name its peer set, by START and then TASKID: it tells apart the exchanges of
one peer set. -/
def exchRank (im : JobImage) (t : TaskRec) : Nat :=
  (im.tasks.filter fun q => taskPset q == taskPset t && unitDie q.unit == unitDie t.unit &&
    (decide (q.start < t.start) || (q.start == t.start && decide (q.taskid < t.taskid)))).length

/-- The OFFSET of an EXCH message: die [1:0]; kind [3:2], 0 MU and non-finite bits, 1 partial sums, 2 row partials; phase [8:4]; rank
[19:9]; 4 KiB piece [31:20]. Table 9.4 fixes no layout (log entry 25, DESIGN CHOICE). -/
def exchOffset (die kind phase rank piece : Nat) : Nat :=
  die % 4 + 4 * (kind % 4) + 16 * (phase % 32) + 512 * (rank % 2048) + 1048576 * (piece % 4096)

/-- The pieces of an exchanged byte string: its length as a uint32 and its bytes, 4 KiB at a time. -/
def exchPieces (data : Bytes) : List (Nat × Bytes) :=
  let b := leBytes 4 data.length ++ data
  (List.range (cdiv b.length 4096)).map fun i => (i, (b.drop (4096 * i)).take 4096)

/-- Keep a record of an exchange; an equal key is replaced. -/
def putExch (r : ExchRec) (l : List ExchRec) : List ExchRec :=
  r :: l.filter fun x => !(x.pset == r.pset && x.step == r.step && x.src == r.src && x.offset == r.offset)

/-- Store a record of an exchange. -/
def storeExch (r : ExchRec) (s : State) : State := { s with exec := { s.exec with exch := putExch r s.exec.exch } }

/-- Keep this die's bytes of an exchange and send them to other packages. -/
def exchSend (im : JobImage) (t : TaskRec) (step kind phase : Nat) (dsts : List Nat) (data : Bytes) (s : State) : State :=
  (exchPieces data).foldl (fun s p =>
    let off := exchOffset (unitDie t.unit) kind phase (exchRank im t) p.1
    let s := storeExch { pset := taskPset t, step := step, src := logId s, offset := off, payload := p.2 } s
    dsts.foldl (fun s d => sendLog (jobMsg 0x03 3 d step (taskPset t) off 0 p.2 s) s) s) s

/-- One piece of an exchange. -/
def exchPiece (pset step src off : Nat) (s : State) : Option Bytes :=
  (s.exec.exch.find? fun x => x.pset == pset && x.step == step && x.src == src && x.offset == off).map (·.payload)

/-- The bytes that a holder brought to an exchange, when every piece is in. -/
def exchRead (im : JobImage) (t : TaskRec) (step kind phase : Nat) (h : Nat × Nat) (s : State) : Option Bytes :=
  let at_ := fun i => exchPiece (taskPset t) step h.1 (exchOffset h.2 kind phase (exchRank im t) i) s
  match at_ 0 with
  | none => none
  | some p0 =>
    let n := field p0 0 4
    ((List.range (cdiv (n + 4) 4096)).mapM at_).map fun ps => ((ps.flatten).drop 4).take n

/-- What every holder brought, in holder order. -/
def exchAll (im : JobImage) (t : TaskRec) (p : PeerSet) (step kind phase : Nat) (s : State) : Option (List Bytes) :=
  p.holders.mapM fun h => exchRead im t step kind phase h s

/-- The holder that a task is. -/
def selfHolder (t : TaskRec) (s : State) : Nat × Nat := (logId s, unitDie t.unit)

/-- The other packages of a peer set. -/
def otherHolders (p : PeerSet) (s : State) : List Nat := ((p.holders.map (·.1)).filter fun i => i != logId s).eraseDups

/-- Bring bytes to an exchange, unless this die has done so already. -/
def exchOnce (im : JobImage) (t : TaskRec) (p : PeerSet) (step kind phase : Nat) (data : Bytes) (s : State) : State :=
  if (exchRead im t step kind phase (selfHolder t s) s).isSome then s
  else exchSend im t step kind phase (otherHolders p s) data s

/-- The MU bytes of rows, biased by 127, and then one non-finite bit a row (R54, R129); the bias, the clamp to a byte and the MU of a
share that has no non-zero item are the model's (log entry 78). -/
def muBytes (l : List (Int × Bool)) : Bytes :=
  (l.map fun x => BitVec.ofNat 8 (max 0 (min 255 (x.1 + 127))).toNat) ++
    (List.range (cdiv l.length 8)).map fun i => BitVec.ofNat 8 (flagWord (((l.drop (8 * i)).take 8).map (·.2)))

/-- Read the MU bytes and non-finite bits of `n` rows. -/
def muOf (n : Nat) (b : Bytes) : List (Int × Bool) :=
  (List.range n).map fun i => ((field b i 1 : Int) - 127, bit (field b (n + i / 8) 1) (i % 8))

/-- The job-wide MU and non-finite bit of each row. -/
def maxMus (l : List (List (Int × Bool))) : List (Int × Bool) :=
  match l with
  | [] => []
  | x :: xs => xs.foldl (fun a b => a.zipWith (fun p q => (max p.1 q.1, p.2 || q.2)) b) x

/-! ### GEMM tasks -/

/-- What a check of a tile product finds: its class and place, and the rows and columns that mismatch (Table 3.3). -/
structure ProductFault where
  cls : CheckClass
  slab : Nat
  col : Nat
  chunk : Nat
  rows : List Nat
  cols : List Nat

/-- How a task's work ends: it needs what others send, an item failed its check, a tile product failed its check, partial sums failed
their digest check, or it is done. -/
inductive Work where
  | wait (s : State)
  | bad (m : Mism)
  | fault (p : ProductFault)
  | badPart (s : State)
  | done (s : State) (fx : TaskFx)

/-- One plane pass of a tile product: the effective values of both operands, the product that the array forms, and the row sums of the
second operand that the row check reads (R61, R62). -/
structure PassData where
  a : List (List Int)
  w : List (List Int)
  p : List (List Int)
  rw : List Int

/-- The rows of a slab of 32. -/
def slabOf (rows : List OpRow) (slab : Nat) : List OpRow := (rows.drop (32 * slab)).take 32

/-- The effective values of a plane of an operand at a chunk. -/
def planeVals (r : OpRow) (c : Nat) (high : Bool) : List Int :=
  let (codes, z) := planeA (groupOf r c) (c % 2) high
  codes.map fun x => x - z

/-- A plane pass of a product whose second operand is two weight tiles; the row sums are the stored ones (R62), a zero tile's being 0
(R33). -/
def tilePass (g : Gemm) (rows : List OpRow) (tiles : List (List Tile)) (slab pair chunk pass : Nat) : PassData :=
  let ts := ((tiles.getD chunk []).drop (2 * pair)).take 2
  let (ha, hw) := passHigh pass
  let rs := slabOf rows slab
  { a := rs.map fun r => planeVals r chunk ha,
    w := (List.range 16).map fun i => ts.flatMap fun t =>
      let (codes, _, z) := planeOf t hw
      (List.range 16).map fun c => codeAt g.kind codes i c - z,
    p := rs.map fun r => ts.flatMap fun t => (List.range 16).map fun c => chunkPass g.kind (groupOf r chunk) (chunk % 2) t c pass,
    rw := (List.range 16).map fun i => (ts.map fun t => let (_, r, z) := planeOf t hw; rowSum8 g.kind r i + 16 * (8 - z)).sum }

/-- A plane pass of a product whose second operand is quantised columns: the engine forms the row sums from the codes (R62). -/
def codePass (x y : List OpRow) (slab pair chunk pass : Nat) : PassData :=
  let (ha, hw) := passHigh pass
  let a := (slabOf x slab).map fun r => planeVals r chunk ha
  let ws := (slabOf y pair).map fun q => planeVals q chunk hw
  { a := a, w := (List.range 16).map fun i => ws.map fun q => q.getD i 0, p := a.map fun r => ws.map fun q => chunkSum r q,
    rw := (List.range 16).map fun i => (ws.map fun q => q.getD i 0).sum }

/-- The passes that a product runs: one, or four where an operand group or a tile of it is a fall-back (R61, R88). -/
def passesOf (fb : Bool) : List Nat := if fb then [0, 1, 2, 3] else [0]

/-- Whether a tile product runs in INT8 mode (R88). -/
def productFb (rows : List OpRow) (tiles : List (List Tile)) (slab pair chunk : Nat) : Bool :=
  ((slabOf rows slab).any fun r => (groupOf r chunk).g.fb) || (((tiles.getD chunk []).drop (2 * pair)).take 2).any fun t => t.s.fb && !t.isZero

/-- The outcome of the check of one pass, the array's products off by some amounts (Table 3.3). -/
def checkPass (isTile : Bool) (d : PassData) (slab pair chunk : Nat) (off : List (List Int) → List (List Int)) : ProductFault :=
  let (cls, rows, cols) := tileCheck isTile ((d.w.headD []).length) d.a d.w (off d.p) d.rw
  { cls := cls, slab := slab, col := pair, chunk := chunk, rows := rows, cols := cols }

/-- Whether the stored sums of a tile agree with its codes; those of a zero tile are not looked at (R33). -/
def sumsOk (t : Tile) : Bool :=
  t.isZero || (codeSums t.codes == (t.s.rowsum, t.s.colsum) && (!t.s.fb || codeSums t.high == (t.hrec.rowsum, t.hrec.colsum)))

/-- The first tile product of a share that fails its check by itself: the array is sound, and the stored sums of a tile disagree with its
codes (R61, R62). -/
def ownFault (g : Gemm) (rows : List OpRow) (tiles : List (List Tile)) : Option ProductFault :=
  if tiles.all fun l => l.all sumsOk then none
  else (List.range (16 * g.kbn)).findSome? fun c => (List.range (cdiv g.cols 32)).findSome? fun q =>
    (List.range (cdiv g.rows 32)).findSome? fun sl => (passesOf (productFb rows tiles sl q c)).findSome? fun p =>
      let f := checkPass true (tilePass g rows tiles sl q c p) sl q c id
      if f.cls = .pass then none else some f

/-- A side record that is read as a stream mismatch. -/
def sideMism (w : Streams) (i : Nat) : Mism :=
  { cls := 0, fmt := 1, skind := 0x04, tensor := w.tensor, addr := ptrAddr w.side + sideOffset i, index := i, space := ptrSpace w.side }

/-- The rows and tiles of a forward or backward-data share. -/
def shareInputs (im : JobImage) (t : TaskRec) (s : State) : Except Mism (List OpRow × List (List Tile)) := do
  let g := decodeGemm t.body
  let at_ := placeOf t s
  let w := gemmStreams im g
  let rows ← markSpills im at_ w g (← gemmRows im t at_ g s) s
  return (rows, ← shareTiles at_ w g s)

/-- The stream mismatch of a side-record fault: the first tile of the pair is named (log entry 62). -/
def faultMism (im : JobImage) (g : Gemm) (f : ProductFault) : Mism :=
  let w := gemmStreams im g
  sideMism w (tileIdx g w.n f.chunk (2 * f.col))

/-- Bytes left in the landing area that a pointer lies in. -/
def roomAt (im : JobImage) (t : TaskRec) (p : Nat) (kinds : List Nat) : Nat :=
  match entryOf im t.unit p kinds with
  | some e => ptrAddr e.base + e.length - ptrAddr p
  | none => 0

/-- Land the partial sums of the other holders in PART, in holder order. -/
def landParts (im : JobImage) (t : TaskRec) (g : Gemm) (parts : List Bytes) (s : State) : State :=
  ptrWrite (placeOf t s) g.part 0 ((parts.flatten).take (roomAt im t g.part [0x11])) s

/-- Whether a task's holder is the owner of its peer set. -/
def isOwner (t : TaskRec) (p : PeerSet) (s : State) : Bool := p.holders.getD p.owner (0, 0) == selfHolder t s

/-- The partial sums that the owner adds to its own, when every other holder's are in; the bytes of each holder in order. -/
def otherParts (im : JobImage) (t : TaskRec) (p : PeerSet) (step : Nat) (s : State) : Option (List Bytes) :=
  (p.holders.filter fun h => h != selfHolder t s).mapM fun h => exchRead im t step 1 0 h s

/-- The digest of partial sums, over their 32-bit words as those of the peer set (R13, R238; log entry 25). -/
def partsDigest (t : TaskRec) (step : Nat) (data : Bytes) (s : State) : Nat := digest (seedOf s) step (taskPset t) 0 (elemsOf 0 data)

/-- Send partial sums, led by their digest, to the owner of a peer set. -/
def sendParts (im : JobImage) (t : TaskRec) (p : PeerSet) (step : Nat) (data : Bytes) (s : State) : State :=
  let o := (p.holders.getD p.owner (0, 0)).1
  exchSend im t step 1 0 (if o = logId s then [] else [o]) (leBytes 8 (partsDigest t step data s) ++ data) s

/-- Whether the partial sums of a holder pass the digest check of the collective engine (R13). -/
def partOk (t : TaskRec) (step : Nat) (b : Bytes) (s : State) : Bool := field b 0 8 == partsDigest t step (b.drop 8) s

/-- Forget the partial sums of a peer set that came from other packages in a step: their senders run again. -/
def dropParts (t : TaskRec) (step : Nat) (s : State) : State :=
  { s with exec := { s.exec with exch := s.exec.exch.filter fun x =>
      !(x.pset == taskPset t && x.step == step && x.src != logId s && x.offset / 4 % 4 == 1) } }

/-- Whether a place is a core in guard-bit mode: GUARD_MODE set it, or the inspection walk tests it (R72, R299). -/
def guarded (at_ : Place) (s : State) : Bool :=
  match at_ with
  | .core d c => s.warden.guard.contains (d, c) || s.inspect.slot == some (d, c)
  | .stack _ => false

/-- Set the sticky flag of a core (R72). -/
def setSticky (at_ : Place) (s : State) : State :=
  match at_ with
  | .core d c => modCore d c (fun k => { k with sticky := true }) s
  | .stack _ => s

/-- A forward or backward-data task. -/
def nativeWork (im : JobImage) (t : TaskRec) (step : Nat) (fs : List (Nat × Nat × Nat × Int)) (s : State) : Work :=
  let g := decodeGemm t.body
  let at_ := placeOf t s
  match shareInputs im t s with
  | .error m => .bad m
  | .ok (rows, tiles) =>
   match ownFault g rows tiles with
   | some f => if f.cls = .sideRecord then .bad (faultMism im g f) else .fault f
   | none =>
    let guard := guarded at_ s
    let finish := fun (ps : List Partial) (mus : List (Int × Bool)) (s : State) =>
      let (s, fx) := operandFx at_ g rows tiles s
      let (s, gs, n) := gemmStore im t at_ g ps mus s
      let s := if ps.any (·.sticky) then setSticky at_ s else s
      Work.done s { fx with gauges := fx.gauges ++ gs, nfFwd := fx.nfFwd + (if g.kind = 0 then n else 0) }
    match psetOf im g.peers with
    | none => finish (gemmPartials guard at_ g tiles rows (rowMus rows) fs s) (rowMus rows) s
    | some p =>
      let s := exchOnce im t p step 0 0 (muBytes (rowMus rows)) s
      match exchAll im t p step 0 0 s with
      | none => .wait s
      | some bs =>
        let mus := maxMus (bs.map (muOf g.rows))
        let ps := gemmPartials guard at_ g tiles rows mus fs s
        if isOwner t p s then
          match otherParts im t p step s with
          | none => .wait s
          | some os =>
           if !os.all (fun b => partOk t step b s) then .badPart (dropParts t step s) else
            let os := os.map fun b => b.drop 8
            let n := 4 * (g.cols + g.rank) + 4
            let row := fun (b : Bytes) (m : Nat) => decodePartial g.cols g.rank (slice b (n * m) n)
            finish (ps.zipIdx.map fun q => os.foldl (fun a b => a.add (row b q.2)) q.1) mus (landParts im t g os s)
        else
          let s := sendParts im t p step (ps.flatMap Partial.bytes) s
          let (s, fx) := operandFx at_ g rows tiles s
          .done s fx

/-- The contract slot of a task: scale in the step and NB. -/
def slotOf (im : JobImage) (slot step : Nat) (s : State) : Int × Nat :=
  (scaleOf slot step s, ((im.contracts.find? fun c => c.cslot == slot).map (·.nb)).getD 1)

/-- The bytes of the block sums of a share: each an int64 and a byte that says whether some block reached Λ. -/
def sumBytes (es : List (List (Int × Nat))) : Bytes := es.flatMap fun r => r.flatMap fun v => leBytes 8 (ofSigned 64 v.1) ++ leBytes 1 (b2n (v.2 != 0))

/-- Read the block sum of element `i` of a share. -/
def sumOf (b : Bytes) (i : Nat) : Int × Nat := (toSigned 64 (field b (9 * i) 8), field b (9 * i + 8) 1)

/-- A weight-gradient task (R67, R68, R109, R130): where a peer set cuts the batch, the owner clamps by the exact sum of every holder's
blocks. -/
def wgradWork (im : JobImage) (t : TaskRec) (step : Nat) (fs : List (Nat × Nat × Nat × Int)) (s : State) : Work :=
  let g := decodeGemm t.body
  let at_ := placeOf t s
  match wgradOps im t at_ g s with
  | .error m => .bad m
  | .ok (x, y) =>
    let (sc, nb) := slotOf im g.cslot step s
    let es := wgradShare (guarded at_ s) nb sc g fs x y
    let n := (es.map fun r => (r.map (·.2)).sum).sum
    let nf := x.any (·.nonfin) || y.any (·.nonfin)
    let count := fun (on : Bool) (l : List OpRow) (uns : Bool) => if on then l.flatMap fun r => r.gauges 3 uns else []
    let gauges := count (g.col0 == 0) x g.uns ++ count (g.row0 == 0) y false ++ [(3, 3, { satBlk := n })]
    let fx : TaskFx := { pnf := nf, psat := n != 0, gauges := gauges }
    let s := ptrWrite at_ g.aext 0 (wgradExts g x y) s
    let store := fun (es : List (List (Int × Nat))) (s : State) =>
      let w := pitchOf im t.unit g.out [0x13] g.cols
      es.zipIdx.foldl (fun s r => ptrWrite at_ g.out (4 * w * r.2) (r.1.flatMap fun v => leBytes 4 (ofSigned 32 (clampSum v))) s) s
    match psetOf im g.peers with
    | none => .done (store es s) fx
    | some p =>
      if isOwner t p s then
        match otherParts im t p step s with
        | none => .wait s
        | some os =>
          if !os.all (fun b => partOk t step b s) then .badPart (dropParts t step s)
          else
            let os := os.map fun b => b.drop 8
            let sum := es.zipIdx.map fun r => r.1.zipIdx.map fun v =>
              os.foldl (fun a b => let x := sumOf (b.drop 4) (r.2 * g.cols + v.2); (a.1 + x.1, a.2 + x.2)) v.1
            let flag := fun i => os.any fun b => bit (field b 0 4) i
            .done (store sum (landParts im t g (os.map fun b => b.drop 4) s)) { fx with pnf := fx.pnf || flag 0, psat := fx.psat || flag 1 }
      else
        .done (sendParts im t p step (leBytes 4 (b2n fx.pnf + 2 * b2n fx.psat) ++ sumBytes es) s) fx

/-- An MX task (R69 to R71). -/
def mxWork (im : JobImage) (t : TaskRec) (s : State) : Work :=
  let g := decodeGemm t.body
  let at_ := placeOf t s
  match mxFmt g.mxa, mxFmt g.mxb with
  | some fa, some fb =>
    let (rows, na, nb) := mxRows at_ fa fb g s
    let (s, gs) := rows.zipIdx.foldl (fun x r =>
      let (s, gs) := storeRow im t at_ g r.2 r.1.1 x.1
      (s, x.2 ++ (if g.target < 2 then [outGauge g r.1.1] else []) ++ gs)) (s, [])
    let bad := (rows.map fun r => r.1.countP fun v => !isFin v).sum
    .done s { gauges := gs ++ [(7, 7 + g.mxa, { nonfin := if g.col0 = 0 then na else 0 }),
                               (7, 7 + g.mxb, { nonfin := if g.row0 = 0 then nb else 0 })],
              nfFwd := if t.stream = 0 then na + bad else 0 }
  | _, _ => .done s {}

/-- A GEMM task. -/
def gemmWork (im : JobImage) (t : TaskRec) (step : Nat) (fs : List (Nat × Nat × Nat × Int)) (s : State) : Work :=
  match (decodeGemm t.body).kind with
  | 2 => wgradWork im t step fs s
  | 3 => mxWork im t s
  | _ => nativeWork im t step fs s

/-! ### VECTOR tasks -/

/-- The bytes of the parts of a row phase: how many a row, then the values. -/
def phaseBytes (l : List (List F32)) : Bytes := leBytes 4 (l.headD []).length ++ l.flatMap f32Bytes

/-- The parts of each of `n` rows. -/
def phaseOf (n : Nat) (b : Bytes) : List (List F32) :=
  let k := field b 0 4
  (List.range n).map fun m => (List.range k).map fun i => BitVec.ofNat 32 (field b (4 + 4 * (m * k + i)) 4)

/-- The phases that every holder has brought, from phase `k`; `fuel` bounds them. -/
def phasesIn (im : JobImage) (t : TaskRec) (p : PeerSet) (step rows : Nat) (s : State) : Nat → Nat → List (List (List F32))
  | 0, _ => []
  | fuel + 1, k =>
    match exchAll im t p step 2 k s with
    | none => []
    | some bs =>
      let ps := bs.map (phaseOf rows)
      ((List.range rows).map fun m => ps.flatMap fun h => h.getD m []) :: phasesIn im t p step rows s fuel (k + 1)

/-- Evaluate the operations, bringing this holder's parts of each phase that is reached. -/
def vecPhases (im : JobImage) (t : TaskRec) (step : Nat) (v : VecBody) (i : VecIn) (rows : List (List F32)) : Nat → State → State × Option VecSt
  | 0, s => (s, none)
  | fuel + 1, s =>
    let p := psetOf im v.peers
    let recs := match p with
      | some p => phasesIn im t p step v.rows s 32 0
      | none => []
    match vecEval { cut := p.isSome, recs := recs } v i rows with
    | .ok x => (s, some x)
    | .error (k, parts) =>
      match p with
      | none => (s, none)
      | some p => vecPhases im t step v i rows fuel (exchOnce im t p step 2 k (phaseBytes parts) s)

/-- A VECTOR task. -/
def vecWork (im : JobImage) (t : TaskRec) (step : Nat) (s : State) : Work :=
  let v := decodeVec t.body
  let at_ := placeOf t s
  let pos := match psetOf im v.peers with
    | some p => (p.holders.findIdx? fun h => h == selfHolder t s).getD 0
    | none => 0
  let w := (vecShare im t v).2
  let c0 := if v.peers = 0 then 0 else pos * w
  let n := if v.peers = 0 then v.cols else min w (v.cols - c0)
  match vecInput im t at_ v c0 n s with
  | .error m => .bad m
  | .ok i =>
    let (s, x) := vecPhases im t step v i (vecRows im t at_ v.src v.rows n s) 32 s
    match x with
    | none => .wait s
    | some x =>
      let (sc, nb) := slotOf im v.cslot step s
      let (s, fx) := vecStore im t at_ v c0 sc nb x s
      .done s fx

/-! ### MOVE: prefetched copies (R175, R176) -/

/-- Register a prefetched range in the watch table of its stack; with 1,024 entries taken it is stale from the start and counted. -/
def addWatch (i : Fin 32) (w : Watch) (s : State) : State :=
  let full := decide (1024 ≤ (s.memStacks[i].watch.filter fun x => !x.overs).length)
  modStack i (fun st => { st with watch := st.watch ++ [{ w with stale := full, acked := full, overs := full }],
                                  watchFull := st.watchFull + b2n full }) s

/-- Whether a watch entry's landing in a core store overlaps a range of it. -/
def landsIn (d c off len : Nat) (w : Watch) : Bool :=
  w.die == d && w.core == c && decide (w.dst < off + len) && decide (off < w.dst + w.len)

/-- Fetch a stale prefetch again, as ordinary line requests (R176). -/
def refetch (w : Watch) (s : State) : State :=
  if w.stale then touch .none w.lo w.len (storeWrite w.die w.core w.dst (physRead s w.lo w.len) s) else s

/-- First read of a core-store range by a task (R176): every prefetch that landed there is fetched again if it is stale, and its
watch entry is released. -/
def readPrefetch (d c off len : Nat) (s : State) : State :=
  (List.finRange 32).foldl (fun s i =>
    let hit := s.memStacks[i].watch.filter (landsIn d c off len)
    let s := hit.foldl (fun s w => refetch w s) s
    if hit.isEmpty then s
    else modStack i (fun st => { st with watch := st.watch.filter fun w => !landsIn d c off len w }) s) s

/-- The core-store ranges that a task reads, with the first read of each prefetch. -/
def readPrefetches (im : JobImage) (t : TaskRec) (s : State) : State :=
  match placeOf t s with
  | .stack _ => s
  | .core d c =>
    ((taskReads im t).filter fun r => r.space == 2).foldl
      (fun s r => (List.range r.rows).foldl (fun s k => readPrefetch d c (r.base + k * r.pitch) r.width s) s) s

/-- A MOVE task: the bytes of the source at the destination, through the slice cache under its hint (R168, R191); a prefetch into a core
store is watched. -/
def moveWork (t : TaskRec) (s : State) : Work :=
  let m := decodeMove t.body
  let at_ := placeOf t s
  let s := ptrWriteH (hintOf m.hint) at_ m.dst 0 (ptrRead at_ m.src 0 m.length s) s
  match m.prefetch, ptr m.src, ptr m.dst, at_ with
  | true, .phys a, .store o, .core d c =>
    match rangeOf a with
    | .stack i => .done (addWatch i { id := t.taskid, die := d, core := c, lo := a, len := m.length, dst := o, stale := false, acked := false,
                                      overs := false } s) {}
    | _ => .done s {}
  | _, _, _, _ => .done s {}

/-! ### SEND (R90, R150, R236, R243) -/

/-- The over-range counts of a tensor's operands that have committed in a step, in the order of CHAN: forward, then backward-data
(R90). -/
def overCounts (im : JobImage) (tensor step : Nat) (s : State) : List Nat :=
  let (cf, cb) := tensorCaps im tensor
  let mine := s.exec.overs.filter fun o => o.1 == step
  let cnt := fun (key i : Nat) => ((mine.filter fun o => o.2.1 == key && o.2.2.1 == i).map fun o => o.2.2.2).sum
  let part := fun (key n : Nat) => (List.range (256 * cdiv n 256)).map (cnt key)
  (if cf = 0 then [] else part (2 * tensor) (weightK im tensor)) ++ (if cb = 0 then [] else part (2 * tensor + 1) (weightN im tensor))

/-- Put the committed over-range counts of a step into the contribution buffer of a SATSUM32 reduction that carries them. -/
def fillCounts (im : JobImage) (t : TaskRec) (b : SendBody) (step : Nat) (s : State) : State :=
  match entryOf im t.unit b.buf [0x1D] with
  | none => s
  | some e =>
    let cs := ((overCounts im e.tensor step s).drop b.first).take b.count
    ptrWrite (placeOf t s) b.buf 0 (cs.flatMap fun v => leBytes 4 (min v (2 ^ 32 - 1))) s

/-- Put the sum of squares over this package's shards of a tensor into the contribution buffer of the U128SUM reduction that adds Q over
packages (R120; log entry 66). -/
def fillSquares (im : JobImage) (t : TaskRec) (b : SendBody) (r : PlanEntry) (step : Nat) (s : State) : State :=
  match im.tensors.find? fun e => inEntry 0 r.dst e with
  | none => s
  | some e => ptrWrite (placeOf t s) b.buf 0 (leBytes 16 (localSquares im e.tensor step s)) s

/-- What the package itself puts into the contribution buffer before a SEND. -/
def fillBuffer (im : JobImage) (t : TaskRec) (b : SendBody) (r : PlanEntry) (step : Nat) (s : State) : State :=
  match r.kind with
  | 2 => fillSquares im t b r step s
  | 3 => fillCounts im t b step s
  | _ => s

/-- A SEND task: the elements of the contribution buffer enter the reduction, poisoned as the task that PTASK names was. -/
def sendWork (im : JobImage) (t : TaskRec) (step : Nat) (s : State) : Work :=
  let b := decodeSend t.body
  match im.plan.find? fun r => r.redid == b.redid with
  | none => .done s {}
  | some r =>
    let s := fillBuffer im t b r step s
    let vs := elemsOf r.kind (ptrRead (placeOf t s) b.buf 0 (elemSize r.kind * b.count) s)
    let q := runOf b.ptask step s
    let p : Piece := { level := 0, lo := b.first, vals := vs, dig := digestAt r.kind step r.redid b.first vs s,
                       pnf := (q.map (·.pnf)).getD false, psat := (q.map (·.psat)).getD false }
    let (s, bad) := startOwn r step p s
    .done (failedHop r step bad s) {}

/-! ### The lines that a task reads (R116, R168) -/

/-- Whether a B task of the step that comes after `t` reads a stash address: only the last reader releases the line (R116). -/
def laterReader (im : JobImage) (t : TaskRec) (a : Nat) : Bool :=
  im.tasks.any fun q => q.stream == 1 && (decide (t.start < q.start) || (q.start == t.start && decide (t.taskid < q.taskid))) &&
    (taskReads im q).any fun r => r.space == 1 && (List.range r.rows).any fun i =>
      decide (r.base + i * r.pitch ≤ a ∧ a < r.base + i * r.pitch + r.width)

/-- Whether an address lies in a stash, row-scalar or stash-scale stream. -/
def inStash (im : JobImage) (a : Nat) : Bool :=
  im.tensors.any fun e => (e.skind == 0x0E || e.skind == 0x0F || e.skind == 0x10) && ptrSpace e.base == 1 &&
    decide (ptrAddr e.base ≤ a) && decide (a < ptrAddr e.base + e.length)

/-- The hint with which a task reads a line: that of a MOVE, LAST for the B task that reads a stash line for the last time in the step,
and else none. -/
def readHint (im : JobImage) (t : TaskRec) (a : Nat) : Hint :=
  if t.dtype = 4 then hintOf (decodeMove t.body).hint
  else if t.stream = 1 && inStash im a && !laterReader im t a then .last else .none

/-- The line requests of what a task reads from package memory, line by line. -/
def touchReads (im : JobImage) (t : TaskRec) (s : State) : State :=
  ((taskReads im t).filter fun r => r.space == 1).foldl (fun s r =>
    (List.range r.rows).foldl (fun s k =>
      let a := r.base + k * r.pitch
      let n := cdiv (a % 128 + r.width) 128
      (List.range n).foldl (fun s j =>
        let lo := max a (a - a % 128 + 128 * j)
        let hi := min (a + r.width) (a - a % 128 + 128 * (j + 1))
        touch (readHint im t lo) lo (hi - lo) s) s) s) s

/-! ### Any task -/

/-- The whole work of a task in a step. -/
def taskWork (im : JobImage) (t : TaskRec) (step : Nat) (fs : List (Nat × Nat × Nat × Int)) (s : State) : Work :=
  match t.dtype with
  | 1 => gemmWork im t step fs s
  | 2 => vecWork im t step s
  | 3 =>
    match runUpdate im t step s with
    | .ok (s, fx) => .done s fx
    | .error m => .bad m
  | 4 => moveWork t s
  | _ => sendWork im t step s

/-- What a task sends when it starts: the MU bytes of its share (R54); the row partials follow as their phases are reached. -/
def startExchanges (im : JobImage) (t : TaskRec) (step : Nat) (s : State) : State :=
  match psetOf im (taskPset t) with
  | none => s
  | some p =>
    if t.dtype = 1 then
      if (decodeGemm t.body).kind < 2 then
        match shareInputs im t s with
        | .ok (rows, _) => exchOnce im t p step 0 0 (muBytes (rowMus rows)) s
        | .error _ => s
      else s
    else
      match vecWork im t step s with
      | .wait s => s
      | _ => s

end Sys2Proof.Machine
end

