-- ==== Sys2Proof/Machine/Faults.lean ====
section
/-! DEFINITION. Faults of a task: compute faults, stream mismatches, the breach they cause (R62, R63, R99, R142); fall-backs beyond
freeboard (R88, R93, R94). -/

namespace Sys2Proof.Machine

/-! ### Breaches of a task (R142) -/

/-- Δ of a failed task: its compiled duration, the largest compiled duration of a reduction it feeds, and 2 µs, in whole µs. -/
def breachDelta (im : JobImage) (t : TaskRec) : Nat :=
  let rs := (reach im [t.taskid] []).2
  let red := ((im.plan.filter fun r => rs.contains r.redid).map (·.dur)).foldl max 0
  upMicro (durOf t + red + 2000)

/-- Announce and apply the breach of a task: it and what it reaches run again. -/
def breachTask (im : JobImage) (t : TaskRec) (step : Nat) (s : State) : State :=
  applyBreach step [t.taskid] [] (sendNotice true step t.deadline (breachDelta im t) 4 (logId s) t.taskid 0 0 s)

/-! ### Stream mismatches (R99, R348) -/

/-- A number for the place where a task runs. -/
def placeKey : Place → Nat
  | .core d c => 4096 * d + c
  | .stack i => 16384 + i

/-- A number for a stored item: its address, and for one in a core store its offset with the task's place. -/
def itemKey (at_ : Place) (m : Mism) : Nat := m.addr + if m.space = 2 then 2 ^ 52 * (1 + placeKey at_) else 0

/-- Attempts on an item in a step so far. -/
def attemptsOf (step addr : Nat) (s : State) : Nat :=
  ((s.exec.attempts.find? fun a => a.1 == step && a.2.1 == addr).map fun a => a.2.2).getD 0

/-- Keep the count of attempts on an item in a step. -/
def setAttempts (step addr n : Nat) (s : State) : State :=
  { s with exec := { s.exec with attempts := (step, addr, n) :: s.exec.attempts.filter fun a => !(a.1 == step && a.2.1 == addr) } }

/-- Whether a task writes an item that a task of unit `unit` read. -/
def writesItem (im : JobImage) (unit : Nat) (m : Mism) (t : TaskRec) : Bool :=
  (taskWrites im t).any fun r => r.space == m.space && (m.space != 2 || r.core == bits unit 11 0) && (List.range r.rows).any fun i =>
    decide (r.base + i * r.pitch ≤ m.addr ∧ m.addr < r.base + i * r.pitch + r.width)

/-- The last step up to `step` in which a task has ended. -/
def lastEnded (task step : Nat) (s : State) : Option Nat :=
  [step, step - 1].find? fun k => match runOf task k s with
    | some r => r.st != .discarded && r.endT.isSome
    | none => false

/-- Make a producer run again, committed or not; a committed one only writes its results once more. -/
def rerunTask (step : Nat) (s : State) (t : TaskRec) : State :=
  match lastEnded t.taskid step s with
  | none => s
  | some k =>
    match runOf t.taskid k s with
    | none => s
    | some r =>
      let again := r.again || r.st == .committed
      let s := setRun { r with st := .discarded, endT := none, undetected := [], gauges := [], overs := [], checksOk := true,
                               wrote := false, again := again } s
      { s with exec := { s.exec with doneTo := min s.exec.doneTo k } }

/-- Make the F and B tasks that produced an item run again (Table 4.6, second attempt). -/
def rerunProducers (im : JobImage) (unit step : Nat) (m : Mism) (s : State) : State :=
  (im.tasks.filter fun t => t.stream != 2 && writesItem im unit m t).foldl (rerunTask step) s

/-- A stream mismatch of an item that a task read, escalated by the attempts of Table 4.6. -/
def streamMismatch (im : JobImage) (t : TaskRec) (step : Nat) (m : Mism) (s : State) : State :=
  let key := itemKey (placeOf t s) m
  let n := attemptsOf step key s + 1
  let s := setAttempts step key n s
  let s := logAt step 0x0022 (taskUnit t s) m.addr m.index n 0 (gaugeIn step m.cls m.fmt { mism := 1 } s)
  if 3 ≤ n then failHere 4 (logEv 0x0011 (taskUnit t s) m.addr (m.addr / 2 ^ 37) 0 0 s)
  else
    let s := if n = 2 then
        if 0x03 ≤ m.skind ∧ m.skind ≤ 0x07 then regenTensor im m.tensor s else rerunProducers im t.unit step m s
      else s
    breachTask im t step s

/-! ### Compute faults (R62, R63) -/

/-- The key of a tile product. -/
def productKey (slab col chunk : Nat) : Nat := (slab * 2 ^ 20 + col) * 2 ^ 20 + chunk

/-- A bit mask of positions. -/
def maskOf (l : List Nat) : Nat := (l.map fun i => 2 ^ i).sum

/-- A compute fault of a tile product: logged, a breach, and a map-out when the same product fails again on the same core in the replay
(R63). -/
def computeFault (im : JobImage) (t : TaskRec) (step : Nat) (f : ProductFault) (s : State) : State :=
  let key := productKey f.slab f.col f.chunk
  let at_ := placeKey (placeOf t s)
  let same := fun (x : Nat × Nat × Nat × Nat × Nat) => x.1 == t.taskid && x.2.1 == step && x.2.2.1 == key && x.2.2.2.1 == at_
  let n := ((s.exec.prodFails.find? same).map fun x => x.2.2.2.2).getD 0 + 1
  let s := { s with exec := { s.exec with prodFails := (t.taskid, step, key, at_, n) :: s.exec.prodFails.filter fun x => !same x } }
  let s := logAt step 0x0020 (taskUnit t s) t.taskid (maskOf f.rows) (maskOf f.cols) n s
  let s := breachTask im t step s
  match placeOf t s with
  | .stack _ => s
  | .core d c =>
    if n < 2 then s
    else
      let s := { s with exec := { s.exec with prodFails := s.exec.prodFails.filter fun x => !same x } }
      mapOut (Fin.ofNat 4 d) c 2 s

/-- A tile product that fails a check: a stream mismatch of its side record, or a compute fault (Table 3.3). -/
def productFault (im : JobImage) (t : TaskRec) (step : Nat) (f : ProductFault) (s : State) : State :=
  if f.cls = .sideRecord then streamMismatch im t step (faultMism im (decodeGemm t.body) f) s else computeFault im t step f s

/-- What a tile product reads: the passes it runs, and each of them. -/
def productPasses (im : JobImage) (t : TaskRec) (slab col chunk : Nat) (s : State) : Except Mism (List (Nat × PassData)) := do
  let g := decodeGemm t.body
  if g.kind = 2 then
    let (x, y) ← wgradOps im t (placeOf t s) g s
    let fb := (slabOf x slab ++ slabOf y col).any fun r => (groupOf r chunk).g.fb
    return (passesOf fb).map fun p => (p, codePass x y slab col chunk p)
  else
    let (rows, tiles) ← shareInputs im t s
    return (passesOf (productFb rows tiles slab col chunk)).map fun p => (p, tilePass g rows tiles slab col chunk p)

/-- The products of a pass with the array's faults. -/
def faultyProduct (p : List (List Int)) (fs : List ArrayFault) : List (List Int) :=
  p.zipIdx.map fun r => r.1.zipIdx.map fun c => c.1 + ((fs.filter fun f => f.row == r.2 && f.col == c.2).map (·.delta)).sum

/-- The faults of the array in a pass. -/
def passFaults (fs : List ArrayFault) (p : Nat) : List ArrayFault := fs.filter fun f => f.pass.val == p

/-- The first pass of a tile product that fails its check (R62). -/
def failedPass (isTile : Bool) (slab col chunk : Nat) (fs : List ArrayFault) (ps : List (Nat × PassData)) : Option ProductFault :=
  ps.findSome? fun x =>
    let f := checkPass isTile x.2 slab col chunk (fun p => faultyProduct p (passFaults fs x.1))
    if f.cls = .pass then none else some f

/-- The end of a tile product (R62, Table 3.3): every plane pass is checked. A fault that cancels in every row and every column passes, and
stays in the sums. -/
def endProduct (im : JobImage) (t : TaskRec) (r : TaskRun) (slab col chunk : Nat) (fs : List ArrayFault) (s : State) : State :=
  match productPasses im t slab col chunk s with
  | .error m => streamMismatch im t r.step m s
  | .ok ps =>
    match failedPass ((decodeGemm t.body).kind != 2) slab col chunk fs ps with
    | some f => productFault im t r.step f s
    | none =>
      let ran := fs.filter fun f => ps.any fun x => x.1 == f.pass.val
      setRun { r with undetected := r.undetected ++ ran.map fun f =>
        (32 * slab + f.row, 32 * col + f.col, chunk, passWeight f.pass.val * f.delta) } s

/-! ### Fall-backs beyond freeboard (R88, R93, R94) -/

/-- Per chunk and column tile of 16, whether a weight-gradient product's second operand falls back. -/
def wgradFb (g : Gemm) (y : List OpRow) : List (List Bool) :=
  (List.range (16 * g.kbn)).map fun c => (List.range (g.cols / 16)).map fun t =>
    ((y.drop (16 * t)).take 16).any fun q => ((q.groups.map fun x => x.g.fb).getD (c / 2) false)

/-- The INT8 chunk-products of a GEMM task. -/
def int8Of (im : JobImage) (t : TaskRec) (s : State) : Nat :=
  let g := decodeGemm t.body
  let fb := fun (l : List OpRow) => l.map fun r => r.groups.map fun q => q.g.fb
  match g.kind with
  | 2 =>
    match wgradOps im t (placeOf t s) g s with
    | .ok (x, y) => int8Count (fb x) (wgradFb g y) g.cols
    | .error _ => 0
  | 3 => 0
  | _ =>
    match shareInputs im t s with
    | .ok (rows, tiles) => int8Count (fb rows) (tiles.map fun l => l.map fun x => x.s.fb) g.cols
    | .error _ => 0

/-- The notices that a count of INT8 chunk-products calls for (R94). -/
def noticesDue (c q : Nat) : Nat := if c ≤ q then 0 else 1 + (c - q - 1) / 1024

/-- The code 5 notices of a task that this package has sent for a step. -/
def noticesSent (task step : Nat) (s : State) : Nat :=
  (s.exec.notices.filter fun n => !n.breach && n.code == 5 && n.task == task && n.step == step && n.src == logId s).length

/-- One more notice under R94: 40.96 µs on top of the late slip that applies to the task's deadline. -/
def fallbackNotice (t : TaskRec) (step : Nat) (s : State) : State :=
  sendNotice false step t.deadline (lateSlip step t.deadline s + 40960) 5 (logId s) t.taskid 0 0 s

/-- Send the notices that a count calls for and that have not gone out. -/
def sendFallbacks (t : TaskRec) (step c : Nat) (s : State) : State :=
  iter (fallbackNotice t step) (noticesDue c (reserveQ (decodeGemm t.body)) - noticesSent t.taskid step s) s

/-- The INT8 chunk-products that the weight tiles of a later task force by themselves. -/
def tileInt8 (im : JobImage) (t : TaskRec) (s : State) : Nat :=
  let g := decodeGemm t.body
  match shareTiles (placeOf t s) (gemmStreams im g) g s with
  | .ok tiles => int8Count (List.replicate g.rows []) (tiles.map fun l => l.map fun x => x.s.fb) g.cols
  | .error _ => 0

/-- The notices of a U task for the tasks of the next step that read the tiles it wrote (R94). -/
def updateFallbacks (im : JobImage) (u : TaskRec) (step : Nat) (s : State) : State :=
  let k := (decodeUpd u.body).tensor
  (im.tasks.filter fun t => t.dtype == 1 && decide ((decodeGemm t.body).kind < 2) && (decodeGemm t.body).tensor == k).foldl
    (fun s t => sendFallbacks t (step + 1) (tileInt8 im t s) s) s

end Sys2Proof.Machine
end

