-- ==== Sys2Proof/Machine/Tasks.lean ====
section
/-! DEFINITION. The life of a task: start, tile products, deadline checks, end, check horizon (R17 to R19, R62, R135, R139 to R142,
R152, R154, R156, R273). A command for a task that is not due, or not running, has no effect. -/

namespace Sys2Proof.Machine

/-! ### Threads (R135) -/

/-- The next ready context in ascending order after `k`, wrapping from 7 to 0; `k` itself when it is ready or none is. -/
def nextReady (k : Nat) (ts : List Thread) : Nat :=
  if ts.getD k .idle = .ready then k
  else (((List.range 8).map fun i => (k + 1 + i) % 8).find? fun i => ts.getD i .idle == .ready).getD k

/-- Set the state of a thread context of a core; a running thread that stops being ready gives way to the next (R135). -/
def setThread (d c ctx : Nat) (st : Thread) (s : State) : State :=
  modCore d c (fun k =>
    let ts := k.threads.set ctx st
    { k with threads := ts, running := nextReady k.running ts }) s

/-- Set the thread context of a task. -/
def taskThread (t : TaskRec) (st : Thread) (s : State) : State :=
  match placeOf t s with
  | .core d c => setThread d c (unitCtx t.unit) st s
  | .stack _ => s

/-! ### Queues of a task (R156, R272, R273) -/

/-- The runs of a task that have started and not committed. -/
def openRuns (task : Nat) (s : State) : Nat :=
  (s.exec.runs.filter fun r => r.task == task && r.st != .committed && r.st != .discarded).length

/-- Whether the queues of a task let it start: a credit for each queue it produces into, an entry in each it consumes. -/
def queuesOk (task : Nat) (s : State) : Bool :=
  s.queues.all fun q =>
    (q.prod != task || decide (openRuns task s < q.credits)) && (q.cons != task || decide (openRuns task s < queueFill q))

/-- The place whose core store a queue ring of space 2 lies in: that of the local task. -/
def ringPlace (q : HwQueue) (s : State) : Place :=
  match taskRec q.prod s with
  | some t => placeOf t s
  | none =>
    match taskRec q.cons s with
    | some t => placeOf t s
    | none => .stack 0

/-- An index of a queue one further, modulo twice the depth. -/
def bump (q : HwQueue) (i : Nat) : Nat := (i + 1) % (2 * q.depth)

/-- The bytes of a slot of a queue's ring. -/
def slotBytes (q : HwQueue) (i : Nat) (s : State) : Bytes := ptrRead (ringPlace q s) q.ring (i % q.depth * q.esize) q.esize s

/-- Why the ring of a queue cannot be reached at a slot, if it cannot (R16, R161, R163). -/
def ringCause (q : HwQueue) (i n : Nat) (s : State) : Option (Nat × Nat) := ptrCause .hub q.ring (i % q.depth * q.esize) n s

/-- Whether a queue carries gradients back to the previous package of a Y ring of two, where both directions are one hop: its producer
is a B task, and R229 moves gradients on Y−. -/
def gradientBack (q : HwQueue) (s : State) : Bool :=
  ((taskRec q.prod s).map fun t => t.stream == 1).getD false && axisRing 1 s && axisLen 1 s == 2 &&
    coord (logId s) 0 == coord q.remote 0 && coord (logId s) 1 != coord q.remote 1

/-- Send a queue entry to the package that consumes it, at most 4 KiB a message, OFFSET its byte in the entry. -/
def sendEntry (q : HwQueue) (bs : Bytes) (s : State) : State :=
  (List.range (cdiv bs.length 4096)).foldl (fun s i =>
    let m := jobMsg 0x06 4 q.remote s.job.cstep q.queue (4096 * i) 0 ((bs.drop (4096 * i)).take 4096) s
    if gradientBack q s then sendAxis 1 false m s else sendLog m s) s

/-- A committed task's entry becomes visible: PI advances, and the entry goes to a remote consumer or the host (R156, R273). An entry that
cannot be read is logged and does not leave. -/
def produceQueue (q : HwQueue) (s : State) : State :=
  let bs := slotBytes q q.pi s
  let cause := ringCause q q.pi q.esize s
  let s := modQueue q.queue q.port (fun e => { e with pi := bump e e.pi, credits := e.credits - 1 }) s
  if q.role = 3 then raiseIrq q.port 2 s
  else if q.remote = 0xFFFF then s
  else match cause with
    | some (a, k) => logAccess a .hub k s
    | none => sendEntry q bs s

/-- A committed task has consumed an entry: CI advances, and the credit returns (R156, R273). -/
def consumeQueue (q : HwQueue) (s : State) : State :=
  let s := modQueue q.queue q.port (fun e => { e with ci := bump e e.ci, credits := e.credits + b2n (e.remote == 0xFFFF && e.role == 1) }) s
  if q.role = 2 then raiseIrq q.port 2 s
  else if q.remote ≠ 0xFFFF then sendLog (jobMsg 0x07 2 q.remote s.job.cstep q.queue 0 0 (leBytes 4 1) s) s else s

/-- The queue effects of a task that commits. -/
def commitQueues (task : Nat) (s : State) : State :=
  let s := (s.queues.filter fun q => q.prod == task).foldl (fun s q => produceQueue q s) s
  (s.queues.filter fun q => q.cons == task).foldl (fun s q => consumeQueue q s) s

/-! ### The step verdict (R131 to R134) -/

/-- The verdict of a step so far. -/
def verdictAt (step : Nat) (s : State) : Verdict :=
  (s.exec.verdicts.find? fun v => v.step == step).getD { step := step, recs := [], done := false, spike := false, skip := false }

/-- How many packages a job has. -/
def jobSize (s : State) : Nat := axisLen 0 s * axisLen 1 s * axisLen 2 s

/-- Log a spike or a skipped step (R134). -/
def logVerdict (step : Nat) (sum med : Int) (what : Nat) (s : State) : State :=
  logAt step 0x0025 0 step (ofSigned 64 sum) (ofSigned 64 med) what s

/-- Decide a step whose records are all in (R134). -/
def decideVerdict (im : JobImage) (v : Verdict) (s : State) : State :=
  let sum := (v.recs.map fun r => r.2.1).sum
  let nl := (v.recs.map fun r => r.2.2.1).sum
  let nf := (v.recs.map fun r => r.2.2.2).sum
  let (spike, skip, hist) := verdictOf s.exec.history sum nl nf im.spikef (im.spkact == 1)
  let med := median64 s.exec.history
  let v := { v with done := true, spike := spike, skip := skip }
  let s := { s with exec := { s.exec with history := hist, verdicts := v :: s.exec.verdicts.filter fun x => x.step != v.step } }
  let s := if spike then logVerdict v.step sum med 1 s else s
  if skip then logVerdict v.step sum med 2 s else s

/-- Take in a package's record of a step: loss sum, non-finite losses, forward non-finite count. A record that is already there is
not taken again. -/
def takeVerdict (im : JobImage) (step src : Nat) (loss : Int) (nl nf : Nat) (s : State) : State :=
  let v := verdictAt step s
  if v.done || v.recs.any fun r => r.1 == src then s
  else
    let v := { v with recs := v.recs ++ [(src, loss, nl, nf)] }
    let s := { s with exec := { s.exec with verdicts := v :: s.exec.verdicts.filter fun x => x.step != step } }
    if v.recs.length = jobSize s then decideVerdict im v s else s

/-- The record of this package's forward tasks of a step. -/
def ownVerdict (im : JobImage) (step : Nat) (s : State) : Int × Nat × Nat :=
  let rs := (im.tasks.filter fun t => t.stream == 0).filterMap fun t => runOf t.taskid step s
  ((rs.map (·.loss)).sum, (rs.map (·.nfLoss)).sum, (rs.map (·.nfFwd)).sum)

/-- The VERDICT message of a record; its digest is that of its three words as a reduction 0 (R133, R238). -/
def verdictMsg (step : Nat) (r : Int × Nat × Nat) (s : State) : Msg :=
  jobMsg 0x05 3 0 step 0 0 (digest (seedOf s) step 0 0 [r.1, (r.2.1 : Int), (r.2.2 : Int)])
    (leBytes 8 (ofSigned 64 r.1) ++ leBytes 8 r.2.1 ++ leBytes 8 r.2.2) s

/-- Bring this package's record when every forward task of the step has committed. -/
def bringVerdict (im : JobImage) (step : Nat) (s : State) : State :=
  let all := (im.tasks.filter fun t => t.stream == 0).all fun t => ((runOf t.taskid step s).map (·.st)) == some .committed
  if !all || (verdictAt step s).recs.any fun r => r.1 == logId s then s
  else
    let r := ownVerdict im step s
    takeVerdict im step (logId s) r.1 r.2.1 r.2.2 (bcastMsg (verdictMsg step r s) s)

/-! ### Commit (R102, R140) -/

/-- The cores on which a product of a task in a step failed once. -/
def failedCores (task step : Nat) (s : State) : List Nat :=
  ((s.exec.prodFails.filter fun x => x.1 == task && x.2.1 == step).map fun x => x.2.2.2.1).eraseDups

/-- Record the transients of products that failed once and passed in the replay (R63). -/
def settleProducts (t : TaskRec) (step : Nat) (s : State) : State :=
  let cores := (failedCores t.taskid step s).filter fun k => decide (k < 16384)
  let s := { s with exec := { s.exec with prodFails := s.exec.prodFails.filter fun x => !(x.1 == t.taskid && x.2.1 == step) } }
  cores.foldl (fun s k => recordTransient (k / 4096) (k % 4096) s) s

/-- The first step with a task or a reduction that has not committed moves on past a step that is over. -/
def closeStep (s : State) : State :=
  let k := s.exec.doneTo
  if k ≤ s.job.cstep ∧ stepCommitted k s ∧ (plan s).all (fun r => redCommitted r.redid k s) then
    { s with exec := { s.exec with doneTo := k + 1 } }
  else s

/-- Close the steps that are over. -/
def closeSteps (s : State) : State := iter closeStep (s.job.cstep + 1 - s.exec.doneTo) s

/-- What a commit brings besides the results: gauges and over-range counts advance, the queues move, and the verdict follows the last
forward task (R90, R102, R133, R140). -/
def commitEffects (im : JobImage) (t : TaskRec) (r : TaskRun) (s : State) : State :=
  let s := { s with exec := { s.exec with overs := s.exec.overs ++ r.overs.map fun o => (r.step, o) } }
  let s := commitQueues t.taskid (gaugeAll r.step r.gauges s)
  if t.stream = 0 then bringVerdict im r.step s else s

/-- Commit a task: its results are final. A run that only wrote its results once more has counted before (R102). -/
def commitTask (im : JobImage) (t : TaskRec) (r : TaskRun) (s : State) : State :=
  let s := settleProducts t r.step (setRun { r with st := .committed, gauges := [], overs := [] } s)
  closeSteps (if r.again then s else commitEffects im t r s)

/-! ### Start (R139) -/

/-- The steps in which a task may run now: those of the run that are not over, up to the current one (R152). -/
def openSteps (s : State) : List Nat :=
  let k := max s.job.ts s.exec.doneTo
  (List.range (s.job.cstep + 1 - k)).map (k + ·)

/-- The first step in which a task has not run, or was discarded. -/
def startStep (t : TaskRec) (s : State) : Option Nat :=
  (openSteps s).find? fun k => match runOf t.taskid k s with
    | none => true
    | some r => r.st == .discarded

/-- Whether a run of a task has ended. -/
def endedIn (task step : Nat) (s : State) : Bool :=
  stepOver step s || match runOf task step s with
  | some r => r.st != .discarded && r.endT.isSome
  | none => false

/-- Whether every earlier task of the same stream on the same unit has ended, those of the step before included. -/
def unitFree (im : JobImage) (t : TaskRec) (step : Nat) (s : State) : Bool :=
  let same := im.tasks.filter fun q => q.stream == t.stream && q.unit == t.unit
  (same.takeWhile fun q => q.taskid != t.taskid).all (fun q => endedIn q.taskid step s) &&
    (step == s.job.ts || same.all fun q => endedIn q.taskid (step - 1) s)

/-- Whether a replay lets a task start: the discarded tasks of a step run again in ascending START and TASKID (R142). -/
def replayOrder (im : JobImage) (t : TaskRec) (step : Nat) (s : State) : Bool :=
  ((runOf t.taskid step s).map (·.st)) != some .discarded ||
    im.tasks.all fun q => ((runOf q.taskid step s).map (·.st)) != some .discarded || decide (t.start < q.start) ||
      (t.start == q.start && decide (t.taskid ≤ q.taskid))

/-- Whether the unit of a task can work: out of reset, not stopped, its core not waiting for a takeover, and not in guard-bit mode
(R72, R160, R326). -/
def unitUp (t : TaskRec) (s : State) : Bool :=
  if t.stream = 2 then !(s.memStacks[Fin.ofNat 32 (unitStack t.unit)]).inReset && !(s.memStacks[Fin.ofNat 32 (unitStack t.unit)]).stopped
  else
    let d := s.dies[Fin.ofNat 4 (unitDie t.unit)]
    !d.inReset && !d.ocStopped && !s.inspect.wait.contains (unitDie t.unit, unitCore t.unit) && !guarded (placeOf t s) s

/-- Whether the time and the unit let a task start in a step. -/
def startDue (im : JobImage) (t : TaskRec) (step : Nat) (s : State) : Bool :=
  running s && !s.exec.voided && !s.job.abandoned && unitUp t s &&
    decide (originOf step s + t.start ≤ tideNow s) && unitFree im t step s && replayOrder im t step s

/-- Whether every reduction that a U task reads from has committed (R118): those of its uses, and the one that adds Q. -/
def updReady (im : JobImage) (t : TaskRec) (step : Nat) (s : State) : Bool :=
  let u := decodeUpd t.body
  ((updUses (updPlace t) u s).all fun b => match redInto im b.1 with
    | some r => redCommitted r.redid step s
    | none => true) &&
  match normRed im u.tensor with
  | some r => redCommitted r.redid step s
  | none => true

/-- Whether the waits of a task are satisfied; a U task also waits for the verdict of the step (R133) and for its reductions (R118). -/
def waitsOk (im : JobImage) (t : TaskRec) (step : Nat) (s : State) : Bool :=
  t.waits.all (waitOk (bit t.flags 0) step s) && (t.stream != 2 || ((verdictAt step s).done && updReady im t step s))

/-- FIRM or SPECULATIVE (Table 6.3). -/
def firmness (t : TaskRec) (step : Nat) (s : State) : TaskSt := if isFirm t step s then .firm else .speculative

/-- The run of a task that starts. -/
def newRun (t : TaskRec) (step : Nat) (s : State) : TaskRun :=
  { task := t.taskid, step := step, st := firmness t step s, startT := tideNow s, endT := none, checksOk := true, pnf := false,
    psat := false, undetected := [], gauges := [], overs := [], nfFwd := 0, loss := 0, nfLoss := 0,
    again := ((runOf t.taskid step s).map (·.again)).getD false, wrote := false }

/-- Start a task in a step (R139): a thread that lacks a token or a credit waits (R135). -/
def startTask (im : JobImage) (t : TaskRec) (step : Nat) (s : State) : State :=
  if !startDue im t step s then s
  else if !waitsOk im t step s then taskThread t .needToken s
  else if !queuesOk t.taskid s then taskThread t .needCredit s
  else startExchanges im t step (readPrefetches im t (setRun (newRun t step s) (taskThread t .ready s)))

/-! ### Running tasks -/

/-- The run of a task that has started and not ended. -/
def runningRun (task : Nat) (s : State) : Option TaskRun :=
  s.exec.runs.find? fun r => r.task == task && r.endT.isNone && r.st != .discarded && r.st != .committed

/-- Apply a function to a running task of the loaded image. -/
def onRunning (task : Nat) (f : JobImage → TaskRec → TaskRun → State → State) (s : State) : State :=
  match s.job.image, taskRec task s, runningRun task s with
  | some im, some t, some r => if s.exec.voided then s else f im t r s
  | _, _, _ => s

/-- A run with what its work brought. -/
def TaskRun.withFx (r : TaskRun) (fx : TaskFx) : TaskRun :=
  { r with pnf := fx.pnf, psat := fx.psat, gauges := fx.gauges, overs := fx.overs, nfFwd := fx.nfFwd, loss := fx.loss, nfLoss := fx.nfLoss }

/-- The byte ranges of package memory that a task touches: (address, bytes). -/
def spansOf (rs : List Rect) : List (Nat × Nat) :=
  (rs.filter fun r => r.space == 1).flatMap fun r => (List.range r.rows).map fun k => (r.base + k * r.pitch, r.width)

/-- What a task reads and writes in package memory. -/
def taskSpans (im : JobImage) (t : TaskRec) : List (Nat × Nat) := spansOf (taskReads im t ++ taskWrites im t)

/-- The first access of a task that fails, with its cause (R11, R16, R161, R163). -/
def taskCause (im : JobImage) (t : TaskRec) (s : State) : Option (Nat × Nat) :=
  (taskSpans im t).findSome? fun p => spanCause (requesterOf t s) p.1 p.2 s

/-- Whether a range of package memory overlaps a prefetch whose core has not acknowledged the stale notice. -/
def unacked (s : State) (p : Nat × Nat) : Bool := (List.finRange 32).any fun i => mustWait i p.1 p.2 s

/-- Whether the acknowledgement of some write of a task is still held back (R175). -/
def acksHeld (im : JobImage) (t : TaskRec) (s : State) : Bool := (spansOf (taskWrites im t)).any (unacked s)

/-- The END event of a task whose work is done, once its last write has been acknowledged (R138, R175); a U task commits at the same
instant. -/
def finishTask (im : JobImage) (t : TaskRec) (r : TaskRun) (s : State) : State :=
  if acksHeld im t s then setRun { r with wrote := true } s
  else
    let r := { r with st := firmness t r.step s, endT := some (tideNow s), wrote := true }
    let s := setRun r (taskThread t .idle s)
    if t.stream = 2 then updateFallbacks im t r.step (commitTask im t r s) else s

/-- The end of a task (R138, R140): its line requests, its stores, its END event. An access that fails is logged, and the task does not
end (log entry 67). -/
def endTask (im : JobImage) (t : TaskRec) (r : TaskRun) (s : State) : State :=
  match taskCause im t s with
  | some (a, k) => logAccess a (requesterOf t s) k s
  | none =>
    if r.wrote then finishTask im t r s
    else
      match taskWork im t r.step r.undetected (touchReads im t s) with
      | .wait s => s
      | .bad m => streamMismatch im t r.step m s
      | .fault f => computeFault im t r.step f s
      | .badPart s => breachTask im t r.step s
      | .done s fx => finishTask im t (r.withFx fx) s

/-- The check of a tile product that ends after its task (R18): a fault that no check saw is in the task's results. -/
def lateProduct (im : JobImage) (t : TaskRec) (r : TaskRun) (slab col chunk : Nat) (fs : List ArrayFault) (s : State) : State :=
  let s := endProduct im t r slab col chunk fs s
  match runOf t.taskid r.step s with
  | some q =>
    if q.st = .discarded ∨ q.undetected = r.undetected then s
    else
      match taskWork im t q.step q.undetected s with
      | .done s fx => setRun (q.withFx fx) s
      | _ => s
  | none => s

/-- A run that has ended, has its horizon behind it and is firm (R18, R140). -/
def commitDue (t : TaskRec) (s : State) (r : TaskRun) : Bool :=
  r.task == t.taskid && r.st != .committed && r.st != .discarded && r.checksOk && isFirm t r.step s &&
    (match r.endT with
     | some e => decide (e + 2000 ≤ tideNow s)
     | none => false)

/-- The deadline that applies to a task of a step: its compiled one and its slip (R151, R154). -/
def deadlineOf (t : TaskRec) (step : Nat) (s : State) : Nat := originOf step s + t.deadline + slipFor step t.deadline s

/-- The stacks whose memory a task touches. -/
def taskStacks (im : JobImage) (t : TaskRec) : List (Fin 32) :=
  (List.finRange 32).filter fun i => (taskSpans im t).any fun p => rangeOf p.1 == .stack i

/-- Whether a task works on a stack in the hot band (R185), or on a compute die in its hot band (R325). -/
def hotWork (im : JobImage) (t : TaskRec) (s : State) : Bool :=
  ((taskStacks im t).any fun i => s.memStacks[i].band == 2) || (t.stream != 2 && s.dies[Fin.ofNat 4 (unitDie t.unit)].hot)

/-- The narrower direction of a link, in bundles. -/
def linkWidth (l : Fin 41) (s : State) : Nat := min (width s.links[l].masks.1) (width s.links[l].masks.2)

/-- The charged unit time of a task (R154, R185, R209, R325): three quarters of the rate on a hot stack or die, and the reduced width of a link that
fell below its rating in this step. -/
def unitTimeOf (im : JobImage) (t : TaskRec) (unitTime : Nat) (s : State) : Nat :=
  let u := if hotWork im t s then cdiv (4 * unitTime) 3 else unitTime
  ((taskStacks im t).flatMap fun i => pathLinks (requesterOf t s) i).foldl
    (fun u l => if s.links[l].below then max u (cdiv (unitTime * linkRated l.val) (max 1 (linkWidth l s))) else u) u

/-- Whether a task uses a link that fell below its rating in this step (R209). -/
def belowWork (im : JobImage) (t : TaskRec) (s : State) : Bool :=
  ((taskStacks im t).flatMap fun i => pathLinks (requesterOf t s) i).any fun l => s.links[l].below

/-- The exception that delays a task: code 1 is that of a hot stack it works on, code 3 that of a link below its rating; any other one is
named by the unit. -/
def delayCode (im : JobImage) (t : TaskRec) (code : Nat) (s : State) : Nat :=
  if code = 0 ∨ code = 1 ∨ code = 3 then (if hotWork im t s then 1 else if belowWork im t s then 3 else 0) else code

/-- The check of a running task against its deadline (R154, R185, R209, R247): a late notice where the projected end lies beyond it. -/
def checkDeadline (im : JobImage) (t : TaskRec) (r : TaskRun) (remaining unitTime code origin_ queue : Nat) (s : State) : State :=
  let e := tideNow s + remaining * unitTimeOf im t unitTime s
  let d := deadlineOf t r.step s
  let code := delayCode im t code s
  if code = 0 ∨ e ≤ d then s
  else
    sendNotice false r.step t.deadline (lateSlip r.step t.deadline s + upMicro (e - d)) code (if code = 6 then origin_ else logId s)
      t.taskid 0 (if code = 6 then queue else 0) s

/-- The run of a task whose tile products may still be checked: running, or ended with its horizon ahead (R18, R62). -/
def checkedRun (task : Nat) (s : State) : Option TaskRun :=
  s.exec.runs.find? fun r => r.task == task && r.st != .discarded && r.st != .committed &&
    (match r.endT with
     | none => true
     | some e => decide (tideNow s < e + 2000))

/-- Whether a task has a tile product at a place. The MX path has no tile check, and only GEMM tasks have products. -/
def hasProduct (t : TaskRec) (slab col chunk : Nat) : Bool :=
  let g := decodeGemm t.body
  t.dtype == 1 && g.kind != 3 && decide (32 * slab < g.rows) && decide (32 * col < g.cols) && decide (chunk < 16 * g.kbn)

/-! ### The commands -/

/-- TASK_START (R139). -/
def execTaskStart (task : Nat) (s : State) : Host.Outcome State Fault Refusal :=
  .next (
    match s.job.image, taskRec task s with
    | some im, some t =>
      match startStep t s with
      | some k => startTask im t k s
      | none => s
    | _, _ => s)

/-- TILE_PRODUCT_END (R18, R62). -/
def execTileProductEnd (task slab col chunk : Nat) (faults : List ArrayFault) (s : State) : Host.Outcome State Fault Refusal :=
  .next (
    match s.job.image, taskRec task s, checkedRun task s with
    | some im, some t, some r =>
      if s.exec.voided || !hasProduct t slab col chunk then s
      else if r.endT.isNone then endProduct im t r slab col chunk faults s
      else lateProduct im t r slab col chunk faults s
    | _, _, _ => s)

/-- FALLBACK_BEYOND_FREEBOARD (R94). -/
def execFallbackBeyondFreeboard (task : Nat) (s : State) : Host.Outcome State Fault Refusal :=
  .next (onRunning task (fun im t r s => if t.dtype = 1 then sendFallbacks t r.step (int8Of im t s) s else s) s)

/-- DEADLINE_CHECK (R154). `remaining` work units of `unitTime` ns are left; `code` is the exception that delays the task, and for code
6 `origin` and `queue` name what was late (R247). -/
def execDeadlineCheck (task remaining unitTime : Nat) (code : Fin 9) (origin : BitVec 16) (queue : BitVec 16) (s : State) :
    Host.Outcome State Fault Refusal :=
  .next (onRunning task (fun im t r s => checkDeadline im t r remaining unitTime code.val origin.toNat queue.toNat s) s)

/-- CHECK_HORIZON (R18, R140). -/
def execCheckHorizon (task : Nat) (s : State) : Host.Outcome State Fault Refusal :=
  .next (
    match s.job.image, taskRec task s with
    | some im, some t =>
      match s.exec.runs.find? (commitDue t s) with
      | some r => if s.exec.voided then s else commitTask im t { r with st := .firm } s
      | none => s
    | _, _ => s)

end Sys2Proof.Machine
end

