-- ==== Sys2Proof/Machine/Memory.lean ====
section
/-! DEFINITION. Memory requests: line and narrow-path requests, banks, parking and RETRY, errors of a sector, adders, landings, the
watch table, drains and refresh, BAR2 (R136, R161, R163, R167 to R175, R177 to R182, R187, R188, R191, R193, R274). -/

namespace Sys2Proof.Machine

/-! ### What an error reaches (R187, R348) -/

/-- Whether a task runs for a requester: on its core and thread context, or on its stack's update engine. -/
def runsFor (who : Requester) (t : TaskRec) (s : State) : Bool := requesterOf t s == who

/-- The running task of a requester, if any. -/
def taskOf (who : Requester) (s : State) : Option (TaskRec × TaskRun) :=
  s.exec.runs.findSome? fun r =>
    if r.endT.isSome || r.st == .discarded || r.st == .committed then none
    else match taskRec r.task s with
      | some t => if runsFor who t s then some (t, r) else none
      | none => none

/-- The first format that Table 4.8 lists for a class. -/
def firstFmt (cls : Nat) : Nat :=
  match cls with
  | 0 => 1
  | 4 => 4
  | 5 => 5
  | 6 => 5
  | 7 => 7
  | _ => 0

/-- The class of a task's output. -/
def outClass (im : JobImage) (t : TaskRec) : Nat :=
  let cls := fun (p : Nat) => ((entryOf im t.unit p [0x01, 0x0D, 0x0E, 0x19, 0x13]).map (·.cls)).getD 6
  match t.dtype with
  | 1 => let g := decodeGemm t.body; if g.kind = 2 then 3 else cls g.out
  | 2 => cls (decodeVec t.body).dst
  | 3 => 5
  | 4 => cls (decodeMove t.body).dst
  | _ => 3

/-- The tensor-table entry of space 1 that holds an address. -/
def entryAt (im : JobImage) (addr : Nat) : Option TensorEntry :=
  im.tensors.find? fun e => ptrSpace e.base == 1 && decide (ptrAddr e.base ≤ addr ∧ addr < ptrAddr e.base + e.length)

/-- The item that a sector of memory is, for the task that reads it (Table 4.9). -/
def itemAt (im : JobImage) (t : TaskRec) (addr : Nat) (s : State) : Mism :=
  let prod := gemmClass (decodeGemm t.body).kind
  let at_ := fun (e : TensorEntry) => (addr - ptrAddr e.base) / 32
  let fbFmt := fun (e : TensorEntry) (i : Nat) =>
    match entryFor im e.tensor 0x04 with
    | some x => if (decodeSide (physRead s (ptrAddr x.base + sideOffset i) 40)).fb then 2 else 1
    | none => 1
  let mk := fun (e : TensorEntry) (c f : Nat) =>
    ({ cls := c, fmt := f, skind := e.skind, tensor := e.tensor, addr := addr, index := at_ e } : Mism)
  match entryAt im addr with
  | none => { cls := outClass im t, fmt := firstFmt (outClass im t), skind := 0, tensor := 0, addr := addr, index := 0 }
  | some e =>
    if e.skind = 0x03 then mk e 0 (fbFmt e ((addr - ptrAddr e.base) / 128))
    else if e.skind = 0x04 then mk e 0 1
    else if e.skind = 0x05 ∨ e.skind = 0x06 then mk e 0 2
    else if t.dtype = 1 ∧ e.skind = 0x02 then mk e prod 2
    else if t.dtype = 1 ∧ (e.skind = 0x07 ∨ e.skind = 0x08) then mk e prod 0
    else if e.skind = 0x0E ∨ e.skind = 0x0F then mk e 4 4
    else if t.dtype = 3 ∧ ((0x15 ≤ e.skind ∧ e.skind ≤ 0x18) ∨ e.skind = 0x09 ∨ e.skind = 0x0A) then mk e 5 5
    else if e.skind = 0x13 ∨ e.skind = 0x14 then mk e 3 3
    else mk e (outClass im t) (firstFmt (outClass im t))

/-- Poison the task that reads a sector which returned an uncorrectable error (R187, R99). -/
def poisonReader (who : Requester) (addr : Nat) (s : State) : State :=
  match s.job.image, taskOf who s with
  | some im, some (t, r) => streamMismatch im t r.step (itemAt im t addr s) s
  | _, _ => s

/-! ### Error bookkeeping (R171, R187, R188) -/

/-- Whether two error records are of one row. -/
def sameRow (pc bank row : Nat) (r : RowErr) : Bool := r.pc == pc && r.bank == bank && r.row == row

/-- Marked rows of a bank. -/
def markedRows (pc bank : Nat) (st : Stack) : Nat := (st.rows.filter fun r => r.marked && r.pc == pc && r.bank == bank).length

/-- Mark a bank for repair (R188). -/
def markBank (i : Fin 32) (pc bank : Nat) (s : State) : State :=
  if s.memStacks[i].bankMarks.contains (pc, bank) then s
  else modStack i (fun st => { st with bankMarks := st.bankMarks ++ [(pc, bank)] }) s

/-- Mark a row for repair, and its bank with more than 16 rows marked (R188). -/
def markRow (i : Fin 32) (pc bank row : Nat) (s : State) : State :=
  let st := s.memStacks[i]
  if st.rows.any fun r => sameRow pc bank row r && r.marked then s
  else
    let e := (st.rows.find? (sameRow pc bank row)).getD { pc := pc, bank := bank, row := row, times := [], marked := false }
    let s := modStack i (fun st => { st with rows := st.rows.filter (fun r => !sameRow pc bank row r) ++ [{ e with marked := true }] }) s
    let s := logEv 0x0012 (unitWord 3 i.val 0) i.val pc bank row s
    if 16 < markedRows pc bank s.memStacks[i] then markBank i pc bank s else s

/-- A corrected error of a row: counted, and the third within 24 h marks the row (R187, R188). -/
def rowCorrected (i : Fin 32) (pc bank row : Nat) (s : State) : State :=
  let st := s.memStacks[i]
  let e := (st.rows.find? (sameRow pc bank row)).getD { pc := pc, bank := bank, row := row, times := [], marked := false }
  let times := if e.times.contains s.now then e.times else s.now :: e.times.filter fun t => decide (s.now < t + 86400000000000)
  let e := { e with times := times }
  let s := modStack i (fun st => { st with rows := st.rows.filter (fun r => !sameRow pc bank row r) ++ [e], corrected := st.corrected + 1 }) s
  if 3 ≤ times.length then markRow i pc bank row s else s

/-- Clear least recently used keep marks until at most `n` are left; `fuel` bounds them. -/
def trimKeep (n : Nat) : Nat → List CacheLine → List CacheLine
  | 0, ls => ls
  | f + 1, ls => if n < (ls.filter (·.keep)).length then trimKeep n f (clearLruKeep ls) else ls

/-- Disable a way of the set of a line (R171), unless it is not an enabled one: the line that the way held is lost, and the set keeps at
most as many keep marks as its ways allow (R169). A lost dirty line is logged as an uncorrectable error; answers its number. -/
def disableWay (i : Fin 32) (ln way : Nat) (s : State) : State × Option Nat :=
  let c := cacheSetOf ln s.memStacks[i]
  if !(enabledWays s.memStacks[i] c).contains way then (s, none)
  else
    let lost := (c.lines.find? fun l => l.way == way && l.dirty).map (·.line)
    let c := { c with disabled := c.disabled ++ [way], lines := c.lines.filter fun l => l.way != way }
    let c := { c with lines := trimKeep (waysOf s.memStacks[i] c - 4) 17 c.lines }
    let s := modStack i (fun st => { st with cache := putSet c st.cache }) s
    let spare := if (ledgerFind s.flash 0x22 i.val (setIdx ln)).isNone then 16 else 0xFFFF
    let s := ledgerAppend 0x22 4 i.val (setIdx ln) (leBytes 2 way ++ leBytes 2 spare) s
    let s := logEv 0x0013 (unitWord 3 i.val 0) i.val (setIdx ln) way 0 s
    match lost with
    | some l => (logEv 0x0011 (unitWord 3 i.val 0) (lineAddr i l) i.val 0 0 s, some l)
    | none => (s, none)

/-- What the error code finds on an access to a line of a stack: the state, and whether the access fails (R171, R187). -/
def sectorCheck (i : Fin 32) (who : Requester) (addr : Nat) (e : Ecc) (s : State) : State × Bool :=
  match e with
  | .clean => (s, false)
  | .corrected pc bank row => (rowCorrected i pc.val (bank % 64) row s, false)
  | .uncorrectable pc bank row =>
    let s := logEv 0x0011 (unitWord 3 i.val 0) addr i.val 0 0 s
    (poisonReader who addr (markRow i pc.val (bank % 64) row s), true)
  | .badWay way =>
    let (s, lost) := disableWay i (lineNo addr) way s
    if lost = some (lineNo addr) then (poisonReader who addr s, true) else (s, false)
  | .bankFault pc bank =>
    let s := logEv 0x0012 (unitWord 3 i.val 0) i.val pc.val (bank % 64) 0 (markBank i pc.val (bank % 64) s)
    (poisonReader who addr (logEv 0x0011 (unitWord 3 i.val 0) addr i.val 0 0 s), true)

/-- What a write of whole lines or sectors can meet: it reads nothing from DRAM, but a way can fail (R167, R171). -/
def writeEcc : Ecc → Ecc
  | .badWay w => .badWay w
  | _ => .clean

/-! ### Completions -/

/-- Acknowledge a write of `len` bytes, at once or after the stale notices it caused (R175). -/
def ackWrite (i : Fin 32) (addr len : Nat) (k : WAck) (s : State) : State :=
  let s := markStale i addr len s
  if mustWait i addr len s then withhold i addr len k s else sendAck i k s

/-! ### Banks, parking, RETRY (R181) -/

/-- The addresses a request touches. -/
def MemReq.addrs : MemReq → List Nat
  | .line r => [r.addr]
  | .gather r => r.addrs
  | .scatter r => r.addrs
  | .scatterAdd r => r.addrs

/-- The stack of a request's first address. -/
def MemReq.stack (r : MemReq) : Fin 32 := Fin.ofNat 32 ((r.addrs.headD 0) / 2 ^ 37)

/-- The banks that a request enters: those of its lines that are not resident. -/
def MemReq.banks (r : MemReq) (s : State) : List Nat :=
  let i := r.stack
  ((r.addrs.filter fun a => (cachedLine (lineNo a) s.memStacks[i]).isNone).map fun a => bankOf i (lineNo a) s).eraseDups

/-- A bank of a stack; one with no record is empty. -/
def bankQ (i : Fin 32) (b : Nat) (s : State) : BankQ :=
  (s.memStacks[i].banks.find? fun q => q.bank == b).getD { bank := b, queue := [], parked := [] }

/-- Replace a bank; an empty one needs no record. -/
def putBank (q : BankQ) (l : List BankQ) : List BankQ :=
  let l := l.filter fun x => x.bank != q.bank
  if q.queue.isEmpty && q.parked.isEmpty then l else l ++ [q]

/-- Change a bank. -/
def modBank (i : Fin 32) (b : Nat) (f : BankQ → BankQ) (s : State) : State :=
  modStack i (fun st => { st with banks := putBank (f (bankQ i b s)) st.banks }) s

/-- Whether every bank of a list has room in its queue. -/
def roomIn (i : Fin 32) (bs : List Nat) (s : State) : Bool := bs.all fun b => decide ((bankQ i b s).queue.length < 8) && (bankQ i b s).parked.isEmpty

/-! ### The core's side (R136) -/

/-- Outstanding requests of a core. -/
def outstOf (d c : Nat) (s : State) : List Outst := (coreOf d c s).outst

/-- Change the outstanding requests of a core. -/
def modOutst (d c : Nat) (f : List Outst → List Outst) (s : State) : State := modCore d c (fun k => { k with outst := f k.outst }) s

/-- Whether a core may issue a request that lands `len` bytes at `dst`: under 48 requests, under 6 in each bank it enters, and landing
space in its core store that no other request has reserved (R4, R136). A write lands nothing. -/
def mayIssue (d c : Nat) (stack : Nat) (banks : List Nat) (dst len : Nat) (s : State) : Bool :=
  let os := outstOf d c s
  decide (os.length < 48) &&
    (banks.all fun b => decide ((os.filter fun o => o.stack == stack && o.banks.contains b).length < 6)) &&
    (len == 0 || decide (dst + len ≤ storeBytes)) && os.all fun o => decide (dst + len ≤ o.dst ∨ o.dst + o.len ≤ dst) || len == 0

/-- Answer a request of a core: the answer waits to land. -/
def coreAnswer (d c id : Nat) (a : Option Bytes) (s : State) : State :=
  modOutst d c (fun l => l.map fun o => { o with resp := if o.id = id then some a else o.resp }) s

/-- Complete a request that reads: for a core the answer waits for its landing, any other requester has it at once. -/
def complete (i : Fin 32) (who : Requester) (id : Nat) (a : Option Bytes) (s : State) : State :=
  match who with
  | .core d c _ => coreAnswer d.val c id a s
  | _ =>
    match a with
    | some data => emit (.memDone who id .ok data) (leaveBanks i (who, id) s)
    | none => answerErr who id (leaveBanks i (who, id) s)

/-- Complete a write with an error. -/
def writeErr (i : Fin 32) (who : Requester) (id : Nat) (s : State) : State := answerErr who id (dropOutst (who, id) (leaveBanks i (who, id) s))

/-! ### Serving a request -/

/-- Serve a line of a stack (R167, R168, R174): a read completes with the line, a write with its acknowledgement. A write of a whole
line reads nothing. -/
def serveLine (r : LineReq) (s : State) : State :=
  let i := (MemReq.line r).stack
  let whole := r.write && r.data.length == 128
  let (s, bad) := sectorCheck i r.who r.addr (if whole then (writeEcc r.ecc) else r.ecc) s
  if bad && !whole then (if r.write then writeErr i r.who r.id s else complete i r.who r.id none s)
  else if r.write then ackWrite i r.addr r.data.length (.req r.who r.id) (cacheWrite i r.addr r.data r.hint s)
  else
    let (d, s) := cacheRead i (lineNo r.addr) r.hint s
    complete i r.who r.id (some d) s

/-- The address of the sector in which the error code finds what a narrow request names. -/
def badAddr (r : NarrowReq) : Nat := r.addrs.getD r.eccAt.val (r.addrs.headD 0)

/-- A 32-byte sector as the narrow path reads it (R173). -/
def sectorRead (a : Nat) (s : State) : Bytes := physRead s a 32

/-- Serve a GATHER (R172). -/
def serveGather (r : NarrowReq) (s : State) : State :=
  let i := (MemReq.gather r).stack
  let (s, bad) := sectorCheck i r.who (badAddr r) r.ecc s
  if bad then complete i r.who r.id none s
  else complete i r.who r.id (some (slice (r.addrs.flatMap fun a => sectorRead a s) 0 128)) s

/-- Acknowledge a write of sectors, at once or after every stale notice it caused (R175). -/
def ackNarrow (i : Fin 32) (addrs : List Nat) (k : WAck) (s : State) : State :=
  let ids := (s.memStacks[i].watch.filter fun w => addrs.any fun a => watchWaits a 32 w).map (·.id)
  if ids.isEmpty then sendAck i k s
  else modStack i (fun st => { st with withheld := st.withheld ++ [{ ack := k, addr := addrs.headD 0, len := 32, ids := ids }] }) s

/-- Serve a SCATTER (R172): the sectors in request order. -/
def serveScatter (r : NarrowReq) (s : State) : State :=
  let i := (MemReq.scatter r).stack
  let (s, bad) := sectorCheck i r.who (badAddr r) (writeEcc r.ecc) s
  if bad then writeErr i r.who r.id s
  else
    let s := (r.addrs.zip r.data).foldl (fun s p => narrowWrite i p.1 (slice p.2 0 32) (markStale i p.1 32 s)) s
    ackNarrow i r.addrs (.req r.who r.id) s

/-- The int32 lanes of a byte string. -/
def lanesOf (bs : Bytes) : List Int := (List.range (bs.length / 4)).map fun k => toSigned 32 (field bs (4 * k) 4)

/-- The bytes of int32 lanes. -/
def laneBytes (l : List Int) : Bytes := l.flatMap fun v => leBytes 4 (ofSigned 32 v)

/-- ADD32 of lanes into memory (R177): the state and how many saturated. -/
def addLanes (i : Fin 32) (a : Nat) (x : List Int) (s : State) : State × Nat :=
  let sums := (lanesOf (physRead s a (4 * x.length))).zipWith (combine 0) x
  (narrowWrite i a (laneBytes (sums.map (·.1))) s, sums.countP (·.2))

/-- Count saturated lanes in class D, format INT32 (R242). -/
def countSat (n : Nat) (s : State) : State := if n = 0 then s else addGauge 3 3 { sat := n } s

/-- Serve a SCATTER-ADD (R172): the acknowledgement carries the lanes that saturated. -/
def serveScatterAdd (r : NarrowReq) (s : State) : State :=
  let i := (MemReq.scatterAdd r).stack
  let (s, bad) := sectorCheck i r.who (badAddr r) r.ecc s
  if bad then writeErr i r.who r.id s
  else
    let (s, n) := (r.addrs.zip r.data).foldl (fun x p =>
      let (s, k) := addLanes i p.1 (lanesOf (slice p.2 0 32)) (markStale i p.1 32 x.1)
      (s, x.2 + k)) (s, 0)
    ackNarrow i r.addrs (.scatterAdd r.who r.id (r.addrs.headD 0) n) (countSat n s)

/-- Serve a request. -/
def serve (r : MemReq) (s : State) : State :=
  match r with
  | .line r => serveLine r s
  | .gather r => serveGather r s
  | .scatter r => serveScatter r s
  | .scatterAdd r => serveScatterAdd r s

/-- Whether a request leaves an answer that a core must land. -/
def MemReq.lands : MemReq → Bool
  | .line r => !r.write
  | .gather _ => true
  | _ => false

/-- Whether the answer of a request waits in a core for its landing. -/
def waitsLanding (r : MemReq) : Bool :=
  match r.key.1 with
  | .core _ _ _ => r.lands
  | _ => false

/-- Admit a request to the banks it enters and serve it (R181); it leaves them when its line lands or when it completes. -/
def admitReq (r : MemReq) (s : State) : State :=
  serve r ((r.banks s).foldl (fun s b => modBank r.stack b (fun q => { q with queue := q.queue ++ [r] }) s) s)

/-- A RETRY completion of a core's request: the core issues it again no sooner than 512 ns later (R181). -/
def noteRetry (d c th : Nat) (r : MemReq) (s : State) : State :=
  let t := some (s.now + 512)
  modOutst d c (fun l =>
    if l.any fun o => o.id == r.key.2 then l.map fun o => { o with retryAt := if o.id = r.key.2 then t else o.retryAt }
    else l ++ [{ id := r.key.2, addr := r.addrs.headD 0, stack := r.stack.val, banks := [], thread := th, dst := 0, len := 0, retryAt := t, resp := none }]) s

/-- Whether a request writes. -/
def MemReq.writes : MemReq → Bool
  | .line r => r.write
  | .gather _ => false
  | _ => true

/-- Whether a parked request is a write to some line of a list of addresses. -/
def writesLine (addrs : List Nat) (r : MemReq) : Bool := r.writes && r.addrs.any fun a => addrs.any fun b => a / 128 == b / 128

/-- The bank in which a request must wait, if it must: that of a parked write to one of its lines, so that writes to a line keep their
order of arrival (R174); else the first bank it enters that is full (R181). -/
def waitBank (r : MemReq) (s : State) : Option Nat :=
  let i := r.stack
  match s.memStacks[i].banks.find? fun q => q.parked.any (writesLine r.addrs) with
  | some q => some q.bank
  | none => (r.banks s).find? fun b => !roomIn i [b] s

/-- A request that reached its base die: served, parked, or turned away with RETRY (R181). -/
def enterBank (r : MemReq) (s : State) : State :=
  let i := r.stack
  match waitBank r s with
    | none => admitReq r s
    | some b =>
      if (bankQ i b s).parked.length < 24 then
        modStack i (fun st => { st with parkedCount := st.parkedCount + 1 }) (modBank i b (fun q => { q with parked := q.parked ++ [r] }) s)
      else
        let s := modStack i (fun st => { st with retryCount := st.retryCount + 1 }) s
        let s := match r.key.1 with
          | .core d c th => noteRetry d.val c th.val r s
          | _ => s
        emit (.memDone r.key.1 r.key.2 .retry []) s

/-- Register a prefetching request's line (R175). -/
def watchLine (r : LineReq) (s : State) : State :=
  match r.who with
  | .core d c _ =>
    if r.prefetch && !r.write then
      addWatch (MemReq.line r).stack
        { id := r.id, die := d.val, core := c, lo := r.addr - r.addr % 128, len := 128, dst := r.dst, stale := false, acked := false, overs := false } s
    else s
  | _ => s

/-- What stands in the way of a request, if anything: a cause of Table 10.15. -/
def reqCause (r : MemReq) (s : State) : Option Nat :=
  match r with
  | .line q => accessCause q.who q.addr (if q.write then max 1 q.data.length else 1) s
  | _ => if (r.addrs.map rangeOf).any fun k => k != rangeOf (r.addrs.headD 0) then some 6 else accessCause r.key.1 (r.addrs.headD 0) 32 s

/-- A request that fails at once: logged, completed with an error, nothing performed (R161, R163). -/
def failReq (r : MemReq) (cause : Nat) (s : State) : State :=
  answerErr r.key.1 r.key.2 (dropOutst r.key (logAccess (r.addrs.headD 0) r.key.1 cause s))

/-- Poison the MOVE task that is running and reads an address of the far tier, which returned data poison (R187, R99). -/
def poisonMover (addr : Nat) (s : State) : State :=
  match s.job.image with
  | none => s
  | some im =>
    (im.tasks.filter fun t => t.dtype == 4 && ptrSpace (decodeMove t.body).src == 1 &&
        decide (ptrAddr (decodeMove t.body).src ≤ addr ∧ addr < ptrAddr (decodeMove t.body).src + (decodeMove t.body).length)).foldl
      (fun s t => match s.exec.runs.find? fun r => r.task == t.taskid && r.endT.isNone && r.st != .discarded && r.st != .committed with
        | some r => streamMismatch im t r.step (itemAt im t addr s) s
        | none => s) s

/-- A far-tier access of hub DMA, a host port or the guest (R191): no slice cache. -/
def farAccess (f : Fin 2) (r : LineReq) (s : State) : State :=
  match r.ecc with
  | .uncorrectable _ _ _ => answerErr r.who r.id (poisonMover r.addr (logEv 0x0011 0 r.addr f.val 0 0 s))
  | _ =>
    if r.write then emit (.memDone r.who r.id .ok []) { s with mem := memWrite s.mem r.addr r.data }
    else emit (.memDone r.who r.id .ok (memRead s.mem (r.addr - r.addr % 128) 128)) s

/-- Whether the thread of a request needs what it reads: all but a prefetch (R135, R175). -/
def MemReq.needed : MemReq → Bool
  | .line r => !r.write && !r.prefetch
  | .gather _ => true
  | _ => false

/-- The bundles of a direction of a link that can be chosen: those of the mask that are not under test (R207). -/
def openBundles (l : Fin 41) (rev : Bool) (s : State) : List Nat :=
  let m := if rev then s.links[l].masks.2 else s.links[l].masks.1
  (List.range 128).filter fun b => m.getLsbD b && !(s.links[l].bundles.any fun x => x.rev == rev && x.bundle == b && x.testing)

/-- The bundle that carries a transaction (R198): a fixed hash of its class, its source unit and its line, among the current mask. -/
def bundleFor (l : Fin 41) (rev : Bool) (cls unit line : Nat) (s : State) : Option Nat :=
  let bs := openBundles l rev s
  bs[Config.bundleHash cls unit line % bs.length]?

/-- The bundle that a request of a core takes on each link of its path: class C4 (R157, R198). -/
def routeOf (who : Requester) (i : Fin 32) (addr : Nat) (s : State) : List (Nat × Bool × Nat) :=
  match who with
  | .core _ _ _ => (pathHops who i).filterMap fun h => (bundleFor h.1 h.2 4 (reqUnit who) (addr / 128) s).map fun b => (h.1.val, h.2, b)
  | _ => []

/-- Issue a request of a core (R136): over a cap or without landing space the thread stops being ready, else the request is recorded as
outstanding and reaches its base die; a thread that needs its line is not ready until a line of it lands (R135; log entry 61). -/
def issueCore (d : Fin 4) (c : Nat) (th : Fin 8) (dst : Nat) (r : MemReq) (s : State) : State :=
  let bs := (r.addrs.map fun a => bankOf r.stack (lineNo a) s).eraseDups
  let len := if r.lands then 128 else 0
  if (outstOf d.val c s).any fun o => o.id == r.key.2 then s
  else if !mayIssue d.val c r.stack.val bs dst len s then setThread d.val c th.val .needLine s
  else
    let s := modOutst d.val c (fun l => l ++
      [{ id := r.key.2, addr := r.addrs.headD 0, stack := r.stack.val, banks := bs, thread := th.val, dst := dst, len := len, retryAt := none, resp := none,
         route := routeOf r.key.1 r.stack (r.addrs.headD 0) s }]) s
    enterBank r (if r.needed then setThread d.val c th.val .needLine s else s)

/-- A line request (R136, R161, R167, R191). A line read names its line, and a write lies within one line; cores issue none to the far
tier. -/
def lineReq (r : LineReq) (s : State) : State :=
  match reqCause (.line r) s with
  | some k => failReq (.line r) k s
  | none =>
    match rangeOf r.addr, r.who with
    | .far _, .core _ _ _ => s
    | .far _, .update _ => s
    | .far f, _ => farAccess f r s
    | _, .core d c th =>
      if r.write && decide (128 < r.addr % 128 + r.data.length) then s else watchLine r (issueCore d c th r.dst (.line r) s)
    | _, _ => if r.write && decide (128 < r.addr % 128 + r.data.length) then s else enterBank (.line r) s

/-- Whether a narrow-path request is well formed (R172): one to four sectors, 32-byte aligned. -/
def narrowOk (r : NarrowReq) : Bool := decide (1 ≤ r.addrs.length) && decide (r.addrs.length ≤ 4) && r.addrs.all fun a => a % 32 == 0

/-- A narrow-path request; it acts on stacks only. -/
def narrowReq (r : NarrowReq) (q : MemReq) (s : State) : State :=
  if !narrowOk r then s
  else
    match reqCause q s with
    | some k => failReq q k s
    | none =>
      match rangeOf (r.addrs.headD 0), r.who with
      | .stack _, .core d c th => issueCore d c th r.dst q s
      | .stack _, _ => enterBank q s
      | _, _ => s

/-- Take back the request that a core issues again after a RETRY, if it is due (R181). -/
def takeRetry (d c id : Nat) (s : State) : Option State :=
  match (outstOf d c s).find? fun o => o.id == id with
  | some o =>
    match o.retryAt with
    | some t => if t ≤ s.now then some (modOutst d c (fun l => l.filter fun x => x.id != id) s) else none
    | none => none
  | none => none

/-! ### Adders (R177) -/

/-- Whether an adder operation covers whole lines of 32 lanes or sectors of 8 at an aligned address. -/
def adderOk (addr n : Nat) : Bool := (n == 32 && addr % 128 == 0) || (n == 8 && addr % 32 == 0)

/-- Whether a write is parked anywhere in a stack. -/
def parkedWrites (i : Fin 32) (s : State) : List MemReq := (s.memStacks[i].banks.flatMap (·.parked)).filter (·.writes)

/-- Apply the parked writes to the lines of a range in their order of arrival, before an access that enters no bank queue (R174). -/
def settleRange (a n : Nat) (s : State) : State :=
  match rangeOf a with
  | .stack i =>
    let mine := (parkedWrites i s).filter fun r => r.addrs.any fun b => decide (a / 128 ≤ b / 128) && decide (b / 128 ≤ (a + n - 1) / 128)
    mine.foldl (fun s r => serve r (modStack i (fun st => { st with banks := st.banks.map fun q =>
      { q with parked := q.parked.filter fun x => x.key != r.key } }) s)) s
  | _ => s

/-- Run an adder operation on a stack, for the collective engine. -/
def onAdder (addr len : Nat) (f : Fin 32 → State → State) (s : State) : State :=
  match accessCause .hub addr len s with
  | some k => answerErr .hub 0 (logAccess addr .hub k s)
  | none =>
    match rangeOf addr with
    | .stack i => f i (settleRange addr len s)
    | _ => s

/-! ### Whole ranges: hub DMA and BAR2 -/

/-- What the error code finds on an access of a whole range, reported at its first byte: the far tier reports poison alone. -/
def rangeCheck (who : Requester) (a : Nat) (e : Ecc) (s : State) : State × Bool :=
  match rangeOf a, e with
  | .stack i, _ => sectorCheck i who a e s
  | .far f, .uncorrectable _ _ _ => (logEv 0x0011 0 a f.val 0 0 s, true)
  | _, _ => (s, false)

/-- Whether a BAR2 access meets an unmapped part of the window (R274). -/
def bar2Unmapped (cause : Nat) : Bool := cause == 1 || cause == 2 || cause == 6

/-- The address that an offset in BAR2 selects. -/
def bar2Addr (p : HPort) (off : Nat) (s : State) : Nat := (hostOf p s).base + off

/-- Whether a write lies wholly in the ring of a host-fed queue of a port (R274). -/
def inHostRing (p : HPort) (a n : Nat) (s : State) : Bool :=
  s.queues.any fun q => q.role == 2 && q.port == p && decide (ptrAddr q.ring ≤ a ∧ a + n ≤ ptrAddr q.ring + q.depth * q.esize)

/-- A BAR2 read (R274): an unmapped part completes with Unsupported Request, logged with cause 1. -/
def bar2Read (p : HPort) (off len : Nat) (e : Ecc) (s : State) : State :=
  let a := bar2Addr p off s
  let n := max 1 len
  if 2 ^ 36 < off + n then emit (.unsupported p) (logAccess a (.host p) 1 s)
  else
    match accessCause (.host p) a n s with
    | some k => emit (.unsupported p) (logAccess a (.host p) (if bar2Unmapped k then 1 else k) s)
    | none =>
      let (s, bad) := rangeCheck (.host p) a e (settleRange a n s)
      if bad then answerErr (.host p) off s
      else
        let (d, s) := dmaRead (hintOf (hostOf p s).hint.toNat) (n / 128 + 2) a n s
        emit (.readResp p off d) s

/-- A BAR2 write (R274): while a job is loaded, only into a ring of a host-fed queue of the port. -/
def bar2Write (p : HPort) (off : Nat) (data : Bytes) (e : Ecc) (s : State) : State :=
  let a := bar2Addr p off s
  let n := max 1 data.length
  if 2 ^ 36 < off + n then logAccess a (.host p) 1 s
  else
    match accessCause (.host p) a n s with
    | some k => logAccess a (.host p) (if bar2Unmapped k then 1 else k) s
    | none =>
      let loaded := match s.job.state with
        | .none => false
        | .failed => false
        | _ => true
      if loaded && !inHostRing p a n s then logAccess a (.host p) 7 s
      else
        let whole := a % 128 == 0 && n % 128 == 0
        let (s, bad) := rangeCheck (.host p) a (if whole then writeEcc e else e) (settleRange a n s)
        if bad && !whole then s else dmaWrite (hintOf (hostOf p s).hint.toNat) a data s

/-! ### Drains and refresh (R179, R182) -/

/-- Lines in the write queue of a pseudo-channel. -/
def writeCount (i : Fin 32) (pc : Nat) (s : State) : Nat := ((s.memStacks[i].writeQ.find? fun w => w.1 == pc).map (·.2)).getD 0

/-- Whether a read waits in a bank of a pseudo-channel. -/
def readWaits (i : Fin 32) (pc : Nat) (s : State) : Bool :=
  s.memStacks[i].banks.any fun q => q.bank / 64 == pc && (q.queue ++ q.parked).any fun r => r.lands

/-- The refresh interval of a stack: 3,900 cycles, and 1,950 in the extended and hot bands (R179, R184). -/
def refreshEvery (st : Stack) : Nat := if st.band = 0 then 3900 else 1950

/-- Land the answer of a core's request (R136): its line goes to the core store, its landing space and its bank entries are free. -/
def landLine (d : Fin 4) (c : Nat) (o : Outst) (a : Option Bytes) (s : State) : State :=
  let who := Requester.core d c (Fin.ofNat 8 o.thread)
  let i := Fin.ofNat 32 o.stack
  let s := modOutst d.val c (fun l => l.filter fun x => x.id != o.id) s
  let s := o.banks.foldl (fun s b => modBank i b (fun q => { q with queue := q.queue.filter fun r => r.key != (who, o.id) }) s) s
  let s := if (coreOf d.val c s).threads.getD o.thread .idle = .needLine then setThread d.val c o.thread .ready s else s
  match a with
  | some data => emit (.memDone who o.id .ok data) (storeWrite d.val c o.dst data s)
  | none => answerErr who o.id s

/-! ### Requests that lose their path or their stack (R16, R163, R186, R204) -/

/-- Fail the outstanding requests of a core whose path or stack is gone: their answer is an error, which lands as any answer does. -/
def sweepCore (k : Core) (s : State) : State :=
  k.outst.foldl (fun s o =>
    if o.retryAt.isSome || o.resp == some none || o.len == 0 then s
    else
      let who := Requester.core (Fin.ofNat 4 k.die) k.core (Fin.ofNat 8 o.thread)
      match accessCause who o.addr 1 s with
      | some c => coreAnswer k.die k.core o.id none (logAccess o.addr who c s)
      | none => s) s

/-- Fail the parked requests of a bank that have lost their path or their stack. -/
def sweepBank (i : Fin 32) (b : BankQ) (s : State) : State :=
  let bad := b.parked.filter fun r => (reqCause r s).isSome
  let s := modBank i b.bank (fun q => { q with parked := q.parked.filter fun r => !bad.contains r }) s
  bad.foldl (fun s r => if waitsLanding r then s else failReq r ((reqCause r s).getD 0) s) s

/-- The requester whose path an acknowledgement takes. -/
def WAck.who : WAck → Requester
  | .req who _ => who
  | .scatterAdd who _ _ _ => who
  | .adder _ _ => .hub

/-- Fail the writes of a stack whose acknowledgement is held back and has lost its path (R204, R217). -/
def sweepAcks (i : Fin 32) (s : State) : State :=
  let bad := s.memStacks[i].withheld.filter fun h => (accessCause h.ack.who h.addr 1 s).isSome
  let s := modStack i (fun st => { st with withheld := st.withheld.filter fun h => !bad.contains h }) s
  bad.foldl (fun s h =>
    let s := logAccess h.addr h.ack.who ((accessCause h.ack.who h.addr 1 s).getD 0) s
    match h.ack.key with
    | some k => if k.1 = .guest then emit (.guestResp k.2 none) s else writeErr i k.1 k.2 s
    | none => answerErr .hub 0 s) s

/-- Complete with an error every request that is queued, or sent and not acknowledged, and whose path or stack is gone. -/
def sweepRequests (s : State) : State :=
  let s := (List.finRange 32).foldl (fun s i => sweepAcks i (s.memStacks[i].banks.foldl (fun s b => sweepBank i b s) s)) s
  s.cores.foldl (fun s k => sweepCore k s) s

/-! ### The commands -/

/-- LINE_REQUEST (R167, R174). -/
def execLineRequest (r : LineReq) (s : State) : Host.Outcome State Fault Refusal := .next (lineReq r s)

/-- GATHER (R172). -/
def execGather (r : NarrowReq) (s : State) : Host.Outcome State Fault Refusal := .next (narrowReq r (.gather r) s)

/-- SCATTER (R172). -/
def execScatter (r : NarrowReq) (s : State) : Host.Outcome State Fault Refusal := .next (narrowReq r (.scatter r) s)

/-- SCATTER_ADD (R172, R177). -/
def execScatterAdd (r : NarrowReq) (s : State) : Host.Outcome State Fault Refusal := .next (narrowReq r (.scatterAdd r) s)

/-- LAND (R177): d = x. -/
def execLand (addr : Nat) (lanes : List (BitVec 32)) (s : State) : Host.Outcome State Fault Refusal :=
  .next (
    if !adderOk addr lanes.length then s
    else onAdder addr (4 * lanes.length) (fun i s =>
      ackWrite i addr (4 * lanes.length) (.adder addr 0) (narrowWrite i addr (lanes.flatMap fun x => leBytes 4 x.toNat) s)) s)

/-- ADD32 (R177, R178): d = sat(d + x); the acknowledgement carries how many lanes saturated, which R242 counts. An uncorrectable error
of the sum's old value completes it with an error (R187). -/
def execAdd32 (addr : Nat) (x : AddLanes) (s : State) : Host.Outcome State Fault Refusal :=
  .next (
    if !adderOk addr x.lanes.length then s
    else onAdder addr (4 * x.lanes.length) (fun i s =>
      let (s, bad) := sectorCheck i .hub addr x.ecc s
      if bad then answerErr .hub 0 s
      else
        let (s, n) := addLanes i addr (x.lanes.map (·.toInt)) s
        ackWrite i addr (4 * x.lanes.length) (.adder addr n) (countSat n s)) s)

/-- ZERO (R177): d = 0 in `count` lanes from an address, sector by sector. -/
def execZero (addr : Nat) (count : Nat) (s : State) : Host.Outcome State Fault Refusal :=
  .next (
    if addr % 32 ≠ 0 ∨ count % 8 ≠ 0 ∨ count = 0 then s
    else onAdder addr (4 * count) (fun i s =>
      let s := (List.range (count / 8)).foldl (fun s k => narrowWrite i (addr + 32 * k) (List.replicate 32 0) s) s
      ackWrite i addr (4 * count) (.adder addr 0) s) s)

/-- PARKED_REQUEST_ADMIT (R181): the oldest parked request of a bank enters its queue. -/
def execParkedRequestAdmit (i : Fin 32) (bank : Nat) (s : State) : Host.Outcome State Fault Refusal :=
  .next (
    let q := bankQ i bank s
    match q.parked with
    | [] => s
    | r :: rest =>
      if (r.banks s).all fun b => decide ((bankQ i b s).queue.length < 8) then admitReq r (modBank i bank (fun q => { q with parked := rest }) s)
      else s)

/-- The request that is issued again. -/
def reissueReq : Reissue → MemReq
  | .line r => .line r
  | .gather r => .gather r
  | .scatter r => .scatter r
  | .scatterAdd r => .scatterAdd r

/-- Issue a request again. -/
def reissue (r : Reissue) (s : State) : State :=
  match r with
  | .line q => lineReq q s
  | .gather q => narrowReq q (.gather q) s
  | .scatter q => narrowReq q (.scatter q) s
  | .scatterAdd q => narrowReq q (.scatterAdd q) s

/-- RETRY_REISSUE (R181): no sooner than 512 ns after the RETRY. -/
def execRetryReissue (r : Reissue) (s : State) : Host.Outcome State Fault Refusal :=
  .next (
    match (reissueReq r).key.1 with
    | .core d c _ =>
      match takeRetry d.val c (reissueReq r).key.2 s with
      | some s' => reissue r s'
      | none => s
    | _ => reissue r s)

/-- WRITE_DRAIN (R182): with 256 lines queued, or with no read waiting. -/
def execWriteDrain (i : Fin 32) (pc : Fin 64) (s : State) : Host.Outcome State Fault Refusal :=
  .next (
    if 256 ≤ writeCount i pc.val s ∨ !readWaits i pc.val s then
      modStack i (fun st => { st with writeQ := st.writeQ.filter fun w => w.1 != pc.val }) s
    else s)

/-- REFRESH (R179): at the interval of the stack's band. -/
def execRefresh (i : Fin 32) (pc : Fin 64) (s : State) : Host.Outcome State Fault Refusal :=
  .next (
    let st := s.memStacks[i]
    let last := ((st.refreshed.find? fun r => r.1 == pc.val).map (·.2)).getD 0
    if last + refreshEvery st ≤ s.now then
      modStack i (fun st => { st with refreshed := (pc.val, s.now) :: st.refreshed.filter fun r => r.1 != pc.val }) s
    else s)

/-- STALE_NOTICE_ACK (R175): the acknowledgements that waited for this notice alone go out. -/
def execStaleNoticeAck (i : Fin 32) (id : Nat) (s : State) : Host.Outcome State Fault Refusal :=
  .next (
    releaseAcks i (fun k => k == id)
      (modStack i (fun st => { st with watch := st.watch.map fun w => { w with acked := w.acked || (w.id == id && w.stale) } }) s))

/-- Whether the cluster polders of a compute die are stopped: by an overcurrent (R326), a power-fail warning (Table 12.9), a thermal trip
(R324), or for want of a locked PLL (R312). -/
def clusterStopped (d : Fin 4) (s : State) : Bool :=
  s.dies[d].ocStopped || s.power.pfail || s.power.thermtrip || (s.power.phase != .off && !(s.plls[(Fin.castLE (by decide) d : Fin 36)]).lock0 && !(s.plls[(Fin.castLE (by decide) d : Fin 36)]).lock1)

/-- LINE_LANDING (R136). While the polders of the die are stopped the sluice before them holds the line (R309). -/
def execLineLanding (die : Fin 4) (core : Nat) (id : Nat) (s : State) : Host.Outcome State Fault Refusal :=
  .next (
    if clusterStopped die s then s
    else match (outstOf die.val core s).find? fun o => o.id == id with
    | some o =>
      match o.resp with
      | some a => landLine die core o a s
      | none => s
    | none => s)

/-- BAR2_READ (R274). -/
def execBar2Read (p : HPort) (off : Nat) (r : Bar2Span) (s : State) : Host.Outcome State Fault Refusal :=
  .next (viaPort p (bar2Read p off r.len r.ecc) s)

/-- BAR2_WRITE (R274). -/
def execBar2Write (p : HPort) (off : Nat) (w : Bar2Data) (s : State) : Host.Outcome State Fault Refusal :=
  .next (viaPort p (bar2Write p off w.data w.ecc) s)

end Sys2Proof.Machine
end

