-- ==== Sys2Proof/Machine/TaskRows.lean ====
section
/-! DEFINITION. TASK_END: the end of a task's work, after the writes that reached the lines it touches before it (R138, R140, R174). -/

namespace Sys2Proof.Machine

/-- Apply the parked writes to what a pointer reaches (R174). -/
def settlePtr (p off n : Nat) (s : State) : State :=
  match ptr p with
  | .phys a => settleRange (a + off) n s
  | _ => s

/-- Apply the parked writes to the reduced buffer of a reduction (R174). -/
def settlePlan (r : PlanEntry) (s : State) : State := settlePtr r.dst 0 (elemSize r.kind * r.elems) s

/-- Apply the parked writes to the lines that a task touches; a SEND lands in the reduced buffer of its reduction (R174). -/
def settleTask (im : JobImage) (t : TaskRec) (s : State) : State :=
  let s := (taskSpans im t).foldl (fun s p => settleRange p.1 p.2 s) s
  if t.dtype = 5 then
    match planRec (decodeSend t.body).redid s with
    | some r => settlePlan r s
    | none => s
  else s

/-- TASK_END (R138, R140). -/
def execTaskEnd (task : Nat) (s : State) : Host.Outcome State Fault Refusal :=
  .next (onRunning task (fun im t r s => endTask im t r (settleTask im t s)) s)

end Sys2Proof.Machine
end

