-- ==== Sys2Proof/Machine/JobRows.lean ====
section
/-! DEFINITION. The job's fabric messages as they are taken in (R54, R133, R154, R156, R236 to R247): each row takes the first message
that waits in its class and sub-channel, and has no effect when that is of another type. -/

namespace Sys2Proof.Machine

/-! ### The inbox of a port -/

/-- Whether a message waits in a class and sub-channel. -/
def inClass (cls : Nat) (sub : Bool) (m : Msg) : Bool := m.cls == cls && m.sub == sub

/-- The first message of a class and sub-channel of a port, if it has a TYPE. A message of a lower class that waits there is taken
first (R158). -/
def frontMsg (p : FPort) (cls type : Nat) (sub : Bool) (s : State) : Option Msg :=
  let box := (fabOf p s).inbox
  if box.any fun m => decide (m.cls < cls) then none
  else
    match box.find? (inClass cls sub) with
    | some m => if m.type = type then some m else none
    | none => none

/-- Take the first message of a class and sub-channel from a port. -/
def dropFront (p : FPort) (cls : Nat) (sub : Bool) (s : State) : State :=
  modFab p (fun f => { f with inbox := f.inbox.eraseP (inClass cls sub) }) s

/-- Act on the first message of a class and sub-channel, if it has a TYPE. -/
def onMsg (p : FPort) (cls type : Nat) (sub : Bool) (f : Msg → State → State) (s : State) : State :=
  match frontMsg p cls type sub s with
  | some m => f m (dropFront p cls sub s)
  | none => s

/-- Whether the job can take part in collectives: running, and its deadlines not void. -/
def collecting (s : State) : Bool := running s && !s.exec.voided

/-! ### Collective data -/

/-- Whether a message of a reduction is from before a breach of it: not marked RESEND while the reduction is being replayed. -/
def outdated (r : PlanEntry) (m : Msg) (s : State) : Bool := (redOf r.redid m.step s).again && !m.resend

/-- Act on a reduction's message; writes to its reduced buffer that arrived before it come first (R174). -/
def onRed (f : PlanEntry → Msg → State → State) (m : Msg) (s : State) : State :=
  match planRec m.ref s with
  | some r => if collecting s && !outdated r m s then f r m (settlePlan r s) else s
  | none => s

/-- A SCALE message: its digest is checked as every receiver does (R239), and a candidate is taken in (R241). -/
def takeScale (m : Msg) (s : State) : State :=
  match (plan s).find? fun r => r.kind == 0 && r.cslot != 0 && r.cslot == m.ref with
  | none => s
  | some r =>
    if !collecting s then s
    else if scaleDigest r m.step (toSigned 16 (field m.payload 0 2)) s ≠ m.digest then
      redMismatch r m.step ((levelIdx (levelsOf r s) m.axis).getD (levelsOf r s).length) m.src s
    else recvScale r m s

/-- An EXCH message: its record is kept, and running tasks of the peer set go on with their phases. -/
def takeExch (m : Msg) (s : State) : State :=
  match s.job.image with
  | none => s
  | some im =>
    if !collecting s then s
    else
      let s := storeExch { pset := m.ref, step := m.step, src := m.src, offset := m.offset, payload := m.payload } s
      (im.tasks.filter fun t => taskPset t == m.ref).foldl
        (fun s t => match runningRun t.taskid s with
          | some r => if r.step = m.step then startExchanges im t r.step s else s
          | none => s) s

/-- Send this package's verdict record of a step again. -/
def resendVerdict (im : JobImage) (step : Nat) (s : State) : State :=
  if (verdictAt step s).recs.any fun r => r.1 == logId s then bcastMsg (verdictMsg step (ownVerdict im step s) s) s else s

/-- A VERDICT message: a record whose digest matches is taken in and sent on; a mismatch is announced as a breach that names neither a
task nor a reduction, upon which every package sends its record again. -/
def takeVerdictMsg (p : FPort) (m : Msg) (s : State) : State :=
  match s.job.image with
  | none => s
  | some im =>
    if !collecting s then s
    else
      let loss := toSigned 64 (field m.payload 0 8)
      let nl := field m.payload 8 8
      let nf := field m.payload 16 8
      if digest (seedOf s) m.step 0 0 [loss, (nl : Int), (nf : Int)] ≠ m.digest then
        resendVerdict im m.step (sendNotice true m.step 0 2000 4 (logId s) 0 0 0 s)
      else takeVerdict im m.step m.src loss nl nf (bcastForward p m s)

/-! ### Queues (R156) -/

/-- A QDATA message: bytes of the next entry of a queue; with its last byte PI advances. Bytes whose ring cannot be reached are logged and
lost. -/
def takeQdata (m : Msg) (s : State) : State :=
  match queueOf m.ref s with
  | none => s
  | some q =>
    if q.role ≠ 1 ∨ q.remote ≠ m.src ∨ q.esize ≤ m.offset ∨ q.depth ≤ queueFill q then s
    else
      let bs := m.payload.take (q.esize - m.offset)
      match ringCause q q.pi q.esize s with
      | some (a, k) => logAccess a .hub k s
      | none =>
        let s := ptrWrite (ringPlace q s) q.ring (q.pi % q.depth * q.esize + m.offset) bs (settlePtr q.ring (q.pi % q.depth * q.esize) q.esize s)
        if q.esize ≤ m.offset + bs.length then modQueue q.queue q.port (fun e => { e with pi := bump e e.pi }) s else s

/-- A QCREDIT message: credits return to the producer, and CI follows them. -/
def takeQcredit (m : Msg) (s : State) : State :=
  match queueOf m.ref s with
  | none => s
  | some q =>
    if q.role ≠ 1 ∨ q.remote ≠ m.src then s
    else
      let n := min (field m.payload 0 4) (queueFill q)
      modQueue q.queue q.port (fun e => { e with credits := e.credits + n, ci := iter (bump e) n e.ci }) s

/-! ### Notices (R142, R154, R244, R245) -/

/-- Whether a notice has been seen: its sender, step and number. -/
def seenNotice (m : Msg) (s : State) : Bool :=
  s.exec.notices.any fun n => n.src == m.src && n.step == m.step && n.nseq == field m.payload 28 2

/-- What a breach notice of another package makes run again here: the reduction it names, or those that the task it names feeds, and
what they reach (R142). TASKID is unique in one image only, and the spec does not say how a peer's task is matched: the model looks the
TASKID up among the tasks of this package's own image (DESIGN CHOICE, log entry 68). -/
def remoteBreach (im : JobImage) (step task red : Nat) (s : State) : State :=
  if task = 0 ∧ red = 0 then resendVerdict im step s
  else if red ≠ 0 then applyBreach step [] [red] s
  else applyBreach step [] (reach im [task] []).2 s

/-- Abandon the step job-wide (code 2 of Table 6.12). -/
def abandonStep (s : State) : State := abandonTasks { s with job := { s.job with abandoned := true } }

/-- The restart of an abandoned step (code 2 of Table 6.12): its tasks may start again. -/
def resumeStep (s : State) : State :=
  { s with job := { s.job with abandoned := false }, exec := { s.exec with voided := false } }

/-- A notice from the fabric: sent on, logged and taken in once. -/
def recvNotice (breach : Bool) (p : FPort) (m : Msg) (s : State) : State :=
  let b := m.payload
  let code := field b 16 1
  if seenNotice m s then s
  else
    let s := raiseBoth 3 (bcastForward p m s)
    let s := logNotice breach m.step (field b 0 8) (field b 8 8) code (field b 18 2) (field b 20 4) (field b 24 4) s
    let s := takeNotice { breach := breach, step := m.step, src := m.src, nseq := field b 28 2, da := field b 0 8, amount := field b 8 8,
                          code := code, task := field b 20 4 } s
    let s := match s.job.image with
      | some im => if breach && collecting s then remoteBreach im m.step (field b 20 4) (field b 24 4) s else s
      | none => s
    if !breach && code == 2 && running s then (if field b 8 8 = 0 then abandonStep s else resumeStep s) else s

/-! ### The commands -/

/-- CONTRIB (R236, R239). -/
def execContrib (p : FPort) (sub : Bool) (s : State) : Host.Outcome State Fault Refusal :=
  .next (onMsg p 3 0x01 sub (onRed recvContrib) s)

/-- RESULT (R236, R239). -/
def execResult (p : FPort) (sub : Bool) (s : State) : Host.Outcome State Fault Refusal :=
  .next (onMsg p 3 0x02 sub (onRed recvResult) s)

/-- EXCH (R54, R106, R129). -/
def execExch (p : FPort) (sub : Bool) (s : State) : Host.Outcome State Fault Refusal := .next (onMsg p 3 0x03 sub takeExch s)

/-- SCALE (R241). -/
def execScale (p : FPort) (sub : Bool) (s : State) : Host.Outcome State Fault Refusal := .next (onMsg p 3 0x04 sub takeScale s)

/-- VERDICT (R133). -/
def execVerdict (p : FPort) (sub : Bool) (s : State) : Host.Outcome State Fault Refusal :=
  .next (onMsg p 3 0x05 sub (takeVerdictMsg p) s)

/-- QDATA (R156). -/
def execQdata (p : FPort) (sub : Bool) (s : State) : Host.Outcome State Fault Refusal := .next (onMsg p 4 0x06 sub takeQdata s)

/-- QCREDIT (R156). -/
def execQcredit (p : FPort) (sub : Bool) (s : State) : Host.Outcome State Fault Refusal := .next (onMsg p 2 0x07 sub takeQcredit s)

/-- BREACH (R142, R244, R245). -/
def execBreach (p : FPort) (sub : Bool) (s : State) : Host.Outcome State Fault Refusal :=
  .next (onMsg p 2 0x08 sub (recvNotice true p) s)

/-- LATE (R154, R244, R245). -/
def execLate (p : FPort) (sub : Bool) (s : State) : Host.Outcome State Fault Refusal :=
  .next (onMsg p 2 0x09 sub (recvNotice false p) s)

end Sys2Proof.Machine
end

