-- ==== Sys2Proof/Machine/Links.lean ====
section
/-! DEFINITION. Die-to-die links: flits, retries and mark-outs, training, drops, wire tests (R194 to R209). -/

namespace Sys2Proof.Machine

/-! ### Ends of a link (Table 11.9, R203) -/

/-- Whether both ends of a link are out of reset; the hub die is while the polders run, and the guest link trains only with a guest
die (R211). -/
def endsReady (l : Fin 41) (s : State) : Bool :=
  let hub := match s.power.phase with
    | .off => false
    | .waitOsc => false
    | _ => true
  if l.val < 4 then !s.dies[Fin.ofNat 4 l.val].inReset && !s.dies[Fin.ofNat 4 (l.val + 1)].inReset
  else if l.val < 8 then hub && !s.dies[Fin.ofNat 4 (l.val - 4)].inReset
  else if l.val < 40 then
    !s.dies[Fin.ofNat 4 ((l.val - 8) / 8)].inReset && !s.memStacks[Fin.ofNat 32 (l.val - 8)].inReset
  else hub && s.power.gsite && !s.levee.guestReset

/-- Whether the loaded image uses a link (DIELINKS of Table 6.22). -/
def imageUsesLink (l : Fin 41) (s : State) : Bool := (s.job.image.map fun im => bit im.mapping.dielinks l.val).getD false

/-- Event numbers of 0x0030 in the order of Table 10.13: 0 dropped, 1 up, 2 below rating, 3 bundle marked out. -/
def logLink (l : Fin 41) (ev : Nat) (mask : BitVec 128) (s : State) : State :=
  logEv 0x0030 0 l.val ev (mask.toNat % 2 ^ 64) (mask.toNat / 2 ^ 64) s

/-- Log an event of a link for direction 0, and for direction 1 where its mask differs. -/
def logBoth (l : Fin 41) (ev : Nat) (s : State) : State :=
  let m := s.links[l].masks
  let s := logLink l ev m.1 s
  if m.2 = m.1 then s else logLink l ev m.2 s

/-! ### Bundles -/

/-- A bundle that nothing has happened on. -/
def Bundle.fresh (rev : Bool) (b : Nat) : Bundle :=
  { rev := rev, bundle := b, failed := [], tx := [], seen := [], txSeq := 0, rxSeq := 0, errTimes := [], fails := 0, overs := false, testing := false }

/-- Whether a record is that of a bundle in a direction. -/
def isBundle (rev : Bool) (b : Nat) (x : Bundle) : Bool := x.rev == rev && x.bundle == b

/-- A direction of a bundle. -/
def bundleOf (k : DieLink) (rev : Bool) (b : Nat) : Bundle := (k.bundles.find? (isBundle rev b)).getD (Bundle.fresh rev b)

/-- Replace a direction of a bundle. -/
def putBundle (x : Bundle) : List Bundle → List Bundle
  | [] => [x]
  | y :: r => if isBundle x.rev x.bundle y then x :: r else y :: putBundle x r

/-- Change a direction of a bundle. -/
def modBundle (l : Fin 41) (rev : Bool) (b : Nat) (f : Bundle → Bundle) (s : State) : State :=
  modLink l (fun k => { k with bundles := putBundle (f (bundleOf k rev b)) k.bundles }) s

/-- The mask of a direction. -/
def maskOfDir (k : DieLink) (rev : Bool) : BitVec 128 := if rev then k.masks.2 else k.masks.1

/-- Set the mask of a direction. -/
def setMask (rev : Bool) (m : BitVec 128) (k : DieLink) : DieLink := { k with masks := if rev then (k.masks.1, m) else (m, k.masks.2) }

/-- A mask without a bundle. -/
def dropBit (m : BitVec 128) (b : Nat) : BitVec 128 := m &&& ~~~(BitVec.ofNat 128 (2 ^ b))

/-- SUB of a bundle's ledger records (Table 11.9). -/
def bundleSub (rev : Bool) (b : Nat) : Nat := b + 256 * b2n rev

/-- The lowest-indexed bundle of a mask. -/
def lowestBundle (m : BitVec 128) : Option Nat := (List.range 128).find? fun i => m.getLsbD i

/-! ### Taking a link down (R204, R205) -/

/-- Responses that the guest has had 100 µs to take are taken: those it has not are dropped by GUEST_RESPONSE_TIMEOUT (log entry 28). -/
def takenResps (s : State) : State :=
  { s with levee := { s.levee with resps := s.levee.resps.filter fun x => decide (s.now ≤ x.since + 100000) } }

/-- The guest's writes to a stack whose acknowledgement is held back. -/
def guestAcks (st : Stack) : List Nat :=
  st.withheld.filterMap fun h => match h.ack.key with
    | some k => if k.1 = .guest then some k.2 else none
    | none => none

/-- Forget the guest's writes that wait for their acknowledgement. -/
def dropGuestAcks (s : State) : State :=
  (List.finRange 32).foldl (fun s i =>
    modStack i (fun st => { st with withheld := st.withheld.filter fun h => (h.ack.key.map (·.1)) != some .guest }) s) s

/-- Complete every pending guest transaction with an error (R204, R217): what the levee holds, what the guest has not taken, and writes
that wait for their acknowledgement. -/
def failGuest (s : State) : State :=
  let s := takenResps s
  let ids := s.levee.held.map (fun h => h.2.id) ++ s.levee.resps.map (·.id) ++ (List.finRange 32).flatMap fun i => guestAcks s.memStacks[i]
  let s := dropGuestAcks s
  emitAll (ids.map fun i => .guestResp i none) { s with levee := { s.levee with held := [], resps := [] } }

/-- Take a link down: it carries no flit, what was queued or sent on it and not acknowledged completes with an error, and the package
is a failed package if the running image uses it. A link that is down stays as it is. -/
def takeDown (l : Fin 41) (s : State) : State :=
  if !s.links[l].up then s
  else
    let s := modLink l (fun _ => DieLink.reset) s
    let s := logLink l 0 0 s
    let seq := s.seq
    let s := sweepRequests s
    let s := if l = 40 then failGuest s else s
    if running s && imageUsesLink l s && !(l = 40 && s.levee.quarantine) then failPackage 3 0x0A seq s else s

/-- A die that enters reset sends LINK_DROP on its links that are up (R204). -/
def dropLinks (ls : List (Fin 41)) (s : State) : State :=
  ls.foldl (fun s l =>
    if s.links[l].up ∧ s.links[l].dropAt.isNone then emit (.sb1 l.val .linkDrop) (modLink l (fun k => { k with dropAt := some s.now }) s)
    else s) s

/-- The links of a compute die. -/
def dieLinks (d : Fin 4) : List (Fin 41) :=
  [ringLink (d.val + 3), ringLink d.val, hubLink d.val] ++ (List.range 8).map fun k => stackLink (8 * d.val + k)

/-! ### Mark-outs (R207 to R209) -/

/-- Clear a bundle from the agreed mask of a direction on both ends, by an exchange on SB1, and record it (R207, R208): the SRCE is
degradation in service. A direction with no bundle left is down. -/
def markOut (l : Fin 41) (rev : Bool) (b : Nat) (s : State) : State :=
  let s := emit (.sb1 l.val (.maskOut rev b)) (modLink l (fun k => setMask rev (dropBit (maskOfDir k rev) b) k) s)
  let m := maskOfDir s.links[l] rev
  let s := ledgerReplace 0x10 5 l.val (bundleSub rev b) (leBytes 4 1) (logLink l 3 m s)
  if m = 0 then takeDown l s
  else if width m < linkRated l.val then logLink l 2 m (modLink l (fun k => { k with below := true }) s)
  else s

/-- The code 3 notice of a step boundary for a link that a mark-out took below its rated width (R209). -/
def belowNotice (l : Fin 41) (s : State) : State :=
  if !s.links[l].below then s
  else
    let s := modLink l (fun k => { k with below := false }) s
    if running s then plainNotice 3 s else s

/-! ### Flits (R195 to R197, R206, R208) -/

/-- What a wire of a bundle is for (Table 8.1). -/
inductive WireRole where
  | data | spare | clock | crc | control
  deriving DecidableEq, Repr

/-- The role of a physical wire. -/
def wireRole (w : Nat) : WireRole := if w < 64 then .data else if w < 68 then .spare else if w < 70 then .clock else if w = 70 then .crc else .control

/-- Whether a wire can carry data: the data wires and the spares. -/
def carriesData (w : Nat) : Bool := wireRole w == .data || wireRole w == .spare

/-- The physical data wires that are not on a failed-wire list, ascending: the j-th carries logical lane j (R199). -/
def goodWires (failed : List Nat) : List Nat := (List.range 72).filter fun w => carriesData w && !failed.contains w

/-- The physical wire that carries a logical lane (R199). -/
def laneWire (failed : List Nat) (j : Nat) : Option Nat := (goodWires failed)[j]?

/-- The bits that a logical lane carries in the eight unit intervals of a flit (R195): in interval u, bit i of byte 8u + k on lane 8k + i
(log entry 69). -/
def laneByte (data : Bytes) (j : Nat) : Byte :=
  BitVec.ofNat 8 (((List.range 8).map fun u => b2n ((data.getD (8 * u + j / 8) 0).getLsbD (j % 8)) * 2 ^ u).sum)

/-- What the data wires and spares of a bundle carry during a flit: the lanes steered round the failed wires (R199); none where a spare
carries no lane, which has the margin stream, or where a wire has failed. -/
def wiresOf (failed : List Nat) (data : Bytes) : List (Option Byte) :=
  (List.range 68).map fun w => ((goodWires failed).idxOf? w).bind fun j => if j < 64 then some (laneByte data j) else none

/-- Send a flit of a bundle. -/
def flitMsg (l : Fin 41) (x : Bundle) (seq : Nat) (data : Bytes) : Out := .flitOut l.val x.rev x.bundle seq data (wiresOf x.failed data)

/-- Keep a flit that is sent in the replay buffer, the last 64 of a bundle (R197); one that is sent again is there already. -/
def holdFlit (seq : BitVec 6) (data : Bytes) (x : Bundle) : Bundle :=
  if seq ≠ x.txSeq ∧ x.tx.any (fun e => e.1 == seq.toNat) then x
  else { x with tx := (x.tx ++ [(seq.toNat, data)]).drop (x.tx.length - 63), txSeq := seq + 1 }

/-- The flits of a replay buffer from a number on, in their original order (R197). -/
def laterFlits (x : Bundle) (from_ : Nat) : List (Nat × Bytes) := x.tx.dropWhile fun e => e.1 != from_

/-- Resend the flits of a replay buffer from a number on. -/
def resendFlits (l : Fin 41) (rev : Bool) (b from_ : Nat) (s : State) : State :=
  let x := bundleOf s.links[l] rev b
  emitAll ((laterFlits x from_).map fun e => flitMsg l x e.1 e.2) s

/-- Send flits on another bundle, under that bundle's own numbers; one that had been delivered is not delivered again. -/
def moveFlits (l : Fin 41) (rev : Bool) (b : Nat) (fs : List (Bytes × Bool)) (s : State) : State :=
  fs.foldl (fun s d =>
    let x := bundleOf s.links[l] rev b
    let q := x.txSeq
    emit (flitMsg l x q.toNat d.1)
      (modBundle l rev b (fun x => { holdFlit q d.1 x with seen := if d.2 then q.toNat :: x.seen else x.seen.filter (· != q.toNat) }) s)) s

/-- A hard failure (R208): the bundle is marked out, and the contents of its replay buffer go out, in order, on the lowest remaining
bundle. What had been delivered comes before the number that the receiver waits for. -/
def hardFailure (l : Fin 41) (rev : Bool) (b : Nat) (s : State) : State :=
  let x := bundleOf s.links[l] rev b
  let late := laterFlits x x.rxSeq.toNat
  let fs := x.tx.zipIdx.map fun e => (e.1.2, decide (e.2 + late.length < x.tx.length))
  let s := markOut l rev b s
  match lowestBundle (maskOfDir s.links[l] rev) with
  | some c => moveFlits l rev c fs s
  | none => s

/-- Instants of CRC mismatches, kept for 1 ms (R206). -/
def lastMilli (now : Nat) (l : List Nat) : List Nat := l.filter fun t => decide (now < t + 1000000)

/-- A flit whose CRC does not match (R197, R206): discarded, counted, and answered by a NAK; the fourth failure of one flit is a hard
failure. Flits after a bad one are discarded without another NAK. -/
def badFlit (l : Fin 41) (rev : Bool) (b : Nat) (seq : BitVec 6) (s : State) : State :=
  let x := bundleOf s.links[l] rev b
  let mine := seq == x.rxSeq
  let s := modBundle l rev b (fun x =>
    { x with errTimes := s.now :: lastMilli s.now x.errTimes, fails := if mine then x.fails + 1 else x.fails }) s
  if !mine then s
  else if 4 ≤ x.fails + 1 then hardFailure l rev b s
  else emit (.sb1 l.val (.nak rev b seq.toNat)) s

/-- A flit whose CRC matches: delivered and acknowledged when it is the next, else discarded (R195, R197). -/
def goodFlit (l : Fin 41) (rev : Bool) (b : Nat) (seq : BitVec 6) (data : Bytes) (s : State) : State :=
  let x := bundleOf s.links[l] rev b
  if seq = x.rxSeq then
    let s := modBundle l rev b (fun x => { x with rxSeq := x.rxSeq + 1, fails := 0, seen := x.seen.filter (· != seq.toNat) }) s
    let s := if x.seen.contains seq.toNat then s else modLink l (fun k => { k with rx := k.rx ++ [(rev, b, data)] }) s
    emit (.sb1 l.val (.ack rev b seq.toNat)) s
  else s

/-- Whether a direction of a bundle carries flits. -/
def carries (l : Fin 41) (rev : Bool) (b : Nat) (s : State) : Bool :=
  s.links[l].up && (maskOfDir s.links[l] rev).getLsbD b && !(bundleOf s.links[l] rev b).testing

/-! ### Training (R199 to R203) -/

/-- The failed wires of a direction of a bundle: those of the ledger stay, and the test adds what it finds (R200). -/
def wiresFor (l : Fin 41) (rev : Bool) (b : Nat) (ws : List WireList) (s : State) : List Nat :=
  let old := ((ledgerFind s.flash 0x11 l.val (bundleSub rev b)).map fun r => (r.value.take 4).map (·.toNat)).getD []
  let new := (ws.filter fun w => w.rev == rev && w.bundle.val == b).flatMap (·.wires)
  ((old.filter (· != 0xFF)) ++ new).eraseDups

/-- Whether the spares carry a list of failed wires: at most four, all data wires (R199). -/
def sparesDo (ws : List Nat) : Bool := decide (ws.length ≤ 4) && ws.all carriesData

/-- The bytes of a failed-wire list (Table 11.9). -/
def wireBytes (ws : List Nat) : Bytes := (List.range 4).map fun i => BitVec.ofNat 8 (ws.getD i 0xFF)

/-- The agreed mask of a direction (R202): the AND of both proposals, without the bundles that the ledger marks out, that the spares
cannot carry, or that fail the flit test. -/
def agreedMask (l : Fin 41) (rev : Bool) (o : TrainObs) (s : State) : BitVec 128 :=
  let pick := fun (p : BitVec 128 × BitVec 128) => if rev then p.2 else p.1
  let ok := fun (b : Nat) =>
    decide (b < linkBundles l.val) && (pick o.tx).getLsbD b && (pick o.rx).getLsbD b && !(pick o.flitFail).getLsbD b &&
      !(pick o.flitFail2).getLsbD b && ((ledgerFind s.flash 0x10 l.val (bundleSub rev b)).map fun r => leVal r.value) != some 1 &&
      sparesDo (wiresFor l rev b o.wires s)
  BitVec.ofNat 128 (((List.range 128).filter ok).map fun i => 2 ^ i).sum

/-- Write the masks and lists of a training to the ledger (R203). -/
def recordTraining (l : Fin 41) (rev : Bool) (m : BitVec 128) (ws : List WireList) (s : State) : State :=
  (List.range (linkBundles l.val)).foldl (fun s b =>
    let w := wiresFor l rev b ws s
    let s := if w.isEmpty || !sparesDo w then s else ledgerReplace 0x11 1 l.val (bundleSub rev b) (wireBytes w) s
    if m.getLsbD b then s else ledgerReplace 0x10 1 l.val (bundleSub rev b) (leBytes 4 1) s) s

/-- The bundle records of a direction after training: those with failed wires. -/
def trainedBundles (l : Fin 41) (rev : Bool) (m : BitVec 128) (ws : List WireList) (s : State) : List Bundle :=
  ((List.range 128).filter fun b => m.getLsbD b && !(wiresFor l rev b ws s).isEmpty).map fun b =>
    { Bundle.fresh rev b with failed := wiresFor l rev b ws s }

/-- The credits that a buffer reserves for a class, in 64-byte units (Table 6.15). -/
def reservedCredits (cls : Nat) : Nat := if cls = 3 then 16 else if cls = 5 then 2 else 8

/-- Train a link that is down, both ends out of reset (R200, R201): PRESENT, and where it comes up the credits of C0 to C5 and LINK_UP. -/
def train (l : Fin 41) (o : TrainObs) (s : State) : State :=
  let s := emit (.sb1 l.val .present) s
  if !o.present then logLink l 0 0 s
  else
    let m0 := agreedMask l false o s
    let m1 := agreedMask l true o s
    let bs := trainedBundles l false m0 o.wires s ++ trainedBundles l true m1 o.wires s
    let up := m0 != 0 && m1 != 0
    let s := modLink l (fun _ => { DieLink.reset with up := up, masks := (m0, m1), bundles := bs }) s
    let s := recordTraining l true m1 o.wires (recordTraining l false m0 o.wires s)
    if !up then logBoth l 0 s
    else
      let s := emitAll ((List.range 6).map (fun c => Out.sb1 l.val (.credit c (reservedCredits c))) ++ [.sb1 l.val .linkUp]) s
      let s := logBoth l 1 s
      if linkBelow l s then logBoth l 2 s else s

/-! ### Wire tests (R206, R207) -/

/-- The outcome of a wire test: an extended list, or a mark-out with a code 3 notice when it takes the direction below rating. -/
def wireTest (l : Fin 41) (rev : Bool) (b : Nat) (found : List Nat) (s : State) : State :=
  let x := bundleOf s.links[l] rev b
  let ws := (x.failed ++ found).eraseDups
  let s := modBundle l rev b (fun x => { x with testing := false, errTimes := [] }) s
  if sparesDo ws then
    let s := modBundle l rev b (fun x => { x with failed := ws }) s
    if ws = x.failed then s else ledgerReplace 0x11 5 l.val (bundleSub rev b) (wireBytes ws) s
  else belowNotice l (markOut l rev b s)

/-- At a step boundary both ends stop sending on the bundles over their threshold, to test them (R207). -/
def startTests (s : State) : State :=
  (List.finRange 41).foldl (fun s l =>
    if s.links[l].bundles.any (·.overs) then
      modLink l (fun k => { k with bundles := k.bundles.map fun x => if x.overs then { x with overs := false, testing := true } else x }) s
    else s) s

/-! ### The commands -/

/-- FLIT (R197): `sent` is the flit as the transmitter sent it, `rx` as it arrived. -/
def execFlit (l : Fin 41) (rev : Bool) (bundle : Fin 128) (seq : BitVec 6) (rx : FlitIn) (sent : Bytes) (s : State) :
    Host.Outcome State Fault Refusal :=
  .next (
    if !carries l rev bundle.val s then s
    else
      let s := modBundle l rev bundle.val (holdFlit seq (slice sent 0 64)) s
      if crc8 (slice rx.data 0 64) = rx.crc.toNat then goodFlit l rev bundle.val seq (slice rx.data 0 64) s
      else badFlit l rev bundle.val seq s)

/-- NAK (R197). -/
def execNak (l : Fin 41) (rev : Bool) (bundle : Fin 128) (seq : BitVec 6) (s : State) : Host.Outcome State Fault Refusal :=
  .next (if carries l rev bundle.val s then resendFlits l rev bundle.val seq.toNat s else s)

/-- LINK_TRAINING (R200). -/
def execLinkTraining (l : Fin 41) (obs : TrainObs) (s : State) : Host.Outcome State Fault Refusal :=
  .next (if endsReady l s && !s.links[l].up then train l obs s else s)

/-- LINK_DROP (R204). -/
def execLinkDrop (l : Fin 41) (s : State) : Host.Outcome State Fault Refusal :=
  .next (if s.links[l].up then takeDown l (emit (.sb1 l.val .dropAck) s) else s)

/-- DROP_ACK (R204). -/
def execDropAck (l : Fin 41) (s : State) : Host.Outcome State Fault Refusal :=
  .next (if s.links[l].dropAt.isSome then takeDown l s else s)

/-- DROP_ACK_TIMEOUT (R204): 1 µs without an answer. -/
def execDropAckTimeout (l : Fin 41) (s : State) : Host.Outcome State Fault Refusal :=
  .next (
    match s.links[l].dropAt with
    | some t => if t + 1000 ≤ s.now then takeDown l s else s
    | none => s)

/-- FORWARDED_CLOCK_LOSS (R204): the forwarded clock of every bundle lost for 100 ns. -/
def execForwardedClockLoss (l : Fin 41) (held : Nat) (s : State) : Host.Outcome State Fault Refusal :=
  .next (if 100 ≤ held then takeDown l s else s)

/-- BUNDLE_THRESHOLD (R206, R207). -/
def execBundleThreshold (l : Fin 41) (rev : Bool) (bundle : Fin 128) (s : State) : Host.Outcome State Fault Refusal :=
  .next (
    if carries l rev bundle.val s && decide (32 < (lastMilli s.now (bundleOf s.links[l] rev bundle.val).errTimes).length) then
      modBundle l rev bundle.val (fun x => { x with overs := true }) s
    else s)

/-- BUNDLE_WIRE_TEST (R207). -/
def execBundleWireTest (l : Fin 41) (rev : Bool) (bundle : Fin 128) (failed : List Nat) (s : State) :
    Host.Outcome State Fault Refusal :=
  .next (if (bundleOf s.links[l] rev bundle.val).testing && s.links[l].up then wireTest l rev bundle.val failed s else s)

end Sys2Proof.Machine
end

