-- ==== Sys2Proof/Machine/LeveeRows.lean ====
section
/-! DEFINITION. The levee: windows, admission, token buckets, the response buffer, violations, quarantine (R211 to R217). -/

namespace Sys2Proof.Machine

/-! ### Window records (R212) -/

/-- Change the levee. -/
def modLevee (f : Levee → Levee) (s : State) : State := { s with levee := f s.levee }

/-- Whether two ranges overlap. -/
def overlap (a n b m : Nat) : Bool := decide (a < b + m) && decide (b < a + n)

/-- Whether the fields of an open window lie in their ranges (Table 8.7). -/
def windowFields (w : Window) : Bool :=
  if w.queue then
    w.base == 0 && w.size == 0 && decide (16 ≤ w.qfirst) && decide (1 ≤ w.qcount) && decide (w.qfirst + w.qcount ≤ 65536)
  else w.base % 65536 == 0 && w.size % 65536 == 0 && w.size != 0 && w.qfirst == 0 && w.qcount == 0

/-- Whether a memory window lies wholly in one stack range or in one mapped far-tier window (R212). -/
def windowPlace (w : Window) (s : State) : Bool :=
  match rangeOf w.base with
  | .stack i => decide (w.base + w.size ≤ (i.val + 1) * 2 ^ 37)
  | .far f => s.far[f].st != 0 && decide (w.base + w.size ≤ farBase f + s.far[f].cap)
  | _ => false

/-- Whether an open window clashes with another open one of its kind (R212). -/
def windowClash (k : Nat) (w : Window) (s : State) : Bool :=
  (List.finRange 8).any fun i =>
    let o := s.levee.windows[i]
    i.val != k && o.isOpen && o.queue == w.queue &&
      (if w.queue then overlap w.qfirst w.qcount o.qfirst o.qcount else overlap w.base w.size o.base o.size)

/-- Whether a record opens a window in a case that R212 or Table 8.7 does not allow. -/
def windowBad (k : Nat) (w : Window) (s : State) : Bool :=
  w.isOpen && (!windowFields w || (w.queue && (w.read || w.write || w.narrow)) || (!w.queue && !windowPlace w s) || windowClash k w s)

/-- Whether a record is one that a loaded job allows: it closes a window, or lowers the rate of an open one and changes no other
field (R212). -/
def windowLoadedOk (k : Nat) (w : Window) (s : State) : Bool :=
  !w.isOpen ||
    (let o := s.levee.windows[Fin.ofNat 8 k]
     o.isOpen && decide (w.rate < o.rate) && { w with rate := o.rate } == o)

/-- What a bucket holds now, in thousandths of a byte (R214): it fills at RATE and holds at most 4 KiB. -/
def bucketNow (i : Fin 8) (s : State) : Nat :=
  min 4096000 (s.levee.buckets[i].level + s.levee.windows[i].rate * (s.now - s.levee.buckets[i].asOf))

/-- Store a window: a closed one with its fields zero; an opened one starts with an empty bucket (log entry 26), and one that stays open
keeps what its bucket has filled at the rate until now (R214). -/
def setWindow (k : Nat) (w : Window) (s : State) : State :=
  let i := Fin.ofNat 8 k
  let level := if w.isOpen && s.levee.windows[i].isOpen then bucketNow i s else 0
  modLevee (fun l =>
    { l with windows := l.windows.set i (if w.isOpen then w else Window.closed), buckets := l.buckets.set i { level := level, asOf := s.now } }) s

/-- The window changes that take effect at a step boundary (R212). -/
def applyChanges (s : State) : State :=
  let cs := s.levee.changes
  cs.foldl (fun s c => setWindow c.1 c.2 s) (modLevee (fun l => { l with changes := [] }) s)

/-! ### Violations and quarantine (R216, R217) -/

/-- Change a violation counter. -/
def modViol (k : Fin 9) (f : Viol → Viol) (s : State) : State :=
  modLevee (fun l => { l with viols := l.viols.set k (f l.viols[k]) }) s

/-- Quarantine (R217). -/
def quarantine (n : Nat) (s : State) : State :=
  let s := modLevee (fun l =>
    { l with windows := Vector.replicate 8 Window.closed, changes := [], quarantine := true, guestReset := true }) s
  logEv 0x0041 (unitWord 6 0 0) n 0 0 0 (failGuest (dropLinks [40] s))

/-- Count a violation with the address it offended at; more than 64 within 1 s put the guest in quarantine (R216). Counter 8 is that
of the requests that match no window. -/
def violation (k : Fin 9) (addr : Nat) (s : State) : State :=
  let s := modViol k (fun v =>
    { v with count := sat64 v.count 1, first := if v.count = v.logged then addr else v.first }) s
  let ts := s.now :: lastSecond s.now s.levee.times
  let s := modLevee (fun l => { l with times := ts }) s
  if 64 < ts.length ∧ !s.levee.quarantine then quarantine ts.length s else s

/-! ### Admission (R211, R214, R215) -/

/-- What the levee finds of a request. -/
inductive Verdict8 where
  | drop
  | error (k : Fin 9)
  | ok (w : Fin 8)
  deriving DecidableEq, Repr

/-- The sectors or the line that a request touches: (address, length) pairs. -/
def guestParts (r : GuestReq) : List (Nat × Nat) :=
  match r.op with
  | .lineRead => [(r.addr, 128)]
  | .lineWrite => [(r.addr, r.data.length)]
  | .gather => r.addrs.map fun a => (a, 32)
  | .scatter => r.addrs.map fun a => (a, 32)
  | _ => [(r.addr, r.len)]

/-- Whether a request breaks the form of its operation: a line read names its line, a line write lies within one, a narrow request has
one to four aligned sectors (R172). -/
def guestMalformed (r : GuestReq) : Bool :=
  match r.op with
  | .malformed => true
  | .lineRead => r.addr % 128 != 0
  | .lineWrite => r.data.isEmpty || decide (128 < r.addr % 128 + r.data.length)
  | .gather => r.addrs.isEmpty || decide (4 < r.addrs.length) || r.addrs.any fun a => a % 32 != 0
  | .scatter => r.addrs.isEmpty || decide (4 < r.addrs.length) || r.addrs.any fun a => a % 32 != 0
  | _ => false

/-- The open memory window that holds an address. -/
def windowAt (a : Nat) (s : State) : Option (Fin 8) :=
  (List.finRange 8).find? fun i =>
    let w := s.levee.windows[i]
    w.isOpen && !w.queue && decide (w.base ≤ a ∧ a < w.base + w.size)

/-- The open queue window that holds a queue. -/
def queueWindow (q : Nat) (s : State) : Option (Fin 8) :=
  (List.finRange 8).find? fun i =>
    let w := s.levee.windows[i]
    w.isOpen && w.queue && decide (w.qfirst ≤ q ∧ q < w.qfirst + w.qcount)

/-- Whether a memory window permits an operation (Table 8.8). -/
def permits (w : Window) : GuestOp → Bool
  | .lineRead => w.read
  | .lineWrite => w.write
  | .gather => w.narrow && w.read
  | .scatter => w.narrow && w.write
  | _ => false

/-- Whether an operation is one on a queue. -/
def onQueue : GuestOp → Bool
  | .enqueue => true
  | .dequeue => true
  | _ => false

/-- What Table 8.9 makes of a request. -/
def leveeCheck (r : GuestReq) (s : State) : Verdict8 :=
  let parts := guestParts r
  if guestMalformed r then .drop
  else if onQueue r.op then
    match queueWindow r.queue s with
    | some w => .ok w
    | none => .error 8
  else
    match windowAt ((parts.headD (0, 0)).1) s with
    | none => .error 8
    | some i =>
      let w := s.levee.windows[i]
      if !(parts.all fun p => decide (w.base ≤ p.1 ∧ p.1 + p.2 ≤ w.base + w.size)) then .error (Fin.castLE (by decide) i)
      else if !permits w r.op then .error (Fin.castLE (by decide) i)
      else .ok i

/-- The byte count of a request, which its admission spends. -/
def guestBytes (r : GuestReq) (s : State) : Nat :=
  match r.op with
  | .lineRead => 128
  | .lineWrite => r.data.length
  | .gather => 32 * r.addrs.length
  | .scatter => 32 * r.addrs.length
  | _ => ((queueOf r.queue s).map (·.esize)).getD 0

/-- The bytes of response space a request needs. -/
def guestSpace (r : GuestReq) (s : State) : Nat :=
  match r.op with
  | .lineRead => 128
  | .gather => 128
  | .dequeue => guestBytes r s
  | _ => 0

/-- Whether a request can be admitted now: the bucket holds its count, and the response buffer of 256 KiB has room (R214, R215). -/
def canAdmit (i : Fin 8) (r : GuestReq) (s : State) : Bool :=
  decide (1000 * guestBytes r s ≤ bucketNow i s) && decide ((s.levee.resps.map (·.data.length)).sum + guestSpace r s ≤ 262144)

/-- Answer the guest with data: the response lies in the buffer until the guest has taken it. -/
def respond (r : GuestReq) (data : Bytes) (s : State) : State :=
  emit (.guestResp r.id (some data))
    (modLevee (fun l => { l with resps := l.resps ++ [{ id := r.id, addr := r.addr, data := data, since := s.now }] }) s)

/-- An access that fails behind the levee: logged, and the guest gets an error (R161). -/
def guestFails (r : GuestReq) (addr cause : Nat) (s : State) : State := emit (.guestResp r.id none) (logAccess addr .guest cause s)

/-- A guest's line read (R168: no hint). -/
def guestRead (r : GuestReq) (s : State) : State :=
  match accessCause .guest r.addr 128 s with
  | some k => guestFails r r.addr k s
  | none =>
    let s := settleRange r.addr 128 s
    match rangeOf r.addr with
    | .stack i =>
      let (s, bad) := sectorCheck i .guest r.addr r.ecc s
      if bad then emit (.guestResp r.id none) s
      else
        let (d, s) := cacheRead i (lineNo r.addr) .none s
        respond r d s
    | _ => respond r (memRead s.mem r.addr 128) s

/-- A guest's line write, whole or part (R167, R175). -/
def guestWrite (r : GuestReq) (s : State) : State :=
  match accessCause .guest r.addr r.data.length s with
  | some k => guestFails r r.addr k s
  | none =>
    let s := settleRange r.addr r.data.length s
    match rangeOf r.addr with
    | .stack i =>
      let whole := r.data.length == 128
      let (s, bad) := sectorCheck i .guest r.addr (if whole then writeEcc r.ecc else r.ecc) s
      if bad && !whole then emit (.guestResp r.id none) s
      else ackWrite i r.addr r.data.length (.req .guest r.id) (cacheWrite i r.addr r.data .none s)
    | _ => emit (.guestResp r.id (some [])) { s with mem := memWrite s.mem r.addr r.data }

/-- Apply the parked writes to the sectors that a guest names (R174). -/
def settleSectors (addrs : List Nat) (s : State) : State := addrs.foldl (fun s a => settleRange a 32 s) s

/-- A guest's GATHER (R172). -/
def guestGather (r : GuestReq) (s : State) : State :=
  let a := r.addrs.headD 0
  match accessCause .guest a 32 s with
  | some k => guestFails r a k s
  | none =>
    let s := settleSectors r.addrs s
    match rangeOf a with
    | .stack i =>
      let (s, bad) := sectorCheck i .guest a r.ecc s
      if bad then emit (.guestResp r.id none) s else respond r (slice (r.addrs.flatMap fun a => sectorRead a s) 0 128) s
    | _ => respond r (slice (r.addrs.flatMap fun a => memRead s.mem a 32) 0 128) s

/-- A guest's SCATTER (R172): the sectors in order. -/
def guestScatter (r : GuestReq) (s : State) : State :=
  let a := r.addrs.headD 0
  let sect := fun (j : Nat) => slice (r.data.drop (32 * j)) 0 32
  match accessCause .guest a 32 s with
  | some k => guestFails r a k s
  | none =>
    let s := settleSectors r.addrs s
    match rangeOf a with
    | .stack i =>
      let (s, bad) := sectorCheck i .guest a (writeEcc r.ecc) s
      if bad then emit (.guestResp r.id none) s
      else
        let s := (r.addrs.zipIdx).foldl (fun s p => narrowWrite i p.1 (sect p.2) (markStale i p.1 32 s)) s
        ackNarrow i r.addrs (.req .guest r.id) s
    | _ =>
      emit (.guestResp r.id (some [])) { s with mem := (r.addrs.zipIdx).foldl (fun m p => memWrite m p.1 (sect p.2)) s.mem }

/-- A queue as a guest's operation at one end leaves it to the other: an end whose task this image holds is not in another package. -/
def guestSide (id : Nat) (q : HwQueue) (s : State) : HwQueue :=
  match s.job.image with
  | some im => if id != 0 && hasTask im id then { q with remote := 0xFFFF } else q
  | none => q

/-- A guest's queue operation: an entry written behind PI, or the entry at CI taken (Table 8.8). A queue that no image configures, is
full or is empty answers with an error (log entry 27). The index advances as it does for a task (R156, R273): a host that drains or feeds
the queue is interrupted, an entry for another package leaves, and a credit returns. -/
def guestQueue (r : GuestReq) (s : State) : State :=
  match queueOf r.queue s with
  | none => emit (.guestResp r.id none) s
  | some q =>
    let slot := if r.op = .enqueue then q.pi else q.ci
    if (if r.op = .enqueue then decide (q.depth ≤ queueFill q) else queueFill q == 0) then emit (.guestResp r.id none) s
    else
      match ringCause q slot q.esize s with
      | some (a, k) => guestFails r a k s
      | none =>
        let s := settlePtr q.ring (slot % q.depth * q.esize) q.esize s
        if r.op = .enqueue then
          let s := ptrWrite (ringPlace q s) q.ring (slot % q.depth * q.esize) (slice r.data 0 q.esize) s
          emit (.guestResp r.id (some [])) (produceQueue (guestSide q.cons q s) s)
        else respond r (slotBytes q q.ci s) (consumeQueue (guestSide q.prod q s) s)

/-- Perform an admitted request. -/
def guestRun (r : GuestReq) (s : State) : State :=
  match r.op with
  | .lineRead => guestRead r s
  | .lineWrite => guestWrite r s
  | .gather => guestGather r s
  | .scatter => guestScatter r s
  | .enqueue => guestQueue r s
  | .dequeue => guestQueue r s
  | _ => s

/-- Admit a request: its bytes are spent (R214). -/
def guestAdmit (i : Fin 8) (r : GuestReq) (s : State) : State :=
  let b : Bucket := { level := bucketNow i s - 1000 * guestBytes r s, asOf := s.now }
  guestRun r (modLevee (fun l => { l with buckets := l.buckets.set i b }) s)

/-- A request that is not admitted (Table 8.9). -/
def guestReject (v : Verdict8) (r : GuestReq) (s : State) : State :=
  match v with
  | .drop => violation 8 r.addr s
  | .error k => emit (.guestResp r.id none) (violation k ((guestParts r).headD (r.addr, 0)).1 s)
  | .ok _ => s

/-- A guest request: admitted, held at the guest side, or rejected. A request behind one that is held for the same window waits too. -/
def guestRequest (r : GuestReq) (s : State) : State :=
  let s := takenResps s
  match leveeCheck r s with
  | .ok i =>
    if canAdmit i r s && !(s.levee.held.any fun h => h.1 == i.val) then guestAdmit i r s
    else modLevee (fun l => { l with held := l.held ++ [(i.val, r)] }) s
  | v => guestReject v r s

/-- Whether the guest link carries requests: never in ordering code SE (R3). -/
def guestUp (s : State) : Bool := s.power.gsite && s.links[(40 : Fin 41)].up && !s.levee.quarantine

/-- Admit the first request that is held for a window, if it can be; it is checked again, as the window may have changed. -/
def bucketAdmit (w : Fin 8) (s : State) : State :=
  match s.levee.held.find? fun h => h.1 == w.val with
  | none => s
  | some h =>
    let s1 := modLevee (fun l => { l with held := l.held.eraseP fun x => x.1 == w.val }) (takenResps s)
    match leveeCheck h.2 s1 with
    | .ok i => if i = w ∧ canAdmit i h.2 s1 then guestAdmit i h.2 s1 else if i = w then s else guestRequest h.2 s1
    | v => guestReject v h.2 s1

/-! ### The commands -/

/-- GUEST_REQUEST (R211, R214 to R216). -/
def execGuestRequest (r : GuestReq) (s : State) : Host.Outcome State Fault Refusal :=
  .next (if guestUp s then guestRequest r s else s)

/-- GUEST_BUCKET_ADMIT (R214). -/
def execGuestBucketAdmit (w : Fin 8) (s : State) : Host.Outcome State Fault Refusal :=
  .next (if guestUp s then bucketAdmit w s else s)

/-- GUEST_RESPONSE_TIMEOUT (R215). -/
def execGuestResponseTimeout (id : Nat) (s : State) : Host.Outcome State Fault Refusal :=
  .next (
    match s.levee.resps.find? fun x => x.id == id with
    | some x =>
      if x.since + 100000 ≤ s.now then
        logEv 0x0042 (unitWord 6 0 0) x.addr x.data.length 0 0
          (modLevee (fun l => { l with resps := l.resps.eraseP (fun y => y.id == id), dropped := l.dropped + 1 }) s)
      else s
    | none => s)

/-- LEVEE_VIOLATION_LOG (R216): an entry for a counter that advanced, at most one in each 10 ms. -/
def execLeveeViolationLog (k : Fin 9) (s : State) : Host.Outcome State Fault Refusal :=
  .next (
    let v := s.levee.viols[k]
    let due := match v.lastLog with
      | none => true
      | some t => decide (t + 10000000 ≤ s.now)
    if decide (v.logged < v.count) && due then
      logEv 0x0040 (unitWord 6 0 0) k.val v.count v.first 0 (modViol k (fun v => { v with logged := v.count, lastLog := some s.now }) s)
    else s)

end Sys2Proof.Machine
end

