-- ==== Sys2Proof/Machine/Fabric.lean ====
section
/-! DEFINITION. The fabric's ports: frames, reassembly, the checks of a message, forwarding, lane failures, discovery (R219 to R222, R225,
R231 to R234, R359, R363, R364). -/

namespace Sys2Proof.Machine

/-! ### Checks of a message (R233, R234, Tables 9.3, 9.4, 9.9) -/

/-- The class that Table 9.4 gives a TYPE. -/
def typeClass : Nat → Option Nat
  | 0x01 => some 3
  | 0x02 => some 3
  | 0x03 => some 3
  | 0x04 => some 3
  | 0x05 => some 3
  | 0x06 => some 4
  | 0x07 => some 2
  | 0x08 => some 2
  | 0x09 => some 2
  | 0x0A => some 2
  | 0x0B => some 4
  | 0x0C => some 2
  | 0x0D => some 2
  | _ => none

/-- Whether a TYPE carries a digest (R133, R239, R241). -/
def hasDigest (type : Nat) : Bool := type == 1 || type == 2 || type == 4 || type == 5

/-- Whether a WRITE or WRACK names a window and OFFSET that exist (R361, R364). -/
def windowExists (type ref offset len : Nat) : Bool :=
  match ref / 2 ^ 24 with
  | 0 => ref % 2 ^ 24 == 0 && (type == 0x0C || (offset == 0 && len == 4) || (offset == 0x8000 && len == 1))
  | 1 => ref % 2 ^ 24 < 512
  | 2 => ref % 2 ^ 24 < 512
  | _ => false

/-- Whether the REF and payload of a TYPE hold no reserved encoding (Tables 9.4, 9.7, 9.10, 9.11). -/
def payloadOk (type ref offset len : Nat) (pl : Bytes) : Bool :=
  match type with
  | 0x05 => ref == 0
  | 0x06 => decide (16 ≤ ref ∧ ref < 65536)
  | 0x07 => decide (16 ≤ ref ∧ ref < 65536)
  | 0x08 => ref == 0 && len == 1 && allZero pl 17 1 && decide (1 ≤ field pl 16 1 ∧ field pl 16 1 ≤ 8)
  | 0x09 => ref == 0 && len == 1 && allZero pl 17 1 && decide (1 ≤ field pl 16 1 ∧ field pl 16 1 ≤ 8)
  | 0x0A =>
    decide (ref ≤ 1) && len == 1 && decide (field pl 24 1 ≤ 1) && decide (field pl 26 2 < 8192) && allZero pl 28 4 &&
      (ref == 1 || allZero pl 8 16)
  | 0x0B => windowExists type ref offset len
  | 0x0C => windowExists type ref offset len
  | 0x0D =>
    decide (ref ≤ 5) && len == 1 && decide (field pl 0 2 < 8192) && decide (field pl 2 1 ≤ 5) && decide (field pl 3 1 < 16) &&
      decide (field pl 5 1 ≤ 1) && allZero pl 8 24
  | _ => true

/-- Whether the header holds no reserved encoding (Table 9.3). -/
def headerOk (bs : Bytes) : Bool :=
  let r := field bs 1 1
  let f := field bs 2 1
  let bcast := bit f 4
  decide (bits r 5 4 ≤ 2) && bits r 7 6 == 0 && bits f 7 5 == 0 && allZero bs 3 1 && bits (field bs 4 2) 14 13 == 0 &&
    bits (field bs 6 2) 14 13 == 0 && (!bcast || field bs 6 2 == 0) && decide (field bs 10 2 ≤ 128) &&
    (if hasDigest (field bs 0 1) then decide (field bs 24 8 < 2 ^ 61) else field bs 24 8 == 0) &&
    (!bit (field bs 4 2) 15 || field bs 8 2 == 0)

/-- The cause of Table 9.9 for which a message is dropped, if any; the first in the table's order. `cls` and `sub` are those of the
frames that brought it. -/
def dropCause (cls : Nat) (sub : Bool) (bs : Bytes) (s : State) : Option Nat :=
  let type := field bs 0 1
  let pl := bs.drop 32
  match typeClass type with
  | none => some 1
  | some c =>
    if !headerOk bs || bits (field bs 1 1) 2 0 ≠ cls || bit (field bs 1 1) 3 ≠ sub ||
        !payloadOk type (field bs 16 4) (field bs 20 4) (field bs 10 2) pl then some 2
    else if (!bit (field bs 4 2) 15 || type ≤ 9) && (!jobLoaded s || field bs 8 2 ≠ s.job.tag.toNat) then some 3
    else if bits (field bs 1 1) 2 0 ≠ c then some 4
    else if bs.length ≠ 32 + 32 * field bs 10 2 then some 5
    else none

/-- Drop a message: counted and logged (R234). -/
def dropMsg (p : FPort) (cause : Nat) (bs : Bytes) (s : State) : State :=
  logEv 0x0033 (unitWord 4 (fportNo p).val 0) (field bs 0 1) (field bs 4 2) (field bs 8 2) cause
    (modFab p (fun f => { f with drops := f.drops + 1 }) s)

/-- Put a message into the inbox of a port, with the instant of its arrival (R360). -/
def deliver (p : FPort) (m : Msg) (s : State) : State :=
  modFab p (fun f => { f with inbox := f.inbox ++ [{ m with at_ := tideNow s }] }) s

/-- Whether a message is for this package: a broadcast, a single-hop type, or its own physical or logical ID. -/
def forMe (m : Msg) (s : State) : Bool :=
  m.bcast || m.type == 0x0A || m.type == 0x0D || (if m.dstPhys then m.dst == physId s else m.dst == logId s)

/-- A whole message from the frames of a class and sub-channel: dropped, taken in, or sent on (R231, R234). -/
def takeMsg (p : FPort) (cls : Nat) (sub : Bool) (bs : Bytes) (s : State) : State :=
  match dropCause cls sub bs s with
  | some c => dropMsg p c bs s
  | none =>
    let m := parseMsg bs
    if forMe m s then deliver p m s else sendMsg m s

/-! ### A port that goes down or changes half (R219, R220) -/

/-- Log the state of a port, and the lane that failed (0x0032). -/
def logPort (p : FPort) (lane : Nat) (s : State) : State :=
  logEv 0x0032 (unitWord 4 (fportNo p).val 0) (fportNo p).val (fabState (fabOf p s)) lane 0 s

/-- Whether the loaded image uses a port (FABPORTS of Table 6.22). -/
def imageUsesPort (p : FPort) (s : State) : Bool := (s.job.image.map fun im => bit im.mapping.fabports (fportNo p).val).getD false

/-- The logical ID of the neighbour that a job has behind a port. -/
def neighbourId (p : FPort) (s : State) : Nat :=
  let a := (fportNo p).val / 2
  let len := axisLen a s
  let c := coord (logId s) a
  let c' := if (fportNo p).val % 2 = 0 then (c + 1) % len else (c + len - 1) % len
  let k := match a with
    | 0 => 1
    | 1 => 32
    | _ => 512
  logId s - c * k + c' * k

/-- Take a port down; of the two packages on a link that the running job uses, the one with the higher logical ID has failed
(R297). -/
def portDown (p : FPort) (lane : Nat) (s : State) : State :=
  if !(fabOf p s).up then s
  else
    let s := modFab p (fun f =>
      { FabPort.reset with drops := f.drops, inbox := f.inbox, failLow := f.failLow, failHigh := f.failHigh }) s
    let s := logPort p lane s
    if running s && imageUsesPort p s then
      if neighbourId p s < logId s then failPackage 3 0x0A s.seq s else reportOther (neighbourId p s) 3 s
    else s

/-- Move a port with a failed lane onto its other half, which the two ends agree by a link message (R220); it is then below rating, which
the package announces by a code 3 notice. -/
def moveHalf (p : FPort) (s : State) : State :=
  let f := fabOf p s
  if !f.move then s
  else
    let half := if f.failLow then 2 else 1
    let s := modFab p (fun f => { f with move := false, half := half }) s
    let s := logPort p 0 (ledgerReplace 0x30 5 (fportNo p).val 0 (leBytes 4 (half - 1)) (emit (.halfMove p half) s))
    if running s then plainNotice 3 s else s

/-- A lane fails (R220): with both halves failed the port goes down; else it moves at the next step boundary, and at once where no job
runs. A failed lane outside the half in use changes nothing but the record. -/
def laneFail (p : FPort) (lane : Nat) (s : State) : State :=
  if !(fabOf p s).up then s
  else
    let s := modFab p (fun f => if lane < 8 then { f with failLow := true } else { f with failHigh := true }) s
    let f := fabOf p s
    if f.failLow && f.failHigh then portDown p lane s
    else
      let hit := f.half == 0 || (f.half == 1 && f.failLow) || (f.half == 2 && f.failHigh)
      let s := logPort p lane (modFab p (fun f => { f with move := hit }) s)
      if running s then s else moveHalf p s

/-! ### Frames (R221, R222) -/

/-- Whether a piece descriptor keeps R222, given whether a message of its class and sub-channel is in progress. -/
def pieceOk (pl : Bytes) (open_ : Bool) : Bool :=
  let b := field pl 0 1
  let n := field pl 2 2
  bits b 7 7 == 0 && allZero pl 1 1 &&
    (if bit b 6 then b == 64 && n == 0 else decide (bits b 2 0 ≤ 5) && decide (1 ≤ n ∧ n ≤ 492) && bit b 4 == !open_)

/-- Whether a part of a message waits in a class and sub-channel. -/
def isPart (cls : Nat) (sub : Bool) (x : Nat × Bool × Bytes) : Bool := x.1 == cls && x.2.1 == sub

/-- Take in the piece that a frame carries. -/
def takePiece (p : FPort) (pl : Bytes) (s : State) : State :=
  let b := field pl 0 1
  if bit b 6 then s
  else
    let cls := bits b 2 0
    let sub := bit b 3
    let old := (((fabOf p s).parts.find? (isPart cls sub)).map (·.2.2)).getD []
    let bs := old ++ slice pl 4 (field pl 2 2)
    let s := modFab p (fun f => { f with parts := f.parts.filter fun x => !isPart cls sub x }) s
    let s := if bit b 5 then takeMsg p cls sub bs s else modFab p (fun f => { f with parts := f.parts ++ [(cls, sub, bs)] }) s
    if (fabOf p s).up then sendFrame p idlePayload (pieceCredits pl) s else s

/-- A frame that fails its checks (R221): it and every later frame are discarded, and a NAK names it: the next frame expected, which it
is or which it has lost. While frames are being discarded, only that frame's own failure counts again. The eighth failure of one frame
takes the port down. -/
def badFrame (p : FPort) (seq : BitVec 12) (s : State) : State :=
  let f := fabOf p s
  if f.naked && seq != f.rxSeq then s
  else
    let n := f.fails + 1
    let s := modFab p (fun f => { f with fails := n, naked := true }) s
    if 8 ≤ n then portDown p 0 s else emit (.frameNak p f.rxSeq.toNat) s

/-- Resend the frames from a number on, in order (R221): the one named is the one that failed, and 8 failed sends of it take the port
down. -/
def resendFrames (p : FPort) (seq : Nat) (s : State) : State :=
  let f := fabOf p s
  let sel := f.tx.dropWhile fun e => e.1 != seq
  match sel with
  | [] => s
  | e :: _ =>
    if 8 ≤ e.2.2 then portDown p 0 s
    else
      let s := modFab p (fun f =>
        { f with tx := (f.tx.takeWhile fun e => e.1 != seq) ++ (sel.map fun x => (x.1, x.2.1, x.2.2 + b2n (x.1 == e.1))) }) s
      emitAll (sel.map fun e => .frame p e.1 e.2.1 noReturn (crc32c (Config.linkHeader e.1 f.rxSeq.toNat noReturn ++ e.2.1))) s

/-- Whether a piece of the frame's class and sub-channel may follow what has come. -/
def frameOk (p : FPort) (f : Frame) (s : State) : Bool :=
  let pl := slice f.payload 0 496
  let b := field pl 0 1
  crc32c (slice f.hdr 0 12 ++ pl) == f.crc.toNat && pieceOk pl ((fabOf p s).parts.any (isPart (bits b 2 0) (bit b 3)))

/-- A frame with a good CRC and descriptor: taken in when it is the next, else discarded; a NAK and a credit return in its header are
obeyed. -/
def goodFrame (p : FPort) (f : Frame) (s : State) : State :=
  if f.seq ≠ (fabOf p s).rxSeq then s
  else
    let s := modFab p (fun k => { k with rxSeq := k.rxSeq + 1, fails := 0, naked := false }) s
    let s := takeCredits p f.ret s
    let s := if f.nak then resendFrames p f.ack.toNat s else s
    takePiece p (slice f.payload 0 496) s

/-! ### Discovery (R225, R359) -/

/-- The LINKID message that a port sends. -/
def linkidMsg (p : FPort) (s : State) : Msg :=
  let tag := s.job.tag.toNat
  let pl := leBytes 2 (physId s) ++ leBytes 1 (fportNo p).val ++ leBytes 1 s.power.straps.feed.toNat ++ leBytes 1 0xB0 ++
    leBytes 1 (b2n (jobLoaded s)) ++ leBytes 2 (if jobLoaded s then tag else 0) ++ leBytes 24 0
  { physMsg 0x0D 2 0 0 (fportNo p).val 0 pl s with axis := (fportNo p).val / 2 }

/-- A port comes up (R219, R225): on all lanes, or on the half that works. -/
def portUp (p : FPort) (low high : Bool) (s : State) : State :=
  let half := if low && high then 0 else if low then 1 else 2
  let s := modFab p (fun f =>
    { FabPort.reset with up := true, half := half, failLow := !low, failHigh := !high, drops := f.drops, inbox := f.inbox }) s
  let s := if half = 0 then s else ledgerReplace 0x30 1 (fportNo p).val 0 (leBytes 4 (half - 1)) s
  sendOn p (linkidMsg p s) (logPort p 0 s)

/-- Whether the SerDes of the fabric ports run (Table 12.6). -/
def serdesOn (s : State) : Bool :=
  match s.power.phase with
  | .off => false
  | .waitOsc => false
  | .recovery => false
  | _ => true

/-- The record of a neighbour. -/
def takeLinkid (p : FPort) (m : Msg) (s : State) : State :=
  let b := m.payload
  modFab p (fun f =>
    { f with neigh := some { phys := field b 0 2, port := field b 2 1, feed := field b 3 1, stepping := field b 4 1,
                             job := bit (field b 5 1) 0, jobtag := field b 6 2 } }) s

/-! ### The commands -/

/-- FABRIC_FRAME (R221, R222). -/
def execFabricFrame (p : FPort) (f : Frame) (s : State) : Host.Outcome State Fault Refusal :=
  .next (if !(fabOf p s).up then s else if frameOk p f s then goodFrame p f s else badFrame p f.seq s)

/-- FRAME_NAK (R221). -/
def execFrameNak (p : FPort) (seq : BitVec 12) (s : State) : Host.Outcome State Fault Refusal :=
  .next (if (fabOf p s).up then resendFrames p seq.toNat s else s)

/-- LANE_FAILURE (R220). -/
def execLaneFailure (p : FPort) (lane : Fin 16) (s : State) : Host.Outcome State Fault Refusal := .next (laneFail p lane.val s)

/-- LINKID (R225, R359). -/
def execLinkid (p : FPort) (sub : Bool) (s : State) : Host.Outcome State Fault Refusal := .next (onMsg p 2 0x0D sub (takeLinkid p) s)

/-- FABRIC_PORT_UP (R225). `low` and `high` say which halves train. -/
def execFabricPortUp (p : FPort) (low : Bool) (high : Bool) (s : State) : Host.Outcome State Fault Refusal :=
  .next (if serdesOn s && !(fabOf p s).up && (low || high) then portUp p low high s else s)

end Sys2Proof.Machine
end

