-- ==== Sys2Proof/Machine/Repair.lean ====
section
/-! DEFINITION. The row and bank repair unit at a checkpoint stop or a boot (R188, R189). -/

namespace Sys2Proof.Machine

/-- SUB of a row or bank record (Table 11.9). -/
def rowSub (pc bank row : Nat) : Nat := pc * 2 ^ 21 + bank * 2 ^ 15 + row % 2 ^ 15

/-- Spare rows of a bank that the ledger has given out. -/
def rowsUsed (i pc bank : Nat) (s : State) : Nat :=
  ((inForce (ledgerUnion s.flash)).filter fun r => r.kind == 0x20 && r.index == i && r.sub / 2 ^ 15 == rowSub pc bank 0 / 2 ^ 15).length

/-- Spare banks of a pseudo-channel that the ledger has given out. -/
def banksUsed (i pc : Nat) (s : State) : Nat :=
  ((inForce (ledgerUnion s.flash)).filter fun r => r.kind == 0x21 && r.index == i && r.sub / 2 ^ 21 == pc).length

/-- Remap a marked bank to the next spare bank of its pseudo-channel, or log the shortage (R188, R189). -/
def remapBank (i : Fin 32) (s : State) (b : Nat × Nat) : State :=
  let n := banksUsed i.val b.1 s
  let s := logEv 0x0012 (unitWord 3 i.val 0) i.val b.1 b.2 0 s
  if 2 ≤ n then s
  else
    let s := ledgerAppend 0x21 4 i.val (rowSub b.1 b.2 0) (leBytes 4 n) s
    modStack i (fun st => { st with bankMarks := st.bankMarks.filter (· != b),
                                    rows := st.rows.filter fun r => !(r.pc == b.1 && r.bank == b.2) }) s

/-- Remap a marked row to the next spare row of its bank, or log the shortage (R188, R189). -/
def remapRow (i : Fin 32) (s : State) (e : RowErr) : State :=
  let n := rowsUsed i.val e.pc e.bank s
  let s := logEv 0x0012 (unitWord 3 i.val 0) i.val e.pc e.bank e.row s
  if 16 ≤ n then s
  else
    let s := ledgerAppend 0x20 4 i.val (rowSub e.pc e.bank e.row) (leBytes 4 n) s
    modStack i (fun st => { st with rows := st.rows.filter (· != e) }) s

/-- Remap the marked banks and rows of a stack. -/
def remapStack (s : State) (i : Fin 32) : State :=
  let s := s.memStacks[i].bankMarks.foldl (remapBank i) s
  (s.memStacks[i].rows.filter (·.marked)).foldl (remapRow i) s

/-- Remap every marked row and bank of the package. -/
def remapAll (s : State) : State := (List.finRange 32).foldl remapStack s

end Sys2Proof.Machine
end

