-- ==== Sys2Proof/Machine/Record.lean ====
section
/-! DEFINITION. The checkpoint record: its sections, digests, header, where its bytes lie in the far tier (R285, R287, R288, R290), and a
restore from it (R294, R295). -/

namespace Sys2Proof.Machine

/-! ### Where a stream lies -/

/-- The place of a stream of the tensor table. -/
def entryPlace (e : TensorEntry) (s : State) : Place :=
  if ptrSpace e.base = 2 then .core (unitDie e.unit) (physCore (unitDie e.unit) (unitCore e.unit) s) else .stack 0

/-- The bytes of a stream. -/
def streamBytes (s : State) (e : TensorEntry) : Bytes := ptrRead (entryPlace e s) e.base 0 e.length s

/-- Why the hub cannot reach one of a list of stretches (pointer, length), with the address that fails (R11, R16, R161, R163). -/
def stretchCause (ps : List (Nat × Nat)) (s : State) : Option (Nat × Nat) := ps.findSome? fun p => ptrCause .hub p.1 0 p.2 s

/-- The stretch of a stream. -/
def stretchOf (e : TensorEntry) : Nat × Nat := (e.base, e.length)

/-- The streams of a kind that the record carries, in ascending tensor ID: those with TRAIN for state streams (R357). -/
def recordStreams (im : JobImage) (kind : Nat) : List TensorEntry :=
  im.tensors.filter fun e => e.skind == kind && (kind == 0x07 || kind == 0x0B || bit e.flags 0)

/-! ### Sections (Table 11.3) -/

/-- The class and format pairs of Table 4.8 in its order; X counts the six MX formats. -/
def gaugeCells : List (Nat × Nat) :=
  [(0, 1), (0, 2), (1, 0), (1, 1), (1, 2), (2, 0), (2, 1), (2, 2), (3, 0), (3, 1), (3, 2), (3, 3), (4, 4), (5, 5), (6, 5), (6, 6),
    (7, 7), (7, 8), (7, 9), (7, 10), (7, 11), (7, 12)]

/-- The counters of a class and format. -/
def cellOf (c : Nat × Nat) (s : State) : Counts :=
  ((s.gauges.cells.find? fun x => x.1 == c.1 && x.2.1 == c.2).map (·.2.2)).getD {}

/-- The eight counters in the order of Table 4.7. -/
def Counts.list (c : Counts) : List Nat := [c.sat, c.flush, c.zero, c.satBlk, c.fall, c.overs, c.nonfin, c.mism]

/-- The counters that a list of eight gives. -/
def Counts.ofList (l : List Nat) : Counts :=
  { sat := l.getD 0 0, flush := l.getD 1 0, zero := l.getD 2 0, satBlk := l.getD 3 0, fall := l.getD 4 0, overs := l.getD 5 0,
    nonfin := l.getD 6 0, mism := l.getD 7 0 }

/-- The berm record of a tensor; zeros where none has been made. -/
def bermRec (tensor : Nat) (s : State) : Nat × BF16 × BF16 × Nat := (s.exec.bermRecs.find? fun b => b.1 == tensor).getD (tensor, 0, 0, 0)

/-- The GAUGES section: the counter sets, and the records of R97. -/
def gaugeSection (im : JobImage) (s : State) : Bytes :=
  (gaugeCells.flatMap fun c => (cellOf c s).list.flatMap (leBytes 8)) ++
    (recordStreams im 0x0B).flatMap fun e =>
      let b := bermRec e.tensor s
      leBytes 4 e.tensor ++ leBytes 2 b.2.1.toNat ++ leBytes 2 b.2.2.1.toNat ++ leBytes 8 b.2.2.2

/-- The BERMSEED section: per berm tensor its flag, and the seed factor when the flag is 1 (R290). -/
def seedSection (im : JobImage) (s : State) : Bytes :=
  (recordStreams im 0x0B).flatMap fun e =>
    if s.exec.seedFlags.contains e.tensor then leBytes 4 1 ++ (streamBytes s e).drop 4 else leBytes 4 0

/-- The VERDICT section: a count and 64 loss sums. -/
def historySection (s : State) : Bytes :=
  let h := s.exec.history.take 64
  slice (leBytes 4 h.length ++ h.flatMap fun x => leBytes 8 (ofSigned 64 x)) 0 516

/-- The ten sections of the record of a step, unpadded, in the order of Table 11.3. -/
def recordSections (im : JobImage) (t : Nat) (s : State) : List Bytes :=
  let cat := fun k => (recordStreams im k).flatMap (streamBytes s)
  [cat 0x15, cat 0x16, cat 0x17, cat 0x18, cat 0x07, im.contracts.flatMap fun c => leBytes 2 (ofSigned 16 (scaleOf c.cslot (t + 1) s)),
    seedSection im s, historySection s, gaugeSection im s, leBytes 8 s.twin.m ++ leBytes 8 s.twin.schedRun ++ leBytes 8 s.twin.lastStopEnd]

/-- A section padded with zeros to whole words (R287). -/
def padWords (b : Bytes) : Bytes := slice b 0 (upTo 4 b.length)

/-- The digest of a section (R288). -/
def sectionDigest (seed t type : Nat) (b : Bytes) : Nat := digest seed t (0xC0000000 + type) 0 (elemsOf 0 b)

/-- Lay sections out from an offset on, each at a multiple of 4 KiB: (TYPE, offset, bytes). -/
def layOut : Nat → Nat → List Bytes → List (Nat × Nat × Bytes)
  | _, _, [] => []
  | ty, o, b :: r => (ty, upTo 4096 o, b) :: layOut (ty + 1) (upTo 4096 o + b.length) r

/-- A record: its header, the section table, the sections with their offsets, RECDIG. -/
structure Record where
  header : Bytes
  table : Bytes
  parts : List (Nat × Nat × Bytes)
  recdig : Nat

/-- The 256-byte header (Table 11.2). -/
def headerBytes (t logid tag phys flags length : Nat) (imgdig : Bytes) (recdig : Nat) : Bytes :=
  let b := ascii "BNLCKPT3" ++ leBytes 4 t ++ leBytes 2 logid ++ leBytes 2 tag ++ leBytes 2 phys ++ leBytes 1 flags ++ leBytes 1 10 ++
    leBytes 4 0 ++ leBytes 8 length ++ slice imgdig 0 48 ++ leBytes 8 recdig ++ leBytes 164 0
  b ++ leBytes 4 (crc32c b)

/-- The record of a step that this package would write now. -/
def recordOf (im : JobImage) (t : Nat) (s : State) : Record :=
  let parts := layOut 1 576 ((recordSections im t s).map padWords)
  let digs := parts.map fun p => sectionDigest im.seed t p.1 p.2.2
  let len := (parts.map fun p => p.2.1 + p.2.2.length).foldl max 576
  let rd := digs.sum % digP
  { header := headerBytes t (logId s) s.job.tag.toNat (physId s) (b2n s.twin.exposed) len im.digest rd,
    table := (parts.zip digs).flatMap fun x =>
      leBytes 4 x.1.1 ++ leBytes 4 0 ++ leBytes 8 x.1.2.1 ++ leBytes 8 x.1.2.2.length ++ leBytes 8 x.2,
    parts := parts, recdig := rd }

/-! ### The checkpoint area (R283, R285) -/

/-- The address of byte `o` of a record in a slot (R285). -/
def slotAddr (slot o : Nat) : Nat :=
  farBase (Fin.ofNat 2 (o / 2 ^ 20 % 2)) + slot * 2 ^ 40 + o / 2 ^ 21 * 2 ^ 20 + o % 2 ^ 20

/-- Read bytes of a slot. -/
def slotRead (slot o n : Nat) (s : State) : Bytes := (List.range n).map fun i => memGet s.mem (slotAddr slot (o + i))

/-- Write bytes of a slot. -/
def slotWrite (slot o : Nat) (b : Bytes) (s : State) : State :=
  { s with mem := (b.zipIdx).foldl (fun m x => memSet m (slotAddr slot (o + x.2)) x.1) s.mem }

/-- Whether this package can serve as a twin (R283): both ports at rating, 2 TiB mapped, at least 120 GB/s written. -/
def canTwin (s : State) : Bool :=
  [(0 : Fin 2), 1].all fun f => s.far[f].st == 2 && decide (2048 * 2 ^ 30 ≤ s.far[f].cap) && decide (1200 ≤ s.far[f].wr)

/-- Whether a header is valid: MAGIC and HDRCRC. -/
def headerValid (h : Bytes) : Bool := h.take 8 == ascii "BNLCKPT3" && crc32c (h.take 252) == field h 252 4

/-- Whether a header holds a reserved encoding (R7, Table 11.2): reserved bits of LOGID or FLAGS, another number of sections than 10, or
a reserved field that is not zero. -/
def headerReserved (h : Bytes) : Bool :=
  field h 12 2 / 2 ^ 13 != 0 || decide (4 ≤ field h 18 1) || field h 19 1 != 10 || !allZero h 20 4 || !allZero h 88 164

/-- The entries of the section table of a record, the bytes read by `rd`: TYPE, OFFSET, LENGTH, DIGEST. -/
def tableOf (rd : Nat → Nat → Bytes) : List (Nat × Nat × Nat × Nat) :=
  (List.range 10).map fun i =>
    let e := rd (256 + 32 * i) 32
    (field e 0 4, field e 8 8, field e 16 8, field e 24 8)

/-- Whether every section of a record has its digest and they sum to RECDIG (R288). -/
def digestsMatch (seed t recdig : Nat) (rd : Nat → Nat → Bytes) : Bool :=
  let tab := tableOf rd
  (tab.all fun e => sectionDigest seed t e.1 (rd e.2.1 e.2.2.1) == e.2.2.2) && (tab.map (·.2.2.2)).sum % digP == recdig

/-! ### Restore (R294, R295) -/

/-- The checks of R294 on a record, for step `t` of the loaded image. -/
def recordGood (im : JobImage) (t : Nat) (b : Bytes) (s : State) : Bool :=
  headerValid b && !headerReserved b && field b 14 2 == s.job.tag.toNat && bits (field b 12 2) 12 0 == logId s && slice b 32 48 == im.digest &&
    field b 8 4 == t && digestsMatch im.seed t (field b 80 8) (fun o n => slice b o n)

/-- The bytes of a section of a record. -/
def sectionOf (type : Nat) (b : Bytes) : Bytes :=
  match (tableOf fun o n => slice b o n).find? fun e => e.1 == type with
  | some e => slice b e.2.1 e.2.2.1
  | none => []

/-- Write a section back to the streams it was taken from. -/
def putStreams (es : List TensorEntry) (b : Bytes) (s : State) : State :=
  (es.foldl (fun (x : Nat × State) e => (x.1 + e.length, ptrWrite (entryPlace e x.2) e.base 0 (slice b x.1 e.length) x.2)) (0, s)).2

/-- Write the seed factors back and set the seed flags. -/
def putSeeds (im : JobImage) (b : Bytes) (s : State) : State :=
  let s := { s with exec := { s.exec with seedFlags := [] } }
  ((recordStreams im 0x0B).foldl (fun (x : Nat × State) e =>
    if field b x.1 4 = 1 then
      let s := ptrWrite (entryPlace e x.2) e.base 0 (slice b x.1 e.length) x.2
      (x.1 + e.length, { s with exec := { s.exec with seedFlags := e.tensor :: s.exec.seedFlags } })
    else (x.1 + 4, x.2)) (0, s)).2

/-- Set the gauges and the berm records from a GAUGES section. -/
def putGauges (im : JobImage) (b : Bytes) (s : State) : State :=
  let cells := (gaugeCells.zipIdx).map fun c => (c.1.1, c.1.2, Counts.ofList ((List.range 8).map fun i => field b (64 * c.2 + 8 * i) 8))
  let recs := ((recordStreams im 0x0B).zipIdx).map fun e =>
    let o := 1408 + 16 * e.2
    (e.1.tensor, (BitVec.ofNat 16 (field b (o + 4) 2) : BF16), (BitVec.ofNat 16 (field b (o + 6) 2) : BF16), field b (o + 8) 8)
  { s with gauges := { cells := cells, step := [] }, exec := { s.exec with bermRecs := recs } }

/-- Copy payload entries of the image to their places (Table 6.24). -/
def copyPayloads (ps : List Payload) (s : State) : State := ps.foldl (fun s p => physWrite (ptrAddr p.dest) p.data s) s

/-- Regenerate the tiles of the shard of a U task, and with its last shard the factors of the tensor (R295). -/
def restoreShard (im : JobImage) (s : State) (t : TaskRec) : State :=
  let u := decodeUpd t.body
  let s := (regenTiles im t s).1
  if ptrSpace u.bermu ≠ 0 && s.exec.seedFlags.contains u.tensor && (updShards im u.tensor).getLast? == some t then
    regenBerm im t (factorCols (updPlace t) (u.seed + 4) (weightN im u.tensor) (bermRank im u.tensor) s) s
  else s

/-- The state of step `t` from a record (R295). -/
def applyRecord (im : JobImage) (t : Nat) (b : Bytes) (s : State) : State :=
  let sec := fun k => sectionOf k b
  let s := putStreams (recordStreams im 0x15) (sec 1) s
  let s := putStreams (recordStreams im 0x16) (sec 2) s
  let s := putStreams (recordStreams im 0x17) (sec 3) s
  let s := putStreams (recordStreams im 0x18) (sec 4) s
  let s := putStreams (recordStreams im 0x07) (sec 5) s
  let s := (recordStreams im 0x07).foldl (fun s e => keepLists (ptrAddr e.base) (streamBytes s e) s) s
  let s := (im.contracts.zipIdx).foldl (fun s c => setScale c.1.cslot (t + 1) (toSigned 16 (field (sec 6) (2 * c.2) 2)) s) s
  let h := sec 8
  let s := { s with exec := { s.exec with verdicts := [], nfLogged := [], history := (List.range (min (field h 0 4) 64)).map fun i => toSigned 64 (field h (4 + 8 * i) 8) } }
  let c := sec 10
  let s := { s with twin := { s.twin with m := field c 0 8, ran := field c 8 8, lastStopEnd := field c 16 8 } }
  let s := match s.twin.gaugesCopy with
    | some (k, g) => if k = t then putGauges im g s else if bit (field b 18 1) 1 then s else putGauges im (sec 9) s
    | none => if bit (field b 18 1) 1 then s else putGauges im (sec 9) s
  let s := copyPayloads im.berm (putSeeds im (sec 7) s)
  let us := im.tasks.filter fun k => k.dtype == 3
  us.foldl (fun s t => regenTctl im t s) (us.foldl (restoreShard im) s)

end Sys2Proof.Machine
end

