-- ==== Sys2Proof/Machine/Ckpt.lean ====
section
/-! DEFINITION. Twin pairing and checkpoints (R282 to R286, R291 to R293, R297, R298), and the peer commands that carry them (R263, R361,
R364, Table 11.1). -/

namespace Sys2Proof.Machine

/-- Change the twin's record. -/
def modTwin (f : Twin → Twin) (s : State) : State := { s with twin := f s.twin }

/-! ### WRITE messages (R285, R364) -/

/-- Send a WRITE into a checkpoint slot of a package, named by its physical ID (Table 11.4). -/
def sendSlotWrite (dst slot o : Nat) (b : Bytes) (s : State) : State :=
  sendMsg (physMsg 0x0B 4 dst 0 ((1 + slot) * 2 ^ 24 + o / 2 ^ 32) (o % 2 ^ 32) b s) s

/-- Stream bytes into a checkpoint slot, at most 4 KiB a message. -/
def streamSlot (dst slot o : Nat) (b : Bytes) (s : State) : State :=
  (List.range (cdiv b.length 4096)).foldl (fun s i => sendSlotWrite dst slot (o + 4096 * i) ((b.drop (4096 * i)).take 4096) s) s

/-! ### Peer commands as they arrive (R263, R361) -/

/-- Whether an opcode is one of Table 11.1. -/
def peerKnown (op : Nat) : Bool :=
  [0x8001, 0x8002, 0x8010, 0x8011, 0x8012, 0x8013, 0x8014, 0x8015, 0x8020, 0x8030, 0x8031].contains op

/-- The ARGS bytes that a peer opcode uses. -/
def peerUsed : Nat → List (Nat × Nat)
  | 0x8001 => [(0, 16)]
  | 0x8010 => [(0, 4), (4, 16)]
  | 0x8011 => [(0, 5), (8, 8)]
  | 0x8012 => [(0, 4), (8, 8)]
  | 0x8013 => [(0, 5)]
  | 0x8014 => [(0, 5)]
  | 0x8015 => [(0, 5)]
  | 0x8020 => [(0, 3), (4, 4)]
  | 0x8030 => [(0, 5)]
  | 0x8031 => [(0, 8)]
  | _ => []

/-- Whether a reserved byte or bit of a peer entry is set, or a field that R361 fixes at 0. -/
def peerReserved (e : Bytes) : Bool :=
  field e 2 1 != 0 || entReserved (peerUsed (entOp e)) e || entGen e != 0 || entData e != 0 || entLen e != 0 ||
    (entOp e == 0x8001 && decide (3 < arg e 3 1))

/-- Answer a peer command with one completion entry to its sender; a broadcast is answered by none (R361). -/
def peerAnswer (e : PeerEntry) (kind status : Nat) (s : State) : State :=
  if e.bcast then s
  else
    let s := logEv 0x0003 (unitWord 0 0 6) (entOp e.bytes) kind status (entTag e.bytes) s
    let pl := cplBytes e.bytes kind status true 0 0 s.seq
    if e.phys then sendMsg (physMsg 0x0B 4 e.src 0 0 0x8000 pl s) s
    else if e.src = logId s then { s with peer := { s.peer with completions := s.peer.completions ++ [{ e with bytes := pl }] } }
    else sendMsg (jobMsg 0x0B 4 e.src s.job.cstep 0 0x8000 0 pl s) s

/-- Take in a peer command: an opcode that Table 11.1 does not list is refused with 0x02, a reserved field that is set with 0x01. -/
def takePeer (e : PeerEntry) (s : State) : State :=
  let bad := if !peerKnown (entOp e.bytes) then 2 else if peerReserved e.bytes then 1 else 0
  if bad = 0 then { s with peer := { s.peer with waiting := s.peer.waiting ++ [e] } }
  else peerAnswer e 2 bad (logEv 0x0002 (unitWord 0 0 6) (entOp e.bytes) bad 0 (entTag e.bytes) s)

/-- Act on the front entry of queue 6 if it has an opcode. -/
def onPeer (op : Nat) (f : PeerEntry → State → State) (s : State) : State :=
  match s.peer.waiting with
  | [] => s
  | e :: r => if entOp e.bytes = op then f e { s with peer := { s.peer with waiting := r } } else s

/-- Whether a peer command comes from the twin. -/
def fromTwin (e : PeerEntry) (s : State) : Bool := e.phys && s.twin.phys == some e.src

/-! ### Pairing (R282 to R284) -/

/-- The open TWIN_PAIR, if any. -/
def pairOp (s : State) : Option Accepted := (openOps 0x0203 s).find? (·.started)

/-- The FEED straps that the neighbour with a physical ID reports. -/
def feedOf (phys : Nat) (s : State) : Option Nat :=
  (portTo phys s).bind fun p => (fabOf p s).neigh.map (·.feed)

/-- Complete or end TWIN_PAIR where the held PAIR_REQ of the named neighbour decides it (R282, R284). -/
def tryPair (s : State) : State :=
  match pairOp s with
  | none => s
  | some a =>
    let phys := arg a.entry 0 2
    let ovr := bit (arg a.entry 2 1) 0
    match s.twin.held.find? fun h => h.phys == phys with
    | none => s
    | some h =>
      if !h.twinok then endOp 0x0203 (doneNow 6 0 s) s
      else
        let same := h.feed == s.power.straps.feed.toNat
        if same && !(ovr && h.override) then s
        else
          endOp 0x0203 (doneNow 0 0 s) (modTwin (fun t =>
            { t with phys := some phys, exposed := same, unprotected := false, areaLost := false, rx := none,
                     changed := t.changed || decide (t.phys != some phys) }) s)

/-- End the pairing; every record stays (R284). -/
def endPair (s : State) : State := modTwin (fun t => { t with phys := none, exposed := false, rx := none }) s

/-- The PAIR_REQ of this package (Table 11.1). -/
def pairArgs (ovr : Bool) (s : State) : Bytes :=
  leBytes 2 (physId s) ++ leBytes 1 s.power.straps.feed.toNat ++ leBytes 1 (b2n ovr + 2 * b2n (canTwin s)) ++
    leBytes 2 s.far[0].wr ++ leBytes 2 s.far[1].wr ++ leBytes 8 (min s.far[0].cap s.far[1].cap)

/-- Start TWIN_PAIR: PAIR_REQ goes out whatever the test of R283 gives, and the command ends at once where it cannot complete (R282). -/
def startPair (phys : Nat) (ovr : Bool) (s : State) : State :=
  let s := peerToPhys 0x8001 phys (pairArgs ovr s) s
  if !canTwin s then endOp 0x0203 (doneNow 6 0 s) s else tryPair s

/-- A PAIR_REQ that names this package is held for 1 s (R282). -/
def recvPair (e : PeerEntry) (s : State) : State :=
  let b := e.bytes
  let h : HeldPair := { phys := arg b 0 2, feed := arg b 2 1, override := bit (arg b 3 1) 0, twinok := bit (arg b 3 1) 1, since := s.now }
  let s := modTwin (fun t => { t with held := t.held.filter (fun x => x.phys != h.phys) ++ [h] }) s
  tryPair (peerAnswer e 1 0 s)

/-! ### Taking a checkpoint (R291, Table 11.4) -/

/-- The slot that does not hold the rollback point (R285). -/
def targetSlot (s : State) : Nat :=
  match s.twin.rollback with
  | some (_, k) => 1 - k
  | none => 0

/-- I of R293 in ns: √(2 · C · M), clamped to 120 s to 14,400 s. -/
def interval (s : State) : Nat := min 14400000000000 (max 120000000000 (isqrt (2 * stopTime s * s.twin.m)))

/-- ARGS of CKPT_SCHED. -/
def schedArgs (t : Nat) (s : State) : Bytes := leBytes 4 t ++ leBytes 8 s.twin.m ++ leBytes 8 (runTime s)

/-- A list of scheduled steps with one more. -/
def addSched (t : Nat) (l : List Nat) : List Nat := if l.contains t then l else l ++ [t]

/-- Schedule the checkpoint of a step: broadcast CKPT_SCHED and take it as received. -/
def schedule (t : Nat) (s : State) : State :=
  let s := peerBcast 0x8010 t (schedArgs t s) s
  modTwin (fun w => { w with sched := addSched t w.sched, schedRun := runTime s }) s

/-- A CKPT_SCHED: one checkpoint of a step that has not ended, however often it is named (Table 11.4). The lead keeps its own M. -/
def recvSched (e : PeerEntry) (s : State) : State :=
  let t := arg e.bytes 0 4
  if running s && decide (s.job.cstep ≤ t) then
    modTwin (fun w => { w with sched := addSched t w.sched, m := if logId s = 0 then w.m else arg e.bytes 4 8, schedRun := arg e.bytes 12 8 }) s
  else s

/-- Report the outcome of this package's record to the lead. -/
def reportDone (t r : Nat) (s : State) : State := peerToLog 0x8014 0 t (leBytes 4 t ++ leBytes 1 r) s

/-- The start of a checkpoint of step `t` at the old T0(t + 1), whose stop ends at `newOrigin`: marked rows are remapped, MAGIC in the
twin's target slot is zeroed, and CKPT_BEGIN follows. -/
def ckptStart (im : JobImage) (t newOrigin : Nat) (s : State) : State :=
  let s := remapAll s
  let s := modTwin (fun w => { w with sched := w.sched.filter (fun k => decide (t < k)), inProg := some t, newOrigin := newOrigin, sent := none, doneFrom := [] }) s
  match s.twin.phys with
  | none => s
  | some p =>
    let k := targetSlot s
    let s := sendSlotWrite p k 0 (leBytes 32 0) s
    peerToPhys 0x8011 p (leBytes 4 t ++ leBytes 1 k ++ leBytes 3 0 ++ leBytes 8 (field (recordOf im t s).header 24 8)) s

/-- The stream of a checkpoint in progress once every task of its step has committed: sections, section table, the header last, and
CKPT_END. A package with no twin has no record to write and reports 2. -/
def ckptStream (s : State) : State :=
  match s.job.image, s.twin.inProg with
  | some im, some t =>
    if s.twin.sent.isSome || !stepCommitted t s then s
    else
      let r := recordOf im t s
      let s := modTwin (fun w => { w with sent := some (gaugeSection im s) }) s
      match s.twin.phys with
      | none => reportDone t 2 s
      | some p =>
        let k := targetSlot s
        let s := r.parts.foldl (fun s x => streamSlot p k x.2.1 x.2.2 s) (streamSlot p k 256 r.table s)
        peerToPhys 0x8012 p (leBytes 4 t ++ leBytes 4 0 ++ leBytes 8 r.recdig) (sendSlotWrite p k 0 r.header s)
  | _, _ => s

/-- The end of a checkpoint (R292): `r` 0 committed, 1 not. The lead schedules the next one I after the stop (R293). -/
def applyCommit (t r : Nat) (s : State) : State :=
  if s.twin.inProg ≠ some t then s
  else
    let k := targetSlot s
    let s := modTwin (fun w =>
      { w with inProg := none, sent := none, doneFrom := [], byStop := false,
               rollback := if r = 0 then some (t, k) else w.rollback, changed := decide (r ≠ 0) && w.changed,
               lastStopEnd := if r = 0 then w.newOrigin else w.lastStopEnd,
               nextCkpt := if logId s = 0 then some (w.newOrigin + interval s) else none }) s
    let st := if r = 0 then 0 else 0x0A
    if (openOps 0x0201 s).isEmpty then logEv 0x0003 (unitWord 0 0 0) 0x0201 1 st 0 s
    else endOp 0x0201 (doneNow st (if r = 0 then t else 0) s) s

/-- The lead's decision, broadcast and applied (Table 11.4). -/
def sendCommit (t r : Nat) (s : State) : State := applyCommit t r (peerBcast 0x8015 t (leBytes 4 t ++ leBytes 1 r) s)

/-! ### The twin's part -/

/-- CKPT_BEGIN: prepare the slot. A sender that is not the twin is answered by 0x06, a slot above 1 by 0x05. -/
def recvBegin (e : PeerEntry) (s : State) : State :=
  let k := arg e.bytes 4 1
  if 1 < k then peerAnswer e 2 5 s
  else if !fromTwin e s then peerAnswer e 1 6 s
  else
    peerAnswer e 1 0 (modTwin (fun w => { w with rx := some { step := arg e.bytes 0 4, slot := k, length := arg e.bytes 8 8, header := [] } }) s)

/-- Whether the record that has arrived in a slot matches RECDIG, its sections read from the far tier. -/
def rxGood (x : CkptRx) (recdig : Nat) (s : State) : Bool :=
  headerValid x.header && !headerReserved x.header && field x.header 80 8 == recdig && field x.header 8 4 == x.step &&
    digestsMatch (seedOf s) x.step recdig (fun o n => slotRead x.slot o n s)

/-- CKPT_END: the header is written, and makes the record valid, when the digests agree; CKPT_ACK tells the outcome. -/
def recvEnd (e : PeerEntry) (s : State) : State :=
  if !fromTwin e s then peerAnswer e 1 6 s
  else
    let t := arg e.bytes 0 4
    let s := peerAnswer e 1 0 s
    let (s, r) :=
      if s.twin.areaLost then (s, 2)
      else
        match s.twin.rx with
        | some x => if x.step = t ∧ rxGood x (arg e.bytes 8 8) s then (slotWrite x.slot 0 x.header s, 0) else (s, 1)
        | none => (s, 1)
    peerToPhys 0x8013 e.src (leBytes 4 t ++ leBytes 1 r) (modTwin (fun w => { w with rx := none }) s)

/-- CKPT_ACK: the package keeps its GAUGES section of the step and reports to the lead; a lost area leaves it unprotected (R286). -/
def recvAck (e : PeerEntry) (s : State) : State :=
  if !fromTwin e s then peerAnswer e 1 6 s
  else
    let t := arg e.bytes 0 4
    let r := arg e.bytes 4 1
    let s := peerAnswer e 1 0 s
    if s.twin.inProg ≠ some t then s
    else
      reportDone t r (modTwin (fun w =>
        { w with gaugesCopy := if r = 0 then w.sent.map (fun g => (t, g)) else w.gaugesCopy, unprotected := w.unprotected || r == 2 }) s)

/-- CKPT_DONE at the lead: commit when every package reports 0, and not on any other result. -/
def recvDone (e : PeerEntry) (s : State) : State :=
  let t := arg e.bytes 0 4
  let r := arg e.bytes 4 1
  let s := peerAnswer e 1 0 s
  if logId s ≠ 0 || s.twin.inProg != some t then s
  else
    let l := s.twin.doneFrom.filter (fun d => d.1 != e.src) ++ [(e.src, r)]
    let s := modTwin (fun w => { w with doneFrom := l }) s
    if r ≠ 0 then sendCommit t 1 s else if l.length = jobSize s then sendCommit t 0 s else s

/-! ### Restores and copies (R294, R298) -/

/-- Stream the record of a slot to a package, the header given: sections by the header's LENGTH, the header last. -/
def streamRecord (dst slot : Nat) (h : Bytes) (s : State) : State :=
  sendSlotWrite dst slot 0 h (streamSlot dst slot 256 (slotRead slot 256 (field h 24 8 - 256) s) s)

/-- RESTORE_REQ: the holder streams the record back; with no valid record of the step it answers 0x06. -/
def recvRestore (e : PeerEntry) (s : State) : State :=
  let k := arg e.bytes 4 1
  if 1 < k then peerAnswer e 2 5 s
  else
    let h := slotRead k 0 256 s
    if headerValid h && field h 8 4 == arg e.bytes 0 4 && e.phys then streamRecord e.src k h (peerAnswer e 1 0 s)
    else peerAnswer e 1 6 s

/-- The header of a copy: LOGID and PHYSID rewritten, SUBST set, HDRCRC recomputed (R298). -/
def copyHeader (h : Bytes) (logid phys : Nat) : Bytes :=
  let b := h.take 12 ++ leBytes 2 logid ++ slice h 14 2 ++ leBytes 2 phys ++ leBytes 1 (field h 18 1 ||| 2) ++ slice h 19 233
  b ++ leBytes 4 (crc32c b)

/-- COPY_REQ: copy the record of a step to a new holder, for the package that asks (R298). -/
def recvCopy (e : PeerEntry) (s : State) : State :=
  let t := arg e.bytes 0 4
  let good := fun (k : Nat) => let h := slotRead k 0 256 s; headerValid h && field h 8 4 == t
  match [0, 1].find? good with
  | none => peerAnswer e 1 6 s
  | some k =>
    let (p, s) := if e.phys then (e.src, s) else let (w, s) := freshWord s; (w.toNat % 8192, s)
    streamRecord (arg e.bytes 6 2 % 8192) k (copyHeader (slotRead k 0 256 s) (arg e.bytes 4 2) p) (peerAnswer e 1 0 s)

/-! ### WRITE and WRACK (R263, R361, R364) -/

/-- Replace bytes of a header that is arriving. -/
def mergeHeader (old : Bytes) (o : Nat) (b : Bytes) : Bytes := (slice old 0 o ++ b ++ (slice old 0 256).drop (o + b.length)).take 256

/-- Whether a RESTORE from the twin is under way, whose record comes back by WRITEs. -/
def restoring (s : State) : Bool := (openOps 0x0202 s).any fun a => a.started && arg a.entry 4 1 == 0

/-- Bytes that arrive in a checkpoint slot: kept aside where they are the header of a record being received, else stored; an access to
a window that is not mapped is logged (R161). -/
def storeSlot (m : Msg) (slot o : Nat) (s : State) : State :=
  if restoring s && m.srcPhys && s.twin.phys == some m.src then s
  else
    let a := slotAddr slot o
    match accessCause .hub a 1 s with
    | some c => logAccess a .hub c s
    | none =>
      match s.twin.rx with
      | some x =>
        if x.slot = slot ∧ o < 256 then
          let s := modTwin (fun w => { w with rx := some { x with header := mergeHeader x.header o m.payload } }) s
          slotWrite slot (max o 256) (m.payload.drop (256 - o)) s
        else slotWrite slot o m.payload s
      | none => slotWrite slot o m.payload s

/-- Acknowledge a WRITE. -/
def ackWriteMsg (m : Msg) (s : State) : State :=
  if m.bcast then s
  else if m.srcPhys then sendMsg (physMsg 0x0C 2 m.src m.step m.ref m.offset [] s) s
  else sendMsg (jobMsg 0x0C 2 m.src m.step m.ref m.offset 0 [] s) s

/-- A WRITE: sent on if it is a broadcast, taken into its window, and acknowledged. -/
def takeWrite (p : FPort) (m : Msg) (s : State) : State :=
  let s := if m.bcast then bcastForward p m s else s
  let s := ackWriteMsg m s
  let e : PeerEntry := { port := p, src := m.src, phys := m.srcPhys, bcast := m.bcast, bytes := m.payload }
  match m.ref / 2 ^ 24 with
  | 0 => if m.offset = 0 then takePeer { e with bytes := slice m.payload 0 128 } s
         else { s with peer := { s.peer with completions := s.peer.completions ++ [e] } }
  | k + 1 => storeSlot m k (m.ref % 512 * 2 ^ 32 + m.offset) s

/-- The checkpoint area is lost with a port of the far tier (R286): neither slot holds a valid record any more, and a twin logs it. -/
def loseArea (f : Fin 2) (s : State) : State :=
  let s := slotWrite 1 0 (leBytes 256 0) (slotWrite 0 0 (leBytes 256 0) s)
  if s.twin.phys.isNone then s
  else logAccess (farBase f) .hub 8 (modTwin (fun t => { t with areaLost := true, rx := none }) s)

/-! ### The commands -/

/-- PAIR_REQ (R282). -/
def execPairReq (s : State) : Host.Outcome State Fault Refusal := .next (onPeer 0x8001 recvPair s)

/-- UNPAIR (R284). -/
def execUnpair (s : State) : Host.Outcome State Fault Refusal :=
  .next (onPeer 0x8002 (fun e s => if fromTwin e s then endPair (peerAnswer e 1 0 s) else peerAnswer e 1 6 s) s)

/-- CKPT_SCHED (R291). -/
def execCkptSched (s : State) : Host.Outcome State Fault Refusal := .next (onPeer 0x8010 recvSched s)

/-- CKPT_BEGIN (Table 11.4). -/
def execCkptBegin (s : State) : Host.Outcome State Fault Refusal := .next (onPeer 0x8011 recvBegin s)

/-- CKPT_END (Table 11.4). -/
def execCkptEnd (s : State) : Host.Outcome State Fault Refusal := .next (onPeer 0x8012 recvEnd s)

/-- CKPT_ACK (Table 11.4). -/
def execCkptAck (s : State) : Host.Outcome State Fault Refusal := .next (onPeer 0x8013 recvAck s)

/-- CKPT_DONE (Table 11.4). -/
def execCkptDone (s : State) : Host.Outcome State Fault Refusal := .next (onPeer 0x8014 recvDone s)

/-- CKPT_COMMIT (R292). -/
def execCkptCommit (s : State) : Host.Outcome State Fault Refusal :=
  .next (onPeer 0x8015 (fun e s => applyCommit (arg e.bytes 0 4) (arg e.bytes 4 1) s) s)

/-- CKPT_COMMIT_TIMEOUT (Table 11.4): at the lead the new origin plus 1 ms has passed; another package waits for the broadcast's way
too, and keeps its rollback point when no commit arrives (R292). -/
def execCkptCommitTimeout (s : State) : Host.Outcome State Fault Refusal :=
  .next (
    match s.twin.inProg with
    | none => s
    | some t =>
      if logId s = 0 then (if s.twin.newOrigin + 1000000 ≤ tideNow s then sendCommit t 1 s else s)
      else if s.twin.newOrigin + 1000000 + noticeBound s ≤ tideNow s then applyCommit t 1 s
      else s)

/-- FAIL_REPORT (R297). -/
def execFailReport (s : State) : Host.Outcome State Fault Refusal :=
  .next (onPeer 0x8020 (fun e s => receiveFail (arg e.bytes 0 2) (arg e.bytes 2 1) (peerAnswer e 1 0 s)) s)

/-- RESTORE_REQ (R294). -/
def execRestoreReq (s : State) : Host.Outcome State Fault Refusal := .next (onPeer 0x8030 recvRestore s)

/-- COPY_REQ (R298). -/
def execCopyReq (s : State) : Host.Outcome State Fault Refusal := .next (onPeer 0x8031 recvCopy s)

/-- PEER_COMPLETION (R361): the completion entry at the front of queue 7 is taken. -/
def execPeerCompletion (s : State) : Host.Outcome State Fault Refusal :=
  .next { s with peer := { s.peer with completions := s.peer.completions.drop 1 } }

/-- PAIR_TIMEOUT (R282). -/
def execPairTimeout (s : State) : Host.Outcome State Fault Refusal :=
  .next (
    match pairOp s with
    | some a => if a.deadline ≤ tideNow s then endOp 0x0203 (doneNow 6 0 s) s else s
    | none => s)

/-- PAIR_REQ_HOLD_EXPIRY (R282). -/
def execPairReqHoldExpiry (s : State) : Host.Outcome State Fault Refusal :=
  .next (modTwin (fun t => { t with held := t.held.filter fun h => decide (s.now < h.since + 1000000000) }) s)

/-- WRITE (R263, R285, R364). -/
def execWrite (p : FPort) (sub : Bool) (s : State) : Host.Outcome State Fault Refusal := .next (onMsg p 4 0x0B sub (takeWrite p) s)

/-- WRACK (Table 9.4): it is taken from its sub-channel. -/
def execWrack (p : FPort) (sub : Bool) (s : State) : Host.Outcome State Fault Refusal := .next (onMsg p 2 0x0C sub (fun _ s => s) s)

/-- FARTIER_LINK_DOWN (R193, R286): the window is unmapped, a running image that uses the port fails the package, and the checkpoint
area of a twin is lost. -/
def execFarTierLinkDown (f : Fin 2) (s : State) : Host.Outcome State Fault Refusal :=
  .next (
    if !s.far[f].linkUp then s
    else
      let s := sweepRequests (modFar f (fun k => { k with linkUp := false, st := 0 }) s)
      let s := loseArea f s
      if running s && ((s.job.image.map fun im => bit im.mapping.farports f.val).getD false) then failHere 3 s else s)

end Sys2Proof.Machine
end

