-- ==== Sys2Proof/Machine/Boundary.lean ====
section
/-! DEFINITION. The step boundary: starts and stops of the job, checkpoints, handovers, window changes, mark-outs (R103, R151, R152, R159,
R160, R207, R209, R212, R220, R291 to R293, R300), and the inspection walk (R299 to R301, Table 11.7). -/

namespace Sys2Proof.Machine

/-! ### Cores at a boundary (R159, R160, R300) -/

/-- Whether a task runs on a logical core. -/
def onCore (d lc : Nat) (t : TaskRec) : Bool := t.stream != 2 && unitDie t.unit == d && unitCore t.unit == lc

/-- Whether a step before the current one is being replayed after a breach: a breach notice of it is in force, and not every task of it has
committed (R142). -/
def replaying (s : State) : Bool :=
  (openSteps s).any fun k => decide (k < s.job.cstep) && !stepCommitted k s && s.exec.notices.any fun n => n.breach && n.step == k

/-- Whether every task of a logical core has committed in the steps before the current one and none has started in it (R159); while a
breach is being replayed, whether every task of the step has (R142). -/
def coreQuiet (d lc : Nat) (s : State) : Bool :=
  !running s || (!replaying s && ((tasks s).filter (onCore d lc)).all fun t =>
    (runOf t.taskid s.job.cstep s).isNone &&
      (openSteps s).all fun k => k == s.job.cstep || ((runOf t.taskid k s).map (·.st)) == some .committed)

/-- Whether no task of a logical core is at work. -/
def coreIdle (d lc : Nat) (s : State) : Bool :=
  ((tasks s).filter (onCore d lc)).all fun t => !s.exec.runs.any fun r => r.task == t.taskid && r.st != .discarded && r.endT.isNone

/-- Return an inspected core to its sequence. Where a failed core of its die waits for the relief core, whose own tasks cannot commit before,
it is enough that no task is at work (R160). -/
def returnCore (s : State) : State :=
  match s.inspect.back with
  | some (d, lc, c) =>
    if coreQuiet d lc s || ((s.inspect.wait.any fun w => w.1 == d) && coreIdle d lc s) then
      { handTo (Fin.ofNat 4 d) lc c s with inspect := { s.inspect with back := none } }
    else s
  | none => s

/-- A failed core no longer waits. -/
def endWait (w : Nat × Nat) (s : State) : State := { s with inspect := { s.inspect with wait := s.inspect.wait.erase w } }

/-- The takeover of a failed core that waited (R160), once the relief core of its die has come back: by the relief core; by the next one
where it is still to be enabled; and without one the package fails. -/
def takeOne (s : State) (w : Nat × Nat) : State :=
  let d := Fin.ofNat 4 w.1
  if s.inspect.back.any fun b => b.1 == w.1 then s
  else
    match s.dies[d].relief with
    | some r => modDie d (fun k => { k with relief := none, pendingRelief := true }) (handTo d w.2 r (endWait w s))
    | none => if s.dies[d].pendingRelief then s else failHere 4 (endWait w s)

/-- The takeovers that can take place. -/
def takeOver (s : State) : State := s.inspect.wait.foldl takeOne s

/-- Enable a new relief core on the dies that wait for one (R160). -/
def enableReliefs (s : State) : State :=
  (List.finRange 4).foldl (fun s d => if s.dies[d].pendingRelief then enableRelief d s else s) s

/-- Whether the relief core of a die is free for a handover. -/
def reliefFree (d : Nat) (s : State) : Option Nat :=
  let k := s.dies[Fin.ofNat 4 d]
  match k.relief with
  | some r => if k.pendingRelief || (logicalOf (Fin.ofNat 4 d) r s).isSome || s.inspect.back.isSome then none else some r
  | none => none

/-- The handover of a scheduled core whose slot is due (R300); without a relief core its slot is skipped. -/
def enterSlot (s : State) : State :=
  match s.inspect.due with
  | some (d, c) =>
    let drop := { s with inspect := { s.inspect with due := none } }
    match reliefFree d s, logicalOf (Fin.ofNat 4 d) c s with
    | some r, some lc =>
      if coreQuiet d lc s then
        { handTo (Fin.ofNat 4 d) lc r s with
          inspect := { s.inspect with due := none, slot := some (d, c), lc := some lc, since := s.now } }
      else s
    | _, _ => drop
  | none => s

/-- Whether handovers can take place: within the window of 24 µs that a step boundary has (R159), or later while a breach replay delays
them (R142). -/
def handoverTime (s : State) : Bool := !running s || decide (tideNow s < origin s + 24000) || replaying s

/-- The handovers of a boundary: cores that return, takeovers, and the relief cores that follow map-outs, in this order, so that a core
that failed while its relief core was spent finds the new one (R159, R160). -/
def handovers (s : State) : State := enterSlot (takeOver (enableReliefs (takeOver (returnCore s))))

/-- The handovers that were due at the boundary of the current step and had to wait. -/
def lateHandovers (s : State) : State := if handoverTime s then enterSlot (takeOver (returnCore s)) else s

/-! ### The log of a committed step (R103) -/

/-- The words of event 0x0023. -/
def logGauge (s : State) (g : Nat × Nat × Nat × Nat × Nat) : State :=
  logAt (g.1 / 8) 0x0023 (unitWord 0 0 0) (g.1 % 8) g.2.1 g.2.2.1 (min g.2.2.2.1 (2 ^ 32 - 1) * 2 ^ 32 + min g.2.2.2.2 (2 ^ 32 - 1)) s

/-- Log the increments of the steps that have committed. -/
def logSteps (s : State) : State :=
  let done := fun (g : Nat × Nat × Nat × Nat × Nat) => decide (g.1 / 8 ≤ s.job.cstep) && stepCommitted (g.1 / 8) s
  let l := s.gauges.step.filter done
  l.foldl logGauge { s with gauges := { s.gauges with step := s.gauges.step.filter fun g => !done g } }

/-! ### Start and stop (R152, R292, R293) -/

/-- The first checkpoint after a start (R293). -/
def firstCkpt (t0 : Nat) (s : State) : Option Nat :=
  if logId s ≠ 0 then none
  else if s.twin.changed then some (t0 + min (interval s) 120000000000)
  else some (s.twin.nextCkpt.getD (t0 + interval s))

/-- The start of a run at its first origin (R152). What earlier runs have settled stays: scales, the loss-spike history with the verdicts
that have entered it, berm records, channel lists, and the counts of committed steps. -/
def startRun (t0 : Nat) (s : State) : State :=
  let e := s.exec
  let k := s.job.nextFirst
  let s := { s with
    exec := { Exec.reset with history := e.history, scales := e.scales, bermRecs := e.bermRecs, seedFlags := e.seedFlags, lists := e.lists,
                              overs := e.overs.filter (fun o => decide (o.1 < k)), nfLogged := e.nfLogged.filter (fun x => decide (k ≤ x.1)),
                              verdicts := e.verdicts.filter (fun v => v.done && decide (k ≤ v.step)), doneTo := k },
    job := { s.job with cstep := s.job.nextFirst, ts := s.job.nextFirst, t0 := t0, shift := 0, startAt := none, stopping := false,
                        abandoned := false },
    twin := { s.twin with runStart := t0, nextCkpt := firstCkpt t0 s } }
  endWhere (fun a => entOp a.entry == 0x0102 && a.started) (doneNow 0 0 s) (setJob .running s)

/-- The end of a run by JOB_STOP once the last step `t` has committed: RESULT is that step, and a start resumes at step `first`. A CKPT_STOP
whose origin will not come now ends without a checkpoint (R292). -/
def finishStop (t first : Nat) (s : State) : State :=
  let s := endRunTime s
  let s := { s with job := { s.job with stopping := false, nextFirst := first, abandoned := false } }
  let s := abandonTasks (setJob .stopped s)
  endOp 0x0103 (doneNow 0 t s) (endOp 0x0201 (doneNow 0x0A 0 s) s)

/-- The end of a run by JOB_STOP while a step stands abandoned: RESULT is the step before it, modulo 2^32, and a start resumes at the
abandoned step (R152; log entry 21). -/
def stopAbandoned (s : State) : State := finishStop ((s.job.cstep + 0xFFFFFFFF) % 2 ^ 32) s.job.cstep s

/-- Whether the origin at which a JOB_STOP takes effect has passed and its last step, and every step before it, has committed. -/
def stopDue (s : State) : Bool :=
  running s && s.job.stopping && s.twin.inProg.isNone && decide (nextOrigin s ≤ tideNow s) &&
    (openSteps s).all fun k => stepCommitted k s

/-- Finish a JOB_STOP that is due. -/
def tryFinish (s : State) : State := if stopDue s then finishStop s.job.cstep (s.job.cstep + 1) s else s

/-! ### The boundary of a running job -/

/-- Drop what belongs to steps that are over, the previous step aside. -/
def prune (s : State) : State :=
  let k := min s.exec.doneTo (s.job.cstep - 1)
  { s with exec := { s.exec with
      origins := s.exec.origins.filter fun x => decide (k ≤ x.1), overs := s.exec.overs.filter fun o => decide (k ≤ o.1),
      attempts := s.exec.attempts.filter fun x => decide (k ≤ x.1), prodFails := s.exec.prodFails.filter fun x => decide (k ≤ x.2.1),
      nfLogged := s.exec.nfLogged.filter fun x => decide (k ≤ x.1),
      runs := s.exec.runs.filter fun r => decide (k ≤ r.step), reds := s.exec.reds.filter fun r => decide (k ≤ r.step),
      notices := s.exec.notices.filter fun n => decide (k ≤ n.step), exch := s.exec.exch.filter fun x => decide (k ≤ x.step),
      verdicts := s.exec.verdicts.filter fun v => decide (k ≤ v.step) } }

/-- The levee window changes of R212, and the commands that waited for them. -/
def windowsNow (s : State) : State :=
  endWhere (fun a => entOp a.entry == 0x0303 && a.aux != 0) (doneNow 0 0 s) (applyChanges s)

/-- What every boundary does: window changes, bundle tests, port halves, announced losses, handovers, relief cores; the losses of
lock of the step are over (R312). -/
def boundaryActions (s : State) : State :=
  let s := { s with plls := s.plls.map fun k => { k with losses := 0 } }
  let s := windowsNow s
  let s := startTests s
  let s := fports.foldl (fun s p => moveHalf p s) s
  let s := (List.finRange 41).foldl (fun s l => belowNotice l s) s
  handovers s

/-- The lead schedules the checkpoint of the first step whose origin lies I after the last stop (R293). -/
def leadSchedule (s : State) : State :=
  match s.twin.nextCkpt with
  | some n =>
    if logId s = 0 ∧ n ≤ origin s ∧ s.twin.inProg.isNone ∧ s.twin.sched.isEmpty then
      schedule s.job.cstep (modTwin (fun w => { w with nextCkpt := none }) s)
    else s
  | none => s

/-- A step origin has come: the next step becomes current, after a checkpoint stop where one is scheduled; a JOB_STOP keeps it from
starting (R151, R152, R291). -/
def newStep (im : JobImage) (s : State) : State :=
  let t := s.job.cstep
  let o := nextOrigin s
  let c := if s.twin.sched.contains t then stopTime s else 0
  let ck := fun (s : State) => if c = 0 then s else ckptStart im t (o + c) s
  if s.job.stopping then ckptStream (ck s)
  else
    let s := { s with exec := { s.exec with origins := s.exec.origins ++ [(t, origin s)] },
                      job := { s.job with cstep := t + 1, shift := s.job.shift + slipSum t s + c } }
    leadSchedule (boundaryActions (prune (ckptStream (ck (logSteps s)))))

/-- Whether a step origin is due. -/
def originDue (s : State) : Bool :=
  running s && !s.exec.voided && !s.job.abandoned && decide (nextOrigin s ≤ tideNow s)

/-- STEP_BOUNDARY: a start that is due, a checkpoint that can go on, a stop that can end, or the next step. -/
def stepBoundary (s : State) : State :=
  match s.job.startAt with
  | some t0 => if t0 ≤ tideNow s ∧ !running s then boundaryActions (startRun t0 s) else s
  | none =>
    match s.job.image with
    | none => windowsNow s
    | some im =>
      if !running s then windowsNow s
      else
        let s := lateHandovers (logSteps (ckptStream (closeSteps s)))
        if stopDue s then finishStop s.job.cstep (s.job.cstep + 1) s else if originDue s then newStep im s else s

/-- STEP_BOUNDARY (R151). -/
def execStepBoundary (s : State) : Host.Outcome State Fault Refusal := .next (stepBoundary s)

/-! ### The inspection walk (R299 to R301) -/

/-- The cores to test: those that are not mapped out. -/
def coresToTest (s : State) : Nat := 4 * 1088 - (s.cores.filter (·.mapped)).length

/-- The interval between slot starts in ns: the sweep period divided by the number of cores to test. -/
def slotSpacing (s : State) : Nat := s.power.inspectHours * 3600000000000 / max 1 (coresToTest s)

/-- The next core of a die in the walk: ascending physical index, from the one tested last. -/
def nextCore (d : Fin 4) (s : State) : Option Nat :=
  let ok := fun (c : Nat) => !(coreOf d.val c s).mapped
  let from_ := match s.inspect.lastCore[d] with
    | some c => c + 1
    | none => 0
  (((List.range 1088).drop from_) ++ (List.range 1088).take from_).find? ok

/-- Whether the walk is at work: the firmware runs, the period is not 0, no slot is open, and the spacing has passed. -/
def slotDue (s : State) : Bool :=
  s.power.phase == .ready && s.power.inspectHours != 0 && s.inspect.slot.isNone && s.inspect.due.isNone &&
    decide (s.inspect.lastStart + slotSpacing s ≤ s.now)

/-- INSPECTION_SLOT_START (R299, R300): a scheduled core of a running job waits for its handover, every other one is tested at once. On a
die whose new relief core is still to be enabled the walk is suspended (R160). -/
def startSlot (s : State) : State :=
  let d := Fin.ofNat 4 s.inspect.nextDie
  let i := { s.inspect with nextDie := (s.inspect.nextDie + 1) % 4, lastStart := s.now }
  match nextCore d s with
  | none => { s with inspect := i }
  | some c =>
    let i := { i with lastCore := i.lastCore.set d (some c) }
    if s.dies[d].inReset then { s with inspect := i }
    else if s.dies[d].pendingRelief then { s with inspect := { i with lastCore := s.inspect.lastCore } }
    else if running s && (logicalOf d c s).isSome && s.dies[d].relief != some c then
      if (reliefFree d.val s).isNone then { s with inspect := i } else { s with inspect := { i with due := some (d.val, c) } }
    else { s with inspect := { i with slot := some (d.val, c), since := s.now, lc := none } }

/-- The outcome of a slot: the core returns at the next boundary, or is mapped out and the relief core keeps its sequence (R301). -/
def endSlot (d c : Nat) (failed : Bool) (s : State) : State :=
  let lc := s.inspect.lc
  let s := { s with inspect := { s.inspect with slot := none, lc := none } }
  match lc, failed with
  | some l, false => { s with inspect := { s.inspect with back := some (d, l, c) } }
  | none, false => s
  | none, true => mapOut (Fin.ofNat 4 d) c 3 s
  | some _, true =>
    let r := s.dies[Fin.ofNat 4 d].relief.getD 0
    let s := modCore d c (fun k => { k with mapped := true }) s
    let s := modDie (Fin.ofNat 4 d) (fun k => { k with relief := none, pendingRelief := true }) s
    logEv 0x0021 (unitWord 1 d c) d c 1 r (ledgerAppend 0x01 3 d c (leBytes 4 r) s)

/-- INSPECTION_SLOT_START (R299, R300). -/
def execInspectionSlotStart (s : State) : Host.Outcome State Fault Refusal := .next (if slotDue s then startSlot s else s)

/-- INSPECTION_SLOT_END (R299 to R301): after 180 ms of tests. -/
def execInspectionSlotEnd (result : ScanResult) (s : State) : Host.Outcome State Fault Refusal :=
  .next (
    match s.inspect.slot with
    | some (d, c) => if s.inspect.since + 180000000 ≤ s.now then endSlot d c (decide (result.tests ≠ 0)) s else s
    | none => s)

end Sys2Proof.Machine
end

