-- ==== Sys2Proof/Machine/Sync.lean ====
section
/-! DEFINITION. The tide clock's exchanges, parents and roots (R248 to R250, R316, R360). -/

namespace Sys2Proof.Machine

/-! ### SYNC messages (R360) -/

/-- The root that a SYNC message names: the one followed, or while unsynchronised the lowest ID heard of. -/
def syncRoot (s : State) : Nat := if s.tide.tsync then s.tide.root else min (physId s) s.tide.lowest

/-- The payload of a SYNC message (Table 9.11). -/
def syncBytes (t1 t2 t3 : Nat) (s : State) : Bytes :=
  leBytes 8 t1 ++ leBytes 8 t2 ++ leBytes 8 t3 ++ leBytes 1 (b2n s.tide.tsync) ++
    leBytes 1 (if s.tide.tsync then s.tide.hops else 0xFF) ++ leBytes 2 (syncRoot s) ++ leBytes 4 0

/-- A SYNC message to the neighbour at a port: REF 0 a request, 1 a response. -/
def sendSync (p : FPort) (ref t1 t2 t3 : Nat) (s : State) : State :=
  let dst := ((fabOf p s).neigh.map (·.phys)).getD 0
  sendOn p { physMsg 0x0A 2 dst 0 ref 0 (syncBytes t1 t2 t3 s) s with axis := (fportNo p).val / 2 } s

/-- Change the tide clock. -/
def modTide (f : Tide → Tide) (s : State) : State := { s with tide := f s.tide }

/-- Remember what a SYNC message told of its sender; an unsynchronised package keeps the lowest ID heard of (R316). -/
def hearSync (p : FPort) (m : Msg) (s : State) : State :=
  let b := m.payload
  let r : SyncRec := { tsync := bit (field b 24 1) 0, hops := field b 25 1, root := field b 26 2 }
  let s := modFab p (fun f => { f with sync := some r }) s
  modTide (fun t => { t with lowest := min t.lowest r.root }) s

/-! ### Parents and roots (R249, R250, R316) -/

/-- The physical ID of the neighbour at a port, or 0xFFFF. -/
def physAt (p : Option FPort) (s : State) : Nat := ((p.bind fun q => (fabOf q s).neigh).map (·.phys)).getD 0xFFFF

/-- A neighbour that can be a parent: its port up, itself synchronised. -/
def syncAt (p : FPort) (s : State) : Option SyncRec :=
  if (fabOf p s).up then
    match (fabOf p s).sync with
    | some r => if r.tsync then some r else none
    | none => none
  else none

/-- Fewer hops to the root, then the lower physical ID (R249, R316). -/
def nearer (a b : SyncRec × Nat) : Bool := decide (a.1.hops < b.1.hops) || (a.1.hops == b.1.hops && decide (a.2 < b.2))

/-- Whether a neighbour is a better parent than another: the lower root, since the root is the lowest ID (R249), then the nearer. A package
that loads its count for the first time looks at the hops and IDs alone (R316). -/
def better (first : Bool) (a b : SyncRec × Nat) : Bool :=
  if first then nearer a b else decide (a.1.root < b.1.root) || (a.1.root == b.1.root && nearer a b)

/-- The best parent among the ports that satisfy a test. -/
def bestParent (ok : FPort → Bool) (s : State) : Option FPort :=
  fports.foldl (fun best p =>
    match ok p, syncAt p s with
    | true, some r =>
      match best with
      | none => some p
      | some q =>
        match syncAt q s with
        | some r' => if better (!s.tide.loaded) (r, physAt (some p) s) (r', physAt (some q) s) then some p else best
        | none => some p
    | _, _ => best) none

/-- Log that the clock is unsynchronised, or that the root changed (0x0034). -/
def logTide (old new : Option FPort) (s : State) : State :=
  logEv 0x0034 0 (physAt old s) (physAt new s) s.tide.root (ofSigned 64 s.tide.offset) s

/-- Become root (R249, R316): no parent, no hops, synchronised; the count goes on. A package that has followed no root before changes
none. -/
def becomeRoot (s : State) : State :=
  let old := s.tide.parent
  let id := physId s
  (if s.tide.loaded then logTide old none else fun s => s)
    (modTide (fun t => { t with tsync := true, parent := none, root := id, hops := 0, lowest := min t.lowest id, loaded := true, slew := 0,
                                offset := 0, lastValid := s.now }) s)

/-- The failure of an unsynchronised package whose job runs (R250), the last event logged being the loss. -/
def unsyncFailure (s : State) : State := if running s then failHere 4 s else s

/-! ### Exchanges (R249, R316) -/

/-- A signed 64-bit difference. -/
def diff64 (a b : Nat) : Int := toSigned 64 (ofSigned 64 ((a : Int) - b))

/-- The offset of a response that arrives now: ((t2 − t1) − (t4 − t3)) / 2. -/
def syncOffset (b : Bytes) (t4 : Nat) : Int := Int.tdiv (diff64 (field b 8 8) (field b 0 8) - diff64 t4 (field b 16 8)) 2

/-- Whether an offset lies within ±25 ns. -/
def nearRoot (o : Int) : Bool := decide (-25 ≤ o ∧ o ≤ 25)

/-- Follow a synchronised neighbour with an offset. `load` sets the count once (R316); else the clock slews, and is synchronised when the
offset lies within ±25 ns, or keeps its state where `keep`. -/
def follow (p : FPort) (r : SyncRec) (o : Int) (load keep : Bool) (s : State) : State :=
  let old := s.tide.parent
  let was := s.tide.tsync
  let root := s.tide.root
  let s := modTide (fun t =>
    { t with parent := some p, root := r.root, hops := r.hops + 1, offset := o, lastValid := s.now, loaded := true,
             count := if load then BitVec.ofInt 64 (t.count.toInt + o) else t.count, slew := if load then 0 else o,
             tsync := load || nearRoot o || (keep && t.tsync) }) s
  let s := if was && root ≠ r.root then logTide old (some p) s else s
  if was && !s.tide.tsync then unsyncFailure (if root = r.root then logTide old (some p) s else s) else s

/-- A SYNC response (R249, R316). It counts for the parent, for a neighbour that is a better one, and, while unsynchronised, for the best
synchronised neighbour. -/
def takeResponse (p : FPort) (m : Msg) (s : State) : State :=
  let t4 := m.at_
  let s := hearSync p m s
  let o := syncOffset m.payload t4
  match syncAt p s with
  | none => s
  | some r =>
    let t := s.tide
    if !t.tsync then
      if bestParent (fun _ => true) s = some p then follow p r o (!t.loaded) false s else s
    else if t.parent = some p then follow p r o false (decide (r.root = t.root)) s
    else if r.root < t.root then follow p r o false false s
    else if r.root = t.root ∧ bestParent (fun _ => true) s = some p ∧ t.parent.isSome then follow p r o false true s
    else s

/-- Whether the exchanges have begun: from tR on (R316). They go on during a warm or cold reset, which keeps the clock (Table 12.7). -/
def syncing (s : State) : Bool := s.tide.running && (s.power.phase == .ready || s.power.pend.isSome)

/-- A SYNC request is answered (R360): T1 copied, T2 its arrival, T3 the response's departure. -/
def takeRequest (p : FPort) (m : Msg) (s : State) : State :=
  let s := hearSync p m s
  if syncing s then sendSync p 1 (field m.payload 0 8) m.at_ (tideNow s) s else s

/-- The ports on which a request goes out: that of the parent, or without one every port that is up (log entry 29). -/
def syncPorts (s : State) : List FPort :=
  match s.tide.tsync, s.tide.parent with
  | true, some p => [p]
  | _, _ => fports.filter fun p => (fabOf p s).up

/-- The selection of a new parent or root after 2 ms without a valid exchange (R250). A package is root when no other synchronised
neighbour has a lower root and its parent's port is down; else it marks its clock unsynchronised, and a running job fails. During a reset,
whose ports retrain, the clock falls out of synchronism and waits for them (Table 12.7). -/
def loseSync (s : State) : State :=
  let old := s.tide.parent
  let others := fun (p : FPort) => old != some p && ((syncAt p s).map fun r => decide (r.root < physId s)) == some true
  match bestParent others s with
  | some p =>
    let r := (syncAt p s).getD { tsync := false, hops := 0, root := 0 }
    let s := modTide (fun t => { t with tsync := false, parent := some p, root := r.root, hops := r.hops + 1 }) s
    unsyncFailure (logTide old (some p) s)
  | none =>
    if (old.any fun p => (fabOf p s).up) || s.power.pend.isSome then unsyncFailure (logTide old none (modTide (fun t => { t with tsync := false, parent := none }) s))
    else becomeRoot s

/-! ### The commands -/

/-- SYNC_PERIOD (R249): every 1 ms. -/
def execSyncPeriod (s : State) : Host.Outcome State Fault Refusal :=
  .next (
    if syncing s && decide (s.tide.lastReq + 1000000 ≤ s.now) then
      let s := modTide (fun t => { t with lastReq := s.now }) s
      (syncPorts s).foldl (fun s p => sendSync p 0 (tideNow s) 0 0 s) s
    else s)

/-- SYNC_REQUEST (R360). -/
def execSyncRequest (p : FPort) (sub : Bool) (s : State) : Host.Outcome State Fault Refusal :=
  .next (if ((frontMsg p 2 0x0A sub s).map (·.ref)) = some 0 then onMsg p 2 0x0A sub (takeRequest p) s else s)

/-- SYNC_RESPONSE (R249). -/
def execSyncResponse (p : FPort) (sub : Bool) (s : State) : Host.Outcome State Fault Refusal :=
  .next (
    if ((frontMsg p 2 0x0A sub s).map (·.ref)) = some 1 then
      onMsg p 2 0x0A sub (fun m s => if syncing s then takeResponse p m s else hearSync p m s) s
    else s)

/-- TIDE_UNSYNC (R250): 2 ms without a valid exchange; a root counts as having one. -/
def execTideUnsync (s : State) : Host.Outcome State Fault Refusal :=
  .next (if s.tide.tsync && s.tide.parent.isSome && decide (s.tide.lastValid + 2000000 ≤ s.now) then loseSync s else s)

/-- ROOT_ELECTION (R316): 40 ms after tR, with no lower ID heard of and no synchronised neighbour. -/
def execRootElection (s : State) : Host.Outcome State Fault Refusal :=
  .next (
    if syncing s && !s.tide.tsync && !s.tide.loaded && decide (s.tide.tR + 40000000 ≤ s.now) && decide (physId s ≤ s.tide.lowest) &&
        fports.all fun p => (syncAt p s).isNone then becomeRoot s
    else s)

end Sys2Proof.Machine
end

