-- ==== Sys2Proof/Machine/Wear.lean ====
section
/-! DEFINITION. Settlement gauges, their history in flash, and the wear report (R304 to R306, Tables 11.10 and 11.11). -/

namespace Sys2Proof.Machine

/-! ### Powered-on time (R304, R305) -/

/-- The powered-on time in ns: the hours that flash held at power-up, and the time since. -/
def powered (s : State) : Nat :=
  s.flash.poweredNs + (match s.power.phase with
    | .off => 0
    | _ => s.now - s.power.tP)

/-- An hour in ns. -/
def hourNs : Nat := 3600000000000

/-- Powered-on hours. -/
def hoursOn (s : State) : Nat := powered s / hourNs

/-- The day that has begun, days since first boot counted from 0. -/
def dayOn (s : State) : Nat := powered s / (24 * hourNs)

/-- The copy of the settlement history with the higher generation (R305). -/
def settleBest (f : Flash) : Settle := if f.settleA.gen < f.settleB.gen then f.settleB else f.settleA

/-- The daily slots of both copies, one for each day. -/
def settleDays (f : Flash) : List DaySlot :=
  f.settleA.days ++ f.settleB.days.filter fun x => !f.settleA.days.any fun y => y.day == x.day

/-! ### Samples (R304) -/

/-- Replace or add the value of a gauge and unit, in the order of the wear report: rows of Table 11.10, then units. -/
def putValue (g u : Nat) (v : F32) : List (Nat × Nat × F32) → List (Nat × Nat × F32)
  | [] => [(g, u, v)]
  | x :: r => if x.1 = g ∧ x.2.1 = u then (g, u, v) :: r
              else if g < x.1 ∨ (g = x.1 ∧ u < x.2.1) then (g, u, v) :: x :: r
              else x :: putValue g u v r

/-- The value of a gauge and unit in a list. -/
def valueOf (g u : Nat) (l : List (Nat × Nat × F32)) : Option F32 := (l.find? fun x => x.1 == g && x.2.1 == u).map (·.2.2)

/-- The spare rows of the worst bank of a stack that have been used, in % of 16. -/
def worstBank (i : Nat) (s : State) : Nat :=
  let rs := (inForce (ledgerUnion s.flash)).filter fun r => r.kind == 0x20 && r.index == i
  ((rs.map fun r => (rs.filter fun q => q.sub / 2 ^ 15 == r.sub / 2 ^ 15).length).foldl max 0) * 100 / 16

/-- The value of a sample: what the package counts itself for corrections, repairs and spare cores, and else what was measured. -/
def sampleValue (g unit : Nat) (v : F32) (s : State) : F32 :=
  match g with
  | 3 => if unit < 32 then toFp32 (s.memStacks[Fin.ofNat 32 unit].corrected : Int) 0 else v
  | 4 => if unit < 32 then toFp32 (worstBank unit s : Int) 0 else v
  | 5 => if unit < 4 then toFp32 (s.dies[Fin.ofNat 4 unit].spares : Int) 0 else v
  | _ => v

/-- Take a sample; the first one of a gauge and unit is its first-boot value (R304). -/
def sample (g unit : Nat) (v : F32) (s : State) : State :=
  let v := sampleValue g unit v s
  let ref := fun (c : Settle) => if (valueOf g unit c.refs).isSome then c else { c with refs := putValue g unit v c.refs }
  { s with flash := { s.flash with current := putValue g unit v s.flash.current, settleA := ref s.flash.settleA, settleB := ref s.flash.settleB } }

/-- Rewrite the headers of both copies with the current hours. -/
def putHours (s : State) : State :=
  { s with flash := { s.flash with settleA := { s.flash.settleA with hours := hoursOn s }, settleB := { s.flash.settleB with hours := hoursOn s } } }

/-- Write the slot of the day that has ended into both copies, and rewrite the headers with a higher generation (R305). -/
def putDay (s : State) : State :=
  let f := s.flash
  let slot : DaySlot := { day := dayOn s, values := f.current }
  let g := max f.settleA.gen f.settleB.gen + 1
  let put := fun (c : Settle) => { c with gen := g, hours := hoursOn s, days := (c.days ++ [slot]).drop (c.days.length + 1 - 365) }
  let s := { s with flash := { f with settleA := put f.settleA, settleB := put f.settleB } }
  (List.finRange 32).foldl (fun s i => modStack i (fun st => { st with corrected := 0 }) s) s

/-! ### Prediction (R306) -/

/-- The limits of Table 11.10, and whether a gauge approaches its limit from below. -/
def gaugeLimit : Nat → Nat × Bool
  | 0 => (6, true)
  | 1 => (25, false)
  | 2 => (15, false)
  | 3 => (10000, true)
  | 4 => (75, true)
  | 5 => (8, false)
  | _ => (1, false)

/-- The daily values of the last 90 days of a gauge and unit, as day number and value in units of 2^−20. -/
def lastDays (g u : Nat) (s : State) : List (Int × Int) :=
  let d := dayOn s
  (settleDays s.flash).filterMap fun x =>
    if d ≤ x.day + 90 then (valueOf g u x.values).map fun v => ((x.day : Int), rneF v 20) else none

/-- Months, in tenths, to reach a distance at a rate: the distance times `den` over `rate`, at 24 h a day and 730 h a month; at most
600 months. -/
def tenths (dist rate den : Int) : Nat :=
  if rate ≤ 0 then 6000 else if dist ≤ 0 then 0 else min 6000 ((dist * den * 240) / (rate * 730)).toNat

/-- A prediction: slope numerator and denominator (value in 2^−20 per day), and the median, low and high in tenths of a month. -/
structure Fit where
  num : Int
  den : Int
  med : Nat
  lo : Nat
  hi : Nat

/-- The least-squares line through the daily values, and the times at which it, and the lines through the same mean point with the
slope moved by two standard errors, reach the limit (R306). -/
def fitGauge (g u : Nat) (s : State) : Fit :=
  let ps := lastDays g u s
  let n : Int := ps.length
  if n < 14 then { num := 0, den := 1, med := 6000, lo := 6000, hi := 6000 }
  else
    let sx := (ps.map (·.1)).sum
    let sy := (ps.map (·.2)).sum
    let d := n * (ps.map fun p => p.1 * p.1).sum - sx * sx
    let b := n * (ps.map fun p => p.1 * p.2).sum - sx * sy
    let syy := n * (ps.map fun p => p.2 * p.2).sum - sy * sy
    let se2 := (syy * d - b * b) / (n - 2)
    let e := 2 * (isqrt se2.toNat : Int)
    let (lim, up) := gaugeLimit g
    let sg : Int := if up then 1 else -1
    let x : Int := dayOn s
    let at_ := fun (slope : Int) =>
      tenths (sg * (n * d * ((lim : Int) * 2 ^ 20) - (sy * d + slope * (n * x - sx)))) (sg * slope * n) 1
    { num := b, den := d, med := at_ b, lo := min (at_ (b + e)) (at_ (b - e)), hi := max (at_ (b + e)) (at_ (b - e)) }

/-- The gauge and unit pairs of the report, in order. -/
def wearUnits (s : State) : List (Nat × Nat × F32) := s.flash.current

/-- An entry of the wear report (Table 11.11). -/
def wearEntry (x : Nat × Nat × F32) (f : Fit) : Bytes :=
  leBytes 1 x.1 ++ leBytes 1 0 ++ leBytes 2 x.2.1 ++ leBytes 4 x.2.2.toNat ++ leBytes 4 (toFp32 ((gaugeLimit x.1).1 : Int) 0).toNat ++
    leBytes 4 (fdiv (toFp32 (f.num * 1000) (-20)) (toFp32 (f.den * 24) 0)).toNat ++ leBytes 2 f.med ++ leBytes 2 f.lo ++ leBytes 2 f.hi ++
    leBytes 10 0

/-- The wear report: its header, with the smallest median and bounds over all gauges, and its entries. -/
def wearReport (s : State) : Bytes :=
  let es := (wearUnits s).map fun x => (x, fitGauge x.1 x.2.1 s)
  let least := fun (f : Fit → Nat) => (es.map fun e => f e.2).foldl min 6000
  let life := least (·.med)
  leBytes 8 (hoursOn s) ++ leBytes 2 life ++ leBytes 2 (least (·.lo)) ++ leBytes 2 (least (·.hi)) ++
    leBytes 2 ((es.findIdx? fun e => e.2.med == life).getD 0) ++ leBytes 4 es.length ++ leBytes 44 0 ++ es.flatMap fun e => wearEntry e.1 e.2

/-! ### The commands -/

/-- Whether the firmware runs, which samples the gauges. -/
def sampling (s : State) : Bool := s.power.phase == .ready

/-- GAUGE_SAMPLE (R304): a row of Table 11.10, a unit, the value measured. -/
def execGaugeSample (gauge : Fin 7) (unit : Nat) (value : F32) (s : State) : Host.Outcome State Fault Refusal :=
  .next (if sampling s then sample gauge.val (unit % 65536) value s else s)

/-- SETTLEMENT_DAILY (R305): the end of a day of powered-on time. -/
def execSettlementDaily (s : State) : Host.Outcome State Fault Refusal :=
  .next (if sampling s && decide (0 < dayOn s) && !((settleDays s.flash).any fun x => decide (dayOn s ≤ x.day)) then putDay s else s)

/-- SETTLEMENT_HOURLY (R305): the end of an hour of powered-on time. -/
def execSettlementHourly (s : State) : Host.Outcome State Fault Refusal :=
  .next (if sampling s && decide ((settleBest s.flash).hours < hoursOn s) then putHours s else s)

end Sys2Proof.Machine
end

