-- ==== Sys2Proof/Machine/Thermal.lean ====
section
/-! DEFINITION. The hardware loops: thermal trip and bands, overcurrent and rail stops, PLLs, boost (R184 to R186, R308 to R312, R324 to
R330, R339, R344, Tables 7.10, 12.10 and 12.11). -/

namespace Sys2Proof.Machine

/-- Change the power record. -/
def modPower (f : Power → Power) (s : State) : State := { s with power := f s.power }

/-- Whether the dies are clocked: after the polders are released. -/
def clocked (s : State) : Bool :=
  match s.power.phase with
  | .off => false
  | .waitOsc => false
  | _ => true

/-! ### Stops of the step, and its restart (code 2 of Table 6.12) -/

/-- Abandon the step of a running job and send the code 2 notice (R186, R326). -/
def stopStep (s : State) : State := if running s then abandonStep (plainNotice 2 s) else s

/-- Whether anything still keeps an abandoned step from restarting. -/
def stillStopped (s : State) : Bool :=
  s.power.thermtrip || s.power.pfail || s.power.ocHub || (List.finRange 4).any (fun d => s.dies[d].ocStopped) ||
    (List.finRange 32).any fun i => s.memStacks[i].stopped

/-- Announce the new origin of an abandoned step once nothing stops it: a code 2 notice whose amount is the distance to it. -/
def restartStep (s : State) : State :=
  if running s && s.job.abandoned && !stillStopped s then
    sendNotice false s.job.cstep 0 (upMicro (tideNow s + noticeBound s + 1000 - origin s)) 2 (logId s) 0 0 0 (resumeStep s)
  else s

/-- Stop a stack: it takes no request, completes what it holds with errors, and refreshes itself (R186). -/
def stopStack (i : Fin 32) (s : State) : State :=
  sweepRequests (modStack i (fun k => { k with stopped := true, selfRefresh := true }) s)

/-- Return a stack to service. -/
def startStack (i : Fin 32) (s : State) : State := modStack i (fun k => { k with stopped := false, selfRefresh := false }) s

/-! ### Thermal trip and hot band (R324, R325, R344) -/

/-- The package trip (R324): THERMTRIP_N, every stack in self-refresh, and the failure of a loaded job with code 2. -/
def packageTrip (celsius : Int) (s : State) : State :=
  if s.power.thermtrip then s
  else
    let s := logLoop 2 8 celsius.toNat (modPower (fun p => { p with thermtrip := true }) s)
    let seq := s.seq
    failPackage 2 0x0A seq ((List.finRange 32).foldl (fun s i => stopStack i s) s)

/-- A sample of a compute die's hottest sensor. -/
def dieSample (d : Fin 4) (c : Int) (s : State) : State :=
  let was := s.dies[d].overTrip
  let s := modDie d (fun k => { k with overTrip := decide (110 < c) }) s
  let s := if 105 < c ∧ !s.dies[d].hot then logLoop 6 8 c.toNat (modDie d (fun k => { k with hot := true }) s)
    else if c ≤ 103 then modDie d (fun k => { k with hot := false }) s else s
  if was && decide (110 < c) then packageTrip c s else s

/-- A sample of the hub die. -/
def hubSample (c : Int) (s : State) : State :=
  let was := s.power.hubOver
  let s := modPower (fun p => { p with hubOver := decide (110 < c) }) s
  if was && decide (110 < c) then packageTrip c s else s

/-- A sample of a stack's DRAM core dies: two above 120 °C trip the package, and above 115 °C in self-refresh after a trip the contents are
lost (R186, R324, R344). -/
def stackSample (i : Fin 32) (c : Int) (s : State) : State :=
  let was := s.memStacks[i].overTrip
  let s := modStack i (fun k => { k with overTrip := decide (120 < c) }) s
  let s :=
    if 115 < c ∧ s.memStacks[i].selfRefresh ∧ s.memStacks[i].band = 3 ∧ !s.memStacks[i].lost then
      failHere 4 (logEv 0x0011 (unitWord 3 i.val 0) (i.val * 2 ^ 37) i.val 0 0 (modStack i (fun k => { k with lost := true }) s))
    else s
  if was && decide (120 < c) then packageTrip c s else s

/-! ### Stack bands (R184 to R186, Table 7.10) -/

/-- The lower limit of a band. -/
def bandLimit : Nat → Int
  | 1 => 85
  | 2 => 95
  | _ => 105

/-- The highest band whose limit a sample exceeds. -/
def bandUp (c : Int) : Nat := if 105 < c then 3 else if 95 < c then 2 else if 85 < c then 1 else 0

/-- The band after a sample that does not raise it: one down for each separating limit that the sample lies 2 °C below. -/
def bandDown (c : Int) : Nat → Nat
  | 0 => 0
  | b + 1 => if c ≤ bandLimit (b + 1) - 2 then bandDown c b else b + 1

/-- The band after a sample; a stack that has tripped stays so until it reads below 90 °C (R186). -/
def bandNext (b : Nat) (c : Int) : Nat := if b < bandUp c then bandUp c else if b = 3 ∧ 90 ≤ c then 3 else bandDown c b

/-- A band sample of a stack. -/
def bandSample (i : Fin 32) (c : Int) (s : State) : State :=
  let old := s.memStacks[i].band
  let new := bandNext old c
  let s := modStack i (fun k => { k with band := new, temp := c }) s
  if new = old then s
  else
    let s := logEv 0x0014 (unitWord 3 i.val 0) i.val old new (ofSigned 64 c) s
    if new = 3 then stopStep (stopStack i (logLoop 4 8 c.toNat s))
    else
      let s := if new = 2 ∧ old < 2 then logLoop 6 8 c.toNat s else s
      if old = 3 ∧ !s.power.pfail ∧ !s.power.thermtrip then restartStep (startStack i s) else s

/-! ### Overcurrent and rail deviation (R326, R339) -/

/-- The number of a rail: the core rails 0 to 3, the hub rail 4. -/
def railNo : Rail → Nat
  | .vcore d => d.val
  | .vhub => 4

/-- The overcurrent limit of a rail in A (Table 13.4). -/
def railLimit : Rail → Nat
  | .vcore _ => 1400
  | .vhub => 260

/-- Whether the dies of a rail are stopped. -/
def railStopped (r : Rail) (s : State) : Bool :=
  match r with
  | .vcore d => s.dies[d].ocStopped
  | .vhub => s.power.ocHub

/-- Stop or restart the dies of a rail. -/
def setRail (r : Rail) (b : Bool) (s : State) : State :=
  match r with
  | .vcore d => modDie d (fun k => { k with ocStopped := b }) s
  | .vhub => modPower (fun p => { p with ocHub := b }) s

/-- An overcurrent stop (R326): the dies stop, the step is abandoned with a code 2 notice, and a second stop within an hour fails the
package with code 2. -/
def railStop (r : Rail) (value : Nat) (s : State) : State :=
  if railStopped r s then s
  else
    let again := s.power.ocTimes.any fun x => decide (s.now < x.2 + 3600000000000)
    let s := setRail r true (modPower (fun p =>
      { p with ocTimes := (railNo r, s.now) :: p.ocTimes.filter fun x => decide (s.now < x.2 + 3600000000000) }) s)
    let s := logLoop 3 8 value s
    if again then failPackage 2 0x0A s.seq s else stopStep s

/-! ### PLLs (R308, R310, R312, R330) -/

/-- Change the PLLs of a die. -/
def modPll (u : Fin 36) (f : Plls → Plls) (s : State) : State := { s with plls := s.plls.set u (f s.plls[u]) }

/-- The fixed-clock frequency of a die's main polders in MHz (Tables 12.1, 12.3). -/
def fixedFreq (u : Nat) : Nat := if u < 4 then 1200 else 1000

/-- The cost in ps of a change of source: 64 cycles of the outgoing and 192 of the incoming source, frequencies in MHz (R310). -/
def changeCost (from_ to_ : Nat) : Nat := 64 * 1000000 / from_ + 192 * 1000000 / to_

/-- Both PLLs locked, the polders on PLL0 at the fixed-clock frequency, which they reach from SYSCLK (Table 12.6, R308). -/
def pllsUp (s : State) : State :=
  { s with plls := Vector.ofFn fun u =>
      { lock0 := true, lock1 := true, active := 0, standby := true, losses := 0, freq := fixedFreq u.val, lastChange := s.now,
        costPs := changeCost 25 (fixedFreq u.val) } }

/-- A loss of lock (R312): the polders of the lost clock change to the standby, counting SYSCLK; with no standby, or at the second loss of
lock of the die within a step, of either PLL, the die stops and the package fails with code 4. -/
def lossOfLock (u : Fin 36) (pll : Fin 2) (s : State) : State :=
  let k := s.plls[u]
  let onIt := pll.val == k.active
  let stops := (onIt && !k.standby) || (running s && decide (0 < k.losses))
  let s := modPll u (fun k => { k with lock0 := k.lock0 && pll != 0 && !stops, lock1 := k.lock1 && pll != 1 && !stops, standby := false,
                                       losses := k.losses + 1 }) s
  let s := if onIt || stops then logLoop 5 8 pll.val s else s
  if stops then failHere 4 (if h : 4 ≤ u.val then stopStack ⟨u.val - 4, by omega⟩ s else s)
  else if onIt then
    modPll u (fun k => { k with active := 1 - k.active, lastChange := s.now, costPs := changeCost 25 k.freq }) s
  else s

/-- Whether a PLL of a die that still runs has lost lock. -/
def toRelock (k : Plls) : Bool := (k.lock0 || k.lock1) && !(k.lock0 && k.lock1)

/-- A boost step may raise the frequency only while temperature and current keep 5 °C and 5% from their thresholds (R330). -/
def boostRoom (celsius : Int) (amps : Nat) : Bool := decide (celsius ≤ 100) && decide (20 * amps ≤ 19 * 1400)

/-! ### The commands -/

/-- JUNCTION_SAMPLE (R324, R325). -/
def execJunctionSample (u : Sensor) (celsius : Int) (s : State) : Host.Outcome State Fault Refusal :=
  .next (
    if !clocked s then s
    else match u with
      | .die d => dieSample d celsius s
      | .hub => hubSample celsius s
      | .stack i => stackSample i celsius s)

/-- STACK_THERMAL_SAMPLE (R184 to R186). -/
def execStackThermalSample (st : Fin 32) (celsius : Int) (s : State) : Host.Outcome State Fault Refusal :=
  .next (if clocked s then bandSample st celsius s else s)

/-- OVERCURRENT_STOP (R326): above the limit for 10 µs. -/
def execOvercurrentStop (r : Rail) (amps : Nat) (held : Nat) (s : State) : Host.Outcome State Fault Refusal :=
  .next (if clocked s && decide (railLimit r < amps) && decide (10000 ≤ held) then railStop r amps s else s)

/-- OVERCURRENT_RESTART (R326): below the limit for 1 ms. -/
def execOvercurrentRestart (r : Rail) (below : Nat) (s : State) : Host.Outcome State Fault Refusal :=
  .next (if railStopped r s && decide (1000000 ≤ below) then restartStep (setRail r false s) else s)

/-- The voltage in mV that the code of a core rail calls for (R338). -/
def codedMv (d : Fin 4) (s : State) : Nat := 720 + 10 * s.power.cvid[d].toNat

/-- RAIL_DEVIATION (R339): the rail senses `mv`, more than 25 mV from its coded voltage, for 1 ms, at least 10 ms after tF. -/
def execRailDeviation (d : Fin 4) (mv : Nat) (held : Nat) (s : State) : Host.Outcome State Fault Refusal :=
  .next (
    if (s.power.phase == .ready || s.power.phase == .booted) && (decide (codedMv d s + 25 < mv) || decide (mv + 25 < codedMv d s)) && decide (1000000 ≤ held) &&
        decide (s.power.tF + 10000000 ≤ s.now) then railStop (.vcore d) mv s
    else s)

/-- PLL_LOSS_OF_LOCK (R312). -/
def execPllLossOfLock (u : Fin 36) (pll : Fin 2) (s : State) : Host.Outcome State Fault Refusal :=
  .next (if clocked s && (if pll = 0 then s.plls[u].lock0 else s.plls[u].lock1) then lossOfLock u pll s else s)

/-- PLL_RELOCK (R312): the failed PLL becomes the standby again, or the die has none. -/
def execPllRelock (u : Fin 36) (ok : Bool) (s : State) : Host.Outcome State Fault Refusal :=
  .next (
    if toRelock s.plls[u] && ok then modPll u (fun k => { k with lock0 := true, lock1 := true, standby := true }) s
    else s)

/-- BOOST_STEP (R330): the frequency 1.20 GHz + `step` × 50 MHz on the other PLL, at most once per ms. -/
def execBoostStep (d : Fin 4) (step : Fin 5) (celsius : Int) (amps : Nat) (s : State) : Host.Outcome State Fault Refusal :=
  .next (
    let u : Fin 36 := Fin.castLE (by decide) d
    let k := s.plls[u]
    let f := 1200 + 50 * step.val
    if s.power.boost && k.standby && decide (f ≠ k.freq) && decide (k.lastChange + 1000000 ≤ s.now) &&
        (decide (f < k.freq) || boostRoom celsius amps) then
      modPll u (fun k => { k with active := 1 - k.active, freq := f, lastChange := s.now, costPs := changeCost k.freq f }) s
    else s)

end Sys2Proof.Machine
end

