-- ==== Sys2Proof/Machine/Reset.lean ====
section
/-! DEFINITION. Board inputs, port resets, power-up, firmware selection, resets and the power-fail warning (R192, R255, R279, R280, R303,
R313 to R323, R331 to R333, R337, R338, Tables 10.2, 12.4, 12.6 to 12.9, 12.13). -/

namespace Sys2Proof.Machine

/-! ### Board inputs (R332, R333) -/

/-- Input numbers of event 0x0063, in the order R332 names them. -/
def inputNo : BoardInput → Nat
  | .pwrok => 0
  | .perstA => 1
  | .perstB => 2
  | .pfail => 3

/-- The record of an input. -/
def inputOf (i : BoardInput) (s : State) : InputSt :=
  match i with
  | .pwrok => s.power.pwrok
  | .perstA => s.power.perstA
  | .perstB => s.power.perstB
  | .pfail => s.power.pfailIn

/-- Change the record of an input. -/
def modInput (i : BoardInput) (f : InputSt → InputSt) (s : State) : State :=
  modPower (fun p =>
    match i with
    | .pwrok => { p with pwrok := f p.pwrok }
    | .perstA => { p with perstA := f p.perstA }
    | .perstB => { p with perstB := f p.perstB }
    | .pfail => { p with pfailIn := f p.pfailIn }) s

/-- Count an event of an input: 0 ignored pulse, 1 ignored activation, 2 mask, 3 unmask (R333). -/
def countInput (i : BoardInput) (kind : Nat) (s : State) : State := modInput i (fun k => { k with count := k.count + 1, kind := kind }) s

/-- An activation that lasts `held` ns after `inactive` ns without one: whether it acts, and the state (R332). -/
def activate (i : BoardInput) (held inactive : Nat) (s : State) : Bool × State :=
  if held < 2000 then (false, countInput i 0 s)
  else
    let acts := s.now :: lastSecond s.now (inputOf i s).acts
    let s := modInput i (fun k => { k with acts := acts, active := true }) s
    let ok := decide (10000000 ≤ inactive)
    let s := if ok then s else countInput i 1 s
    let s := if 64 < acts.length ∧ i ≠ .pwrok ∧ !(inputOf i s).masked then
        countInput i 2 (modInput i (fun k => { k with masked := true }) s) else s
    (ok, s)

/-- The reset input of a host port. -/
def perstOf : HPort → BoardInput
  | .a => .perstA
  | .b => .perstB

/-! ### Port resets (R255, Table 10.2) -/

/-- Return a port's mailbox, interrupt and BAR2 registers to their reset values. -/
def clearPort (p : HPort) (s : State) : State :=
  modHost p (fun h => { HostPort.reset with held := h.held, inReset := h.inReset, state := h.state }) s

/-- The accepted commands of a port that count toward the 64 of R267. -/
def inFlight (p : HPort) (s : State) : Nat := (s.warden.accepted.filter fun a => a.mb == portMbox p && !a.orphan).length

/-- Log event 0x0062: 0 reset input, 1 Function Level Reset, 2 link loss, 3 below rating. -/
def logPort62 (p : HPort) (cause : Nat) (s : State) : State := logEv 0x0062 (unitWord 5 (hportNo p) 0) (hportNo p) cause (inFlight p s) 0 s

/-- Reset a host port. -/
def portReset (p : HPort) (cause : Nat) (s : State) : State :=
  let s := clearPort p (logPort62 p cause s)
  let s := { s with warden := { s.warden with
    accepted := s.warden.accepted.map fun a => if a.mb = portMbox p then { a with orphan := true } else a } }
  if s.lock.owner = some p then freeLock 3 s else s

/-- Whether a host port can train: the polders run, and in recovery mode port A alone (R280). -/
def canTrain (p : HPort) (s : State) : Bool :=
  match s.power.phase with
  | .off => false
  | .waitOsc => false
  | .recovery => p == .a
  | _ => true

/-- Train a port whose reset input is inactive. -/
def trainPort (p : HPort) (atRating : Bool) (s : State) : State :=
  if canTrain p s then
    let s := modHost p (fun h => { h with inReset := false, state := if atRating then 0 else 1 }) s
    if atRating then s else logPort62 p 3 s
  else s

/-- The release of a reset input, once it is not masked. -/
def releasePort (p : HPort) (atRating : Bool) (s : State) : State := trainPort p atRating (modHost p (fun h => { h with held := false }) s)

/-! ### Firmware (R279, R280) -/

/-- Which check of R279 an image fails: 0 none, 1 SIG, 2 BODYHASH, 3 MAJOR, 4 SVN; MAGIC and LENGTH count with SIG. -/
def fwCheck (b : Bytes) (svnMin : Nat) : Nat :=
  let len := field b 16 4
  let be := fun (o n : Nat) => leVal (slice b o n).reverse
  if b.take 8 ≠ ascii "BNLFWIMG" ∨ 64 * 2 ^ 20 - 4096 < len ∨ b.length < 4096 + len ∨
      !ecdsaVerify Config.kraiqKey (leVal (sha384 (b.take 68)).reverse) (be 68 48) (be 116 48) then 1
  else if sha384 (slice b 4096 len) ≠ slice b 20 48 then 2
  else if field b 8 1 ≠ 3 then 3
  else if field b 12 4 < svnMin then 4
  else 0

/-- The bytes of a firmware slot: false A, true B. -/
def fwSlot (b : Bool) (s : State) : Bytes := if b then s.flash.slotB else s.flash.slotA

/-- The slot that the boot record prefers: that of the copy with the higher write count (Table 10.14). -/
def preferred (f : Flash) : Bool := if f.bootA.count < f.bootB.count then f.bootB.slot else f.bootA.slot

/-- The slots that BOOTSEL lets run, in order (R280). -/
def bootSlots (s : State) : List Bool :=
  match s.power.straps.bootsel.toNat with
  | 0 => [preferred s.flash, !preferred s.flash]
  | 1 => [false]
  | 2 => [true]
  | _ => []

/-- Log the failed checks of the slots before the one that runs. -/
def logFailed (s : State) (b : Bool) : State := logEv 0x0071 0 (b2n b) (fwCheck (fwSlot b s) s.warden.svnMin) 0 0 s

/-- Log the boot: slot, version word, FELL, RECOV. -/
def logBoot (s : State) : State :=
  let w := s.warden
  logEv 0x0070 0 (b2n w.slot) (w.major.toNat * 2 ^ 24 + w.minor.toNat * 2 ^ 16 + w.build.toNat) (b2n w.fell) (b2n w.recov) s

/-- Run a slot. -/
def runSlot (b : Bool) (s : State) : State :=
  let im := fwSlot b s
  { s with warden := { s.warden with
      major := BitVec.ofNat 8 (field im 8 1), minor := BitVec.ofNat 8 (field im 9 1), build := BitVec.ofNat 16 (field im 10 2), slot := b,
      fell := s.power.straps.bootsel.toNat == 0 && b != preferred s.flash, recov := false,
      svnMin := max s.warden.svnMin (field im 12 4) } }

/-! ### Spares at boot (R159, R160, R171, R303) -/

/-- The map-outs of a die in force, in the order they were written. -/
def mapOuts (d : Nat) (s : State) : List LedgerRec := (inForce (ledgerUnion s.flash)).filter fun r => r.kind == 1 && r.index == d

/-- Map the spares of a die from the ledger: cores out of service, who runs their sequences, the relief core, the spares left. -/
def mapDie (s : State) (d : Fin 4) : State :=
  let outs := mapOuts d.val s
  let s := modDie d (fun k => { k with handover := [], relief := some 1023, pendingRelief := false }) s
  let s := outs.foldl (fun s r =>
    let s := modCore d.val r.sub (fun k => { k with mapped := true }) s
    let c := leVal (r.value.take 4)
    match logicalOf d r.sub s with
    | some lc => if c = r.sub then s else modDie d (fun k => { k with handover := putHandover lc c k.handover }) s
    | none => s) s
  let ok := fun (c : Nat) => !(coreOf d.val c s).mapped && !(s.dies[d].handover.any fun p => p.2 == c)
  let named := ((inForce (ledgerUnion s.flash)).filter fun r => r.kind == 3 && r.index == d.val).map (·.sub)
  let s := modDie d (fun k => { k with relief := (named.reverse ++ [1023]).find? ok }) s
  modDie d (fun k => { k with spares := (spareCores d s).length }) s

/-- Take a stack's policy and slice-cache ways from the ledger: a way that was disabled is replaced by the spare where it is free; where it
is not, the spare is left out as well, since the record in force names the second way that failed and not the first (log entry 71). -/
def mapStack (s : State) (i : Fin 32) : State :=
  let rs := (inForce (ledgerUnion s.flash)).filter fun r => r.index == i.val
  let ways := (rs.filter fun r => r.kind == 0x22).flatMap fun r =>
    let w := leVal (r.value.take 2)
    if leVal ((r.value.drop 2).take 2) = 0xFFFF then [(r.sub, w), (r.sub, if w = 16 then 15 else 16)] else [(r.sub, w)]
  let pol := ((ledgerFind s.flash 0x40 i.val 0).map fun r => leVal r.value) == some 1
  modStack i (fun k => { k with policy := pol, ledgerWays := ways, cache := [] }) s

/-- The compute dies, the stacks and the guest die leave reset: the ledger is read, spares mapped, marked rows and banks remapped. The
stacks stay in self-refresh under a power-fail warning, and while THERMTRIP_N is latched (R320). -/
def diesUp (s : State) : State :=
  let s := modLevee (fun l => { l with guestReset := !s.power.gsite }) s
  let s := (List.finRange 4).foldl (fun s d => modDie d (fun k => { k with inReset := false, resetUntil := 0 }) s) s
  let s := (List.finRange 32).foldl (fun s i => modStack i (fun k =>
    { k with inReset := false, resetUntil := 0, stopped := s.power.pfail || s.power.thermtrip,
             selfRefresh := s.power.pfail || s.power.thermtrip }) s) s
  remapAll ((List.finRange 32).foldl mapStack ((List.finRange 4).foldl mapDie s))

/-! ### Far-tier setup (R192, Table 7.12) -/

/-- The step of Table 7.12 at which setup stops. -/
def farStep (q : FarProbe) : Nat :=
  if !q.trains then 1 else if !q.enumerates then 2 else if !q.supported then 3 else if q.capBytes = 0 then 4
  else if q.gts < 64 ∨ q.width < 16 ∨ q.wrRate < 1029 ∨ q.rdRate < 1029 then 5 else 6

/-- Whether a checkpoint record may lie in the first GiB: the package is paired, or window F0 starts with a valid header. -/
def mayHold (s : State) : Bool := s.twin.phys.isSome || headerValid (memRead s.mem (farBase 0) 256)

/-- Set one far-tier port up: what it maps, the tested range zeroed, the outcome logged. The range is 1 GiB, or the whole capacity of a
smaller device: the first of the window, or the last of the capacity where a record may lie at the base. -/
def setupFar (hold : Bool) (f : Fin 2) (q : FarProbe) (s : State) : State :=
  let n := farStep q
  let cap := if n < 5 then 0 else min q.capBytes (2 ^ 42)
  let ok := decide (5 ≤ n)
  let s := modFar f (fun _ =>
    { st := if n = 6 then 2 else if n = 5 then 1 else 0, cap := cap, wr := if ok then q.wrRate else 0, rd := if ok then q.rdRate else 0,
      linkUp := ok }) s
  let len := min cap (2 ^ 30)
  let lo := farBase f + (if hold then cap - len else 0)
  let s := if ok then { s with mem := memClear s.mem lo (lo + len) } else s
  let s := logEv 0x0015 0 f.val n (cap / 2 ^ 30) (if ok then min q.wrRate q.rdRate / 10 else 0) s
  if n = 6 then s else if s.twin.phys.isSome then loseArea f s else s

/-- Set both ports up. -/
def setupBoth (mask : Nat) (f0 f1 : FarProbe) (s : State) : State :=
  let hold := mayHold s
  let s := if bit mask 0 then setupFar hold 0 f0 s else s
  if bit mask 1 then setupFar hold 1 f1 s else s

/-! ### Power-up (R313 to R316, Table 12.6) -/

/-- The delay of OSCDLY in ns (Table 12.4). -/
def oscDelay : Nat → Nat
  | 0 => 1000000
  | 1 => 2000000
  | 2 => 5000000
  | 3 => 10000000
  | 4 => 20000000
  | 5 => 50000000
  | 6 => 100000000
  | _ => 200000000

/-- A rising edge of PWROK that acts: the straps are latched, both reset inputs are still active, and powered-on time goes on from flash. -/
def powerUp (pins : Straps) (s : State) : State :=
  let s := modPower (fun p => { p with phase := .waitOsc, tP := s.now, pins := pins, straps := pins }) s
  let s := modHost .b (fun h => { h with held := true }) (modHost .a (fun h => { h with held := true }) s)
  let s := { s with flash := { s.flash with poweredNs := (settleBest s.flash).hours * hourNs } }
  { s with tide := { s.tide with lowest := physId s } }

/-- SYSCLK is accepted: PLLs lock, the tide clock counts, host ports train. -/
def poldersUp (s : State) : State :=
  let s := pllsUp (modPower (fun p => { p with phase := .polders, tS := s.now }) s)
  let s := { s with tide := { s.tide with running := true } }
  [HPort.a, .b].foldl (fun s p => if (hostOf p s).held then s else trainPort p true s) s

/-- The boot ROM's choice (R280): a slot runs, or recovery mode. -/
def bootRom (s : State) : State :=
  let ok := fun (b : Bool) => fwCheck (fwSlot b s) s.warden.svnMin == 0
  let bad := (bootSlots s).takeWhile fun b => !ok b
  let s := bad.foldl logFailed s
  match (bootSlots s).find? ok with
  | some b =>
    let s := runSlot b (modPower (fun p => { p with phase := .booted, tF := s.now, cvid := p.cvidFuse }) s)
    logBoot (diesUp s)
  | none =>
    let s := modPower (fun p => { p with phase := .recovery, tF := s.now, cvid := p.cvidFuse }) s
    let s := modHost .b (fun h => { h with inReset := true, state := 2 }) s
    logBoot { s with warden := { s.warden with recov := true, fell := false } }

/-- READY: the far tier is set up, and without a neighbour the package is its own root (R316). After a warm reset the far tier and the
tide clock have gone on. -/
def bootDone (f0 f1 : FarProbe) (s : State) : State :=
  let warm := (s.power.pend.map (·.level)) == some 1
  let s := if warm then s else setupBoth 3 f0 f1 s
  let s := modPower (fun p => { p with phase := .ready, pend := none }) s
  let s := { s with warden := { s.warden with ready := true }, inspect := { s.inspect with lastStart := s.now } }
  let s := { s with tide := { s.tide with tR := s.now } }
  if !s.tide.tsync && fports.all fun p => !(fabOf p s).up then becomeRoot s else s

/-! ### Resets (R317 to R320, Tables 12.7, 12.8) -/

/-- A power-on reset: everything but fuses, flash, the far tier's contents, the rows and banks marked for the repair of the next boot
(R188), and what is outside the package. -/
def powerOff (s : State) : State :=
  let r := State.reset
  { r with
    pending := s.pending, now := s.now, freeCtr := s.freeCtr, out := s.out, flash := s.flash,
    mem := s.mem.filter fun c => decide (0x100000000000 ≤ c.1),
    memStacks := s.memStacks.map fun k => { Stack.reset with rows := k.rows.filter (·.marked), bankMarks := k.bankMarks },
    power := { r.power with gsite := s.power.gsite, assy := s.power.assy, cvidFuse := s.power.cvidFuse,
                            pwrok := { s.power.pwrok with active := false } },
    warden := { r.warden with svnMin := s.warden.svnMin } }

/-- End every other accepted command as interrupted (status 0x0B), with its completion entry. -/
def interruptAll (s : State) : State :=
  s.warden.accepted.foldl (fun s a =>
    if entOp a.entry = 0x0306 then s else putCpl a.mb a.entry 1 0x0B 0 0 0 a.orphan s) s

/-- The windows close and the guest leaves quarantine. -/
def clearLevee (s : State) : State :=
  let s := failGuest s
  { s with levee := { Levee.reset with viols := s.levee.viols, guestReset := false, dropped := s.levee.dropped } }

/-- What a warm and a cold reset share (Table 12.8, the first two columns and the clearing of Table 12.7). -/
def resetBody (level : Nat) (s : State) : State :=
  let s := freeLock 3 (interruptAll s)
  let s := clearPort .b (clearPort .a s)
  let s := setJob .none s
  let s := (List.finRange 32).foldl (fun s i => invalidateCache i (flushCache i s)) s
  let s := (List.finRange 32).foldl (fun s i => modStack i (fun k => { k with banks := [], watch := [], withheld := [], writeQ := [] }) s) s
  let s := clearLevee (endPair s)
  { s with
    i3c := { s.i3c with waiting := [], done := [], buffer := [], ibi := false }, peer := { waiting := [], completions := [] },
    warden := { s.warden with ready := false, accepted := [], lockedDeadline := 0, guard := [] },
    queues := [], job := JobCtl.reset, exec := Exec.reset, coreStore := [],
    cores := (s.cores.filter (·.mapped)).map fun k => { Core.idle k.die k.core with mapped := true },
    twin := { Twin.reset with held := s.twin.held, gaugesCopy := s.twin.gaugesCopy },
    inspect := { s.inspect with slot := none, due := none, lc := none, wait := [], back := none },
    power := { s.power with boost := false, inspectHours := if level = 2 then 24 else s.power.inspectHours } }

/-- A warm reset: the running image restarts; recovery mode stays. -/
def warmReset (s : State) : State :=
  if s.power.phase == .recovery then logBoot (modPower (fun p => { p with pend := none }) (resetBody 1 s))
  else logBoot (pllsUp (modPower (fun p => { p with phase := .booted }) (resetBody 1 s)))

/-- A cold reset: dies, links, fabric and host ports go down as well, and power-up runs again from tS + 100 µs. -/
def coldReset (s : State) : State :=
  let s := dropLinks (List.finRange 41) (resetBody 2 s)
  let s := (List.finRange 41).foldl (fun s l => takeDown l s) s
  let s := fports.foldl (fun s p => portDown p 0 s) s
  let s := (List.finRange 4).foldl (fun s d => modDie d (fun k => { k with inReset := true }) s) s
  let s := (List.finRange 32).foldl (fun s i => modStack i (fun k => { k with inReset := true, selfRefresh := true }) s) s
  let s := [HPort.a, .b].foldl (fun s p => modHost p (fun h => { h with inReset := true, state := 2 }) (logPort62 p 2 s)) s
  poldersUp s

/-- The instant of a reset that has been accepted has come: 1 ms after acceptance (R319). -/
def resetDue (level : Nat) (s : State) : Bool :=
  match s.power.pend with
  | some r => r.level == level && decide (r.tA + 1000000 ≤ s.now) && s.power.phase != .off && s.power.phase != .waitOsc &&
      (s.warden.ready || s.power.phase == .recovery)
  | none => false

/-! ### Power-fail warning (R322, R323, Table 12.9) -/

/-- The actions of Table 12.9. They begin at tW + 2 µs, when the input is accepted; the entries are written at tW + 1 ms. -/
def powerFail (s : State) : State :=
  let s := logEv 0x0073 0 0 0 0 0 (modPower (fun p => { p with pfail := true }) s)
  let s := s.warden.accepted.foldl (fun s a =>
    if entOp a.entry = 0x0501 ∧ a.started ∧ a.done.isNone then
      { s with flash := if arg a.entry 0 1 = 0 then { s.flash with slotA := [] } else { s.flash with slotB := [] } } else s) s
  let seq := s.seq
  let s := endWhere (fun a => a.locked || a.done.isNone) { status := 0x0B, result := 0, fault := seq, at_ := s.now + 998000 } s
  let s := failPackage 8 0x0B seq s
  let s := abandonTasks (abortSlot s)
  (List.finRange 32).foldl (fun s i => flushCache i (stopStack i s)) s

/-- The end of the warning: the stacks leave self-refresh but for those that tripped. -/
def powerFailEnd (s : State) : State :=
  let s := modPower (fun p => { p with pfail := false, pfailIn := { p.pfailIn with active := false } }) s
  (List.finRange 32).foldl (fun s i => if s.memStacks[i].band = 3 ∨ s.power.thermtrip then s else startStack i s) s

/-! ### The commands -/

/-- Whether the board inputs act: PWROK is high (R335). -/
def poweredUp (s : State) : Bool := s.power.phase != .off

/-- PERST_ASSERT (R255, R332). -/
def execPerstAssert (p : HPort) (held : Nat) (inactive : Nat) (s : State) : Host.Outcome State Fault Refusal :=
  .next (
    if !poweredUp s then s
    else
      let (ok, s) := activate (perstOf p) held inactive s
      if ok || (inputOf (perstOf p) s).masked && !(hostOf p s).held then
        portReset p 0 (modHost p (fun h => { h with held := true, inReset := true, state := 2 }) s)
      else s)

/-- PERST_RELEASE: an input that is not masked lets its port train again. -/
def execPerstRelease (p : HPort) (atRating : Bool) (s : State) : Host.Outcome State Fault Refusal :=
  .next (
    if !poweredUp s || !(hostOf p s).held then s
    else
      let s := modInput (perstOf p) (fun k => { k with active := false }) s
      if (inputOf (perstOf p) s).masked then s else releasePort p atRating s)

/-- FUNCTION_LEVEL_RESET (R255). -/
def execFunctionLevelReset (p : HPort) (s : State) : Host.Outcome State Fault Refusal :=
  .next (if portAlive p s then portReset p 1 s else s)

/-- PCIE_LINK_LOSS (R255). -/
def execPcieLinkLoss (p : HPort) (s : State) : Host.Outcome State Fault Refusal :=
  .next (if !(hostOf p s).inReset && (hostOf p s).state != 2 then portReset p 2 (modHost p (fun h => { h with state := 2 }) s) else s)

/-- PCIE_RATE_CHANGE (R253, R331): the link trains at another rate, with event 0x0072 while a job is loaded. -/
def execPcieRateChange (p : HPort) (atRating : Bool) (s : State) : Host.Outcome State Fault Refusal :=
  .next (
    if (hostOf p s).inReset || !canTrain p s then s
    else
      let s := if jobLoaded s then logLoop 10 8 (b2n (!atRating)) s else s
      trainPort p atRating s)

/-- INPUT_UNMASK (R332): inactive for 1 s without interruption. -/
def execInputUnmask (i : BoardInput) (inactive : Nat) (s : State) : Host.Outcome State Fault Refusal :=
  .next (
    if !(inputOf i s).masked || decide (inactive < 1000000000) then s
    else
      let s := countInput i 3 (modInput i (fun k => { k with masked := false, active := false, acts := [] }) s)
      match i with
      | .perstA => releasePort .a true s
      | .perstB => releasePort .b true s
      | .pfail => if s.power.pfail then powerFailEnd s else s
      | .pwrok => s)

/-- INPUT_EVENT_LOG (R333): at most one entry in each 10 ms. -/
def execInputEventLog (i : BoardInput) (s : State) : Host.Outcome State Fault Refusal :=
  .next (
    let k := inputOf i s
    let due := match k.lastLog with
      | none => true
      | some t => decide (t + 10000000 ≤ s.now)
    if poweredUp s && decide (k.logged < k.count) && due then
      logEv 0x0063 0 (inputNo i) k.kind k.count 0 (modInput i (fun k => { k with logged := k.count, lastLog := some s.now }) s)
    else s)

/-- PWROK_RISE (R315, R332). An edge that does not act leaves a package without power as it is. -/
def execPwrokRise (held : Nat) (inactive : Nat) (pins : Straps) (s : State) : Host.Outcome State Fault Refusal :=
  .next (
    if s.power.phase != .off then s
    else
      let (ok, t) := activate .pwrok held inactive s
      if ok then powerUp pins t else s)

/-- OSC_DELAY_EXPIRY (R313). -/
def execOscDelayExpiry (s : State) : Host.Outcome State Fault Refusal :=
  .next (
    if s.power.phase == .waitOsc && decide (s.power.tP + oscDelay s.power.straps.oscdly.toNat ≤ s.now) then poldersUp s else s)

/-- FIRMWARE_BOOT (R280). -/
def execFirmwareBoot (s : State) : Host.Outcome State Fault Refusal := .next (if s.power.phase == .polders then bootRom s else s)

/-- BOOT_COMPLETE (R316, Tables 12.6, 12.8). -/
def execBootComplete (f0 f1 : FarProbe) (s : State) : Host.Outcome State Fault Refusal :=
  .next (if s.power.phase == .booted then bootDone f0 f1 s else s)

/-- POWER_ON_RESET (R317, R332): a low of PWROK that lasts 2 µs. -/
def execPowerOnReset (held : Nat) (s : State) : Host.Outcome State Fault Refusal :=
  .next (if !poweredUp s then s else if 2000 ≤ held then powerOff s else countInput .pwrok 0 s)

/-- WARM_RESET (R319, Table 12.8). -/
def execWarmReset (s : State) : Host.Outcome State Fault Refusal := .next (if resetDue 1 s then warmReset s else s)

/-- COLD_RESET (R319). -/
def execColdReset (s : State) : Host.Outcome State Fault Refusal := .next (if resetDue 2 s then coldReset s else s)

/-- PFAIL_ASSERT (R322, R332). -/
def execPfailAssert (held : Nat) (inactive : Nat) (s : State) : Host.Outcome State Fault Refusal :=
  .next (
    if !poweredUp s then s
    else
      let (ok, s) := activate .pfail held inactive s
      if (ok || s.power.pfailIn.masked) && !s.power.pfail then powerFail s else s)

/-- PFAIL_END (R323): inactive for 10 ms; a masked input keeps the warning (Table 12.13). -/
def execPfailEnd (inactive : Nat) (s : State) : Host.Outcome State Fault Refusal :=
  .next (if s.power.pfail && !s.power.pfailIn.masked && decide (10000000 ≤ inactive) then powerFailEnd s else s)

end Sys2Proof.Machine
end

