-- ==== Sys2Proof/Machine/Commands.lean ====
section
/-! DEFINITION. What each command of Table 10.8 does once it starts (R103, R145, R152, R166, R192, R210, R212, R217, R265, R270, R275,
R277, R279, R281, R302, R306, R362). -/

namespace Sys2Proof.Machine

/-! ### Ending a command -/

/-- End a command with a status, a result and an earliest instant of its DONE entry. -/
def finishAt (a : Accepted) (status result at_ : Nat) (s : State) : State :=
  endWhere (fun x => x == a) { status := status, result := result, fault := 0, at_ := at_ } s

/-- End a command now. -/
def finish (a : Accepted) (status result : Nat) (s : State) : State := finishAt a status result s.now s

/-- Write a result into DATA, cut at DATALEN (R265); a port that was reset since takes no more of it (R255), and an access to host memory
that fails ends the command with 0x09. -/
def deliverAt (a : Accepted) (b : Bytes) (result at_ : Nat) (s : State) : State :=
  if a.orphan then finishAt a 0 result at_ s
  else
    match a.ext with
    | .dma false => finish a 9 0 s
    | .wires false _ => finish a 9 0 s
    | .scan false _ => finish a 9 0 s
    | _ => finishAt a 0 result at_ (emit (.dataOut a.mb (entData a.entry) b) s)

/-- Deliver a whole result: RESULT is the bytes written; for the I3C target the part at the offset that DATA names goes into the buffer,
and RESULT holds the whole length too (R277). -/
def deliverAll (a : Accepted) (b : Bytes) (s : State) : State :=
  if a.mb = .i3c then
    let part := (b.drop (entData a.entry)).take 65536
    finish a 0 (b.length * 2 ^ 32 + part.length) { s with i3c := { s.i3c with buffer := part } }
  else
    let c := b.take (entLen a.entry)
    deliverAt a c c.length s.now s

/-! ### Reads -/

/-- The 4 KiB copy of Table 10.4 that a port reads; I3C gets that of port A. -/
def identityCopy (p : HPort) (s : State) : Bytes :=
  let s := { s with tideHi := BitVec.ofNat 32 (tideNow s / 2 ^ 32) }
  (List.range 1024).flatMap fun i => leBytes 4 (statusWord p (4 * i) s)

/-- IDENTIFY. -/
def runIdentify (a : Accepted) (s : State) : State :=
  let b := identityCopy ((mboxPort a.mb).getD .a) s
  if a.mb = .i3c then finish a 0 b.length { s with i3c := { s.i3c with buffer := b } } else deliverAll a b s

/-- The values that GAUGE_READ returns: counters of the classes of a mask, over-range counts, or berm records. -/
def gaugeValues (mask kind : Nat) (s : State) : List Nat :=
  match kind with
  | 0 => (gaugeCells.filter fun c => bit mask c.1).flatMap fun c => [c.1, c.2] ++ (cellOf c s).list
  | 1 => (s.exec.overs.filter fun o => o.2.1 == s.job.cstep).flatMap fun o => [o.1, o.2.2.1, o.2.2.2]
  | _ => s.exec.bermRecs.flatMap fun b => [b.1, b.2.1.toNat, b.2.2.1.toNat, b.2.2.2]

/-- GAUGE_READ; a read clears nothing (R103). -/
def runGaugeRead (a : Accepted) (s : State) : State :=
  let m := arg a.entry 0 1
  let k := arg a.entry 1 1
  deliverAll a (Config.gaugeImage m k (gaugeValues m k s)) s

/-- EVENT_READ: whole entries in ascending SEQ; RESULT counts entries. -/
def runEventRead (a : Accepted) (s : State) : State :=
  let es := (s.log.filter fun e => decide (arg a.entry 0 8 ≤ e.seq)).reverse
  let n := arg a.entry 8 2
  let es := es.take (if a.mb = .i3c then n else min n (entLen a.entry / 64))
  let b := es.flatMap entryBytes
  if a.mb = .i3c then finish a 0 es.length { s with i3c := { s.i3c with buffer := b } } else deliverAt a b es.length s.now s

/-- A copy of the repair ledger laid out as one ledger copy (R302). -/
def ledgerCopy (s : State) : Bytes :=
  let h := ascii "BNLLEDGR" ++ leBytes 4 (max s.flash.ledgerA.gen s.flash.ledgerB.gen)
  slice (h ++ leBytes 4 (crc32c h)) 0 4096 ++ (ledgerUnion s.flash).flatMap ledgerBytes

/-- Whether a list of stretches can be reached; if not, the failing access is logged and the command ends with 0x06 and no effect
(log entry 67). -/
def withStretches (ps : List (Nat × Nat)) (a : Accepted) (f : State → State) (s : State) : State :=
  match stretchCause ps s with
  | some (x, k) => finish a 6 0 (logAccess x .hub k s)
  | none => f s

/-- EXPORT: the stored values of a tensor's master weights or moments. -/
def runExport (a : Accepted) (s : State) : State :=
  match tensorOf (arg a.entry 0 4) (0x15 + arg a.entry 4 1) s with
  | some e => withStretches [stretchOf e] a (fun s => deliverAll a (streamBytes s e) s) s
  | none => finish a 5 0 s

/-! ### The job -/

/-- What JOB_LOAD names beside the image. -/
def loadArgs (e : Bytes) : LoadArgs :=
  { x := arg e 0 1, y := arg e 1 1, z := arg e 2 1, tag := arg e 4 2, neigh := (List.range 6).map fun i => arg e (8 + 2 * i) 2 }

/-- The hardware queue of an image's queue entry: host-fed 2, host-drained 3, else 1. -/
def loadQueue (q : QueueEntry) : HwQueue :=
  let port := fun (id : Nat) => if id = 0xFFFFFFF0 then some HPort.a else if id = 0xFFFFFFF1 then some .b else none
  let (role, p) := match port q.prod, port q.cons with
    | some p, _ => (2, p)
    | _, some p => (3, p)
    | _, _ => (1, .a)
  { HwQueue.unused q.queue p with role := role, depth := q.depth, esize := q.esize, ring := q.ring, prod := q.prod, cons := q.cons,
                                  remote := q.remote, credits := q.depth }

/-- The tensors that UPDATE tasks write. -/
def updTensors (im : JobImage) : List Nat := ((im.tasks.filter fun t => t.dtype == 3).map fun t => (decodeUpd t.body).tensor).eraseDups

/-- Clear every keep mark of the slice caches (R169). -/
def clearKeeps (s : State) : State :=
  (List.finRange 32).foldl (fun s i => modStack i (fun k =>
    { k with cache := k.cache.map fun c => { c with lines := c.lines.map fun l => { l with keep := false } } }) s) s

/-- What a load writes: the payloads' places, the optimizer records, the seeds. -/
def loadStretches (im : JobImage) : List (Nat × Nat) :=
  ((im.init ++ im.chanlist ++ im.berm).map fun p => (p.dest, p.data.length)) ++
    (im.optrecs.flatMap fun o => (im.tensors.filter fun e => e.tensor == o.tensor && e.skind == 0x18).map stretchOf) ++
    (recordStreams im 0x0B).map stretchOf

/-- Load an image that has passed every check. -/
def loadJob (im : JobImage) (a : LoadArgs) (s : State) : State :=
  let s := { s with
    exec := Exec.reset, inspect := { s.inspect with wait := [] }, gauges := { cells := [], step := [] }, queues := im.queues.map loadQueue,
    job := { JobCtl.reset with state := s.job.state, image := some im, tag := BitVec.ofNat 16 a.tag, x := a.x, y := a.y, z := a.z,
                               neigh := a.neigh, cstep := im.step0, nextFirst := im.step0 },
    twin := { s.twin with rollback := none, sched := [], byStop := false, inProg := none, sent := none, doneFrom := [],
                          m := 86400000000000, ran := 0, schedRun := 0, lastStopEnd := 0, nextCkpt := none, gaugesCopy := none } }
  let s := copyPayloads (im.init ++ im.chanlist ++ im.berm) (clearKeeps s)
  let s := im.chanlist.foldl (fun s p => keepLists (ptrAddr p.dest) p.data s) s
  let s := im.optrecs.foldl (fun s o => match tensorOf o.tensor 0x18 s with
    | some e => ptrWrite (entryPlace e s) e.base 0 o.bytes s
    | none => s) s
  let s := (recordStreams im 0x0B).foldl (fun s e => ptrWrite (entryPlace e s) e.base 0 (leBytes 4 0) s) s
  setJob .loaded ((updTensors im).foldl (fun s k => regenTensor im k s) s)

/-- The UNIT word of a refused image: the stack whose policy differs (R166), or the port and the physical ID found there (R225). -/
def imageUnit (a : Accepted) (b : Bytes) (idx : Nat) (s : State) : Nat :=
  if idx = 17 then ((policyDiffers (decodeImage b) s).map fun i => unitWord 3 i 0).getD (mboxUnit a.mb)
  else if idx = 18 then ((neighbourFails (decodeImage b) (loadArgs a.entry) s).map fun p => unitWord 4 p.1 p.2).getD (mboxUnit a.mb)
  else mboxUnit a.mb

/-- JOB_LOAD: on an unpaired package 0x06 (R284); an image that fails a check is refused with its index and leaves everything as it was
(R145). -/
def runJobLoad (a : Accepted) (s : State) : State :=
  if s.twin.phys.isNone then finish a 6 0 s
  else
    match a.ext with
    | .data (some b) =>
      let idx := imageCheck b (loadArgs a.entry) s
      if idx = 0 then
        withStretches (loadStretches (decodeImage b)) a (fun s => finish a 0 0 (loadJob (decodeImage b) (loadArgs a.entry) s)) s
      else finish a 7 idx (logEv 0x0002 (imageUnit a b idx s) 0x0101 7 idx (entTag a.entry) s)
    | _ => finish a 9 0 s

/-- Whether a job is loaded and does not run. -/
def idleJob (s : State) : Bool := s.job.state == .loaded || s.job.state == .stopped

/-- JOB_START: the origin is set; the run begins there (R152). -/
def runJobStart (a : Accepted) (s : State) : State :=
  if idleJob s then { s with job := { s.job with startAt := some (arg a.entry 0 8) } } else finish a 4 0 s

/-- JOB_STOP: it took effect at its acceptance where a step stands abandoned; else it ends once the last step has committed (R152). -/
def runJobStop (a : Accepted) (s : State) : State :=
  if !running s then finish a 4 0 s
  else if s.job.abandoned then stopAbandoned s
  else { s with job := { s.job with stopping := true } }

/-- JOB_UNLOAD. -/
def runJobUnload (a : Accepted) (s : State) : State :=
  let s := setJob .none (abandonTasks s)
  finish a 0 0 { s with job := JobCtl.reset, exec := Exec.reset, queues := [], inspect := { s.inspect with wait := [] } }

/-- CKPT_STOP: the checkpoint was scheduled at the acceptance, and its commit ends the command (R292). -/
def runCkptStop (a : Accepted) (s : State) : State := if running s then s else finish a 0x0A 0 s

/-- The step whose checkpoint a CKPT_STOP takes: the one that ends at the first origin at least 1.1 ms away. -/
def ckptStep (s : State) : Nat := if tideNow s + 1100000 ≤ nextOrigin s then s.job.cstep else s.job.cstep + 1

/-- The slot a restore asks the twin for: that of the rollback point when it is of the step. -/
def restoreSlot (t : Nat) (s : State) : Nat :=
  match s.twin.rollback with
  | some (k, j) => if k = t then j else 0
  | none => 0

/-- A record of this package's own checkpoint area: the slot with a valid header of the step, else slot 0. -/
def ownRecord (t : Nat) (s : State) : Bytes :=
  let h := fun (k : Nat) => slotRead k 0 256 s
  let k := ([0, 1].find? fun k => headerValid (h k) && field (h k) 8 4 == t).getD 0
  slotRead k 0 (field (h k) 24 8) s

/-- What a restore writes: the state streams and lists of the record. -/
def restoreStretches (im : JobImage) : List (Nat × Nat) :=
  ([0x15, 0x16, 0x17, 0x18, 0x07, 0x0B].flatMap fun k => recordStreams im k).map stretchOf

/-- Restore from a record whose first or second read is good; else the state areas are invalid (R294). -/
def restoreFrom (a : Accepted) (b1 b2 : Bytes) (s : State) : State :=
  let t := arg a.entry 0 4
  match s.job.image with
  | none => finish a 4 0 s
  | some im =>
    let good := [b1, b2].find? fun b => recordGood im t b s
    match good with
    | none => finish a 0x0A 0 { s with job := { s.job with invalid := true } }
    | some b =>
      let k := restoreSlot t s
      withStretches (restoreStretches im) a (fun s =>
        let s := applyRecord im t b s
        finish a 0 0 { s with
          job := { s.job with nextFirst := t + 1, cstep := t, failStopped := false, invalid := false },
          twin := { s.twin with rollback := some (t, k), nextCkpt := none } }) s

/-- The checkpoint area, which begins at the base of both far-tier windows (R285), as pointers of space 1. -/
def areaStretches : List (Nat × Nat) := [(2 ^ 60 + farBase 0, 1), (2 ^ 60 + farBase 1, 1)]

/-- RESTORE (R294, R295). -/
def runRestore (a : Accepted) (s : State) : State :=
  let t := arg a.entry 0 4
  let s := abortSlot s
  if arg a.entry 4 1 = 1 then
    withStretches areaStretches a (fun s => restoreFrom a (ownRecord t s) (ownRecord t s) s) s
  else
    match s.twin.phys with
    | none => finish a 6 0 s
    | some p =>
      let s := peerToPhys 0x8030 p (leBytes 4 t ++ leBytes 1 (restoreSlot t s)) s
      match a.ext with
      | .records b1 b2 => restoreFrom a b1 b2 s
      | _ => restoreFrom a [] [] s

/-- TWIN_UNPAIR (R284). -/
def runUnpair (a : Accepted) (s : State) : State :=
  match s.twin.phys with
  | none => finish a 6 0 s
  | some p => finish a 0 0 (endPair (peerToPhys 0x8002 p [] s))

/-! ### Configuration and resets -/

/-- MEM_POLICY: each stack whose policy changes is zeroed and recorded (R166). -/
def runMemPolicy (a : Accepted) (s : State) : State :=
  let p := arg a.entry 4 1 == 1
  finish a 0 0 ((List.finRange 32).foldl (fun s i =>
    if bit (arg a.entry 0 4) i.val && s.memStacks[i].policy != p then
      ledgerAppend 0x40 6 i.val 0 (leBytes 4 (b2n p)) (modStack i (fun k => { k with policy := p }) (zeroStack i s))
    else s) s)

/-- FARTIER_SETUP (R192). -/
def runFarSetup (a : Accepted) (s : State) : State :=
  match a.ext with
  | .far f0 f1 => finish a 0 0 (setupBoth (arg a.entry 0 1) f0 f1 s)
  | _ => finish a 0 0 s

/-- The window record of a LEVEE_WINDOW entry. -/
def windowArg (e : Bytes) : Nat × Window := decodeWindow (slice (e.drop 32) 0 32)

/-- LEVEE_WINDOW: a change accepted in state R waits for the next boundary, which ends the command (R212). -/
def runWindow (a : Accepted) (s : State) : State :=
  if !s.power.gsite then finish a 6 0 s
  else if a.aux ≠ 0 then s
  else finish a 0 0 (setWindow (windowArg a.entry).1 (windowArg a.entry).2 s)

/-- Hold the guest site in reset for 1 ms (R217); GUEST_RESET ends a quarantine. -/
def holdGuest (release : Bool) (s : State) : State :=
  modLevee (fun l => { l with guestReset := true, resetUntil := s.now + 1000000, quarantine := l.quarantine && !release })
    (failGuest (dropLinks [40] s))

/-- GUEST_RESET (R217). -/
def runGuestReset (a : Accepted) (s : State) : State :=
  if s.power.gsite then finishAt a 0 0 (s.now + 1000000) (holdGuest true s) else finish a 6 0 s

/-- Whether an acknowledgement that is withheld is for a core of a die. -/
def isCoreAck (d : Fin 4) (h : HeldAck) : Bool :=
  match h.ack.who with
  | .core c _ _ => c == d
  | _ => false

/-- Hold a compute die in reset: its links drop, its core stores are zeroed (Table 12.7), and its cores abandon their landings (R176) and
the acknowledgements they wait for. -/
def holdDie (d : Fin 4) (s : State) : State :=
  let s := dropWatches (fun w => w.die == d.val) (dropLinks (dieLinks d) s)
  let s := (List.finRange 32).foldl (fun s i =>
    modStack i (fun k => { k with withheld := k.withheld.filter fun h => !isCoreAck d h }) s) s
  let s := zeroStores d.val (modDie d (fun k => { k with inReset := true, resetUntil := s.now + 1000000 }) s)
  { s with cores := (s.cores.filter fun k => k.die != d.val || k.mapped).map fun k =>
      if k.die = d.val then { Core.idle k.die k.core with mapped := true } else k }

/-- Hold a stack in reset: its cache is written back and invalidated, its contents stay (Table 12.7). -/
def holdStack (i : Fin 32) (s : State) : State :=
  let s := invalidateCache i (flushCache i (dropLinks [stackLink i.val] s))
  modStack i (fun k => { k with inReset := true, resetUntil := s.now + 1000000, selfRefresh := true, watch := [] }) s

/-- UNIT_RESET (R205, R318, R319): the unit is held for 1 ms. -/
def runUnitReset (a : Accepted) (s : State) : State :=
  let t := s.now + 1000000
  match arg a.entry 0 1 with
  | 0 => finishAt a 0 0 t (holdDie (Fin.ofNat 4 (arg a.entry 1 1)) s)
  | 1 => finishAt a 0 0 t (holdStack (Fin.ofNat 32 (arg a.entry 1 1)) s)
  | _ => if s.power.gsite then finishAt a 0 0 t (holdGuest false s) else finish a 6 0 s

/-- Release the units whose hold has ended; their links train again (Table 8.3). A guest in quarantine stays held. -/
def releaseUnits (s : State) : State :=
  let s := (List.finRange 4).foldl (fun s d =>
    if s.dies[d].inReset ∧ s.dies[d].resetUntil ≤ s.now then modDie d (fun k => { k with inReset := false }) s else s) s
  let s := (List.finRange 32).foldl (fun s i =>
    if s.memStacks[i].inReset ∧ s.memStacks[i].resetUntil ≤ s.now then
      modStack i (fun k => { k with inReset := false, selfRefresh := k.stopped }) s else s) s
  if s.levee.guestReset && !s.levee.quarantine && decide (s.levee.resetUntil ≤ s.now) then modLevee (fun l => { l with guestReset := false }) s
  else s

/-- CLOCK_MODE: fixed-clock mode returns every compute die to 1.20 GHz on PLL0 (R330). -/
def runClockMode (a : Accepted) (s : State) : State :=
  let on := arg a.entry 0 1 == 1
  let s := modPower (fun p => { p with boost := on }) s
  let s := if on then s else (List.finRange 4).foldl (fun s d =>
    let u : Fin 36 := Fin.castLE (by decide) d
    modPll u (fun k => if k.freq = 1200 ∧ k.active = 0 then k
      else { k with active := 0, freq := 1200, lastChange := s.now, costPs := changeCost k.freq 1200 }) s) s
  finish a 0 0 s

/-- GUARD_MODE (R72). -/
def runGuard (a : Accepted) (s : State) : State :=
  let k := (arg a.entry 0 1, arg a.entry 1 2)
  let rest := s.warden.guard.filter (· != k)
  finish a 0 0 { s with warden := { s.warden with guard := if arg a.entry 3 1 = 1 then rest ++ [k] else rest } }

/-- The number of a link from its type and index (Table 11.9). -/
def linkNo (ty idx : Nat) : Nat :=
  match ty with
  | 0 => idx
  | 1 => 4 + idx
  | 2 => 8 + idx
  | _ => 40

/-- The links that a test mode covers (Table 8.6): the one named; in the stand-alone die test every link of its die at once, which is the
compute die of the named link's index, or for the guest link the hub die (log entry 71). -/
def testedLinks (ty idx mode : Nat) : List (Fin 41) :=
  if mode ≠ 1 then [Fin.ofNat 41 (linkNo ty idx)]
  else
    match ty with
    | 0 => dieLinks (Fin.ofNat 4 idx)
    | 1 => dieLinks (Fin.ofNat 4 idx)
    | 2 => dieLinks (Fin.ofNat 4 (idx / 8))
    | _ => [hubLink 0, hubLink 1, hubLink 2, hubLink 3, 40]

/-- The worst wire of a direction of a link goes to its settlement gauge. -/
def sampleMargin (ws : List WireResult) (s : State) (x : Fin 41 × Bool) : State :=
  let ps := (ws.filter fun w => w.link == x.1 && w.rev == x.2).map (·.ps)
  if ps.isEmpty then s else sample 2 (2 * x.1.val + b2n x.2) (toFp32 ((ps.foldl min (ps.headD 0) : Nat) : Int) 0) s

/-- LINK_TEST (R210): the far-end loopback and the wire sweep need the partner out of reset; the results go to DATA and to the settlement
gauges; the ledger is not written. -/
def runLinkTest (a : Accepted) (s : State) : State :=
  let mode := arg a.entry 2 1
  let ls := testedLinks (arg a.entry 0 1) (arg a.entry 1 1) mode
  if 2 ≤ mode && !ls.all (fun l => endsReady l s) then finish a 6 0 s
  else
    let ws := match a.ext with
      | .wires _ w => w.filter fun r => ls.contains r.link
      | _ => []
    let s := (ls.flatMap fun l => [(l, false), (l, true)]).foldl (sampleMargin ws) s
    let b := (Config.linkTestImage ws).take (entLen a.entry)
    deliverAt a b b.length (s.now + arg a.entry 4 4 * 1000000) s

/-- The 64-byte record of CORE_SCAN (Table 10.16). -/
def scanBytes (r : ScanResult) : Bytes :=
  leBytes 4 r.patterns.toNat ++ leBytes 4 r.fails.toNat ++ leBytes 4 r.first.toNat ++ leBytes 1 r.tests.toNat ++ leBytes 1 0 ++
    leBytes 2 r.vfail.toNat ++ leBytes 48 0

/-- CORE_SCAN (R362): on a die whose clusters are stopped or that is in reset the core is down, status 0x06 (Table 10.9). -/
def runScan (a : Accepted) (s : State) : State :=
  let d := Fin.ofNat 4 (arg a.entry 0 1)
  if s.dies[d].inReset || clusterStopped d s then finish a 6 0 s
  else match a.ext with
  | .scan _ r => deliverAt a (scanBytes r) (b2n (decide (r.tests ≠ 0))) s.now s
  | _ => finish a 0 0 s

/-! ### Firmware (R279, R281) -/

/-- FW_WRITE: an image that fails R279 leaves the slot as it was. -/
def runFwWrite (a : Accepted) (s : State) : State :=
  match a.ext with
  | .data (some b) =>
    let k := arg a.entry 0 1
    let c := fwCheck b s.warden.svnMin
    if c ≠ 0 then finish a 8 0 (logEv 0x0071 0 k c 0 0 s)
    else finish a 0 0 { s with flash := if k = 0 then { s.flash with slotA := b } else { s.flash with slotB := b } }
  | _ => finish a 9 0 s

/-- FW_ACTIVATE: the slot is verified again, and the older boot-record copy becomes the newer one. -/
def runFwActivate (a : Accepted) (s : State) : State :=
  let k := arg a.entry 0 1
  let c := fwCheck (fwSlot (k == 1) s) s.warden.svnMin
  if c ≠ 0 then finish a 8 0 (logEv 0x0071 0 k c 0 0 s)
  else
    let r : BootRec := { slot := k == 1, count := max s.flash.bootA.count s.flash.bootB.count + 1 }
    finish a 0 0 { s with flash := if s.flash.bootA.count < s.flash.bootB.count then { s.flash with bootA := r } else { s.flash with bootB := r } }

/-! ### Starting a command -/

/-- Whether a command reads DATA. -/
def readsData (op : Nat) : Bool := op == 0x0101 || op == 0x0501

/-- Start a command that has been accepted. One whose port was reset before its DATA was read ends with 0x09 (R255). -/
def runOp (a : Accepted) (s : State) : State :=
  if a.orphan && readsData (entOp a.entry) then finish a 9 0 s
  else
    match entOp a.entry with
    | 0x0001 => finish a 0 0 s
    | 0x0002 => runIdentify a s
    | 0x0003 => runGaugeRead a s
    | 0x0004 => runEventRead a s
    | 0x0005 => deliverAll a (wearReport s) s
    | 0x0006 => deliverAll a (ledgerCopy s) s
    | 0x0007 => runExport a s
    | 0x0101 => runJobLoad a s
    | 0x0102 => runJobStart a s
    | 0x0103 => runJobStop a s
    | 0x0104 => runJobUnload a s
    | 0x0201 => runCkptStop a s
    | 0x0202 => runRestore a s
    | 0x0203 => startPair (arg a.entry 0 2) (bit (arg a.entry 2 1) 0) s
    | 0x0204 => runUnpair a s
    | 0x0301 => runMemPolicy a s
    | 0x0302 => runFarSetup a s
    | 0x0303 => runWindow a s
    | 0x0304 => runGuestReset a s
    | 0x0305 => runUnitReset a s
    | 0x0307 => runClockMode a s
    | 0x0308 => finish a 0 0 (modPower (fun p => { p with inspectHours := arg a.entry 0 2 }) s)
    | 0x0401 => runGuard a s
    | 0x0402 => runLinkTest a s
    | 0x0403 => runScan a s
    | 0x0501 => runFwWrite a s
    | 0x0502 => runFwActivate a s
    | _ => s

/-- Replace the first command of a list that equals `a` by `b`. -/
def replaceFirst (a b : Accepted) : List Accepted → List Accepted
  | [] => []
  | x :: r => if x = a then b :: r else x :: replaceFirst a b r

/-- Mark a command started and start it. -/
def startOp (a : Accepted) (s : State) : State :=
  let b := { a with started := true }
  runOp b { s with warden := { s.warden with accepted := replaceFirst a b s.warden.accepted } }

/-- Start the next locked command when no other is at work (R269). -/
def startNext (s : State) : State :=
  match s.warden.accepted.find? (·.locked) with
  | some a => if a.started || a.done.isSome then s else startOp a s
  | none => s

end Sys2Proof.Machine
end

