-- ==== Sys2Proof/Machine/Mailbox.lean ====
section
/-! DEFINITION. The mailboxes: acceptance and refusal of the commands of Table 10.8, their completion, the command doorbell, and the I3C
target (R255, R261 to R271, R277, R280). -/

namespace Sys2Proof.Machine

/-! ### The front of a mailbox -/

/-- The entry that the warden would read next. A host mailbox counts while its port is up and EN is 1; in recovery mode only port A and
the I3C target are up (R280). -/
def headEntry (mb : Mbox) (s : State) : Option Bytes :=
  match mboxPort mb with
  | some p =>
    if portAlive p s && (hostOf p s).mb.en && (!s.warden.recov || p == .a) then (hostOf p s).mb.waiting.head? else none
  | none => s.i3c.waiting.head?

/-- Commands of a mailbox accepted and not yet done, without those accepted before the latest reset of its port (R267). -/
def openCount (mb : Mbox) (s : State) : Nat := (s.warden.accepted.filter fun a => a.mb == mb && !a.orphan).length

/-- Whether the warden reads the next entry of a mailbox now (R267). -/
def canAccept (mb : Mbox) (s : State) : Bool :=
  (s.warden.ready || s.warden.recov) && decide (openCount mb s < 64) && cplSpace mb s

/-- Take the front entry out of a mailbox: CCI advances. -/
def popEntry (mb : Mbox) (s : State) : State :=
  match mboxPort mb with
  | some p =>
    modHost p (fun h => { h with mb := { h.mb with
      waiting := h.mb.waiting.tail, cci := BitVec.ofNat 16 ((h.mb.cci.toNat + 1) % (2 * cSize h.mb)) } }) s
  | none => { s with i3c := { s.i3c with waiting := s.i3c.waiting.tail } }

/-! ### Refusals (R7, R261, R265, R270, R271) -/

/-- Whether an opcode is known and allowed in a mailbox: I3C takes 0x0001 to 0x0006 (R269), recovery mode the six of R280. -/
def opAllowed (mb : Mbox) (op : Nat) (s : State) : Bool :=
  (cmdRow op).isSome && (mb != .i3c || decide (op ≤ 0x0006)) &&
    (!s.warden.recov || [0x0001, 0x0002, 0x0004, 0x0306, 0x0501, 0x0502].contains op)

/-- Reserved encodings of ARGS: a reset level other than 1 and 2 (Table 12.7), TWIN_PAIR's bits [7:1], FARTIER_SETUP's bits [7:2], a
window record's (Table 8.7). -/
def argReserved (op : Nat) (e : Bytes) : Bool :=
  match op with
  | 0x0203 => decide (1 < arg e 2 1)
  | 0x0302 => decide (3 < arg e 0 1)
  | 0x0303 => windowReserved (slice (e.drop 32) 0 32)
  | 0x0306 => arg e 0 1 != 1 && arg e 0 1 != 2
  | _ => false

/-- Whether the lock allows a command of a mailbox (R261). -/
def lockOk (mb : Mbox) (e : Bytes) (s : State) : Bool :=
  match mboxPort mb with
  | some p => s.lock.owner == some p && entGen e == s.lock.gen.toNat
  | none => false

/-- Whether the state of the job or of the package forbids a command beyond Table 10.8's list: R152, R294 and R297 for a start, R73 for
a core in guard-bit mode, R250, R329 and R316 for a load, Table 12.13 for a masked PFAIL_N, Table 12.9 during a power-fail warning,
R212 for a window record under a loaded job. -/
def stateForbids (op : Nat) (e : Bytes) (s : State) : Bool :=
  (s.power.pfail && decide (0x0006 < op)) ||
    match op with
    | 0x0101 => s.power.pfailIn.masked || s.power.boost || !s.tide.tsync
    | 0x0102 => s.power.pfailIn.masked || s.job.failStopped || s.job.invalid || !s.warden.guard.isEmpty
    | 0x0303 => s.power.gsite && jobLoaded s && !windowLoadedOk (windowArg e).1 (windowArg e).2 s
    | _ => false

/-- The start of a command's bound: its acceptance, or the deadline of the previous locked command if that is later (R269). -/
def boundStart (locked : Bool) (s : State) : Nat := if locked then max (tideNow s) s.warden.lockedDeadline else tideNow s

/-- Whether DATA and DATALEN are as R265 asks of a host mailbox, or as R277 asks of the I3C target. -/
def dataBad (mb : Mbox) (op : Nat) (data : Bool) (e : Bytes) : Bool :=
  if mb = .i3c then
    match op with
    | 0x0002 => entData e != 0
    | 0x0003 => entData e % 65536 != 0 || entLen e != 65536
    | 0x0004 => entData e != 0 || decide (1024 < arg e 8 2)
    | 0x0005 => entData e % 65536 != 0 || entLen e != 65536
    | 0x0006 => entData e % 65536 != 0 || entLen e != 65536
    | _ => entData e != 0 || entLen e != 0
  else if data then entData e == 0 || entLen e == 0 || entData e % 8 != 0
  else entData e != 0 || entLen e != 0

/-- Whether a value of ARGS lies outside its stated range (Table 10.8, R210, R212, R281, R282). Table 10.8 states no range for the index
of UNIT_RESET's guest site: the model refuses an index other than 0 on a G part with 0x05, and accepts it on an SE part, where the
command ends with 0x06 (DESIGN CHOICE, log entry 76). -/
def argBad (op : Nat) (e : Bytes) (s : State) : Bool :=
  match op with
  | 0x0003 => decide (2 < arg e 1 1)
  | 0x0004 => arg e 8 2 == 0 || decide (4096 < arg e 8 2)
  | 0x0007 => decide (2 < arg e 4 1) || (tensorOf (arg e 0 4) (0x15 + arg e 4 1) s).isNone
  | 0x0101 => arg e 4 2 == 0
  | 0x0102 => decide (arg e 0 8 < boundStart true s + 1000000) || decide (tideNow s + 60000000000 < arg e 0 8)
  | 0x0202 => decide (1 < arg e 4 1)
  | 0x0203 => (match feedOf (arg e 0 2) s with
    | some f => f == s.power.straps.feed.toNat && !bit (arg e 2 1) 0
    | none => true)
  | 0x0301 => decide (1 < arg e 4 1)
  | 0x0303 => s.power.gsite && (decide (7 < (windowArg e).1) || windowBad (windowArg e).1 (windowArg e).2 s)
  | 0x0305 => (match arg e 0 1 with
    | 0 => decide (3 < arg e 1 1)
    | 1 => decide (31 < arg e 1 1)
    | 2 => s.power.gsite && arg e 1 1 != 0
    | _ => true)
  | 0x0307 => decide (1 < arg e 0 1)
  | 0x0308 => decide (168 < arg e 0 2)
  | 0x0401 => decide (3 < arg e 0 1) || decide (1087 < arg e 1 2) || decide (1 < arg e 3 1)
  | 0x0402 =>
    decide (3 < arg e 0 1) || decide ([4, 4, 32, 1].getD (arg e 0 1) 0 ≤ arg e 1 1) || decide (3 < arg e 2 1) || arg e 4 4 == 0 ||
      decide (10000 < arg e 4 4)
  | 0x0403 => decide (3 < arg e 0 1) || decide (1087 < arg e 1 2) || decide (entLen e < 64)
  | 0x0501 => decide (1 < arg e 0 1) || (!s.warden.recov && arg e 0 1 == b2n s.warden.slot)
  | 0x0502 => decide (1 < arg e 0 1)
  | _ => false

/-- The status with which a command is refused, or 0 where it is accepted. Several may apply; the model takes the lowest of 0x02, 0x01,
0x03, 0x04, 0x05 in that order (log entry 18). -/
def refusalOf (mb : Mbox) (e : Bytes) (s : State) : Nat :=
  let op := entOp e
  match cmdRow op with
  | none => 2
  | some row =>
    if !opAllowed mb op s then 2
    else if entReserved row.used e || argReserved op e then 1
    else if row.lock && !s.warden.recov && !lockOk mb e s then 3
    else if !row.states.contains s.job.state || stateForbids op e s then 4
    else if dataBad mb op row.data e || argBad op e s then 5
    else 0

/-! ### Acceptance (R267, R269, Table 10.8) -/

/-- Whether the bound of an entry is the next step boundary of a running job: a window record in state R (R212, Table 10.8), on a part of
either ordering code. -/
def waitsBoundary (e : Bytes) (s : State) : Bool := entOp e == 0x0303 && running s

/-- DEADLINE of a command accepted now (Table 10.8, R269). -/
def cmdDeadline (locked : Bool) (e : Bytes) (s : State) : Nat :=
  let b := boundStart locked s
  match entOp e with
  | 0x0001 => b + 1000000
  | 0x0002 => b + 1000000
  | 0x0003 => b + 10000000
  | 0x0004 => b + 10000000
  | 0x0007 => b + cdiv (entLen e) 50 + 10000000
  | 0x0101 => b + cdiv (entLen e) 100 + 2000000000
  | 0x0102 => max b (arg e 0 8 + 1000000)
  | 0x0103 => max b ((if s.job.abandoned then tideNow s else nextOrigin s) + 101000000)
  | 0x0201 => max b (nextOrigin s + (ckptStep s - s.job.cstep) * period s + stopTime s + 1000000)
  | 0x0202 => b + 20000000000
  | 0x0203 => b + 1000000000
  | 0x0302 => b + 5000000000
  | 0x0303 => if waitsBoundary e s then max b (nextOrigin s + 1000000) else b + 1000000
  | 0x0304 => b + 200000000
  | 0x0305 => b + 500000000
  | 0x0306 => tideNow s + 1000000
  | 0x0307 => b + 10000000
  | 0x0308 => b + 1000000
  | 0x0401 => b + 1000000
  | 0x0402 => b + arg e 4 4 * 1000000 + 10000000
  | 0x0403 => b + 200000000
  | 0x0501 => b + entLen e * 1000 + 5000000000
  | 0x0502 => b + 2000000000
  | _ => b + 100000000

/-- What takes effect at acceptance: a JOB_STOP holds the steps after the next origin, or takes effect at once where a step stands
abandoned (R152); a CKPT_STOP schedules its checkpoint (R292); a window record waits for the boundary (R212); PKG_RESET fixes the
instant of the reset and a running or stopped job fails (R297, R317). -/
def acceptEffect (e : Bytes) (s : State) : State :=
  match entOp e with
  | 0x0103 =>
    if s.job.abandoned then stopAbandoned s
    else if running s then { s with job := { s.job with stopping := true } } else s
  | 0x0201 => modTwin (fun w => { w with byStop := true }) (schedule (ckptStep s) s)
  | 0x0303 => if waitsBoundary e s && s.power.gsite then modLevee (fun l => { l with changes := l.changes ++ [windowArg e] }) s else s
  | 0x0306 =>
    let s := modPower (fun p => { p with pend := some { level := arg e 0 1, tA := s.now } }) s
    if s.job.state = .running ∨ s.job.state = .stopped then failPackage 4 0x0B s.seq s else s
  | _ => s

/-- Accept a command: its deadline, the lease, the ACCEPTED entry; one that needs no lock starts at once, one that needs it when no
other is at work. -/
def accept (mb : Mbox) (e : Bytes) (ext : EnvAnswer) (s : State) : State :=
  let lk := ((cmdRow (entOp e)).map (·.lock)).getD false
  let d := cmdDeadline lk e s
  let a : Accepted :=
    { mb := mb, entry := e, deadline := d, acceptedAt := s.now, locked := lk, started := false, done := none, orphan := false, ext := ext,
      aux := b2n (waitsBoundary e s) }
  let s := { s with warden := { s.warden with
    accepted := s.warden.accepted ++ [a], lockedDeadline := if lk then d else s.warden.lockedDeadline } }
  let s := if lk && s.lock.owner.isSome then restartLease s else s
  let s := acceptEffect e (putCpl mb e 0 0 d 0 0 false s)
  if lk then startNext s else startOp a s

/-- Read an entry: refuse it or accept it. -/
def takeEntry (mb : Mbox) (e : Bytes) (ext : EnvAnswer) (s : State) : State :=
  let st := refusalOf mb e s
  if st = 0 then accept mb e ext (popEntry mb s) else refuse mb e st (popEntry mb s)

/-- Refuse the entries at the front of a mailbox whose opcode is no command's; `n` bounds them. -/
def drainBad (mb : Mbox) : Nat → State → State
  | 0, s => s
  | n + 1, s =>
    match headEntry mb s with
    | some e => if (cmdRow (entOp e)).isNone && canAccept mb s then drainBad mb n (takeEntry mb e .none s) else s
    | none => s

/-- The most entries a ring holds. -/
def ringMost : Nat := 1024

/-- Refuse what stands at the front of a mailbox and is no command. -/
def drain (mb : Mbox) (s : State) : State := drainBad mb ringMost s

/-- A command of Table 10.8 from a mailbox: it is the entry at the front, or nothing happens. -/
def fromMailbox (op : Nat) (mb : Mbox) (ext : EnvAnswer) (s : State) : State :=
  let s := drain mb s
  match headEntry mb s with
  | some e => if entOp e = op ∧ canAccept mb s then drain mb (takeEntry mb e ext s) else s
  | none => s

/-- The bytes that a read of DATA brings: exactly DATALEN of them, or none where host memory does not answer (R265). -/
def dataExt (mb : Mbox) (d : Option Bytes) (s : State) : EnvAnswer :=
  .data (match d, headEntry mb (drain mb s) with
    | some b, some e => if b.length = entLen e then some b else none
    | _, _ => none)

/-! ### The commands -/

/-- NOP. -/
def execNop (mb : Mbox) (s : State) : Host.Outcome State Fault Refusal := .next (fromMailbox 0x0001 mb .none s)

/-- IDENTIFY. -/
def execIdentify (mb : Mbox) (dma : Bool) (s : State) : Host.Outcome State Fault Refusal := .next (fromMailbox 0x0002 mb (.dma dma) s)

/-- GAUGE_READ (R103). -/
def execGaugeRead (mb : Mbox) (dma : Bool) (s : State) : Host.Outcome State Fault Refusal := .next (fromMailbox 0x0003 mb (.dma dma) s)

/-- EVENT_READ (R276). -/
def execEventRead (mb : Mbox) (dma : Bool) (s : State) : Host.Outcome State Fault Refusal := .next (fromMailbox 0x0004 mb (.dma dma) s)

/-- WEAR_REPORT (R306). -/
def execWearReport (mb : Mbox) (dma : Bool) (s : State) : Host.Outcome State Fault Refusal := .next (fromMailbox 0x0005 mb (.dma dma) s)

/-- LEDGER_READ (R302). -/
def execLedgerRead (mb : Mbox) (dma : Bool) (s : State) : Host.Outcome State Fault Refusal := .next (fromMailbox 0x0006 mb (.dma dma) s)

/-- EXPORT. -/
def execExportTensor (mb : Mbox) (dma : Bool) (s : State) : Host.Outcome State Fault Refusal := .next (fromMailbox 0x0007 mb (.dma dma) s)

/-- JOB_LOAD (R145). -/
def execJobLoad (mb : Mbox) (data : Option Bytes) (s : State) : Host.Outcome State Fault Refusal :=
  .next (fromMailbox 0x0101 mb (dataExt mb data s) s)

/-- JOB_START (R152). -/
def execJobStart (mb : Mbox) (s : State) : Host.Outcome State Fault Refusal := .next (fromMailbox 0x0102 mb .none s)

/-- JOB_STOP (R152). -/
def execJobStop (mb : Mbox) (s : State) : Host.Outcome State Fault Refusal := .next (fromMailbox 0x0103 mb .none s)

/-- JOB_UNLOAD. -/
def execJobUnload (mb : Mbox) (s : State) : Host.Outcome State Fault Refusal := .next (fromMailbox 0x0104 mb .none s)

/-- CKPT_STOP (R292). -/
def execCkptStop (mb : Mbox) (s : State) : Host.Outcome State Fault Refusal := .next (fromMailbox 0x0201 mb .none s)

/-- RESTORE (R294, R295): `first` and `second` are what the twin streams at the first and the second read. -/
def execRestore (mb : Mbox) (first second : Bytes) (s : State) : Host.Outcome State Fault Refusal :=
  .next (fromMailbox 0x0202 mb (.records first second) s)

/-- TWIN_PAIR (R282). -/
def execTwinPair (mb : Mbox) (s : State) : Host.Outcome State Fault Refusal := .next (fromMailbox 0x0203 mb .none s)

/-- TWIN_UNPAIR (R284). -/
def execTwinUnpair (mb : Mbox) (s : State) : Host.Outcome State Fault Refusal := .next (fromMailbox 0x0204 mb .none s)

/-- MEM_POLICY (R166). -/
def execMemPolicy (mb : Mbox) (s : State) : Host.Outcome State Fault Refusal := .next (fromMailbox 0x0301 mb .none s)

/-- FARTIER_SETUP (R192). -/
def execFarTierSetup (mb : Mbox) (f0 f1 : FarProbe) (s : State) : Host.Outcome State Fault Refusal :=
  .next (fromMailbox 0x0302 mb (.far f0 f1) s)

/-- LEVEE_WINDOW (R212). -/
def execLeveeWindow (mb : Mbox) (s : State) : Host.Outcome State Fault Refusal := .next (fromMailbox 0x0303 mb .none s)

/-- GUEST_RESET (R217). -/
def execGuestReset (mb : Mbox) (s : State) : Host.Outcome State Fault Refusal := .next (fromMailbox 0x0304 mb .none s)

/-- UNIT_RESET (R318). -/
def execUnitReset (mb : Mbox) (s : State) : Host.Outcome State Fault Refusal := .next (fromMailbox 0x0305 mb .none s)

/-- PKG_RESET (R317, R319). -/
def execPkgReset (mb : Mbox) (s : State) : Host.Outcome State Fault Refusal := .next (fromMailbox 0x0306 mb .none s)

/-- CLOCK_MODE (R330). -/
def execClockMode (mb : Mbox) (s : State) : Host.Outcome State Fault Refusal := .next (fromMailbox 0x0307 mb .none s)

/-- INSPECT_CFG (R299). -/
def execInspectCfg (mb : Mbox) (s : State) : Host.Outcome State Fault Refusal := .next (fromMailbox 0x0308 mb .none s)

/-- GUARD_MODE (R72). -/
def execGuardMode (mb : Mbox) (s : State) : Host.Outcome State Fault Refusal := .next (fromMailbox 0x0401 mb .none s)

/-- LINK_TEST (R210). -/
def execLinkTest (mb : Mbox) (dma : Bool) (wires : List WireResult) (s : State) : Host.Outcome State Fault Refusal :=
  .next (fromMailbox 0x0402 mb (.wires dma wires) s)

/-- CORE_SCAN (R362). -/
def execCoreScan (mb : Mbox) (dma : Bool) (result : ScanResult) (s : State) : Host.Outcome State Fault Refusal :=
  .next (fromMailbox 0x0403 mb (.scan dma result) s)

/-- FW_WRITE (R279, R281). -/
def execFwWrite (mb : Mbox) (data : Option Bytes) (s : State) : Host.Outcome State Fault Refusal :=
  .next (fromMailbox 0x0501 mb (dataExt mb data s) s)

/-- FW_ACTIVATE (R281). -/
def execFwActivate (mb : Mbox) (s : State) : Host.Outcome State Fault Refusal := .next (fromMailbox 0x0502 mb .none s)

/-! ### Completion -/

/-- What the end of a command does besides its entry: a hold of 1 ms is over. -/
def afterDone (a : Accepted) (s : State) : State :=
  if entOp a.entry = 0x0304 ∨ entOp a.entry = 0x0305 then releaseUnits s else s

/-- Write the DONE entry of an accepted command that has ended, and start the next locked one. -/
def completeOne (a : Accepted) (d : Done) (s : State) : State :=
  let s := putCpl a.mb a.entry 1 d.status 0 d.result d.fault a.orphan s
  let s := { s with warden := { s.warden with accepted := s.warden.accepted.erase a } }
  drain a.mb (tryFinish (startNext (afterDone a s)))

/-- COMMAND_COMPLETION (R267): the operation of the `i`-th accepted command has ended, and the completion ring has space. The ACCEPTED
entry of PKG_RESET is its last. -/
def execCommandCompletion (i : Nat) (s : State) : Host.Outcome State Fault Refusal :=
  .next (
    match s.warden.accepted[i]? with
    | some a =>
      match a.done with
      | some d =>
        if d.at_ ≤ s.now ∧ (a.orphan ∨ cplSpace a.mb s) ∧ entOp a.entry ≠ 0x0306 then completeOne a d s else s
      | none => s
    | none => s)

/-! ### The doorbell and the management bus -/

/-- CDB (R268). -/
def execCdb (p : HPort) (v : BitVec 32) (entries : List Bytes) (s : State) : Host.Outcome State Fault Refusal :=
  .next (drain (portMbox p) (viaPort p (writeCdb p v entries) s))

/-- Whether a masked doorbell was last read 10 µs ago or more. -/
def pollDue (masked : Bool) (last : Nat) (s : State) : Bool := masked && decide (last + 10000 ≤ s.now)

/-- DOORBELL_POLL (R268, R273). -/
def execDoorbellPoll (q : Nat) (s : State) : Host.Outcome State Fault Refusal :=
  .next (
    if q < 16 then
      let p : HPort := if q = 0 then .a else .b
      if decide (q = 0 ∨ q = 2) && pollDue (hostOf p s).mb.masked (hostOf p s).mb.lastPoll s then
        let s := modHost p (fun h => { h with mb := { h.mb with lastPoll := s.now } }) s
        if (hostOf p s).mb.en then drain (portMbox p) (seeEntries p s) else s
      else s
    else
      match queueOf q s with
      | some e =>
        if pollDue e.masked e.lastPoll s then
          modQueue q e.port (fun e =>
            let m := match e.unseen with
              | some v => moveIndex e v
              | none => e
            { m with unseen := none, lastPoll := s.now }) s
        else s
      | none => s)

/-- Whether the I3C target is at work: from the start of the firmware on, in recovery mode as well (R277, R280). -/
def i3cUp (s : State) : Bool := s.power.phase == .booted || s.power.phase == .ready || s.power.phase == .recovery

/-- I3C_PRIVATE_WRITE (R277): 128 bytes place an entry in queue 4. -/
def execI3cPrivateWrite (data : Bytes) (s : State) : Host.Outcome State Fault Refusal :=
  .next (
    if i3cUp s && data.length == 128 then drain .i3c { s with i3c := { s.i3c with waiting := s.i3c.waiting ++ [data] } } else s)

/-- I3C_PRIVATE_READ (R277): the oldest completion of queue 5, else what is left of the result buffer, else 32 zero bytes (log entry
20). -/
def execI3cPrivateRead (s : State) : Host.Outcome State Fault Refusal :=
  .next (
    if !i3cUp s then s
    else
      match s.i3c.done with
      | e :: r => emit (.i3cResp e) { s with i3c := { s.i3c with done := r, ibi := !r.isEmpty } }
      | [] =>
        emit (.i3cResp (slice s.i3c.buffer 0 32)) { s with i3c := { s.i3c with buffer := s.i3c.buffer.drop 32, ibi := false } })

/-- SETDASA (R277): the target at the static address 0x2A takes the dynamic address. -/
def execSetdasa (addr : BitVec 7) (dyn : BitVec 7) (s : State) : Host.Outcome State Fault Refusal :=
  .next (if i3cUp s && addr == 0x2A then { s with i3c := { s.i3c with dyn := some dyn } } else s)

end Sys2Proof.Machine
end

