-- ==== Sys2Proof/Machine/Dispatch.lean ====
section
/-! DEFINITION. One arm for each command: its meaning, called directly. -/

namespace Sys2Proof.Machine

def exec (i : Instr) (s : State) : Host.Outcome State Fault Refusal :=
  match i with
  | .nop mb => Sys2Proof.Machine.execNop mb s
  | .identify mb dma => Sys2Proof.Machine.execIdentify mb dma s
  | .gaugeRead mb dma => Sys2Proof.Machine.execGaugeRead mb dma s
  | .eventRead mb dma => Sys2Proof.Machine.execEventRead mb dma s
  | .wearReport mb dma => Sys2Proof.Machine.execWearReport mb dma s
  | .ledgerRead mb dma => Sys2Proof.Machine.execLedgerRead mb dma s
  | .exportTensor mb dma => Sys2Proof.Machine.execExportTensor mb dma s
  | .jobLoad mb data => Sys2Proof.Machine.execJobLoad mb data s
  | .jobStart mb => Sys2Proof.Machine.execJobStart mb s
  | .jobStop mb => Sys2Proof.Machine.execJobStop mb s
  | .jobUnload mb => Sys2Proof.Machine.execJobUnload mb s
  | .ckptStop mb => Sys2Proof.Machine.execCkptStop mb s
  | .restore mb first second => Sys2Proof.Machine.execRestore mb first second s
  | .twinPair mb => Sys2Proof.Machine.execTwinPair mb s
  | .twinUnpair mb => Sys2Proof.Machine.execTwinUnpair mb s
  | .memPolicy mb => Sys2Proof.Machine.execMemPolicy mb s
  | .farTierSetup mb f0 f1 => Sys2Proof.Machine.execFarTierSetup mb f0 f1 s
  | .leveeWindow mb => Sys2Proof.Machine.execLeveeWindow mb s
  | .guestReset mb => Sys2Proof.Machine.execGuestReset mb s
  | .unitReset mb => Sys2Proof.Machine.execUnitReset mb s
  | .pkgReset mb => Sys2Proof.Machine.execPkgReset mb s
  | .clockMode mb => Sys2Proof.Machine.execClockMode mb s
  | .inspectCfg mb => Sys2Proof.Machine.execInspectCfg mb s
  | .guardMode mb => Sys2Proof.Machine.execGuardMode mb s
  | .linkTest mb dma wires => Sys2Proof.Machine.execLinkTest mb dma wires s
  | .coreScan mb dma result => Sys2Proof.Machine.execCoreScan mb dma result s
  | .fwWrite mb data => Sys2Proof.Machine.execFwWrite mb data s
  | .fwActivate mb => Sys2Proof.Machine.execFwActivate mb s
  | .commandCompletion k => Sys2Proof.Machine.execCommandCompletion k s
  | .pairReq => Sys2Proof.Machine.execPairReq s
  | .unpair => Sys2Proof.Machine.execUnpair s
  | .ckptSched => Sys2Proof.Machine.execCkptSched s
  | .ckptBegin => Sys2Proof.Machine.execCkptBegin s
  | .ckptEnd => Sys2Proof.Machine.execCkptEnd s
  | .ckptAck => Sys2Proof.Machine.execCkptAck s
  | .ckptDone => Sys2Proof.Machine.execCkptDone s
  | .ckptCommit => Sys2Proof.Machine.execCkptCommit s
  | .ckptCommitTimeout => Sys2Proof.Machine.execCkptCommitTimeout s
  | .failReport => Sys2Proof.Machine.execFailReport s
  | .restoreReq => Sys2Proof.Machine.execRestoreReq s
  | .copyReq => Sys2Proof.Machine.execCopyReq s
  | .peerCompletion => Sys2Proof.Machine.execPeerCompletion s
  | .pairTimeout => Sys2Proof.Machine.execPairTimeout s
  | .acq p v => Sys2Proof.Machine.execAcq p v s
  | .rel p v => Sys2Proof.Machine.execRel p v s
  | .renew p v => Sys2Proof.Machine.execRenew p v s
  | .lease p v => Sys2Proof.Machine.execLease p v s
  | .leaseExpiry => Sys2Proof.Machine.execLeaseExpiry s
  | .cdb p v entries => Sys2Proof.Machine.execCdb p v entries s
  | .doorbellPoll q => Sys2Proof.Machine.execDoorbellPoll q s
  | .doorbellUnmask q => Sys2Proof.Machine.execDoorbellUnmask q s
  | .mailboxEnable p v => Sys2Proof.Machine.execMailboxEnable p v s
  | .qdb p q v => Sys2Proof.Machine.execQdb p q v s
  | .wbasehi p v => Sys2Proof.Machine.execWbasehi p v s
  | .tidelo p len => Sys2Proof.Machine.execTidelo p len s
  | .elseqlo p len => Sys2Proof.Machine.execElseqlo p len s
  | .registerWrite p off data => Sys2Proof.Machine.execRegisterWrite p off data s
  | .bar2Read p off r => Sys2Proof.Machine.execBar2Read p off r s
  | .bar2Write p off w => Sys2Proof.Machine.execBar2Write p off w s
  | .i3cPrivateWrite data => Sys2Proof.Machine.execI3cPrivateWrite data s
  | .i3cPrivateRead => Sys2Proof.Machine.execI3cPrivateRead s
  | .setdasa addr dyn => Sys2Proof.Machine.execSetdasa addr dyn s
  | .perstAssert p held inactive => Sys2Proof.Machine.execPerstAssert p held inactive s
  | .perstRelease p atRating => Sys2Proof.Machine.execPerstRelease p atRating s
  | .functionLevelReset p => Sys2Proof.Machine.execFunctionLevelReset p s
  | .pcieLinkLoss p => Sys2Proof.Machine.execPcieLinkLoss p s
  | .pcieRateChange p atRating => Sys2Proof.Machine.execPcieRateChange p atRating s
  | .inputUnmask b inactive => Sys2Proof.Machine.execInputUnmask b inactive s
  | .inputEventLog b => Sys2Proof.Machine.execInputEventLog b s
  | .pwrokRise held inactive pins => Sys2Proof.Machine.execPwrokRise held inactive pins s
  | .oscDelayExpiry => Sys2Proof.Machine.execOscDelayExpiry s
  | .bootComplete f0 f1 => Sys2Proof.Machine.execBootComplete f0 f1 s
  | .powerOnReset held => Sys2Proof.Machine.execPowerOnReset held s
  | .warmReset => Sys2Proof.Machine.execWarmReset s
  | .coldReset => Sys2Proof.Machine.execColdReset s
  | .pfailAssert held inactive => Sys2Proof.Machine.execPfailAssert held inactive s
  | .pfailEnd inactive => Sys2Proof.Machine.execPfailEnd inactive s
  | .junctionSample u celsius => Sys2Proof.Machine.execJunctionSample u celsius s
  | .overcurrentStop r amps held => Sys2Proof.Machine.execOvercurrentStop r amps held s
  | .overcurrentRestart r below => Sys2Proof.Machine.execOvercurrentRestart r below s
  | .railDeviation d mv held => Sys2Proof.Machine.execRailDeviation d mv held s
  | .pllLossOfLock u pll => Sys2Proof.Machine.execPllLossOfLock u pll s
  | .pllRelock u ok => Sys2Proof.Machine.execPllRelock u ok s
  | .boostStep d step celsius amps => Sys2Proof.Machine.execBoostStep d step celsius amps s
  | .stackThermalSample sk celsius => Sys2Proof.Machine.execStackThermalSample sk celsius s
  | .lineRequest r => Sys2Proof.Machine.execLineRequest r s
  | .gather r => Sys2Proof.Machine.execGather r s
  | .scatter r => Sys2Proof.Machine.execScatter r s
  | .scatterAdd r => Sys2Proof.Machine.execScatterAdd r s
  | .land addr lanes => Sys2Proof.Machine.execLand addr lanes s
  | .add32 addr x => Sys2Proof.Machine.execAdd32 addr x s
  | .zero addr count => Sys2Proof.Machine.execZero addr count s
  | .parkedRequestAdmit sk bank => Sys2Proof.Machine.execParkedRequestAdmit sk bank s
  | .retryReissue r => Sys2Proof.Machine.execRetryReissue r s
  | .writeDrain sk pc => Sys2Proof.Machine.execWriteDrain sk pc s
  | .refresh sk pc => Sys2Proof.Machine.execRefresh sk pc s
  | .staleNoticeAck sk id => Sys2Proof.Machine.execStaleNoticeAck sk id s
  | .lineLanding die core id => Sys2Proof.Machine.execLineLanding die core id s
  | .farTierLinkDown f => Sys2Proof.Machine.execFarTierLinkDown f s
  | .flit l rev bundle seq rx sent => Sys2Proof.Machine.execFlit l rev bundle seq rx sent s
  | .nak l rev bundle seq => Sys2Proof.Machine.execNak l rev bundle seq s
  | .linkTraining l obs => Sys2Proof.Machine.execLinkTraining l obs s
  | .linkDrop l => Sys2Proof.Machine.execLinkDrop l s
  | .dropAck l => Sys2Proof.Machine.execDropAck l s
  | .dropAckTimeout l => Sys2Proof.Machine.execDropAckTimeout l s
  | .forwardedClockLoss l held => Sys2Proof.Machine.execForwardedClockLoss l held s
  | .bundleThreshold l rev bundle => Sys2Proof.Machine.execBundleThreshold l rev bundle s
  | .bundleWireTest l rev bundle failed => Sys2Proof.Machine.execBundleWireTest l rev bundle failed s
  | .guestRequest r => Sys2Proof.Machine.execGuestRequest r s
  | .guestBucketAdmit w => Sys2Proof.Machine.execGuestBucketAdmit w s
  | .guestResponseTimeout id => Sys2Proof.Machine.execGuestResponseTimeout id s
  | .leveeViolationLog k => Sys2Proof.Machine.execLeveeViolationLog k s
  | .fabricFrame p f => Sys2Proof.Machine.execFabricFrame p f s
  | .frameNak p seq => Sys2Proof.Machine.execFrameNak p seq s
  | .laneFailure p lane => Sys2Proof.Machine.execLaneFailure p lane s
  | .linkid p sub => Sys2Proof.Machine.execLinkid p sub s
  | .contrib p sub => Sys2Proof.Machine.execContrib p sub s
  | .result p sub => Sys2Proof.Machine.execResult p sub s
  | .exch p sub => Sys2Proof.Machine.execExch p sub s
  | .scale p sub => Sys2Proof.Machine.execScale p sub s
  | .verdict p sub => Sys2Proof.Machine.execVerdict p sub s
  | .qdata p sub => Sys2Proof.Machine.execQdata p sub s
  | .qcredit p sub => Sys2Proof.Machine.execQcredit p sub s
  | .breach p sub => Sys2Proof.Machine.execBreach p sub s
  | .late p sub => Sys2Proof.Machine.execLate p sub s
  | .write p sub => Sys2Proof.Machine.execWrite p sub s
  | .wrack p sub => Sys2Proof.Machine.execWrack p sub s
  | .syncPeriod => Sys2Proof.Machine.execSyncPeriod s
  | .syncRequest p sub => Sys2Proof.Machine.execSyncRequest p sub s
  | .syncResponse p sub => Sys2Proof.Machine.execSyncResponse p sub s
  | .tideUnsync => Sys2Proof.Machine.execTideUnsync s
  | .rootElection => Sys2Proof.Machine.execRootElection s
  | .stepBoundary => Sys2Proof.Machine.execStepBoundary s
  | .taskStart task => Sys2Proof.Machine.execTaskStart task s
  | .tileProductEnd task slab col chunk faults => Sys2Proof.Machine.execTileProductEnd task slab col chunk faults s
  | .fallbackBeyondFreeboard task => Sys2Proof.Machine.execFallbackBeyondFreeboard task s
  | .deadlineCheck task remaining unitTime code origin queue => Sys2Proof.Machine.execDeadlineCheck task remaining unitTime code origin queue s
  | .taskEnd task => Sys2Proof.Machine.execTaskEnd task s
  | .checkHorizon task => Sys2Proof.Machine.execCheckHorizon task s
  | .inspectionSlotStart => Sys2Proof.Machine.execInspectionSlotStart s
  | .inspectionSlotEnd result => Sys2Proof.Machine.execInspectionSlotEnd result s
  | .gaugeSample gauge unit value => Sys2Proof.Machine.execGaugeSample gauge unit value s
  | .settlementDaily => Sys2Proof.Machine.execSettlementDaily s
  | .settlementHourly => Sys2Proof.Machine.execSettlementHourly s
  | .pairReqHoldExpiry => Sys2Proof.Machine.execPairReqHoldExpiry s
  | .fabricPortUp p low high => Sys2Proof.Machine.execFabricPortUp p low high s
  | .firmwareBoot => Sys2Proof.Machine.execFirmwareBoot s

end Sys2Proof.Machine
end

