-- ==== Sys2Proof/Safety.lean ====
section
/-! DEFINITION. What a safe run is, and the invariants of the block that claims use. -/

namespace Sys2Proof

open Machine

/-- A run of `n` steps goes through: every step answers a next state. -/
def Safe : Nat → State → Prop
  | 0, _ => True
  | n + 1, s => ∃ t, step s = .next t ∧ Safe n t

/-- The event log holds the newest 4,096 entries, newest first, with consecutive sequence numbers that end at the last one given
(R275). -/
def LogOk (s : State) : Prop :=
  s.log.length = min s.seq 4096 ∧ ∀ i (h : i < s.log.length), (s.log[i]).seq + i = s.seq

/-- Both byte memories are in canonical form (R161; log entry 6). -/
def MemOk (s : State) : Prop := s.mem.wf = true ∧ s.coreStore.wf = true

/-! ### Commands of Table 10.8 -/

/-- The opcode and the mailbox of a command of Table 10.8. -/
def cmdOf : Instr → Option (Nat × Mbox)
  | .nop mb => some (0x0001, mb)
  | .identify mb _ => some (0x0002, mb)
  | .gaugeRead mb _ => some (0x0003, mb)
  | .eventRead mb _ => some (0x0004, mb)
  | .wearReport mb _ => some (0x0005, mb)
  | .ledgerRead mb _ => some (0x0006, mb)
  | .exportTensor mb _ => some (0x0007, mb)
  | .jobLoad mb _ => some (0x0101, mb)
  | .jobStart mb => some (0x0102, mb)
  | .jobStop mb => some (0x0103, mb)
  | .jobUnload mb => some (0x0104, mb)
  | .ckptStop mb => some (0x0201, mb)
  | .restore mb _ _ => some (0x0202, mb)
  | .twinPair mb => some (0x0203, mb)
  | .twinUnpair mb => some (0x0204, mb)
  | .memPolicy mb => some (0x0301, mb)
  | .farTierSetup mb _ _ => some (0x0302, mb)
  | .leveeWindow mb => some (0x0303, mb)
  | .guestReset mb => some (0x0304, mb)
  | .unitReset mb => some (0x0305, mb)
  | .pkgReset mb => some (0x0306, mb)
  | .clockMode mb => some (0x0307, mb)
  | .inspectCfg mb => some (0x0308, mb)
  | .guardMode mb => some (0x0401, mb)
  | .linkTest mb _ _ => some (0x0402, mb)
  | .coreScan mb _ _ => some (0x0403, mb)
  | .fwWrite mb _ => some (0x0501, mb)
  | .fwActivate mb => some (0x0502, mb)
  | _ => none

/-- A command of opcode `op` stands at the front of a mailbox that the warden may read from (R267). -/
structure Waits (op : Nat) (mb : Mbox) (e : Bytes) (s : State) : Prop where
  front : headEntry mb s = some e
  opcode : entOp e = op
  room : canAccept mb s = true

/-- The same, and nothing calls for its refusal (R7, R261, R265, R269, R270). -/
structure Offered (op : Nat) (mb : Mbox) (e : Bytes) (s : State) : Prop extends Waits op mb e s where
  granted : refusalOf mb e s = 0

/-- No command that needs the lock is accepted and not yet done (R269). -/
def LockedIdle (s : State) : Prop := ∀ a ∈ s.warden.accepted, a.locked = false

/-- `t` holds the command `e`, accepted in `s` with a deadline and started; `d` is how it ended, none while it is at work. -/
def Holds (mb : Mbox) (e : Bytes) (deadline : Nat) (d : Option Done) (s t : State) : Prop :=
  ∃ a ∈ t.warden.accepted, a.mb = mb ∧ a.entry = e ∧ a.acceptedAt = s.now ∧ a.deadline = deadline ∧ a.started = true ∧
    a.orphan = false ∧ a.done = d

/-- `t` holds the command `e`, accepted in `s` and ended at once with a status and a RESULT; its DONE entry may follow. -/
def Ends (mb : Mbox) (e : Bytes) (deadline status result : Nat) (s t : State) : Prop :=
  Holds mb e deadline (some { status := status, result := result, fault := 0, at_ := s.now }) s t

/-- The start of a locked command's bound: its acceptance or, if later, the deadline of the previous locked command (R269). -/
def lockedFrom (s : State) : Nat := max (tideNow s) s.warden.lockedDeadline

/-- `t` differs from `s` in what mailboxes keep alone: the ports, the I3C target, the lock's lease, the warden, the event log, the outputs. -/
def MailboxOnly (s t : State) : Prop :=
  t = { s with out := t.out, hostA := t.hostA, hostB := t.hostB, i3c := t.i3c, lock := t.lock,
               warden := { s.warden with accepted := t.warden.accepted, lockedDeadline := t.warden.lockedDeadline },
               seq := t.seq, log := t.log }

/-- A whole result of a command that reads: into the host's buffer, cut at DATALEN, or into the I3C target's 64 KiB buffer from the offset
that DATA names; an access to host memory that fails ends the command with 0x09 (R265, R277). -/
def Delivers (mb : Mbox) (e : Bytes) (deadline : Nat) (dma : Bool) (b : Bytes) (s t : State) : Prop :=
  if mb = .i3c then
    t.i3c.buffer = (b.drop (entData e)).take 65536 ∧
      Ends mb e deadline 0 (b.length * 2 ^ 32 + ((b.drop (entData e)).take 65536).length) s t
  else if dma then
    .dataOut mb (entData e) (b.take (entLen e)) ∈ t.out ∧ Ends mb e deadline 0 (b.take (entLen e)).length s t
  else Ends mb e deadline 9 0 s t

/-! ### Ports -/

/-- What a reset of a port leaves (R255, Table 10.2): its registers at their reset values, its lock free, its accepted commands marked so that
they end unseen; the other port but for its event cause, the job, the queues and the memories stay. `held`, `inReset`, `state` say how the
link stands. -/
def PortIsReset (p : HPort) (held inReset : Bool) (state : BitVec 2) (s t : State) : Prop :=
  hostOf p t = { HostPort.reset with held := held, inReset := inReset, state := state } ∧
    t.lock = { s.lock with owner := if s.lock.owner = some p then none else s.lock.owner } ∧
    t.warden = { s.warden with
      accepted := s.warden.accepted.map fun a => if a.mb = portMbox p then { a with orphan := true } else a } ∧
    (∀ q, q ≠ p → hostOf q t = { hostOf q s with irqst := (hostOf q t).irqst }) ∧
    t = { s with power := t.power, out := t.out, hostA := t.hostA, hostB := t.hostB, lock := t.lock, warden := t.warden,
                 seq := t.seq, log := t.log }

/-! ### Memory -/

/-- A set of a slice cache is sound (R167 to R171): its lines belong to it, none twice, each with 128 bytes; no more lines than enabled ways, and
keep marks on all but four of them at most. -/
structure SetOk (st : Stack) (c : CacheSet) : Prop where
  home : ∀ l ∈ c.lines, setIdx l.line = c.idx ∧ l.line < 2 ^ 30 ∧ l.data.length = 128
  once : (c.lines.map (·.line)).Nodup
  ways : c.lines.length ≤ waysOf st c
  keeps : (c.lines.filter (·.keep)).length ≤ waysOf st c - 4

/-- A stack's slice cache is sound: one record a set, each sound. -/
def CacheOk (st : Stack) : Prop := (st.cache.map (·.idx)).Nodup ∧ ∀ c ∈ st.cache, SetOk st c

/-- Package memory is sound: DRAM in canonical form, and every slice cache. -/
def CachesOk (s : State) : Prop := s.mem.wf = true ∧ ∀ i : Fin 32, CacheOk s.memStacks[i]

/-- Between `s` and `t`, package memory, as an access finds it in slice caches, DRAM and far tier, changes in the bytes of `data` at `a` alone, which
read as `data`. -/
def StoresAt (a : Nat) (data : Bytes) (s t : State) : Prop :=
  ∀ x, physGet t x = if a ≤ x ∧ x < a + data.length then data.getD (x - a) 0 else physGet s x

/-- Package memory reads in `t` as in `s`. -/
def SameMemory (s t : State) : Prop := ∀ x, physGet t x = physGet s x

/-- A requester that is no core: it has its answer at once. -/
def Requester.notCore : Requester → Bool
  | .core _ _ _ => false
  | _ => true

/-- No watched prefetch overlaps a write (R175). -/
def Unwatched (i : Fin 32) (a len : Nat) (s : State) : Prop := ∀ w ∈ s.memStacks[i].watch, watchHit a len w = false

/-- Addition on a lane of the adder: the sum, held within ±(2^31 − 1) (R177, R237). -/
def satLane (a b : Int) : Int := max (-(2 ^ 31 - 1)) (min (2 ^ 31 - 1) (a + b))

end Sys2Proof
end

