-- ==== Sys2Proof/Certificates/Slice0/Obligations.lean ====
section
/-! DEFINITION. The statements for the provers, one `def Obligations.<Name> : Prop` each; OBLIGATIONS.json lists them with the rules they
formalise. -/

open Sys2Proof Sys2Proof.Machine

/-! ### The step, time, the log, memory -/

/-- A step runs the command at the front of the queue, on the state with the queue's rest.
The queue of waiting commands is the form this model takes (log entry 7), no rule of the manual. -/
def Obligations.StepRunsFront : Prop :=
  ∀ (c : Instr) (rest : List Instr) (s : State), s.pending = c :: rest → step s = exec c { s with pending := rest }

/-- With no command waiting, a step is one nanosecond (log entry 1, DESIGN CHOICE). The tide clock, while it runs, counts it, and a slew
adds or holds back at most 1 ns in each microsecond (R248).
That an empty queue means 1 ns is the model's choice (log entry 1). -/
def Obligations.IdleStepIsOneNanosecond : Prop :=
  ∀ s : State, s.pending = [] →
    ∃ t, step s = .next t ∧ t = { s with now := s.now + 1, tide := t.tide } ∧
      (s.tide.running = false → t.tide = s.tide) ∧
      (s.tide.running = true →
        ((s.now + 1) % 1000 ≠ 0 ∨ s.tide.slew = 0 → t.tide = { s.tide with count := s.tide.count + 1 }) ∧
        ((s.now + 1) % 1000 = 0 → 0 < s.tide.slew →
          t.tide = { s.tide with count := s.tide.count + 2, slew := s.tide.slew - 1 }) ∧
        ((s.now + 1) % 1000 = 0 → s.tide.slew < 0 → t.tide = { s.tide with slew := s.tide.slew + 1 }))

/-- What the manual's tables give at reset: Table 10.4 (job state NONE, tag 0, CSTEP, ports), Table 10.5 (lock free, GEN 0, LEASE 10,000),
Table 10.6 (mailboxes), Table 10.12 (interrupts, ELLVL 3), Table 13.2 (CVID), R293 (M), Table 12.7 (inspection period 24).
The invariants hold at reset.
Memory listing nothing (log entry 6) and the core stores' contents are the model's. -/
def Obligations.ResetValues : Prop :=
  (let s := State.reset
  s.pending = [] ∧ s.seq = 0 ∧ s.log = [] ∧ s.mem = [] ∧ s.coreStore = [] ∧
    s.job.state = .none ∧ s.job.tag = 0 ∧ s.job.cstep = 0 ∧
    s.lock.owner = none ∧ s.lock.gen = 0 ∧ s.lock.lease = 10000 ∧ lockLeft s = 0 ∧
    (∀ p, (hostOf p s).mb = Mailbox.reset ∧ (hostOf p s).irqen = 0 ∧ (hostOf p s).irqst = 0 ∧ (hostOf p s).ellvl = 3 ∧
      (hostOf p s).hint = 0) ∧
    s.warden.ready = false ∧ s.warden.accepted = [] ∧ s.tide.tsync = false ∧ s.tide.count = 0 ∧
    s.twin.phys = none ∧ s.twin.m = 86400000000000 ∧ s.power.inspectHours = 24 ∧ s.power.boost = false ∧
    (∀ d : Fin 4, s.power.cvid[d] = 8) ∧ (∀ i : Fin 32, s.memStacks[i].policy = false) ∧
    (∀ k : Fin 8, s.levee.windows[k].isOpen = false)) ∧
  (LogOk State.reset ∧ MemOk State.reset)

/-- Logging an event gives it the next sequence number, the tide clock, its code's level and its words, in front of the newest 4,096
entries; it raises the event interrupt of a port exactly where the level is at or above the port's ELLVL, and sends the MSI-X message where
IRQEN enables it (R275, Table 10.12). -/
def Obligations.LoggingAnEvent : Prop :=
  ∀ (code unit d0 d1 d2 d3 : Nat) (s : State),
    let t := logEv code unit d0 d1 d2 d3 s
    let hit := fun (h : HostPort) => decide (h.ellvl.toNat ≤ evLevel code)
    let sent := fun (p : HPort) => if hit (hostOf p s) && (hostOf p s).irqen.getLsbD 1 && !(hostOf p s).inReset then [Out.msix p 1] else []
    t = { s with
      seq := s.seq + 1
      log := ({ seq := s.seq + 1, tide := tideNow s, code := code, level := evLevel code, flags := 0, unit := unit, step := stepWord s,
                d0 := d0 % 2 ^ 64, d1 := d1 % 2 ^ 64, d2 := d2 % 2 ^ 64, d3 := d3 % 2 ^ 64 } :: s.log).take 4096
      hostA := if hit s.hostA then { s.hostA with irqst := s.hostA.irqst ||| 2 } else s.hostA
      hostB := if hit s.hostB then { s.hostB with irqst := s.hostB.irqst ||| 2 } else s.hostB
      out := s.out ++ sent .a ++ sent .b }

/-- Every command completes: whatever the command, its operands and the state, `exec` answers a next state. None changes the waiting queue or
the model's time, or takes back what has gone out; none but a power-on reset takes back an event. -/
def Obligations.CommandsOnlyAdd : Prop :=
  ∀ (i : Instr) (s : State), ∃ t, exec i s = .next t ∧
    t.pending = s.pending ∧ t.now = s.now ∧ s.out <+: t.out ∧ ((∀ held, i ≠ .powerOnReset held) → s.seq ≤ t.seq)

/-- Every step keeps the event log whole: the newest entries, at most 4,096, with consecutive numbers that end at the last one given. -/
def Obligations.EventLogStaysWhole : Prop := ∀ s t : State, LogOk s → step s = .next t → LogOk t

/-- Every step keeps both byte memories in canonical form.
What an unlisted address reads as is log entry 6. -/
def Obligations.MemoryStaysCanonical : Prop := ∀ s t : State, MemOk s → step s = .next t → MemOk t

/-! ### The commands of Table 10.8: acceptance and refusal -/

/-- A refused command: its REFUSED entry carries the status, events 0x0002 and 0x0003 record it, and nothing but mailbox, log and outputs
changes (R7, R267). The entries behind it whose opcode is no command's are refused with it.
The refusal that each condition calls for: an opcode that is not known, not allowed in the I3C mailbox or in recovery mode 0x02; a
reserved bit 0x01; the lock 0x03; the job state 0x04; an argument 0x05 (R7, R261, R265, R269, R270, R280; the order is log entry 18).
The order of the conditions is the model's choice (log entry 18). -/
def Obligations.Refusals : Prop :=
  (∀ (i : Instr) (op : Nat) (mb : Mbox) (e : Bytes) (s : State), cmdOf i = some (op, mb) → Waits op mb e s → refusalOf mb e s ≠ 0 →
    ∃ t, exec i s = .next t ∧ MailboxOnly s t ∧ t.warden = s.warden ∧ t.lock = s.lock ∧ s.seq + 2 ≤ t.seq ∧
      (∀ p, mboxPort mb = some p →
        let m := (hostOf p s).mb
        .cpl mb (m.ppi.toNat % 2 ^ m.plog.toNat)
          (cplBytes e 2 (refusalOf mb e s) (decide (m.ppi.toNat < 2 ^ m.plog.toNat)) 0 0 (s.seq + 2)) ∈ t.out) ∧
      (mb = .i3c → cplBytes e 2 (refusalOf mb e s) true 0 0 (s.seq + 2) ∈ t.i3c.done)) ∧
  (∀ (mb : Mbox) (e : Bytes) (s : State),
    (cmdRow (entOp e) = none → refusalOf mb e s = 2) ∧
    (mb = .i3c → 6 < entOp e → refusalOf mb e s = 2) ∧
    (s.warden.recov = true → entOp e ∉ [0x0001, 0x0002, 0x0004, 0x0306, 0x0501, 0x0502] → refusalOf mb e s = 2) ∧
    (∀ row, cmdRow (entOp e) = some row → opAllowed mb (entOp e) s = true →
      (entReserved row.used e = true → refusalOf mb e s = 1) ∧
      (entReserved row.used e = false → argReserved (entOp e) e = false →
        (row.lock = true → s.warden.recov = false →
          (∀ p, mboxPort mb = some p → s.lock.owner ≠ some p ∨ entGen e ≠ s.lock.gen.toNat) → refusalOf mb e s = 3) ∧
        ((row.lock = true → s.warden.recov = false → ∃ p, mboxPort mb = some p ∧ s.lock.owner = some p ∧ entGen e = s.lock.gen.toNat) →
          (s.job.state ∉ row.states → refusalOf mb e s = 4) ∧
          (s.job.state ∈ row.states → stateForbids (entOp e) e s = false → mb ≠ .i3c →
            (row.data = true → (entData e = 0 ∨ entLen e = 0) → refusalOf mb e s = 5) ∧
            (row.data = false → (entData e ≠ 0 ∨ entLen e ≠ 0) → refusalOf mb e s = 5))))))

/-- An accepted command: its ACCEPTED entry goes into the completion ring, or the I3C target's queue 5, with status 0, the deadline of Table 10.8
and the SEQ of the first event that the command logs (R267).
Commands that need the lock run one at a time: one accepted while another is at work or has ended without its DONE entry waits and changes
nothing but mailboxes. JOB_STOP, CKPT_STOP, LEVEE_WINDOW and PKG_RESET, which act at their acceptance, are not meant (R269). -/
def Obligations.Acceptance : Prop :=
  (∀ (i : Instr) (op : Nat) (mb : Mbox) (e : Bytes) (s : State), cmdOf i = some (op, mb) → Offered op mb e s →
    ∃ t d, exec i s = .next t ∧ s.seq + 1 ≤ t.seq ∧ d = cmdDeadline (((cmdRow op).map (·.lock)).getD false) e s ∧
      (∀ p, mboxPort mb = some p →
        let m := (hostOf p s).mb
        .cpl mb (m.ppi.toNat % 2 ^ m.plog.toNat)
          (cplBytes e 0 0 (decide (m.ppi.toNat < 2 ^ m.plog.toNat)) d 0 (s.seq + 1)) ∈ t.out) ∧
      (mb = .i3c → cplBytes e 0 0 true d 0 (s.seq + 1) ∈ t.i3c.done)) ∧
  (∀ (i : Instr) (op : Nat) (mb : Mbox) (e : Bytes) (s : State) (a : Accepted),
    cmdOf i = some (op, mb) → Offered op mb e s → 0x0101 ≤ op → op ∉ [0x0103, 0x0201, 0x0303, 0x0306] →
    s.warden.accepted.find? (·.locked) = some a → (a.started = true ∨ a.done.isSome = true) →
      ∃ t, exec i s = .next t ∧ MailboxOnly s t ∧
        ∃ x, t.warden.accepted = s.warden.accepted ++ [x] ∧ x.mb = mb ∧ x.entry = e ∧ x.locked = true ∧ x.started = false ∧
          x.done = none ∧ x.deadline = cmdDeadline true e s ∧ t.warden.lockedDeadline = x.deadline)

/-! ### Host ports and board inputs -/

/-- PERST_ASSERT, FUNCTION_LEVEL_RESET and PCIE_LINK_LOSS reset their port alone (R255, R332): the first acts when the input is active for 2 µs
after 10 ms without an activation.
PERST_RELEASE lets a port train again once its input is not masked, and PCIE_RATE_CHANGE gives its link another rate; a port below rating
is announced by event 0x0062 (R253, R255, R331). -/
def Obligations.PortResetsAndTraining : Prop :=
  (∀ (p : HPort) (s : State),
    (∀ held inactive, poweredUp s = true → 2000 ≤ held → 10000000 ≤ inactive →
      ∃ t, exec (.perstAssert p held inactive) s = .next t ∧ PortIsReset p true true 2 s t) ∧
    (portAlive p s = true →
      ∃ t, exec (.functionLevelReset p) s = .next t ∧ t.power = s.power ∧
        PortIsReset p (hostOf p s).held (hostOf p s).inReset (hostOf p s).state s t) ∧
    ((hostOf p s).inReset = false → (hostOf p s).state ≠ 2 →
      ∃ t, exec (.pcieLinkLoss p) s = .next t ∧ t.power = s.power ∧ PortIsReset p (hostOf p s).held false 2 s t)) ∧
  (∀ (p : HPort) (atRating : Bool) (s : State), canTrain p s = true →
    (poweredUp s = true → (hostOf p s).held = true → (inputOf (perstOf p) s).masked = false →
      ∃ t, exec (.perstRelease p atRating) s = .next t ∧ (hostOf p t).held = false ∧ (hostOf p t).inReset = false ∧
        (hostOf p t).state = (if atRating then 0 else 1) ∧ (inputOf (perstOf p) t).active = false ∧
        t = { s with power := t.power, hostA := t.hostA, hostB := t.hostB, out := t.out, seq := t.seq, log := t.log }) ∧
    ((hostOf p s).inReset = false →
      ∃ t, exec (.pcieRateChange p atRating) s = .next t ∧ (hostOf p t).inReset = false ∧
        (hostOf p t).state = (if atRating then 0 else 1) ∧
        t = { s with hostA := t.hostA, hostB := t.hostB, out := t.out, seq := t.seq, log := t.log } ∧
        t.seq = s.seq + (if jobLoaded s then 1 else 0) + (if atRating then 0 else 1)))

/-- A pulse of a reset input shorter than 2 µs has no effect but its count (R332, R333).
INPUT_UNMASK after 1 s without an activation (R332), and INPUT_EVENT_LOG: at most one entry of an input in each 10 ms, with the count of what
was ignored (R333).
The numbers that event 0x0063 carries are the model's choice (log entry 34). -/
def Obligations.BoardInputs : Prop :=
  (∀ (p : HPort) (held inactive : Nat) (s : State), poweredUp s = true → held < 2000 →
    ∃ t, exec (.perstAssert p held inactive) s = .next t ∧ t = { s with power := t.power } ∧
      inputOf (perstOf p) t = { inputOf (perstOf p) s with count := (inputOf (perstOf p) s).count + 1, kind := 0 }) ∧
  (∀ (i : BoardInput) (s : State),
    (∀ inactive, (inputOf i s).masked = true → 1000000000 ≤ inactive →
      ∃ t, exec (.inputUnmask i inactive) s = .next t ∧
        (inputOf i t).masked = false ∧ (inputOf i t).active = false ∧ (inputOf i t).acts = [] ∧
        (inputOf i t).count = (inputOf i s).count + 1) ∧
    (poweredUp s = true → (inputOf i s).logged < (inputOf i s).count →
      (∀ k, (inputOf i s).lastLog = some k → k + 10000000 ≤ s.now) →
      exec (.inputEventLog i) s =
        .next (logEv 0x0063 0 (inputNo i) (inputOf i s).kind (inputOf i s).count 0
          (modInput i (fun k => { k with logged := (inputOf i s).count, lastLog := some s.now }) s))))

/-! ### Power and resets -/

/-- Power-up (R313, R315, R316, R337, Table 12.6): PWROK_RISE latches the straps and waits for the oscillator, OSC_DELAY_EXPIRY starts the
polders and the tide clock and trains the ports whose reset inputs are released.
FIRMWARE_BOOT (R280): the first slot that BOOTSEL allows and that passes the checks of R279 runs, its version and the least SVN are taken,
CVID leaves its default; with none the package is in recovery mode with port B down. BOOT_COMPLETE makes the package ready (R316). -/
def Obligations.PowerUpAndBoot : Prop :=
  (∀ (s : State),
    (∀ held inactive pins, s.power.phase = .off → 2000 ≤ held → 10000000 ≤ inactive →
      ∃ t, exec (.pwrokRise held inactive pins) s = .next t ∧ t.power.phase = .waitOsc ∧ t.power.tP = s.now ∧ t.power.straps = pins ∧
        t.hostA.held = true ∧ t.hostB.held = true ∧ t.tide = { s.tide with lowest := physId t } ∧
        t = { s with power := t.power, hostA := t.hostA, hostB := t.hostB, flash := t.flash, tide := t.tide }) ∧
    (s.power.phase = .waitOsc → s.power.tP + oscDelay s.power.straps.oscdly.toNat ≤ s.now →
      ∃ t, exec .oscDelayExpiry s = .next t ∧ t.power = { s.power with phase := .polders, tS := s.now } ∧
        t.tide = { s.tide with running := true } ∧ (∀ u : Fin 36, t.plls[u].lock0 = true ∧ t.plls[u].lock1 = true ∧ t.plls[u].active = 0) ∧
        (∀ p, hostOf p t = if (hostOf p s).held then hostOf p s else { hostOf p s with inReset := false, state := 0 }) ∧
        t = { s with power := t.power, plls := t.plls, tide := t.tide, hostA := t.hostA, hostB := t.hostB })) ∧
  (∀ (s : State),
    (s.power.phase = .polders →
      ∃ t, exec .firmwareBoot s = .next t ∧ t.power.tF = s.now ∧ t.power.cvid = s.power.cvidFuse ∧
        match (bootSlots s).find? fun b => fwCheck (fwSlot b s) s.warden.svnMin == 0 with
        | some b =>
          t.power.phase = .booted ∧ t.warden.recov = false ∧ t.warden.slot = b ∧
            t.warden.major = BitVec.ofNat 8 (field (fwSlot b s) 8 1) ∧ t.warden.svnMin = max s.warden.svnMin (field (fwSlot b s) 12 4) ∧
            (∀ d : Fin 4, t.dies[d].inReset = false) ∧ ∀ i : Fin 32, t.memStacks[i].inReset = false
        | none =>
          t.power.phase = .recovery ∧ t.warden.recov = true ∧ t.hostB.inReset = true ∧ t.hostB.state = 2 ∧ t.dies = s.dies ∧
            t.memStacks = s.memStacks) ∧
    (∀ f0 f1, s.power.phase = .booted →
      ∃ t, exec (.bootComplete f0 f1) s = .next t ∧ t.power = { s.power with phase := .ready, pend := none } ∧
        t.warden = { s.warden with ready := true } ∧ t.tide.tR = s.now ∧ t.inspect = { s.inspect with lastStart := s.now } ∧
        ((s.power.pend.map (·.level)) = some 1 → t.far = s.far ∧ t.mem = s.mem) ∧
        (s.tide.tsync = false → (∀ p, (fabOf p s).up = false) → t.tide.tsync = true ∧ t.tide.hops = 0 ∧ t.tide.root = physId s)))

/-- POWER_ON_RESET (R317, R332, Table 12.7, R188): a low of PWROK of 2 µs returns everything to its reset value but fuses, flash, the far tier's
contents, the ledger's SVN and the rows and banks marked for the repair at the next boot; a shorter one is counted.
WARM_RESET and COLD_RESET 1 ms after the acceptance of PKG_RESET (R317, R319, Tables 12.7, 12.8): the job and its queues are gone, no
command is accepted, the lock is free with its generation and lease kept, the registers of both ports are at their reset values, the core
stores are zero; a warm reset keeps the links and the inspection period and the firmware starts again, a cold reset drops every link and
fabric port, returns the period to 24 hours and starts the polders anew.
That the lock keeps its generation and lease, and what the far tier and the tide clock do, is read as log entry 39 says. -/
def Obligations.PackageResets : Prop :=
  (∀ (held : Nat) (s : State), poweredUp s = true →
    (2000 ≤ held →
      ∃ t, exec (.powerOnReset held) s = .next t ∧
        (∀ a, memGet t.mem a = if a < 0x100000000000 then 0 else memGet s.mem a) ∧
        t.flash = s.flash ∧ t.power.phase = .off ∧ t.power.cvidFuse = s.power.cvidFuse ∧
        t.power.gsite = s.power.gsite ∧ t.warden = { State.reset.warden with svnMin := s.warden.svnMin } ∧
        (∀ i : Fin 32, t.memStacks[i] = { Stack.reset with
          rows := s.memStacks[i].rows.filter (·.marked), bankMarks := s.memStacks[i].bankMarks }) ∧
        t = { State.reset with pending := s.pending, now := s.now, freeCtr := s.freeCtr, out := s.out, mem := t.mem, flash := t.flash,
                               memStacks := t.memStacks, power := t.power, warden := t.warden }) ∧
    (held < 2000 →
      ∃ t, exec (.powerOnReset held) s = .next t ∧ t = { s with power := t.power } ∧ t.power.pwrok.count = s.power.pwrok.count + 1)) ∧
  (∀ (s : State),
    let common := fun (t : State) =>
      t.job = JobCtl.reset ∧ t.exec = Exec.reset ∧ t.queues = [] ∧ t.warden.accepted = [] ∧ t.warden.guard = [] ∧ t.warden.ready = false ∧
        t.lock = { s.lock with owner := none } ∧ t.coreStore = [] ∧ t.i3c.waiting = [] ∧ t.peer.waiting = [] ∧ t.twin.phys = none ∧
        t.power.boost = false ∧ (∀ p, (hostOf p t).mb = Mailbox.reset ∧ (hostOf p t).irqen = 0 ∧ (hostOf p t).ellvl = 3) ∧
        (∀ k : Fin 8, t.levee.windows[k] = Window.closed) ∧ t.flash = s.flash ∧ t.far = s.far
    (resetDue 1 s = true →
      ∃ t, exec .warmReset s = .next t ∧ common t ∧
        t.power.phase = (if s.power.phase = .recovery then .recovery else .booted) ∧ t.links = s.links ∧ t.fabric = s.fabric ∧
        t.power.inspectHours = s.power.inspectHours ∧ (∀ p, (hostOf p t).state = (hostOf p s).state)) ∧
    (resetDue 2 s = true →
      ∃ t, exec .coldReset s = .next t ∧ common t ∧ t.power.phase = .polders ∧ t.power.tS = s.now ∧ t.power.inspectHours = 24 ∧
        (∀ l : Fin 41, t.links[l].up = false) ∧ (∀ p, (fabOf p t).up = false) ∧ (∀ d : Fin 4, t.dies[d].inReset = true) ∧
        ∀ i : Fin 32, t.memStacks[i].inReset = true))

/-- PFAIL_ASSERT and PFAIL_END (R322, R323, Table 12.9): event 0x0073, commands that are open end with 0x0B, every stack stops in
self-refresh; after 10 ms without the input the stacks that did not trip go on. -/
def Obligations.PowerFailWarning : Prop :=
  ∀ (inactive : Nat) (s : State),
    (∀ held, poweredUp s = true → s.power.pfail = false → 2000 ≤ held → 10000000 ≤ inactive →
      ∃ t, exec (.pfailAssert held inactive) s = .next t ∧ t.power.pfail = true ∧ alertN t = true ∧
        (∀ i : Fin 32, t.memStacks[i].stopped = true ∧ t.memStacks[i].selfRefresh = true) ∧
        (∀ a ∈ t.warden.accepted, a.done.isSome = true) ∧
        (s.job.state = .running ∨ s.job.state = .stopped → t.job.state = .failed)) ∧
    (s.power.pfail = true → s.power.pfailIn.masked = false → 10000000 ≤ inactive → s.power.thermtrip = false →
      ∃ t, exec (.pfailEnd inactive) s = .next t ∧ t.power = { s.power with pfail := false, pfailIn := { s.power.pfailIn with active := false } } ∧
        (∀ i : Fin 32, s.memStacks[i].band ≠ 3 → t.memStacks[i].stopped = false) ∧ t = { s with power := t.power, memStacks := t.memStacks })

/-! ### Temperature, current, clocks -/

/-- JUNCTION_SAMPLE of a compute die (R324, R325, R328): above 105 °C the die is hot, with event 0x0072 the first time, until it reads 103 °C or
less; two samples in a row above 110 °C trip the package: THERMTRIP_N, every stack in self-refresh, and a loaded job fails.
STACK_THERMAL_SAMPLE (R184 to R186, Table 7.10): the band rises at once above 85, 95 and 105 °C and falls one limit at a time 2 °C below it; a
stack that tripped stays in band 3 until it reads below 90 °C; a change is event 0x0014, and a trip stops the stack in self-refresh and
abandons the step of a running job.
OVERCURRENT_STOP and RAIL_DEVIATION stop the dies of a rail with event 0x0072, abandon the step of a running job, and fail the package at
the second stop within an hour; OVERCURRENT_RESTART starts them again after 1 ms below the limit (R326, R328, R339). -/
def Obligations.ThermalAndRails : Prop :=
  (∀ (d : Fin 4) (c : Int) (s : State), clocked s = true →
    ∃ t, exec (.junctionSample (.die d) c) s = .next t ∧ t.dies[d].overTrip = decide (110 < c) ∧
      t.dies[d].hot = (if 105 < c then true else if c ≤ 103 then false else s.dies[d].hot) ∧
      (∀ k, k ≠ d → t.dies[k] = s.dies[k]) ∧
      (¬ (s.dies[d].overTrip = true ∧ 110 < c) →
        t = { s with dies := t.dies, hostA := t.hostA, hostB := t.hostB, out := t.out, seq := t.seq, log := t.log } ∧
          t.seq = s.seq + if 105 < c ∧ s.dies[d].hot = false then 1 else 0) ∧
      (s.dies[d].overTrip = true → 110 < c → s.power.thermtrip = false →
        t.power.thermtrip = true ∧ alertN t = true ∧ (∀ i : Fin 32, t.memStacks[i].stopped = true ∧ t.memStacks[i].selfRefresh = true) ∧
          (s.job.state ≠ .none → t.job.state = .failed))) ∧
  (∀ (i : Fin 32) (c : Int) (s : State), clocked s = true →
    ∃ t, exec (.stackThermalSample i c) s = .next t ∧ t.memStacks[i].band = bandNext s.memStacks[i].band c ∧ t.memStacks[i].temp = c ∧
      (105 < c → s.memStacks[i].band ≤ 3 → t.memStacks[i].band = 3) ∧ (95 < c → c ≤ 105 → s.memStacks[i].band ≤ 2 → t.memStacks[i].band = 2) ∧
      (85 < c → c ≤ 93 → s.memStacks[i].band ≤ 2 → t.memStacks[i].band = 1) ∧ (c ≤ 83 → s.memStacks[i].band ≤ 3 → t.memStacks[i].band = 0) ∧
      (90 ≤ c → s.memStacks[i].band = 3 → t.memStacks[i].band = 3) ∧
      (bandNext s.memStacks[i].band c = s.memStacks[i].band → t = { s with memStacks := t.memStacks }) ∧
      (s.memStacks[i].band ≤ 2 → 105 < c →
        t.memStacks[i].stopped = true ∧ t.memStacks[i].selfRefresh = true ∧ (s.job.state = .running → t.job.abandoned = true)) ∧
      (s.memStacks[i].band = 3 → c < 90 → s.power.pfail = false → s.power.thermtrip = false →
        t.memStacks[i].stopped = false ∧ t.memStacks[i].selfRefresh = false)) ∧
  (∀ (r : Rail) (s : State),
    (∀ amps held d mv, railStopped r s = false →
      ((clocked s = true ∧ railLimit r < amps ∧ 10000 ≤ held →
          ∃ t, exec (.overcurrentStop r amps held) s = .next t ∧ railStopped r t = true ∧ alertN t = true ∧ s.seq < t.seq ∧
            (s.job.state = .running → (s.power.ocTimes.all fun x => decide (x.2 + 3600000000000 ≤ s.now)) = true →
              t.job.state = .running ∧ t.job.abandoned = true) ∧
            (s.job.state = .running → (s.power.ocTimes.any fun x => decide (s.now < x.2 + 3600000000000)) = true →
              t.job.state = .failed)) ∧
        (r = .vcore d → (s.power.phase = .ready ∨ s.power.phase = .booted) →
          (720 + 10 * s.power.cvid[d].toNat + 25 < mv ∨ mv + 25 < 720 + 10 * s.power.cvid[d].toNat) → 1000000 ≤ held →
          s.power.tF + 10000000 ≤ s.now →
          ∃ t, exec (.railDeviation d mv held) s = .next t ∧ railStopped r t = true ∧ alertN t = true ∧ s.seq < t.seq))) ∧
    (∀ below, railStopped r s = true → 1000000 ≤ below →
      ∃ t, exec (.overcurrentRestart r below) s = .next t ∧ railStopped r t = false ∧
        (s.job.abandoned = false → t = setRail r false s) ∧
        (s.job.state = .running → stillStopped (setRail r false s) = false → t.job.abandoned = false)))

/-- PLL_LOSS_OF_LOCK (R308, R312): a die whose standby is good runs on from it at the cost of R310; a second loss within a step of a running job,
or one without a standby, stops the die and fails a loaded job. PLL_RELOCK makes the failed PLL the standby again.
BOOST_STEP (R330): in boost mode, at most once in 1 ms, to 1.20 GHz + 50 MHz × step on the other PLL; upwards only with 5 °C and 5% of
current to spare. -/
def Obligations.PllsAndBoost : Prop :=
  (∀ (u : Fin 36) (pll : Fin 2) (s : State),
    (clocked s = true → (if pll = 0 then s.plls[u].lock0 else s.plls[u].lock1) = true →
      ∃ t, exec (.pllLossOfLock u pll) s = .next t ∧ (if pll = 0 then t.plls[u].lock0 else t.plls[u].lock1) = false ∧
        t.plls[u].standby = false ∧ (∀ v, v ≠ u → t.plls[v] = s.plls[v]) ∧
        (pll.val ≠ s.plls[u].active → (s.job.state ≠ .running ∨ s.plls[u].losses = 0) →
          t.plls[u].active = s.plls[u].active ∧ t.plls[u].losses = s.plls[u].losses + 1 ∧ t = { s with plls := t.plls }) ∧
        (s.job.state = .running → 0 < s.plls[u].losses →
          t.plls[u].lock0 = false ∧ t.plls[u].lock1 = false ∧ t.job.state = .failed) ∧
        (pll.val = s.plls[u].active → s.plls[u].standby = true → (s.job.state ≠ .running ∨ s.plls[u].losses = 0) →
          t.plls[u].active = 1 - s.plls[u].active ∧ t.plls[u].costPs = changeCost 25 s.plls[u].freq ∧ t.job = s.job) ∧
        (pll.val = s.plls[u].active → s.plls[u].standby = false → s.job.state ≠ .none →
          t.plls[u].lock0 = false ∧ t.plls[u].lock1 = false ∧ t.job.state = .failed)) ∧
    (toRelock s.plls[u] = true →
      exec (.pllRelock u true) s =
        .next { s with plls := s.plls.set u { s.plls[u] with lock0 := true, lock1 := true, standby := true } })) ∧
  (∀ (d : Fin 4) (step : Fin 5) (celsius : Int) (amps : Nat) (s : State),
    let u : Fin 36 := Fin.castLE (by decide) d
    let f := 1200 + 50 * step.val
    s.power.boost = true → s.plls[u].standby = true → f ≠ s.plls[u].freq → s.plls[u].lastChange + 1000000 ≤ s.now →
    (f < s.plls[u].freq ∨ celsius ≤ 100 ∧ amps ≤ 1330) →
      exec (.boostStep d step celsius amps) s =
        .next { s with plls := s.plls.set u { s.plls[u] with
          active := 1 - s.plls[u].active, freq := f, lastChange := s.now, costPs := changeCost s.plls[u].freq f } })

/-! ### The lock and the registers of a port -/

/-- The lock (R259, R260): ACQ takes a free lock under the next generation and starts the lease, and finds OWNER set otherwise; REL frees and
RENEW restarts the lease for the owner alone; more than one bit, or a port that is not the owner, is ignored and logged.
LEASE (R259): 100 to 60,000 ms, by the owner, or by either port while the lock is free; any other write is ignored and logged.
LEASE_EXPIRY (R260): the lock is free once LEFT has reached 0, with event 0x0060, D0 = 2. -/
def Obligations.LockAndLease : Prop :=
  (∀ (p : HPort) (v : BitVec 32) (s : State) (i : Instr), portAlive p s = true → i ∈ [.acq p v, .rel p v, .renew p v] →
    ∃ t, exec i s = .next t ∧
      t = { s with lock := t.lock, hostA := t.hostA, hostB := t.hostB, out := t.out, seq := t.seq, log := t.log } ∧
      (v.extractLsb' 0 3 = 1 → s.lock.owner = none →
        t.lock = { gen := s.lock.gen + 1, owner := some p, lease := s.lock.lease,
                   leaseEnd := s.now + s.lock.lease.toNat * 1000000 } ∧
          ∃ l ∈ t.log, l.seq = t.seq ∧ l.code = 0x0060 ∧ l.d0 = 0 ∧ l.d1 = hportNo p ∧ l.d2 = (s.lock.gen + 1).toNat) ∧
      (v.extractLsb' 0 3 = 1 → s.lock.owner ≠ none → t.lock = s.lock) ∧
      (v.extractLsb' 0 3 = 2 → s.lock.owner = some p →
        t.lock = { s.lock with leaseEnd := s.now + s.lock.lease.toNat * 1000000 }) ∧
      (v.extractLsb' 0 3 = 4 → s.lock.owner = some p →
        t.lock = { s.lock with owner := none } ∧ ∃ l ∈ t.log, l.seq = t.seq ∧ l.code = 0x0060 ∧ l.d0 = 1) ∧
      ((v.extractLsb' 0 3 ≠ 0 ∧ v.extractLsb' 0 3 ≠ 1 ∧ (s.lock.owner = some p → v.extractLsb' 0 3 ≠ 2 ∧ v.extractLsb' 0 3 ≠ 4)) →
        t.lock = s.lock ∧ t.seq = s.seq + 1 ∧ ∃ l ∈ t.log, l.seq = t.seq ∧ l.code = 0x0001 ∧ l.d0 = 0x1000 ∧ l.d1 = v.toNat) ∧
      (v.extractLsb' 0 3 = 0 → t.lock = s.lock)) ∧
  (∀ (s : State),
    (∀ p (v : BitVec 32), portAlive p s = true →
      ∃ t, exec (.lease p v) s = .next t ∧
        t = { s with lock := t.lock, hostA := t.hostA, hostB := t.hostB, out := t.out, seq := t.seq, log := t.log } ∧
        ((s.lock.owner = none ∨ s.lock.owner = some p) → 100 ≤ v.toNat % 65536 → v.toNat % 65536 ≤ 60000 →
          t.lock = { s.lock with lease := BitVec.ofNat 16 v.toNat }) ∧
        (((∃ q, q ≠ p ∧ s.lock.owner = some q) ∨ v.toNat % 65536 < 100 ∨ 60000 < v.toNat % 65536) →
          t.lock = s.lock ∧ t.seq = s.seq + 1 ∧ ∃ l ∈ t.log, l.seq = t.seq ∧ l.code = 0x0001 ∧ l.d0 = 0x1004 ∧ l.d1 = v.toNat)) ∧
    (∀ p, s.lock.owner = some p → s.lock.leaseEnd ≤ s.now →
      exec .leaseExpiry s =
        .next (logEv 0x0060 (unitWord 5 (hportNo p) 0) 2 (hportNo p) s.lock.gen.toNat 0
          ({ s with lock := { s.lock with owner := none } } : State))))

/-- CDB (R268): a write that moves the producer index within the free space of the ring sets it, and the entries up to it wait for the warden,
unseen while the doorbell is masked or EN is 0; a write that leaves the index is a spurious ring and one past the free space or at twice the
ring size or above is refused, each with event 0x0061 and the index unchanged.
Entries whose opcode no table lists do not stay at the front of a mailbox: where its ring holds at most 1,024 entries, what stands at its front
after every reading is a command of Table 10.8 or cannot be read yet (R263, R270). -/
def Obligations.CommandDoorbell : Prop :=
  (∀ (p : HPort) (v : BitVec 32) (es : List Bytes) (s : State), portAlive p s = true →
    let m := (hostOf p s).mb
    let n := 2 ^ m.clog.toNat
    let new := v.toNat % 65536
    let moved := (new + 2 * n - m.cpi.toNat) % (2 * n)
    let free := n - (m.cpi.toNat + 2 * n - m.cci.toNat) % (2 * n)
    let taken := (List.range moved).map fun i => slice (es.getD i []) 0 128
    (new < 2 * n → new ≠ m.cpi.toNat → moved ≤ free →
      exec (.cdb p v es) s = .next (drain (portMbox p) (modHost p (fun h => { h with mb :=
        if m.masked || !m.en then { h.mb with cpi := BitVec.ofNat 16 new, unseen := h.mb.unseen ++ taken }
        else { h.mb with cpi := BitVec.ofNat 16 new, waiting := h.mb.waiting ++ taken } }) (logDiff p 0x2020 v.toNat s)))) ∧
    (2 * n ≤ new ∨ new = m.cpi.toNat ∨ free < moved →
      ∃ t, exec (.cdb p v es) s = .next t ∧ (hostOf p t).mb.cpi = m.cpi ∧
        t = { s with hostA := t.hostA, hostB := t.hostB, out := t.out, seq := t.seq, log := t.log, i3c := t.i3c } ∧
        ∃ l ∈ t.log, l.seq = s.seq + (if v.toNat < 65536 then 1 else 2) ∧ l.code = 0x0061 ∧ l.d0 = 2 * hportNo p ∧
          l.d1 = (if new < 2 * n ∧ new = m.cpi.toNat then 0 else 1) ∧ l.d2 = new)) ∧
  (∀ (mb : Mbox) (e : Bytes) (s : State),
    (∀ p, mboxPort mb = some p → (hostOf p s).mb.waiting.length ≤ 1024) → (mb = .i3c → s.i3c.waiting.length ≤ 1024) →
      headEntry mb (drain mb s) = some e → canAccept mb (drain mb s) = true → (cmdRow (entOp e)).isSome = true)

/-- DOORBELL_POLL and DOORBELL_UNMASK (R268, R273): the warden looks at a masked doorbell every 10 µs, and unmasks it after 10 ms without a
spurious ring or a refusal, with event 0x0061, D1 = 3; both make what the doorbell had moved visible.
MAILBOX_ENABLE (R264): EN becomes 1 only with non-zero bases and sizes in range, else it stays 0 and event 0x0001 is logged; EN = 0 stops the
reading of commands and nothing else. -/
def Obligations.MaskingAndEnable : Prop :=
  (∀ (s : State),
    (∀ p, (hostOf p s).mb.masked = true →
      ((hostOf p s).mb.lastPoll + 10000 ≤ s.now →
        let u := modHost p (fun h => { h with mb := { h.mb with lastPoll := s.now } }) s
        exec (.doorbellPoll (2 * hportNo p)) s =
          .next (if (hostOf p s).mb.en then
              drain (portMbox p) (modHost p (fun h => { h with mb := { h.mb with waiting := h.mb.waiting ++ h.mb.unseen, unseen := [] } }) u)
            else u)) ∧
      ((hostOf p s).mb.lastBad + 10000000 ≤ s.now →
        exec (.doorbellUnmask (2 * hportNo p)) s =
          .next (logEv 0x0061 (unitWord 5 (hportNo p) (2 * hportNo p)) (2 * hportNo p) 3 0 0
            (modHost p (fun h => { h with mb := { h.mb with masked := false, waiting := h.mb.waiting ++ h.mb.unseen, unseen := [] } }) s)))) ∧
    (∀ q e, 16 ≤ q → queueOf q s = some e → e.masked = true →
      let seen := match e.unseen with
        | some v => moveIndex e v
        | none => e
      (e.lastPoll + 10000 ≤ s.now →
        exec (.doorbellPoll q) s = .next { s with queues := putQueue { seen with unseen := none, lastPoll := s.now } s.queues }) ∧
      (e.lastBad + 10000000 ≤ s.now →
        exec (.doorbellUnmask q) s =
          .next (logEv 0x0061 (unitWord 5 (hportNo e.port) q) q 3 0 0
            { s with queues := putQueue { seen with masked := false, unseen := none } s.queues })))) ∧
  (∀ (p : HPort) (v : BitVec 32) (s : State), portAlive p s = true →
    (v.getLsbD 0 = true → (hostOf p s).mb.en = true ∨ ringsOk (hostOf p s).mb = true →
      ∃ t, exec (.mailboxEnable p v) s = .next t ∧
        (hostOf p t).mb = (if (hostOf p s).mb.masked then { (hostOf p s).mb with en := true }
          else { (hostOf p s).mb with en := true, waiting := (hostOf p s).mb.waiting ++ (hostOf p s).mb.unseen, unseen := [] }) ∧
        t = { s with hostA := t.hostA, hostB := t.hostB, out := t.out, seq := t.seq, log := t.log }) ∧
    (v.getLsbD 0 = true → (hostOf p s).mb.en = false → ringsOk (hostOf p s).mb = false →
      ∃ t, exec (.mailboxEnable p v) s = .next t ∧ (hostOf p t).mb = (hostOf p s).mb ∧
        t = { s with hostA := t.hostA, hostB := t.hostB, out := t.out, seq := s.seq + 1, log := t.log } ∧
        ∃ l ∈ t.log, l.seq = t.seq ∧ l.code = 0x0001 ∧ l.d0 = 0x2030 ∧ l.d1 = v.toNat) ∧
    (v.getLsbD 0 = false →
      ∃ t, exec (.mailboxEnable p v) s = .next t ∧ (hostOf p t).mb = { (hostOf p s).mb with en := false } ∧
        t = { s with hostA := t.hostA, hostB := t.hostB, out := t.out, seq := t.seq, log := t.log }))

/-- QDB (R273): from the queue's own port, forward and not past the other index, it moves PI of a host-fed queue or CI of a host-drained one, which
returns the credits; while the doorbell is masked the index waits. Any other write is refused with event 0x0061, D1 = 1. -/
def Obligations.QueueDoorbell : Prop :=
  ∀ (p : HPort) (q : Nat) (v : BitVec 32) (s : State), portAlive p s = true → q < 65536 → v.toNat < 65536 →
    (∀ e, queueOf q s = some e → 16 ≤ q → e.port = p → v.toNat < 2 * e.depth →
      (e.role = 2 → 0 < (v.toNat + 2 * e.depth - e.pi) % (2 * e.depth) →
        (v.toNat + 2 * e.depth - e.pi) % (2 * e.depth) + queueFill e ≤ e.depth →
        let e' := if e.masked then { e with unseen := some v.toNat } else { e with pi := v.toNat }
        exec (.qdb p q v) s = .next { s with queues := putQueue e' s.queues }) ∧
      (e.role = 3 → 0 < (v.toNat + 2 * e.depth - e.ci) % (2 * e.depth) →
        (v.toNat + 2 * e.depth - e.ci) % (2 * e.depth) ≤ queueFill e →
        let e' := if e.masked then { e with unseen := some v.toNat }
          else { e with ci := v.toNat, credits := e.credits + (v.toNat + 2 * e.depth - e.ci) % (2 * e.depth) }
        exec (.qdb p q v) s = .next { s with queues := putQueue e' s.queues })) ∧
    ((∀ e, queueOf q s = some e → qdbOk p e v.toNat = false) →
      ∃ t, exec (.qdb p q v) s = .next t ∧
        t = { s with queues := t.queues, hostA := t.hostA, hostB := t.hostB, out := t.out, seq := t.seq, log := t.log } ∧
        (∀ e, queueOf q s = some e → ∃ e', queueOf q t = some e' ∧ e'.pi = e.pi ∧ e'.ci = e.ci ∧ e'.credits = e.credits) ∧
        ∃ l ∈ t.log, l.seq = s.seq + 1 ∧ l.code = 0x0061 ∧ l.d0 = q ∧ l.d1 = 1 ∧ l.d2 = v.toNat)

/-- WBASEHI (R274): a base that is a multiple of 2^36 in a stack range or a far-tier window takes effect with WBASELO; any other is ignored and
logged, and the base in force stays.
TIDELO and ELSEQLO (R257, Tables 10.4, 10.12): a read returns the low word, latches the high word, and a longer read returns the latched
word with it; nothing else changes. -/
def Obligations.WindowBaseAndLatches : Prop :=
  (∀ (p : HPort) (v : BitVec 32) (s : State), portAlive p s = true →
    let b := (hostOf p s).wbaseLo.toNat + (v.toNat % 2 ^ 20) * 2 ^ 32
    (b % 2 ^ 36 = 0 → (b < 0x40000000000 ∨ 0x100000000000 ≤ b ∧ b < 0x180000000000) →
      exec (.wbasehi p v) s =
        .next (modHost p (fun h => { h with wbaseHi := BitVec.ofNat 20 v.toNat, base := b }) (logDiff p 0x3014 v.toNat s))) ∧
    ((b % 2 ^ 36 ≠ 0 ∨ 0x40000000000 ≤ b ∧ b < 0x100000000000 ∨ 0x180000000000 ≤ b) →
      exec (.wbasehi p v) s = .next (logIgnored p 0x3014 v.toNat s))) ∧
  (∀ (p : HPort) (len : Nat) (s : State), portAlive p s = true → 1 ≤ len → len ≤ 4096 →
    (∃ bs, exec (.tidelo p len) s =
        .next { s with tideHi := BitVec.ofNat 32 (tideNow s / 2 ^ 32), out := s.out ++ [.readResp p 0x0020 bs] } ∧
      bs.take 4 = leBytes 4 (tideNow s) ∧ (4 < len → (bs.drop 4).take 4 = leBytes 4 (tideNow s / 2 ^ 32))) ∧
    (∃ bs, exec (.elseqlo p len) s =
        .next (emit (.readResp p 0x3020 bs) (modHost p (fun h => { h with elseqHi := BitVec.ofNat 32 (s.seq / 2 ^ 32) }) s)) ∧
      bs.take 4 = leBytes 4 s.seq ∧ (4 < len → (bs.drop 4).take 4 = leBytes 4 (s.seq / 2 ^ 32))))

/-- REGISTER_WRITE of one aligned word (R6, R257, R264, Table 10.12): the interrupt, hint and event-level registers take the bits they define, IRQST
clears what is written as 1, PCI moves, the lock, lease, enable, window-base and doorbell words act as those commands do, base and size registers take a value only while EN is 0, and a write to a read-only word or to an
offset that no table defines changes nothing but the log.
A write of less than a whole register (R257): the register keeps its value and event 0x0001 records the write.
Event 0x0001 (R6): it is logged exactly where a reserved or read-only bit is written other than it reads, with the offset, the value and the
mask of those bits.
D2 of the event is log entry 13. -/
def Obligations.RegisterWrites : Prop :=
  (∀ (p : HPort) (d : Bytes) (s : State), portAlive p s = true → d.length = 4 →
    let v := leVal d
    let wr := fun (off : Nat) => exec (.registerWrite p off d) s
    let put := fun (off : Nat) (f : HostPort → HostPort) =>
      (.next (modHost p f (logDiff p off v s)) : Host.Outcome State Fault Refusal)
    wr 0x3000 = put 0x3000 (fun h => { h with irqen := BitVec.ofNat 4 v }) ∧
      wr 0x3004 = put 0x3004 (fun h => { h with irqst := h.irqst &&& ~~~(BitVec.ofNat 4 v) }) ∧
      wr 0x3018 = put 0x3018 (fun h => { h with hint := BitVec.ofNat 2 v }) ∧
      wr 0x3028 = put 0x3028 (fun h => { h with ellvl := BitVec.ofNat 3 v }) ∧
      wr 0x202C = put 0x202C (fun h => { h with mb := { h.mb with pci := BitVec.ofNat 16 v } }) ∧
      ((hostOf p s).mb.en = false →
        wr 0x2000 = put 0x2000 (fun h => { h with mb := { h.mb with cbaseLo := BitVec.ofNat 20 (v / 4096) } }) ∧
        wr 0x2004 = put 0x2004 (fun h => { h with mb := { h.mb with cbaseHi := BitVec.ofNat 32 v } }) ∧
        wr 0x2008 = put 0x2008 (fun h => { h with mb := { h.mb with clog := BitVec.ofNat 4 v } }) ∧
        wr 0x2010 = put 0x2010 (fun h => { h with mb := { h.mb with pbaseLo := BitVec.ofNat 20 (v / 4096) } }) ∧
        wr 0x2014 = put 0x2014 (fun h => { h with mb := { h.mb with pbaseHi := BitVec.ofNat 32 v } }) ∧
        wr 0x2018 = put 0x2018 (fun h => { h with mb := { h.mb with plog := BitVec.ofNat 4 v } })) ∧
      ((hostOf p s).mb.en = true → ∀ off ∈ [0x2000, 0x2004, 0x2008, 0x2010, 0x2014, 0x2018],
        wr off = .next (logIgnored p off v s)) ∧
      ((hostOf p s).wbaseHi.toNat * 2 ^ 32 % 2 ^ 36 = 0 → v = 0 → (hostOf p s).wbaseHi.toNat < 1024 →
        wr 0x3010 = .next (modHost p (fun h => { h with wbaseLo := 0 }) s)) ∧
      (v ≠ 0 → wr 0x3010 = .next (logIgnored p 0x3010 v s)) ∧
      wr 0x1000 = exec (.acq p (BitVec.ofNat 32 v)) s ∧ wr 0x1004 = exec (.lease p (BitVec.ofNat 32 v)) s ∧
      wr 0x2030 = exec (.mailboxEnable p (BitVec.ofNat 32 v)) s ∧ wr 0x3014 = exec (.wbasehi p (BitVec.ofNat 32 v)) s ∧
      (∀ q, q < 65536 → wr (0x100008 + 16 * q) = exec (.qdb p q (BitVec.ofNat 32 v)) s) ∧
      (∀ off, off % 4 = 0 → writeMask off = none → wr off = .next (logIgnored p off v s)) ∧
      (∀ off, off % 4 = 0 → writeMask off = some 0 → wr off = .next (logDiff p off v s))) ∧
  (∀ (p : HPort) (off : Nat) (d : Bytes) (s : State), portAlive p s = true → 1 ≤ d.length → off % 4 + d.length ≤ 4 → d.length < 4 →
    off < 0x1000000 →
    ∃ t, exec (.registerWrite p off d) s = .next t ∧ t.seq = s.seq + 1 ∧
      t = { s with hostA := t.hostA, hostB := t.hostB, out := t.out, seq := t.seq, log := t.log } ∧
      (∀ q, hostOf q t = { hostOf q s with irqst := (hostOf q t).irqst }) ∧
      ∃ l ∈ t.log, l.seq = t.seq ∧ l.code = 0x0001 ∧ l.d0 = off - off % 4) ∧
  (∀ (p : HPort) (off v : Nat) (s : State),
    let mask := (v ^^^ bar0Word p off s) &&& (0xFFFFFFFF - (writeMask off).getD 0)
    (mask = 0 → logDiff p off v s = s) ∧
      (mask ≠ 0 → logDiff p off v s = logEv 0x0001 (unitWord 5 (hportNo p) 0) off v mask 0 s))

/-! ### What the commands of Table 10.8 do -/

/-- NOP does nothing but complete; IDENTIFY delivers the 4 KiB copy of Table 10.4; EVENT_READ delivers whole entries in ascending SEQ from the
first SEQ asked for, as many as were asked for and as fit, and counts them (Table 10.8, R276, R277). None changes anything but mailboxes.
GAUGE_READ, WEAR_REPORT, LEDGER_READ and EXPORT deliver their contents and change nothing but mailboxes: a read of the gauges clears none
(R103, R265, R302, R306). An EXPORT of a tensor that the hub cannot reach ends with 0x06 (log entry 67).
The result layouts that the manual leaves open are log entry 11. -/
def Obligations.ReadingCommands : Prop :=
  (∀ (mb : Mbox) (dma : Bool) (e : Bytes) (s : State),
    (Offered 0x0001 mb e s → ∃ t, exec (.nop mb) s = .next t ∧ MailboxOnly s t ∧ Ends mb e (tideNow s + 1000000) 0 0 s t) ∧
    (Offered 0x0002 mb e s →
      ∃ t, exec (.identify mb dma) s = .next t ∧ MailboxOnly s t ∧
        let b := identityCopy ((mboxPort mb).getD .a) s
        if mb = .i3c then t.i3c.buffer = b ∧ Ends mb e (tideNow s + 1000000) 0 4096 s t
        else Delivers mb e (tideNow s + 1000000) dma b s t) ∧
    (Offered 0x0004 mb e s →
      ∃ t, exec (.eventRead mb dma) s = .next t ∧ MailboxOnly s t ∧
        let log := (logEv 0x0003 (mboxUnit mb) 4 0 0 (entTag e) s).log
        let n := if mb = .i3c then arg e 8 2 else min (arg e 8 2) (entLen e / 64)
        let es := (log.filter fun l => decide (arg e 0 8 ≤ l.seq)).reverse.take n
        (LogOk s → (es.map (·.seq)).Pairwise (· < ·)) ∧
        if mb = .i3c then t.i3c.buffer = es.flatMap entryBytes ∧ Ends mb e (tideNow s + 10000000) 0 es.length s t
        else if dma then
          .dataOut mb (entData e) (es.flatMap entryBytes) ∈ t.out ∧ Ends mb e (tideNow s + 10000000) 0 es.length s t
        else Ends mb e (tideNow s + 10000000) 9 0 s t)) ∧
  (∀ (mb : Mbox) (dma : Bool) (e : Bytes) (s : State),
    (Offered 0x0003 mb e s →
      ∃ t, exec (.gaugeRead mb dma) s = .next t ∧ MailboxOnly s t ∧
        Delivers mb e (tideNow s + 10000000) dma
          (Config.gaugeImage (arg e 0 1) (arg e 1 1) (gaugeValues (arg e 0 1) (arg e 1 1) s)) s t) ∧
    (Offered 0x0005 mb e s →
      ∃ t, exec (.wearReport mb dma) s = .next t ∧ MailboxOnly s t ∧ Delivers mb e (tideNow s + 100000000) dma (wearReport s) s t) ∧
    (Offered 0x0006 mb e s →
      ∃ t, exec (.ledgerRead mb dma) s = .next t ∧ MailboxOnly s t ∧ Delivers mb e (tideNow s + 100000000) dma (ledgerCopy s) s t) ∧
    (∀ en, Offered 0x0007 mb e s → tensorOf (arg e 0 4) (0x15 + arg e 4 1) s = some en →
      ∃ t, exec (.exportTensor mb dma) s = .next t ∧ MailboxOnly s t ∧
        (stretchCause [stretchOf en] s = none →
          Delivers mb e (tideNow s + cdiv (entLen e) 50 + 10000000) dma (streamBytes s en) s t) ∧
        (stretchCause [stretchOf en] s ≠ none → Ends mb e (tideNow s + cdiv (entLen e) 50 + 10000000) 6 0 s t)))

/-- JOB_LOAD (R145, R152, R284, Table 10.8): an unpaired package ends it with 0x06, host memory that does not answer with 0x09, an image that fails
check k with 0x07 and RESULT k, each leaving everything but mailboxes as it was; an image that passes every check replaces the job: its
queues, its coordinates and tag, and its first step, which is STEP0.
RESTORE (R294, R295): from the first good record of those that were read come the contract scales of the next step, the history of
verdict sums and the checkpoint control; the next start follows its step, and it is the rollback point; with no good record the command ends
with 0x0A and the job is invalid until a restore or a load.
A load or a restore that would write where the hub cannot reach ends with 0x06 and leaves the job (log entry 67). -/
def Obligations.JobLoadAndRestore : Prop :=
  (∀ (mb : Mbox) (data : Option Bytes) (e : Bytes) (s : State), Offered 0x0101 mb e s → LockedIdle s →
    ∃ t, exec (.jobLoad mb data) s = .next t ∧
      let d := lockedFrom s + cdiv (entLen e) 100 + 2000000000
      (s.twin.phys = none → MailboxOnly s t ∧ Ends mb e d 6 0 s t) ∧
      (s.twin.phys ≠ none → (∀ b, data = some b → b.length ≠ entLen e) → MailboxOnly s t ∧ Ends mb e d 9 0 s t) ∧
      (∀ b, s.twin.phys ≠ none → data = some b → b.length = entLen e →
        (imageCheck b (loadArgs e) s ≠ 0 → MailboxOnly s t ∧ Ends mb e d 7 (imageCheck b (loadArgs e) s) s t) ∧
        (imageCheck b (loadArgs e) s = 0 → stretchCause (loadStretches (decodeImage b)) s ≠ none → MailboxOnly s t ∧ Ends mb e d 6 0 s t) ∧
        (imageCheck b (loadArgs e) s = 0 → stretchCause (loadStretches (decodeImage b)) s = none →
          Ends mb e d 0 0 s t ∧ t.job.state = .loaded ∧ t.job.image = some (decodeImage b) ∧ t.job.tag = BitVec.ofNat 16 (arg e 4 2) ∧
            t.job.x = arg e 0 1 ∧ t.job.y = arg e 1 1 ∧ t.job.z = arg e 2 1 ∧ t.job.cstep = (decodeImage b).step0 ∧
            t.job.nextFirst = (decodeImage b).step0 ∧ t.queues = (decodeImage b).queues.map loadQueue ∧ t.twin.rollback = none ∧
            t.twin.phys = s.twin.phys ∧ t.fabric = s.fabric ∧ t.flash = s.flash))) ∧
  (∀ (mb : Mbox) (b1 b2 e : Bytes) (im : JobImage) (s : State), Offered 0x0202 mb e s → LockedIdle s → s.job.image = some im →
    ∃ t, exec (.restore mb b1 b2) s = .next t ∧
      let k := arg e 0 4
      let d := lockedFrom s + 20000000000
      (arg e 4 1 = 0 → s.twin.phys = none → Ends mb e d 6 0 s t ∧ t.job = s.job) ∧
      (arg e 4 1 = 1 → stretchCause areaStretches s ≠ none → Ends mb e d 6 0 s t ∧ t.job = s.job) ∧
      (arg e 4 1 = 1 ∧ stretchCause areaStretches s = none ∨ arg e 4 1 = 0 ∧ s.twin.phys ≠ none →
        let rs := if arg e 4 1 = 1 then [ownRecord k s] else [b1, b2]
        ((∀ b ∈ rs, recordGood im k b s = false) → Ends mb e d 0x0A 0 s t ∧ t.job = { s.job with invalid := true } ∧ t.mem = s.mem) ∧
        (∀ b, rs.find? (fun b => recordGood im k b s) = some b →
          (stretchCause (restoreStretches im) s ≠ none → Ends mb e d 6 0 s t ∧ t.job = s.job ∧ t.mem = s.mem) ∧
          (stretchCause (restoreStretches im) s = none →
            Ends mb e d 0 0 s t ∧
              t.job = { s.job with nextFirst := k + 1, cstep := k, failStopped := false, invalid := false } ∧
              (∀ c n, im.contracts[n]? = some c → (∀ m c', im.contracts[m]? = some c' → c'.cslot = c.cslot → m = n) →
                scaleOf c.cslot (k + 1) t = toSigned 16 (field (sectionOf 6 b) (2 * n) 2)) ∧
              t.exec.history = (List.range (min (field (sectionOf 8 b) 0 4) 64)).map (fun i => toSigned 64 (field (sectionOf 8 b) (4 + 8 * i) 8)) ∧
              t.twin.m = field (sectionOf 10 b) 0 8 ∧ t.twin.ran = field (sectionOf 10 b) 8 8 ∧
              t.twin.lastStopEnd = field (sectionOf 10 b) 16 8 ∧ t.twin.rollback.map (·.1) = some k))))

/-- JOB_START sets the first origin and is at work until it comes; JOB_STOP holds every step after the next origin, and takes effect at once where a
step stands abandoned, with the step before it as RESULT; JOB_UNLOAD leaves no job (R152, Table 10.8).
CKPT_STOP (R292): the checkpoint of the step that ends at the first origin at least 1.1 ms away is scheduled, and the command is at work.
RESULT of a stop of an abandoned step is log entry 21. -/
def Obligations.JobStartStopUnload : Prop :=
  (∀ (mb : Mbox) (e : Bytes) (s : State),
    (Offered 0x0102 mb e s → LockedIdle s →
      ∃ t, exec (.jobStart mb) s = .next t ∧ MailboxOnly { s with job := { s.job with startAt := some (arg e 0 8) } } t ∧
        Holds mb e (max (lockedFrom s) (arg e 0 8 + 1000000)) none s t) ∧
    (Offered 0x0103 mb e s → LockedIdle s → s.job.abandoned = false →
      ∃ t, exec (.jobStop mb) s = .next t ∧ MailboxOnly { s with job := { s.job with stopping := true } } t ∧
        Holds mb e (max (lockedFrom s) (nextOrigin s + 101000000)) none s t) ∧
    (Offered 0x0103 mb e s → LockedIdle s → s.job.abandoned = true → 0 < s.job.cstep → s.job.cstep < 2 ^ 32 →
      ∃ t, exec (.jobStop mb) s = .next t ∧ t.job.state = .stopped ∧ t.job.nextFirst = s.job.cstep ∧ t.job.abandoned = false ∧
        ∃ a ∈ t.warden.accepted, a.entry = e ∧ a.deadline = max (lockedFrom s) (tideNow s + 101000000) ∧
          a.done = some { status := 0, result := s.job.cstep - 1, fault := 0, at_ := s.now }) ∧
    (Offered 0x0104 mb e s → LockedIdle s →
      ∃ t, exec (.jobUnload mb) s = .next t ∧
        MailboxOnly { s with job := JobCtl.reset, exec := Exec.reset, queues := [], inspect := { s.inspect with wait := [] },
                             memStacks := t.memStacks } t ∧
        Ends mb e (lockedFrom s + 100000000) 0 0 s t)) ∧
  (∀ (mb : Mbox) (e : Bytes) (s : State), Offered 0x0201 mb e s → LockedIdle s →
    let k := if tideNow s + 1100000 ≤ nextOrigin s then s.job.cstep else s.job.cstep + 1
    ∃ t, exec (.ckptStop mb) s = .next t ∧ k ∈ t.twin.sched ∧ t.twin.byStop = true ∧ t.job = s.job ∧ t.exec = s.exec ∧
      t.mem = s.mem ∧ t.coreStore = s.coreStore ∧
      Holds mb e (max (lockedFrom s) (nextOrigin s + (k - s.job.cstep) * period s + stopTime s + 1000000)) none s t)

/-- TWIN_PAIR and TWIN_UNPAIR (R282 to R284): PAIR_REQ goes to the neighbour named; a package that cannot serve as a twin ends the command with
0x06; it completes where a held PAIR_REQ of that neighbour has TWINOK and another feed, and waits without one. TWIN_UNPAIR ends the pairing.
Pairing by the fabric (R282, R284, Table 11.1): PAIR_REQ is held and completes an open TWIN_PAIR of its sender with another feed; UNPAIR from the twin
ends the pairing, and from another package changes nothing; PAIR_TIMEOUT ends an open TWIN_PAIR with 0x06 at its deadline; a held PAIR_REQ lasts
1 s; PEER_COMPLETION takes the front of queue 7. -/
def Obligations.Pairing : Prop :=
  (∀ (mb : Mbox) (e : Bytes) (s : State),
    (Offered 0x0203 mb e s → LockedIdle s → openOps 0x0203 s = [] →
      ∃ t p, exec (.twinPair mb) s = .next t ∧ portTo (arg e 0 2) s = some p ∧
        (∃ m, .msg p m ∈ t.out ∧ m.type = 0x0B ∧ m.dst = arg e 0 2 ∧ m.payload = peerEntry 0x8001 0 (pairArgs (bit (arg e 2 1) 0) s)) ∧
        (canTwin s = false → Ends mb e (lockedFrom s + 1000000000) 6 0 s t ∧ t.twin = s.twin) ∧
        (canTwin s = true → (∀ h ∈ s.twin.held, h.phys ≠ arg e 0 2) →
          Holds mb e (lockedFrom s + 1000000000) none s t ∧ t.twin = s.twin) ∧
        (∀ h, canTwin s = true → s.twin.held.find? (fun h => h.phys == arg e 0 2) = some h → h.twinok = true →
          h.feed ≠ s.power.straps.feed.toNat →
          Ends mb e (lockedFrom s + 1000000000) 0 0 s t ∧ t.twin.phys = some (arg e 0 2) ∧ t.twin.exposed = false)) ∧
    (Offered 0x0204 mb e s → LockedIdle s →
      ∃ t, exec (.twinUnpair mb) s = .next t ∧ t.twin.phys = none ∧
        Ends mb e (lockedFrom s + 100000000) (if s.twin.phys = none then 6 else 0) 0 s t ∧ t.twin.rollback = s.twin.rollback ∧ t.mem = s.mem)) ∧
  (∀ (s : State),
    (∀ e r, s.peer.waiting = e :: r → entOp e.bytes = 0x8001 →
      ∃ t, exec .pairReq s = .next t ∧ t.peer.waiting = r ∧
        { phys := arg e.bytes 0 2, feed := arg e.bytes 2 1, override := (arg e.bytes 3 1).testBit 0, twinok := (arg e.bytes 3 1).testBit 1,
          since := s.now } ∈ t.twin.held ∧
        (pairOp s = none → t.twin.phys = s.twin.phys) ∧
        (∀ a, pairOp s = some a → arg a.entry 0 2 = arg e.bytes 0 2 → (arg e.bytes 3 1).testBit 1 = true →
          arg e.bytes 2 1 ≠ s.power.straps.feed.toNat → t.twin.phys = some (arg e.bytes 0 2) ∧ t.twin.exposed = false ∧
            openOps 0x0203 t = [])) ∧
    (∀ e r, s.peer.waiting = e :: r → entOp e.bytes = 0x8002 →
      ∃ t, exec .unpair s = .next t ∧ t.peer.waiting = r ∧
        (e.phys = true → s.twin.phys = some e.src → t.twin = { s.twin with phys := none, exposed := false, rx := none }) ∧
        ((e.phys = false ∨ s.twin.phys ≠ some e.src) → t.twin = s.twin) ∧ t.mem = s.mem) ∧
    (∀ a, pairOp s = some a → a.deadline ≤ tideNow s →
      ∃ t, exec .pairTimeout s = .next t ∧ t = { s with warden := { s.warden with accepted := t.warden.accepted } } ∧
        { a with done := some { status := 6, result := 0, fault := 0, at_ := s.now } } ∈ t.warden.accepted ∧ openOps 0x0203 t = []) ∧
    exec .pairReqHoldExpiry s =
      .next { s with twin := { s.twin with held := s.twin.held.filter fun h => decide (s.now < h.since + 1000000000) } } ∧
    exec .peerCompletion s = .next { s with peer := { s.peer with completions := s.peer.completions.drop 1 } })

/-- MEM_POLICY (R166): every stack of the mask takes the policy; one whose policy changes is zeroed, its slice cache empty, and only that one.
FARTIER_SETUP (R192, Table 7.12): the ports of the mask take the state, capacity and rates that setup finds; memory below the far tier, the
stacks and the core stores stay. -/
def Obligations.MemoryCommands : Prop :=
  ∀ (mb : Mbox) (e : Bytes) (s : State), LockedIdle s →
    (Offered 0x0301 mb e s → MemOk s →
      ∃ t, exec (.memPolicy mb) s = .next t ∧ Ends mb e (lockedFrom s + 100000000) 0 0 s t ∧
        (∀ i : Fin 32, t.memStacks[i].policy = if (arg e 0 4).testBit i.val then arg e 4 1 == 1 else s.memStacks[i].policy) ∧
        (∀ a, a < 0x40000000000 →
          memGet t.mem a =
            if (arg e 0 4).testBit (a / 2 ^ 37) ∧ s.memStacks[Fin.ofNat 32 (a / 2 ^ 37)].policy ≠ (arg e 4 1 == 1) then 0
            else memGet s.mem a) ∧
        (∀ a, 0x40000000000 ≤ a → memGet t.mem a = memGet s.mem a) ∧
        (∀ i : Fin 32, if (arg e 0 4).testBit i.val ∧ s.memStacks[i].policy ≠ (arg e 4 1 == 1) then ∀ c ∈ t.memStacks[i].cache, c.lines = []
          else t.memStacks[i] = s.memStacks[i]) ∧ t.coreStore = s.coreStore ∧ t.job = s.job) ∧
    (∀ f0 f1, Offered 0x0302 mb e s →
      ∃ t, exec (.farTierSetup mb f0 f1) s = .next t ∧ Ends mb e (lockedFrom s + 5000000000) 0 0 s t ∧
        (∀ f : Fin 2,
          let q := if f = 0 then f0 else f1
          let n := farStep q
          t.far[f] = if (arg e 0 1).testBit f.val then
            { st := if n = 6 then 2 else if n = 5 then 1 else 0, cap := if n < 5 then 0 else min q.capBytes (2 ^ 42),
              wr := if n < 5 then 0 else q.wrRate, rd := if n < 5 then 0 else q.rdRate, linkUp := decide (5 ≤ n) } else s.far[f]) ∧
        (∀ a, a < 0x100000000000 → MemOk s → memGet t.mem a = memGet s.mem a) ∧ t.memStacks = s.memStacks ∧ t.coreStore = s.coreStore)

/-- LEVEE_WINDOW and GUEST_RESET (R212, R217, Table 10.8): in ordering code SE they end with 0x06 and no effect; with a guest site a window record takes
effect at once, or in state R waits for the next boundary, and GUEST_RESET holds the guest for 1 ms and ends a quarantine. In state R the
bound of a window record is the next boundary and 1 ms on either part.
UNIT_RESET (R318, Table 12.7): a compute die is held for 1 ms with its core stores zeroed, a stack with its contents kept, the guest site likewise
without leaving a quarantine. -/
def Obligations.LeveeCommandsAndUnitReset : Prop :=
  (∀ (mb : Mbox) (e : Bytes) (s : State), LockedIdle s →
    (s.power.gsite = false →
      (Offered 0x0303 mb e s → ∃ t, exec (.leveeWindow mb) s = .next t ∧ MailboxOnly s t ∧
        Ends mb e (if s.job.state = .running then max (lockedFrom s) (nextOrigin s + 1000000) else lockedFrom s + 1000000) 6 0 s t) ∧
      (Offered 0x0304 mb e s → ∃ t, exec (.guestReset mb) s = .next t ∧ MailboxOnly s t ∧ Ends mb e (lockedFrom s + 200000000) 6 0 s t)) ∧
    (s.power.gsite = true →
      let k := (windowArg e).1
      let w := (windowArg e).2
      (Offered 0x0303 mb e s → s.job.state ≠ .running →
        ∃ t, exec (.leveeWindow mb) s = .next t ∧ MailboxOnly { s with levee := t.levee } t ∧ Ends mb e (lockedFrom s + 1000000) 0 0 s t ∧
          k < 8 ∧ t.levee.windows[Fin.ofNat 8 k] = (if w.isOpen then w else Window.closed) ∧
          (∀ j : Fin 8, j.val ≠ k → t.levee.windows[j] = s.levee.windows[j])) ∧
      (Offered 0x0303 mb e s → s.job.state = .running →
        ∃ t, exec (.leveeWindow mb) s = .next t ∧
          MailboxOnly { s with levee := { s.levee with changes := s.levee.changes ++ [(k, w)] } } t ∧
          Holds mb e (max (lockedFrom s) (nextOrigin s + 1000000)) none s t) ∧
      (Offered 0x0304 mb e s →
        ∃ t, exec (.guestReset mb) s = .next t ∧ t.levee.guestReset = true ∧ t.levee.resetUntil = s.now + 1000000 ∧
          t.levee.quarantine = false ∧ t.levee.windows = s.levee.windows ∧ t.levee.held = [] ∧ t.levee.resps = [] ∧
          Holds mb e (lockedFrom s + 200000000) (some { status := 0, result := 0, fault := 0, at_ := s.now + 1000000 }) s t))) ∧
  (∀ (mb : Mbox) (e : Bytes) (s : State), LockedIdle s → Offered 0x0305 mb e s →
    let held : State → Prop := fun t =>
      Holds mb e (lockedFrom s + 500000000) (some { status := 0, result := 0, fault := 0, at_ := s.now + 1000000 }) s t
    ∃ t, exec (.unitReset mb) s = .next t ∧
      (∀ d : Fin 4, arg e 0 1 = 0 → arg e 1 1 = d.val → MemOk s →
        held t ∧ t.dies[d].inReset = true ∧ t.dies[d].resetUntil = s.now + 1000000 ∧ (∀ k, k ≠ d → t.dies[k] = s.dies[k]) ∧
          (∀ c off, c < 1088 → off < 393216 → memGet t.coreStore (storeKey d.val c off) = 0) ∧
          (∀ a, a < storeKey d.val 0 0 ∨ storeKey (d.val + 1) 0 0 ≤ a → memGet t.coreStore a = memGet s.coreStore a) ∧ t.mem = s.mem) ∧
      (∀ i : Fin 32, arg e 0 1 = 1 → arg e 1 1 = i.val →
        held t ∧ t.memStacks[i].inReset = true ∧ t.memStacks[i].resetUntil = s.now + 1000000 ∧ t.memStacks[i].selfRefresh = true ∧
          t.memStacks[i].policy = s.memStacks[i].policy ∧ (∀ k, k ≠ i → t.memStacks[k] = s.memStacks[k]) ∧ t.coreStore = s.coreStore ∧
          ((∀ c ∈ s.memStacks[i].cache, ∀ l ∈ c.lines, l.dirty = false) → t.mem = s.mem)) ∧
      (arg e 0 1 = 2 → s.power.gsite = false → MailboxOnly s t ∧ Ends mb e (lockedFrom s + 500000000) 6 0 s t) ∧
      (arg e 0 1 = 2 → s.power.gsite = true →
        held t ∧ t.levee.guestReset = true ∧ t.levee.quarantine = s.levee.quarantine ∧ t.levee.windows = s.levee.windows))

/-- PKG_RESET fixes the instant of the reset, and a running or stopped job fails; CLOCK_MODE switches boost, and leaves every compute die at 1.20 GHz
on PLL0 where it ends it; INSPECT_CFG sets the sweep period; GUARD_MODE keeps the list of cores in guard-bit mode (R72, R299, R317, R330).
LINK_TEST ends after its duration with the results of the links it tests in DATA, or where a mode needs a partner that is not ready with
0x06; CORE_SCAN delivers the 64-byte record with RESULT 0 where no test failed and 1 otherwise, and with 0x06 on a die that is in reset or
stopped; an access to host memory that fails ends either with 0x09 (R210, R362, Tables 10.9, 10.16). -/
def Obligations.PackageCommandsAndTests : Prop :=
  (∀ (mb : Mbox) (e : Bytes) (s : State),
    (Offered 0x0306 mb e s → LockedIdle s →
      ∃ t, exec (.pkgReset mb) s = .next t ∧ t.power = { s.power with pend := some { level := arg e 0 1, tA := s.now } } ∧
        (s.job.state = .running ∨ s.job.state = .stopped → t.job.state = .failed) ∧
        (s.job.state ≠ .running → s.job.state ≠ .stopped → t.job = s.job) ∧
        ∃ a ∈ t.warden.accepted, a.entry = e ∧ a.deadline = tideNow s + 1000000) ∧
    (Offered 0x0307 mb e s → LockedIdle s →
      ∃ t, exec (.clockMode mb) s = .next t ∧ Ends mb e (lockedFrom s + 10000000) 0 0 s t ∧
        t.power = { s.power with boost := arg e 0 1 == 1 } ∧ MailboxOnly { s with power := t.power, plls := t.plls } t ∧
        (arg e 0 1 = 1 → t.plls = s.plls) ∧
        (arg e 0 1 = 0 → ∀ u : Fin 36, (u.val < 4 → t.plls[u].active = 0 ∧ t.plls[u].freq = 1200) ∧
          (4 ≤ u.val → t.plls[u] = s.plls[u]))) ∧
    (Offered 0x0308 mb e s → LockedIdle s →
      ∃ t, exec (.inspectCfg mb) s = .next t ∧ Ends mb e (lockedFrom s + 1000000) 0 0 s t ∧
        MailboxOnly { s with power := { s.power with inspectHours := arg e 0 2 } } t) ∧
    (Offered 0x0401 mb e s → LockedIdle s →
      ∃ t, exec (.guardMode mb) s = .next t ∧ Ends mb e (lockedFrom s + 1000000) 0 0 s t ∧
        MailboxOnly s { t with warden := { t.warden with guard := s.warden.guard } } ∧
        (∀ k, k ∈ t.warden.guard ↔ (k ∈ s.warden.guard ∧ k ≠ (arg e 0 1, arg e 1 2)) ∨ (k = (arg e 0 1, arg e 1 2) ∧ arg e 3 1 = 1)))) ∧
  (∀ (mb : Mbox) (dma : Bool) (e : Bytes) (s : State), LockedIdle s →
    (∀ ws, Offered 0x0402 mb e s →
      let ls := testedLinks (arg e 0 1) (arg e 1 1) (arg e 2 1)
      let ends := arg e 2 1 < 2 ∨ ∀ l ∈ ls, endsReady l s = true
      let b := (Config.linkTestImage (ws.filter fun r => ls.contains r.link)).take (entLen e)
      let d := lockedFrom s + arg e 4 4 * 1000000 + 10000000
      ∃ t, exec (.linkTest mb dma ws) s = .next t ∧ MailboxOnly { s with flash := t.flash } t ∧ t.flash.ledgerA = s.flash.ledgerA ∧
        t.flash.ledgerB = s.flash.ledgerB ∧
        (¬ ends → t.flash = s.flash ∧ Ends mb e d 6 0 s t) ∧
        (ends → dma = true → .dataOut mb (entData e) b ∈ t.out ∧
          Holds mb e d (some { status := 0, result := b.length, fault := 0, at_ := s.now + arg e 4 4 * 1000000 }) s t) ∧
        (ends → dma = false → Ends mb e d 9 0 s t)) ∧
    (∀ r, Offered 0x0403 mb e s → s.dies[Fin.ofNat 4 (arg e 0 1)].inReset = true ∨ clusterStopped (Fin.ofNat 4 (arg e 0 1)) s = true →
      ∃ t, exec (.coreScan mb dma r) s = .next t ∧ MailboxOnly s t ∧ Ends mb e (lockedFrom s + 200000000) 6 0 s t) ∧
    (∀ r, Offered 0x0403 mb e s → s.dies[Fin.ofNat 4 (arg e 0 1)].inReset = false → clusterStopped (Fin.ofNat 4 (arg e 0 1)) s = false →
      ∃ t, exec (.coreScan mb dma r) s = .next t ∧ MailboxOnly s t ∧
        (dma = true → .dataOut mb (entData e) (scanBytes r) ∈ t.out ∧
          Ends mb e (lockedFrom s + 200000000) 0 (if r.tests = 0 then 0 else 1) s t) ∧
        (dma = false → Ends mb e (lockedFrom s + 200000000) 9 0 s t)))

/-- FW_WRITE stores an image that passes R279 in the slot named and FW_ACTIVATE writes the older boot-record copy with a higher count, and nothing else
of flash changes; an image that fails ends either with 0x08 and event 0x0071 with the slot and the check that failed, and flash stays; host
memory that does not answer ends FW_WRITE with 0x09 (R279, R281). -/
def Obligations.Firmware : Prop :=
  ∀ (mb : Mbox) (e : Bytes) (s : State), LockedIdle s →
    (∀ b, Offered 0x0501 mb e s → b.length = entLen e →
      let d := lockedFrom s + entLen e * 1000 + 5000000000
      ∃ t, exec (.fwWrite mb (some b)) s = .next t ∧ MailboxOnly { s with flash := t.flash } t ∧
        if fwCheck b s.warden.svnMin = 0 then
          Ends mb e d 0 0 s t ∧
            t.flash = if arg e 0 1 = 0 then { s.flash with slotA := b } else { s.flash with slotB := b }
        else Ends mb e d 8 0 s t ∧ t.flash = s.flash ∧
          ∃ l ∈ t.log, l.code = 0x0071 ∧ l.d0 = arg e 0 1 ∧ l.d1 = fwCheck b s.warden.svnMin) ∧
    (Offered 0x0501 mb e s →
      ∃ t, exec (.fwWrite mb none) s = .next t ∧ MailboxOnly s t ∧
        Ends mb e (lockedFrom s + entLen e * 1000 + 5000000000) 9 0 s t) ∧
    (Offered 0x0502 mb e s →
      let r : BootRec := { slot := arg e 0 1 == 1, count := max s.flash.bootA.count s.flash.bootB.count + 1 }
      ∃ t, exec (.fwActivate mb) s = .next t ∧ MailboxOnly { s with flash := t.flash } t ∧
        if fwCheck (if arg e 0 1 = 1 then s.flash.slotB else s.flash.slotA) s.warden.svnMin = 0 then
          Ends mb e (lockedFrom s + 2000000000) 0 0 s t ∧
            t.flash = if s.flash.bootA.count < s.flash.bootB.count then { s.flash with bootA := r } else { s.flash with bootB := r }
        else Ends mb e (lockedFrom s + 2000000000) 8 0 s t ∧ t.flash = s.flash ∧
          ∃ l ∈ t.log, l.code = 0x0071 ∧ l.d0 = arg e 0 1 ∧
            l.d1 = fwCheck (if arg e 0 1 = 1 then s.flash.slotB else s.flash.slotA) s.warden.svnMin)

/-- COMMAND_COMPLETION (R266, R267): the DONE entry of a command that has ended takes the next slot of the completion ring, with its status, RESULT and
the SEQ of the event that records it, raises the completion interrupt where FLAGS asks for it, and the command is no longer accepted.
The I3C target (R277): 128 written bytes place an entry in queue 4, which the warden then reads; a read returns the oldest entry of queue 5, else
what the result buffer still holds, else zeros (log entry 20); SETDASA at 0x2A gives the target its address.
What a bus read gives after the entries is log entry 20. -/
def Obligations.CompletionsAndManagementBus : Prop :=
  (∀ (i : Nat) (a : Accepted) (d : Done) (p : HPort) (s : State),
    s.warden.accepted[i]? = some a → a.done = some d → d.at_ ≤ s.now → entOp a.entry ≠ 0x0306 → mboxPort a.mb = some p →
      (a.orphan = false → cplSpace a.mb s = true →
        let m := (hostOf p s).mb
        ∃ t, exec (.commandCompletion i) s = .next t ∧ t.warden.accepted.length + 1 = s.warden.accepted.length ∧
          .cpl a.mb (m.ppi.toNat % 2 ^ m.plog.toNat)
            (cplBytes a.entry 1 d.status (decide (m.ppi.toNat < 2 ^ m.plog.toNat)) 0 d.result
              (if d.fault = 0 then s.seq + 1 else d.fault)) ∈ t.out ∧
          (entIrq a.entry = true → (hostOf p t).irqst.getLsbD 0 = true)) ∧
      (a.orphan = true → ∃ t, exec (.commandCompletion i) s = .next t ∧ t.warden.accepted.length + 1 = s.warden.accepted.length ∧
        s.seq + 1 ≤ t.seq)) ∧
  (∀ (s : State), i3cUp s = true →
    (∀ data : Bytes, data.length = 128 →
      exec (.i3cPrivateWrite data) s = .next (drain .i3c { s with i3c := { s.i3c with waiting := s.i3c.waiting ++ [data] } })) ∧
    (∀ data : Bytes, data.length ≠ 128 → exec (.i3cPrivateWrite data) s = .next s) ∧
    (∀ e r, s.i3c.done = e :: r →
      exec .i3cPrivateRead s =
        .next { s with i3c := { s.i3c with done := r, ibi := !r.isEmpty }, out := s.out ++ [.i3cResp e] }) ∧
    (s.i3c.done = [] →
      ∃ b, exec .i3cPrivateRead s =
          .next { s with i3c := { s.i3c with buffer := s.i3c.buffer.drop 32, ibi := false }, out := s.out ++ [.i3cResp b] } ∧
        b.length = 32 ∧ (s.i3c.buffer = [] → b = List.replicate 32 0) ∧ (32 ≤ s.i3c.buffer.length → b = s.i3c.buffer.take 32)) ∧
    (∀ dyn, exec (.setdasa 0x2A dyn) s = .next { s with i3c := { s.i3c with dyn := some dyn } }) ∧
    (∀ addr dyn, addr ≠ 0x2A → exec (.setdasa addr dyn) s = .next s))

/-! ### Peer commands -/

/-- The twin's side of a checkpoint (Table 11.4): CKPT_BEGIN of the twin prepares a slot; CKPT_END writes the header that makes the record valid only
where every digest agrees, and leaves the slot's MAGIC alone otherwise.
The taker's side (Table 11.4, R286): CKPT_SCHED schedules a step that has not ended, once; CKPT_ACK 0 keeps the GAUGES section that was streamed,
and CKPT_ACK 2 leaves the package unprotected. -/
def Obligations.CheckpointExchange : Prop :=
  (∀ (e : PeerEntry) (r : List PeerEntry) (s : State), s.peer.waiting = e :: r → fromTwin e s = true →
    (entOp e.bytes = 0x8011 → arg e.bytes 4 1 ≤ 1 →
      ∃ t, exec .ckptBegin s = .next t ∧ t.peer.waiting = r ∧ t.mem = s.mem ∧
        t.twin = { s.twin with rx := some { step := arg e.bytes 0 4, slot := arg e.bytes 4 1, length := arg e.bytes 8 8, header := [] } }) ∧
    (entOp e.bytes = 0x8012 →
      ∃ t, exec .ckptEnd s = .next t ∧ t.peer.waiting = r ∧ t.twin = { s.twin with rx := none } ∧ t.coreStore = s.coreStore ∧
        (∀ x, s.twin.rx = some x → s.twin.areaLost = false → x.step = arg e.bytes 0 4 → rxGood x (arg e.bytes 8 8) s = true →
          t.mem = (slotWrite x.slot 0 x.header s).mem) ∧
        ((∀ x, s.twin.rx = some x → s.twin.areaLost = true ∨ x.step ≠ arg e.bytes 0 4 ∨ rxGood x (arg e.bytes 8 8) s = false) →
          t.mem = s.mem))) ∧
  (∀ (e : PeerEntry) (r : List PeerEntry) (s : State), s.peer.waiting = e :: r →
    (entOp e.bytes = 0x8010 → s.job.state = .running → s.job.cstep ≤ arg e.bytes 0 4 →
      let k := arg e.bytes 0 4
      exec .ckptSched s = .next { s with
        peer := { s.peer with waiting := r },
        twin := { s.twin with sched := if s.twin.sched.contains k then s.twin.sched else s.twin.sched ++ [k],
                              m := if logId s = 0 then s.twin.m else arg e.bytes 4 8, schedRun := arg e.bytes 12 8 } }) ∧
    (entOp e.bytes = 0x8013 → fromTwin e s = true → s.twin.inProg = some (arg e.bytes 0 4) →
      ∃ t, exec .ckptAck s = .next t ∧ t.mem = s.mem ∧ t.job = s.job ∧
        (arg e.bytes 4 1 = 0 → t.twin = { s.twin with gaugesCopy := s.twin.sent.map fun g => (arg e.bytes 0 4, g) }) ∧
        (arg e.bytes 4 1 = 1 → t.twin = s.twin) ∧
        (arg e.bytes 4 1 = 2 → t.twin = { s.twin with unprotected := true })))

/-- The commit (Table 11.4, R292): the lead commits when every package has reported 0, and not on another result or 1 ms past the new origin; a
commit makes the step the rollback point in the slot that was written, anything else leaves the previous one. -/
def Obligations.CheckpointCommit : Prop :=
  ∀ (k : Nat) (s : State), s.twin.inProg = some k →
    let slot := match s.twin.rollback with
      | some (_, j) => 1 - j
      | none => 0
    let committed : State → Prop := fun t =>
      t.twin.inProg = none ∧ t.twin.rollback = some (k, slot) ∧ t.twin.lastStopEnd = s.twin.newOrigin ∧ t.twin.changed = false
    let kept : State → Prop := fun t =>
      t.twin.inProg = none ∧ t.twin.rollback = s.twin.rollback ∧ t.twin.lastStopEnd = s.twin.lastStopEnd
    (∀ e r, s.peer.waiting = e :: r → entOp e.bytes = 0x8015 → arg e.bytes 0 4 = k →
      ∃ t, exec .ckptCommit s = .next t ∧ t.peer.waiting = r ∧ (arg e.bytes 4 1 = 0 → committed t) ∧ (arg e.bytes 4 1 ≠ 0 → kept t) ∧
        t.mem = s.mem ∧ t.job = s.job) ∧
    (∀ e r, s.peer.waiting = e :: r → entOp e.bytes = 0x8014 → arg e.bytes 0 4 = k → logId s = 0 →
      let l := s.twin.doneFrom.filter (fun d => d.1 != e.src) ++ [(e.src, arg e.bytes 4 1)]
      ∃ t, exec .ckptDone s = .next t ∧ (arg e.bytes 4 1 ≠ 0 → kept t) ∧
        (arg e.bytes 4 1 = 0 → l.length = jobSize s → committed t) ∧
        (arg e.bytes 4 1 = 0 → l.length ≠ jobSize s → t.twin = { s.twin with doneFrom := l })) ∧
    ((if logId s = 0 then s.twin.newOrigin + 1000000 ≤ tideNow s else s.twin.newOrigin + 1000000 + noticeBound s ≤ tideNow s) →
      ∃ t, exec .ckptCommitTimeout s = .next t ∧ kept t ∧ t.mem = s.mem ∧ t.job = s.job)

/-- FAIL_REPORT (R297): every deadline is void, no uncommitted task stays, the job cannot start again without a restore, a running job stops, and the
package that the report names is failed. With one data replica a job that runs or is stopped fails (R298; log entry 75).
RESTORE_REQ and COPY_REQ (R294, R298): a package that holds a valid record of the step answers 0x00 and streams it, its header last, to the
sender or with a rewritten header to the new holder; one that does not answers 0x06; every memory stays as it is. -/
def Obligations.FailuresAndRestores : Prop :=
  (∀ (e : PeerEntry) (r : List PeerEntry) (s : State), s.peer.waiting = e :: r → entOp e.bytes = 0x8020 →
    ∃ t, exec .failReport s = .next t ∧ t.peer.waiting = r ∧ t.exec.voided = true ∧ t.job.failStopped = true ∧ t.exec.notices = [] ∧
      (∀ x ∈ t.exec.runs, x.st = .committed) ∧
      (arg e.bytes 0 2 = logId s → s.job.state ≠ .none → t.job.state = .failed) ∧
      (arg e.bytes 0 2 ≠ logId s → s.job.state = .running → noReplica s = false → t.job.state = .stopped) ∧
      (s.job.state = .running ∨ s.job.state = .stopped → noReplica s = true → t.job.state = .failed) ∧
      t.mem = s.mem ∧ t.coreStore = s.coreStore) ∧
  (∀ (e : PeerEntry) (r : List PeerEntry) (s : State), s.peer.waiting = e :: r → e.bcast = false → e.phys = true →
    let has := fun (j : Nat) => headerValid (slotRead j 0 256 s) && field (slotRead j 0 256 s) 8 4 == arg e.bytes 0 4
    let answered := fun (op status : Nat) (t : State) =>
      ∃ l ∈ t.log, l.seq = s.seq + 1 ∧ l.code = 0x0003 ∧ l.d0 = op ∧ l.d1 = 1 ∧ l.d2 = status
    let kept := fun (t : State) => t = { s with
      peer := { s.peer with waiting := r }, fabric := t.fabric, out := t.out, hostA := t.hostA, hostB := t.hostB, seq := t.seq, log := t.log }
    (entOp e.bytes = 0x8030 → arg e.bytes 4 1 ≤ 1 →
      ∃ t, exec .restoreReq s = .next t ∧ kept t ∧ answered 0x8030 (if has (arg e.bytes 4 1) then 0 else 6) t ∧
        ∀ q, has (arg e.bytes 4 1) = true → portTo e.src s = some q →
          ∃ m, .msg q m ∈ t.out ∧ m.type = 0x0B ∧ m.dst = e.src ∧ m.ref = (1 + arg e.bytes 4 1) * 2 ^ 24 ∧ m.offset = 0 ∧
            m.payload = slotRead (arg e.bytes 4 1) 0 256 s) ∧
    (entOp e.bytes = 0x8031 →
      let k := if has 0 then 0 else 1
      ∃ t, exec .copyReq s = .next t ∧ kept t ∧ answered 0x8031 (if has 0 || has 1 then 0 else 6) t ∧
        ∀ q, (has 0 || has 1) = true → portTo (arg e.bytes 6 2 % 8192) s = some q →
          ∃ m, .msg q m ∈ t.out ∧ m.type = 0x0B ∧ m.dst = arg e.bytes 6 2 % 8192 ∧ m.ref = (1 + k) * 2 ^ 24 ∧ m.offset = 0 ∧
            m.payload = copyHeader (slotRead k 0 256 s) (arg e.bytes 4 2) e.src))

/-! ### Memory -/

/-- Every step keeps the slice caches sound (R167 to R171): it is what the statements about memory ask of a state. -/
def Obligations.SliceCachesStaySound : Prop :=
  CachesOk State.reset ∧ ∀ s t : State, CachesOk s → step s = .next t → CachesOk t

/-- A request that cannot be served completes at once with an error and event 0x0010 with the cause of Table 10.15, nothing is performed, and a core
has it outstanding no more: a line, GATHER, SCATTER or SCATTER_ADD request, and an adder operation of the collective engine. So does each access to a stack that a thermal
trip stopped or that is held in reset, and each that would pass through a compute die in reset, or a ring path that is not whole (R163). -/
def Obligations.FailedAccess : Prop :=
  ∀ (k : Nat) (s : State),
    let fails := fun (i : Instr) (addr : Nat) (who : Requester) (id : Nat) =>
      exec i s = .next (emit (.memDone who id .error []) (dropOutst (who, id) (logEv 0x0010 (reqUnit who) addr (reqUnit who) k 0 s)))
    (∀ r : LineReq, reqCause (.line r) s = some k → fails (.lineRequest r) r.addr r.who r.id) ∧
    (∀ r : NarrowReq, narrowOk r = true →
      (reqCause (.gather r) s = some k → fails (.gather r) (r.addrs.headD 0) r.who r.id) ∧
      (reqCause (.scatter r) s = some k → fails (.scatter r) (r.addrs.headD 0) r.who r.id) ∧
      (reqCause (.scatterAdd r) s = some k → fails (.scatterAdd r) (r.addrs.headD 0) r.who r.id)) ∧
    (∀ addr l ecc, adderOk addr l.length = true → accessCause .hub addr (4 * l.length) s = some k →
      fails (.land addr l) addr .hub 0 ∧ fails (.add32 addr ⟨l, ecc⟩) addr .hub 0) ∧
    (∀ addr n, addr % 32 = 0 → n % 8 = 0 → 0 < n → accessCause .hub addr (4 * n) s = some k → fails (.zero addr n) addr .hub 0) ∧
    (∀ i : Fin 32,
      let off := s.memStacks[i].stopped = true ∨ s.memStacks[i].inReset = true
      let shut := s.dies[ownerDie i].inReset = true
      (∀ m : MemReq, rangeOf (m.addrs.headD 0) = .stack i →
        (off ∨ (shut ∧ ∀ j, m.key.1 ≠ .update j) ∨
          (∃ c n th, m.key.1 = .core c n th ∧ (s.dies[c].inReset = true ∨ (c ≠ ownerDie i ∧ ringPath c (ownerDie i) s = false)))) →
        (reqCause m s).isSome = true) ∧
      (∀ addr n, rangeOf addr = .stack i → off ∨ shut → (accessCause .hub addr n s).isSome = true))

/-- LINE_REQUEST (R136, R167, R168, R191): a read of a stack or of the far tier completes with its line and changes no byte, a write changes its own
bytes alone; a core's read within its caps reserves its landing space and its answer waits there, and a core's write that is acknowledged is
outstanding no more. Requests that a full bank or a parked write keeps waiting are in the statement about banks. -/
def Obligations.LineRequests : Prop :=
  ∀ (r : LineReq) (s : State), reqCause (.line r) s = none → r.ecc = .clean → CachesOk s →
    (∀ i, rangeOf r.addr = .stack i → waitBank (.line r) s = none →
      (r.write = false → r.who.notCore = true →
        ∃ t, exec (.lineRequest r) s = .next t ∧ t = { s with memStacks := t.memStacks, mem := t.mem, out := t.out } ∧ SameMemory s t ∧
          t.out = s.out ++ [.memDone r.who r.id .ok (physRead s (r.addr - r.addr % 128) 128)]) ∧
      (r.write = true → r.who.notCore = true → r.who ≠ .guest → 1 ≤ r.data.length → r.addr % 128 + r.data.length ≤ 128 →
        ∃ t, exec (.lineRequest r) s = .next t ∧ t = { s with memStacks := t.memStacks, mem := t.mem, out := t.out } ∧
          StoresAt r.addr r.data s t ∧
          (Unwatched i r.addr r.data.length s → t.out = s.out ++ [.memDone r.who r.id .ok []])) ∧
      (∀ d c th, r.write = true → r.who = .core d c th → 1 ≤ r.data.length → r.addr % 128 + r.data.length ≤ 128 →
        (∀ o ∈ outstOf d.val c s, o.id ≠ r.id) → mayIssue d.val c i.val [bankOf i (lineNo r.addr) s] r.dst 0 s = true →
        ∃ t, exec (.lineRequest r) s = .next t ∧
          t = { s with memStacks := t.memStacks, mem := t.mem, out := t.out, cores := t.cores } ∧ StoresAt r.addr r.data s t ∧
          (Unwatched i r.addr r.data.length s →
            t.out = s.out ++ [.memDone r.who r.id .ok []] ∧ outstOf d.val c t = outstOf d.val c s)) ∧
      (∀ d c th, r.write = false → r.who = .core d c th → (∀ o ∈ outstOf d.val c s, o.id ≠ r.id) →
        mayIssue d.val c i.val [bankOf i (lineNo r.addr) s] r.dst 128 s = true →
        ∃ t, exec (.lineRequest r) s = .next t ∧ t = { s with memStacks := t.memStacks, mem := t.mem, cores := t.cores } ∧ t.coreStore = s.coreStore ∧ t.out = s.out ∧ SameMemory s t ∧
          ∃ o ∈ outstOf d.val c t, o.id = r.id ∧ o.dst = r.dst ∧ o.len = 128 ∧
            o.resp = some (some (physRead s (r.addr - r.addr % 128) 128)))) ∧
    (∀ f, rangeOf r.addr = .far f → r.who = .hub ∨ (∃ p, r.who = .host p) ∨ r.who = .guest →
      (r.write = false →
        exec (.lineRequest r) s =
          .next { s with out := s.out ++ [.memDone r.who r.id .ok (memRead s.mem (r.addr - r.addr % 128) 128)] }) ∧
      (r.write = true →
        exec (.lineRequest r) s =
          .next { s with mem := memWrite s.mem r.addr r.data, out := s.out ++ [.memDone r.who r.id .ok []] }))

/-- The narrow path (R172, R173): GATHER returns its sectors and changes no byte and no line of a slice cache; SCATTER writes its sectors in request order; SCATTER_ADD of one
sector adds eight lanes with saturation and its acknowledgement counts the lanes that saturated; no other byte changes.
The adder (R177, R178, Table 7.4): once the parked writes to its lines are done, LAND writes its lanes, ADD32 adds them with saturation, ZERO clears;
each on whole lines or sectors, and no other byte changes; the acknowledgement counts the lanes that saturated. -/
def Obligations.NarrowPathAndAdder : Prop :=
  (∀ (r : NarrowReq) (i : Fin 32) (s : State), narrowOk r = true → rangeOf (r.addrs.headD 0) = .stack i → r.ecc = .clean →
    r.who.notCore = true → r.who ≠ .guest → CachesOk s →
    (reqCause (.gather r) s = none → waitBank (.gather r) s = none →
      ∃ t, exec (.gather r) s = .next t ∧ SameMemory s t ∧
        (∀ k : Fin 32, t.memStacks[k] = { s.memStacks[k] with banks := t.memStacks[k].banks }) ∧
        t = { s with memStacks := t.memStacks,
                     out := s.out ++ [.memDone r.who r.id .ok (slice (r.addrs.flatMap fun a => physRead s a 32) 0 128)] }) ∧
    (reqCause (.scatter r) s = none → waitBank (.scatter r) s = none → r.data.length = r.addrs.length →
      ∃ t, exec (.scatter r) s = .next t ∧ t = { s with memStacks := t.memStacks, mem := t.mem, out := t.out } ∧
        (∀ x, physGet t x = (r.addrs.zip r.data).foldl
          (fun b p => if p.1 ≤ x ∧ x < p.1 + 32 then (slice p.2 0 32).getD (x - p.1) 0 else b) (physGet s x)) ∧
        ((∀ a ∈ r.addrs, Unwatched i a 32 s) → t.out = s.out ++ [.memDone r.who r.id .ok []])) ∧
    (∀ a d, r.addrs = [a] → r.data = [d] → reqCause (.scatterAdd r) s = none → waitBank (.scatterAdd r) s = none →
      let old := lanesOf (physRead s a 32)
      let add := lanesOf (slice d 0 32)
      ∃ t, exec (.scatterAdd r) s = .next t ∧ StoresAt a (laneBytes (old.zipWith satLane add)) s t ∧
        t = { s with memStacks := t.memStacks, mem := t.mem, out := t.out, gauges := t.gauges } ∧
        (Unwatched i a 32 s →
          t.out = s.out ++ [.adderAck a ((old.zip add).countP fun x => decide (satLane x.1 x.2 ≠ x.1 + x.2))]))) ∧
  (∀ (addr : Nat) (i : Fin 32) (s : State), rangeOf addr = .stack i → CachesOk s →
    (∀ l : List (BitVec 32), adderOk addr l.length = true → accessCause .hub addr (4 * l.length) s = none →
      let u := settleRange addr (4 * l.length) s
      (parkedWrites i s = [] → u = s) ∧
      (∃ t, exec (.land addr l) s = .next t ∧ StoresAt addr (l.flatMap fun x => leBytes 4 x.toNat) u t ∧
        t = { u with memStacks := t.memStacks, mem := t.mem, out := t.out } ∧
        (Unwatched i addr (4 * l.length) u → t.out = u.out ++ [.adderAck addr 0])) ∧
      (let old := lanesOf (physRead u addr (4 * l.length))
       let add := l.map (·.toInt)
       ∃ t, exec (.add32 addr ⟨l, .clean⟩) s = .next t ∧ StoresAt addr (laneBytes (old.zipWith satLane add)) u t ∧
        t = { u with memStacks := t.memStacks, mem := t.mem, out := t.out, gauges := t.gauges } ∧
        (Unwatched i addr (4 * l.length) u →
          t.out = u.out ++ [.adderAck addr ((old.zip add).countP fun x => decide (satLane x.1 x.2 ≠ x.1 + x.2))]))) ∧
    (∀ n, addr % 32 = 0 → n % 8 = 0 → 0 < n → accessCause .hub addr (4 * n) s = none →
      let u := settleRange addr (4 * n) s
      ∃ t, exec (.zero addr n) s = .next t ∧ StoresAt addr (List.replicate (4 * n) 0) u t ∧
        t = { u with memStacks := t.memStacks, mem := t.mem, out := t.out } ∧
        (Unwatched i addr (4 * n) u → t.out = u.out ++ [.adderAck addr 0])))

/-- A full bank, or one that holds a parked write to the line (R174, R181): the request waits in the bank's parking list of 24, counted, and past that
completes with RETRY, counted; RETRY_REISSUE issues it again, a core's no sooner than 512 ns later; PARKED_REQUEST_ADMIT serves the oldest
parked request once its banks have room. -/
def Obligations.BankQueues : Prop :=
  ∀ (r : LineReq) (i : Fin 32) (b : Nat) (s : State), reqCause (.line r) s = none → rangeOf r.addr = .stack i → r.who.notCore = true →
    (r.write = true → r.addr % 128 + r.data.length ≤ 128) →
    (waitBank (.line r) s = some b →
      ((bankQ i b s).parked.length < 24 →
        ∃ t, exec (.lineRequest r) s = .next t ∧ t = { s with memStacks := t.memStacks } ∧ (bankQ i b t).queue = (bankQ i b s).queue ∧
          (bankQ i b t).parked = (bankQ i b s).parked ++ [.line r] ∧ t.memStacks[i].parkedCount = s.memStacks[i].parkedCount + 1) ∧
      (24 ≤ (bankQ i b s).parked.length →
        ∃ t, exec (.lineRequest r) s = .next t ∧ t.out = s.out ++ [.memDone r.who r.id .retry []] ∧ t.mem = s.mem ∧
          t.memStacks[i].retryCount = s.memStacks[i].retryCount + 1 ∧ bankQ i b t = bankQ i b s)) ∧
    exec (.retryReissue (.line r)) s = exec (.lineRequest r) s ∧
    (∀ n : NarrowReq, n.who.notCore = true →
      exec (.retryReissue (.gather n)) s = exec (.gather n) s ∧ exec (.retryReissue (.scatter n)) s = exec (.scatter n) s ∧
        exec (.retryReissue (.scatterAdd n)) s = exec (.scatterAdd n) s) ∧
    (∀ d c th o at_, (outstOf d.val c s).find? (fun o => o.id == r.id) = some o → o.retryAt = some at_ → at_ ≤ s.now →
      let q := { r with who := .core d c th }
      exec (.retryReissue (.line q)) s = exec (.lineRequest q) (modOutst d.val c (fun l => l.filter fun x => x.id != r.id) s)) ∧
    (∀ rest, (bankQ i b s).parked = .line r :: rest → (∀ k ∈ (MemReq.line r).banks s, (bankQ i k s).queue.length < 8) → r.ecc = .clean →
      CachesOk s →
      ∃ t, exec (.parkedRequestAdmit i b) s = .next t ∧ (bankQ i b t).parked = rest ∧
        (r.write = false → SameMemory s t ∧ t.out = s.out ++ [.memDone r.who r.id .ok (physRead s (r.addr - r.addr % 128) 128)]) ∧
        (r.write = true → 1 ≤ r.data.length → StoresAt r.addr r.data s t))

/-- Landing, notices and maintenance: LINE_LANDING writes a core's answer to its landing place in the 384 KiB store and frees it, and while the clusters
of the die are stopped the sluice holds it (R4, R136, R309); STALE_NOTICE_ACK sends the acknowledgement that waited for it alone, and takes it
off one that waits for others too (R175); WRITE_DRAIN and REFRESH act when they are due and change no byte (R179, R182). -/
def Obligations.LandingAndMaintenance : Prop :=
  ∀ (s : State),
    (∀ d c id, clusterStopped d s = true → exec (.lineLanding d c id) s = .next s) ∧
    (∀ d c id o, (outstOf d.val c s).find? (fun o => o.id == id) = some o → clusterStopped d s = false →
      (∀ data, o.resp = some (some data) →
        ∃ t, exec (.lineLanding d c id) s = .next t ∧ t.coreStore = memWrite s.coreStore (storeKey d.val c o.dst) (data.take (393216 - o.dst)) ∧ t.mem = s.mem ∧
          outstOf d.val c t = (outstOf d.val c s).filter (fun x => x.id != o.id) ∧
          t.out = s.out ++ [.memDone (.core d c (Fin.ofNat 8 o.thread)) o.id .ok data]) ∧
      (o.resp = some none →
        ∃ t, exec (.lineLanding d c id) s = .next t ∧ t.coreStore = s.coreStore ∧ t.mem = s.mem ∧
          outstOf d.val c t = (outstOf d.val c s).filter (fun x => x.id != o.id) ∧
          t.out = s.out ++ [.memDone (.core d c (Fin.ofNat 8 o.thread)) o.id .error []])) ∧
    (∀ (i : Fin 32) id,
      ∃ t, exec (.staleNoticeAck i id) s = .next t ∧ t.mem = s.mem ∧
        t.memStacks[i].watch = s.memStacks[i].watch.map (fun w => { w with acked := w.acked || (w.id == id && w.stale) }) ∧
        ∀ h, s.memStacks[i].withheld = [h] → h.ids ≠ [] →
          ((∀ k ∈ h.ids, k = id) → t.out = s.out ++ [ackOut h.ack] ∧ t.memStacks[i].withheld = []) ∧
          ((∃ k ∈ h.ids, k ≠ id) → t.out = s.out ∧ t.memStacks[i].withheld = [{ h with ids := h.ids.filter fun k => k != id }])) ∧
    (∀ (i : Fin 32) (pc : Fin 64),
      (256 ≤ writeCount i pc.val s ∨ readWaits i pc.val s = false →
        exec (.writeDrain i pc) s = .next (modStack i (fun k => { k with writeQ := k.writeQ.filter fun w => w.1 != pc.val }) s)) ∧
      (((s.memStacks[i].refreshed.find? fun r => r.1 == pc.val).map (·.2)).getD 0 + (if s.memStacks[i].band = 0 then 3900 else 1950) ≤ s.now →
        exec (.refresh i pc) s = .next (modStack i (fun k =>
          { k with refreshed := (pc.val, s.now) :: k.refreshed.filter fun r => r.1 != pc.val }) s)))

/-- BAR2 and the far tier (R174, R193, R274): once the parked writes to its lines are done, a BAR2 read brings the bytes at the window base plus the
offset; an unmapped part completes with Unsupported Request; a write changes its bytes alone, and while a job is loaded only in a ring of a host-fed queue of the port, else it is dropped with event
0x0010, cause 7. A far-tier link that goes down unmaps its window and fails the package whose running image uses it.
That an unmapped far-tier window has cause 1 is log entry 55. -/
def Obligations.Bar2AndFarTier : Prop :=
  ∀ (s : State),
    (∀ p off n, portAlive p s = true → 1 ≤ n → off + n ≤ 2 ^ 36 → CachesOk s →
      let a := (hostOf p s).base + off
      let u := settleRange a n s
      (∀ i, rangeOf a = .stack i → parkedWrites i s = [] → u = s) ∧
      (accessCause (.host p) a n s = none →
        ∃ t, exec (.bar2Read p off ⟨n, .clean⟩) s = .next t ∧ t = { u with memStacks := t.memStacks, mem := t.mem, out := t.out } ∧
          SameMemory u t ∧ t.out = u.out ++ [.readResp p off (physRead u a n)]) ∧
      (∀ k ecc, accessCause (.host p) a n s = some k →
        exec (.bar2Read p off ⟨n, ecc⟩) s =
          .next (emit (.unsupported p) (logEv 0x0010 (unitWord 5 (hportNo p) 0) a (unitWord 5 (hportNo p) 0)
            (if k = 1 ∨ k = 2 ∨ k = 6 then 1 else k) 0 s))) ∧
      (∀ data : Bytes, data.length = n → accessCause (.host p) a n s = none →
        ((s.job.state = .none ∨ s.job.state = .failed ∨ inHostRing p a n s = true) →
          ∃ t, exec (.bar2Write p off ⟨data, .clean⟩) s = .next t ∧ t = { u with memStacks := t.memStacks, mem := t.mem, out := t.out } ∧
            StoresAt a data u t) ∧
        (∀ ecc, s.job.state ≠ .none → s.job.state ≠ .failed → inHostRing p a n s = false →
          exec (.bar2Write p off ⟨data, ecc⟩) s =
            .next (logEv 0x0010 (unitWord 5 (hportNo p) 0) a (unitWord 5 (hportNo p) 0) 7 0 s)))) ∧
    (∀ f : Fin 2, s.far[f].linkUp = true →
      ∃ t, exec (.farTierLinkDown f) s = .next t ∧ t.far[f].linkUp = false ∧ t.far[f].st = 0 ∧ (∀ g, g ≠ f → t.far[g] = s.far[g]) ∧
        (∀ im, s.job.image = some im → s.job.state = .running → im.mapping.farports.testBit f.val = true → t.job.state = .failed) ∧
        (s.job.state ≠ .running → t.job = s.job))

/-! ### Die links -/

/-- FLIT, NAK, BUNDLE_THRESHOLD and BUNDLE_WIRE_TEST (R195, R197, R206 to R208): a flit whose CRC matches is delivered and acknowledged when its number
is the next, unless it had been delivered on another bundle before, and discarded otherwise; one whose CRC does not match is discarded,
counted and answered by a NAK, and its fourth failure marks the bundle out; either stays in the replay buffer; a NAK resends the buffer from
its number on, in order, on the wires that the failed ones leave (R199); a bundle above 32 mismatches in 1 ms is to be tested; a test extends
the failed wires that the spares carry, or marks the bundle out. -/
def Obligations.BundleTraffic : Prop :=
  ∀ (l : Fin 41) (rev : Bool) (b : Fin 128) (s : State),
    let x := bundleOf s.links[l] rev b.val
    (∀ seq data crc sent, carries l rev b.val s = true →
      (crc8 (slice data 0 64) = crc.toNat →
        ∃ t, exec (.flit l rev b seq ⟨data, crc⟩ sent) s = .next t ∧ t = { s with links := t.links, out := t.out } ∧
          (∀ k, k ≠ l → t.links[k] = s.links[k]) ∧ (∃ e ∈ (bundleOf t.links[l] rev b.val).tx, e.1 = seq.toNat) ∧
          (seq = x.rxSeq →
            t.links[l].rx = s.links[l].rx ++ (if x.seen.contains seq.toNat then [] else [(rev, b.val, slice data 0 64)]) ∧
              (bundleOf t.links[l] rev b.val).rxSeq = x.rxSeq + 1 ∧ (bundleOf t.links[l] rev b.val).fails = 0 ∧
              t.out = s.out ++ [.sb1 l.val (.ack rev b.val seq.toNat)]) ∧
          (seq ≠ x.rxSeq → t.links[l].rx = s.links[l].rx ∧ (bundleOf t.links[l] rev b.val).rxSeq = x.rxSeq ∧ t.out = s.out)) ∧
      (crc8 (slice data 0 64) ≠ crc.toNat → seq = x.rxSeq → x.fails < 3 →
        ∃ t, exec (.flit l rev b seq ⟨data, crc⟩ sent) s = .next t ∧ t = { s with links := t.links, out := t.out } ∧
          t.links[l].rx = s.links[l].rx ∧ (seq = x.txSeq → (seq.toNat, slice sent 0 64) ∈ (bundleOf t.links[l] rev b.val).tx) ∧ (bundleOf t.links[l] rev b.val).fails = x.fails + 1 ∧
          (bundleOf t.links[l] rev b.val).rxSeq = x.rxSeq ∧ t.out = s.out ++ [.sb1 l.val (.nak rev b.val seq.toNat)]) ∧
      (crc8 (slice data 0 64) ≠ crc.toNat → seq = x.rxSeq → 3 ≤ x.fails →
        ∃ t, exec (.flit l rev b seq ⟨data, crc⟩ sent) s = .next t ∧ (maskOfDir t.links[l] rev).getLsbD b.val = false)) ∧
    (∀ seq data crc sent, carries l rev b.val s = true → crc8 (slice data 0 64) ≠ crc.toNat → seq ≠ x.rxSeq ∨ x.fails < 3 →
      ∃ t, exec (.flit l rev b seq ⟨data, crc⟩ sent) s = .next t ∧
        (bundleOf t.links[l] rev b.val).errTimes = s.now :: x.errTimes.filter (fun k => decide (s.now < k + 1000000)) ∧
        (∀ rev' c, (rev', c) ≠ (rev, b.val) → bundleOf t.links[l] rev' c = bundleOf s.links[l] rev' c) ∧
        (∀ k, k ≠ l → t.links[k] = s.links[k])) ∧
    ((x.errTimes.filter fun k => decide (s.now < k + 1000000)).length ≤ 32 → exec (.bundleThreshold l rev b) s = .next s) ∧
    (∀ seq : BitVec 6, carries l rev b.val s = true →
      let again := (x.tx.dropWhile fun e => e.1 != seq.toNat).map fun e => Out.flitOut l.val rev b.val e.1 e.2 (wiresOf x.failed e.2)
      exec (.nak l rev b seq) s = .next { s with out := s.out ++ again }) ∧
    (carries l rev b.val s = true → 32 < (x.errTimes.filter fun k => decide (s.now < k + 1000000)).length →
      ∃ t, exec (.bundleThreshold l rev b) s = .next t ∧ t = { s with links := t.links } ∧
        (bundleOf t.links[l] rev b.val).overs = true ∧ t.links[l].masks = s.links[l].masks) ∧
    (∀ found, x.testing = true → s.links[l].up = true →
      ∃ t, exec (.bundleWireTest l rev b found) s = .next t ∧ (bundleOf t.links[l] rev b.val).testing = false ∧
        (sparesDo ((x.failed ++ found).eraseDups) = true →
          (bundleOf t.links[l] rev b.val).failed = (x.failed ++ found).eraseDups ∧ t.links[l].masks = s.links[l].masks) ∧
        (sparesDo ((x.failed ++ found).eraseDups) = false → (maskOfDir t.links[l] rev).getLsbD b.val = false))

/-- LINK_TRAINING, LINK_DROP, DROP_ACK, DROP_ACK_TIMEOUT and FORWARDED_CLOCK_LOSS (R200 to R204): PRESENT goes out; a link comes up where both directions
agree on a bundle, each on the AND of the two ends' proposals, and sends LINK_UP; a link that is dropped is down with nothing in flight,
LINK_DROP is answered by DROP_ACK, and the package fails where the running image uses the link. -/
def Obligations.LinksTrainAndDrop : Prop :=
  ∀ (l : Fin 41) (s : State),
    (∀ o : TrainObs, endsReady l s = true → s.links[l].up = false →
      ∃ t, exec (.linkTraining l o) s = .next t ∧ (∀ k, k ≠ l → t.links[k] = s.links[k]) ∧ .sb1 l.val .present ∈ t.out ∧
        (t.links[l].up = true → .sb1 l.val .linkUp ∈ t.out) ∧
        (o.present = false → t.links = s.links ∧ t.flash = s.flash) ∧
        (o.present = true →
          (∀ b, t.links[l].masks.1.getLsbD b = true → o.tx.1.getLsbD b = true ∧ o.rx.1.getLsbD b = true) ∧
          (∀ b, t.links[l].masks.2.getLsbD b = true → o.tx.2.getLsbD b = true ∧ o.rx.2.getLsbD b = true) ∧
          t.links[l].masks = (agreedMask l false o s, agreedMask l true o s) ∧
          t.links[l].up = (t.links[l].masks.1 != 0 && t.links[l].masks.2 != 0))) ∧
    (s.links[l].up = true →
      let down := fun (t : State) => t.links[l] = DieLink.reset ∧ (∀ k, k ≠ l → t.links[k] = s.links[k]) ∧ s.seq < t.seq ∧
        (∀ im, s.job.image = some im → s.job.state = .running → im.mapping.dielinks.testBit l.val = true →
          ¬ (l = 40 ∧ s.levee.quarantine = true) → t.job.state = .failed)
      (∃ t, exec (.linkDrop l) s = .next t ∧ down t ∧ .sb1 l.val .dropAck ∈ t.out) ∧
      (s.links[l].dropAt ≠ none → ∃ t, exec (.dropAck l) s = .next t ∧ down t) ∧
      (∀ k, s.links[l].dropAt = some k → k + 1000 ≤ s.now → ∃ t, exec (.dropAckTimeout l) s = .next t ∧ down t) ∧
      (∀ held, 100 ≤ held → ∃ t, exec (.forwardedClockLoss l held) s = .next t ∧ down t))

/-! ### The levee -/

/-- GUEST_REQUEST (R211 to R216, Tables 8.8, 8.9): a request that matches its window and finds tokens and response space is served and spends its
bytes: a line read with the line, a line write changing its bytes alone, a GATHER with its sectors, a SCATTER writing its sectors, each after
the parked writes to its lines (R174); an enqueue advances PI and a dequeue CI of its queue, which interrupts
a host at the other end (log entry 27); without tokens or space a request waits at the
guest side; one that no window permits changes no byte, is counted, and is answered with an error or, malformed, not at all. -/
def Obligations.GuestRequests : Prop :=
  ∀ (r : GuestReq) (s : State), guestUp s = true → CachesOk s →
    let s1 := { s with levee := { s.levee with resps := s.levee.resps.filter fun x => decide (s.now ≤ x.since + 100000) } }
    (∀ i, leveeCheck r s = .ok i →
      bucketNow i s = min (4096 * 1000) (s.levee.buckets[i].level + s.levee.windows[i].rate * (s.now - s.levee.buckets[i].asOf)) ∧
      (canAdmit i r s1 = true → 1000 * guestBytes r s ≤ bucketNow i s) ∧
      (canAdmit i r s1 = true → (∀ h ∈ s.levee.held, h.1 ≠ i.val) →
        let spent : State → Prop := fun t =>
          t.levee.buckets[i] = { level := bucketNow i s - 1000 * guestBytes r s, asOf := s.now } ∧ t.levee.windows = s.levee.windows ∧
            t.levee.viols = s.levee.viols
        (∃ t, exec (.guestRequest r) s = .next t ∧ spent t) ∧
        (∀ k, r.op = .lineRead → r.ecc = .clean → rangeOf r.addr = .stack k → accessCause .guest r.addr 128 s = none →
          let u := settleRange r.addr 128 s
          ∃ t, exec (.guestRequest r) s = .next t ∧ SameMemory u t ∧ t.coreStore = s.coreStore ∧
            t.out = u.out ++ [.guestResp r.id (some (physRead u r.addr 128))]) ∧
        (∀ k, r.op = .lineWrite → r.ecc = .clean → rangeOf r.addr = .stack k → accessCause .guest r.addr r.data.length s = none →
          let u := settleRange r.addr r.data.length s
          ∃ t, exec (.guestRequest r) s = .next t ∧ StoresAt r.addr r.data u t ∧ t.coreStore = s.coreStore ∧
            (Unwatched k r.addr r.data.length u → t.out = u.out ++ [.guestResp r.id (some [])])) ∧
        (∀ k, r.ecc = .clean → rangeOf (r.addrs.headD 0) = .stack k → accessCause .guest (r.addrs.headD 0) 32 s = none →
          let u := settleSectors r.addrs s
          (parkedWrites k s = [] → u = s) ∧
          (r.op = .gather →
            ∃ t, exec (.guestRequest r) s = .next t ∧ SameMemory u t ∧ t.coreStore = s.coreStore ∧
              t.out = u.out ++ [.guestResp r.id (some (slice (r.addrs.flatMap fun a => physRead u a 32) 0 128))]) ∧
          (r.op = .scatter →
            ∃ t, exec (.guestRequest r) s = .next t ∧ t.coreStore = s.coreStore ∧
              ∀ x, physGet t x = r.addrs.zipIdx.foldl
                (fun b p => if p.1 ≤ x ∧ x < p.1 + 32 then (slice (r.data.drop (32 * p.2)) 0 32).getD (x - p.1) 0 else b) (physGet u x))) ∧
        (∀ q, queueOf r.queue s = some q →
          (r.op = .enqueue → queueFill q < q.depth → ringCause q q.pi q.esize s = none →
            ∃ t, exec (.guestRequest r) s = .next t ∧
              queueOf r.queue t = some { q with pi := (q.pi + 1) % (2 * q.depth), credits := q.credits - 1 } ∧
              .guestResp r.id (some []) ∈ t.out ∧ (q.role = 3 → (hostOf q.port t).irqst.getLsbD 2 = true)) ∧
          (r.op = .dequeue → 0 < queueFill q → ringCause q q.ci q.esize s = none →
            ∃ t, exec (.guestRequest r) s = .next t ∧
              queueOf r.queue t = some { q with ci := (q.ci + 1) % (2 * q.depth),
                                                credits := q.credits + (if q.remote = 0xFFFF ∧ q.role = 1 then 1 else 0) } ∧
              (q.role = 2 → (hostOf q.port t).irqst.getLsbD 2 = true)))) ∧
      (canAdmit i r s1 = false ∨ (∃ h ∈ s.levee.held, h.1 = i.val) →
        exec (.guestRequest r) s = .next { s1 with levee := { s1.levee with held := s.levee.held ++ [(i.val, r)] } })) ∧
    ((∀ i, leveeCheck r s ≠ .ok i) →
      ∃ t, exec (.guestRequest r) s = .next t ∧ SameMemory s t ∧ t.coreStore = s.coreStore ∧ t.queues = s.queues ∧
        (∀ k, leveeCheck r s = .error k →
          t.levee.viols[k].count = min (s.levee.viols[k].count + 1) (2 ^ 64 - 1) ∧ .guestResp r.id none ∈ t.out) ∧
        (leveeCheck r s = .drop → t.levee.viols[8].count = min (s.levee.viols[8].count + 1) (2 ^ 64 - 1) ∧
          ((s.levee.times.filter fun k => decide (s.now < k + 1000000000)).length < 64 → t.out = s.out)) ∧
        (64 ≤ (s.levee.times.filter fun k => decide (s.now < k + 1000000000)).length →
          t.levee.quarantine = true ∧ t.levee.guestReset = true ∧ ∀ k : Fin 8, t.levee.windows[k] = Window.closed))

/-- What the levee lets through (R211, R212, Table 8.7): a request on memory passes window i only if that window is open, is no queue window, holds
every byte the request touches, and permits its operation; a request on a queue only an open queue window that holds the queue.
GUEST_BUCKET_ADMIT, GUEST_RESPONSE_TIMEOUT and LEVEE_VIOLATION_LOG (R214 to R216): the first held request of a window is served once it has its
tokens and space; a response that the guest has not taken for 100 µs is dropped with event 0x0042; a violation counter that advanced is logged at
most once in 10 ms.
Which responses still wait for the guest is the reading of log entry 28, and the address in event 0x0040 that of log entry 47. -/
def Obligations.LeveeWindowsAndTimers : Prop :=
  (∀ (r : GuestReq) (i : Fin 8) (s : State), leveeCheck r s = .ok i →
    let w := s.levee.windows[i]
    w.isOpen = true ∧
      (r.op = .enqueue ∨ r.op = .dequeue → w.queue = true ∧ w.qfirst ≤ r.queue ∧ r.queue < w.qfirst + w.qcount) ∧
      (¬ (r.op = .enqueue ∨ r.op = .dequeue) →
        w.queue = false ∧ (∀ p ∈ guestParts r, w.base ≤ p.1 ∧ p.1 + p.2 ≤ w.base + w.size) ∧
          (r.op = .lineRead ∨ r.op = .gather → w.read = true) ∧ (r.op = .lineWrite ∨ r.op = .scatter → w.write = true) ∧
          (r.op = .gather ∨ r.op = .scatter → w.narrow = true) ∧ r.op ≠ .other ∧ r.op ≠ .malformed)) ∧
  (∀ (s : State),
    (∀ (w : Fin 8) (r : GuestReq) (i : Fin 32), guestUp s = true → CachesOk s →
      s.levee.held.find? (fun h => h.1 == w.val) = some (w.val, r) → leveeCheck r s = .ok w →
      canAdmit w r { s with levee := { s.levee with resps := s.levee.resps.filter fun x => decide (s.now ≤ x.since + 100000) } } = true →
      r.op = .lineRead → r.ecc = .clean → rangeOf r.addr = .stack i → accessCause .guest r.addr 128 s = none →
        let u := settleRange r.addr 128 s
        ∃ t, exec (.guestBucketAdmit w) s = .next t ∧ t.levee.held = s.levee.held.eraseP (fun x => x.1 == w.val) ∧ SameMemory u t ∧
          t.levee.buckets[w] = { level := bucketNow w s - 128000, asOf := s.now } ∧
          t.out = u.out ++ [.guestResp r.id (some (physRead u r.addr 128))]) ∧
    (∀ id x, s.levee.resps.find? (fun x => x.id == id) = some x → x.since + 100000 ≤ s.now →
      exec (.guestResponseTimeout id) s =
        .next (logEv 0x0042 (unitWord 6 0 0) x.addr x.data.length 0 0
          { s with levee := { s.levee with resps := s.levee.resps.eraseP (fun y => y.id == id), dropped := s.levee.dropped + 1 } })) ∧
    (∀ k : Fin 9, s.levee.viols[k].logged < s.levee.viols[k].count → (∀ j, s.levee.viols[k].lastLog = some j → j + 10000000 ≤ s.now) →
      exec (.leveeViolationLog k) s =
        .next (logEv 0x0040 (unitWord 6 0 0) k.val s.levee.viols[k].count s.levee.viols[k].first 0
          (modViol k (fun v => { v with logged := s.levee.viols[k].count, lastLog := some s.now }) s))))

/-! ### The fabric -/

/-- FABRIC_FRAME and FRAME_NAK (R221, R222, R234): a good frame that is the next advances the expected number and gives its piece, whose credits an idle
frame returns; a message that it completes is dropped with event 0x0033 and its cause, or waits in the port's inbox where it is for this
package; a good frame out of turn changes nothing; a bad frame is answered by a NAK of the frame expected, and the eighth failure of one takes
the port down; while frames are discarded only the failure of the expected one counts; a NAK sends the frames from its number on again, and
counts a failed send of that one. That an idle frame returns the credits at once is log entry 70. -/
def Obligations.FabricFrames : Prop :=
  ∀ (p : FPort) (f : Frame) (s : State), (fabOf p s).up = true →
    let pl := slice f.payload 0 496
    let d := field pl 0 1
    let bs := slice pl 4 (field pl 2 2)
    (frameOk p f s = true → f.seq ≠ (fabOf p s).rxSeq → exec (.fabricFrame p f) s = .next s) ∧
    (frameOk p f s = true → f.seq = (fabOf p s).rxSeq → f.nak = false → d.testBit 6 = true →
      exec (.fabricFrame p f) s =
        .next (takeCredits p f.ret (modFab p (fun k => { k with rxSeq := k.rxSeq + 1, fails := 0, naked := false }) s))) ∧
    (frameOk p f s = true → f.seq = (fabOf p s).rxSeq → f.nak = false → d.testBit 6 = false → d.testBit 4 = true → d.testBit 5 = true →
      ∃ t, exec (.fabricFrame p f) s = .next t ∧ (fabOf p t).rxSeq = (fabOf p s).rxSeq + 1 ∧
        (dropCause (d % 8) (d.testBit 3) bs s ≠ none ∨ forMe (parseMsg bs) s = true →
          ∃ q crc, .frame p q idlePayload (d % 8, d.testBit 3, (field pl 2 2 + 63) / 64) crc ∈ t.out) ∧
        (∀ c, dropCause (d % 8) (d.testBit 3) bs s = some c →
          (fabOf p t).drops = (fabOf p s).drops + 1 ∧ (fabOf p t).inbox = (fabOf p s).inbox ∧
            ∃ l ∈ t.log, l.seq = s.seq + 1 ∧ l.code = 0x0033 ∧ l.d0 = field bs 0 1 ∧ l.d3 = c) ∧
        (dropCause (d % 8) (d.testBit 3) bs s = none → forMe (parseMsg bs) s = true →
          (fabOf p t).inbox = (fabOf p s).inbox ++ [{ parseMsg bs with at_ := tideNow s }] ∧ t = { s with fabric := t.fabric, out := t.out })) ∧
    (frameOk p f s = false → (fabOf p s).naked = true → f.seq ≠ (fabOf p s).rxSeq → exec (.fabricFrame p f) s = .next s) ∧
    (frameOk p f s = false → (fabOf p s).naked = false ∨ f.seq = (fabOf p s).rxSeq →
      ∃ t, exec (.fabricFrame p f) s = .next t ∧
        ((fabOf p s).fails < 7 → t.out = s.out ++ [.frameNak p (fabOf p s).rxSeq.toNat] ∧ (fabOf p t).naked = true ∧ (fabOf p t).fails = (fabOf p s).fails + 1 ∧
          (fabOf p t).rxSeq = (fabOf p s).rxSeq ∧ t = { s with fabric := t.fabric, out := t.out }) ∧
        (7 ≤ (fabOf p s).fails → (fabOf p t).up = false)) ∧
    (∀ (q : BitVec 12) e r, ((fabOf p s).tx.dropWhile fun e => e.1 != q.toNat) = e :: r →
      ∃ t, exec (.frameNak p q) s = .next t ∧
        (e.2.2 < 8 → t = { s with fabric := t.fabric, out := t.out } ∧
          (fabOf p t).tx = (fabOf p s).tx.takeWhile (fun x => x.1 != q.toNat) ++
            (e :: r).map (fun x => (x.1, x.2.1, if x.1 = e.1 then x.2.2 + 1 else x.2.2)) ∧
          t.out = s.out ++ (e :: r).map fun e =>
            Out.frame p e.1 e.2.1 noReturn (crc32c (Config.linkHeader e.1 (fabOf p s).rxSeq.toNat noReturn ++ e.2.1))) ∧
        (8 ≤ e.2.2 → (fabOf p t).up = false)) ∧
    (∀ q : BitVec 12, (∀ e ∈ (fabOf p s).tx, e.1 ≠ q.toNat) → exec (.frameNak p q) s = .next s)

/-- LANE_FAILURE, FABRIC_PORT_UP and LINKID (R219, R220, R225): a port whose lanes fail in one half moves to the other half, with a link message to the
far end, at the next step boundary of a running job and at once otherwise, and goes down when both halves have failed; a port that trains
comes up on what works and sends its LINKID; a LINKID from the neighbour is remembered. -/
def Obligations.FabricPorts : Prop :=
  ∀ (p : FPort) (s : State),
    (∀ lane : Fin 16, (fabOf p s).up = true →
      let low := decide (lane.val < 8)
      ∃ t, exec (.laneFailure p lane) s = .next t ∧
        ((if low then (fabOf p s).failHigh else (fabOf p s).failLow) = true → (fabOf p t).up = false) ∧
        ((fabOf p s).failLow = false → (fabOf p s).failHigh = false → (fabOf p s).half = 0 →
          (fabOf p t).up = true ∧ (fabOf p t).failLow = low ∧ (fabOf p t).failHigh = !low ∧
            (s.job.state = .running → (fabOf p t).half = 0 ∧ (fabOf p t).move = true) ∧
            (s.job.state ≠ .running → (fabOf p t).half = (if low then 2 else 1) ∧ (fabOf p t).move = false ∧
              .halfMove p (if low then 2 else 1) ∈ t.out))) ∧
    (∀ low high, serdesOn s = true → (fabOf p s).up = false → low = true ∨ high = true →
      ∃ t, exec (.fabricPortUp p low high) s = .next t ∧ (fabOf p t).up = true ∧
        (fabOf p t).half = (if low && high then 0 else if low then 1 else 2) ∧ (fabOf p t).rxSeq = 0 ∧ (fabOf p t).inbox = (fabOf p s).inbox ∧
        (∃ m, .msg p m ∈ t.out ∧ m.type = 0x0D ∧ m.payload.take 2 = leBytes 2 (physId s)) ∧
        (∀ q, q ≠ p → fabOf q t = fabOf q s)) ∧
    (∀ sub m, frontMsg p 2 0x0D sub s = some m →
      ∃ t, exec (.linkid p sub) s = .next t ∧ t = { s with fabric := t.fabric } ∧
        (fabOf p t).inbox = (fabOf p s).inbox.eraseP (inClass 2 sub) ∧
        (fabOf p t).neigh = some {
          phys := field m.payload 0 2, port := field m.payload 2 1, feed := field m.payload 3 1, stepping := field m.payload 4 1,
          job := (field m.payload 5 1).testBit 0, jobtag := field m.payload 6 2 } ∧
        (∀ q, q ≠ p → fabOf q t = fabOf q s))

/-! ### The tide clock -/

/-- The exchanges and the roots of the tide clock (R248 to R250, R316, R360): requests every 1 ms, a request answered with its T1, the instant it
arrived and that of the answer, a first response
of the best neighbour that loads the count once, the parent's responses that slew it, the loss of synchronism after 2 ms that fails a running
job or makes the package root, and the election after 40 ms with no lower ID heard of.
The ports on which a request goes out are those of log entry 29. -/
def Obligations.TideClock : Prop :=
  ∀ (s : State),
    (syncing s = true → s.tide.lastReq + 1000000 ≤ s.now →
      ∃ t, exec .syncPeriod s = .next t ∧ t.tide = { s.tide with lastReq := s.now } ∧
        t = { s with tide := t.tide, fabric := t.fabric, out := t.out } ∧
        ∀ p ∈ syncPorts s, (fabOf p s).up = true →
          ∃ m, .msg p m ∈ t.out ∧ m.type = 0x0A ∧ m.ref = 0 ∧ m.payload.take 8 = leBytes 8 (tideNow s)) ∧
    (∀ p sub m, frontMsg p 2 0x0A sub s = some m → m.ref = 0 → syncing s = true → (fabOf p s).up = true →
      ∃ t, exec (.syncRequest p sub) s = .next t ∧ (fabOf p t).inbox = (fabOf p s).inbox.eraseP (inClass 2 sub) ∧
        t.tide.count = s.tide.count ∧
        ∃ r, .msg p r ∈ t.out ∧ r.type = 0x0A ∧ r.ref = 1 ∧
          r.payload.take 24 = leBytes 8 (field m.payload 0 8) ++ leBytes 8 m.at_ ++ leBytes 8 (tideNow s)) ∧
    (∀ p sub m, frontMsg p 2 0x0A sub s = some m → m.ref = 1 → syncing s = true → (fabOf p s).up = true →
      (field m.payload 24 1).testBit 0 = true →
      let o := syncOffset m.payload m.at_
      ∃ t, exec (.syncResponse p sub) s = .next t ∧
        (s.tide.tsync = false → s.tide.loaded = false → bestParent (fun _ => true) (hearSync p m (dropFront p 2 sub s)) = some p →
          t.tide.tsync = true ∧ t.tide.loaded = true ∧ t.tide.parent = some p ∧ t.tide.root = field m.payload 26 2 ∧
            t.tide.hops = field m.payload 25 1 + 1 ∧ t.tide.count = BitVec.ofInt 64 (s.tide.count.toInt + o)) ∧
        (s.tide.tsync = true → s.tide.parent = some p → s.tide.root = field m.payload 26 2 →
          t.tide.slew = o ∧ t.tide.lastValid = s.now ∧ t.tide.count = s.tide.count ∧ t.tide.parent = some p ∧ t.tide.tsync = true)) ∧
    (∀ p, s.tide.tsync = true → s.tide.parent = some p → s.tide.lastValid + 2000000 ≤ s.now → (∀ q, syncAt q s = none) →
      ∃ t, exec .tideUnsync s = .next t ∧ t.tide.parent = none ∧
        ((fabOf p s).up = true → t.tide.tsync = false ∧ (s.job.state = .running → t.job.state = .failed)) ∧
        ((fabOf p s).up = false → s.power.pend = none → t.tide.tsync = true ∧ t.tide.hops = 0 ∧ t.tide.root = physId s ∧ t.job = s.job)) ∧
    (syncing s = true → s.tide.tsync = false → s.tide.loaded = false → s.tide.tR + 40000000 ≤ s.now → physId s ≤ s.tide.lowest →
      (∀ q, syncAt q s = none) →
      exec .rootElection s = .next { s with tide := {
        s.tide with tsync := true, parent := none, root := physId s, hops := 0, lowest := physId s, loaded := true, slew := 0, offset := 0,
                    lastValid := s.now } })

/-! ### Collectives -/

/-- CONTRIB (R236, R237, R239, R240): a contribution whose digest matches waits until this package's elements are there; where they are, their
combination goes to the next position with the poison bits of both; a digest that does not match is announced as a breach of the reduction with
Δ = DUR + 2 µs in whole µs, and a second one on the same hop fails its sender: the job stops, or fails where no replica holds the
sender's record (log entry 75). The message acts on `u`: it has left its buffer, and the writes that
reached the reduced buffer before it are applied. -/
def Obligations.Contributions : Prop :=
  ∀ (p : FPort) (sub : Bool) (m : Msg) (r : PlanEntry) (i : Nat) (s : State),
    frontMsg p 3 0x01 sub s = some m → planRec m.ref s = some r → s.job.state = .running → s.exec.voided = false → outdated r m s = false →
    let u := settlePlan r (dropFront p 3 sub s)
    levelIdx (levelsOf r u) m.axis = some i →
    let q := redOf r.redid m.step u
    let vs := elemsOf r.kind m.payload
    let op : Int → Int → Int := fun a b =>
      if r.kind = 0 then satLane a b else if r.kind = 3 then min (a + b) (2 ^ 32 - 1) else if r.kind = 4 then max a b else a + b
    (fabOf p u).inbox = (fabOf p s).inbox.eraseP (inClass 3 sub) ∧
    (digestAt r.kind m.step r.redid m.offset vs u = m.digest → vs ≠ [] → q.held = [] →
      (q.have_ = [] →
        ∃ t, exec (.contrib p sub) s = .next t ∧ t = { u with exec := { u.exec with reds := t.exec.reds } } ∧
          redOf r.redid m.step t = { q with held := [⟨i, m.offset, vs, m.digest, m.pnf, m.psat⟩] }) ∧
      (∀ l own a d, (levelsOf r u)[i]? = some l → segOf (levelsOf r u) i r.elems m.offset ≠ (l.pos + 1) % l.n →
        inputAt q.have_ i (q.have_.length + 1) m.offset vs.length = some own → nextHop (nextPos l u) u = some (a, d) →
        (fabOf (axisPort a d) u).up = true →
        ∃ t x, exec (.contrib p sub) s = .next t ∧ .msg (axisPort a d) x ∈ t.out ∧ x.type = 0x01 ∧ x.dst = nextPos l u ∧ x.step = m.step ∧
          x.ref = r.redid ∧ x.offset = m.offset ∧ x.payload = elemBytes r.kind (vs.zipWith op own.1) ∧ x.pnf = (m.pnf || own.2.1) ∧
          ((m.psat || own.2.2) = true → x.psat = true) ∧
          (redOf r.redid m.step t).held = [] ∧ t.mem = u.mem ∧ t.job = u.job ∧ t.coreStore = u.coreStore)) ∧
    (digestAt r.kind m.step r.redid m.offset vs u ≠ m.digest →
      ∃ t, exec (.contrib p sub) s = .next t ∧
        (q.bad.find? (fun x => x.1 == i) = none → ∃ n, t.exec.notices = u.exec.notices ++ [n] ∧ n.breach = true ∧ n.step = m.step ∧
          n.src = logId u ∧ n.da = r.deadline ∧ n.amount = (r.dur + 2000 + 999) / 1000 * 1000 ∧ n.code = 4 ∧ n.task = 0) ∧
        (∀ k, q.bad.find? (fun x => x.1 == i) = some (i, k) → 1 ≤ k →
          t.job.state = (if m.src = logId u ∨ noReplica u then .failed else .stopped) ∧ t.job.failStopped = true))

/-- RESULT (R236, R239, R243): a result whose digest matches lands in the reduced buffer with its poison bits, and the reduction ends with its last
element where it sets no scale; one that does not match is announced as a breach. EXCH keeps its record (R54). A RESULT acts on `u`, as a CONTRIB
does, and its bytes reach the stack that the reduced buffer lies in. -/
def Obligations.ResultsAndExchanges : Prop :=
  ∀ (p : FPort) (sub : Bool) (m : Msg) (s : State), s.job.state = .running → s.exec.voided = false →
    (∀ r i, frontMsg p 3 0x02 sub s = some m → planRec m.ref s = some r → outdated r m s = false → r.kind ≠ 5 →
      let u := settlePlan r (dropFront p 3 sub s)
      levelIdx (levelsOf r u) m.axis = some i →
      let q := redOf r.redid m.step u
      let vs := elemsOf r.kind m.payload
      (fabOf p u).inbox = (fabOf p s).inbox.eraseP (inClass 3 sub) ∧
      (digestAt r.kind m.step r.redid m.offset vs u = m.digest →
        ptrCause .hub r.dst (elemSize r.kind * m.offset) (elemBytes r.kind vs).length u = none →
        ∃ t, exec (.result p sub) s = .next t ∧
          (redOf r.redid m.step t).landed = q.landed ++ [(m.offset, vs.length)] ∧
          (redOf r.redid m.step t).pnf = (q.pnf || m.pnf) ∧ (redOf r.redid m.step t).psat = (q.psat || m.psat) ∧
          (∀ a, ptr r.dst = .phys a → CachesOk u → StoresAt (a + elemSize r.kind * m.offset) (elemBytes r.kind vs) u t) ∧
          (q.endT = none → r.kind ≠ 0 ∨ r.cslot = 0 → r.elems ≤ (q.landed.map (·.2)).sum + vs.length →
            (redOf r.redid m.step t).endT = some (tideNow u)) ∧
          t.job = u.job ∧ t.coreStore = u.coreStore) ∧
      (digestAt r.kind m.step r.redid m.offset vs u ≠ m.digest → q.bad.find? (fun x => x.1 == i) = none →
        ∃ t n, exec (.result p sub) s = .next t ∧ t.exec.notices = u.exec.notices ++ [n] ∧ n.breach = true ∧ n.step = m.step ∧
          n.amount = (r.dur + 2000 + 999) / 1000 * 1000)) ∧
    (∀ im, frontMsg p 3 0x03 sub s = some m → s.job.image = some im → (∀ k, runningRun k s = none) →
      let mine : ExchRec := { pset := m.ref, step := m.step, src := m.src, offset := m.offset, payload := m.payload }
      let old := fun (x : ExchRec) => x.pset == m.ref && x.step == m.step && x.src == m.src && x.offset == m.offset
      ∃ t, exec (.exch p sub) s = .next t ∧ (fabOf p t).inbox = (fabOf p s).inbox.eraseP (inClass 3 sub) ∧
        t = { s with fabric := t.fabric, exec := { s.exec with exch := mine :: s.exec.exch.filter fun x => !old x } })

/-- SCALE (R241) and VERDICT (R133, R134): a candidate whose digest matches is taken in at its stage; a record whose digest matches is taken in once,
and with the last one the step is decided: a spike where 256 × S exceeds F times the 32nd smallest of 64 kept sums. -/
def Obligations.ScalesAndVerdicts : Prop :=
  ∀ (p : FPort) (sub : Bool) (m : Msg) (s : State), s.job.state = .running → s.exec.voided = false →
    (∀ r, frontMsg p 3 0x04 sub s = some m → (plan s).find? (fun r => r.kind == 0 && r.cslot != 0 && r.cslot == m.ref) = some r →
      scaleDigest r m.step (toSigned 16 (field m.payload 0 2)) s = m.digest →
      let q := redOf r.redid m.step s
      let v := toSigned 16 (field m.payload 0 2)
      ∃ t, exec (.scale p sub) s = .next t ∧ t.mem = s.mem ∧ t.job = s.job ∧
        ((peerPackages r s).contains m.src = true → m.offset = m.src →
          (redOf r.redid m.step t).scales = q.scales ++ [((levelsOf r s).length, m.src, v)]) ∧
        (∀ i, (peerPackages r s).contains m.src = false → levelIdx (levelsOf r s) m.axis = some i →
          (redOf r.redid m.step t).scales = q.scales ++ [(i, m.offset, v)])) ∧
    (∀ im, frontMsg p 3 0x05 sub s = some m → s.job.image = some im →
      let loss := toSigned 64 (field m.payload 0 8)
      let nl := field m.payload 8 8
      let nf := field m.payload 16 8
      let v := verdictAt m.step s
      (digest (seedOf s) m.step 0 0 [loss, (nl : Int), (nf : Int)] = m.digest →
        ∃ t, exec (.verdict p sub) s = .next t ∧ t.mem = s.mem ∧ t.job = s.job ∧
          (v.done = true ∨ (∃ r ∈ v.recs, r.1 = m.src) → t.exec = s.exec) ∧
          (v.done = false → (∀ r ∈ v.recs, r.1 ≠ m.src) →
            let w := verdictAt m.step t
            let sum := ((v.recs ++ [(m.src, loss, nl, nf)]).map fun r => r.2.1).sum
            w.recs = v.recs ++ [(m.src, loss, nl, nf)] ∧ w.done = decide (v.recs.length + 1 = jobSize s) ∧
              (v.recs.length + 1 = jobSize s →
                (w.spike = true ↔ 64 ≤ s.exec.history.length ∧ im.spikef ≠ 0 ∧ im.spikef * median64 s.exec.history < 256 * sum) ∧
                (w.skip = true ↔ (∃ r ∈ w.recs, r.2.2.1 ≠ 0 ∨ r.2.2.2 ≠ 0) ∨ (w.spike = true ∧ im.spkact = 1))))) ∧
      (digest (seedOf s) m.step 0 0 [loss, (nl : Int), (nf : Int)] ≠ m.digest →
        ∃ t n, exec (.verdict p sub) s = .next t ∧ t.exec.notices = s.exec.notices ++ [n] ∧ n.breach = true ∧ n.step = m.step ∧
          n.src = logId s ∧ n.task = 0 ∧ t.exec.verdicts = s.exec.verdicts))

/-- QDATA and QCREDIT (R156): bytes of an entry go into the consumer's ring, and with its last byte PI advances; a credit message gives back its
credits, at most what the queue holds, and CI follows. Bytes reach the ring after the writes that arrived before them (`u`); where the ring cannot be
reached they are lost, and the access is logged (R16). -/
def Obligations.QueueMessages : Prop :=
  ∀ (p : FPort) (sub : Bool) (m : Msg) (q : HwQueue) (s : State), queueOf m.ref s = some q → q.role = 1 → q.remote = m.src →
    (frontMsg p 4 0x06 sub s = some m → m.offset < q.esize → queueFill q < q.depth →
      let bs := m.payload.take (q.esize - m.offset)
      let u := settlePtr q.ring (q.pi % q.depth * q.esize) q.esize (dropFront p 4 sub s)
      (∀ a k, ringCause q q.pi q.esize s = some (a, k) → exec (.qdata p sub) s = .next (logAccess a .hub k (dropFront p 4 sub s))) ∧
      (ringCause q q.pi q.esize s = none →
        ∃ t, exec (.qdata p sub) s = .next t ∧ (fabOf p t).inbox = (fabOf p s).inbox.eraseP (inClass 4 sub) ∧
          (m.offset + bs.length < q.esize → t.queues = s.queues) ∧
          (q.esize ≤ m.offset + bs.length → queueOf m.ref t = some { q with pi := (q.pi + 1) % (2 * q.depth) } ∧
            ∀ k, k ≠ m.ref → queueOf k t = queueOf k s) ∧
          (∀ a, ptr q.ring = .phys a → CachesOk u →
            StoresAt (a + (q.pi % q.depth * q.esize + m.offset)) bs u t ∧ t.coreStore = u.coreStore))) ∧
    (frontMsg p 2 0x07 sub s = some m → q.ci < 2 * q.depth →
      let n := min (field m.payload 0 4) (queueFill q)
      ∃ t, exec (.qcredit p sub) s = .next t ∧ t = { s with fabric := t.fabric, queues := t.queues } ∧
        (fabOf p t).inbox = (fabOf p s).inbox.eraseP (inClass 2 sub) ∧
        queueOf m.ref t = some { q with credits := q.credits + n, ci := (q.ci + n) % (2 * q.depth) } ∧
        ∀ k, k ≠ m.ref → queueOf k t = queueOf k s)

/-- BREACH and LATE (R154, R244, R245): a notice that was seen before changes nothing; a new one counts for its step, raises the notice interrupt on both
ports, and extends the deadlines from its D_a on: a breach adds its Δ, a late notice counts with the largest cumulative slip. -/
def Obligations.Notices : Prop :=
  ∀ (p : FPort) (sub : Bool) (m : Msg) (s : State),
    let b := m.payload
    let n : Bool → Notice := fun br =>
      { breach := br, step := m.step, src := m.src, nseq := field b 28 2, da := field b 0 8, amount := field b 8 8, code := field b 16 1,
        task := field b 20 4 }
    let rung := fun (t : State) => t.hostA.irqst.getLsbD 3 = true ∧ t.hostB.irqst.getLsbD 3 = true
    (seenNotice m s = true →
      (frontMsg p 2 0x08 sub s = some m → exec (.breach p sub) s = .next (dropFront p 2 sub s)) ∧
      (frontMsg p 2 0x09 sub s = some m → exec (.late p sub) s = .next (dropFront p 2 sub s))) ∧
    (seenNotice m s = false →
      (frontMsg p 2 0x08 sub s = some m →
        ∃ t, exec (.breach p sub) s = .next t ∧ t.exec.notices = s.exec.notices ++ [n true] ∧ rung t ∧
          (∀ d, slipFor m.step d t = slipFor m.step d s + if field b 0 8 ≤ d then field b 8 8 else 0) ∧
          slipSum m.step t = slipSum m.step s + field b 8 8) ∧
      (frontMsg p 2 0x09 sub s = some m → field b 16 1 ≠ 2 →
        ∃ t, exec (.late p sub) s = .next t ∧ t.exec.notices = s.exec.notices ++ [n false] ∧ rung t ∧
          (∀ d, lateSlip m.step d t = if field b 0 8 ≤ d then max (lateSlip m.step d s) (field b 8 8) else lateSlip m.step d s) ∧
          t.exec.runs = s.exec.runs ∧ t.mem = s.mem) ∧
      (frontMsg p 2 0x09 sub s = some m → field b 16 1 = 2 → s.job.state = .running →
        ∃ t, exec (.late p sub) s = .next t ∧ rung t ∧ t.job.abandoned = decide (field b 8 8 = 0) ∧
          t.exec.voided = decide (field b 8 8 = 0)))

/-- WRITE and WRACK (R361, R364): a peer command goes into queue 6 and a completion into queue 7, bytes of a checkpoint slot go to its addresses alone, and
each WRITE that is no broadcast is answered; a WRACK is taken from its sub-channel. -/
def Obligations.PeerWrites : Prop :=
  ∀ (p : FPort) (sub : Bool) (m : Msg) (s : State),
    (frontMsg p 2 0x0C sub s = some m → exec (.wrack p sub) s = .next (dropFront p 2 sub s)) ∧
    (frontMsg p 4 0x0B sub s = some m → m.bcast = false →
      let e : PeerEntry := { port := p, src := m.src, phys := m.srcPhys, bcast := false, bytes := slice m.payload 0 128 }
      ∃ t, exec (.write p sub) s = .next t ∧ (fabOf p t).inbox = (fabOf p s).inbox.eraseP (inClass 4 sub) ∧
        (∀ q, m.srcPhys = true → portTo m.src s = some q →
          ∃ x, .msg q x ∈ t.out ∧ x.type = 0x0C ∧ x.dst = m.src ∧ x.ref = m.ref ∧ x.offset = m.offset) ∧
        (m.ref = 0 → m.offset = 0 → peerKnown (entOp e.bytes) = true → peerReserved e.bytes = false →
          t = { s with fabric := t.fabric, out := t.out, peer := { s.peer with waiting := s.peer.waiting ++ [e] } }) ∧
        (m.ref = 0 → m.offset ≠ 0 →
          t = { s with fabric := t.fabric, out := t.out,
                       peer := { s.peer with completions := s.peer.completions ++ [{ e with bytes := m.payload }] } }) ∧
        (∀ k : Fin 2, m.ref / 2 ^ 24 = k.val + 1 → restoring s = false → s.twin.rx = none →
          let o := m.ref % 512 * 2 ^ 32 + m.offset
          accessCause .hub (slotAddr k.val o) 1 s = none → s.mem.wf = true → m.offset + m.payload.length ≤ 2 ^ 32 →
          t = { s with fabric := t.fabric, out := t.out, mem := t.mem } ∧
          (∀ j, j < m.payload.length → memGet t.mem (slotAddr k.val (o + j)) = m.payload.getD j 0) ∧
          (∀ x, (∀ j, j < m.payload.length → x ≠ slotAddr k.val (o + j)) → memGet t.mem x = memGet s.mem x)))

/-! ### The job's steps and tasks -/

/-- STEP_BOUNDARY (R151, R152, R207, R212, R269): a start whose time has come runs the job from its first step; at the next origin the next step becomes
current and its origin is the one that the slips gave; a stop ends the run with RESULT its last step, once it and every step before it have
committed. No failed core waits for its takeover, which could fail the package (R160). A boundary of a running job applies the levee
window changes and takes the bundles over their threshold off for tests. -/
def Obligations.StepBoundaries : Prop :=
  ∀ (s : State), s.inspect.wait = [] →
    let bound := fun (t : State) =>
      t.levee.changes = [] ∧ (∀ l : Fin 41, ∀ x ∈ t.links[l].bundles, x.overs = false) ∧ ∀ u : Fin 36, t.plls[u].losses = 0
    (∀ t0, s.job.startAt = some t0 → t0 ≤ tideNow s → s.job.state ≠ .running →
      ∃ t, exec .stepBoundary s = .next t ∧ t.job.state = .running ∧ t.job.cstep = s.job.nextFirst ∧ t.job.ts = s.job.nextFirst ∧
        t.job.t0 = t0 ∧ t.job.startAt = none ∧ origin t = t0 ∧ t.mem = s.mem ∧ bound t ∧
        ∀ a ∈ s.warden.accepted, entOp a.entry = 0x0102 → a.started = true → a.done = none →
          ∃ b ∈ t.warden.accepted, b.entry = a.entry ∧ b.done = some { status := 0, result := 0, fault := 0, at_ := s.now }) ∧
    (∀ im, s.job.startAt = none → s.job.image = some im → s.job.state = .running → s.twin.inProg = none →
      (s.job.stopping = false → s.exec.voided = false → s.job.abandoned = false → nextOrigin s ≤ tideNow s →
        s.twin.sched.contains s.job.cstep = false → s.job.ts ≤ s.job.cstep →
        ∃ t, exec .stepBoundary s = .next t ∧ t.job.state = .running ∧ t.job.cstep = s.job.cstep + 1 ∧ origin t = nextOrigin s ∧
          t.mem = s.mem ∧ bound t) ∧
      (s.job.stopping = true → nextOrigin s ≤ tideNow s → (∀ k ∈ openSteps s, stepCommitted k s = true) →
        ∃ t, exec .stepBoundary s = .next t ∧ t.job.state = .stopped ∧ t.job.nextFirst = s.job.cstep + 1 ∧ t.mem = s.mem ∧
          ∀ a ∈ s.warden.accepted, entOp a.entry = 0x0103 → a.done = none →
            ∃ b ∈ t.warden.accepted, b.entry = a.entry ∧
              b.done = some { status := 0, result := s.job.cstep, fault := 0, at_ := s.now }))

/-- TASK_START and TASK_END (R138 to R140, R150): a task that is due with its tokens and credits runs, firm where all it waited on is committed; without
a token or a credit it waits. TASK_END acts on `v`: the writes that reached the task's lines before it are applied (`u`) and its lines are read (R174). A
task whose accesses succeed and whose work is done ends now, once no acknowledgement of its writes is held back (R175); a task of the update engines
commits at its end, and a MOVE has copied its bytes. -/
def Obligations.TaskStartAndEnd : Prop :=
  ∀ (task : Nat) (im : JobImage) (k : TaskRec) (s : State), s.job.image = some im → taskRec task s = some k →
    (∀ step, startStep k s = some step → startDue im k step s = true →
      (waitsOk im k step s = true → queuesOk task s = true →
        ∃ t r, exec (.taskStart task) s = .next t ∧ runOf task step t = some r ∧ r.startT = tideNow s ∧ r.endT = none ∧
          r.st = (if isFirm k step s then .firm else .speculative) ∧ r.gauges = [] ∧ t.job = s.job) ∧
      (waitsOk im k step s = false ∨ queuesOk task s = false → ∃ t, exec (.taskStart task) s = .next t ∧ t = { s with cores := t.cores })) ∧
    (∀ r, runningRun task s = some r → s.exec.voided = false → r.wrote = false →
      let u := settleTask im k s
      let v := touchReads im k u
      taskCause im k u = none →
      (∀ s' fx, taskWork im k r.step r.undetected v = .done s' fx →
        (acksHeld im k s' = false →
          ∃ t q, exec (.taskEnd task) s = .next t ∧ q ∈ t.exec.runs ∧ q.task = task ∧ q.step = r.step ∧ q.endT = some (tideNow s) ∧
            q.pnf = fx.pnf ∧ q.psat = fx.psat ∧
            (k.stream ≠ 2 → t = { s' with exec := t.exec, cores := t.cores } ∧ q.st = if isFirm k r.step s' then .firm else .speculative) ∧
            (k.stream = 2 → q.st = .committed)) ∧
        (acksHeld im k s' = true →
          ∃ t q, exec (.taskEnd task) s = .next t ∧ t = { s' with exec := t.exec } ∧ q ∈ t.exec.runs ∧ q.task = task ∧ q.step = r.step ∧
            q.wrote = true ∧ q.endT = none)) ∧
      (∀ s', taskWork im k r.step r.undetected v = .wait s' → exec (.taskEnd task) s = .next s') ∧
      (∀ a b, k.dtype = 4 → k.stream ≠ 2 → (decodeMove k.body).prefetch = false → ptr (decodeMove k.body).src = .phys a →
        ptr (decodeMove k.body).dst = .phys b → CachesOk u →
        ∃ t, exec (.taskEnd task) s = .next t ∧ StoresAt b (physRead u a (decodeMove k.body).length) u t ∧ t.coreStore = u.coreStore))

/-- The tile check (R62, Table 3.3): one array fault is always found, as a compute fault. TILE_PRODUCT_END checks every plane pass of the product: where
they all pass the run goes on with the faults that no check saw; the first pass that fails, a compute fault or a side-record fault seen for the first
time in the step, discards the task's run and announces a breach of it with the Δ of R142. -/
def Obligations.TileChecks : Prop :=
  (∀ (isTile : Bool) (a w : List (List Int)) (rw : List Int) (f : ArrayFault),
    let p := a.map fun r => (List.range (w.headD []).length).map fun j => ((List.range 16).map fun i => r.getD i 0 * (w.getD i []).getD j 0).sum
    (∀ r ∈ a, r.length = 16) → w.length = 16 → (∀ r ∈ w, r.length = (w.headD []).length) → f.row < a.length → f.col < (w.headD []).length →
    f.delta ≠ 0 → (tileCheck isTile (w.headD []).length a w (faultyProduct p [f]) rw).1 = .compute) ∧
  (∀ (task slab col chunk : Nat) (fs : List ArrayFault) (im : JobImage) (k : TaskRec) (r : TaskRun) (s : State) (ps : List (Nat × PassData)),
    s.job.image = some im → taskRec task s = some k → checkedRun task s = some r → s.exec.voided = false → k.dtype = 1 →
    (decodeGemm k.body).kind ≠ 3 → 32 * slab < (decodeGemm k.body).rows → 32 * col < (decodeGemm k.body).cols →
    chunk < 16 * (decodeGemm k.body).kbn → productPasses im k slab col chunk s = .ok ps →
    let isTile := (decodeGemm k.body).kind != 2
    let cls := fun (x : Nat × PassData) =>
      (tileCheck isTile (x.2.w.headD []).length x.2.a x.2.w (faultyProduct x.2.p (fs.filter fun f => f.pass.val == x.1)) x.2.rw).1
    (r.endT = none → (∀ x ∈ ps, cls x = .pass) →
      ∃ t, exec (.tileProductEnd task slab col chunk fs) s = .next t ∧ t = { s with exec := { s.exec with runs := t.exec.runs } } ∧
        ∃ q ∈ t.exec.runs, q.task = task ∧ q.step = r.step ∧ q.st = r.st ∧
          q.undetected.length = r.undetected.length + (fs.filter fun f => ps.any fun x => x.1 == f.pass.val).length) ∧
    (∀ before x after, ps = before ++ x :: after → (∀ y ∈ before, cls y = .pass) →
      (cls x = .compute ∧ ∀ x ∈ s.exec.prodFails, x.1 ≠ task ∨ x.2.1 ≠ r.step) ∨
        (cls x = .sideRecord ∧ ∀ x ∈ s.exec.attempts, x.1 ≠ r.step) →
      ∃ t n, exec (.tileProductEnd task slab col chunk fs) s = .next t ∧ t.exec.notices = s.exec.notices ++ [n] ∧ n.breach = true ∧
        n.step = r.step ∧ n.task = task ∧ n.da = k.deadline ∧ n.code = 4 ∧ n.amount = breachDelta im k ∧ s.seq < t.seq ∧
        ∃ q ∈ t.exec.runs, q.task = task ∧ q.step = r.step ∧ q.st = .discarded))

/-- FALLBACK_BEYOND_FREEBOARD and DEADLINE_CHECK (R94, R154): the notices that a count calls for go out, each 40.96 µs on top of the slip that applies; a
projected end beyond the deadline sends a late notice with the excess in whole µs, and one within it changes nothing. The work left is charged at the
rate that a hot stack or die and a link below its rating leave, and codes 1 and 3 name them (R185, R209).
CHECK_HORIZON (R18, R102, R140): a firm task whose end lies its check horizon of 2 µs back, its checks passed, commits, and its gauge increments and
over-range counts count from then on, once; before that nothing commits. -/
def Obligations.LateNoticesAndCommit : Prop :=
  (∀ (task : Nat) (im : JobImage) (k : TaskRec) (r : TaskRun) (s : State),
    s.job.image = some im → taskRec task s = some k → runningRun task s = some r → s.exec.voided = false →
    (k.dtype = 1 →
      let due := noticesDue (int8Of im k s) (reserveQ (decodeGemm k.body))
      ∃ t, exec (.fallbackBeyondFreeboard task) s = .next t ∧
        noticesSent task r.step t = max (noticesSent task r.step s) due ∧
        lateSlip r.step k.deadline t = lateSlip r.step k.deadline s + 40960 * (due - noticesSent task r.step s) ∧
        t.exec.runs = s.exec.runs ∧ t.mem = s.mem) ∧
    (∀ rem unitTime (code : Fin 9) org q,
      let e := tideNow s + rem * unitTimeOf im k unitTime s
      let d := deadlineOf k r.step s
      let c := if code.val ≠ 0 ∧ code.val ≠ 1 ∧ code.val ≠ 3 then code.val
        else if hotWork im k s = true then 1 else if belowWork im k s = true then 3 else 0
      (belowWork im k s = false → unitTimeOf im k unitTime s = if hotWork im k s then (4 * unitTime + 2) / 3 else unitTime) ∧
      (c = 0 ∨ e ≤ d → exec (.deadlineCheck task rem unitTime code org q) s = .next s) ∧
      (c ≠ 0 → d < e →
        ∃ t n, exec (.deadlineCheck task rem unitTime code org q) s = .next t ∧ t.exec.notices = s.exec.notices ++ [n] ∧ n.breach = false ∧
          n.step = r.step ∧ n.src = logId s ∧ n.da = k.deadline ∧ n.code = c ∧ n.task = task ∧
          n.amount = lateSlip r.step k.deadline s + (e - d + 999) / 1000 * 1000 ∧ t.exec.runs = s.exec.runs))) ∧
  (∀ (task : Nat) (im : JobImage) (k : TaskRec) (s : State), s.job.image = some im → taskRec task s = some k →
    (∀ r, s.exec.runs.find? (commitDue k s) = some r → s.exec.voided = false →
      ∃ t, exec (.checkHorizon task) s = .next t ∧ (∃ q ∈ t.exec.runs, q.task = task ∧ q.step = r.step ∧ q.st = .committed ∧ q.endT = r.endT) ∧
        t.exec.overs = s.exec.overs ++ (if r.again then [] else r.overs.map fun o => (r.step, o)) ∧
        t.gauges = (gaugeAll r.step (if r.again then [] else r.gauges) s).gauges ∧ t.job = s.job) ∧
    ((∀ r ∈ s.exec.runs, r.task = task → r.st = .committed ∨ r.st = .discarded ∨ r.endT = none ∨ (∃ e, r.endT = some e ∧ tideNow s < e + 2000)) →
      exec (.checkHorizon task) s = .next s))

/-! ### Inspection and wear -/

/-- INSPECTION_SLOT_START and INSPECTION_SLOT_END (R160, R299 to R301): a slot that is due takes the next core of the next die, at once where no job needs
it and else at a boundary; the walk passes over a die whose new relief core is still to be enabled. After 180 ms a core that passed returns, and one that
failed any test is mapped out. -/
def Obligations.InspectionWalk : Prop :=
  ∀ (s : State),
    (∀ d : Fin 4, ∀ c, slotDue s = true → s.inspect.nextDie = d.val → nextCore d s = some c → s.dies[d].inReset = false →
      ∃ t, exec .inspectionSlotStart s = .next t ∧ t = { s with inspect := t.inspect } ∧ t.inspect.nextDie = (d.val + 1) % 4 ∧
        t.inspect.lastStart = s.now ∧
        (s.dies[d].pendingRelief = true → t.inspect.slot = none ∧ t.inspect.due = none ∧ t.inspect.lastCore = s.inspect.lastCore) ∧
        (s.dies[d].pendingRelief = false → t.inspect.lastCore[d] = some c) ∧
        (s.dies[d].pendingRelief = false → s.job.state ≠ .running ∨ logicalOf d c s = none ∨ s.dies[d].relief = some c → t.inspect.slot = some (d.val, c) ∧ t.inspect.lc = none ∧ t.inspect.since = s.now) ∧
        (s.dies[d].pendingRelief = false → s.job.state = .running → (logicalOf d c s).isSome = true → s.dies[d].relief ≠ some c →
          t.inspect.slot = none ∧ (t.inspect.due = some (d.val, c) ↔ (reliefFree d.val s).isSome = true))) ∧
    (∀ (res : ScanResult) d c, s.inspect.slot = some (d, c) → s.inspect.since + 180000000 ≤ s.now → d < 4 →
      ∃ t, exec (.inspectionSlotEnd res) s = .next t ∧
        (res.tests = 0 → s.inspect.lc = none → t = { s with inspect := { s.inspect with slot := none, lc := none } }) ∧
        (∀ l, res.tests = 0 → s.inspect.lc = some l →
          t = { s with inspect := { s.inspect with slot := none, lc := none, back := some (d, l, c) } }) ∧
        (res.tests ≠ 0 → (coreOf d c t).mapped = true ∧ t.inspect.slot = none ∧ s.seq < t.seq ∧ t.mem = s.mem))

/-- GAUGE_SAMPLE, SETTLEMENT_DAILY and SETTLEMENT_HOURLY (R304, R305): a sample becomes the gauge's value (what was measured, or for corrections, repairs
and spare cores what the package counts itself), and the first one its first-boot value in both copies; at the end of a day both copies get its slot and a higher generation, at the end of an hour both headers the hours. -/
def Obligations.WearGauges : Prop :=
  ∀ (s : State), s.power.phase = .ready →
    (∀ (g : Fin 7) (unit : Nat) (v : F32), unit < 65536 →
      let w := sampleValue g.val unit v s
      ∃ t, exec (.gaugeSample g unit v) s = .next t ∧ t = { s with flash := t.flash } ∧
        (g.val < 3 ∨ g.val = 6 → w = v) ∧
        (∀ i : Fin 32, g.val = 3 → unit = i.val → w = toFp32 (s.memStacks[i].corrected : Int) 0) ∧
        (∀ d : Fin 4, g.val = 5 → unit = d.val → w = toFp32 (s.dies[d].spares : Int) 0) ∧
        valueOf g.val unit t.flash.current = some w ∧
        (∀ h u, (h, u) ≠ (g.val, unit) → valueOf h u t.flash.current = valueOf h u s.flash.current) ∧
        valueOf g.val unit t.flash.settleA.refs = some ((valueOf g.val unit s.flash.settleA.refs).getD w) ∧
        valueOf g.val unit t.flash.settleB.refs = some ((valueOf g.val unit s.flash.settleB.refs).getD w) ∧
        t.flash.settleA.days = s.flash.settleA.days ∧ t.flash.ledgerA = s.flash.ledgerA) ∧
    (0 < dayOn s → (∀ x ∈ settleDays s.flash, x.day < dayOn s) →
      let slot : DaySlot := { day := dayOn s, values := s.flash.current }
      let g := max s.flash.settleA.gen s.flash.settleB.gen + 1
      ∃ t, exec .settlementDaily s = .next t ∧ t = { s with flash := t.flash, memStacks := t.memStacks } ∧
        t.flash.settleA.gen = g ∧ t.flash.settleB.gen = g ∧ t.flash.settleA.hours = hoursOn s ∧
        t.flash.settleA.days = (s.flash.settleA.days ++ [slot]).drop (s.flash.settleA.days.length + 1 - 365) ∧
        t.flash.settleB.days = (s.flash.settleB.days ++ [slot]).drop (s.flash.settleB.days.length + 1 - 365) ∧
        t.flash.settleA.refs = s.flash.settleA.refs) ∧
    ((settleBest s.flash).hours < hoursOn s →
      exec .settlementHourly s = .next { s with flash := {
        s.flash with settleA := { s.flash.settleA with hours := hoursOn s }, settleB := { s.flash.settleB with hours := hoursOn s } } })
end

