-- ==== Sys2Proof/Laws/Memory.lean ====
section
/-! SUPPORT. The laws of byte memory: every operation keeps the canonical form, a read after a write to the same place gives the value
written, and a write leaves every other place alone. -/

namespace Sys2Proof.Laws

open Machine

theorem memWfFrom_mono {lo lo' : Nat} (h : lo' ≤ lo) : ∀ {m : Memory}, memWfFrom lo m = true → memWfFrom lo' m = true
  | [], _ => rfl
  | (k, v) :: r, hm => by
    simp only [memWfFrom, Bool.and_eq_true, decide_eq_true_eq] at hm ⊢
    exact ⟨⟨by omega, hm.1.2⟩, hm.2⟩

theorem memGet_below {lo a : Nat} (h : a < lo) : ∀ {m : Memory}, memWfFrom lo m = true → memGet m a = 0
  | [], _ => rfl
  | (k, v) :: r, hm => by
    simp only [memWfFrom, Bool.and_eq_true, decide_eq_true_eq] at hm
    simp only [memGet]
    rw [if_neg (by omega), if_pos (by omega)]

theorem memCons_wf {lo a : Nat} {b : Byte} {r : Memory} (ha : lo ≤ a) (hr : memWfFrom (a + 1) r = true) :
    memWfFrom lo (memCons a b r) = true := by
  unfold memCons
  split
  · exact memWfFrom_mono (by omega) hr
  · simp_all [memWfFrom]

theorem memGet_memCons {a c : Nat} {b : Byte} {r : Memory} (hr : memWfFrom (a + 1) r = true) :
    memGet (memCons a b r) c = if c = a then b else memGet r c := by
  unfold memCons
  split
  · split
    · subst_vars; exact memGet_below (by omega) hr
    · rfl
  · simp only [memGet]
    split
    · rfl
    · split
      · exact (memGet_below (by omega) hr).symm
      · rfl

theorem memSet_wfFrom {a : Nat} {b : Byte} : ∀ {lo : Nat} {m : Memory}, lo ≤ a → memWfFrom lo m = true → memWfFrom lo (memSet m a b) = true
  | _, [], ha, _ => memCons_wf ha rfl
  | lo, (k, v) :: r, ha, hm => by
    have hm' := hm
    simp only [memWfFrom, Bool.and_eq_true, decide_eq_true_eq] at hm'
    unfold memSet
    split
    · subst_vars; exact memCons_wf ha hm'.2
    · split
      · refine memCons_wf ha ?_
        simp only [memWfFrom, Bool.and_eq_true, decide_eq_true_eq]
        exact ⟨⟨by omega, hm'.1.2⟩, hm'.2⟩
      · simp only [memWfFrom, Bool.and_eq_true, decide_eq_true_eq]
        exact ⟨hm'.1, memSet_wfFrom (by omega) hm'.2⟩

/-- A write of one byte keeps the canonical form. -/
theorem memSet_wf {m : Memory} {a : Nat} {b : Byte} (h : m.wf = true) : (memSet m a b).wf = true := memSet_wfFrom (Nat.zero_le _) h

theorem memGet_memSetFrom {a c : Nat} {b : Byte} : ∀ {lo : Nat} {m : Memory}, memWfFrom lo m = true →
    memGet (memSet m a b) c = if c = a then b else memGet m c
  | _, [], _ => memGet_memCons rfl
  | lo, (k, v) :: r, hm => by
    have hm' := hm
    simp only [memWfFrom, Bool.and_eq_true, decide_eq_true_eq] at hm'
    unfold memSet
    split
    · rename_i hk
      subst hk
      rw [memGet_memCons hm'.2]
      split
      · rfl
      · simp only [memGet]
        rw [if_neg ‹_›]
        split
        · exact memGet_below (by omega) hm'.2
        · rfl
    · split
      · rw [memGet_memCons]
        simp only [memWfFrom, Bool.and_eq_true, decide_eq_true_eq]
        exact ⟨⟨by omega, hm'.1.2⟩, hm'.2⟩
      · simp only [memGet]
        rw [memGet_memSetFrom hm'.2]
        by_cases h1 : c = k
        · subst h1; rw [if_pos rfl, if_pos rfl, if_neg (by omega)]
        · rw [if_neg h1, if_neg h1]
          by_cases h2 : c < k
          · rw [if_pos h2, if_pos h2, if_neg (by omega)]
          · rw [if_neg h2, if_neg h2]

/-- A read after a write of one byte. -/
theorem memGet_memSet {m : Memory} {a c : Nat} {b : Byte} (h : m.wf = true) :
    memGet (memSet m a b) c = if c = a then b else memGet m c := memGet_memSetFrom h

/-- A write of a byte string keeps the canonical form. -/
theorem memWrite_wf : ∀ {bs : Bytes} {m : Memory} {a : Nat}, m.wf = true → (memWrite m a bs).wf = true
  | [], _, _, h => h
  | _ :: bs, _, _, h => memWrite_wf (bs := bs) (memSet_wf h)

/-- A fold of byte writes keeps the canonical form. -/
theorem memSet_foldl_wf {α : Type} {f : α → Nat} {g : α → Byte} : ∀ {l : List α} {m : Memory}, m.wf = true →
    (l.foldl (fun m c => memSet m (f c) (g c)) m).wf = true
  | [], _, h => h
  | _ :: l, _, h => memSet_foldl_wf (l := l) (memSet_wf h)

/-- A fold of writes keeps the canonical form. -/
theorem memWrite_foldl_wf {α : Type} {f : α → Nat} {g : α → Bytes} : ∀ {l : List α} {m : Memory}, m.wf = true →
    (l.foldl (fun m c => memWrite m (f c) (g c)) m).wf = true
  | [], _, h => h
  | _ :: l, _, h => memWrite_foldl_wf (l := l) (memWrite_wf h)

/-- A read after a write of a byte string: the written bytes inside it, the old byte elsewhere. -/
theorem memGet_memWrite : ∀ {bs : Bytes} {m : Memory} {a c : Nat}, m.wf = true →
    memGet (memWrite m a bs) c = if a ≤ c ∧ c < a + bs.length then bs.getD (c - a) 0 else memGet m c
  | [], m, a, c, _ => by
    simp only [memWrite, List.length_nil]
    rw [if_neg (by omega)]
  | b :: bs, m, a, c, h => by
    simp only [memWrite, List.length_cons]
    rw [memGet_memWrite (memSet_wf h), memGet_memSet h]
    by_cases h1 : c = a
    · subst h1
      rw [if_neg (by omega), if_pos rfl, if_pos (by omega)]
      simp
    · by_cases h2 : a + 1 ≤ c ∧ c < a + 1 + bs.length
      · rw [if_pos h2, if_pos (by omega)]
        obtain ⟨k, hk⟩ : ∃ k, c - a = k + 1 := ⟨c - a - 1, by omega⟩
        rw [hk, show c - (a + 1) = k by omega]
        simp
      · rw [if_neg h2, if_neg h1, if_neg (by omega)]

theorem memWrite_other {bs : Bytes} {m : Memory} {a c : Nat} (h : m.wf = true) (hc : c < a ∨ a + bs.length ≤ c) :
    memGet (memWrite m a bs) c = memGet m c := by
  rw [memGet_memWrite h, if_neg (by omega)]

theorem memFilter_wfFrom {f : Host.Cell → Bool} : ∀ {m : Memory} {lo : Nat}, memWfFrom lo m = true →
    memWfFrom lo (m.filter f) = true
  | [], _, _ => rfl
  | (k, v) :: r, lo, h => by
    have h' := h
    simp only [memWfFrom, Bool.and_eq_true, decide_eq_true_eq] at h'
    rw [List.filter_cons]
    split
    · simp only [memWfFrom, Bool.and_eq_true, decide_eq_true_eq]
      exact ⟨h'.1, memFilter_wfFrom h'.2⟩
    · exact memWfFrom_mono (by omega) (memFilter_wfFrom h'.2)

/-- Clearing a range keeps the canonical form. -/
theorem memClear_wf {m : Memory} {lo hi : Nat} (h : m.wf = true) : (memClear m lo hi).wf = true := memFilter_wfFrom h

theorem memGet_memClearFrom {lo hi c : Nat} : ∀ {m : Memory} {b : Nat}, memWfFrom b m = true →
    memGet (memClear m lo hi) c = if lo ≤ c ∧ c < hi then 0 else memGet m c
  | [], _, _ => by simp [memClear, memGet]
  | (k, v) :: r, b, h => by
    have h' := h
    simp only [memWfFrom, Bool.and_eq_true, decide_eq_true_eq] at h'
    have ih := memGet_memClearFrom (lo := lo) (hi := hi) (c := c) h'.2
    have hw : memWfFrom (k + 1) (memClear r lo hi) = true := memFilter_wfFrom h'.2
    unfold memClear at ih hw ⊢
    rw [List.filter_cons]
    by_cases hk : (decide (k < lo) || decide (hi ≤ k)) = true
    · rw [if_pos hk]
      simp only [Bool.or_eq_true, decide_eq_true_eq] at hk
      simp only [memGet]
      rw [ih]
      by_cases hc : lo ≤ c ∧ c < hi
      · rw [if_pos hc, if_pos hc, if_neg (by omega)]
        simp
      · simp only [if_neg hc]
    · rw [if_neg hk, ih]
      simp only [Bool.or_eq_true, decide_eq_true_eq] at hk
      split
      · rfl
      · simp only [memGet]
        rw [if_neg (by omega)]
        split
        · exact memGet_below (by omega) h'.2
        · rfl

/-- A read after a clear: zero inside the range, the old byte elsewhere. -/
theorem memGet_memClear {m : Memory} {lo hi c : Nat} (h : m.wf = true) :
    memGet (memClear m lo hi) c = if lo ≤ c ∧ c < hi then 0 else memGet m c := memGet_memClearFrom h

/-- Equal memories are equal data: two canonical memories that read alike are the same list. -/
theorem mem_ext_from : ∀ {m n : Memory} {lo : Nat}, memWfFrom lo m = true → memWfFrom lo n = true →
    (∀ a, memGet m a = memGet n a) → m = n
  | [], [], _, _, _, _ => rfl
  | [], (k, v) :: r, _, _, hn, h => by
    simp only [memWfFrom, Bool.and_eq_true, decide_eq_true_eq] at hn
    have := h k
    simp [memGet] at this
    simp [← this] at hn
  | (k, v) :: r, [], _, hm, _, h => by
    simp only [memWfFrom, Bool.and_eq_true, decide_eq_true_eq] at hm
    have := h k
    simp [memGet] at this
    simp [this] at hm
  | (k, v) :: r, (k', v') :: r', lo, hm, hn, h => by
    have hm' := hm
    have hn' := hn
    simp only [memWfFrom, Bool.and_eq_true, decide_eq_true_eq, bne_iff_ne] at hm hn
    have hkk : k = k' := by
      have h1 := h k
      have h2 := h k'
      simp only [memGet] at h1 h2
      rcases Nat.lt_trichotomy k k' with hlt | heq | hgt
      · rw [if_pos trivial, if_neg (by omega), if_pos hlt] at h1
        exact absurd h1 hm.1.2
      · exact heq
      · rw [if_neg (by omega), if_pos hgt, if_pos trivial] at h2
        exact absurd h2.symm hn.1.2
    subst hkk
    have hv : v = v' := by
      have := h k
      simpa [memGet] using this
    subst hv
    have : r = r' := mem_ext_from hm.2 hn.2 fun a => by
      by_cases ha : a = k
      · subst ha; rw [memGet_below (by omega) hm.2, memGet_below (by omega) hn.2]
      · have := h a
        simp only [memGet, if_neg ha] at this
        by_cases hl : a < k
        · rw [memGet_below (by omega) hm.2, memGet_below (by omega) hn.2]
        · simpa only [if_neg hl] using this
    rw [this]

theorem mem_ext {m n : Memory} (hm : m.wf = true) (hn : n.wf = true) (h : ∀ a, memGet m a = memGet n a) : m = n :=
  mem_ext_from hm hn h

end Sys2Proof.Laws
end

