-- ==== Sys2Proof/Laws/Run.lean ====
section
/-! SUPPORT. What a shared operation may change: the relation `Run w s t` says that `t` follows from `s` by an operation that writes only the
fields in `w`, and that keeps the event log, the memories' canonical form and what has gone out. One lemma for each operation, in the files
`Sys2Proof/Laws/Run*.lean`, says which fields it writes. -/

-- One script proves many lemmas, so some of its alternatives are not needed everywhere.
set_option linter.unusedTactic false
set_option linter.unreachableTactic false

namespace Sys2Proof.Laws

open Machine

/-- The fields of the state. -/
inductive StateField where
  | pending | now | freeCtr | out | power | plls | tide | tideHi | hostA | hostB | lock | i3c | peer | warden | seq |
  log | queues | job | exec | gauges | dies | cores | coreStore | memStacks | mem | far | links | levee | fabric | twin |
  flash | inspect
  deriving DecidableEq, Repr

/-- Two states agree on a field. -/
def StateField.Same : StateField → State → State → Prop
  | .pending, s, t => t.pending = s.pending
  | .now, s, t => t.now = s.now
  | .freeCtr, s, t => t.freeCtr = s.freeCtr
  | .out, s, t => t.out = s.out
  | .power, s, t => t.power = s.power
  | .plls, s, t => t.plls = s.plls
  | .tide, s, t => t.tide = s.tide
  | .tideHi, s, t => t.tideHi = s.tideHi
  | .hostA, s, t => t.hostA = s.hostA
  | .hostB, s, t => t.hostB = s.hostB
  | .lock, s, t => t.lock = s.lock
  | .i3c, s, t => t.i3c = s.i3c
  | .peer, s, t => t.peer = s.peer
  | .warden, s, t => t.warden = s.warden
  | .seq, s, t => t.seq = s.seq
  | .log, s, t => t.log = s.log
  | .queues, s, t => t.queues = s.queues
  | .job, s, t => t.job = s.job
  | .exec, s, t => t.exec = s.exec
  | .gauges, s, t => t.gauges = s.gauges
  | .dies, s, t => t.dies = s.dies
  | .cores, s, t => t.cores = s.cores
  | .coreStore, s, t => t.coreStore = s.coreStore
  | .memStacks, s, t => t.memStacks = s.memStacks
  | .mem, s, t => t.mem = s.mem
  | .far, s, t => t.far = s.far
  | .links, s, t => t.links = s.links
  | .levee, s, t => t.levee = s.levee
  | .fabric, s, t => t.fabric = s.fabric
  | .twin, s, t => t.twin = s.twin
  | .flash, s, t => t.flash = s.flash
  | .inspect, s, t => t.inspect = s.inspect

theorem StateField.same_refl (f : StateField) (s : State) : f.Same s s := by cases f <;> rfl

theorem StateField.same_trans (f : StateField) {s t u : State} (h : f.Same s t) (k : f.Same t u) : f.Same s u := by
  cases f <;> exact Eq.trans k h

/-- `t` follows from `s` by an operation that writes at most the fields in `w`. -/
structure Run (w : List StateField) (s t : State) : Prop where
  same : ∀ f, w.contains f = false → f.Same s t
  log : LogOk s → LogOk t
  mem : s.mem.wf = true → t.mem.wf = true
  store : s.coreStore.wf = true → t.coreStore.wf = true
  out : s.out <+: t.out
  seq : s.seq ≤ t.seq

theorem Run.refl (w : List StateField) (s : State) : Run w s s :=
  ⟨fun f _ => f.same_refl s, id, id, id, List.prefix_refl _, Nat.le_refl _⟩

/-- A list of fields within another one that is within `w`. -/
theorem sub_all {u v w : List StateField} (h : v.all w.contains = true) (hu : u.all v.contains = true) : u.all w.contains = true :=
  List.all_eq_true.mpr fun x hx => List.all_eq_true.mp h x (by simpa using List.all_eq_true.mp hu x hx)

theorem Run.mono {v w : List StateField} {s t : State} (h : Run v s t) (hv : v.all w.contains = true) : Run w s t := by
  refine ⟨fun f hf => h.same f ?_, h.log, h.mem, h.store, h.out, h.seq⟩
  cases hc : v.contains f with
  | false => rfl
  | true =>
    have := List.all_eq_true.mp hv f (by simpa using hc)
    simp_all

theorem Run.trans {v w : List StateField} {s t u : State} (h : Run w s t) (k : Run v t u) (hv : v.all w.contains = true) :
    Run w s u :=
  have k := k.mono hv
  ⟨fun f hf => f.same_trans (h.same f hf) (k.same f hf), k.log ∘ h.log, k.mem ∘ h.mem, k.store ∘ h.store, h.out.trans k.out,
    Nat.le_trans h.seq k.seq⟩

theorem Run.lift {v w : List StateField} {s0 s t : State} (k : Run v s t) (h : Run w s0 s) (hv : v.all w.contains = true) : Run w s0 t :=
  h.trans k hv

/-- Name an intermediate state. -/
theorem Run.cut {w : List StateField} {s t x : State} (h : Run w s x) (k : Run w s x → Run w s t) : Run w s t := k h

/-- A record update that leaves the log and the outputs alone and keeps the memories' form. -/
theorem Run.upd {w : List StateField} {s x t : State} (hp : t.pending = x.pending) (h : Run w s x)
    (hs : ∀ f, w.contains f = false → f.Same x t) (hq : t.seq = x.seq) (hl : t.log = x.log)
    (hm : x.mem.wf = true → t.mem.wf = true) (hc : x.coreStore.wf = true → t.coreStore.wf = true) (ho : t.out = x.out) : Run w s t := by
  have _ := hp
  refine ⟨fun f hf => f.same_trans (h.same f hf) (hs f hf), fun k => ?_, fun k => ?_, fun k => ?_, ?_, ?_⟩
  · have k := h.log k
    unfold LogOk at k ⊢
    simpa only [hl, hq] using k
  · exact hm (h.mem k)
  · exact hc (h.store k)
  · rw [ho]; exact h.out
  · rw [hq]; exact h.seq

/-- A record update that leaves the log and the outputs alone and keeps the memories' form, as it stands after unfolding. -/
theorem Run.mk_mem {w : List StateField} {s x : State}
    {xPending : List Instr} {xNow : Nat} {xFreeCtr : Nat} {xOut : List Out} {xPower : Power} {xPlls : Vector Plls 36} {xTide
        : Tide} {xTideHi : BitVec 32} {xHostA : HostPort} {xHostB : HostPort} {xLock : Lock} {xI3c : I3c} {xPeer : PeerBox}
        {xWarden : Warden} {xSeq : Nat} {xLog : List LogEntry} {xQueues : List HwQueue} {xJob : JobCtl} {xExec : Exec}
        {xGauges : Gauges} {xDies : Vector Die 4} {xCores : List Core} {xCoreStore : Memory} {xStacks : Vector Stack 32}
        {xMem : Memory} {xFar : Vector FarPort 2} {xLinks : Vector DieLink 41} {xLevee : Levee} {xFabric : Vector FabPort 6}
        {xTwin : Twin} {xFlash : Flash} {xInspect : Inspect}
    (hp : xPending = x.pending) (h : Run w s x)
    (hs : ∀ f, w.contains f = false → f.Same x ⟨xPending, xNow, xFreeCtr, xOut, xPower, xPlls, xTide, xTideHi, xHostA,
        xHostB, xLock, xI3c, xPeer, xWarden, xSeq, xLog, xQueues, xJob, xExec, xGauges, xDies, xCores, xCoreStore, xStacks,
        xMem, xFar, xLinks, xLevee, xFabric, xTwin, xFlash, xInspect⟩)
    (hq : xSeq = x.seq) (hl : xLog = x.log) (hm : x.mem.wf = true → xMem.wf = true)
    (hc : x.coreStore.wf = true → xCoreStore.wf = true) (ho : xOut = x.out) :
    Run w s ⟨xPending, xNow, xFreeCtr, xOut, xPower, xPlls, xTide, xTideHi, xHostA, xHostB, xLock, xI3c, xPeer, xWarden,
        xSeq, xLog, xQueues, xJob, xExec, xGauges, xDies, xCores, xCoreStore, xStacks, xMem, xFar, xLinks, xLevee, xFabric,
        xTwin, xFlash, xInspect⟩ :=
  Run.upd hp h hs hq hl hm hc ho

/-- A record update that leaves the log, the memories and the outputs alone, as it stands after unfolding. -/
theorem Run.mk_upd {w : List StateField} {s x : State}
    {xPending : List Instr} {xNow : Nat} {xFreeCtr : Nat} {xOut : List Out} {xPower : Power} {xPlls : Vector Plls 36} {xTide
        : Tide} {xTideHi : BitVec 32} {xHostA : HostPort} {xHostB : HostPort} {xLock : Lock} {xI3c : I3c} {xPeer : PeerBox}
        {xWarden : Warden} {xSeq : Nat} {xLog : List LogEntry} {xQueues : List HwQueue} {xJob : JobCtl} {xExec : Exec}
        {xGauges : Gauges} {xDies : Vector Die 4} {xCores : List Core} {xCoreStore : Memory} {xStacks : Vector Stack 32}
        {xMem : Memory} {xFar : Vector FarPort 2} {xLinks : Vector DieLink 41} {xLevee : Levee} {xFabric : Vector FabPort 6}
        {xTwin : Twin} {xFlash : Flash} {xInspect : Inspect}
    (hp : xPending = x.pending) (h : Run w s x)
    (hs : ∀ f, w.contains f = false → f.Same x ⟨xPending, xNow, xFreeCtr, xOut, xPower, xPlls, xTide, xTideHi, xHostA,
        xHostB, xLock, xI3c, xPeer, xWarden, xSeq, xLog, xQueues, xJob, xExec, xGauges, xDies, xCores, xCoreStore, xStacks,
        xMem, xFar, xLinks, xLevee, xFabric, xTwin, xFlash, xInspect⟩)
    (hq : xSeq = x.seq) (hl : xLog = x.log) (hm : xMem = x.mem) (hc : xCoreStore = x.coreStore) (ho : xOut = x.out) :
    Run w s ⟨xPending, xNow, xFreeCtr, xOut, xPower, xPlls, xTide, xTideHi, xHostA, xHostB, xLock, xI3c, xPeer, xWarden,
        xSeq, xLog, xQueues, xJob, xExec, xGauges, xDies, xCores, xCoreStore, xStacks, xMem, xFar, xLinks, xLevee, xFabric,
        xTwin, xFlash, xInspect⟩ :=
  Run.upd hp h hs hq hl (fun k => hm ▸ k) (fun k => hc ▸ k) ho

/-- A fold of operations. -/
theorem Run.foldl {α : Type} {w : List StateField} {s0 : State} {f : State → α → State} {l : List α} {s : State} (h : Run w s0 s)
    (hf : ∀ a x, Run w s0 x → Run w s0 (f x a)) : Run w s0 (l.foldl f s) := by
  induction l generalizing s with
  | nil => exact h
  | cons a l ih => exact ih (hf a s h)

/-- A fold of operations that also answer data. -/
theorem Run.foldl1 {α β : Type} {w : List StateField} {z : State} {f : State × β → α → State × β} {l : List α} {x : State × β}
    (h : Run w z x.1) (hf : ∀ a x, Run w z x.1 → Run w z (f x a).1) : Run w z (l.foldl f x).1 := by
  induction l generalizing x with
  | nil => exact h
  | cons a l ih => exact ih (hf a x h)

/-- A fold of operations beside data. -/
theorem Run.foldl2 {α β : Type} {w : List StateField} {z : State} {f : β × State → α → β × State} {l : List α} {x : β × State}
    (h : Run w z x.2) (hf : ∀ a x, Run w z x.2 → Run w z (f x a).2) : Run w z (l.foldl f x).2 := by
  induction l generalizing x with
  | nil => exact h
  | cons a l ih => exact ih (hf a x h)

/-- A bounded repetition of an operation. -/
theorem Run.iter {w : List StateField} {z : State} {f : State → State} {n : Nat} {s : State} (h : Run w z s)
    (hf : ∀ x, Run w z x → Run w z (f x)) : Run w z (Machine.iter f n s) := by
  induction n generalizing s with
  | zero => exact h
  | succ n ih => exact ih (hf s h)

end Sys2Proof.Laws
end

