-- ==== Sys2Proof/Laws/RunOps.lean ====
section
/-! SUPPORT. What the named operations may change: one lemma for each operation of Sys2Proof/Machine/Ops.lean. -/

set_option linter.unusedTactic false
set_option linter.unreachableTactic false

namespace Sys2Proof.Laws

open Machine

variable {flds : List StateField} {st0 : State}

theorem modHost_run (p : HPort) (f : HostPort → HostPort) (s : State) (hz : Run flds st0 s) (hw : [.hostA, .hostB].all
    flds.contains = true) : Run flds st0 (modHost p f s) := by
  refine .lift ?_ hz hw
  unfold modHost
  repeat' (first
    | with_reducible assumption
    | with_reducible exact Run.refl _ _
    | (extract_lets +onlyGivenNames x
       first | (apply Run.cut (x := x); rotate_left 1; intro h; clear_value x; rotate_left 1; subst x) | clear_value x)
    | split
    | decide
    | (with_reducible refine Run.mk_upd rfl ?_ ?_ rfl rfl rfl rfl rfl
       rotate_left 1; exact (fun f hf => by cases f <;> first | exact absurd hf (by decide) | exact Eq.refl _)))

theorem modFab_run (p : FPort) (f : FabPort → FabPort) (s : State) (hz : Run flds st0 s) (hw : [.fabric].all flds.contains =
    true) : Run flds st0 (modFab p f s) := by
  refine .lift ?_ hz hw
  unfold modFab
  repeat' (first
    | with_reducible assumption
    | with_reducible exact Run.refl _ _
    | (extract_lets +onlyGivenNames x
       first | (apply Run.cut (x := x); rotate_left 1; intro h; clear_value x; rotate_left 1; subst x) | clear_value x)
    | decide
    | (with_reducible refine Run.mk_upd rfl ?_ ?_ rfl rfl rfl rfl rfl
       rotate_left 1; exact (fun f hf => by cases f <;> first | exact absurd hf (by decide) | exact Eq.refl _)))

theorem modStack_run (i : Fin 32) (f : Stack → Stack) (s : State) (hz : Run flds st0 s) (hw : [.memStacks].all flds.contains =
    true) : Run flds st0 (modStack i f s) := by
  refine .lift ?_ hz hw
  unfold modStack
  repeat' (first
    | with_reducible assumption
    | with_reducible exact Run.refl _ _
    | (extract_lets +onlyGivenNames x
       first | (apply Run.cut (x := x); rotate_left 1; intro h; clear_value x; rotate_left 1; subst x) | clear_value x)
    | decide
    | (with_reducible refine Run.mk_upd rfl ?_ ?_ rfl rfl rfl rfl rfl
       rotate_left 1; exact (fun f hf => by cases f <;> first | exact absurd hf (by decide) | exact Eq.refl _)))

theorem modDie_run (i : Fin 4) (f : Die → Die) (s : State) (hz : Run flds st0 s) (hw : [.dies].all flds.contains = true) : Run
    flds st0 (modDie i f s) := by
  refine .lift ?_ hz hw
  unfold modDie
  repeat' (first
    | with_reducible assumption
    | with_reducible exact Run.refl _ _
    | (extract_lets +onlyGivenNames x
       first | (apply Run.cut (x := x); rotate_left 1; intro h; clear_value x; rotate_left 1; subst x) | clear_value x)
    | decide
    | (with_reducible refine Run.mk_upd rfl ?_ ?_ rfl rfl rfl rfl rfl
       rotate_left 1; exact (fun f hf => by cases f <;> first | exact absurd hf (by decide) | exact Eq.refl _)))

theorem modLink_run (i : Fin 41) (f : DieLink → DieLink) (s : State) (hz : Run flds st0 s) (hw : [.links].all flds.contains =
    true) : Run flds st0 (modLink i f s) := by
  refine .lift ?_ hz hw
  unfold modLink
  repeat' (first
    | with_reducible assumption
    | with_reducible exact Run.refl _ _
    | (extract_lets +onlyGivenNames x
       first | (apply Run.cut (x := x); rotate_left 1; intro h; clear_value x; rotate_left 1; subst x) | clear_value x)
    | decide
    | (with_reducible refine Run.mk_upd rfl ?_ ?_ rfl rfl rfl rfl rfl
       rotate_left 1; exact (fun f hf => by cases f <;> first | exact absurd hf (by decide) | exact Eq.refl _)))

theorem modFar_run (i : Fin 2) (f : FarPort → FarPort) (s : State) (hz : Run flds st0 s) (hw : [.far].all flds.contains = true)
    : Run flds st0 (modFar i f s) := by
  refine .lift ?_ hz hw
  unfold modFar
  repeat' (first
    | with_reducible assumption
    | with_reducible exact Run.refl _ _
    | (extract_lets +onlyGivenNames x
       first | (apply Run.cut (x := x); rotate_left 1; intro h; clear_value x; rotate_left 1; subst x) | clear_value x)
    | decide
    | (with_reducible refine Run.mk_upd rfl ?_ ?_ rfl rfl rfl rfl rfl
       rotate_left 1; exact (fun f hf => by cases f <;> first | exact absurd hf (by decide) | exact Eq.refl _)))

theorem emit_run (o : Out) (s : State) (hz : Run flds st0 s) (hw : [.out].all flds.contains = true) : Run flds st0 (emit o s) := by
  refine .lift ?_ hz hw
  refine ⟨fun f hf => ?_, id, id, id, List.prefix_append _ _, Nat.le_refl _⟩
  cases f <;> first | exact absurd hf (by decide) | exact Eq.refl _

theorem emitAll_run (os : List Out) (s : State) (hz : Run flds st0 s) (hw : [.out].all flds.contains = true) : Run flds st0 (emitAll os s) := by
  refine .lift ?_ hz hw
  refine ⟨fun f hf => ?_, id, id, id, List.prefix_append _ _, Nat.le_refl _⟩
  cases f <;> first | exact absurd hf (by decide) | exact Eq.refl _

theorem leaveBanks_run (i : Fin 32) (k : Requester × Nat) (s : State) (hz : Run flds st0 s) (hw : [.memStacks].all flds.contains
    = true) : Run flds st0 (leaveBanks i k s) := by
  refine .lift ?_ hz hw
  unfold leaveBanks
  repeat' (first
    | with_reducible assumption
    | with_reducible exact Run.refl _ _
    | (extract_lets +onlyGivenNames x
       first | (apply Run.cut (x := x); rotate_left 1; intro h; clear_value x; rotate_left 1; subst x) | clear_value x)
    | with_reducible apply modStack_run
    | decide
    | (with_reducible refine Run.mk_upd rfl ?_ ?_ rfl rfl rfl rfl rfl
       rotate_left 1; exact (fun f hf => by cases f <;> first | exact absurd hf (by decide) | exact Eq.refl _)))

theorem freshWord_run (s : State) (hz : Run flds st0 s) (hw : [.freeCtr].all flds.contains = true) : Run flds st0 (freshWord
    s).2 := by
  refine .lift ?_ hz hw
  unfold freshWord
  repeat' (first
    | with_reducible assumption
    | with_reducible exact Run.refl _ _
    | (extract_lets +onlyGivenNames x
       first | (apply Run.cut (x := x); rotate_left 1; intro h; clear_value x; rotate_left 1; subst x) | clear_value x)
    | dsimp only
    | decide
    | (with_reducible refine Run.mk_upd rfl ?_ ?_ rfl rfl rfl rfl rfl
       rotate_left 1; exact (fun f hf => by cases f <;> first | exact absurd hf (by decide) | exact Eq.refl _)))

theorem raiseIrq_run (p : HPort) (v : Nat) (s : State) (hz : Run flds st0 s) (hw : [.out, .hostA, .hostB].all flds.contains =
    true) : Run flds st0 (raiseIrq p v s) := by
  refine .lift ?_ hz hw
  unfold raiseIrq
  repeat' (first
    | with_reducible assumption
    | with_reducible exact Run.refl _ _
    | (extract_lets +onlyGivenNames x
       first | (apply Run.cut (x := x); rotate_left 1; intro h; clear_value x; rotate_left 1; subst x) | clear_value x)
    | with_reducible apply modHost_run
    | with_reducible apply emit_run
    | split
    | decide
    | (with_reducible refine Run.mk_upd rfl ?_ ?_ rfl rfl rfl rfl rfl
       rotate_left 1; exact (fun f hf => by cases f <;> first | exact absurd hf (by decide) | exact Eq.refl _)))

theorem raiseBoth_run (v : Nat) (s : State) (hz : Run flds st0 s) (hw : [.out, .hostA, .hostB].all flds.contains = true) : Run
    flds st0 (raiseBoth v s) := by
  refine .lift ?_ hz hw
  unfold raiseBoth
  repeat' (first
    | with_reducible assumption
    | with_reducible exact Run.refl _ _
    | with_reducible apply raiseIrq_run
    | decide)

/-- A new entry at the front of the log (R275). -/
theorem logOk_cons {s t : State} {e : LogEntry} (h : LogOk s) (he : e.seq = s.seq + 1) (hq : t.seq = s.seq + 1)
    (hl : t.log = (e :: s.log).take 4096) : LogOk t := by
  obtain ⟨h1, h2⟩ := h
  refine ⟨?_, fun i hi => ?_⟩
  · rw [hl, hq, List.length_take, List.length_cons, h1]; omega
  · simp only [hl, List.getElem_take]
    cases i with
    | zero => simp [he, hq]
    | succ i =>
      have := h2 i (by simp only [hl, List.length_take, List.length_cons] at hi; omega)
      simp only [List.getElem_cons_succ]
      omega

theorem logAt_run (step code unit d0 d1 d2 d3 : Nat) (s : State) (hz : Run flds st0 s)
    (hw : [.out, .hostA, .hostB, .seq, .log].all flds.contains = true) : Run flds st0 (logAt step code unit d0 d1 d2 d3 s) := by
  refine .lift ?_ hz hw
  unfold logAt
  extract_lets e s1 s2
  have h1 : Run [.out, .hostA, .hostB, .seq, .log] s s1 :=
    ⟨fun f hf => by cases f <;> first | exact absurd hf (by decide) | exact Eq.refl _, fun h => logOk_cons h rfl rfl rfl, id, id,
      List.prefix_refl _, Nat.le_succ _⟩
  have h2 : Run [.out, .hostA, .hostB, .seq, .log] s s2 := by
    subst s2
    split
    · exact raiseIrq_run _ _ _ h1 (by decide)
    · exact h1
  split
  · exact raiseIrq_run _ _ _ h2 (by decide)
  · exact h2

theorem logEv_run (code unit d0 d1 d2 d3 : Nat) (s : State) (hz : Run flds st0 s) (hw : [.out, .hostA, .hostB, .seq, .log].all
    flds.contains = true) : Run flds st0 (logEv code unit d0 d1 d2 d3 s) := by
  refine .lift ?_ hz hw
  unfold logEv
  repeat' (first
    | with_reducible assumption
    | with_reducible exact Run.refl _ _
    | with_reducible apply logAt_run
    | decide)

theorem logAccess_run (addr : Nat) (who : Requester) (cause : Nat) (s : State) (hz : Run flds st0 s) (hw : [.out, .hostA,
    .hostB, .seq, .log].all flds.contains = true) : Run flds st0 (logAccess addr who cause s) := by
  refine .lift ?_ hz hw
  unfold logAccess
  repeat' (first
    | with_reducible assumption
    | with_reducible exact Run.refl _ _
    | with_reducible apply logEv_run
    | decide)

theorem logLoop_run (loop policy value : Nat) (s : State) (hz : Run flds st0 s) (hw : [.out, .hostA, .hostB, .seq, .log].all
    flds.contains = true) : Run flds st0 (logLoop loop policy value s) := by
  refine .lift ?_ hz hw
  unfold logLoop
  repeat' (first
    | with_reducible assumption
    | with_reducible exact Run.refl _ _
    | with_reducible apply logEv_run
    | decide)

theorem ledgerAppend_run (kind srce index sub : Nat) (value : Bytes) (s : State) (hz : Run flds st0 s) (hw : [.flash].all
    flds.contains = true) : Run flds st0 (ledgerAppend kind srce index sub value s) := by
  refine .lift ?_ hz hw
  unfold ledgerAppend
  repeat' (first
    | with_reducible assumption
    | with_reducible exact Run.refl _ _
    | (extract_lets +onlyGivenNames x
       first | (apply Run.cut (x := x); rotate_left 1; intro h; clear_value x; rotate_left 1; subst x) | clear_value x)
    | split
    | decide
    | (with_reducible refine Run.mk_upd rfl ?_ ?_ rfl rfl rfl rfl rfl
       rotate_left 1; exact (fun f hf => by cases f <;> first | exact absurd hf (by decide) | exact Eq.refl _)))

theorem ledgerReplace_run (kind srce index sub : Nat) (value : Bytes) (s : State) (hz : Run flds st0 s) (hw : [.out, .hostA,
    .hostB, .seq, .log, .flash].all flds.contains = true) : Run flds st0 (ledgerReplace kind srce index sub value s) := by
  refine .lift ?_ hz hw
  unfold ledgerReplace
  repeat' (first
    | with_reducible assumption
    | with_reducible exact Run.refl _ _
    | with_reducible apply logEv_run
    | with_reducible apply ledgerAppend_run
    | split
    | decide
    | (with_reducible refine Run.mk_upd rfl ?_ ?_ rfl rfl rfl rfl rfl
       rotate_left 1; exact (fun f hf => by cases f <;> first | exact absurd hf (by decide) | exact Eq.refl _)))

theorem gaugeIn_run (step cls fmt : Nat) (c : Counts) (s : State) (hz : Run flds st0 s) (hw : [.gauges].all flds.contains =
    true) : Run flds st0 (gaugeIn step cls fmt c s) := by
  refine .lift ?_ hz hw
  unfold gaugeIn
  repeat' (first
    | with_reducible assumption
    | with_reducible exact Run.refl _ _
    | (extract_lets +onlyGivenNames x
       first | (apply Run.cut (x := x); rotate_left 1; intro h; clear_value x; rotate_left 1; subst x) | clear_value x)
    | split
    | decide
    | (with_reducible refine Run.mk_upd rfl ?_ ?_ rfl rfl rfl rfl rfl
       rotate_left 1; exact (fun f hf => by cases f <;> first | exact absurd hf (by decide) | exact Eq.refl _)))

theorem addGauge_run (cls fmt : Nat) (c : Counts) (s : State) (hz : Run flds st0 s) (hw : [.gauges].all flds.contains = true) :
    Run flds st0 (addGauge cls fmt c s) := by
  refine .lift ?_ hz hw
  unfold addGauge
  repeat' (first
    | with_reducible assumption
    | with_reducible exact Run.refl _ _
    | with_reducible apply gaugeIn_run
    | decide)

theorem gaugeAll_run (step : Nat) (l : List (Nat × Nat × Counts)) (s : State) (hz : Run flds st0 s) (hw : [.gauges].all
    flds.contains = true) : Run flds st0 (gaugeAll step l s) := by
  refine .lift ?_ hz hw
  unfold gaugeAll
  repeat' (first
    | with_reducible assumption
    | with_reducible exact Run.refl _ _
    | (extract_lets +onlyGivenNames x
       first | (apply Run.cut (x := x); rotate_left 1; intro h; clear_value x; rotate_left 1; subst x) | clear_value x)
    | with_reducible apply gaugeIn_run
    | (with_reducible apply Run.foldl; rotate_left 1; intro e x h)
    | decide)

theorem modCore_run (d c : Nat) (f : Core → Core) (s : State) (hz : Run flds st0 s) (hw : [.cores].all flds.contains = true) :
    Run flds st0 (modCore d c f s) := by
  refine .lift ?_ hz hw
  unfold modCore
  repeat' (first
    | with_reducible assumption
    | with_reducible exact Run.refl _ _
    | (extract_lets +onlyGivenNames x
       first | (apply Run.cut (x := x); rotate_left 1; intro h; clear_value x; rotate_left 1; subst x) | clear_value x)
    | decide
    | (with_reducible refine Run.mk_upd rfl ?_ ?_ rfl rfl rfl rfl rfl
       rotate_left 1; exact (fun f hf => by cases f <;> first | exact absurd hf (by decide) | exact Eq.refl _)))

theorem dropOutst_run (k : Requester × Nat) (s : State) (hz : Run flds st0 s) (hw : [.cores].all flds.contains = true) : Run
    flds st0 (dropOutst k s) := by
  refine .lift ?_ hz hw
  unfold dropOutst
  repeat' (first
    | with_reducible assumption
    | with_reducible exact Run.refl _ _
    | (extract_lets +onlyGivenNames x
       first | (apply Run.cut (x := x); rotate_left 1; intro h; clear_value x; rotate_left 1; subst x) | clear_value x)
    | with_reducible apply modCore_run
    | split
    | decide
    | (with_reducible refine Run.mk_upd rfl ?_ ?_ rfl rfl rfl rfl rfl
       rotate_left 1; exact (fun f hf => by cases f <;> first | exact absurd hf (by decide) | exact Eq.refl _)))

theorem sendAck_run (i : Fin 32) (a : WAck) (s : State) (hz : Run flds st0 s) (hw : [.out, .cores, .memStacks].all flds.contains
    = true) : Run flds st0 (sendAck i a s) := by
  refine .lift ?_ hz hw
  unfold sendAck
  repeat' (first
    | with_reducible assumption
    | with_reducible exact Run.refl _ _
    | with_reducible apply emit_run
    | with_reducible apply leaveBanks_run
    | with_reducible apply dropOutst_run
    | split
    | decide
    | (with_reducible refine Run.mk_upd rfl ?_ ?_ rfl rfl rfl rfl rfl
       rotate_left 1; exact (fun f hf => by cases f <;> first | exact absurd hf (by decide) | exact Eq.refl _)))

theorem releaseAcks_run (i : Fin 32) (f : Nat → Bool) (s : State) (hz : Run flds st0 s) (hw : [.out, .cores, .memStacks].all
    flds.contains = true) : Run flds st0 (releaseAcks i f s) := by
  refine .lift ?_ hz hw
  unfold releaseAcks
  repeat' (first
    | with_reducible assumption
    | with_reducible exact Run.refl _ _
    | (extract_lets +onlyGivenNames x
       first | (apply Run.cut (x := x); rotate_left 1; intro h; clear_value x; rotate_left 1; subst x) | clear_value x)
    | with_reducible apply modStack_run
    | with_reducible apply sendAck_run
    | (with_reducible apply Run.foldl; rotate_left 1; intro e x h)
    | decide
    | (with_reducible refine Run.mk_upd rfl ?_ ?_ rfl rfl rfl rfl rfl
       rotate_left 1; exact (fun f hf => by cases f <;> first | exact absurd hf (by decide) | exact Eq.refl _)))

theorem dropWatches_run (f : Watch → Bool) (s : State) (hz : Run flds st0 s) (hw : [.out, .cores, .memStacks].all flds.contains
    = true) : Run flds st0 (dropWatches f s) := by
  refine .lift ?_ hz hw
  unfold dropWatches
  repeat' (first
    | with_reducible assumption
    | with_reducible exact Run.refl _ _
    | (extract_lets +onlyGivenNames x
       first | (apply Run.cut (x := x); rotate_left 1; intro h; clear_value x; rotate_left 1; subst x) | clear_value x)
    | with_reducible apply modStack_run
    | with_reducible apply releaseAcks_run
    | (with_reducible apply Run.foldl; rotate_left 1; intro e x h)
    | split
    | decide
    | (with_reducible refine Run.mk_upd rfl ?_ ?_ rfl rfl rfl rfl rfl
       rotate_left 1; exact (fun f hf => by cases f <;> first | exact absurd hf (by decide) | exact Eq.refl _)))

theorem setJob_run (n : JobState) (s : State) (hz : Run flds st0 s) (hw : [.out, .hostA, .hostB, .seq, .log, .job].all
    flds.contains = true) : Run flds st0 (setJob n s) := by
  refine .lift ?_ hz hw
  unfold setJob
  repeat' (first
    | with_reducible assumption
    | with_reducible exact Run.refl _ _
    | (extract_lets +onlyGivenNames x
       first | (apply Run.cut (x := x); rotate_left 1; intro h; clear_value x; rotate_left 1; subst x) | clear_value x)
    | with_reducible apply logEv_run
    | split
    | decide
    | (with_reducible refine Run.mk_upd rfl ?_ ?_ rfl rfl rfl rfl rfl
       rotate_left 1; exact (fun f hf => by cases f <;> first | exact absurd hf (by decide) | exact Eq.refl _)))

theorem tick_run (s : State) (hz : Run flds st0 s) (hw : [.now, .tide].all flds.contains = true) : Run flds st0 (tick s) := by
  refine .lift ?_ hz hw
  unfold tick
  repeat' (first
    | with_reducible assumption
    | with_reducible exact Run.refl _ _
    | (extract_lets +onlyGivenNames x
       first | (apply Run.cut (x := x); rotate_left 1; intro h; clear_value x; rotate_left 1; subst x) | clear_value x)
    | decide
    | (with_reducible refine Run.mk_upd rfl ?_ ?_ rfl rfl rfl rfl rfl
       rotate_left 1; exact (fun f hf => by cases f <;> first | exact absurd hf (by decide) | exact Eq.refl _)))

end Sys2Proof.Laws
end

