-- ==== Sys2Proof/Laws/RunMsg.lean ====
section
/-! SUPPORT. What sending a message may change: one lemma for each operation of Sys2Proof/Machine/Msg.lean. -/

set_option linter.unusedTactic false
set_option linter.unreachableTactic false

namespace Sys2Proof.Laws

open Machine

variable {flds : List StateField} {st0 : State}

theorem sendFrame_run (p : FPort) (payload : Bytes) (ret : Nat × Bool × Nat) (s : State) (hz : Run flds st0 s) (hw : [.out,
    .fabric].all flds.contains = true) : Run flds st0 (sendFrame p payload ret s) := by
  refine .lift ?_ hz hw
  unfold sendFrame
  repeat' (first
    | with_reducible assumption
    | with_reducible exact Run.refl _ _
    | (extract_lets +onlyGivenNames x
       first | (apply Run.cut (x := x); rotate_left 1; intro h; clear_value x; rotate_left 1; subst x) | clear_value x)
    | with_reducible apply modFab_run
    | with_reducible apply emit_run
    | decide
    | (with_reducible refine Run.mk_upd rfl ?_ ?_ rfl rfl rfl rfl rfl
       rotate_left 1; exact (fun f hf => by cases f <;> first | exact absurd hf (by decide) | exact Eq.refl _)))

theorem takeCredits_run (p : FPort) (r : Nat × Bool × Nat) (s : State) (hz : Run flds st0 s) (hw : [.fabric].all flds.contains =
    true) : Run flds st0 (takeCredits p r s) := by
  refine .lift ?_ hz hw
  unfold takeCredits
  repeat' (first
    | with_reducible assumption
    | with_reducible exact Run.refl _ _
    | (extract_lets +onlyGivenNames x
       first | (apply Run.cut (x := x); rotate_left 1; intro h; clear_value x; rotate_left 1; subst x) | clear_value x)
    | with_reducible apply modFab_run
    | decide
    | (with_reducible refine Run.mk_upd rfl ?_ ?_ rfl rfl rfl rfl rfl
       rotate_left 1; exact (fun f hf => by cases f <;> first | exact absurd hf (by decide) | exact Eq.refl _)))

theorem sendOn_run (p : FPort) (m : Msg) (s : State) (hz : Run flds st0 s) (hw : [.out, .fabric].all flds.contains = true) : Run
    flds st0 (sendOn p m s) := by
  refine .lift ?_ hz hw
  unfold sendOn
  repeat' (first
    | with_reducible assumption
    | with_reducible exact Run.refl _ _
    | (extract_lets +onlyGivenNames x
       first | (apply Run.cut (x := x); rotate_left 1; intro h; clear_value x; rotate_left 1; subst x) | clear_value x)
    | with_reducible apply emit_run
    | with_reducible apply sendFrame_run
    | (with_reducible apply Run.foldl; rotate_left 1; intro e x h)
    | split
    | decide)

theorem sendAxis_run (axis : Nat) (plus : Bool) (m : Msg) (s : State) (hz : Run flds st0 s) (hw : [.out, .fabric].all
    flds.contains = true) : Run flds st0 (sendAxis axis plus m s) := by
  refine .lift ?_ hz hw
  unfold sendAxis
  repeat' (first
    | with_reducible assumption
    | with_reducible exact Run.refl _ _
    | (extract_lets +onlyGivenNames x
       first | (apply Run.cut (x := x); rotate_left 1; intro h; clear_value x; rotate_left 1; subst x) | clear_value x)
    | with_reducible apply sendOn_run
    | decide
    | (with_reducible refine Run.mk_upd rfl ?_ ?_ rfl rfl rfl rfl rfl
       rotate_left 1; exact (fun f hf => by cases f <;> first | exact absurd hf (by decide) | exact Eq.refl _)))

theorem sendLog_run (m : Msg) (s : State) (hz : Run flds st0 s) (hw : [.out, .fabric].all flds.contains = true) : Run flds st0
    (sendLog m s) := by
  refine .lift ?_ hz hw
  unfold sendLog
  repeat' (first
    | with_reducible assumption
    | with_reducible exact Run.refl _ _
    | with_reducible apply sendAxis_run
    | split
    | decide
    | (with_reducible refine Run.mk_upd rfl ?_ ?_ rfl rfl rfl rfl rfl
       rotate_left 1; exact (fun f hf => by cases f <;> first | exact absurd hf (by decide) | exact Eq.refl _)))

theorem sendPhys_run (m : Msg) (s : State) (hz : Run flds st0 s) (hw : [.out, .fabric].all flds.contains = true) : Run flds st0
    (sendPhys m s) := by
  refine .lift ?_ hz hw
  unfold sendPhys
  repeat' (first
    | with_reducible assumption
    | with_reducible exact Run.refl _ _
    | (extract_lets +onlyGivenNames x
       first | (apply Run.cut (x := x); rotate_left 1; intro h; clear_value x; rotate_left 1; subst x) | clear_value x)
    | with_reducible apply sendOn_run
    | split
    | decide
    | (with_reducible refine Run.mk_upd rfl ?_ ?_ rfl rfl rfl rfl rfl
       rotate_left 1; exact (fun f hf => by cases f <;> first | exact absurd hf (by decide) | exact Eq.refl _)))

theorem sendMsg_run (m : Msg) (s : State) (hz : Run flds st0 s) (hw : [.out, .fabric].all flds.contains = true) : Run flds st0
    (sendMsg m s) := by
  refine .lift ?_ hz hw
  unfold sendMsg
  repeat' (first
    | with_reducible assumption
    | with_reducible exact Run.refl _ _
    | with_reducible apply sendLog_run
    | with_reducible apply sendPhys_run
    | split
    | decide)

theorem bcastAxis_run (m : Msg) (s0 : State) (s : State) (axis : Nat) (hz : Run flds st0 s) (hw : [.out, .fabric].all
    flds.contains = true) : Run flds st0 (bcastAxis m s0 s axis) := by
  refine .lift ?_ hz hw
  unfold bcastAxis
  repeat' (first
    | with_reducible assumption
    | with_reducible exact Run.refl _ _
    | (extract_lets +onlyGivenNames x
       first | (apply Run.cut (x := x); rotate_left 1; intro h; clear_value x; rotate_left 1; subst x) | clear_value x)
    | with_reducible apply sendAxis_run
    | split
    | decide
    | (with_reducible refine Run.mk_upd rfl ?_ ?_ rfl rfl rfl rfl rfl
       rotate_left 1; exact (fun f hf => by cases f <;> first | exact absurd hf (by decide) | exact Eq.refl _)))

theorem bcastMsg_run (m : Msg) (s : State) (hz : Run flds st0 s) (hw : [.out, .fabric].all flds.contains = true) : Run flds st0
    (bcastMsg m s) := by
  refine .lift ?_ hz hw
  unfold bcastMsg
  repeat' (first
    | with_reducible assumption
    | with_reducible exact Run.refl _ _
    | (extract_lets +onlyGivenNames x
       first | (apply Run.cut (x := x); rotate_left 1; intro h; clear_value x; rotate_left 1; subst x) | clear_value x)
    | with_reducible apply bcastAxis_run
    | (with_reducible apply Run.foldl; rotate_left 1; intro e x h)
    | decide
    | (with_reducible refine Run.mk_upd rfl ?_ ?_ rfl rfl rfl rfl rfl
       rotate_left 1; exact (fun f hf => by cases f <;> first | exact absurd hf (by decide) | exact Eq.refl _)))

theorem bcastForward_run (p : FPort) (m : Msg) (s : State) (hz : Run flds st0 s) (hw : [.out, .fabric].all flds.contains = true)
    : Run flds st0 (bcastForward p m s) := by
  refine .lift ?_ hz hw
  unfold bcastForward
  repeat' (first
    | with_reducible assumption
    | with_reducible exact Run.refl _ _
    | (extract_lets +onlyGivenNames x
       first | (apply Run.cut (x := x); rotate_left 1; intro h; clear_value x; rotate_left 1; subst x) | clear_value x)
    | with_reducible apply sendAxis_run
    | with_reducible apply bcastAxis_run
    | (with_reducible apply Run.foldl; rotate_left 1; intro e x h)
    | split
    | decide
    | (with_reducible refine Run.mk_upd rfl ?_ ?_ rfl rfl rfl rfl rfl
       rotate_left 1; exact (fun f hf => by cases f <;> first | exact absurd hf (by decide) | exact Eq.refl _)))

theorem peerToPhys_run (op dst : Nat) (args : Bytes) (s : State) (hz : Run flds st0 s) (hw : [.out, .fabric].all flds.contains =
    true) : Run flds st0 (peerToPhys op dst args s) := by
  refine .lift ?_ hz hw
  unfold peerToPhys
  repeat' (first
    | with_reducible assumption
    | with_reducible exact Run.refl _ _
    | with_reducible apply sendMsg_run
    | decide)

theorem peerToLog_run (op dst step : Nat) (args : Bytes) (s : State) (hz : Run flds st0 s) (hw : [.out, .peer, .fabric].all
    flds.contains = true) : Run flds st0 (peerToLog op dst step args s) := by
  refine .lift ?_ hz hw
  unfold peerToLog
  repeat' (first
    | with_reducible assumption
    | with_reducible exact Run.refl _ _
    | (extract_lets +onlyGivenNames x
       first | (apply Run.cut (x := x); rotate_left 1; intro h; clear_value x; rotate_left 1; subst x) | clear_value x)
    | with_reducible apply sendMsg_run
    | split
    | decide
    | (with_reducible refine Run.mk_upd rfl ?_ ?_ rfl rfl rfl rfl rfl
       rotate_left 1; exact (fun f hf => by cases f <;> first | exact absurd hf (by decide) | exact Eq.refl _)))

theorem peerBcast_run (op step : Nat) (args : Bytes) (s : State) (hz : Run flds st0 s) (hw : [.out, .fabric].all flds.contains =
    true) : Run flds st0 (peerBcast op step args s) := by
  refine .lift ?_ hz hw
  unfold peerBcast
  repeat' (first
    | with_reducible assumption
    | with_reducible exact Run.refl _ _
    | with_reducible apply bcastMsg_run
    | decide)

end Sys2Proof.Laws
end

