-- ==== Sys2Proof/Laws/RunService.lean ====
section
/-! SUPPORT. What the shared services of the warden may change: one lemma for each operation of Sys2Proof/Machine/Service.lean. -/

set_option linter.unusedTactic false
set_option linter.unreachableTactic false

namespace Sys2Proof.Laws

open Machine

variable {flds : List StateField} {st0 : State}

theorem putCpl_run (mb : Mbox) (entry : Bytes) (kind status deadline result fault : Nat) (discard : Bool) (s : State) (hz : Run
    flds st0 s) (hw : [.out, .hostA, .hostB, .i3c, .seq, .log].all flds.contains = true) : Run flds st0 (putCpl mb entry kind
    status deadline result fault discard s) := by
  refine .lift ?_ hz hw
  unfold putCpl
  repeat' (first
    | with_reducible assumption
    | with_reducible exact Run.refl _ _
    | (extract_lets +onlyGivenNames x
       first | (apply Run.cut (x := x); rotate_left 1; intro h; clear_value x; rotate_left 1; subst x) | clear_value x)
    | with_reducible apply modHost_run
    | with_reducible apply emit_run
    | with_reducible apply raiseIrq_run
    | with_reducible apply logEv_run
    | split
    | decide
    | (with_reducible refine Run.mk_upd rfl ?_ ?_ rfl rfl rfl rfl rfl
       rotate_left 1; exact (fun f hf => by cases f <;> first | exact absurd hf (by decide) | exact Eq.refl _)))

theorem refuse_run (mb : Mbox) (entry : Bytes) (status : Nat) (s : State) (hz : Run flds st0 s) (hw : [.out, .hostA, .hostB,
    .i3c, .seq, .log].all flds.contains = true) : Run flds st0 (refuse mb entry status s) := by
  refine .lift ?_ hz hw
  unfold refuse
  repeat' (first
    | with_reducible assumption
    | with_reducible exact Run.refl _ _
    | with_reducible apply logEv_run
    | with_reducible apply putCpl_run
    | decide)

theorem endWhere_run (f : Accepted → Bool) (d : Done) (s : State) (hz : Run flds st0 s) (hw : [.warden].all flds.contains =
    true) : Run flds st0 (endWhere f d s) := by
  refine .lift ?_ hz hw
  unfold endWhere
  repeat' (first
    | with_reducible assumption
    | with_reducible exact Run.refl _ _
    | (extract_lets +onlyGivenNames x
       first | (apply Run.cut (x := x); rotate_left 1; intro h; clear_value x; rotate_left 1; subst x) | clear_value x)
    | split
    | decide
    | (with_reducible refine Run.mk_upd rfl ?_ ?_ rfl rfl rfl rfl rfl
       rotate_left 1; exact (fun f hf => by cases f <;> first | exact absurd hf (by decide) | exact Eq.refl _)))

theorem endOp_run (op : Nat) (d : Done) (s : State) (hz : Run flds st0 s) (hw : [.warden].all flds.contains = true) : Run flds
    st0 (endOp op d s) := by
  refine .lift ?_ hz hw
  unfold endOp
  repeat' (first
    | with_reducible assumption
    | with_reducible exact Run.refl _ _
    | with_reducible apply endWhere_run
    | decide)

theorem extendCommands_run (delta code : Nat) (s : State) (hz : Run flds st0 s) (hw : [.out, .hostA, .hostB, .i3c, .warden,
    .seq, .log].all flds.contains = true) : Run flds st0 (extendCommands delta code s) := by
  refine .lift ?_ hz hw
  unfold extendCommands
  repeat' (first
    | with_reducible assumption
    | with_reducible exact Run.refl _ _
    | (extract_lets +onlyGivenNames x
       first | (apply Run.cut (x := x); rotate_left 1; intro h; clear_value x; rotate_left 1; subst x) | clear_value x)
    | with_reducible apply putCpl_run
    | (with_reducible apply Run.foldl; rotate_left 1; intro e x h)
    | split
    | decide
    | (with_reducible refine Run.mk_upd rfl ?_ ?_ rfl rfl rfl rfl rfl
       rotate_left 1; exact (fun f hf => by cases f <;> first | exact absurd hf (by decide) | exact Eq.refl _)))

theorem logNotice_run (breach : Bool) (step da amount code origin task red : Nat) (s : State) (hz : Run flds st0 s) (hw : [.out,
    .hostA, .hostB, .seq, .log].all flds.contains = true) : Run flds st0 (logNotice breach step da amount code origin task red
    s) := by
  refine .lift ?_ hz hw
  unfold logNotice
  repeat' (first
    | with_reducible assumption
    | with_reducible exact Run.refl _ _
    | with_reducible apply logAt_run
    | split
    | decide)

theorem takeNotice_run (n : Notice) (s : State) (hz : Run flds st0 s) (hw : [.out, .hostA, .hostB, .i3c, .warden, .seq, .log,
    .job, .exec, .twin].all flds.contains = true) : Run flds st0 (takeNotice n s) := by
  refine .lift ?_ hz hw
  unfold takeNotice
  repeat' (first
    | with_reducible assumption
    | with_reducible exact Run.refl _ _
    | (extract_lets +onlyGivenNames x
       first | (apply Run.cut (x := x); rotate_left 1; intro h; clear_value x; rotate_left 1; subst x) | clear_value x)
    | with_reducible apply extendCommands_run
    | split
    | decide
    | (with_reducible refine Run.mk_upd rfl ?_ ?_ rfl rfl rfl rfl rfl
       rotate_left 1; exact (fun f hf => by cases f <;> first | exact absurd hf (by decide) | exact Eq.refl _)))

theorem sendNotice_run (breach : Bool) (step da amount code origin task red queue : Nat) (s : State) (hz : Run flds st0 s) (hw :
    [.out, .hostA, .hostB, .i3c, .warden, .seq, .log, .job, .exec, .fabric, .twin].all flds.contains = true) : Run flds st0
    (sendNotice breach step da amount code origin task red queue s) := by
  refine .lift ?_ hz hw
  unfold sendNotice
  repeat' (first
    | with_reducible assumption
    | with_reducible exact Run.refl _ _
    | (extract_lets +onlyGivenNames x
       first | (apply Run.cut (x := x); rotate_left 1; intro h; clear_value x; rotate_left 1; subst x) | clear_value x)
    | with_reducible apply bcastMsg_run
    | with_reducible apply logNotice_run
    | with_reducible apply takeNotice_run
    | split
    | decide)

theorem plainNotice_run (code : Nat) (s : State) (hz : Run flds st0 s) (hw : [.out, .hostA, .hostB, .i3c, .warden, .seq, .log,
    .job, .exec, .fabric, .twin].all flds.contains = true) : Run flds st0 (plainNotice code s) := by
  refine .lift ?_ hz hw
  unfold plainNotice
  repeat' (first
    | with_reducible assumption
    | with_reducible exact Run.refl _ _
    | with_reducible apply sendNotice_run
    | decide)

theorem endRunTime_run (s : State) (hz : Run flds st0 s) (hw : [.twin].all flds.contains = true) : Run flds st0 (endRunTime s)
    := by
  refine .lift ?_ hz hw
  unfold endRunTime
  repeat' (first
    | with_reducible assumption
    | with_reducible exact Run.refl _ _
    | (extract_lets +onlyGivenNames x
       first | (apply Run.cut (x := x); rotate_left 1; intro h; clear_value x; rotate_left 1; subst x) | clear_value x)
    | decide
    | (with_reducible refine Run.mk_upd rfl ?_ ?_ rfl rfl rfl rfl rfl
       rotate_left 1; exact (fun f hf => by cases f <;> first | exact absurd hf (by decide) | exact Eq.refl _)))

theorem noteFailure_run (s : State) (hz : Run flds st0 s) (hw : [.twin].all flds.contains = true) : Run flds st0 (noteFailure s)
    := by
  refine .lift ?_ hz hw
  unfold noteFailure
  repeat' (first
    | with_reducible assumption
    | with_reducible exact Run.refl _ _
    | (extract_lets +onlyGivenNames x
       first | (apply Run.cut (x := x); rotate_left 1; intro h; clear_value x; rotate_left 1; subst x) | clear_value x)
    | split
    | decide
    | (with_reducible refine Run.mk_upd rfl ?_ ?_ rfl rfl rfl rfl rfl
       rotate_left 1; exact (fun f hf => by cases f <;> first | exact absurd hf (by decide) | exact Eq.refl _)))

theorem abortSlot_run (s : State) (hz : Run flds st0 s) (hw : [.inspect].all flds.contains = true) : Run flds st0 (abortSlot s)
    := by
  refine .lift ?_ hz hw
  unfold abortSlot
  repeat' (first
    | with_reducible assumption
    | with_reducible exact Run.refl _ _
    | (extract_lets +onlyGivenNames x
       first | (apply Run.cut (x := x); rotate_left 1; intro h; clear_value x; rotate_left 1; subst x) | clear_value x)
    | split
    | decide
    | (with_reducible refine Run.mk_upd rfl ?_ ?_ rfl rfl rfl rfl rfl
       rotate_left 1; exact (fun f hf => by cases f <;> first | exact absurd hf (by decide) | exact Eq.refl _)))

theorem abandonTasks_run (s : State) (hz : Run flds st0 s) (hw : [.out, .exec, .cores, .memStacks].all flds.contains = true) :
    Run flds st0 (abandonTasks s) := by
  refine .lift ?_ hz hw
  unfold abandonTasks
  repeat' (first
    | with_reducible assumption
    | with_reducible exact Run.refl _ _
    | (extract_lets +onlyGivenNames x
       first | (apply Run.cut (x := x); rotate_left 1; intro h; clear_value x; rotate_left 1; subst x) | clear_value x)
    | with_reducible apply dropWatches_run
    | decide
    | (with_reducible refine Run.mk_upd rfl ?_ ?_ rfl rfl rfl rfl rfl
       rotate_left 1; exact (fun f hf => by cases f <;> first | exact absurd hf (by decide) | exact Eq.refl _)))

theorem overtake_run (status fault : Nat) (s : State) (hz : Run flds st0 s) (hw : [.warden, .job, .twin].all flds.contains =
    true) : Run flds st0 (overtake status fault s) := by
  refine .lift ?_ hz hw
  unfold overtake
  repeat' (first
    | with_reducible assumption
    | with_reducible exact Run.refl _ _
    | (extract_lets +onlyGivenNames x
       first | (apply Run.cut (x := x); rotate_left 1; intro h; clear_value x; rotate_left 1; subst x) | clear_value x)
    | with_reducible apply endOp_run
    | decide
    | (with_reducible refine Run.mk_upd rfl ?_ ?_ rfl rfl rfl rfl rfl
       rotate_left 1; exact (fun f hf => by cases f <;> first | exact absurd hf (by decide) | exact Eq.refl _)))

theorem failPackage_run (code status fault : Nat) (s : State) (hz : Run flds st0 s) (hw : [.out, .hostA, .hostB, .warden, .seq,
    .log, .job, .exec, .cores, .memStacks, .fabric, .twin, .inspect].all flds.contains = true) : Run flds st0 (failPackage code
    status fault s) := by
  refine .lift ?_ hz hw
  unfold failPackage
  repeat' (first
    | with_reducible assumption
    | with_reducible exact Run.refl _ _
    | (extract_lets +onlyGivenNames x
       first | (apply Run.cut (x := x); rotate_left 1; intro h; clear_value x; rotate_left 1; subst x) | clear_value x)
    | with_reducible apply setJob_run
    | with_reducible apply peerBcast_run
    | with_reducible apply noteFailure_run
    | with_reducible apply abortSlot_run
    | with_reducible apply abandonTasks_run
    | with_reducible apply overtake_run
    | split
    | decide
    | (with_reducible refine Run.mk_upd rfl ?_ ?_ rfl rfl rfl rfl rfl
       rotate_left 1; exact (fun f hf => by cases f <;> first | exact absurd hf (by decide) | exact Eq.refl _)))

theorem receiveFail_run (id code : Nat) (s : State) (hz : Run flds st0 s) (hw : [.out, .hostA, .hostB, .warden, .seq, .log,
    .job, .exec, .cores, .memStacks, .twin, .inspect].all flds.contains = true) : Run flds st0 (receiveFail id code s) := by
  refine .lift ?_ hz hw
  unfold receiveFail
  repeat' (first
    | with_reducible assumption
    | with_reducible exact Run.refl _ _
    | (extract_lets +onlyGivenNames x
       first | (apply Run.cut (x := x); rotate_left 1; intro h; clear_value x; rotate_left 1; subst x) | clear_value x)
    | with_reducible apply logEv_run
    | with_reducible apply setJob_run
    | with_reducible apply noteFailure_run
    | with_reducible apply abortSlot_run
    | with_reducible apply abandonTasks_run
    | with_reducible apply overtake_run
    | split
    | decide
    | (with_reducible refine Run.mk_upd rfl ?_ ?_ rfl rfl rfl rfl rfl
       rotate_left 1; exact (fun f hf => by cases f <;> first | exact absurd hf (by decide) | exact Eq.refl _)))

theorem reportOther_run (id code : Nat) (s : State) (hz : Run flds st0 s) (hw : [.out, .hostA, .hostB, .warden, .seq, .log,
    .job, .exec, .cores, .memStacks, .fabric, .twin, .inspect].all flds.contains = true) : Run flds st0 (reportOther id code s)
    := by
  refine .lift ?_ hz hw
  unfold reportOther
  repeat' (first
    | with_reducible assumption
    | with_reducible exact Run.refl _ _
    | with_reducible apply peerBcast_run
    | with_reducible apply receiveFail_run
    | decide)

theorem failHere_run (code : Nat) (s : State) (hz : Run flds st0 s) (hw : [.out, .hostA, .hostB, .warden, .seq, .log, .job,
    .exec, .cores, .memStacks, .fabric, .twin, .inspect].all flds.contains = true) : Run flds st0 (failHere code s) := by
  refine .lift ?_ hz hw
  unfold failHere
  repeat' (first
    | with_reducible assumption
    | with_reducible exact Run.refl _ _
    | with_reducible apply failPackage_run
    | decide)

theorem answerErr_run (who : Requester) (id : Nat) (s : State) (hz : Run flds st0 s) (hw : [.out].all flds.contains = true) :
    Run flds st0 (answerErr who id s) := by
  refine .lift ?_ hz hw
  unfold answerErr
  repeat' (first
    | with_reducible assumption
    | with_reducible exact Run.refl _ _
    | with_reducible apply emit_run
    | decide)

end Sys2Proof.Laws
end

