-- ==== Sys2Proof/Laws/RunExecOps.lean ====
section
/-! SUPPORT. What the operations may change: one lemma for each operation of Sys2Proof/Machine/ExecOps.lean. -/

set_option linter.unusedTactic false
set_option linter.unreachableTactic false

namespace Sys2Proof.Laws

open Machine

variable {flds : List StateField} {st0 : State}

theorem setRun_run (r : TaskRun) (s : State) (hz : Run flds st0 s) (hw : [.exec].all flds.contains = true) : Run flds st0
    (setRun r s) := by
  refine .lift ?_ hz hw
  unfold setRun
  repeat' (first
    | with_reducible assumption
    | with_reducible exact Run.refl _ _
    | (extract_lets +onlyGivenNames x
       first | (apply Run.cut (x := x); rotate_left 1; intro h; clear_value x; rotate_left 1; subst x) | clear_value x)
    | decide
    | (with_reducible refine Run.mk_upd rfl ?_ ?_ rfl rfl rfl rfl rfl
       rotate_left 1; exact (fun f hf => by cases f <;> first | exact absurd hf (by decide) | exact Eq.refl _)))

theorem setRed_run (r : RedRun) (s : State) (hz : Run flds st0 s) (hw : [.exec].all flds.contains = true) : Run flds st0 (setRed
    r s) := by
  refine .lift ?_ hz hw
  unfold setRed
  repeat' (first
    | with_reducible assumption
    | with_reducible exact Run.refl _ _
    | (extract_lets +onlyGivenNames x
       first | (apply Run.cut (x := x); rotate_left 1; intro h; clear_value x; rotate_left 1; subst x) | clear_value x)
    | decide
    | (with_reducible refine Run.mk_upd rfl ?_ ?_ rfl rfl rfl rfl rfl
       rotate_left 1; exact (fun f hf => by cases f <;> first | exact absurd hf (by decide) | exact Eq.refl _)))

theorem discardRuns_run (step : Nat) (ts : List Nat) (s : State) (hz : Run flds st0 s) (hw : [.out, .exec, .cores,
    .memStacks].all flds.contains = true) : Run flds st0 (discardRuns step ts s) := by
  refine .lift ?_ hz hw
  unfold discardRuns
  repeat' (first
    | with_reducible assumption
    | with_reducible exact Run.refl _ _
    | (extract_lets +onlyGivenNames x
       first | (apply Run.cut (x := x); rotate_left 1; intro h; clear_value x; rotate_left 1; subst x) | clear_value x)
    | with_reducible apply dropWatches_run
    | split
    | decide
    | (with_reducible refine Run.mk_upd rfl ?_ ?_ rfl rfl rfl rfl rfl
       rotate_left 1; exact (fun f hf => by cases f <;> first | exact absurd hf (by decide) | exact Eq.refl _)))

theorem copyStore_run (d from_ to_ : Nat) (s : State) (hz : Run flds st0 s) (hw : [.coreStore].all flds.contains = true) :
    Run flds st0 (copyStore d from_ to_ s) := by
  refine .lift ?_ hz hw
  unfold copyStore
  extract_lets lo cells m
  with_reducible refine Run.mk_mem rfl ?_ ?_ rfl rfl ?_ ?_ rfl
  · exact Run.refl _ _
  · exact (fun f hf => by cases f <;> first | exact absurd hf (by decide) | exact Eq.refl _)
  · exact id
  · exact fun h => memSet_foldl_wf (memClear_wf h)

theorem handTo_run (d : Fin 4) (lc c : Nat) (s : State) (hz : Run flds st0 s) (hw : [.dies, .coreStore].all flds.contains =
    true) : Run flds st0 (handTo d lc c s) := by
  refine .lift ?_ hz hw
  unfold handTo
  repeat' (first
    | with_reducible assumption
    | with_reducible exact Run.refl _ _
    | (extract_lets +onlyGivenNames x
       first | (apply Run.cut (x := x); rotate_left 1; intro h; clear_value x; rotate_left 1; subst x) | clear_value x)
    | with_reducible apply modDie_run
    | with_reducible apply copyStore_run
    | decide
    | (with_reducible refine Run.mk_upd rfl ?_ ?_ rfl rfl rfl rfl rfl
       rotate_left 1; exact (fun f hf => by cases f <;> first | exact absurd hf (by decide) | exact Eq.refl _)))

theorem mapOut_run (d : Fin 4) (c srce : Nat) (s : State) (hz : Run flds st0 s) (hw : [.out, .hostA, .hostB, .warden, .seq,
    .log, .job, .exec, .dies, .cores, .coreStore, .memStacks, .fabric, .twin, .flash, .inspect].all flds.contains = true) : Run
    flds st0 (mapOut d c srce s) := by
  refine .lift ?_ hz hw
  unfold mapOut
  repeat' (first
    | with_reducible assumption
    | with_reducible exact Run.refl _ _
    | (extract_lets +onlyGivenNames x
       first | (apply Run.cut (x := x); rotate_left 1; intro h; clear_value x; rotate_left 1; subst x) | clear_value x)
    | with_reducible apply modDie_run
    | with_reducible apply logEv_run
    | with_reducible apply ledgerAppend_run
    | with_reducible apply modCore_run
    | with_reducible apply failHere_run
    | with_reducible apply handTo_run
    | split
    | decide
    | (with_reducible refine Run.mk_upd rfl ?_ ?_ rfl rfl rfl rfl rfl
       rotate_left 1; exact (fun f hf => by cases f <;> first | exact absurd hf (by decide) | exact Eq.refl _)))

theorem enableRelief_run (d : Fin 4) (s : State) (hz : Run flds st0 s) (hw : [.dies, .flash].all flds.contains = true) : Run
    flds st0 (enableRelief d s) := by
  refine .lift ?_ hz hw
  unfold enableRelief
  repeat' (first
    | with_reducible assumption
    | with_reducible exact Run.refl _ _
    | (extract_lets +onlyGivenNames x
       first | (apply Run.cut (x := x); rotate_left 1; intro h; clear_value x; rotate_left 1; subst x) | clear_value x)
    | with_reducible apply modDie_run
    | with_reducible apply ledgerAppend_run
    | split
    | decide
    | (with_reducible refine Run.mk_upd rfl ?_ ?_ rfl rfl rfl rfl rfl
       rotate_left 1; exact (fun f hf => by cases f <;> first | exact absurd hf (by decide) | exact Eq.refl _)))

theorem recordTransient_run (d c : Nat) (s : State) (hz : Run flds st0 s) (hw : [.out, .hostA, .hostB, .seq, .log, .flash].all
    flds.contains = true) : Run flds st0 (recordTransient d c s) := by
  refine .lift ?_ hz hw
  unfold recordTransient
  repeat' (first
    | with_reducible assumption
    | with_reducible exact Run.refl _ _
    | (extract_lets +onlyGivenNames x
       first | (apply Run.cut (x := x); rotate_left 1; intro h; clear_value x; rotate_left 1; subst x) | clear_value x)
    | with_reducible apply logEv_run
    | with_reducible apply ledgerAppend_run
    | split
    | decide)

end Sys2Proof.Laws
end

