-- ==== Sys2Proof/Laws/RunMemPath.lean ====
section
/-! SUPPORT. What the operations may change: one lemma for each operation of Sys2Proof/Machine/MemPath.lean. -/

set_option linter.unusedTactic false
set_option linter.unreachableTactic false

namespace Sys2Proof.Laws

open Machine

variable {flds : List StateField} {st0 : State}

theorem writeBack_run (i : Fin 32) (ln : Nat) (data : Bytes) (s : State) (hz : Run flds st0 s) (hw : [.memStacks, .mem].all
    flds.contains = true) : Run flds st0 (writeBack i ln data s) := by
  refine .lift ?_ hz hw
  unfold writeBack
  repeat' (first
    | with_reducible assumption
    | with_reducible exact Run.refl _ _
    | (extract_lets +onlyGivenNames x
       first | (apply Run.cut (x := x); rotate_left 1; intro h; clear_value x; rotate_left 1; subst x) | clear_value x)
    | with_reducible apply modStack_run
    | decide
    | (with_reducible refine Run.mk_mem rfl ?_ ?_ rfl rfl ?_ ?_ rfl
       rotate_left 1; exact (fun f hf => by cases f <;> first | exact absurd hf (by decide) | exact Eq.refl _)
       all_goals first | exact id | exact memWrite_wf | exact memClear_wf | exact memSet_foldl_wf | exact memWrite_foldl_wf | exact fun _ => rfl | skip))

theorem cacheInsert_run (i : Fin 32) (l : CacheLine) (mru : Bool) (s : State) (hz : Run flds st0 s) (hw : [.memStacks, .mem].all
    flds.contains = true) : Run flds st0 (cacheInsert i l mru s) := by
  refine .lift ?_ hz hw
  unfold cacheInsert
  repeat' (first
    | with_reducible assumption
    | with_reducible exact Run.refl _ _
    | (extract_lets +onlyGivenNames x
       first | (apply Run.cut (x := x); rotate_left 1; intro h; clear_value x; rotate_left 1; subst x) | clear_value x)
    | with_reducible apply modStack_run
    | with_reducible apply writeBack_run
    | split
    | decide
    | (with_reducible refine Run.mk_upd rfl ?_ ?_ rfl rfl rfl rfl rfl
       rotate_left 1; exact (fun f hf => by cases f <;> first | exact absurd hf (by decide) | exact Eq.refl _)))

theorem cacheRemove_run (i : Fin 32) (ln : Nat) (s : State) (hz : Run flds st0 s) (hw : [.memStacks].all flds.contains = true) :
    Run flds st0 (cacheRemove i ln s) := by
  refine .lift ?_ hz hw
  unfold cacheRemove
  repeat' (first
    | with_reducible assumption
    | with_reducible exact Run.refl _ _
    | (extract_lets +onlyGivenNames x
       first | (apply Run.cut (x := x); rotate_left 1; intro h; clear_value x; rotate_left 1; subst x) | clear_value x)
    | with_reducible apply modStack_run
    | split
    | decide
    | (with_reducible refine Run.mk_upd rfl ?_ ?_ rfl rfl rfl rfl rfl
       rotate_left 1; exact (fun f hf => by cases f <;> first | exact absurd hf (by decide) | exact Eq.refl _)))

theorem cacheUpdate_run (i : Fin 32) (ln : Nat) (data : Bytes) (s : State) (hz : Run flds st0 s) (hw : [.memStacks].all
    flds.contains = true) : Run flds st0 (cacheUpdate i ln data s) := by
  refine .lift ?_ hz hw
  unfold cacheUpdate
  repeat' (first
    | with_reducible assumption
    | with_reducible exact Run.refl _ _
    | (extract_lets +onlyGivenNames x
       first | (apply Run.cut (x := x); rotate_left 1; intro h; clear_value x; rotate_left 1; subst x) | clear_value x)
    | with_reducible apply modStack_run
    | split
    | decide
    | (with_reducible refine Run.mk_upd rfl ?_ ?_ rfl rfl rfl rfl rfl
       rotate_left 1; exact (fun f hf => by cases f <;> first | exact absurd hf (by decide) | exact Eq.refl _)))

theorem cacheRead_run (i : Fin 32) (ln : Nat) (h : Hint) (s : State) (hz : Run flds st0 s) (hw : [.memStacks, .mem].all
    flds.contains = true) : Run flds st0 (cacheRead i ln h s).2 := by
  refine .lift ?_ hz hw
  unfold cacheRead
  repeat' (first
    | with_reducible assumption
    | with_reducible exact Run.refl _ _
    | (extract_lets +onlyGivenNames x
       first | (apply Run.cut (x := x); rotate_left 1; intro h; clear_value x; rotate_left 1; subst x) | clear_value x)
    | with_reducible apply writeBack_run
    | with_reducible apply cacheInsert_run
    | with_reducible apply cacheRemove_run
    | dsimp only
    | split
    | decide
    | (with_reducible refine Run.mk_upd rfl ?_ ?_ rfl rfl rfl rfl rfl
       rotate_left 1; exact (fun f hf => by cases f <;> first | exact absurd hf (by decide) | exact Eq.refl _)))

theorem cacheWrite_run (i : Fin 32) (a : Nat) (data : Bytes) (h : Hint) (s : State) (hz : Run flds st0 s) (hw : [.memStacks,
    .mem].all flds.contains = true) : Run flds st0 (cacheWrite i a data h s) := by
  refine .lift ?_ hz hw
  unfold cacheWrite
  repeat' (first
    | with_reducible assumption
    | with_reducible exact Run.refl _ _
    | (extract_lets +onlyGivenNames x
       first | (apply Run.cut (x := x); rotate_left 1; intro h; clear_value x; rotate_left 1; subst x) | clear_value x)
    | with_reducible apply cacheInsert_run
    | decide)

theorem narrowWrite_run (i : Fin 32) (a : Nat) (data : Bytes) (s : State) (hz : Run flds st0 s) (hw : [.memStacks, .mem].all
    flds.contains = true) : Run flds st0 (narrowWrite i a data s) := by
  refine .lift ?_ hz hw
  unfold narrowWrite
  repeat' (first
    | with_reducible assumption
    | with_reducible exact Run.refl _ _
    | (extract_lets +onlyGivenNames x
       first | (apply Run.cut (x := x); rotate_left 1; intro h; clear_value x; rotate_left 1; subst x) | clear_value x)
    | with_reducible apply modStack_run
    | with_reducible apply cacheUpdate_run
    | split
    | decide
    | (with_reducible refine Run.mk_mem rfl ?_ ?_ rfl rfl ?_ ?_ rfl
       rotate_left 1; exact (fun f hf => by cases f <;> first | exact absurd hf (by decide) | exact Eq.refl _)
       all_goals first | exact id | exact memWrite_wf | exact memClear_wf | exact memSet_foldl_wf | exact memWrite_foldl_wf | exact fun _ => rfl | skip))

theorem markStale_run (i : Fin 32) (addr len : Nat) (s : State) (hz : Run flds st0 s) (hw : [.out, .memStacks].all flds.contains
    = true) : Run flds st0 (markStale i addr len s) := by
  refine .lift ?_ hz hw
  unfold markStale
  repeat' (first
    | with_reducible assumption
    | with_reducible exact Run.refl _ _
    | (extract_lets +onlyGivenNames x
       first | (apply Run.cut (x := x); rotate_left 1; intro h; clear_value x; rotate_left 1; subst x) | clear_value x)
    | with_reducible apply modStack_run
    | with_reducible apply emitAll_run
    | decide
    | (with_reducible refine Run.mk_upd rfl ?_ ?_ rfl rfl rfl rfl rfl
       rotate_left 1; exact (fun f hf => by cases f <;> first | exact absurd hf (by decide) | exact Eq.refl _)))

theorem withhold_run (i : Fin 32) (addr len : Nat) (k : WAck) (s : State) (hz : Run flds st0 s) (hw : [.memStacks].all
    flds.contains = true) : Run flds st0 (withhold i addr len k s) := by
  refine .lift ?_ hz hw
  unfold withhold
  repeat' (first
    | with_reducible assumption
    | with_reducible exact Run.refl _ _
    | (extract_lets +onlyGivenNames x
       first | (apply Run.cut (x := x); rotate_left 1; intro h; clear_value x; rotate_left 1; subst x) | clear_value x)
    | with_reducible apply modStack_run
    | decide
    | (with_reducible refine Run.mk_upd rfl ?_ ?_ rfl rfl rfl rfl rfl
       rotate_left 1; exact (fun f hf => by cases f <;> first | exact absurd hf (by decide) | exact Eq.refl _)))

theorem dmaRead_run (h : Hint) (n a k : Nat) (s : State) (hz : Run flds st0 s) (hw : [.memStacks, .mem].all flds.contains = true) :
    Run flds st0 (dmaRead h n a k s).2 := by
  induction n generalizing a k s with
  | zero => exact hz
  | succ n ih =>
    unfold dmaRead
    split
    · exact hz
    · split
      · exact ih _ _ _ (cacheRead_run _ _ _ _ hz hw)
      · exact hz

theorem dmaWrite_run (h : Hint) (a : Nat) (data : Bytes) (s : State) (hz : Run flds st0 s) (hw : [.out, .memStacks, .mem].all
    flds.contains = true) : Run flds st0 (dmaWrite h a data s) := by
  refine .lift ?_ hz hw
  unfold dmaWrite
  repeat' (first
    | with_reducible assumption
    | with_reducible exact Run.refl _ _
    | (extract_lets +onlyGivenNames x
       first | (apply Run.cut (x := x); rotate_left 1; intro h; clear_value x; rotate_left 1; subst x) | clear_value x)
    | with_reducible apply cacheWrite_run
    | with_reducible apply markStale_run
    | (with_reducible apply Run.foldl; rotate_left 1; intro e x h)
    | split
    | decide
    | (with_reducible refine Run.mk_mem rfl ?_ ?_ rfl rfl ?_ ?_ rfl
       rotate_left 1; exact (fun f hf => by cases f <;> first | exact absurd hf (by decide) | exact Eq.refl _)
       all_goals first | exact id | exact memWrite_wf | exact memClear_wf | exact memSet_foldl_wf | exact memWrite_foldl_wf | exact fun _ => rfl | skip))

theorem touch_run (h : Hint) (a n : Nat) (s : State) (hz : Run flds st0 s) (hw : [.memStacks, .mem].all flds.contains = true) :
    Run flds st0 (touch h a n s) := by
  refine .lift ?_ hz hw
  unfold touch
  repeat' (first
    | with_reducible assumption
    | with_reducible exact Run.refl _ _
    | with_reducible apply dmaRead_run
    | (split; rename_i r x heq; obtain rfl : (_ : State) = x := congrArg Prod.snd heq)
    | decide)

theorem physWrite_run (a : Nat) (data : Bytes) (s : State) (hz : Run flds st0 s) (hw : [.out, .memStacks, .mem].all
    flds.contains = true) : Run flds st0 (physWrite a data s) := by
  refine .lift ?_ hz hw
  unfold physWrite
  repeat' (first
    | with_reducible assumption
    | with_reducible exact Run.refl _ _
    | with_reducible apply dmaWrite_run
    | decide)

theorem storeWrite_run (d c off : Nat) (data : Bytes) (s : State) (hz : Run flds st0 s) (hw : [.coreStore].all flds.contains =
    true) : Run flds st0 (storeWrite d c off data s) := by
  refine .lift ?_ hz hw
  unfold storeWrite
  repeat' (first
    | with_reducible assumption
    | with_reducible exact Run.refl _ _
    | (extract_lets +onlyGivenNames x
       first | (apply Run.cut (x := x); rotate_left 1; intro h; clear_value x; rotate_left 1; subst x) | clear_value x)
    | decide
    | (with_reducible refine Run.mk_mem rfl ?_ ?_ rfl rfl ?_ ?_ rfl
       rotate_left 1; exact (fun f hf => by cases f <;> first | exact absurd hf (by decide) | exact Eq.refl _)
       all_goals first | exact id | exact memWrite_wf | exact memClear_wf | exact memSet_foldl_wf | exact memWrite_foldl_wf | exact fun _ => rfl | skip))

theorem zeroStores_run (d : Nat) (s : State) (hz : Run flds st0 s) (hw : [.coreStore].all flds.contains = true) : Run flds st0
    (zeroStores d s) := by
  refine .lift ?_ hz hw
  unfold zeroStores
  repeat' (first
    | with_reducible assumption
    | with_reducible exact Run.refl _ _
    | (extract_lets +onlyGivenNames x
       first | (apply Run.cut (x := x); rotate_left 1; intro h; clear_value x; rotate_left 1; subst x) | clear_value x)
    | decide
    | (with_reducible refine Run.mk_mem rfl ?_ ?_ rfl rfl ?_ ?_ rfl
       rotate_left 1; exact (fun f hf => by cases f <;> first | exact absurd hf (by decide) | exact Eq.refl _)
       all_goals first | exact id | exact memWrite_wf | exact memClear_wf | exact memSet_foldl_wf | exact memWrite_foldl_wf | exact fun _ => rfl | skip))

theorem flushCache_run (i : Fin 32) (s : State) (hz : Run flds st0 s) (hw : [.memStacks, .mem].all flds.contains = true) : Run
    flds st0 (flushCache i s) := by
  refine .lift ?_ hz hw
  unfold flushCache
  repeat' (first
    | with_reducible assumption
    | with_reducible exact Run.refl _ _
    | (extract_lets +onlyGivenNames x
       first | (apply Run.cut (x := x); rotate_left 1; intro h; clear_value x; rotate_left 1; subst x) | clear_value x)
    | with_reducible apply modStack_run
    | (with_reducible apply Run.foldl; rotate_left 1; intro e x h)
    | decide
    | (with_reducible refine Run.mk_mem rfl ?_ ?_ rfl rfl ?_ ?_ rfl
       rotate_left 1; exact (fun f hf => by cases f <;> first | exact absurd hf (by decide) | exact Eq.refl _)
       all_goals first | exact id | exact memWrite_wf | exact memClear_wf | exact memSet_foldl_wf | exact memWrite_foldl_wf | exact fun _ => rfl | skip))

theorem invalidateCache_run (i : Fin 32) (s : State) (hz : Run flds st0 s) (hw : [.memStacks].all flds.contains = true) : Run
    flds st0 (invalidateCache i s) := by
  refine .lift ?_ hz hw
  unfold invalidateCache
  repeat' (first
    | with_reducible assumption
    | with_reducible exact Run.refl _ _
    | (extract_lets +onlyGivenNames x
       first | (apply Run.cut (x := x); rotate_left 1; intro h; clear_value x; rotate_left 1; subst x) | clear_value x)
    | with_reducible apply modStack_run
    | decide
    | (with_reducible refine Run.mk_upd rfl ?_ ?_ rfl rfl rfl rfl rfl
       rotate_left 1; exact (fun f hf => by cases f <;> first | exact absurd hf (by decide) | exact Eq.refl _)))

theorem zeroStack_run (i : Fin 32) (s : State) (hz : Run flds st0 s) (hw : [.memStacks, .mem].all flds.contains = true) : Run
    flds st0 (zeroStack i s) := by
  refine .lift ?_ hz hw
  unfold zeroStack
  repeat' (first
    | with_reducible assumption
    | with_reducible exact Run.refl _ _
    | (extract_lets +onlyGivenNames x
       first | (apply Run.cut (x := x); rotate_left 1; intro h; clear_value x; rotate_left 1; subst x) | clear_value x)
    | with_reducible apply invalidateCache_run
    | decide
    | (with_reducible refine Run.mk_mem rfl ?_ ?_ rfl rfl ?_ ?_ rfl
       rotate_left 1; exact (fun f hf => by cases f <;> first | exact absurd hf (by decide) | exact Eq.refl _)
       all_goals first | exact id | exact memWrite_wf | exact memClear_wf | exact memSet_foldl_wf | exact memWrite_foldl_wf | exact fun _ => rfl | skip))

theorem ptrWriteH_run (h : Hint) (at_ : Place) (p off : Nat) (data : Bytes) (s : State) (hz : Run flds st0 s) (hw : [.out,
    .coreStore, .memStacks, .mem].all flds.contains = true) : Run flds st0 (ptrWriteH h at_ p off data s) := by
  refine .lift ?_ hz hw
  unfold ptrWriteH
  repeat' (first
    | with_reducible assumption
    | with_reducible exact Run.refl _ _
    | with_reducible apply dmaWrite_run
    | with_reducible apply storeWrite_run
    | split
    | decide
    | (with_reducible refine Run.mk_upd rfl ?_ ?_ rfl rfl rfl rfl rfl
       rotate_left 1; exact (fun f hf => by cases f <;> first | exact absurd hf (by decide) | exact Eq.refl _)))

theorem ptrWrite_run (at_ : Place) (p off : Nat) (data : Bytes) (s : State) (hz : Run flds st0 s) (hw : [.out, .coreStore,
    .memStacks, .mem].all flds.contains = true) : Run flds st0 (ptrWrite at_ p off data s) := by
  refine .lift ?_ hz hw
  unfold ptrWrite
  repeat' (first
    | with_reducible assumption
    | with_reducible exact Run.refl _ _
    | with_reducible apply ptrWriteH_run
    | decide)

end Sys2Proof.Laws
end

