-- ==== Sys2Proof/Laws/RunCollective.lean ====
section
/-! SUPPORT. What the operations may change: one lemma for each operation of Sys2Proof/Machine/Collective.lean. -/

set_option linter.unusedTactic false
set_option linter.unreachableTactic false

namespace Sys2Proof.Laws

open Machine

variable {flds : List StateField} {st0 : State}

theorem sendElems_run (type : Nat) (r : PlanEntry) (q : RedRun) (l : Level) (p : Piece) (last : Bool) (s : State) (hz : Run flds
    st0 s) (hw : [.out, .fabric].all flds.contains = true) : Run flds st0 (sendElems type r q l p last s) := by
  refine .lift ?_ hz hw
  unfold sendElems
  repeat' (first
    | with_reducible assumption
    | with_reducible exact Run.refl _ _
    | (extract_lets +onlyGivenNames x
       first | (apply Run.cut (x := x); rotate_left 1; intro h; clear_value x; rotate_left 1; subst x) | clear_value x)
    | with_reducible apply sendLog_run
    | decide
    | (with_reducible refine Run.mk_upd rfl ?_ ?_ rfl rfl rfl rfl rfl
       rotate_left 1; exact (fun f hf => by cases f <;> first | exact absurd hf (by decide) | exact Eq.refl _)))

theorem setScale_run (slot step : Nat) (v : Int) (s : State) (hz : Run flds st0 s) (hw : [.exec].all flds.contains = true) : Run
    flds st0 (setScale slot step v s) := by
  refine .lift ?_ hz hw
  unfold setScale
  repeat' (first
    | with_reducible assumption
    | with_reducible exact Run.refl _ _
    | (extract_lets +onlyGivenNames x
       first | (apply Run.cut (x := x); rotate_left 1; intro h; clear_value x; rotate_left 1; subst x) | clear_value x)
    | decide
    | (with_reducible refine Run.mk_upd rfl ?_ ?_ rfl rfl rfl rfl rfl
       rotate_left 1; exact (fun f hf => by cases f <;> first | exact absurd hf (by decide) | exact Eq.refl _)))

theorem sendStage_run (r : PlanEntry) (step : Nat) (s : State) (hz : Run flds st0 s) (hw : [.out, .exec, .fabric].all
    flds.contains = true) : Run flds st0 (sendStage r step s) := by
  refine .lift ?_ hz hw
  unfold sendStage
  repeat' (first
    | with_reducible assumption
    | with_reducible exact Run.refl _ _
    | (extract_lets +onlyGivenNames x
       first | (apply Run.cut (x := x); rotate_left 1; intro h; clear_value x; rotate_left 1; subst x) | clear_value x)
    | with_reducible apply sendLog_run
    | with_reducible apply setRed_run
    | (with_reducible apply Run.foldl; rotate_left 1; intro e x h)
    | split
    | decide
    | (with_reducible refine Run.mk_upd rfl ?_ ?_ rfl rfl rfl rfl rfl
       rotate_left 1; exact (fun f hf => by cases f <;> first | exact absurd hf (by decide) | exact Eq.refl _)))

theorem runScale_run (r : PlanEntry) (step : Nat) (s : State) (hz : Run flds st0 s) (hw : [.out, .exec, .fabric].all
    flds.contains = true) : Run flds st0 (runScale r step s) := by
  refine .lift ?_ hz hw
  unfold runScale
  repeat' (first
    | with_reducible assumption
    | with_reducible exact Run.refl _ _
    | (extract_lets +onlyGivenNames x
       first | (apply Run.cut (x := x); rotate_left 1; intro h; clear_value x; rotate_left 1; subst x) | clear_value x)
    | with_reducible apply setScale_run
    | with_reducible apply sendStage_run
    | (with_reducible apply Run.iter; rotate_left 1; intro x h)
    | split
    | decide)

theorem checkEnd_run (r : PlanEntry) (step : Nat) (s : State) (hz : Run flds st0 s) (hw : [.exec].all flds.contains = true) :
    Run flds st0 (checkEnd r step s) := by
  refine .lift ?_ hz hw
  unfold checkEnd
  repeat' (first
    | with_reducible assumption
    | with_reducible exact Run.refl _ _
    | (extract_lets +onlyGivenNames x
       first | (apply Run.cut (x := x); rotate_left 1; intro h; clear_value x; rotate_left 1; subst x) | clear_value x)
    | with_reducible apply setRed_run
    | split
    | decide
    | (with_reducible refine Run.mk_upd rfl ?_ ?_ rfl rfl rfl rfl rfl
       rotate_left 1; exact (fun f hf => by cases f <;> first | exact absurd hf (by decide) | exact Eq.refl _)))

theorem landPiece_run (r : PlanEntry) (step : Nat) (p : Piece) (s : State) (hz : Run flds st0 s) (hw : [.out, .hostA, .hostB,
    .seq, .log, .exec, .coreStore, .memStacks, .mem].all flds.contains = true) : Run flds st0 (landPiece r step p s) := by
  refine .lift ?_ hz hw
  unfold landPiece
  repeat' (first
    | with_reducible assumption
    | with_reducible exact Run.refl _ _
    | (extract_lets +onlyGivenNames x
       first | (apply Run.cut (x := x); rotate_left 1; intro h; clear_value x; rotate_left 1; subst x) | clear_value x)
    | with_reducible apply logAccess_run
    | with_reducible apply ptrWrite_run
    | with_reducible apply setRed_run
    | split
    | decide
    | (with_reducible refine Run.mk_upd rfl ?_ ?_ rfl rfl rfl rfl rfl
       rotate_left 1; exact (fun f hf => by cases f <;> first | exact absurd hf (by decide) | exact Eq.refl _)))

theorem sendNext_run (r : PlanEntry) (step i : Nat) (s : State) (hz : Run flds st0 s) (hw : [.out, .exec, .fabric].all
    flds.contains = true) : Run flds st0 (sendNext r step i s) := by
  refine .lift ?_ hz hw
  unfold sendNext
  repeat' (first
    | with_reducible assumption
    | with_reducible exact Run.refl _ _
    | (extract_lets +onlyGivenNames x
       first | (apply Run.cut (x := x); rotate_left 1; intro h; clear_value x; rotate_left 1; subst x) | clear_value x)
    | with_reducible apply setRed_run
    | with_reducible apply sendElems_run
    | split
    | decide
    | (with_reducible refine Run.mk_upd rfl ?_ ?_ rfl rfl rfl rfl rfl
       rotate_left 1; exact (fun f hf => by cases f <;> first | exact absurd hf (by decide) | exact Eq.refl _)))

theorem gatherOn_run (r : PlanEntry) (step : Nat) (p : Piece) (levels : List Nat) (s : State) (hz : Run flds st0 s) (hw : [.out,
    .exec, .fabric].all flds.contains = true) : Run flds st0 (gatherOn r step p levels s) := by
  refine .lift ?_ hz hw
  unfold gatherOn
  repeat' (first
    | with_reducible assumption
    | with_reducible exact Run.refl _ _
    | (extract_lets +onlyGivenNames x
       first | (apply Run.cut (x := x); rotate_left 1; intro h; clear_value x; rotate_left 1; subst x) | clear_value x)
    | with_reducible apply setRed_run
    | with_reducible apply sendNext_run
    | (with_reducible apply Run.foldl; rotate_left 1; intro e x h)
    | (with_reducible apply Run.foldl2; rotate_left 1; intro e x h)
    | (with_reducible apply Run.iter; rotate_left 1; intro x h)
    | decide
    | (with_reducible refine Run.mk_upd rfl ?_ ?_ rfl rfl rfl rfl rfl
       rotate_left 1; exact (fun f hf => by cases f <;> first | exact absurd hf (by decide) | exact Eq.refl _)))

theorem finishPiece_run (r : PlanEntry) (step : Nat) (p : Piece) (s : State) (hz : Run flds st0 s) (hw : [.out, .hostA, .hostB,
    .seq, .log, .exec, .coreStore, .memStacks, .mem, .fabric].all flds.contains = true) : Run flds st0 (finishPiece r step p s)
    := by
  refine .lift ?_ hz hw
  unfold finishPiece
  repeat' (first
    | with_reducible assumption
    | with_reducible exact Run.refl _ _
    | (extract_lets +onlyGivenNames x
       first | (apply Run.cut (x := x); rotate_left 1; intro h; clear_value x; rotate_left 1; subst x) | clear_value x)
    | with_reducible apply setRed_run
    | with_reducible apply runScale_run
    | with_reducible apply checkEnd_run
    | with_reducible apply landPiece_run
    | with_reducible apply gatherOn_run
    | (with_reducible apply Run.foldl; rotate_left 1; intro e x h)
    | decide
    | (with_reducible refine Run.mk_upd rfl ?_ ?_ rfl rfl rfl rfl rfl
       rotate_left 1; exact (fun f hf => by cases f <;> first | exact absurd hf (by decide) | exact Eq.refl _)))

theorem sendRound0_run (r : PlanEntry) (step level : Nat) (s : State) (hz : Run flds st0 s) (hw : [.out, .exec, .fabric].all
    flds.contains = true) : Run flds st0 (sendRound0 r step level s) := by
  refine .lift ?_ hz hw
  unfold sendRound0
  repeat' (first
    | with_reducible assumption
    | with_reducible exact Run.refl _ _
    | (extract_lets +onlyGivenNames x
       first | (apply Run.cut (x := x); rotate_left 1; intro h; clear_value x; rotate_left 1; subst x) | clear_value x)
    | with_reducible apply setRed_run
    | with_reducible apply sendElems_run
    | (with_reducible apply Run.foldl; rotate_left 1; intro e x h)
    | split
    | decide
    | (with_reducible refine Run.mk_upd rfl ?_ ?_ rfl rfl rfl rfl rfl
       rotate_left 1; exact (fun f hf => by cases f <;> first | exact absurd hf (by decide) | exact Eq.refl _)))

theorem workOne_run (r : PlanEntry) (step : Nat) (s : State) (hz : Run flds st0 s) (hw : [.out, .hostA, .hostB, .seq, .log,
    .exec, .gauges, .coreStore, .memStacks, .mem, .fabric].all flds.contains = true) : Run flds st0 (workOne r step s).1 := by
  refine .lift ?_ hz hw
  unfold workOne
  repeat' (first
    | with_reducible assumption
    | with_reducible exact Run.refl _ _
    | (extract_lets +onlyGivenNames x
       first | (apply Run.cut (x := x); rotate_left 1; intro h; clear_value x; rotate_left 1; subst x) | clear_value x)
    | with_reducible apply gaugeIn_run
    | with_reducible apply setRed_run
    | with_reducible apply sendElems_run
    | with_reducible apply finishPiece_run
    | with_reducible apply sendRound0_run
    | dsimp only
    | split
    | decide
    | (with_reducible refine Run.mk_upd rfl ?_ ?_ rfl rfl rfl rfl rfl
       rotate_left 1; exact (fun f hf => by cases f <;> first | exact absurd hf (by decide) | exact Eq.refl _)))

theorem workHeld_run (r : PlanEntry) (step n : Nat) (s : State) (hz : Run flds st0 s)
    (hw : [.out, .hostA, .hostB, .seq, .log, .exec, .gauges, .coreStore, .memStacks, .mem, .fabric].all flds.contains = true) :
    Run flds st0 (workHeld r step n s).1 := by
  induction n generalizing s with
  | zero => exact hz
  | succ n ih =>
    have h1 := workOne_run r step s hz hw
    unfold workHeld
    extract_lets k
    split
    rename_i x bad heq
    rw [heq] at h1
    split
    · exact h1
    · split
      · exact h1
      · exact ih _ h1

theorem ownItem_run (r : PlanEntry) (step : Nat) (p : Piece) (s : State) (hz : Run flds st0 s) (hw : [.out, .hostA, .hostB,
    .seq, .log, .exec, .coreStore, .memStacks, .mem, .fabric].all flds.contains = true) : Run flds st0 (ownItem r step p s) :=
    by
  refine .lift ?_ hz hw
  unfold ownItem
  repeat' (first
    | with_reducible assumption
    | with_reducible exact Run.refl _ _
    | (extract_lets +onlyGivenNames x
       first | (apply Run.cut (x := x); rotate_left 1; intro h; clear_value x; rotate_left 1; subst x) | clear_value x)
    | with_reducible apply checkEnd_run
    | with_reducible apply landPiece_run
    | with_reducible apply gatherOn_run
    | decide
    | (with_reducible refine Run.mk_upd rfl ?_ ?_ rfl rfl rfl rfl rfl
       rotate_left 1; exact (fun f hf => by cases f <;> first | exact absurd hf (by decide) | exact Eq.refl _)))

theorem takeItem_run (r : PlanEntry) (step : Nat) (p : Piece) (i : Nat) (last : Bool) (s : State) (hz : Run flds st0 s) (hw :
    [.out, .hostA, .hostB, .seq, .log, .exec, .coreStore, .memStacks, .mem, .fabric].all flds.contains = true) : Run flds st0
    (takeItem r step p i last s) := by
  refine .lift ?_ hz hw
  unfold takeItem
  repeat' (first
    | with_reducible assumption
    | with_reducible exact Run.refl _ _
    | (extract_lets +onlyGivenNames x
       first | (apply Run.cut (x := x); rotate_left 1; intro h; clear_value x; rotate_left 1; subst x) | clear_value x)
    | with_reducible apply sendElems_run
    | with_reducible apply checkEnd_run
    | with_reducible apply landPiece_run
    | with_reducible apply gatherOn_run
    | split
    | decide
    | (with_reducible refine Run.mk_upd rfl ?_ ?_ rfl rfl rfl rfl rfl
       rotate_left 1; exact (fun f hf => by cases f <;> first | exact absurd hf (by decide) | exact Eq.refl _)))

theorem startOwn_run (r : PlanEntry) (step : Nat) (p : Piece) (s : State) (hz : Run flds st0 s) (hw : [.out, .hostA, .hostB,
    .seq, .log, .exec, .gauges, .coreStore, .memStacks, .mem, .fabric].all flds.contains = true) : Run flds st0 (startOwn r step
    p s).1 := by
  refine .lift ?_ hz hw
  unfold startOwn
  repeat' (first
    | with_reducible assumption
    | with_reducible exact Run.refl _ _
    | (extract_lets +onlyGivenNames x
       first | (apply Run.cut (x := x); rotate_left 1; intro h; clear_value x; rotate_left 1; subst x) | clear_value x)
    | with_reducible apply setRed_run
    | with_reducible apply finishPiece_run
    | with_reducible apply sendRound0_run
    | with_reducible apply workHeld_run
    | with_reducible apply ownItem_run
    | dsimp only
    | (split; rename_i x r heq; obtain rfl : (_ : State) = x := congrArg Prod.fst heq)
    | split
    | decide
    | (with_reducible refine Run.mk_upd rfl ?_ ?_ rfl rfl rfl rfl rfl
       rotate_left 1; exact (fun f hf => by cases f <;> first | exact absurd hf (by decide) | exact Eq.refl _)))

theorem withdraw_run (r : PlanEntry) (step : Nat) (keep : Bool) (s : State) (hz : Run flds st0 s) (hw : [.out, .hostA, .hostB,
    .seq, .log, .exec, .coreStore, .memStacks, .mem].all flds.contains = true) : Run flds st0 (withdraw r step keep s) := by
  refine .lift ?_ hz hw
  unfold withdraw
  repeat' (first
    | with_reducible assumption
    | with_reducible exact Run.refl _ _
    | (extract_lets +onlyGivenNames x
       first | (apply Run.cut (x := x); rotate_left 1; intro h; clear_value x; rotate_left 1; subst x) | clear_value x)
    | with_reducible apply logAccess_run
    | with_reducible apply ptrWrite_run
    | with_reducible apply setRed_run
    | split
    | decide
    | (with_reducible refine Run.mk_upd rfl ?_ ?_ rfl rfl rfl rfl rfl
       rotate_left 1; exact (fun f hf => by cases f <;> first | exact absurd hf (by decide) | exact Eq.refl _)))

theorem resendOwn_run (r : PlanEntry) (step : Nat) (s : State) (hz : Run flds st0 s) (hw : [.out, .hostA, .hostB, .seq, .log,
    .exec, .coreStore, .memStacks, .mem, .fabric].all flds.contains = true) : Run flds st0 (resendOwn r step s) := by
  refine .lift ?_ hz hw
  unfold resendOwn
  repeat' (first
    | with_reducible assumption
    | with_reducible exact Run.refl _ _
    | (extract_lets +onlyGivenNames x
       first | (apply Run.cut (x := x); rotate_left 1; intro h; clear_value x; rotate_left 1; subst x) | clear_value x)
    | with_reducible apply finishPiece_run
    | with_reducible apply sendRound0_run
    | with_reducible apply ownItem_run
    | (with_reducible apply Run.foldl; rotate_left 1; intro e x h)
    | split
    | decide)

theorem applyBreach_run (step : Nat) (ts rs : List Nat) (s : State) (hz : Run flds st0 s) (hw : [.out, .hostA, .hostB, .seq,
    .log, .exec, .cores, .coreStore, .memStacks, .mem, .fabric].all flds.contains = true) : Run flds st0 (applyBreach step ts rs
    s) := by
  refine .lift ?_ hz hw
  unfold applyBreach
  repeat' (first
    | with_reducible assumption
    | with_reducible exact Run.refl _ _
    | (extract_lets +onlyGivenNames x
       first | (apply Run.cut (x := x); rotate_left 1; intro h; clear_value x; rotate_left 1; subst x) | clear_value x)
    | with_reducible apply discardRuns_run
    | with_reducible apply withdraw_run
    | with_reducible apply resendOwn_run
    | (with_reducible apply Run.foldl; rotate_left 1; intro e x h)
    | split
    | decide
    | (with_reducible refine Run.mk_upd rfl ?_ ?_ rfl rfl rfl rfl rfl
       rotate_left 1; exact (fun f hf => by cases f <;> first | exact absurd hf (by decide) | exact Eq.refl _)))

theorem redMismatch_run (r : PlanEntry) (step hop src : Nat) (s : State) (hz : Run flds st0 s) (hw : [.out, .hostA, .hostB,
    .i3c, .warden, .seq, .log, .job, .exec, .cores, .coreStore, .memStacks, .mem, .fabric, .twin, .inspect].all flds.contains =
    true) : Run flds st0 (redMismatch r step hop src s) := by
  refine .lift ?_ hz hw
  unfold redMismatch
  repeat' (first
    | with_reducible assumption
    | with_reducible exact Run.refl _ _
    | (extract_lets +onlyGivenNames x
       first | (apply Run.cut (x := x); rotate_left 1; intro h; clear_value x; rotate_left 1; subst x) | clear_value x)
    | with_reducible apply peerBcast_run
    | with_reducible apply sendNotice_run
    | with_reducible apply receiveFail_run
    | with_reducible apply setRed_run
    | with_reducible apply applyBreach_run
    | split
    | decide
    | (with_reducible refine Run.mk_upd rfl ?_ ?_ rfl rfl rfl rfl rfl
       rotate_left 1; exact (fun f hf => by cases f <;> first | exact absurd hf (by decide) | exact Eq.refl _)))

theorem failedHop_run (r : PlanEntry) (step : Nat) (bad : Option Nat) (s : State) (hz : Run flds st0 s) (hw : [.out, .hostA,
    .hostB, .i3c, .warden, .seq, .log, .job, .exec, .cores, .coreStore, .memStacks, .mem, .fabric, .twin, .inspect].all
    flds.contains = true) : Run flds st0 (failedHop r step bad s) := by
  refine .lift ?_ hz hw
  unfold failedHop
  repeat' (first
    | with_reducible assumption
    | with_reducible exact Run.refl _ _
    | with_reducible apply redMismatch_run
    | split
    | decide
    | (with_reducible refine Run.mk_upd rfl ?_ ?_ rfl rfl rfl rfl rfl
       rotate_left 1; exact (fun f hf => by cases f <;> first | exact absurd hf (by decide) | exact Eq.refl _)))

theorem recvContrib_run (r : PlanEntry) (m : Msg) (s : State) (hz : Run flds st0 s) (hw : [.out, .hostA, .hostB, .i3c, .warden,
    .seq, .log, .job, .exec, .gauges, .cores, .coreStore, .memStacks, .mem, .fabric, .twin, .inspect].all flds.contains = true)
    : Run flds st0 (recvContrib r m s) := by
  refine .lift ?_ hz hw
  unfold recvContrib
  repeat' (first
    | with_reducible assumption
    | with_reducible exact Run.refl _ _
    | (extract_lets +onlyGivenNames x
       first | (apply Run.cut (x := x); rotate_left 1; intro h; clear_value x; rotate_left 1; subst x) | clear_value x)
    | with_reducible apply setRed_run
    | with_reducible apply workHeld_run
    | with_reducible apply redMismatch_run
    | with_reducible apply failedHop_run
    | (split; rename_i x r heq; obtain rfl : (_ : State) = x := congrArg Prod.fst heq)
    | split
    | decide
    | (with_reducible refine Run.mk_upd rfl ?_ ?_ rfl rfl rfl rfl rfl
       rotate_left 1; exact (fun f hf => by cases f <;> first | exact absurd hf (by decide) | exact Eq.refl _)))

theorem recvResult_run (r : PlanEntry) (m : Msg) (s : State) (hz : Run flds st0 s) (hw : [.out, .hostA, .hostB, .i3c, .warden,
    .seq, .log, .job, .exec, .cores, .coreStore, .memStacks, .mem, .fabric, .twin, .inspect].all flds.contains = true) : Run
    flds st0 (recvResult r m s) := by
  refine .lift ?_ hz hw
  unfold recvResult
  repeat' (first
    | with_reducible assumption
    | with_reducible exact Run.refl _ _
    | (extract_lets +onlyGivenNames x
       first | (apply Run.cut (x := x); rotate_left 1; intro h; clear_value x; rotate_left 1; subst x) | clear_value x)
    | with_reducible apply sendElems_run
    | with_reducible apply checkEnd_run
    | with_reducible apply landPiece_run
    | with_reducible apply gatherOn_run
    | with_reducible apply takeItem_run
    | with_reducible apply redMismatch_run
    | split
    | decide
    | (with_reducible refine Run.mk_upd rfl ?_ ?_ rfl rfl rfl rfl rfl
       rotate_left 1; exact (fun f hf => by cases f <;> first | exact absurd hf (by decide) | exact Eq.refl _)))

theorem recvScale_run (r : PlanEntry) (m : Msg) (s : State) (hz : Run flds st0 s) (hw : [.out, .exec, .fabric].all flds.contains
    = true) : Run flds st0 (recvScale r m s) := by
  refine .lift ?_ hz hw
  unfold recvScale
  repeat' (first
    | with_reducible assumption
    | with_reducible exact Run.refl _ _
    | (extract_lets +onlyGivenNames x
       first | (apply Run.cut (x := x); rotate_left 1; intro h; clear_value x; rotate_left 1; subst x) | clear_value x)
    | with_reducible apply sendLog_run
    | with_reducible apply setRed_run
    | with_reducible apply runScale_run
    | with_reducible apply checkEnd_run
    | split
    | decide
    | (with_reducible refine Run.mk_upd rfl ?_ ?_ rfl rfl rfl rfl rfl
       rotate_left 1; exact (fun f hf => by cases f <;> first | exact absurd hf (by decide) | exact Eq.refl _)))

end Sys2Proof.Laws
end

