-- ==== Sys2Proof/Laws/RunWeights.lean ====
section
/-! SUPPORT. What the operations may change: one lemma for each operation of Sys2Proof/Machine/Weights.lean. -/

set_option linter.unusedTactic false
set_option linter.unreachableTactic false

namespace Sys2Proof.Laws

open Machine

variable {flds : List StateField} {st0 : State}

theorem writeTiles_run (at_ : Place) (w : Streams) (total i0 : Nat) (berm : Bool) (ts : List Tile) (s : State) (hz : Run flds
    st0 s) (hw : [.out, .coreStore, .memStacks, .mem].all flds.contains = true) : Run flds st0 (writeTiles at_ w total i0 berm
    ts s) := by
  refine .lift ?_ hz hw
  unfold writeTiles
  repeat' (first
    | with_reducible assumption
    | with_reducible exact Run.refl _ _
    | (extract_lets +onlyGivenNames x
       first | (apply Run.cut (x := x); rotate_left 1; intro h; clear_value x; rotate_left 1; subst x) | clear_value x)
    | with_reducible apply ptrWrite_run
    | (with_reducible apply Run.foldl; rotate_left 1; intro e x h)
    | split
    | decide)

end Sys2Proof.Laws
end

