-- ==== Sys2Proof/Laws/RunUpdRun.lean ====
section
/-! SUPPORT. What the operations may change: one lemma for each operation of Sys2Proof/Machine/UpdRun.lean. -/

set_option linter.unusedTactic false
set_option linter.unreachableTactic false

namespace Sys2Proof.Laws

open Machine

variable {flds : List StateField} {st0 : State}

theorem regenTiles_run (im : JobImage) (t : TaskRec) (s : State) (hz : Run flds st0 s) (hw : [.out, .coreStore, .memStacks,
    .mem].all flds.contains = true) : Run flds st0 (regenTiles im t s).1 := by
  refine .lift ?_ hz hw
  unfold regenTiles
  repeat' (first
    | with_reducible assumption
    | with_reducible exact Run.refl _ _
    | (extract_lets +onlyGivenNames x
       first | (apply Run.cut (x := x); rotate_left 1; intro h; clear_value x; rotate_left 1; subst x) | clear_value x)
    | with_reducible apply writeTiles_run
    | dsimp only
    | split
    | decide)

theorem putFactor_run (at_ : Place) (v first rows : Nat) (cols : List (List F32)) (s : State) (hz : Run flds st0 s) (hw : [.out,
    .coreStore, .memStacks, .mem].all flds.contains = true) : Run flds st0 (putFactor at_ v first rows cols s) := by
  refine .lift ?_ hz hw
  unfold putFactor
  repeat' (first
    | with_reducible assumption
    | with_reducible exact Run.refl _ _
    | (extract_lets +onlyGivenNames x
       first | (apply Run.cut (x := x); rotate_left 1; intro h; clear_value x; rotate_left 1; subst x) | clear_value x)
    | with_reducible apply ptrWrite_run
    | decide)

theorem putBerm_run (tensor : Nat) (before after : F32) (resets : Nat) (s : State) (hz : Run flds st0 s) (hw : [.exec].all
    flds.contains = true) : Run flds st0 (putBerm tensor before after resets s) := by
  refine .lift ?_ hz hw
  unfold putBerm
  repeat' (first
    | with_reducible assumption
    | with_reducible exact Run.refl _ _
    | (extract_lets +onlyGivenNames x
       first | (apply Run.cut (x := x); rotate_left 1; intro h; clear_value x; rotate_left 1; subst x) | clear_value x)
    | decide
    | (with_reducible refine Run.mk_upd rfl ?_ ?_ rfl rfl rfl rfl rfl
       rotate_left 1; exact (fun f hf => by cases f <;> first | exact absurd hf (by decide) | exact Eq.refl _)))

theorem regenBerm_run (im : JobImage) (t : TaskRec) (vprev : List (List F32)) (s : State) (hz : Run flds st0 s) (hw : [.out,
    .exec, .coreStore, .memStacks, .mem].all flds.contains = true) : Run flds st0 (regenBerm im t vprev s) := by
  refine .lift ?_ hz hw
  unfold regenBerm
  repeat' (first
    | with_reducible assumption
    | with_reducible exact Run.refl _ _
    | (extract_lets +onlyGivenNames x
       first | (apply Run.cut (x := x); rotate_left 1; intro h; clear_value x; rotate_left 1; subst x) | clear_value x)
    | with_reducible apply putFactor_run
    | with_reducible apply putBerm_run
    | (with_reducible apply Run.foldl; rotate_left 1; intro e x h)
    | split
    | decide)

theorem regenTctl_run (im : JobImage) (t : TaskRec) (s : State) (hz : Run flds st0 s) (hw : [.out, .coreStore, .memStacks,
    .mem].all flds.contains = true) : Run flds st0 (regenTctl im t s) := by
  refine .lift ?_ hz hw
  unfold regenTctl
  repeat' (first
    | with_reducible assumption
    | with_reducible exact Run.refl _ _
    | (extract_lets +onlyGivenNames x
       first | (apply Run.cut (x := x); rotate_left 1; intro h; clear_value x; rotate_left 1; subst x) | clear_value x)
    | with_reducible apply ptrWrite_run
    | split
    | decide)

theorem regenLists_run (im : JobImage) (tensor : Nat) (s : State) (hz : Run flds st0 s) (hw : [.out, .memStacks, .mem].all
    flds.contains = true) : Run flds st0 (regenLists im tensor s) := by
  refine .lift ?_ hz hw
  unfold regenLists
  repeat' (first
    | with_reducible assumption
    | with_reducible exact Run.refl _ _
    | (extract_lets +onlyGivenNames x
       first | (apply Run.cut (x := x); rotate_left 1; intro h; clear_value x; rotate_left 1; subst x) | clear_value x)
    | with_reducible apply physWrite_run
    | (with_reducible apply Run.foldl; rotate_left 1; intro e x h)
    | split
    | decide
    | (with_reducible refine Run.mk_upd rfl ?_ ?_ rfl rfl rfl rfl rfl
       rotate_left 1; exact (fun f hf => by cases f <;> first | exact absurd hf (by decide) | exact Eq.refl _)))

theorem regenTensor_run (im : JobImage) (tensor : Nat) (s : State) (hz : Run flds st0 s) (hw : [.out, .coreStore, .memStacks,
    .mem].all flds.contains = true) : Run flds st0 (regenTensor im tensor s) := by
  refine .lift ?_ hz hw
  unfold regenTensor
  repeat' (first
    | with_reducible assumption
    | with_reducible exact Run.refl _ _
    | (extract_lets +onlyGivenNames x
       first | (apply Run.cut (x := x); rotate_left 1; intro h; clear_value x; rotate_left 1; subst x) | clear_value x)
    | with_reducible apply regenTiles_run
    | with_reducible apply regenTctl_run
    | with_reducible apply regenLists_run
    | (with_reducible apply Run.foldl; rotate_left 1; intro e x h)
    | (with_reducible apply Run.foldl1; rotate_left 1; intro e x h)
    | (split; rename_i x r heq; obtain rfl : (_ : State) = x := congrArg Prod.fst heq)
    | decide)

theorem keepList_run (a : Nat) (b : Bytes) (s : State) (hz : Run flds st0 s) (hw : [.exec].all flds.contains = true) : Run flds
    st0 (keepList a b s) := by
  refine .lift ?_ hz hw
  unfold keepList
  repeat' (first
    | with_reducible assumption
    | with_reducible exact Run.refl _ _
    | (extract_lets +onlyGivenNames x
       first | (apply Run.cut (x := x); rotate_left 1; intro h; clear_value x; rotate_left 1; subst x) | clear_value x)
    | decide
    | (with_reducible refine Run.mk_upd rfl ?_ ?_ rfl rfl rfl rfl rfl
       rotate_left 1; exact (fun f hf => by cases f <;> first | exact absurd hf (by decide) | exact Eq.refl _)))

theorem keepLists_run (a : Nat) (b : Bytes) (s : State) (hz : Run flds st0 s) (hw : [.exec].all flds.contains = true) : Run flds
    st0 (keepLists a b s) := by
  refine .lift ?_ hz hw
  unfold keepLists
  repeat' (first
    | with_reducible assumption
    | with_reducible exact Run.refl _ _
    | (extract_lets +onlyGivenNames x
       first | (apply Run.cut (x := x); rotate_left 1; intro h; clear_value x; rotate_left 1; subst x) | clear_value x)
    | with_reducible apply keepList_run
    | (with_reducible apply Run.foldl; rotate_left 1; intro e x h)
    | decide)

theorem growLists_run (at_ : Place) (u : UpdBody) (o c cap nb : Nat) (s : State) (hz : Run flds st0 s) (hw : [.out, .exec,
    .coreStore, .memStacks, .mem].all flds.contains = true) : Run flds st0 (growLists at_ u o c cap nb s) := by
  refine .lift ?_ hz hw
  unfold growLists
  repeat' (first
    | with_reducible assumption
    | with_reducible exact Run.refl _ _
    | (extract_lets +onlyGivenNames x
       first | (apply Run.cut (x := x); rotate_left 1; intro h; clear_value x; rotate_left 1; subst x) | clear_value x)
    | with_reducible apply ptrWrite_run
    | with_reducible apply keepList_run
    | (with_reducible apply Run.foldl; rotate_left 1; intro e x h)
    | split
    | decide
    | (with_reducible refine Run.mk_upd rfl ?_ ?_ rfl rfl rfl rfl rfl
       rotate_left 1; exact (fun f hf => by cases f <;> first | exact absurd hf (by decide) | exact Eq.refl _)))

theorem updLists_run (im : JobImage) (t : TaskRec) (s : State) (hz : Run flds st0 s) (hw : [.out, .exec, .coreStore, .memStacks,
    .mem].all flds.contains = true) : Run flds st0 (updLists im t s) := by
  refine .lift ?_ hz hw
  unfold updLists
  repeat' (first
    | with_reducible assumption
    | with_reducible exact Run.refl _ _
    | (extract_lets +onlyGivenNames x
       first | (apply Run.cut (x := x); rotate_left 1; intro h; clear_value x; rotate_left 1; subst x) | clear_value x)
    | with_reducible apply growLists_run
    | decide)

theorem logNonFinite_run (step tensor stack el : Nat) (s : State) (hz : Run flds st0 s) (hw : [.out, .hostA, .hostB, .seq, .log,
    .exec].all flds.contains = true) : Run flds st0 (logNonFinite step tensor stack el s) := by
  refine .lift ?_ hz hw
  unfold logNonFinite
  repeat' (first
    | with_reducible assumption
    | with_reducible exact Run.refl _ _
    | (extract_lets +onlyGivenNames x
       first | (apply Run.cut (x := x); rotate_left 1; intro h; clear_value x; rotate_left 1; subst x) | clear_value x)
    | with_reducible apply logEv_run
    | split
    | decide
    | (with_reducible refine Run.mk_upd rfl ?_ ?_ rfl rfl rfl rfl rfl
       rotate_left 1; exact (fun f hf => by cases f <;> first | exact absurd hf (by decide) | exact Eq.refl _)))

theorem updState_run (im : JobImage) (t : TaskRec) (step : Nat) (s s' : State) (fx : TaskFx) (hu : updState im t step s = some (s', fx))
    (hz : Run flds st0 s) (hw : [.out, .hostA, .hostB, .seq, .log, .exec, .coreStore, .memStacks, .mem].all flds.contains = true) :
    Run flds st0 s' := by
  refine .lift ?_ hz hw
  unfold updState at hu
  extract_lets u at_ o at hu
  split at hu
  split at hu
  · cases hu
  · extract_lets es s1 s2 s3 s4 s5 at hu
    obtain rfl : s5 = s' := congrArg Prod.fst (Option.some.inj hu)
    have h4 : Run [.out, .hostA, .hostB, .seq, .log, .exec, .coreStore, .memStacks, .mem] s s4 := by
      subst s4 s3 s2 s1
      repeat' (first | with_reducible exact Run.refl _ _ | with_reducible apply ptrWrite_run | split | decide)
    clear_value s4
    subst s5
    split
    · exact logNonFinite_run _ _ _ _ _ h4 (by decide)
    · exact h4

theorem keepSeed_run (im : JobImage) (t : TaskRec) (s : State) (hz : Run flds st0 s) (hw : [.out, .exec, .coreStore, .memStacks,
    .mem].all flds.contains = true) : Run flds st0 (keepSeed im t s) := by
  refine .lift ?_ hz hw
  unfold keepSeed
  repeat' (first
    | with_reducible assumption
    | with_reducible exact Run.refl _ _
    | (extract_lets +onlyGivenNames x
       first | (apply Run.cut (x := x); rotate_left 1; intro h; clear_value x; rotate_left 1; subst x) | clear_value x)
    | with_reducible apply ptrWrite_run
    | split
    | decide
    | (with_reducible refine Run.mk_upd rfl ?_ ?_ rfl rfl rfl rfl rfl
       rotate_left 1; exact (fun f hf => by cases f <;> first | exact absurd hf (by decide) | exact Eq.refl _)))

theorem runUpdate_run (im : JobImage) (t : TaskRec) (step : Nat) (s s' : State) (fx : TaskFx) (hu : runUpdate im t step s = .ok (s', fx))
    (hz : Run flds st0 s) (hw : [.out, .hostA, .hostB, .seq, .log, .exec, .coreStore, .memStacks, .mem].all flds.contains = true) :
    Run flds st0 s' := by
  refine .lift ?_ hz hw
  unfold runUpdate at hu
  extract_lets u at_ at hu
  split at hu
  · obtain rfl : s = s' := congrArg Prod.fst (Except.ok.inj hu)
    exact Run.refl _ _
  · split at hu
    · cases hu
    · split at hu
      · obtain rfl : _ = s' := congrArg Prod.fst (Except.ok.inj hu)
        exact updLists_run _ _ _ (Run.refl _ _) (by decide)
      · split at hu
        · obtain rfl : s = s' := congrArg Prod.fst (Except.ok.inj hu)
          exact Run.refl _ _
        · rename_i s1 fx1 heq
          have h1 := updState_run im t step s s1 fx1 heq (flds := [.out, .hostA, .hostB, .seq, .log, .exec, .coreStore, .memStacks, .mem])
            (Run.refl _ _) (by decide)
          split at hu
          rename_i s2 ts heq2
          have h2 := regenTiles_run im t s1 h1 (by decide)
          obtain rfl : _ = s2 := congrArg Prod.fst heq2
          dsimp only at hu
          obtain rfl : _ = s' := congrArg Prod.fst (Except.ok.inj hu)
          repeat' (first
            | with_reducible assumption
            | with_reducible apply updLists_run
            | with_reducible apply regenTctl_run
            | with_reducible apply regenBerm_run
            | with_reducible apply keepSeed_run
            | (with_reducible apply Run.foldl; rotate_left 1; intro e x h)
            | split
            | decide)

end Sys2Proof.Laws
end

