-- ==== Sys2Proof/Laws/RunRecord.lean ====
section
/-! SUPPORT. What the operations may change: one lemma for each operation of Sys2Proof/Machine/Record.lean. -/

set_option linter.unusedTactic false
set_option linter.unreachableTactic false

namespace Sys2Proof.Laws

open Machine

variable {flds : List StateField} {st0 : State}

theorem slotWrite_run (slot o : Nat) (b : Bytes) (s : State) (hz : Run flds st0 s) (hw : [.mem].all flds.contains = true) : Run
    flds st0 (slotWrite slot o b s) := by
  refine .lift ?_ hz hw
  unfold slotWrite
  repeat' (first
    | with_reducible assumption
    | with_reducible exact Run.refl _ _
    | (extract_lets +onlyGivenNames x
       first | (apply Run.cut (x := x); rotate_left 1; intro h; clear_value x; rotate_left 1; subst x) | clear_value x)
    | (with_reducible apply Run.foldl; rotate_left 1; intro e x h)
    | decide
    | (with_reducible refine Run.mk_mem rfl ?_ ?_ rfl rfl ?_ ?_ rfl
       rotate_left 1; exact (fun f hf => by cases f <;> first | exact absurd hf (by decide) | exact Eq.refl _)
       all_goals first | exact id | exact memWrite_wf | exact memClear_wf | exact memSet_foldl_wf | exact memWrite_foldl_wf | exact fun _ => rfl | skip))

theorem putStreams_run (es : List TensorEntry) (b : Bytes) (s : State) (hz : Run flds st0 s) (hw : [.out, .coreStore,
    .memStacks, .mem].all flds.contains = true) : Run flds st0 (putStreams es b s) := by
  refine .lift ?_ hz hw
  unfold putStreams
  repeat' (first
    | with_reducible assumption
    | with_reducible exact Run.refl _ _
    | (extract_lets +onlyGivenNames x
       first | (apply Run.cut (x := x); rotate_left 1; intro h; clear_value x; rotate_left 1; subst x) | clear_value x)
    | with_reducible apply ptrWrite_run
    | (with_reducible apply Run.foldl; rotate_left 1; intro e x h)
    | (with_reducible apply Run.foldl2; rotate_left 1; intro e x h)
    | decide)

theorem putSeeds_run (im : JobImage) (b : Bytes) (s : State) (hz : Run flds st0 s) (hw : [.out, .exec, .coreStore, .memStacks,
    .mem].all flds.contains = true) : Run flds st0 (putSeeds im b s) := by
  refine .lift ?_ hz hw
  unfold putSeeds
  repeat' (first
    | with_reducible assumption
    | with_reducible exact Run.refl _ _
    | (extract_lets +onlyGivenNames x
       first | (apply Run.cut (x := x); rotate_left 1; intro h; clear_value x; rotate_left 1; subst x) | clear_value x)
    | with_reducible apply ptrWrite_run
    | (with_reducible apply Run.foldl; rotate_left 1; intro e x h)
    | (with_reducible apply Run.foldl2; rotate_left 1; intro e x h)
    | split
    | decide
    | (with_reducible refine Run.mk_upd rfl ?_ ?_ rfl rfl rfl rfl rfl
       rotate_left 1; exact (fun f hf => by cases f <;> first | exact absurd hf (by decide) | exact Eq.refl _)))

theorem putGauges_run (im : JobImage) (b : Bytes) (s : State) (hz : Run flds st0 s) (hw : [.exec, .gauges].all flds.contains =
    true) : Run flds st0 (putGauges im b s) := by
  refine .lift ?_ hz hw
  unfold putGauges
  repeat' (first
    | with_reducible assumption
    | with_reducible exact Run.refl _ _
    | (extract_lets +onlyGivenNames x
       first | (apply Run.cut (x := x); rotate_left 1; intro h; clear_value x; rotate_left 1; subst x) | clear_value x)
    | decide
    | (with_reducible refine Run.mk_upd rfl ?_ ?_ rfl rfl rfl rfl rfl
       rotate_left 1; exact (fun f hf => by cases f <;> first | exact absurd hf (by decide) | exact Eq.refl _)))

theorem copyPayloads_run (ps : List Payload) (s : State) (hz : Run flds st0 s) (hw : [.out, .memStacks, .mem].all flds.contains
    = true) : Run flds st0 (copyPayloads ps s) := by
  refine .lift ?_ hz hw
  unfold copyPayloads
  repeat' (first
    | with_reducible assumption
    | with_reducible exact Run.refl _ _
    | (extract_lets +onlyGivenNames x
       first | (apply Run.cut (x := x); rotate_left 1; intro h; clear_value x; rotate_left 1; subst x) | clear_value x)
    | with_reducible apply physWrite_run
    | (with_reducible apply Run.foldl; rotate_left 1; intro e x h)
    | decide)

theorem restoreShard_run (im : JobImage) (s : State) (t : TaskRec) (hz : Run flds st0 s) (hw : [.out, .exec, .coreStore,
    .memStacks, .mem].all flds.contains = true) : Run flds st0 (restoreShard im s t) := by
  refine .lift ?_ hz hw
  unfold restoreShard
  repeat' (first
    | with_reducible assumption
    | with_reducible exact Run.refl _ _
    | (extract_lets +onlyGivenNames x
       first | (apply Run.cut (x := x); rotate_left 1; intro h; clear_value x; rotate_left 1; subst x) | clear_value x)
    | with_reducible apply regenTiles_run
    | with_reducible apply regenBerm_run
    | (split; rename_i x r heq; obtain rfl : (_ : State) = x := congrArg Prod.fst heq)
    | split
    | decide)

theorem applyRecord_run (im : JobImage) (t : Nat) (b : Bytes) (s : State) (hz : Run flds st0 s) (hw : [.out, .exec, .gauges,
    .coreStore, .memStacks, .mem, .twin].all flds.contains = true) : Run flds st0 (applyRecord im t b s) := by
  refine .lift ?_ hz hw
  unfold applyRecord
  repeat' (first
    | with_reducible assumption
    | with_reducible exact Run.refl _ _
    | (extract_lets +onlyGivenNames x
       first | (apply Run.cut (x := x); rotate_left 1; intro h; clear_value x; rotate_left 1; subst x) | clear_value x)
    | with_reducible apply setScale_run
    | with_reducible apply regenTctl_run
    | with_reducible apply keepLists_run
    | with_reducible apply putStreams_run
    | with_reducible apply putSeeds_run
    | with_reducible apply putGauges_run
    | with_reducible apply copyPayloads_run
    | with_reducible apply restoreShard_run
    | (with_reducible apply Run.foldl; rotate_left 1; intro e x h)
    | split
    | decide
    | (with_reducible refine Run.mk_upd rfl ?_ ?_ rfl rfl rfl rfl rfl
       rotate_left 1; exact (fun f hf => by cases f <;> first | exact absurd hf (by decide) | exact Eq.refl _)))

end Sys2Proof.Laws
end

