-- ==== Sys2Proof/Laws/RunRepair.lean ====
section
/-! SUPPORT. What the operations may change: one lemma for each operation of Sys2Proof/Machine/Repair.lean. -/

set_option linter.unusedTactic false
set_option linter.unreachableTactic false

namespace Sys2Proof.Laws

open Machine

variable {flds : List StateField} {st0 : State}

theorem remapBank_run (i : Fin 32) (s : State) (b : Nat × Nat) (hz : Run flds st0 s) (hw : [.out, .hostA, .hostB, .seq, .log,
    .memStacks, .flash].all flds.contains = true) : Run flds st0 (remapBank i s b) := by
  refine .lift ?_ hz hw
  unfold remapBank
  repeat' (first
    | with_reducible assumption
    | with_reducible exact Run.refl _ _
    | (extract_lets +onlyGivenNames x
       first | (apply Run.cut (x := x); rotate_left 1; intro h; clear_value x; rotate_left 1; subst x) | clear_value x)
    | with_reducible apply modStack_run
    | with_reducible apply logEv_run
    | with_reducible apply ledgerAppend_run
    | split
    | decide
    | (with_reducible refine Run.mk_upd rfl ?_ ?_ rfl rfl rfl rfl rfl
       rotate_left 1; exact (fun f hf => by cases f <;> first | exact absurd hf (by decide) | exact Eq.refl _)))

theorem remapRow_run (i : Fin 32) (s : State) (e : RowErr) (hz : Run flds st0 s) (hw : [.out, .hostA, .hostB, .seq, .log,
    .memStacks, .flash].all flds.contains = true) : Run flds st0 (remapRow i s e) := by
  refine .lift ?_ hz hw
  unfold remapRow
  repeat' (first
    | with_reducible assumption
    | with_reducible exact Run.refl _ _
    | (extract_lets +onlyGivenNames x
       first | (apply Run.cut (x := x); rotate_left 1; intro h; clear_value x; rotate_left 1; subst x) | clear_value x)
    | with_reducible apply modStack_run
    | with_reducible apply logEv_run
    | with_reducible apply ledgerAppend_run
    | split
    | decide
    | (with_reducible refine Run.mk_upd rfl ?_ ?_ rfl rfl rfl rfl rfl
       rotate_left 1; exact (fun f hf => by cases f <;> first | exact absurd hf (by decide) | exact Eq.refl _)))

theorem remapStack_run (s : State) (i : Fin 32) (hz : Run flds st0 s) (hw : [.out, .hostA, .hostB, .seq, .log, .memStacks,
    .flash].all flds.contains = true) : Run flds st0 (remapStack s i) := by
  refine .lift ?_ hz hw
  unfold remapStack
  repeat' (first
    | with_reducible assumption
    | with_reducible exact Run.refl _ _
    | (extract_lets +onlyGivenNames x
       first | (apply Run.cut (x := x); rotate_left 1; intro h; clear_value x; rotate_left 1; subst x) | clear_value x)
    | with_reducible apply remapBank_run
    | with_reducible apply remapRow_run
    | (with_reducible apply Run.foldl; rotate_left 1; intro e x h)
    | decide)

theorem remapAll_run (s : State) (hz : Run flds st0 s) (hw : [.out, .hostA, .hostB, .seq, .log, .memStacks, .flash].all
    flds.contains = true) : Run flds st0 (remapAll s) := by
  refine .lift ?_ hz hw
  unfold remapAll
  repeat' (first
    | with_reducible assumption
    | with_reducible exact Run.refl _ _
    | (extract_lets +onlyGivenNames x
       first | (apply Run.cut (x := x); rotate_left 1; intro h; clear_value x; rotate_left 1; subst x) | clear_value x)
    | with_reducible apply remapStack_run
    | (with_reducible apply Run.foldl; rotate_left 1; intro e x h)
    | decide)

end Sys2Proof.Laws
end

