-- ==== Sys2Proof/Laws/RunGemmRun.lean ====
section
/-! SUPPORT. What the operations may change: one lemma for each operation of Sys2Proof/Machine/GemmRun.lean. -/

set_option linter.unusedTactic false
set_option linter.unreachableTactic false

namespace Sys2Proof.Laws

open Machine

variable {flds : List StateField} {st0 : State}

theorem storeRow_run (im : JobImage) (t : TaskRec) (at_ : Place) (g : Gemm) (m : Nat) (z : List F32) (s : State) (hz : Run flds
    st0 s) (hw : [.out, .coreStore, .memStacks, .mem].all flds.contains = true) : Run flds st0 (storeRow im t at_ g m z s).1 :=
    by
  refine .lift ?_ hz hw
  unfold storeRow
  repeat' (first
    | with_reducible assumption
    | with_reducible exact Run.refl _ _
    | (extract_lets +onlyGivenNames x
       first | (apply Run.cut (x := x); rotate_left 1; intro h; clear_value x; rotate_left 1; subst x) | clear_value x)
    | with_reducible apply ptrWriteH_run
    | with_reducible apply ptrWrite_run
    | (with_reducible apply Run.foldl; rotate_left 1; intro e x h)
    | (with_reducible apply Run.foldl1; rotate_left 1; intro e x h)
    | dsimp only
    | split
    | decide
    | (with_reducible refine Run.mk_upd rfl ?_ ?_ rfl rfl rfl rfl rfl
       rotate_left 1; exact (fun f hf => by cases f <;> first | exact absurd hf (by decide) | exact Eq.refl _)))

theorem stashRow_run (at_ : Place) (g : Gemm) (m : Nat) (r : OpRow) (s : State) (hz : Run flds st0 s) (hw : [.out, .coreStore,
    .memStacks, .mem].all flds.contains = true) : Run flds st0 (stashRow at_ g m r s).1 := by
  refine .lift ?_ hz hw
  unfold stashRow
  repeat' (first
    | with_reducible assumption
    | with_reducible exact Run.refl _ _
    | (extract_lets +onlyGivenNames x
       first | (apply Run.cut (x := x); rotate_left 1; intro h; clear_value x; rotate_left 1; subst x) | clear_value x)
    | with_reducible apply ptrWriteH_run
    | dsimp only
    | split
    | decide)

theorem spillRow_run (at_ : Place) (g : Gemm) (m : Nat) (r : OpRow) (s : State) (hz : Run flds st0 s) (hw : [.out, .coreStore,
    .memStacks, .mem].all flds.contains = true) : Run flds st0 (spillRow at_ g m r s) := by
  refine .lift ?_ hz hw
  unfold spillRow
  repeat' (first
    | with_reducible assumption
    | with_reducible exact Run.refl _ _
    | with_reducible apply ptrWrite_run
    | split
    | decide)

theorem gemmStore_run (im : JobImage) (t : TaskRec) (at_ : Place) (g : Gemm) (ps : List Partial) (mus : List (Int × Bool)) (s :
    State) (hz : Run flds st0 s) (hw : [.out, .coreStore, .memStacks, .mem].all flds.contains = true) : Run flds st0 (gemmStore
    im t at_ g ps mus s).1 := by
  refine .lift ?_ hz hw
  unfold gemmStore
  repeat' (first
    | with_reducible assumption
    | with_reducible exact Run.refl _ _
    | (extract_lets +onlyGivenNames x
       first | (apply Run.cut (x := x); rotate_left 1; intro h; clear_value x; rotate_left 1; subst x) | clear_value x)
    | with_reducible apply storeRow_run
    | (with_reducible apply Run.foldl; rotate_left 1; intro e x h)
    | (with_reducible apply Run.foldl1; rotate_left 1; intro e x h)
    | dsimp only
    | (split; rename_i x r heq; obtain rfl : (_ : State) = x := congrArg Prod.fst heq)
    | split
    | decide)

theorem operandFx_run (at_ : Place) (g : Gemm) (rows : List OpRow) (tiles : List (List Tile)) (s : State) (hz : Run flds st0 s)
    (hw : [.out, .coreStore, .memStacks, .mem].all flds.contains = true) : Run flds st0 (operandFx at_ g rows tiles s).1 := by
  refine .lift ?_ hz hw
  unfold operandFx
  repeat' (first
    | with_reducible assumption
    | with_reducible exact Run.refl _ _
    | (extract_lets +onlyGivenNames x
       first | (apply Run.cut (x := x); rotate_left 1; intro h; clear_value x; rotate_left 1; subst x) | clear_value x)
    | with_reducible apply ptrWrite_run
    | with_reducible apply stashRow_run
    | with_reducible apply spillRow_run
    | (with_reducible apply Run.foldl; rotate_left 1; intro e x h)
    | (with_reducible apply Run.foldl1; rotate_left 1; intro e x h)
    | dsimp only
    | (split; rename_i x r heq; obtain rfl : (_ : State) = x := congrArg Prod.fst heq)
    | split
    | decide)

end Sys2Proof.Laws
end

