-- ==== Sys2Proof/Laws/RunFlags.lean ====
section
/-! SUPPORT. What the register file may change: one lemma for each operation of Sys2Proof/Machine/Flags.lean. -/

set_option linter.unusedTactic false
set_option linter.unreachableTactic false

namespace Sys2Proof.Laws

open Machine

variable {flds : List StateField} {st0 : State}

theorem logWrite_run (p : HPort) (off v mask : Nat) (s : State) (hz : Run flds st0 s) (hw : [.out, .hostA, .hostB, .seq,
    .log].all flds.contains = true) : Run flds st0 (logWrite p off v mask s) := by
  refine .lift ?_ hz hw
  unfold logWrite
  repeat' (first
    | with_reducible assumption
    | with_reducible exact Run.refl _ _
    | with_reducible apply logEv_run
    | decide)

theorem logDiff_run (p : HPort) (off v : Nat) (s : State) (hz : Run flds st0 s) (hw : [.out, .hostA, .hostB, .seq, .log].all
    flds.contains = true) : Run flds st0 (logDiff p off v s) := by
  refine .lift ?_ hz hw
  unfold logDiff
  repeat' (first
    | with_reducible assumption
    | with_reducible exact Run.refl _ _
    | (extract_lets +onlyGivenNames x
       first | (apply Run.cut (x := x); rotate_left 1; intro h; clear_value x; rotate_left 1; subst x) | clear_value x)
    | with_reducible apply logWrite_run
    | split
    | decide)

theorem logIgnored_run (p : HPort) (off v : Nat) (s : State) (hz : Run flds st0 s) (hw : [.out, .hostA, .hostB, .seq, .log].all
    flds.contains = true) : Run flds st0 (logIgnored p off v s) := by
  refine .lift ?_ hz hw
  unfold logIgnored
  repeat' (first
    | with_reducible assumption
    | with_reducible exact Run.refl _ _
    | with_reducible apply logWrite_run
    | decide)

end Sys2Proof.Laws
end

