-- ==== Sys2Proof/Laws/RunVecRun.lean ====
section
/-! SUPPORT. What the operations may change: one lemma for each operation of Sys2Proof/Machine/VecRun.lean. -/

set_option linter.unusedTactic false
set_option linter.unreachableTactic false

namespace Sys2Proof.Laws

open Machine

variable {flds : List StateField} {st0 : State}

theorem storeStash_run (im : JobImage) (t : TaskRec) (at_ : Place) (v : VecBody) (c0 : Nat) (uns : Bool) (rows : List (List
    F32)) (s : State) (hz : Run flds st0 s) (hw : [.out, .coreStore, .memStacks, .mem].all flds.contains = true) : Run flds st0
    (storeStash im t at_ v c0 uns rows s).1 := by
  refine .lift ?_ hz hw
  unfold storeStash
  repeat' (first
    | with_reducible assumption
    | with_reducible exact Run.refl _ _
    | (extract_lets +onlyGivenNames x
       first | (apply Run.cut (x := x); rotate_left 1; intro h; clear_value x; rotate_left 1; subst x) | clear_value x)
    | with_reducible apply ptrWriteH_run
    | (with_reducible apply Run.foldl; rotate_left 1; intro e x h)
    | (with_reducible apply Run.foldl1; rotate_left 1; intro e x h)
    | dsimp only
    | decide)

theorem vecStore_run (im : JobImage) (t : TaskRec) (at_ : Place) (v : VecBody) (c0 : Nat) (sc : Int) (nb : Nat) (x : VecSt) (s :
    State) (hz : Run flds st0 s) (hw : [.out, .coreStore, .memStacks, .mem].all flds.contains = true) : Run flds st0 (vecStore
    im t at_ v c0 sc nb x s).1 := by
  refine .lift ?_ hz hw
  unfold vecStore
  repeat' (first
    | with_reducible assumption
    | with_reducible exact Run.refl _ _
    | (extract_lets +onlyGivenNames x
       first | (apply Run.cut (x := x); rotate_left 1; intro h; clear_value x; rotate_left 1; subst x) | clear_value x)
    | with_reducible apply ptrWriteH_run
    | with_reducible apply ptrWrite_run
    | with_reducible apply storeStash_run
    | (with_reducible apply Run.foldl; rotate_left 1; intro e x h)
    | (with_reducible apply Run.foldl1; rotate_left 1; intro e x h)
    | dsimp only
    | (split; rename_i x r heq; obtain rfl : (_ : State) = x := congrArg Prod.fst heq)
    | split
    | decide)

end Sys2Proof.Laws
end

