-- ==== Sys2Proof/Laws/RunTaskRun.lean ====
section
/-! SUPPORT. What the operations may change: one lemma for each operation of Sys2Proof/Machine/TaskRun.lean. -/

set_option linter.unusedTactic false
set_option linter.unreachableTactic false

namespace Sys2Proof.Laws

open Machine

variable {flds : List StateField} {st0 : State}

/-- What a task's work may change. -/
def WorkRun (flds : List StateField) (st0 : State) : Work → Prop
  | .wait s => Run flds st0 s
  | .bad _ => True
  | .fault _ => True
  | .badPart s => Run flds st0 s
  | .done s _ => Run flds st0 s

theorem WorkRun.done {s : State} {fx : TaskFx} (h : Run flds st0 s) : WorkRun flds st0 (.done s fx) := h

theorem WorkRun.bad {m : Mism} : WorkRun flds st0 (.bad m) := trivial

theorem WorkRun.fault {p : ProductFault} : WorkRun flds st0 (.fault p) := trivial

theorem WorkRun.badPart {s : State} (h : Run flds st0 s) : WorkRun flds st0 (.badPart s) := h

theorem WorkRun.wait {s : State} (h : Run flds st0 s) : WorkRun flds st0 (.wait s) := h

theorem WorkRun.cut {k : Work} {x : State} (h : Run flds st0 x) (hk : Run flds st0 x → WorkRun flds st0 k) : WorkRun flds st0 k := hk h

theorem WorkRun.lift {v : List StateField} {s : State} {k : Work} (hk : WorkRun v s k) (h : Run flds st0 s) (hv : v.all flds.contains = true) :
    WorkRun flds st0 k := by
  cases k with
  | wait => exact h.trans hk hv
  | bad => trivial
  | fault => trivial
  | badPart => exact h.trans hk hv
  | done => exact h.trans hk hv

theorem storeExch_run (r : ExchRec) (s : State) (hz : Run flds st0 s) (hw : [.exec].all flds.contains = true) : Run flds st0
    (storeExch r s) := by
  refine .lift ?_ hz hw
  unfold storeExch
  repeat' (first
    | with_reducible assumption
    | with_reducible exact Run.refl _ _
    | (extract_lets +onlyGivenNames x
       first | (apply Run.cut (x := x); rotate_left 1; intro h; clear_value x; rotate_left 1; subst x) | clear_value x)
    | decide
    | (with_reducible refine Run.mk_upd rfl ?_ ?_ rfl rfl rfl rfl rfl
       rotate_left 1; exact (fun f hf => by cases f <;> first | exact absurd hf (by decide) | exact Eq.refl _)))

theorem exchSend_run (im : JobImage) (t : TaskRec) (step kind phase : Nat) (dsts : List Nat) (data : Bytes) (s : State) (hz :
    Run flds st0 s) (hw : [.out, .exec, .fabric].all flds.contains = true) : Run flds st0 (exchSend im t step kind phase dsts
    data s) := by
  refine .lift ?_ hz hw
  unfold exchSend
  repeat' (first
    | with_reducible assumption
    | with_reducible exact Run.refl _ _
    | (extract_lets +onlyGivenNames x
       first | (apply Run.cut (x := x); rotate_left 1; intro h; clear_value x; rotate_left 1; subst x) | clear_value x)
    | with_reducible apply sendLog_run
    | with_reducible apply storeExch_run
    | (with_reducible apply Run.foldl; rotate_left 1; intro e x h)
    | decide)

theorem exchOnce_run (im : JobImage) (t : TaskRec) (p : PeerSet) (step kind phase : Nat) (data : Bytes) (s : State) (hz : Run
    flds st0 s) (hw : [.out, .exec, .fabric].all flds.contains = true) : Run flds st0 (exchOnce im t p step kind phase data s)
    := by
  refine .lift ?_ hz hw
  unfold exchOnce
  repeat' (first
    | with_reducible assumption
    | with_reducible exact Run.refl _ _
    | with_reducible apply exchSend_run
    | split
    | decide)

theorem landParts_run (im : JobImage) (t : TaskRec) (g : Gemm) (parts : List Bytes) (s : State) (hz : Run flds st0 s) (hw :
    [.out, .coreStore, .memStacks, .mem].all flds.contains = true) : Run flds st0 (landParts im t g parts s) := by
  refine .lift ?_ hz hw
  unfold landParts
  repeat' (first
    | with_reducible assumption
    | with_reducible exact Run.refl _ _
    | with_reducible apply ptrWrite_run
    | decide)

theorem sendParts_run (im : JobImage) (t : TaskRec) (p : PeerSet) (step : Nat) (data : Bytes) (s : State) (hz : Run flds st0 s)
    (hw : [.out, .exec, .fabric].all flds.contains = true) : Run flds st0 (sendParts im t p step data s) := by
  refine .lift ?_ hz hw
  unfold sendParts
  repeat' (first
    | with_reducible assumption
    | with_reducible exact Run.refl _ _
    | (extract_lets +onlyGivenNames x
       first | (apply Run.cut (x := x); rotate_left 1; intro h; clear_value x; rotate_left 1; subst x) | clear_value x)
    | with_reducible apply exchSend_run
    | split
    | decide)

theorem dropParts_run (t : TaskRec) (step : Nat) (s : State) (hz : Run flds st0 s) (hw : [.exec].all flds.contains = true) : Run
    flds st0 (dropParts t step s) := by
  refine .lift ?_ hz hw
  unfold dropParts
  repeat' (first
    | with_reducible assumption
    | with_reducible exact Run.refl _ _
    | (extract_lets +onlyGivenNames x
       first | (apply Run.cut (x := x); rotate_left 1; intro h; clear_value x; rotate_left 1; subst x) | clear_value x)
    | decide
    | (with_reducible refine Run.mk_upd rfl ?_ ?_ rfl rfl rfl rfl rfl
       rotate_left 1; exact (fun f hf => by cases f <;> first | exact absurd hf (by decide) | exact Eq.refl _)))

theorem setSticky_run (at_ : Place) (s : State) (hz : Run flds st0 s) (hw : [.cores].all flds.contains = true) : Run flds st0
    (setSticky at_ s) := by
  refine .lift ?_ hz hw
  unfold setSticky
  repeat' (first
    | with_reducible assumption
    | with_reducible exact Run.refl _ _
    | (extract_lets +onlyGivenNames x
       first | (apply Run.cut (x := x); rotate_left 1; intro h; clear_value x; rotate_left 1; subst x) | clear_value x)
    | with_reducible apply modCore_run
    | split
    | decide
    | (with_reducible refine Run.mk_upd rfl ?_ ?_ rfl rfl rfl rfl rfl
       rotate_left 1; exact (fun f hf => by cases f <;> first | exact absurd hf (by decide) | exact Eq.refl _)))

theorem nativeWork_run (im : JobImage) (t : TaskRec) (step : Nat) (l : List (Nat × Nat × Nat × Int)) (s : State) (hz : Run flds st0 s)
    (hw : [.out, .cores, .exec, .coreStore, .memStacks, .mem, .fabric].all flds.contains = true) : WorkRun flds st0 (nativeWork im t step l s) := by
  refine .lift ?_ hz hw
  unfold nativeWork
  extract_lets -lift +onlyGivenNames g at_
  split
  · trivial
  · rename_i rows tiles _
    split
    · split <;> trivial
    · extract_lets -lift +onlyGivenNames grd finish
      have hf : ∀ ps mus s', Run [.out, .cores, .exec, .coreStore, .memStacks, .mem, .fabric] s s' → WorkRun [.out, .cores, .exec, .coreStore, .memStacks, .mem, .fabric] s (finish ps mus s') := by
        intro ps mus s' h
        subst finish
        dsimp only
        apply WorkRun.done
        split
        · exact setSticky_run _ _ (gemmStore_run _ _ _ _ _ _ _ (operandFx_run _ _ _ _ _ h (by decide)) (by decide)) (by decide)
        · exact gemmStore_run _ _ _ _ _ _ _ (operandFx_run _ _ _ _ _ h (by decide)) (by decide)
      clear_value finish
      repeat' (first
        | with_reducible assumption
        | with_reducible exact Run.refl _ _
        | (extract_lets +onlyGivenNames x
           first | (apply Run.cut (x := x); rotate_left 1; intro h; clear_value x; rotate_left 1; subst x)
                 | (apply WorkRun.cut (x := x); rotate_left 1; intro h; clear_value x; rotate_left 1; subst x)
                 | clear_value x)
        | with_reducible apply hf
        | with_reducible apply WorkRun.done
        | with_reducible apply WorkRun.wait
        | with_reducible apply WorkRun.badPart
        | with_reducible apply exchOnce_run
        | with_reducible apply landParts_run
        | with_reducible apply sendParts_run
        | with_reducible apply dropParts_run
        | with_reducible apply operandFx_run
        | (split; rename_i x r heq; obtain rfl : _ = x := congrArg Prod.fst heq)
        | split
        | decide)

theorem wgradWork_run (im : JobImage) (t : TaskRec) (step : Nat) (l : List (Nat × Nat × Nat × Int)) (s : State) (hz : Run flds st0 s)
    (hw : [.out, .cores, .exec, .coreStore, .memStacks, .mem, .fabric].all flds.contains = true) : WorkRun flds st0 (wgradWork im t step l s) := by
  refine .lift ?_ hz hw
  unfold wgradWork
  extract_lets -lift +onlyGivenNames g at_
  split
  · trivial
  · split
    extract_lets -lift +onlyGivenNames es n nf count gauges fx s1 w store
    have h1 : Run [.out, .cores, .exec, .coreStore, .memStacks, .mem, .fabric] s s1 := ptrWrite_run _ _ _ _ _ (Run.refl _ _) (by decide)
    have hs : ∀ es s', Run [.out, .cores, .exec, .coreStore, .memStacks, .mem, .fabric] s s' → Run [.out, .cores, .exec, .coreStore, .memStacks, .mem, .fabric] s (store es s') := by
      intro es s' h
      subst store
      dsimp only
      exact Run.foldl h fun a x h => ptrWrite_run _ _ _ _ _ h (by decide)
    clear_value store fx s1
    repeat' (first
      | with_reducible assumption
      | (extract_lets +onlyGivenNames x; clear_value x)
      | with_reducible apply hs
      | with_reducible apply WorkRun.done
      | with_reducible apply WorkRun.wait
      | with_reducible apply WorkRun.badPart
      | with_reducible apply landParts_run
      | with_reducible apply sendParts_run
      | with_reducible apply dropParts_run
      | split
      | decide)

theorem mxWork_run (im : JobImage) (t : TaskRec) (s : State) (hz : Run flds st0 s) (hw : [.out, .coreStore, .memStacks,
    .mem].all flds.contains = true) : WorkRun flds st0 (mxWork im t s) := by
  refine .lift ?_ hz hw
  unfold mxWork
  repeat' (first
    | with_reducible assumption
    | with_reducible exact Run.refl _ _
    | (extract_lets +onlyGivenNames x
       first | (apply Run.cut (x := x); rotate_left 1; intro h; clear_value x; rotate_left 1; subst x) | (apply WorkRun.cut (x := x); rotate_left 1; intro h; clear_value x; rotate_left 1; subst x)
             | clear_value x)
    | with_reducible apply WorkRun.done
    | with_reducible apply WorkRun.wait
    | with_reducible exact WorkRun.bad
    | with_reducible apply storeRow_run
    | (with_reducible apply Run.foldl; rotate_left 1; intro e x h)
    | (with_reducible apply Run.foldl1; rotate_left 1; intro e x h)
    | (split; rename_i x r heq; obtain rfl : (_ : State) = x := congrArg Prod.fst heq)
    | split
    | decide
    | (with_reducible refine Run.mk_upd rfl ?_ ?_ rfl rfl rfl rfl rfl
       rotate_left 1; exact (fun f hf => by cases f <;> first | exact absurd hf (by decide) | exact Eq.refl _)))

theorem gemmWork_run (im : JobImage) (t : TaskRec) (step : Nat) (fs : List (Nat × Nat × Nat × Int)) (s : State) (hz : Run flds
    st0 s) (hw : [.out, .exec, .cores, .coreStore, .memStacks, .mem, .fabric].all flds.contains = true) : WorkRun flds st0
    (gemmWork im t step fs s) := by
  refine .lift ?_ hz hw
  unfold gemmWork
  repeat' (first
    | with_reducible assumption
    | with_reducible exact Run.refl _ _
    | with_reducible apply WorkRun.done
    | with_reducible apply WorkRun.wait
    | with_reducible exact WorkRun.bad
    | with_reducible apply nativeWork_run
    | with_reducible apply wgradWork_run
    | with_reducible apply mxWork_run
    | split
    | decide
    | (with_reducible refine Run.mk_upd rfl ?_ ?_ rfl rfl rfl rfl rfl
       rotate_left 1; exact (fun f hf => by cases f <;> first | exact absurd hf (by decide) | exact Eq.refl _)))

theorem vecPhases_run (im : JobImage) (t : TaskRec) (step : Nat) (v : VecBody) (i : VecIn) (rows : List (List F32)) (n : Nat) (s : State)
    (hz : Run flds st0 s) (hw : [.out, .exec, .fabric].all flds.contains = true) : Run flds st0 (vecPhases im t step v i rows n s).1 := by
  induction n generalizing s with
  | zero => exact hz
  | succ n ih =>
    unfold vecPhases
    extract_lets p recs
    clear_value p recs
    split
    · exact hz
    · split
      · exact hz
      · exact ih _ (exchOnce_run _ _ _ _ _ _ _ _ hz hw)

theorem vecWork_run (im : JobImage) (t : TaskRec) (step : Nat) (s : State) (hz : Run flds st0 s) (hw : [.out, .exec, .coreStore,
    .memStacks, .mem, .fabric].all flds.contains = true) : WorkRun flds st0 (vecWork im t step s) := by
  refine .lift ?_ hz hw
  unfold vecWork
  repeat' (first
    | with_reducible assumption
    | with_reducible exact Run.refl _ _
    | (extract_lets +onlyGivenNames x
       first | (apply Run.cut (x := x); rotate_left 1; intro h; clear_value x; rotate_left 1; subst x) | (apply WorkRun.cut (x := x); rotate_left 1; intro h; clear_value x; rotate_left 1; subst x)
             | clear_value x)
    | with_reducible apply WorkRun.done
    | with_reducible apply WorkRun.wait
    | with_reducible exact WorkRun.bad
    | with_reducible apply vecStore_run
    | with_reducible apply vecPhases_run
    | (split; rename_i x r heq; obtain rfl : (_ : State) = x := congrArg Prod.fst heq)
    | split
    | decide
    | (with_reducible refine Run.mk_upd rfl ?_ ?_ rfl rfl rfl rfl rfl
       rotate_left 1; exact (fun f hf => by cases f <;> first | exact absurd hf (by decide) | exact Eq.refl _)))

theorem addWatch_run (i : Fin 32) (w : Watch) (s : State) (hz : Run flds st0 s) (hw : [.memStacks].all flds.contains = true) :
    Run flds st0 (addWatch i w s) := by
  refine .lift ?_ hz hw
  unfold addWatch
  repeat' (first
    | with_reducible assumption
    | with_reducible exact Run.refl _ _
    | (extract_lets +onlyGivenNames x
       first | (apply Run.cut (x := x); rotate_left 1; intro h; clear_value x; rotate_left 1; subst x) | clear_value x)
    | with_reducible apply modStack_run
    | decide
    | (with_reducible refine Run.mk_upd rfl ?_ ?_ rfl rfl rfl rfl rfl
       rotate_left 1; exact (fun f hf => by cases f <;> first | exact absurd hf (by decide) | exact Eq.refl _)))

theorem refetch_run (w : Watch) (s : State) (hz : Run flds st0 s) (hw : [.coreStore, .memStacks, .mem].all flds.contains = true)
    : Run flds st0 (refetch w s) := by
  refine .lift ?_ hz hw
  unfold refetch
  repeat' (first
    | with_reducible assumption
    | with_reducible exact Run.refl _ _
    | with_reducible apply touch_run
    | with_reducible apply storeWrite_run
    | split
    | decide)

theorem readPrefetch_run (d c off len : Nat) (s : State) (hz : Run flds st0 s) (hw : [.coreStore, .memStacks, .mem].all
    flds.contains = true) : Run flds st0 (readPrefetch d c off len s) := by
  refine .lift ?_ hz hw
  unfold readPrefetch
  repeat' (first
    | with_reducible assumption
    | with_reducible exact Run.refl _ _
    | (extract_lets +onlyGivenNames x
       first | (apply Run.cut (x := x); rotate_left 1; intro h; clear_value x; rotate_left 1; subst x) | clear_value x)
    | with_reducible apply modStack_run
    | with_reducible apply refetch_run
    | (with_reducible apply Run.foldl; rotate_left 1; intro e x h)
    | split
    | decide
    | (with_reducible refine Run.mk_upd rfl ?_ ?_ rfl rfl rfl rfl rfl
       rotate_left 1; exact (fun f hf => by cases f <;> first | exact absurd hf (by decide) | exact Eq.refl _)))

theorem readPrefetches_run (im : JobImage) (t : TaskRec) (s : State) (hz : Run flds st0 s) (hw : [.coreStore, .memStacks,
    .mem].all flds.contains = true) : Run flds st0 (readPrefetches im t s) := by
  refine .lift ?_ hz hw
  unfold readPrefetches
  repeat' (first
    | with_reducible assumption
    | with_reducible exact Run.refl _ _
    | (extract_lets +onlyGivenNames x
       first | (apply Run.cut (x := x); rotate_left 1; intro h; clear_value x; rotate_left 1; subst x) | clear_value x)
    | with_reducible apply readPrefetch_run
    | (with_reducible apply Run.foldl; rotate_left 1; intro e x h)
    | split
    | decide
    | (with_reducible refine Run.mk_upd rfl ?_ ?_ rfl rfl rfl rfl rfl
       rotate_left 1; exact (fun f hf => by cases f <;> first | exact absurd hf (by decide) | exact Eq.refl _)))

theorem moveWork_run (t : TaskRec) (s : State) (hz : Run flds st0 s) (hw : [.out, .coreStore, .memStacks, .mem].all
    flds.contains = true) : WorkRun flds st0 (moveWork t s) := by
  refine .lift ?_ hz hw
  unfold moveWork
  repeat' (first
    | with_reducible assumption
    | with_reducible exact Run.refl _ _
    | (extract_lets +onlyGivenNames x
       first | (apply Run.cut (x := x); rotate_left 1; intro h; clear_value x; rotate_left 1; subst x) | (apply WorkRun.cut (x := x); rotate_left 1; intro h; clear_value x; rotate_left 1; subst x)
             | clear_value x)
    | with_reducible apply WorkRun.done
    | with_reducible apply WorkRun.wait
    | with_reducible exact WorkRun.bad
    | with_reducible apply ptrWriteH_run
    | with_reducible apply addWatch_run
    | split
    | decide
    | (with_reducible refine Run.mk_upd rfl ?_ ?_ rfl rfl rfl rfl rfl
       rotate_left 1; exact (fun f hf => by cases f <;> first | exact absurd hf (by decide) | exact Eq.refl _)))

theorem fillCounts_run (im : JobImage) (t : TaskRec) (b : SendBody) (step : Nat) (s : State) (hz : Run flds st0 s) (hw : [.out,
    .coreStore, .memStacks, .mem].all flds.contains = true) : Run flds st0 (fillCounts im t b step s) := by
  refine .lift ?_ hz hw
  unfold fillCounts
  repeat' (first
    | with_reducible assumption
    | with_reducible exact Run.refl _ _
    | (extract_lets +onlyGivenNames x
       first | (apply Run.cut (x := x); rotate_left 1; intro h; clear_value x; rotate_left 1; subst x) | clear_value x)
    | with_reducible apply ptrWrite_run
    | split
    | decide
    | (with_reducible refine Run.mk_upd rfl ?_ ?_ rfl rfl rfl rfl rfl
       rotate_left 1; exact (fun f hf => by cases f <;> first | exact absurd hf (by decide) | exact Eq.refl _)))

theorem fillSquares_run (im : JobImage) (t : TaskRec) (b : SendBody) (r : PlanEntry) (step : Nat) (s : State) (hz : Run flds st0
    s) (hw : [.out, .coreStore, .memStacks, .mem].all flds.contains = true) : Run flds st0 (fillSquares im t b r step s) := by
  refine .lift ?_ hz hw
  unfold fillSquares
  repeat' (first
    | with_reducible assumption
    | with_reducible exact Run.refl _ _
    | with_reducible apply ptrWrite_run
    | split
    | decide
    | (with_reducible refine Run.mk_upd rfl ?_ ?_ rfl rfl rfl rfl rfl
       rotate_left 1; exact (fun f hf => by cases f <;> first | exact absurd hf (by decide) | exact Eq.refl _)))

theorem fillBuffer_run (im : JobImage) (t : TaskRec) (b : SendBody) (r : PlanEntry) (step : Nat) (s : State) (hz : Run flds st0
    s) (hw : [.out, .coreStore, .memStacks, .mem].all flds.contains = true) : Run flds st0 (fillBuffer im t b r step s) := by
  refine .lift ?_ hz hw
  unfold fillBuffer
  repeat' (first
    | with_reducible assumption
    | with_reducible exact Run.refl _ _
    | with_reducible apply fillCounts_run
    | with_reducible apply fillSquares_run
    | split
    | decide
    | (with_reducible refine Run.mk_upd rfl ?_ ?_ rfl rfl rfl rfl rfl
       rotate_left 1; exact (fun f hf => by cases f <;> first | exact absurd hf (by decide) | exact Eq.refl _)))

theorem sendWork_run (im : JobImage) (t : TaskRec) (step : Nat) (s : State) (hz : Run flds st0 s)
    (hw : [.out, .hostA, .hostB, .i3c, .warden, .seq, .log, .job, .exec, .gauges, .cores, .coreStore, .memStacks, .mem, .fabric, .twin, .inspect].all flds.contains = true) : WorkRun flds st0 (sendWork im t step s) := by
  unfold sendWork
  extract_lets b
  split
  · exact hz
  · rename_i r _
    extract_lets s1 vs q p
    have h1 : Run flds st0 s1 := fillBuffer_run _ _ _ _ _ _ hz (sub_all hw (by decide))
    clear_value s1 p
    have h2 := startOwn_run r step p s1 h1 (sub_all hw (by decide))
    split
    rename_i s2 bad heq
    rw [heq] at h2
    exact WorkRun.done (failedHop_run _ _ _ _ h2 (sub_all hw (by decide)))

theorem touchReads_run (im : JobImage) (t : TaskRec) (s : State) (hz : Run flds st0 s) (hw : [.memStacks, .mem].all
    flds.contains = true) : Run flds st0 (touchReads im t s) := by
  refine .lift ?_ hz hw
  unfold touchReads
  repeat' (first
    | with_reducible assumption
    | with_reducible exact Run.refl _ _
    | (extract_lets +onlyGivenNames x
       first | (apply Run.cut (x := x); rotate_left 1; intro h; clear_value x; rotate_left 1; subst x) | clear_value x)
    | with_reducible apply touch_run
    | (with_reducible apply Run.foldl; rotate_left 1; intro e x h)
    | decide)

theorem taskWork_run (im : JobImage) (t : TaskRec) (step : Nat) (fs : List (Nat × Nat × Nat × Int)) (s : State) (hz : Run flds st0 s)
    (hw : [.out, .hostA, .hostB, .i3c, .warden, .seq, .log, .job, .exec, .gauges, .cores, .coreStore, .memStacks, .mem, .fabric, .twin, .inspect].all flds.contains = true) : WorkRun flds st0 (taskWork im t step fs s) := by
  unfold taskWork
  split
  · exact gemmWork_run _ _ _ _ _ hz (sub_all hw (by decide))
  · exact vecWork_run _ _ _ _ hz (sub_all hw (by decide))
  · split
    · exact WorkRun.done (runUpdate_run _ _ _ _ _ _ (by assumption) hz (sub_all hw (by decide)))
    · trivial
  · exact moveWork_run _ _ hz (sub_all hw (by decide))
  · exact sendWork_run _ _ _ _ hz hw

theorem startExchanges_run (im : JobImage) (t : TaskRec) (step : Nat) (s : State) (hz : Run flds st0 s)
    (hw : [.out, .exec, .coreStore, .memStacks, .mem, .fabric].all flds.contains = true) :
    Run flds st0 (startExchanges im t step s) := by
  refine .lift ?_ hz hw
  unfold startExchanges
  have hv := vecWork_run (flds := [.out, .exec, .coreStore, .memStacks, .mem, .fabric]) im t step s (.refl _ s) (by decide)
  split
  · exact .refl _ _
  · split
    · split
      · split
        · exact exchOnce_run _ _ _ _ _ _ _ _ (.refl _ _) (by decide)
        · exact .refl _ _
      · exact .refl _ _
    · split
      · rename_i heq
        rw [heq] at hv
        exact hv
      · exact .refl _ _

end Sys2Proof.Laws
end

