-- ==== Sys2Proof/Laws/RunFaults.lean ====
section
/-! SUPPORT. What the operations may change: one lemma for each operation of Sys2Proof/Machine/Faults.lean. -/

set_option linter.unusedTactic false
set_option linter.unreachableTactic false

namespace Sys2Proof.Laws

open Machine

variable {flds : List StateField} {st0 : State}

theorem breachTask_run (im : JobImage) (t : TaskRec) (step : Nat) (s : State) (hz : Run flds st0 s) (hw : [.out, .hostA, .hostB,
    .i3c, .warden, .seq, .log, .job, .exec, .cores, .coreStore, .memStacks, .mem, .fabric, .twin].all flds.contains = true) :
    Run flds st0 (breachTask im t step s) := by
  refine .lift ?_ hz hw
  unfold breachTask
  repeat' (first
    | with_reducible assumption
    | with_reducible exact Run.refl _ _
    | with_reducible apply sendNotice_run
    | with_reducible apply applyBreach_run
    | decide)

theorem setAttempts_run (step addr n : Nat) (s : State) (hz : Run flds st0 s) (hw : [.exec].all flds.contains = true) : Run flds
    st0 (setAttempts step addr n s) := by
  refine .lift ?_ hz hw
  unfold setAttempts
  repeat' (first
    | with_reducible assumption
    | with_reducible exact Run.refl _ _
    | (extract_lets +onlyGivenNames x
       first | (apply Run.cut (x := x); rotate_left 1; intro h; clear_value x; rotate_left 1; subst x) | clear_value x)
    | decide
    | (with_reducible refine Run.mk_upd rfl ?_ ?_ rfl rfl rfl rfl rfl
       rotate_left 1; exact (fun f hf => by cases f <;> first | exact absurd hf (by decide) | exact Eq.refl _)))

theorem rerunTask_run (step : Nat) (s : State) (t : TaskRec) (hz : Run flds st0 s) (hw : [.exec].all flds.contains = true) : Run
    flds st0 (rerunTask step s t) := by
  refine .lift ?_ hz hw
  unfold rerunTask
  repeat' (first
    | with_reducible assumption
    | with_reducible exact Run.refl _ _
    | (extract_lets +onlyGivenNames x
       first | (apply Run.cut (x := x); rotate_left 1; intro h; clear_value x; rotate_left 1; subst x) | clear_value x)
    | with_reducible apply setRun_run
    | split
    | decide
    | (with_reducible refine Run.mk_upd rfl ?_ ?_ rfl rfl rfl rfl rfl
       rotate_left 1; exact (fun f hf => by cases f <;> first | exact absurd hf (by decide) | exact Eq.refl _)))

theorem rerunProducers_run (im : JobImage) (unit step : Nat) (m : Mism) (s : State) (hz : Run flds st0 s) (hw : [.exec].all
    flds.contains = true) : Run flds st0 (rerunProducers im unit step m s) := by
  refine .lift ?_ hz hw
  unfold rerunProducers
  repeat' (first
    | with_reducible assumption
    | with_reducible exact Run.refl _ _
    | (extract_lets +onlyGivenNames x
       first | (apply Run.cut (x := x); rotate_left 1; intro h; clear_value x; rotate_left 1; subst x) | clear_value x)
    | with_reducible apply rerunTask_run
    | (with_reducible apply Run.foldl; rotate_left 1; intro e x h)
    | decide)

theorem streamMismatch_run (im : JobImage) (t : TaskRec) (step : Nat) (m : Mism) (s : State) (hz : Run flds st0 s) (hw : [.out,
    .hostA, .hostB, .i3c, .warden, .seq, .log, .job, .exec, .gauges, .cores, .coreStore, .memStacks, .mem, .fabric, .twin,
    .inspect].all flds.contains = true) : Run flds st0 (streamMismatch im t step m s) := by
  refine .lift ?_ hz hw
  unfold streamMismatch
  repeat' (first
    | with_reducible assumption
    | with_reducible exact Run.refl _ _
    | (extract_lets +onlyGivenNames x
       first | (apply Run.cut (x := x); rotate_left 1; intro h; clear_value x; rotate_left 1; subst x) | clear_value x)
    | with_reducible apply logAt_run
    | with_reducible apply logEv_run
    | with_reducible apply gaugeIn_run
    | with_reducible apply failHere_run
    | with_reducible apply regenTensor_run
    | with_reducible apply breachTask_run
    | with_reducible apply setAttempts_run
    | with_reducible apply rerunProducers_run
    | split
    | decide)

theorem computeFault_run (im : JobImage) (t : TaskRec) (step : Nat) (f : ProductFault) (s : State) (hz : Run flds st0 s) (hw :
    [.out, .hostA, .hostB, .i3c, .warden, .seq, .log, .job, .exec, .dies, .cores, .coreStore, .memStacks, .mem, .fabric, .twin,
    .flash, .inspect].all flds.contains = true) : Run flds st0 (computeFault im t step f s) := by
  refine .lift ?_ hz hw
  unfold computeFault
  repeat' (first
    | with_reducible assumption
    | with_reducible exact Run.refl _ _
    | (extract_lets +onlyGivenNames x
       first | (apply Run.cut (x := x); rotate_left 1; intro h; clear_value x; rotate_left 1; subst x) | clear_value x)
    | with_reducible apply logAt_run
    | with_reducible apply mapOut_run
    | with_reducible apply breachTask_run
    | split
    | decide
    | (with_reducible refine Run.mk_upd rfl ?_ ?_ rfl rfl rfl rfl rfl
       rotate_left 1; exact (fun f hf => by cases f <;> first | exact absurd hf (by decide) | exact Eq.refl _)))

theorem productFault_run (im : JobImage) (t : TaskRec) (step : Nat) (f : ProductFault) (s : State) (hz : Run flds st0 s) (hw :
    [.out, .hostA, .hostB, .i3c, .warden, .seq, .log, .job, .exec, .gauges, .dies, .cores, .coreStore, .memStacks, .mem,
    .fabric, .twin, .flash, .inspect].all flds.contains = true) : Run flds st0 (productFault im t step f s) := by
  refine .lift ?_ hz hw
  unfold productFault
  repeat' (first
    | with_reducible assumption
    | with_reducible exact Run.refl _ _
    | with_reducible apply streamMismatch_run
    | with_reducible apply computeFault_run
    | split
    | decide)

theorem endProduct_run (im : JobImage) (t : TaskRec) (r : TaskRun) (slab col chunk : Nat) (fs : List ArrayFault) (s : State) (hz
    : Run flds st0 s) (hw : [.out, .hostA, .hostB, .i3c, .warden, .seq, .log, .job, .exec, .gauges, .dies, .cores, .coreStore,
    .memStacks, .mem, .fabric, .twin, .flash, .inspect].all flds.contains = true) : Run flds st0 (endProduct im t r slab col
    chunk fs s) := by
  refine .lift ?_ hz hw
  unfold endProduct
  repeat' (first
    | with_reducible assumption
    | with_reducible exact Run.refl _ _
    | (extract_lets +onlyGivenNames x
       first | (apply Run.cut (x := x); rotate_left 1; intro h; clear_value x; rotate_left 1; subst x) | clear_value x)
    | with_reducible apply setRun_run
    | with_reducible apply streamMismatch_run
    | with_reducible apply productFault_run
    | split
    | decide
    | (with_reducible refine Run.mk_upd rfl ?_ ?_ rfl rfl rfl rfl rfl
       rotate_left 1; exact (fun f hf => by cases f <;> first | exact absurd hf (by decide) | exact Eq.refl _)))

theorem fallbackNotice_run (t : TaskRec) (step : Nat) (s : State) (hz : Run flds st0 s) (hw : [.out, .hostA, .hostB, .i3c,
    .warden, .seq, .log, .job, .exec, .fabric, .twin].all flds.contains = true) : Run flds st0 (fallbackNotice t step s) := by
  refine .lift ?_ hz hw
  unfold fallbackNotice
  repeat' (first
    | with_reducible assumption
    | with_reducible exact Run.refl _ _
    | with_reducible apply sendNotice_run
    | decide)

theorem sendFallbacks_run (t : TaskRec) (step c : Nat) (s : State) (hz : Run flds st0 s) (hw : [.out, .hostA, .hostB, .i3c,
    .warden, .seq, .log, .job, .exec, .fabric, .twin].all flds.contains = true) : Run flds st0 (sendFallbacks t step c s) := by
  refine .lift ?_ hz hw
  unfold sendFallbacks
  repeat' (first
    | with_reducible assumption
    | with_reducible exact Run.refl _ _
    | (extract_lets +onlyGivenNames x
       first | (apply Run.cut (x := x); rotate_left 1; intro h; clear_value x; rotate_left 1; subst x) | clear_value x)
    | with_reducible apply fallbackNotice_run
    | (with_reducible apply Run.iter; rotate_left 1; intro x h)
    | decide)

theorem updateFallbacks_run (im : JobImage) (u : TaskRec) (step : Nat) (s : State) (hz : Run flds st0 s) (hw : [.out, .hostA,
    .hostB, .i3c, .warden, .seq, .log, .job, .exec, .fabric, .twin].all flds.contains = true) : Run flds st0 (updateFallbacks im
    u step s) := by
  refine .lift ?_ hz hw
  unfold updateFallbacks
  repeat' (first
    | with_reducible assumption
    | with_reducible exact Run.refl _ _
    | (extract_lets +onlyGivenNames x
       first | (apply Run.cut (x := x); rotate_left 1; intro h; clear_value x; rotate_left 1; subst x) | clear_value x)
    | with_reducible apply sendFallbacks_run
    | (with_reducible apply Run.foldl; rotate_left 1; intro e x h)
    | decide)

end Sys2Proof.Laws
end

