-- ==== Sys2Proof/Laws/RunHostRegs.lean ====
section
/-! SUPPORT. What an access of a host port may change: one lemma for each operation of Sys2Proof/Machine/HostRegs.lean. -/

set_option linter.unusedTactic false
set_option linter.unreachableTactic false

namespace Sys2Proof.Laws

open Machine

variable {flds : List StateField} {st0 : State}

theorem restartLease_run (s : State) (hz : Run flds st0 s) (hw : [.lock].all flds.contains = true) : Run flds st0 (restartLease
    s) := by
  refine .lift ?_ hz hw
  unfold restartLease
  repeat' (first
    | with_reducible assumption
    | with_reducible exact Run.refl _ _
    | (extract_lets +onlyGivenNames x
       first | (apply Run.cut (x := x); rotate_left 1; intro h; clear_value x; rotate_left 1; subst x) | clear_value x)
    | decide
    | (with_reducible refine Run.mk_upd rfl ?_ ?_ rfl rfl rfl rfl rfl
       rotate_left 1; exact (fun f hf => by cases f <;> first | exact absurd hf (by decide) | exact Eq.refl _)))

theorem logLock_run (what : Nat) (p : HPort) (s : State) (hz : Run flds st0 s) (hw : [.out, .hostA, .hostB, .seq, .log].all
    flds.contains = true) : Run flds st0 (logLock what p s) := by
  refine .lift ?_ hz hw
  unfold logLock
  repeat' (first
    | with_reducible assumption
    | with_reducible exact Run.refl _ _
    | with_reducible apply logEv_run
    | decide)

theorem freeLock_run (what : Nat) (s : State) (hz : Run flds st0 s) (hw : [.out, .hostA, .hostB, .lock, .seq, .log].all
    flds.contains = true) : Run flds st0 (freeLock what s) := by
  refine .lift ?_ hz hw
  unfold freeLock
  repeat' (first
    | with_reducible assumption
    | with_reducible exact Run.refl _ _
    | (extract_lets +onlyGivenNames x
       first | (apply Run.cut (x := x); rotate_left 1; intro h; clear_value x; rotate_left 1; subst x) | clear_value x)
    | with_reducible apply logLock_run
    | split
    | decide
    | (with_reducible refine Run.mk_upd rfl ?_ ?_ rfl rfl rfl rfl rfl
       rotate_left 1; exact (fun f hf => by cases f <;> first | exact absurd hf (by decide) | exact Eq.refl _)))

theorem acquireLock_run (p : HPort) (s : State) (hz : Run flds st0 s) (hw : [.out, .hostA, .hostB, .lock, .seq, .log].all
    flds.contains = true) : Run flds st0 (acquireLock p s) := by
  refine .lift ?_ hz hw
  unfold acquireLock
  repeat' (first
    | with_reducible assumption
    | with_reducible exact Run.refl _ _
    | (extract_lets +onlyGivenNames x
       first | (apply Run.cut (x := x); rotate_left 1; intro h; clear_value x; rotate_left 1; subst x) | clear_value x)
    | with_reducible apply restartLease_run
    | with_reducible apply logLock_run
    | decide
    | (with_reducible refine Run.mk_upd rfl ?_ ?_ rfl rfl rfl rfl rfl
       rotate_left 1; exact (fun f hf => by cases f <;> first | exact absurd hf (by decide) | exact Eq.refl _)))

theorem writeLock_run (p : HPort) (v : BitVec 32) (s : State) (hz : Run flds st0 s) (hw : [.out, .hostA, .hostB, .lock, .seq,
    .log].all flds.contains = true) : Run flds st0 (writeLock p v s) := by
  refine .lift ?_ hz hw
  unfold writeLock
  repeat' (first
    | with_reducible assumption
    | with_reducible exact Run.refl _ _
    | (extract_lets +onlyGivenNames x
       first | (apply Run.cut (x := x); rotate_left 1; intro h; clear_value x; rotate_left 1; subst x) | clear_value x)
    | with_reducible apply logDiff_run
    | with_reducible apply logIgnored_run
    | with_reducible apply restartLease_run
    | with_reducible apply freeLock_run
    | with_reducible apply acquireLock_run
    | split
    | decide
    | (with_reducible refine Run.mk_upd rfl ?_ ?_ rfl rfl rfl rfl rfl
       rotate_left 1; exact (fun f hf => by cases f <;> first | exact absurd hf (by decide) | exact Eq.refl _)))

theorem writeLease_run (p : HPort) (v : BitVec 32) (s : State) (hz : Run flds st0 s) (hw : [.out, .hostA, .hostB, .lock, .seq,
    .log].all flds.contains = true) : Run flds st0 (writeLease p v s) := by
  refine .lift ?_ hz hw
  unfold writeLease
  repeat' (first
    | with_reducible assumption
    | with_reducible exact Run.refl _ _
    | (extract_lets +onlyGivenNames x
       first | (apply Run.cut (x := x); rotate_left 1; intro h; clear_value x; rotate_left 1; subst x) | clear_value x)
    | with_reducible apply logDiff_run
    | with_reducible apply logIgnored_run
    | split
    | decide
    | (with_reducible refine Run.mk_upd rfl ?_ ?_ rfl rfl rfl rfl rfl
       rotate_left 1; exact (fun f hf => by cases f <;> first | exact absurd hf (by decide) | exact Eq.refl _)))

theorem logRing_run (p : HPort) (queue ev v : Nat) (s : State) (hz : Run flds st0 s) (hw : [.out, .hostA, .hostB, .seq,
    .log].all flds.contains = true) : Run flds st0 (logRing p queue ev v s) := by
  refine .lift ?_ hz hw
  unfold logRing
  repeat' (first
    | with_reducible assumption
    | with_reducible exact Run.refl _ _
    | with_reducible apply logEv_run
    | decide)

theorem badRing_run (p : HPort) (ev v : Nat) (s : State) (hz : Run flds st0 s) (hw : [.out, .hostA, .hostB, .seq, .log].all
    flds.contains = true) : Run flds st0 (badRing p ev v s) := by
  refine .lift ?_ hz hw
  unfold badRing
  repeat' (first
    | with_reducible assumption
    | with_reducible exact Run.refl _ _
    | (extract_lets +onlyGivenNames x
       first | (apply Run.cut (x := x); rotate_left 1; intro h; clear_value x; rotate_left 1; subst x) | clear_value x)
    | with_reducible apply modHost_run
    | with_reducible apply logRing_run
    | split
    | decide
    | (with_reducible refine Run.mk_upd rfl ?_ ?_ rfl rfl rfl rfl rfl
       rotate_left 1; exact (fun f hf => by cases f <;> first | exact absurd hf (by decide) | exact Eq.refl _)))

theorem writeCdb_run (p : HPort) (v : BitVec 32) (entries : List Bytes) (s : State) (hz : Run flds st0 s) (hw : [.out, .hostA,
    .hostB, .seq, .log].all flds.contains = true) : Run flds st0 (writeCdb p v entries s) := by
  refine .lift ?_ hz hw
  unfold writeCdb
  repeat' (first
    | with_reducible assumption
    | with_reducible exact Run.refl _ _
    | (extract_lets +onlyGivenNames x
       first | (apply Run.cut (x := x); rotate_left 1; intro h; clear_value x; rotate_left 1; subst x) | clear_value x)
    | with_reducible apply modHost_run
    | with_reducible apply logDiff_run
    | with_reducible apply badRing_run
    | split
    | decide
    | (with_reducible refine Run.mk_upd rfl ?_ ?_ rfl rfl rfl rfl rfl
       rotate_left 1; exact (fun f hf => by cases f <;> first | exact absurd hf (by decide) | exact Eq.refl _)))

theorem seeEntries_run (p : HPort) (s : State) (hz : Run flds st0 s) (hw : [.hostA, .hostB].all flds.contains = true) : Run flds
    st0 (seeEntries p s) := by
  refine .lift ?_ hz hw
  unfold seeEntries
  repeat' (first
    | with_reducible assumption
    | with_reducible exact Run.refl _ _
    | (extract_lets +onlyGivenNames x
       first | (apply Run.cut (x := x); rotate_left 1; intro h; clear_value x; rotate_left 1; subst x) | clear_value x)
    | with_reducible apply modHost_run
    | decide
    | (with_reducible refine Run.mk_upd rfl ?_ ?_ rfl rfl rfl rfl rfl
       rotate_left 1; exact (fun f hf => by cases f <;> first | exact absurd hf (by decide) | exact Eq.refl _)))

theorem modQueue_run (q : Nat) (p : HPort) (f : HwQueue → HwQueue) (s : State) (hz : Run flds st0 s) (hw : [.queues].all
    flds.contains = true) : Run flds st0 (modQueue q p f s) := by
  refine .lift ?_ hz hw
  unfold modQueue
  repeat' (first
    | with_reducible assumption
    | with_reducible exact Run.refl _ _
    | (extract_lets +onlyGivenNames x
       first | (apply Run.cut (x := x); rotate_left 1; intro h; clear_value x; rotate_left 1; subst x) | clear_value x)
    | decide
    | (with_reducible refine Run.mk_upd rfl ?_ ?_ rfl rfl rfl rfl rfl
       rotate_left 1; exact (fun f hf => by cases f <;> first | exact absurd hf (by decide) | exact Eq.refl _)))

theorem badQueueRing_run (p : HPort) (q v : Nat) (s : State) (hz : Run flds st0 s) (hw : [.out, .hostA, .hostB, .seq, .log,
    .queues].all flds.contains = true) : Run flds st0 (badQueueRing p q v s) := by
  refine .lift ?_ hz hw
  unfold badQueueRing
  repeat' (first
    | with_reducible assumption
    | with_reducible exact Run.refl _ _
    | (extract_lets +onlyGivenNames x
       first | (apply Run.cut (x := x); rotate_left 1; intro h; clear_value x; rotate_left 1; subst x) | clear_value x)
    | with_reducible apply logRing_run
    | with_reducible apply modQueue_run
    | split
    | decide
    | (with_reducible refine Run.mk_upd rfl ?_ ?_ rfl rfl rfl rfl rfl
       rotate_left 1; exact (fun f hf => by cases f <;> first | exact absurd hf (by decide) | exact Eq.refl _)))

theorem writeQdb_run (p : HPort) (q : Nat) (v : BitVec 32) (s : State) (hz : Run flds st0 s) (hw : [.out, .hostA, .hostB, .seq,
    .log, .queues].all flds.contains = true) : Run flds st0 (writeQdb p q v s) := by
  refine .lift ?_ hz hw
  unfold writeQdb
  repeat' (first
    | with_reducible assumption
    | with_reducible exact Run.refl _ _
    | (extract_lets +onlyGivenNames x
       first | (apply Run.cut (x := x); rotate_left 1; intro h; clear_value x; rotate_left 1; subst x) | clear_value x)
    | with_reducible apply logDiff_run
    | with_reducible apply modQueue_run
    | with_reducible apply badQueueRing_run
    | split
    | decide
    | (with_reducible refine Run.mk_upd rfl ?_ ?_ rfl rfl rfl rfl rfl
       rotate_left 1; exact (fun f hf => by cases f <;> first | exact absurd hf (by decide) | exact Eq.refl _)))

theorem writeRing_run (p : HPort) (off v : Nat) (f : Mailbox → Mailbox) (s : State) (hz : Run flds st0 s) (hw : [.out, .hostA,
    .hostB, .seq, .log].all flds.contains = true) : Run flds st0 (writeRing p off v f s) := by
  refine .lift ?_ hz hw
  unfold writeRing
  repeat' (first
    | with_reducible assumption
    | with_reducible exact Run.refl _ _
    | (extract_lets +onlyGivenNames x
       first | (apply Run.cut (x := x); rotate_left 1; intro h; clear_value x; rotate_left 1; subst x) | clear_value x)
    | with_reducible apply modHost_run
    | with_reducible apply logDiff_run
    | with_reducible apply logIgnored_run
    | split
    | decide
    | (with_reducible refine Run.mk_upd rfl ?_ ?_ rfl rfl rfl rfl rfl
       rotate_left 1; exact (fun f hf => by cases f <;> first | exact absurd hf (by decide) | exact Eq.refl _)))

theorem writeEn_run (p : HPort) (v : BitVec 32) (s : State) (hz : Run flds st0 s) (hw : [.out, .hostA, .hostB, .seq, .log].all
    flds.contains = true) : Run flds st0 (writeEn p v s) := by
  refine .lift ?_ hz hw
  unfold writeEn
  repeat' (first
    | with_reducible assumption
    | with_reducible exact Run.refl _ _
    | (extract_lets +onlyGivenNames x
       first | (apply Run.cut (x := x); rotate_left 1; intro h; clear_value x; rotate_left 1; subst x) | clear_value x)
    | with_reducible apply modHost_run
    | with_reducible apply logWrite_run
    | with_reducible apply logDiff_run
    | with_reducible apply seeEntries_run
    | split
    | decide
    | (with_reducible refine Run.mk_upd rfl ?_ ?_ rfl rfl rfl rfl rfl
       rotate_left 1; exact (fun f hf => by cases f <;> first | exact absurd hf (by decide) | exact Eq.refl _)))

theorem writeWbaseHi_run (p : HPort) (v : BitVec 32) (s : State) (hz : Run flds st0 s) (hw : [.out, .hostA, .hostB, .seq,
    .log].all flds.contains = true) : Run flds st0 (writeWbaseHi p v s) := by
  refine .lift ?_ hz hw
  unfold writeWbaseHi
  repeat' (first
    | with_reducible assumption
    | with_reducible exact Run.refl _ _
    | (extract_lets +onlyGivenNames x
       first | (apply Run.cut (x := x); rotate_left 1; intro h; clear_value x; rotate_left 1; subst x) | clear_value x)
    | with_reducible apply modHost_run
    | with_reducible apply logDiff_run
    | with_reducible apply logIgnored_run
    | split
    | decide
    | (with_reducible refine Run.mk_upd rfl ?_ ?_ rfl rfl rfl rfl rfl
       rotate_left 1; exact (fun f hf => by cases f <;> first | exact absurd hf (by decide) | exact Eq.refl _)))

theorem writeWbaseLo_run (p : HPort) (v : BitVec 32) (s : State) (hz : Run flds st0 s) (hw : [.out, .hostA, .hostB, .seq,
    .log].all flds.contains = true) : Run flds st0 (writeWbaseLo p v s) := by
  refine .lift ?_ hz hw
  unfold writeWbaseLo
  repeat' (first
    | with_reducible assumption
    | with_reducible exact Run.refl _ _
    | (extract_lets +onlyGivenNames x
       first | (apply Run.cut (x := x); rotate_left 1; intro h; clear_value x; rotate_left 1; subst x) | clear_value x)
    | with_reducible apply modHost_run
    | with_reducible apply logIgnored_run
    | split
    | decide
    | (with_reducible refine Run.mk_upd rfl ?_ ?_ rfl rfl rfl rfl rfl
       rotate_left 1; exact (fun f hf => by cases f <;> first | exact absurd hf (by decide) | exact Eq.refl _)))

theorem writeWord_run (p : HPort) (off : Nat) (v : BitVec 32) (s : State) (hz : Run flds st0 s) (hw : [.out, .hostA, .hostB,
    .lock, .seq, .log, .queues].all flds.contains = true) : Run flds st0 (writeWord p off v s) := by
  refine .lift ?_ hz hw
  unfold writeWord
  repeat' (first
    | with_reducible assumption
    | with_reducible exact Run.refl _ _
    | (extract_lets +onlyGivenNames x
       first | (apply Run.cut (x := x); rotate_left 1; intro h; clear_value x; rotate_left 1; subst x) | clear_value x)
    | with_reducible apply modHost_run
    | with_reducible apply logDiff_run
    | with_reducible apply logIgnored_run
    | with_reducible apply writeLock_run
    | with_reducible apply writeLease_run
    | with_reducible apply writeCdb_run
    | with_reducible apply writeQdb_run
    | with_reducible apply writeRing_run
    | with_reducible apply writeEn_run
    | with_reducible apply writeWbaseHi_run
    | with_reducible apply writeWbaseLo_run
    | split
    | decide
    | (with_reducible refine Run.mk_upd rfl ?_ ?_ rfl rfl rfl rfl rfl
       rotate_left 1; exact (fun f hf => by cases f <;> first | exact absurd hf (by decide) | exact Eq.refl _)))

theorem writeWords_run (p : HPort) (fuel off : Nat) (data : Bytes) (s : State) (hz : Run flds st0 s)
    (hw : [.out, .hostA, .hostB, .lock, .seq, .log, .queues].all flds.contains = true) : Run flds st0 (writeWords p fuel off data s) := by
  refine .lift ?_ hz hw
  clear hz
  induction fuel generalizing off data s with
  | zero => exact Run.refl _ _
  | succ n ih =>
    cases data with
    | nil => exact Run.refl _ _
    | cons b bs =>
      simp only [writeWords]
      refine Run.trans ?_ (ih ..) (by decide)
      split
      · exact writeWord_run _ _ _ _ (.refl _ _) (by decide)
      · exact logWrite_run _ _ _ _ _ (.refl _ _) (by decide)

theorem latch_run (p : HPort) (off : Nat) (s : State) (hz : Run flds st0 s) (hw : [.tideHi, .hostA, .hostB].all flds.contains =
    true) : Run flds st0 (latch p off s) := by
  refine .lift ?_ hz hw
  unfold latch
  repeat' (first
    | with_reducible assumption
    | with_reducible exact Run.refl _ _
    | (extract_lets +onlyGivenNames x
       first | (apply Run.cut (x := x); rotate_left 1; intro h; clear_value x; rotate_left 1; subst x) | clear_value x)
    | with_reducible apply modHost_run
    | split
    | decide
    | (with_reducible refine Run.mk_upd rfl ?_ ?_ rfl rfl rfl rfl rfl
       rotate_left 1; exact (fun f hf => by cases f <;> first | exact absurd hf (by decide) | exact Eq.refl _)))

theorem readWords_run (p : HPort) (n off : Nat) (s : State) (hz : Run flds st0 s) (hw : [.tideHi, .hostA, .hostB].all flds.contains = true) :
    Run flds st0 (readWords p n off s).2 := by
  induction n generalizing off s with
  | zero => exact hz
  | succ n ih => exact ih _ _ (latch_run p off s hz hw)

theorem readBar0_run (p : HPort) (off len : Nat) (s : State) (hz : Run flds st0 s) (hw : [.out, .tideHi, .hostA, .hostB].all
    flds.contains = true) : Run flds st0 (readBar0 p off len s) := by
  refine .lift ?_ hz hw
  unfold readBar0
  repeat' (first
    | with_reducible assumption
    | with_reducible exact Run.refl _ _
    | (extract_lets +onlyGivenNames x
       first | (apply Run.cut (x := x); rotate_left 1; intro h; clear_value x; rotate_left 1; subst x) | clear_value x)
    | with_reducible apply emit_run
    | with_reducible apply readWords_run
    | (split; rename_i r x heq; obtain rfl : (_ : State) = x := congrArg Prod.snd heq)
    | decide)

theorem viaPort_run {p : HPort} {f : State → State} {s : State} (hz : Run flds st0 s)
    (hf : ∀ x, Run flds st0 x → Run flds st0 (f x)) : Run flds st0 (viaPort p f s) := by
  unfold viaPort
  split
  · exact hf s hz
  · exact hz

end Sys2Proof.Laws
end

