-- ==== Sys2Proof/Laws/RunTasks.lean ====
section
/-! SUPPORT. What the operations may change: one lemma for each operation of Sys2Proof/Machine/Tasks.lean. -/

set_option linter.unusedTactic false
set_option linter.unreachableTactic false

namespace Sys2Proof.Laws

open Machine

variable {flds : List StateField} {st0 : State}

theorem setThread_run (d c ctx : Nat) (st : Thread) (s : State) (hz : Run flds st0 s) (hw : [.cores].all flds.contains = true) :
    Run flds st0 (setThread d c ctx st s) := by
  refine .lift ?_ hz hw
  unfold setThread
  repeat' (first
    | with_reducible assumption
    | with_reducible exact Run.refl _ _
    | (extract_lets +onlyGivenNames x
       first | (apply Run.cut (x := x); rotate_left 1; intro h; clear_value x; rotate_left 1; subst x) | clear_value x)
    | with_reducible apply modCore_run
    | decide
    | (with_reducible refine Run.mk_upd rfl ?_ ?_ rfl rfl rfl rfl rfl
       rotate_left 1; exact (fun f hf => by cases f <;> first | exact absurd hf (by decide) | exact Eq.refl _)))

theorem taskThread_run (t : TaskRec) (st : Thread) (s : State) (hz : Run flds st0 s) (hw : [.cores].all flds.contains = true) :
    Run flds st0 (taskThread t st s) := by
  refine .lift ?_ hz hw
  unfold taskThread
  repeat' (first
    | with_reducible assumption
    | with_reducible exact Run.refl _ _
    | with_reducible apply setThread_run
    | split
    | decide
    | (with_reducible refine Run.mk_upd rfl ?_ ?_ rfl rfl rfl rfl rfl
       rotate_left 1; exact (fun f hf => by cases f <;> first | exact absurd hf (by decide) | exact Eq.refl _)))

theorem sendEntry_run (q : HwQueue) (bs : Bytes) (s : State) (hz : Run flds st0 s) (hw : [.out, .fabric].all flds.contains =
    true) : Run flds st0 (sendEntry q bs s) := by
  refine .lift ?_ hz hw
  unfold sendEntry
  repeat' (first
    | with_reducible assumption
    | with_reducible exact Run.refl _ _
    | (extract_lets +onlyGivenNames x
       first | (apply Run.cut (x := x); rotate_left 1; intro h; clear_value x; rotate_left 1; subst x) | clear_value x)
    | with_reducible apply sendAxis_run
    | with_reducible apply sendLog_run
    | (with_reducible apply Run.foldl; rotate_left 1; intro e x h)
    | split
    | decide)

theorem produceQueue_run (q : HwQueue) (s : State) (hz : Run flds st0 s) (hw : [.out, .hostA, .hostB, .seq, .log, .queues,
    .fabric].all flds.contains = true) : Run flds st0 (produceQueue q s) := by
  refine .lift ?_ hz hw
  unfold produceQueue
  repeat' (first
    | with_reducible assumption
    | with_reducible exact Run.refl _ _
    | (extract_lets +onlyGivenNames x
       first | (apply Run.cut (x := x); rotate_left 1; intro h; clear_value x; rotate_left 1; subst x) | clear_value x)
    | with_reducible apply raiseIrq_run
    | with_reducible apply logAccess_run
    | with_reducible apply modQueue_run
    | with_reducible apply sendEntry_run
    | split
    | decide
    | (with_reducible refine Run.mk_upd rfl ?_ ?_ rfl rfl rfl rfl rfl
       rotate_left 1; exact (fun f hf => by cases f <;> first | exact absurd hf (by decide) | exact Eq.refl _)))

theorem consumeQueue_run (q : HwQueue) (s : State) (hz : Run flds st0 s) (hw : [.out, .hostA, .hostB, .queues, .fabric].all
    flds.contains = true) : Run flds st0 (consumeQueue q s) := by
  refine .lift ?_ hz hw
  unfold consumeQueue
  repeat' (first
    | with_reducible assumption
    | with_reducible exact Run.refl _ _
    | (extract_lets +onlyGivenNames x
       first | (apply Run.cut (x := x); rotate_left 1; intro h; clear_value x; rotate_left 1; subst x) | clear_value x)
    | with_reducible apply raiseIrq_run
    | with_reducible apply sendLog_run
    | with_reducible apply modQueue_run
    | split
    | decide
    | (with_reducible refine Run.mk_upd rfl ?_ ?_ rfl rfl rfl rfl rfl
       rotate_left 1; exact (fun f hf => by cases f <;> first | exact absurd hf (by decide) | exact Eq.refl _)))

theorem commitQueues_run (task : Nat) (s : State) (hz : Run flds st0 s) (hw : [.out, .hostA, .hostB, .seq, .log, .queues,
    .fabric].all flds.contains = true) : Run flds st0 (commitQueues task s) := by
  refine .lift ?_ hz hw
  unfold commitQueues
  repeat' (first
    | with_reducible assumption
    | with_reducible exact Run.refl _ _
    | (extract_lets +onlyGivenNames x
       first | (apply Run.cut (x := x); rotate_left 1; intro h; clear_value x; rotate_left 1; subst x) | clear_value x)
    | with_reducible apply produceQueue_run
    | with_reducible apply consumeQueue_run
    | (with_reducible apply Run.foldl; rotate_left 1; intro e x h)
    | decide)

theorem logVerdict_run (step : Nat) (sum med : Int) (what : Nat) (s : State) (hz : Run flds st0 s) (hw : [.out, .hostA, .hostB,
    .seq, .log].all flds.contains = true) : Run flds st0 (logVerdict step sum med what s) := by
  refine .lift ?_ hz hw
  unfold logVerdict
  repeat' (first
    | with_reducible assumption
    | with_reducible exact Run.refl _ _
    | with_reducible apply logAt_run
    | decide)

theorem decideVerdict_run (im : JobImage) (v : Verdict) (s : State) (hz : Run flds st0 s) (hw : [.out, .hostA, .hostB, .seq,
    .log, .exec].all flds.contains = true) : Run flds st0 (decideVerdict im v s) := by
  refine .lift ?_ hz hw
  unfold decideVerdict
  repeat' (first
    | with_reducible assumption
    | with_reducible exact Run.refl _ _
    | (extract_lets +onlyGivenNames x
       first | (apply Run.cut (x := x); rotate_left 1; intro h; clear_value x; rotate_left 1; subst x) | clear_value x)
    | with_reducible apply logVerdict_run
    | split
    | decide
    | (with_reducible refine Run.mk_upd rfl ?_ ?_ rfl rfl rfl rfl rfl
       rotate_left 1; exact (fun f hf => by cases f <;> first | exact absurd hf (by decide) | exact Eq.refl _)))

theorem takeVerdict_run (im : JobImage) (step src : Nat) (loss : Int) (nl nf : Nat) (s : State) (hz : Run flds st0 s) (hw :
    [.out, .hostA, .hostB, .seq, .log, .exec].all flds.contains = true) : Run flds st0 (takeVerdict im step src loss nl nf s) :=
    by
  refine .lift ?_ hz hw
  unfold takeVerdict
  repeat' (first
    | with_reducible assumption
    | with_reducible exact Run.refl _ _
    | (extract_lets +onlyGivenNames x
       first | (apply Run.cut (x := x); rotate_left 1; intro h; clear_value x; rotate_left 1; subst x) | clear_value x)
    | with_reducible apply decideVerdict_run
    | split
    | decide
    | (with_reducible refine Run.mk_upd rfl ?_ ?_ rfl rfl rfl rfl rfl
       rotate_left 1; exact (fun f hf => by cases f <;> first | exact absurd hf (by decide) | exact Eq.refl _)))

theorem bringVerdict_run (im : JobImage) (step : Nat) (s : State) (hz : Run flds st0 s) (hw : [.out, .hostA, .hostB, .seq, .log,
    .exec, .fabric].all flds.contains = true) : Run flds st0 (bringVerdict im step s) := by
  refine .lift ?_ hz hw
  unfold bringVerdict
  repeat' (first
    | with_reducible assumption
    | with_reducible exact Run.refl _ _
    | (extract_lets +onlyGivenNames x
       first | (apply Run.cut (x := x); rotate_left 1; intro h; clear_value x; rotate_left 1; subst x) | clear_value x)
    | with_reducible apply bcastMsg_run
    | with_reducible apply takeVerdict_run
    | split
    | decide)

theorem settleProducts_run (t : TaskRec) (step : Nat) (s : State) (hz : Run flds st0 s) (hw : [.out, .hostA, .hostB, .seq, .log,
    .exec, .flash].all flds.contains = true) : Run flds st0 (settleProducts t step s) := by
  refine .lift ?_ hz hw
  unfold settleProducts
  repeat' (first
    | with_reducible assumption
    | with_reducible exact Run.refl _ _
    | (extract_lets +onlyGivenNames x
       first | (apply Run.cut (x := x); rotate_left 1; intro h; clear_value x; rotate_left 1; subst x) | clear_value x)
    | with_reducible apply recordTransient_run
    | (with_reducible apply Run.foldl; rotate_left 1; intro e x h)
    | decide
    | (with_reducible refine Run.mk_upd rfl ?_ ?_ rfl rfl rfl rfl rfl
       rotate_left 1; exact (fun f hf => by cases f <;> first | exact absurd hf (by decide) | exact Eq.refl _)))

theorem closeStep_run (s : State) (hz : Run flds st0 s) (hw : [.exec].all flds.contains = true) : Run flds st0 (closeStep s) :=
    by
  refine .lift ?_ hz hw
  unfold closeStep
  repeat' (first
    | with_reducible assumption
    | with_reducible exact Run.refl _ _
    | (extract_lets +onlyGivenNames x
       first | (apply Run.cut (x := x); rotate_left 1; intro h; clear_value x; rotate_left 1; subst x) | clear_value x)
    | split
    | decide
    | (with_reducible refine Run.mk_upd rfl ?_ ?_ rfl rfl rfl rfl rfl
       rotate_left 1; exact (fun f hf => by cases f <;> first | exact absurd hf (by decide) | exact Eq.refl _)))

theorem closeSteps_run (s : State) (hz : Run flds st0 s) (hw : [.exec].all flds.contains = true) : Run flds st0 (closeSteps s)
    := by
  refine .lift ?_ hz hw
  unfold closeSteps
  repeat' (first
    | with_reducible assumption
    | with_reducible exact Run.refl _ _
    | (extract_lets +onlyGivenNames x
       first | (apply Run.cut (x := x); rotate_left 1; intro h; clear_value x; rotate_left 1; subst x) | clear_value x)
    | with_reducible apply closeStep_run
    | (with_reducible apply Run.iter; rotate_left 1; intro x h)
    | decide)

theorem commitEffects_run (im : JobImage) (t : TaskRec) (r : TaskRun) (s : State) (hz : Run flds st0 s) (hw : [.out, .hostA,
    .hostB, .seq, .log, .queues, .exec, .gauges, .fabric].all flds.contains = true) : Run flds st0 (commitEffects im t r s) :=
    by
  refine .lift ?_ hz hw
  unfold commitEffects
  repeat' (first
    | with_reducible assumption
    | with_reducible exact Run.refl _ _
    | (extract_lets +onlyGivenNames x
       first | (apply Run.cut (x := x); rotate_left 1; intro h; clear_value x; rotate_left 1; subst x) | clear_value x)
    | with_reducible apply gaugeAll_run
    | with_reducible apply commitQueues_run
    | with_reducible apply bringVerdict_run
    | split
    | decide
    | (with_reducible refine Run.mk_upd rfl ?_ ?_ rfl rfl rfl rfl rfl
       rotate_left 1; exact (fun f hf => by cases f <;> first | exact absurd hf (by decide) | exact Eq.refl _)))

theorem commitTask_run (im : JobImage) (t : TaskRec) (r : TaskRun) (s : State) (hz : Run flds st0 s) (hw : [.out, .hostA,
    .hostB, .seq, .log, .queues, .exec, .gauges, .fabric, .flash].all flds.contains = true) : Run flds st0 (commitTask im t r s)
    := by
  refine .lift ?_ hz hw
  unfold commitTask
  repeat' (first
    | with_reducible assumption
    | with_reducible exact Run.refl _ _
    | (extract_lets +onlyGivenNames x
       first | (apply Run.cut (x := x); rotate_left 1; intro h; clear_value x; rotate_left 1; subst x) | clear_value x)
    | with_reducible apply setRun_run
    | with_reducible apply settleProducts_run
    | with_reducible apply closeSteps_run
    | with_reducible apply commitEffects_run
    | split
    | decide
    | (with_reducible refine Run.mk_upd rfl ?_ ?_ rfl rfl rfl rfl rfl
       rotate_left 1; exact (fun f hf => by cases f <;> first | exact absurd hf (by decide) | exact Eq.refl _)))

theorem startTask_run (im : JobImage) (t : TaskRec) (step : Nat) (s : State) (hz : Run flds st0 s) (hw : [.out, .exec, .cores,
    .coreStore, .memStacks, .mem, .fabric].all flds.contains = true) : Run flds st0 (startTask im t step s) := by
  refine .lift ?_ hz hw
  unfold startTask
  repeat' (first
    | with_reducible assumption
    | with_reducible exact Run.refl _ _
    | with_reducible apply setRun_run
    | with_reducible apply readPrefetches_run
    | with_reducible apply startExchanges_run
    | with_reducible apply taskThread_run
    | split
    | decide)

theorem onRunning_run {task : Nat} {f : JobImage → TaskRec → TaskRun → State → State} {s : State} (hz : Run flds st0 s)
    (hf : ∀ im t r, Run flds st0 (f im t r s)) : Run flds st0 (onRunning task f s) := by
  unfold onRunning
  split
  · split
    · exact hz
    · exact hf _ _ _
  · exact hz

theorem finishTask_run (im : JobImage) (t : TaskRec) (r : TaskRun) (s : State) (hz : Run flds st0 s) (hw : [.out, .hostA,
    .hostB, .i3c, .warden, .seq, .log, .queues, .job, .exec, .gauges, .cores, .fabric, .twin, .flash].all flds.contains = true)
    : Run flds st0 (finishTask im t r s) := by
  refine .lift ?_ hz hw
  unfold finishTask
  repeat' (first
    | with_reducible assumption
    | with_reducible exact Run.refl _ _
    | (extract_lets +onlyGivenNames x
       first | (apply Run.cut (x := x); rotate_left 1; intro h; clear_value x; rotate_left 1; subst x) | clear_value x)
    | with_reducible apply setRun_run
    | with_reducible apply updateFallbacks_run
    | with_reducible apply taskThread_run
    | with_reducible apply commitTask_run
    | split
    | decide
    | (with_reducible refine Run.mk_upd rfl ?_ ?_ rfl rfl rfl rfl rfl
       rotate_left 1; exact (fun f hf => by cases f <;> first | exact absurd hf (by decide) | exact Eq.refl _)))

theorem endTask_run (im : JobImage) (t : TaskRec) (r : TaskRun) (s : State) (hz : Run flds st0 s) (hw : [.out, .hostA, .hostB, .i3c, .warden, .seq, .log, .queues, .job, .exec, .gauges, .dies, .cores, .coreStore, .memStacks, .mem, .fabric, .twin, .flash, .inspect].all flds.contains = true) :
    Run flds st0 (endTask im t r s) := by
  unfold endTask
  split
  · exact logAccess_run _ _ _ _ hz (sub_all hw (by decide))
  · split
    · exact finishTask_run _ _ _ _ hz (sub_all hw (by decide))
    · have h0 := touchReads_run im t s hz (sub_all hw (by decide))
      have h1 := taskWork_run im t r.step r.undetected (touchReads im t s) h0 (sub_all hw (by decide))
      split <;> rename_i heq <;> rw [heq] at h1
      · exact h1
      · exact streamMismatch_run _ _ _ _ _ hz (sub_all hw (by decide))
      · exact computeFault_run _ _ _ _ _ hz (sub_all hw (by decide))
      · exact breachTask_run _ _ _ _ h1 (sub_all hw (by decide))
      · exact finishTask_run _ _ _ _ h1 (sub_all hw (by decide))

theorem lateProduct_run (im : JobImage) (t : TaskRec) (r : TaskRun) (slab col chunk : Nat) (fs : List ArrayFault) (s : State)
    (hz : Run flds st0 s) (hw : [.out, .hostA, .hostB, .i3c, .warden, .seq, .log, .job, .exec, .gauges, .dies, .cores, .coreStore, .memStacks, .mem, .fabric, .twin, .flash, .inspect].all flds.contains = true) : Run flds st0 (lateProduct im t r slab col chunk fs s) := by
  unfold lateProduct
  have h1 := endProduct_run im t r slab col chunk fs s hz (sub_all hw (by decide))
  extract_lets x
  change Run flds st0 x at h1
  clear_value x
  split
  · split
    · exact h1
    · rename_i q _ _
      have h2 := taskWork_run im t q.step q.undetected x h1 (sub_all hw (by decide))
      split
      · rename_i heq
        rw [heq] at h2
        exact setRun_run _ _ h2 (sub_all hw (by decide))
      · exact h1
  · exact h1

theorem checkDeadline_run (im : JobImage) (t : TaskRec) (r : TaskRun) (remaining unitTime code origin_ queue : Nat) (s : State)
    (hz : Run flds st0 s) (hw : [.out, .hostA, .hostB, .i3c, .warden, .seq, .log, .job, .exec, .fabric, .twin].all flds.contains
    = true) : Run flds st0 (checkDeadline im t r remaining unitTime code origin_ queue s) := by
  refine .lift ?_ hz hw
  unfold checkDeadline
  repeat' (first
    | with_reducible assumption
    | with_reducible exact Run.refl _ _
    | (extract_lets +onlyGivenNames x
       first | (apply Run.cut (x := x); rotate_left 1; intro h; clear_value x; rotate_left 1; subst x) | clear_value x)
    | with_reducible apply sendNotice_run
    | split
    | decide)

end Sys2Proof.Laws
end

