-- ==== Sys2Proof/Laws/RunCkpt.lean ====
section
/-! SUPPORT. What the operations may change: one lemma for each operation of Sys2Proof/Machine/Ckpt.lean. -/

set_option linter.unusedTactic false
set_option linter.unreachableTactic false

namespace Sys2Proof.Laws

open Machine

variable {flds : List StateField} {st0 : State}

theorem modTwin_run (f : Twin → Twin) (s : State) (hz : Run flds st0 s) (hw : [.twin].all flds.contains = true) : Run flds st0
    (modTwin f s) := by
  refine .lift ?_ hz hw
  unfold modTwin
  repeat' (first
    | with_reducible assumption
    | with_reducible exact Run.refl _ _
    | (extract_lets +onlyGivenNames x
       first | (apply Run.cut (x := x); rotate_left 1; intro h; clear_value x; rotate_left 1; subst x) | clear_value x)
    | decide
    | (with_reducible refine Run.mk_upd rfl ?_ ?_ rfl rfl rfl rfl rfl
       rotate_left 1; exact (fun f hf => by cases f <;> first | exact absurd hf (by decide) | exact Eq.refl _)))

theorem sendSlotWrite_run (dst slot o : Nat) (b : Bytes) (s : State) (hz : Run flds st0 s) (hw : [.out, .fabric].all
    flds.contains = true) : Run flds st0 (sendSlotWrite dst slot o b s) := by
  refine .lift ?_ hz hw
  unfold sendSlotWrite
  repeat' (first
    | with_reducible assumption
    | with_reducible exact Run.refl _ _
    | with_reducible apply sendMsg_run
    | decide)

theorem streamSlot_run (dst slot o : Nat) (b : Bytes) (s : State) (hz : Run flds st0 s) (hw : [.out, .fabric].all flds.contains
    = true) : Run flds st0 (streamSlot dst slot o b s) := by
  refine .lift ?_ hz hw
  unfold streamSlot
  repeat' (first
    | with_reducible assumption
    | with_reducible exact Run.refl _ _
    | (extract_lets +onlyGivenNames x
       first | (apply Run.cut (x := x); rotate_left 1; intro h; clear_value x; rotate_left 1; subst x) | clear_value x)
    | with_reducible apply sendSlotWrite_run
    | (with_reducible apply Run.foldl; rotate_left 1; intro e x h)
    | decide)

theorem peerAnswer_run (e : PeerEntry) (kind status : Nat) (s : State) (hz : Run flds st0 s) (hw : [.out, .hostA, .hostB, .peer,
    .seq, .log, .fabric].all flds.contains = true) : Run flds st0 (peerAnswer e kind status s) := by
  refine .lift ?_ hz hw
  unfold peerAnswer
  repeat' (first
    | with_reducible assumption
    | with_reducible exact Run.refl _ _
    | (extract_lets +onlyGivenNames x
       first | (apply Run.cut (x := x); rotate_left 1; intro h; clear_value x; rotate_left 1; subst x) | clear_value x)
    | with_reducible apply logEv_run
    | with_reducible apply sendMsg_run
    | split
    | decide
    | (with_reducible refine Run.mk_upd rfl ?_ ?_ rfl rfl rfl rfl rfl
       rotate_left 1; exact (fun f hf => by cases f <;> first | exact absurd hf (by decide) | exact Eq.refl _)))

theorem takePeer_run (e : PeerEntry) (s : State) (hz : Run flds st0 s) (hw : [.out, .hostA, .hostB, .peer, .seq, .log,
    .fabric].all flds.contains = true) : Run flds st0 (takePeer e s) := by
  refine .lift ?_ hz hw
  unfold takePeer
  repeat' (first
    | with_reducible assumption
    | with_reducible exact Run.refl _ _
    | (extract_lets +onlyGivenNames x
       first | (apply Run.cut (x := x); rotate_left 1; intro h; clear_value x; rotate_left 1; subst x) | clear_value x)
    | with_reducible apply logEv_run
    | with_reducible apply peerAnswer_run
    | split
    | decide
    | (with_reducible refine Run.mk_upd rfl ?_ ?_ rfl rfl rfl rfl rfl
       rotate_left 1; exact (fun f hf => by cases f <;> first | exact absurd hf (by decide) | exact Eq.refl _)))

theorem onPeer_run {op : Nat} {f : PeerEntry → State → State} {s : State} (hz : Run flds st0 s)
    (hf : ∀ e x, Run flds st0 x → Run flds st0 (f e x)) (hw : [.peer].all flds.contains = true) :
    Run flds st0 (onPeer op f s) := by
  unfold onPeer
  split
  · exact hz
  · split
    · refine hf _ _ (.lift ?_ hz hw)
      refine Run.mk_upd rfl (.refl _ _) ?_ rfl rfl rfl rfl rfl
      exact (fun f hf => by cases f <;> first | exact absurd hf (by decide) | exact Eq.refl _)
    · exact hz

theorem tryPair_run (s : State) (hz : Run flds st0 s) (hw : [.warden, .twin].all flds.contains = true) : Run flds st0 (tryPair
    s) := by
  refine .lift ?_ hz hw
  unfold tryPair
  repeat' (first
    | with_reducible assumption
    | with_reducible exact Run.refl _ _
    | (extract_lets +onlyGivenNames x
       first | (apply Run.cut (x := x); rotate_left 1; intro h; clear_value x; rotate_left 1; subst x) | clear_value x)
    | with_reducible apply endOp_run
    | with_reducible apply modTwin_run
    | split
    | decide
    | (with_reducible refine Run.mk_upd rfl ?_ ?_ rfl rfl rfl rfl rfl
       rotate_left 1; exact (fun f hf => by cases f <;> first | exact absurd hf (by decide) | exact Eq.refl _)))

theorem endPair_run (s : State) (hz : Run flds st0 s) (hw : [.twin].all flds.contains = true) : Run flds st0 (endPair s) := by
  refine .lift ?_ hz hw
  unfold endPair
  repeat' (first
    | with_reducible assumption
    | with_reducible exact Run.refl _ _
    | (extract_lets +onlyGivenNames x
       first | (apply Run.cut (x := x); rotate_left 1; intro h; clear_value x; rotate_left 1; subst x) | clear_value x)
    | with_reducible apply modTwin_run
    | decide
    | (with_reducible refine Run.mk_upd rfl ?_ ?_ rfl rfl rfl rfl rfl
       rotate_left 1; exact (fun f hf => by cases f <;> first | exact absurd hf (by decide) | exact Eq.refl _)))

theorem startPair_run (phys : Nat) (ovr : Bool) (s : State) (hz : Run flds st0 s) (hw : [.out, .warden, .fabric, .twin].all
    flds.contains = true) : Run flds st0 (startPair phys ovr s) := by
  refine .lift ?_ hz hw
  unfold startPair
  repeat' (first
    | with_reducible assumption
    | with_reducible exact Run.refl _ _
    | (extract_lets +onlyGivenNames x
       first | (apply Run.cut (x := x); rotate_left 1; intro h; clear_value x; rotate_left 1; subst x) | clear_value x)
    | with_reducible apply peerToPhys_run
    | with_reducible apply endOp_run
    | with_reducible apply tryPair_run
    | split
    | decide)

theorem recvPair_run (e : PeerEntry) (s : State) (hz : Run flds st0 s) (hw : [.out, .hostA, .hostB, .peer, .warden, .seq, .log,
    .fabric, .twin].all flds.contains = true) : Run flds st0 (recvPair e s) := by
  refine .lift ?_ hz hw
  unfold recvPair
  repeat' (first
    | with_reducible assumption
    | with_reducible exact Run.refl _ _
    | (extract_lets +onlyGivenNames x
       first | (apply Run.cut (x := x); rotate_left 1; intro h; clear_value x; rotate_left 1; subst x) | clear_value x)
    | with_reducible apply modTwin_run
    | with_reducible apply peerAnswer_run
    | with_reducible apply tryPair_run
    | decide
    | (with_reducible refine Run.mk_upd rfl ?_ ?_ rfl rfl rfl rfl rfl
       rotate_left 1; exact (fun f hf => by cases f <;> first | exact absurd hf (by decide) | exact Eq.refl _)))

theorem schedule_run (t : Nat) (s : State) (hz : Run flds st0 s) (hw : [.out, .fabric, .twin].all flds.contains = true) : Run
    flds st0 (schedule t s) := by
  refine .lift ?_ hz hw
  unfold schedule
  repeat' (first
    | with_reducible assumption
    | with_reducible exact Run.refl _ _
    | (extract_lets +onlyGivenNames x
       first | (apply Run.cut (x := x); rotate_left 1; intro h; clear_value x; rotate_left 1; subst x) | clear_value x)
    | with_reducible apply peerBcast_run
    | with_reducible apply modTwin_run
    | decide
    | (with_reducible refine Run.mk_upd rfl ?_ ?_ rfl rfl rfl rfl rfl
       rotate_left 1; exact (fun f hf => by cases f <;> first | exact absurd hf (by decide) | exact Eq.refl _)))

theorem recvSched_run (e : PeerEntry) (s : State) (hz : Run flds st0 s) (hw : [.twin].all flds.contains = true) : Run flds st0
    (recvSched e s) := by
  refine .lift ?_ hz hw
  unfold recvSched
  repeat' (first
    | with_reducible assumption
    | with_reducible exact Run.refl _ _
    | (extract_lets +onlyGivenNames x
       first | (apply Run.cut (x := x); rotate_left 1; intro h; clear_value x; rotate_left 1; subst x) | clear_value x)
    | with_reducible apply modTwin_run
    | split
    | decide
    | (with_reducible refine Run.mk_upd rfl ?_ ?_ rfl rfl rfl rfl rfl
       rotate_left 1; exact (fun f hf => by cases f <;> first | exact absurd hf (by decide) | exact Eq.refl _)))

theorem reportDone_run (t r : Nat) (s : State) (hz : Run flds st0 s) (hw : [.out, .peer, .fabric].all flds.contains = true) :
    Run flds st0 (reportDone t r s) := by
  refine .lift ?_ hz hw
  unfold reportDone
  repeat' (first
    | with_reducible assumption
    | with_reducible exact Run.refl _ _
    | with_reducible apply peerToLog_run
    | decide)

theorem ckptStart_run (im : JobImage) (t newOrigin : Nat) (s : State) (hz : Run flds st0 s) (hw : [.out, .hostA, .hostB, .seq,
    .log, .memStacks, .fabric, .twin, .flash].all flds.contains = true) : Run flds st0 (ckptStart im t newOrigin s) := by
  refine .lift ?_ hz hw
  unfold ckptStart
  repeat' (first
    | with_reducible assumption
    | with_reducible exact Run.refl _ _
    | (extract_lets +onlyGivenNames x
       first | (apply Run.cut (x := x); rotate_left 1; intro h; clear_value x; rotate_left 1; subst x) | clear_value x)
    | with_reducible apply peerToPhys_run
    | with_reducible apply remapAll_run
    | with_reducible apply modTwin_run
    | with_reducible apply sendSlotWrite_run
    | split
    | decide
    | (with_reducible refine Run.mk_upd rfl ?_ ?_ rfl rfl rfl rfl rfl
       rotate_left 1; exact (fun f hf => by cases f <;> first | exact absurd hf (by decide) | exact Eq.refl _)))

theorem ckptStream_run (s : State) (hz : Run flds st0 s) (hw : [.out, .peer, .fabric, .twin].all flds.contains = true) : Run
    flds st0 (ckptStream s) := by
  refine .lift ?_ hz hw
  unfold ckptStream
  repeat' (first
    | with_reducible assumption
    | with_reducible exact Run.refl _ _
    | (extract_lets +onlyGivenNames x
       first | (apply Run.cut (x := x); rotate_left 1; intro h; clear_value x; rotate_left 1; subst x) | clear_value x)
    | with_reducible apply peerToPhys_run
    | with_reducible apply modTwin_run
    | with_reducible apply sendSlotWrite_run
    | with_reducible apply streamSlot_run
    | with_reducible apply reportDone_run
    | (with_reducible apply Run.foldl; rotate_left 1; intro e x h)
    | split
    | decide
    | (with_reducible refine Run.mk_upd rfl ?_ ?_ rfl rfl rfl rfl rfl
       rotate_left 1; exact (fun f hf => by cases f <;> first | exact absurd hf (by decide) | exact Eq.refl _)))

theorem applyCommit_run (t r : Nat) (s : State) (hz : Run flds st0 s) (hw : [.out, .hostA, .hostB, .warden, .seq, .log,
    .twin].all flds.contains = true) : Run flds st0 (applyCommit t r s) := by
  refine .lift ?_ hz hw
  unfold applyCommit
  repeat' (first
    | with_reducible assumption
    | with_reducible exact Run.refl _ _
    | (extract_lets +onlyGivenNames x
       first | (apply Run.cut (x := x); rotate_left 1; intro h; clear_value x; rotate_left 1; subst x) | clear_value x)
    | with_reducible apply logEv_run
    | with_reducible apply endOp_run
    | with_reducible apply modTwin_run
    | split
    | decide
    | (with_reducible refine Run.mk_upd rfl ?_ ?_ rfl rfl rfl rfl rfl
       rotate_left 1; exact (fun f hf => by cases f <;> first | exact absurd hf (by decide) | exact Eq.refl _)))

theorem sendCommit_run (t r : Nat) (s : State) (hz : Run flds st0 s) (hw : [.out, .hostA, .hostB, .warden, .seq, .log, .fabric,
    .twin].all flds.contains = true) : Run flds st0 (sendCommit t r s) := by
  refine .lift ?_ hz hw
  unfold sendCommit
  repeat' (first
    | with_reducible assumption
    | with_reducible exact Run.refl _ _
    | with_reducible apply peerBcast_run
    | with_reducible apply applyCommit_run
    | decide)

theorem recvBegin_run (e : PeerEntry) (s : State) (hz : Run flds st0 s) (hw : [.out, .hostA, .hostB, .peer, .seq, .log, .fabric,
    .twin].all flds.contains = true) : Run flds st0 (recvBegin e s) := by
  refine .lift ?_ hz hw
  unfold recvBegin
  repeat' (first
    | with_reducible assumption
    | with_reducible exact Run.refl _ _
    | (extract_lets +onlyGivenNames x
       first | (apply Run.cut (x := x); rotate_left 1; intro h; clear_value x; rotate_left 1; subst x) | clear_value x)
    | with_reducible apply modTwin_run
    | with_reducible apply peerAnswer_run
    | split
    | decide
    | (with_reducible refine Run.mk_upd rfl ?_ ?_ rfl rfl rfl rfl rfl
       rotate_left 1; exact (fun f hf => by cases f <;> first | exact absurd hf (by decide) | exact Eq.refl _)))

theorem recvEnd_run (e : PeerEntry) (s : State) (hz : Run flds st0 s) (hw : [.out, .hostA, .hostB, .peer, .seq, .log, .mem,
    .fabric, .twin].all flds.contains = true) : Run flds st0 (recvEnd e s) := by
  refine .lift ?_ hz hw
  unfold recvEnd
  repeat' (first
    | with_reducible assumption
    | with_reducible exact Run.refl _ _
    | (extract_lets +onlyGivenNames x
       first | (apply Run.cut (x := x); rotate_left 1; intro h; clear_value x; rotate_left 1; subst x) | clear_value x)
    | with_reducible apply peerToPhys_run
    | with_reducible apply slotWrite_run
    | with_reducible apply modTwin_run
    | with_reducible apply peerAnswer_run
    | split
    | decide
    | (with_reducible refine Run.mk_upd rfl ?_ ?_ rfl rfl rfl rfl rfl
       rotate_left 1; exact (fun f hf => by cases f <;> first | exact absurd hf (by decide) | exact Eq.refl _)))

theorem recvAck_run (e : PeerEntry) (s : State) (hz : Run flds st0 s) (hw : [.out, .hostA, .hostB, .peer, .seq, .log, .fabric,
    .twin].all flds.contains = true) : Run flds st0 (recvAck e s) := by
  refine .lift ?_ hz hw
  unfold recvAck
  repeat' (first
    | with_reducible assumption
    | with_reducible exact Run.refl _ _
    | (extract_lets +onlyGivenNames x
       first | (apply Run.cut (x := x); rotate_left 1; intro h; clear_value x; rotate_left 1; subst x) | clear_value x)
    | with_reducible apply modTwin_run
    | with_reducible apply peerAnswer_run
    | with_reducible apply reportDone_run
    | split
    | decide
    | (with_reducible refine Run.mk_upd rfl ?_ ?_ rfl rfl rfl rfl rfl
       rotate_left 1; exact (fun f hf => by cases f <;> first | exact absurd hf (by decide) | exact Eq.refl _)))

theorem recvDone_run (e : PeerEntry) (s : State) (hz : Run flds st0 s) (hw : [.out, .hostA, .hostB, .peer, .warden, .seq, .log,
    .fabric, .twin].all flds.contains = true) : Run flds st0 (recvDone e s) := by
  refine .lift ?_ hz hw
  unfold recvDone
  repeat' (first
    | with_reducible assumption
    | with_reducible exact Run.refl _ _
    | (extract_lets +onlyGivenNames x
       first | (apply Run.cut (x := x); rotate_left 1; intro h; clear_value x; rotate_left 1; subst x) | clear_value x)
    | with_reducible apply modTwin_run
    | with_reducible apply peerAnswer_run
    | with_reducible apply sendCommit_run
    | split
    | decide
    | (with_reducible refine Run.mk_upd rfl ?_ ?_ rfl rfl rfl rfl rfl
       rotate_left 1; exact (fun f hf => by cases f <;> first | exact absurd hf (by decide) | exact Eq.refl _)))

theorem streamRecord_run (dst slot : Nat) (h : Bytes) (s : State) (hz : Run flds st0 s) (hw : [.out, .fabric].all flds.contains
    = true) : Run flds st0 (streamRecord dst slot h s) := by
  refine .lift ?_ hz hw
  unfold streamRecord
  repeat' (first
    | with_reducible assumption
    | with_reducible exact Run.refl _ _
    | with_reducible apply sendSlotWrite_run
    | with_reducible apply streamSlot_run
    | decide)

theorem recvRestore_run (e : PeerEntry) (s : State) (hz : Run flds st0 s) (hw : [.out, .hostA, .hostB, .peer, .seq, .log,
    .fabric].all flds.contains = true) : Run flds st0 (recvRestore e s) := by
  refine .lift ?_ hz hw
  unfold recvRestore
  repeat' (first
    | with_reducible assumption
    | with_reducible exact Run.refl _ _
    | (extract_lets +onlyGivenNames x
       first | (apply Run.cut (x := x); rotate_left 1; intro h; clear_value x; rotate_left 1; subst x) | clear_value x)
    | with_reducible apply peerAnswer_run
    | with_reducible apply streamRecord_run
    | split
    | decide)

theorem recvCopy_run (e : PeerEntry) (s : State) (hz : Run flds st0 s) (hw : [.freeCtr, .out, .hostA, .hostB, .peer, .seq, .log,
    .fabric].all flds.contains = true) : Run flds st0 (recvCopy e s) := by
  refine .lift ?_ hz hw
  unfold recvCopy
  repeat' (first
    | with_reducible assumption
    | with_reducible exact Run.refl _ _
    | (extract_lets +onlyGivenNames x
       first | (apply Run.cut (x := x); rotate_left 1; intro h; clear_value x; rotate_left 1; subst x) | clear_value x)
    | with_reducible apply freshWord_run
    | with_reducible apply peerAnswer_run
    | with_reducible apply streamRecord_run
    | (split; rename_i r x heq; obtain rfl : (_ : State) = x := congrArg Prod.snd heq)
    | split
    | decide
    | (with_reducible refine Run.mk_upd rfl ?_ ?_ rfl rfl rfl rfl rfl
       rotate_left 1; exact (fun f hf => by cases f <;> first | exact absurd hf (by decide) | exact Eq.refl _)))

theorem storeSlot_run (m : Msg) (slot o : Nat) (s : State) (hz : Run flds st0 s) (hw : [.out, .hostA, .hostB, .seq, .log, .mem,
    .twin].all flds.contains = true) : Run flds st0 (storeSlot m slot o s) := by
  refine .lift ?_ hz hw
  unfold storeSlot
  repeat' (first
    | with_reducible assumption
    | with_reducible exact Run.refl _ _
    | (extract_lets +onlyGivenNames x
       first | (apply Run.cut (x := x); rotate_left 1; intro h; clear_value x; rotate_left 1; subst x) | clear_value x)
    | with_reducible apply logAccess_run
    | with_reducible apply slotWrite_run
    | with_reducible apply modTwin_run
    | split
    | decide
    | (with_reducible refine Run.mk_upd rfl ?_ ?_ rfl rfl rfl rfl rfl
       rotate_left 1; exact (fun f hf => by cases f <;> first | exact absurd hf (by decide) | exact Eq.refl _)))

theorem ackWriteMsg_run (m : Msg) (s : State) (hz : Run flds st0 s) (hw : [.out, .fabric].all flds.contains = true) : Run flds
    st0 (ackWriteMsg m s) := by
  refine .lift ?_ hz hw
  unfold ackWriteMsg
  repeat' (first
    | with_reducible assumption
    | with_reducible exact Run.refl _ _
    | with_reducible apply sendMsg_run
    | split
    | decide)

theorem takeWrite_run (p : FPort) (m : Msg) (s : State) (hz : Run flds st0 s) (hw : [.out, .hostA, .hostB, .peer, .seq, .log,
    .mem, .fabric, .twin].all flds.contains = true) : Run flds st0 (takeWrite p m s) := by
  refine .lift ?_ hz hw
  unfold takeWrite
  repeat' (first
    | with_reducible assumption
    | with_reducible exact Run.refl _ _
    | (extract_lets +onlyGivenNames x
       first | (apply Run.cut (x := x); rotate_left 1; intro h; clear_value x; rotate_left 1; subst x) | clear_value x)
    | with_reducible apply bcastForward_run
    | with_reducible apply takePeer_run
    | with_reducible apply storeSlot_run
    | with_reducible apply ackWriteMsg_run
    | split
    | decide
    | (with_reducible refine Run.mk_upd rfl ?_ ?_ rfl rfl rfl rfl rfl
       rotate_left 1; exact (fun f hf => by cases f <;> first | exact absurd hf (by decide) | exact Eq.refl _)))

theorem loseArea_run (f : Fin 2) (s : State) (hz : Run flds st0 s) (hw : [.out, .hostA, .hostB, .seq, .log, .mem, .twin].all
    flds.contains = true) : Run flds st0 (loseArea f s) := by
  refine .lift ?_ hz hw
  unfold loseArea
  repeat' (first
    | with_reducible assumption
    | with_reducible exact Run.refl _ _
    | (extract_lets +onlyGivenNames x
       first | (apply Run.cut (x := x); rotate_left 1; intro h; clear_value x; rotate_left 1; subst x) | clear_value x)
    | with_reducible apply logAccess_run
    | with_reducible apply slotWrite_run
    | with_reducible apply modTwin_run
    | split
    | decide
    | (with_reducible refine Run.mk_upd rfl ?_ ?_ rfl rfl rfl rfl rfl
       rotate_left 1; exact (fun f hf => by cases f <;> first | exact absurd hf (by decide) | exact Eq.refl _)))

end Sys2Proof.Laws
end

