-- ==== Sys2Proof/Laws/RunFabric.lean ====
section
/-! SUPPORT. What the operations may change: one lemma for each operation of Sys2Proof/Machine/Fabric.lean. -/

set_option linter.unusedTactic false
set_option linter.unreachableTactic false

namespace Sys2Proof.Laws

open Machine

variable {flds : List StateField} {st0 : State}

theorem dropMsg_run (p : FPort) (cause : Nat) (bs : Bytes) (s : State) (hz : Run flds st0 s) (hw : [.out, .hostA, .hostB, .seq,
    .log, .fabric].all flds.contains = true) : Run flds st0 (dropMsg p cause bs s) := by
  refine .lift ?_ hz hw
  unfold dropMsg
  repeat' (first
    | with_reducible assumption
    | with_reducible exact Run.refl _ _
    | (extract_lets +onlyGivenNames x
       first | (apply Run.cut (x := x); rotate_left 1; intro h; clear_value x; rotate_left 1; subst x) | clear_value x)
    | with_reducible apply modFab_run
    | with_reducible apply logEv_run
    | decide
    | (with_reducible refine Run.mk_upd rfl ?_ ?_ rfl rfl rfl rfl rfl
       rotate_left 1; exact (fun f hf => by cases f <;> first | exact absurd hf (by decide) | exact Eq.refl _)))

theorem deliver_run (p : FPort) (m : Msg) (s : State) (hz : Run flds st0 s) (hw : [.fabric].all flds.contains = true) : Run flds
    st0 (deliver p m s) := by
  refine .lift ?_ hz hw
  unfold deliver
  repeat' (first
    | with_reducible assumption
    | with_reducible exact Run.refl _ _
    | (extract_lets +onlyGivenNames x
       first | (apply Run.cut (x := x); rotate_left 1; intro h; clear_value x; rotate_left 1; subst x) | clear_value x)
    | with_reducible apply modFab_run
    | decide
    | (with_reducible refine Run.mk_upd rfl ?_ ?_ rfl rfl rfl rfl rfl
       rotate_left 1; exact (fun f hf => by cases f <;> first | exact absurd hf (by decide) | exact Eq.refl _)))

theorem takeMsg_run (p : FPort) (cls : Nat) (sub : Bool) (bs : Bytes) (s : State) (hz : Run flds st0 s) (hw : [.out, .hostA,
    .hostB, .seq, .log, .fabric].all flds.contains = true) : Run flds st0 (takeMsg p cls sub bs s) := by
  refine .lift ?_ hz hw
  unfold takeMsg
  repeat' (first
    | with_reducible assumption
    | with_reducible exact Run.refl _ _
    | (extract_lets +onlyGivenNames x
       first | (apply Run.cut (x := x); rotate_left 1; intro h; clear_value x; rotate_left 1; subst x) | clear_value x)
    | with_reducible apply sendMsg_run
    | with_reducible apply dropMsg_run
    | with_reducible apply deliver_run
    | split
    | decide
    | (with_reducible refine Run.mk_upd rfl ?_ ?_ rfl rfl rfl rfl rfl
       rotate_left 1; exact (fun f hf => by cases f <;> first | exact absurd hf (by decide) | exact Eq.refl _)))

theorem logPort_run (p : FPort) (lane : Nat) (s : State) (hz : Run flds st0 s) (hw : [.out, .hostA, .hostB, .seq, .log].all
    flds.contains = true) : Run flds st0 (logPort p lane s) := by
  refine .lift ?_ hz hw
  unfold logPort
  repeat' (first
    | with_reducible assumption
    | with_reducible exact Run.refl _ _
    | with_reducible apply logEv_run
    | decide)

theorem portDown_run (p : FPort) (lane : Nat) (s : State) (hz : Run flds st0 s) (hw : [.out, .hostA, .hostB, .warden, .seq,
    .log, .job, .exec, .cores, .memStacks, .fabric, .twin, .inspect].all flds.contains = true) : Run flds st0 (portDown p lane
    s) := by
  refine .lift ?_ hz hw
  unfold portDown
  repeat' (first
    | with_reducible assumption
    | with_reducible exact Run.refl _ _
    | (extract_lets +onlyGivenNames x
       first | (apply Run.cut (x := x); rotate_left 1; intro h; clear_value x; rotate_left 1; subst x) | clear_value x)
    | with_reducible apply modFab_run
    | with_reducible apply failPackage_run
    | with_reducible apply reportOther_run
    | with_reducible apply logPort_run
    | split
    | decide
    | (with_reducible refine Run.mk_upd rfl ?_ ?_ rfl rfl rfl rfl rfl
       rotate_left 1; exact (fun f hf => by cases f <;> first | exact absurd hf (by decide) | exact Eq.refl _)))

theorem moveHalf_run (p : FPort) (s : State) (hz : Run flds st0 s) (hw : [.out, .hostA, .hostB, .i3c, .warden, .seq, .log, .job,
    .exec, .fabric, .twin, .flash].all flds.contains = true) : Run flds st0 (moveHalf p s) := by
  refine .lift ?_ hz hw
  unfold moveHalf
  repeat' (first
    | with_reducible assumption
    | with_reducible exact Run.refl _ _
    | (extract_lets +onlyGivenNames x
       first | (apply Run.cut (x := x); rotate_left 1; intro h; clear_value x; rotate_left 1; subst x) | clear_value x)
    | with_reducible apply modFab_run
    | with_reducible apply emit_run
    | with_reducible apply ledgerReplace_run
    | with_reducible apply plainNotice_run
    | with_reducible apply logPort_run
    | split
    | decide
    | (with_reducible refine Run.mk_upd rfl ?_ ?_ rfl rfl rfl rfl rfl
       rotate_left 1; exact (fun f hf => by cases f <;> first | exact absurd hf (by decide) | exact Eq.refl _)))

theorem laneFail_run (p : FPort) (lane : Nat) (s : State) (hz : Run flds st0 s) (hw : [.out, .hostA, .hostB, .i3c, .warden,
    .seq, .log, .job, .exec, .cores, .memStacks, .fabric, .twin, .flash, .inspect].all flds.contains = true) : Run flds st0
    (laneFail p lane s) := by
  refine .lift ?_ hz hw
  unfold laneFail
  repeat' (first
    | with_reducible assumption
    | with_reducible exact Run.refl _ _
    | (extract_lets +onlyGivenNames x
       first | (apply Run.cut (x := x); rotate_left 1; intro h; clear_value x; rotate_left 1; subst x) | clear_value x)
    | with_reducible apply modFab_run
    | with_reducible apply logPort_run
    | with_reducible apply portDown_run
    | with_reducible apply moveHalf_run
    | split
    | decide
    | (with_reducible refine Run.mk_upd rfl ?_ ?_ rfl rfl rfl rfl rfl
       rotate_left 1; exact (fun f hf => by cases f <;> first | exact absurd hf (by decide) | exact Eq.refl _)))

theorem takePiece_run (p : FPort) (pl : Bytes) (s : State) (hz : Run flds st0 s) (hw : [.out, .hostA, .hostB, .seq, .log,
    .fabric].all flds.contains = true) : Run flds st0 (takePiece p pl s) := by
  refine .lift ?_ hz hw
  unfold takePiece
  repeat' (first
    | with_reducible assumption
    | with_reducible exact Run.refl _ _
    | (extract_lets +onlyGivenNames x
       first | (apply Run.cut (x := x); rotate_left 1; intro h; clear_value x; rotate_left 1; subst x) | clear_value x)
    | with_reducible apply modFab_run
    | with_reducible apply sendFrame_run
    | with_reducible apply takeMsg_run
    | split
    | decide
    | (with_reducible refine Run.mk_upd rfl ?_ ?_ rfl rfl rfl rfl rfl
       rotate_left 1; exact (fun f hf => by cases f <;> first | exact absurd hf (by decide) | exact Eq.refl _)))

theorem badFrame_run (p : FPort) (seq : BitVec 12) (s : State) (hz : Run flds st0 s) (hw : [.out, .hostA, .hostB, .warden, .seq,
    .log, .job, .exec, .cores, .memStacks, .fabric, .twin, .inspect].all flds.contains = true) : Run flds st0 (badFrame p seq s)
    := by
  refine .lift ?_ hz hw
  unfold badFrame
  repeat' (first
    | with_reducible assumption
    | with_reducible exact Run.refl _ _
    | (extract_lets +onlyGivenNames x
       first | (apply Run.cut (x := x); rotate_left 1; intro h; clear_value x; rotate_left 1; subst x) | clear_value x)
    | with_reducible apply modFab_run
    | with_reducible apply emit_run
    | with_reducible apply portDown_run
    | split
    | decide
    | (with_reducible refine Run.mk_upd rfl ?_ ?_ rfl rfl rfl rfl rfl
       rotate_left 1; exact (fun f hf => by cases f <;> first | exact absurd hf (by decide) | exact Eq.refl _)))

theorem resendFrames_run (p : FPort) (seq : Nat) (s : State) (hz : Run flds st0 s) (hw : [.out, .hostA, .hostB, .warden, .seq,
    .log, .job, .exec, .cores, .memStacks, .fabric, .twin, .inspect].all flds.contains = true) : Run flds st0 (resendFrames p
    seq s) := by
  refine .lift ?_ hz hw
  unfold resendFrames
  repeat' (first
    | with_reducible assumption
    | with_reducible exact Run.refl _ _
    | (extract_lets +onlyGivenNames x
       first | (apply Run.cut (x := x); rotate_left 1; intro h; clear_value x; rotate_left 1; subst x) | clear_value x)
    | with_reducible apply modFab_run
    | with_reducible apply emitAll_run
    | with_reducible apply portDown_run
    | split
    | decide
    | (with_reducible refine Run.mk_upd rfl ?_ ?_ rfl rfl rfl rfl rfl
       rotate_left 1; exact (fun f hf => by cases f <;> first | exact absurd hf (by decide) | exact Eq.refl _)))

theorem goodFrame_run (p : FPort) (f : Frame) (s : State) (hz : Run flds st0 s) (hw : [.out, .hostA, .hostB, .warden, .seq,
    .log, .job, .exec, .cores, .memStacks, .fabric, .twin, .inspect].all flds.contains = true) : Run flds st0 (goodFrame p f s)
    := by
  refine .lift ?_ hz hw
  unfold goodFrame
  repeat' (first
    | with_reducible assumption
    | with_reducible exact Run.refl _ _
    | (extract_lets +onlyGivenNames x
       first | (apply Run.cut (x := x); rotate_left 1; intro h; clear_value x; rotate_left 1; subst x) | clear_value x)
    | with_reducible apply modFab_run
    | with_reducible apply takeCredits_run
    | with_reducible apply takePiece_run
    | with_reducible apply resendFrames_run
    | split
    | decide
    | (with_reducible refine Run.mk_upd rfl ?_ ?_ rfl rfl rfl rfl rfl
       rotate_left 1; exact (fun f hf => by cases f <;> first | exact absurd hf (by decide) | exact Eq.refl _)))

theorem portUp_run (p : FPort) (low high : Bool) (s : State) (hz : Run flds st0 s) (hw : [.out, .hostA, .hostB, .seq, .log,
    .fabric, .flash].all flds.contains = true) : Run flds st0 (portUp p low high s) := by
  refine .lift ?_ hz hw
  unfold portUp
  repeat' (first
    | with_reducible assumption
    | with_reducible exact Run.refl _ _
    | (extract_lets +onlyGivenNames x
       first | (apply Run.cut (x := x); rotate_left 1; intro h; clear_value x; rotate_left 1; subst x) | clear_value x)
    | with_reducible apply modFab_run
    | with_reducible apply ledgerReplace_run
    | with_reducible apply sendOn_run
    | with_reducible apply logPort_run
    | split
    | decide
    | (with_reducible refine Run.mk_upd rfl ?_ ?_ rfl rfl rfl rfl rfl
       rotate_left 1; exact (fun f hf => by cases f <;> first | exact absurd hf (by decide) | exact Eq.refl _)))

theorem takeLinkid_run (p : FPort) (m : Msg) (s : State) (hz : Run flds st0 s) (hw : [.fabric].all flds.contains = true) : Run
    flds st0 (takeLinkid p m s) := by
  refine .lift ?_ hz hw
  unfold takeLinkid
  repeat' (first
    | with_reducible assumption
    | with_reducible exact Run.refl _ _
    | (extract_lets +onlyGivenNames x
       first | (apply Run.cut (x := x); rotate_left 1; intro h; clear_value x; rotate_left 1; subst x) | clear_value x)
    | with_reducible apply modFab_run
    | decide
    | (with_reducible refine Run.mk_upd rfl ?_ ?_ rfl rfl rfl rfl rfl
       rotate_left 1; exact (fun f hf => by cases f <;> first | exact absurd hf (by decide) | exact Eq.refl _)))

end Sys2Proof.Laws
end

