-- ==== Sys2Proof/Laws/RunMemory.lean ====
section
/-! SUPPORT. What the operations may change: one lemma for each operation of Sys2Proof/Machine/Memory.lean. -/

set_option linter.unusedTactic false
set_option linter.unreachableTactic false

namespace Sys2Proof.Laws

open Machine

variable {flds : List StateField} {st0 : State}

theorem poisonReader_run (who : Requester) (addr : Nat) (s : State) (hz : Run flds st0 s) (hw : [.out, .hostA, .hostB, .i3c,
    .warden, .seq, .log, .job, .exec, .gauges, .cores, .coreStore, .memStacks, .mem, .fabric, .twin, .inspect].all flds.contains
    = true) : Run flds st0 (poisonReader who addr s) := by
  refine .lift ?_ hz hw
  unfold poisonReader
  repeat' (first
    | with_reducible assumption
    | with_reducible exact Run.refl _ _
    | with_reducible apply streamMismatch_run
    | split
    | decide
    | (with_reducible refine Run.mk_upd rfl ?_ ?_ rfl rfl rfl rfl rfl
       rotate_left 1; exact (fun f hf => by cases f <;> first | exact absurd hf (by decide) | exact Eq.refl _)))

theorem markBank_run (i : Fin 32) (pc bank : Nat) (s : State) (hz : Run flds st0 s) (hw : [.memStacks].all flds.contains = true)
    : Run flds st0 (markBank i pc bank s) := by
  refine .lift ?_ hz hw
  unfold markBank
  repeat' (first
    | with_reducible assumption
    | with_reducible exact Run.refl _ _
    | (extract_lets +onlyGivenNames x
       first | (apply Run.cut (x := x); rotate_left 1; intro h; clear_value x; rotate_left 1; subst x) | clear_value x)
    | with_reducible apply modStack_run
    | split
    | decide
    | (with_reducible refine Run.mk_upd rfl ?_ ?_ rfl rfl rfl rfl rfl
       rotate_left 1; exact (fun f hf => by cases f <;> first | exact absurd hf (by decide) | exact Eq.refl _)))

theorem markRow_run (i : Fin 32) (pc bank row : Nat) (s : State) (hz : Run flds st0 s) (hw : [.out, .hostA, .hostB, .seq, .log,
    .memStacks].all flds.contains = true) : Run flds st0 (markRow i pc bank row s) := by
  refine .lift ?_ hz hw
  unfold markRow
  repeat' (first
    | with_reducible assumption
    | with_reducible exact Run.refl _ _
    | (extract_lets +onlyGivenNames x
       first | (apply Run.cut (x := x); rotate_left 1; intro h; clear_value x; rotate_left 1; subst x) | clear_value x)
    | with_reducible apply modStack_run
    | with_reducible apply logEv_run
    | with_reducible apply markBank_run
    | split
    | decide
    | (with_reducible refine Run.mk_upd rfl ?_ ?_ rfl rfl rfl rfl rfl
       rotate_left 1; exact (fun f hf => by cases f <;> first | exact absurd hf (by decide) | exact Eq.refl _)))

theorem rowCorrected_run (i : Fin 32) (pc bank row : Nat) (s : State) (hz : Run flds st0 s) (hw : [.out, .hostA, .hostB, .seq,
    .log, .memStacks].all flds.contains = true) : Run flds st0 (rowCorrected i pc bank row s) := by
  refine .lift ?_ hz hw
  unfold rowCorrected
  repeat' (first
    | with_reducible assumption
    | with_reducible exact Run.refl _ _
    | (extract_lets +onlyGivenNames x
       first | (apply Run.cut (x := x); rotate_left 1; intro h; clear_value x; rotate_left 1; subst x) | clear_value x)
    | with_reducible apply modStack_run
    | with_reducible apply markRow_run
    | split
    | decide
    | (with_reducible refine Run.mk_upd rfl ?_ ?_ rfl rfl rfl rfl rfl
       rotate_left 1; exact (fun f hf => by cases f <;> first | exact absurd hf (by decide) | exact Eq.refl _)))

theorem disableWay_run (i : Fin 32) (ln way : Nat) (s : State) (hz : Run flds st0 s) (hw : [.out, .hostA, .hostB, .seq, .log,
    .memStacks, .flash].all flds.contains = true) : Run flds st0 (disableWay i ln way s).1 := by
  refine .lift ?_ hz hw
  unfold disableWay
  repeat' (first
    | with_reducible assumption
    | with_reducible exact Run.refl _ _
    | (extract_lets +onlyGivenNames x
       first | (apply Run.cut (x := x); rotate_left 1; intro h; clear_value x; rotate_left 1; subst x) | clear_value x)
    | with_reducible apply modStack_run
    | with_reducible apply logEv_run
    | with_reducible apply ledgerAppend_run
    | dsimp only
    | split
    | decide
    | (with_reducible refine Run.mk_upd rfl ?_ ?_ rfl rfl rfl rfl rfl
       rotate_left 1; exact (fun f hf => by cases f <;> first | exact absurd hf (by decide) | exact Eq.refl _)))

theorem sectorCheck_run (i : Fin 32) (who : Requester) (addr : Nat) (e : Ecc) (s : State) (hz : Run flds st0 s) (hw : [.out,
    .hostA, .hostB, .i3c, .warden, .seq, .log, .job, .exec, .gauges, .cores, .coreStore, .memStacks, .mem, .fabric, .twin,
    .flash, .inspect].all flds.contains = true) : Run flds st0 (sectorCheck i who addr e s).1 := by
  refine .lift ?_ hz hw
  unfold sectorCheck
  repeat' (first
    | with_reducible assumption
    | with_reducible exact Run.refl _ _
    | (extract_lets +onlyGivenNames x
       first | (apply Run.cut (x := x); rotate_left 1; intro h; clear_value x; rotate_left 1; subst x) | clear_value x)
    | with_reducible apply logEv_run
    | with_reducible apply poisonReader_run
    | with_reducible apply markBank_run
    | with_reducible apply markRow_run
    | with_reducible apply rowCorrected_run
    | with_reducible apply disableWay_run
    | dsimp only
    | (split; rename_i x r heq; obtain rfl : (_ : State) = x := congrArg Prod.fst heq)
    | split
    | decide
    | (with_reducible refine Run.mk_upd rfl ?_ ?_ rfl rfl rfl rfl rfl
       rotate_left 1; exact (fun f hf => by cases f <;> first | exact absurd hf (by decide) | exact Eq.refl _)))

theorem ackWrite_run (i : Fin 32) (addr len : Nat) (k : WAck) (s : State) (hz : Run flds st0 s) (hw : [.out, .cores,
    .memStacks].all flds.contains = true) : Run flds st0 (ackWrite i addr len k s) := by
  refine .lift ?_ hz hw
  unfold ackWrite
  repeat' (first
    | with_reducible assumption
    | with_reducible exact Run.refl _ _
    | (extract_lets +onlyGivenNames x
       first | (apply Run.cut (x := x); rotate_left 1; intro h; clear_value x; rotate_left 1; subst x) | clear_value x)
    | with_reducible apply sendAck_run
    | with_reducible apply markStale_run
    | with_reducible apply withhold_run
    | split
    | decide)

theorem modBank_run (i : Fin 32) (b : Nat) (f : BankQ → BankQ) (s : State) (hz : Run flds st0 s) (hw : [.memStacks].all
    flds.contains = true) : Run flds st0 (modBank i b f s) := by
  refine .lift ?_ hz hw
  unfold modBank
  repeat' (first
    | with_reducible assumption
    | with_reducible exact Run.refl _ _
    | (extract_lets +onlyGivenNames x
       first | (apply Run.cut (x := x); rotate_left 1; intro h; clear_value x; rotate_left 1; subst x) | clear_value x)
    | with_reducible apply modStack_run
    | decide
    | (with_reducible refine Run.mk_upd rfl ?_ ?_ rfl rfl rfl rfl rfl
       rotate_left 1; exact (fun f hf => by cases f <;> first | exact absurd hf (by decide) | exact Eq.refl _)))

theorem modOutst_run (d c : Nat) (f : List Outst → List Outst) (s : State) (hz : Run flds st0 s) (hw : [.cores].all
    flds.contains = true) : Run flds st0 (modOutst d c f s) := by
  refine .lift ?_ hz hw
  unfold modOutst
  repeat' (first
    | with_reducible assumption
    | with_reducible exact Run.refl _ _
    | (extract_lets +onlyGivenNames x
       first | (apply Run.cut (x := x); rotate_left 1; intro h; clear_value x; rotate_left 1; subst x) | clear_value x)
    | with_reducible apply modCore_run
    | decide
    | (with_reducible refine Run.mk_upd rfl ?_ ?_ rfl rfl rfl rfl rfl
       rotate_left 1; exact (fun f hf => by cases f <;> first | exact absurd hf (by decide) | exact Eq.refl _)))

theorem coreAnswer_run (d c id : Nat) (a : Option Bytes) (s : State) (hz : Run flds st0 s) (hw : [.cores].all flds.contains =
    true) : Run flds st0 (coreAnswer d c id a s) := by
  refine .lift ?_ hz hw
  unfold coreAnswer
  repeat' (first
    | with_reducible assumption
    | with_reducible exact Run.refl _ _
    | (extract_lets +onlyGivenNames x
       first | (apply Run.cut (x := x); rotate_left 1; intro h; clear_value x; rotate_left 1; subst x) | clear_value x)
    | with_reducible apply modOutst_run
    | split
    | decide
    | (with_reducible refine Run.mk_upd rfl ?_ ?_ rfl rfl rfl rfl rfl
       rotate_left 1; exact (fun f hf => by cases f <;> first | exact absurd hf (by decide) | exact Eq.refl _)))

theorem complete_run (i : Fin 32) (who : Requester) (id : Nat) (a : Option Bytes) (s : State) (hz : Run flds st0 s) (hw : [.out,
    .cores, .memStacks].all flds.contains = true) : Run flds st0 (complete i who id a s) := by
  refine .lift ?_ hz hw
  unfold complete
  repeat' (first
    | with_reducible assumption
    | with_reducible exact Run.refl _ _
    | with_reducible apply emit_run
    | with_reducible apply leaveBanks_run
    | with_reducible apply answerErr_run
    | with_reducible apply coreAnswer_run
    | split
    | decide
    | (with_reducible refine Run.mk_upd rfl ?_ ?_ rfl rfl rfl rfl rfl
       rotate_left 1; exact (fun f hf => by cases f <;> first | exact absurd hf (by decide) | exact Eq.refl _)))

theorem writeErr_run (i : Fin 32) (who : Requester) (id : Nat) (s : State) (hz : Run flds st0 s) (hw : [.out, .cores,
    .memStacks].all flds.contains = true) : Run flds st0 (writeErr i who id s) := by
  refine .lift ?_ hz hw
  unfold writeErr
  repeat' (first
    | with_reducible assumption
    | with_reducible exact Run.refl _ _
    | with_reducible apply leaveBanks_run
    | with_reducible apply dropOutst_run
    | with_reducible apply answerErr_run
    | decide)

theorem serveLine_run (r : LineReq) (s : State) (hz : Run flds st0 s) (hw : [.out, .hostA, .hostB, .i3c, .warden, .seq, .log,
    .job, .exec, .gauges, .cores, .coreStore, .memStacks, .mem, .fabric, .twin, .flash, .inspect].all flds.contains = true) :
    Run flds st0 (serveLine r s) := by
  refine .lift ?_ hz hw
  unfold serveLine
  repeat' (first
    | with_reducible assumption
    | with_reducible exact Run.refl _ _
    | (extract_lets +onlyGivenNames x
       first | (apply Run.cut (x := x); rotate_left 1; intro h; clear_value x; rotate_left 1; subst x) | clear_value x)
    | with_reducible apply cacheRead_run
    | with_reducible apply cacheWrite_run
    | with_reducible apply sectorCheck_run
    | with_reducible apply ackWrite_run
    | with_reducible apply complete_run
    | with_reducible apply writeErr_run
    | (split; rename_i x r heq; obtain rfl : (_ : State) = x := congrArg Prod.fst heq)
    | (split; rename_i r x heq; obtain rfl : (_ : State) = x := congrArg Prod.snd heq)
    | split
    | decide)

theorem serveGather_run (r : NarrowReq) (s : State) (hz : Run flds st0 s) (hw : [.out, .hostA, .hostB, .i3c, .warden, .seq,
    .log, .job, .exec, .gauges, .cores, .coreStore, .memStacks, .mem, .fabric, .twin, .flash, .inspect].all flds.contains =
    true) : Run flds st0 (serveGather r s) := by
  refine .lift ?_ hz hw
  unfold serveGather
  repeat' (first
    | with_reducible assumption
    | with_reducible exact Run.refl _ _
    | (extract_lets +onlyGivenNames x
       first | (apply Run.cut (x := x); rotate_left 1; intro h; clear_value x; rotate_left 1; subst x) | clear_value x)
    | with_reducible apply sectorCheck_run
    | with_reducible apply complete_run
    | (split; rename_i x r heq; obtain rfl : (_ : State) = x := congrArg Prod.fst heq)
    | split
    | decide)

theorem ackNarrow_run (i : Fin 32) (addrs : List Nat) (k : WAck) (s : State) (hz : Run flds st0 s) (hw : [.out, .cores,
    .memStacks].all flds.contains = true) : Run flds st0 (ackNarrow i addrs k s) := by
  refine .lift ?_ hz hw
  unfold ackNarrow
  repeat' (first
    | with_reducible assumption
    | with_reducible exact Run.refl _ _
    | (extract_lets +onlyGivenNames x
       first | (apply Run.cut (x := x); rotate_left 1; intro h; clear_value x; rotate_left 1; subst x) | clear_value x)
    | with_reducible apply modStack_run
    | with_reducible apply sendAck_run
    | split
    | decide
    | (with_reducible refine Run.mk_upd rfl ?_ ?_ rfl rfl rfl rfl rfl
       rotate_left 1; exact (fun f hf => by cases f <;> first | exact absurd hf (by decide) | exact Eq.refl _)))

theorem serveScatter_run (r : NarrowReq) (s : State) (hz : Run flds st0 s) (hw : [.out, .hostA, .hostB, .i3c, .warden, .seq,
    .log, .job, .exec, .gauges, .cores, .coreStore, .memStacks, .mem, .fabric, .twin, .flash, .inspect].all flds.contains =
    true) : Run flds st0 (serveScatter r s) := by
  refine .lift ?_ hz hw
  unfold serveScatter
  repeat' (first
    | with_reducible assumption
    | with_reducible exact Run.refl _ _
    | (extract_lets +onlyGivenNames x
       first | (apply Run.cut (x := x); rotate_left 1; intro h; clear_value x; rotate_left 1; subst x) | clear_value x)
    | with_reducible apply narrowWrite_run
    | with_reducible apply markStale_run
    | with_reducible apply sectorCheck_run
    | with_reducible apply writeErr_run
    | with_reducible apply ackNarrow_run
    | (with_reducible apply Run.foldl; rotate_left 1; intro e x h)
    | (with_reducible apply Run.foldl1; rotate_left 1; intro e x h)
    | (split; rename_i x r heq; obtain rfl : (_ : State) = x := congrArg Prod.fst heq)
    | split
    | decide)

theorem addLanes_run (i : Fin 32) (a : Nat) (x : List Int) (s : State) (hz : Run flds st0 s) (hw : [.memStacks, .mem].all
    flds.contains = true) : Run flds st0 (addLanes i a x s).1 := by
  refine .lift ?_ hz hw
  unfold addLanes
  repeat' (first
    | with_reducible assumption
    | with_reducible exact Run.refl _ _
    | (extract_lets +onlyGivenNames x
       first | (apply Run.cut (x := x); rotate_left 1; intro h; clear_value x; rotate_left 1; subst x) | clear_value x)
    | with_reducible apply narrowWrite_run
    | dsimp only
    | decide)

theorem countSat_run (n : Nat) (s : State) (hz : Run flds st0 s) (hw : [.gauges].all flds.contains = true) : Run flds st0
    (countSat n s) := by
  refine .lift ?_ hz hw
  unfold countSat
  repeat' (first
    | with_reducible assumption
    | with_reducible exact Run.refl _ _
    | with_reducible apply addGauge_run
    | split
    | decide)

theorem serveScatterAdd_run (r : NarrowReq) (s : State) (hz : Run flds st0 s) (hw : [.out, .hostA, .hostB, .i3c, .warden, .seq,
    .log, .job, .exec, .gauges, .cores, .coreStore, .memStacks, .mem, .fabric, .twin, .flash, .inspect].all flds.contains =
    true) : Run flds st0 (serveScatterAdd r s) := by
  refine .lift ?_ hz hw
  unfold serveScatterAdd
  repeat' (first
    | with_reducible assumption
    | with_reducible exact Run.refl _ _
    | (extract_lets +onlyGivenNames x
       first | (apply Run.cut (x := x); rotate_left 1; intro h; clear_value x; rotate_left 1; subst x) | clear_value x)
    | with_reducible apply markStale_run
    | with_reducible apply sectorCheck_run
    | with_reducible apply writeErr_run
    | with_reducible apply ackNarrow_run
    | with_reducible apply addLanes_run
    | with_reducible apply countSat_run
    | (with_reducible apply Run.foldl; rotate_left 1; intro e x h)
    | (with_reducible apply Run.foldl1; rotate_left 1; intro e x h)
    | (split; rename_i x r heq; obtain rfl : (_ : State) = x := congrArg Prod.fst heq)
    | split
    | decide)

theorem serve_run (r : MemReq) (s : State) (hz : Run flds st0 s) (hw : [.out, .hostA, .hostB, .i3c, .warden, .seq, .log, .job,
    .exec, .gauges, .cores, .coreStore, .memStacks, .mem, .fabric, .twin, .flash, .inspect].all flds.contains = true) : Run flds
    st0 (serve r s) := by
  refine .lift ?_ hz hw
  unfold serve
  repeat' (first
    | with_reducible assumption
    | with_reducible exact Run.refl _ _
    | with_reducible apply serveLine_run
    | with_reducible apply serveGather_run
    | with_reducible apply serveScatter_run
    | with_reducible apply serveScatterAdd_run
    | split
    | decide
    | (with_reducible refine Run.mk_upd rfl ?_ ?_ rfl rfl rfl rfl rfl
       rotate_left 1; exact (fun f hf => by cases f <;> first | exact absurd hf (by decide) | exact Eq.refl _)))

theorem admitReq_run (r : MemReq) (s : State) (hz : Run flds st0 s) (hw : [.out, .hostA, .hostB, .i3c, .warden, .seq, .log,
    .job, .exec, .gauges, .cores, .coreStore, .memStacks, .mem, .fabric, .twin, .flash, .inspect].all flds.contains = true) :
    Run flds st0 (admitReq r s) := by
  refine .lift ?_ hz hw
  unfold admitReq
  repeat' (first
    | with_reducible assumption
    | with_reducible exact Run.refl _ _
    | (extract_lets +onlyGivenNames x
       first | (apply Run.cut (x := x); rotate_left 1; intro h; clear_value x; rotate_left 1; subst x) | clear_value x)
    | with_reducible apply modBank_run
    | with_reducible apply serve_run
    | (with_reducible apply Run.foldl; rotate_left 1; intro e x h)
    | decide
    | (with_reducible refine Run.mk_upd rfl ?_ ?_ rfl rfl rfl rfl rfl
       rotate_left 1; exact (fun f hf => by cases f <;> first | exact absurd hf (by decide) | exact Eq.refl _)))

theorem noteRetry_run (d c th : Nat) (r : MemReq) (s : State) (hz : Run flds st0 s) (hw : [.cores].all flds.contains = true) :
    Run flds st0 (noteRetry d c th r s) := by
  refine .lift ?_ hz hw
  unfold noteRetry
  repeat' (first
    | with_reducible assumption
    | with_reducible exact Run.refl _ _
    | (extract_lets +onlyGivenNames x
       first | (apply Run.cut (x := x); rotate_left 1; intro h; clear_value x; rotate_left 1; subst x) | clear_value x)
    | with_reducible apply modOutst_run
    | split
    | decide
    | (with_reducible refine Run.mk_upd rfl ?_ ?_ rfl rfl rfl rfl rfl
       rotate_left 1; exact (fun f hf => by cases f <;> first | exact absurd hf (by decide) | exact Eq.refl _)))

theorem enterBank_run (r : MemReq) (s : State) (hz : Run flds st0 s) (hw : [.out, .hostA, .hostB, .i3c, .warden, .seq, .log,
    .job, .exec, .gauges, .cores, .coreStore, .memStacks, .mem, .fabric, .twin, .flash, .inspect].all flds.contains = true) :
    Run flds st0 (enterBank r s) := by
  refine .lift ?_ hz hw
  unfold enterBank
  repeat' (first
    | with_reducible assumption
    | with_reducible exact Run.refl _ _
    | (extract_lets +onlyGivenNames x
       first | (apply Run.cut (x := x); rotate_left 1; intro h; clear_value x; rotate_left 1; subst x) | clear_value x)
    | with_reducible apply modStack_run
    | with_reducible apply emit_run
    | with_reducible apply modBank_run
    | with_reducible apply admitReq_run
    | with_reducible apply noteRetry_run
    | split
    | decide
    | (with_reducible refine Run.mk_upd rfl ?_ ?_ rfl rfl rfl rfl rfl
       rotate_left 1; exact (fun f hf => by cases f <;> first | exact absurd hf (by decide) | exact Eq.refl _)))

theorem watchLine_run (r : LineReq) (s : State) (hz : Run flds st0 s) (hw : [.memStacks].all flds.contains = true) : Run flds
    st0 (watchLine r s) := by
  refine .lift ?_ hz hw
  unfold watchLine
  repeat' (first
    | with_reducible assumption
    | with_reducible exact Run.refl _ _
    | with_reducible apply addWatch_run
    | split
    | decide
    | (with_reducible refine Run.mk_upd rfl ?_ ?_ rfl rfl rfl rfl rfl
       rotate_left 1; exact (fun f hf => by cases f <;> first | exact absurd hf (by decide) | exact Eq.refl _)))

theorem failReq_run (r : MemReq) (cause : Nat) (s : State) (hz : Run flds st0 s) (hw : [.out, .hostA, .hostB, .seq, .log,
    .cores].all flds.contains = true) : Run flds st0 (failReq r cause s) := by
  refine .lift ?_ hz hw
  unfold failReq
  repeat' (first
    | with_reducible assumption
    | with_reducible exact Run.refl _ _
    | with_reducible apply logAccess_run
    | with_reducible apply dropOutst_run
    | with_reducible apply answerErr_run
    | decide)

theorem poisonMover_run (addr : Nat) (s : State) (hz : Run flds st0 s) (hw : [.out, .hostA, .hostB, .i3c, .warden, .seq, .log,
    .job, .exec, .gauges, .cores, .coreStore, .memStacks, .mem, .fabric, .twin, .inspect].all flds.contains = true) : Run flds
    st0 (poisonMover addr s) := by
  refine .lift ?_ hz hw
  unfold poisonMover
  repeat' (first
    | with_reducible assumption
    | with_reducible exact Run.refl _ _
    | (extract_lets +onlyGivenNames x
       first | (apply Run.cut (x := x); rotate_left 1; intro h; clear_value x; rotate_left 1; subst x) | clear_value x)
    | with_reducible apply streamMismatch_run
    | (with_reducible apply Run.foldl; rotate_left 1; intro e x h)
    | split
    | decide
    | (with_reducible refine Run.mk_upd rfl ?_ ?_ rfl rfl rfl rfl rfl
       rotate_left 1; exact (fun f hf => by cases f <;> first | exact absurd hf (by decide) | exact Eq.refl _)))

theorem farAccess_run (f : Fin 2) (r : LineReq) (s : State) (hz : Run flds st0 s) (hw : [.out, .hostA, .hostB, .i3c, .warden,
    .seq, .log, .job, .exec, .gauges, .cores, .coreStore, .memStacks, .mem, .fabric, .twin, .inspect].all flds.contains = true)
    : Run flds st0 (farAccess f r s) := by
  refine .lift ?_ hz hw
  unfold farAccess
  repeat' (first
    | with_reducible assumption
    | with_reducible exact Run.refl _ _
    | (extract_lets +onlyGivenNames x
       first | (apply Run.cut (x := x); rotate_left 1; intro h; clear_value x; rotate_left 1; subst x) | clear_value x)
    | with_reducible apply emit_run
    | with_reducible apply logEv_run
    | with_reducible apply answerErr_run
    | with_reducible apply poisonMover_run
    | split
    | decide
    | (with_reducible refine Run.mk_mem rfl ?_ ?_ rfl rfl ?_ ?_ rfl
       rotate_left 1; exact (fun f hf => by cases f <;> first | exact absurd hf (by decide) | exact Eq.refl _)
       all_goals first | exact id | exact memWrite_wf | exact memClear_wf | exact memSet_foldl_wf | exact memWrite_foldl_wf | exact fun _ => rfl | skip))

theorem issueCore_run (d : Fin 4) (c : Nat) (th : Fin 8) (dst : Nat) (r : MemReq) (s : State) (hz : Run flds st0 s) (hw : [.out,
    .hostA, .hostB, .i3c, .warden, .seq, .log, .job, .exec, .gauges, .cores, .coreStore, .memStacks, .mem, .fabric, .twin,
    .flash, .inspect].all flds.contains = true) : Run flds st0 (issueCore d c th dst r s) := by
  refine .lift ?_ hz hw
  unfold issueCore
  repeat' (first
    | with_reducible assumption
    | with_reducible exact Run.refl _ _
    | (extract_lets +onlyGivenNames x
       first | (apply Run.cut (x := x); rotate_left 1; intro h; clear_value x; rotate_left 1; subst x) | clear_value x)
    | with_reducible apply setThread_run
    | with_reducible apply modOutst_run
    | with_reducible apply enterBank_run
    | split
    | decide)

theorem lineReq_run (r : LineReq) (s : State) (hz : Run flds st0 s) (hw : [.out, .hostA, .hostB, .i3c, .warden, .seq, .log,
    .job, .exec, .gauges, .cores, .coreStore, .memStacks, .mem, .fabric, .twin, .flash, .inspect].all flds.contains = true) :
    Run flds st0 (lineReq r s) := by
  refine .lift ?_ hz hw
  unfold lineReq
  repeat' (first
    | with_reducible assumption
    | with_reducible exact Run.refl _ _
    | with_reducible apply enterBank_run
    | with_reducible apply watchLine_run
    | with_reducible apply failReq_run
    | with_reducible apply farAccess_run
    | with_reducible apply issueCore_run
    | split
    | decide
    | (with_reducible refine Run.mk_upd rfl ?_ ?_ rfl rfl rfl rfl rfl
       rotate_left 1; exact (fun f hf => by cases f <;> first | exact absurd hf (by decide) | exact Eq.refl _)))

theorem narrowReq_run (r : NarrowReq) (q : MemReq) (s : State) (hz : Run flds st0 s) (hw : [.out, .hostA, .hostB, .i3c, .warden,
    .seq, .log, .job, .exec, .gauges, .cores, .coreStore, .memStacks, .mem, .fabric, .twin, .flash, .inspect].all flds.contains
    = true) : Run flds st0 (narrowReq r q s) := by
  refine .lift ?_ hz hw
  unfold narrowReq
  repeat' (first
    | with_reducible assumption
    | with_reducible exact Run.refl _ _
    | with_reducible apply enterBank_run
    | with_reducible apply failReq_run
    | with_reducible apply issueCore_run
    | split
    | decide
    | (with_reducible refine Run.mk_upd rfl ?_ ?_ rfl rfl rfl rfl rfl
       rotate_left 1; exact (fun f hf => by cases f <;> first | exact absurd hf (by decide) | exact Eq.refl _)))

theorem takeRetry_run (d c id : Nat) (s s' : State) (ht : takeRetry d c id s = some s') (hz : Run flds st0 s)
    (hw : [.cores].all flds.contains = true) : Run flds st0 s' := by
  unfold takeRetry at ht
  split at ht
  · split at ht
    · split at ht
      · obtain rfl := Option.some.inj ht
        exact modOutst_run _ _ _ _ hz hw
      · cases ht
    · cases ht
  · cases ht

theorem settleRange_run (a n : Nat) (s : State) (hz : Run flds st0 s) (hw : [.out, .hostA, .hostB, .i3c, .warden, .seq, .log,
    .job, .exec, .gauges, .cores, .coreStore, .memStacks, .mem, .fabric, .twin, .flash, .inspect].all flds.contains = true) :
    Run flds st0 (settleRange a n s) := by
  refine .lift ?_ hz hw
  unfold settleRange
  repeat' (first
    | with_reducible assumption
    | with_reducible exact Run.refl _ _
    | (extract_lets +onlyGivenNames x
       first | (apply Run.cut (x := x); rotate_left 1; intro h; clear_value x; rotate_left 1; subst x) | clear_value x)
    | with_reducible apply modStack_run
    | with_reducible apply serve_run
    | (with_reducible apply Run.foldl; rotate_left 1; intro e x h)
    | split
    | decide
    | (with_reducible refine Run.mk_upd rfl ?_ ?_ rfl rfl rfl rfl rfl
       rotate_left 1; exact (fun f hf => by cases f <;> first | exact absurd hf (by decide) | exact Eq.refl _)))

theorem onAdder_run {addr len : Nat} {f : Fin 32 → State → State} {s : State} (hz : Run flds st0 s)
    (hf : ∀ i x, Run flds st0 x → Run flds st0 (f i x))
    (hw : [.out, .hostA, .hostB, .i3c, .warden, .seq, .log, .job, .exec, .gauges, .cores, .coreStore, .memStacks, .mem, .fabric, .twin,
      .flash, .inspect].all flds.contains = true) : Run flds st0 (onAdder addr len f s) := by
  unfold onAdder
  split
  · exact answerErr_run _ _ _ (logAccess_run _ _ _ _ hz (sub_all hw (by decide))) (sub_all hw (by decide))
  · split
    · exact hf _ _ (settleRange_run _ _ _ hz hw)
    · exact hz

theorem rangeCheck_run (who : Requester) (a : Nat) (e : Ecc) (s : State) (hz : Run flds st0 s) (hw : [.out, .hostA, .hostB,
    .i3c, .warden, .seq, .log, .job, .exec, .gauges, .cores, .coreStore, .memStacks, .mem, .fabric, .twin, .flash, .inspect].all
    flds.contains = true) : Run flds st0 (rangeCheck who a e s).1 := by
  refine .lift ?_ hz hw
  unfold rangeCheck
  repeat' (first
    | with_reducible assumption
    | with_reducible exact Run.refl _ _
    | with_reducible apply logEv_run
    | with_reducible apply sectorCheck_run
    | dsimp only
    | (split; rename_i x r heq; obtain rfl : (_ : State) = x := congrArg Prod.fst heq)
    | split
    | decide
    | (with_reducible refine Run.mk_upd rfl ?_ ?_ rfl rfl rfl rfl rfl
       rotate_left 1; exact (fun f hf => by cases f <;> first | exact absurd hf (by decide) | exact Eq.refl _)))

theorem bar2Read_run (p : HPort) (off len : Nat) (e : Ecc) (s : State) (hz : Run flds st0 s) (hw : [.out, .hostA, .hostB, .i3c,
    .warden, .seq, .log, .job, .exec, .gauges, .cores, .coreStore, .memStacks, .mem, .fabric, .twin, .flash, .inspect].all
    flds.contains = true) : Run flds st0 (bar2Read p off len e s) := by
  refine .lift ?_ hz hw
  unfold bar2Read
  repeat' (first
    | with_reducible assumption
    | with_reducible exact Run.refl _ _
    | (extract_lets +onlyGivenNames x
       first | (apply Run.cut (x := x); rotate_left 1; intro h; clear_value x; rotate_left 1; subst x) | clear_value x)
    | with_reducible apply emit_run
    | with_reducible apply logAccess_run
    | with_reducible apply answerErr_run
    | with_reducible apply dmaRead_run
    | with_reducible apply settleRange_run
    | with_reducible apply rangeCheck_run
    | (split; rename_i x r heq; obtain rfl : (_ : State) = x := congrArg Prod.fst heq)
    | (split; rename_i r x heq; obtain rfl : (_ : State) = x := congrArg Prod.snd heq)
    | split
    | decide
    | (with_reducible refine Run.mk_upd rfl ?_ ?_ rfl rfl rfl rfl rfl
       rotate_left 1; exact (fun f hf => by cases f <;> first | exact absurd hf (by decide) | exact Eq.refl _)))

theorem bar2Write_run (p : HPort) (off : Nat) (data : Bytes) (e : Ecc) (s : State) (hz : Run flds st0 s) (hw : [.out, .hostA,
    .hostB, .i3c, .warden, .seq, .log, .job, .exec, .gauges, .cores, .coreStore, .memStacks, .mem, .fabric, .twin, .flash,
    .inspect].all flds.contains = true) : Run flds st0 (bar2Write p off data e s) := by
  refine .lift ?_ hz hw
  unfold bar2Write
  repeat' (first
    | with_reducible assumption
    | with_reducible exact Run.refl _ _
    | (extract_lets +onlyGivenNames x
       first | (apply Run.cut (x := x); rotate_left 1; intro h; clear_value x; rotate_left 1; subst x) | clear_value x)
    | with_reducible apply logAccess_run
    | with_reducible apply dmaWrite_run
    | with_reducible apply settleRange_run
    | with_reducible apply rangeCheck_run
    | (split; rename_i x r heq; obtain rfl : (_ : State) = x := congrArg Prod.fst heq)
    | split
    | decide
    | (with_reducible refine Run.mk_upd rfl ?_ ?_ rfl rfl rfl rfl rfl
       rotate_left 1; exact (fun f hf => by cases f <;> first | exact absurd hf (by decide) | exact Eq.refl _)))

theorem landLine_run (d : Fin 4) (c : Nat) (o : Outst) (a : Option Bytes) (s : State) (hz : Run flds st0 s) (hw : [.out, .cores,
    .coreStore, .memStacks].all flds.contains = true) : Run flds st0 (landLine d c o a s) := by
  refine .lift ?_ hz hw
  unfold landLine
  repeat' (first
    | with_reducible assumption
    | with_reducible exact Run.refl _ _
    | (extract_lets +onlyGivenNames x
       first | (apply Run.cut (x := x); rotate_left 1; intro h; clear_value x; rotate_left 1; subst x) | clear_value x)
    | with_reducible apply emit_run
    | with_reducible apply answerErr_run
    | with_reducible apply storeWrite_run
    | with_reducible apply setThread_run
    | with_reducible apply modBank_run
    | with_reducible apply modOutst_run
    | (with_reducible apply Run.foldl; rotate_left 1; intro e x h)
    | split
    | decide
    | (with_reducible refine Run.mk_upd rfl ?_ ?_ rfl rfl rfl rfl rfl
       rotate_left 1; exact (fun f hf => by cases f <;> first | exact absurd hf (by decide) | exact Eq.refl _)))

theorem sweepCore_run (k : Core) (s : State) (hz : Run flds st0 s) (hw : [.out, .hostA, .hostB, .seq, .log, .cores].all
    flds.contains = true) : Run flds st0 (sweepCore k s) := by
  refine .lift ?_ hz hw
  unfold sweepCore
  repeat' (first
    | with_reducible assumption
    | with_reducible exact Run.refl _ _
    | (extract_lets +onlyGivenNames x
       first | (apply Run.cut (x := x); rotate_left 1; intro h; clear_value x; rotate_left 1; subst x) | clear_value x)
    | with_reducible apply logAccess_run
    | with_reducible apply coreAnswer_run
    | (with_reducible apply Run.foldl; rotate_left 1; intro e x h)
    | split
    | decide
    | (with_reducible refine Run.mk_upd rfl ?_ ?_ rfl rfl rfl rfl rfl
       rotate_left 1; exact (fun f hf => by cases f <;> first | exact absurd hf (by decide) | exact Eq.refl _)))

theorem sweepBank_run (i : Fin 32) (b : BankQ) (s : State) (hz : Run flds st0 s) (hw : [.out, .hostA, .hostB, .seq, .log,
    .cores, .memStacks].all flds.contains = true) : Run flds st0 (sweepBank i b s) := by
  refine .lift ?_ hz hw
  unfold sweepBank
  repeat' (first
    | with_reducible assumption
    | with_reducible exact Run.refl _ _
    | (extract_lets +onlyGivenNames x
       first | (apply Run.cut (x := x); rotate_left 1; intro h; clear_value x; rotate_left 1; subst x) | clear_value x)
    | with_reducible apply modBank_run
    | with_reducible apply failReq_run
    | (with_reducible apply Run.foldl; rotate_left 1; intro e x h)
    | split
    | decide
    | (with_reducible refine Run.mk_upd rfl ?_ ?_ rfl rfl rfl rfl rfl
       rotate_left 1; exact (fun f hf => by cases f <;> first | exact absurd hf (by decide) | exact Eq.refl _)))

theorem sweepAcks_run (i : Fin 32) (s : State) (hz : Run flds st0 s) (hw : [.out, .hostA, .hostB, .seq, .log, .cores,
    .memStacks].all flds.contains = true) : Run flds st0 (sweepAcks i s) := by
  refine .lift ?_ hz hw
  unfold sweepAcks
  repeat' (first
    | with_reducible assumption
    | with_reducible exact Run.refl _ _
    | (extract_lets +onlyGivenNames x
       first | (apply Run.cut (x := x); rotate_left 1; intro h; clear_value x; rotate_left 1; subst x) | clear_value x)
    | with_reducible apply modStack_run
    | with_reducible apply emit_run
    | with_reducible apply logAccess_run
    | with_reducible apply answerErr_run
    | with_reducible apply writeErr_run
    | (with_reducible apply Run.foldl; rotate_left 1; intro e x h)
    | split
    | decide
    | (with_reducible refine Run.mk_upd rfl ?_ ?_ rfl rfl rfl rfl rfl
       rotate_left 1; exact (fun f hf => by cases f <;> first | exact absurd hf (by decide) | exact Eq.refl _)))

theorem sweepRequests_run (s : State) (hz : Run flds st0 s) (hw : [.out, .hostA, .hostB, .seq, .log, .cores, .memStacks].all
    flds.contains = true) : Run flds st0 (sweepRequests s) := by
  refine .lift ?_ hz hw
  unfold sweepRequests
  repeat' (first
    | with_reducible assumption
    | with_reducible exact Run.refl _ _
    | (extract_lets +onlyGivenNames x
       first | (apply Run.cut (x := x); rotate_left 1; intro h; clear_value x; rotate_left 1; subst x) | clear_value x)
    | with_reducible apply sweepCore_run
    | with_reducible apply sweepBank_run
    | with_reducible apply sweepAcks_run
    | (with_reducible apply Run.foldl; rotate_left 1; intro e x h)
    | decide)

theorem reissue_run (r : Reissue) (s : State) (hz : Run flds st0 s) (hw : [.out, .hostA, .hostB, .i3c, .warden, .seq, .log,
    .job, .exec, .gauges, .cores, .coreStore, .memStacks, .mem, .fabric, .twin, .flash, .inspect].all flds.contains = true) :
    Run flds st0 (reissue r s) := by
  refine .lift ?_ hz hw
  unfold reissue
  repeat' (first
    | with_reducible assumption
    | with_reducible exact Run.refl _ _
    | with_reducible apply lineReq_run
    | with_reducible apply narrowReq_run
    | split
    | decide
    | (with_reducible refine Run.mk_upd rfl ?_ ?_ rfl rfl rfl rfl rfl
       rotate_left 1; exact (fun f hf => by cases f <;> first | exact absurd hf (by decide) | exact Eq.refl _)))

end Sys2Proof.Laws
end

