-- ==== Sys2Proof/Laws/RunLinks.lean ====
section
/-! SUPPORT. What the operations may change: one lemma for each operation of Sys2Proof/Machine/Links.lean. -/

set_option linter.unusedTactic false
set_option linter.unreachableTactic false

namespace Sys2Proof.Laws

open Machine

variable {flds : List StateField} {st0 : State}

theorem logLink_run (l : Fin 41) (ev : Nat) (mask : BitVec 128) (s : State) (hz : Run flds st0 s) (hw : [.out, .hostA, .hostB,
    .seq, .log].all flds.contains = true) : Run flds st0 (logLink l ev mask s) := by
  refine .lift ?_ hz hw
  unfold logLink
  repeat' (first
    | with_reducible assumption
    | with_reducible exact Run.refl _ _
    | with_reducible apply logEv_run
    | decide)

theorem logBoth_run (l : Fin 41) (ev : Nat) (s : State) (hz : Run flds st0 s) (hw : [.out, .hostA, .hostB, .seq, .log].all
    flds.contains = true) : Run flds st0 (logBoth l ev s) := by
  refine .lift ?_ hz hw
  unfold logBoth
  repeat' (first
    | with_reducible assumption
    | with_reducible exact Run.refl _ _
    | (extract_lets +onlyGivenNames x
       first | (apply Run.cut (x := x); rotate_left 1; intro h; clear_value x; rotate_left 1; subst x) | clear_value x)
    | with_reducible apply logLink_run
    | split
    | decide)

theorem modBundle_run (l : Fin 41) (rev : Bool) (b : Nat) (f : Bundle → Bundle) (s : State) (hz : Run flds st0 s) (hw :
    [.links].all flds.contains = true) : Run flds st0 (modBundle l rev b f s) := by
  refine .lift ?_ hz hw
  unfold modBundle
  repeat' (first
    | with_reducible assumption
    | with_reducible exact Run.refl _ _
    | (extract_lets +onlyGivenNames x
       first | (apply Run.cut (x := x); rotate_left 1; intro h; clear_value x; rotate_left 1; subst x) | clear_value x)
    | with_reducible apply modLink_run
    | decide
    | (with_reducible refine Run.mk_upd rfl ?_ ?_ rfl rfl rfl rfl rfl
       rotate_left 1; exact (fun f hf => by cases f <;> first | exact absurd hf (by decide) | exact Eq.refl _)))

theorem takenResps_run (s : State) (hz : Run flds st0 s) (hw : [.levee].all flds.contains = true) : Run flds st0 (takenResps s)
    := by
  refine .lift ?_ hz hw
  unfold takenResps
  repeat' (first
    | with_reducible assumption
    | with_reducible exact Run.refl _ _
    | (extract_lets +onlyGivenNames x
       first | (apply Run.cut (x := x); rotate_left 1; intro h; clear_value x; rotate_left 1; subst x) | clear_value x)
    | decide
    | (with_reducible refine Run.mk_upd rfl ?_ ?_ rfl rfl rfl rfl rfl
       rotate_left 1; exact (fun f hf => by cases f <;> first | exact absurd hf (by decide) | exact Eq.refl _)))

theorem dropGuestAcks_run (s : State) (hz : Run flds st0 s) (hw : [.memStacks].all flds.contains = true) : Run flds st0
    (dropGuestAcks s) := by
  refine .lift ?_ hz hw
  unfold dropGuestAcks
  repeat' (first
    | with_reducible assumption
    | with_reducible exact Run.refl _ _
    | (extract_lets +onlyGivenNames x
       first | (apply Run.cut (x := x); rotate_left 1; intro h; clear_value x; rotate_left 1; subst x) | clear_value x)
    | with_reducible apply modStack_run
    | (with_reducible apply Run.foldl; rotate_left 1; intro e x h)
    | decide
    | (with_reducible refine Run.mk_upd rfl ?_ ?_ rfl rfl rfl rfl rfl
       rotate_left 1; exact (fun f hf => by cases f <;> first | exact absurd hf (by decide) | exact Eq.refl _)))

theorem failGuest_run (s : State) (hz : Run flds st0 s) (hw : [.out, .memStacks, .levee].all flds.contains = true) : Run flds
    st0 (failGuest s) := by
  refine .lift ?_ hz hw
  unfold failGuest
  repeat' (first
    | with_reducible assumption
    | with_reducible exact Run.refl _ _
    | (extract_lets +onlyGivenNames x
       first | (apply Run.cut (x := x); rotate_left 1; intro h; clear_value x; rotate_left 1; subst x) | clear_value x)
    | with_reducible apply emitAll_run
    | with_reducible apply takenResps_run
    | with_reducible apply dropGuestAcks_run
    | decide
    | (with_reducible refine Run.mk_upd rfl ?_ ?_ rfl rfl rfl rfl rfl
       rotate_left 1; exact (fun f hf => by cases f <;> first | exact absurd hf (by decide) | exact Eq.refl _)))

theorem takeDown_run (l : Fin 41) (s : State) (hz : Run flds st0 s) (hw : [.out, .hostA, .hostB, .warden, .seq, .log, .job,
    .exec, .cores, .memStacks, .links, .levee, .fabric, .twin, .inspect].all flds.contains = true) : Run flds st0 (takeDown l s)
    := by
  refine .lift ?_ hz hw
  unfold takeDown
  repeat' (first
    | with_reducible assumption
    | with_reducible exact Run.refl _ _
    | (extract_lets +onlyGivenNames x
       first | (apply Run.cut (x := x); rotate_left 1; intro h; clear_value x; rotate_left 1; subst x) | clear_value x)
    | with_reducible apply modLink_run
    | with_reducible apply failPackage_run
    | with_reducible apply sweepRequests_run
    | with_reducible apply logLink_run
    | with_reducible apply failGuest_run
    | with_reducible apply quarantine_run
    | split
    | decide)

theorem dropLinks_run (ls : List (Fin 41)) (s : State) (hz : Run flds st0 s) (hw : [.out, .links].all flds.contains = true) :
    Run flds st0 (dropLinks ls s) := by
  refine .lift ?_ hz hw
  unfold dropLinks
  repeat' (first
    | with_reducible assumption
    | with_reducible exact Run.refl _ _
    | (extract_lets +onlyGivenNames x
       first | (apply Run.cut (x := x); rotate_left 1; intro h; clear_value x; rotate_left 1; subst x) | clear_value x)
    | with_reducible apply modLink_run
    | with_reducible apply emit_run
    | (with_reducible apply Run.foldl; rotate_left 1; intro e x h)
    | split
    | decide
    | (with_reducible refine Run.mk_upd rfl ?_ ?_ rfl rfl rfl rfl rfl
       rotate_left 1; exact (fun f hf => by cases f <;> first | exact absurd hf (by decide) | exact Eq.refl _)))

theorem markOut_run (l : Fin 41) (rev : Bool) (b : Nat) (s : State) (hz : Run flds st0 s) (hw : [.out, .hostA, .hostB, .warden,
    .seq, .log, .job, .exec, .cores, .memStacks, .links, .levee, .fabric, .twin, .flash, .inspect].all flds.contains = true) :
    Run flds st0 (markOut l rev b s) := by
  refine .lift ?_ hz hw
  unfold markOut
  repeat' (first
    | with_reducible assumption
    | with_reducible exact Run.refl _ _
    | (extract_lets +onlyGivenNames x
       first | (apply Run.cut (x := x); rotate_left 1; intro h; clear_value x; rotate_left 1; subst x) | clear_value x)
    | with_reducible apply modLink_run
    | with_reducible apply emit_run
    | with_reducible apply ledgerReplace_run
    | with_reducible apply logLink_run
    | with_reducible apply takeDown_run
    | split
    | decide
    | (with_reducible refine Run.mk_upd rfl ?_ ?_ rfl rfl rfl rfl rfl
       rotate_left 1; exact (fun f hf => by cases f <;> first | exact absurd hf (by decide) | exact Eq.refl _)))

theorem belowNotice_run (l : Fin 41) (s : State) (hz : Run flds st0 s) (hw : [.out, .hostA, .hostB, .i3c, .warden, .seq, .log,
    .job, .exec, .links, .fabric, .twin].all flds.contains = true) : Run flds st0 (belowNotice l s) := by
  refine .lift ?_ hz hw
  unfold belowNotice
  repeat' (first
    | with_reducible assumption
    | with_reducible exact Run.refl _ _
    | (extract_lets +onlyGivenNames x
       first | (apply Run.cut (x := x); rotate_left 1; intro h; clear_value x; rotate_left 1; subst x) | clear_value x)
    | with_reducible apply modLink_run
    | with_reducible apply plainNotice_run
    | split
    | decide
    | (with_reducible refine Run.mk_upd rfl ?_ ?_ rfl rfl rfl rfl rfl
       rotate_left 1; exact (fun f hf => by cases f <;> first | exact absurd hf (by decide) | exact Eq.refl _)))

theorem resendFlits_run (l : Fin 41) (rev : Bool) (b from_ : Nat) (s : State) (hz : Run flds st0 s) (hw : [.out].all
    flds.contains = true) : Run flds st0 (resendFlits l rev b from_ s) := by
  refine .lift ?_ hz hw
  unfold resendFlits
  repeat' (first
    | with_reducible assumption
    | with_reducible exact Run.refl _ _
    | (extract_lets +onlyGivenNames x
       first | (apply Run.cut (x := x); rotate_left 1; intro h; clear_value x; rotate_left 1; subst x) | clear_value x)
    | with_reducible apply emitAll_run
    | decide)

theorem moveFlits_run (l : Fin 41) (rev : Bool) (b : Nat) (fs : List (Bytes × Bool)) (s : State) (hz : Run flds st0 s) (hw :
    [.out, .links].all flds.contains = true) : Run flds st0 (moveFlits l rev b fs s) := by
  refine .lift ?_ hz hw
  unfold moveFlits
  repeat' (first
    | with_reducible assumption
    | with_reducible exact Run.refl _ _
    | (extract_lets +onlyGivenNames x
       first | (apply Run.cut (x := x); rotate_left 1; intro h; clear_value x; rotate_left 1; subst x) | clear_value x)
    | with_reducible apply emit_run
    | with_reducible apply modBundle_run
    | (with_reducible apply Run.foldl; rotate_left 1; intro e x h)
    | split
    | decide
    | (with_reducible refine Run.mk_upd rfl ?_ ?_ rfl rfl rfl rfl rfl
       rotate_left 1; exact (fun f hf => by cases f <;> first | exact absurd hf (by decide) | exact Eq.refl _)))

theorem hardFailure_run (l : Fin 41) (rev : Bool) (b : Nat) (s : State) (hz : Run flds st0 s) (hw : [.out, .hostA, .hostB,
    .warden, .seq, .log, .job, .exec, .cores, .memStacks, .links, .levee, .fabric, .twin, .flash, .inspect].all flds.contains =
    true) : Run flds st0 (hardFailure l rev b s) := by
  refine .lift ?_ hz hw
  unfold hardFailure
  repeat' (first
    | with_reducible assumption
    | with_reducible exact Run.refl _ _
    | (extract_lets +onlyGivenNames x
       first | (apply Run.cut (x := x); rotate_left 1; intro h; clear_value x; rotate_left 1; subst x) | clear_value x)
    | with_reducible apply markOut_run
    | with_reducible apply moveFlits_run
    | split
    | decide
    | (with_reducible refine Run.mk_upd rfl ?_ ?_ rfl rfl rfl rfl rfl
       rotate_left 1; exact (fun f hf => by cases f <;> first | exact absurd hf (by decide) | exact Eq.refl _)))

theorem badFlit_run (l : Fin 41) (rev : Bool) (b : Nat) (seq : BitVec 6) (s : State) (hz : Run flds st0 s) (hw : [.out, .hostA,
    .hostB, .warden, .seq, .log, .job, .exec, .cores, .memStacks, .links, .levee, .fabric, .twin, .flash, .inspect].all
    flds.contains = true) : Run flds st0 (badFlit l rev b seq s) := by
  refine .lift ?_ hz hw
  unfold badFlit
  repeat' (first
    | with_reducible assumption
    | with_reducible exact Run.refl _ _
    | (extract_lets +onlyGivenNames x
       first | (apply Run.cut (x := x); rotate_left 1; intro h; clear_value x; rotate_left 1; subst x) | clear_value x)
    | with_reducible apply emit_run
    | with_reducible apply modBundle_run
    | with_reducible apply hardFailure_run
    | split
    | decide
    | (with_reducible refine Run.mk_upd rfl ?_ ?_ rfl rfl rfl rfl rfl
       rotate_left 1; exact (fun f hf => by cases f <;> first | exact absurd hf (by decide) | exact Eq.refl _)))

theorem goodFlit_run (l : Fin 41) (rev : Bool) (b : Nat) (seq : BitVec 6) (data : Bytes) (s : State) (hz : Run flds st0 s) (hw :
    [.out, .links].all flds.contains = true) : Run flds st0 (goodFlit l rev b seq data s) := by
  refine .lift ?_ hz hw
  unfold goodFlit
  repeat' (first
    | with_reducible assumption
    | with_reducible exact Run.refl _ _
    | (extract_lets +onlyGivenNames x
       first | (apply Run.cut (x := x); rotate_left 1; intro h; clear_value x; rotate_left 1; subst x) | clear_value x)
    | with_reducible apply modLink_run
    | with_reducible apply emit_run
    | with_reducible apply modBundle_run
    | split
    | decide
    | (with_reducible refine Run.mk_upd rfl ?_ ?_ rfl rfl rfl rfl rfl
       rotate_left 1; exact (fun f hf => by cases f <;> first | exact absurd hf (by decide) | exact Eq.refl _)))

theorem recordTraining_run (l : Fin 41) (rev : Bool) (m : BitVec 128) (ws : List WireList) (s : State) (hz : Run flds st0 s) (hw
    : [.out, .hostA, .hostB, .seq, .log, .flash].all flds.contains = true) : Run flds st0 (recordTraining l rev m ws s) := by
  refine .lift ?_ hz hw
  unfold recordTraining
  repeat' (first
    | with_reducible assumption
    | with_reducible exact Run.refl _ _
    | (extract_lets +onlyGivenNames x
       first | (apply Run.cut (x := x); rotate_left 1; intro h; clear_value x; rotate_left 1; subst x) | clear_value x)
    | with_reducible apply ledgerReplace_run
    | (with_reducible apply Run.foldl; rotate_left 1; intro e x h)
    | split
    | decide)

theorem train_run (l : Fin 41) (o : TrainObs) (s : State) (hz : Run flds st0 s) (hw : [.out, .hostA, .hostB, .seq, .log, .links,
    .flash].all flds.contains = true) : Run flds st0 (train l o s) := by
  refine .lift ?_ hz hw
  unfold train
  repeat' (first
    | with_reducible assumption
    | with_reducible exact Run.refl _ _
    | (extract_lets +onlyGivenNames x
       first | (apply Run.cut (x := x); rotate_left 1; intro h; clear_value x; rotate_left 1; subst x) | clear_value x)
    | with_reducible apply modLink_run
    | with_reducible apply emit_run
    | with_reducible apply emitAll_run
    | with_reducible apply logLink_run
    | with_reducible apply logBoth_run
    | with_reducible apply recordTraining_run
    | split
    | decide
    | (with_reducible refine Run.mk_upd rfl ?_ ?_ rfl rfl rfl rfl rfl
       rotate_left 1; exact (fun f hf => by cases f <;> first | exact absurd hf (by decide) | exact Eq.refl _)))

theorem wireTest_run (l : Fin 41) (rev : Bool) (b : Nat) (found : List Nat) (s : State) (hz : Run flds st0 s) (hw : [.out,
    .hostA, .hostB, .i3c, .warden, .seq, .log, .job, .exec, .cores, .memStacks, .links, .levee, .fabric, .twin, .flash,
    .inspect].all flds.contains = true) : Run flds st0 (wireTest l rev b found s) := by
  refine .lift ?_ hz hw
  unfold wireTest
  repeat' (first
    | with_reducible assumption
    | with_reducible exact Run.refl _ _
    | (extract_lets +onlyGivenNames x
       first | (apply Run.cut (x := x); rotate_left 1; intro h; clear_value x; rotate_left 1; subst x) | clear_value x)
    | with_reducible apply ledgerReplace_run
    | with_reducible apply modBundle_run
    | with_reducible apply markOut_run
    | with_reducible apply belowNotice_run
    | split
    | decide
    | (with_reducible refine Run.mk_upd rfl ?_ ?_ rfl rfl rfl rfl rfl
       rotate_left 1; exact (fun f hf => by cases f <;> first | exact absurd hf (by decide) | exact Eq.refl _)))

theorem startTests_run (s : State) (hz : Run flds st0 s) (hw : [.links].all flds.contains = true) : Run flds st0 (startTests s)
    := by
  refine .lift ?_ hz hw
  unfold startTests
  repeat' (first
    | with_reducible assumption
    | with_reducible exact Run.refl _ _
    | (extract_lets +onlyGivenNames x
       first | (apply Run.cut (x := x); rotate_left 1; intro h; clear_value x; rotate_left 1; subst x) | clear_value x)
    | with_reducible apply modLink_run
    | (with_reducible apply Run.foldl; rotate_left 1; intro e x h)
    | split
    | decide
    | (with_reducible refine Run.mk_upd rfl ?_ ?_ rfl rfl rfl rfl rfl
       rotate_left 1; exact (fun f hf => by cases f <;> first | exact absurd hf (by decide) | exact Eq.refl _)))

end Sys2Proof.Laws
end

