-- ==== Sys2Proof/Laws/RunTaskRows.lean ====
section
/-! SUPPORT. What the operations may change: one lemma for each operation of Sys2Proof/Machine/TaskRows.lean. -/

set_option linter.unusedTactic false
set_option linter.unreachableTactic false

namespace Sys2Proof.Laws

open Machine

variable {flds : List StateField} {st0 : State}

theorem settlePtr_run (p off n : Nat) (s : State) (hz : Run flds st0 s) (hw : [.out, .hostA, .hostB, .i3c, .warden, .seq, .log,
    .job, .exec, .gauges, .cores, .coreStore, .memStacks, .mem, .fabric, .twin, .flash, .inspect].all flds.contains = true) :
    Run flds st0 (settlePtr p off n s) := by
  refine .lift ?_ hz hw
  unfold settlePtr
  repeat' (first
    | with_reducible assumption
    | with_reducible exact Run.refl _ _
    | with_reducible apply settleRange_run
    | split
    | decide
    | (with_reducible refine Run.mk_upd rfl ?_ ?_ rfl rfl rfl rfl rfl
       rotate_left 1; exact (fun f hf => by cases f <;> first | exact absurd hf (by decide) | exact Eq.refl _)))

theorem settlePlan_run (r : PlanEntry) (s : State) (hz : Run flds st0 s) (hw : [.out, .hostA, .hostB, .i3c, .warden, .seq, .log,
    .job, .exec, .gauges, .cores, .coreStore, .memStacks, .mem, .fabric, .twin, .flash, .inspect].all flds.contains = true) :
    Run flds st0 (settlePlan r s) := by
  refine .lift ?_ hz hw
  unfold settlePlan
  repeat' (first
    | with_reducible assumption
    | with_reducible exact Run.refl _ _
    | with_reducible apply settlePtr_run
    | decide)

theorem settleTask_run (im : JobImage) (t : TaskRec) (s : State) (hz : Run flds st0 s) (hw : [.out, .hostA, .hostB, .i3c,
    .warden, .seq, .log, .job, .exec, .gauges, .cores, .coreStore, .memStacks, .mem, .fabric, .twin, .flash, .inspect].all
    flds.contains = true) : Run flds st0 (settleTask im t s) := by
  refine .lift ?_ hz hw
  unfold settleTask
  repeat' (first
    | with_reducible assumption
    | with_reducible exact Run.refl _ _
    | (extract_lets +onlyGivenNames x
       first | (apply Run.cut (x := x); rotate_left 1; intro h; clear_value x; rotate_left 1; subst x) | clear_value x)
    | with_reducible apply settleRange_run
    | with_reducible apply settlePlan_run
    | (with_reducible apply Run.foldl; rotate_left 1; intro e x h)
    | split
    | decide
    | (with_reducible refine Run.mk_upd rfl ?_ ?_ rfl rfl rfl rfl rfl
       rotate_left 1; exact (fun f hf => by cases f <;> first | exact absurd hf (by decide) | exact Eq.refl _)))

end Sys2Proof.Laws
end

