-- ==== Sys2Proof/Laws/RunLeveeRows.lean ====
section
/-! SUPPORT. What the operations may change: one lemma for each operation of Sys2Proof/Machine/LeveeRows.lean. -/

set_option linter.unusedTactic false
set_option linter.unreachableTactic false

namespace Sys2Proof.Laws

open Machine

variable {flds : List StateField} {st0 : State}

theorem modLevee_run (f : Levee → Levee) (s : State) (hz : Run flds st0 s) (hw : [.levee].all flds.contains = true) : Run flds
    st0 (modLevee f s) := by
  refine .lift ?_ hz hw
  unfold modLevee
  repeat' (first
    | with_reducible assumption
    | with_reducible exact Run.refl _ _
    | (extract_lets +onlyGivenNames x
       first | (apply Run.cut (x := x); rotate_left 1; intro h; clear_value x; rotate_left 1; subst x) | clear_value x)
    | decide
    | (with_reducible refine Run.mk_upd rfl ?_ ?_ rfl rfl rfl rfl rfl
       rotate_left 1; exact (fun f hf => by cases f <;> first | exact absurd hf (by decide) | exact Eq.refl _)))

theorem setWindow_run (k : Nat) (w : Window) (s : State) (hz : Run flds st0 s) (hw : [.levee].all flds.contains = true) : Run
    flds st0 (setWindow k w s) := by
  refine .lift ?_ hz hw
  unfold setWindow
  repeat' (first
    | with_reducible assumption
    | with_reducible exact Run.refl _ _
    | (extract_lets +onlyGivenNames x
       first | (apply Run.cut (x := x); rotate_left 1; intro h; clear_value x; rotate_left 1; subst x) | clear_value x)
    | with_reducible apply modLevee_run
    | split
    | decide
    | (with_reducible refine Run.mk_upd rfl ?_ ?_ rfl rfl rfl rfl rfl
       rotate_left 1; exact (fun f hf => by cases f <;> first | exact absurd hf (by decide) | exact Eq.refl _)))

theorem applyChanges_run (s : State) (hz : Run flds st0 s) (hw : [.levee].all flds.contains = true) : Run flds st0 (applyChanges
    s) := by
  refine .lift ?_ hz hw
  unfold applyChanges
  repeat' (first
    | with_reducible assumption
    | with_reducible exact Run.refl _ _
    | (extract_lets +onlyGivenNames x
       first | (apply Run.cut (x := x); rotate_left 1; intro h; clear_value x; rotate_left 1; subst x) | clear_value x)
    | with_reducible apply modLevee_run
    | with_reducible apply setWindow_run
    | (with_reducible apply Run.foldl; rotate_left 1; intro e x h)
    | decide
    | (with_reducible refine Run.mk_upd rfl ?_ ?_ rfl rfl rfl rfl rfl
       rotate_left 1; exact (fun f hf => by cases f <;> first | exact absurd hf (by decide) | exact Eq.refl _)))

theorem modViol_run (k : Fin 9) (f : Viol → Viol) (s : State) (hz : Run flds st0 s) (hw : [.levee].all flds.contains = true) :
    Run flds st0 (modViol k f s) := by
  refine .lift ?_ hz hw
  unfold modViol
  repeat' (first
    | with_reducible assumption
    | with_reducible exact Run.refl _ _
    | (extract_lets +onlyGivenNames x
       first | (apply Run.cut (x := x); rotate_left 1; intro h; clear_value x; rotate_left 1; subst x) | clear_value x)
    | with_reducible apply modLevee_run
    | decide
    | (with_reducible refine Run.mk_upd rfl ?_ ?_ rfl rfl rfl rfl rfl
       rotate_left 1; exact (fun f hf => by cases f <;> first | exact absurd hf (by decide) | exact Eq.refl _)))

theorem quarantine_run (n : Nat) (s : State) (hz : Run flds st0 s) (hw : [.out, .hostA, .hostB, .seq, .log, .memStacks, .links,
    .levee].all flds.contains = true) : Run flds st0 (quarantine n s) := by
  refine .lift ?_ hz hw
  unfold quarantine
  repeat' (first
    | with_reducible assumption
    | with_reducible exact Run.refl _ _
    | (extract_lets +onlyGivenNames x
       first | (apply Run.cut (x := x); rotate_left 1; intro h; clear_value x; rotate_left 1; subst x) | clear_value x)
    | with_reducible apply logEv_run
    | with_reducible apply failGuest_run
    | with_reducible apply dropLinks_run
    | with_reducible apply modLevee_run
    | decide
    | (with_reducible refine Run.mk_upd rfl ?_ ?_ rfl rfl rfl rfl rfl
       rotate_left 1; exact (fun f hf => by cases f <;> first | exact absurd hf (by decide) | exact Eq.refl _)))

theorem violation_run (k : Fin 9) (addr : Nat) (s : State) (hz : Run flds st0 s) (hw : [.out, .hostA, .hostB, .seq, .log,
    .memStacks, .links, .levee].all flds.contains = true) : Run flds st0 (violation k addr s) := by
  refine .lift ?_ hz hw
  unfold violation
  repeat' (first
    | with_reducible assumption
    | with_reducible exact Run.refl _ _
    | (extract_lets +onlyGivenNames x
       first | (apply Run.cut (x := x); rotate_left 1; intro h; clear_value x; rotate_left 1; subst x) | clear_value x)
    | with_reducible apply modLevee_run
    | with_reducible apply modViol_run
    | with_reducible apply quarantine_run
    | split
    | decide
    | (with_reducible refine Run.mk_upd rfl ?_ ?_ rfl rfl rfl rfl rfl
       rotate_left 1; exact (fun f hf => by cases f <;> first | exact absurd hf (by decide) | exact Eq.refl _)))

theorem respond_run (r : GuestReq) (data : Bytes) (s : State) (hz : Run flds st0 s) (hw : [.out, .levee].all flds.contains =
    true) : Run flds st0 (respond r data s) := by
  refine .lift ?_ hz hw
  unfold respond
  repeat' (first
    | with_reducible assumption
    | with_reducible exact Run.refl _ _
    | (extract_lets +onlyGivenNames x
       first | (apply Run.cut (x := x); rotate_left 1; intro h; clear_value x; rotate_left 1; subst x) | clear_value x)
    | with_reducible apply emit_run
    | with_reducible apply modLevee_run
    | decide
    | (with_reducible refine Run.mk_upd rfl ?_ ?_ rfl rfl rfl rfl rfl
       rotate_left 1; exact (fun f hf => by cases f <;> first | exact absurd hf (by decide) | exact Eq.refl _)))

theorem guestFails_run (r : GuestReq) (addr cause : Nat) (s : State) (hz : Run flds st0 s) (hw : [.out, .hostA, .hostB, .seq,
    .log].all flds.contains = true) : Run flds st0 (guestFails r addr cause s) := by
  refine .lift ?_ hz hw
  unfold guestFails
  repeat' (first
    | with_reducible assumption
    | with_reducible exact Run.refl _ _
    | with_reducible apply emit_run
    | with_reducible apply logAccess_run
    | decide)

theorem guestRead_run (r : GuestReq) (s : State) (hz : Run flds st0 s) (hw : [.out, .hostA, .hostB, .i3c, .warden, .seq, .log,
    .job, .exec, .gauges, .cores, .coreStore, .memStacks, .mem, .levee, .fabric, .twin, .flash, .inspect].all flds.contains =
    true) : Run flds st0 (guestRead r s) := by
  refine .lift ?_ hz hw
  unfold guestRead
  repeat' (first
    | with_reducible assumption
    | with_reducible exact Run.refl _ _
    | (extract_lets +onlyGivenNames x
       first | (apply Run.cut (x := x); rotate_left 1; intro h; clear_value x; rotate_left 1; subst x) | clear_value x)
    | with_reducible apply emit_run
    | with_reducible apply cacheRead_run
    | with_reducible apply sectorCheck_run
    | with_reducible apply settleRange_run
    | with_reducible apply respond_run
    | with_reducible apply guestFails_run
    | (split; rename_i x r heq; obtain rfl : (_ : State) = x := congrArg Prod.fst heq)
    | (split; rename_i r x heq; obtain rfl : (_ : State) = x := congrArg Prod.snd heq)
    | split
    | decide
    | (with_reducible refine Run.mk_upd rfl ?_ ?_ rfl rfl rfl rfl rfl
       rotate_left 1; exact (fun f hf => by cases f <;> first | exact absurd hf (by decide) | exact Eq.refl _)))

theorem guestWrite_run (r : GuestReq) (s : State) (hz : Run flds st0 s) (hw : [.out, .hostA, .hostB, .i3c, .warden, .seq, .log,
    .job, .exec, .gauges, .cores, .coreStore, .memStacks, .mem, .fabric, .twin, .flash, .inspect].all flds.contains = true) :
    Run flds st0 (guestWrite r s) := by
  refine .lift ?_ hz hw
  unfold guestWrite
  repeat' (first
    | with_reducible assumption
    | with_reducible exact Run.refl _ _
    | (extract_lets +onlyGivenNames x
       first | (apply Run.cut (x := x); rotate_left 1; intro h; clear_value x; rotate_left 1; subst x) | clear_value x)
    | with_reducible apply emit_run
    | with_reducible apply cacheWrite_run
    | with_reducible apply sectorCheck_run
    | with_reducible apply ackWrite_run
    | with_reducible apply settleRange_run
    | with_reducible apply guestFails_run
    | (split; rename_i x r heq; obtain rfl : (_ : State) = x := congrArg Prod.fst heq)
    | split
    | decide
    | (with_reducible refine Run.mk_mem rfl ?_ ?_ rfl rfl ?_ ?_ rfl
       rotate_left 1; exact (fun f hf => by cases f <;> first | exact absurd hf (by decide) | exact Eq.refl _)
       all_goals first | exact id | exact memWrite_wf | exact memClear_wf | exact memSet_foldl_wf | exact memWrite_foldl_wf | exact fun _ => rfl | skip))

theorem settleSectors_run (addrs : List Nat) (s : State) (hz : Run flds st0 s) (hw : [.out, .hostA, .hostB, .i3c, .warden, .seq,
    .log, .job, .exec, .gauges, .cores, .coreStore, .memStacks, .mem, .fabric, .twin, .flash, .inspect].all flds.contains =
    true) : Run flds st0 (settleSectors addrs s) := by
  refine .lift ?_ hz hw
  unfold settleSectors
  repeat' (first
    | with_reducible assumption
    | with_reducible exact Run.refl _ _
    | (extract_lets +onlyGivenNames x
       first | (apply Run.cut (x := x); rotate_left 1; intro h; clear_value x; rotate_left 1; subst x) | clear_value x)
    | with_reducible apply settleRange_run
    | (with_reducible apply Run.foldl; rotate_left 1; intro e x h)
    | decide)

theorem guestGather_run (r : GuestReq) (s : State) (hz : Run flds st0 s) (hw : [.out, .hostA, .hostB, .i3c, .warden, .seq, .log,
    .job, .exec, .gauges, .cores, .coreStore, .memStacks, .mem, .levee, .fabric, .twin, .flash, .inspect].all flds.contains =
    true) : Run flds st0 (guestGather r s) := by
  refine .lift ?_ hz hw
  unfold guestGather
  repeat' (first
    | with_reducible assumption
    | with_reducible exact Run.refl _ _
    | (extract_lets +onlyGivenNames x
       first | (apply Run.cut (x := x); rotate_left 1; intro h; clear_value x; rotate_left 1; subst x) | clear_value x)
    | with_reducible apply emit_run
    | with_reducible apply sectorCheck_run
    | with_reducible apply respond_run
    | with_reducible apply guestFails_run
    | with_reducible apply settleSectors_run
    | (split; rename_i x r heq; obtain rfl : (_ : State) = x := congrArg Prod.fst heq)
    | split
    | decide
    | (with_reducible refine Run.mk_upd rfl ?_ ?_ rfl rfl rfl rfl rfl
       rotate_left 1; exact (fun f hf => by cases f <;> first | exact absurd hf (by decide) | exact Eq.refl _)))

theorem guestScatter_run (r : GuestReq) (s : State) (hz : Run flds st0 s) (hw : [.out, .hostA, .hostB, .i3c, .warden, .seq,
    .log, .job, .exec, .gauges, .cores, .coreStore, .memStacks, .mem, .fabric, .twin, .flash, .inspect].all flds.contains =
    true) : Run flds st0 (guestScatter r s) := by
  refine .lift ?_ hz hw
  unfold guestScatter
  repeat' (first
    | with_reducible assumption
    | with_reducible exact Run.refl _ _
    | (extract_lets +onlyGivenNames x
       first | (apply Run.cut (x := x); rotate_left 1; intro h; clear_value x; rotate_left 1; subst x) | clear_value x)
    | with_reducible apply emit_run
    | with_reducible apply narrowWrite_run
    | with_reducible apply markStale_run
    | with_reducible apply sectorCheck_run
    | with_reducible apply ackNarrow_run
    | with_reducible apply guestFails_run
    | with_reducible apply settleSectors_run
    | (with_reducible apply Run.foldl; rotate_left 1; intro e x h)
    | (with_reducible apply Run.foldl1; rotate_left 1; intro e x h)
    | (split; rename_i x r heq; obtain rfl : (_ : State) = x := congrArg Prod.fst heq)
    | split
    | decide
    | (with_reducible refine Run.mk_mem rfl ?_ ?_ rfl rfl ?_ ?_ rfl
       rotate_left 1; exact (fun f hf => by cases f <;> first | exact absurd hf (by decide) | exact Eq.refl _)
       all_goals first | exact id | exact memWrite_wf | exact memClear_wf | exact memSet_foldl_wf | exact memWrite_foldl_wf | exact fun _ => rfl | skip))

theorem guestQueue_run (r : GuestReq) (s : State) (hz : Run flds st0 s) (hw : [.out, .hostA, .hostB, .i3c, .warden, .seq, .log,
    .queues, .job, .exec, .gauges, .cores, .coreStore, .memStacks, .mem, .levee, .fabric, .twin, .flash, .inspect].all
    flds.contains = true) : Run flds st0 (guestQueue r s) := by
  refine .lift ?_ hz hw
  unfold guestQueue
  repeat' (first
    | with_reducible assumption
    | with_reducible exact Run.refl _ _
    | (extract_lets +onlyGivenNames x
       first | (apply Run.cut (x := x); rotate_left 1; intro h; clear_value x; rotate_left 1; subst x) | clear_value x)
    | with_reducible apply emit_run
    | with_reducible apply ptrWrite_run
    | with_reducible apply produceQueue_run
    | with_reducible apply consumeQueue_run
    | with_reducible apply settlePtr_run
    | with_reducible apply respond_run
    | with_reducible apply guestFails_run
    | split
    | decide
    | (with_reducible refine Run.mk_upd rfl ?_ ?_ rfl rfl rfl rfl rfl
       rotate_left 1; exact (fun f hf => by cases f <;> first | exact absurd hf (by decide) | exact Eq.refl _)))

theorem guestRun_run (r : GuestReq) (s : State) (hz : Run flds st0 s) (hw : [.out, .hostA, .hostB, .i3c, .warden, .seq, .log,
    .queues, .job, .exec, .gauges, .cores, .coreStore, .memStacks, .mem, .levee, .fabric, .twin, .flash, .inspect].all
    flds.contains = true) : Run flds st0 (guestRun r s) := by
  refine .lift ?_ hz hw
  unfold guestRun
  repeat' (first
    | with_reducible assumption
    | with_reducible exact Run.refl _ _
    | with_reducible apply guestRead_run
    | with_reducible apply guestWrite_run
    | with_reducible apply guestGather_run
    | with_reducible apply guestScatter_run
    | with_reducible apply guestQueue_run
    | split
    | decide
    | (with_reducible refine Run.mk_upd rfl ?_ ?_ rfl rfl rfl rfl rfl
       rotate_left 1; exact (fun f hf => by cases f <;> first | exact absurd hf (by decide) | exact Eq.refl _)))

theorem guestAdmit_run (i : Fin 8) (r : GuestReq) (s : State) (hz : Run flds st0 s) (hw : [.out, .hostA, .hostB, .i3c, .warden,
    .seq, .log, .queues, .job, .exec, .gauges, .cores, .coreStore, .memStacks, .mem, .levee, .fabric, .twin, .flash,
    .inspect].all flds.contains = true) : Run flds st0 (guestAdmit i r s) := by
  refine .lift ?_ hz hw
  unfold guestAdmit
  repeat' (first
    | with_reducible assumption
    | with_reducible exact Run.refl _ _
    | (extract_lets +onlyGivenNames x
       first | (apply Run.cut (x := x); rotate_left 1; intro h; clear_value x; rotate_left 1; subst x) | clear_value x)
    | with_reducible apply modLevee_run
    | with_reducible apply guestRun_run
    | decide
    | (with_reducible refine Run.mk_upd rfl ?_ ?_ rfl rfl rfl rfl rfl
       rotate_left 1; exact (fun f hf => by cases f <;> first | exact absurd hf (by decide) | exact Eq.refl _)))

theorem guestReject_run (v : Verdict8) (r : GuestReq) (s : State) (hz : Run flds st0 s) (hw : [.out, .hostA, .hostB, .seq, .log,
    .memStacks, .links, .levee].all flds.contains = true) : Run flds st0 (guestReject v r s) := by
  refine .lift ?_ hz hw
  unfold guestReject
  repeat' (first
    | with_reducible assumption
    | with_reducible exact Run.refl _ _
    | with_reducible apply emit_run
    | with_reducible apply violation_run
    | split
    | decide
    | (with_reducible refine Run.mk_upd rfl ?_ ?_ rfl rfl rfl rfl rfl
       rotate_left 1; exact (fun f hf => by cases f <;> first | exact absurd hf (by decide) | exact Eq.refl _)))

theorem guestRequest_run (r : GuestReq) (s : State) (hz : Run flds st0 s) (hw : [.out, .hostA, .hostB, .i3c, .warden, .seq,
    .log, .queues, .job, .exec, .gauges, .cores, .coreStore, .memStacks, .mem, .links, .levee, .fabric, .twin, .flash,
    .inspect].all flds.contains = true) : Run flds st0 (guestRequest r s) := by
  refine .lift ?_ hz hw
  unfold guestRequest
  repeat' (first
    | with_reducible assumption
    | with_reducible exact Run.refl _ _
    | (extract_lets +onlyGivenNames x
       first | (apply Run.cut (x := x); rotate_left 1; intro h; clear_value x; rotate_left 1; subst x) | clear_value x)
    | with_reducible apply takenResps_run
    | with_reducible apply modLevee_run
    | with_reducible apply guestAdmit_run
    | with_reducible apply guestReject_run
    | split
    | decide
    | (with_reducible refine Run.mk_upd rfl ?_ ?_ rfl rfl rfl rfl rfl
       rotate_left 1; exact (fun f hf => by cases f <;> first | exact absurd hf (by decide) | exact Eq.refl _)))

theorem bucketAdmit_run (w : Fin 8) (s : State) (hz : Run flds st0 s) (hw : [.out, .hostA, .hostB, .i3c, .warden, .seq, .log,
    .queues, .job, .exec, .gauges, .cores, .coreStore, .memStacks, .mem, .links, .levee, .fabric, .twin, .flash, .inspect].all
    flds.contains = true) : Run flds st0 (bucketAdmit w s) := by
  refine .lift ?_ hz hw
  unfold bucketAdmit
  repeat' (first
    | with_reducible assumption
    | with_reducible exact Run.refl _ _
    | (extract_lets +onlyGivenNames x
       first | (apply Run.cut (x := x); rotate_left 1; intro h; clear_value x; rotate_left 1; subst x) | clear_value x)
    | with_reducible apply takenResps_run
    | with_reducible apply modLevee_run
    | with_reducible apply guestAdmit_run
    | with_reducible apply guestReject_run
    | with_reducible apply guestRequest_run
    | split
    | decide
    | (with_reducible refine Run.mk_upd rfl ?_ ?_ rfl rfl rfl rfl rfl
       rotate_left 1; exact (fun f hf => by cases f <;> first | exact absurd hf (by decide) | exact Eq.refl _)))

end Sys2Proof.Laws
end

