-- ==== Sys2Proof/Laws/RunBoundary.lean ====
section
/-! SUPPORT. What the operations may change: one lemma for each operation of Sys2Proof/Machine/Boundary.lean. -/

set_option linter.unusedTactic false
set_option linter.unreachableTactic false

namespace Sys2Proof.Laws

open Machine

variable {flds : List StateField} {st0 : State}

theorem returnCore_run (s : State) (hz : Run flds st0 s) (hw : [.dies, .coreStore, .inspect].all flds.contains = true) : Run
    flds st0 (returnCore s) := by
  refine .lift ?_ hz hw
  unfold returnCore
  repeat' (first
    | with_reducible assumption
    | with_reducible exact Run.refl _ _
    | (extract_lets +onlyGivenNames x
       first | (apply Run.cut (x := x); rotate_left 1; intro h; clear_value x; rotate_left 1; subst x) | clear_value x)
    | with_reducible apply handTo_run
    | split
    | decide
    | (with_reducible refine Run.mk_upd rfl ?_ ?_ rfl rfl rfl rfl rfl
       rotate_left 1; exact (fun f hf => by cases f <;> first | exact absurd hf (by decide) | exact Eq.refl _)))

theorem endWait_run (w : Nat × Nat) (s : State) (hz : Run flds st0 s) (hw : [.inspect].all flds.contains = true) : Run flds st0
    (endWait w s) := by
  refine .lift ?_ hz hw
  unfold endWait
  repeat' (first
    | with_reducible assumption
    | with_reducible exact Run.refl _ _
    | (extract_lets +onlyGivenNames x
       first | (apply Run.cut (x := x); rotate_left 1; intro h; clear_value x; rotate_left 1; subst x) | clear_value x)
    | decide
    | (with_reducible refine Run.mk_upd rfl ?_ ?_ rfl rfl rfl rfl rfl
       rotate_left 1; exact (fun f hf => by cases f <;> first | exact absurd hf (by decide) | exact Eq.refl _)))

theorem takeOne_run (s : State) (w : Nat × Nat) (hz : Run flds st0 s) (hw : [.out, .hostA, .hostB, .warden, .seq, .log, .job,
    .exec, .dies, .cores, .coreStore, .memStacks, .fabric, .twin, .inspect].all flds.contains = true) : Run flds st0 (takeOne s
    w) := by
  refine .lift ?_ hz hw
  unfold takeOne
  repeat' (first
    | with_reducible assumption
    | with_reducible exact Run.refl _ _
    | (extract_lets +onlyGivenNames x
       first | (apply Run.cut (x := x); rotate_left 1; intro h; clear_value x; rotate_left 1; subst x) | clear_value x)
    | with_reducible apply modDie_run
    | with_reducible apply failHere_run
    | with_reducible apply handTo_run
    | with_reducible apply endWait_run
    | split
    | decide
    | (with_reducible refine Run.mk_upd rfl ?_ ?_ rfl rfl rfl rfl rfl
       rotate_left 1; exact (fun f hf => by cases f <;> first | exact absurd hf (by decide) | exact Eq.refl _)))

theorem takeOver_run (s : State) (hz : Run flds st0 s) (hw : [.out, .hostA, .hostB, .warden, .seq, .log, .job, .exec, .dies,
    .cores, .coreStore, .memStacks, .fabric, .twin, .inspect].all flds.contains = true) : Run flds st0 (takeOver s) := by
  refine .lift ?_ hz hw
  unfold takeOver
  repeat' (first
    | with_reducible assumption
    | with_reducible exact Run.refl _ _
    | (extract_lets +onlyGivenNames x
       first | (apply Run.cut (x := x); rotate_left 1; intro h; clear_value x; rotate_left 1; subst x) | clear_value x)
    | with_reducible apply takeOne_run
    | (with_reducible apply Run.foldl; rotate_left 1; intro e x h)
    | decide)

theorem enableReliefs_run (s : State) (hz : Run flds st0 s) (hw : [.dies, .flash].all flds.contains = true) : Run flds st0
    (enableReliefs s) := by
  refine .lift ?_ hz hw
  unfold enableReliefs
  repeat' (first
    | with_reducible assumption
    | with_reducible exact Run.refl _ _
    | (extract_lets +onlyGivenNames x
       first | (apply Run.cut (x := x); rotate_left 1; intro h; clear_value x; rotate_left 1; subst x) | clear_value x)
    | with_reducible apply enableRelief_run
    | (with_reducible apply Run.foldl; rotate_left 1; intro e x h)
    | split
    | decide)

theorem enterSlot_run (s : State) (hz : Run flds st0 s) (hw : [.dies, .coreStore, .inspect].all flds.contains = true) : Run flds
    st0 (enterSlot s) := by
  refine .lift ?_ hz hw
  unfold enterSlot
  repeat' (first
    | with_reducible assumption
    | with_reducible exact Run.refl _ _
    | (extract_lets +onlyGivenNames x
       first | (apply Run.cut (x := x); rotate_left 1; intro h; clear_value x; rotate_left 1; subst x) | clear_value x)
    | with_reducible apply handTo_run
    | split
    | decide
    | (with_reducible refine Run.mk_upd rfl ?_ ?_ rfl rfl rfl rfl rfl
       rotate_left 1; exact (fun f hf => by cases f <;> first | exact absurd hf (by decide) | exact Eq.refl _)))

theorem handovers_run (s : State) (hz : Run flds st0 s) (hw : [.out, .hostA, .hostB, .warden, .seq, .log, .job, .exec, .dies,
    .cores, .coreStore, .memStacks, .fabric, .twin, .flash, .inspect].all flds.contains = true) : Run flds st0 (handovers s) :=
    by
  refine .lift ?_ hz hw
  unfold handovers
  repeat' (first
    | with_reducible assumption
    | with_reducible exact Run.refl _ _
    | with_reducible apply returnCore_run
    | with_reducible apply takeOver_run
    | with_reducible apply enableReliefs_run
    | with_reducible apply enterSlot_run
    | decide)

theorem lateHandovers_run (s : State) (hz : Run flds st0 s) (hw : [.out, .hostA, .hostB, .warden, .seq, .log, .job, .exec,
    .dies, .cores, .coreStore, .memStacks, .fabric, .twin, .inspect].all flds.contains = true) : Run flds st0 (lateHandovers s)
    := by
  refine .lift ?_ hz hw
  unfold lateHandovers
  repeat' (first
    | with_reducible assumption
    | with_reducible exact Run.refl _ _
    | with_reducible apply returnCore_run
    | with_reducible apply takeOver_run
    | with_reducible apply enterSlot_run
    | split
    | decide)

theorem logGauge_run (s : State) (g : Nat × Nat × Nat × Nat × Nat) (hz : Run flds st0 s) (hw : [.out, .hostA, .hostB, .seq,
    .log].all flds.contains = true) : Run flds st0 (logGauge s g) := by
  refine .lift ?_ hz hw
  unfold logGauge
  repeat' (first
    | with_reducible assumption
    | with_reducible exact Run.refl _ _
    | with_reducible apply logAt_run
    | decide)

theorem logSteps_run (s : State) (hz : Run flds st0 s) (hw : [.out, .hostA, .hostB, .seq, .log, .gauges].all flds.contains =
    true) : Run flds st0 (logSteps s) := by
  refine .lift ?_ hz hw
  unfold logSteps
  repeat' (first
    | with_reducible assumption
    | with_reducible exact Run.refl _ _
    | (extract_lets +onlyGivenNames x
       first | (apply Run.cut (x := x); rotate_left 1; intro h; clear_value x; rotate_left 1; subst x) | clear_value x)
    | with_reducible apply logGauge_run
    | (with_reducible apply Run.foldl; rotate_left 1; intro e x h)
    | decide
    | (with_reducible refine Run.mk_upd rfl ?_ ?_ rfl rfl rfl rfl rfl
       rotate_left 1; exact (fun f hf => by cases f <;> first | exact absurd hf (by decide) | exact Eq.refl _)))

theorem startRun_run (t0 : Nat) (s : State) (hz : Run flds st0 s) (hw : [.out, .hostA, .hostB, .warden, .seq, .log, .job, .exec,
    .twin].all flds.contains = true) : Run flds st0 (startRun t0 s) := by
  refine .lift ?_ hz hw
  unfold startRun
  repeat' (first
    | with_reducible assumption
    | with_reducible exact Run.refl _ _
    | (extract_lets +onlyGivenNames x
       first | (apply Run.cut (x := x); rotate_left 1; intro h; clear_value x; rotate_left 1; subst x) | clear_value x)
    | with_reducible apply setJob_run
    | with_reducible apply endWhere_run
    | decide
    | (with_reducible refine Run.mk_upd rfl ?_ ?_ rfl rfl rfl rfl rfl
       rotate_left 1; exact (fun f hf => by cases f <;> first | exact absurd hf (by decide) | exact Eq.refl _)))

theorem finishStop_run (t first : Nat) (s : State) (hz : Run flds st0 s) (hw : [.out, .hostA, .hostB, .warden, .seq, .log, .job,
    .exec, .cores, .memStacks, .twin].all flds.contains = true) : Run flds st0 (finishStop t first s) := by
  refine .lift ?_ hz hw
  unfold finishStop
  repeat' (first
    | with_reducible assumption
    | with_reducible exact Run.refl _ _
    | (extract_lets +onlyGivenNames x
       first | (apply Run.cut (x := x); rotate_left 1; intro h; clear_value x; rotate_left 1; subst x) | clear_value x)
    | with_reducible apply setJob_run
    | with_reducible apply endOp_run
    | with_reducible apply endRunTime_run
    | with_reducible apply abandonTasks_run
    | decide
    | (with_reducible refine Run.mk_upd rfl ?_ ?_ rfl rfl rfl rfl rfl
       rotate_left 1; exact (fun f hf => by cases f <;> first | exact absurd hf (by decide) | exact Eq.refl _)))

theorem stopAbandoned_run (s : State) (hz : Run flds st0 s) (hw : [.out, .hostA, .hostB, .warden, .seq, .log, .job, .exec,
    .cores, .memStacks, .twin].all flds.contains = true) : Run flds st0 (stopAbandoned s) := by
  refine .lift ?_ hz hw
  unfold stopAbandoned
  repeat' (first
    | with_reducible assumption
    | with_reducible exact Run.refl _ _
    | with_reducible apply finishStop_run
    | decide)

theorem tryFinish_run (s : State) (hz : Run flds st0 s) (hw : [.out, .hostA, .hostB, .warden, .seq, .log, .job, .exec, .cores,
    .memStacks, .twin].all flds.contains = true) : Run flds st0 (tryFinish s) := by
  refine .lift ?_ hz hw
  unfold tryFinish
  repeat' (first
    | with_reducible assumption
    | with_reducible exact Run.refl _ _
    | with_reducible apply finishStop_run
    | split
    | decide)

theorem prune_run (s : State) (hz : Run flds st0 s) (hw : [.exec].all flds.contains = true) : Run flds st0 (prune s) := by
  refine .lift ?_ hz hw
  unfold prune
  repeat' (first
    | with_reducible assumption
    | with_reducible exact Run.refl _ _
    | (extract_lets +onlyGivenNames x
       first | (apply Run.cut (x := x); rotate_left 1; intro h; clear_value x; rotate_left 1; subst x) | clear_value x)
    | decide
    | (with_reducible refine Run.mk_upd rfl ?_ ?_ rfl rfl rfl rfl rfl
       rotate_left 1; exact (fun f hf => by cases f <;> first | exact absurd hf (by decide) | exact Eq.refl _)))

theorem windowsNow_run (s : State) (hz : Run flds st0 s) (hw : [.warden, .levee].all flds.contains = true) : Run flds st0
    (windowsNow s) := by
  refine .lift ?_ hz hw
  unfold windowsNow
  repeat' (first
    | with_reducible assumption
    | with_reducible exact Run.refl _ _
    | with_reducible apply endWhere_run
    | with_reducible apply applyChanges_run
    | decide)

theorem boundaryActions_run (s : State) (hz : Run flds st0 s) (hw : [.out, .plls, .hostA, .hostB, .i3c, .warden, .seq, .log,
    .job, .exec, .dies, .cores, .coreStore, .memStacks, .links, .levee, .fabric, .twin, .flash, .inspect].all flds.contains =
    true) : Run flds st0 (boundaryActions s) := by
  refine .lift ?_ hz hw
  unfold boundaryActions
  repeat' (first
    | with_reducible assumption
    | with_reducible exact Run.refl _ _
    | (extract_lets +onlyGivenNames x
       first | (apply Run.cut (x := x); rotate_left 1; intro h; clear_value x; rotate_left 1; subst x) | clear_value x)
    | with_reducible apply belowNotice_run
    | with_reducible apply startTests_run
    | with_reducible apply moveHalf_run
    | with_reducible apply handovers_run
    | with_reducible apply windowsNow_run
    | (with_reducible apply Run.foldl; rotate_left 1; intro e x h)
    | decide
    | (with_reducible refine Run.mk_upd rfl ?_ ?_ rfl rfl rfl rfl rfl
       rotate_left 1; exact (fun f hf => by cases f <;> first | exact absurd hf (by decide) | exact Eq.refl _)))

theorem leadSchedule_run (s : State) (hz : Run flds st0 s) (hw : [.out, .fabric, .twin].all flds.contains = true) : Run flds st0
    (leadSchedule s) := by
  refine .lift ?_ hz hw
  unfold leadSchedule
  repeat' (first
    | with_reducible assumption
    | with_reducible exact Run.refl _ _
    | (extract_lets +onlyGivenNames x
       first | (apply Run.cut (x := x); rotate_left 1; intro h; clear_value x; rotate_left 1; subst x) | clear_value x)
    | with_reducible apply modTwin_run
    | with_reducible apply schedule_run
    | split
    | decide
    | (with_reducible refine Run.mk_upd rfl ?_ ?_ rfl rfl rfl rfl rfl
       rotate_left 1; exact (fun f hf => by cases f <;> first | exact absurd hf (by decide) | exact Eq.refl _)))

theorem newStep_run (im : JobImage) (s : State) (hz : Run flds st0 s)
    (hw : [.out, .plls, .hostA, .hostB, .i3c, .peer, .warden, .seq, .log, .job, .exec, .gauges, .dies, .cores, .coreStore, .memStacks, .links,
      .levee, .fabric, .twin, .flash, .inspect].all flds.contains = true) : Run flds st0 (newStep im s) := by
  refine .lift ?_ hz hw
  unfold newStep
  extract_lets +onlyGivenNames t o c ck
  have hc : ∀ x, Run [.out, .plls, .hostA, .hostB, .i3c, .peer, .warden, .seq, .log, .job, .exec, .gauges, .dies, .cores, .coreStore, .memStacks,
      .links, .levee, .fabric, .twin, .flash, .inspect] s x → Run [.out, .plls, .hostA, .hostB, .i3c, .peer, .warden, .seq, .log, .job,
      .exec, .gauges, .dies, .cores, .coreStore, .memStacks, .links, .levee, .fabric, .twin, .flash, .inspect] s (ck x) := by
    intro x h
    subst ck
    dsimp only
    split
    · exact h
    · exact ckptStart_run _ _ _ _ h (by decide)
  clear_value ck
  repeat' (first
    | with_reducible assumption
    | with_reducible exact Run.refl _ _
    | (extract_lets +onlyGivenNames x
       first | (apply Run.cut (x := x); rotate_left 1; intro h; clear_value x; rotate_left 1; subst x) | clear_value x)
    | with_reducible apply leadSchedule_run
    | with_reducible apply boundaryActions_run
    | with_reducible apply prune_run
    | with_reducible apply ckptStream_run
    | with_reducible apply logSteps_run
    | with_reducible apply hc
    | split
    | decide
    | (with_reducible refine Run.mk_upd rfl ?_ ?_ rfl rfl rfl rfl rfl
       rotate_left 1; exact (fun f hf => by cases f <;> first | exact absurd hf (by decide) | exact Eq.refl _)))

theorem stepBoundary_run (s : State) (hz : Run flds st0 s) (hw : [.out, .plls, .hostA, .hostB, .i3c, .peer, .warden, .seq, .log,
    .job, .exec, .gauges, .dies, .cores, .coreStore, .memStacks, .links, .levee, .fabric, .twin, .flash, .inspect].all
    flds.contains = true) : Run flds st0 (stepBoundary s) := by
  refine .lift ?_ hz hw
  unfold stepBoundary
  repeat' (first
    | with_reducible assumption
    | with_reducible exact Run.refl _ _
    | (extract_lets +onlyGivenNames x
       first | (apply Run.cut (x := x); rotate_left 1; intro h; clear_value x; rotate_left 1; subst x) | clear_value x)
    | with_reducible apply closeSteps_run
    | with_reducible apply ckptStream_run
    | with_reducible apply lateHandovers_run
    | with_reducible apply logSteps_run
    | with_reducible apply startRun_run
    | with_reducible apply finishStop_run
    | with_reducible apply windowsNow_run
    | with_reducible apply boundaryActions_run
    | with_reducible apply newStep_run
    | split
    | decide
    | (with_reducible refine Run.mk_upd rfl ?_ ?_ rfl rfl rfl rfl rfl
       rotate_left 1; exact (fun f hf => by cases f <;> first | exact absurd hf (by decide) | exact Eq.refl _)))

theorem startSlot_run (s : State) (hz : Run flds st0 s) (hw : [.inspect].all flds.contains = true) : Run flds st0 (startSlot s)
    := by
  refine .lift ?_ hz hw
  unfold startSlot
  repeat' (first
    | with_reducible assumption
    | with_reducible exact Run.refl _ _
    | (extract_lets +onlyGivenNames x
       first | (apply Run.cut (x := x); rotate_left 1; intro h; clear_value x; rotate_left 1; subst x) | clear_value x)
    | split
    | decide
    | (with_reducible refine Run.mk_upd rfl ?_ ?_ rfl rfl rfl rfl rfl
       rotate_left 1; exact (fun f hf => by cases f <;> first | exact absurd hf (by decide) | exact Eq.refl _)))

theorem endSlot_run (d c : Nat) (failed : Bool) (s : State) (hz : Run flds st0 s) (hw : [.out, .hostA, .hostB, .warden, .seq,
    .log, .job, .exec, .dies, .cores, .coreStore, .memStacks, .fabric, .twin, .flash, .inspect].all flds.contains = true) : Run
    flds st0 (endSlot d c failed s) := by
  refine .lift ?_ hz hw
  unfold endSlot
  repeat' (first
    | with_reducible assumption
    | with_reducible exact Run.refl _ _
    | (extract_lets +onlyGivenNames x
       first | (apply Run.cut (x := x); rotate_left 1; intro h; clear_value x; rotate_left 1; subst x) | clear_value x)
    | with_reducible apply modDie_run
    | with_reducible apply logEv_run
    | with_reducible apply ledgerAppend_run
    | with_reducible apply modCore_run
    | with_reducible apply mapOut_run
    | split
    | decide
    | (with_reducible refine Run.mk_upd rfl ?_ ?_ rfl rfl rfl rfl rfl
       rotate_left 1; exact (fun f hf => by cases f <;> first | exact absurd hf (by decide) | exact Eq.refl _)))

end Sys2Proof.Laws
end

