-- ==== Sys2Proof/Laws/RunSync.lean ====
section
/-! SUPPORT. What the operations may change: one lemma for each operation of Sys2Proof/Machine/Sync.lean. -/

set_option linter.unusedTactic false
set_option linter.unreachableTactic false

namespace Sys2Proof.Laws

open Machine

variable {flds : List StateField} {st0 : State}

theorem sendSync_run (p : FPort) (ref t1 t2 t3 : Nat) (s : State) (hz : Run flds st0 s) (hw : [.out, .fabric].all flds.contains
    = true) : Run flds st0 (sendSync p ref t1 t2 t3 s) := by
  refine .lift ?_ hz hw
  unfold sendSync
  repeat' (first
    | with_reducible assumption
    | with_reducible exact Run.refl _ _
    | (extract_lets +onlyGivenNames x
       first | (apply Run.cut (x := x); rotate_left 1; intro h; clear_value x; rotate_left 1; subst x) | clear_value x)
    | with_reducible apply sendOn_run
    | decide
    | (with_reducible refine Run.mk_upd rfl ?_ ?_ rfl rfl rfl rfl rfl
       rotate_left 1; exact (fun f hf => by cases f <;> first | exact absurd hf (by decide) | exact Eq.refl _)))

theorem modTide_run (f : Tide → Tide) (s : State) (hz : Run flds st0 s) (hw : [.tide].all flds.contains = true) : Run flds st0
    (modTide f s) := by
  refine .lift ?_ hz hw
  unfold modTide
  repeat' (first
    | with_reducible assumption
    | with_reducible exact Run.refl _ _
    | (extract_lets +onlyGivenNames x
       first | (apply Run.cut (x := x); rotate_left 1; intro h; clear_value x; rotate_left 1; subst x) | clear_value x)
    | decide
    | (with_reducible refine Run.mk_upd rfl ?_ ?_ rfl rfl rfl rfl rfl
       rotate_left 1; exact (fun f hf => by cases f <;> first | exact absurd hf (by decide) | exact Eq.refl _)))

theorem hearSync_run (p : FPort) (m : Msg) (s : State) (hz : Run flds st0 s) (hw : [.tide, .fabric].all flds.contains = true) :
    Run flds st0 (hearSync p m s) := by
  refine .lift ?_ hz hw
  unfold hearSync
  repeat' (first
    | with_reducible assumption
    | with_reducible exact Run.refl _ _
    | (extract_lets +onlyGivenNames x
       first | (apply Run.cut (x := x); rotate_left 1; intro h; clear_value x; rotate_left 1; subst x) | clear_value x)
    | with_reducible apply modFab_run
    | with_reducible apply modTide_run
    | decide
    | (with_reducible refine Run.mk_upd rfl ?_ ?_ rfl rfl rfl rfl rfl
       rotate_left 1; exact (fun f hf => by cases f <;> first | exact absurd hf (by decide) | exact Eq.refl _)))

theorem logTide_run (old new : Option FPort) (s : State) (hz : Run flds st0 s) (hw : [.out, .hostA, .hostB, .seq, .log].all
    flds.contains = true) : Run flds st0 (logTide old new s) := by
  refine .lift ?_ hz hw
  unfold logTide
  repeat' (first
    | with_reducible assumption
    | with_reducible exact Run.refl _ _
    | with_reducible apply logEv_run
    | decide)

theorem becomeRoot_run (s : State) (hz : Run flds st0 s) (hw : [.out, .tide, .hostA, .hostB, .seq, .log].all flds.contains =
    true) : Run flds st0 (becomeRoot s) := by
  refine .lift ?_ hz hw
  unfold becomeRoot
  repeat' (first
    | with_reducible assumption
    | with_reducible exact Run.refl _ _
    | (extract_lets +onlyGivenNames x
       first | (apply Run.cut (x := x); rotate_left 1; intro h; clear_value x; rotate_left 1; subst x) | clear_value x)
    | with_reducible apply modTide_run
    | with_reducible apply logTide_run
    | split
    | decide
    | (with_reducible refine Run.mk_upd rfl ?_ ?_ rfl rfl rfl rfl rfl
       rotate_left 1; exact (fun f hf => by cases f <;> first | exact absurd hf (by decide) | exact Eq.refl _)))

theorem unsyncFailure_run (s : State) (hz : Run flds st0 s) (hw : [.out, .hostA, .hostB, .warden, .seq, .log, .job, .exec,
    .cores, .memStacks, .fabric, .twin, .inspect].all flds.contains = true) : Run flds st0 (unsyncFailure s) := by
  refine .lift ?_ hz hw
  unfold unsyncFailure
  repeat' (first
    | with_reducible assumption
    | with_reducible exact Run.refl _ _
    | with_reducible apply failHere_run
    | split
    | decide)

theorem follow_run (p : FPort) (r : SyncRec) (o : Int) (load keep : Bool) (s : State) (hz : Run flds st0 s) (hw : [.out, .tide,
    .hostA, .hostB, .warden, .seq, .log, .job, .exec, .cores, .memStacks, .fabric, .twin, .inspect].all flds.contains = true) :
    Run flds st0 (follow p r o load keep s) := by
  refine .lift ?_ hz hw
  unfold follow
  repeat' (first
    | with_reducible assumption
    | with_reducible exact Run.refl _ _
    | (extract_lets +onlyGivenNames x
       first | (apply Run.cut (x := x); rotate_left 1; intro h; clear_value x; rotate_left 1; subst x) | clear_value x)
    | with_reducible apply modTide_run
    | with_reducible apply logTide_run
    | with_reducible apply unsyncFailure_run
    | split
    | decide
    | (with_reducible refine Run.mk_upd rfl ?_ ?_ rfl rfl rfl rfl rfl
       rotate_left 1; exact (fun f hf => by cases f <;> first | exact absurd hf (by decide) | exact Eq.refl _)))

theorem takeResponse_run (p : FPort) (m : Msg) (s : State) (hz : Run flds st0 s) (hw : [.out, .tide, .hostA, .hostB, .warden,
    .seq, .log, .job, .exec, .cores, .memStacks, .fabric, .twin, .inspect].all flds.contains = true) : Run flds st0
    (takeResponse p m s) := by
  refine .lift ?_ hz hw
  unfold takeResponse
  repeat' (first
    | with_reducible assumption
    | with_reducible exact Run.refl _ _
    | (extract_lets +onlyGivenNames x
       first | (apply Run.cut (x := x); rotate_left 1; intro h; clear_value x; rotate_left 1; subst x) | clear_value x)
    | with_reducible apply hearSync_run
    | with_reducible apply follow_run
    | split
    | decide
    | (with_reducible refine Run.mk_upd rfl ?_ ?_ rfl rfl rfl rfl rfl
       rotate_left 1; exact (fun f hf => by cases f <;> first | exact absurd hf (by decide) | exact Eq.refl _)))

theorem takeRequest_run (p : FPort) (m : Msg) (s : State) (hz : Run flds st0 s) (hw : [.out, .tide, .fabric].all flds.contains =
    true) : Run flds st0 (takeRequest p m s) := by
  refine .lift ?_ hz hw
  unfold takeRequest
  repeat' (first
    | with_reducible assumption
    | with_reducible exact Run.refl _ _
    | (extract_lets +onlyGivenNames x
       first | (apply Run.cut (x := x); rotate_left 1; intro h; clear_value x; rotate_left 1; subst x) | clear_value x)
    | with_reducible apply sendSync_run
    | with_reducible apply hearSync_run
    | split
    | decide)

theorem loseSync_run (s : State) (hz : Run flds st0 s) (hw : [.out, .tide, .hostA, .hostB, .warden, .seq, .log, .job, .exec,
    .cores, .memStacks, .fabric, .twin, .inspect].all flds.contains = true) : Run flds st0 (loseSync s) := by
  refine .lift ?_ hz hw
  unfold loseSync
  repeat' (first
    | with_reducible assumption
    | with_reducible exact Run.refl _ _
    | (extract_lets +onlyGivenNames x
       first | (apply Run.cut (x := x); rotate_left 1; intro h; clear_value x; rotate_left 1; subst x) | clear_value x)
    | with_reducible apply modTide_run
    | with_reducible apply logTide_run
    | with_reducible apply becomeRoot_run
    | with_reducible apply unsyncFailure_run
    | split
    | decide
    | (with_reducible refine Run.mk_upd rfl ?_ ?_ rfl rfl rfl rfl rfl
       rotate_left 1; exact (fun f hf => by cases f <;> first | exact absurd hf (by decide) | exact Eq.refl _)))

end Sys2Proof.Laws
end

