-- ==== Sys2Proof/Laws/RunJobRows.lean ====
section
/-! SUPPORT. What the operations may change: one lemma for each operation of Sys2Proof/Machine/JobRows.lean. -/

set_option linter.unusedTactic false
set_option linter.unreachableTactic false

namespace Sys2Proof.Laws

open Machine

variable {flds : List StateField} {st0 : State}

theorem dropFront_run (p : FPort) (cls : Nat) (sub : Bool) (s : State) (hz : Run flds st0 s) (hw : [.fabric].all flds.contains =
    true) : Run flds st0 (dropFront p cls sub s) := by
  refine .lift ?_ hz hw
  unfold dropFront
  repeat' (first
    | with_reducible assumption
    | with_reducible exact Run.refl _ _
    | (extract_lets +onlyGivenNames x
       first | (apply Run.cut (x := x); rotate_left 1; intro h; clear_value x; rotate_left 1; subst x) | clear_value x)
    | with_reducible apply modFab_run
    | decide
    | (with_reducible refine Run.mk_upd rfl ?_ ?_ rfl rfl rfl rfl rfl
       rotate_left 1; exact (fun f hf => by cases f <;> first | exact absurd hf (by decide) | exact Eq.refl _)))

theorem onMsg_run {p : FPort} {cls type : Nat} {sub : Bool} {f : Msg → State → State} {s : State} (hz : Run flds st0 s)
    (hf : ∀ m x, Run flds st0 x → Run flds st0 (f m x)) (hw : [.fabric].all flds.contains = true) :
    Run flds st0 (onMsg p cls type sub f s) := by
  unfold onMsg
  split
  · exact hf _ _ (dropFront_run _ _ _ _ hz hw)
  · exact hz

theorem onRed_run {f : PlanEntry → Msg → State → State} {m : Msg} {s : State} (hz : Run flds st0 s)
    (hf : ∀ r x, Run flds st0 x → Run flds st0 (f r m x))
    (hw : [.out, .hostA, .hostB, .i3c, .warden, .seq, .log, .job, .exec, .gauges, .cores, .coreStore, .memStacks, .mem, .fabric, .twin,
      .flash, .inspect].all flds.contains = true) : Run flds st0 (onRed f m s) := by
  unfold onRed
  split
  · split
    · exact hf _ _ (settlePlan_run _ _ hz hw)
    · exact hz
  · exact hz

theorem takeScale_run (m : Msg) (s : State) (hz : Run flds st0 s) (hw : [.out, .hostA, .hostB, .i3c, .warden, .seq, .log, .job,
    .exec, .cores, .coreStore, .memStacks, .mem, .fabric, .twin, .inspect].all flds.contains = true) : Run flds st0 (takeScale m
    s) := by
  refine .lift ?_ hz hw
  unfold takeScale
  repeat' (first
    | with_reducible assumption
    | with_reducible exact Run.refl _ _
    | with_reducible apply redMismatch_run
    | with_reducible apply recvScale_run
    | split
    | decide
    | (with_reducible refine Run.mk_upd rfl ?_ ?_ rfl rfl rfl rfl rfl
       rotate_left 1; exact (fun f hf => by cases f <;> first | exact absurd hf (by decide) | exact Eq.refl _)))

theorem takeExch_run (m : Msg) (s : State) (hz : Run flds st0 s) (hw : [.out, .exec, .coreStore, .memStacks, .mem, .fabric].all
    flds.contains = true) : Run flds st0 (takeExch m s) := by
  refine .lift ?_ hz hw
  unfold takeExch
  repeat' (first
    | with_reducible assumption
    | with_reducible exact Run.refl _ _
    | (extract_lets +onlyGivenNames x
       first | (apply Run.cut (x := x); rotate_left 1; intro h; clear_value x; rotate_left 1; subst x) | clear_value x)
    | with_reducible apply storeExch_run
    | with_reducible apply startExchanges_run
    | (with_reducible apply Run.foldl; rotate_left 1; intro e x h)
    | split
    | decide
    | (with_reducible refine Run.mk_upd rfl ?_ ?_ rfl rfl rfl rfl rfl
       rotate_left 1; exact (fun f hf => by cases f <;> first | exact absurd hf (by decide) | exact Eq.refl _)))

theorem resendVerdict_run (im : JobImage) (step : Nat) (s : State) (hz : Run flds st0 s) (hw : [.out, .fabric].all flds.contains
    = true) : Run flds st0 (resendVerdict im step s) := by
  refine .lift ?_ hz hw
  unfold resendVerdict
  repeat' (first
    | with_reducible assumption
    | with_reducible exact Run.refl _ _
    | with_reducible apply bcastMsg_run
    | split
    | decide)

theorem takeVerdictMsg_run (p : FPort) (m : Msg) (s : State) (hz : Run flds st0 s) (hw : [.out, .hostA, .hostB, .i3c, .warden,
    .seq, .log, .job, .exec, .fabric, .twin].all flds.contains = true) : Run flds st0 (takeVerdictMsg p m s) := by
  refine .lift ?_ hz hw
  unfold takeVerdictMsg
  repeat' (first
    | with_reducible assumption
    | with_reducible exact Run.refl _ _
    | (extract_lets +onlyGivenNames x
       first | (apply Run.cut (x := x); rotate_left 1; intro h; clear_value x; rotate_left 1; subst x) | clear_value x)
    | with_reducible apply bcastForward_run
    | with_reducible apply sendNotice_run
    | with_reducible apply takeVerdict_run
    | with_reducible apply resendVerdict_run
    | split
    | decide
    | (with_reducible refine Run.mk_upd rfl ?_ ?_ rfl rfl rfl rfl rfl
       rotate_left 1; exact (fun f hf => by cases f <;> first | exact absurd hf (by decide) | exact Eq.refl _)))

theorem takeQdata_run (m : Msg) (s : State) (hz : Run flds st0 s) (hw : [.out, .hostA, .hostB, .i3c, .warden, .seq, .log,
    .queues, .job, .exec, .gauges, .cores, .coreStore, .memStacks, .mem, .fabric, .twin, .flash, .inspect].all flds.contains =
    true) : Run flds st0 (takeQdata m s) := by
  refine .lift ?_ hz hw
  unfold takeQdata
  repeat' (first
    | with_reducible assumption
    | with_reducible exact Run.refl _ _
    | (extract_lets +onlyGivenNames x
       first | (apply Run.cut (x := x); rotate_left 1; intro h; clear_value x; rotate_left 1; subst x) | clear_value x)
    | with_reducible apply logAccess_run
    | with_reducible apply modQueue_run
    | with_reducible apply ptrWrite_run
    | with_reducible apply settlePtr_run
    | split
    | decide
    | (with_reducible refine Run.mk_upd rfl ?_ ?_ rfl rfl rfl rfl rfl
       rotate_left 1; exact (fun f hf => by cases f <;> first | exact absurd hf (by decide) | exact Eq.refl _)))

theorem takeQcredit_run (m : Msg) (s : State) (hz : Run flds st0 s) (hw : [.queues].all flds.contains = true) : Run flds st0
    (takeQcredit m s) := by
  refine .lift ?_ hz hw
  unfold takeQcredit
  repeat' (first
    | with_reducible assumption
    | with_reducible exact Run.refl _ _
    | (extract_lets +onlyGivenNames x
       first | (apply Run.cut (x := x); rotate_left 1; intro h; clear_value x; rotate_left 1; subst x) | clear_value x)
    | with_reducible apply modQueue_run
    | (with_reducible apply Run.iter; rotate_left 1; intro x h)
    | split
    | decide
    | (with_reducible refine Run.mk_upd rfl ?_ ?_ rfl rfl rfl rfl rfl
       rotate_left 1; exact (fun f hf => by cases f <;> first | exact absurd hf (by decide) | exact Eq.refl _)))

theorem remoteBreach_run (im : JobImage) (step task red : Nat) (s : State) (hz : Run flds st0 s) (hw : [.out, .hostA, .hostB,
    .seq, .log, .exec, .cores, .coreStore, .memStacks, .mem, .fabric].all flds.contains = true) : Run flds st0 (remoteBreach im
    step task red s) := by
  refine .lift ?_ hz hw
  unfold remoteBreach
  repeat' (first
    | with_reducible assumption
    | with_reducible exact Run.refl _ _
    | with_reducible apply applyBreach_run
    | with_reducible apply resendVerdict_run
    | split
    | decide)

theorem abandonStep_run (s : State) (hz : Run flds st0 s) (hw : [.out, .job, .exec, .cores, .memStacks].all flds.contains =
    true) : Run flds st0 (abandonStep s) := by
  refine .lift ?_ hz hw
  unfold abandonStep
  repeat' (first
    | with_reducible assumption
    | with_reducible exact Run.refl _ _
    | (extract_lets +onlyGivenNames x
       first | (apply Run.cut (x := x); rotate_left 1; intro h; clear_value x; rotate_left 1; subst x) | clear_value x)
    | with_reducible apply abandonTasks_run
    | decide
    | (with_reducible refine Run.mk_upd rfl ?_ ?_ rfl rfl rfl rfl rfl
       rotate_left 1; exact (fun f hf => by cases f <;> first | exact absurd hf (by decide) | exact Eq.refl _)))

theorem resumeStep_run (s : State) (hz : Run flds st0 s) (hw : [.job, .exec].all flds.contains = true) : Run flds st0
    (resumeStep s) := by
  refine .lift ?_ hz hw
  unfold resumeStep
  repeat' (first
    | with_reducible assumption
    | with_reducible exact Run.refl _ _
    | (extract_lets +onlyGivenNames x
       first | (apply Run.cut (x := x); rotate_left 1; intro h; clear_value x; rotate_left 1; subst x) | clear_value x)
    | decide
    | (with_reducible refine Run.mk_upd rfl ?_ ?_ rfl rfl rfl rfl rfl
       rotate_left 1; exact (fun f hf => by cases f <;> first | exact absurd hf (by decide) | exact Eq.refl _)))

theorem recvNotice_run (breach : Bool) (p : FPort) (m : Msg) (s : State) (hz : Run flds st0 s) (hw : [.out, .hostA, .hostB,
    .i3c, .warden, .seq, .log, .job, .exec, .cores, .coreStore, .memStacks, .mem, .fabric, .twin].all flds.contains = true) :
    Run flds st0 (recvNotice breach p m s) := by
  refine .lift ?_ hz hw
  unfold recvNotice
  repeat' (first
    | with_reducible assumption
    | with_reducible exact Run.refl _ _
    | (extract_lets +onlyGivenNames x
       first | (apply Run.cut (x := x); rotate_left 1; intro h; clear_value x; rotate_left 1; subst x) | clear_value x)
    | with_reducible apply raiseBoth_run
    | with_reducible apply bcastForward_run
    | with_reducible apply logNotice_run
    | with_reducible apply takeNotice_run
    | with_reducible apply remoteBreach_run
    | with_reducible apply abandonStep_run
    | with_reducible apply resumeStep_run
    | split
    | decide
    | (with_reducible refine Run.mk_upd rfl ?_ ?_ rfl rfl rfl rfl rfl
       rotate_left 1; exact (fun f hf => by cases f <;> first | exact absurd hf (by decide) | exact Eq.refl _)))

end Sys2Proof.Laws
end

