-- ==== Sys2Proof/Laws/RunThermal.lean ====
section
/-! SUPPORT. What the operations may change: one lemma for each operation of Sys2Proof/Machine/Thermal.lean. -/

set_option linter.unusedTactic false
set_option linter.unreachableTactic false

namespace Sys2Proof.Laws

open Machine

variable {flds : List StateField} {st0 : State}

theorem modPower_run (f : Power → Power) (s : State) (hz : Run flds st0 s) (hw : [.power].all flds.contains = true) : Run flds
    st0 (modPower f s) := by
  refine .lift ?_ hz hw
  unfold modPower
  repeat' (first
    | with_reducible assumption
    | with_reducible exact Run.refl _ _
    | (extract_lets +onlyGivenNames x
       first | (apply Run.cut (x := x); rotate_left 1; intro h; clear_value x; rotate_left 1; subst x) | clear_value x)
    | decide
    | (with_reducible refine Run.mk_upd rfl ?_ ?_ rfl rfl rfl rfl rfl
       rotate_left 1; exact (fun f hf => by cases f <;> first | exact absurd hf (by decide) | exact Eq.refl _)))

theorem stopStep_run (s : State) (hz : Run flds st0 s) (hw : [.out, .hostA, .hostB, .i3c, .warden, .seq, .log, .job, .exec,
    .cores, .memStacks, .fabric, .twin].all flds.contains = true) : Run flds st0 (stopStep s) := by
  refine .lift ?_ hz hw
  unfold stopStep
  repeat' (first
    | with_reducible assumption
    | with_reducible exact Run.refl _ _
    | with_reducible apply plainNotice_run
    | with_reducible apply abandonStep_run
    | split
    | decide)

theorem restartStep_run (s : State) (hz : Run flds st0 s) (hw : [.out, .hostA, .hostB, .i3c, .warden, .seq, .log, .job, .exec,
    .fabric, .twin].all flds.contains = true) : Run flds st0 (restartStep s) := by
  refine .lift ?_ hz hw
  unfold restartStep
  repeat' (first
    | with_reducible assumption
    | with_reducible exact Run.refl _ _
    | with_reducible apply sendNotice_run
    | with_reducible apply resumeStep_run
    | split
    | decide)

theorem stopStack_run (i : Fin 32) (s : State) (hz : Run flds st0 s) (hw : [.out, .hostA, .hostB, .seq, .log, .cores,
    .memStacks].all flds.contains = true) : Run flds st0 (stopStack i s) := by
  refine .lift ?_ hz hw
  unfold stopStack
  repeat' (first
    | with_reducible assumption
    | with_reducible exact Run.refl _ _
    | (extract_lets +onlyGivenNames x
       first | (apply Run.cut (x := x); rotate_left 1; intro h; clear_value x; rotate_left 1; subst x) | clear_value x)
    | with_reducible apply modStack_run
    | with_reducible apply sweepRequests_run
    | decide
    | (with_reducible refine Run.mk_upd rfl ?_ ?_ rfl rfl rfl rfl rfl
       rotate_left 1; exact (fun f hf => by cases f <;> first | exact absurd hf (by decide) | exact Eq.refl _)))

theorem startStack_run (i : Fin 32) (s : State) (hz : Run flds st0 s) (hw : [.memStacks].all flds.contains = true) : Run flds
    st0 (startStack i s) := by
  refine .lift ?_ hz hw
  unfold startStack
  repeat' (first
    | with_reducible assumption
    | with_reducible exact Run.refl _ _
    | (extract_lets +onlyGivenNames x
       first | (apply Run.cut (x := x); rotate_left 1; intro h; clear_value x; rotate_left 1; subst x) | clear_value x)
    | with_reducible apply modStack_run
    | decide
    | (with_reducible refine Run.mk_upd rfl ?_ ?_ rfl rfl rfl rfl rfl
       rotate_left 1; exact (fun f hf => by cases f <;> first | exact absurd hf (by decide) | exact Eq.refl _)))

theorem packageTrip_run (celsius : Int) (s : State) (hz : Run flds st0 s) (hw : [.out, .power, .hostA, .hostB, .warden, .seq,
    .log, .job, .exec, .cores, .memStacks, .fabric, .twin, .inspect].all flds.contains = true) : Run flds st0 (packageTrip
    celsius s) := by
  refine .lift ?_ hz hw
  unfold packageTrip
  repeat' (first
    | with_reducible assumption
    | with_reducible exact Run.refl _ _
    | (extract_lets +onlyGivenNames x
       first | (apply Run.cut (x := x); rotate_left 1; intro h; clear_value x; rotate_left 1; subst x) | clear_value x)
    | with_reducible apply logLoop_run
    | with_reducible apply failPackage_run
    | with_reducible apply modPower_run
    | with_reducible apply stopStack_run
    | (with_reducible apply Run.foldl; rotate_left 1; intro e x h)
    | split
    | decide
    | (with_reducible refine Run.mk_upd rfl ?_ ?_ rfl rfl rfl rfl rfl
       rotate_left 1; exact (fun f hf => by cases f <;> first | exact absurd hf (by decide) | exact Eq.refl _)))

theorem dieSample_run (d : Fin 4) (c : Int) (s : State) (hz : Run flds st0 s) (hw : [.out, .power, .hostA, .hostB, .warden,
    .seq, .log, .job, .exec, .dies, .cores, .memStacks, .fabric, .twin, .inspect].all flds.contains = true) : Run flds st0
    (dieSample d c s) := by
  refine .lift ?_ hz hw
  unfold dieSample
  repeat' (first
    | with_reducible assumption
    | with_reducible exact Run.refl _ _
    | (extract_lets +onlyGivenNames x
       first | (apply Run.cut (x := x); rotate_left 1; intro h; clear_value x; rotate_left 1; subst x) | clear_value x)
    | with_reducible apply modDie_run
    | with_reducible apply logLoop_run
    | with_reducible apply packageTrip_run
    | split
    | decide
    | (with_reducible refine Run.mk_upd rfl ?_ ?_ rfl rfl rfl rfl rfl
       rotate_left 1; exact (fun f hf => by cases f <;> first | exact absurd hf (by decide) | exact Eq.refl _)))

theorem hubSample_run (c : Int) (s : State) (hz : Run flds st0 s) (hw : [.out, .power, .hostA, .hostB, .warden, .seq, .log,
    .job, .exec, .cores, .memStacks, .fabric, .twin, .inspect].all flds.contains = true) : Run flds st0 (hubSample c s) := by
  refine .lift ?_ hz hw
  unfold hubSample
  repeat' (first
    | with_reducible assumption
    | with_reducible exact Run.refl _ _
    | (extract_lets +onlyGivenNames x
       first | (apply Run.cut (x := x); rotate_left 1; intro h; clear_value x; rotate_left 1; subst x) | clear_value x)
    | with_reducible apply modPower_run
    | with_reducible apply packageTrip_run
    | split
    | decide
    | (with_reducible refine Run.mk_upd rfl ?_ ?_ rfl rfl rfl rfl rfl
       rotate_left 1; exact (fun f hf => by cases f <;> first | exact absurd hf (by decide) | exact Eq.refl _)))

theorem stackSample_run (i : Fin 32) (c : Int) (s : State) (hz : Run flds st0 s) (hw : [.out, .power, .hostA, .hostB, .warden,
    .seq, .log, .job, .exec, .cores, .memStacks, .fabric, .twin, .inspect].all flds.contains = true) : Run flds st0 (stackSample
    i c s) := by
  refine .lift ?_ hz hw
  unfold stackSample
  repeat' (first
    | with_reducible assumption
    | with_reducible exact Run.refl _ _
    | (extract_lets +onlyGivenNames x
       first | (apply Run.cut (x := x); rotate_left 1; intro h; clear_value x; rotate_left 1; subst x) | clear_value x)
    | with_reducible apply modStack_run
    | with_reducible apply logEv_run
    | with_reducible apply failHere_run
    | with_reducible apply packageTrip_run
    | split
    | decide
    | (with_reducible refine Run.mk_upd rfl ?_ ?_ rfl rfl rfl rfl rfl
       rotate_left 1; exact (fun f hf => by cases f <;> first | exact absurd hf (by decide) | exact Eq.refl _)))

theorem bandSample_run (i : Fin 32) (c : Int) (s : State) (hz : Run flds st0 s) (hw : [.out, .hostA, .hostB, .i3c, .warden,
    .seq, .log, .job, .exec, .cores, .memStacks, .fabric, .twin].all flds.contains = true) : Run flds st0 (bandSample i c s) :=
    by
  refine .lift ?_ hz hw
  unfold bandSample
  repeat' (first
    | with_reducible assumption
    | with_reducible exact Run.refl _ _
    | (extract_lets +onlyGivenNames x
       first | (apply Run.cut (x := x); rotate_left 1; intro h; clear_value x; rotate_left 1; subst x) | clear_value x)
    | with_reducible apply modStack_run
    | with_reducible apply logEv_run
    | with_reducible apply logLoop_run
    | with_reducible apply stopStep_run
    | with_reducible apply restartStep_run
    | with_reducible apply stopStack_run
    | with_reducible apply startStack_run
    | split
    | decide
    | (with_reducible refine Run.mk_upd rfl ?_ ?_ rfl rfl rfl rfl rfl
       rotate_left 1; exact (fun f hf => by cases f <;> first | exact absurd hf (by decide) | exact Eq.refl _)))

theorem setRail_run (r : Rail) (b : Bool) (s : State) (hz : Run flds st0 s) (hw : [.power, .dies].all flds.contains = true) :
    Run flds st0 (setRail r b s) := by
  refine .lift ?_ hz hw
  unfold setRail
  repeat' (first
    | with_reducible assumption
    | with_reducible exact Run.refl _ _
    | (extract_lets +onlyGivenNames x
       first | (apply Run.cut (x := x); rotate_left 1; intro h; clear_value x; rotate_left 1; subst x) | clear_value x)
    | with_reducible apply modDie_run
    | with_reducible apply modPower_run
    | split
    | decide
    | (with_reducible refine Run.mk_upd rfl ?_ ?_ rfl rfl rfl rfl rfl
       rotate_left 1; exact (fun f hf => by cases f <;> first | exact absurd hf (by decide) | exact Eq.refl _)))

theorem railStop_run (r : Rail) (value : Nat) (s : State) (hz : Run flds st0 s) (hw : [.out, .power, .hostA, .hostB, .i3c,
    .warden, .seq, .log, .job, .exec, .dies, .cores, .memStacks, .fabric, .twin, .inspect].all flds.contains = true) : Run flds
    st0 (railStop r value s) := by
  refine .lift ?_ hz hw
  unfold railStop
  repeat' (first
    | with_reducible assumption
    | with_reducible exact Run.refl _ _
    | (extract_lets +onlyGivenNames x
       first | (apply Run.cut (x := x); rotate_left 1; intro h; clear_value x; rotate_left 1; subst x) | clear_value x)
    | with_reducible apply logLoop_run
    | with_reducible apply failPackage_run
    | with_reducible apply modPower_run
    | with_reducible apply stopStep_run
    | with_reducible apply setRail_run
    | split
    | decide
    | (with_reducible refine Run.mk_upd rfl ?_ ?_ rfl rfl rfl rfl rfl
       rotate_left 1; exact (fun f hf => by cases f <;> first | exact absurd hf (by decide) | exact Eq.refl _)))

theorem modPll_run (u : Fin 36) (f : Plls → Plls) (s : State) (hz : Run flds st0 s) (hw : [.plls].all flds.contains = true) :
    Run flds st0 (modPll u f s) := by
  refine .lift ?_ hz hw
  unfold modPll
  repeat' (first
    | with_reducible assumption
    | with_reducible exact Run.refl _ _
    | (extract_lets +onlyGivenNames x
       first | (apply Run.cut (x := x); rotate_left 1; intro h; clear_value x; rotate_left 1; subst x) | clear_value x)
    | decide
    | (with_reducible refine Run.mk_upd rfl ?_ ?_ rfl rfl rfl rfl rfl
       rotate_left 1; exact (fun f hf => by cases f <;> first | exact absurd hf (by decide) | exact Eq.refl _)))

theorem pllsUp_run (s : State) (hz : Run flds st0 s) (hw : [.plls].all flds.contains = true) : Run flds st0 (pllsUp s) := by
  refine .lift ?_ hz hw
  unfold pllsUp
  repeat' (first
    | with_reducible assumption
    | with_reducible exact Run.refl _ _
    | (extract_lets +onlyGivenNames x
       first | (apply Run.cut (x := x); rotate_left 1; intro h; clear_value x; rotate_left 1; subst x) | clear_value x)
    | decide
    | (with_reducible refine Run.mk_upd rfl ?_ ?_ rfl rfl rfl rfl rfl
       rotate_left 1; exact (fun f hf => by cases f <;> first | exact absurd hf (by decide) | exact Eq.refl _)))

theorem lossOfLock_run (u : Fin 36) (pll : Fin 2) (s : State) (hz : Run flds st0 s) (hw : [.out, .plls, .hostA, .hostB, .warden,
    .seq, .log, .job, .exec, .cores, .memStacks, .fabric, .twin, .inspect].all flds.contains = true) : Run flds st0 (lossOfLock
    u pll s) := by
  refine .lift ?_ hz hw
  unfold lossOfLock
  repeat' (first
    | with_reducible assumption
    | with_reducible exact Run.refl _ _
    | (extract_lets +onlyGivenNames x
       first | (apply Run.cut (x := x); rotate_left 1; intro h; clear_value x; rotate_left 1; subst x) | clear_value x)
    | with_reducible apply logLoop_run
    | with_reducible apply failHere_run
    | with_reducible apply stopStack_run
    | with_reducible apply modPll_run
    | split
    | decide
    | (with_reducible refine Run.mk_upd rfl ?_ ?_ rfl rfl rfl rfl rfl
       rotate_left 1; exact (fun f hf => by cases f <;> first | exact absurd hf (by decide) | exact Eq.refl _)))

end Sys2Proof.Laws
end

