-- ==== Sys2Proof/Laws/RunReset.lean ====
section
/-! SUPPORT. What the operations may change: one lemma for each operation of Sys2Proof/Machine/Reset.lean. -/

set_option linter.unusedTactic false
set_option linter.unreachableTactic false

namespace Sys2Proof.Laws

open Machine

variable {flds : List StateField} {st0 : State}

theorem modInput_run (i : BoardInput) (f : InputSt → InputSt) (s : State) (hz : Run flds st0 s) (hw : [.power].all flds.contains
    = true) : Run flds st0 (modInput i f s) := by
  refine .lift ?_ hz hw
  unfold modInput
  repeat' (first
    | with_reducible assumption
    | with_reducible exact Run.refl _ _
    | (extract_lets +onlyGivenNames x
       first | (apply Run.cut (x := x); rotate_left 1; intro h; clear_value x; rotate_left 1; subst x) | clear_value x)
    | with_reducible apply modPower_run
    | split
    | decide
    | (with_reducible refine Run.mk_upd rfl ?_ ?_ rfl rfl rfl rfl rfl
       rotate_left 1; exact (fun f hf => by cases f <;> first | exact absurd hf (by decide) | exact Eq.refl _)))

theorem countInput_run (i : BoardInput) (kind : Nat) (s : State) (hz : Run flds st0 s) (hw : [.power].all flds.contains = true)
    : Run flds st0 (countInput i kind s) := by
  refine .lift ?_ hz hw
  unfold countInput
  repeat' (first
    | with_reducible assumption
    | with_reducible exact Run.refl _ _
    | (extract_lets +onlyGivenNames x
       first | (apply Run.cut (x := x); rotate_left 1; intro h; clear_value x; rotate_left 1; subst x) | clear_value x)
    | with_reducible apply modInput_run
    | decide
    | (with_reducible refine Run.mk_upd rfl ?_ ?_ rfl rfl rfl rfl rfl
       rotate_left 1; exact (fun f hf => by cases f <;> first | exact absurd hf (by decide) | exact Eq.refl _)))

theorem activate_run (i : BoardInput) (held inactive : Nat) (s : State) (hz : Run flds st0 s) (hw : [.power].all flds.contains =
    true) : Run flds st0 (activate i held inactive s).2 := by
  refine .lift ?_ hz hw
  unfold activate
  repeat' (first
    | with_reducible assumption
    | with_reducible exact Run.refl _ _
    | (extract_lets +onlyGivenNames x
       first | (apply Run.cut (x := x); rotate_left 1; intro h; clear_value x; rotate_left 1; subst x) | clear_value x)
    | with_reducible apply modInput_run
    | with_reducible apply countInput_run
    | dsimp only
    | split
    | decide
    | (with_reducible refine Run.mk_upd rfl ?_ ?_ rfl rfl rfl rfl rfl
       rotate_left 1; exact (fun f hf => by cases f <;> first | exact absurd hf (by decide) | exact Eq.refl _)))

theorem clearPort_run (p : HPort) (s : State) (hz : Run flds st0 s) (hw : [.hostA, .hostB].all flds.contains = true) : Run flds
    st0 (clearPort p s) := by
  refine .lift ?_ hz hw
  unfold clearPort
  repeat' (first
    | with_reducible assumption
    | with_reducible exact Run.refl _ _
    | (extract_lets +onlyGivenNames x
       first | (apply Run.cut (x := x); rotate_left 1; intro h; clear_value x; rotate_left 1; subst x) | clear_value x)
    | with_reducible apply modHost_run
    | decide
    | (with_reducible refine Run.mk_upd rfl ?_ ?_ rfl rfl rfl rfl rfl
       rotate_left 1; exact (fun f hf => by cases f <;> first | exact absurd hf (by decide) | exact Eq.refl _)))

theorem logPort62_run (p : HPort) (cause : Nat) (s : State) (hz : Run flds st0 s) (hw : [.out, .hostA, .hostB, .seq, .log].all
    flds.contains = true) : Run flds st0 (logPort62 p cause s) := by
  refine .lift ?_ hz hw
  unfold logPort62
  repeat' (first
    | with_reducible assumption
    | with_reducible exact Run.refl _ _
    | with_reducible apply logEv_run
    | decide)

theorem portReset_run (p : HPort) (cause : Nat) (s : State) (hz : Run flds st0 s) (hw : [.out, .hostA, .hostB, .lock, .warden,
    .seq, .log].all flds.contains = true) : Run flds st0 (portReset p cause s) := by
  refine .lift ?_ hz hw
  unfold portReset
  repeat' (first
    | with_reducible assumption
    | with_reducible exact Run.refl _ _
    | (extract_lets +onlyGivenNames x
       first | (apply Run.cut (x := x); rotate_left 1; intro h; clear_value x; rotate_left 1; subst x) | clear_value x)
    | with_reducible apply freeLock_run
    | with_reducible apply clearPort_run
    | with_reducible apply logPort62_run
    | split
    | decide
    | (with_reducible refine Run.mk_upd rfl ?_ ?_ rfl rfl rfl rfl rfl
       rotate_left 1; exact (fun f hf => by cases f <;> first | exact absurd hf (by decide) | exact Eq.refl _)))

theorem trainPort_run (p : HPort) (atRating : Bool) (s : State) (hz : Run flds st0 s) (hw : [.out, .hostA, .hostB, .seq,
    .log].all flds.contains = true) : Run flds st0 (trainPort p atRating s) := by
  refine .lift ?_ hz hw
  unfold trainPort
  repeat' (first
    | with_reducible assumption
    | with_reducible exact Run.refl _ _
    | (extract_lets +onlyGivenNames x
       first | (apply Run.cut (x := x); rotate_left 1; intro h; clear_value x; rotate_left 1; subst x) | clear_value x)
    | with_reducible apply modHost_run
    | with_reducible apply logPort62_run
    | split
    | decide
    | (with_reducible refine Run.mk_upd rfl ?_ ?_ rfl rfl rfl rfl rfl
       rotate_left 1; exact (fun f hf => by cases f <;> first | exact absurd hf (by decide) | exact Eq.refl _)))

theorem releasePort_run (p : HPort) (atRating : Bool) (s : State) (hz : Run flds st0 s) (hw : [.out, .hostA, .hostB, .seq,
    .log].all flds.contains = true) : Run flds st0 (releasePort p atRating s) := by
  refine .lift ?_ hz hw
  unfold releasePort
  repeat' (first
    | with_reducible assumption
    | with_reducible exact Run.refl _ _
    | (extract_lets +onlyGivenNames x
       first | (apply Run.cut (x := x); rotate_left 1; intro h; clear_value x; rotate_left 1; subst x) | clear_value x)
    | with_reducible apply modHost_run
    | with_reducible apply trainPort_run
    | decide
    | (with_reducible refine Run.mk_upd rfl ?_ ?_ rfl rfl rfl rfl rfl
       rotate_left 1; exact (fun f hf => by cases f <;> first | exact absurd hf (by decide) | exact Eq.refl _)))

theorem logFailed_run (s : State) (b : Bool) (hz : Run flds st0 s) (hw : [.out, .hostA, .hostB, .seq, .log].all flds.contains =
    true) : Run flds st0 (logFailed s b) := by
  refine .lift ?_ hz hw
  unfold logFailed
  repeat' (first
    | with_reducible assumption
    | with_reducible exact Run.refl _ _
    | with_reducible apply logEv_run
    | decide)

theorem logBoot_run (s : State) (hz : Run flds st0 s) (hw : [.out, .hostA, .hostB, .seq, .log].all flds.contains = true) : Run
    flds st0 (logBoot s) := by
  refine .lift ?_ hz hw
  unfold logBoot
  repeat' (first
    | with_reducible assumption
    | with_reducible exact Run.refl _ _
    | (extract_lets +onlyGivenNames x
       first | (apply Run.cut (x := x); rotate_left 1; intro h; clear_value x; rotate_left 1; subst x) | clear_value x)
    | with_reducible apply logEv_run
    | decide)

theorem runSlot_run (b : Bool) (s : State) (hz : Run flds st0 s) (hw : [.warden].all flds.contains = true) : Run flds st0
    (runSlot b s) := by
  refine .lift ?_ hz hw
  unfold runSlot
  repeat' (first
    | with_reducible assumption
    | with_reducible exact Run.refl _ _
    | (extract_lets +onlyGivenNames x
       first | (apply Run.cut (x := x); rotate_left 1; intro h; clear_value x; rotate_left 1; subst x) | clear_value x)
    | decide
    | (with_reducible refine Run.mk_upd rfl ?_ ?_ rfl rfl rfl rfl rfl
       rotate_left 1; exact (fun f hf => by cases f <;> first | exact absurd hf (by decide) | exact Eq.refl _)))

theorem mapDie_run (s : State) (d : Fin 4) (hz : Run flds st0 s) (hw : [.dies, .cores].all flds.contains = true) : Run flds st0
    (mapDie s d) := by
  refine .lift ?_ hz hw
  unfold mapDie
  repeat' (first
    | with_reducible assumption
    | with_reducible exact Run.refl _ _
    | (extract_lets +onlyGivenNames x
       first | (apply Run.cut (x := x); rotate_left 1; intro h; clear_value x; rotate_left 1; subst x) | clear_value x)
    | with_reducible apply modDie_run
    | with_reducible apply modCore_run
    | (with_reducible apply Run.foldl; rotate_left 1; intro e x h)
    | split
    | decide
    | (with_reducible refine Run.mk_upd rfl ?_ ?_ rfl rfl rfl rfl rfl
       rotate_left 1; exact (fun f hf => by cases f <;> first | exact absurd hf (by decide) | exact Eq.refl _)))

theorem mapStack_run (s : State) (i : Fin 32) (hz : Run flds st0 s) (hw : [.memStacks].all flds.contains = true) : Run flds st0
    (mapStack s i) := by
  refine .lift ?_ hz hw
  unfold mapStack
  repeat' (first
    | with_reducible assumption
    | with_reducible exact Run.refl _ _
    | (extract_lets +onlyGivenNames x
       first | (apply Run.cut (x := x); rotate_left 1; intro h; clear_value x; rotate_left 1; subst x) | clear_value x)
    | with_reducible apply modStack_run
    | split
    | decide
    | (with_reducible refine Run.mk_upd rfl ?_ ?_ rfl rfl rfl rfl rfl
       rotate_left 1; exact (fun f hf => by cases f <;> first | exact absurd hf (by decide) | exact Eq.refl _)))

theorem diesUp_run (s : State) (hz : Run flds st0 s) (hw : [.out, .hostA, .hostB, .seq, .log, .dies, .cores, .memStacks, .levee,
    .flash].all flds.contains = true) : Run flds st0 (diesUp s) := by
  refine .lift ?_ hz hw
  unfold diesUp
  repeat' (first
    | with_reducible assumption
    | with_reducible exact Run.refl _ _
    | (extract_lets +onlyGivenNames x
       first | (apply Run.cut (x := x); rotate_left 1; intro h; clear_value x; rotate_left 1; subst x) | clear_value x)
    | with_reducible apply modStack_run
    | with_reducible apply modDie_run
    | with_reducible apply modLevee_run
    | with_reducible apply remapAll_run
    | with_reducible apply mapDie_run
    | with_reducible apply mapStack_run
    | (with_reducible apply Run.foldl; rotate_left 1; intro e x h)
    | decide
    | (with_reducible refine Run.mk_upd rfl ?_ ?_ rfl rfl rfl rfl rfl
       rotate_left 1; exact (fun f hf => by cases f <;> first | exact absurd hf (by decide) | exact Eq.refl _)))

theorem setupFar_run (hold : Bool) (f : Fin 2) (q : FarProbe) (s : State) (hz : Run flds st0 s) (hw : [.out, .hostA, .hostB,
    .seq, .log, .mem, .far, .twin].all flds.contains = true) : Run flds st0 (setupFar hold f q s) := by
  refine .lift ?_ hz hw
  unfold setupFar
  repeat' (first
    | with_reducible assumption
    | with_reducible exact Run.refl _ _
    | (extract_lets +onlyGivenNames x
       first | (apply Run.cut (x := x); rotate_left 1; intro h; clear_value x; rotate_left 1; subst x) | clear_value x)
    | with_reducible apply modFar_run
    | with_reducible apply logEv_run
    | with_reducible apply loseArea_run
    | split
    | decide
    | (with_reducible refine Run.mk_mem rfl ?_ ?_ rfl rfl ?_ ?_ rfl
       rotate_left 1; exact (fun f hf => by cases f <;> first | exact absurd hf (by decide) | exact Eq.refl _)
       all_goals first | exact id | exact memWrite_wf | exact memClear_wf | exact memSet_foldl_wf | exact memWrite_foldl_wf | exact fun _ => rfl | skip))

theorem setupBoth_run (mask : Nat) (f0 f1 : FarProbe) (s : State) (hz : Run flds st0 s) (hw : [.out, .hostA, .hostB, .seq, .log,
    .mem, .far, .twin].all flds.contains = true) : Run flds st0 (setupBoth mask f0 f1 s) := by
  refine .lift ?_ hz hw
  unfold setupBoth
  repeat' (first
    | with_reducible assumption
    | with_reducible exact Run.refl _ _
    | (extract_lets +onlyGivenNames x
       first | (apply Run.cut (x := x); rotate_left 1; intro h; clear_value x; rotate_left 1; subst x) | clear_value x)
    | with_reducible apply setupFar_run
    | split
    | decide)

theorem powerUp_run (pins : Straps) (s : State) (hz : Run flds st0 s) (hw : [.power, .tide, .hostA, .hostB, .flash].all
    flds.contains = true) : Run flds st0 (powerUp pins s) := by
  refine .lift ?_ hz hw
  unfold powerUp
  repeat' (first
    | with_reducible assumption
    | with_reducible exact Run.refl _ _
    | (extract_lets +onlyGivenNames x
       first | (apply Run.cut (x := x); rotate_left 1; intro h; clear_value x; rotate_left 1; subst x) | clear_value x)
    | with_reducible apply modHost_run
    | with_reducible apply modPower_run
    | decide
    | (with_reducible refine Run.mk_upd rfl ?_ ?_ rfl rfl rfl rfl rfl
       rotate_left 1; exact (fun f hf => by cases f <;> first | exact absurd hf (by decide) | exact Eq.refl _)))

theorem poldersUp_run (s : State) (hz : Run flds st0 s) (hw : [.out, .power, .plls, .tide, .hostA, .hostB, .seq, .log].all
    flds.contains = true) : Run flds st0 (poldersUp s) := by
  refine .lift ?_ hz hw
  unfold poldersUp
  repeat' (first
    | with_reducible assumption
    | with_reducible exact Run.refl _ _
    | (extract_lets +onlyGivenNames x
       first | (apply Run.cut (x := x); rotate_left 1; intro h; clear_value x; rotate_left 1; subst x) | clear_value x)
    | with_reducible apply modPower_run
    | with_reducible apply pllsUp_run
    | with_reducible apply trainPort_run
    | (with_reducible apply Run.foldl; rotate_left 1; intro e x h)
    | split
    | decide
    | (with_reducible refine Run.mk_upd rfl ?_ ?_ rfl rfl rfl rfl rfl
       rotate_left 1; exact (fun f hf => by cases f <;> first | exact absurd hf (by decide) | exact Eq.refl _)))

theorem bootRom_run (s : State) (hz : Run flds st0 s) (hw : [.out, .power, .hostA, .hostB, .warden, .seq, .log, .dies, .cores,
    .memStacks, .levee, .flash].all flds.contains = true) : Run flds st0 (bootRom s) := by
  refine .lift ?_ hz hw
  unfold bootRom
  repeat' (first
    | with_reducible assumption
    | with_reducible exact Run.refl _ _
    | (extract_lets +onlyGivenNames x
       first | (apply Run.cut (x := x); rotate_left 1; intro h; clear_value x; rotate_left 1; subst x) | clear_value x)
    | with_reducible apply modHost_run
    | with_reducible apply modPower_run
    | with_reducible apply logFailed_run
    | with_reducible apply logBoot_run
    | with_reducible apply runSlot_run
    | with_reducible apply diesUp_run
    | (with_reducible apply Run.foldl; rotate_left 1; intro e x h)
    | split
    | decide
    | (with_reducible refine Run.mk_upd rfl ?_ ?_ rfl rfl rfl rfl rfl
       rotate_left 1; exact (fun f hf => by cases f <;> first | exact absurd hf (by decide) | exact Eq.refl _)))

theorem bootDone_run (f0 f1 : FarProbe) (s : State) (hz : Run flds st0 s) (hw : [.out, .power, .tide, .hostA, .hostB, .warden,
    .seq, .log, .mem, .far, .twin, .inspect].all flds.contains = true) : Run flds st0 (bootDone f0 f1 s) := by
  refine .lift ?_ hz hw
  unfold bootDone
  repeat' (first
    | with_reducible assumption
    | with_reducible exact Run.refl _ _
    | (extract_lets +onlyGivenNames x
       first | (apply Run.cut (x := x); rotate_left 1; intro h; clear_value x; rotate_left 1; subst x) | clear_value x)
    | with_reducible apply becomeRoot_run
    | with_reducible apply modPower_run
    | with_reducible apply setupBoth_run
    | split
    | decide
    | (with_reducible refine Run.mk_upd rfl ?_ ?_ rfl rfl rfl rfl rfl
       rotate_left 1; exact (fun f hf => by cases f <;> first | exact absurd hf (by decide) | exact Eq.refl _)))

/-- A power-on reset starts the log again. -/
theorem powerOff_log (s : State) : LogOk (powerOff s) := ⟨rfl, fun _ h => absurd h (Nat.not_lt_zero _)⟩

theorem powerOff_mem (s : State) (h : s.mem.wf = true) : (powerOff s).mem.wf = true := memFilter_wfFrom h

theorem powerOff_store (s : State) : (powerOff s).coreStore.wf = true := rfl

theorem interruptAll_run (s : State) (hz : Run flds st0 s) (hw : [.out, .hostA, .hostB, .i3c, .seq, .log].all flds.contains =
    true) : Run flds st0 (interruptAll s) := by
  refine .lift ?_ hz hw
  unfold interruptAll
  repeat' (first
    | with_reducible assumption
    | with_reducible exact Run.refl _ _
    | (extract_lets +onlyGivenNames x
       first | (apply Run.cut (x := x); rotate_left 1; intro h; clear_value x; rotate_left 1; subst x) | clear_value x)
    | with_reducible apply putCpl_run
    | (with_reducible apply Run.foldl; rotate_left 1; intro e x h)
    | split
    | decide)

theorem clearLevee_run (s : State) (hz : Run flds st0 s) (hw : [.out, .memStacks, .levee].all flds.contains = true) : Run flds
    st0 (clearLevee s) := by
  refine .lift ?_ hz hw
  unfold clearLevee
  repeat' (first
    | with_reducible assumption
    | with_reducible exact Run.refl _ _
    | (extract_lets +onlyGivenNames x
       first | (apply Run.cut (x := x); rotate_left 1; intro h; clear_value x; rotate_left 1; subst x) | clear_value x)
    | with_reducible apply failGuest_run
    | decide
    | (with_reducible refine Run.mk_upd rfl ?_ ?_ rfl rfl rfl rfl rfl
       rotate_left 1; exact (fun f hf => by cases f <;> first | exact absurd hf (by decide) | exact Eq.refl _)))

theorem resetBody_run (level : Nat) (s : State) (hz : Run flds st0 s) (hw : [.out, .power, .hostA, .hostB, .lock, .i3c, .peer,
    .warden, .seq, .log, .queues, .job, .exec, .cores, .coreStore, .memStacks, .mem, .levee, .twin, .inspect].all flds.contains
    = true) : Run flds st0 (resetBody level s) := by
  refine .lift ?_ hz hw
  unfold resetBody
  repeat' (first
    | with_reducible assumption
    | with_reducible exact Run.refl _ _
    | (extract_lets +onlyGivenNames x
       first | (apply Run.cut (x := x); rotate_left 1; intro h; clear_value x; rotate_left 1; subst x) | clear_value x)
    | with_reducible apply modStack_run
    | with_reducible apply setJob_run
    | with_reducible apply freeLock_run
    | with_reducible apply flushCache_run
    | with_reducible apply invalidateCache_run
    | with_reducible apply endPair_run
    | with_reducible apply clearPort_run
    | with_reducible apply interruptAll_run
    | with_reducible apply clearLevee_run
    | (with_reducible apply Run.foldl; rotate_left 1; intro e x h)
    | split
    | decide
    | (with_reducible refine Run.mk_mem rfl ?_ ?_ rfl rfl ?_ ?_ rfl
       rotate_left 1; exact (fun f hf => by cases f <;> first | exact absurd hf (by decide) | exact Eq.refl _)
       all_goals first | exact id | exact memWrite_wf | exact memClear_wf | exact memSet_foldl_wf | exact memWrite_foldl_wf | exact fun _ => rfl | skip))

theorem warmReset_run (s : State) (hz : Run flds st0 s) (hw : [.out, .power, .plls, .hostA, .hostB, .lock, .i3c, .peer, .warden,
    .seq, .log, .queues, .job, .exec, .cores, .coreStore, .memStacks, .mem, .levee, .twin, .inspect].all flds.contains = true) :
    Run flds st0 (warmReset s) := by
  refine .lift ?_ hz hw
  unfold warmReset
  repeat' (first
    | with_reducible assumption
    | with_reducible exact Run.refl _ _
    | (extract_lets +onlyGivenNames x
       first | (apply Run.cut (x := x); rotate_left 1; intro h; clear_value x; rotate_left 1; subst x) | clear_value x)
    | with_reducible apply modPower_run
    | with_reducible apply pllsUp_run
    | with_reducible apply logBoot_run
    | with_reducible apply resetBody_run
    | split
    | decide
    | (with_reducible refine Run.mk_upd rfl ?_ ?_ rfl rfl rfl rfl rfl
       rotate_left 1; exact (fun f hf => by cases f <;> first | exact absurd hf (by decide) | exact Eq.refl _)))

theorem coldReset_run (s : State) (hz : Run flds st0 s) (hw : [.out, .power, .plls, .tide, .hostA, .hostB, .lock, .i3c, .peer,
    .warden, .seq, .log, .queues, .job, .exec, .dies, .cores, .coreStore, .memStacks, .mem, .links, .levee, .fabric, .twin,
    .inspect].all flds.contains = true) : Run flds st0 (coldReset s) := by
  refine .lift ?_ hz hw
  unfold coldReset
  repeat' (first
    | with_reducible assumption
    | with_reducible exact Run.refl _ _
    | (extract_lets +onlyGivenNames x
       first | (apply Run.cut (x := x); rotate_left 1; intro h; clear_value x; rotate_left 1; subst x) | clear_value x)
    | with_reducible apply modHost_run
    | with_reducible apply modStack_run
    | with_reducible apply modDie_run
    | with_reducible apply takeDown_run
    | with_reducible apply dropLinks_run
    | with_reducible apply portDown_run
    | with_reducible apply logPort62_run
    | with_reducible apply poldersUp_run
    | with_reducible apply resetBody_run
    | (with_reducible apply Run.foldl; rotate_left 1; intro e x h)
    | decide
    | (with_reducible refine Run.mk_upd rfl ?_ ?_ rfl rfl rfl rfl rfl
       rotate_left 1; exact (fun f hf => by cases f <;> first | exact absurd hf (by decide) | exact Eq.refl _)))

theorem powerFail_run (s : State) (hz : Run flds st0 s) (hw : [.out, .power, .hostA, .hostB, .warden, .seq, .log, .job, .exec,
    .cores, .memStacks, .mem, .fabric, .twin, .flash, .inspect].all flds.contains = true) : Run flds st0 (powerFail s) := by
  refine .lift ?_ hz hw
  unfold powerFail
  repeat' (first
    | with_reducible assumption
    | with_reducible exact Run.refl _ _
    | (extract_lets +onlyGivenNames x
       first | (apply Run.cut (x := x); rotate_left 1; intro h; clear_value x; rotate_left 1; subst x) | clear_value x)
    | with_reducible apply logEv_run
    | with_reducible apply endWhere_run
    | with_reducible apply abortSlot_run
    | with_reducible apply abandonTasks_run
    | with_reducible apply failPackage_run
    | with_reducible apply flushCache_run
    | with_reducible apply modPower_run
    | with_reducible apply stopStack_run
    | (with_reducible apply Run.foldl; rotate_left 1; intro e x h)
    | split
    | decide
    | (with_reducible refine Run.mk_upd rfl ?_ ?_ rfl rfl rfl rfl rfl
       rotate_left 1; exact (fun f hf => by cases f <;> first | exact absurd hf (by decide) | exact Eq.refl _)))

theorem powerFailEnd_run (s : State) (hz : Run flds st0 s) (hw : [.power, .memStacks].all flds.contains = true) : Run flds st0
    (powerFailEnd s) := by
  refine .lift ?_ hz hw
  unfold powerFailEnd
  repeat' (first
    | with_reducible assumption
    | with_reducible exact Run.refl _ _
    | (extract_lets +onlyGivenNames x
       first | (apply Run.cut (x := x); rotate_left 1; intro h; clear_value x; rotate_left 1; subst x) | clear_value x)
    | with_reducible apply modPower_run
    | with_reducible apply startStack_run
    | (with_reducible apply Run.foldl; rotate_left 1; intro e x h)
    | split
    | decide
    | (with_reducible refine Run.mk_upd rfl ?_ ?_ rfl rfl rfl rfl rfl
       rotate_left 1; exact (fun f hf => by cases f <;> first | exact absurd hf (by decide) | exact Eq.refl _)))

end Sys2Proof.Laws
end

