-- ==== Sys2Proof/Laws/RunCommands.lean ====
section
/-! SUPPORT. What the operations may change: one lemma for each operation of Sys2Proof/Machine/Commands.lean. -/

set_option linter.unusedTactic false
set_option linter.unreachableTactic false

namespace Sys2Proof.Laws

open Machine

variable {flds : List StateField} {st0 : State}

theorem finishAt_run (a : Accepted) (status result at_ : Nat) (s : State) (hz : Run flds st0 s) (hw : [.warden].all
    flds.contains = true) : Run flds st0 (finishAt a status result at_ s) := by
  refine .lift ?_ hz hw
  unfold finishAt
  repeat' (first
    | with_reducible assumption
    | with_reducible exact Run.refl _ _
    | with_reducible apply endWhere_run
    | decide)

theorem finish_run (a : Accepted) (status result : Nat) (s : State) (hz : Run flds st0 s) (hw : [.warden].all flds.contains =
    true) : Run flds st0 (finish a status result s) := by
  refine .lift ?_ hz hw
  unfold finish
  repeat' (first
    | with_reducible assumption
    | with_reducible exact Run.refl _ _
    | with_reducible apply finishAt_run
    | decide)

theorem deliverAt_run (a : Accepted) (b : Bytes) (result at_ : Nat) (s : State) (hz : Run flds st0 s) (hw : [.out, .warden].all
    flds.contains = true) : Run flds st0 (deliverAt a b result at_ s) := by
  refine .lift ?_ hz hw
  unfold deliverAt
  repeat' (first
    | with_reducible assumption
    | with_reducible exact Run.refl _ _
    | with_reducible apply emit_run
    | with_reducible apply finishAt_run
    | with_reducible apply finish_run
    | split
    | decide
    | (with_reducible refine Run.mk_upd rfl ?_ ?_ rfl rfl rfl rfl rfl
       rotate_left 1; exact (fun f hf => by cases f <;> first | exact absurd hf (by decide) | exact Eq.refl _)))

theorem deliverAll_run (a : Accepted) (b : Bytes) (s : State) (hz : Run flds st0 s) (hw : [.out, .i3c, .warden].all
    flds.contains = true) : Run flds st0 (deliverAll a b s) := by
  refine .lift ?_ hz hw
  unfold deliverAll
  repeat' (first
    | with_reducible assumption
    | with_reducible exact Run.refl _ _
    | (extract_lets +onlyGivenNames x
       first | (apply Run.cut (x := x); rotate_left 1; intro h; clear_value x; rotate_left 1; subst x) | clear_value x)
    | with_reducible apply finish_run
    | with_reducible apply deliverAt_run
    | split
    | decide
    | (with_reducible refine Run.mk_upd rfl ?_ ?_ rfl rfl rfl rfl rfl
       rotate_left 1; exact (fun f hf => by cases f <;> first | exact absurd hf (by decide) | exact Eq.refl _)))

theorem runIdentify_run (a : Accepted) (s : State) (hz : Run flds st0 s) (hw : [.out, .tideHi, .i3c, .warden].all flds.contains
    = true) : Run flds st0 (runIdentify a s) := by
  refine .lift ?_ hz hw
  unfold runIdentify
  repeat' (first
    | with_reducible assumption
    | with_reducible exact Run.refl _ _
    | (extract_lets +onlyGivenNames x
       first | (apply Run.cut (x := x); rotate_left 1; intro h; clear_value x; rotate_left 1; subst x) | clear_value x)
    | with_reducible apply finish_run
    | with_reducible apply deliverAll_run
    | split
    | decide
    | (with_reducible refine Run.mk_upd rfl ?_ ?_ rfl rfl rfl rfl rfl
       rotate_left 1; exact (fun f hf => by cases f <;> first | exact absurd hf (by decide) | exact Eq.refl _)))

theorem runGaugeRead_run (a : Accepted) (s : State) (hz : Run flds st0 s) (hw : [.out, .i3c, .warden].all flds.contains = true)
    : Run flds st0 (runGaugeRead a s) := by
  refine .lift ?_ hz hw
  unfold runGaugeRead
  repeat' (first
    | with_reducible assumption
    | with_reducible exact Run.refl _ _
    | (extract_lets +onlyGivenNames x
       first | (apply Run.cut (x := x); rotate_left 1; intro h; clear_value x; rotate_left 1; subst x) | clear_value x)
    | with_reducible apply deliverAll_run
    | decide)

theorem runEventRead_run (a : Accepted) (s : State) (hz : Run flds st0 s) (hw : [.out, .i3c, .warden].all flds.contains = true)
    : Run flds st0 (runEventRead a s) := by
  refine .lift ?_ hz hw
  unfold runEventRead
  repeat' (first
    | with_reducible assumption
    | with_reducible exact Run.refl _ _
    | (extract_lets +onlyGivenNames x
       first | (apply Run.cut (x := x); rotate_left 1; intro h; clear_value x; rotate_left 1; subst x) | clear_value x)
    | with_reducible apply finish_run
    | with_reducible apply deliverAt_run
    | split
    | decide
    | (with_reducible refine Run.mk_upd rfl ?_ ?_ rfl rfl rfl rfl rfl
       rotate_left 1; exact (fun f hf => by cases f <;> first | exact absurd hf (by decide) | exact Eq.refl _)))

theorem withStretches_run {ps : List (Nat × Nat)} {a : Accepted} {f : State → State} {s : State} (hz : Run flds st0 s)
    (hf : ∀ x, Run flds st0 x → Run flds st0 (f x)) (hw : [.out, .hostA, .hostB, .warden, .seq, .log].all flds.contains = true) :
    Run flds st0 (withStretches ps a f s) := by
  unfold withStretches
  split
  · exact finish_run _ _ _ _ (logAccess_run _ _ _ _ hz (sub_all hw (by decide))) (sub_all hw (by decide))
  · exact hf _ hz

theorem runExport_run (a : Accepted) (s : State) (hz : Run flds st0 s) (hw : [.out, .hostA, .hostB, .i3c, .warden, .seq,
    .log].all flds.contains = true) : Run flds st0 (runExport a s) := by
  refine .lift ?_ hz hw
  unfold runExport
  repeat' (first
    | with_reducible assumption
    | with_reducible exact Run.refl _ _
    | (intro x h)
    | with_reducible apply finish_run
    | with_reducible apply deliverAll_run
    | with_reducible apply withStretches_run
    | split
    | decide
    | (with_reducible refine Run.mk_upd rfl ?_ ?_ rfl rfl rfl rfl rfl
       rotate_left 1; exact (fun f hf => by cases f <;> first | exact absurd hf (by decide) | exact Eq.refl _)))

theorem clearKeeps_run (s : State) (hz : Run flds st0 s) (hw : [.memStacks].all flds.contains = true) : Run flds st0 (clearKeeps
    s) := by
  refine .lift ?_ hz hw
  unfold clearKeeps
  repeat' (first
    | with_reducible assumption
    | with_reducible exact Run.refl _ _
    | (extract_lets +onlyGivenNames x
       first | (apply Run.cut (x := x); rotate_left 1; intro h; clear_value x; rotate_left 1; subst x) | clear_value x)
    | with_reducible apply modStack_run
    | (with_reducible apply Run.foldl; rotate_left 1; intro e x h)
    | decide
    | (with_reducible refine Run.mk_upd rfl ?_ ?_ rfl rfl rfl rfl rfl
       rotate_left 1; exact (fun f hf => by cases f <;> first | exact absurd hf (by decide) | exact Eq.refl _)))

theorem loadJob_run (im : JobImage) (a : LoadArgs) (s : State) (hz : Run flds st0 s) (hw : [.out, .hostA, .hostB, .seq, .log,
    .queues, .job, .exec, .gauges, .coreStore, .memStacks, .mem, .twin, .inspect].all flds.contains = true) : Run flds st0
    (loadJob im a s) := by
  refine .lift ?_ hz hw
  unfold loadJob
  repeat' (first
    | with_reducible assumption
    | with_reducible exact Run.refl _ _
    | (extract_lets +onlyGivenNames x
       first | (apply Run.cut (x := x); rotate_left 1; intro h; clear_value x; rotate_left 1; subst x) | clear_value x)
    | with_reducible apply setJob_run
    | with_reducible apply ptrWrite_run
    | with_reducible apply regenTensor_run
    | with_reducible apply keepLists_run
    | with_reducible apply copyPayloads_run
    | with_reducible apply clearKeeps_run
    | (with_reducible apply Run.foldl; rotate_left 1; intro e x h)
    | split
    | decide
    | (with_reducible refine Run.mk_upd rfl ?_ ?_ rfl rfl rfl rfl rfl
       rotate_left 1; exact (fun f hf => by cases f <;> first | exact absurd hf (by decide) | exact Eq.refl _)))

theorem runJobLoad_run (a : Accepted) (s : State) (hz : Run flds st0 s) (hw : [.out, .hostA, .hostB, .warden, .seq, .log,
    .queues, .job, .exec, .gauges, .coreStore, .memStacks, .mem, .links, .twin, .flash, .inspect].all flds.contains = true) :
    Run flds st0 (runJobLoad a s) := by
  refine .lift ?_ hz hw
  unfold runJobLoad
  repeat' (first
    | with_reducible assumption
    | with_reducible exact Run.refl _ _
    | (extract_lets +onlyGivenNames x
       first | (apply Run.cut (x := x); rotate_left 1; intro h; clear_value x; rotate_left 1; subst x) | clear_value x)
    | (intro x h)
    | with_reducible apply logEv_run
    | with_reducible apply finish_run
    | with_reducible apply withStretches_run
    | with_reducible apply loadJob_run
    | split
    | decide
    | (with_reducible refine Run.mk_upd rfl ?_ ?_ rfl rfl rfl rfl rfl
       rotate_left 1; exact (fun f hf => by cases f <;> first | exact absurd hf (by decide) | exact Eq.refl _)))

theorem runJobStart_run (a : Accepted) (s : State) (hz : Run flds st0 s) (hw : [.warden, .job].all flds.contains = true) : Run
    flds st0 (runJobStart a s) := by
  refine .lift ?_ hz hw
  unfold runJobStart
  repeat' (first
    | with_reducible assumption
    | with_reducible exact Run.refl _ _
    | (extract_lets +onlyGivenNames x
       first | (apply Run.cut (x := x); rotate_left 1; intro h; clear_value x; rotate_left 1; subst x) | clear_value x)
    | with_reducible apply finish_run
    | split
    | decide
    | (with_reducible refine Run.mk_upd rfl ?_ ?_ rfl rfl rfl rfl rfl
       rotate_left 1; exact (fun f hf => by cases f <;> first | exact absurd hf (by decide) | exact Eq.refl _)))

theorem runJobStop_run (a : Accepted) (s : State) (hz : Run flds st0 s) (hw : [.out, .hostA, .hostB, .warden, .seq, .log, .job,
    .exec, .cores, .memStacks, .twin].all flds.contains = true) : Run flds st0 (runJobStop a s) := by
  refine .lift ?_ hz hw
  unfold runJobStop
  repeat' (first
    | with_reducible assumption
    | with_reducible exact Run.refl _ _
    | (extract_lets +onlyGivenNames x
       first | (apply Run.cut (x := x); rotate_left 1; intro h; clear_value x; rotate_left 1; subst x) | clear_value x)
    | with_reducible apply stopAbandoned_run
    | with_reducible apply finish_run
    | split
    | decide
    | (with_reducible refine Run.mk_upd rfl ?_ ?_ rfl rfl rfl rfl rfl
       rotate_left 1; exact (fun f hf => by cases f <;> first | exact absurd hf (by decide) | exact Eq.refl _)))

theorem runJobUnload_run (a : Accepted) (s : State) (hz : Run flds st0 s) (hw : [.out, .hostA, .hostB, .warden, .seq, .log,
    .queues, .job, .exec, .cores, .memStacks, .inspect].all flds.contains = true) : Run flds st0 (runJobUnload a s) := by
  refine .lift ?_ hz hw
  unfold runJobUnload
  repeat' (first
    | with_reducible assumption
    | with_reducible exact Run.refl _ _
    | (extract_lets +onlyGivenNames x
       first | (apply Run.cut (x := x); rotate_left 1; intro h; clear_value x; rotate_left 1; subst x) | clear_value x)
    | with_reducible apply setJob_run
    | with_reducible apply abandonTasks_run
    | with_reducible apply finish_run
    | decide
    | (with_reducible refine Run.mk_upd rfl ?_ ?_ rfl rfl rfl rfl rfl
       rotate_left 1; exact (fun f hf => by cases f <;> first | exact absurd hf (by decide) | exact Eq.refl _)))

theorem runCkptStop_run (a : Accepted) (s : State) (hz : Run flds st0 s) (hw : [.warden].all flds.contains = true) : Run flds
    st0 (runCkptStop a s) := by
  refine .lift ?_ hz hw
  unfold runCkptStop
  repeat' (first
    | with_reducible assumption
    | with_reducible exact Run.refl _ _
    | with_reducible apply finish_run
    | split
    | decide)

theorem restoreFrom_run (a : Accepted) (b1 b2 : Bytes) (s : State) (hz : Run flds st0 s) (hw : [.out, .hostA, .hostB, .warden,
    .seq, .log, .job, .exec, .gauges, .coreStore, .memStacks, .mem, .twin].all flds.contains = true) : Run flds st0 (restoreFrom
    a b1 b2 s) := by
  refine .lift ?_ hz hw
  unfold restoreFrom
  repeat' (first
    | with_reducible assumption
    | with_reducible exact Run.refl _ _
    | (extract_lets +onlyGivenNames x
       first | (apply Run.cut (x := x); rotate_left 1; intro h; clear_value x; rotate_left 1; subst x) | clear_value x)
    | (intro x h)
    | with_reducible apply applyRecord_run
    | with_reducible apply finish_run
    | with_reducible apply withStretches_run
    | split
    | decide
    | (with_reducible refine Run.mk_upd rfl ?_ ?_ rfl rfl rfl rfl rfl
       rotate_left 1; exact (fun f hf => by cases f <;> first | exact absurd hf (by decide) | exact Eq.refl _)))

theorem runRestore_run (a : Accepted) (s : State) (hz : Run flds st0 s) (hw : [.out, .hostA, .hostB, .warden, .seq, .log, .job,
    .exec, .gauges, .coreStore, .memStacks, .mem, .fabric, .twin, .inspect].all flds.contains = true) : Run flds st0 (runRestore
    a s) := by
  refine .lift ?_ hz hw
  unfold runRestore
  repeat' (first
    | with_reducible assumption
    | with_reducible exact Run.refl _ _
    | (extract_lets +onlyGivenNames x
       first | (apply Run.cut (x := x); rotate_left 1; intro h; clear_value x; rotate_left 1; subst x) | clear_value x)
    | (intro x h)
    | with_reducible apply peerToPhys_run
    | with_reducible apply abortSlot_run
    | with_reducible apply finish_run
    | with_reducible apply withStretches_run
    | with_reducible apply restoreFrom_run
    | split
    | decide
    | (with_reducible refine Run.mk_upd rfl ?_ ?_ rfl rfl rfl rfl rfl
       rotate_left 1; exact (fun f hf => by cases f <;> first | exact absurd hf (by decide) | exact Eq.refl _)))

theorem runUnpair_run (a : Accepted) (s : State) (hz : Run flds st0 s) (hw : [.out, .warden, .fabric, .twin].all flds.contains =
    true) : Run flds st0 (runUnpair a s) := by
  refine .lift ?_ hz hw
  unfold runUnpair
  repeat' (first
    | with_reducible assumption
    | with_reducible exact Run.refl _ _
    | with_reducible apply peerToPhys_run
    | with_reducible apply endPair_run
    | with_reducible apply finish_run
    | split
    | decide
    | (with_reducible refine Run.mk_upd rfl ?_ ?_ rfl rfl rfl rfl rfl
       rotate_left 1; exact (fun f hf => by cases f <;> first | exact absurd hf (by decide) | exact Eq.refl _)))

theorem runMemPolicy_run (a : Accepted) (s : State) (hz : Run flds st0 s) (hw : [.warden, .memStacks, .mem, .flash].all
    flds.contains = true) : Run flds st0 (runMemPolicy a s) := by
  refine .lift ?_ hz hw
  unfold runMemPolicy
  repeat' (first
    | with_reducible assumption
    | with_reducible exact Run.refl _ _
    | (extract_lets +onlyGivenNames x
       first | (apply Run.cut (x := x); rotate_left 1; intro h; clear_value x; rotate_left 1; subst x) | clear_value x)
    | with_reducible apply modStack_run
    | with_reducible apply ledgerAppend_run
    | with_reducible apply zeroStack_run
    | with_reducible apply finish_run
    | (with_reducible apply Run.foldl; rotate_left 1; intro e x h)
    | split
    | decide
    | (with_reducible refine Run.mk_upd rfl ?_ ?_ rfl rfl rfl rfl rfl
       rotate_left 1; exact (fun f hf => by cases f <;> first | exact absurd hf (by decide) | exact Eq.refl _)))

theorem runFarSetup_run (a : Accepted) (s : State) (hz : Run flds st0 s) (hw : [.out, .hostA, .hostB, .warden, .seq, .log, .mem,
    .far, .twin].all flds.contains = true) : Run flds st0 (runFarSetup a s) := by
  refine .lift ?_ hz hw
  unfold runFarSetup
  repeat' (first
    | with_reducible assumption
    | with_reducible exact Run.refl _ _
    | with_reducible apply setupBoth_run
    | with_reducible apply finish_run
    | split
    | decide
    | (with_reducible refine Run.mk_upd rfl ?_ ?_ rfl rfl rfl rfl rfl
       rotate_left 1; exact (fun f hf => by cases f <;> first | exact absurd hf (by decide) | exact Eq.refl _)))

theorem runWindow_run (a : Accepted) (s : State) (hz : Run flds st0 s) (hw : [.warden, .levee].all flds.contains = true) : Run
    flds st0 (runWindow a s) := by
  refine .lift ?_ hz hw
  unfold runWindow
  repeat' (first
    | with_reducible assumption
    | with_reducible exact Run.refl _ _
    | with_reducible apply setWindow_run
    | with_reducible apply finish_run
    | split
    | decide)

theorem holdGuest_run (release : Bool) (s : State) (hz : Run flds st0 s) (hw : [.out, .hostA, .hostB, .seq, .log, .memStacks,
    .links, .levee].all flds.contains = true) : Run flds st0 (holdGuest release s) := by
  refine .lift ?_ hz hw
  unfold holdGuest
  repeat' (first
    | with_reducible assumption
    | with_reducible exact Run.refl _ _
    | (extract_lets +onlyGivenNames x
       first | (apply Run.cut (x := x); rotate_left 1; intro h; clear_value x; rotate_left 1; subst x) | clear_value x)
    | with_reducible apply failGuest_run
    | with_reducible apply dropLinks_run
    | with_reducible apply modLevee_run
    | with_reducible apply quarantine_run
    | decide
    | (with_reducible refine Run.mk_upd rfl ?_ ?_ rfl rfl rfl rfl rfl
       rotate_left 1; exact (fun f hf => by cases f <;> first | exact absurd hf (by decide) | exact Eq.refl _)))

theorem runGuestReset_run (a : Accepted) (s : State) (hz : Run flds st0 s) (hw : [.out, .hostA, .hostB, .warden, .seq, .log,
    .memStacks, .links, .levee].all flds.contains = true) : Run flds st0 (runGuestReset a s) := by
  refine .lift ?_ hz hw
  unfold runGuestReset
  repeat' (first
    | with_reducible assumption
    | with_reducible exact Run.refl _ _
    | with_reducible apply finishAt_run
    | with_reducible apply finish_run
    | with_reducible apply holdGuest_run
    | split
    | decide)

theorem holdDie_run (d : Fin 4) (s : State) (hz : Run flds st0 s) (hw : [.out, .dies, .cores, .coreStore, .memStacks,
    .links].all flds.contains = true) : Run flds st0 (holdDie d s) := by
  refine .lift ?_ hz hw
  unfold holdDie
  repeat' (first
    | with_reducible assumption
    | with_reducible exact Run.refl _ _
    | (extract_lets +onlyGivenNames x
       first | (apply Run.cut (x := x); rotate_left 1; intro h; clear_value x; rotate_left 1; subst x) | clear_value x)
    | with_reducible apply modStack_run
    | with_reducible apply modDie_run
    | with_reducible apply dropWatches_run
    | with_reducible apply zeroStores_run
    | with_reducible apply dropLinks_run
    | (with_reducible apply Run.foldl; rotate_left 1; intro e x h)
    | split
    | decide
    | (with_reducible refine Run.mk_upd rfl ?_ ?_ rfl rfl rfl rfl rfl
       rotate_left 1; exact (fun f hf => by cases f <;> first | exact absurd hf (by decide) | exact Eq.refl _)))

theorem holdStack_run (i : Fin 32) (s : State) (hz : Run flds st0 s) (hw : [.out, .memStacks, .mem, .links].all flds.contains =
    true) : Run flds st0 (holdStack i s) := by
  refine .lift ?_ hz hw
  unfold holdStack
  repeat' (first
    | with_reducible assumption
    | with_reducible exact Run.refl _ _
    | (extract_lets +onlyGivenNames x
       first | (apply Run.cut (x := x); rotate_left 1; intro h; clear_value x; rotate_left 1; subst x) | clear_value x)
    | with_reducible apply modStack_run
    | with_reducible apply flushCache_run
    | with_reducible apply invalidateCache_run
    | with_reducible apply dropLinks_run
    | decide
    | (with_reducible refine Run.mk_upd rfl ?_ ?_ rfl rfl rfl rfl rfl
       rotate_left 1; exact (fun f hf => by cases f <;> first | exact absurd hf (by decide) | exact Eq.refl _)))

theorem runUnitReset_run (a : Accepted) (s : State) (hz : Run flds st0 s) (hw : [.out, .hostA, .hostB, .warden, .seq, .log,
    .dies, .cores, .coreStore, .memStacks, .mem, .links, .levee].all flds.contains = true) : Run flds st0 (runUnitReset a s) :=
    by
  refine .lift ?_ hz hw
  unfold runUnitReset
  repeat' (first
    | with_reducible assumption
    | with_reducible exact Run.refl _ _
    | (extract_lets +onlyGivenNames x
       first | (apply Run.cut (x := x); rotate_left 1; intro h; clear_value x; rotate_left 1; subst x) | clear_value x)
    | with_reducible apply finishAt_run
    | with_reducible apply finish_run
    | with_reducible apply holdGuest_run
    | with_reducible apply holdDie_run
    | with_reducible apply holdStack_run
    | split
    | decide
    | (with_reducible refine Run.mk_upd rfl ?_ ?_ rfl rfl rfl rfl rfl
       rotate_left 1; exact (fun f hf => by cases f <;> first | exact absurd hf (by decide) | exact Eq.refl _)))

theorem releaseUnits_run (s : State) (hz : Run flds st0 s) (hw : [.out, .hostA, .hostB, .seq, .log, .dies, .memStacks, .links,
    .levee].all flds.contains = true) : Run flds st0 (releaseUnits s) := by
  refine .lift ?_ hz hw
  unfold releaseUnits
  repeat' (first
    | with_reducible assumption
    | with_reducible exact Run.refl _ _
    | (extract_lets +onlyGivenNames x
       first | (apply Run.cut (x := x); rotate_left 1; intro h; clear_value x; rotate_left 1; subst x) | clear_value x)
    | with_reducible apply modStack_run
    | with_reducible apply modDie_run
    | with_reducible apply modLevee_run
    | with_reducible apply quarantine_run
    | (with_reducible apply Run.foldl; rotate_left 1; intro e x h)
    | split
    | decide
    | (with_reducible refine Run.mk_upd rfl ?_ ?_ rfl rfl rfl rfl rfl
       rotate_left 1; exact (fun f hf => by cases f <;> first | exact absurd hf (by decide) | exact Eq.refl _)))

theorem runClockMode_run (a : Accepted) (s : State) (hz : Run flds st0 s) (hw : [.power, .plls, .warden].all flds.contains =
    true) : Run flds st0 (runClockMode a s) := by
  refine .lift ?_ hz hw
  unfold runClockMode
  repeat' (first
    | with_reducible assumption
    | with_reducible exact Run.refl _ _
    | (extract_lets +onlyGivenNames x
       first | (apply Run.cut (x := x); rotate_left 1; intro h; clear_value x; rotate_left 1; subst x) | clear_value x)
    | with_reducible apply modPower_run
    | with_reducible apply modPll_run
    | with_reducible apply finish_run
    | (with_reducible apply Run.foldl; rotate_left 1; intro e x h)
    | split
    | decide
    | (with_reducible refine Run.mk_upd rfl ?_ ?_ rfl rfl rfl rfl rfl
       rotate_left 1; exact (fun f hf => by cases f <;> first | exact absurd hf (by decide) | exact Eq.refl _)))

theorem runGuard_run (a : Accepted) (s : State) (hz : Run flds st0 s) (hw : [.warden].all flds.contains = true) : Run flds st0
    (runGuard a s) := by
  refine .lift ?_ hz hw
  unfold runGuard
  repeat' (first
    | with_reducible assumption
    | with_reducible exact Run.refl _ _
    | (extract_lets +onlyGivenNames x
       first | (apply Run.cut (x := x); rotate_left 1; intro h; clear_value x; rotate_left 1; subst x) | clear_value x)
    | with_reducible apply finish_run
    | split
    | decide
    | (with_reducible refine Run.mk_upd rfl ?_ ?_ rfl rfl rfl rfl rfl
       rotate_left 1; exact (fun f hf => by cases f <;> first | exact absurd hf (by decide) | exact Eq.refl _)))

theorem sampleMargin_run (ws : List WireResult) (s : State) (x : Fin 41 × Bool) (hz : Run flds st0 s) (hw : [.flash].all
    flds.contains = true) : Run flds st0 (sampleMargin ws s x) := by
  refine .lift ?_ hz hw
  unfold sampleMargin
  repeat' (first
    | with_reducible assumption
    | with_reducible exact Run.refl _ _
    | (extract_lets +onlyGivenNames x
       first | (apply Run.cut (x := x); rotate_left 1; intro h; clear_value x; rotate_left 1; subst x) | clear_value x)
    | with_reducible apply sample_run
    | (with_reducible apply Run.foldl; rotate_left 1; intro e x h)
    | split
    | decide)

theorem runLinkTest_run (a : Accepted) (s : State) (hz : Run flds st0 s) (hw : [.out, .warden, .flash].all flds.contains = true)
    : Run flds st0 (runLinkTest a s) := by
  refine .lift ?_ hz hw
  unfold runLinkTest
  repeat' (first
    | with_reducible assumption
    | with_reducible exact Run.refl _ _
    | (extract_lets +onlyGivenNames x
       first | (apply Run.cut (x := x); rotate_left 1; intro h; clear_value x; rotate_left 1; subst x) | clear_value x)
    | with_reducible apply finish_run
    | with_reducible apply deliverAt_run
    | with_reducible apply sampleMargin_run
    | (with_reducible apply Run.foldl; rotate_left 1; intro e x h)
    | split
    | decide
    | (with_reducible refine Run.mk_upd rfl ?_ ?_ rfl rfl rfl rfl rfl
       rotate_left 1; exact (fun f hf => by cases f <;> first | exact absurd hf (by decide) | exact Eq.refl _)))

theorem runScan_run (a : Accepted) (s : State) (hz : Run flds st0 s) (hw : [.out, .warden].all flds.contains = true) :
    Run flds st0 (runScan a s) := by
  unfold runScan
  extract_lets d
  split
  · exact finish_run _ _ _ _ hz (sub_all hw (by decide))
  · split
    · exact deliverAt_run _ _ _ _ _ hz hw
    · exact finish_run _ _ _ _ hz (sub_all hw (by decide))

theorem runFwWrite_run (a : Accepted) (s : State) (hz : Run flds st0 s) (hw : [.out, .hostA, .hostB, .warden, .seq, .log,
    .flash].all flds.contains = true) : Run flds st0 (runFwWrite a s) := by
  refine .lift ?_ hz hw
  unfold runFwWrite
  repeat' (first
    | with_reducible assumption
    | with_reducible exact Run.refl _ _
    | (extract_lets +onlyGivenNames x
       first | (apply Run.cut (x := x); rotate_left 1; intro h; clear_value x; rotate_left 1; subst x) | clear_value x)
    | with_reducible apply logEv_run
    | with_reducible apply finish_run
    | split
    | decide
    | (with_reducible refine Run.mk_upd rfl ?_ ?_ rfl rfl rfl rfl rfl
       rotate_left 1; exact (fun f hf => by cases f <;> first | exact absurd hf (by decide) | exact Eq.refl _)))

theorem runFwActivate_run (a : Accepted) (s : State) (hz : Run flds st0 s) (hw : [.out, .hostA, .hostB, .warden, .seq, .log,
    .flash].all flds.contains = true) : Run flds st0 (runFwActivate a s) := by
  refine .lift ?_ hz hw
  unfold runFwActivate
  repeat' (first
    | with_reducible assumption
    | with_reducible exact Run.refl _ _
    | (extract_lets +onlyGivenNames x
       first | (apply Run.cut (x := x); rotate_left 1; intro h; clear_value x; rotate_left 1; subst x) | clear_value x)
    | with_reducible apply logEv_run
    | with_reducible apply finish_run
    | split
    | decide
    | (with_reducible refine Run.mk_upd rfl ?_ ?_ rfl rfl rfl rfl rfl
       rotate_left 1; exact (fun f hf => by cases f <;> first | exact absurd hf (by decide) | exact Eq.refl _)))

theorem runOp_run (a : Accepted) (s : State) (hz : Run flds st0 s) (hw : [.out, .power, .plls, .tideHi, .hostA, .hostB, .i3c,
    .warden, .seq, .log, .queues, .job, .exec, .gauges, .dies, .cores, .coreStore, .memStacks, .mem, .far, .links, .levee,
    .fabric, .twin, .flash, .inspect].all flds.contains = true) : Run flds st0 (runOp a s) := by
  refine .lift ?_ hz hw
  unfold runOp
  repeat' (first
    | with_reducible assumption
    | with_reducible exact Run.refl _ _
    | (extract_lets +onlyGivenNames x
       first | (apply Run.cut (x := x); rotate_left 1; intro h; clear_value x; rotate_left 1; subst x) | clear_value x)
    | with_reducible apply startPair_run
    | with_reducible apply modPower_run
    | with_reducible apply finish_run
    | with_reducible apply deliverAll_run
    | with_reducible apply runIdentify_run
    | with_reducible apply runGaugeRead_run
    | with_reducible apply runEventRead_run
    | with_reducible apply runExport_run
    | with_reducible apply runJobLoad_run
    | with_reducible apply runJobStart_run
    | with_reducible apply runJobStop_run
    | with_reducible apply runJobUnload_run
    | with_reducible apply runCkptStop_run
    | with_reducible apply runRestore_run
    | with_reducible apply runUnpair_run
    | with_reducible apply runMemPolicy_run
    | with_reducible apply runFarSetup_run
    | with_reducible apply runWindow_run
    | with_reducible apply runGuestReset_run
    | with_reducible apply runUnitReset_run
    | with_reducible apply runClockMode_run
    | with_reducible apply runGuard_run
    | with_reducible apply runLinkTest_run
    | with_reducible apply runScan_run
    | with_reducible apply runFwWrite_run
    | with_reducible apply runFwActivate_run
    | split
    | decide
    | (with_reducible refine Run.mk_upd rfl ?_ ?_ rfl rfl rfl rfl rfl
       rotate_left 1; exact (fun f hf => by cases f <;> first | exact absurd hf (by decide) | exact Eq.refl _)))

theorem startOp_run (a : Accepted) (s : State) (hz : Run flds st0 s) (hw : [.out, .power, .plls, .tideHi, .hostA, .hostB, .i3c,
    .warden, .seq, .log, .queues, .job, .exec, .gauges, .dies, .cores, .coreStore, .memStacks, .mem, .far, .links, .levee,
    .fabric, .twin, .flash, .inspect].all flds.contains = true) : Run flds st0 (startOp a s) := by
  refine .lift ?_ hz hw
  unfold startOp
  repeat' (first
    | with_reducible assumption
    | with_reducible exact Run.refl _ _
    | (extract_lets +onlyGivenNames x
       first | (apply Run.cut (x := x); rotate_left 1; intro h; clear_value x; rotate_left 1; subst x) | clear_value x)
    | with_reducible apply runOp_run
    | decide
    | (with_reducible refine Run.mk_upd rfl ?_ ?_ rfl rfl rfl rfl rfl
       rotate_left 1; exact (fun f hf => by cases f <;> first | exact absurd hf (by decide) | exact Eq.refl _)))

theorem startNext_run (s : State) (hz : Run flds st0 s) (hw : [.out, .power, .plls, .tideHi, .hostA, .hostB, .i3c, .warden,
    .seq, .log, .queues, .job, .exec, .gauges, .dies, .cores, .coreStore, .memStacks, .mem, .far, .links, .levee, .fabric,
    .twin, .flash, .inspect].all flds.contains = true) : Run flds st0 (startNext s) := by
  refine .lift ?_ hz hw
  unfold startNext
  repeat' (first
    | with_reducible assumption
    | with_reducible exact Run.refl _ _
    | with_reducible apply startOp_run
    | split
    | decide
    | (with_reducible refine Run.mk_upd rfl ?_ ?_ rfl rfl rfl rfl rfl
       rotate_left 1; exact (fun f hf => by cases f <;> first | exact absurd hf (by decide) | exact Eq.refl _)))

end Sys2Proof.Laws
end

