-- ==== Sys2Proof/Laws/RunMailbox.lean ====
section
/-! SUPPORT. What the operations may change: one lemma for each operation of Sys2Proof/Machine/Mailbox.lean. -/

set_option linter.unusedTactic false
set_option linter.unreachableTactic false

namespace Sys2Proof.Laws

open Machine

variable {flds : List StateField} {st0 : State}

theorem popEntry_run (mb : Mbox) (s : State) (hz : Run flds st0 s) (hw : [.hostA, .hostB, .i3c].all flds.contains = true) : Run
    flds st0 (popEntry mb s) := by
  refine .lift ?_ hz hw
  unfold popEntry
  repeat' (first
    | with_reducible assumption
    | with_reducible exact Run.refl _ _
    | (extract_lets +onlyGivenNames x
       first | (apply Run.cut (x := x); rotate_left 1; intro h; clear_value x; rotate_left 1; subst x) | clear_value x)
    | with_reducible apply modHost_run
    | split
    | decide
    | (with_reducible refine Run.mk_upd rfl ?_ ?_ rfl rfl rfl rfl rfl
       rotate_left 1; exact (fun f hf => by cases f <;> first | exact absurd hf (by decide) | exact Eq.refl _)))

theorem acceptEffect_run (e : Bytes) (s : State) (hz : Run flds st0 s) (hw : [.out, .power, .hostA, .hostB, .warden, .seq, .log,
    .job, .exec, .cores, .memStacks, .levee, .fabric, .twin, .inspect].all flds.contains = true) : Run flds st0 (acceptEffect e
    s) := by
  refine .lift ?_ hz hw
  unfold acceptEffect
  repeat' (first
    | with_reducible assumption
    | with_reducible exact Run.refl _ _
    | (extract_lets +onlyGivenNames x
       first | (apply Run.cut (x := x); rotate_left 1; intro h; clear_value x; rotate_left 1; subst x) | clear_value x)
    | with_reducible apply failPackage_run
    | with_reducible apply modLevee_run
    | with_reducible apply modTwin_run
    | with_reducible apply schedule_run
    | with_reducible apply stopAbandoned_run
    | with_reducible apply modPower_run
    | split
    | decide
    | (with_reducible refine Run.mk_upd rfl ?_ ?_ rfl rfl rfl rfl rfl
       rotate_left 1; exact (fun f hf => by cases f <;> first | exact absurd hf (by decide) | exact Eq.refl _)))

theorem accept_run (mb : Mbox) (e : Bytes) (ext : EnvAnswer) (s : State) (hz : Run flds st0 s) (hw : [.out, .power, .plls,
    .tideHi, .hostA, .hostB, .lock, .i3c, .warden, .seq, .log, .queues, .job, .exec, .gauges, .dies, .cores, .coreStore,
    .memStacks, .mem, .far, .links, .levee, .fabric, .twin, .flash, .inspect].all flds.contains = true) : Run flds st0 (accept
    mb e ext s) := by
  refine .lift ?_ hz hw
  unfold accept
  repeat' (first
    | with_reducible assumption
    | with_reducible exact Run.refl _ _
    | (extract_lets +onlyGivenNames x
       first | (apply Run.cut (x := x); rotate_left 1; intro h; clear_value x; rotate_left 1; subst x) | clear_value x)
    | with_reducible apply putCpl_run
    | with_reducible apply restartLease_run
    | with_reducible apply startOp_run
    | with_reducible apply startNext_run
    | with_reducible apply acceptEffect_run
    | split
    | decide
    | (with_reducible refine Run.mk_upd rfl ?_ ?_ rfl rfl rfl rfl rfl
       rotate_left 1; exact (fun f hf => by cases f <;> first | exact absurd hf (by decide) | exact Eq.refl _)))

theorem takeEntry_run (mb : Mbox) (e : Bytes) (ext : EnvAnswer) (s : State) (hz : Run flds st0 s) (hw : [.out, .power, .plls,
    .tideHi, .hostA, .hostB, .lock, .i3c, .warden, .seq, .log, .queues, .job, .exec, .gauges, .dies, .cores, .coreStore,
    .memStacks, .mem, .far, .links, .levee, .fabric, .twin, .flash, .inspect].all flds.contains = true) : Run flds st0
    (takeEntry mb e ext s) := by
  refine .lift ?_ hz hw
  unfold takeEntry
  repeat' (first
    | with_reducible assumption
    | with_reducible exact Run.refl _ _
    | (extract_lets +onlyGivenNames x
       first | (apply Run.cut (x := x); rotate_left 1; intro h; clear_value x; rotate_left 1; subst x) | clear_value x)
    | with_reducible apply refuse_run
    | with_reducible apply popEntry_run
    | with_reducible apply accept_run
    | split
    | decide)

/-- An entry whose opcode is no command's is refused with status 2 (R267). -/
theorem refusalOf_unknown {mb : Mbox} {e : Bytes} {s : State} (h : (cmdRow (entOp e)).isNone = true) : refusalOf mb e s = 2 := by
  unfold refusalOf
  extract_lets op
  rw [show cmdRow op = none from Option.isNone_iff_eq_none.mp h]

theorem takeEntry_unknown {mb : Mbox} {e : Bytes} {x : EnvAnswer} {s : State} (h : (cmdRow (entOp e)).isNone = true) :
    takeEntry mb e x s = refuse mb e 2 (popEntry mb s) := by
  unfold takeEntry
  rw [refusalOf_unknown h]
  rfl

theorem drainBad_run (mb : Mbox) (n : Nat) (s : State) (hz : Run flds st0 s)
    (hw : [.out, .hostA, .hostB, .i3c, .seq, .log].all flds.contains = true) : Run flds st0 (drainBad mb n s) := by
  induction n generalizing s with
  | zero => exact hz
  | succ n ih =>
    unfold drainBad
    split
    · split
      · rename_i h
        rw [takeEntry_unknown (by simp only [Bool.and_eq_true] at h; exact h.1)]
        exact ih _ (refuse_run _ _ _ _ (popEntry_run _ _ hz (sub_all hw (by decide))) (sub_all hw (by decide)))
      · exact hz
    · exact hz

theorem drain_run (mb : Mbox) (s : State) (hz : Run flds st0 s) (hw : [.out, .hostA, .hostB, .i3c, .seq, .log].all flds.contains
    = true) : Run flds st0 (drain mb s) := by
  refine .lift ?_ hz hw
  unfold drain
  repeat' (first
    | with_reducible assumption
    | with_reducible exact Run.refl _ _
    | with_reducible apply drainBad_run
    | decide)

theorem fromMailbox_run (op : Nat) (mb : Mbox) (ext : EnvAnswer) (s : State) (hz : Run flds st0 s) (hw : [.out, .power, .plls,
    .tideHi, .hostA, .hostB, .lock, .i3c, .warden, .seq, .log, .queues, .job, .exec, .gauges, .dies, .cores, .coreStore,
    .memStacks, .mem, .far, .links, .levee, .fabric, .twin, .flash, .inspect].all flds.contains = true) : Run flds st0
    (fromMailbox op mb ext s) := by
  refine .lift ?_ hz hw
  unfold fromMailbox
  repeat' (first
    | with_reducible assumption
    | with_reducible exact Run.refl _ _
    | (extract_lets +onlyGivenNames x
       first | (apply Run.cut (x := x); rotate_left 1; intro h; clear_value x; rotate_left 1; subst x) | clear_value x)
    | with_reducible apply takeEntry_run
    | with_reducible apply drain_run
    | split
    | decide
    | (with_reducible refine Run.mk_upd rfl ?_ ?_ rfl rfl rfl rfl rfl
       rotate_left 1; exact (fun f hf => by cases f <;> first | exact absurd hf (by decide) | exact Eq.refl _)))

theorem afterDone_run (a : Accepted) (s : State) (hz : Run flds st0 s) (hw : [.out, .hostA, .hostB, .seq, .log, .dies,
    .memStacks, .links, .levee].all flds.contains = true) : Run flds st0 (afterDone a s) := by
  refine .lift ?_ hz hw
  unfold afterDone
  repeat' (first
    | with_reducible assumption
    | with_reducible exact Run.refl _ _
    | with_reducible apply releaseUnits_run
    | split
    | decide)

theorem completeOne_run (a : Accepted) (d : Done) (s : State) (hz : Run flds st0 s) (hw : [.out, .power, .plls, .tideHi, .hostA,
    .hostB, .lock, .i3c, .warden, .seq, .log, .queues, .job, .exec, .gauges, .dies, .cores, .coreStore, .memStacks, .mem, .far,
    .links, .levee, .fabric, .twin, .flash, .inspect].all flds.contains = true) : Run flds st0 (completeOne a d s) := by
  refine .lift ?_ hz hw
  unfold completeOne
  repeat' (first
    | with_reducible assumption
    | with_reducible exact Run.refl _ _
    | (extract_lets +onlyGivenNames x
       first | (apply Run.cut (x := x); rotate_left 1; intro h; clear_value x; rotate_left 1; subst x) | clear_value x)
    | with_reducible apply putCpl_run
    | with_reducible apply tryFinish_run
    | with_reducible apply startNext_run
    | with_reducible apply drain_run
    | with_reducible apply afterDone_run
    | decide
    | (with_reducible refine Run.mk_upd rfl ?_ ?_ rfl rfl rfl rfl rfl
       rotate_left 1; exact (fun f hf => by cases f <;> first | exact absurd hf (by decide) | exact Eq.refl _)))

end Sys2Proof.Laws
end

