-- ==== Sys2Proof/Laws/State.lean ====
section
/-! SUPPORT. One lemma for each field and each named update of the state: what the field holds afterwards. -/

namespace Sys2Proof.Laws

open Machine

/-! ### modFab -/

@[simp] theorem modFab_pending (p : FPort) (f : FabPort → FabPort) (s : State) : (modFab p f s).pending = s.pending := rfl

@[simp] theorem modFab_now (p : FPort) (f : FabPort → FabPort) (s : State) : (modFab p f s).now = s.now := rfl

@[simp] theorem modFab_freeCtr (p : FPort) (f : FabPort → FabPort) (s : State) : (modFab p f s).freeCtr = s.freeCtr := rfl

@[simp] theorem modFab_out (p : FPort) (f : FabPort → FabPort) (s : State) : (modFab p f s).out = s.out := rfl

@[simp] theorem modFab_power (p : FPort) (f : FabPort → FabPort) (s : State) : (modFab p f s).power = s.power := rfl

@[simp] theorem modFab_plls (p : FPort) (f : FabPort → FabPort) (s : State) : (modFab p f s).plls = s.plls := rfl

@[simp] theorem modFab_tide (p : FPort) (f : FabPort → FabPort) (s : State) : (modFab p f s).tide = s.tide := rfl

@[simp] theorem modFab_tideHi (p : FPort) (f : FabPort → FabPort) (s : State) : (modFab p f s).tideHi = s.tideHi := rfl

@[simp] theorem modFab_hostA (p : FPort) (f : FabPort → FabPort) (s : State) : (modFab p f s).hostA = s.hostA := rfl

@[simp] theorem modFab_hostB (p : FPort) (f : FabPort → FabPort) (s : State) : (modFab p f s).hostB = s.hostB := rfl

@[simp] theorem modFab_lock (p : FPort) (f : FabPort → FabPort) (s : State) : (modFab p f s).lock = s.lock := rfl

@[simp] theorem modFab_i3c (p : FPort) (f : FabPort → FabPort) (s : State) : (modFab p f s).i3c = s.i3c := rfl

@[simp] theorem modFab_peer (p : FPort) (f : FabPort → FabPort) (s : State) : (modFab p f s).peer = s.peer := rfl

@[simp] theorem modFab_warden (p : FPort) (f : FabPort → FabPort) (s : State) : (modFab p f s).warden = s.warden := rfl

@[simp] theorem modFab_seq (p : FPort) (f : FabPort → FabPort) (s : State) : (modFab p f s).seq = s.seq := rfl

@[simp] theorem modFab_log (p : FPort) (f : FabPort → FabPort) (s : State) : (modFab p f s).log = s.log := rfl

@[simp] theorem modFab_queues (p : FPort) (f : FabPort → FabPort) (s : State) : (modFab p f s).queues = s.queues := rfl

@[simp] theorem modFab_job (p : FPort) (f : FabPort → FabPort) (s : State) : (modFab p f s).job = s.job := rfl

@[simp] theorem modFab_exec (p : FPort) (f : FabPort → FabPort) (s : State) : (modFab p f s).exec = s.exec := rfl

@[simp] theorem modFab_gauges (p : FPort) (f : FabPort → FabPort) (s : State) : (modFab p f s).gauges = s.gauges := rfl

@[simp] theorem modFab_dies (p : FPort) (f : FabPort → FabPort) (s : State) : (modFab p f s).dies = s.dies := rfl

@[simp] theorem modFab_cores (p : FPort) (f : FabPort → FabPort) (s : State) : (modFab p f s).cores = s.cores := rfl

@[simp] theorem modFab_coreStore (p : FPort) (f : FabPort → FabPort) (s : State) : (modFab p f s).coreStore = s.coreStore := rfl

@[simp] theorem modFab_memStacks (p : FPort) (f : FabPort → FabPort) (s : State) : (modFab p f s).memStacks = s.memStacks := rfl

@[simp] theorem modFab_mem (p : FPort) (f : FabPort → FabPort) (s : State) : (modFab p f s).mem = s.mem := rfl

@[simp] theorem modFab_far (p : FPort) (f : FabPort → FabPort) (s : State) : (modFab p f s).far = s.far := rfl

@[simp] theorem modFab_links (p : FPort) (f : FabPort → FabPort) (s : State) : (modFab p f s).links = s.links := rfl

@[simp] theorem modFab_levee (p : FPort) (f : FabPort → FabPort) (s : State) : (modFab p f s).levee = s.levee := rfl

@[simp] theorem modFab_fabric (p : FPort) (f : FabPort → FabPort) (s : State) : (modFab p f s).fabric = s.fabric.set (fportNo p)
    (f s.fabric[fportNo p]) := rfl

@[simp] theorem modFab_twin (p : FPort) (f : FabPort → FabPort) (s : State) : (modFab p f s).twin = s.twin := rfl

@[simp] theorem modFab_flash (p : FPort) (f : FabPort → FabPort) (s : State) : (modFab p f s).flash = s.flash := rfl

@[simp] theorem modFab_inspect (p : FPort) (f : FabPort → FabPort) (s : State) : (modFab p f s).inspect = s.inspect := rfl

/-! ### modStack -/

@[simp] theorem modStack_pending (i : Fin 32) (f : Stack → Stack) (s : State) : (modStack i f s).pending = s.pending := rfl

@[simp] theorem modStack_now (i : Fin 32) (f : Stack → Stack) (s : State) : (modStack i f s).now = s.now := rfl

@[simp] theorem modStack_freeCtr (i : Fin 32) (f : Stack → Stack) (s : State) : (modStack i f s).freeCtr = s.freeCtr := rfl

@[simp] theorem modStack_out (i : Fin 32) (f : Stack → Stack) (s : State) : (modStack i f s).out = s.out := rfl

@[simp] theorem modStack_power (i : Fin 32) (f : Stack → Stack) (s : State) : (modStack i f s).power = s.power := rfl

@[simp] theorem modStack_plls (i : Fin 32) (f : Stack → Stack) (s : State) : (modStack i f s).plls = s.plls := rfl

@[simp] theorem modStack_tide (i : Fin 32) (f : Stack → Stack) (s : State) : (modStack i f s).tide = s.tide := rfl

@[simp] theorem modStack_tideHi (i : Fin 32) (f : Stack → Stack) (s : State) : (modStack i f s).tideHi = s.tideHi := rfl

@[simp] theorem modStack_hostA (i : Fin 32) (f : Stack → Stack) (s : State) : (modStack i f s).hostA = s.hostA := rfl

@[simp] theorem modStack_hostB (i : Fin 32) (f : Stack → Stack) (s : State) : (modStack i f s).hostB = s.hostB := rfl

@[simp] theorem modStack_lock (i : Fin 32) (f : Stack → Stack) (s : State) : (modStack i f s).lock = s.lock := rfl

@[simp] theorem modStack_i3c (i : Fin 32) (f : Stack → Stack) (s : State) : (modStack i f s).i3c = s.i3c := rfl

@[simp] theorem modStack_peer (i : Fin 32) (f : Stack → Stack) (s : State) : (modStack i f s).peer = s.peer := rfl

@[simp] theorem modStack_warden (i : Fin 32) (f : Stack → Stack) (s : State) : (modStack i f s).warden = s.warden := rfl

@[simp] theorem modStack_seq (i : Fin 32) (f : Stack → Stack) (s : State) : (modStack i f s).seq = s.seq := rfl

@[simp] theorem modStack_log (i : Fin 32) (f : Stack → Stack) (s : State) : (modStack i f s).log = s.log := rfl

@[simp] theorem modStack_queues (i : Fin 32) (f : Stack → Stack) (s : State) : (modStack i f s).queues = s.queues := rfl

@[simp] theorem modStack_job (i : Fin 32) (f : Stack → Stack) (s : State) : (modStack i f s).job = s.job := rfl

@[simp] theorem modStack_exec (i : Fin 32) (f : Stack → Stack) (s : State) : (modStack i f s).exec = s.exec := rfl

@[simp] theorem modStack_gauges (i : Fin 32) (f : Stack → Stack) (s : State) : (modStack i f s).gauges = s.gauges := rfl

@[simp] theorem modStack_dies (i : Fin 32) (f : Stack → Stack) (s : State) : (modStack i f s).dies = s.dies := rfl

@[simp] theorem modStack_cores (i : Fin 32) (f : Stack → Stack) (s : State) : (modStack i f s).cores = s.cores := rfl

@[simp] theorem modStack_coreStore (i : Fin 32) (f : Stack → Stack) (s : State) : (modStack i f s).coreStore = s.coreStore :=
    rfl

@[simp] theorem modStack_memStacks (i : Fin 32) (f : Stack → Stack) (s : State) : (modStack i f s).memStacks = s.memStacks.set i
    (f s.memStacks[i]) := rfl

@[simp] theorem modStack_mem (i : Fin 32) (f : Stack → Stack) (s : State) : (modStack i f s).mem = s.mem := rfl

@[simp] theorem modStack_far (i : Fin 32) (f : Stack → Stack) (s : State) : (modStack i f s).far = s.far := rfl

@[simp] theorem modStack_links (i : Fin 32) (f : Stack → Stack) (s : State) : (modStack i f s).links = s.links := rfl

@[simp] theorem modStack_levee (i : Fin 32) (f : Stack → Stack) (s : State) : (modStack i f s).levee = s.levee := rfl

@[simp] theorem modStack_fabric (i : Fin 32) (f : Stack → Stack) (s : State) : (modStack i f s).fabric = s.fabric := rfl

@[simp] theorem modStack_twin (i : Fin 32) (f : Stack → Stack) (s : State) : (modStack i f s).twin = s.twin := rfl

@[simp] theorem modStack_flash (i : Fin 32) (f : Stack → Stack) (s : State) : (modStack i f s).flash = s.flash := rfl

@[simp] theorem modStack_inspect (i : Fin 32) (f : Stack → Stack) (s : State) : (modStack i f s).inspect = s.inspect := rfl

/-! ### modDie -/

@[simp] theorem modDie_pending (i : Fin 4) (f : Die → Die) (s : State) : (modDie i f s).pending = s.pending := rfl

@[simp] theorem modDie_now (i : Fin 4) (f : Die → Die) (s : State) : (modDie i f s).now = s.now := rfl

@[simp] theorem modDie_freeCtr (i : Fin 4) (f : Die → Die) (s : State) : (modDie i f s).freeCtr = s.freeCtr := rfl

@[simp] theorem modDie_out (i : Fin 4) (f : Die → Die) (s : State) : (modDie i f s).out = s.out := rfl

@[simp] theorem modDie_power (i : Fin 4) (f : Die → Die) (s : State) : (modDie i f s).power = s.power := rfl

@[simp] theorem modDie_plls (i : Fin 4) (f : Die → Die) (s : State) : (modDie i f s).plls = s.plls := rfl

@[simp] theorem modDie_tide (i : Fin 4) (f : Die → Die) (s : State) : (modDie i f s).tide = s.tide := rfl

@[simp] theorem modDie_tideHi (i : Fin 4) (f : Die → Die) (s : State) : (modDie i f s).tideHi = s.tideHi := rfl

@[simp] theorem modDie_hostA (i : Fin 4) (f : Die → Die) (s : State) : (modDie i f s).hostA = s.hostA := rfl

@[simp] theorem modDie_hostB (i : Fin 4) (f : Die → Die) (s : State) : (modDie i f s).hostB = s.hostB := rfl

@[simp] theorem modDie_lock (i : Fin 4) (f : Die → Die) (s : State) : (modDie i f s).lock = s.lock := rfl

@[simp] theorem modDie_i3c (i : Fin 4) (f : Die → Die) (s : State) : (modDie i f s).i3c = s.i3c := rfl

@[simp] theorem modDie_peer (i : Fin 4) (f : Die → Die) (s : State) : (modDie i f s).peer = s.peer := rfl

@[simp] theorem modDie_warden (i : Fin 4) (f : Die → Die) (s : State) : (modDie i f s).warden = s.warden := rfl

@[simp] theorem modDie_seq (i : Fin 4) (f : Die → Die) (s : State) : (modDie i f s).seq = s.seq := rfl

@[simp] theorem modDie_log (i : Fin 4) (f : Die → Die) (s : State) : (modDie i f s).log = s.log := rfl

@[simp] theorem modDie_queues (i : Fin 4) (f : Die → Die) (s : State) : (modDie i f s).queues = s.queues := rfl

@[simp] theorem modDie_job (i : Fin 4) (f : Die → Die) (s : State) : (modDie i f s).job = s.job := rfl

@[simp] theorem modDie_exec (i : Fin 4) (f : Die → Die) (s : State) : (modDie i f s).exec = s.exec := rfl

@[simp] theorem modDie_gauges (i : Fin 4) (f : Die → Die) (s : State) : (modDie i f s).gauges = s.gauges := rfl

@[simp] theorem modDie_dies (i : Fin 4) (f : Die → Die) (s : State) : (modDie i f s).dies = s.dies.set i (f s.dies[i]) := rfl

@[simp] theorem modDie_cores (i : Fin 4) (f : Die → Die) (s : State) : (modDie i f s).cores = s.cores := rfl

@[simp] theorem modDie_coreStore (i : Fin 4) (f : Die → Die) (s : State) : (modDie i f s).coreStore = s.coreStore := rfl

@[simp] theorem modDie_memStacks (i : Fin 4) (f : Die → Die) (s : State) : (modDie i f s).memStacks = s.memStacks := rfl

@[simp] theorem modDie_mem (i : Fin 4) (f : Die → Die) (s : State) : (modDie i f s).mem = s.mem := rfl

@[simp] theorem modDie_far (i : Fin 4) (f : Die → Die) (s : State) : (modDie i f s).far = s.far := rfl

@[simp] theorem modDie_links (i : Fin 4) (f : Die → Die) (s : State) : (modDie i f s).links = s.links := rfl

@[simp] theorem modDie_levee (i : Fin 4) (f : Die → Die) (s : State) : (modDie i f s).levee = s.levee := rfl

@[simp] theorem modDie_fabric (i : Fin 4) (f : Die → Die) (s : State) : (modDie i f s).fabric = s.fabric := rfl

@[simp] theorem modDie_twin (i : Fin 4) (f : Die → Die) (s : State) : (modDie i f s).twin = s.twin := rfl

@[simp] theorem modDie_flash (i : Fin 4) (f : Die → Die) (s : State) : (modDie i f s).flash = s.flash := rfl

@[simp] theorem modDie_inspect (i : Fin 4) (f : Die → Die) (s : State) : (modDie i f s).inspect = s.inspect := rfl

/-! ### modLink -/

@[simp] theorem modLink_pending (i : Fin 41) (f : DieLink → DieLink) (s : State) : (modLink i f s).pending = s.pending := rfl

@[simp] theorem modLink_now (i : Fin 41) (f : DieLink → DieLink) (s : State) : (modLink i f s).now = s.now := rfl

@[simp] theorem modLink_freeCtr (i : Fin 41) (f : DieLink → DieLink) (s : State) : (modLink i f s).freeCtr = s.freeCtr := rfl

@[simp] theorem modLink_out (i : Fin 41) (f : DieLink → DieLink) (s : State) : (modLink i f s).out = s.out := rfl

@[simp] theorem modLink_power (i : Fin 41) (f : DieLink → DieLink) (s : State) : (modLink i f s).power = s.power := rfl

@[simp] theorem modLink_plls (i : Fin 41) (f : DieLink → DieLink) (s : State) : (modLink i f s).plls = s.plls := rfl

@[simp] theorem modLink_tide (i : Fin 41) (f : DieLink → DieLink) (s : State) : (modLink i f s).tide = s.tide := rfl

@[simp] theorem modLink_tideHi (i : Fin 41) (f : DieLink → DieLink) (s : State) : (modLink i f s).tideHi = s.tideHi := rfl

@[simp] theorem modLink_hostA (i : Fin 41) (f : DieLink → DieLink) (s : State) : (modLink i f s).hostA = s.hostA := rfl

@[simp] theorem modLink_hostB (i : Fin 41) (f : DieLink → DieLink) (s : State) : (modLink i f s).hostB = s.hostB := rfl

@[simp] theorem modLink_lock (i : Fin 41) (f : DieLink → DieLink) (s : State) : (modLink i f s).lock = s.lock := rfl

@[simp] theorem modLink_i3c (i : Fin 41) (f : DieLink → DieLink) (s : State) : (modLink i f s).i3c = s.i3c := rfl

@[simp] theorem modLink_peer (i : Fin 41) (f : DieLink → DieLink) (s : State) : (modLink i f s).peer = s.peer := rfl

@[simp] theorem modLink_warden (i : Fin 41) (f : DieLink → DieLink) (s : State) : (modLink i f s).warden = s.warden := rfl

@[simp] theorem modLink_seq (i : Fin 41) (f : DieLink → DieLink) (s : State) : (modLink i f s).seq = s.seq := rfl

@[simp] theorem modLink_log (i : Fin 41) (f : DieLink → DieLink) (s : State) : (modLink i f s).log = s.log := rfl

@[simp] theorem modLink_queues (i : Fin 41) (f : DieLink → DieLink) (s : State) : (modLink i f s).queues = s.queues := rfl

@[simp] theorem modLink_job (i : Fin 41) (f : DieLink → DieLink) (s : State) : (modLink i f s).job = s.job := rfl

@[simp] theorem modLink_exec (i : Fin 41) (f : DieLink → DieLink) (s : State) : (modLink i f s).exec = s.exec := rfl

@[simp] theorem modLink_gauges (i : Fin 41) (f : DieLink → DieLink) (s : State) : (modLink i f s).gauges = s.gauges := rfl

@[simp] theorem modLink_dies (i : Fin 41) (f : DieLink → DieLink) (s : State) : (modLink i f s).dies = s.dies := rfl

@[simp] theorem modLink_cores (i : Fin 41) (f : DieLink → DieLink) (s : State) : (modLink i f s).cores = s.cores := rfl

@[simp] theorem modLink_coreStore (i : Fin 41) (f : DieLink → DieLink) (s : State) : (modLink i f s).coreStore = s.coreStore :=
    rfl

@[simp] theorem modLink_memStacks (i : Fin 41) (f : DieLink → DieLink) (s : State) : (modLink i f s).memStacks = s.memStacks :=
    rfl

@[simp] theorem modLink_mem (i : Fin 41) (f : DieLink → DieLink) (s : State) : (modLink i f s).mem = s.mem := rfl

@[simp] theorem modLink_far (i : Fin 41) (f : DieLink → DieLink) (s : State) : (modLink i f s).far = s.far := rfl

@[simp] theorem modLink_links (i : Fin 41) (f : DieLink → DieLink) (s : State) : (modLink i f s).links = s.links.set i (f
    s.links[i]) := rfl

@[simp] theorem modLink_levee (i : Fin 41) (f : DieLink → DieLink) (s : State) : (modLink i f s).levee = s.levee := rfl

@[simp] theorem modLink_fabric (i : Fin 41) (f : DieLink → DieLink) (s : State) : (modLink i f s).fabric = s.fabric := rfl

@[simp] theorem modLink_twin (i : Fin 41) (f : DieLink → DieLink) (s : State) : (modLink i f s).twin = s.twin := rfl

@[simp] theorem modLink_flash (i : Fin 41) (f : DieLink → DieLink) (s : State) : (modLink i f s).flash = s.flash := rfl

@[simp] theorem modLink_inspect (i : Fin 41) (f : DieLink → DieLink) (s : State) : (modLink i f s).inspect = s.inspect := rfl

/-! ### modFar -/

@[simp] theorem modFar_pending (i : Fin 2) (f : FarPort → FarPort) (s : State) : (modFar i f s).pending = s.pending := rfl

@[simp] theorem modFar_now (i : Fin 2) (f : FarPort → FarPort) (s : State) : (modFar i f s).now = s.now := rfl

@[simp] theorem modFar_freeCtr (i : Fin 2) (f : FarPort → FarPort) (s : State) : (modFar i f s).freeCtr = s.freeCtr := rfl

@[simp] theorem modFar_out (i : Fin 2) (f : FarPort → FarPort) (s : State) : (modFar i f s).out = s.out := rfl

@[simp] theorem modFar_power (i : Fin 2) (f : FarPort → FarPort) (s : State) : (modFar i f s).power = s.power := rfl

@[simp] theorem modFar_plls (i : Fin 2) (f : FarPort → FarPort) (s : State) : (modFar i f s).plls = s.plls := rfl

@[simp] theorem modFar_tide (i : Fin 2) (f : FarPort → FarPort) (s : State) : (modFar i f s).tide = s.tide := rfl

@[simp] theorem modFar_tideHi (i : Fin 2) (f : FarPort → FarPort) (s : State) : (modFar i f s).tideHi = s.tideHi := rfl

@[simp] theorem modFar_hostA (i : Fin 2) (f : FarPort → FarPort) (s : State) : (modFar i f s).hostA = s.hostA := rfl

@[simp] theorem modFar_hostB (i : Fin 2) (f : FarPort → FarPort) (s : State) : (modFar i f s).hostB = s.hostB := rfl

@[simp] theorem modFar_lock (i : Fin 2) (f : FarPort → FarPort) (s : State) : (modFar i f s).lock = s.lock := rfl

@[simp] theorem modFar_i3c (i : Fin 2) (f : FarPort → FarPort) (s : State) : (modFar i f s).i3c = s.i3c := rfl

@[simp] theorem modFar_peer (i : Fin 2) (f : FarPort → FarPort) (s : State) : (modFar i f s).peer = s.peer := rfl

@[simp] theorem modFar_warden (i : Fin 2) (f : FarPort → FarPort) (s : State) : (modFar i f s).warden = s.warden := rfl

@[simp] theorem modFar_seq (i : Fin 2) (f : FarPort → FarPort) (s : State) : (modFar i f s).seq = s.seq := rfl

@[simp] theorem modFar_log (i : Fin 2) (f : FarPort → FarPort) (s : State) : (modFar i f s).log = s.log := rfl

@[simp] theorem modFar_queues (i : Fin 2) (f : FarPort → FarPort) (s : State) : (modFar i f s).queues = s.queues := rfl

@[simp] theorem modFar_job (i : Fin 2) (f : FarPort → FarPort) (s : State) : (modFar i f s).job = s.job := rfl

@[simp] theorem modFar_exec (i : Fin 2) (f : FarPort → FarPort) (s : State) : (modFar i f s).exec = s.exec := rfl

@[simp] theorem modFar_gauges (i : Fin 2) (f : FarPort → FarPort) (s : State) : (modFar i f s).gauges = s.gauges := rfl

@[simp] theorem modFar_dies (i : Fin 2) (f : FarPort → FarPort) (s : State) : (modFar i f s).dies = s.dies := rfl

@[simp] theorem modFar_cores (i : Fin 2) (f : FarPort → FarPort) (s : State) : (modFar i f s).cores = s.cores := rfl

@[simp] theorem modFar_coreStore (i : Fin 2) (f : FarPort → FarPort) (s : State) : (modFar i f s).coreStore = s.coreStore := rfl

@[simp] theorem modFar_memStacks (i : Fin 2) (f : FarPort → FarPort) (s : State) : (modFar i f s).memStacks = s.memStacks := rfl

@[simp] theorem modFar_mem (i : Fin 2) (f : FarPort → FarPort) (s : State) : (modFar i f s).mem = s.mem := rfl

@[simp] theorem modFar_far (i : Fin 2) (f : FarPort → FarPort) (s : State) : (modFar i f s).far = s.far.set i (f s.far[i]) :=
    rfl

@[simp] theorem modFar_links (i : Fin 2) (f : FarPort → FarPort) (s : State) : (modFar i f s).links = s.links := rfl

@[simp] theorem modFar_levee (i : Fin 2) (f : FarPort → FarPort) (s : State) : (modFar i f s).levee = s.levee := rfl

@[simp] theorem modFar_fabric (i : Fin 2) (f : FarPort → FarPort) (s : State) : (modFar i f s).fabric = s.fabric := rfl

@[simp] theorem modFar_twin (i : Fin 2) (f : FarPort → FarPort) (s : State) : (modFar i f s).twin = s.twin := rfl

@[simp] theorem modFar_flash (i : Fin 2) (f : FarPort → FarPort) (s : State) : (modFar i f s).flash = s.flash := rfl

@[simp] theorem modFar_inspect (i : Fin 2) (f : FarPort → FarPort) (s : State) : (modFar i f s).inspect = s.inspect := rfl

/-! ### emit -/

@[simp] theorem emit_pending (o : Out) (s : State) : (emit o s).pending = s.pending := rfl

@[simp] theorem emit_now (o : Out) (s : State) : (emit o s).now = s.now := rfl

@[simp] theorem emit_freeCtr (o : Out) (s : State) : (emit o s).freeCtr = s.freeCtr := rfl

@[simp] theorem emit_out (o : Out) (s : State) : (emit o s).out = s.out ++ [o] := rfl

@[simp] theorem emit_power (o : Out) (s : State) : (emit o s).power = s.power := rfl

@[simp] theorem emit_plls (o : Out) (s : State) : (emit o s).plls = s.plls := rfl

@[simp] theorem emit_tide (o : Out) (s : State) : (emit o s).tide = s.tide := rfl

@[simp] theorem emit_tideHi (o : Out) (s : State) : (emit o s).tideHi = s.tideHi := rfl

@[simp] theorem emit_hostA (o : Out) (s : State) : (emit o s).hostA = s.hostA := rfl

@[simp] theorem emit_hostB (o : Out) (s : State) : (emit o s).hostB = s.hostB := rfl

@[simp] theorem emit_lock (o : Out) (s : State) : (emit o s).lock = s.lock := rfl

@[simp] theorem emit_i3c (o : Out) (s : State) : (emit o s).i3c = s.i3c := rfl

@[simp] theorem emit_peer (o : Out) (s : State) : (emit o s).peer = s.peer := rfl

@[simp] theorem emit_warden (o : Out) (s : State) : (emit o s).warden = s.warden := rfl

@[simp] theorem emit_seq (o : Out) (s : State) : (emit o s).seq = s.seq := rfl

@[simp] theorem emit_log (o : Out) (s : State) : (emit o s).log = s.log := rfl

@[simp] theorem emit_queues (o : Out) (s : State) : (emit o s).queues = s.queues := rfl

@[simp] theorem emit_job (o : Out) (s : State) : (emit o s).job = s.job := rfl

@[simp] theorem emit_exec (o : Out) (s : State) : (emit o s).exec = s.exec := rfl

@[simp] theorem emit_gauges (o : Out) (s : State) : (emit o s).gauges = s.gauges := rfl

@[simp] theorem emit_dies (o : Out) (s : State) : (emit o s).dies = s.dies := rfl

@[simp] theorem emit_cores (o : Out) (s : State) : (emit o s).cores = s.cores := rfl

@[simp] theorem emit_coreStore (o : Out) (s : State) : (emit o s).coreStore = s.coreStore := rfl

@[simp] theorem emit_memStacks (o : Out) (s : State) : (emit o s).memStacks = s.memStacks := rfl

@[simp] theorem emit_mem (o : Out) (s : State) : (emit o s).mem = s.mem := rfl

@[simp] theorem emit_far (o : Out) (s : State) : (emit o s).far = s.far := rfl

@[simp] theorem emit_links (o : Out) (s : State) : (emit o s).links = s.links := rfl

@[simp] theorem emit_levee (o : Out) (s : State) : (emit o s).levee = s.levee := rfl

@[simp] theorem emit_fabric (o : Out) (s : State) : (emit o s).fabric = s.fabric := rfl

@[simp] theorem emit_twin (o : Out) (s : State) : (emit o s).twin = s.twin := rfl

@[simp] theorem emit_flash (o : Out) (s : State) : (emit o s).flash = s.flash := rfl

@[simp] theorem emit_inspect (o : Out) (s : State) : (emit o s).inspect = s.inspect := rfl

/-! ### emitAll -/

@[simp] theorem emitAll_pending (os : List Out) (s : State) : (emitAll os s).pending = s.pending := rfl

@[simp] theorem emitAll_now (os : List Out) (s : State) : (emitAll os s).now = s.now := rfl

@[simp] theorem emitAll_freeCtr (os : List Out) (s : State) : (emitAll os s).freeCtr = s.freeCtr := rfl

@[simp] theorem emitAll_out (os : List Out) (s : State) : (emitAll os s).out = s.out ++ os := rfl

@[simp] theorem emitAll_power (os : List Out) (s : State) : (emitAll os s).power = s.power := rfl

@[simp] theorem emitAll_plls (os : List Out) (s : State) : (emitAll os s).plls = s.plls := rfl

@[simp] theorem emitAll_tide (os : List Out) (s : State) : (emitAll os s).tide = s.tide := rfl

@[simp] theorem emitAll_tideHi (os : List Out) (s : State) : (emitAll os s).tideHi = s.tideHi := rfl

@[simp] theorem emitAll_hostA (os : List Out) (s : State) : (emitAll os s).hostA = s.hostA := rfl

@[simp] theorem emitAll_hostB (os : List Out) (s : State) : (emitAll os s).hostB = s.hostB := rfl

@[simp] theorem emitAll_lock (os : List Out) (s : State) : (emitAll os s).lock = s.lock := rfl

@[simp] theorem emitAll_i3c (os : List Out) (s : State) : (emitAll os s).i3c = s.i3c := rfl

@[simp] theorem emitAll_peer (os : List Out) (s : State) : (emitAll os s).peer = s.peer := rfl

@[simp] theorem emitAll_warden (os : List Out) (s : State) : (emitAll os s).warden = s.warden := rfl

@[simp] theorem emitAll_seq (os : List Out) (s : State) : (emitAll os s).seq = s.seq := rfl

@[simp] theorem emitAll_log (os : List Out) (s : State) : (emitAll os s).log = s.log := rfl

@[simp] theorem emitAll_queues (os : List Out) (s : State) : (emitAll os s).queues = s.queues := rfl

@[simp] theorem emitAll_job (os : List Out) (s : State) : (emitAll os s).job = s.job := rfl

@[simp] theorem emitAll_exec (os : List Out) (s : State) : (emitAll os s).exec = s.exec := rfl

@[simp] theorem emitAll_gauges (os : List Out) (s : State) : (emitAll os s).gauges = s.gauges := rfl

@[simp] theorem emitAll_dies (os : List Out) (s : State) : (emitAll os s).dies = s.dies := rfl

@[simp] theorem emitAll_cores (os : List Out) (s : State) : (emitAll os s).cores = s.cores := rfl

@[simp] theorem emitAll_coreStore (os : List Out) (s : State) : (emitAll os s).coreStore = s.coreStore := rfl

@[simp] theorem emitAll_memStacks (os : List Out) (s : State) : (emitAll os s).memStacks = s.memStacks := rfl

@[simp] theorem emitAll_mem (os : List Out) (s : State) : (emitAll os s).mem = s.mem := rfl

@[simp] theorem emitAll_far (os : List Out) (s : State) : (emitAll os s).far = s.far := rfl

@[simp] theorem emitAll_links (os : List Out) (s : State) : (emitAll os s).links = s.links := rfl

@[simp] theorem emitAll_levee (os : List Out) (s : State) : (emitAll os s).levee = s.levee := rfl

@[simp] theorem emitAll_fabric (os : List Out) (s : State) : (emitAll os s).fabric = s.fabric := rfl

@[simp] theorem emitAll_twin (os : List Out) (s : State) : (emitAll os s).twin = s.twin := rfl

@[simp] theorem emitAll_flash (os : List Out) (s : State) : (emitAll os s).flash = s.flash := rfl

@[simp] theorem emitAll_inspect (os : List Out) (s : State) : (emitAll os s).inspect = s.inspect := rfl

/-! ### modCore -/

@[simp] theorem modCore_pending (d c : Nat) (f : Core → Core) (s : State) : (modCore d c f s).pending = s.pending := rfl

@[simp] theorem modCore_now (d c : Nat) (f : Core → Core) (s : State) : (modCore d c f s).now = s.now := rfl

@[simp] theorem modCore_freeCtr (d c : Nat) (f : Core → Core) (s : State) : (modCore d c f s).freeCtr = s.freeCtr := rfl

@[simp] theorem modCore_out (d c : Nat) (f : Core → Core) (s : State) : (modCore d c f s).out = s.out := rfl

@[simp] theorem modCore_power (d c : Nat) (f : Core → Core) (s : State) : (modCore d c f s).power = s.power := rfl

@[simp] theorem modCore_plls (d c : Nat) (f : Core → Core) (s : State) : (modCore d c f s).plls = s.plls := rfl

@[simp] theorem modCore_tide (d c : Nat) (f : Core → Core) (s : State) : (modCore d c f s).tide = s.tide := rfl

@[simp] theorem modCore_tideHi (d c : Nat) (f : Core → Core) (s : State) : (modCore d c f s).tideHi = s.tideHi := rfl

@[simp] theorem modCore_hostA (d c : Nat) (f : Core → Core) (s : State) : (modCore d c f s).hostA = s.hostA := rfl

@[simp] theorem modCore_hostB (d c : Nat) (f : Core → Core) (s : State) : (modCore d c f s).hostB = s.hostB := rfl

@[simp] theorem modCore_lock (d c : Nat) (f : Core → Core) (s : State) : (modCore d c f s).lock = s.lock := rfl

@[simp] theorem modCore_i3c (d c : Nat) (f : Core → Core) (s : State) : (modCore d c f s).i3c = s.i3c := rfl

@[simp] theorem modCore_peer (d c : Nat) (f : Core → Core) (s : State) : (modCore d c f s).peer = s.peer := rfl

@[simp] theorem modCore_warden (d c : Nat) (f : Core → Core) (s : State) : (modCore d c f s).warden = s.warden := rfl

@[simp] theorem modCore_seq (d c : Nat) (f : Core → Core) (s : State) : (modCore d c f s).seq = s.seq := rfl

@[simp] theorem modCore_log (d c : Nat) (f : Core → Core) (s : State) : (modCore d c f s).log = s.log := rfl

@[simp] theorem modCore_queues (d c : Nat) (f : Core → Core) (s : State) : (modCore d c f s).queues = s.queues := rfl

@[simp] theorem modCore_job (d c : Nat) (f : Core → Core) (s : State) : (modCore d c f s).job = s.job := rfl

@[simp] theorem modCore_exec (d c : Nat) (f : Core → Core) (s : State) : (modCore d c f s).exec = s.exec := rfl

@[simp] theorem modCore_gauges (d c : Nat) (f : Core → Core) (s : State) : (modCore d c f s).gauges = s.gauges := rfl

@[simp] theorem modCore_dies (d c : Nat) (f : Core → Core) (s : State) : (modCore d c f s).dies = s.dies := rfl

@[simp] theorem modCore_cores (d c : Nat) (f : Core → Core) (s : State) : (modCore d c f s).cores = putCore (f (coreOf d c s))
    s.cores := rfl

@[simp] theorem modCore_coreStore (d c : Nat) (f : Core → Core) (s : State) : (modCore d c f s).coreStore = s.coreStore := rfl

@[simp] theorem modCore_memStacks (d c : Nat) (f : Core → Core) (s : State) : (modCore d c f s).memStacks = s.memStacks := rfl

@[simp] theorem modCore_mem (d c : Nat) (f : Core → Core) (s : State) : (modCore d c f s).mem = s.mem := rfl

@[simp] theorem modCore_far (d c : Nat) (f : Core → Core) (s : State) : (modCore d c f s).far = s.far := rfl

@[simp] theorem modCore_links (d c : Nat) (f : Core → Core) (s : State) : (modCore d c f s).links = s.links := rfl

@[simp] theorem modCore_levee (d c : Nat) (f : Core → Core) (s : State) : (modCore d c f s).levee = s.levee := rfl

@[simp] theorem modCore_fabric (d c : Nat) (f : Core → Core) (s : State) : (modCore d c f s).fabric = s.fabric := rfl

@[simp] theorem modCore_twin (d c : Nat) (f : Core → Core) (s : State) : (modCore d c f s).twin = s.twin := rfl

@[simp] theorem modCore_flash (d c : Nat) (f : Core → Core) (s : State) : (modCore d c f s).flash = s.flash := rfl

@[simp] theorem modCore_inspect (d c : Nat) (f : Core → Core) (s : State) : (modCore d c f s).inspect = s.inspect := rfl

/-! ### modQueue -/

@[simp] theorem modQueue_pending (q : Nat) (p : HPort) (f : HwQueue → HwQueue) (s : State) : (modQueue q p f s).pending =
    s.pending := rfl

@[simp] theorem modQueue_now (q : Nat) (p : HPort) (f : HwQueue → HwQueue) (s : State) : (modQueue q p f s).now = s.now := rfl

@[simp] theorem modQueue_freeCtr (q : Nat) (p : HPort) (f : HwQueue → HwQueue) (s : State) : (modQueue q p f s).freeCtr =
    s.freeCtr := rfl

@[simp] theorem modQueue_out (q : Nat) (p : HPort) (f : HwQueue → HwQueue) (s : State) : (modQueue q p f s).out = s.out := rfl

@[simp] theorem modQueue_power (q : Nat) (p : HPort) (f : HwQueue → HwQueue) (s : State) : (modQueue q p f s).power = s.power :=
    rfl

@[simp] theorem modQueue_plls (q : Nat) (p : HPort) (f : HwQueue → HwQueue) (s : State) : (modQueue q p f s).plls = s.plls :=
    rfl

@[simp] theorem modQueue_tide (q : Nat) (p : HPort) (f : HwQueue → HwQueue) (s : State) : (modQueue q p f s).tide = s.tide :=
    rfl

@[simp] theorem modQueue_tideHi (q : Nat) (p : HPort) (f : HwQueue → HwQueue) (s : State) : (modQueue q p f s).tideHi = s.tideHi
    := rfl

@[simp] theorem modQueue_hostA (q : Nat) (p : HPort) (f : HwQueue → HwQueue) (s : State) : (modQueue q p f s).hostA = s.hostA :=
    rfl

@[simp] theorem modQueue_hostB (q : Nat) (p : HPort) (f : HwQueue → HwQueue) (s : State) : (modQueue q p f s).hostB = s.hostB :=
    rfl

@[simp] theorem modQueue_lock (q : Nat) (p : HPort) (f : HwQueue → HwQueue) (s : State) : (modQueue q p f s).lock = s.lock :=
    rfl

@[simp] theorem modQueue_i3c (q : Nat) (p : HPort) (f : HwQueue → HwQueue) (s : State) : (modQueue q p f s).i3c = s.i3c := rfl

@[simp] theorem modQueue_peer (q : Nat) (p : HPort) (f : HwQueue → HwQueue) (s : State) : (modQueue q p f s).peer = s.peer :=
    rfl

@[simp] theorem modQueue_warden (q : Nat) (p : HPort) (f : HwQueue → HwQueue) (s : State) : (modQueue q p f s).warden = s.warden
    := rfl

@[simp] theorem modQueue_seq (q : Nat) (p : HPort) (f : HwQueue → HwQueue) (s : State) : (modQueue q p f s).seq = s.seq := rfl

@[simp] theorem modQueue_log (q : Nat) (p : HPort) (f : HwQueue → HwQueue) (s : State) : (modQueue q p f s).log = s.log := rfl

@[simp] theorem modQueue_queues (q : Nat) (p : HPort) (f : HwQueue → HwQueue) (s : State) : (modQueue q p f s).queues = putQueue
    (f ((queueOf q s).getD (HwQueue.unused q p))) s.queues := rfl

@[simp] theorem modQueue_job (q : Nat) (p : HPort) (f : HwQueue → HwQueue) (s : State) : (modQueue q p f s).job = s.job := rfl

@[simp] theorem modQueue_exec (q : Nat) (p : HPort) (f : HwQueue → HwQueue) (s : State) : (modQueue q p f s).exec = s.exec :=
    rfl

@[simp] theorem modQueue_gauges (q : Nat) (p : HPort) (f : HwQueue → HwQueue) (s : State) : (modQueue q p f s).gauges = s.gauges
    := rfl

@[simp] theorem modQueue_dies (q : Nat) (p : HPort) (f : HwQueue → HwQueue) (s : State) : (modQueue q p f s).dies = s.dies :=
    rfl

@[simp] theorem modQueue_cores (q : Nat) (p : HPort) (f : HwQueue → HwQueue) (s : State) : (modQueue q p f s).cores = s.cores :=
    rfl

@[simp] theorem modQueue_coreStore (q : Nat) (p : HPort) (f : HwQueue → HwQueue) (s : State) : (modQueue q p f s).coreStore =
    s.coreStore := rfl

@[simp] theorem modQueue_memStacks (q : Nat) (p : HPort) (f : HwQueue → HwQueue) (s : State) : (modQueue q p f s).memStacks =
    s.memStacks := rfl

@[simp] theorem modQueue_mem (q : Nat) (p : HPort) (f : HwQueue → HwQueue) (s : State) : (modQueue q p f s).mem = s.mem := rfl

@[simp] theorem modQueue_far (q : Nat) (p : HPort) (f : HwQueue → HwQueue) (s : State) : (modQueue q p f s).far = s.far := rfl

@[simp] theorem modQueue_links (q : Nat) (p : HPort) (f : HwQueue → HwQueue) (s : State) : (modQueue q p f s).links = s.links :=
    rfl

@[simp] theorem modQueue_levee (q : Nat) (p : HPort) (f : HwQueue → HwQueue) (s : State) : (modQueue q p f s).levee = s.levee :=
    rfl

@[simp] theorem modQueue_fabric (q : Nat) (p : HPort) (f : HwQueue → HwQueue) (s : State) : (modQueue q p f s).fabric = s.fabric
    := rfl

@[simp] theorem modQueue_twin (q : Nat) (p : HPort) (f : HwQueue → HwQueue) (s : State) : (modQueue q p f s).twin = s.twin :=
    rfl

@[simp] theorem modQueue_flash (q : Nat) (p : HPort) (f : HwQueue → HwQueue) (s : State) : (modQueue q p f s).flash = s.flash :=
    rfl

@[simp] theorem modQueue_inspect (q : Nat) (p : HPort) (f : HwQueue → HwQueue) (s : State) : (modQueue q p f s).inspect =
    s.inspect := rfl

/-! ### storeWrite -/

@[simp] theorem storeWrite_pending (d c off : Nat) (data : Bytes) (s : State) : (storeWrite d c off data s).pending = s.pending
    := rfl

@[simp] theorem storeWrite_now (d c off : Nat) (data : Bytes) (s : State) : (storeWrite d c off data s).now = s.now := rfl

@[simp] theorem storeWrite_freeCtr (d c off : Nat) (data : Bytes) (s : State) : (storeWrite d c off data s).freeCtr = s.freeCtr
    := rfl

@[simp] theorem storeWrite_out (d c off : Nat) (data : Bytes) (s : State) : (storeWrite d c off data s).out = s.out := rfl

@[simp] theorem storeWrite_power (d c off : Nat) (data : Bytes) (s : State) : (storeWrite d c off data s).power = s.power := rfl

@[simp] theorem storeWrite_plls (d c off : Nat) (data : Bytes) (s : State) : (storeWrite d c off data s).plls = s.plls := rfl

@[simp] theorem storeWrite_tide (d c off : Nat) (data : Bytes) (s : State) : (storeWrite d c off data s).tide = s.tide := rfl

@[simp] theorem storeWrite_tideHi (d c off : Nat) (data : Bytes) (s : State) : (storeWrite d c off data s).tideHi = s.tideHi :=
    rfl

@[simp] theorem storeWrite_hostA (d c off : Nat) (data : Bytes) (s : State) : (storeWrite d c off data s).hostA = s.hostA := rfl

@[simp] theorem storeWrite_hostB (d c off : Nat) (data : Bytes) (s : State) : (storeWrite d c off data s).hostB = s.hostB := rfl

@[simp] theorem storeWrite_lock (d c off : Nat) (data : Bytes) (s : State) : (storeWrite d c off data s).lock = s.lock := rfl

@[simp] theorem storeWrite_i3c (d c off : Nat) (data : Bytes) (s : State) : (storeWrite d c off data s).i3c = s.i3c := rfl

@[simp] theorem storeWrite_peer (d c off : Nat) (data : Bytes) (s : State) : (storeWrite d c off data s).peer = s.peer := rfl

@[simp] theorem storeWrite_warden (d c off : Nat) (data : Bytes) (s : State) : (storeWrite d c off data s).warden = s.warden :=
    rfl

@[simp] theorem storeWrite_seq (d c off : Nat) (data : Bytes) (s : State) : (storeWrite d c off data s).seq = s.seq := rfl

@[simp] theorem storeWrite_log (d c off : Nat) (data : Bytes) (s : State) : (storeWrite d c off data s).log = s.log := rfl

@[simp] theorem storeWrite_queues (d c off : Nat) (data : Bytes) (s : State) : (storeWrite d c off data s).queues = s.queues :=
    rfl

@[simp] theorem storeWrite_job (d c off : Nat) (data : Bytes) (s : State) : (storeWrite d c off data s).job = s.job := rfl

@[simp] theorem storeWrite_exec (d c off : Nat) (data : Bytes) (s : State) : (storeWrite d c off data s).exec = s.exec := rfl

@[simp] theorem storeWrite_gauges (d c off : Nat) (data : Bytes) (s : State) : (storeWrite d c off data s).gauges = s.gauges :=
    rfl

@[simp] theorem storeWrite_dies (d c off : Nat) (data : Bytes) (s : State) : (storeWrite d c off data s).dies = s.dies := rfl

@[simp] theorem storeWrite_cores (d c off : Nat) (data : Bytes) (s : State) : (storeWrite d c off data s).cores = s.cores := rfl

@[simp] theorem storeWrite_coreStore (d c off : Nat) (data : Bytes) (s : State) : (storeWrite d c off data s).coreStore =
    memWrite s.coreStore (storeKey d c off) (data.take (storeBytes - off)) := rfl

@[simp] theorem storeWrite_memStacks (d c off : Nat) (data : Bytes) (s : State) : (storeWrite d c off data s).memStacks =
    s.memStacks := rfl

@[simp] theorem storeWrite_mem (d c off : Nat) (data : Bytes) (s : State) : (storeWrite d c off data s).mem = s.mem := rfl

@[simp] theorem storeWrite_far (d c off : Nat) (data : Bytes) (s : State) : (storeWrite d c off data s).far = s.far := rfl

@[simp] theorem storeWrite_links (d c off : Nat) (data : Bytes) (s : State) : (storeWrite d c off data s).links = s.links := rfl

@[simp] theorem storeWrite_levee (d c off : Nat) (data : Bytes) (s : State) : (storeWrite d c off data s).levee = s.levee := rfl

@[simp] theorem storeWrite_fabric (d c off : Nat) (data : Bytes) (s : State) : (storeWrite d c off data s).fabric = s.fabric :=
    rfl

@[simp] theorem storeWrite_twin (d c off : Nat) (data : Bytes) (s : State) : (storeWrite d c off data s).twin = s.twin := rfl

@[simp] theorem storeWrite_flash (d c off : Nat) (data : Bytes) (s : State) : (storeWrite d c off data s).flash = s.flash := rfl

@[simp] theorem storeWrite_inspect (d c off : Nat) (data : Bytes) (s : State) : (storeWrite d c off data s).inspect = s.inspect
    := rfl

/-! ### setRun -/

@[simp] theorem setRun_pending (r : TaskRun) (s : State) : (setRun r s).pending = s.pending := rfl

@[simp] theorem setRun_now (r : TaskRun) (s : State) : (setRun r s).now = s.now := rfl

@[simp] theorem setRun_freeCtr (r : TaskRun) (s : State) : (setRun r s).freeCtr = s.freeCtr := rfl

@[simp] theorem setRun_out (r : TaskRun) (s : State) : (setRun r s).out = s.out := rfl

@[simp] theorem setRun_power (r : TaskRun) (s : State) : (setRun r s).power = s.power := rfl

@[simp] theorem setRun_plls (r : TaskRun) (s : State) : (setRun r s).plls = s.plls := rfl

@[simp] theorem setRun_tide (r : TaskRun) (s : State) : (setRun r s).tide = s.tide := rfl

@[simp] theorem setRun_tideHi (r : TaskRun) (s : State) : (setRun r s).tideHi = s.tideHi := rfl

@[simp] theorem setRun_hostA (r : TaskRun) (s : State) : (setRun r s).hostA = s.hostA := rfl

@[simp] theorem setRun_hostB (r : TaskRun) (s : State) : (setRun r s).hostB = s.hostB := rfl

@[simp] theorem setRun_lock (r : TaskRun) (s : State) : (setRun r s).lock = s.lock := rfl

@[simp] theorem setRun_i3c (r : TaskRun) (s : State) : (setRun r s).i3c = s.i3c := rfl

@[simp] theorem setRun_peer (r : TaskRun) (s : State) : (setRun r s).peer = s.peer := rfl

@[simp] theorem setRun_warden (r : TaskRun) (s : State) : (setRun r s).warden = s.warden := rfl

@[simp] theorem setRun_seq (r : TaskRun) (s : State) : (setRun r s).seq = s.seq := rfl

@[simp] theorem setRun_log (r : TaskRun) (s : State) : (setRun r s).log = s.log := rfl

@[simp] theorem setRun_queues (r : TaskRun) (s : State) : (setRun r s).queues = s.queues := rfl

@[simp] theorem setRun_job (r : TaskRun) (s : State) : (setRun r s).job = s.job := rfl

@[simp] theorem setRun_exec (r : TaskRun) (s : State) : (setRun r s).exec = { s.exec with runs := putRun r s.exec.runs } := rfl

@[simp] theorem setRun_gauges (r : TaskRun) (s : State) : (setRun r s).gauges = s.gauges := rfl

@[simp] theorem setRun_dies (r : TaskRun) (s : State) : (setRun r s).dies = s.dies := rfl

@[simp] theorem setRun_cores (r : TaskRun) (s : State) : (setRun r s).cores = s.cores := rfl

@[simp] theorem setRun_coreStore (r : TaskRun) (s : State) : (setRun r s).coreStore = s.coreStore := rfl

@[simp] theorem setRun_memStacks (r : TaskRun) (s : State) : (setRun r s).memStacks = s.memStacks := rfl

@[simp] theorem setRun_mem (r : TaskRun) (s : State) : (setRun r s).mem = s.mem := rfl

@[simp] theorem setRun_far (r : TaskRun) (s : State) : (setRun r s).far = s.far := rfl

@[simp] theorem setRun_links (r : TaskRun) (s : State) : (setRun r s).links = s.links := rfl

@[simp] theorem setRun_levee (r : TaskRun) (s : State) : (setRun r s).levee = s.levee := rfl

@[simp] theorem setRun_fabric (r : TaskRun) (s : State) : (setRun r s).fabric = s.fabric := rfl

@[simp] theorem setRun_twin (r : TaskRun) (s : State) : (setRun r s).twin = s.twin := rfl

@[simp] theorem setRun_flash (r : TaskRun) (s : State) : (setRun r s).flash = s.flash := rfl

@[simp] theorem setRun_inspect (r : TaskRun) (s : State) : (setRun r s).inspect = s.inspect := rfl

/-! ### setRed -/

@[simp] theorem setRed_pending (r : RedRun) (s : State) : (setRed r s).pending = s.pending := rfl

@[simp] theorem setRed_now (r : RedRun) (s : State) : (setRed r s).now = s.now := rfl

@[simp] theorem setRed_freeCtr (r : RedRun) (s : State) : (setRed r s).freeCtr = s.freeCtr := rfl

@[simp] theorem setRed_out (r : RedRun) (s : State) : (setRed r s).out = s.out := rfl

@[simp] theorem setRed_power (r : RedRun) (s : State) : (setRed r s).power = s.power := rfl

@[simp] theorem setRed_plls (r : RedRun) (s : State) : (setRed r s).plls = s.plls := rfl

@[simp] theorem setRed_tide (r : RedRun) (s : State) : (setRed r s).tide = s.tide := rfl

@[simp] theorem setRed_tideHi (r : RedRun) (s : State) : (setRed r s).tideHi = s.tideHi := rfl

@[simp] theorem setRed_hostA (r : RedRun) (s : State) : (setRed r s).hostA = s.hostA := rfl

@[simp] theorem setRed_hostB (r : RedRun) (s : State) : (setRed r s).hostB = s.hostB := rfl

@[simp] theorem setRed_lock (r : RedRun) (s : State) : (setRed r s).lock = s.lock := rfl

@[simp] theorem setRed_i3c (r : RedRun) (s : State) : (setRed r s).i3c = s.i3c := rfl

@[simp] theorem setRed_peer (r : RedRun) (s : State) : (setRed r s).peer = s.peer := rfl

@[simp] theorem setRed_warden (r : RedRun) (s : State) : (setRed r s).warden = s.warden := rfl

@[simp] theorem setRed_seq (r : RedRun) (s : State) : (setRed r s).seq = s.seq := rfl

@[simp] theorem setRed_log (r : RedRun) (s : State) : (setRed r s).log = s.log := rfl

@[simp] theorem setRed_queues (r : RedRun) (s : State) : (setRed r s).queues = s.queues := rfl

@[simp] theorem setRed_job (r : RedRun) (s : State) : (setRed r s).job = s.job := rfl

@[simp] theorem setRed_exec (r : RedRun) (s : State) : (setRed r s).exec = { s.exec with reds := putRed r s.exec.reds } := rfl

@[simp] theorem setRed_gauges (r : RedRun) (s : State) : (setRed r s).gauges = s.gauges := rfl

@[simp] theorem setRed_dies (r : RedRun) (s : State) : (setRed r s).dies = s.dies := rfl

@[simp] theorem setRed_cores (r : RedRun) (s : State) : (setRed r s).cores = s.cores := rfl

@[simp] theorem setRed_coreStore (r : RedRun) (s : State) : (setRed r s).coreStore = s.coreStore := rfl

@[simp] theorem setRed_memStacks (r : RedRun) (s : State) : (setRed r s).memStacks = s.memStacks := rfl

@[simp] theorem setRed_mem (r : RedRun) (s : State) : (setRed r s).mem = s.mem := rfl

@[simp] theorem setRed_far (r : RedRun) (s : State) : (setRed r s).far = s.far := rfl

@[simp] theorem setRed_links (r : RedRun) (s : State) : (setRed r s).links = s.links := rfl

@[simp] theorem setRed_levee (r : RedRun) (s : State) : (setRed r s).levee = s.levee := rfl

@[simp] theorem setRed_fabric (r : RedRun) (s : State) : (setRed r s).fabric = s.fabric := rfl

@[simp] theorem setRed_twin (r : RedRun) (s : State) : (setRed r s).twin = s.twin := rfl

@[simp] theorem setRed_flash (r : RedRun) (s : State) : (setRed r s).flash = s.flash := rfl

@[simp] theorem setRed_inspect (r : RedRun) (s : State) : (setRed r s).inspect = s.inspect := rfl

/-! ### modPower -/

@[simp] theorem modPower_pending (f : Power → Power) (s : State) : (modPower f s).pending = s.pending := rfl

@[simp] theorem modPower_now (f : Power → Power) (s : State) : (modPower f s).now = s.now := rfl

@[simp] theorem modPower_freeCtr (f : Power → Power) (s : State) : (modPower f s).freeCtr = s.freeCtr := rfl

@[simp] theorem modPower_out (f : Power → Power) (s : State) : (modPower f s).out = s.out := rfl

@[simp] theorem modPower_power (f : Power → Power) (s : State) : (modPower f s).power = f s.power := rfl

@[simp] theorem modPower_plls (f : Power → Power) (s : State) : (modPower f s).plls = s.plls := rfl

@[simp] theorem modPower_tide (f : Power → Power) (s : State) : (modPower f s).tide = s.tide := rfl

@[simp] theorem modPower_tideHi (f : Power → Power) (s : State) : (modPower f s).tideHi = s.tideHi := rfl

@[simp] theorem modPower_hostA (f : Power → Power) (s : State) : (modPower f s).hostA = s.hostA := rfl

@[simp] theorem modPower_hostB (f : Power → Power) (s : State) : (modPower f s).hostB = s.hostB := rfl

@[simp] theorem modPower_lock (f : Power → Power) (s : State) : (modPower f s).lock = s.lock := rfl

@[simp] theorem modPower_i3c (f : Power → Power) (s : State) : (modPower f s).i3c = s.i3c := rfl

@[simp] theorem modPower_peer (f : Power → Power) (s : State) : (modPower f s).peer = s.peer := rfl

@[simp] theorem modPower_warden (f : Power → Power) (s : State) : (modPower f s).warden = s.warden := rfl

@[simp] theorem modPower_seq (f : Power → Power) (s : State) : (modPower f s).seq = s.seq := rfl

@[simp] theorem modPower_log (f : Power → Power) (s : State) : (modPower f s).log = s.log := rfl

@[simp] theorem modPower_queues (f : Power → Power) (s : State) : (modPower f s).queues = s.queues := rfl

@[simp] theorem modPower_job (f : Power → Power) (s : State) : (modPower f s).job = s.job := rfl

@[simp] theorem modPower_exec (f : Power → Power) (s : State) : (modPower f s).exec = s.exec := rfl

@[simp] theorem modPower_gauges (f : Power → Power) (s : State) : (modPower f s).gauges = s.gauges := rfl

@[simp] theorem modPower_dies (f : Power → Power) (s : State) : (modPower f s).dies = s.dies := rfl

@[simp] theorem modPower_cores (f : Power → Power) (s : State) : (modPower f s).cores = s.cores := rfl

@[simp] theorem modPower_coreStore (f : Power → Power) (s : State) : (modPower f s).coreStore = s.coreStore := rfl

@[simp] theorem modPower_memStacks (f : Power → Power) (s : State) : (modPower f s).memStacks = s.memStacks := rfl

@[simp] theorem modPower_mem (f : Power → Power) (s : State) : (modPower f s).mem = s.mem := rfl

@[simp] theorem modPower_far (f : Power → Power) (s : State) : (modPower f s).far = s.far := rfl

@[simp] theorem modPower_links (f : Power → Power) (s : State) : (modPower f s).links = s.links := rfl

@[simp] theorem modPower_levee (f : Power → Power) (s : State) : (modPower f s).levee = s.levee := rfl

@[simp] theorem modPower_fabric (f : Power → Power) (s : State) : (modPower f s).fabric = s.fabric := rfl

@[simp] theorem modPower_twin (f : Power → Power) (s : State) : (modPower f s).twin = s.twin := rfl

@[simp] theorem modPower_flash (f : Power → Power) (s : State) : (modPower f s).flash = s.flash := rfl

@[simp] theorem modPower_inspect (f : Power → Power) (s : State) : (modPower f s).inspect = s.inspect := rfl

/-! ### modTwin -/

@[simp] theorem modTwin_pending (f : Twin → Twin) (s : State) : (modTwin f s).pending = s.pending := rfl

@[simp] theorem modTwin_now (f : Twin → Twin) (s : State) : (modTwin f s).now = s.now := rfl

@[simp] theorem modTwin_freeCtr (f : Twin → Twin) (s : State) : (modTwin f s).freeCtr = s.freeCtr := rfl

@[simp] theorem modTwin_out (f : Twin → Twin) (s : State) : (modTwin f s).out = s.out := rfl

@[simp] theorem modTwin_power (f : Twin → Twin) (s : State) : (modTwin f s).power = s.power := rfl

@[simp] theorem modTwin_plls (f : Twin → Twin) (s : State) : (modTwin f s).plls = s.plls := rfl

@[simp] theorem modTwin_tide (f : Twin → Twin) (s : State) : (modTwin f s).tide = s.tide := rfl

@[simp] theorem modTwin_tideHi (f : Twin → Twin) (s : State) : (modTwin f s).tideHi = s.tideHi := rfl

@[simp] theorem modTwin_hostA (f : Twin → Twin) (s : State) : (modTwin f s).hostA = s.hostA := rfl

@[simp] theorem modTwin_hostB (f : Twin → Twin) (s : State) : (modTwin f s).hostB = s.hostB := rfl

@[simp] theorem modTwin_lock (f : Twin → Twin) (s : State) : (modTwin f s).lock = s.lock := rfl

@[simp] theorem modTwin_i3c (f : Twin → Twin) (s : State) : (modTwin f s).i3c = s.i3c := rfl

@[simp] theorem modTwin_peer (f : Twin → Twin) (s : State) : (modTwin f s).peer = s.peer := rfl

@[simp] theorem modTwin_warden (f : Twin → Twin) (s : State) : (modTwin f s).warden = s.warden := rfl

@[simp] theorem modTwin_seq (f : Twin → Twin) (s : State) : (modTwin f s).seq = s.seq := rfl

@[simp] theorem modTwin_log (f : Twin → Twin) (s : State) : (modTwin f s).log = s.log := rfl

@[simp] theorem modTwin_queues (f : Twin → Twin) (s : State) : (modTwin f s).queues = s.queues := rfl

@[simp] theorem modTwin_job (f : Twin → Twin) (s : State) : (modTwin f s).job = s.job := rfl

@[simp] theorem modTwin_exec (f : Twin → Twin) (s : State) : (modTwin f s).exec = s.exec := rfl

@[simp] theorem modTwin_gauges (f : Twin → Twin) (s : State) : (modTwin f s).gauges = s.gauges := rfl

@[simp] theorem modTwin_dies (f : Twin → Twin) (s : State) : (modTwin f s).dies = s.dies := rfl

@[simp] theorem modTwin_cores (f : Twin → Twin) (s : State) : (modTwin f s).cores = s.cores := rfl

@[simp] theorem modTwin_coreStore (f : Twin → Twin) (s : State) : (modTwin f s).coreStore = s.coreStore := rfl

@[simp] theorem modTwin_memStacks (f : Twin → Twin) (s : State) : (modTwin f s).memStacks = s.memStacks := rfl

@[simp] theorem modTwin_mem (f : Twin → Twin) (s : State) : (modTwin f s).mem = s.mem := rfl

@[simp] theorem modTwin_far (f : Twin → Twin) (s : State) : (modTwin f s).far = s.far := rfl

@[simp] theorem modTwin_links (f : Twin → Twin) (s : State) : (modTwin f s).links = s.links := rfl

@[simp] theorem modTwin_levee (f : Twin → Twin) (s : State) : (modTwin f s).levee = s.levee := rfl

@[simp] theorem modTwin_fabric (f : Twin → Twin) (s : State) : (modTwin f s).fabric = s.fabric := rfl

@[simp] theorem modTwin_twin (f : Twin → Twin) (s : State) : (modTwin f s).twin = f s.twin := rfl

@[simp] theorem modTwin_flash (f : Twin → Twin) (s : State) : (modTwin f s).flash = s.flash := rfl

@[simp] theorem modTwin_inspect (f : Twin → Twin) (s : State) : (modTwin f s).inspect = s.inspect := rfl

/-! ### modLevee -/

@[simp] theorem modLevee_pending (f : Levee → Levee) (s : State) : (modLevee f s).pending = s.pending := rfl

@[simp] theorem modLevee_now (f : Levee → Levee) (s : State) : (modLevee f s).now = s.now := rfl

@[simp] theorem modLevee_freeCtr (f : Levee → Levee) (s : State) : (modLevee f s).freeCtr = s.freeCtr := rfl

@[simp] theorem modLevee_out (f : Levee → Levee) (s : State) : (modLevee f s).out = s.out := rfl

@[simp] theorem modLevee_power (f : Levee → Levee) (s : State) : (modLevee f s).power = s.power := rfl

@[simp] theorem modLevee_plls (f : Levee → Levee) (s : State) : (modLevee f s).plls = s.plls := rfl

@[simp] theorem modLevee_tide (f : Levee → Levee) (s : State) : (modLevee f s).tide = s.tide := rfl

@[simp] theorem modLevee_tideHi (f : Levee → Levee) (s : State) : (modLevee f s).tideHi = s.tideHi := rfl

@[simp] theorem modLevee_hostA (f : Levee → Levee) (s : State) : (modLevee f s).hostA = s.hostA := rfl

@[simp] theorem modLevee_hostB (f : Levee → Levee) (s : State) : (modLevee f s).hostB = s.hostB := rfl

@[simp] theorem modLevee_lock (f : Levee → Levee) (s : State) : (modLevee f s).lock = s.lock := rfl

@[simp] theorem modLevee_i3c (f : Levee → Levee) (s : State) : (modLevee f s).i3c = s.i3c := rfl

@[simp] theorem modLevee_peer (f : Levee → Levee) (s : State) : (modLevee f s).peer = s.peer := rfl

@[simp] theorem modLevee_warden (f : Levee → Levee) (s : State) : (modLevee f s).warden = s.warden := rfl

@[simp] theorem modLevee_seq (f : Levee → Levee) (s : State) : (modLevee f s).seq = s.seq := rfl

@[simp] theorem modLevee_log (f : Levee → Levee) (s : State) : (modLevee f s).log = s.log := rfl

@[simp] theorem modLevee_queues (f : Levee → Levee) (s : State) : (modLevee f s).queues = s.queues := rfl

@[simp] theorem modLevee_job (f : Levee → Levee) (s : State) : (modLevee f s).job = s.job := rfl

@[simp] theorem modLevee_exec (f : Levee → Levee) (s : State) : (modLevee f s).exec = s.exec := rfl

@[simp] theorem modLevee_gauges (f : Levee → Levee) (s : State) : (modLevee f s).gauges = s.gauges := rfl

@[simp] theorem modLevee_dies (f : Levee → Levee) (s : State) : (modLevee f s).dies = s.dies := rfl

@[simp] theorem modLevee_cores (f : Levee → Levee) (s : State) : (modLevee f s).cores = s.cores := rfl

@[simp] theorem modLevee_coreStore (f : Levee → Levee) (s : State) : (modLevee f s).coreStore = s.coreStore := rfl

@[simp] theorem modLevee_memStacks (f : Levee → Levee) (s : State) : (modLevee f s).memStacks = s.memStacks := rfl

@[simp] theorem modLevee_mem (f : Levee → Levee) (s : State) : (modLevee f s).mem = s.mem := rfl

@[simp] theorem modLevee_far (f : Levee → Levee) (s : State) : (modLevee f s).far = s.far := rfl

@[simp] theorem modLevee_links (f : Levee → Levee) (s : State) : (modLevee f s).links = s.links := rfl

@[simp] theorem modLevee_levee (f : Levee → Levee) (s : State) : (modLevee f s).levee = f s.levee := rfl

@[simp] theorem modLevee_fabric (f : Levee → Levee) (s : State) : (modLevee f s).fabric = s.fabric := rfl

@[simp] theorem modLevee_twin (f : Levee → Levee) (s : State) : (modLevee f s).twin = s.twin := rfl

@[simp] theorem modLevee_flash (f : Levee → Levee) (s : State) : (modLevee f s).flash = s.flash := rfl

@[simp] theorem modLevee_inspect (f : Levee → Levee) (s : State) : (modLevee f s).inspect = s.inspect := rfl

/-! ### modPll -/

@[simp] theorem modPll_pending (u : Fin 36) (f : Plls → Plls) (s : State) : (modPll u f s).pending = s.pending := rfl

@[simp] theorem modPll_now (u : Fin 36) (f : Plls → Plls) (s : State) : (modPll u f s).now = s.now := rfl

@[simp] theorem modPll_freeCtr (u : Fin 36) (f : Plls → Plls) (s : State) : (modPll u f s).freeCtr = s.freeCtr := rfl

@[simp] theorem modPll_out (u : Fin 36) (f : Plls → Plls) (s : State) : (modPll u f s).out = s.out := rfl

@[simp] theorem modPll_power (u : Fin 36) (f : Plls → Plls) (s : State) : (modPll u f s).power = s.power := rfl

@[simp] theorem modPll_plls (u : Fin 36) (f : Plls → Plls) (s : State) : (modPll u f s).plls = s.plls.set u (f s.plls[u]) := rfl

@[simp] theorem modPll_tide (u : Fin 36) (f : Plls → Plls) (s : State) : (modPll u f s).tide = s.tide := rfl

@[simp] theorem modPll_tideHi (u : Fin 36) (f : Plls → Plls) (s : State) : (modPll u f s).tideHi = s.tideHi := rfl

@[simp] theorem modPll_hostA (u : Fin 36) (f : Plls → Plls) (s : State) : (modPll u f s).hostA = s.hostA := rfl

@[simp] theorem modPll_hostB (u : Fin 36) (f : Plls → Plls) (s : State) : (modPll u f s).hostB = s.hostB := rfl

@[simp] theorem modPll_lock (u : Fin 36) (f : Plls → Plls) (s : State) : (modPll u f s).lock = s.lock := rfl

@[simp] theorem modPll_i3c (u : Fin 36) (f : Plls → Plls) (s : State) : (modPll u f s).i3c = s.i3c := rfl

@[simp] theorem modPll_peer (u : Fin 36) (f : Plls → Plls) (s : State) : (modPll u f s).peer = s.peer := rfl

@[simp] theorem modPll_warden (u : Fin 36) (f : Plls → Plls) (s : State) : (modPll u f s).warden = s.warden := rfl

@[simp] theorem modPll_seq (u : Fin 36) (f : Plls → Plls) (s : State) : (modPll u f s).seq = s.seq := rfl

@[simp] theorem modPll_log (u : Fin 36) (f : Plls → Plls) (s : State) : (modPll u f s).log = s.log := rfl

@[simp] theorem modPll_queues (u : Fin 36) (f : Plls → Plls) (s : State) : (modPll u f s).queues = s.queues := rfl

@[simp] theorem modPll_job (u : Fin 36) (f : Plls → Plls) (s : State) : (modPll u f s).job = s.job := rfl

@[simp] theorem modPll_exec (u : Fin 36) (f : Plls → Plls) (s : State) : (modPll u f s).exec = s.exec := rfl

@[simp] theorem modPll_gauges (u : Fin 36) (f : Plls → Plls) (s : State) : (modPll u f s).gauges = s.gauges := rfl

@[simp] theorem modPll_dies (u : Fin 36) (f : Plls → Plls) (s : State) : (modPll u f s).dies = s.dies := rfl

@[simp] theorem modPll_cores (u : Fin 36) (f : Plls → Plls) (s : State) : (modPll u f s).cores = s.cores := rfl

@[simp] theorem modPll_coreStore (u : Fin 36) (f : Plls → Plls) (s : State) : (modPll u f s).coreStore = s.coreStore := rfl

@[simp] theorem modPll_memStacks (u : Fin 36) (f : Plls → Plls) (s : State) : (modPll u f s).memStacks = s.memStacks := rfl

@[simp] theorem modPll_mem (u : Fin 36) (f : Plls → Plls) (s : State) : (modPll u f s).mem = s.mem := rfl

@[simp] theorem modPll_far (u : Fin 36) (f : Plls → Plls) (s : State) : (modPll u f s).far = s.far := rfl

@[simp] theorem modPll_links (u : Fin 36) (f : Plls → Plls) (s : State) : (modPll u f s).links = s.links := rfl

@[simp] theorem modPll_levee (u : Fin 36) (f : Plls → Plls) (s : State) : (modPll u f s).levee = s.levee := rfl

@[simp] theorem modPll_fabric (u : Fin 36) (f : Plls → Plls) (s : State) : (modPll u f s).fabric = s.fabric := rfl

@[simp] theorem modPll_twin (u : Fin 36) (f : Plls → Plls) (s : State) : (modPll u f s).twin = s.twin := rfl

@[simp] theorem modPll_flash (u : Fin 36) (f : Plls → Plls) (s : State) : (modPll u f s).flash = s.flash := rfl

@[simp] theorem modPll_inspect (u : Fin 36) (f : Plls → Plls) (s : State) : (modPll u f s).inspect = s.inspect := rfl

/-! ### endWhere -/

@[simp] theorem endWhere_pending (f : Accepted → Bool) (d : Done) (s : State) : (endWhere f d s).pending = s.pending := rfl

@[simp] theorem endWhere_now (f : Accepted → Bool) (d : Done) (s : State) : (endWhere f d s).now = s.now := rfl

@[simp] theorem endWhere_freeCtr (f : Accepted → Bool) (d : Done) (s : State) : (endWhere f d s).freeCtr = s.freeCtr := rfl

@[simp] theorem endWhere_out (f : Accepted → Bool) (d : Done) (s : State) : (endWhere f d s).out = s.out := rfl

@[simp] theorem endWhere_power (f : Accepted → Bool) (d : Done) (s : State) : (endWhere f d s).power = s.power := rfl

@[simp] theorem endWhere_plls (f : Accepted → Bool) (d : Done) (s : State) : (endWhere f d s).plls = s.plls := rfl

@[simp] theorem endWhere_tide (f : Accepted → Bool) (d : Done) (s : State) : (endWhere f d s).tide = s.tide := rfl

@[simp] theorem endWhere_tideHi (f : Accepted → Bool) (d : Done) (s : State) : (endWhere f d s).tideHi = s.tideHi := rfl

@[simp] theorem endWhere_hostA (f : Accepted → Bool) (d : Done) (s : State) : (endWhere f d s).hostA = s.hostA := rfl

@[simp] theorem endWhere_hostB (f : Accepted → Bool) (d : Done) (s : State) : (endWhere f d s).hostB = s.hostB := rfl

@[simp] theorem endWhere_lock (f : Accepted → Bool) (d : Done) (s : State) : (endWhere f d s).lock = s.lock := rfl

@[simp] theorem endWhere_i3c (f : Accepted → Bool) (d : Done) (s : State) : (endWhere f d s).i3c = s.i3c := rfl

@[simp] theorem endWhere_peer (f : Accepted → Bool) (d : Done) (s : State) : (endWhere f d s).peer = s.peer := rfl

@[simp] theorem endWhere_warden (f : Accepted → Bool) (d : Done) (s : State) : (endWhere f d s).warden = { s.warden with
    accepted := s.warden.accepted.map fun a => if a.done.isNone && f a then { a with done := some d } else a } := rfl

@[simp] theorem endWhere_seq (f : Accepted → Bool) (d : Done) (s : State) : (endWhere f d s).seq = s.seq := rfl

@[simp] theorem endWhere_log (f : Accepted → Bool) (d : Done) (s : State) : (endWhere f d s).log = s.log := rfl

@[simp] theorem endWhere_queues (f : Accepted → Bool) (d : Done) (s : State) : (endWhere f d s).queues = s.queues := rfl

@[simp] theorem endWhere_job (f : Accepted → Bool) (d : Done) (s : State) : (endWhere f d s).job = s.job := rfl

@[simp] theorem endWhere_exec (f : Accepted → Bool) (d : Done) (s : State) : (endWhere f d s).exec = s.exec := rfl

@[simp] theorem endWhere_gauges (f : Accepted → Bool) (d : Done) (s : State) : (endWhere f d s).gauges = s.gauges := rfl

@[simp] theorem endWhere_dies (f : Accepted → Bool) (d : Done) (s : State) : (endWhere f d s).dies = s.dies := rfl

@[simp] theorem endWhere_cores (f : Accepted → Bool) (d : Done) (s : State) : (endWhere f d s).cores = s.cores := rfl

@[simp] theorem endWhere_coreStore (f : Accepted → Bool) (d : Done) (s : State) : (endWhere f d s).coreStore = s.coreStore :=
    rfl

@[simp] theorem endWhere_memStacks (f : Accepted → Bool) (d : Done) (s : State) : (endWhere f d s).memStacks = s.memStacks :=
    rfl

@[simp] theorem endWhere_mem (f : Accepted → Bool) (d : Done) (s : State) : (endWhere f d s).mem = s.mem := rfl

@[simp] theorem endWhere_far (f : Accepted → Bool) (d : Done) (s : State) : (endWhere f d s).far = s.far := rfl

@[simp] theorem endWhere_links (f : Accepted → Bool) (d : Done) (s : State) : (endWhere f d s).links = s.links := rfl

@[simp] theorem endWhere_levee (f : Accepted → Bool) (d : Done) (s : State) : (endWhere f d s).levee = s.levee := rfl

@[simp] theorem endWhere_fabric (f : Accepted → Bool) (d : Done) (s : State) : (endWhere f d s).fabric = s.fabric := rfl

@[simp] theorem endWhere_twin (f : Accepted → Bool) (d : Done) (s : State) : (endWhere f d s).twin = s.twin := rfl

@[simp] theorem endWhere_flash (f : Accepted → Bool) (d : Done) (s : State) : (endWhere f d s).flash = s.flash := rfl

@[simp] theorem endWhere_inspect (f : Accepted → Bool) (d : Done) (s : State) : (endWhere f d s).inspect = s.inspect := rfl

/-! ### modHost -/

@[simp] theorem modHost_pending (p : HPort) (f : HostPort → HostPort) (s : State) : (modHost p f s).pending = s.pending := by
    cases p <;> rfl

@[simp] theorem modHost_now (p : HPort) (f : HostPort → HostPort) (s : State) : (modHost p f s).now = s.now := by cases p <;>
    rfl

@[simp] theorem modHost_freeCtr (p : HPort) (f : HostPort → HostPort) (s : State) : (modHost p f s).freeCtr = s.freeCtr := by
    cases p <;> rfl

@[simp] theorem modHost_out (p : HPort) (f : HostPort → HostPort) (s : State) : (modHost p f s).out = s.out := by cases p <;>
    rfl

@[simp] theorem modHost_power (p : HPort) (f : HostPort → HostPort) (s : State) : (modHost p f s).power = s.power := by cases p
    <;> rfl

@[simp] theorem modHost_plls (p : HPort) (f : HostPort → HostPort) (s : State) : (modHost p f s).plls = s.plls := by cases p <;>
    rfl

@[simp] theorem modHost_tide (p : HPort) (f : HostPort → HostPort) (s : State) : (modHost p f s).tide = s.tide := by cases p <;>
    rfl

@[simp] theorem modHost_tideHi (p : HPort) (f : HostPort → HostPort) (s : State) : (modHost p f s).tideHi = s.tideHi := by cases
    p <;> rfl

@[simp] theorem modHost_lock (p : HPort) (f : HostPort → HostPort) (s : State) : (modHost p f s).lock = s.lock := by cases p <;>
    rfl

@[simp] theorem modHost_i3c (p : HPort) (f : HostPort → HostPort) (s : State) : (modHost p f s).i3c = s.i3c := by cases p <;>
    rfl

@[simp] theorem modHost_peer (p : HPort) (f : HostPort → HostPort) (s : State) : (modHost p f s).peer = s.peer := by cases p <;>
    rfl

@[simp] theorem modHost_warden (p : HPort) (f : HostPort → HostPort) (s : State) : (modHost p f s).warden = s.warden := by cases
    p <;> rfl

@[simp] theorem modHost_seq (p : HPort) (f : HostPort → HostPort) (s : State) : (modHost p f s).seq = s.seq := by cases p <;>
    rfl

@[simp] theorem modHost_log (p : HPort) (f : HostPort → HostPort) (s : State) : (modHost p f s).log = s.log := by cases p <;>
    rfl

@[simp] theorem modHost_queues (p : HPort) (f : HostPort → HostPort) (s : State) : (modHost p f s).queues = s.queues := by cases
    p <;> rfl

@[simp] theorem modHost_job (p : HPort) (f : HostPort → HostPort) (s : State) : (modHost p f s).job = s.job := by cases p <;>
    rfl

@[simp] theorem modHost_exec (p : HPort) (f : HostPort → HostPort) (s : State) : (modHost p f s).exec = s.exec := by cases p <;>
    rfl

@[simp] theorem modHost_gauges (p : HPort) (f : HostPort → HostPort) (s : State) : (modHost p f s).gauges = s.gauges := by cases
    p <;> rfl

@[simp] theorem modHost_dies (p : HPort) (f : HostPort → HostPort) (s : State) : (modHost p f s).dies = s.dies := by cases p <;>
    rfl

@[simp] theorem modHost_cores (p : HPort) (f : HostPort → HostPort) (s : State) : (modHost p f s).cores = s.cores := by cases p
    <;> rfl

@[simp] theorem modHost_coreStore (p : HPort) (f : HostPort → HostPort) (s : State) : (modHost p f s).coreStore = s.coreStore :=
    by cases p <;> rfl

@[simp] theorem modHost_memStacks (p : HPort) (f : HostPort → HostPort) (s : State) : (modHost p f s).memStacks = s.memStacks :=
    by cases p <;> rfl

@[simp] theorem modHost_mem (p : HPort) (f : HostPort → HostPort) (s : State) : (modHost p f s).mem = s.mem := by cases p <;>
    rfl

@[simp] theorem modHost_far (p : HPort) (f : HostPort → HostPort) (s : State) : (modHost p f s).far = s.far := by cases p <;>
    rfl

@[simp] theorem modHost_links (p : HPort) (f : HostPort → HostPort) (s : State) : (modHost p f s).links = s.links := by cases p
    <;> rfl

@[simp] theorem modHost_levee (p : HPort) (f : HostPort → HostPort) (s : State) : (modHost p f s).levee = s.levee := by cases p
    <;> rfl

@[simp] theorem modHost_fabric (p : HPort) (f : HostPort → HostPort) (s : State) : (modHost p f s).fabric = s.fabric := by cases
    p <;> rfl

@[simp] theorem modHost_twin (p : HPort) (f : HostPort → HostPort) (s : State) : (modHost p f s).twin = s.twin := by cases p <;>
    rfl

@[simp] theorem modHost_flash (p : HPort) (f : HostPort → HostPort) (s : State) : (modHost p f s).flash = s.flash := by cases p
    <;> rfl

@[simp] theorem modHost_inspect (p : HPort) (f : HostPort → HostPort) (s : State) : (modHost p f s).inspect = s.inspect := by
    cases p <;> rfl

@[simp] theorem modHost_a_hostA (f : HostPort → HostPort) (s : State) : (modHost .a f s).hostA = f s.hostA := rfl

@[simp] theorem modHost_a_hostB (f : HostPort → HostPort) (s : State) : (modHost .a f s).hostB = s.hostB := rfl

@[simp] theorem modHost_b_hostA (f : HostPort → HostPort) (s : State) : (modHost .b f s).hostA = s.hostA := rfl

@[simp] theorem modHost_b_hostB (f : HostPort → HostPort) (s : State) : (modHost .b f s).hostB = f s.hostB := rfl

/-- A port that was changed reads as changed. -/
@[simp] theorem hostOf_modHost (p : HPort) (f : HostPort → HostPort) (s : State) : hostOf p (modHost p f s) = f (hostOf p s) := by
  cases p <;> rfl

/-- The other port stays. -/
theorem hostOf_modHost_ne {p q : HPort} (h : q ≠ p) (f : HostPort → HostPort) (s : State) : hostOf q (modHost p f s) = hostOf q s := by
  cases p <;> cases q <;> first | rfl | exact absurd rfl h

/-- A fabric port that was changed reads as changed. -/
@[simp] theorem fabOf_modFab (p : FPort) (f : FabPort → FabPort) (s : State) : fabOf p (modFab p f s) = f (fabOf p s) := by
  cases p <;> simp [fabOf, modFab, fportNo]

/-- Another fabric port stays. -/
theorem fabOf_modFab_ne {p q : FPort} (h : q ≠ p) (f : FabPort → FabPort) (s : State) : fabOf q (modFab p f s) = fabOf q s := by
  have hn : (fportNo p).val ≠ (fportNo q).val := by cases p <;> cases q <;> first | exact absurd rfl h | decide
  exact Vector.getElem_set_ne (fportNo p).isLt (fportNo q).isLt hn

end Sys2Proof.Laws
end

