-- ==== Sys2Proof/WellFormed.lean ====
section
/-! DEFINITION. Which commands the interfaces can carry: sizes and ranges that a link, a bus or a sensor fixes before the block sees
anything. The step checks again what the block itself has to check. -/

namespace Sys2Proof

/-- The bundles of a die link (R14, Table 1.2): ring 128, hub 64, stack 32, guest 16. -/
def bundlesOf (l : Fin 41) : Nat := if l.val < 4 then 128 else if l.val < 8 then 64 else if l.val < 40 then 32 else 16

/-- A core store holds 384 KiB (R4, R147). -/
def storeSize : Nat := 393216

/-- A place of an error that an ECC check found (R187, R171): one of 66 banks built, one of 17 ways built. -/
def Ecc.ok : Ecc → Bool
  | .clean => true
  | .corrected _ bank _ => decide (bank < 66)
  | .uncorrectable _ bank _ => decide (bank < 66)
  | .badWay way => decide (way < 17)
  | .bankFault _ bank => decide (bank < 66)

/-- A requester names one of the 1,088 cores of its die (Table 1.1). -/
def Requester.ok : Requester → Bool
  | .core _ c _ => decide (c < 1088)
  | _ => true

/-- A line request: an address of 52 bits; a read names a line, a write carries 1 to 128 bytes within it (R136, R161). -/
def LineReq.ok (r : LineReq) : Bool :=
  r.who.ok && r.ecc.ok && decide (r.addr < 2 ^ 52) && decide (r.dst < storeSize) &&
    (if r.write then decide (1 ≤ r.data.length) && decide (r.addr % 128 + r.data.length ≤ 128) else r.data.isEmpty)

/-- A narrow request: one to four sectors, each with its payload of 32 bytes where it writes (R172). -/
def NarrowReq.ok (writes : Bool) (r : NarrowReq) : Bool :=
  r.who.ok && r.ecc.ok && decide (1 ≤ r.addrs.length) && decide (r.addrs.length ≤ 4) && (r.addrs.all fun a => decide (a < 2 ^ 52)) &&
    decide (r.dst < storeSize) &&
    (if writes then decide (r.data.length = r.addrs.length) && r.data.all fun d => decide (d.length ≤ 32) else r.data.isEmpty)

/-- A request issued again is as well formed as it was. -/
def Reissue.ok : Reissue → Bool
  | .line r => r.ok
  | .gather r => r.ok false
  | .scatter r => r.ok true
  | .scatterAdd r => r.ok true

/-- A list of failed wires names the 72 wires of a bundle (Table 8.1). -/
def wiresOk (ws : List Nat) : Bool := ws.all fun w => decide (w < 72)

/-- What a link training reports names bundles of the link. -/
def TrainObs.ok (l : Fin 41) (o : TrainObs) : Bool := o.wires.all fun w => decide (w.bundle.val < bundlesOf l) && wiresOk w.wires

/-- A frame: 12 header bytes and 496 bytes of payload (R221). -/
def Frame.ok (f : Frame) : Bool := decide (f.hdr.length = 12) && decide (f.payload.length = 496)

/-- A guest request names an address of 52 bits and, for a narrow operation, at most four sectors (R211). -/
def GuestReq.ok (r : GuestReq) : Bool :=
  r.ecc.ok && decide (r.addr < 2 ^ 52) && decide (r.addrs.length ≤ 4) && decide (r.queue < 65536)

/-- A command that its interface can carry. -/
def Instr.wellFormed : Instr → Bool
  | .cdb _ _ es => decide (es.length ≤ 1024) && es.all fun e => decide (e.length = 128)
  | .doorbellPoll q => decide (q < 65536)
  | .doorbellUnmask q => decide (q < 65536)
  | .qdb _ q _ => decide (q < 65536)
  | .tidelo _ n => decide (1 ≤ n) && decide (n ≤ 4096)
  | .elseqlo _ n => decide (1 ≤ n) && decide (n ≤ 4096)
  | .registerWrite _ off d => decide (1 ≤ d.length) && decide (off + d.length ≤ 16777216)
  | .bar2Read _ off r => r.ecc.ok && decide (1 ≤ r.len) && decide (off + r.len ≤ 68719476736)
  | .bar2Write _ off w => w.ecc.ok && decide (1 ≤ w.data.length) && decide (off + w.data.length ≤ 68719476736)
  | .i3cPrivateWrite d => decide (1 ≤ d.length)
  | .lineRequest r => r.ok
  | .retryReissue r => r.ok
  | .gather r => r.ok false
  | .scatter r => r.ok true
  | .scatterAdd r => r.ok true
  | .land a l => decide (a < 2 ^ 52) && decide (1 ≤ l.length)
  | .add32 a x => x.ecc.ok && decide (a < 2 ^ 52) && decide (1 ≤ x.lanes.length)
  | .zero a n => decide (a < 2 ^ 52) && decide (1 ≤ n)
  | .parkedRequestAdmit _ b => decide (b < 4096)
  | .lineLanding _ c _ => decide (c < 1088)
  | .flit l _ b _ x n => decide (b.val < bundlesOf l) && decide (x.data.length = 64) && decide (n.length = 64)
  | .nak l _ b _ => decide (b.val < bundlesOf l)
  | .linkTraining l o => o.ok l
  | .bundleThreshold l _ b => decide (b.val < bundlesOf l)
  | .bundleWireTest l _ b ws => decide (b.val < bundlesOf l) && wiresOk ws
  | .guestRequest r => r.ok
  | .fabricFrame _ f => f.ok
  | .tileProductEnd _ _ _ _ fs => fs.all fun f => decide (f.row < 32) && decide (f.col < 32)
  | _ => true

end Sys2Proof
end

