-- ==== Sys2Proof/Tests/Slice0.lean ====
section
/-! SUPPORT. The model's own tests: ill-formed commands that the check refuses, and for each statement a state and operands that meet its
hypotheses, with one effect of the step there. Expected values come from the manual's tables and rules. -/

-- One theorem after the other: many at once take a thread each.
set_option Elab.async false

namespace Sys2Proof.Tests

open Machine

/-! ### The check of commands (one ill-formed term for each check) -/

theorem smoke_ill_formed :
    [Instr.cdb .a 1 [[]], .cdb .a 1 (List.replicate 1025 (List.replicate 128 0)), .doorbellPoll 65536, .doorbellUnmask 65536, .qdb .a 65536 0,
      .tidelo .a 0, .tidelo .a 4097, .elseqlo .a 0, .elseqlo .a 4097, .registerWrite .a 0 [], .registerWrite .a 16777215 [0, 0],
      .bar2Read .a 0 ⟨0, .clean⟩, .bar2Read .a 68719476735 ⟨2, .clean⟩, .bar2Read .a 0 ⟨1, .badWay 17⟩, .bar2Write .a 0 ⟨[], .clean⟩,
      .bar2Write .a 68719476735 ⟨[0, 0], .clean⟩, .i3cPrivateWrite [],
      .land 0 [], .land (2 ^ 52) [0], .add32 0 ⟨[], .clean⟩, .add32 (2 ^ 52) ⟨[0], .clean⟩, .add32 0 ⟨[0], .bankFault 0 66⟩, .zero 0 0, .zero (2 ^ 52) 8, .parkedRequestAdmit 0 4096,
      .lineLanding 0 1088 0, .flit 0 false 0 0 ⟨[], 0⟩ (List.replicate 64 0),
      .flit 0 false 0 0 ⟨List.replicate 64 0, 0⟩ [], .flit 8 false 32 0 ⟨List.replicate 64 0, 0⟩ (List.replicate 64 0), .nak 40 false 16 0,
      .bundleThreshold 4 false 64, .bundleWireTest 40 false 16 [], .bundleWireTest 0 false 0 [72],
      .linkTraining 40 ⟨true, (0, 0), (0, 0), [⟨false, 16, []⟩], (0, 0), (0, 0)⟩,
      .linkTraining 0 ⟨true, (0, 0), (0, 0), [⟨false, 0, [72]⟩], (0, 0), (0, 0)⟩,
      .guestRequest ⟨0, .lineRead, 2 ^ 52, 128, [], [], 0, .clean⟩, .guestRequest ⟨0, .gather, 0, 0, [0, 0, 0, 0, 0], [], 0, .clean⟩,
      .guestRequest ⟨0, .enqueue, 0, 0, [], [], 65536, .clean⟩, .guestRequest ⟨0, .lineRead, 0, 128, [], [], 0, .badWay 17⟩,
      .fabricFrame .xp ⟨0, false, 0, [], [], 0, (0, false, 0)⟩, .tileProductEnd 0 0 0 0 [⟨32, 0, 1, 0⟩],
      .tileProductEnd 0 0 0 0 [⟨0, 32, 1, 0⟩]].all
        (fun c => !c.wellFormed) = true := by decide +kernel

theorem smoke_ill_formed_requests :
    let r : LineReq := ⟨.hub, 0, 0, true, [1], .none, false, 0, .clean⟩
    let n : NarrowReq := ⟨.hub, 0, [0], [], 0, .clean, 0⟩
    ([{ r with data := [] }, { r with addr := 127, data := [1, 2] }, { r with addr := 2 ^ 52 }, { r with dst := 393216 },
      { r with write := false }, { r with who := .core 0 1088 0 }, { r with ecc := .corrected 0 66 0 },
      { r with ecc := .uncorrectable 0 66 0 }].all fun x => !(Instr.lineRequest x).wellFormed && !(Instr.retryReissue (.line x)).wellFormed) = true ∧
    ([{ n with addrs := [] }, { n with addrs := [0, 0, 0, 0, 0] }, { n with data := [[]] }, { n with dst := 393216 }].all
      fun x => !(Instr.gather x).wellFormed && !(Instr.retryReissue (.gather x)).wellFormed) = true ∧
    ([n, { n with data := [List.replicate 33 0] }].all fun x => !(Instr.scatter x).wellFormed && !(Instr.scatterAdd x).wellFormed &&
      !(Instr.retryReissue (.scatter x)).wellFormed && !(Instr.retryReissue (.scatterAdd x)).wellFormed) = true ∧
    (Instr.lineRequest r).wellFormed = true ∧ (Instr.gather n).wellFormed = true := by decide +kernel

/-! ### Small states -/

/-- A check of the state that a command answers. -/
def after (o : Host.Outcome State Fault Refusal) (f : State → Bool) : Bool :=
  match o with
  | .next t => f t
  | _ => false

/-- A link with every bundle of it in use. -/
def linkFull : DieLink := { DieLink.reset with up := true, masks := (BitVec.ofNat 128 (2 ^ 128 - 1), BitVec.ofNat 128 (2 ^ 128 - 1)) }

/-- A package that is ready: dies and stacks out of reset, die links up, both ports trained, the tide clock at 5 s. -/
def live : State :=
  { State.reset with
    now := 5000000000000
    power := { State.reset.power with phase := .ready }
    tide := { Tide.reset with running := true, tsync := true, loaded := true, count := 5000000000 }
    hostA := { HostPort.reset with inReset := false, state := 0 }
    hostB := { HostPort.reset with inReset := false, state := 0 }
    warden := { State.reset.warden with ready := true, major := 3 }
    dies := Vector.replicate 4 { Die.reset with inReset := false }
    memStacks := Vector.replicate 32 { Stack.reset with inReset := false }
    links := Vector.replicate 41 linkFull
    plls := Vector.replicate 36 { Plls.reset with lock0 := true, lock1 := true, standby := true, freq := 1200 } }

/-- A command entry: opcode, TAG 7, LOCKGEN 1, DATA 0x1000 where it has a length, ARGS. -/
def ent (op : Nat) (args : Bytes) (len : Nat := 0) : Bytes :=
  leBytes 2 op ++ leBytes 2 0 ++ leBytes 4 7 ++ leBytes 8 1 ++ leBytes 8 (if len = 0 then 0 else 0x1000) ++ leBytes 8 len ++ slice args 0 96

/-- A state with an entry at the front of port A's mailbox, whose port owns the lock. -/
def cmd (e : Bytes) (s : State) : State :=
  { s with
    hostA := { s.hostA with mb := { Mailbox.reset with en := true, clog := 4, plog := 5, cpi := 1, waiting := [e], cbaseLo := 1, pbaseLo := 1 } }
    lock := { s.lock with owner := some .a, gen := 1 } }

/-- Whether a command waits and nothing calls for its refusal. -/
def offered (op : Nat) (mb : Mbox) (e : Bytes) (s : State) : Bool :=
  headEntry mb s == some e && entOp e == op && canAccept mb s && refusalOf mb e s == 0

theorem offered_spec {op : Nat} {mb : Mbox} {e : Bytes} {s : State} (h : offered op mb e s = true) : Offered op mb e s := by
  simp only [offered, Bool.and_eq_true, beq_iff_eq] at h
  exact ⟨⟨h.1.1.1, h.1.1.2, h.1.2⟩, h.2⟩

/-- Whether an accepted command has ended with a status and a RESULT. -/
def ended (status result : Nat) (t : State) : Bool :=
  t.warden.accepted.any fun a => (a.done.map fun d => (d.status, d.result)) == some (status, result)

/-- Whether a command is at work. -/
def atWork (t : State) : Bool := t.warden.accepted.any fun a => a.started && a.done.isNone

/-- The newest event's code and first two words. -/
def newest (t : State) : Option (Nat × Nat × Nat) := t.log.head?.map fun l => (l.code, l.d0, l.d1)

/-! ### The step, the log, refusals, acceptance -/

theorem witness_StepRunsFront : ({ live with pending := [.nop .hostA] } : State).pending = Instr.nop .hostA :: [] := rfl

theorem witness_IdleStep :
    live.pending = [] ∧ live.tide.running = true ∧ after (step live) (fun t => decide (t.tide.count = 5000000001)) = true ∧
      after (step { live with now := 999, tide := { live.tide with slew := 5 } }) (fun t => decide (t.tide.count = 5000000002)) = true ∧
      after (step { live with now := 999, tide := { live.tide with slew := -5 } }) (fun t => decide (t.tide.count = 5000000000)) = true := by
  decide +kernel

theorem witness_CommandsOnlyAdd :
    after (exec .peerCompletion live) (fun t => t.pending == live.pending && t.now == live.now && t.seq == live.seq) = true ∧
      ∀ held, Instr.peerCompletion ≠ .powerOnReset held := ⟨by decide +kernel, fun _ h => nomatch h⟩

theorem witness_EventLogStaysWhole : LogOk State.reset ∧ ∃ t, step State.reset = .next t :=
  ⟨⟨by decide, fun _ h => absurd h (Nat.not_lt_zero _)⟩, _, rfl⟩

theorem witness_MemoryStaysCanonical : MemOk State.reset ∧ ∃ t, step State.reset = .next t := ⟨⟨by decide, by decide⟩, _, rfl⟩

theorem witness_Refusals :
    let e := ent 0x0001 [] 64
    cmdOf (.nop .hostA) = some (0x0001, .hostA) ∧ headEntry .hostA (cmd e live) = some e ∧ canAccept .hostA (cmd e live) = true ∧
      refusalOf .hostA e (cmd e live) = 5 ∧ after (exec (.nop .hostA) (cmd e live)) (fun t => decide (newest t = some (0x0003, 1, 2))) = true := by
  decide +kernel

theorem witness_Refusals_order :
    refusalOf .hostA (ent 0x0777 []) live = 2 ∧ refusalOf .i3c (ent 0x0007 [] 64) live = 2 ∧
      refusalOf .hostA (ent 0x0104 []) { live with warden := { live.warden with recov := true } } = 2 ∧
      refusalOf .hostA (ent 0x0001 [1]) live = 1 ∧ refusalOf .hostA (ent 0x0104 []) live = 3 ∧
      refusalOf .hostA (ent 0x0103 []) (cmd [] live) = 4 ∧ refusalOf .hostA (ent 0x0002 []) live = 5 := by decide +kernel

theorem witness_Acceptance :
    let e := ent 0x0308 [12]
    offered 0x0308 .hostA e (cmd e live) = true ∧ cmdOf (.inspectCfg .hostA) = some (0x0308, .hostA) ∧
      after (exec (.inspectCfg .hostA) (cmd e live)) (fun t => t.power.inspectHours == 12 && ended 0 0 t) = true := by decide +kernel

/-- A command that needs the lock and is at work. -/
def busy : Accepted :=
  { mb := .hostA, entry := ent 0x0102 [], acceptedAt := 0, deadline := 9000000000, locked := true, started := true, aux := 0, orphan := false,
    done := none, ext := .none }

theorem witness_Acceptance_waits :
    let e := ent 0x0308 [12]
    let s := cmd e { live with warden := { live.warden with accepted := [busy], lockedDeadline := 9000000000 } }
    offered 0x0308 .hostA e s = true ∧ s.warden.accepted.find? (·.locked) = some busy ∧
      after (exec (.inspectCfg .hostA) s) (fun t => t.power.inspectHours == 24 && t.warden.lockedDeadline == 9001000000) = true := by
  decide +kernel

/-! ### Ports, inputs, power, resets -/

theorem witness_PortResets :
    poweredUp live = true ∧ after (exec (.perstAssert .a 2000 10000000) live) (fun t => t.hostA.held && t.hostA.inReset) = true ∧
      portAlive .b live = true ∧ after (exec (.functionLevelReset .b) live) (fun t => decide (newest t = some (0x0062, 1, 1))) = true ∧
      live.hostA.state ≠ 2 ∧ after (exec (.pcieLinkLoss .a) live) (fun t => t.hostA.state == 2 && !t.hostA.inReset) = true := by
  decide +kernel

theorem witness_PortsTrain :
    let s : State := { live with hostA := { live.hostA with held := true, inReset := true, state := 2 } }
    canTrain .a s = true ∧ s.hostA.held = true ∧ (inputOf (perstOf .a) s).masked = false ∧
      after (exec (.perstRelease .a false) s) (fun t => t.hostA.state == 1 && !t.hostA.inReset) = true ∧
      canTrain .b live = true ∧ live.hostB.inReset = false ∧
      after (exec (.pcieRateChange .b true) live) (fun t => t.hostB.state == 0 && t.seq == 0) = true := by decide +kernel

theorem witness_BoardInputs :
    let m : InputSt := { InputSt.reset with masked := true, count := 3, logged := 2, lastLog := some 4999990000000 }
    let s : State := { live with power := { live.power with perstA := m } }
    poweredUp live = true ∧ after (exec (.perstAssert .a 1999 0) live) (fun t => t.power.perstA.count == 1 && !t.hostA.inReset) = true ∧
      (inputOf .perstA s).masked = true ∧
      after (exec (.inputUnmask .perstA 1000000000) s) (fun t => !t.power.perstA.masked && t.power.perstA.count == 4) = true ∧
      (inputOf .perstA s).logged < (inputOf .perstA s).count ∧ 4999990000000 + 10000000 ≤ s.now ∧
      after (exec (.inputEventLog .perstA) s) (fun t => decide (newest t = some (0x0063, 1, 0) ∧ t.power.perstA.logged = 3)) = true := by
  decide +kernel

theorem witness_PowerUp :
    let w : State := { State.reset with power := { State.reset.power with phase := .waitOsc }, now := 10000000000 }
    State.reset.power.phase = .off ∧
      after (exec (.pwrokRise 2000 10000000 ⟨3, 1, 0, 0, 0, 0⟩) State.reset) (fun t => decide (t.power.phase = .waitOsc) && physId t == 35) = true ∧
      w.power.phase = .waitOsc ∧ w.power.tP + oscDelay w.power.straps.oscdly.toNat ≤ w.now ∧
      after (exec .oscDelayExpiry w) (fun t => decide (t.power.phase = .polders) && t.tide.running) = true := by decide +kernel

theorem witness_Boot :
    let p : State := { State.reset with power := { State.reset.power with phase := .polders } }
    let b : State := { live with power := { live.power with phase := .booted }, tide := { live.tide with tsync := false, loaded := false } }
    p.power.phase = .polders ∧ b.power.pend = none ∧ after (exec .firmwareBoot p) (fun t => decide (t.power.phase = .recovery) && t.warden.recov) = true ∧
      b.power.phase = .booted ∧ b.tide.tsync = false ∧ (∀ q, (fabOf q b).up = false) ∧
      after (exec (.bootComplete ⟨true, 64, 16, true, true, 2 ^ 42, 1250, 1250⟩ ⟨false, 0, 0, false, false, 0, 0, 0⟩) b)
        (fun t => t.tide.tsync && t.warden.ready && t.far[0].st == 2 && t.far[1].st == 0) = true := by
  refine ⟨by decide +kernel, by decide +kernel, by decide +kernel, by decide +kernel, by decide +kernel, fun q => ?_, by decide +kernel⟩
  cases q <;> decide +kernel

/-- A package reset fixed for the instant before now. -/
def resetting (l : Nat) : State :=
  { live with power := { live.power with pend := some { level := l, tA := 4999999000000 } }, mem := [(5, 1), (0x100000000000, 2)] }

theorem witness_PowerOnReset :
    poweredUp (resetting 1) = true ∧ after (exec (.powerOnReset 2000) (resetting 1)) (fun t => t.mem == [(0x100000000000, 2)]) = true ∧
      after (exec (.powerOnReset 1999) (resetting 1)) (fun t => t.power.pwrok.count == 1) = true := by decide +kernel

theorem witness_WarmReset :
    resetDue 1 (resetting 1) = true ∧
      after (exec .warmReset (resetting 1)) (fun t => decide (t.power.phase = .booted)) = true ∧
      after (exec .warmReset (resetting 1)) (fun t => t.links[0].up) = true := by decide +kernel

theorem witness_ColdReset :
    resetDue 2 (resetting 2) = true ∧
      after (exec .coldReset (resetting 2)) (fun t => decide (t.power.phase = .polders) && !t.links[0].up) = true := by decide +kernel

theorem witness_PowerFailWarning :
    let s : State := { live with power := { live.power with pfail := true, pfailIn := { InputSt.reset with active := true } } }
    poweredUp live = true ∧ live.power.pfail = false ∧
      s.power.pfail = true ∧ s.power.pfailIn.masked = false ∧ s.power.thermtrip = false ∧
      after (exec (.pfailEnd 10000000) s) (fun t => !t.power.pfail) = true := by decide +kernel

theorem witness_Thermal :
    let s : State := { live with dies := Vector.replicate 4 { Die.reset with inReset := false, overTrip := true, hot := true } }
    clocked live = true ∧ after (exec (.junctionSample (.die 2) 106) live) (fun t => t.dies[2].hot && newest t == some (0x0072, 6, 8)) = true ∧
      s.dies[(2 : Fin 4)].overTrip = true ∧
      live.memStacks[(5 : Fin 32)].band ≤ 2 ∧
      after (exec (.stackThermalSample 5 106) live) (fun t => t.memStacks[5].band == 3 && t.memStacks[5].selfRefresh) = true := by decide +kernel

theorem witness_Rails :
    let s := setRail (.vcore 1) true live
    railStopped (.vcore 1) live = false ∧ clocked live = true ∧ railLimit (.vcore 1) < 1401 ∧
      after (exec (.overcurrentStop (.vcore 1) 1401 10000) live) (fun t => t.dies[1].ocStopped) = true ∧ live.power.tF + 10000000 ≤ live.now ∧
      after (exec (.railDeviation 1 826 1000000) live) (fun t => t.dies[1].ocStopped) = true ∧ railStopped (.vcore 1) s = true ∧
      s.job.abandoned = false ∧ after (exec (.overcurrentRestart (.vcore 1) 1000000) s) (fun t => !t.dies[1].ocStopped) = true := by
  decide +kernel

theorem witness_PllsAndBoost :
    let s : State := { live with plls := Vector.replicate 36 { Plls.reset with lock0 := true, freq := 1200 } }
    let b : State := { live with power := { live.power with boost := true } }
    let r : State := { live with job := { live.job with state := .running }, plls := live.plls.set 3 { live.plls[3] with losses := 1 } }
    clocked live = true ∧ live.plls[(3 : Fin 36)].lock0 = true ∧
      after (exec (.pllLossOfLock 3 0) live) (fun t => t.plls[3].active == 1 && !t.plls[3].standby) = true ∧
      after (exec (.pllLossOfLock 3 1) live) (fun t => t.plls[3].active == 0 && t.plls[3].losses == 1) = true ∧
      after (exec (.pllLossOfLock 3 1) r) (fun t => t.job.state == .failed && !t.plls[3].lock0) = true ∧
      toRelock s.plls[(3 : Fin 36)] = true ∧ after (exec (.pllRelock 3 true) s) (fun t => t.plls[3].standby) = true ∧
      b.power.boost = true ∧ b.plls[(1 : Fin 36)].standby = true ∧ b.plls[(1 : Fin 36)].lastChange + 1000000 ≤ b.now ∧
      after (exec (.boostStep 1 4 100 1330) b) (fun t => t.plls[1].freq == 1400 && t.plls[1].active == 1) = true := by decide +kernel

/-! ### The lock and the registers -/

theorem witness_Lock :
    let s : State := { live with lock := { live.lock with owner := some .a, gen := 1, leaseEnd := 5000000000000 } }
    portAlive .a live = true ∧ live.lock.owner = none ∧ s.lock.owner = some .a ∧ s.lock.leaseEnd ≤ s.now ∧
      after (exec (.acq .a 1) live) (fun t => t.lock.gen == 1 && newest t == some (0x0060, 0, 0)) = true ∧
      after (exec (.renew .a 2) s) (fun t => t.lock.leaseEnd == 5010000000000) = true ∧
      after (exec (.rel .a 4) s) (fun t => t.lock.owner.isNone) = true ∧
      after (exec (.rel .b 4) s) (fun t => t.lock.owner.isSome && newest t == some (0x0001, 0x1000, 4)) = true ∧
      after (exec (.lease .a 100) s) (fun t => t.lock.lease == 100) = true ∧
      after (exec (.lease .a 99) s) (fun t => t.lock.lease == 10000 && t.seq == 1) = true ∧
      after (exec .leaseExpiry s) (fun t => t.lock.owner.isNone && newest t == some (0x0060, 2, 0)) = true := by decide +kernel

theorem witness_CommandDoorbell :
    let c := (cmd [] live).hostA
    let s : State := { live with hostA := { c with mb := { c.mb with waiting := [] } } }
    let u : State := { live with hostA := { s.hostA with mb := { s.hostA.mb with waiting := [ent 0x0777 [], ent 0x0001 []], cpi := 2 } } }
    portAlive .a s = true ∧ after (exec (.cdb .a 16 (List.replicate 15 (ent 1 []))) s) (fun t => t.hostA.mb.waiting.length == 15) = true ∧
      after (exec (.cdb .a 17 []) s) (fun t => newest t == some (0x0061, 0, 1)) = true ∧
      after (exec (.cdb .a 1 []) s) (fun t => newest t == some (0x0061, 0, 0)) = true ∧
      u.hostA.mb.waiting.length ≤ 1024 ∧ headEntry .hostA (drain .hostA u) = some (ent 0x0001 []) ∧
      canAccept .hostA (drain .hostA u) = true := by decide +kernel

/-- A host-fed queue and a host-drained one of port A, four entries deep. -/
def hq (role : Nat) : HwQueue :=
  { queue := 16, role := role, port := .a, masked := false, depth := 4, pi := 2, ci := 1, esize := 64, ring := 0, prod := 0, cons := 0,
    remote := 0xFFFF, credits := 3, unseen := none, bad := [], lastBad := 0, lastPoll := 0 }

theorem witness_MaskingAndEnable :
    let c := (cmd [] live).hostA
    let s : State := { live with hostA := { c with mb := { c.mb with masked := true, unseen := [ent 1 []], waiting := [] } } }
    let q : State := { live with queues := [{ hq 2 with masked := true, unseen := some 3 }] }
    let off : State := { live with hostA := { c with mb := { c.mb with en := false } } }
    s.hostA.mb.masked = true ∧ s.hostA.mb.lastPoll + 10000 ≤ s.now ∧ s.hostA.mb.lastBad + 10000000 ≤ s.now ∧
      after (exec (.doorbellPoll 0) s) (fun t => t.hostA.mb.waiting.length == 1 && t.hostA.mb.masked) = true ∧
      after (exec (.doorbellUnmask 0) s) (fun t => t.hostA.mb.waiting.length == 1 && !t.hostA.mb.masked) = true ∧
      queueOf 16 q = some { hq 2 with masked := true, unseen := some 3 } ∧
      after (exec (.doorbellPoll 16) q) (fun t => (queueOf 16 t).map (·.pi) == some 3) = true ∧
      after (exec (.doorbellUnmask 16) q) (fun t => (queueOf 16 t).map (·.masked) == some false) = true ∧
      portAlive .a off = true ∧ off.hostA.mb.en = false ∧ ringsOk off.hostA.mb = true ∧ ringsOk live.hostA.mb = false ∧
      after (exec (.mailboxEnable .a 1) off) (fun t => t.hostA.mb.en) = true ∧
      after (exec (.mailboxEnable .a 1) live) (fun t => !t.hostA.mb.en && newest t == some (0x0001, 0x2030, 1)) = true := by decide +kernel

theorem witness_QueueDoorbell :
    let s : Nat → State := fun r => { live with queues := [hq r] }
    portAlive .a (s 2) = true ∧ queueOf 16 (s 2) = some (hq 2) ∧ queueOf 16 (s 3) = some (hq 3) ∧ qdbOk .b (hq 2) 3 = false ∧
      after (exec (.qdb .a 16 5) (s 2)) (fun t => (queueOf 16 t).map (·.pi) == some 5) = true ∧
      after (exec (.qdb .a 16 2) (s 3)) (fun t => (queueOf 16 t).map (fun q => (q.ci, q.credits)) == some (2, 4)) = true ∧
      after (exec (.qdb .b 16 3) (s 2)) (fun t => newest t == some (0x0061, 16, 1)) = true := by decide +kernel

theorem witness_WindowBaseAndLatches :
    portAlive .a live = true ∧ after (exec (.wbasehi .a 0x13F0) live) (fun t => t.hostA.base == 0x13F000000000) = true ∧
      after (exec (.wbasehi .a 0x400) live) (fun t => t.hostA.base == 0 && newest t == some (0x0001, 0x3014, 0x400)) = true ∧
      after (exec (.tidelo .a 8) live) (fun t => t.tideHi == 1 && t.out == [.readResp .a 0x20 (leBytes 8 5000000000)]) = true ∧
      after (exec (.elseqlo .a 4) live) (fun t => t.out == [.readResp .a 0x3020 [0, 0, 0, 0]]) = true := by decide +kernel

theorem witness_RegisterWrites :
    portAlive .a live = true ∧ live.hostA.mb.en = false ∧ (cmd [] live).hostA.mb.en = true ∧ writeMask 0x2034 = none ∧ writeMask 0 = some 0 ∧
      after (exec (.registerWrite .a 0x3000 [5, 0, 0, 0]) live) (fun t => t.hostA.irqen == 5) = true ∧
      after (exec (.registerWrite .a 0x2008 [6, 0, 0, 0]) live) (fun t => t.hostA.mb.clog == 6) = true ∧
      after (exec (.registerWrite .a 0x2008 [6, 0, 0, 0]) (cmd [] live)) (fun t => t.hostA.mb.clog == 4 && t.seq == 1) = true ∧
      after (exec (.registerWrite .a 0x3001 [1, 0, 0]) live) (fun t => t.hostA.irqen == 0 && t.seq == 1) = true ∧
      after (exec (.registerWrite .a 0x3000 [0x10, 0, 0, 0]) live) (fun t => newest t == some (0x0001, 0x3000, 16)) = true := by
  decide +kernel

/-! ### The commands of Table 10.8 -/

/-- Whether no command that needs the lock is at work. -/
def idle (s : State) : Bool := s.warden.accepted.all fun a => !a.locked

theorem idle_spec {s : State} (h : idle s = true) : LockedIdle s := by
  intro a ha
  simpa using List.all_eq_true.mp h a ha

/-- Whether a locked command is offered to an idle warden. -/
def ready (op : Nat) (e : Bytes) (s : State) : Bool := offered op .hostA e (cmd e s) && idle (cmd e s)

/-- The MAPPING record of one package: one layer, CKBYTES 65,536, no resource used (R354). -/
def mapping1 : Bytes := slice (leBytes 2 1 ++ leBytes 2 1 ++ leBytes 2 1 ++ [0, 1] ++ leBytes 4 4 ++ leBytes 4 4 ++ leBytes 8 0 ++ leBytes 8 65536) 0 512

/-- An image of that section and DIGEST: header and section table (R143, R144). -/
def imageBody : Bytes :=
  ascii "BNLJOB03" ++ leBytes 2 3 ++ leBytes 2 0x0432 ++ leBytes 4 2 ++ leBytes 8 688 ++ leBytes 8 99 ++ leBytes 8 1000000 ++ leBytes 4 10 ++
    leBytes 20 0 ++ leBytes 4 12 ++ leBytes 4 1 ++ leBytes 8 128 ++ leBytes 8 512 ++ leBytes 8 0 ++ leBytes 4 13 ++ leBytes 4 1 ++
    leBytes 8 640 ++ leBytes 8 48 ++ leBytes 8 0 ++ mapping1

/-- The whole image. -/
def image1 : Bytes := imageBody ++ sha384 imageBody

/-- A job of that image, DIGEST aside, in a state of Table 6.15, its twin package 9. -/
def job (st : JobState) : State :=
  { live with
    job := { JobCtl.reset with state := st, image := some (decodeImage (imageBody ++ leBytes 48 0)), tag := 5, cstep := 12, nextFirst := 12, t0 := 4987500000 }
    twin := { Twin.reset with phys := some 9 } }

/-- Packages 9 to 14 as neighbours at the six ports, each on feed 1. -/
def ring (s : State) : State :=
  { s with fabric := Vector.ofFn fun i =>
      { FabPort.reset with up := true, neigh := some { phys := 9 + i.val, port := i.val ^^^ 1, feed := 1, stepping := 0, job := false, jobtag := 0 } } }

theorem witness_ReadingCommands :
    let log : State := logEv 0x0071 0 1 0 0 0 (logEv 0x0071 0 0 0 0 0 live)
    let rd := ent 0x0004 (leBytes 8 2 ++ leBytes 2 4096) 256
    offered 0x0001 .hostA (ent 0x0001 []) (cmd (ent 0x0001 []) live) = true ∧
      offered 0x0002 .hostA (ent 0x0002 [] 4096) (cmd (ent 0x0002 [] 4096) live) = true ∧
      offered 0x0004 .hostA rd (cmd rd log) = true ∧ LogOk log ∧
      after (exec (.eventRead .hostA true) (cmd rd log)) (ended 0 2) = true ∧
      offered 0x0003 .hostA (ent 0x0003 [255, 2] 64) (cmd (ent 0x0003 [255, 2] 64) live) = true ∧
      offered 0x0005 .hostA (ent 0x0005 [] 4096) (cmd (ent 0x0005 [] 4096) live) = true ∧
      offered 0x0006 .hostA (ent 0x0006 [] 65536) (cmd (ent 0x0006 [] 65536) live) = true ∧
      after (exec (.ledgerRead .hostA true) (cmd (ent 0x0006 [] 65536) live)) (ended 0 4096) = true := by
  refine ⟨by decide +kernel, by decide +kernel, by decide +kernel, ⟨by decide +kernel, ?_⟩, by decide +kernel, by decide +kernel, by decide +kernel,
    by decide +kernel, by decide +kernel⟩
  intro i h
  match i, h with
  | 0, _ => rfl
  | 1, _ => rfl

theorem witness_ExportTensor :
    let en : TensorEntry := { tensor := 3, skind := 0x15, cls := 0, flags := 1, base := 2 ^ 60 + 4096, length := 8, dim0 := 4, dim1 := 1, unit := 0, stack := 0 }
    let j := job .stopped
    let s : State := { j with job := { j.job with image := some { decodeImage (imageBody ++ leBytes 48 0) with tensors := [en] } }, mem := [(4097, 9)] }
    let e := ent 0x0007 (leBytes 4 3) 64
    let z : State := { s with memStacks := s.memStacks.set 0 { s.memStacks[0] with stopped := true } }
    offered 0x0007 .hostA e (cmd e s) = true ∧ tensorOf 3 0x15 (cmd e s) = some en ∧ stretchCause [stretchOf en] (cmd e s) = none ∧
      offered 0x0007 .hostA e (cmd e z) = true ∧ stretchCause [stretchOf en] (cmd e z) ≠ none ∧
      after (exec (.exportTensor .hostA true) (cmd e z)) (ended 6 0) = true ∧
      after (exec (.exportTensor .hostA true) (cmd e s)) (fun t => ended 0 8 t && t.out.contains (.dataOut .hostA 4096 [0, 9, 0, 0, 0, 0, 0, 0])) = true := by
  decide +kernel

theorem witness_JobLoad :
    let e := ent 0x0101 (leBytes 4 0 ++ leBytes 2 5) 688
    let s : State := { live with twin := { Twin.reset with phys := some 9 } }
    ready 0x0101 e live = true ∧ live.twin.phys = none ∧ ready 0x0101 e s = true ∧ s.twin.phys ≠ none ∧ image1.length = entLen e ∧
      imageCheck image1 (loadArgs e) (cmd e s) = 0 ∧ stretchCause (loadStretches (decodeImage image1)) (cmd e s) = none ∧
      imageCheck (0 :: image1.drop 1) (loadArgs e) (cmd e s) = 1 ∧
      after (exec (.jobLoad .hostA (some (0 :: image1.drop 1))) (cmd e s)) (ended 7 1) = true ∧
      after (exec (.jobLoad .hostA none) (cmd e s)) (ended 9 0) = true ∧
      after (exec (.jobLoad .hostA (some image1)) (cmd e s)) (fun t => decide (t.job.state = .loaded) && t.job.cstep == 10) = true := by
  decide +kernel

theorem witness_Restore :
    let e := ent 0x0202 (leBytes 4 11)
    let s := cmd e (job .stopped)
    let im := decodeImage (imageBody ++ leBytes 48 0)
    let b := headerBytes 11 0 5 9 0 576 (leBytes 48 0) 0 ++ leBytes 320 0
    ready 0x0202 e (job .stopped) = true ∧ s.job.image = some im ∧ arg e 4 1 = 0 ∧ s.twin.phys ≠ none ∧ recordGood im 11 [] s = false ∧
      recordGood im 11 b s = true ∧ after (exec (.restore .hostA [] []) s) (fun t => ended 0x0A 0 t && t.job.invalid) = true ∧
      stretchCause (restoreStretches im) s = none ∧
      after (exec (.restore .hostA [] b) s) (fun t => ended 0 0 t && t.job.nextFirst == 12 && t.twin.rollback.map (·.1) == some 11) = true ∧
      ready 0x0202 e { job .stopped with twin := Twin.reset } = true := by decide +kernel

theorem witness_Restore_own :
    let e := ent 0x0202 (leBytes 4 11 ++ [1])
    let s := job .stopped
    let f : State := { s with far := Vector.replicate 2 { st := 2, cap := 2 ^ 41, wr := 1200, rd := 1200, linkUp := true } }
    ready 0x0202 e s = true ∧ arg e 4 1 = 1 ∧ stretchCause areaStretches (cmd e s) ≠ none ∧ ready 0x0202 e f = true ∧
      stretchCause areaStretches (cmd e f) = none ∧
      after (exec (.restore .hostA [] []) (cmd e s)) (fun t => ended 6 0 t && t.job == s.job) = true ∧
      after (exec (.restore .hostA [] []) (cmd e f)) (fun t => ended 0x0A 0 t && t.job.invalid) = true := by decide +kernel

theorem witness_JobStartStopUnload :
    let go := ent 0x0102 (leBytes 8 5002000000)
    let ab := { job .running with job := { (job .running).job with abandoned := true } }
    ready 0x0102 go (job .loaded) = true ∧
      after (exec (.jobStart .hostA) (cmd go (job .loaded))) (fun t => t.job.startAt == some 5002000000 && atWork t) = true ∧
      ready 0x0103 (ent 0x0103 []) (job .running) = true ∧ (job .running).job.abandoned = false ∧
      after (exec (.jobStop .hostA) (cmd (ent 0x0103 []) (job .running))) (fun t => t.job.stopping && atWork t) = true ∧
      ready 0x0103 (ent 0x0103 []) ab = true ∧ after (exec (.jobStop .hostA) (cmd (ent 0x0103 []) ab)) (ended 0 11) = true ∧
      ready 0x0104 (ent 0x0104 []) (job .stopped) = true ∧
      after (exec (.jobUnload .hostA) (cmd (ent 0x0104 []) (job .stopped))) (fun t => t.job == JobCtl.reset && ended 0 0 t) = true ∧
      ready 0x0201 (ent 0x0201 []) (job .running) = true ∧
      after (exec (.ckptStop .hostA) (cmd (ent 0x0201 []) (job .running))) (fun t => t.twin.sched == [13] && atWork t) = true := by decide +kernel

theorem witness_Pairing :
    let e := ent 0x0203 (leBytes 2 9)
    let far : State := { ring live with far := Vector.replicate 2 { st := 2, cap := 2 ^ 41, wr := 1200, rd := 1200, linkUp := true } }
    let h : State := { far with twin := { Twin.reset with held := [⟨9, 1, false, true, 4999999999⟩] } }
    let rq : State := { live with peer := { waiting := [⟨.xp, 9, true, false, ent 0x8001 (leBytes 2 9 ++ [1, 2])⟩], completions := [] } }
    ready 0x0203 e (ring live) = true ∧ openOps 0x0203 (cmd e (ring live)) = [] ∧ canTwin (ring live) = false ∧ canTwin far = true ∧
      ready 0x0203 e h = true ∧
      after (exec (.twinPair .hostA) (cmd e (ring live))) (fun t => ended 6 0 t && portTo 9 t == some .xp) = true ∧
      after (exec (.twinPair .hostA) (cmd e far)) atWork = true ∧
      after (exec (.twinPair .hostA) (cmd e h)) (fun t => ended 0 0 t && t.twin.phys == some 9) = true ∧
      ready 0x0204 (ent 0x0204 []) (job .stopped) = true ∧ rq.peer.waiting ≠ [] ∧
      after (exec .pairReq rq) (fun t => t.twin.held.map (·.phys) == [9] && t.twin.phys.isNone) = true := by decide +kernel

theorem witness_MemoryCommands :
    let e := ent 0x0301 [1, 0, 0, 0x80, 1]
    let f := ent 0x0302 [3]
    let s : State := { live with mem := [(5, 1), (2 ^ 37 + 5, 2), (2 ^ 42 - 1, 3)] }
    ready 0x0301 e s = true ∧ s.mem.wf = true ∧ s.coreStore.wf = true ∧ ready 0x0302 f live = true ∧
      after (exec (.memPolicy .hostA) (cmd e s)) (fun t => t.mem == [(2 ^ 37 + 5, 2)] && t.memStacks[31].policy && ended 0 0 t) = true ∧
      after (exec (.farTierSetup .hostA ⟨true, 64, 16, true, true, 2 ^ 43, 1029, 1029⟩ ⟨true, 64, 16, true, true, 0, 0, 0⟩) (cmd f live))
        (fun t => t.far[0] == ⟨2, 2 ^ 42, 1029, 1029, true⟩ && t.far[1].st == 0) = true := by decide +kernel

theorem witness_LeveeCommands :
    let g : State := { live with power := { live.power with gsite := true } }
    let j : State := { job .running with power := { live.power with gsite := true } }
    let w := ent 0x0303 ([2, 3] ++ leBytes 2 1000 ++ leBytes 4 0 ++ leBytes 8 (2 ^ 37) ++ leBytes 8 65536)
    let c := ent 0x0303 [7]
    ready 0x0303 c live = true ∧ live.power.gsite = false ∧ ready 0x0303 c (job .running) = true ∧ (job .running).power.gsite = false ∧ ready 0x0304 (ent 0x0304 []) live = true ∧
      after (exec (.leveeWindow .hostA) (cmd c live)) (ended 6 0) = true ∧ ready 0x0303 w g = true ∧ g.job.state ≠ .running ∧
      after (exec (.leveeWindow .hostA) (cmd w g)) (fun t => t.levee.windows[2].isOpen && t.levee.windows[2].rate == 1000 && ended 0 0 t) = true ∧
      ready 0x0303 c j = true ∧ j.job.state = .running ∧ after (exec (.leveeWindow .hostA) (cmd c j)) (fun t => t.levee.changes.length == 1) = true ∧
      ready 0x0304 (ent 0x0304 []) g = true ∧
      after (exec (.guestReset .hostA) (cmd (ent 0x0304 []) g)) (fun t => t.levee.resetUntil == 5000001000000) = true := by decide +kernel

theorem witness_UnitReset :
    let g : State := { live with power := { live.power with gsite := true } }
    let s : State := { live with coreStore := [(storeKey 3 0 0 - 1, 4), (storeKey 3 1087 393215, 5)] }
    ready 0x0305 (ent 0x0305 [0, 3]) s = true ∧ ready 0x0305 (ent 0x0305 [1, 31]) live = true ∧ ready 0x0305 (ent 0x0305 [2, 0]) live = true ∧
      ready 0x0305 (ent 0x0305 [2, 0]) g = true ∧
      after (exec (.unitReset .hostA) (cmd (ent 0x0305 [0, 3]) s)) (fun t => t.dies[3].inReset && t.coreStore == [(storeKey 3 0 0 - 1, 4)]) = true ∧
      after (exec (.unitReset .hostA) (cmd (ent 0x0305 [2, 0]) live)) (ended 6 0) = true := by decide +kernel

theorem witness_PackageCommandsAndTests :
    let l := ent 0x0402 ([3, 0, 1, 0] ++ leBytes 4 10000) 64
    let g := ent 0x0402 ([0, 0, 2, 0] ++ leBytes 4 10000) 64
    let z : State := { live with dies := live.dies.set 0 { live.dies[0] with inReset := true } }
    ready 0x0306 (ent 0x0306 [2]) (job .running) = true ∧
      after (exec (.pkgReset .hostA) (cmd (ent 0x0306 [2]) (job .running))) (fun t => decide (t.job.state = .failed)) = true ∧
      ready 0x0307 (ent 0x0307 [1]) live = true ∧ ready 0x0307 (ent 0x0307 [0]) live = true ∧ ready 0x0308 (ent 0x0308 [168]) live = true ∧
      ready 0x0401 (ent 0x0401 ([3] ++ leBytes 2 1087 ++ [1])) live = true ∧
      after (exec (.guardMode .hostA) (cmd (ent 0x0401 ([3] ++ leBytes 2 1087 ++ [1])) live)) (fun t => t.warden.guard == [(3, 1087)]) = true ∧
      ready 0x0402 l live = true ∧ after (exec (.linkTest .hostA false []) (cmd l live)) (ended 9 0) = true ∧
      ready 0x0402 g z = true ∧ after (exec (.linkTest .hostA true []) (cmd g z)) (ended 6 0) = true ∧
      ready 0x0403 (ent 0x0403 [0, 0] 64) z = true ∧
      after (exec (.coreScan .hostA true ⟨4, 1, 2, 1, 0⟩) (cmd (ent 0x0403 [0, 0] 64) z)) (ended 6 0) = true ∧
      ready 0x0403 (ent 0x0403 [0, 0] 64) live = true ∧ clusterStopped 0 live = false ∧
      after (exec (.coreScan .hostA true ⟨4, 1, 2, 1, 0⟩) (cmd (ent 0x0403 [0, 0] 64) live)) (ended 0 1) = true := by decide +kernel

theorem witness_Firmware :
    ready 0x0501 (ent 0x0501 [1] 64) live = true ∧ ready 0x0502 (ent 0x0502 [1]) live = true ∧
      after (exec (.fwWrite .hostA (some (leBytes 64 0))) (cmd (ent 0x0501 [1] 64) live)) (ended 8 0) = true ∧
      after (exec (.fwWrite .hostA none) (cmd (ent 0x0501 [1] 64) live)) (ended 9 0) = true := by decide +kernel

theorem witness_CompletionsAndManagementBus :
    let d : Accepted := { busy with done := some { status := 0, result := 11, fault := 0, at_ := 5000000000000 } }
    let c := (cmd [] live).hostA
    let s : State := { live with hostA := { c with mb := { c.mb with waiting := [] } }, warden := { live.warden with accepted := [d] } }
    let o : State := { live with warden := { live.warden with accepted := [{ d with orphan := true }] } }
    let b : State := { live with i3c := { live.i3c with done := [leBytes 32 7, leBytes 32 8], buffer := leBytes 40 9 } }
    s.warden.accepted[0]? = some d ∧ entOp d.entry ≠ 0x0306 ∧ mboxPort d.mb = some .a ∧ cplSpace d.mb s = true ∧
      after (exec (.commandCompletion 0) s) (fun t => t.warden.accepted.isEmpty && t.hostA.mb.ppi == 1 && newest t == some (0x0003, 0x0102, 1)) = true ∧
      o.warden.accepted[0]? = some { d with orphan := true } ∧ i3cUp live = true ∧ b.i3c.done = leBytes 32 7 :: [leBytes 32 8] ∧
      after (exec .i3cPrivateRead b) (fun t => t.out == [.i3cResp (leBytes 32 7)] && t.i3c.ibi) = true ∧ live.i3c.done = [] ∧
      after (exec (.i3cPrivateWrite (ent 0x0001 [])) live) (fun t => t.i3c.waiting.length == 1) = true := by decide +kernel

/-- A peer command of package 9 at the front of queue 6. -/
def peer (op : Nat) (args : Bytes) (s : State) : State :=
  { s with peer := { waiting := [{ port := .xp, src := 9, phys := true, bcast := false, bytes := ent op args }], completions := [] } }

theorem witness_CheckpointExchange :
    let x : CkptRx := { step := 11, slot := 0, length := 576, header := headerBytes 11 0 5 9 0 576 (leBytes 48 0) 0 }
    let j := job .running
    let rx : State := { j with twin := { j.twin with rx := some x } }
    let e : PeerEntry := { port := .xp, src := 9, phys := true, bcast := false, bytes := ent 0x8012 (leBytes 4 11) }
    let w : State := { j with twin := { j.twin with inProg := some 11, sent := some [1] } }
    fromTwin e j = true ∧ rxGood x 0 rx = true ∧
      after (exec .ckptBegin (peer 0x8011 (leBytes 4 11 ++ leBytes 4 1 ++ leBytes 8 576) j)) (fun t => (t.twin.rx.map (·.slot)) == some 1) = true ∧
      after (exec .ckptEnd (peer 0x8012 (leBytes 4 11) rx)) (fun t => t.twin.rx.isNone && memGet t.mem (slotAddr 0 0) == 0x42) = true ∧
      after (exec .ckptEnd (peer 0x8012 (leBytes 4 10) rx)) (fun t => t.twin.rx.isNone && t.mem.isEmpty) = true ∧
      after (exec .ckptSched (peer 0x8010 (leBytes 4 12) j)) (fun t => t.twin.sched == [12]) = true ∧
      after (exec .ckptAck (peer 0x8013 (leBytes 4 11 ++ [0]) w)) (fun t => t.twin.gaugesCopy == some (11, [1])) = true ∧
      after (exec .ckptAck (peer 0x8013 (leBytes 4 11 ++ [2]) w)) (fun t => t.twin.unprotected) = true := by decide +kernel

theorem witness_CheckpointCommit :
    let j := job .running
    let w : State := { j with twin := { j.twin with inProg := some 11, newOrigin := 4999000000, rollback := some (7, 0) } }
    logId w = 0 ∧ jobSize w = 1 ∧ w.twin.newOrigin + 1000000 ≤ tideNow w ∧
      after (exec .ckptCommit (peer 0x8015 (leBytes 4 11 ++ [0]) w)) (fun t => t.twin.rollback == some (11, 1) && t.twin.inProg.isNone) = true ∧
      after (exec .ckptCommit (peer 0x8015 (leBytes 4 11 ++ [1]) w)) (fun t => t.twin.rollback == some (7, 0)) = true ∧
      after (exec .ckptDone (peer 0x8014 (leBytes 4 11 ++ [0]) w)) (fun t => t.twin.rollback == some (11, 1)) = true ∧
      after (exec .ckptCommitTimeout w) (fun t => t.twin.rollback == some (7, 0) && t.twin.inProg.isNone) = true := by decide +kernel

theorem witness_FailuresAndRestores :
    let j := job .running
    let im := decodeImage (imageBody ++ leBytes 48 0)
    let j2 : State := { j with job := { j.job with image := some { im with mapping := { im.mapping with lz := 2 } } } }
    after (exec .failReport (peer 0x8020 (leBytes 2 0) j)) (fun t => decide (t.job.state = .failed) && t.exec.voided) = true ∧
      noReplica j = true ∧ noReplica j2 = false ∧
      after (exec .failReport (peer 0x8020 (leBytes 2 1) j)) (fun t => decide (t.job.state = .failed)) = true ∧
      after (exec .failReport (peer 0x8020 (leBytes 2 1) j2)) (fun t => decide (t.job.state = .stopped) && t.job.failStopped) = true ∧
      after (exec .restoreReq (peer 0x8030 (leBytes 4 11 ++ [1]) j)) (fun t => t.log.any fun l => l.code == 3 && l.d0 == 0x8030 && l.d2 == 6) = true ∧
      after (exec .copyReq (peer 0x8031 (leBytes 4 11) j)) (fun t => t.log.any fun l => l.code == 3 && l.d0 == 0x8031 && l.d2 == 6) = true := by
  decide +kernel

/-- The check value of CRC-32C, and SHA-384 of "abc" (the published values). -/
theorem test_hashes : crc32c (ascii "123456789") = 0xE3069283 ∧ (sha384 (ascii "abc")).take 4 = [0xCB, 0x00, 0x75, 0x3F] := by decide +kernel

/-- −100 as a high and a low plane (02, worked example). -/
theorem test_planes : planeHigh (-100) = -7 ∧ planeLow (-100) = 12 := by decide +kernel

/-- Two groups of the worked example on groups (02): a signed one and an unsigned one with ZP 1. -/
theorem test_groups :
    ((decodeGroup 0x7E00 [0x3F, 0x09] []).codes.take 4, (decodeGroup 0x7E00 [0x3F, 0x09] []).e) = ([-1, 3, -7, 0], -1) ∧
      (decodeGroup 0x7F18 [0x3F] []).eff 0 = 14 ∧ (decodeGroup 0x7F18 [0x3F] []).eff 1 = 2 := by decide +kernel

/-- The cost of a change of source: 64 outgoing and 192 incoming cycles, in ps (R310). -/
theorem test_change_cost : changeCost 25 1200 = 2720000 ∧ changeCost 1200 1250 = 206933 := by decide +kernel

/-- The next contract scale of a reduction (R241): without poison, with PNF, with PSAT. -/
theorem test_next_scale :
    nextScale 3 300000000 2 40 false false = 9 ∧ nextScale 3 300000000 2 40 false true = 3 ∧ nextScale 3 300000000 2 40 true false = 7 := by
  decide +kernel

/-- The check values that R34 and R196 give for the nine bytes "123456789". -/
theorem test_crc : crc16 (ascii "123456789") = 0x29B1 ∧ crc8 (ascii "123456789") = 0xF4 := by decide +kernel

/-! ### Memory -/

theorem live_cachesOk : CachesOk live := by
  refine ⟨by decide, fun i => ?_⟩
  have h : live.memStacks[i].cache = [] := by simp [live, Stack.reset]
  unfold CacheOk
  rw [h]
  exact ⟨List.nodup_nil, fun _ hc => absurd hc List.not_mem_nil⟩

/-- A clean request of hub DMA. -/
def hubReq (addr : Nat) (write : Bool) (data : Bytes) : LineReq := ⟨.hub, 3, addr, write, data, .none, false, 0, .clean⟩

/-- A narrow request of hub DMA. -/
def hubNarrow (addrs : List Nat) (data : List Bytes) : NarrowReq := ⟨.hub, 4, addrs, data, 0, .clean, 0⟩

theorem witness_FailedAccess :
    reqCause (.line (hubReq (2 ^ 42) false [])) live = some 1 ∧ reqCause (.line (hubReq 0x100000000000 false [])) live = some 2 ∧
      narrowOk (hubNarrow [0, 2 ^ 37] []) = true ∧ reqCause (.gather (hubNarrow [0, 2 ^ 37] [])) live = some 6 ∧
      reqCause (.scatter (hubNarrow [2 ^ 42] [[1]])) live = some 1 ∧ reqCause (.scatterAdd (hubNarrow [2 ^ 42] [[1]])) live = some 1 ∧
      adderOk (2 ^ 42) 8 = true ∧ accessCause .hub (2 ^ 42) 32 live = some 1 ∧
      after (exec (.gather (hubNarrow [0, 2 ^ 37] [])) live) (fun t => t.out.contains (.memDone .hub 4 .error []) && (newest t).map (·.1) == some 0x0010) = true := by
  decide +kernel

theorem witness_FailedAccess_stopped :
    let z : State := { live with memStacks := live.memStacks.set 1 { live.memStacks[1] with stopped := true }, dies := live.dies.set 1 { live.dies[1] with inReset := true } }
    let c : LineReq := { hubReq (24 * 2 ^ 37) false [] with who := .core 1 0 0 }
    z.memStacks[(1 : Fin 32)].stopped = true ∧ rangeOf (2 ^ 37) = .stack 1 ∧ reqCause (.line (hubReq (2 ^ 37) false [])) z = some 3 ∧
      rangeOf (8 * 2 ^ 37) = .stack 8 ∧ z.dies[ownerDie 8].inReset = true ∧ reqCause (.gather (hubNarrow [8 * 2 ^ 37] [])) z = some 4 ∧
      ringPath 0 2 z = false ∧ rangeOf c.addr = .stack 24 ∧ reqCause (.line c) z = some 4 := by decide +kernel

theorem witness_LineRequests :
    let r := hubReq (2 ^ 37 + 5) false []
    let w := hubReq (2 ^ 42 - 4) true [1, 2, 3, 4]
    let c : LineReq := { r with who := .core 1 1087 7, dst := 393088 }
    let cw : LineReq := { w with who := .core 1 1087 7 }
    let f : State := { live with far := Vector.replicate 2 { st := 2, cap := 2 ^ 30, wr := 1029, rd := 1029, linkUp := true } }
    let x := hubReq (0x100000000000 + 2 ^ 30 - 1) true [8]
    reqCause (.line r) live = none ∧ rangeOf r.addr = .stack 1 ∧ r.who.notCore = true ∧
      reqCause (.line w) live = none ∧ rangeOf w.addr = .stack 31 ∧ (∀ i : Fin 32, live.memStacks[i].banks = []) ∧
      w.addr % 128 + w.data.length ≤ 128 ∧ reqCause (.line c) live = none ∧ outstOf 1 1087 live = [] ∧ reqCause (.line cw) live = none ∧
      mayIssue 1 1087 1 [bankOf 1 (lineNo c.addr) live] c.dst 128 live = true ∧
      mayIssue 1 1087 31 [bankOf 31 (lineNo cw.addr) live] cw.dst 0 live = true ∧ reqCause (.line x) f = none ∧ rangeOf x.addr = .far 0 ∧
      after (exec (.lineRequest x) f) (fun t => t.mem == [(0x100000000000 + 2 ^ 30 - 1, 8)]) = true := by decide +kernel

theorem waitBank_live (r : MemReq) : waitBank r live = none := by
  simp [waitBank, roomIn, bankQ, live, Stack.reset]

theorem witness_NarrowPathAndAdder :
    let g := hubNarrow [2 ^ 37, 2 ^ 37 + 32] []
    let w := hubNarrow [2 ^ 37, 2 ^ 37 + 32] [[1], [2]]
    let a := hubNarrow [2 ^ 37 - 32] [[1]]
    narrowOk g = true ∧ rangeOf (g.addrs.headD 0) = .stack 1 ∧ reqCause (.gather g) live = none ∧ reqCause (.scatter w) live = none ∧
      narrowOk a = true ∧ reqCause (.scatterAdd a) live = none ∧ rangeOf (2 ^ 37 - 128) = .stack 0 ∧ adderOk (2 ^ 37 - 128) 32 = true ∧
      accessCause .hub (2 ^ 37 - 128) 128 live = none ∧ parkedWrites 0 live = [] := by decide +kernel

/-- The bank of line 0 of stack 0 with eight requests at work and `n` reads parked. -/
def fullQ (n : Nat) : BankQ :=
  { bank := bankOf 0 0 live, queue := List.replicate 8 (.line (hubReq 133 false [])), parked := List.replicate n (.line (hubReq 5 false [])) }

/-- A state with that bank. -/
def fullBank (n : Nat) : State := { live with memStacks := live.memStacks.set 0 { live.memStacks[0] with banks := [fullQ n] } }

theorem fullBank_banks (n : Nat) : (fullBank n).memStacks[(0 : Fin 32)].banks = [fullQ n] := rfl

theorem witness_BankQueues :
    let r := hubReq 5 false []
    let b := bankOf 0 0 live
    rangeOf r.addr = .stack 0 ∧ r.who.notCore = true ∧ reqCause (.line r) live = none ∧
      ∀ n, (bankQ 0 b (fullBank n)).parked.length = n ∧ (bankQ 0 b (fullBank n)).queue.length = 8 ∧
        waitBank (.line r) (fullBank n) = some b := by
  refine ⟨by decide +kernel, by decide +kernel, by decide +kernel, fun n => ?_⟩
  have hq : bankQ 0 (bankOf 0 0 live) (fullBank n) = fullQ n := by
    unfold bankQ
    rw [fullBank_banks]
    simp [fullQ]
  have hw : (fullQ n).parked.any (writesLine (MemReq.line (hubReq 5 false [])).addrs) = false := by
    rw [List.any_eq_false]
    intro x hx
    rw [List.eq_of_mem_replicate hx]
    decide
  have hs : (MemReq.line (hubReq 5 false [])).stack = 0 := by decide +kernel
  have hb : (MemReq.line (hubReq 5 false [])).banks (fullBank n) = [bankOf 0 0 live] := rfl
  refine ⟨by rw [hq]; simp [fullQ], by rw [hq]; simp [fullQ], ?_⟩
  unfold waitBank
  simp only [hs, fullBank_banks, List.find?, hw, hb]
  simp [roomIn, hq, fullQ]

/-- A core whose request was answered with RETRY. -/
theorem witness_BankQueues_reissue :
    let o : Outst := { id := 3, addr := 5, stack := 0, banks := [], thread := 7, dst := 0, len := 0, retryAt := some 4999999999000, resp := none }
    let s : State := { live with cores := [{ Core.idle 2 1087 with outst := [o] }] }
    let q := { hubReq 5 false [] with who := .core 2 1087 0 }
    (outstOf 2 1087 s).find? (fun o => o.id == (hubReq 5 false []).id) = some o ∧ o.retryAt = some 4999999999000 ∧ 4999999999000 ≤ s.now ∧
      after (exec (.retryReissue (.line q)) s) (fun t => (outstOf 2 1087 t).any fun x => x.resp.isSome) = true := by decide +kernel

theorem witness_LandingAndMaintenance :
    let o : Outst := { id := 3, addr := 0, stack := 0, banks := [], thread := 7, dst := 393215, len := 128, retryAt := none, resp := some (some [1, 2]) }
    let w : Watch := { id := 5, die := 0, core := 0, lo := 0, len := 128, dst := 0, stale := true, acked := false, overs := false }
    let h : HeldAck := { ack := .req .hub 9, addr := 0, len := 128, ids := [5] }
    let s : State := { live with
      cores := [{ Core.idle 2 1087 with outst := [o] }],
      memStacks := live.memStacks.set 4 { live.memStacks[4] with watch := [w], withheld := [h], writeQ := [(63, 256)] } }
    let two : State := { s with memStacks := s.memStacks.set 4 { s.memStacks[4] with withheld := [{ h with ids := [5, 6] }] } }
    let z : State := { s with power := { s.power with pfail := true } }
    (outstOf 2 1087 s).find? (fun o => o.id == 3) = some o ∧ clusterStopped 2 s = false ∧ clusterStopped 2 z = true ∧
      after (exec (.lineLanding 2 1087 3) s) (fun t => t.coreStore == [(storeKey 2 1087 393215, 1)]) = true ∧
      s.memStacks[(4 : Fin 32)].withheld = [h] ∧ two.memStacks[(4 : Fin 32)].withheld = [{ h with ids := [5, 6] }] ∧
      after (exec (.staleNoticeAck 4 5) two) (fun t => t.out.isEmpty && t.memStacks[4].withheld == [{ h with ids := [6] }]) = true ∧ after (exec (.staleNoticeAck 4 5) s) (fun t => t.out == [.memDone .hub 9 .ok []]) = true ∧
      256 ≤ writeCount 4 63 s ∧ after (exec (.writeDrain 4 63) s) (fun t => t.memStacks[4].writeQ.isEmpty) = true ∧ 3900 ≤ s.now ∧
      after (exec (.refresh 4 63) s) (fun t => t.memStacks[4].refreshed == [(63, 5000000000000)]) = true := by decide +kernel

theorem witness_Bar2AndFarTier :
    let q : HwQueue := { hq 2 with ring := 2 ^ 60 + 4096 }
    let j : State := { job .loaded with queues := [q] }
    let u : State := { job .running with far := Vector.replicate 2 { st := 2, cap := 2 ^ 30, wr := 1029, rd := 1029, linkUp := true } }
    portAlive .a live = true ∧ accessCause (.host .a) 0 1 live = none ∧ accessCause (.host .a) (2 ^ 36 - 8) 8 live = none ∧
      accessCause (.host .b) (2 ^ 42) 4 live = some 1 ∧ inHostRing .a 4096 256 j = true ∧ inHostRing .a 4096 257 j = false ∧ j.job.state ≠ .none ∧
      j.job.state ≠ .failed ∧ accessCause (.host .a) 4096 257 j = none ∧
      after (exec (.bar2Write .a 4096 ⟨List.replicate 257 1, .clean⟩) j) (fun t => t.mem.isEmpty && (newest t).map (·.1) == some 0x0010) = true ∧
      u.far[(1 : Fin 2)].linkUp = true ∧ after (exec (.farTierLinkDown 1) u) (fun t => t.far[1].st == 0 && !t.far[1].linkUp) = true := by
  decide +kernel
/-! ### Die links, levee, fabric, tide clock -/

theorem witness_BundleTraffic :
    let ok : BitVec 8 := BitVec.ofNat 8 (crc8 (slice [7] 0 64))
    let b : Nat → Bundle := fun n =>
      { Bundle.fresh true 127 with fails := n, tx := [(4, [1]), (5, [2])], errTimes := List.replicate 33 4999999999999, failed := [1] }
    let s : Nat → State := fun n => { live with links := Vector.replicate 41 { linkFull with bundles := [b n] } }
    let u : State := { live with links := Vector.replicate 41 { linkFull with bundles := [{ b 0 with testing := true }] } }
    let d : Bytes := slice [7] 0 64
    carries 40 true 127 (s 3) = true ∧ crc8 (slice [7] 0 64) = ok.toNat ∧ crc8 (slice [7] 0 64) ≠ (ok + 1).toNat ∧
      after (exec (.flit 40 true 127 0 ⟨[7], ok⟩ d) (s 0))
        (fun t => t.links[40].rx == [(true, 127, d)] && t.out == [.sb1 40 (.ack true 127 0)]) = true ∧
      after (exec (.flit 40 true 127 1 ⟨[7], ok⟩ d) (s 0)) (fun t => t.links[40].rx == []) = true ∧
      after (exec (.flit 40 true 127 0 ⟨[7], ok + 1⟩ d) (s 2)) (fun t => t.out == [.sb1 40 (.nak true 127 0)]) = true ∧
      after (exec (.flit 40 true 127 0 ⟨[7], ok + 1⟩ d) (s 3)) (fun t => !t.links[40].masks.2.getLsbD 127 && t.links[40].masks.1.getLsbD 127) = true ∧
      after (exec (.nak 40 true 127 5) (s 0)) (fun t => t.out == [.flitOut 40 true 127 5 [2] (wiresOf [1] [2])]) = true ∧
      after (exec (.bundleThreshold 40 true 127) (s 0)) (fun t => (bundleOf t.links[40] true 127).overs) = true ∧
      (bundleOf u.links[(40 : Fin 41)] true 127).testing = true ∧ sparesDo [1, 2] = true ∧ sparesDo [1, 2, 3, 4, 5] = false ∧
      after (exec (.bundleWireTest 40 true 127 [2]) u) (fun t => (bundleOf t.links[40] true 127).failed == [1, 2]) = true := by
  decide +kernel

theorem witness_LinksTrainAndDrop :
    let d : State := { live with links := Vector.replicate 41 DieLink.reset }
    let m : BitVec 128 := BitVec.ofNat 128 (2 ^ 20 - 1)
    let o : TrainObs := { present := true, tx := (m, m), rx := (m, 1), wires := [], flitFail := (0, 0), flitFail2 := (0, 0) }
    let s : State := { live with links := Vector.replicate 41 { linkFull with dropAt := some 4999999999000 } }
    endsReady 39 d = true ∧ d.links[(39 : Fin 41)].up = false ∧ s.links[(40 : Fin 41)].up = true ∧
      s.links[(40 : Fin 41)].dropAt = some 4999999999000 ∧
      after (exec (.linkTraining 39 o) d) (fun t => t.links[39].up && t.links[39].masks.2 == 1) = true ∧
      after (exec (.linkTraining 39 { o with present := false }) d) (fun t => !t.links[39].up) = true ∧
      after (exec (.linkDrop 40) s) (fun t => !t.links[40].up && t.out.contains (.sb1 40 .dropAck)) = true ∧
      after (exec (.dropAckTimeout 40) s) (fun t => !t.links[40].up) = true ∧
      after (exec (.forwardedClockLoss 40 100) s) (fun t => !t.links[40].up && t.links[39].up) = true := by decide +kernel

/-- A guest site with window 7 open for reads and writes on the first 64 KiB of stack 1. -/
def guest (level : Nat) : State :=
  { live with
    power := { live.power with gsite := true }
    levee := { Levee.reset with
      guestReset := false, buckets := Vector.replicate 8 { level := level, asOf := 5000000000000 },
      windows := Levee.reset.windows.set 7 { Window.closed with isOpen := true, read := true, write := true, rate := 1000, base := 2 ^ 37, size := 65536 } } }

theorem guest_cachesOk (n : Nat) : CachesOk (guest n) :=
  ⟨rfl, live_cachesOk.2⟩

theorem witness_GuestRequests :
    let s := guest 1000000
    let r : GuestReq := { id := 1, op := .lineRead, addr := 2 ^ 37 + 65408, len := 128, addrs := [], data := [], queue := 0, ecc := .clean }
    let w : GuestReq := { r with op := .lineWrite, data := [9], len := 1, addr := 2 ^ 37 + 65535 }
    let x : GuestReq := { r with op := .gather, addrs := [2 ^ 37], addr := 0 }
    let z : GuestReq := { r with addr := 2 ^ 37 + 65536 }
    let m : GuestReq := { r with op := .malformed }
    guestUp s = true ∧ leveeCheck r s = .ok 7 ∧ canAdmit 7 r s = true ∧ s.levee.held = [] ∧ rangeOf r.addr = .stack 1 ∧
      accessCause .guest r.addr 128 s = none ∧ leveeCheck w s = .ok 7 ∧ canAdmit 7 w s = true ∧ accessCause .guest w.addr 1 s = none ∧
      leveeCheck x s = .error 7 ∧ leveeCheck z s = .error 8 ∧ leveeCheck m s = .drop ∧ canAdmit 7 r (guest 0) = false ∧
      after (exec (.guestRequest r) (guest 0)) (fun t => t.levee.held == [(7, r)]) = true ∧
      after (exec (.guestRequest z) s) (fun t => t.levee.viols[8].count == 1 && t.out == [.guestResp 1 none]) = true := by decide +kernel

/-- A guest site with window 0 open for narrow requests on stack 2, and window 1 on queue 16, whose ring is in the far tier. -/
def guest2 (role : Nat) : State :=
  { guest 0 with
    queues := [{ hq role with ring := 2 ^ 60 + farBase 0 }]
    far := Vector.replicate 2 { st := 2, cap := 2 ^ 30, wr := 1029, rd := 1029, linkUp := true }
    levee := { (guest 0).levee with
      buckets := Vector.replicate 8 { level := 1000000, asOf := 5000000000000 },
      windows := ((guest 0).levee.windows.set 0
        { Window.closed with isOpen := true, read := true, write := true, narrow := true, rate := 1000, base := 2 ^ 38, size := 65536 }).set 1
        { Window.closed with isOpen := true, queue := true, rate := 1000, qfirst := 16, qcount := 1 } } }

theorem witness_GuestRequests_narrow :
    let s := guest2 1
    let g : GuestReq := { id := 1, op := .gather, addr := 0, len := 0, addrs := [2 ^ 38, 2 ^ 38 + 65504], data := [], queue := 0, ecc := .clean }
    let w : GuestReq := { g with op := .scatter, addrs := [2 ^ 38 + 32], data := List.replicate 32 3 }
    let e : GuestReq := { g with op := .enqueue, addrs := [], data := [9], queue := 16 }
    let d : GuestReq := { e with op := .dequeue, data := [] }
    guestUp s = true ∧ s.levee.held = [] ∧ leveeCheck g s = .ok 0 ∧ canAdmit 0 g s = true ∧ rangeOf (2 ^ 38) = .stack 2 ∧
      accessCause .guest (2 ^ 38) 32 s = none ∧ parkedWrites 2 s = [] ∧ leveeCheck w s = .ok 0 ∧ canAdmit 0 w s = true ∧
      leveeCheck e s = .ok 1 ∧ canAdmit 1 e s = true ∧ queueOf 16 s = some { hq 1 with ring := 2 ^ 60 + farBase 0 } ∧ queueFill (hq 1) = 1 ∧
      ringCause { hq 1 with ring := 2 ^ 60 + farBase 0 } 2 64 s = none ∧ leveeCheck d s = .ok 1 ∧ canAdmit 1 d s = true ∧
      after (exec (.guestRequest e) s) (fun t => (queueOf 16 t).map (·.pi) == some 3) = true ∧
      after (exec (.guestRequest d) s) (fun t => (queueOf 16 t).map (·.ci) == some 2) = true := by decide +kernel

theorem witness_LeveeWindowsAndTimers :
    let s := guest 1000000
    let r : GuestReq := { id := 1, op := .lineRead, addr := 2 ^ 37, len := 128, addrs := [], data := [], queue := 0, ecc := .clean }
    let x : GuestResp := { id := 4, addr := 5, data := [1], since := 4999999900000 }
    let h : State := { s with levee := { s.levee with
      held := [(7, r)], resps := [x], viols := s.levee.viols.set 8 { Viol.reset with count := 2, logged := 1, lastLog := some 4999990000000 } } }
    s.levee.held.find? (fun k => k.1 == 7) = none ∧ h.levee.held.find? (fun k => k.1 == 7) = some (7, r) ∧ leveeCheck r h = .ok 7 ∧
      canAdmit 7 r h = true ∧ h.levee.resps.find? (fun y => y.id == 4) = some x ∧ x.since + 100000 ≤ h.now ∧
      after (exec (.guestResponseTimeout 4) h) (fun t => t.levee.dropped == 1 && newest t == some (0x0042, 5, 1)) = true ∧
      after (exec (.leveeViolationLog 8) h) (fun t => t.levee.viols[8].logged == 2 && newest t == some (0x0040, 8, 2)) = true := by decide +kernel

/-- A received message of a type on a class, with STEP 12 and from package 0. -/
def msg (type cls : Nat) (ref offset : Nat) (payload : Bytes) : Msg :=
  { type := type, cls := cls, sub := false, axis := 0, pnf := false, psat := false, last := false, resend := false, bcast := false, src := 0,
    srcPhys := false, dst := 0, dstPhys := false, jobtag := 5, step := 12, ref := ref, offset := offset, digest := 0, payload := payload }

/-- A state with a message in the inbox of port X+, every port up. -/
def with1 (m : Msg) (s : State) : State :=
  { s with fabric := (ring s).fabric.set 0 { FabPort.reset with up := true, neigh := ((ring s).fabric[0]).neigh, inbox := [m] } }

/-- The payload of a frame that carries a whole message of 64 bytes of a type, LINKID's content, on class 2. -/
def linkidPayload (type : Byte) : Bytes :=
  slice ([0x32, 0] ++ leBytes 2 64 ++ [type, 2] ++ leBytes 2 0 ++ leBytes 2 0x8009 ++ leBytes 2 0x8000 ++ leBytes 2 0 ++ leBytes 2 1 ++
    leBytes 20 0 ++ leBytes 2 9 ++ [1, 1] ++ leBytes 28 0) 0 496

/-- A frame of a payload; its CRC, and how far it is off. -/
def frameOf (pl : Bytes) (off : Nat) : Frame :=
  { seq := 0, nak := false, ack := 0, hdr := [], payload := pl, crc := BitVec.ofNat 32 (crc32c (slice [] 0 12 ++ slice pl 0 496) + off) }

theorem witness_FabricFrames :
    frameOk .xp (frameOf (linkidPayload 0x0D) 0) (ring live) = true ∧
      after (exec (.fabricFrame .xp (frameOf (linkidPayload 0x0D) 0)) (ring live))
        (fun t => t.fabric[0].inbox.length == 1 && t.fabric[0].rxSeq == 1) = true := by decide +kernel

theorem witness_FabricFrames_dropped :
    frameOk .xp (frameOf (linkidPayload 0) 0) (ring live) = true ∧
      after (exec (.fabricFrame .xp (frameOf (linkidPayload 0) 0)) (ring live))
        (fun t => t.fabric[0].drops == 1 && (newest t).map (·.1) == some 0x0033) = true := by decide +kernel

theorem witness_FabricFrames_bad :
    frameOk .xp (frameOf (linkidPayload 0x0D) 1) (ring live) = false ∧
      after (exec (.fabricFrame .xp (frameOf (linkidPayload 0x0D) 1)) (ring live))
        (fun t => t.out == [.frameNak .xp 0] && t.fabric[0].fails == 1) = true := by decide +kernel

theorem witness_FabricFrames_message :
    let s := ring live
    let pl := linkidPayload
    let bs := fun (t : Byte) => slice (slice (pl t) 0 496) 4 64
    let n : State := { s with fabric := s.fabric.set 0 { s.fabric[0] with tx := [(1, [5], 0), (2, [6], 8)] } }
    field (pl 0x0D) 0 1 = 0x32 ∧ field (pl 0x0D) 2 2 = 64 ∧ dropCause 2 false (bs 0x0D) s = none ∧ forMe (parseMsg (bs 0x0D)) s = true ∧
      dropCause 2 false (bs 0) s = some 1 ∧ ((fabOf .xp n).tx.dropWhile fun e => e.1 != 2) = [(2, [6], 8)] ∧
      after (exec (.frameNak .xp 2) n) (fun t => !t.fabric[0].up) = true := by decide +kernel

theorem witness_FabricPorts :
    let s := ring live
    let m := msg 0x0D 2 0 0 (leBytes 2 9 ++ [1, 1] ++ leBytes 28 0)
    let h : State := { s with fabric := s.fabric.set 0 { s.fabric[0] with half := 2, failLow := true } }
    (fabOf .xp s).up = true ∧ serdesOn live = true ∧ (fabOf .zm live).up = false ∧ frontMsg .xp 2 0x0D false (with1 m live) = some m ∧
      after (exec (.laneFailure .xp 7) s) (fun t => t.fabric[0].half == 2 && t.fabric[0].up) = true ∧
      after (exec (.laneFailure .xp 8) h) (fun t => !t.fabric[0].up) = true ∧
      after (exec (.fabricPortUp .zm false true) live) (fun t => t.fabric[5].up && t.fabric[5].half == 2) = true ∧
      after (exec (.linkid .xp false) (with1 m live)) (fun t => (t.fabric[0].neigh.map (·.phys)) == some 9) = true := by decide +kernel

theorem witness_TideClock :
    let s := ring live
    let rq := msg 0x0A 2 0 0 (leBytes 8 4999999000 ++ leBytes 24 0)
    let rs : Msg :=
      { msg 0x0A 2 1 0 (leBytes 8 4999999000 ++ leBytes 8 5000000500 ++ leBytes 8 5000000500 ++ [1, 0] ++ leBytes 2 9 ++ leBytes 4 0) with
        at_ := 5000000000 }
    let f : State := { s with tide := { s.tide with tsync := false, loaded := false } }
    let c : State := { s with tide := { s.tide with parent := some .xp, root := 9, lastValid := 4999998000000 } }
    let e : State := { live with tide := { live.tide with tsync := false, loaded := false, tR := 4999960000000, lowest := 0 } }
    syncing s = true ∧ s.tide.lastReq + 1000000 ≤ s.now ∧ (fabOf .xp s).up = true ∧ frontMsg .xp 2 0x0A false (with1 rq s) = some rq ∧
      frontMsg .xp 2 0x0A false (with1 rs f) = some rs ∧
      bestParent (fun _ => true) (hearSync .xp rs (dropFront .xp 2 false (with1 rs f))) = some .xp ∧
      after (exec .syncPeriod s) (fun t => t.tide.lastReq == 5000000000000) = true ∧
      after (exec (.syncResponse .xp false) (with1 rs f)) (fun t => t.tide.tsync && t.tide.hops == 1 && t.tide.count == 5000001000) = true ∧
      after (exec (.syncResponse .xp false) (with1 rs c)) (fun t => t.tide.slew == 1000 && t.tide.count == 5000000000) = true ∧
      c.tide.lastValid + 2000000 ≤ c.now ∧ after (exec .tideUnsync c) (fun t => !t.tide.tsync) = true ∧
      physId e ≤ e.tide.lowest ∧ after (exec .rootElection e) (fun t => t.tide.tsync && t.tide.hops == 0) = true := by decide +kernel
/-! ### Collectives, queues, notices, peer writes -/

/-- A plan entry over the Z axis: eight int32 elements from 4,096 to 8,192. -/
def red7 : PlanEntry :=
  { redid := 7, kind := 0, axes := 0, peers := 0, elems := 8, cslot := 0, src := 2 ^ 60 + 4096, dst := 2 ^ 60 + 8192, token := 5, deadline := 700000,
    dur := 1000 }

/-- A running job of two packages along Z with that plan, tasks, and this package at position 0. -/
def jobZ (tasks : List TaskRec) (r : PlanEntry) : State :=
  let j := job .running
  let im := decodeImage (imageBody ++ leBytes 48 0)
  let im := { im with mapping := { im.mapping with lz := 2, rings := 4 }, plan := [r], tasks := tasks, spikef := 1, spkact := 1 }
  { ring j with job := { j.job with image := some im, ts := 12, t0 := 4999500000 } }

/-- A CONTRIB or RESULT of the first four elements of reduction 7. -/
def elems4 (type : Nat) (dig : Nat) : Msg := { msg type 3 7 0 (elemBytes 0 [1, 2, 3, -4]) with axis := 2, digest := dig }

theorem witness_Contributions :
    let s := jobZ [] red7
    let d := digestAt 0 12 7 0 [1, 2, 3, -4] s
    let m := elems4 1 d
    let own : Piece := ⟨0, 0, [10, 20, 30, 40], 0, false, false⟩
    let t := with1 m s
    let o : State := { t with exec := { t.exec with reds := [{ RedRun.new 7 12 with have_ := [own] }] } }
    frontMsg .xp 3 0x01 false t = some m ∧ planRec 7 t = some red7 ∧ t.job.state = .running ∧ t.exec.voided = false ∧
      levelIdx (levelsOf red7 t) m.axis = some 0 ∧ outdated red7 m t = false ∧ parkedWrites 0 t = [] ∧ elemsOf 0 m.payload = [1, 2, 3, -4] ∧
      digestAt 0 12 7 0 (elemsOf 0 m.payload) t = m.digest ∧ (redOf 7 12 t).held = [] ∧ (redOf 7 12 t).have_ = [] ∧
      segOf (levelsOf red7 o) 0 8 0 = 0 ∧ inputAt (redOf 7 12 o).have_ 0 2 0 4 = some ([10, 20, 30, 40], false, false) ∧
      nextHop 512 o = some (2, true) ∧ (fabOf .zp o).up = true ∧
      after (exec (.contrib .xp false) o) (fun t => t.out.any fun x => match x with
        | .msg .zp x => x.dst == 512 && elemsOf 0 x.payload == [11, 22, 33, 36]
        | _ => false) = true ∧
      after (exec (.contrib .xp false) (with1 (elems4 1 (d + 1)) s)) (fun t => (t.exec.notices.map (·.amount)) == [3000]) = true := by
  decide +kernel

theorem witness_ResultsAndExchanges :
    let s := jobZ [] red7
    let d := digestAt 0 12 7 0 [1, 2, 3, -4] s
    let m := elems4 2 d
    let x := msg 3 3 4 0 [1]
    frontMsg .xp 3 0x02 false (with1 m s) = some m ∧ digestAt 0 12 7 0 (elemsOf 0 m.payload) (with1 m s) = m.digest ∧ ptr red7.dst = .phys 8192 ∧
      outdated red7 m (with1 m s) = false ∧ ptrCause .hub red7.dst 0 16 (with1 m s) = none ∧
      after (exec (.result .xp false) (with1 m s)) (fun t => (redOf 7 12 t).landed == [(0, 4)] && (redOf 7 12 t).endT.isNone) = true ∧
      after (exec (.result .xp false) (with1 (elems4 2 (d + 1)) s)) (fun t => t.exec.notices.length == 1) = true ∧
      frontMsg .xp 3 0x03 false (with1 x s) = some x ∧
      after (exec (.exch .xp false) (with1 x s)) (fun t => (t.exec.exch.map (·.payload)) == [[1]]) = true := by decide +kernel

theorem witness_ScalesAndVerdicts :
    let s := jobZ [] { red7 with cslot := 3 }
    let m : Msg := { msg 4 3 3 0 (leBytes 2 65535) with axis := 2, src := 512, digest := scaleDigest { red7 with cslot := 3 } 12 (-1) s }
    let v : Msg := { msg 5 3 0 0 (leBytes 8 100 ++ leBytes 8 0 ++ leBytes 8 0) with src := 512, digest := digest (seedOf s) 12 0 0 [100, 0, 0] }
    let one : State := { s with exec := { s.exec with
      history := List.replicate 64 50, verdicts := [{ step := 12, recs := [(0, 7, 0, 0)], done := false, spike := false, skip := false }] } }
    frontMsg .xp 3 0x04 false (with1 m s) = some m ∧ toSigned 16 (field m.payload 0 2) = -1 ∧ (peerPackages { red7 with cslot := 3 } s) = [] ∧
      levelIdx (levelsOf { red7 with cslot := 3 } s) m.axis = some 0 ∧
      after (exec (.scale .xp false) (with1 m s)) (fun t => (redOf 7 12 t).scales == [(0, 0, -1)]) = true ∧
      frontMsg .xp 3 0x05 false (with1 v s) = some v ∧ jobSize s = 2 ∧
      after (exec (.verdict .xp false) (with1 v one)) (fun t => (verdictAt 12 t).done && (verdictAt 12 t).spike && (verdictAt 12 t).skip) = true ∧
      after (exec (.verdict .xp false) (with1 v s)) (fun t => (verdictAt 12 t).recs == [(512, 100, 0, 0)] && !(verdictAt 12 t).done) = true ∧
      after (exec (.verdict .xp false) (with1 { v with digest := v.digest + 1 } s)) (fun t => t.exec.notices.length == 1) = true := by
  decide +kernel

theorem witness_QueueMessages :
    let q : HwQueue := { hq 1 with remote := 512, ring := 2 ^ 60 + 4096 }
    let s : State := { live with queues := [q] }
    let z : State := { s with memStacks := s.memStacks.set 0 { s.memStacks[0] with stopped := true } }
    let m : Msg := { msg 6 4 16 63 [9, 9] with src := 512 }
    let c : Msg := { msg 7 2 16 0 (leBytes 4 9) with src := 512 }
    queueOf 16 s = some q ∧ q.remote = m.src ∧ frontMsg .xp 4 0x06 false (with1 m s) = some m ∧ m.offset < q.esize ∧ queueFill q = 1 ∧
      ringCause q q.pi q.esize s = none ∧ ringCause q q.pi q.esize z = some (4224, 3) ∧
      after (exec (.qdata .xp false) (with1 m z)) (fun t => t.queues == z.queues && (newest t).map (·.1) == some 0x0010) = true ∧
      ptr q.ring = .phys 4096 ∧ after (exec (.qdata .xp false) (with1 m s)) (fun t => (queueOf 16 t).map (·.pi) == some 3) = true ∧
      frontMsg .xp 2 0x07 false (with1 c s) = some c ∧
      after (exec (.qcredit .xp false) (with1 c s)) (fun t => (queueOf 16 t).map (fun q => (q.ci, q.credits)) == some (2, 4)) = true := by
  decide +kernel

theorem witness_Notices :
    let s := jobZ [] red7
    let p := fun (amount code : Nat) => leBytes 8 600000 ++ leBytes 8 amount ++ leBytes 1 code ++ leBytes 3 0 ++ leBytes 4 3 ++ leBytes 4 0 ++ leBytes 2 1 ++ leBytes 2 0
    let b := msg 8 2 0 0 (p 3000 4)
    let l := msg 9 2 0 0 (p 2000 1)
    let st := msg 9 2 0 0 (p 0 2)
    let n : State := { s with exec := { s.exec with notices := [⟨false, 12, 0, 1, 0, 1000, 1, 3⟩] } }
    seenNotice b s = false ∧ seenNotice b n = true ∧ frontMsg .xp 2 0x08 false (with1 b s) = some b ∧ frontMsg .xp 2 0x09 false (with1 l s) = some l ∧
      field l.payload 16 1 = 1 ∧ field st.payload 16 1 = 2 ∧
      after (exec (.breach .xp false) (with1 b s)) (fun t => slipFor 12 600000 t == 3000 && slipFor 12 599999 t == 0 && t.hostB.irqst.getLsbD 3) = true ∧
      after (exec (.late .xp false) (with1 l s)) (fun t => lateSlip 12 600000 t == 2000) = true ∧
      after (exec (.late .xp false) (with1 st s)) (fun t => t.job.abandoned) = true := by decide +kernel

theorem witness_PeerWrites :
    let e := leBytes 2 0x8030 ++ leBytes 6 0 ++ leBytes 24 0 ++ slice (leBytes 4 11) 0 96
    let f : State := { job .running with far := Vector.replicate 2 { st := 2, cap := 2 ^ 42, wr := 1200, rd := 1200, linkUp := true } }
    let c : Msg := { msg 0x0B 4 0 0 e with src := 9, srcPhys := true }
    let d : Msg := { msg 0x0B 4 0 128 (leBytes 32 0) with src := 9, srcPhys := true }
    let w : Msg := { msg 0x0B 4 (2 ^ 24 + 1) 5 [7, 8] with src := 9, srcPhys := true }
    let a := msg 0x0C 2 0 0 []
    frontMsg .xp 4 0x0B false (with1 c f) = some c ∧ portTo 9 (with1 c f) = some .xp ∧ peerKnown 0x8030 = true ∧
      peerReserved e = false ∧ restoring f = false ∧ f.twin.rx = none ∧
      accessCause .hub (slotAddr 0 (2 ^ 32 + 5)) 1 f = none ∧ frontMsg .xp 2 0x0C false (with1 a f) = some a ∧
      after (exec (.write .xp false) (with1 c f)) (fun t => t.peer.waiting.length == 1) = true ∧
      after (exec (.write .xp false) (with1 d f)) (fun t => t.peer.completions.length == 1) = true ∧
      after (exec (.write .xp false) (with1 w f)) (fun t => memGet t.mem (slotAddr 0 (2 ^ 32 + 6)) == 8 && t.mem.length == 2) = true := by
  decide +kernel
/-! ### Steps, tasks, inspection, wear -/

/-- A MOVE task of eight bytes from 4,096 to 8,192 in the window of far-tier port 0. -/
def move3 : TaskRec :=
  { taskid := 3, stream := 0, flags := 0, unit := 0, start := 0, deadline := 600000, waits := [], issue := 5, dtype := 4,
    body := slice (leBytes 8 (2 ^ 60 + farBase 0 + 4096) ++ leBytes 8 (2 ^ 60 + farBase 0 + 8192) ++ leBytes 8 8) 0 64 }

/-- A forward GEMM task of one row by one tile of columns; its code block lies at 8,192, its side record at 4,096. -/
def gemm4 : TaskRec :=
  { move3 with
    taskid := 4, dtype := 1,
    body := slice (slice (leBytes 20 0 ++ leBytes 4 1 ++ leBytes 4 0 ++ leBytes 4 16 ++ leBytes 4 0 ++ leBytes 4 1 ++ leBytes 4 256) 0 88 ++
      leBytes 8 (2 ^ 60 + 8192) ++ leBytes 8 (2 ^ 60 + 4096)) 0 256 }

/-- A firm run of a task in step 12. -/
def run12 (task : Nat) (e : Option Nat) : TaskRun :=
  { task := task, step := 12, st := .firm, startT := 4999600000, endT := e, checksOk := true, pnf := false, psat := false, undetected := [], gauges := [],
    overs := [(1, 2, 3)], nfFwd := 0, loss := 0, nfLoss := 0, again := false, wrote := false }

/-- The job with runs, and the far tier mapped. -/
def running (tasks : List TaskRec) (rs : List TaskRun) : State :=
  let s := jobZ tasks red7
  { s with exec := { s.exec with runs := rs }, far := Vector.replicate 2 { st := 2, cap := 2 ^ 30, wr := 1029, rd := 1029, linkUp := true } }

theorem witness_StepBoundaries :
    let go : State := { job .loaded with job := { (job .loaded).job with startAt := some 5000000000 } }
    let j := jobZ [] red7
    let r : State := { j with job := { j.job with t0 := j.job.t0 - 500000 } }
    let st : State := { r with job := { r.job with stopping := true } }
    go.inspect.wait = [] ∧ after (exec .stepBoundary go) (fun t => decide (t.job.state = .running) && t.job.cstep == 12 && t.job.t0 == 5000000000) = true ∧
      r.job.state = .running ∧ nextOrigin r = 5000000000 ∧ r.job.ts ≤ r.job.cstep ∧
      after (exec .stepBoundary r) (fun t => t.job.cstep == 13 && origin t == 5000000000) = true ∧ stepCommitted 12 st = true ∧
      after (exec .stepBoundary st) (fun t => decide (t.job.state = .stopped) && t.job.nextFirst == 13) = true := by decide +kernel

theorem running_cachesOk (ts : List TaskRec) (rs : List TaskRun) : CachesOk (running ts rs) := ⟨rfl, live_cachesOk.2⟩

theorem witness_TaskStartAndEnd :
    let s := running [move3] []
    let r := running [move3] [run12 3 none]
    let w : TaskRec := { move3 with waits := [{ lag := false, commit := true, token := 5 }] }
    let im := s.job.image.getD (decodeImage [])
    s.job.image = some im ∧ taskRec 3 s = some move3 ∧ startStep move3 s = some 12 ∧ startDue im move3 12 s = true ∧ waitsOk im move3 12 s = true ∧
      queuesOk 3 s = true ∧ waitsOk im w 12 (running [w] []) = false ∧ startDue im w 12 (running [w] []) = true ∧
      after (exec (.taskStart 3) s) (fun t => (runOf 3 12 t).map (fun r => (r.st, r.startT)) == some (.firm, 5000000000)) = true ∧
      runningRun 3 r = some (run12 3 none) ∧ (decodeMove move3.body).prefetch = false ∧ ptr (decodeMove move3.body).src = .phys (farBase 0 + 4096) ∧
      ptr (decodeMove move3.body).dst = .phys (farBase 0 + 8192) ∧ taskCause im move3 (settleTask im move3 r) = none ∧ (run12 3 none).wrote = false ∧
      (settleTask im move3 r).memStacks = r.memStacks ∧
      (match taskWork im move3 12 [] (touchReads im move3 (settleTask im move3 r)) with
       | .done s' _ => !acksHeld im move3 s'
       | _ => false) = true ∧
      after (exec (.taskEnd 3) r) (fun t => (runOf 3 12 t).map (·.endT) == some (some 5000000000)) = true := by decide +kernel

theorem witness_TileChecks :
    let j := running [gemm4] [run12 4 none]
    let s : State := { j with mem := [(4096, 100), (4132, 0x0A), (4133, 0xF0)] }
    let im := s.job.image.getD (decodeImage [])
    s.job.image = some im ∧ taskRec 4 s = some gemm4 ∧ checkedRun 4 s = some (run12 4 none) ∧ (decodeGemm gemm4.body).kind = 0 ∧
      (decodeGemm gemm4.body).rows = 1 ∧ (decodeGemm gemm4.body).cols = 16 ∧ (decodeGemm gemm4.body).kbn = 1 ∧
      (match productPasses im gemm4 0 0 15 s with
       | .ok [x] => x.1 == 0 && decide ((tileCheck true (x.2.w.headD []).length x.2.a x.2.w x.2.p x.2.rw).1 = .pass) &&
           decide ((tileCheck true (x.2.w.headD []).length x.2.a x.2.w (faultyProduct x.2.p [⟨0, 15, 1, 0⟩]) x.2.rw).1 = .compute)
       | _ => false) = true ∧
      after (exec (.tileProductEnd 4 0 0 15 [⟨0, 15, 1, 0⟩]) s) (fun t => (runOf 4 12 t).map (·.st) == some .discarded) = true := by
  decide +kernel

theorem witness_LateNoticesAndCommit :
    let s := running [gemm4] [run12 4 none]
    let e := running [move3] [run12 3 (some 4999998000)]
    let n := running [move3] [run12 3 (some 4999998001)]
    let im := s.job.image.getD (decodeImage [])
    let h : State := { s with dies := Vector.replicate 4 { Die.reset with inReset := false, hot := true } }
    deadlineOf gemm4 12 s = 5000100000 ∧ hotWork im gemm4 s = false ∧ belowWork im gemm4 s = false ∧ hotWork im gemm4 h = true ∧
      after (exec (.deadlineCheck 4 100001 1 4 0 0) s) (fun t => (t.exec.notices.map fun n => (n.code, n.amount)) == [(4, 1000)]) = true ∧
      after (exec (.deadlineCheck 4 100001 3 0 0 0) h) (fun t => (t.exec.notices.map fun n => (n.code, n.amount)) == [(1, 301000)]) = true ∧
      after (exec (.deadlineCheck 4 100000 1 4 0 0) s) (fun t => t.exec.notices.isEmpty) = true ∧
      e.exec.runs.find? (commitDue move3 e) = some (run12 3 (some 4999998000)) ∧ n.exec.runs.find? (commitDue move3 n) = none ∧
      after (exec (.checkHorizon 3) e) (fun t => (runOf 3 12 t).map (·.st) == some .committed && t.exec.overs == [(12, 1, 2, 3)]) = true := by decide +kernel

theorem witness_InspectionWalk :
    let s : State := { live with now := 79000000000000 }
    let r : State := { jobZ [] red7 with now := 79000000000000 }
    let w : State := { s with dies := s.dies.set 0 { s.dies[0] with pendingRelief := true } }
    let i : State := { s with inspect := { Inspect.reset with slot := some (2, 5), since := 78999820000000, lc := some 6 } }
    slotDue s = true ∧ s.inspect.nextDie = 0 ∧ nextCore 0 s = some 0 ∧ s.dies[(0 : Fin 4)].inReset = false ∧ slotDue r = true ∧
      logicalOf 0 0 r = some 0 ∧ reliefFree 0 r = some 1023 ∧
      s.dies[(0 : Fin 4)].pendingRelief = false ∧ slotDue w = true ∧ w.dies[(0 : Fin 4)].pendingRelief = true ∧
      after (exec .inspectionSlotStart w) (fun t => t.inspect.slot.isNone && t.inspect.nextDie == 1) = true ∧
      after (exec .inspectionSlotStart s) (fun t => t.inspect.slot == some (0, 0) && t.inspect.nextDie == 1) = true ∧
      after (exec .inspectionSlotStart r) (fun t => t.inspect.slot.isNone && t.inspect.due == some (0, 0)) = true ∧
      after (exec (.inspectionSlotEnd ⟨1, 0, 0, 0, 0⟩) i) (fun t => t.inspect.back == some (2, 6, 5)) = true ∧
      after (exec (.inspectionSlotEnd ⟨1, 1, 7, 1, 0⟩) i) (fun t => (coreOf 2 5 t).mapped && t.inspect.slot.isNone) = true := by decide +kernel

theorem witness_WearGauges :
    let s : State := { live with now := 86400000000000 }
    s.power.phase = .ready ∧ dayOn s = 1 ∧ (settleDays s.flash) = [] ∧ (settleBest s.flash).hours < hoursOn s ∧
      after (exec (.gaugeSample 6 65535 0x3F800000) s) (fun t => valueOf 6 65535 t.flash.settleB.refs == some 0x3F800000) = true ∧
      after (exec .settlementDaily s) (fun t => t.flash.settleA.gen == 1 && (t.flash.settleB.days.map (·.day)) == [1]) = true ∧
      after (exec .settlementHourly s) (fun t => t.flash.settleB.hours == 24) = true := by decide +kernel

end Sys2Proof.Tests
end

/-! ### What an operation of the ports, the log and the outputs leaves unchanged -/

namespace Sys2Proof.Proofs

open Machine Laws

/-- A `Run` over ports, I3C target, log and outputs, as the one record update that it is. -/
theorem eq_mailbox_upd {s t : State} (h : Run [.out, .hostA, .hostB, .i3c, .seq, .log] s t) :
    t = { s with out := t.out, hostA := t.hostA, hostB := t.hostB, i3c := t.i3c, seq := t.seq, log := t.log } :=
  State.ext (h.same .pending rfl) (h.same .now rfl) (h.same .freeCtr rfl) rfl (h.same .power rfl) (h.same .plls rfl)
    (h.same .tide rfl) (h.same .tideHi rfl) rfl rfl (h.same .lock rfl) rfl (h.same .peer rfl) (h.same .warden rfl) rfl rfl
    (h.same .queues rfl) (h.same .job rfl) (h.same .exec rfl) (h.same .gauges rfl) (h.same .dies rfl) (h.same .cores rfl)
    (h.same .coreStore rfl) (h.same .memStacks rfl) (h.same .mem rfl) (h.same .far rfl) (h.same .links rfl)
    (h.same .levee rfl) (h.same .fabric rfl) (h.same .twin rfl) (h.same .flash rfl) (h.same .inspect rfl)

/-- The same where the I3C target is left alone too. -/
theorem eq_port_upd {s t : State} (h : Run [.out, .hostA, .hostB, .seq, .log] s t) :
    t = { s with hostA := t.hostA, hostB := t.hostB, out := t.out, seq := t.seq, log := t.log } := by
  have hi : t.i3c = s.i3c := h.same .i3c rfl
  simpa only [hi] using eq_mailbox_upd (h.mono (by decide))

/-- The ports of `t` are those of `s` but for their interrupt causes. -/
def OnlyCauses (s t : State) : Prop := ∀ q, hostOf q t = { hostOf q s with irqst := (hostOf q t).irqst }

theorem OnlyCauses.refl (s : State) : OnlyCauses s s := fun _ => rfl

theorem OnlyCauses.trans {s t u : State} (h : OnlyCauses s t) (k : OnlyCauses t u) : OnlyCauses s u := fun q => by
  rw [k q, h q]

theorem OnlyCauses.mb {s t : State} (h : OnlyCauses s t) (q : HPort) : (hostOf q t).mb = (hostOf q s).mb := by rw [h q]

theorem raiseIrq_onlyCauses (p : HPort) (v : Nat) (s : State) : OnlyCauses s (raiseIrq p v s) := by
  have hm : OnlyCauses s (modHost p (fun h => { h with irqst := h.irqst ||| BitVec.ofNat 4 (2 ^ v) }) s) := fun q => by
    by_cases hq : q = p
    · subst hq; simp
    · rw [hostOf_modHost_ne hq]
  unfold raiseIrq
  dsimp only
  split
  · exact hm
  · exact hm

theorem logAt_onlyCauses (step code unit d0 d1 d2 d3 : Nat) (s : State) : OnlyCauses s (logAt step code unit d0 d1 d2 d3 s) := by
  unfold logAt
  extract_lets e s1 s2
  have h1 : OnlyCauses s s1 := .refl s
  have h2 : OnlyCauses s s2 := by
    subst s2
    split
    · exact h1.trans (raiseIrq_onlyCauses _ _ _)
    · exact h1
  split
  · exact h2.trans (raiseIrq_onlyCauses _ _ _)
  · exact h2

/-- The entry that an event leaves in the log (R275). -/
def eventEntry (code unit d0 d1 d2 d3 : Nat) (s : State) : LogEntry :=
  { seq := s.seq + 1, tide := tideNow s, code := code, level := evLevel code, flags := 0, unit := unit, step := stepWord s,
    d0 := d0 % 2 ^ 64, d1 := d1 % 2 ^ 64, d2 := d2 % 2 ^ 64, d3 := d3 % 2 ^ 64 }

@[simp] theorem raiseIrq_seq (p : HPort) (v : Nat) (s : State) : (raiseIrq p v s).seq = s.seq :=
  (raiseIrq_run (flds := [.out, .hostA, .hostB]) p v s (.refl _ s) (by decide)).same .seq rfl

@[simp] theorem raiseIrq_log (p : HPort) (v : Nat) (s : State) : (raiseIrq p v s).log = s.log :=
  (raiseIrq_run (flds := [.out, .hostA, .hostB]) p v s (.refl _ s) (by decide)).same .log rfl

@[simp] theorem raiseIrq_i3c (p : HPort) (v : Nat) (s : State) : (raiseIrq p v s).i3c = s.i3c :=
  (raiseIrq_run (flds := [.out, .hostA, .hostB]) p v s (.refl _ s) (by decide)).same .i3c rfl

@[simp] theorem logEv_seq (code unit d0 d1 d2 d3 : Nat) (s : State) : (logEv code unit d0 d1 d2 d3 s).seq = s.seq + 1 := by
  simp only [logEv, logAt, apply_ite State.seq, raiseIrq_seq, ite_self]

theorem logEv_log (code unit d0 d1 d2 d3 : Nat) (s : State) :
    (logEv code unit d0 d1 d2 d3 s).log = (eventEntry code unit d0 d1 d2 d3 s :: s.log).take 4096 := by
  simp only [logEv, logAt, apply_ite State.log, raiseIrq_log, ite_self, eventEntry]

theorem eventEntry_mem_logEv (code unit d0 d1 d2 d3 : Nat) (s : State) :
    eventEntry code unit d0 d1 d2 d3 s ∈ (logEv code unit d0 d1 d2 d3 s).log := by
  rw [logEv_log]
  exact List.mem_cons_self

theorem logEv_onlyCauses (code unit d0 d1 d2 d3 : Nat) (s : State) : OnlyCauses s (logEv code unit d0 d1 d2 d3 s) :=
  logAt_onlyCauses _ _ _ _ _ _ _ s

@[simp] theorem hostOf_logEv_mb (p : HPort) (code unit d0 d1 d2 d3 : Nat) (s : State) :
    (hostOf p (logEv code unit d0 d1 d2 d3 s)).mb = (hostOf p s).mb := (logEv_onlyCauses code unit d0 d1 d2 d3 s).mb p

theorem logEv_ports_run (code unit d0 d1 d2 d3 : Nat) (s : State) :
    Run [.out, .hostA, .hostB, .seq, .log] s (logEv code unit d0 d1 d2 d3 s) :=
  logEv_run _ _ _ _ _ _ s (.refl _ s) (by decide)

@[simp] theorem logEv_i3c (code unit d0 d1 d2 d3 : Nat) (s : State) : (logEv code unit d0 d1 d2 d3 s).i3c = s.i3c :=
  (logEv_ports_run code unit d0 d1 d2 d3 s).same .i3c rfl

end Sys2Proof.Proofs

/-! ### Refusals of the commands of Table 10.8 (R7, R267) -/

namespace Sys2Proof.Proofs

open Machine Laws

/-! #### Completion entries -/

@[simp] theorem putCpl_seq (mb : Mbox) (e : Bytes) (kind st d r f : Nat) (discard : Bool) (s : State) :
    (putCpl mb e kind st d r f discard s).seq = s.seq + 1 := by
  unfold putCpl
  cases discard <;> cases mb <;> simp [mboxPort, apply_ite State.seq]

/-- A completion entry that a port takes leaves through its ring, at PPI, in the phase of the ring's pass (R266). -/
theorem cpl_mem_putCpl {mb : Mbox} {p : HPort} (hp : mboxPort mb = some p) (e : Bytes) (kind st d r : Nat) (s : State) :
    .cpl mb ((hostOf p s).mb.ppi.toNat % pSize (hostOf p s).mb)
        (cplBytes e kind st (decide ((hostOf p s).mb.ppi.toNat < pSize (hostOf p s).mb)) d r (s.seq + 1))
      ∈ (putCpl mb e kind st d r 0 false s).out := by
  have raised : ∀ (v : Nat) (u : State) (o : Out), o ∈ u.out → o ∈ (raiseIrq p v u).out := fun v u o h =>
    (raiseIrq_run (flds := [.out, .hostA, .hostB]) p v u (.refl _ u) (by decide)).out.subset h
  unfold putCpl
  simp only [hp, Bool.false_eq_true, if_false, if_true, logEv_seq, hostOf_logEv_mb]
  split
  · exact raised _ _ _ (by simp [emit])
  · split
    · exact raised _ _ _ (by simp [emit])
    · simp [emit]

/-- One that the I3C target takes waits in its queue 5 (R277). -/
@[simp] theorem putCpl_i3c_done (e : Bytes) (kind st d r : Nat) (s : State) :
    (putCpl .i3c e kind st d r 0 false s).i3c.done = s.i3c.done ++ [cplBytes e kind st true d r (s.seq + 1)] := by
  simp [putCpl, mboxPort]

/-- One that a port takes leaves the I3C target alone. -/
theorem putCpl_port_i3c {mb : Mbox} {p : HPort} (hp : mboxPort mb = some p) (e : Bytes) (kind st d r f : Nat) (discard : Bool)
    (s : State) : (putCpl mb e kind st d r f discard s).i3c = s.i3c := by
  cases discard <;> simp [putCpl, hp, apply_ite State.i3c]

/-! #### Taking an entry out of a mailbox -/

@[simp] theorem popEntry_seq (mb : Mbox) (s : State) : (popEntry mb s).seq = s.seq := by
  cases mb <;> rfl

@[simp] theorem popEntry_done (mb : Mbox) (s : State) : (popEntry mb s).i3c.done = s.i3c.done := by
  cases mb <;> rfl

/-- The completion ring stands as it did: PPI and PSIZE are not the command ring's. -/
theorem popEntry_ring (mb : Mbox) (p : HPort) (s : State) :
    (hostOf p (popEntry mb s)).mb.ppi = (hostOf p s).mb.ppi ∧ (hostOf p (popEntry mb s)).mb.plog = (hostOf p s).mb.plog := by
  cases mb <;> cases p <;> exact ⟨rfl, rfl⟩

/-! #### A refusal -/

@[simp] theorem refuse_seq (mb : Mbox) (e : Bytes) (st : Nat) (s : State) : (refuse mb e st s).seq = s.seq + 2 := by
  simp [refuse]

theorem refuse_done_prefix (mb : Mbox) (e : Bytes) (st : Nat) (s : State) : s.i3c.done <+: (refuse mb e st s).i3c.done := by
  unfold refuse
  cases mb with
  | hostA | hostB => rw [putCpl_port_i3c rfl, logEv_i3c]
  | i3c => rw [putCpl_i3c_done, logEv_i3c]; exact List.prefix_append _ _

/-- Refusing what is no command takes no completion entry back. -/
theorem drainBad_done_prefix (mb : Mbox) (n : Nat) (s : State) : s.i3c.done <+: (drainBad mb n s).i3c.done := by
  induction n generalizing s with
  | zero => exact List.prefix_refl _
  | succ n ih =>
    unfold drainBad
    split
    · split
      next hbad =>
        obtain ⟨hop, -⟩ := Bool.and_eq_true_iff.mp hbad
        rw [takeEntry_unknown hop]
        have hr := refuse_done_prefix mb (by assumption) 2 (popEntry mb s)
        rw [popEntry_done] at hr
        exact hr.trans (ih _)
      next => exact List.prefix_refl _
    · exact List.prefix_refl _

theorem drain_done_prefix (mb : Mbox) (s : State) : s.i3c.done <+: (drain mb s).i3c.done := drainBad_done_prefix mb _ s

/-- A command of Table 10.8 in front is left for its own row. -/
theorem drainBad_of_command {mb : Mbox} {e : Bytes} {s : State} (hf : headEntry mb s = some e)
    (hc : (cmdRow (entOp e)).isSome = true) (n : Nat) : drainBad mb n s = s := by
  have hn : (cmdRow (entOp e)).isNone = false := by
    obtain ⟨row, hrow⟩ := Option.isSome_iff_exists.mp hc
    rw [hrow]; rfl
  cases n with
  | zero => rfl
  | succ n => simp only [drainBad, hf, hn, Bool.false_and, Bool.false_eq_true, if_false]

theorem drain_of_command {mb : Mbox} {e : Bytes} {s : State} (hf : headEntry mb s = some e)
    (hc : (cmdRow (entOp e)).isSome = true) : drain mb s = s := drainBad_of_command hf hc _

/-! #### What a refusal leaves -/

/-- The state after the front entry is refused with a status, and what is no command behind it. -/
def refuseFront (mb : Mbox) (e : Bytes) (st : Nat) (s : State) : State := drain mb (refuse mb e st (popEntry mb s))

theorem refuse_popEntry_run (mb : Mbox) (e : Bytes) (st : Nat) (s : State) :
    Run [.out, .hostA, .hostB, .i3c, .seq, .log] s (refuse mb e st (popEntry mb s)) :=
  refuse_run mb e st _ (popEntry_run mb s (.refl _ s) (by decide)) (by decide)

theorem refuseFront_drain_run (mb : Mbox) (e : Bytes) (st : Nat) (s : State) :
    Run [.out, .hostA, .hostB, .i3c, .seq, .log] (refuse mb e st (popEntry mb s)) (refuseFront mb e st s) :=
  drain_run mb _ (.refl _ _) (by decide)

theorem refuseFront_run (mb : Mbox) (e : Bytes) (st : Nat) (s : State) :
    Run [.out, .hostA, .hostB, .i3c, .seq, .log] s (refuseFront mb e st s) :=
  (refuse_popEntry_run mb e st s).trans (refuseFront_drain_run mb e st s) (by decide)

theorem refuseFront_mailboxOnly (mb : Mbox) (e : Bytes) (st : Nat) (s : State) : MailboxOnly s (refuseFront mb e st s) := by
  have hlock : (refuseFront mb e st s).lock = s.lock := (refuseFront_run mb e st s).same .lock rfl
  have hwarden : (refuseFront mb e st s).warden = s.warden := (refuseFront_run mb e st s).same .warden rfl
  unfold MailboxOnly
  rw [hlock, hwarden]
  exact eq_mailbox_upd (refuseFront_run mb e st s)

/-- Events 0x0002 and 0x0003 of the refusal, and those of what is refused behind it. -/
theorem refuseFront_seq (mb : Mbox) (e : Bytes) (st : Nat) (s : State) : s.seq + 2 ≤ (refuseFront mb e st s).seq := by
  simpa using (refuseFront_drain_run mb e st s).seq

theorem cpl_mem_refuseFront {mb : Mbox} {p : HPort} (hp : mboxPort mb = some p) (e : Bytes) (st : Nat) (s : State) :
    .cpl mb ((hostOf p s).mb.ppi.toNat % pSize (hostOf p s).mb)
        (cplBytes e 2 st (decide ((hostOf p s).mb.ppi.toNat < pSize (hostOf p s).mb)) 0 0 (s.seq + 2))
      ∈ (refuseFront mb e st s).out := by
  obtain ⟨hppi, hplog⟩ := popEntry_ring mb p s
  have hcpl := cpl_mem_putCpl hp e 2 st 0 0 (logEv 0x0002 (mboxUnit mb) (entOp e) st 0 (entTag e) (popEntry mb s))
  simp only [hostOf_logEv_mb, logEv_seq, popEntry_seq, pSize, hppi, hplog] at hcpl
  exact (refuseFront_drain_run mb e st s).out.subset hcpl

theorem done_mem_refuseFront (e : Bytes) (st : Nat) (s : State) :
    cplBytes e 2 st true 0 0 (s.seq + 2) ∈ (refuseFront .i3c e st s).i3c.done :=
  (drain_done_prefix .i3c _).subset (by simp [refuse])

/-! #### The commands of Table 10.8 -/

theorem cmdRow_of_cmdOf {i : Instr} {op : Nat} {mb : Mbox} (h : cmdOf i = some (op, mb)) : (cmdRow op).isSome = true := by
  unfold cmdOf at h
  split at h <;> cases h <;> rfl

/-- Each command of Table 10.8 is what its mailbox makes of its opcode. -/
theorem exec_command {i : Instr} {op : Nat} {mb : Mbox} (h : cmdOf i = some (op, mb)) (s : State) :
    ∃ ext, exec i s = .next (fromMailbox op mb ext s) := by
  unfold cmdOf at h
  split at h <;> cases h <;> exact ⟨_, rfl⟩

/-- The command that stands in front is taken, and then what is no command behind it. -/
theorem fromMailbox_of_waits {op : Nat} {mb : Mbox} {e : Bytes} {s : State} (hw : Waits op mb e s) (hc : (cmdRow op).isSome = true)
    (ext : EnvAnswer) : fromMailbox op mb ext s = drain mb (takeEntry mb e ext s) := by
  obtain ⟨hfront, hop, hroom⟩ := hw
  simp only [fromMailbox, drain_of_command hfront (hop ▸ hc), hfront, hop, hroom, and_self, if_true]

/-- What every command does whose entry calls for a refusal. -/
theorem exec_refused {i : Instr} {op : Nat} {mb : Mbox} {e : Bytes} {s : State} (hi : cmdOf i = some (op, mb)) (hw : Waits op mb e s)
    (hr : refusalOf mb e s ≠ 0) : exec i s = .next (refuseFront mb e (refusalOf mb e s) s) := by
  obtain ⟨ext, hx⟩ := exec_command hi s
  rw [hx, fromMailbox_of_waits hw (cmdRow_of_cmdOf hi), takeEntry, if_neg hr, refuseFront]

/-! #### The ground of a refusal -/

/-- The grounds in the order in which the model tries them (log entry 18). -/
theorem refusalOf_row {mb : Mbox} {e : Bytes} {s : State} {row : CmdRow} (h : cmdRow (entOp e) = some row) :
    refusalOf mb e s =
      if !opAllowed mb (entOp e) s then 2
      else if entReserved row.used e || argReserved (entOp e) e then 1
      else if row.lock && !s.warden.recov && !lockOk mb e s then 3
      else if !row.states.contains s.job.state || stateForbids (entOp e) e s then 4
      else if dataBad mb (entOp e) row.data e || argBad (entOp e) e s then 5
      else 0 := by
  simp only [refusalOf, h]

theorem refusalOf_not_allowed {mb : Mbox} {e : Bytes} {s : State} (h : opAllowed mb (entOp e) s = false) : refusalOf mb e s = 2 := by
  cases hr : cmdRow (entOp e) with
  | none => exact refusalOf_unknown (by rw [hr]; rfl)
  | some row => simp [refusalOf_row hr, h]

theorem opAllowed_i3c {op : Nat} {s : State} (h : 6 < op) : opAllowed .i3c op s = false := by
  simp [opAllowed, h]

theorem opAllowed_recovery {mb : Mbox} {op : Nat} {s : State} (hr : s.warden.recov = true)
    (h : op ∉ [0x0001, 0x0002, 0x0004, 0x0306, 0x0501, 0x0502]) : opAllowed mb op s = false := by
  have hc : [0x0001, 0x0002, 0x0004, 0x0306, 0x0501, 0x0502].contains op = false := by
    rw [← Bool.not_eq_true, List.contains_iff_mem]
    exact h
  simp only [opAllowed, hr, hc, Bool.not_true, Bool.or_self, Bool.and_false]

theorem lockOk_iff {mb : Mbox} {e : Bytes} {s : State} :
    lockOk mb e s = true ↔ ∃ p, mboxPort mb = some p ∧ s.lock.owner = some p ∧ entGen e = s.lock.gen.toNat := by
  cases hp : mboxPort mb <;> simp [lockOk, hp]

/-- DATA or DATALEN of a host command not as its row asks (R265). -/
theorem dataBad_of_host {mb : Mbox} {op : Nat} {e : Bytes} (hm : mb ≠ .i3c) :
    ((entData e = 0 ∨ entLen e = 0) → dataBad mb op true e = true) ∧
      ((entData e ≠ 0 ∨ entLen e ≠ 0) → dataBad mb op false e = true) := by
  refine ⟨fun h => ?_, fun h => ?_⟩
  · rcases h with h | h <;> simp [dataBad, hm, h]
  · rcases h with h | h <;> simp [dataBad, hm, h]

/-- Settles O8: a refused command leaves `refuseFront`, and each ground is read off `refusalOf_row`. -/
theorem refusals : Obligations.Refusals := by
  unfold Obligations.Refusals
  refine ⟨fun i op mb e s hi hw hr => ?_,
    fun mb e s => ⟨fun h => ?_, fun hm h => ?_, fun hr h => ?_, fun row hrow hop => ⟨?_, ?_⟩⟩⟩
  · have hrun := refuseFront_run mb e (refusalOf mb e s) s
    exact ⟨_, exec_refused hi hw hr, refuseFront_mailboxOnly .., hrun.same .warden rfl, hrun.same .lock rfl, refuseFront_seq ..,
      fun p hp => cpl_mem_refuseFront hp .., fun hm => hm ▸ done_mem_refuseFront ..⟩
  · exact refusalOf_unknown (by rw [h]; rfl)
  · exact refusalOf_not_allowed (hm ▸ opAllowed_i3c h)
  · exact refusalOf_not_allowed (opAllowed_recovery hr h)
  · intro hres
    simp [refusalOf_row hrow, hop, hres]
  · intro hres harg
    refine ⟨fun hlock hrec hown => ?_, fun hlock => ?_⟩
    · have hno : lockOk mb e s = false := by
        rw [← Bool.not_eq_true, lockOk_iff]
        rintro ⟨p, hp, howner, hgen⟩
        exact (hown p hp).elim (· howner) (· hgen)
      simp [refusalOf_row hrow, hop, hres, harg, hlock, hrec, hno]
    · have hok : (row.lock && !s.warden.recov && !lockOk mb e s) = false := by
        rw [← Bool.not_eq_true, Bool.and_eq_true_iff, Bool.and_eq_true_iff, Bool.not_eq_true', Bool.not_eq_true']
        rintro ⟨⟨hl, hr⟩, hno⟩
        exact absurd (lockOk_iff.mpr (hlock hl hr)) (hno ▸ Bool.false_ne_true)
      refine ⟨fun hstate => ?_, fun hstate hforbid hm => ?_⟩
      · simp [refusalOf_row hrow, hop, hres, harg, hok, hstate]
      · have hdata : dataBad mb (entOp e) row.data e = true → refusalOf mb e s = 5 := fun h => by
          simp [refusalOf_row hrow, hop, hres, harg, hok, hstate, hforbid, h]
        obtain ⟨hneeds, hnone⟩ := dataBad_of_host (op := entOp e) (e := e) hm
        exact ⟨fun hd h => hdata (hd ▸ hneeds h), fun hd h => hdata (hd ▸ hnone h)⟩

end Sys2Proof.Proofs

/-! ### Register writes (R6, R257, R264, Table 10.12) -/

namespace Sys2Proof.Proofs

open Machine Laws

/-! #### The log of a write -/

theorem logWrite_onlyCauses (p : HPort) (off v mask : Nat) (s : State) : OnlyCauses s (logWrite p off v mask s) :=
  logEv_onlyCauses _ _ _ _ _ _ s

theorem logWrite_ports_run (p : HPort) (off v mask : Nat) (s : State) :
    Run [.out, .hostA, .hostB, .seq, .log] s (logWrite p off v mask s) := logEv_ports_run ..

@[simp] theorem logWrite_seq (p : HPort) (off v mask : Nat) (s : State) : (logWrite p off v mask s).seq = s.seq + 1 := logEv_seq ..

/-- Event 0x0001 names the offset of the word (R6). -/
theorem logWrite_entry (p : HPort) {off : Nat} (v mask : Nat) (s : State) (hoff : off < 2 ^ 64) :
    ∃ l ∈ (logWrite p off v mask s).log, l.seq = (logWrite p off v mask s).seq ∧ l.code = 0x0001 ∧ l.d0 = off :=
  ⟨_, eventEntry_mem_logEv .., (logWrite_seq ..).symm, rfl, Nat.mod_eq_of_lt hoff⟩

theorem logDiff_of_diffMask_zero {p : HPort} {off v : Nat} {s : State} (h : diffMask off v (bar0Word p off s) = 0) :
    logDiff p off v s = s := by
  simp only [logDiff, h, if_true]

theorem logDiff_of_diffMask_ne {p : HPort} {off v : Nat} {s : State} (h : diffMask off v (bar0Word p off s) ≠ 0) :
    logDiff p off v s = logWrite p off v (diffMask off v (bar0Word p off s)) s := by
  simp only [logDiff, h, if_false]

/-! #### One aligned word -/

theorem leVal_lt (d : Bytes) : leVal d < 256 ^ d.length := by
  induction d with
  | nil => simp [leVal]
  | cons b d ih =>
    have hb := b.isLt
    simp only [leVal, List.length_cons, Nat.pow_succ]
    omega

/-- The value of four bytes is that of their word. -/
theorem toNat_word {d : Bytes} (h : d.length = 4) : (BitVec.ofNat 32 (leVal d)).toNat = leVal d := by
  have hlt := leVal_lt d
  rw [h] at hlt
  exact Nat.mod_eq_of_lt hlt

theorem viaPort_of_alive {p : HPort} {s : State} (h : portAlive p s = true) (f : State → State) : viaPort p f s = f s := if_pos h

/-- Four bytes at an aligned offset are one word's write. -/
theorem exec_registerWrite_word {p : HPort} {off : Nat} {d : Bytes} {s : State} (hp : portAlive p s = true) (hd : d.length = 4)
    (hoff : off % 4 = 0) : exec (.registerWrite p off d) s = .next (writeWord p off (BitVec.ofNat 32 (leVal d)) s) := by
  have hne : d ≠ [] := List.ne_nil_of_length_eq_add_one hd
  have htake : d.take 4 = d := List.take_of_length_le hd.le
  have hdrop : d.drop 4 = [] := List.drop_of_length_le hd.le
  show Host.Outcome.next (viaPort p (writeWords p (d.length + 1) off d) s) = _
  rw [viaPort_of_alive hp, hd]
  simp [writeWords, hoff, hd, htake, hdrop]

theorem writeWords_nil (p : HPort) (n off : Nat) (s : State) : writeWords p n off [] s = s := by
  cases n <;> rfl

/-- Fewer than four bytes of one word are logged, and the register keeps its value (R257). -/
theorem exec_registerWrite_part {p : HPort} {off : Nat} {d : Bytes} {s : State} (hp : portAlive p s = true) (h1 : 1 ≤ d.length)
    (hword : off % 4 + d.length ≤ 4) (h4 : d.length < 4) :
    ∃ v mask, exec (.registerWrite p off d) s = .next (logWrite p (off - off % 4) v mask s) := by
  have hmin : min (4 - off % 4) d.length = d.length := by omega
  have hne : d.length ≠ 4 := by omega
  obtain ⟨b, r, rfl⟩ := List.exists_cons_of_length_pos h1
  exact ⟨_, _, by
    show Host.Outcome.next (viaPort p (writeWords p _ off (b :: r)) s) = _
    rw [viaPort_of_alive hp, writeWords, hmin, if_neg hne, List.drop_length, writeWords_nil]
    exact List.cons_ne_nil b r⟩

/-! #### The words without a rule of their own -/

/-- The offsets of the registers that a write gives a meaning of their own. -/
def ownRegisters : List Nat :=
  [0x1000, 0x1004, 0x2000, 0x2004, 0x2008, 0x2010, 0x2014, 0x2018, 0x2020, 0x202C, 0x2030, 0x3000, 0x3004, 0x3010, 0x3014, 0x3018, 0x3028]

theorem writeMask_ownRegisters : ∀ off ∈ ownRegisters, writeMask off ≠ none ∧ writeMask off ≠ some 0 := by
  decide

theorem writeWord_other {p : HPort} {off : Nat} {v : BitVec 32} {s : State} (h : off ∉ ownRegisters) :
    writeWord p off v s =
      match writeMask off with
      | none => logIgnored p off v.toNat s
      | some 0 => logDiff p off v.toNat s
      | some _ => writeQdb p ((off - 0x100000) / 16) v s := by
  unfold writeWord
  split
  case h_18 => rfl
  all_goals exact absurd (by decide) h

/-- An offset that no table defines (R257). -/
theorem writeWord_undefined {p : HPort} {off : Nat} {v : BitVec 32} {s : State} (h : writeMask off = none) :
    writeWord p off v s = logIgnored p off v.toNat s := by
  have hother : off ∉ ownRegisters := fun hm => (writeMask_ownRegisters off hm).1 h
  simp only [writeWord_other hother, h]

/-- A read-only word (R6). -/
theorem writeWord_readOnly {p : HPort} {off : Nat} {v : BitVec 32} {s : State} (h : writeMask off = some 0) :
    writeWord p off v s = logDiff p off v.toNat s := by
  have hother : off ∉ ownRegisters := fun hm => (writeMask_ownRegisters off hm).2 h
  simp only [writeWord_other hother, h]

theorem writeMask_qdb {q : Nat} (h : q < 65536) : writeMask (0x100008 + 16 * q) = some 0xFFFF := by
  have hmod : (0x100008 + 16 * q) % 16 = 8 := by omega
  have hrange : 0x100000 ≤ 0x100008 + 16 * q ∧ 0x100008 + 16 * q < 0x200000 := by omega
  unfold writeMask
  split
  case h_23 => rw [if_neg (by omega), if_pos hrange, if_pos hmod]
  all_goals omega

/-- The doorbell word of a hardware queue (R273). -/
theorem writeWord_qdb {p : HPort} {q : Nat} {v : BitVec 32} {s : State} (h : q < 65536) :
    writeWord p (0x100008 + 16 * q) v s = writeQdb p q v s := by
  have hother : 0x100008 + 16 * q ∉ ownRegisters := by
    simp only [ownRegisters, List.mem_cons, List.not_mem_nil, or_false]
    omega
  have hq : (0x100008 + 16 * q - 0x100000) / 16 = q := by omega
  simp only [writeWord_other hother, writeMask_qdb h, hq]

/-! #### Bases -/

/-- WBASELO, and below WBASEHI, at an offset that is a variable: at the literal, the kernel would have to reduce `baseOk`. -/
theorem writeWord_wbaseLo {p : HPort} {off : Nat} {v : BitVec 32} {s : State} (h : off = 0x3010) :
    writeWord p off v s = writeWbaseLo p v s := by
  unfold writeWord
  split
  case h_14 => rfl
  case h_18 => exact absurd h (by assumption)
  all_goals omega

theorem writeWord_wbaseHi {p : HPort} {off : Nat} {v : BitVec 32} {s : State} (h : off = 0x3014) :
    writeWord p off v s = writeWbaseHi p v s := by
  unfold writeWord
  split
  case h_15 => rfl
  case h_18 => exact absurd h (by assumption)
  all_goals omega

/-- The base and size registers of the two rings (Table 10.6). -/
def ringRegisters : List Nat := [0x2000, 0x2004, 0x2008, 0x2010, 0x2014, 0x2018]

theorem ringRegisters_aligned : ∀ off ∈ ringRegisters, off % 4 = 0 := by decide

theorem writeWord_ring {p : HPort} {off : Nat} {v : BitVec 32} {s : State} (h : off ∈ ringRegisters) :
    ∃ f, writeWord p off v s = writeRing p off v.toNat f s := by
  unfold writeWord
  split
  case h_3 | h_4 | h_5 | h_6 | h_7 | h_8 => exact ⟨_, rfl⟩
  case h_18 => simp_all [ringRegisters]
  all_goals exact absurd h (by decide)

theorem writeRing_disabled {p : HPort} {s : State} (h : (hostOf p s).mb.en = false) (off v : Nat) (f : Mailbox → Mailbox) :
    writeRing p off v f s = modHost p (fun h => { h with mb := f h.mb }) (logDiff p off v s) := by
  simp only [writeRing, h, Bool.false_eq_true, if_false]

theorem writeRing_enabled {p : HPort} {s : State} (h : (hostOf p s).mb.en = true) (off v : Nat) (f : Mailbox → Mailbox) :
    writeRing p off v f s = logIgnored p off v s := by
  simp only [writeRing, h, if_true]

/-- A multiple of 2^36 in the stack ranges is a window base (R274). -/
theorem baseOk_of_upper {hi : Nat} (hal : hi * 2 ^ 32 % 2 ^ 36 = 0) (hlt : hi < 1024) : baseOk (0 + hi * 2 ^ 32) = true := by
  simp only [baseOk, Bool.and_eq_true, Bool.or_eq_true, beq_iff_eq, decide_eq_true_eq]
  omega

/-- A window base has no bit below 2^36 (R274). -/
theorem baseOk_of_lower {lo hi : Nat} (h0 : lo ≠ 0) (hlt : lo < 2 ^ 32) : baseOk (lo + hi * 2 ^ 32) = false := by
  have hmod : (lo + hi * 2 ^ 32) % 2 ^ 36 ≠ 0 := by omega
  simp only [baseOk, beq_eq_false_iff_ne.mpr hmod, Bool.false_and]

theorem writeWbaseLo_zero {p : HPort} {v : BitVec 32} {s : State} (hal : (hostOf p s).wbaseHi.toNat * 2 ^ 32 % 2 ^ 36 = 0)
    (hlt : (hostOf p s).wbaseHi.toNat < 1024) (h0 : v.toNat = 0) :
    writeWbaseLo p v s = modHost p (fun h => { h with wbaseLo := 0 }) s := by
  obtain rfl : v = 0 := BitVec.eq_of_toNat_eq h0
  exact if_pos (baseOk_of_upper hal hlt)

theorem writeWbaseLo_nonzero {p : HPort} {v : BitVec 32} {s : State} (h0 : v.toNat ≠ 0) :
    writeWbaseLo p v s = logIgnored p 0x3010 v.toNat s := by
  rw [writeWbaseLo, baseOk_of_lower h0 v.isLt, if_neg Bool.false_ne_true]

/-! #### The obligation -/

/-- Settles O22: every word through `exec_registerWrite_word` and its own arm of `writeWord`, a part of a word through
`exec_registerWrite_part`. -/
theorem registerWrites : Obligations.RegisterWrites := by
  unfold Obligations.RegisterWrites
  refine ⟨fun p d s hp hd => ?_, fun p off d s hp h1 hword h4 hoff => ?_, fun p off v s =>
    ⟨logDiff_of_diffMask_zero, logDiff_of_diffMask_ne⟩⟩
  · intro v wr put
    have hwr : ∀ off, off % 4 = 0 → wr off = .next (writeWord p off (BitVec.ofNat 32 v) s) := fun off =>
      exec_registerWrite_word hp hd
    have hv : (BitVec.ofNat 32 v).toNat = v := toNat_word hd
    clear_value wr v
    generalize hw : BitVec.ofNat 32 v = w at hv hwr ⊢
    subst hv
    have hacc : ∀ {off f}, off % 4 = 0 → writeWord p off w s = f s → wr off = .next (viaPort p f s) := fun hal h => by
      rw [hwr _ hal, h, viaPort_of_alive hp]
    have hput : ∀ {off f}, off % 4 = 0 → writeWord p off w s = modHost p f (logDiff p off w.toNat s) → wr off = put off f :=
      fun hal h => by rw [hwr _ hal, h]
    have hring : ∀ {off}, (hostOf p s).mb.en = false → ∀ f, off % 4 = 0 → writeWord p off w s = writeRing p off w.toNat f s →
        wr off = put off (fun h => { h with mb := f h.mb }) := fun hen f hal h => hput hal (h.trans (writeRing_disabled hen ..))
    refine ⟨hput rfl rfl, hput rfl rfl, hput rfl rfl, hput rfl rfl, hput rfl rfl, fun hen => ⟨?_, ?_, ?_, ?_, ?_, ?_⟩,
      fun hen off hoff => ?_, fun hal h0 hlt => ?_, fun h0 => ?_,
      hacc rfl rfl, hacc rfl rfl, hacc rfl rfl, hacc rfl (writeWord_wbaseHi rfl),
      fun q hq => ?_, fun off hal hmask => ?_, fun off hal hmask => ?_⟩
    · exact hring hen (fun m => { m with cbaseLo := BitVec.ofNat 20 (w.toNat / 4096) }) rfl rfl
    · exact hring hen (fun m => { m with cbaseHi := w }) rfl rfl
    · exact hring hen (fun m => { m with clog := BitVec.ofNat 4 w.toNat }) rfl rfl
    · exact hring hen (fun m => { m with pbaseLo := BitVec.ofNat 20 (w.toNat / 4096) }) rfl rfl
    · exact hring hen (fun m => { m with pbaseHi := w }) rfl rfl
    · exact hring hen (fun m => { m with plog := BitVec.ofNat 4 w.toNat }) rfl rfl
    · obtain ⟨f, hf⟩ := writeWord_ring (p := p) (v := w) (s := s) hoff
      rw [hwr off (ringRegisters_aligned off hoff), hf, writeRing_enabled hen]
    · rw [hwr _ rfl, writeWord_wbaseLo rfl, writeWbaseLo_zero hal hlt h0]
    · rw [hwr _ rfl, writeWord_wbaseLo rfl, writeWbaseLo_nonzero h0]
    · refine hacc (by omega) ?_
      rw [Nat.mod_eq_of_lt hq, writeWord_qdb hq]
    · rw [hwr off hal, writeWord_undefined hmask]
    · rw [hwr off hal, writeWord_readOnly hmask]
  · obtain ⟨v, mask, hx⟩ := exec_registerWrite_part hp h1 hword h4
    exact ⟨_, hx, logWrite_seq .., eq_port_upd (logWrite_ports_run ..), logWrite_onlyCauses _ _ _ _ s,
      logWrite_entry p v mask s (by omega)⟩

end Sys2Proof.Proofs

/-! ### Landing, stale notices, write drain, refresh (R136, R175, R179, R182, R309) -/

namespace Sys2Proof.Proofs

open Machine Laws

/-! #### The record of a core -/

theorem coreOf_ids (d c : Nat) (s : State) : (coreOf d c s).die = d ∧ (coreOf d c s).core = c := by
  unfold coreOf
  cases h : s.cores.find? fun k => k.die == d && k.core == c with
  | none => exact ⟨rfl, rfl⟩
  | some k => simpa using List.find?_some h

theorem find?_putCore {k : Core} {d c : Nat} (hd : k.die = d) (hc : k.core = c) (l : List Core) :
    (putCore k l).find? (fun x => x.die == d && x.core == c) = some k := by
  induction l with
  | nil => simp [putCore, hd, hc]
  | cons x r ih =>
    unfold putCore
    split
    · simp [hd, hc]
    next hx =>
      have hno : (x.die == d && x.core == c) = false := by simpa [hd, hc] using hx
      rw [List.find?_cons_of_neg (by simp [hno]), ih]

/-- A core that was changed reads as changed, where the change keeps whose record it is. -/
theorem coreOf_modCore {d c : Nat} {f : Core → Core} (s : State) (hd : ∀ k, (f k).die = k.die) (hc : ∀ k, (f k).core = k.core) :
    coreOf d c (modCore d c f s) = f (coreOf d c s) := by
  obtain ⟨hdie, hcore⟩ := coreOf_ids d c s
  rw [coreOf, modCore_cores, find?_putCore ((hd _).trans hdie) ((hc _).trans hcore), Option.getD_some]

@[simp] theorem outstOf_modOutst (d c : Nat) (f : List Outst → List Outst) (s : State) :
    outstOf d c (modOutst d c f s) = f (outstOf d c s) := by
  exact congrArg Core.outst (coreOf_modCore (f := fun k => { k with outst := f k.outst }) s (fun _ => rfl) fun _ => rfl)

@[simp] theorem outstOf_setThread (d c ctx : Nat) (st : Thread) (s : State) : outstOf d c (setThread d c ctx st s) = outstOf d c s := by
  have h := coreOf_modCore (d := d) (c := c)
    (f := fun k => { k with threads := k.threads.set ctx st, running := nextReady k.running (k.threads.set ctx st) }) s
    (fun _ => rfl) fun _ => rfl
  exact (congrArg Core.outst h :)

theorem outstOf_congr {s t : State} (h : t.cores = s.cores) (d c : Nat) : outstOf d c t = outstOf d c s := by
  simp only [outstOf, coreOf, h]

/-! #### Landing -/

/-- A landing before its answer goes out: the request leaves its core and its banks, its thread may run. -/
def freeLanding (d : Fin 4) (c : Nat) (o : Outst) (s : State) : State :=
  let s := modOutst d.val c (fun l => l.filter fun x => x.id != o.id) s
  let s := o.banks.foldl (fun s b => modBank (Fin.ofNat 32 o.stack) b (fun q => { q with queue := q.queue.filter fun r =>
    r.key != (Requester.core d c (Fin.ofNat 8 o.thread), o.id) }) s) s
  if (coreOf d.val c s).threads.getD o.thread .idle = .needLine then setThread d.val c o.thread .ready s else s

theorem landLine_some (d : Fin 4) (c : Nat) (o : Outst) (data : Bytes) (s : State) :
    landLine d c o (some data) s = emit (.memDone (.core d c (Fin.ofNat 8 o.thread)) o.id .ok data)
      (storeWrite d.val c o.dst data (freeLanding d c o s)) := rfl

theorem landLine_none (d : Fin 4) (c : Nat) (o : Outst) (s : State) :
    landLine d c o none s = emit (.memDone (.core d c (Fin.ofNat 8 o.thread)) o.id .error []) (freeLanding d c o s) := rfl

/-- Leaving the banks changes stacks alone. -/
theorem leaveBankQueues_run (i : Fin 32) (f : BankQ → BankQ) (bs : List Nat) (s : State) :
    Run [.memStacks] s (bs.foldl (fun s b => modBank i b f s) s) :=
  Run.foldl (.refl _ s) fun b x h => modBank_run i b f x h (by decide)

theorem outstOf_freeLanding (d : Fin 4) (c : Nat) (o : Outst) (s : State) :
    outstOf d.val c (freeLanding d c o s) = (outstOf d.val c s).filter (fun x => x.id != o.id) := by
  unfold freeLanding
  extract_lets s1 s2
  have h2 : outstOf d.val c s2 = (outstOf d.val c s).filter (fun x => x.id != o.id) := by
    rw [outstOf_congr ((leaveBankQueues_run _ _ o.banks s1).same .cores rfl), outstOf_modOutst]
  split
  · rw [outstOf_setThread, h2]
  · exact h2

theorem freeLanding_run (d : Fin 4) (c : Nat) (o : Outst) (s : State) : Run [.cores, .memStacks] s (freeLanding d c o s) := by
  unfold freeLanding
  extract_lets s1 s2
  have h1 : Run [.cores, .memStacks] s s1 := modOutst_run _ _ _ s (.refl _ s) (by decide)
  have h2 : Run [.cores, .memStacks] s s2 := h1.trans (leaveBankQueues_run _ _ o.banks s1) (by decide)
  split
  · exact setThread_run _ _ _ _ _ h2 (by decide)
  · exact h2

theorem exec_lineLanding_stopped {d : Fin 4} {s : State} (h : clusterStopped d s = true) (c id : Nat) :
    exec (.lineLanding d c id) s = .next s := by
  show Host.Outcome.next (if clusterStopped d s then s else _) = _
  rw [if_pos h]

theorem exec_lineLanding {d : Fin 4} {c id : Nat} {o : Outst} {a : Option Bytes} {s : State}
    (ho : (outstOf d.val c s).find? (fun o => o.id == id) = some o) (h : clusterStopped d s = false) (ha : o.resp = some a) :
    exec (.lineLanding d c id) s = .next (landLine d c o a s) := by
  show execLineLanding d c id s = _
  simp only [execLineLanding, h, Bool.false_eq_true, if_false, ho, ha]

/-! #### Acknowledgements that wait for stale notices -/

theorem sendAck_out (i : Fin 32) (a : WAck) (s : State) : (sendAck i a s).out = s.out ++ [ackOut a] := by
  have hdrop : ∀ k x, (dropOutst k x).out = x.out := fun k x => by
    unfold dropOutst
    split <;> rfl
  unfold sendAck
  cases a.key with
  | none => rfl
  | some k => rw [emit_out, hdrop]; rfl

/-- A stack that was changed reads as changed. -/
@[simp] theorem getElem_modStack (i : Fin 32) (f : Stack → Stack) (s : State) : (modStack i f s).memStacks[i] = f s.memStacks[i] :=
  Vector.getElem_set_self i.isLt

theorem dropOutst_memStacks (k : Requester × Nat) (s : State) : (dropOutst k s).memStacks = s.memStacks := by
  unfold dropOutst
  split <;> rfl

/-- An acknowledgement frees entries of banks and cores: of its stacks, only the banks change. -/
theorem sendAck_field {α : Type} (g : Stack → α) (h : ∀ st b, g { st with banks := b } = g st) (i : Fin 32) (a : WAck) (s : State) :
    g (sendAck i a s).memStacks[i] = g s.memStacks[i] := by
  unfold sendAck
  cases a.key with
  | none => rfl
  | some k =>
    rw [emit_memStacks, dropOutst_memStacks, leaveBanks, getElem_modStack, h]

theorem sendAcks_field {α : Type} (g : Stack → α) (h : ∀ st b, g { st with banks := b } = g st) (i : Fin 32) (l : List HeldAck)
    (s : State) : g (l.foldl (fun s h => sendAck i h.ack s) s).memStacks[i] = g s.memStacks[i] := by
  induction l generalizing s with
  | nil => rfl
  | cons a l ih => rw [List.foldl_cons, ih, sendAck_field g h]

theorem sendAcks_out (i : Fin 32) (l : List HeldAck) (s : State) :
    (l.foldl (fun s h => sendAck i h.ack s) s).out = s.out ++ l.map (fun h => ackOut h.ack) := by
  induction l generalizing s with
  | nil => simp
  | cons a l ih => rw [List.foldl_cons, ih, sendAck_out, List.append_assoc, List.map_cons, List.singleton_append]

/-- What a stack withholds once some stale notices are acknowledged: each acknowledgement waits for the others alone. -/
def stillHeld (f : Nat → Bool) (l : List HeldAck) : List HeldAck := l.map fun h => { h with ids := h.ids.filter fun k => !f k }

theorem releaseAcks_watch (i : Fin 32) (f : Nat → Bool) (s : State) :
    (releaseAcks i f s).memStacks[i].watch = s.memStacks[i].watch := by
  unfold releaseAcks
  rw [sendAcks_field (·.watch) (fun _ _ => rfl), getElem_modStack]

theorem releaseAcks_withheld (i : Fin 32) (f : Nat → Bool) (s : State) :
    (releaseAcks i f s).memStacks[i].withheld = (stillHeld f s.memStacks[i].withheld).filter fun h => !h.ids.isEmpty := by
  unfold releaseAcks
  rw [sendAcks_field (·.withheld) (fun _ _ => rfl), getElem_modStack, stillHeld]

theorem releaseAcks_out (i : Fin 32) (f : Nat → Bool) (s : State) :
    (releaseAcks i f s).out =
      s.out ++ ((stillHeld f s.memStacks[i].withheld).filter fun h => h.ids.isEmpty).map fun h => ackOut h.ack :=
  sendAcks_out ..

/-- The acknowledgement of a stale notice: it is marked, and what waited for it alone goes out. -/
def ackNotice (i : Fin 32) (id : Nat) (s : State) : State :=
  releaseAcks i (fun k => k == id)
    (modStack i (fun st => { st with watch := st.watch.map fun w => { w with acked := w.acked || (w.id == id && w.stale) } }) s)

theorem exec_staleNoticeAck (i : Fin 32) (id : Nat) (s : State) : exec (.staleNoticeAck i id) s = .next (ackNotice i id s) := rfl

theorem ackNotice_mem (i : Fin 32) (id : Nat) (s : State) : (ackNotice i id s).mem = s.mem :=
  (releaseAcks_run (flds := [.out, .cores, .memStacks]) i _ _ (modStack_run i _ s (.refl _ s) (by decide)) (by decide)).same .mem rfl

theorem ackNotice_watch (i : Fin 32) (id : Nat) (s : State) : (ackNotice i id s).memStacks[i].watch =
    s.memStacks[i].watch.map (fun w => { w with acked := w.acked || (w.id == id && w.stale) }) := by
  rw [ackNotice, releaseAcks_watch, getElem_modStack]

theorem ackNotice_withheld (i : Fin 32) (id : Nat) (s : State) : (ackNotice i id s).memStacks[i].withheld =
    (stillHeld (fun k => k == id) s.memStacks[i].withheld).filter fun h => !h.ids.isEmpty := by
  rw [ackNotice, releaseAcks_withheld, getElem_modStack]

theorem ackNotice_out (i : Fin 32) (id : Nat) (s : State) : (ackNotice i id s).out =
    s.out ++ ((stillHeld (fun k => k == id) s.memStacks[i].withheld).filter fun h => h.ids.isEmpty).map fun h => ackOut h.ack := by
  rw [ackNotice, releaseAcks_out, getElem_modStack, modStack_out]

/-! #### Write drain and refresh -/

theorem exec_writeDrain {i : Fin 32} {pc : Fin 64} {s : State} (h : 256 ≤ writeCount i pc.val s ∨ readWaits i pc.val s = false) :
    exec (.writeDrain i pc) s = .next (modStack i (fun k => { k with writeQ := k.writeQ.filter fun w => w.1 != pc.val }) s) := by
  show execWriteDrain i pc s = _
  rw [execWriteDrain, if_pos (h.imp_right fun hr => by rw [hr]; rfl)]

theorem exec_refresh {i : Fin 32} {pc : Fin 64} {s : State}
    (h : ((s.memStacks[i].refreshed.find? fun r => r.1 == pc.val).map (·.2)).getD 0 + refreshEvery s.memStacks[i] ≤ s.now) :
    exec (.refresh i pc) s = .next (modStack i (fun k =>
      { k with refreshed := (pc.val, s.now) :: k.refreshed.filter fun r => r.1 != pc.val }) s) := by
  show execRefresh i pc s = _
  simp only [execRefresh, h, if_true]

/-- Settles O40: a landing through `landLine` and `freeLanding`, a stale notice through `ackNotice`, drain and refresh by their own
condition. -/
theorem landingAndMaintenance : Obligations.LandingAndMaintenance := by
  unfold Obligations.LandingAndMaintenance
  refine fun s => ⟨fun d c id h => exec_lineLanding_stopped h c id, fun d c id o ho h => ⟨fun data hresp => ?_, fun hresp => ?_⟩,
    fun i id => ⟨_, exec_staleNoticeAck i id s, ackNotice_mem i id s, ackNotice_watch i id s,
      fun h hheld _ => ⟨fun hall => ?_, fun hother => ?_⟩⟩,
    fun i pc => ⟨exec_writeDrain, exec_refresh⟩⟩
  · have hrun := freeLanding_run d c o s
    have hstore : (freeLanding d c o s).coreStore = s.coreStore := hrun.same .coreStore rfl
    have hout : (freeLanding d c o s).out = s.out := hrun.same .out rfl
    rw [exec_lineLanding ho h hresp, landLine_some]
    refine ⟨_, rfl, ?_, hrun.same .mem rfl, outstOf_freeLanding d c o s, ?_⟩
    · rw [emit_coreStore, storeWrite_coreStore, hstore, storeBytes]
    · rw [emit_out, storeWrite_out, hout]
  · have hrun := freeLanding_run d c o s
    have hout : (freeLanding d c o s).out = s.out := hrun.same .out rfl
    rw [exec_lineLanding ho h hresp, landLine_none]
    refine ⟨_, rfl, hrun.same .coreStore rfl, hrun.same .mem rfl, outstOf_freeLanding d c o s, ?_⟩
    rw [emit_out, hout]
  · have hnone : h.ids.filter (fun k => !(k == id)) = [] := by
      rw [List.filter_eq_nil_iff]
      exact fun k hk => by simp [hall k hk]
    rw [ackNotice_out, ackNotice_withheld, hheld]
    simp [stillHeld, hnone]
  · have hsome : h.ids.filter (fun k => !(k == id)) ≠ [] := by
      obtain ⟨k, hk, hne⟩ := hother
      exact List.ne_nil_of_mem (List.mem_filter.mpr ⟨hk, by simpa using hne⟩)
    rw [ackNotice_out, ackNotice_withheld, hheld]
    simp [stillHeld, hsome, bne]

end Sys2Proof.Proofs

/-! ### Queue data into a set whose resident line is clean (R156, R167) -/

namespace Sys2Proof.Proofs

open Machine Laws

/-! #### A line that evicts a clean one -/

/-- What a requester finds in package memory depends on memory and the lines of the slice caches alone. -/
theorem physGet_congr {s t : State} (hm : t.mem = s.mem) (hc : ∀ i : Fin 32, t.memStacks[i].cache = s.memStacks[i].cache) (a : Nat) :
    physGet t a = physGet s a := by
  simp only [physGet, cachedLine, cacheSetOf, hm, hc]

theorem markStale_cache (i j : Fin 32) (a n : Nat) (s : State) : (markStale i a n s).memStacks[j].cache = s.memStacks[j].cache := by
  by_cases hij : j = i
  · subst hij
    simp [markStale, emitAll]
  · have hne : i.val ≠ j.val := fun h => hij (Fin.ext h.symm)
    simp [markStale, emitAll, hne]

theorem physGet_markStale (i : Fin 32) (a n : Nat) (s : State) (x : Nat) : physGet (markStale i a n s) x = physGet s x :=
  physGet_congr (s := s) (t := markStale i a n s) rfl (fun j => markStale_cache i j a n s) x

/-- In a set with one way left, a line takes the place of the clean line there, whose bytes go nowhere. -/
theorem cacheInsert_evicts_clean {i : Fin 32} {l v : CacheLine} {c : CacheSet} {s : State} (hc : cacheSetOf l.line s.memStacks[i] = c)
    (hlines : c.lines = [v]) (hways : waysOf s.memStacks[i] c = 1) (hne : v.line ≠ l.line) (hkeep : v.keep = false)
    (hclean : v.dirty = false) (hl : l.keep = false) :
    ∃ w, cacheInsert i l true s =
      modStack i (fun st => { st with cache := putSet { c with lines := [{ l with way := w }] } st.cache }) s := by
  refine ⟨wayFor (enabledWays s.memStacks[i] c) c [] (some v) l.line, ?_⟩
  simp [cacheInsert, hc, hlines, hways, hne, hkeep, hclean, hl, dropLast, -Fin.getElem_fin]

/-- The last bytes of an entry, where the ring can be reached: they are written into it after the writes before them, and PI
advances. -/
theorem takeQdata_last {m : Msg} {q : HwQueue} {s : State} (hq : queueOf m.ref s = some q) (hrole : q.role = 1) (hsrc : q.remote = m.src)
    (hoff : m.offset < q.esize) (hroom : queueFill q < q.depth) (hcause : ringCause q q.pi q.esize s = none)
    (hlast : q.esize ≤ m.offset + (m.payload.take (q.esize - m.offset)).length) :
    takeQdata m s = modQueue q.queue q.port (fun e => { e with pi := bump e e.pi })
      (ptrWrite (ringPlace q s) q.ring (q.pi % q.depth * q.esize + m.offset) (m.payload.take (q.esize - m.offset))
        (settlePtr q.ring (q.pi % q.depth * q.esize) q.esize s)) := by
  have hserved : ¬(q.role ≠ 1 ∨ q.remote ≠ m.src ∨ q.esize ≤ m.offset ∨ q.depth ≤ queueFill q) := by
    rintro (h | h | h | h)
    · exact h hrole
    · exact h hsrc
    · omega
    · omega
  simp only [takeQdata, hq, if_neg hserved, hcause, if_pos hlast]

/-! #### The state -/

/-- A set with one way left, in which line `k` lies, clean. DRAM, which holds zeros, does not have its bytes. -/
def oneWaySet (k : Nat) : CacheSet :=
  { idx := setIdx k, lines := [{ line := k, way := 15, data := List.replicate 128 1, dirty := false, keep := false }],
    disabled := List.range 15 }

/-- A stack whose slice cache holds that set alone. -/
def oneWayStack (k : Nat) : Stack := { Stack.reset with inReset := false, cache := [oneWaySet k] }

/-- A queue of one entry of one byte, which lies at the first byte of line `n` of stack 0. -/
def byteQueue (n : Nat) : HwQueue :=
  { HwQueue.unused 16 .a with role := 1, depth := 1, esize := 1, ring := 2 ^ 60 + 128 * n, remote := 512 }

theorem queueFill_byteQueue (n : Nat) : queueFill (byteQueue n) < (byteQueue n).depth := by
  simp [queueFill, byteQueue, HwQueue.unused]

/-- A QDATA message with the byte of that entry. -/
def byteMsg : Msg :=
  { type := 6, cls := 4, sub := false, axis := 0, pnf := false, psat := false, last := false, resend := false, bcast := false, src := 512,
    srcPhys := false, dst := 0, dstPhys := false, jobtag := 0, step := 0, ref := 16, offset := 0, digest := 0, payload := [2] }

/-- The message waits at port X+ of a package whose paths to the stacks work. -/
def evicting (k n : Nat) : State :=
  { State.reset with
    dies := Vector.replicate 4 { Die.reset with inReset := false }
    links := Vector.replicate 41 { DieLink.reset with up := true }
    memStacks := Vector.replicate 32 (oneWayStack k)
    queues := [byteQueue n]
    fabric := Vector.replicate 6 { FabPort.reset with up := true, inbox := [byteMsg] } }

/-- The same package once the message has left its buffer. -/
def evictingNow (k n : Nat) : State := dropFront .xp 4 false (evicting k n)

theorem evictingNow_mem (k n : Nat) : (evictingNow k n).mem = [] := rfl

theorem evictingNow_stack (k n : Nat) (i : Fin 32) : (evictingNow k n).memStacks[i] = oneWayStack k := by
  simp [evictingNow, evicting, dropFront]

theorem cacheSetOf_oneWayStack {k n : Nat} (h : setIdx k = setIdx n) : cacheSetOf n (oneWayStack k) = oneWaySet k := by
  simp [cacheSetOf, oneWayStack, oneWaySet, h]

theorem oneWayStack_cacheOk {k : Nat} (hk : k < 2 ^ 30) : CacheOk (oneWayStack k) := by
  refine ⟨by simp [oneWayStack], fun c hc => ?_⟩
  obtain rfl : c = oneWaySet k := by simpa [oneWayStack] using hc
  exact ⟨fun l hl => by simp_all [oneWaySet], by simp [oneWaySet], Nat.le_refl 1, Nat.zero_le _⟩

theorem evictingNow_cachesOk {k : Nat} (hk : k < 2 ^ 30) (n : Nat) : CachesOk (evictingNow k n) :=
  ⟨by rw [evictingNow_mem]; rfl, fun i => by rw [evictingNow_stack]; exact oneWayStack_cacheOk hk⟩

theorem rangeOf_line {n : Nat} (hn : n < 2 ^ 30) : rangeOf (128 * n) = .stack 0 := by
  have h : 128 * n / 2 ^ 37 = 0 := by omega
  simp only [rangeOf, h]
  rfl

theorem lineNo_line {n : Nat} (hn : n < 2 ^ 30) : lineNo (128 * n) = n := by
  simp only [lineNo]
  omega

theorem ptr_byteQueue {n : Nat} (hn : n < 2 ^ 30) : ptr (byteQueue n).ring = .phys (128 * n) := by
  have hspace : bits (2 ^ 60 + 128 * n) 63 60 = 1 := by simp only [bits]; omega
  have haddr : bits (2 ^ 60 + 128 * n) 51 0 = 128 * n := by simp only [bits]; omega
  simp only [byteQueue, ptr, hspace, haddr]

theorem accessCause_evicting (k : Nat) {n : Nat} (hn : n < 2 ^ 30) : accessCause .hub (128 * n) 1 (evicting k n) = none := by
  simp [accessCause, rangeOf_line hn, evicting, oneWayStack, Stack.reset, pathOk, linkUp]

theorem ringCause_evicting (k : Nat) {n : Nat} (hn : n < 2 ^ 30) : ringCause (byteQueue n) 0 1 (evicting k n) = none := by
  simp [ringCause, ptrCause, ptr_byteQueue hn, spanCause, accessCause_evicting k hn]

theorem settlePtr_evictingNow (k : Nat) {n : Nat} (hn : n < 2 ^ 30) :
    settlePtr (byteQueue n).ring 0 1 (evictingNow k n) = evictingNow k n := by
  have hparked : parkedWrites 0 (evictingNow k n) = [] := by
    simp only [parkedWrites, evictingNow_stack]
    rfl
  simp [settlePtr, ptr_byteQueue hn, settleRange, rangeOf_line hn, hparked]

/-- Two lines of a stack share a set: there are 2^30 lines and 2^15 sets. -/
theorem exists_lines_same_set : ∃ k < 2 ^ 30, ∃ n < 2 ^ 30, k ≠ n ∧ setIdx k = setIdx n := by
  obtain ⟨k, hk, n, hn, hne, heq⟩ := Finset.exists_ne_map_eq_of_card_lt_of_maps_to (s := Finset.range 32769) (t := Finset.range 32768)
    (f := setIdx) (by simp) (fun x _ => by simp [setIdx, Nat.mod_lt])
  rw [Finset.mem_range] at hk hn
  exact ⟨k, by omega, n, by omega, hne, heq⟩

/-! #### The byte that is lost -/

theorem physGet_evictingNow (n : Nat) {k : Nat} (hk : k < 2 ^ 30) : physGet (evictingNow k n) (128 * k) = 1 := by
  have hoff : 128 * k % 128 = 0 := by omega
  simp only [physGet, rangeOf_line hk, lineNo_line hk, cachedLine, evictingNow_stack, cacheSetOf_oneWayStack rfl, hoff]
  simp [oneWaySet]

theorem physWrite_byte {n : Nat} (hn : n < 2 ^ 30) (b : Byte) (s : State) :
    physWrite (128 * n) [b] s = markStale 0 (128 * n) 1 (cacheWrite 0 (128 * n) [b] .none s) := by
  simp [physWrite, dmaWrite, linePieces, rangeOf_line hn]

theorem physGet_after_evicting {k n : Nat} (hk : k < 2 ^ 30) (hn : n < 2 ^ 30) (hne : k ≠ n) (hset : setIdx k = setIdx n) (b : Byte) :
    physGet (physWrite (128 * n) [b] (evictingNow k n)) (128 * k) = 0 := by
  have hout : cachedLine n (oneWayStack k) = none := by
    simp [cachedLine, cacheSetOf_oneWayStack hset, oneWaySet, hne]
  rw [physWrite_byte hn, physGet_markStale, cacheWrite]
  simp only [lineNo_line hn, evictingNow_stack, hout]
  obtain ⟨w, hins⟩ := cacheInsert_evicts_clean (i := 0) (s := evictingNow k n) (c := oneWaySet k)
    (l := ⟨n, 0, mergeLine (lineData 0 n (evictingNow k n)) (128 * n % 128) [b], true, false⟩)
    (by rw [evictingNow_stack, cacheSetOf_oneWayStack hset]) rfl (by rw [evictingNow_stack]; rfl) hne rfl rfl rfl
  refine Eq.trans (congrArg (physGet · (128 * k)) hins) ?_
  simp only [physGet, rangeOf_line hk, lineNo_line hk, getElem_modStack, evictingNow_stack]
  simp [cachedLine, cacheSetOf, oneWayStack, oneWaySet, putSet, hne.symm, evictingNow_mem, memGet]

/-- The step: the byte is written into the ring, and PI advances. -/
theorem exec_qdata_evicting (k : Nat) {n : Nat} (hn : n < 2 ^ 30) :
    exec (.qdata .xp false) (evicting k n) =
      .next (modQueue 16 .a (fun e => { e with pi := bump e e.pi }) (physWrite (128 * n) [2] (evictingNow k n))) := by
  show Host.Outcome.next (onMsg .xp 4 0x06 false takeQdata (evicting k n)) = _
  have hcause : ringCause (byteQueue n) (byteQueue n).pi (byteQueue n).esize (evictingNow k n) = none := ringCause_evicting k hn
  have htake := takeQdata_last (m := byteMsg) (q := byteQueue n) (s := evictingNow k n) rfl rfl rfl Nat.zero_lt_one
    (queueFill_byteQueue n) hcause (Nat.le_refl 1)
  refine congrArg Host.Outcome.next (htake.trans (congrArg (modQueue 16 .a fun e => { e with pi := bump e e.pi }) ?_))
  refine (congrArg (ptrWrite _ (byteQueue n).ring 0 [2]) (settlePtr_evictingNow k hn)).trans ?_
  simp only [ptrWrite, ptrWriteH, ptr_byteQueue hn, Nat.add_zero, physWrite]

/-- Refutes O52: `CachesOk` does not ask that the clean lines of a slice cache hold what DRAM holds. In `evicting k n` line `k` reads as ones
and is clean, and the byte that arrives for line `n` of the same set evicts it; a clean line is not written back (R167), so line `k` reads
as zeros afterwards, although the message does not name it. -/
theorem not_queueMessages : ¬ Obligations.QueueMessages := by
  unfold Obligations.QueueMessages
  intro h
  obtain ⟨k, hk, n, hn, hne, hset⟩ := exists_lines_same_set
  obtain ⟨hdata, -⟩ := h .xp false byteMsg (byteQueue n) (evicting k n) rfl rfl rfl
  obtain ⟨-, hreach⟩ := hdata rfl Nat.zero_lt_one (queueFill_byteQueue n)
  obtain ⟨t, hexec, -, -, -, hmem⟩ := hreach (ringCause_evicting k hn)
  obtain rfl := Host.Outcome.next.inj ((exec_qdata_evicting k hn).symm.trans hexec)
  have hu := settlePtr_evictingNow k hn
  obtain ⟨hstores, -⟩ := hmem _ (ptr_byteQueue hn) (hu.symm ▸ evictingNow_cachesOk hk n)
  have hbyte : physGet (physWrite (128 * n) [2] (evictingNow k n)) (128 * k) = physGet (evictingNow k n) (128 * k) := by
    refine (hstores (128 * k)).trans ((if_neg fun hin => ?_).trans (congrArg (physGet · (128 * k)) hu))
    obtain ⟨hlo, hhi⟩ : 128 * n ≤ 128 * k ∧ 128 * k < 128 * n + 1 := hin
    omega
  rw [physGet_after_evicting hk hn hne hset, physGet_evictingNow n hk] at hbyte
  exact absurd hbyte (by decide)

end Sys2Proof.Proofs

/-! ### A locked command of Table 10.8 that is taken (R267, R269) -/

namespace Sys2Proof.Proofs

open Machine Laws

/-! #### What mailboxes keep alone -/

theorem mailboxOnly_of_run {s t : State} (h : Run [.out, .hostA, .hostB, .i3c, .seq, .log] s t) : MailboxOnly s t := by
  have hlock : t.lock = s.lock := h.same .lock rfl
  have hwarden : t.warden = s.warden := h.same .warden rfl
  unfold MailboxOnly
  rw [hlock, hwarden]
  exact eq_mailbox_upd h

theorem mailboxOnly_trans {s t u : State} (h : MailboxOnly s t) (k : MailboxOnly t u) : MailboxOnly s u := by
  unfold MailboxOnly at h k ⊢
  rw [h] at k
  exact k

theorem drain_mailboxOnly (mb : Mbox) (s : State) : MailboxOnly s (drain mb s) :=
  mailboxOnly_of_run (drain_run mb s (.refl _ s) (by decide))

theorem popEntry_mailboxOnly (mb : Mbox) (s : State) : MailboxOnly s (popEntry mb s) :=
  mailboxOnly_of_run (popEntry_run mb s (.refl _ s) (by decide))

theorem lock_mailboxOnly (l : Lock) (s : State) : MailboxOnly s { s with lock := l } := rfl

theorem restartLease_mailboxOnly (s : State) : MailboxOnly s (restartLease s) := lock_mailboxOnly _ s

theorem finishAt_mailboxOnly (a : Accepted) (status result at_ : Nat) (s : State) : MailboxOnly s (finishAt a status result at_ s) := rfl

theorem emit_mailboxOnly (o : Out) (s : State) : MailboxOnly s (emit o s) := rfl

@[simp] theorem drain_warden (mb : Mbox) (s : State) : (drain mb s).warden = s.warden :=
  (drain_run (flds := [.out, .hostA, .hostB, .i3c, .seq, .log]) mb s (.refl _ s) (by decide)).same .warden rfl

@[simp] theorem putCpl_warden (mb : Mbox) (e : Bytes) (kind st d r f : Nat) (discard : Bool) (s : State) :
    (putCpl mb e kind st d r f discard s).warden = s.warden :=
  (putCpl_run (flds := [.out, .hostA, .hostB, .i3c, .seq, .log]) mb e kind st d r f discard s (.refl _ s) (by decide)).same .warden rfl

@[simp] theorem popEntry_warden (mb : Mbox) (s : State) : (popEntry mb s).warden = s.warden := by cases mb <;> rfl

/-! #### Acceptance and start -/

/-- The bound of a command does not look at the mailboxes. -/
theorem cmdDeadline_popEntry (mb : Mbox) (locked : Bool) (e : Bytes) (s : State) :
    cmdDeadline locked e (popEntry mb s) = cmdDeadline locked e s := by
  have hbound : boundStart locked (popEntry mb s) = boundStart locked s := by cases mb <;> rfl
  have horigin : nextOrigin (popEntry mb s) = nextOrigin s := by cases mb <;> rfl
  have htide : tideNow (popEntry mb s) = tideNow s := by cases mb <;> rfl
  have hckpt : ckptStep (popEntry mb s) = ckptStep s := by cases mb <;> rfl
  have hjob : (popEntry mb s).job = s.job := by cases mb <;> rfl
  simp only [cmdDeadline, waitsBoundary, running, period, stopTime, hbound, horigin, htide, hckpt, hjob]
  cases mb <;> rfl

/-- A locked command as the warden keeps it once it has started. -/
def startedCmd (mb : Mbox) (e : Bytes) (ext : EnvAnswer) (s : State) : Accepted :=
  { mb := mb, entry := e, deadline := cmdDeadline true e s, acceptedAt := s.now, locked := true, started := true, done := none,
    orphan := false, ext := ext, aux := b2n (waitsBoundary e s) }

/-- The same at its acceptance. -/
def acceptedCmd (mb : Mbox) (e : Bytes) (ext : EnvAnswer) (s : State) : Accepted := { startedCmd mb e ext s with started := false }

theorem acceptedCmd_popEntry (mb : Mbox) (e : Bytes) (ext : EnvAnswer) (s : State) :
    acceptedCmd mb e ext (popEntry mb s) = acceptedCmd mb e ext s := by
  have hnow : (popEntry mb s).now = s.now := by cases mb <;> rfl
  have hwaits : waitsBoundary e (popEntry mb s) = waitsBoundary e s := by cases mb <;> rfl
  simp only [acceptedCmd, startedCmd, cmdDeadline_popEntry, hnow, hwaits]

/-- The warden keeps a locked command that it has accepted, and its deadline as that of the last one. -/
def keepLocked (a : Accepted) (s : State) : State :=
  { s with warden := { s.warden with accepted := s.warden.accepted ++ [a], lockedDeadline := a.deadline } }

theorem keepLocked_mailboxOnly (a : Accepted) (s : State) : MailboxOnly s (keepLocked a s) := rfl

/-- A locked command taken out of its mailbox, the lease running anew. -/
def takenState (mb : Mbox) (e : Bytes) (ext : EnvAnswer) (s : State) : State :=
  let t := keepLocked (acceptedCmd mb e ext (popEntry mb s)) (popEntry mb s)
  if t.lock.owner.isSome then restartLease t else t

/-- The state in which a locked command has been accepted: its ACCEPTED entry is written, and nothing else has happened. -/
def acceptedState (mb : Mbox) (e : Bytes) (ext : EnvAnswer) (s : State) : State :=
  putCpl mb e 0 0 (cmdDeadline true e (popEntry mb s)) 0 0 false (takenState mb e ext s)

theorem takenState_mailboxOnly (mb : Mbox) (e : Bytes) (ext : EnvAnswer) (s : State) : MailboxOnly s (takenState mb e ext s) := by
  unfold takenState
  extract_lets t
  have ht : MailboxOnly s t := mailboxOnly_trans (popEntry_mailboxOnly mb s) (keepLocked_mailboxOnly _ _)
  split
  · exact mailboxOnly_trans ht (restartLease_mailboxOnly t)
  · exact ht

theorem acceptedState_mailboxOnly (mb : Mbox) (e : Bytes) (ext : EnvAnswer) (s : State) :
    MailboxOnly s (acceptedState mb e ext s) :=
  mailboxOnly_trans (takenState_mailboxOnly mb e ext s) (mailboxOnly_of_run (putCpl_run _ _ _ _ _ _ _ _ _ (.refl _ _) (by decide)))

theorem acceptedState_accepted (mb : Mbox) (e : Bytes) (ext : EnvAnswer) (s : State) :
    (acceptedState mb e ext s).warden.accepted = s.warden.accepted ++ [acceptedCmd mb e ext s] := by
  simp only [acceptedState, takenState, keepLocked, putCpl_warden, apply_ite State.warden, restartLease, ite_self, acceptedCmd_popEntry,
    popEntry_warden]

/-- A command that needs the lock and that nothing refuses: it is accepted, its effect at acceptance takes place, and the next locked
command starts. -/
theorem fromMailbox_of_offered {op : Nat} {mb : Mbox} {e : Bytes} {s : State} {row : CmdRow} (ho : Offered op mb e s)
    (hrow : cmdRow op = some row) (hlock : row.lock = true) (ext : EnvAnswer) :
    fromMailbox op mb ext s = drain mb (startNext (acceptEffect e (acceptedState mb e ext s))) := by
  have hop : entOp e = op := ho.opcode
  rw [fromMailbox_of_waits ho.toWaits (by rw [hrow]; rfl), takeEntry, if_pos ho.granted]
  simp only [accept, hop, hrow, Option.map_some, hlock, Option.getD_some, if_true, Bool.true_and]
  rfl

/-- The first locked command of a list whose others need no lock. -/
theorem find?_locked_append {l : List Accepted} (h : ∀ a ∈ l, a.locked = false) {a : Accepted} (ha : a.locked = true) :
    (l ++ [a]).find? (·.locked) = some a := by
  rw [List.find?_append, List.find?_eq_none.mpr fun x hx => by simp [h x hx]]
  simp [ha]

theorem replaceFirst_append {l : List Accepted} {a : Accepted} (h : a ∉ l) (b : Accepted) : replaceFirst a b (l ++ [a]) = l ++ [b] := by
  induction l with
  | nil => simp [replaceFirst]
  | cons x r ih =>
    obtain ⟨hx, hr⟩ : a ≠ x ∧ a ∉ r := by simpa using h
    simp [replaceFirst, hx.symm, ih hr]

/-- With no other locked command at work the last one accepted starts. -/
theorem startNext_append {l : List Accepted} {a : Accepted} {s : State} (hacc : s.warden.accepted = l ++ [a])
    (hl : ∀ x ∈ l, x.locked = false) (ha : a.locked = true) (hnew : a.started = false) (hopen : a.done = none) :
    startNext s = runOp { a with started := true }
      { s with warden := { s.warden with accepted := l ++ [{ a with started := true }] } } := by
  have hfresh : a ∉ l := fun h => Bool.noConfusion ((hl a h).symm.trans ha)
  simp only [startNext, hacc, find?_locked_append hl ha, hnew, hopen, Option.isSome_none, Bool.or_self, Bool.false_eq_true, if_false,
    startOp, replaceFirst_append hfresh]

/-- The state in which a locked command has been accepted and marked started. -/
def startedState (mb : Mbox) (e : Bytes) (ext : EnvAnswer) (s : State) : State :=
  let t := acceptedState mb e ext s
  { t with warden := { t.warden with accepted := s.warden.accepted ++ [startedCmd mb e ext s] } }

theorem startedState_mailboxOnly (mb : Mbox) (e : Bytes) (ext : EnvAnswer) (s : State) : MailboxOnly s (startedState mb e ext s) :=
  mailboxOnly_trans (acceptedState_mailboxOnly mb e ext s) rfl

theorem startedCmd_mem_startedState (mb : Mbox) (e : Bytes) (ext : EnvAnswer) (s : State) :
    startedCmd mb e ext s ∈ (startedState mb e ext s).warden.accepted := by simp [startedState]

/-- The opcodes whose acceptance has an effect of its own. -/
theorem acceptEffect_of_plain {e : Bytes} (h : entOp e ∉ [0x0103, 0x0201, 0x0303, 0x0306]) (s : State) : acceptEffect e s = s := by
  unfold acceptEffect
  split <;> simp_all

/-- A locked command that nothing refuses, without an effect at acceptance, starts at once where no other one is at work (R269). -/
theorem fromMailbox_starts {op : Nat} {mb : Mbox} {e : Bytes} {s : State} {row : CmdRow} (ho : Offered op mb e s) (hl : LockedIdle s)
    (hrow : cmdRow op = some row) (hlock : row.lock = true) (hplain : op ∉ [0x0103, 0x0201, 0x0303, 0x0306]) (ext : EnvAnswer) :
    fromMailbox op mb ext s = drain mb (runOp (startedCmd mb e ext s) (startedState mb e ext s)) := by
  rw [fromMailbox_of_offered ho hrow hlock, acceptEffect_of_plain (ho.opcode.symm ▸ hplain),
    startNext_append (acceptedState_accepted mb e ext s) hl rfl rfl rfl]
  rfl

/-! #### The end of a command -/

theorem holds_finishAt {mb : Mbox} {e : Bytes} {ext : EnvAnswer} {s t : State} (h : startedCmd mb e ext s ∈ t.warden.accepted)
    (status result at_ : Nat) :
    Holds mb e (cmdDeadline true e s) (some { status := status, result := result, fault := 0, at_ := at_ }) s
      (finishAt (startedCmd mb e ext s) status result at_ t) := by
  refine ⟨_, List.mem_map_of_mem h, ?_⟩
  rw [if_pos (by simp [startedCmd])]
  exact ⟨rfl, rfl, rfl, rfl, rfl, rfl, rfl⟩

theorem holds_drain {mb mb' : Mbox} {e : Bytes} {deadline : Nat} {d : Option Done} {s t : State} (h : Holds mb e deadline d s t) :
    Holds mb e deadline d s (drain mb' t) := by
  unfold Holds
  rw [drain_warden]
  exact h

/-- A command that is finished now ends. -/
theorem ends_finish {mb : Mbox} {e : Bytes} {ext : EnvAnswer} {s t : State} (h : startedCmd mb e ext s ∈ t.warden.accepted)
    (hnow : t.now = s.now) (status result : Nat) :
    Ends mb e (cmdDeadline true e s) status result s (drain mb (finish (startedCmd mb e ext s) status result t)) := by
  have hends := holds_drain (mb' := mb) (holds_finishAt h status result t.now)
  rw [hnow] at hends
  unfold finish
  rw [hnow]
  exact hends

end Sys2Proof.Proofs

/-! ### Configuration commands, package reset and tests (R72, R210, R299, R317, R330, R362) -/

namespace Sys2Proof.Proofs

open Machine Laws

/-! #### What an operation of a command may change beside the mailboxes -/

/-- What is read of a state after mailboxes alone have changed. -/
theorem congr_mailboxOnly {α : Type} {s t : State} (f : State → α) (h : MailboxOnly s t) :
    f t = f { s with out := t.out, hostA := t.hostA, hostB := t.hostB, i3c := t.i3c, lock := t.lock,
                     warden := { s.warden with accepted := t.warden.accepted, lockedDeadline := t.warden.lockedDeadline },
                     seq := t.seq, log := t.log } :=
  congrArg f h

/-- A `Run` over the power controls, the PLLs and flash, as the one record update that it is. -/
theorem eq_work_upd {s t : State} (h : Run [.power, .plls, .flash] s t) :
    t = { s with power := t.power, plls := t.plls, flash := t.flash } :=
  State.ext (h.same .pending rfl) (h.same .now rfl) (h.same .freeCtr rfl) (h.same .out rfl) rfl rfl
    (h.same .tide rfl) (h.same .tideHi rfl) (h.same .hostA rfl) (h.same .hostB rfl) (h.same .lock rfl) (h.same .i3c rfl)
    (h.same .peer rfl) (h.same .warden rfl) (h.same .seq rfl) (h.same .log rfl) (h.same .queues rfl) (h.same .job rfl)
    (h.same .exec rfl) (h.same .gauges rfl) (h.same .dies rfl) (h.same .cores rfl) (h.same .coreStore rfl)
    (h.same .memStacks rfl) (h.same .mem rfl) (h.same .far rfl) (h.same .links rfl) (h.same .levee rfl) (h.same .fabric rfl)
    (h.same .twin rfl) rfl (h.same .inspect rfl)

/-- What mailboxes keep, then power controls, PLLs and flash, then what mailboxes keep. -/
theorem mailboxOnly_of_work {s u w t : State} (h : MailboxOnly s u) (hwork : Run [.power, .plls, .flash] u w) (k : MailboxOnly w t) :
    MailboxOnly { s with power := t.power, plls := t.plls, flash := t.flash } t := by
  have hpower : t.power = w.power := congr_mailboxOnly State.power k
  have hplls : t.plls = w.plls := congr_mailboxOnly State.plls k
  have hflash : t.flash = w.flash := congr_mailboxOnly State.flash k
  have hw : MailboxOnly { s with power := w.power, plls := w.plls, flash := w.flash }
      { u with power := w.power, plls := w.plls, flash := w.flash } :=
    congr_mailboxOnly (fun x => ({ x with power := w.power, plls := w.plls, flash := w.flash } : State)) h
  rw [← eq_work_upd hwork] at hw
  rw [hpower, hplls, hflash]
  exact mailboxOnly_trans hw k

/-! #### Clock mode -/

/-- A compute die's polders return to 1.20 GHz on PLL0 (R330). -/
def toFixedClock (s : State) (d : Fin 4) : State :=
  modPll (Fin.castLE (by decide) d) (fun k => if k.freq = 1200 ∧ k.active = 0 then k
    else { k with active := 0, freq := 1200, lastChange := s.now, costPs := changeCost k.freq 1200 }) s

/-- CLOCK_MODE before the command ends. -/
def clockWork (on : Bool) (s : State) : State :=
  let s := modPower (fun p => { p with boost := on }) s
  if on then s else (List.finRange 4).foldl toFixedClock s

theorem runClockMode_eq (a : Accepted) (s : State) : runClockMode a s = finish a 0 0 (clockWork (arg a.entry 0 1 == 1) s) := rfl

theorem toFixedClock_run (s : State) (d : Fin 4) : Run [.plls] s (toFixedClock s d) := modPll_run _ _ _ (.refl _ s) (by decide)

theorem foldl_toFixedClock_run (l : List (Fin 4)) (s : State) : Run [.plls] s (l.foldl toFixedClock s) :=
  Run.foldl (.refl _ s) fun d x h => h.trans (toFixedClock_run x d) (by decide)

theorem clockWork_run (on : Bool) (s : State) : Run [.power, .plls] s (clockWork on s) := by
  have hboost : Run [.power, .plls] s (modPower (fun p => { p with boost := on }) s) := modPower_run _ s (.refl _ s) (by decide)
  unfold clockWork
  split
  · exact hboost
  · exact hboost.trans (foldl_toFixedClock_run _ _) (by decide)

theorem clockWork_power (on : Bool) (s : State) : (clockWork on s).power = { s.power with boost := on } := by
  unfold clockWork
  split
  · rfl
  · exact (foldl_toFixedClock_run _ _).same .power rfl

/-- Whether a PLL pair runs at 1.20 GHz from PLL0. -/
def AtFixedClock (k : Plls) : Prop := k.active = 0 ∧ k.freq = 1200

theorem toFixedClock_self (s : State) (d : Fin 4) : AtFixedClock (toFixedClock s d).plls[d.val] := by
  simp only [toFixedClock, modPll_plls, Fin.val_castLE, Vector.getElem_set_self]
  split
  next h => exact h.symm
  next => exact ⟨rfl, rfl⟩

theorem toFixedClock_other (s : State) {d : Fin 4} {u : Fin 36} (h : d.val ≠ u.val) : (toFixedClock s d).plls[u.val] = s.plls[u.val] := by
  simp only [toFixedClock, modPll_plls, Fin.val_castLE]
  exact Vector.getElem_set_ne _ _ h

theorem foldl_toFixedClock_other (l : List (Fin 4)) (s : State) {u : Fin 36} (h : 4 ≤ u.val) :
    (l.foldl toFixedClock s).plls[u.val] = s.plls[u.val] := by
  induction l generalizing s with
  | nil => rfl
  | cons d l ih => rw [List.foldl_cons, ih, toFixedClock_other s (by omega)]

theorem foldl_toFixedClock_kept (l : List (Fin 4)) {s : State} {u : Fin 36} (h : AtFixedClock s.plls[u.val]) :
    AtFixedClock (l.foldl toFixedClock s).plls[u.val] := by
  induction l generalizing s with
  | nil => exact h
  | cons d l ih =>
    refine ih ?_
    by_cases hd : d.val = u.val
    · simpa only [hd] using toFixedClock_self s d
    · rwa [toFixedClock_other s hd]

theorem foldl_toFixedClock_mem {l : List (Fin 4)} {d : Fin 4} (h : d ∈ l) (s : State) :
    AtFixedClock (l.foldl toFixedClock s).plls[d.val] := by
  induction l generalizing s with
  | nil => exact absurd h List.not_mem_nil
  | cons x l ih =>
    rcases List.mem_cons.mp h with rfl | h
    · exact foldl_toFixedClock_kept (u := Fin.castLE (by decide) d) l (toFixedClock_self s d)
    · exact ih h _

/-! #### Guard mode -/

/-- Set the list of cores in guard-bit mode. -/
def withGuard (g : List (Nat × Nat)) (s : State) : State := { s with warden := { s.warden with guard := g } }

/-- The cores in guard-bit mode after a GUARD_MODE entry. -/
def guardAfter (e : Bytes) (g : List (Nat × Nat)) : List (Nat × Nat) :=
  let k := (arg e 0 1, arg e 1 2)
  if arg e 3 1 = 1 then g.filter (· != k) ++ [k] else g.filter (· != k)

theorem runGuard_eq (a : Accepted) (s : State) :
    runGuard a s = finish a 0 0 (withGuard (guardAfter a.entry s.warden.guard) s) := rfl

theorem mem_guardAfter (e : Bytes) (g : List (Nat × Nat)) (k : Nat × Nat) :
    k ∈ guardAfter e g ↔ (k ∈ g ∧ k ≠ (arg e 0 1, arg e 1 2)) ∨ (k = (arg e 0 1, arg e 1 2) ∧ arg e 3 1 = 1) := by
  unfold guardAfter
  extract_lets c
  split
  next h => simp [h, c]
  next h => simp [h, c]

theorem withGuard_mailboxOnly (g : List (Nat × Nat)) {s t : State} (h : MailboxOnly s t) : MailboxOnly (withGuard g s) (withGuard g t) :=
  congr_mailboxOnly (withGuard g) h

/-! #### Results of the tests -/

/-- What a test finds, and whether host memory takes its result. -/
def Answers (dma : Bool) (x : EnvAnswer) : Prop := (∃ ws, x = .wires dma ws) ∨ ∃ r, x = .scan dma r

theorem deliverAt_answered {a : Accepted} (horphan : a.orphan = false) (h : Answers true a.ext) (b : Bytes) (result at_ : Nat) (s : State) :
    deliverAt a b result at_ s = finishAt a 0 result at_ (emit (.dataOut a.mb (entData a.entry) b) s) := by
  obtain ⟨ws, h⟩ | ⟨r, h⟩ := h <;> simp [deliverAt, horphan, h]

theorem deliverAt_unanswered {a : Accepted} (horphan : a.orphan = false) (h : Answers false a.ext) (b : Bytes) (result at_ : Nat)
    (s : State) : deliverAt a b result at_ s = finish a 9 0 s := by
  obtain ⟨ws, h⟩ | ⟨r, h⟩ := h <;> simp [deliverAt, horphan, h]

theorem deliverAt_mailboxOnly (a : Accepted) (b : Bytes) (result at_ : Nat) (s : State) : MailboxOnly s (deliverAt a b result at_ s) := by
  have hdone : MailboxOnly s (finishAt a 0 result at_ (emit (.dataOut a.mb (entData a.entry) b) s)) :=
    mailboxOnly_trans (emit_mailboxOnly _ s) (finishAt_mailboxOnly ..)
  unfold deliverAt
  split
  · exact finishAt_mailboxOnly ..
  · split
    · exact finishAt_mailboxOnly ..
    · exact finishAt_mailboxOnly ..
    · exact finishAt_mailboxOnly ..
    · exact hdone

theorem out_subset_drain {o : Out} {s : State} (h : o ∈ s.out) (mb : Mbox) : o ∈ (drain mb s).out :=
  (drain_run (flds := [.out, .hostA, .hostB, .i3c, .seq, .log]) mb s (.refl _ s) (by decide)).out.subset h

/-- A result that host memory takes: DATA holds it, and the command ends with its RESULT. -/
theorem deliverAt_delivers {mb : Mbox} {e : Bytes} {ext : EnvAnswer} {s t : State} (h : startedCmd mb e ext s ∈ t.warden.accepted)
    (hext : Answers true ext) (b : Bytes) (result at_ : Nat) :
    let u := drain mb (deliverAt (startedCmd mb e ext s) b result at_ t)
    .dataOut mb (entData e) b ∈ u.out ∧
      Holds mb e (cmdDeadline true e s) (some { status := 0, result := result, fault := 0, at_ := at_ }) s u := by
  rw [deliverAt_answered rfl hext]
  refine ⟨out_subset_drain ?_ mb, holds_drain (holds_finishAt h 0 result at_)⟩
  simp [finishAt, emit, startedCmd]

/-- A result that host memory does not take ends the command with 0x09. -/
theorem deliverAt_fails {mb : Mbox} {e : Bytes} {ext : EnvAnswer} {s t : State} (h : startedCmd mb e ext s ∈ t.warden.accepted)
    (hnow : t.now = s.now) (hext : Answers false ext) (b : Bytes) (result at_ : Nat) :
    Ends mb e (cmdDeadline true e s) 9 0 s (drain mb (deliverAt (startedCmd mb e ext s) b result at_ t)) := by
  rw [deliverAt_unanswered rfl hext]
  exact ends_finish h hnow 9 0

/-! #### LINK_TEST -/

/-- The links that a LINK_TEST entry names. -/
def linksOf (e : Bytes) : List (Fin 41) := testedLinks (arg e 0 1) (arg e 1 1) (arg e 2 1)

/-- Whether the partners that the mode of a LINK_TEST needs are ready. -/
def PartnersReady (e : Bytes) (s : State) : Prop := arg e 2 1 < 2 ∨ ∀ l ∈ linksOf e, endsReady l s = true

/-- The wires of the tested links. -/
def testedWires (e : Bytes) (ws : List WireResult) : List WireResult := ws.filter fun r => (linksOf e).contains r.link

/-- The margins of the tested links go to their settlement gauges. -/
def sampleMargins (e : Bytes) (ws : List WireResult) (s : State) : State :=
  ((linksOf e).flatMap fun l => [(l, false), (l, true)]).foldl (sampleMargin ws) s

theorem runLinkTest_notReady {a : Accepted} {s : State} (h : ¬PartnersReady a.entry s) : runLinkTest a s = finish a 6 0 s := by
  obtain ⟨hmode, l, hl, hend⟩ : 1 < arg a.entry 2 1 ∧ ∃ l ∈ linksOf a.entry, endsReady l s = false := by
    simpa [PartnersReady] using h
  have hall : (linksOf a.entry).all (fun l => endsReady l s) = false := by
    rw [List.all_eq_false]
    exact ⟨l, hl, by simp [hend]⟩
  show (if _ && !(linksOf a.entry).all _ then _ else _) = _
  rw [if_pos (by simp [Nat.succ_le_of_lt hmode, hall])]

theorem runLinkTest_ready {a : Accepted} {s : State} {dma : Bool} {ws : List WireResult} (h : PartnersReady a.entry s)
    (hext : a.ext = .wires dma ws) :
    runLinkTest a s =
      let t := sampleMargins a.entry (testedWires a.entry ws) s
      let b := (Config.linkTestImage (testedWires a.entry ws)).take (entLen a.entry)
      deliverAt a b b.length (t.now + arg a.entry 4 4 * 1000000) t := by
  have hready : (decide (2 ≤ arg a.entry 2 1) && !(linksOf a.entry).all fun l => endsReady l s) = false := by
    rcases h with h | h
    · simp [show ¬2 ≤ arg a.entry 2 1 by omega]
    · simp [List.all_eq_true.mpr h]
  unfold linksOf at hready
  simp only [runLinkTest, hready, hext]
  rfl

theorem sampleMargins_run (e : Bytes) (ws : List WireResult) (s : State) : Run [.flash] s (sampleMargins e ws s) :=
  Run.foldl (.refl _ s) fun x t h => sampleMargin_run ws t x h (by decide)

/-- Neither copy of the repair ledger differs. -/
def SameLedger (s t : State) : Prop := t.flash.ledgerA = s.flash.ledgerA ∧ t.flash.ledgerB = s.flash.ledgerB

theorem sampleMargin_sameLedger (ws : List WireResult) (s : State) (x : Fin 41 × Bool) : SameLedger s (sampleMargin ws s x) := by
  unfold sampleMargin
  extract_lets ps
  split
  · exact ⟨rfl, rfl⟩
  · exact ⟨rfl, rfl⟩

theorem sampleMargins_sameLedger (e : Bytes) (ws : List WireResult) (s : State) : SameLedger s (sampleMargins e ws s) := by
  unfold sampleMargins
  generalize (linksOf e).flatMap (fun l => [(l, false), (l, true)]) = l
  induction l generalizing s with
  | nil => exact ⟨rfl, rfl⟩
  | cons x l ih =>
    obtain ⟨ha, hb⟩ := ih (sampleMargin ws s x)
    obtain ⟨ka, kb⟩ := sampleMargin_sameLedger ws s x
    exact ⟨ha.trans ka, hb.trans kb⟩

theorem endsReady_of_mailboxOnly {s t : State} (h : MailboxOnly s t) (l : Fin 41) : endsReady l t = endsReady l s :=
  (congr_mailboxOnly (endsReady l) h).trans rfl

/-! #### CORE_SCAN -/

/-- Whether the die that a CORE_SCAN entry names is in reset, or its clusters are stopped. -/
def ScanDieDown (e : Bytes) (s : State) : Prop :=
  s.dies[Fin.ofNat 4 (arg e 0 1)].inReset = true ∨ clusterStopped (Fin.ofNat 4 (arg e 0 1)) s = true

theorem runScan_down {a : Accepted} {s : State} (h : ScanDieDown a.entry s) : runScan a s = finish a 6 0 s := by
  unfold runScan
  extract_lets d
  rw [if_pos (Bool.or_eq_true_iff.mpr h)]

theorem runScan_up {a : Accepted} {s : State} {dma : Bool} {r : ScanResult} (h : ¬ScanDieDown a.entry s) (hext : a.ext = .scan dma r) :
    runScan a s = deliverAt a (scanBytes r) (b2n (decide (r.tests ≠ 0))) s.now s := by
  unfold runScan
  extract_lets d
  rw [if_neg (fun hd => h (Bool.or_eq_true_iff.mp hd)), hext]

theorem clusterStopped_of_mailboxOnly {s t : State} (h : MailboxOnly s t) (d : Fin 4) : clusterStopped d t = clusterStopped d s :=
  (congr_mailboxOnly (clusterStopped d) h).trans rfl

/-! #### PKG_RESET -/

/-- The end of other commands, as a failure of the package brings it: a PKG_RESET stays as it is. -/
def KeepsReset (l m : List Accepted) : Prop :=
  ∃ g : Accepted → Accepted, m = l.map g ∧ (∀ a, (g a).locked = a.locked) ∧ ∀ a, entOp a.entry = 0x0306 → g a = a

theorem KeepsReset.refl (l : List Accepted) : KeepsReset l l := ⟨id, by simp, fun _ => rfl, fun _ _ => rfl⟩

theorem KeepsReset.trans {l m n : List Accepted} (h : KeepsReset l m) (k : KeepsReset m n) : KeepsReset l n := by
  obtain ⟨g, rfl, hlocked, hreset⟩ := h
  obtain ⟨g', rfl, klocked, kreset⟩ := k
  refine ⟨g' ∘ g, by simp, fun a => (klocked _).trans (hlocked a), fun a ha => ?_⟩
  rw [Function.comp_apply, hreset a ha, kreset a ha]

theorem endOp_keepsReset {op : Nat} (hop : op ≠ 0x0306) (d : Done) (s : State) :
    KeepsReset s.warden.accepted (endOp op d s).warden.accepted := by
  refine ⟨_, rfl, fun a => ?_, fun a ha => ?_⟩
  · split
    · rfl
    · rfl
  · rw [if_neg (by simp [ha, hop.symm])]

theorem overtake_keepsReset (status fault : Nat) (s : State) : KeepsReset s.warden.accepted (overtake status fault s).warden.accepted :=
  ((endOp_keepsReset (by decide) _ s).trans (endOp_keepsReset (by decide) _ _)).trans (endOp_keepsReset (op := 0x0201) (by decide) _ _)

theorem overtake_state (status fault : Nat) (s : State) : (overtake status fault s).job.state = s.job.state := rfl

theorem setJob_state (n : JobState) (s : State) : (setJob n s).job.state = n := by
  unfold setJob
  split
  next h => simpa using h
  next =>
    extract_lets old
    exact congrArg JobCtl.state ((logEv_ports_run ..).same .job rfl)

/-- The job of a package that fails in state R or S ends, and a PKG_RESET stays as it is. -/
theorem failPackage_of_started {s : State} (h : s.job.state = .running ∨ s.job.state = .stopped) (code status fault : Nat) :
    (failPackage code status fault s).job.state = .failed ∧
      KeepsReset s.warden.accepted (failPackage code status fault s).warden.accepted := by
  have hstate : failPackage code status fault s = overtake status fault (setJob .failed (abandonTasks (abortSlot (noteFailure
      (peerBcast 0x8020 s.job.cstep (failArgs (logId s) code s.job.cstep) s))))) := by
    rcases h with h | h <;> simp only [failPackage, h]
  rw [hstate]
  refine ⟨(overtake_state _ _ _).trans (setJob_state _ _), ?_⟩
  have hrun : Run [.out, .hostA, .hostB, .seq, .log, .job, .exec, .cores, .memStacks, .fabric, .twin, .inspect] s
      (setJob .failed (abandonTasks (abortSlot (noteFailure (peerBcast 0x8020 s.job.cstep (failArgs (logId s) code s.job.cstep) s))))) :=
    setJob_run _ _ (abandonTasks_run _ (abortSlot_run _ (noteFailure_run _ (peerBcast_run _ _ _ s (.refl _ s)
      (by decide)) (by decide)) (by decide)) (by decide)) (by decide)
  have hwarden : Warden.accepted _ = _ := congrArg Warden.accepted (hrun.same .warden rfl)
  rw [← hwarden]
  exact overtake_keepsReset _ _ _

/-- The instant of a package reset is fixed. -/
def pendReset (e : Bytes) (s : State) : State := modPower (fun p => { p with pend := some { level := arg e 0 1, tA := s.now } }) s

theorem acceptEffect_reset {e : Bytes} (h : entOp e = 0x0306) (s : State) :
    acceptEffect e s = if s.job.state = .running ∨ s.job.state = .stopped then failPackage 4 0x0B s.seq (pendReset e s)
      else pendReset e s := by
  simp only [acceptEffect, h]
  rfl

theorem acceptEffect_reset_power {e : Bytes} (h : entOp e = 0x0306) (s : State) :
    (acceptEffect e s).power = { s.power with pend := some { level := arg e 0 1, tA := s.now } } := by
  rw [acceptEffect_reset h]
  split
  · exact (failPackage_run (flds := [.out, .hostA, .hostB, .warden, .seq, .log, .job, .exec, .cores, .memStacks, .fabric, .twin, .inspect])
      _ _ _ _ (.refl _ _) (by decide)).same .power rfl
  · rfl

theorem acceptEffect_reset_keeps {e : Bytes} (h : entOp e = 0x0306) (s : State) :
    KeepsReset s.warden.accepted (acceptEffect e s).warden.accepted := by
  rw [acceptEffect_reset h]
  split
  next hjob => exact (failPackage_of_started (s := pendReset e s) hjob _ _ _).2
  next => exact .refl _

/-- The state in which a PKG_RESET has started: nothing happens before its instant. -/
theorem fromMailbox_reset {mb : Mbox} {e : Bytes} {s : State} (ho : Offered 0x0306 mb e s) (hl : LockedIdle s) :
    ∃ l, fromMailbox 0x0306 mb .none s =
      let t := acceptEffect e (acceptedState mb e .none s)
      drain mb { t with warden := { t.warden with accepted := l ++ [startedCmd mb e .none s] } } := by
  obtain ⟨g, hacc, hlocked, hreset⟩ := acceptEffect_reset_keeps ho.opcode (acceptedState mb e .none s)
  rw [acceptedState_accepted, List.map_append, List.map_singleton, hreset _ ho.opcode] at hacc
  have hidle : ∀ x ∈ s.warden.accepted.map g, x.locked = false := fun x hx => by
    obtain ⟨a, ha, rfl⟩ := List.mem_map.mp hx
    exact (hlocked a).trans (hl a ha)
  refine ⟨s.warden.accepted.map g, ?_⟩
  have hop : entOp e = 0x0306 := ho.opcode
  rw [fromMailbox_of_offered ho rfl rfl, startNext_append hacc hidle rfl rfl rfl]
  simp only [runOp, acceptedCmd, startedCmd, hop]
  rfl

/-- PKG_RESET (R317, R319). -/
theorem pkgReset_effect {mb : Mbox} {e : Bytes} {s : State} (ho : Offered 0x0306 mb e s) (hl : LockedIdle s) :
    ∃ t, exec (.pkgReset mb) s = .next t ∧ t.power = { s.power with pend := some { level := arg e 0 1, tA := s.now } } ∧
      (s.job.state = .running ∨ s.job.state = .stopped → t.job.state = .failed) ∧
      (s.job.state ≠ .running → s.job.state ≠ .stopped → t.job = s.job) ∧
      ∃ a ∈ t.warden.accepted, a.entry = e ∧ a.deadline = tideNow s + 1000000 := by
  have hop : entOp e = 0x0306 := ho.opcode
  obtain ⟨l, hfrom⟩ := fromMailbox_reset ho hl
  have hu := acceptedState_mailboxOnly mb e .none s
  have hjob : (acceptedState mb e .none s).job = s.job := congr_mailboxOnly State.job hu
  have hpower : (acceptedState mb e .none s).power = s.power := congr_mailboxOnly State.power hu
  have hnow : (acceptedState mb e .none s).now = s.now := congr_mailboxOnly State.now hu
  refine ⟨_, congrArg Host.Outcome.next hfrom, ?_, fun h => ?_, fun hr hs => ?_, startedCmd mb e .none s, ?_, rfl, ?_⟩
  · refine (congr_mailboxOnly State.power (drain_mailboxOnly mb _)).trans ((acceptEffect_reset_power hop _).trans ?_)
    rw [hpower, hnow]
  · refine (congrArg JobCtl.state (congr_mailboxOnly State.job (drain_mailboxOnly mb _))).trans ?_
    rw [← hjob] at h
    rw [acceptEffect_reset hop, if_pos h]
    exact (failPackage_of_started (s := pendReset e (acceptedState mb e .none s)) h _ _ _).1
  · refine (congr_mailboxOnly State.job (drain_mailboxOnly mb _)).trans ?_
    rw [acceptEffect_reset hop, hjob, if_neg (fun h => h.elim hr hs)]
    exact hjob
  · simp
  · simp [startedCmd, cmdDeadline, hop]

/-! #### The operation of a command -/

/-- A locked command whose operation is `f`, from its mailbox to the end of that operation. -/
theorem exec_starts {i : Instr} {op : Nat} {mb : Mbox} {e : Bytes} {s : State} {row : CmdRow} {ext : EnvAnswer}
    (hi : exec i s = .next (fromMailbox op mb ext s)) (ho : Offered op mb e s) (hl : LockedIdle s) (hrow : cmdRow op = some row)
    (hlock : row.lock = true) (hplain : op ∉ [0x0103, 0x0201, 0x0303, 0x0306]) {f : Accepted → State → State}
    (hf : ∀ a t, a.orphan = false → entOp a.entry = op → runOp a t = f a t) :
    exec i s = .next (drain mb (f (startedCmd mb e ext s) (startedState mb e ext s))) := by
  rw [hi, fromMailbox_starts ho hl hrow hlock hplain, hf _ _ rfl ho.opcode]

/-! #### How a command ends -/

theorem startedState_now (mb : Mbox) (e : Bytes) (ext : EnvAnswer) (s : State) : (startedState mb e ext s).now = s.now :=
  congr_mailboxOnly State.now (startedState_mailboxOnly mb e ext s)

section
variable {i : Instr} {mb : Mbox} {e : Bytes} {ext : EnvAnswer} {s w : State} {deadline : Nat}

/-- A command that ends at once, its work done in `w`. -/
theorem exec_finishes {status result : Nat}
    (hexec : exec i s = .next (drain mb (finish (startedCmd mb e ext s) status result w)))
    (hacc : w.warden.accepted = (startedState mb e ext s).warden.accepted) (hnow : w.now = (startedState mb e ext s).now)
    (hdeadline : cmdDeadline true e s = deadline) :
    ∃ t, exec i s = .next t ∧ Ends mb e deadline status result s t ∧ MailboxOnly w t :=
  ⟨_, hexec, hdeadline ▸ ends_finish (hacc ▸ startedCmd_mem_startedState mb e ext s) (hnow.trans (startedState_now mb e ext s)) _ _,
    mailboxOnly_trans (finishAt_mailboxOnly ..) (drain_mailboxOnly ..)⟩

/-- A command that delivers a result, its work done in `w`. -/
theorem exec_delivers {dma : Bool} {b : Bytes} {result at_ : Nat}
    (hexec : exec i s = .next (drain mb (deliverAt (startedCmd mb e ext s) b result at_ w))) (hext : Answers dma ext)
    (hacc : w.warden.accepted = (startedState mb e ext s).warden.accepted) (hnow : w.now = (startedState mb e ext s).now)
    (hdeadline : cmdDeadline true e s = deadline) :
    ∃ t, exec i s = .next t ∧ MailboxOnly w t ∧
      (dma = true → .dataOut mb (entData e) b ∈ t.out ∧
        Holds mb e deadline (some { status := 0, result := result, fault := 0, at_ := at_ }) s t) ∧
      (dma = false → Ends mb e deadline 9 0 s t) := by
  have hmem : startedCmd mb e ext s ∈ w.warden.accepted := hacc ▸ startedCmd_mem_startedState mb e ext s
  subst hdeadline
  refine ⟨_, hexec, mailboxOnly_trans (deliverAt_mailboxOnly ..) (drain_mailboxOnly ..), fun h => ?_, fun h => ?_⟩
  · exact deliverAt_delivers hmem (h ▸ hext) b result at_
  · exact deliverAt_fails hmem (hnow.trans (startedState_now mb e ext s)) (h ▸ hext) b result at_

end

/-! #### The commands -/

/-- CLOCK_MODE (R330). -/
theorem clockMode_effect {mb : Mbox} {e : Bytes} {s : State} (ho : Offered 0x0307 mb e s) (hl : LockedIdle s) :
    ∃ t, exec (.clockMode mb) s = .next t ∧ Ends mb e (lockedFrom s + 10000000) 0 0 s t ∧
      t.power = { s.power with boost := arg e 0 1 == 1 } ∧ MailboxOnly { s with power := t.power, plls := t.plls } t ∧
      (arg e 0 1 = 1 → t.plls = s.plls) ∧
      (arg e 0 1 = 0 → ∀ u : Fin 36, (u.val < 4 → t.plls[u].active = 0 ∧ t.plls[u].freq = 1200) ∧
        (4 ≤ u.val → t.plls[u] = s.plls[u])) := by
  have hexec := exec_starts (ext := .none) (f := runClockMode) (i := .clockMode mb) rfl ho hl rfl rfl (by decide)
    fun a t ha hop => by simp [runOp, readsData, ha, hop]
  rw [runClockMode_eq] at hexec
  have hu := startedState_mailboxOnly mb e .none s
  have hrun := clockWork_run (arg e 0 1 == 1) (startedState mb e .none s)
  obtain ⟨t, hexec, hends, ht⟩ := exec_finishes (w := clockWork (arg e 0 1 == 1) (startedState mb e .none s)) hexec
    (congrArg Warden.accepted (hrun.same .warden rfl)) (hrun.same .now rfl)
    (by simp [cmdDeadline, ho.opcode, boundStart, lockedFrom] : _ = lockedFrom s + 10000000)
  have hpower : t.power = (clockWork (arg e 0 1 == 1) (startedState mb e .none s)).power := congr_mailboxOnly State.power ht
  have hplls : t.plls = (clockWork (arg e 0 1 == 1) (startedState mb e .none s)).plls := congr_mailboxOnly State.plls ht
  have hflash : t.flash = (startedState mb e .none s).flash := (congr_mailboxOnly State.flash ht).trans (hrun.same .flash rfl)
  have upower : (startedState mb e .none s).power = s.power := congr_mailboxOnly State.power hu
  have uplls : (startedState mb e .none s).plls = s.plls := congr_mailboxOnly State.plls hu
  have uflash : (startedState mb e .none s).flash = s.flash := congr_mailboxOnly State.flash hu
  refine ⟨t, hexec, hends, ?_, ?_, fun hon => ?_, fun hoff k => ⟨fun hk => ?_, fun hk => ?_⟩⟩
  · rw [hpower, clockWork_power, upower]
  · have hwork := mailboxOnly_of_work hu (hrun.mono (by decide)) ht
    rwa [hflash, uflash] at hwork
  · rw [hplls, hon]
    exact uplls
  · rw [hplls, hoff]
    exact foldl_toFixedClock_mem (List.mem_finRange (⟨k.val, hk⟩ : Fin 4)) _
  · rw [hplls, hoff, ← uplls]
    exact foldl_toFixedClock_other _ _ hk

theorem modPower_mailboxOnly (f : Power → Power) {s t : State} (h : MailboxOnly s t) : MailboxOnly (modPower f s) (modPower f t) :=
  congr_mailboxOnly (modPower f) h

/-- INSPECT_CFG (R299). -/
theorem inspectCfg_effect {mb : Mbox} {e : Bytes} {s : State} (ho : Offered 0x0308 mb e s) (hl : LockedIdle s) :
    ∃ t, exec (.inspectCfg mb) s = .next t ∧ Ends mb e (lockedFrom s + 1000000) 0 0 s t ∧
      MailboxOnly { s with power := { s.power with inspectHours := arg e 0 2 } } t := by
  have hexec := exec_starts (ext := .none) (i := .inspectCfg mb)
    (f := fun a t => finish a 0 0 (modPower (fun p => { p with inspectHours := arg a.entry 0 2 }) t)) rfl ho hl rfl rfl (by decide)
    fun a t ha hop => by simp [runOp, readsData, ha, hop]
  obtain ⟨t, hexec, hends, ht⟩ := exec_finishes hexec rfl rfl
    (by simp [cmdDeadline, ho.opcode, boundStart, lockedFrom] : _ = lockedFrom s + 1000000)
  exact ⟨t, hexec, hends, mailboxOnly_trans
    (modPower_mailboxOnly (fun p => { p with inspectHours := arg e 0 2 }) (startedState_mailboxOnly mb e .none s)) ht⟩

/-- GUARD_MODE (R72). -/
theorem guardMode_effect {mb : Mbox} {e : Bytes} {s : State} (ho : Offered 0x0401 mb e s) (hl : LockedIdle s) :
    ∃ t, exec (.guardMode mb) s = .next t ∧ Ends mb e (lockedFrom s + 1000000) 0 0 s t ∧
      MailboxOnly s { t with warden := { t.warden with guard := s.warden.guard } } ∧
      (∀ k, k ∈ t.warden.guard ↔ (k ∈ s.warden.guard ∧ k ≠ (arg e 0 1, arg e 1 2)) ∨ (k = (arg e 0 1, arg e 1 2) ∧ arg e 3 1 = 1)) := by
  have hexec := exec_starts (ext := .none) (f := runGuard) (i := .guardMode mb) rfl ho hl rfl rfl (by decide)
    fun a t ha hop => by simp [runOp, readsData, ha, hop]
  rw [runGuard_eq] at hexec
  obtain ⟨t, hexec, hends, ht⟩ := exec_finishes hexec rfl rfl
    (by simp [cmdDeadline, ho.opcode, boundStart, lockedFrom] : _ = lockedFrom s + 1000000)
  have hu := startedState_mailboxOnly mb e .none s
  have uguard : (startedState mb e .none s).warden.guard = s.warden.guard := congr_mailboxOnly (fun x => x.warden.guard) hu
  have hguard : t.warden.guard = guardAfter e (startedState mb e .none s).warden.guard := congr_mailboxOnly (fun x => x.warden.guard) ht
  have hback := withGuard_mailboxOnly s.warden.guard ht
  refine ⟨t, hexec, hends, ?_, fun k => ?_⟩
  · exact mailboxOnly_trans (withGuard_mailboxOnly s.warden.guard hu) hback
  · rw [hguard, uguard]
    exact mem_guardAfter e s.warden.guard k

/-- LINK_TEST (R210). -/
theorem linkTest_effect {mb : Mbox} {dma : Bool} {e : Bytes} {s : State} (ws : List WireResult) (ho : Offered 0x0402 mb e s)
    (hl : LockedIdle s) :
    let b := (Config.linkTestImage (testedWires e ws)).take (entLen e)
    let d := lockedFrom s + arg e 4 4 * 1000000 + 10000000
    ∃ t, exec (.linkTest mb dma ws) s = .next t ∧ MailboxOnly { s with flash := t.flash } t ∧ t.flash.ledgerA = s.flash.ledgerA ∧
      t.flash.ledgerB = s.flash.ledgerB ∧
      (¬PartnersReady e s → t.flash = s.flash ∧ Ends mb e d 6 0 s t) ∧
      (PartnersReady e s → dma = true → .dataOut mb (entData e) b ∈ t.out ∧
        Holds mb e d (some { status := 0, result := b.length, fault := 0, at_ := s.now + arg e 4 4 * 1000000 }) s t) ∧
      (PartnersReady e s → dma = false → Ends mb e d 9 0 s t) := by
  intro b d
  have hexec := exec_starts (ext := .wires dma ws) (f := runLinkTest) (i := .linkTest mb dma ws) rfl ho hl rfl rfl (by decide)
    fun a t ha hop => by simp [runOp, readsData, ha, hop]
  have hd : cmdDeadline true e s = d := by simp [cmdDeadline, ho.opcode, boundStart, d, lockedFrom]
  have hu := startedState_mailboxOnly mb e (.wires dma ws) s
  have upower : (startedState mb e (.wires dma ws) s).power = s.power := congr_mailboxOnly State.power hu
  have uplls : (startedState mb e (.wires dma ws) s).plls = s.plls := congr_mailboxOnly State.plls hu
  have uflash : (startedState mb e (.wires dma ws) s).flash = s.flash := congr_mailboxOnly State.flash hu
  have hready : PartnersReady e (startedState mb e (.wires dma ws) s) ↔ PartnersReady e s := by
    simp only [PartnersReady, endsReady_of_mailboxOnly hu]
  by_cases h : PartnersReady e s
  · rw [runLinkTest_ready (hready.mpr h) rfl] at hexec
    have hrun := sampleMargins_run e (testedWires e ws) (startedState mb e (.wires dma ws) s)
    obtain ⟨hledgerA, hledgerB⟩ := sampleMargins_sameLedger e (testedWires e ws) (startedState mb e (.wires dma ws) s)
    obtain ⟨t, hexec, ht, hdone, hfail⟩ := exec_delivers (w := sampleMargins e (testedWires e ws) (startedState mb e (.wires dma ws) s)) hexec
      (.inl ⟨ws, rfl⟩) (congrArg Warden.accepted (hrun.same .warden rfl)) (hrun.same .now rfl) hd
    have hpower : t.power = s.power := (congr_mailboxOnly State.power ht).trans ((hrun.same .power rfl).trans upower)
    have hplls : t.plls = s.plls := (congr_mailboxOnly State.plls ht).trans ((hrun.same .plls rfl).trans uplls)
    have hflash := congr_mailboxOnly State.flash ht
    have hwork := mailboxOnly_of_work hu (hrun.mono (by decide)) ht
    rw [hpower, hplls] at hwork
    have hnow := (hrun.same .now rfl).trans (startedState_now mb e (.wires dma ws) s)
    refine ⟨t, hexec, hwork, ?_, ?_, fun hn => absurd h hn, fun _ hdma => ?_, fun _ hdma => hfail hdma⟩
    · rw [hflash, ← uflash, ← hledgerA]
    · rw [hflash, ← uflash, ← hledgerB]
    · rw [← hnow]
      exact hdone hdma
  · rw [runLinkTest_notReady (mt hready.mp h)] at hexec
    obtain ⟨t, hexec, hends, ht⟩ := exec_finishes hexec rfl rfl hd
    have hst := mailboxOnly_trans hu ht
    have hflash : t.flash = s.flash := congr_mailboxOnly State.flash hst
    exact ⟨t, hexec, hflash ▸ hst, by rw [hflash], by rw [hflash], fun _ => ⟨hflash, hends⟩, fun hp => absurd hp h, fun hp => absurd hp h⟩

section
variable {mb : Mbox} {dma : Bool} {e : Bytes} {s : State}

theorem scanDieDown_startedState (ext : EnvAnswer) : ScanDieDown e (startedState mb e ext s) ↔ ScanDieDown e s := by
  have hu := startedState_mailboxOnly mb e ext s
  have hdies : (startedState mb e ext s).dies = s.dies := congr_mailboxOnly State.dies hu
  simp only [ScanDieDown, hdies, clusterStopped_of_mailboxOnly hu]

theorem exec_coreScan (r : ScanResult) (ho : Offered 0x0403 mb e s) (hl : LockedIdle s) :
    exec (.coreScan mb dma r) s = .next (drain mb (runScan (startedCmd mb e (.scan dma r) s) (startedState mb e (.scan dma r) s))) :=
  exec_starts rfl ho hl rfl rfl (by decide) fun a t ha hop => by simp [runOp, readsData, ha, hop]

theorem cmdDeadline_coreScan (ho : Offered 0x0403 mb e s) : cmdDeadline true e s = lockedFrom s + 200000000 := by
  simp [cmdDeadline, ho.opcode, boundStart, lockedFrom]

/-- CORE_SCAN on a die that is in reset or stopped (Table 10.9). -/
theorem coreScan_down (r : ScanResult) (ho : Offered 0x0403 mb e s) (hl : LockedIdle s) (hdown : ScanDieDown e s) :
    ∃ t, exec (.coreScan mb dma r) s = .next t ∧ MailboxOnly s t ∧ Ends mb e (lockedFrom s + 200000000) 6 0 s t := by
  have hexec := exec_coreScan (dma := dma) r ho hl
  have hstart : ScanDieDown e (startedState mb e (.scan dma r) s) := (scanDieDown_startedState _).mpr hdown
  rw [runScan_down (a := startedCmd mb e (.scan dma r) s) hstart] at hexec
  obtain ⟨t, hexec, hends, ht⟩ := exec_finishes hexec rfl rfl (cmdDeadline_coreScan ho)
  exact ⟨t, hexec, mailboxOnly_trans (startedState_mailboxOnly ..) ht, hends⟩

/-- CORE_SCAN on a die at work (R362). -/
theorem coreScan_up (r : ScanResult) (ho : Offered 0x0403 mb e s) (hl : LockedIdle s) (hup : ¬ScanDieDown e s) :
    ∃ t, exec (.coreScan mb dma r) s = .next t ∧ MailboxOnly s t ∧
      (dma = true → .dataOut mb (entData e) (scanBytes r) ∈ t.out ∧
        Ends mb e (lockedFrom s + 200000000) 0 (if r.tests = 0 then 0 else 1) s t) ∧
      (dma = false → Ends mb e (lockedFrom s + 200000000) 9 0 s t) := by
  have hexec := exec_coreScan (dma := dma) r ho hl
  have hstart : ¬ScanDieDown e (startedState mb e (.scan dma r) s) := mt (scanDieDown_startedState _).mp hup
  rw [runScan_up (a := startedCmd mb e (.scan dma r) s) hstart rfl, startedState_now] at hexec
  obtain ⟨t, hexec, ht, hdone, hfail⟩ := exec_delivers hexec (.inr ⟨r, rfl⟩) rfl rfl (cmdDeadline_coreScan ho)
  have hresult : b2n (decide (r.tests ≠ 0)) = if r.tests = 0 then 0 else 1 := by
    by_cases h : r.tests = 0 <;> simp [h, b2n]
  rw [hresult] at hdone
  exact ⟨t, hexec, mailboxOnly_trans (startedState_mailboxOnly ..) ht, hdone, hfail⟩

end

/-- Settles O29: each command by what it does once it starts, `fromMailbox_starts`, and by how it ends, `exec_finishes` and
`exec_delivers`; PKG_RESET by its effect at acceptance. -/
theorem packageCommandsAndTests : Obligations.PackageCommandsAndTests := by
  unfold Obligations.PackageCommandsAndTests
  refine ⟨fun mb e s => ⟨pkgReset_effect, clockMode_effect, inspectCfg_effect, guardMode_effect⟩, fun mb dma e s hl =>
    ⟨fun ws ho => ?_, fun r ho hdown => coreScan_down r ho hl hdown, fun r ho hreset hstop => coreScan_up r ho hl ?_⟩⟩
  · exact linkTest_effect ws ho hl
  · rintro (h | h)
    · exact absurd (hreset.symm.trans h) Bool.false_ne_true
    · exact absurd (hstop.symm.trans h) Bool.false_ne_true

end Sys2Proof.Proofs

/-! ### Runs of tasks and notices in a breach (R142, R154) -/

namespace Sys2Proof.Proofs

open Machine Laws

/-! #### What leaves the runs of tasks and the notices alone -/

/-- The runs of tasks and the notices of `t` are those of `s`. -/
def KeepsRuns (s t : State) : Prop := t.exec.runs = s.exec.runs ∧ t.exec.notices = s.exec.notices

theorem KeepsRuns.refl (s : State) : KeepsRuns s s := ⟨rfl, rfl⟩

theorem KeepsRuns.trans {s t u : State} (h : KeepsRuns s t) (k : KeepsRuns t u) : KeepsRuns s u :=
  ⟨k.1.trans h.1, k.2.trans h.2⟩

theorem KeepsRuns.of_run {flds : List StateField} {s t : State} (h : Run flds s t) (hf : flds.contains .exec = false) : KeepsRuns s t := by
  have hexec : t.exec = s.exec := h.same .exec hf
  exact ⟨congrArg Exec.runs hexec, congrArg Exec.notices hexec⟩

theorem KeepsRuns.foldl {α : Type} {f : State → α → State} (hf : ∀ s a, KeepsRuns s (f s a)) (l : List α) (s : State) :
    KeepsRuns s (l.foldl f s) := by
  induction l generalizing s with
  | nil => exact .refl s
  | cons a l ih => exact (hf s a).trans (ih _)

theorem KeepsRuns.iter {f : State → State} (hf : ∀ s, KeepsRuns s (f s)) (n : Nat) (s : State) : KeepsRuns s (Machine.iter f n s) := by
  induction n generalizing s with
  | zero => exact .refl s
  | succ n ih => exact (hf s).trans (ih _)

theorem KeepsRuns.ite {c : Prop} [Decidable c] {s t u : State} (ht : KeepsRuns s t) (hu : KeepsRuns s u) :
    KeepsRuns s (if c then t else u) := by
  split
  · exact ht
  · exact hu

theorem setRed_keepsRuns (r : RedRun) (s : State) : KeepsRuns s (setRed r s) := ⟨rfl, rfl⟩

theorem setScale_keepsRuns (slot step : Nat) (v : Int) (s : State) : KeepsRuns s (setScale slot step v s) := ⟨rfl, rfl⟩

theorem sendLog_keepsRuns (m : Msg) (s : State) : KeepsRuns s (sendLog m s) :=
  .of_run (sendLog_run (flds := [.out, .fabric]) m s (.refl _ s) (by decide)) rfl

theorem sendElems_keepsRuns (type : Nat) (r : PlanEntry) (q : RedRun) (l : Level) (p : Piece) (last : Bool) (s : State) :
    KeepsRuns s (sendElems type r q l p last s) := sendLog_keepsRuns _ s

theorem logAccess_keepsRuns (a : Nat) (who : Requester) (cause : Nat) (s : State) : KeepsRuns s (logAccess a who cause s) :=
  .of_run (logAccess_run (flds := [.out, .hostA, .hostB, .seq, .log]) a who cause s (.refl _ s) (by decide)) rfl

theorem ptrWrite_keepsRuns (at_ : Place) (p off : Nat) (data : Bytes) (s : State) : KeepsRuns s (ptrWrite at_ p off data s) :=
  .of_run (ptrWrite_run (flds := [.out, .coreStore, .memStacks, .mem]) at_ p off data s (.refl _ s) (by decide)) rfl

/-! #### Reductions that are sent again -/

theorem sendStage_keepsRuns (r : PlanEntry) (step : Nat) (s : State) : KeepsRuns s (sendStage r step s) := by
  unfold sendStage
  extract_lets q ls ps i v s1
  have h1 : KeepsRuns s s1 := setRed_keepsRuns _ s
  refine .ite (.refl s) ?_
  split
  · exact h1.trans (sendLog_keepsRuns _ s1)
  · exact h1.trans (.foldl (fun t d => sendLog_keepsRuns _ t) ps s1)

theorem runScale_keepsRuns (r : PlanEntry) (step : Nat) (s : State) : KeepsRuns s (runScale r step s) := by
  unfold runScale
  extract_lets ls own s1 q v
  have h1 : KeepsRuns s s1 := .iter (sendStage_keepsRuns r step) _ s
  exact .ite (.refl s) (.ite (h1.trans (setScale_keepsRuns _ _ _ s1)) h1)

theorem checkEnd_keepsRuns (r : PlanEntry) (step : Nat) (s : State) : KeepsRuns s (checkEnd r step s) := by
  unfold checkEnd
  exact .ite (setRed_keepsRuns _ s) (.refl s)

theorem landPiece_keepsRuns (r : PlanEntry) (step : Nat) (p : Piece) (s : State) : KeepsRuns s (landPiece r step p s) := by
  unfold landPiece
  extract_lets off bs
  split
  · exact logAccess_keepsRuns _ _ _ s
  · exact (ptrWrite_keepsRuns _ _ _ _ s).trans (setRed_keepsRuns _ _)

theorem sendNext_keepsRuns (r : PlanEntry) (step i : Nat) (s : State) : KeepsRuns s (sendNext r step i s) := by
  unfold sendNext
  extract_lets ls q
  split
  split
  · split
    · exact .refl s
    · exact (setRed_keepsRuns _ s).trans (sendElems_keepsRuns _ _ _ _ _ _ _)
  · exact .refl s

theorem gatherOn_keepsRuns (r : PlanEntry) (step : Nat) (p : Piece) (levels : List Nat) (s : State) :
    KeepsRuns s (gatherOn r step p levels s) :=
  (setRed_keepsRuns _ s).trans (.foldl (fun t i => .iter (sendNext_keepsRuns r step i) _ t) levels _)

theorem finishPiece_keepsRuns (r : PlanEntry) (step : Nat) (p : Piece) (s : State) : KeepsRuns s (finishPiece r step p s) :=
  ((landPiece_keepsRuns r step p s).trans ((setRed_keepsRuns _ _).trans (gatherOn_keepsRuns r step p _ _))).trans
    ((runScale_keepsRuns r step _).trans (checkEnd_keepsRuns r step _))

theorem ownItem_keepsRuns (r : PlanEntry) (step : Nat) (p : Piece) (s : State) : KeepsRuns s (ownItem r step p s) :=
  ((landPiece_keepsRuns r step _ s).trans (gatherOn_keepsRuns r step _ _ _)).trans (checkEnd_keepsRuns r step _)

theorem sendRound0_keepsRuns (r : PlanEntry) (step level : Nat) (s : State) : KeepsRuns s (sendRound0 r step level s) := by
  unfold sendRound0
  extract_lets ls
  split
  · exact .refl s
  · refine .foldl (fun t c => .ite (.refl t) ?_) _ s
    split
    · exact .refl t
    · exact (setRed_keepsRuns _ t).trans (sendElems_keepsRuns _ _ _ _ _ _ _)

theorem resendOwn_keepsRuns (r : PlanEntry) (step : Nat) (s : State) : KeepsRuns s (resendOwn r step s) := by
  unfold resendOwn
  exact .ite (.foldl (fun t p => ownItem_keepsRuns r step p t) _ s)
    (.ite (.foldl (fun t p => finishPiece_keepsRuns r step p t) _ s) (sendRound0_keepsRuns r step 0 s))

theorem withdraw_keepsRuns (r : PlanEntry) (step : Nat) (keep : Bool) (s : State) : KeepsRuns s (withdraw r step keep s) := by
  unfold withdraw
  extract_lets q n s1
  have h1 : KeepsRuns s s1 := by
    subst s1
    split
    · exact logAccess_keepsRuns _ _ _ s
    · exact ptrWrite_keepsRuns _ _ _ _ s
  exact h1.trans (setRed_keepsRuns _ s1)

/-! #### A notice that is sent -/

@[simp] theorem logAt_seq (step code unit d0 d1 d2 d3 : Nat) (s : State) : (logAt step code unit d0 d1 d2 d3 s).seq = s.seq + 1 := by
  simp only [logAt, apply_ite State.seq, raiseIrq_seq, ite_self]

@[simp] theorem logNotice_seq (breach : Bool) (step da amount code origin task red : Nat) (s : State) :
    (logNotice breach step da amount code origin task red s).seq = s.seq + 1 := by
  simp only [logNotice, apply_ite State.seq, logAt_seq, ite_self]

/-- The notice that this package sends. -/
def sentNotice (breach : Bool) (step da amount code task : Nat) (s : State) : Notice :=
  { breach := breach, step := step, src := logId s,
    nseq := (s.exec.notices.filter fun n => n.src == logId s && n.step == step).length,
    da := da, amount := amount, code := code, task := task }

/-- What a notice leaves: the runs of tasks and the loaded image as they were, and itself behind the notices before it. -/
structure Noticed (n : Notice) (s t : State) : Prop where
  runs : t.exec.runs = s.exec.runs
  notices : t.exec.notices = s.exec.notices ++ [n]
  image : t.job.image = s.job.image

theorem takeNotice_noticed (n : Notice) (s : State) : Noticed n s (takeNotice n s) := by
  unfold takeNotice
  extract_lets before src s1 d job exec twin s2
  have h2 : Noticed n s s2 := by
    subst s2
    split
    · exact ⟨rfl, rfl, rfl⟩
    · exact ⟨rfl, rfl, rfl⟩
  split
  · have hrun : Run [.out, .hostA, .hostB, .i3c, .warden, .seq, .log] s2 (extendCommands d n.code s2) :=
      extendCommands_run d n.code s2 (.refl _ s2) (by decide)
    have hexec : (extendCommands d n.code s2).exec = s2.exec := hrun.same .exec rfl
    have hjob : (extendCommands d n.code s2).job = s2.job := hrun.same .job rfl
    exact ⟨hexec ▸ h2.runs, hexec ▸ h2.notices, hjob ▸ h2.image⟩
  · exact h2

theorem sendNotice_noticed (breach : Bool) (step da amount code origin task red queue : Nat) (s : State) :
    Noticed (sentNotice breach step da amount code task s) s (sendNotice breach step da amount code origin task red queue s) := by
  unfold sendNotice
  extract_lets nseq n s1
  have hb : Run [.out, .fabric] s s1 := bcastMsg_run _ s (.refl _ s) (by decide)
  have hl : Run [.out, .hostA, .hostB, .seq, .log] (takeNotice n s1) (logNotice breach step da amount code origin task red (takeNotice n s1)) :=
    logNotice_run _ _ _ _ _ _ _ _ _ (.refl _ _) (by decide)
  obtain ⟨hruns, hnotices, himage⟩ := takeNotice_noticed n s1
  have bexec : s1.exec = s.exec := hb.same .exec rfl
  have bjob : s1.job = s.job := hb.same .job rfl
  have lexec := hl.same .exec rfl
  have ljob := hl.same .job rfl
  refine ⟨?_, ?_, ?_⟩
  · rw [lexec, hruns, bexec]
  · rw [lexec, hnotices, bexec]
    rfl
  · rw [ljob, himage, bjob]

theorem sendNotice_seq_lt (breach : Bool) (step da amount code origin task red queue : Nat) (s : State) :
    s.seq < (sendNotice breach step da amount code origin task red queue s).seq := by
  unfold sendNotice
  extract_lets nseq n s1
  have hb : Run [.out, .fabric] s s1 := bcastMsg_run _ s (.refl _ s) (by decide)
  have ht : Run [.out, .hostA, .hostB, .i3c, .warden, .seq, .log, .job, .exec, .twin] s1 (takeNotice n s1) :=
    takeNotice_run n s1 (.refl _ s1) (by decide)
  rw [logNotice_seq]
  exact Nat.lt_succ_of_le (hb.seq.trans ht.seq)

/-! #### What a breach discards -/

/-- A run that a discard undoes. -/
def discardRun (step : Nat) (ts : List Nat) (r : TaskRun) : TaskRun :=
  if r.step == step && ts.contains r.task && r.st != .committed then
    { r with st := .discarded, endT := none, undetected := [], gauges := [], overs := [], nfFwd := 0, loss := 0,
             nfLoss := 0, pnf := false, psat := false, checksOk := true, wrote := false }
  else r

theorem discardRuns_exec (step : Nat) (ts : List Nat) (s : State) :
    (discardRuns step ts s).exec = { s.exec with runs := s.exec.runs.map (discardRun step ts) } := by
  have hexec : ∀ f, (dropWatches f s).exec = s.exec := fun f =>
    (dropWatches_run (flds := [.out, .cores, .memStacks]) f s (.refl _ s) (by decide)).same .exec rfl
  simp only [discardRuns, hexec]
  rfl

theorem discardRun_ids (step : Nat) (ts : List Nat) (r : TaskRun) : (discardRun step ts r).task = r.task ∧ (discardRun step ts r).step = r.step := by
  unfold discardRun
  split
  · exact ⟨rfl, rfl⟩
  · exact ⟨rfl, rfl⟩

theorem discardRun_st {step : Nat} {ts : List Nat} {r : TaskRun} (hstep : r.step = step) (htask : r.task ∈ ts) (hst : r.st ≠ .committed) :
    (discardRun step ts r).st = .discarded := by
  rw [discardRun, if_pos (by simp [hstep, htask, hst])]

theorem discardRun_other {step : Nat} {ts : List Nat} {r : TaskRun} (hstep : r.step ≠ step) : discardRun step ts r = r := by
  rw [discardRun, if_neg (by simp [hstep])]

theorem mem_reachStep {im : JobImage} {x : List Nat × List Nat} {task : Nat} (him : ∃ t ∈ im.tasks, t.taskid = task) (h : task ∈ x.1) :
    task ∈ (reachStep im x).1 := by
  obtain ⟨t, ht, rfl⟩ := him
  exact List.mem_map.mpr ⟨t, List.mem_filter.mpr ⟨ht, by simp [h]⟩, rfl⟩

theorem mem_iter_reachStep {im : JobImage} {task : Nat} (him : ∃ t ∈ im.tasks, t.taskid = task) (n : Nat) {x : List Nat × List Nat}
    (h : task ∈ x.1) : task ∈ (iter (reachStep im) n x).1 := by
  induction n generalizing x with
  | zero => exact h
  | succ n ih => exact ih (mem_reachStep him h)

/-- A failed task is among those that it reaches (R142). -/
theorem mem_reach {im : JobImage} {task : Nat} (him : ∃ t ∈ im.tasks, t.taskid = task) : task ∈ (reach im [task] []).1 :=
  mem_iter_reachStep him _ (List.mem_singleton_self task)

/-- A breach discards runs, and then sends again what stays. -/
theorem applyBreach_keepsRuns {im : JobImage} {s : State} (him : s.job.image = some im) (step : Nat) (ts rs : List Nat) :
    KeepsRuns (discardRuns (step + 1) (reachNext im (reach im ts rs)).1 (discardRuns step (reach im ts rs).1 s)) (applyBreach step ts rs s) := by
  unfold applyBreach
  simp only [him]
  refine .foldl (fun t r => .ite ?_ (.refl t)) _ _
  exact .ite (withdraw_keepsRuns _ _ _ t) ((withdraw_keepsRuns _ _ _ t).trans (resendOwn_keepsRuns _ _ _))

theorem applyBreach_notices {im : JobImage} {s : State} (him : s.job.image = some im) (step : Nat) (ts rs : List Nat) :
    (applyBreach step ts rs s).exec.notices = s.exec.notices := by
  rw [(applyBreach_keepsRuns him step ts rs).2, discardRuns_exec, discardRuns_exec]

/-- An uncommitted run of a task that a breach reaches stands discarded afterwards. -/
theorem applyBreach_discards {im : JobImage} {s : State} (him : s.job.image = some im) {r : TaskRun} {step : Nat} {ts rs : List Nat}
    (hr : r ∈ s.exec.runs) (hstep : r.step = step) (hst : r.st ≠ .committed) (htask : r.task ∈ (reach im ts rs).1) :
    ∃ q ∈ (applyBreach step ts rs s).exec.runs, q.task = r.task ∧ q.step = step ∧ q.st = .discarded := by
  obtain ⟨htaskid, hstepid⟩ := discardRun_ids step (reach im ts rs).1 r
  refine ⟨discardRun step (reach im ts rs).1 r, ?_, htaskid, hstepid.trans hstep, discardRun_st hstep htask hst⟩
  rw [(applyBreach_keepsRuns him step ts rs).1, discardRuns_exec, discardRuns_exec]
  refine List.mem_map.mpr ⟨_, List.mem_map_of_mem hr, discardRun_other ?_⟩
  omega

/-! #### The breach of a task -/

/-- What the breach of a task leaves (R142): its run discarded, and a breach notice of it with Δ, code 4 and the task's deadline, sent and logged. -/
def Breached (im : JobImage) (k : TaskRec) (step : Nat) (s t : State) : Prop :=
  ∃ n, t.exec.notices = s.exec.notices ++ [n] ∧ n.breach = true ∧ n.step = step ∧ n.task = k.taskid ∧ n.da = k.deadline ∧ n.code = 4 ∧
    n.amount = breachDelta im k ∧ s.seq < t.seq ∧ ∃ q ∈ t.exec.runs, q.task = k.taskid ∧ q.step = step ∧ q.st = .discarded

theorem breachTask_breached {im : JobImage} {k : TaskRec} {s : State} {r : TaskRun} (him : s.job.image = some im) (hk : k ∈ im.tasks)
    (hr : r ∈ s.exec.runs) (htask : r.task = k.taskid) (hst : r.st ≠ .committed) :
    Breached im k r.step s (breachTask im k r.step s) := by
  unfold breachTask
  have hsent := sendNotice_noticed true r.step k.deadline (breachDelta im k) 4 (logId s) k.taskid 0 0 s
  have hlog := sendNotice_seq_lt true r.step k.deadline (breachDelta im k) 4 (logId s) k.taskid 0 0 s
  generalize sendNotice true r.step k.deadline (breachDelta im k) 4 (logId s) k.taskid 0 0 s = u at hsent hlog
  have uim : u.job.image = some im := hsent.image.trans him
  have hseq : u.seq ≤ (applyBreach r.step [k.taskid] [] u).seq :=
    (applyBreach_run (flds := [.out, .hostA, .hostB, .seq, .log, .exec, .cores, .coreStore, .memStacks, .mem, .fabric])
      _ _ _ u (.refl _ u) (by decide)).seq
  obtain ⟨q, hq, hqtask, hqstep, hqst⟩ := applyBreach_discards uim (hsent.runs.symm ▸ hr) rfl hst
    (by rw [htask]; exact mem_reach ⟨k, hk, rfl⟩ : r.task ∈ (reach im [k.taskid] []).1)
  exact ⟨sentNotice true r.step k.deadline (breachDelta im k) 4 k.taskid s, (applyBreach_notices uim _ _ _).trans hsent.notices,
    rfl, rfl, rfl, rfl, rfl, rfl, hlog.trans_le hseq, q, hq, hqtask.trans htask, hqstep, hqst⟩

theorem Breached.after {im : JobImage} {k : TaskRec} {step : Nat} {s u t : State} (hkeeps : KeepsRuns s u) (hseq : s.seq ≤ u.seq)
    (h : Breached im k step u t) : Breached im k step s t := by
  obtain ⟨n, hnotices, hbreach, hstep, htask, hda, hcode, hamount, hlog, hq⟩ := h
  exact ⟨n, hkeeps.2 ▸ hnotices, hbreach, hstep, htask, hda, hcode, hamount, hseq.trans_lt hlog, hq⟩

/-! #### The first fault of a tile product in a step -/

section
variable {im : JobImage} {k : TaskRec} {s : State} {r : TaskRun}

/-- The first compute fault of a task in a step: its breach, and no core is mapped out (R63). -/
theorem computeFault_breached (him : s.job.image = some im) (hk : k ∈ im.tasks) (hr : r ∈ s.exec.runs) (htask : r.task = k.taskid)
    (hst : r.st ≠ .committed) (hfirst : ∀ x ∈ s.exec.prodFails, x.1 ≠ k.taskid ∨ x.2.1 ≠ r.step) (f : ProductFault) :
    Breached im k r.step s (computeFault im k r.step f s) := by
  unfold computeFault
  extract_lets key at_ same n src s1 s2 s3
  have hsame : s.exec.prodFails.find? same = none := List.find?_eq_none.mpr fun x hx => by
    rcases hfirst x hx with h | h
    · simp [same, h]
    · simp [same, h]
  have hn : n = 1 := by simp [n, hsame]
  have hrun : Run [.out, .hostA, .hostB, .seq, .log] s1 s2 := logAt_run _ _ _ _ _ _ _ s1 (.refl _ s1) (by decide)
  have h1 : KeepsRuns s s1 := ⟨rfl, rfl⟩
  have hkeeps : KeepsRuns s s2 := h1.trans (.of_run hrun rfl)
  have hjob : s2.job = s.job := hrun.same .job rfl
  have h3 : Breached im k r.step s s3 :=
    .after hkeeps hrun.seq (breachTask_breached (hjob ▸ him) hk (hkeeps.1.symm ▸ hr) htask hst)
  split
  · exact h3
  · rw [if_pos (by omega)]
    exact h3

/-- The first mismatch of an item in a step: the breach of the task that read it (Table 4.6, first attempt). -/
theorem streamMismatch_breached (him : s.job.image = some im) (hk : k ∈ im.tasks) (hr : r ∈ s.exec.runs) (htask : r.task = k.taskid)
    (hst : r.st ≠ .committed) (hfirst : ∀ x ∈ s.exec.attempts, x.1 ≠ r.step) (m : Mism) :
    Breached im k r.step s (streamMismatch im k r.step m s) := by
  have hattempts : attemptsOf r.step (itemKey (placeOf k s) m) s = 0 := by
    have hnone : s.exec.attempts.find? (fun a => a.1 == r.step && a.2.1 == itemKey (placeOf k s) m) = none :=
      List.find?_eq_none.mpr fun x hx => by simp [hfirst x hx]
    simp [attemptsOf, hnone]
  unfold streamMismatch
  extract_lets key n s1 s2 s3
  have hn : n = 1 := by simp [n, key, hattempts]
  have hrun : Run [.out, .hostA, .hostB, .seq, .log, .gauges] s1 s2 :=
    logAt_run _ _ _ _ _ _ _ _ (gaugeIn_run _ _ _ _ s1 (.refl _ s1) (by decide)) (by decide)
  have h1 : KeepsRuns s s1 := ⟨rfl, rfl⟩
  have hkeeps : KeepsRuns s s2 := h1.trans (.of_run hrun rfl)
  have hjob : s2.job = s.job := hrun.same .job rfl
  have h3 : s3 = s2 := if_neg (by omega)
  rw [if_neg (by omega), h3]
  exact .after hkeeps hrun.seq (breachTask_breached (hjob ▸ him) hk (hkeeps.1.symm ▸ hr) htask hst)

end

/-! #### The work of a GEMM task leaves the runs of tasks and the notices alone -/

/-- Work that is done keeps the runs of tasks and the notices. -/
def DoneKeepsRuns (s : State) : Work → Prop
  | .done t _ => KeepsRuns s t
  | _ => True

theorem exchSend_keepsRuns (im : JobImage) (t : TaskRec) (step kind phase : Nat) (dsts : List Nat) (data : Bytes) (s : State) :
    KeepsRuns s (exchSend im t step kind phase dsts data s) := by
  unfold exchSend
  refine .foldl (fun u p => ?_) _ s
  have hstored : ∀ x, KeepsRuns u (storeExch x u) := fun x => ⟨rfl, rfl⟩
  exact (hstored _).trans (.foldl (fun v d => sendLog_keepsRuns _ v) dsts _)

theorem exchOnce_keepsRuns (im : JobImage) (t : TaskRec) (p : PeerSet) (step kind phase : Nat) (data : Bytes) (s : State) :
    KeepsRuns s (exchOnce im t p step kind phase data s) := by
  unfold exchOnce
  exact .ite (.refl s) (exchSend_keepsRuns _ _ _ _ _ _ _ s)

theorem sendParts_keepsRuns (im : JobImage) (t : TaskRec) (p : PeerSet) (step : Nat) (data : Bytes) (s : State) :
    KeepsRuns s (sendParts im t p step data s) := exchSend_keepsRuns _ _ _ _ _ _ _ s

theorem landParts_keepsRuns (im : JobImage) (t : TaskRec) (g : Gemm) (parts : List Bytes) (s : State) :
    KeepsRuns s (landParts im t g parts s) := ptrWrite_keepsRuns _ _ _ _ s

theorem operandFx_keepsRuns (at_ : Place) (g : Gemm) (rows : List OpRow) (tiles : List (List Tile)) (s : State) :
    KeepsRuns s (operandFx at_ g rows tiles s).1 :=
  .of_run (operandFx_run (flds := [.out, .coreStore, .memStacks, .mem]) at_ g rows tiles s (.refl _ s) (by decide)) rfl

theorem gemmStore_keepsRuns (im : JobImage) (t : TaskRec) (at_ : Place) (g : Gemm) (ps : List Partial) (mus : List (Int × Bool))
    (s : State) : KeepsRuns s (gemmStore im t at_ g ps mus s).1 :=
  .of_run (gemmStore_run (flds := [.out, .coreStore, .memStacks, .mem]) im t at_ g ps mus s (.refl _ s) (by decide)) rfl

theorem setSticky_keepsRuns (at_ : Place) (s : State) : KeepsRuns s (setSticky at_ s) :=
  .of_run (setSticky_run (flds := [.cores]) at_ s (.refl _ s) (by decide)) rfl

theorem nativeWork_keepsRuns (im : JobImage) (t : TaskRec) (step : Nat) (fs : List (Nat × Nat × Nat × Int)) (s : State) :
    DoneKeepsRuns s (nativeWork im t step fs s) := by
  unfold nativeWork
  extract_lets -lift +onlyGivenNames g at_
  split
  next => trivial
  next _ rows tiles _ =>
    split
    next => split <;> trivial
    next =>
      extract_lets -lift +onlyGivenNames guard finish
      have hfinish : ∀ ps mus u, KeepsRuns s u → DoneKeepsRuns s (finish ps mus u) := fun ps mus u h => by
        have hfx := operandFx_keepsRuns at_ g rows tiles u
        have hstored := h.trans (hfx.trans (gemmStore_keepsRuns im t at_ g ps mus _))
        exact .ite (hstored.trans (setSticky_keepsRuns at_ _)) hstored
      clear_value finish
      split
      next => exact hfinish _ _ _ (.refl s)
      next =>
        extract_lets -lift +onlyGivenNames u
        have hu : KeepsRuns s u := exchOnce_keepsRuns _ _ _ _ _ _ _ s
        clear_value u
        split
        next => trivial
        next =>
          extract_lets -lift +onlyGivenNames mus ps
          split
          next =>
            split
            next => trivial
            next =>
              split
              next => trivial
              next => exact hfinish _ _ _ (hu.trans (landParts_keepsRuns _ _ _ _ u))
          next => exact (hu.trans (sendParts_keepsRuns _ _ _ _ _ u)).trans (operandFx_keepsRuns at_ g rows tiles _)

theorem wgradWork_keepsRuns (im : JobImage) (t : TaskRec) (step : Nat) (fs : List (Nat × Nat × Nat × Int)) (s : State) :
    DoneKeepsRuns s (wgradWork im t step fs s) := by
  unfold wgradWork
  extract_lets -lift +onlyGivenNames g at_
  split
  · trivial
  · split
    extract_lets -lift +onlyGivenNames es n nf count gauges fx u w store
    have hu : KeepsRuns s u := ptrWrite_keepsRuns _ _ _ _ s
    have hstore : ∀ es v, KeepsRuns s v → KeepsRuns s (store es v) := fun es v h =>
      h.trans (.foldl (fun v x => ptrWrite_keepsRuns _ _ _ _ v) _ v)
    clear_value store fx u
    split
    next => exact hstore _ _ hu
    next =>
      split
      next =>
        split
        next => trivial
        next =>
          split
          next => trivial
          next => exact hstore _ _ (hu.trans (landParts_keepsRuns _ _ _ _ u))
      next => exact hu.trans (sendParts_keepsRuns _ _ _ _ _ u)

theorem mxWork_keepsRuns (im : JobImage) (t : TaskRec) (s : State) : DoneKeepsRuns s (mxWork im t s) := by
  have hrun := mxWork_run (flds := [.out, .coreStore, .memStacks, .mem]) im t s (.refl _ s) (by decide)
  cases hw : mxWork im t s with
  | done t fx =>
    rw [hw] at hrun
    exact .of_run hrun rfl
  | _ => trivial

theorem gemmWork_keepsRuns (im : JobImage) (t : TaskRec) (step : Nat) (fs : List (Nat × Nat × Nat × Int)) (s : State) :
    DoneKeepsRuns s (gemmWork im t step fs s) := by
  unfold gemmWork
  split
  · exact wgradWork_keepsRuns im t step fs s
  · exact mxWork_keepsRuns im t s
  · exact nativeWork_keepsRuns im t step fs s

end Sys2Proof.Proofs

/-! ### Checks of tile products (R62, R63, R142, Table 3.3) -/

namespace Sys2Proof.Proofs

open Machine Laws

/-! #### The run of a task -/

theorem taskRec_spec {im : JobImage} {task : Nat} {s : State} {k : TaskRec} (him : s.job.image = some im) (h : taskRec task s = some k) :
    k ∈ im.tasks ∧ k.taskid = task := by
  have htasks : tasks s = im.tasks := by simp [tasks, him]
  exact ⟨htasks ▸ List.mem_of_find?_eq_some h, by simpa using List.find?_some h⟩

theorem checkedRun_spec {task : Nat} {s : State} {r : TaskRun} (h : checkedRun task s = some r) :
    r ∈ s.exec.runs ∧ r.task = task ∧ r.st ≠ .committed := by
  have hp := List.find?_some h
  simp only [Bool.and_eq_true, beq_iff_eq, bne_iff_ne] at hp
  obtain ⟨⟨⟨htask, -⟩, hst⟩, -⟩ := hp
  exact ⟨List.mem_of_find?_eq_some h, htask, hst⟩

theorem runOf_ids {task step : Nat} {s : State} {q : TaskRun} (h : runOf task step s = some q) : q.task = task ∧ q.step = step := by
  simpa using List.find?_some h

theorem mem_putRun_self (r : TaskRun) (l : List TaskRun) : r ∈ putRun r l := by
  induction l with
  | nil => exact List.mem_singleton_self r
  | cons x l ih =>
    unfold putRun
    split
    · exact List.mem_cons_self
    · exact List.mem_cons_of_mem x ih

/-- A run that is put replaces the first one of its task and step, and no other. -/
theorem mem_putRun_of_ne {r p q : TaskRun} {l : List TaskRun} (hfirst : l.find? (fun x => x.task == r.task && x.step == r.step) = some p)
    (hq : q ∈ l) (hne : q ≠ p) : q ∈ putRun r l := by
  induction l with
  | nil => exact absurd hq List.not_mem_nil
  | cons x l ih =>
    by_cases hx : x.task = r.task ∧ x.step = r.step
    · rw [List.find?_cons_of_pos (by simp [hx])] at hfirst
      obtain rfl := Option.some.inj hfirst
      rw [putRun, if_pos hx]
      exact List.mem_cons_of_mem r ((List.mem_cons.mp hq).resolve_left hne)
    · rw [List.find?_cons_of_neg (by simpa using hx)] at hfirst
      rw [putRun, if_neg hx]
      rcases List.mem_cons.mp hq with rfl | hq
      · exact List.mem_cons_self
      · exact List.mem_cons_of_mem x (ih hfirst hq)

/-! #### The passes of a product -/

/-- The check of one plane pass, with the array's faults in it. -/
def passCheck (isTile : Bool) (slab col chunk : Nat) (fs : List ArrayFault) (x : Nat × PassData) : ProductFault :=
  checkPass isTile x.2 slab col chunk fun p => faultyProduct p (passFaults fs x.1)

/-- What that check finds, if it fails. -/
def passFailure (isTile : Bool) (slab col chunk : Nat) (fs : List ArrayFault) (x : Nat × PassData) : Option ProductFault :=
  if (passCheck isTile slab col chunk fs x).cls = .pass then none else some (passCheck isTile slab col chunk fs x)

section
variable {isTile : Bool} {slab col chunk : Nat} {fs : List ArrayFault} {ps : List (Nat × PassData)}

theorem failedPass_eq_findSome? : failedPass isTile slab col chunk fs ps = ps.findSome? (passFailure isTile slab col chunk fs) := rfl

theorem findSome?_passFailure_eq_none (h : ∀ x ∈ ps, (passCheck isTile slab col chunk fs x).cls = .pass) :
    ps.findSome? (passFailure isTile slab col chunk fs) = none :=
  List.findSome?_eq_none_iff.mpr fun x hx => if_pos (h x hx)

/-- The first pass that fails is the one that counts. -/
theorem findSome?_passFailure_eq_first {before after : List (Nat × PassData)} {x : Nat × PassData} (hps : ps = before ++ x :: after)
    (hbefore : ∀ y ∈ before, (passCheck isTile slab col chunk fs y).cls = .pass)
    (hx : (passCheck isTile slab col chunk fs x).cls ≠ .pass) :
    ps.findSome? (passFailure isTile slab col chunk fs) = some (passCheck isTile slab col chunk fs x) := by
  have hfails : passFailure isTile slab col chunk fs x = some (passCheck isTile slab col chunk fs x) := if_neg hx
  rw [hps, List.findSome?_append, findSome?_passFailure_eq_none hbefore, Option.none_or,
    List.findSome?_cons_of_isSome (Option.isSome_of_eq_some hfails), hfails]

end

/-! #### The end of a product -/

section
variable {im : JobImage} {k : TaskRec} {r : TaskRun} {s : State} {slab col chunk : Nat} {fs : List ArrayFault} {ps : List (Nat × PassData)}

/-- The faults of the array that no check saw, as the run keeps them. -/
def unseenFaults (slab col chunk : Nat) (fs : List ArrayFault) (ps : List (Nat × PassData)) : List (Nat × Nat × Nat × Int) :=
  (fs.filter fun f => ps.any fun x => x.1 == f.pass.val).map fun f =>
    (32 * slab + f.row, 32 * col + f.col, chunk, passWeight f.pass.val * f.delta)

theorem endProduct_passed (hps : productPasses im k slab col chunk s = .ok ps)
    (h : ∀ x ∈ ps, (passCheck ((decodeGemm k.body).kind != 2) slab col chunk fs x).cls = .pass) :
    endProduct im k r slab col chunk fs s =
      setRun { r with undetected := r.undetected ++ unseenFaults slab col chunk fs ps } s := by
  simp only [endProduct, hps, failedPass_eq_findSome?, findSome?_passFailure_eq_none h]
  rfl

theorem endProduct_failed (hps : productPasses im k slab col chunk s = .ok ps) {f : ProductFault}
    (h : failedPass ((decodeGemm k.body).kind != 2) slab col chunk fs ps = some f) :
    endProduct im k r slab col chunk fs s = productFault im k r.step f s := by
  simp only [endProduct, hps, h]

/-- The first fault of a task or of an item in a step, as the check of a product finds it. -/
def FirstFault (k : TaskRec) (step : Nat) (c : CheckClass) (s : State) : Prop :=
  (c = .compute ∧ ∀ x ∈ s.exec.prodFails, x.1 ≠ k.taskid ∨ x.2.1 ≠ step) ∨ (c = .sideRecord ∧ ∀ x ∈ s.exec.attempts, x.1 ≠ step)

theorem productFault_breached (him : s.job.image = some im) (hk : k ∈ im.tasks) (hr : r ∈ s.exec.runs) (htask : r.task = k.taskid)
    (hst : r.st ≠ .committed) {f : ProductFault} (hf : FirstFault k r.step f.cls s) :
    Breached im k r.step s (productFault im k r.step f s) := by
  unfold productFault
  rcases hf with ⟨hcls, hfirst⟩ | ⟨hcls, hfirst⟩
  · rw [if_neg (by rw [hcls]; decide)]
    exact computeFault_breached him hk hr htask hst hfirst f
  · rw [if_pos hcls]
    exact streamMismatch_breached him hk hr htask hst hfirst _

/-- A product that ends after its task: the discarded run stays discarded, whatever other run its task has. -/
theorem lateProduct_breached (hdtype : k.dtype = 1) (h : Breached im k r.step s (endProduct im k r slab col chunk fs s)) :
    Breached im k r.step s (lateProduct im k r slab col chunk fs s) := by
  unfold lateProduct
  generalize endProduct im k r slab col chunk fs s = u at h
  dsimp only
  split
  next q hq =>
    split
    next => exact h
    next hkept =>
      have hwork := gemmWork_keepsRuns im k q.step q.undetected u
      have hrun := gemmWork_run (flds := [.out, .exec, .cores, .coreStore, .memStacks, .mem, .fabric]) im k q.step q.undetected u
        (.refl _ u) (by decide)
      simp only [taskWork, hdtype]
      split
      next t fx hdone =>
        rw [hdone] at hwork hrun
        obtain ⟨n, hnotices, hbreach, hstep, htask, hda, hcode, hamount, hlog, d, hd, hdtask, hdstep, hdst⟩ := h
        obtain ⟨hruns, hsame⟩ : t.exec.runs = u.exec.runs ∧ t.exec.notices = u.exec.notices := hwork
        have hseq : u.seq ≤ t.seq := Run.seq hrun
        obtain ⟨hqtask, hqstep⟩ := runOf_ids hq
        have hne : d ≠ q := fun h => hkept (.inl (h ▸ hdst))
        refine ⟨n, hsame.trans hnotices, hbreach, hstep, htask, hda, hcode, hamount, hlog.trans_le hseq, d, ?_, hdtask, hdstep, hdst⟩
        have hfirst : t.exec.runs.find? (fun x => x.task == q.task && x.step == q.step) = some q := by
          rw [hruns, hqtask, hqstep]
          exact hq
        exact mem_putRun_of_ne (r := q.withFx fx) hfirst (hruns.symm ▸ hd) hne
      next => exact h
  next => exact h

end

/-! #### One array fault (R62, Table 3.3) -/

theorem mem_diffs {x y : List Int} {i : Nat} (hi : i < x.length) (h : x.getD i 0 ≠ y.getD i 0) : i ∈ diffs x y :=
  List.mem_filter.mpr ⟨List.mem_range.mpr hi, bne_iff_ne.mpr h⟩

/-- A column that mismatches is a compute fault, whatever the rows say. -/
theorem tileCheck_of_column {isTile : Bool} {n : Nat} {a w p : List (List Int)} {rw : List Int} {c : Nat}
    (h : c ∈ diffs (colSums n p) (colChk n a w)) : (tileCheck isTile n a w p rw).1 = .compute := by
  have hcols : (diffs (colSums n p) (colChk n a w)).isEmpty = false := List.isEmpty_eq_false_iff.mpr (List.ne_nil_of_mem h)
  simp only [tileCheck, hcols, Bool.and_false, Bool.false_eq_true, if_false]

theorem colSums_getD {n c : Nat} (hc : c < n) (p : List (List Int)) : (colSums n p).getD c 0 = (p.map fun r => r.getD c 0).sum := by
  simp [colSums, hc]

/-- The column check value by reduction positions (R62). -/
theorem colChk_getD {n c : Nat} (hc : c < n) (a : List (List Int)) {w : List (List Int)} (hw : w.length = 16) :
    (colChk n a w).getD c 0 =
      ((List.range 16).map fun k => (a.map fun r => r.getD k 0).sum * (w.getD k []).getD c 0).sum := by
  have hrows : w = (List.range 16).map fun k => w.getD k [] :=
    List.ext_getElem (by simp [hw]) fun k hk _ => by simp [List.getElem?_eq_getElem hk]
  have hzip : (colSums 16 a).zip w = (List.range 16).map fun k => ((a.map fun r => r.getD k 0).sum, w.getD k []) := by
    conv_lhs => rw [hrows]
    exact List.zip_map'
  simp only [colChk, hzip, List.map_map]
  simp [hc]
  rfl

/-- The products of a column and the sums of the operand's columns agree (R62). -/
theorem sum_products_eq (a w : List (List Int)) (c : Nat) :
    (a.map fun r => ((List.range 16).map fun k => r.getD k 0 * (w.getD k []).getD c 0).sum).sum =
      ((List.range 16).map fun k => (a.map fun r => r.getD k 0).sum * (w.getD k []).getD c 0).sum := by
  induction a with
  | nil => simp
  | cons r a ih => simp only [List.map_cons, List.sum_cons, ih, add_mul, List.sum_map_add]

/-- What a fault adds at a place. -/
def faultAmount (f : ArrayFault) (row col : Nat) : Int := if f.row = row ∧ f.col = col then f.delta else 0

theorem faultyProduct_singleton (p : List (List Int)) (f : ArrayFault) :
    faultyProduct p [f] = p.zipIdx.map fun r => r.1.zipIdx.map fun c => c.1 + faultAmount f r.2 c.2 := by
  have hamount : ∀ row col : Nat, (([f].filter fun f => f.row == row && f.col == col).map (·.delta)).sum = faultAmount f row col := fun row col => by
    by_cases h : f.row = row ∧ f.col = col
    · simp [faultAmount, h]
    · rw [faultAmount, if_neg h, List.filter_cons_of_neg (by simpa using h)]
      rfl
  simp only [faultyProduct, hamount]

theorem faultyRow_getD {r : List Int} {c : Nat} (hc : c < r.length) (f : ArrayFault) (row : Nat) :
    (r.zipIdx.map fun x => x.1 + faultAmount f row x.2).getD c 0 = r.getD c 0 + faultAmount f row c := by
  simp [hc]

theorem sum_faultyColumn {c : Nat} (p : List (List Int)) (f : ArrayFault) (m : Nat) (hp : ∀ r ∈ p, c < r.length) :
    (((p.zipIdx m).map fun r => r.1.zipIdx.map fun x => x.1 + faultAmount f r.2 x.2).map fun r => r.getD c 0).sum =
      (p.map fun r => r.getD c 0).sum + if m ≤ f.row ∧ f.row < m + p.length ∧ f.col = c then f.delta else 0 := by
  induction p generalizing m with
  | nil => simp; omega
  | cons r p ih =>
    simp only [List.zipIdx_cons, List.map_cons, List.sum_cons]
    rw [ih _ fun r hr => hp r (List.mem_cons_of_mem _ hr), faultyRow_getD (hp r List.mem_cons_self)]
    simp only [faultAmount, List.length_cons]
    split_ifs <;> omega

/-- The product of two matrices, element by element. -/
def matrixProduct (n : Nat) (a w : List (List Int)) : List (List Int) :=
  a.map fun r => (List.range n).map fun j => ((List.range 16).map fun i => r.getD i 0 * (w.getD i []).getD j 0).sum

/-- One array fault stands in the sum of its column. -/
theorem colSums_faulty {n : Nat} {a w : List (List Int)} {f : ArrayFault} (hrow : f.row < a.length) (hcol : f.col < n) (hw : w.length = 16) :
    (colSums n (faultyProduct (matrixProduct n a w) [f])).getD f.col 0 = (colChk n a w).getD f.col 0 + f.delta := by
  have hlen : ∀ r ∈ matrixProduct n a w, f.col < r.length := fun r hr => by
    obtain ⟨x, -, rfl⟩ := List.mem_map.mp hr
    simpa using hcol
  have hproduct : ((matrixProduct n a w).map fun r => r.getD f.col 0).sum =
      (a.map fun r => ((List.range 16).map fun k => r.getD k 0 * (w.getD k []).getD f.col 0).sum).sum := by
    rw [matrixProduct, List.map_map]
    refine congrArg List.sum (List.map_congr_left fun r _ => ?_)
    simp [hcol]
  rw [colSums_getD hcol, faultyProduct_singleton, sum_faultyColumn _ f 0 hlen, hproduct, sum_products_eq, colChk_getD hcol a hw,
    if_pos ⟨Nat.zero_le _, by simpa [matrixProduct] using hrow, rfl⟩]

/-- One array fault is always found (Table 3.3). -/
theorem tileCheck_one_fault (isTile : Bool) {n : Nat} {a w : List (List Int)} (rw : List Int) {f : ArrayFault} (hrow : f.row < a.length)
    (hcol : f.col < n) (hw : w.length = 16) (hdelta : f.delta ≠ 0) :
    (tileCheck isTile n a w (faultyProduct (matrixProduct n a w) [f]) rw).1 = .compute := by
  refine tileCheck_of_column (mem_diffs (i := f.col) (by simpa [colSums] using hcol) ?_)
  rw [colSums_faulty hrow hcol hw]
  omega

/-! #### TILE_PRODUCT_END -/

theorem exec_tileProductEnd {task slab col chunk : Nat} {fs : List ArrayFault} {im : JobImage} {k : TaskRec} {r : TaskRun} {s : State}
    (him : s.job.image = some im) (hk : taskRec task s = some k) (hr : checkedRun task s = some r) (hvoid : s.exec.voided = false)
    (hproduct : hasProduct k slab col chunk = true) :
    exec (.tileProductEnd task slab col chunk fs) s =
      .next (if r.endT.isNone then endProduct im k r slab col chunk fs s else lateProduct im k r slab col chunk fs s) := by
  show execTileProductEnd task slab col chunk fs s = _
  simp only [execTileProductEnd, him, hk, hr, hvoid, hproduct, Bool.not_true, Bool.or_self, Bool.false_eq_true, if_false]

/-- Settles O57: one fault through the sum of its column; a product whose passes all pass through `endProduct_passed`, and one that
fails through the breach of its task, `productFault_breached`. -/
theorem tileChecks : Obligations.TileChecks := by
  unfold Obligations.TileChecks
  refine ⟨fun isTile a w rw f _ hw _ hrow hcol hdelta => tileCheck_one_fault isTile rw hrow hcol hw hdelta, ?_⟩
  intro task slab col chunk fs im k r s ps him hk hr hvoid hdtype hkind hrows hcols hchunk hps isTile cls
  obtain ⟨hkmem, hktask⟩ := taskRec_spec him hk
  obtain ⟨hrmem, hrtask, hrst⟩ := checkedRun_spec hr
  have hexec := exec_tileProductEnd (fs := fs) him hk hr hvoid
    (by simp [hasProduct, hdtype, hkind, hrows, hcols, hchunk] : hasProduct k slab col chunk = true)
  refine ⟨fun hopen hpass => ?_, fun before x after hsplit hbefore hfault => ?_⟩
  · rw [hopen, Option.isNone_none, if_pos rfl, endProduct_passed hps hpass] at hexec
    exact ⟨_, hexec, rfl, _, mem_putRun_self _ _, hrtask, rfl, rfl, by simp [unseenFaults]⟩
  · have hne : (passCheck isTile slab col chunk fs x).cls ≠ .pass := fun h => by
      rcases hfault with ⟨hcls, -⟩ | ⟨hcls, -⟩
      · exact absurd (h.symm.trans hcls) (by decide)
      · exact absurd (h.symm.trans hcls) (by decide)
    have hfirst : FirstFault k r.step (passCheck isTile slab col chunk fs x).cls s := by
      rw [FirstFault, hktask]
      exact hfault
    have hend : Breached im k r.step s (endProduct im k r slab col chunk fs s) := by
      rw [endProduct_failed hps (findSome?_passFailure_eq_first hsplit hbefore hne)]
      exact productFault_breached him hkmem hrmem (hrtask.trans hktask.symm) hrst hfirst
    have hboth : Breached im k r.step s (if r.endT.isNone then endProduct im k r slab col chunk fs s
        else lateProduct im k r slab col chunk fs s) := by
      split
      · exact hend
      · exact lateProduct_breached hdtype hend
    obtain ⟨n, hnotices, hbreach, hstep, htask, hda, hcode, hamount, hlog, q, hq, hqtask, hqstep, hqst⟩ := hboth
    exact ⟨_, n, hexec, hnotices, hbreach, hstep, htask.trans hktask, hda, hcode, hamount, hlog, q, hq, hqtask.trans hktask, hqstep, hqst⟩

end Sys2Proof.Proofs

/-! ### Late notices and the commit of a task (R18, R94, R102, R140, R154, R185, R209) -/

namespace Sys2Proof.Proofs

open Machine Laws

/-! #### What a notice adds -/

/-- A notice moves no package: it may shift the origins of the job alone. -/
theorem takeNotice_logId (n : Notice) (s : State) : logId (takeNotice n s) = logId s := by
  unfold takeNotice
  extract_lets before src s1 d job exec twin s2
  have h2 : logId s2 = logId s := by
    subst s2
    split
    · rfl
    · rfl
  split
  · have hrun : Run [.out, .hostA, .hostB, .i3c, .warden, .seq, .log] s2 (extendCommands d n.code s2) :=
      extendCommands_run d n.code s2 (.refl _ s2) (by decide)
    have hjob : (extendCommands d n.code s2).job = s2.job := hrun.same .job rfl
    simpa only [logId, hjob] using h2
  · exact h2

theorem sendNotice_logId (breach : Bool) (step da amount code origin task red queue : Nat) (s : State) :
    logId (sendNotice breach step da amount code origin task red queue s) = logId s := by
  unfold sendNotice
  extract_lets nseq n s1
  have hb : Run [.out, .fabric] s s1 := bcastMsg_run _ s (.refl _ s) (by decide)
  have hl : Run [.out, .hostA, .hostB, .seq, .log] (takeNotice n s1) (logNotice breach step da amount code origin task red (takeNotice n s1)) :=
    logNotice_run _ _ _ _ _ _ _ _ _ (.refl _ _) (by decide)
  have bjob : s1.job = s.job := hb.same .job rfl
  have ljob := hl.same .job rfl
  have htake : logId (takeNotice n s1) = logId s := by rw [takeNotice_logId, logId, bjob, logId]
  rw [← htake, logId, ljob, logId]

/-- A late notice raises the slip of the deadlines from its own on to its amount (R154). -/
theorem lateSlip_noticed {n : Notice} {s t : State} (h : Noticed n s t) (hlate : n.breach = false) {d : Nat} (hda : n.da ≤ d) :
    lateSlip n.step d t = max (lateSlip n.step d s) n.amount := by
  simp [lateSlip, h.notices, hlate, hda]

/-! #### Fall-backs beyond freeboard (R94) -/

/-- `n` code 5 notices of a task have gone out, each 40.96 µs on top of the slip before it; runs and memory stay. -/
structure FallbacksSent (k : TaskRec) (step n : Nat) (s t : State) : Prop where
  sent : noticesSent k.taskid step t = noticesSent k.taskid step s + n
  slip : lateSlip step k.deadline t = lateSlip step k.deadline s + 40960 * n
  runs : t.exec.runs = s.exec.runs
  mem : t.mem = s.mem

theorem FallbacksSent.refl (k : TaskRec) (step : Nat) (s : State) : FallbacksSent k step 0 s s := ⟨rfl, rfl, rfl, rfl⟩

theorem FallbacksSent.trans {k : TaskRec} {step m n : Nat} {s t u : State} (h : FallbacksSent k step m s t) (g : FallbacksSent k step n t u) :
    FallbacksSent k step (m + n) s u :=
  ⟨by rw [g.sent, h.sent, Nat.add_assoc], by rw [g.slip, h.slip, Nat.mul_add, Nat.add_assoc], g.runs.trans h.runs, g.mem.trans h.mem⟩

theorem fallbackNotice_sent (k : TaskRec) (step : Nat) (s : State) : FallbacksSent k step 1 s (fallbackNotice k step s) := by
  have hsent : Noticed _ s (fallbackNotice k step s) := sendNotice_noticed ..
  have hid : logId (fallbackNotice k step s) = logId s := sendNotice_logId ..
  have hrun : Run [.out, .hostA, .hostB, .i3c, .warden, .seq, .log, .job, .exec, .fabric, .twin] s (fallbackNotice k step s) :=
    sendNotice_run _ _ _ _ _ _ _ _ _ s (.refl _ s) (by decide)
  refine ⟨?_, ?_, hsent.runs, hrun.same .mem rfl⟩
  · simp [noticesSent, hsent.notices, hid, sentNotice]
  · exact (lateSlip_noticed hsent rfl (Nat.le_refl _)).trans (Nat.max_eq_right (Nat.le_add_right _ _))

theorem iter_fallbackNotice_sent (k : TaskRec) (step n : Nat) (s : State) : FallbacksSent k step n s (iter (fallbackNotice k step) n s) := by
  induction n generalizing s with
  | zero => exact .refl k step s
  | succ n ih =>
    have h := (fallbackNotice_sent k step s).trans (ih (fallbackNotice k step s))
    rwa [Nat.add_comm] at h

section
variable {task : Nat} {im : JobImage} {k : TaskRec} {r : TaskRun} {s : State}

theorem onRunning_of_running (him : s.job.image = some im) (hk : taskRec task s = some k) (hr : runningRun task s = some r)
    (hvoid : s.exec.voided = false) (f : JobImage → TaskRec → TaskRun → State → State) : onRunning task f s = f im k r s := by
  simp only [onRunning, him, hk, hr, hvoid, Bool.false_eq_true, if_false]

/-- FALLBACK_BEYOND_FREEBOARD (R94). -/
theorem fallbackBeyondFreeboard_effect (him : s.job.image = some im) (hk : taskRec task s = some k) (hr : runningRun task s = some r)
    (hvoid : s.exec.voided = false) (hgemm : k.dtype = 1) :
    let due := noticesDue (int8Of im k s) (reserveQ (decodeGemm k.body))
    ∃ t, exec (.fallbackBeyondFreeboard task) s = .next t ∧
      noticesSent task r.step t = max (noticesSent task r.step s) due ∧
      lateSlip r.step k.deadline t = lateSlip r.step k.deadline s + 40960 * (due - noticesSent task r.step s) ∧
      t.exec.runs = s.exec.runs ∧ t.mem = s.mem := by
  intro due
  obtain ⟨-, rfl⟩ := taskRec_spec him hk
  obtain ⟨hsent, hslip, hruns, hmem⟩ := iter_fallbackNotice_sent k r.step (due - noticesSent k.taskid r.step s) s
  refine ⟨_, ?_, ?_, hslip, hruns, hmem⟩
  · show Host.Outcome.next (onRunning k.taskid _ s) = _
    rw [onRunning_of_running him hk hr hvoid, if_pos hgemm, sendFallbacks]
  · rw [hsent]
    omega

/-! #### Deadline checks (R154, R185, R209) -/

/-- Where no link is below its rating, only heat lengthens the unit time (R185). -/
theorem unitTimeOf_of_not_below (h : belowWork im k s = false) (unitTime : Nat) :
    unitTimeOf im k unitTime s = if hotWork im k s then (4 * unitTime + 2) / 3 else unitTime := by
  unfold belowWork at h
  rw [List.any_eq_false] at h
  unfold unitTimeOf
  extract_lets u
  rw [List.foldl_ext _ (fun u _ => u) u fun u l hl => if_neg (h l hl), List.foldl_fixed]
  rfl

theorem delayCode_eq (im : JobImage) (k : TaskRec) (code : Nat) (s : State) :
    delayCode im k code s =
      if code ≠ 0 ∧ code ≠ 1 ∧ code ≠ 3 then code else if hotWork im k s = true then 1 else if belowWork im k s = true then 3 else 0 := by
  unfold delayCode
  by_cases h : code = 0 ∨ code = 1 ∨ code = 3
  · have hnot : ¬(code ≠ 0 ∧ code ≠ 1 ∧ code ≠ 3) := by omega
    rw [if_pos h, if_neg hnot]
  · have hother : code ≠ 0 ∧ code ≠ 1 ∧ code ≠ 3 := by omega
    rw [if_neg h, if_pos hother]

theorem exec_deadlineCheck (him : s.job.image = some im) (hk : taskRec task s = some k) (hr : runningRun task s = some r)
    (hvoid : s.exec.voided = false) (rem unitTime : Nat) (code : Fin 9) (org q : BitVec 16) :
    exec (.deadlineCheck task rem unitTime code org q) s = .next (checkDeadline im k r rem unitTime code.val org.toNat q.toNat s) := by
  show Host.Outcome.next (onRunning task _ s) = _
  rw [onRunning_of_running him hk hr hvoid]

theorem checkDeadline_within {rem unitTime code org q : Nat}
    (h : delayCode im k code s = 0 ∨ tideNow s + rem * unitTimeOf im k unitTime s ≤ deadlineOf k r.step s) :
    checkDeadline im k r rem unitTime code org q s = s := by
  unfold checkDeadline
  extract_lets e d c
  rw [if_pos h]

/-- The notice of an end beyond the deadline, with the excess in whole µs. -/
theorem checkDeadline_beyond {rem unitTime code org q : Nat} (hcode : delayCode im k code s ≠ 0)
    (h : deadlineOf k r.step s < tideNow s + rem * unitTimeOf im k unitTime s) :
    Noticed (sentNotice false r.step k.deadline
        (lateSlip r.step k.deadline s + upMicro (tideNow s + rem * unitTimeOf im k unitTime s - deadlineOf k r.step s))
        (delayCode im k code s) k.taskid s) s
      (checkDeadline im k r rem unitTime code org q s) := by
  unfold checkDeadline
  extract_lets e d c
  rw [if_neg fun hc => hc.elim hcode (Nat.not_le.mpr h)]
  exact sendNotice_noticed ..

end

/-! #### The commit of a task (R102, R140) -/

/-- The runs of tasks and the over-range counts of `t` are those of `s`. -/
def KeepsResults (s t : State) : Prop := t.exec.runs = s.exec.runs ∧ t.exec.overs = s.exec.overs

theorem KeepsResults.refl (s : State) : KeepsResults s s := ⟨rfl, rfl⟩

theorem KeepsResults.trans {s t u : State} (h : KeepsResults s t) (g : KeepsResults t u) : KeepsResults s u :=
  ⟨g.1.trans h.1, g.2.trans h.2⟩

theorem KeepsResults.of_run {flds : List StateField} {s t : State} (h : Run flds s t) (hf : flds.contains .exec = false) : KeepsResults s t := by
  have hexec : t.exec = s.exec := h.same .exec hf
  exact ⟨congrArg Exec.runs hexec, congrArg Exec.overs hexec⟩

theorem logVerdict_keepsResults (step : Nat) (sum med : Int) (what : Nat) (s : State) : KeepsResults s (logVerdict step sum med what s) :=
  .of_run (logVerdict_run (flds := [.out, .hostA, .hostB, .seq, .log]) step sum med what s (.refl _ s) (by decide)) rfl

theorem decideVerdict_keepsResults (im : JobImage) (v : Verdict) (s : State) : KeepsResults s (decideVerdict im v s) := by
  unfold decideVerdict
  extract_lets sum nl nf med exec
  split
  extract_lets w s1 s2
  have h2 : KeepsResults s s2 := by
    subst s2
    split
    · exact logVerdict_keepsResults _ _ _ _ s1
    · exact .refl s1
  split
  · exact h2.trans (logVerdict_keepsResults _ _ _ _ s2)
  · exact h2

theorem takeVerdict_keepsResults (im : JobImage) (step src : Nat) (loss : Int) (nl nf : Nat) (s : State) :
    KeepsResults s (takeVerdict im step src loss nl nf s) := by
  unfold takeVerdict
  extract_lets v v1 exec s1
  split
  · exact .refl s
  · split
    · exact decideVerdict_keepsResults im v1 s1
    · exact .refl s

theorem bringVerdict_keepsResults (im : JobImage) (step : Nat) (s : State) : KeepsResults s (bringVerdict im step s) := by
  unfold bringVerdict
  extract_lets all r
  split
  · exact .refl s
  · exact (KeepsResults.of_run (bcastMsg_run (flds := [.out, .fabric]) _ s (.refl _ s) (by decide)) rfl).trans
      (takeVerdict_keepsResults ..)

theorem settleProducts_keepsResults (k : TaskRec) (step : Nat) (s : State) : KeepsResults s (settleProducts k step s) := by
  unfold settleProducts
  extract_lets cores exec s1
  have hrun : Run [.out, .hostA, .hostB, .seq, .log, .flash] s1 (cores.foldl (fun s k => recordTransient (k / 4096) (k % 4096) s) s1) :=
    Run.foldl (.refl _ s1) fun c x h => recordTransient_run _ _ x h (by decide)
  have hkeeps : KeepsResults s1 _ := .of_run hrun rfl
  exact hkeeps

theorem closeStep_keepsResults (s : State) : KeepsResults s (closeStep s) := by
  unfold closeStep
  extract_lets k
  split
  · exact .refl s
  · exact .refl s

theorem closeSteps_keepsResults (s : State) : KeepsResults s (closeSteps s) := by
  unfold closeSteps
  induction s.job.cstep + 1 - s.exec.doneTo generalizing s with
  | zero => exact .refl s
  | succ n ih => exact (closeStep_keepsResults s).trans (ih _)

theorem commitQueues_keepsResults (task : Nat) (s : State) : KeepsResults s (commitQueues task s) :=
  .of_run (commitQueues_run (flds := [.out, .hostA, .hostB, .seq, .log, .queues, .fabric]) task s (.refl _ s) (by decide)) rfl

/-- What the gauges count depends on the gauges alone. -/
theorem gaugeAll_gauges_congr {s t : State} (h : t.gauges = s.gauges) (step : Nat) (l : List (Nat × Nat × Counts)) :
    (gaugeAll step l t).gauges = (gaugeAll step l s).gauges := by
  unfold gaugeAll
  induction l generalizing s t with
  | nil => exact h
  | cons g l ih => exact ih (by simp only [gaugeIn, h])

theorem commitEffects_counts (im : JobImage) (k : TaskRec) (r : TaskRun) (s : State) :
    (commitEffects im k r s).exec.runs = s.exec.runs ∧
      (commitEffects im k r s).exec.overs = s.exec.overs ++ r.overs.map (fun o => (r.step, o)) ∧
      (commitEffects im k r s).gauges = (gaugeAll r.step r.gauges s).gauges := by
  unfold commitEffects
  extract_lets exec s1 s2
  have hgauges : Run [.gauges] s1 (gaugeAll r.step r.gauges s1) := gaugeAll_run _ _ s1 (.refl _ s1) (by decide)
  have hqueues : Run [.out, .hostA, .hostB, .seq, .log, .queues, .fabric] (gaugeAll r.step r.gauges s1) s2 :=
    commitQueues_run _ _ (.refl _ _) (by decide)
  obtain ⟨hruns, hovers⟩ := (KeepsResults.of_run hgauges rfl).trans (.of_run hqueues rfl)
  have hcount : s2.gauges = (gaugeAll r.step r.gauges s).gauges :=
    (hqueues.same .gauges rfl).trans (gaugeAll_gauges_congr (s := s) (t := s1) rfl _ _)
  split
  · obtain ⟨vruns, vovers⟩ := bringVerdict_keepsResults im r.step s2
    have hv : Run [.out, .hostA, .hostB, .seq, .log, .exec, .fabric] s2 (bringVerdict im r.step s2) :=
      bringVerdict_run _ _ s2 (.refl _ s2) (by decide)
    exact ⟨vruns.trans hruns, vovers.trans hovers, (hv.same .gauges rfl).trans hcount⟩
  · exact ⟨hruns, hovers, hcount⟩

/-- A run once its task has committed. -/
def committedRun (r : TaskRun) : TaskRun := { r with st := .committed, gauges := [], overs := [] }

/-- The effects of a commit, which a run that has counted before does not have again (R102). -/
theorem commitTask_counts (im : JobImage) (k : TaskRec) (r : TaskRun) (s : State) :
    (commitTask im k r s).exec.runs = putRun (committedRun r) s.exec.runs ∧
      (commitTask im k r s).exec.overs = s.exec.overs ++ (if r.again then [] else r.overs.map fun o => (r.step, o)) ∧
      (commitTask im k r s).gauges = (gaugeAll r.step (if r.again then [] else r.gauges) s).gauges := by
  unfold commitTask
  extract_lets s1
  obtain ⟨hruns, hovers⟩ := settleProducts_keepsResults k r.step (setRun (committedRun r) s)
  have hsettle : Run [.out, .hostA, .hostB, .seq, .log, .exec, .flash] s s1 :=
    settleProducts_run _ _ _ (setRun_run _ s (.refl _ s) (by decide)) (by decide)
  have hgauges : s1.gauges = s.gauges := hsettle.same .gauges rfl
  obtain ⟨cruns, covers⟩ := closeSteps_keepsResults (if r.again then s1 else commitEffects im k r s1)
  have hclose : Run [.exec] _ (closeSteps (if r.again then s1 else commitEffects im k r s1)) := closeSteps_run _ (.refl _ _) (by decide)
  rw [cruns, covers, hclose.same .gauges rfl]
  by_cases hagain : r.again = true
  · simp only [if_pos hagain]
    exact ⟨hruns, hovers.trans (List.append_nil _).symm, hgauges⟩
  · simp only [if_neg hagain]
    obtain ⟨eruns, eovers, egauges⟩ := commitEffects_counts im k r s1
    exact ⟨eruns.trans hruns, eovers.trans (congrArg (· ++ _) hovers), egauges.trans (gaugeAll_gauges_congr hgauges _ _)⟩

section
variable {task : Nat} {im : JobImage} {k : TaskRec} {s : State}

theorem exec_checkHorizon_due (him : s.job.image = some im) (hk : taskRec task s = some k) {r : TaskRun}
    (hr : s.exec.runs.find? (commitDue k s) = some r) (hvoid : s.exec.voided = false) :
    exec (.checkHorizon task) s = .next (commitTask im k { r with st := .firm } s) := by
  show execCheckHorizon task s = _
  simp only [execCheckHorizon, him, hk, hr, hvoid, Bool.false_eq_true, if_false]

theorem exec_checkHorizon_none (him : s.job.image = some im) (hk : taskRec task s = some k)
    (hr : s.exec.runs.find? (commitDue k s) = none) : exec (.checkHorizon task) s = .next s := by
  show execCheckHorizon task s = _
  simp only [execCheckHorizon, him, hk, hr]

theorem commitDue_spec {r : TaskRun} (h : commitDue k s r = true) :
    r.task = k.taskid ∧ r.st ≠ .committed ∧ r.st ≠ .discarded ∧ ∃ e, r.endT = some e ∧ e + 2000 ≤ tideNow s := by
  simp only [commitDue, Bool.and_eq_true, beq_iff_eq, bne_iff_ne] at h
  obtain ⟨⟨⟨⟨⟨htask, hcommitted⟩, hdiscarded⟩, -⟩, -⟩, hend⟩ := h
  refine ⟨htask, hcommitted, hdiscarded, ?_⟩
  cases he : r.endT with
  | none => simp [he] at hend
  | some e => exact ⟨e, rfl, by simpa [he] using hend⟩

end

/-- Settles O58: a count's notices through `iter_fallbackNotice_sent`, a deadline check through `checkDeadline_within` and
`checkDeadline_beyond`, and the commit through `commitTask_counts`. -/
theorem lateNoticesAndCommit : Obligations.LateNoticesAndCommit := by
  unfold Obligations.LateNoticesAndCommit
  refine ⟨fun task im k r s him hk hr hvoid => ⟨fallbackBeyondFreeboard_effect him hk hr hvoid, ?_⟩,
    fun task im k s him hk => ⟨fun r hr hvoid => ?_, fun hnone => ?_⟩⟩
  · intro rem unitTime code org q e d c
    obtain ⟨-, htask⟩ := taskRec_spec him hk
    have hcode : delayCode im k code.val s = c := delayCode_eq ..
    rw [exec_deadlineCheck him hk hr hvoid]
    refine ⟨fun h => unitTimeOf_of_not_below h unitTime, fun h => ?_, fun hc h => ?_⟩
    · rw [checkDeadline_within (h.imp_left hcode.trans)]
    · have hsent := checkDeadline_beyond (org := org.toNat) (q := q.toNat) (hcode.symm ▸ hc) h
      exact ⟨_, _, rfl, hsent.notices, rfl, rfl, rfl, rfl, hcode, htask, rfl, hsent.runs⟩
  · obtain ⟨hktask, -, -, -⟩ := commitDue_spec (List.find?_some hr)
    obtain ⟨-, htask⟩ := taskRec_spec him hk
    obtain ⟨hruns, hovers, hgauges⟩ := commitTask_counts im k { r with st := .firm } s
    have hrun : Run [.out, .hostA, .hostB, .seq, .log, .queues, .exec, .gauges, .fabric, .flash] s (commitTask im k { r with st := .firm } s) :=
      commitTask_run _ _ _ s (.refl _ s) (by decide)
    exact ⟨_, exec_checkHorizon_due him hk hr hvoid,
      ⟨committedRun { r with st := .firm }, hruns ▸ mem_putRun_self _ _, hktask.trans htask, rfl, rfl, rfl⟩,
      hovers, hgauges, hrun.same .job rfl⟩
  · obtain ⟨-, htask⟩ := taskRec_spec him hk
    have hdue : s.exec.runs.find? (commitDue k s) = none := by
      rw [List.find?_eq_none]
      intro r hr hdue
      obtain ⟨hktask, hcommitted, hdiscarded, e, he, hend⟩ := commitDue_spec hdue
      rcases hnone r hr (hktask.trans htask) with h | h | h | ⟨e', he', h⟩
      · exact hcommitted h
      · exact hdiscarded h
      · exact absurd (h.symm.trans he) (by simp)
      · obtain rfl := Option.some.inj (he.symm.trans he')
        omega
    exact exec_checkHorizon_none him hk hdue

end Sys2Proof.Proofs

/-! ### Commands that only read (R103, R265, R276, R277, R302, R306) -/

namespace Sys2Proof.Proofs

open Machine Laws

/-! #### What mailboxes leave of the ports, the log and the result buffer -/

/-- The links of both ports stand in `t` as in `s`. -/
def SameLinks (s t : State) : Prop := ∀ q, (hostOf q t).state = (hostOf q s).state

theorem SameLinks.trans {s t u : State} (h : SameLinks s t) (k : SameLinks t u) : SameLinks s u := fun q => (k q).trans (h q)

theorem OnlyCauses.sameLinks {s t : State} (h : OnlyCauses s t) : SameLinks s t := fun q => by rw [h q]

theorem modHost_sameLinks {f : HostPort → HostPort} (hf : ∀ h, (f h).state = h.state) (p : HPort) (s : State) :
    SameLinks s (modHost p f s) := fun q => by
  by_cases hq : q = p
  · rw [hq, hostOf_modHost, hf]
  · rw [hostOf_modHost_ne hq]

theorem popEntry_sameLinks (mb : Mbox) (s : State) : SameLinks s (popEntry mb s) := by
  cases mb with
  | hostA => exact modHost_sameLinks (by intro; rfl) .a s
  | hostB => exact modHost_sameLinks (by intro; rfl) .b s
  | i3c => exact fun _ => rfl

theorem putCpl_sameLinks (mb : Mbox) (e : Bytes) (kind st d r f : Nat) (discard : Bool) (s : State) :
    SameLinks s (putCpl mb e kind st d r f discard s) := by
  unfold putCpl
  extract_lets u seq
  have hu : SameLinks s u := (logEv_onlyCauses _ _ _ _ _ _ s).sameLinks
  split
  · exact hu
  · split
    · exact hu
    next p _ =>
      extract_lets m n c v w
      have hw : SameLinks s w := hu.trans (modHost_sameLinks (by intro; rfl) p v)
      split
      · exact hw.trans (raiseIrq_onlyCauses _ _ w).sameLinks
      · split
        · exact hw.trans (raiseIrq_onlyCauses _ _ w).sameLinks
        · exact hw

/-- A completion entry brings its own event into the log and no other (R266). -/
theorem putCpl_log (mb : Mbox) (e : Bytes) (kind st d r f : Nat) (discard : Bool) (s : State) :
    (putCpl mb e kind st d r f discard s).log =
      (logEv 0x0003 (mboxUnit mb) (entOp e) (kind + 4 * b2n discard) st (entTag e) s).log := by
  unfold putCpl
  cases discard <;> cases mb <;> simp [mboxPort, apply_ite State.log]

theorem popEntry_i3c_buffer (mb : Mbox) (s : State) : (popEntry mb s).i3c.buffer = s.i3c.buffer := by
  cases mb <;> rfl

theorem putCpl_i3c_buffer (mb : Mbox) (e : Bytes) (kind st d r f : Nat) (discard : Bool) (s : State) :
    (putCpl mb e kind st d r f discard s).i3c.buffer = s.i3c.buffer := by
  cases mb with
  | hostA | hostB => rw [putCpl_port_i3c rfl]
  | i3c => cases discard <;> simp [putCpl, mboxPort]

/-- Refusing what is no command leaves the result buffer of the I3C target alone (R277). -/
theorem drain_i3c_buffer (mb : Mbox) (s : State) : (drain mb s).i3c.buffer = s.i3c.buffer := by
  unfold drain
  induction ringMost generalizing s with
  | zero => rfl
  | succ n ih =>
    unfold drainBad
    split
    next e _ =>
      split
      next hbad =>
        obtain ⟨hop, -⟩ := Bool.and_eq_true_iff.mp hbad
        rw [takeEntry_unknown hop, ih, refuse, putCpl_i3c_buffer, logEv_i3c, popEntry_i3c_buffer]
      next => rfl
    next => rfl

/-! #### A command that needs no lock -/

/-- A command that needs no lock, as the warden keeps it once it has started. -/
def freeCmd (mb : Mbox) (e : Bytes) (ext : EnvAnswer) (s : State) : Accepted :=
  { startedCmd mb e ext s with deadline := cmdDeadline false e s, locked := false }

theorem freeCmd_popEntry (mb : Mbox) (e : Bytes) (ext : EnvAnswer) (s : State) : freeCmd mb e ext (popEntry mb s) = freeCmd mb e ext s := by
  have hnow : (popEntry mb s).now = s.now := by cases mb <;> rfl
  have hwaits : waitsBoundary e (popEntry mb s) = waitsBoundary e s := by cases mb <;> rfl
  simp only [freeCmd, startedCmd, cmdDeadline_popEntry, hnow, hwaits]

/-- The warden keeps a command that it has accepted. -/
def keepFree (a : Accepted) (s : State) : State := { s with warden := { s.warden with accepted := s.warden.accepted ++ [a] } }

theorem keepFree_mailboxOnly (a : Accepted) (s : State) : MailboxOnly s (keepFree a s) := rfl

/-- The state in which such a command has been accepted: its ACCEPTED entry is written, and nothing else has happened. -/
def freeAccepted (mb : Mbox) (e : Bytes) (ext : EnvAnswer) (s : State) : State :=
  putCpl mb e 0 0 (cmdDeadline false e s) 0 0 false (keepFree { freeCmd mb e ext s with started := false } (popEntry mb s))

/-- A kept command is marked started. -/
def markStarted (a : Accepted) (s : State) : State :=
  { s with warden := { s.warden with accepted := replaceFirst { a with started := false } a s.warden.accepted } }

theorem markStarted_mailboxOnly (a : Accepted) (s : State) : MailboxOnly s (markStarted a s) := rfl

/-- The state in which it has been marked started. -/
def freeStarted (mb : Mbox) (e : Bytes) (ext : EnvAnswer) (s : State) : State := markStarted (freeCmd mb e ext s) (freeAccepted mb e ext s)

theorem freeAccepted_mailboxOnly (mb : Mbox) (e : Bytes) (ext : EnvAnswer) (s : State) : MailboxOnly s (freeAccepted mb e ext s) :=
  mailboxOnly_trans (mailboxOnly_trans (popEntry_mailboxOnly mb s) (keepFree_mailboxOnly _ _))
    (mailboxOnly_of_run (putCpl_run _ _ _ _ _ _ _ _ _ (.refl _ _) (by decide)))

theorem freeStarted_mailboxOnly (mb : Mbox) (e : Bytes) (ext : EnvAnswer) (s : State) : MailboxOnly s (freeStarted mb e ext s) :=
  mailboxOnly_trans (freeAccepted_mailboxOnly mb e ext s) (markStarted_mailboxOnly _ _)

theorem freeStarted_sameLinks (mb : Mbox) (e : Bytes) (ext : EnvAnswer) (s : State) : SameLinks s (freeStarted mb e ext s) :=
  (popEntry_sameLinks mb s).trans (putCpl_sameLinks mb e 0 0 (cmdDeadline false e s) 0 0 false
    (keepFree { freeCmd mb e ext s with started := false } (popEntry mb s)))

/-- The log as such a command finds it: the event of its own ACCEPTED entry is the newest one. -/
theorem freeStarted_log (mb : Mbox) (e : Bytes) (ext : EnvAnswer) (s : State) :
    (freeStarted mb e ext s).log = (logEv 0x0003 (mboxUnit mb) (entOp e) 0 0 (entTag e) s).log := by
  refine (putCpl_log ..).trans ?_
  rw [logEv_log, logEv_log]
  cases mb <;> rfl

theorem mem_replaceFirst {a : Accepted} {l : List Accepted} (h : a ∈ l) (b : Accepted) : b ∈ replaceFirst a b l := by
  induction l with
  | nil => exact absurd h List.not_mem_nil
  | cons x r ih =>
    unfold replaceFirst
    split
    · exact List.mem_cons_self
    next hx => exact List.mem_cons_of_mem x (ih ((List.mem_cons.mp h).resolve_left (Ne.symm hx)))

theorem freeCmd_mem_freeStarted (mb : Mbox) (e : Bytes) (ext : EnvAnswer) (s : State) :
    freeCmd mb e ext s ∈ (freeStarted mb e ext s).warden.accepted := by
  refine mem_replaceFirst ?_ _
  simp [freeAccepted, keepFree]

/-- Accepting such a command, without an effect at acceptance. -/
theorem accept_free {mb : Mbox} {e : Bytes} {row : CmdRow} (hrow : cmdRow (entOp e) = some row) (hlock : row.lock = false)
    (hplain : entOp e ∉ [0x0103, 0x0201, 0x0303, 0x0306]) (ext : EnvAnswer) (s : State) :
    accept mb e ext s = runOp (freeCmd mb e ext s) (markStarted (freeCmd mb e ext s)
      (putCpl mb e 0 0 (cmdDeadline false e s) 0 0 false (keepFree { freeCmd mb e ext s with started := false } s))) := by
  simp only [accept, hrow, Option.map_some, hlock, Option.getD_some, Bool.false_and, Bool.false_eq_true, if_false,
    acceptEffect_of_plain hplain]
  rfl

/-- A command that needs no lock and that nothing refuses, without an effect at acceptance, starts at once (R269). -/
theorem fromMailbox_starts_free {op : Nat} {mb : Mbox} {e : Bytes} {s : State} {row : CmdRow} (ho : Offered op mb e s)
    (hrow : cmdRow op = some row) (hlock : row.lock = false) (hplain : op ∉ [0x0103, 0x0201, 0x0303, 0x0306]) (ext : EnvAnswer) :
    fromMailbox op mb ext s = drain mb (runOp (freeCmd mb e ext s) (freeStarted mb e ext s)) := by
  obtain rfl : entOp e = op := ho.opcode
  rw [fromMailbox_of_waits ho.toWaits (by rw [hrow]; rfl), takeEntry, if_pos ho.granted, accept_free hrow hlock hplain, freeCmd_popEntry,
    cmdDeadline_popEntry]
  rfl

/-! #### A read at work, and how it ends -/

/-- The result buffer of the I3C target takes a result (R277). -/
def withBuffer (b : Bytes) (s : State) : State := { s with i3c := { s.i3c with buffer := b } }

theorem withBuffer_buffer (b : Bytes) (s : State) : (withBuffer b s).i3c.buffer = b := rfl

/-- In `w` the command is at work, and mailboxes alone have changed since `s`. -/
structure Reading (mb : Mbox) (e : Bytes) (ext : EnvAnswer) (s w : State) : Prop where
  only : MailboxOnly s w
  kept : freeCmd mb e ext s ∈ w.warden.accepted

section
variable {mb : Mbox} {e : Bytes} {ext : EnvAnswer} {dma : Bool} {s w : State}

theorem freeStarted_reading (mb : Mbox) (e : Bytes) (ext : EnvAnswer) (s : State) : Reading mb e ext s (freeStarted mb e ext s) :=
  ⟨freeStarted_mailboxOnly mb e ext s, freeCmd_mem_freeStarted mb e ext s⟩

theorem Reading.now (h : Reading mb e ext s w) : w.now = s.now := congr_mailboxOnly State.now h.only

theorem Reading.withBuffer (h : Reading mb e ext s w) (b : Bytes) : Reading mb e ext s (withBuffer b w) :=
  ⟨mailboxOnly_trans h.only rfl, h.kept⟩

theorem Reading.logsAccess (h : Reading mb e ext s w) (a : Nat) (who : Requester) (cause : Nat) :
    Reading mb e ext s (logAccess a who cause w) := by
  have hrun : Run [.out, .hostA, .hostB, .i3c, .seq, .log] w (logAccess a who cause w) := logAccess_run _ _ _ w (.refl _ w) (by decide)
  have hwarden : (logAccess a who cause w).warden = w.warden := hrun.same .warden rfl
  exact ⟨mailboxOnly_trans h.only (mailboxOnly_of_run hrun), hwarden ▸ h.kept⟩

theorem Reading.ends_finishAt (h : Reading mb e ext s w) (status result : Nat) :
    Ends mb e (cmdDeadline false e s) status result s (finishAt (freeCmd mb e ext s) status result w.now w) := by
  refine ⟨_, List.mem_map_of_mem h.kept, ?_⟩
  rw [if_pos (by simp [freeCmd, startedCmd]), h.now]
  exact ⟨rfl, rfl, rfl, rfl, rfl, rfl, rfl⟩

/-- A read that is finished. -/
theorem Reading.finishes (h : Reading mb e ext s w) (status result : Nat) :
    let t := drain mb (finish (freeCmd mb e ext s) status result w)
    MailboxOnly s t ∧ t.i3c.buffer = w.i3c.buffer ∧ Ends mb e (cmdDeadline false e s) status result s t :=
  ⟨mailboxOnly_trans (mailboxOnly_trans h.only (finishAt_mailboxOnly ..)) (drain_mailboxOnly ..), drain_i3c_buffer ..,
    holds_drain (h.ends_finishAt status result)⟩

/-- A result for a buffer in host memory (R265). -/
theorem Reading.deliversAt (h : Reading mb e (.dma dma) s w) (b : Bytes) (result : Nat) :
    let t := drain mb (deliverAt (freeCmd mb e (.dma dma) s) b result w.now w)
    MailboxOnly s t ∧
      if dma then .dataOut mb (entData e) b ∈ t.out ∧ Ends mb e (cmdDeadline false e s) 0 result s t
      else Ends mb e (cmdDeadline false e s) 9 0 s t := by
  refine ⟨mailboxOnly_trans (mailboxOnly_trans h.only (deliverAt_mailboxOnly ..)) (drain_mailboxOnly ..), ?_⟩
  cases dma with
  | false =>
    obtain ⟨-, -, hends⟩ := h.finishes 9 0
    exact hends
  | true =>
    have hemit : Reading mb e (.dma true) s (emit (.dataOut mb (entData e) b) w) := ⟨mailboxOnly_trans h.only rfl, h.kept⟩
    refine ⟨out_subset_drain ?_ mb, holds_drain (hemit.ends_finishAt 0 result)⟩
    simp [deliverAt, finishAt, emit, freeCmd, startedCmd]

/-- A whole result (R265, R277). -/
theorem Reading.deliversAll (h : Reading mb e (.dma dma) s w) (b : Bytes) :
    let t := drain mb (deliverAll (freeCmd mb e (.dma dma) s) b w)
    MailboxOnly s t ∧ Delivers mb e (cmdDeadline false e s) dma b s t := by
  have hmb : (freeCmd mb e (.dma dma) s).mb = mb := rfl
  unfold deliverAll Delivers
  by_cases hi : mb = .i3c
  · simp only [hmb, if_pos hi]
    exact (h.withBuffer _).finishes 0 _
  · simp only [hmb, if_neg hi]
    exact h.deliversAt _ _

end

/-! #### The operations -/

section
variable {i : Instr} {op : Nat} {mb : Mbox} {e : Bytes} {ext : EnvAnswer} {s : State}

/-- A command that needs no lock and whose operation is `f`, from its mailbox to the end of that operation. -/
theorem exec_reads {row : CmdRow} (hi : exec i s = .next (fromMailbox op mb ext s)) (ho : Offered op mb e s) (hrow : cmdRow op = some row)
    (hlock : row.lock = false) (hplain : op ∉ [0x0103, 0x0201, 0x0303, 0x0306]) {f : Accepted → State → State}
    (hf : ∀ a t, a.orphan = false → entOp a.entry = op → runOp a t = f a t) :
    exec i s = .next (drain mb (f (freeCmd mb e ext s) (freeStarted mb e ext s))) := by
  rw [hi, fromMailbox_starts_free ho hrow hlock hplain, hf _ _ rfl ho.opcode]

/-- A read that delivers a whole result. -/
theorem exec_readDelivers {dma : Bool} {b b' : Bytes} {deadline : Nat}
    (hexec : exec i s = .next (drain mb (deliverAll (freeCmd mb e (.dma dma) s) b' (freeStarted mb e (.dma dma) s))))
    (hb : b' = b) (hdeadline : cmdDeadline false e s = deadline) :
    ∃ t, exec i s = .next t ∧ MailboxOnly s t ∧ Delivers mb e deadline dma b s t := by
  subst hb hdeadline
  exact ⟨_, hexec, (freeStarted_reading mb e (.dma dma) s).deliversAll b'⟩

end

section
variable {mb : Mbox} {dma : Bool} {e : Bytes} {s : State}

/-- NOP. -/
theorem nop_effect (ho : Offered 0x0001 mb e s) :
    ∃ t, exec (.nop mb) s = .next t ∧ MailboxOnly s t ∧ Ends mb e (tideNow s + 1000000) 0 0 s t := by
  have hexec := exec_reads (ext := .none) (i := .nop mb) (f := fun a t => finish a 0 0 t) rfl ho rfl rfl (by decide)
    fun a t ha hop => by simp [runOp, readsData, ha, hop]
  obtain ⟨honly, -, hends⟩ := (freeStarted_reading mb e .none s).finishes 0 0
  have hdeadline : cmdDeadline false e s = tideNow s + 1000000 := by simp [cmdDeadline, ho.opcode, boundStart]
  exact ⟨_, hexec, honly, hdeadline ▸ hends⟩

/-- A word of Table 10.4 depends on no mailbox, log or output. -/
theorem statusWord_of_mailboxOnly {t : State} (h : MailboxOnly s t) (hl : SameLinks s t) (p : HPort) (off : Nat) :
    statusWord p off t = statusWord p off s := by
  obtain ⟨o, a, b, c, l, w, q, g, rfl⟩ : ∃ (o : List Out) (a b : HostPort) (c : I3c) (l : Lock) (w : Warden) (q : Nat) (g : List LogEntry),
      t = { s with out := o, hostA := a, hostB := b, i3c := c, lock := l,
                   warden := { s.warden with accepted := w.accepted, lockedDeadline := w.lockedDeadline }, seq := q, log := g } :=
    ⟨_, _, _, _, _, _, _, _, h⟩
  unfold statusWord
  split
  case h_10 =>
    have hA : a.state = s.hostA.state := hl .a
    have hB : b.state = s.hostB.state := hl .b
    simp only [hA, hB]
    rfl
  all_goals rfl

theorem identityCopy_of_mailboxOnly {t : State} (h : MailboxOnly s t) (hl : SameLinks s t) (p : HPort) : identityCopy p t = identityCopy p s := by
  have htide : tideNow t = tideNow s := congr_mailboxOnly tideNow h
  have hword := statusWord_of_mailboxOnly (s := { s with tideHi := BitVec.ofNat 32 (tideNow s / 2 ^ 32) })
    (t := { t with tideHi := BitVec.ofNat 32 (tideNow s / 2 ^ 32) })
    (congr_mailboxOnly (fun x => ({ x with tideHi := BitVec.ofNat 32 (tideNow s / 2 ^ 32) } : State)) h) hl p
  simp only [identityCopy, htide, hword]

theorem leBytes_length (n v : Nat) : (leBytes n v).length = n := by
  induction n generalizing v with
  | zero => rfl
  | succ n ih => simp [leBytes, ih]

theorem identityCopy_length (p : HPort) (s : State) : (identityCopy p s).length = 4096 := by
  have hwords : ∀ (n : Nat) (f : Nat → Nat), ((List.range n).flatMap fun i => leBytes 4 (f i)).length = n * 4 := by
    simp [List.length_flatMap, leBytes_length]
  exact hwords 1024 _

theorem runIdentify_i3c {a : Accepted} (h : a.mb = .i3c) (s : State) :
    runIdentify a s = finish a 0 4096 (withBuffer (identityCopy ((mboxPort a.mb).getD .a) s) s) := by
  rw [← identityCopy_length ((mboxPort a.mb).getD .a) s]
  exact if_pos h

theorem runIdentify_host {a : Accepted} (h : a.mb ≠ .i3c) (s : State) :
    runIdentify a s = deliverAll a (identityCopy ((mboxPort a.mb).getD .a) s) s := if_neg h

/-- IDENTIFY (Table 10.4). -/
theorem identify_effect (ho : Offered 0x0002 mb e s) :
    ∃ t, exec (.identify mb dma) s = .next t ∧ MailboxOnly s t ∧
      let b := identityCopy ((mboxPort mb).getD .a) s
      if mb = .i3c then t.i3c.buffer = b ∧ Ends mb e (tideNow s + 1000000) 0 4096 s t
      else Delivers mb e (tideNow s + 1000000) dma b s t := by
  have hexec := exec_reads (ext := .dma dma) (i := .identify mb dma) (f := runIdentify) rfl ho rfl rfl (by decide)
    fun a t ha hop => by simp [runOp, readsData, ha, hop]
  have hread := freeStarted_reading mb e (.dma dma) s
  have hcopy := identityCopy_of_mailboxOnly hread.only (freeStarted_sameLinks mb e (.dma dma) s) ((mboxPort mb).getD .a)
  have hmb : (freeCmd mb e (.dma dma) s).mb = mb := rfl
  have hdeadline : cmdDeadline false e s = tideNow s + 1000000 := by simp [cmdDeadline, ho.opcode, boundStart]
  rw [← hdeadline]
  by_cases hi : mb = .i3c
  · rw [runIdentify_i3c (hmb.trans hi), hmb, hcopy] at hexec
    obtain ⟨honly, hbuffer, hends⟩ := (hread.withBuffer (identityCopy ((mboxPort mb).getD .a) s)).finishes 0 4096
    refine ⟨_, hexec, honly, ?_⟩
    rw [if_pos hi]
    exact ⟨hbuffer.trans (withBuffer_buffer ..), hends⟩
  · rw [runIdentify_host (fun h => hi (hmb.symm.trans h)), hmb, hcopy] at hexec
    obtain ⟨honly, hdelivers⟩ := hread.deliversAll (identityCopy ((mboxPort mb).getD .a) s)
    exact ⟨_, hexec, honly, (if_neg hi).mpr hdelivers⟩

/-! #### Events -/

/-- What an EVENT_READ entry reads of a log: whole entries from its SEQ on, as many as it asks for and as fit (R276). -/
def readEvents (mb : Mbox) (e : Bytes) (log : List LogEntry) : List LogEntry :=
  (log.filter fun l => decide (arg e 0 8 ≤ l.seq)).reverse.take (if mb = .i3c then arg e 8 2 else min (arg e 8 2) (entLen e / 64))

theorem runEventRead_i3c {a : Accepted} (h : a.mb = .i3c) (s : State) :
    runEventRead a s =
      finish a 0 (readEvents a.mb a.entry s.log).length (withBuffer ((readEvents a.mb a.entry s.log).flatMap entryBytes) s) := if_pos h

theorem runEventRead_host {a : Accepted} (h : a.mb ≠ .i3c) (s : State) :
    runEventRead a s =
      deliverAt a ((readEvents a.mb a.entry s.log).flatMap entryBytes) (readEvents a.mb a.entry s.log).length s.now s := if_neg h

/-- The log holds its entries newest first (R275). -/
theorem log_descending (h : LogOk s) : s.log.Pairwise fun a b => b.seq < a.seq := by
  obtain ⟨-, hseq⟩ := h
  rw [List.pairwise_iff_getElem]
  intro i j hi hj hij
  have := hseq i hi
  have := hseq j hj
  omega

theorem readEvents_ascending (h : LogOk s) (mb : Mbox) (e : Bytes) : ((readEvents mb e s.log).map (·.seq)).Pairwise (· < ·) := by
  rw [List.pairwise_map]
  exact (List.pairwise_reverse.mpr ((log_descending h).filter _)).sublist (List.take_sublist _ _)

/-- EVENT_READ (R276, R277). -/
theorem eventRead_effect (ho : Offered 0x0004 mb e s) :
    ∃ t, exec (.eventRead mb dma) s = .next t ∧ MailboxOnly s t ∧
      let es := readEvents mb e (logEv 0x0003 (mboxUnit mb) 4 0 0 (entTag e) s).log
      (LogOk s → (es.map (·.seq)).Pairwise (· < ·)) ∧
      if mb = .i3c then t.i3c.buffer = es.flatMap entryBytes ∧ Ends mb e (tideNow s + 10000000) 0 es.length s t
      else if dma then .dataOut mb (entData e) (es.flatMap entryBytes) ∈ t.out ∧ Ends mb e (tideNow s + 10000000) 0 es.length s t
      else Ends mb e (tideNow s + 10000000) 9 0 s t := by
  have hexec := exec_reads (ext := .dma dma) (i := .eventRead mb dma) (f := runEventRead) rfl ho rfl rfl (by decide)
    fun a t ha hop => by simp [runOp, readsData, ha, hop]
  have hread := freeStarted_reading mb e (.dma dma) s
  have hmb : (freeCmd mb e (.dma dma) s).mb = mb := rfl
  have hevents : readEvents (freeCmd mb e (.dma dma) s).mb (freeCmd mb e (.dma dma) s).entry (freeStarted mb e (.dma dma) s).log =
      readEvents mb e (logEv 0x0003 (mboxUnit mb) 4 0 0 (entTag e) s).log := by
    rw [freeStarted_log, ho.opcode]
    rfl
  have hascending : LogOk s → _ := fun h => readEvents_ascending ((logEv_ports_run 0x0003 (mboxUnit mb) 4 0 0 (entTag e) s).log h) mb e
  have hdeadline : cmdDeadline false e s = tideNow s + 10000000 := by simp [cmdDeadline, ho.opcode, boundStart]
  rw [← hdeadline]
  generalize readEvents mb e (logEv 0x0003 (mboxUnit mb) 4 0 0 (entTag e) s).log = es at hevents hascending
  by_cases hi : mb = .i3c
  · rw [runEventRead_i3c (hmb.trans hi), hevents] at hexec
    obtain ⟨honly, hbuffer, hends⟩ := (hread.withBuffer (es.flatMap entryBytes)).finishes 0 es.length
    exact ⟨_, hexec, honly, hascending, (if_pos hi).mpr ⟨hbuffer, hends⟩⟩
  · rw [runEventRead_host (fun h => hi (hmb.symm.trans h)), hevents] at hexec
    obtain ⟨honly, hends⟩ := hread.deliversAt (es.flatMap entryBytes) es.length
    exact ⟨_, hexec, honly, hascending, (if_neg hi).mpr hends⟩

/-! #### Gauges, wear, the ledger, tensors -/

/-- GAUGE_READ (R103). -/
theorem gaugeRead_effect (ho : Offered 0x0003 mb e s) :
    ∃ t, exec (.gaugeRead mb dma) s = .next t ∧ MailboxOnly s t ∧
      Delivers mb e (tideNow s + 10000000) dma (Config.gaugeImage (arg e 0 1) (arg e 1 1) (gaugeValues (arg e 0 1) (arg e 1 1) s)) s t := by
  have hexec := exec_reads (ext := .dma dma) (i := .gaugeRead mb dma) (f := runGaugeRead) rfl ho rfl rfl (by decide)
    fun a t ha hop => by simp [runOp, readsData, ha, hop]
  have hvalues : gaugeValues (arg e 0 1) (arg e 1 1) (freeStarted mb e (.dma dma) s) = gaugeValues (arg e 0 1) (arg e 1 1) s :=
    congr_mailboxOnly (gaugeValues _ _) (freeStarted_mailboxOnly mb e (.dma dma) s)
  exact exec_readDelivers hexec (congrArg (Config.gaugeImage _ _) hvalues) (by simp [cmdDeadline, ho.opcode, boundStart])

/-- WEAR_REPORT (R306). -/
theorem wearReport_effect (ho : Offered 0x0005 mb e s) :
    ∃ t, exec (.wearReport mb dma) s = .next t ∧ MailboxOnly s t ∧ Delivers mb e (tideNow s + 100000000) dma (wearReport s) s t := by
  have hexec := exec_reads (ext := .dma dma) (i := .wearReport mb dma) (f := fun a t => deliverAll a (wearReport t) t) rfl ho rfl rfl (by decide)
    fun a t ha hop => by simp [runOp, readsData, ha, hop]
  exact exec_readDelivers hexec (congr_mailboxOnly wearReport (freeStarted_mailboxOnly mb e (.dma dma) s))
    (by simp [cmdDeadline, ho.opcode, boundStart])

/-- LEDGER_READ (R302). -/
theorem ledgerRead_effect (ho : Offered 0x0006 mb e s) :
    ∃ t, exec (.ledgerRead mb dma) s = .next t ∧ MailboxOnly s t ∧ Delivers mb e (tideNow s + 100000000) dma (ledgerCopy s) s t := by
  have hexec := exec_reads (ext := .dma dma) (i := .ledgerRead mb dma) (f := fun a t => deliverAll a (ledgerCopy t) t) rfl ho rfl rfl (by decide)
    fun a t ha hop => by simp [runOp, readsData, ha, hop]
  exact exec_readDelivers hexec (congr_mailboxOnly ledgerCopy (freeStarted_mailboxOnly mb e (.dma dma) s))
    (by simp [cmdDeadline, ho.opcode, boundStart])

/-- EXPORT, where the hub reaches the tensor and where it does not (log entry 67). -/
theorem exportTensor_effect {en : TensorEntry} (ho : Offered 0x0007 mb e s) (hen : tensorOf (arg e 0 4) (0x15 + arg e 4 1) s = some en) :
    ∃ t, exec (.exportTensor mb dma) s = .next t ∧ MailboxOnly s t ∧
      (stretchCause [stretchOf en] s = none →
        Delivers mb e (tideNow s + cdiv (entLen e) 50 + 10000000) dma (streamBytes s en) s t) ∧
      (stretchCause [stretchOf en] s ≠ none → Ends mb e (tideNow s + cdiv (entLen e) 50 + 10000000) 6 0 s t) := by
  have hexec := exec_reads (ext := .dma dma) (i := .exportTensor mb dma) (f := runExport) rfl ho rfl rfl (by decide)
    fun a t ha hop => by simp [runOp, readsData, ha, hop]
  have hread := freeStarted_reading mb e (.dma dma) s
  have hentry : (freeCmd mb e (.dma dma) s).entry = e := rfl
  have htensor : tensorOf (arg e 0 4) (0x15 + arg e 4 1) (freeStarted mb e (.dma dma) s) = some en :=
    (congr_mailboxOnly (tensorOf _ _) hread.only).trans hen
  have hcause : stretchCause [stretchOf en] (freeStarted mb e (.dma dma) s) = stretchCause [stretchOf en] s :=
    congr_mailboxOnly (stretchCause _) hread.only
  have hbytes : streamBytes (freeStarted mb e (.dma dma) s) en = streamBytes s en := congr_mailboxOnly (streamBytes · en) hread.only
  have hdeadline : cmdDeadline false e s = tideNow s + cdiv (entLen e) 50 + 10000000 := by simp [cmdDeadline, ho.opcode, boundStart]
  rw [← hdeadline]
  simp only [runExport, hentry, htensor, withStretches, hcause, hbytes] at hexec
  cases hc : stretchCause [stretchOf en] s with
  | none =>
    rw [hc] at hexec
    obtain ⟨honly, hdelivers⟩ := hread.deliversAll (streamBytes s en)
    exact ⟨_, hexec, honly, fun _ => hdelivers, fun hne => absurd rfl hne⟩
  | some x =>
    rw [hc] at hexec
    obtain ⟨honly, -, hends⟩ := (hread.logsAccess x.1 .hub x.2).finishes 6 0
    exact ⟨_, hexec, honly, fun hnone => absurd hnone (Option.some_ne_none x), fun _ => hends⟩

end

/-- Settles O23: each command by its operation in the state in which it has started, `fromMailbox_starts_free`, which reads what mailboxes
do not change, and by how a read ends, `Reading.finishes` and `Reading.deliversAll`. -/
theorem readingCommands : Obligations.ReadingCommands := by
  unfold Obligations.ReadingCommands
  exact ⟨fun mb dma e s => ⟨nop_effect, identify_effect, eventRead_effect⟩,
    fun mb dma e s => ⟨gaugeRead_effect, wearReport_effect, ledgerRead_effect, fun en ho hen => exportTensor_effect ho hen⟩⟩

end Sys2Proof.Proofs

/-! ### The inspection of cores (R160, R299 to R301) -/

namespace Sys2Proof.Proofs

open Machine Laws

/-! #### Cores that are mapped out stay so -/

theorem coreOf_congr {s t : State} (h : t.cores = s.cores) (d c : Nat) : coreOf d c t = coreOf d c s := by
  simp only [coreOf, h]

theorem find?_putCore_ne {k : Core} {d c : Nat} (h : ¬(k.die = d ∧ k.core = c)) (l : List Core) :
    (putCore k l).find? (fun x => x.die == d && x.core == c) = l.find? fun x => x.die == d && x.core == c := by
  have hk : (k.die == d && k.core == c) = false := by simpa using h
  induction l with
  | nil => simp [putCore, hk]
  | cons x r ih =>
    unfold putCore
    split
    next hx =>
      have hxk : (x.die == d && x.core == c) = false := by rw [hx.1, hx.2, hk]
      rw [List.find?_cons_of_neg (by simp [hk]), List.find?_cons_of_neg (by simp [hxk])]
    next => rw [List.find?_cons, List.find?_cons, ih]

/-- A change of a core that keeps whose record it is and whether it is mapped out keeps which cores are. -/
theorem coreOf_modCore_mapped {d c : Nat} {f : Core → Core} (s : State) (hd : ∀ k, (f k).die = k.die) (hc : ∀ k, (f k).core = k.core)
    (hm : ∀ k, (f k).mapped = k.mapped) (d' c' : Nat) : (coreOf d' c' (modCore d c f s)).mapped = (coreOf d' c' s).mapped := by
  by_cases h : d = d' ∧ c = c'
  · obtain ⟨rfl, rfl⟩ := h
    rw [coreOf_modCore s hd hc, hm]
  · obtain ⟨hdie, hcore⟩ := coreOf_ids d c s
    rw [coreOf, modCore_cores, find?_putCore_ne (by rwa [hd, hc, hdie, hcore]), coreOf]

/-- The two states agree on which cores are mapped out. -/
def SameMapped (s t : State) : Prop := ∀ d c, (coreOf d c t).mapped = (coreOf d c s).mapped

theorem SameMapped.of_cores {s t : State} (h : t.cores = s.cores) : SameMapped s t := fun d c => by rw [coreOf_congr h]

theorem SameMapped.trans {s t u : State} (h : SameMapped s t) (k : SameMapped t u) : SameMapped s u := fun d c => (k d c).trans (h d c)

theorem SameMapped.foldl {α : Type} {f : State → α → State} (hf : ∀ s a, SameMapped s (f s a)) (l : List α) (s : State) :
    SameMapped s (l.foldl f s) := by
  induction l generalizing s with
  | nil => exact .of_cores rfl
  | cons a l ih => exact (hf s a).trans (ih _)

theorem dropOutst_sameMapped (k : Requester × Nat) (s : State) : SameMapped s (dropOutst k s) := by
  obtain ⟨who, id⟩ := k
  cases who with
  | core d c th => exact coreOf_modCore_mapped s (fun _ => rfl) (fun _ => rfl) fun _ => rfl
  | update | hub | host | guest => exact .of_cores rfl

theorem sendAck_sameMapped (i : Fin 32) (a : WAck) (s : State) : SameMapped s (sendAck i a s) := by
  unfold sendAck
  cases a.key with
  | none => exact .of_cores rfl
  | some k => exact .trans (t := dropOutst k (leaveBanks i k s)) (dropOutst_sameMapped k (leaveBanks i k s)) (.of_cores rfl)

theorem releaseAcks_sameMapped (i : Fin 32) (f : Nat → Bool) (s : State) : SameMapped s (releaseAcks i f s) :=
  .trans (.of_cores rfl) (.foldl (fun s (h : HeldAck) => sendAck_sameMapped i h.ack s) _ _)

theorem dropWatches_sameMapped (f : Watch → Bool) (s : State) : SameMapped s (dropWatches f s) := by
  refine .foldl (fun s i => ?_) _ s
  dsimp only
  split
  · exact .of_cores rfl
  · exact .trans (.of_cores rfl) (releaseAcks_sameMapped i _ _)

theorem abandonTasks_sameMapped (s : State) : SameMapped s (abandonTasks s) := by
  have h := dropWatches_sameMapped (fun _ => true) s
  unfold abandonTasks
  generalize dropWatches (fun _ => true) s = x at h
  exact h

/-- A failure of the package abandons tasks; which cores are mapped out stays. -/
theorem failPackage_sameMapped (code status fault : Nat) (s : State) : SameMapped s (failPackage code status fault s) := by
  have hset : ∀ x, SameMapped x (overtake status fault (setJob .failed x)) := fun x =>
    .of_cores ((overtake_run (flds := [.out, .hostA, .hostB, .warden, .seq, .log, .job, .twin]) status fault _
      (setJob_run .failed x (.refl _ x) (by decide)) (by decide)).same .cores rfl)
  have hpeer : SameMapped s (noteFailure (peerBcast 0x8020 s.job.cstep (failArgs (logId s) code s.job.cstep) s)) :=
    .of_cores ((noteFailure_run (flds := [.out, .fabric, .twin]) _ (peerBcast_run _ _ _ s (.refl _ s) (by decide)) (by decide)).same
      .cores rfl)
  have hrest : ∀ x, SameMapped x (overtake status fault (setJob .failed (abandonTasks (abortSlot x)))) := fun x =>
    (abandonTasks_sameMapped (abortSlot x)).trans (hset _)
  unfold failPackage
  split
  · exact .of_cores rfl
  · exact .of_cores rfl
  · exact hrest s
  · exact hpeer.trans (hrest _)


/-! #### A core that is mapped out -/

/-- What the bookkeeping after a map-out keeps: which cores are mapped out, package memory, and that no inspection slot is open. -/
structure Retires (s t : State) : Prop where
  cores : SameMapped s t
  mem : t.mem = s.mem
  slot : s.inspect.slot = none → t.inspect.slot = none
  seq : s.seq ≤ t.seq

theorem Retires.trans {s t u : State} (h : Retires s t) (k : Retires t u) : Retires s u :=
  ⟨h.cores.trans k.cores, k.mem.trans h.mem, fun hs => k.slot (h.slot hs), h.seq.trans k.seq⟩

theorem Retires.of_run {s t : State} (h : Run [.out, .hostA, .hostB, .seq, .log, .dies, .coreStore, .flash] s t) : Retires s t where
  cores := .of_cores (h.same .cores rfl)
  mem := h.same .mem rfl
  slot hs := (congrArg Inspect.slot (h.same .inspect rfl : t.inspect = s.inspect)).trans hs
  seq := h.seq

theorem modDie_retires (d : Fin 4) (f : Die → Die) (s : State) : Retires s (modDie d f s) :=
  .of_run (modDie_run d f s (.refl _ s) (by decide))

theorem abortSlot_slot (s : State) : (abortSlot s).inspect.slot = none := rfl

theorem failPackage_slot (code status fault : Nat) (s : State) (h : s.inspect.slot = none) :
    (failPackage code status fault s).inspect.slot = none := by
  have hrest : ∀ x, (overtake status fault (setJob .failed (abandonTasks (abortSlot x)))).inspect.slot = none := fun x =>
    (congrArg Inspect.slot ((overtake_run (flds := [.out, .hostA, .hostB, .warden, .seq, .log, .job, .exec, .cores, .memStacks, .twin])
      status fault _ (setJob_run .failed _ (abandonTasks_run _ (.refl _ _) (by decide)) (by decide)) (by decide)).same .inspect rfl :)).trans
      (abortSlot_slot x)
  unfold failPackage
  split
  · exact h
  · exact h
  · exact hrest _
  · exact hrest _

theorem failHere_retires (code : Nat) (s : State) : Retires s (failHere code s) :=
  have hrun := failHere_run (flds := [.out, .hostA, .hostB, .warden, .seq, .log, .job, .exec, .cores, .memStacks, .fabric, .twin, .inspect])
    code s (.refl _ s) (by decide)
  ⟨failPackage_sameMapped _ _ _ s, hrun.same .mem rfl, failPackage_slot _ _ _ s, hrun.seq⟩

/-- The same, with an event in the log. -/
def RetiresLogged (s t : State) : Prop := Retires s t ∧ s.seq < t.seq

theorem Retires.trans_logged {s t u : State} (h : Retires s t) (k : RetiresLogged t u) : RetiresLogged s u :=
  ⟨h.trans k.1, Nat.lt_of_le_of_lt h.seq k.2⟩

theorem RetiresLogged.trans {s t u : State} (h : RetiresLogged s t) (k : Retires t u) : RetiresLogged s u :=
  ⟨h.1.trans k, Nat.lt_of_lt_of_le h.2 k.seq⟩

/-- The record of a map-out: a line of the repair ledger, and event 0x0021. -/
theorem mapOutRecord_retires (unit d0 d1 d2 d3 srce : Nat) (v : Bytes) (s : State) :
    RetiresLogged s (logEv 0x0021 unit d0 d1 d2 d3 (ledgerAppend 0x01 srce d0 d1 v s)) := by
  have hledger := ledgerAppend_run (flds := [.flash]) 0x01 srce d0 d1 v s (.refl _ s) (by decide)
  refine ⟨.of_run (logEv_run _ _ _ _ _ _ _ (hledger.mono (by decide)) (by decide)), ?_⟩
  rw [logEv_seq]
  exact Nat.lt_succ_of_le hledger.seq

theorem mapOut_retires (d : Fin 4) (c srce : Nat) (s : State) :
    RetiresLogged (modCore d.val c (fun k => { k with mapped := true }) s) (mapOut d c srce s) := by
  unfold mapOut
  extract_lets s0 s1 relief isSpare s2
  have h2 : Retires s1 s2 := by
    subst s2
    split
    · exact modDie_retires _ _ _
    · exact .of_run (.refl _ _)
  have recorded : ∀ v d3 t, Retires (logEv 0x0021 (unitWord 1 d.val c) d.val c 1 d3 (ledgerAppend 0x01 srce d.val c v s2)) t →
      RetiresLogged s1 t := fun v d3 t => (h2.trans_logged (mapOutRecord_retires _ _ _ _ _ _ _ _)).trans
  have waits : ∀ u (i : Inspect), (u.inspect.slot = none → i.slot = none) → Retires u { u with inspect := i } := fun u i h =>
    ⟨.of_cores rfl, rfl, h, Nat.le_refl _⟩
  clear_value relief s2
  split
  · refine recorded (leBytes 4 c) (relief.getD 0) _ ?_
    split
    · exact modDie_retires _ _ _
    · exact .of_run (.refl _ _)
  · cases relief with
    | none =>
      refine recorded (leBytes 4 c) 0 _ ?_
      dsimp only
      split
      · exact waits _ _ id
      · exact failHere_retires _ _
    | some r =>
      refine recorded (leBytes 4 r) r _ ?_
      dsimp only
      split
      · exact waits _ _ fun _ => rfl
      · exact (Retires.of_run (handTo_run d _ _ _ (.refl _ _) (by decide))).trans (modDie_retires _ _ _)

/-! #### A slot -/

/-- The inspection record after a slot start that takes core `c` of die `d`, before the slot is placed. -/
def walkOn (d : Fin 4) (c : Nat) (s : State) : Inspect :=
  { s.inspect with nextDie := (d.val + 1) % 4, lastStart := s.now, lastCore := s.inspect.lastCore.set d (some c) }

/-- Where the slot of core `c` of die `d` goes: nowhere while the die's relief core is still to be enabled, to a boundary where the job needs
the core and a relief core is free, and else it opens at once (R160, R300). -/
def placeSlot (d : Fin 4) (c : Nat) (s : State) : Inspect :=
  if s.dies[d].pendingRelief then { walkOn d c s with lastCore := s.inspect.lastCore }
  else if running s && (logicalOf d c s).isSome && s.dies[d].relief != some c then
    if (reliefFree d.val s).isNone then walkOn d c s else { walkOn d c s with due := some (d.val, c) }
  else { walkOn d c s with slot := some (d.val, c), since := s.now, lc := none }

theorem exec_inspectionSlotStart {d : Fin 4} {c : Nat} {s : State} (hdue : slotDue s = true) (hd : s.inspect.nextDie = d.val)
    (hc : nextCore d s = some c) (hr : s.dies[d].inReset = false) :
    exec .inspectionSlotStart s = .next { s with inspect := placeSlot d c s } := by
  have hfin : Fin.ofNat 4 d.val = d := Fin.ofNat_val_eq_self d
  show Host.Outcome.next (if slotDue s then startSlot s else s) = _
  rw [if_pos hdue]
  refine congrArg Host.Outcome.next ?_
  simp only [startSlot, hd, hfin, hc, hr, Bool.false_eq_true, if_false, placeSlot, walkOn,
    apply_ite fun i => ({ s with inspect := i } : State)]

theorem slotDue_none {s : State} (h : slotDue s = true) : s.inspect.slot = none ∧ s.inspect.due = none := by
  simp only [slotDue, Bool.and_eq_true, Option.isNone_iff_eq_none] at h
  exact ⟨h.1.1.2, h.1.2⟩

theorem placeSlot_walk (d : Fin 4) (c : Nat) (s : State) :
    (placeSlot d c s).nextDie = (d.val + 1) % 4 ∧ (placeSlot d c s).lastStart = s.now := by
  unfold placeSlot
  split
  · exact ⟨rfl, rfl⟩
  · split
    · split <;> exact ⟨rfl, rfl⟩
    · exact ⟨rfl, rfl⟩

theorem placeSlot_lastCore {d : Fin 4} {s : State} (c : Nat) (h : s.dies[d].pendingRelief = false) :
    (placeSlot d c s).lastCore[d] = some c := by
  have hset : (walkOn d c s).lastCore[d] = some c := Vector.getElem_set_self d.isLt
  simp only [placeSlot, h, Bool.false_eq_true, if_false]
  split
  · split <;> exact hset
  · exact hset

theorem placeSlot_open {d : Fin 4} {c : Nat} {s : State} (h : s.dies[d].pendingRelief = false)
    (hfree : s.job.state ≠ .running ∨ logicalOf d c s = none ∨ s.dies[d].relief = some c) :
    placeSlot d c s = { walkOn d c s with slot := some (d.val, c), since := s.now, lc := none } := by
  have hno : (running s && (logicalOf d c s).isSome && s.dies[d].relief != some c) = false := by
    rcases hfree with h | h | h <;> simp [running, h, -Fin.getElem_fin]
  simp only [placeSlot, h, hno, Bool.false_eq_true, if_false]

theorem placeSlot_waits {d : Fin 4} {c : Nat} {s : State} (h : s.dies[d].pendingRelief = false) (hrun : s.job.state = .running)
    (hlog : (logicalOf d c s).isSome = true) (hrel : s.dies[d].relief ≠ some c) :
    placeSlot d c s = if (reliefFree d.val s).isNone then walkOn d c s else { walkOn d c s with due := some (d.val, c) } := by
  have hyes : (running s && (logicalOf d c s).isSome && s.dies[d].relief != some c) = true := by
    simp [running, hrun, hlog, -Fin.getElem_fin, hrel]
  simp only [placeSlot, h, hyes, Bool.false_eq_true, if_false, if_true]

theorem exec_inspectionSlotEnd {res : ScanResult} {d c : Nat} {s : State} (hs : s.inspect.slot = some (d, c))
    (hlong : s.inspect.since + 180000000 ≤ s.now) :
    exec (.inspectionSlotEnd res) s = .next (endSlot d c (decide (res.tests ≠ 0)) s) := by
  show execInspectionSlotEnd res s = _
  simp only [execInspectionSlotEnd, hs, if_pos hlong]

theorem endSlot_passed {s : State} (d c : Nat) (h : s.inspect.lc = none) :
    endSlot d c false s = { s with inspect := { s.inspect with slot := none, lc := none } } := by
  unfold endSlot
  simp only [h]

theorem endSlot_passed_returns {l : Nat} {s : State} (d c : Nat) (h : s.inspect.lc = some l) :
    endSlot d c false s = { s with inspect := { s.inspect with slot := none, lc := none, back := some (d, l, c) } } := by
  unfold endSlot
  simp only [h]

/-- A core that failed a test leaves service, and its slot is over. -/
theorem endSlot_failed {d : Nat} (hd : d < 4) (c : Nat) (s : State) :
    let t := endSlot d c true s
    (coreOf d c t).mapped = true ∧ t.inspect.slot = none ∧ s.seq < t.seq ∧ t.mem = s.mem := by
  have hval : (Fin.ofNat 4 d).val = d := Nat.mod_eq_of_lt hd
  have marked : ∀ u t : State, u.inspect.slot = none → u.seq = s.seq → u.mem = s.mem →
      RetiresLogged (modCore d c (fun k => { k with mapped := true }) u) t →
      (coreOf d c t).mapped = true ∧ t.inspect.slot = none ∧ s.seq < t.seq ∧ t.mem = s.mem := by
    intro u t hslot hseq hmem ⟨h, hlog⟩
    refine ⟨?_, h.slot hslot, hseq ▸ hlog, h.mem.trans hmem⟩
    rw [h.cores, coreOf_modCore (f := fun k => { k with mapped := true }) u (fun _ => rfl) fun _ => rfl]
  intro t
  subst t
  unfold endSlot
  extract_lets lc i u
  refine marked u _ rfl rfl rfl ?_
  clear_value lc
  cases lc with
  | none =>
    have h := mapOut_retires (Fin.ofNat 4 d) c 3 u
    rwa [hval] at h
  | some l =>
    dsimp only
    exact (modDie_retires _ _ _).trans_logged (mapOutRecord_retires _ _ _ _ _ _ _ _)

/-- Settles O59: a slot start through `placeSlot`, a slot end through `endSlot_passed`,
`endSlot_passed_returns` and `endSlot_failed`. -/
theorem inspectionWalk : Obligations.InspectionWalk := by
  unfold Obligations.InspectionWalk
  refine fun s => ⟨fun d c hdue hd hc hr => ?_, fun res d c hs hlong hd => ?_⟩
  · obtain ⟨hslot, hnodue⟩ := slotDue_none hdue
    obtain ⟨hdie, hstart⟩ := placeSlot_walk d c s
    refine ⟨_, exec_inspectionSlotStart hdue hd hc hr, rfl, hdie, hstart, fun hp => ?_, placeSlot_lastCore c, fun hp hfree => ?_,
      fun hp hrun hlog hrel => ?_⟩
    · simp [placeSlot, hp, walkOn, hslot, hnodue, -Fin.getElem_fin]
    · dsimp only
      rw [placeSlot_open hp hfree]
      exact ⟨rfl, rfl, rfl⟩
    · dsimp only
      rw [placeSlot_waits hp hrun hlog hrel]
      cases reliefFree d.val s <;> simp [walkOn, hslot, hnodue]
  · refine ⟨_, exec_inspectionSlotEnd hs hlong, fun hres hlc => ?_, fun l hres hlc => ?_, fun hres => ?_⟩
    · rw [decide_eq_false (not_not_intro hres), endSlot_passed d c hlc]
    · rw [decide_eq_false (not_not_intro hres), endSlot_passed_returns d c hlc]
    · rw [decide_eq_true hres]
      exact endSlot_failed hd c s

end Sys2Proof.Proofs

/-! ### Breach and late notices (R154, R244, R245) -/

namespace Sys2Proof.Proofs

open Machine Laws

/-! #### Interrupt causes stay raised -/

/-- Every interrupt cause that is raised in `s` is raised in `t`. -/
def KeepsCauses (s t : State) : Prop := ∀ p v, (hostOf p s).irqst.getLsbD v = true → (hostOf p t).irqst.getLsbD v = true

theorem KeepsCauses.refl (s : State) : KeepsCauses s s := fun _ _ => id

theorem KeepsCauses.trans {s t u : State} (h : KeepsCauses s t) (k : KeepsCauses t u) : KeepsCauses s u := fun p v hv => k p v (h p v hv)

theorem KeepsCauses.of_run {flds : List StateField} {s t : State} (h : Run flds s t) (ha : flds.contains .hostA = false)
    (hb : flds.contains .hostB = false) : KeepsCauses s t := by
  have hostA : t.hostA = s.hostA := h.same .hostA ha
  have hostB : t.hostB = s.hostB := h.same .hostB hb
  intro p v hv
  cases p with
  | a => rw [hostOf, hostA]; exact hv
  | b => rw [hostOf, hostB]; exact hv

theorem KeepsCauses.ite {c : Prop} [Decidable c] {s t u : State} (ht : KeepsCauses s t) (hu : KeepsCauses s u) :
    KeepsCauses s (if c then t else u) := by
  split
  · exact ht
  · exact hu

theorem KeepsCauses.foldl {α : Type} {f : State → α → State} (hf : ∀ s a, KeepsCauses s (f s a)) (l : List α) (s : State) :
    KeepsCauses s (l.foldl f s) := by
  induction l generalizing s with
  | nil => exact .refl s
  | cons a l ih => exact (hf s a).trans (ih _)

theorem modHost_keepsCauses {f : HostPort → HostPort} (hf : ∀ h v, h.irqst.getLsbD v = true → (f h).irqst.getLsbD v = true) (q : HPort)
    (s : State) : KeepsCauses s (modHost q f s) := by
  intro p v hv
  by_cases hpq : p = q
  · subst hpq
    rw [hostOf_modHost]
    exact hf _ v hv
  · rw [hostOf_modHost_ne hpq]
    exact hv

theorem raiseIrq_keepsCauses (p : HPort) (v : Nat) (s : State) : KeepsCauses s (raiseIrq p v s) :=
  have hset : KeepsCauses s (modHost p (fun h => { h with irqst := h.irqst ||| BitVec.ofNat 4 (2 ^ v) }) s) :=
    modHost_keepsCauses (fun h v hv => by simp [hv]) p s
  .ite hset hset

theorem logAt_keepsCauses (step code unit d0 d1 d2 d3 : Nat) (s : State) : KeepsCauses s (logAt step code unit d0 d1 d2 d3 s) := by
  unfold logAt
  extract_lets e s1 s2
  have h2 : KeepsCauses s s2 := .ite (raiseIrq_keepsCauses _ _ s1) (.refl s1)
  exact .ite (h2.trans (raiseIrq_keepsCauses _ _ s2)) h2

theorem logEv_keepsCauses (code unit d0 d1 d2 d3 : Nat) (s : State) : KeepsCauses s (logEv code unit d0 d1 d2 d3 s) :=
  logAt_keepsCauses _ _ _ _ _ _ _ s

theorem logAccess_keepsCauses (a : Nat) (who : Requester) (cause : Nat) (s : State) : KeepsCauses s (logAccess a who cause s) :=
  logEv_keepsCauses _ _ _ _ _ _ s

theorem putCpl_keepsCauses (mb : Mbox) (e : Bytes) (kind st d r f : Nat) (discard : Bool) (s : State) :
    KeepsCauses s (putCpl mb e kind st d r f discard s) := by
  unfold putCpl
  extract_lets s1 seq
  have h1 : KeepsCauses s s1 := logEv_keepsCauses _ _ _ _ _ _ s
  refine .ite h1 ?_
  split
  · exact h1
  · extract_lets m n b s2 s3
    have h2 : KeepsCauses s s2 := h1
    have h3 : KeepsCauses s s3 := h2.trans (modHost_keepsCauses (fun h v hv => by exact hv) _ s2)
    clear_value s3
    exact .ite (h3.trans (raiseIrq_keepsCauses _ _ s3)) (.ite (h3.trans (raiseIrq_keepsCauses _ _ s3)) h3)

theorem extendCommands_keepsCauses (delta code : Nat) (s : State) : KeepsCauses s (extendCommands delta code s) := by
  unfold extendCommands
  extract_lets ext w s1
  exact .ite (.refl s) (.foldl (fun t a => putCpl_keepsCauses _ _ _ _ _ _ _ _ t) ext s1)

theorem takeNotice_keepsCauses (n : Notice) (s : State) : KeepsCauses s (takeNotice n s) := by
  unfold takeNotice
  extract_lets before src s1 d job exec twin s2
  have h2 : KeepsCauses s s2 := .ite (fun _ _ hv => hv) (fun _ _ hv => hv)
  exact .ite (h2.trans (extendCommands_keepsCauses _ _ s2)) h2

theorem logNotice_keepsCauses (breach : Bool) (step da amount code origin task red : Nat) (s : State) :
    KeepsCauses s (logNotice breach step da amount code origin task red s) :=
  .ite (logAt_keepsCauses _ _ _ _ _ _ _ s) (logAt_keepsCauses _ _ _ _ _ _ _ s)

theorem ptrWrite_keepsCauses (at_ : Place) (p off : Nat) (data : Bytes) (s : State) : KeepsCauses s (ptrWrite at_ p off data s) :=
  .of_run (ptrWrite_run (flds := [.out, .coreStore, .memStacks, .mem]) at_ p off data s (.refl _ s) (by decide)) rfl rfl

theorem landPiece_keepsCauses (r : PlanEntry) (step : Nat) (p : Piece) (s : State) : KeepsCauses s (landPiece r step p s) := by
  unfold landPiece
  extract_lets off bs
  split
  · exact logAccess_keepsCauses _ _ _ s
  · exact ptrWrite_keepsCauses _ _ _ _ s

/-- What the collective engine sends and keeps leaves the host ports alone. -/
theorem KeepsCauses.of_engine {s t : State} (h : Run [.out, .exec, .fabric] s t) : KeepsCauses s t := .of_run h rfl rfl

theorem finishPiece_keepsCauses (r : PlanEntry) (step : Nat) (p : Piece) (s : State) : KeepsCauses s (finishPiece r step p s) := by
  unfold finishPiece
  extract_lets s1 q s2 ls
  have h1 : KeepsCauses s s1 := landPiece_keepsCauses r step p s
  have h2 : KeepsCauses s s2 := h1
  exact h2.trans (.of_engine (checkEnd_run r step _ (runScale_run r step _ (gatherOn_run r step p _ s2 (.refl _ s2) (by decide)) (by decide))
    (by decide)))

theorem ownItem_keepsCauses (r : PlanEntry) (step : Nat) (p : Piece) (s : State) : KeepsCauses s (ownItem r step p s) := by
  unfold ownItem
  extract_lets ls q
  exact (landPiece_keepsCauses r step q s).trans
    (.of_engine (checkEnd_run r step _ (gatherOn_run r step q _ _ (.refl _ _) (by decide)) (by decide)))

theorem resendOwn_keepsCauses (r : PlanEntry) (step : Nat) (s : State) : KeepsCauses s (resendOwn r step s) := by
  unfold resendOwn
  exact .ite (.foldl (fun t p => ownItem_keepsCauses r step p t) _ s)
    (.ite (.foldl (fun t p => finishPiece_keepsCauses r step p t) _ s) (.of_engine (sendRound0_run r step 0 s (.refl _ s) (by decide))))

theorem withdraw_keepsCauses (r : PlanEntry) (step : Nat) (keep : Bool) (s : State) : KeepsCauses s (withdraw r step keep s) := by
  unfold withdraw
  extract_lets q n s1
  have h1 : KeepsCauses s s1 := by
    subst s1
    split
    · exact logAccess_keepsCauses _ _ _ s
    · exact ptrWrite_keepsCauses _ _ _ _ s
  exact h1

theorem applyBreach_keepsCauses (step : Nat) (ts rs : List Nat) (s : State) : KeepsCauses s (applyBreach step ts rs s) := by
  unfold applyBreach
  split
  · exact .refl s
  · have hdiscard : ∀ step ts u, KeepsCauses u (discardRuns step ts u) := fun step ts u =>
      .of_run (discardRuns_run (flds := [.out, .exec, .cores, .memStacks]) step ts u (.refl _ u) (by decide)) rfl rfl
    refine ((hdiscard _ _ s).trans (hdiscard _ _ _)).trans (.foldl (fun t r => .ite ?_ (.refl t)) _ _)
    exact .ite (withdraw_keepsCauses _ _ _ t) ((withdraw_keepsCauses _ _ _ t).trans (resendOwn_keepsCauses _ _ _))

theorem resendVerdict_run_ports (im : JobImage) (step : Nat) (s : State) : Run [.out, .fabric] s (resendVerdict im step s) :=
  resendVerdict_run im step s (.refl _ s) (by decide)

theorem remoteBreach_keepsCauses (im : JobImage) (step task red : Nat) (s : State) : KeepsCauses s (remoteBreach im step task red s) :=
  .ite (.of_run (resendVerdict_run_ports im step s) rfl rfl) (.ite (applyBreach_keepsCauses _ _ _ s) (applyBreach_keepsCauses _ _ _ s))

theorem remoteBreach_notices {im : JobImage} {s : State} (him : s.job.image = some im) (step task red : Nat) :
    (remoteBreach im step task red s).exec.notices = s.exec.notices := by
  unfold remoteBreach
  split
  · exact congrArg Exec.notices ((resendVerdict_run_ports im step s).same .exec rfl)
  · split
    · exact applyBreach_notices him _ _ _
    · exact applyBreach_notices him _ _ _

/-! #### A notice that is taken in -/

/-- The notice that a message carries (Table 9.7). -/
def noticeOf (breach : Bool) (m : Msg) : Notice :=
  { breach := breach, step := m.step, src := m.src, nseq := field m.payload 28 2, da := field m.payload 0 8,
    amount := field m.payload 8 8, code := field m.payload 16 1, task := field m.payload 20 4 }

/-- A package once a new notice has been sent on, announced to the hosts, logged and counted for its step. -/
def noted (breach : Bool) (p : FPort) (m : Msg) (s : State) : State :=
  takeNotice (noticeOf breach m)
    (logNotice breach m.step (field m.payload 0 8) (field m.payload 8 8) (field m.payload 16 1) (field m.payload 18 2)
      (field m.payload 20 4) (field m.payload 24 4) (raiseBoth 3 (bcastForward p m s)))

/-- The notice interrupt of both ports. -/
def Rung (t : State) : Prop := t.hostA.irqst.getLsbD 3 = true ∧ t.hostB.irqst.getLsbD 3 = true

theorem Rung.keeps {s t : State} (h : Rung s) (k : KeepsCauses s t) : Rung t := ⟨k .a 3 h.1, k .b 3 h.2⟩

theorem raiseIrq_raises (p : HPort) (s : State) : (hostOf p (raiseIrq p 3 s)).irqst.getLsbD 3 = true := by
  unfold raiseIrq
  extract_lets h t
  have ht : (hostOf p t).irqst.getLsbD 3 = true := by simp [t]
  split
  · exact ht
  · exact ht

theorem raiseBoth_rung (s : State) : Rung (raiseBoth 3 s) :=
  ⟨raiseIrq_keepsCauses .b 3 _ .a 3 (raiseIrq_raises .a s), raiseIrq_raises .b _⟩

theorem noted_rung (breach : Bool) (p : FPort) (m : Msg) (s : State) : Rung (noted breach p m s) :=
  ((raiseBoth_rung _).keeps (logNotice_keepsCauses _ _ _ _ _ _ _ _ _)).keeps (takeNotice_keepsCauses _ _)

/-- What is done before a notice is counted: ports, log, outputs and the fabric's ports alone. -/
theorem announced_run (breach : Bool) (step da amount code origin task red : Nat) (p : FPort) (m : Msg) (s : State) :
    Run [.out, .hostA, .hostB, .seq, .log, .fabric] s
      (logNotice breach step da amount code origin task red (raiseBoth 3 (bcastForward p m s))) :=
  logNotice_run _ _ _ _ _ _ _ _ _ (raiseBoth_run 3 _ (bcastForward_run p m s (.refl _ s) (by decide)) (by decide)) (by decide)

theorem noted_noticed (breach : Bool) (p : FPort) (m : Msg) (s : State) : Noticed (noticeOf breach m) s (noted breach p m s) := by
  have hrun := announced_run breach m.step (field m.payload 0 8) (field m.payload 8 8) (field m.payload 16 1) (field m.payload 18 2)
    (field m.payload 20 4) (field m.payload 24 4) p m s
  unfold noted
  generalize logNotice _ _ _ _ _ _ _ _ _ = u at hrun ⊢
  obtain ⟨hruns, hnotices, himage⟩ := takeNotice_noticed (noticeOf breach m) u
  have hexec : u.exec = s.exec := hrun.same .exec rfl
  have hjob : u.job = s.job := hrun.same .job rfl
  exact ⟨hexec ▸ hruns, hexec ▸ hnotices, hjob ▸ himage⟩

/-- Counting a notice may move origins; the job runs on. -/
theorem takeNotice_jobState (n : Notice) (s : State) : (takeNotice n s).job.state = s.job.state := by
  unfold takeNotice
  extract_lets before src s1 d job exec twin s2
  have h2 : s2.job.state = s.job.state := by
    subst s2
    split
    · rfl
    · rfl
  split
  · have hjob : (extendCommands d n.code s2).job = s2.job :=
      (extendCommands_run (flds := [.out, .hostA, .hostB, .i3c, .warden, .seq, .log]) d n.code s2 (.refl _ s2) (by decide)).same .job rfl
    rw [hjob, h2]
  · exact h2

theorem noted_jobState (breach : Bool) (p : FPort) (m : Msg) (s : State) : (noted breach p m s).job.state = s.job.state :=
  (takeNotice_jobState _ _).trans
    (congrArg JobCtl.state ((announced_run breach _ _ _ _ _ _ _ p m s).same .job rfl : _ = s.job))

theorem noted_mem (breach : Bool) (p : FPort) (m : Msg) (s : State) : (noted breach p m s).mem = s.mem :=
  (takeNotice_run (flds := [.out, .hostA, .hostB, .i3c, .warden, .seq, .log, .job, .exec, .twin, .fabric]) _ _
    ((announced_run breach _ _ _ _ _ _ _ p m s).mono (by decide)) (by decide)).same .mem rfl

/-! #### The slips that a notice brings (R154) -/

theorem slipFor_noticed_breach {n : Notice} {s t : State} (h : t.exec.notices = s.exec.notices ++ [n]) (hb : n.breach = true) (d : Nat) :
    slipFor n.step d t = slipFor n.step d s + if n.da ≤ d then n.amount else 0 := by
  by_cases hda : n.da ≤ d
  · simp [slipFor, lateSlip, h, hb, hda]
    omega
  · simp [slipFor, lateSlip, h, hb, hda]

theorem slipSum_noticed_breach {n : Notice} {s t : State} (h : t.exec.notices = s.exec.notices ++ [n]) (hb : n.breach = true) :
    slipSum n.step t = slipSum n.step s + n.amount := by
  simp [slipSum, h, hb]
  omega

theorem lateSlip_noticed_late {n : Notice} {s t : State} (h : t.exec.notices = s.exec.notices ++ [n]) (hb : n.breach = false) (d : Nat) :
    lateSlip n.step d t = if n.da ≤ d then max (lateSlip n.step d s) n.amount else lateSlip n.step d s := by
  by_cases hda : n.da ≤ d
  · simp [lateSlip, h, hb, hda]
  · simp [lateSlip, h, hb, hda]

/-! #### The rows -/

theorem onMsg_front {p : FPort} {cls type : Nat} {sub : Bool} {m : Msg} {s : State} (h : frontMsg p cls type sub s = some m)
    (f : Msg → State → State) : onMsg p cls type sub f s = f m (dropFront p cls sub s) := by
  simp only [onMsg, h]

theorem recvNotice_seen {breach : Bool} {p : FPort} {m : Msg} {s : State} (h : seenNotice m s = true) : recvNotice breach p m s = s := by
  simp only [recvNotice, h, if_true]

/-- What a breach notice makes run again here (R142), once the notice is counted. -/
def replayFor (m : Msg) (s : State) : State :=
  match s.job.image with
  | some im => if collecting s then remoteBreach im m.step (field m.payload 20 4) (field m.payload 24 4) s else s
  | none => s

theorem recvNotice_breach {p : FPort} {m : Msg} {s : State} (h : seenNotice m s = false) :
    recvNotice true p m s = replayFor m (noted true p m s) := by
  simp only [recvNotice, h, Bool.false_eq_true, if_false, Bool.not_true, Bool.false_and, Bool.true_and]
  rfl

/-- A late notice of code 2 abandons or resumes the step (Table 6.12); any other one only counts. -/
theorem recvNotice_late {p : FPort} {m : Msg} {s : State} (h : seenNotice m s = false) :
    recvNotice false p m s =
      if field m.payload 16 1 = 2 ∧ s.job.state = .running then
        if field m.payload 8 8 = 0 then abandonStep (noted false p m s) else resumeStep (noted false p m s)
      else noted false p m s := by
  have hstate := noted_jobState false p m s
  have hshape : recvNotice false p m s =
      if !false && field m.payload 16 1 == 2 && running (noted false p m s) then
        if field m.payload 8 8 = 0 then abandonStep (noted false p m s) else resumeStep (noted false p m s)
      else noted false p m s := by
    unfold recvNotice
    rw [h]
    simp only [Bool.false_eq_true, if_false, Bool.false_and]
    split <;> rfl
  rw [hshape]
  simp only [running, hstate, Bool.not_false, Bool.true_and, Bool.and_eq_true, beq_iff_eq]

theorem replayFor_keeps (m : Msg) (s : State) :
    KeepsCauses s (replayFor m s) ∧ (replayFor m s).exec.notices = s.exec.notices := by
  unfold replayFor
  split
  next im him =>
    split
    · exact ⟨remoteBreach_keepsCauses _ _ _ _ s, remoteBreach_notices him _ _ _⟩
    · exact ⟨.refl s, rfl⟩
  · exact ⟨.refl s, rfl⟩

theorem abandonTasks_voided (s : State) : (abandonTasks s).exec.voided = true := by
  unfold abandonTasks
  generalize dropWatches _ s = u
  rfl

theorem abandonStep_effect (s : State) :
    KeepsCauses s (abandonStep s) ∧ (abandonStep s).job.abandoned = true ∧ (abandonStep s).exec.voided = true := by
  unfold abandonStep
  generalize hu : { s with job := { s.job with abandoned := true } } = u
  have hrun : Run [.out, .exec, .cores, .memStacks] u (abandonTasks u) := abandonTasks_run u (.refl _ u) (by decide)
  have hjob : (abandonTasks u).job = u.job := hrun.same .job rfl
  have hports : KeepsCauses s u := fun p v hv => by
    subst hu
    cases p with
    | a => exact hv
    | b => exact hv
  exact ⟨hports.trans (.of_run hrun rfl rfl), by rw [hjob, ← hu], abandonTasks_voided u⟩

/-- Settles O53: what a notice leaves is said of `noted`; a breach then replays what it names, and a late notice of code 2 abandons or resumes
the step. -/
theorem notices : Obligations.Notices := by
  unfold Obligations.Notices
  refine fun p sub m s => ⟨fun hseen => ⟨fun hfront => ?_, fun hfront => ?_⟩, fun hnew => ⟨fun hfront => ?_, fun hfront hcode => ?_,
    fun hfront hcode hrun => ?_⟩⟩
  · show Host.Outcome.next (onMsg p 2 0x08 sub (recvNotice true p) s) = _
    rw [onMsg_front hfront, recvNotice_seen (s := dropFront p 2 sub s) hseen]
  · show Host.Outcome.next (onMsg p 2 0x09 sub (recvNotice false p) s) = _
    rw [onMsg_front hfront, recvNotice_seen (s := dropFront p 2 sub s) hseen]
  · have hexec : exec (.breach p sub) s = .next (replayFor m (noted true p m (dropFront p 2 sub s))) := by
      show Host.Outcome.next (onMsg p 2 0x08 sub (recvNotice true p) s) = _
      rw [onMsg_front hfront, recvNotice_breach (s := dropFront p 2 sub s) hnew]
    obtain ⟨hcauses, hkept⟩ := replayFor_keeps m (noted true p m (dropFront p 2 sub s))
    have hnotices := hkept.trans (noted_noticed true p m (dropFront p 2 sub s)).notices
    exact ⟨_, hexec, hnotices, (noted_rung true p m _).keeps hcauses,
      fun d => slipFor_noticed_breach (n := noticeOf true m) (s := s) hnotices rfl d,
      slipSum_noticed_breach (n := noticeOf true m) (s := s) hnotices rfl⟩
  · have hexec : exec (.late p sub) s = .next (noted false p m (dropFront p 2 sub s)) := by
      show Host.Outcome.next (onMsg p 2 0x09 sub (recvNotice false p) s) = _
      rw [onMsg_front hfront, recvNotice_late (s := dropFront p 2 sub s) hnew, if_neg fun h => hcode h.1]
    obtain ⟨hruns, hnotices, -⟩ := noted_noticed false p m (dropFront p 2 sub s)
    exact ⟨_, hexec, hnotices, noted_rung false p m _,
      fun d => lateSlip_noticed_late (n := noticeOf false m) (s := s) hnotices rfl d, hruns, noted_mem false p m _⟩
  · have hexec : exec (.late p sub) s = .next (if field m.payload 8 8 = 0 then abandonStep (noted false p m (dropFront p 2 sub s))
        else resumeStep (noted false p m (dropFront p 2 sub s))) := by
      show Host.Outcome.next (onMsg p 2 0x09 sub (recvNotice false p) s) = _
      rw [onMsg_front hfront, recvNotice_late (s := dropFront p 2 sub s) hnew, if_pos ⟨hcode, hrun⟩]
    have hrung := noted_rung false p m (dropFront p 2 sub s)
    refine ⟨_, hexec, ?_⟩
    by_cases hamount : field m.payload 8 8 = 0
    · obtain ⟨hcauses, hleft, hvoid⟩ := abandonStep_effect (noted false p m (dropFront p 2 sub s))
      rw [if_pos hamount, decide_eq_true hamount]
      exact ⟨hrung.keeps hcauses, hleft, hvoid⟩
    · rw [if_neg hamount, decide_eq_false hamount]
      exact ⟨hrung, rfl, rfl⟩

end Sys2Proof.Proofs

/-! ### JOB_UNLOAD while a stack withholds an acknowledgement (R136, R152, R175) -/

namespace Sys2Proof.Proofs

open Machine Laws

/-- The entry of a JOB_UNLOAD with TAG 0 and LOCKGEN 0. -/
def unloadEntry : Bytes := leBytes 2 0x0104 ++ List.replicate 126 0

/-- A stack that withholds the acknowledgement of a write of core 0 until the stale notice of a prefetch is acknowledged (R175). -/
def withholdingStack : Stack :=
  { Stack.reset with
    watch := [{ id := 1, die := 0, core := 1, lo := 0, len := 128, dst := 0, stale := true, acked := false, overs := false }]
    withheld := [{ ack := .req (.core 0 0 0) 7, addr := 0, len := 1, ids := [1] }] }

/-- A package with a loaded job and that stack; JOB_UNLOAD stands at the front of port A's mailbox, whose port owns the lock. No core has
a record. -/
def unloading : State :=
  { State.reset with
    power := { State.reset.power with phase := .ready }
    warden := { State.reset.warden with ready := true }
    lock := { State.reset.lock with owner := some .a }
    hostA := { HostPort.reset with inReset := false, state := 0, mb := { Mailbox.reset with en := true, waiting := [unloadEntry] } }
    job := { JobCtl.reset with state := .loaded }
    memStacks := State.reset.memStacks.set 0 withholdingStack }

theorem unloading_offered : Offered 0x0104 .hostA unloadEntry unloading where
  front := rfl
  opcode := by decide
  room := rfl
  granted := by decide +kernel

theorem unloading_lockedIdle : LockedIdle unloading := fun _ h => (List.not_mem_nil h).elim

/-- The records of cores after a step. -/
def coresAfter (o : Host.Outcome State Fault Refusal) : List Core :=
  match o with
  | .next t => t.cores
  | _ => []

/-- The step evaluated: the acknowledgement goes out, and core 0 gets a record, with the write no longer outstanding. -/
theorem coresAfter_unloading : coresAfter (exec (.jobUnload .hostA) unloading) = [Core.idle 0 0] := by decide +kernel

/-- Refutes O25: JOB_UNLOAD abandons the job's tasks, and with them every prefetch; an acknowledgement that a stack withheld for a prefetch
goes out (R175), and its core has the write outstanding no more (R136). The record of that core changes, which the statement's
`MailboxOnly` rules out: only the mailboxes, the job and the stacks may differ. -/
theorem not_jobStartStopUnload : ¬ Obligations.JobStartStopUnload := by
  unfold Obligations.JobStartStopUnload
  intro h
  obtain ⟨-, -, -, hunload⟩ := h.1 .hostA unloadEntry unloading
  obtain ⟨t, hexec, hsame, -⟩ := hunload unloading_offered unloading_lockedIdle
  have hcores : t.cores = [] := congrArg State.cores hsame
  have hafter := coresAfter_unloading
  rw [hexec] at hafter
  exact List.cons_ne_nil _ _ (hafter.symm.trans hcores)

end Sys2Proof.Proofs

/-! ### A line read into a set whose resident line is clean (R167, R168) -/

namespace Sys2Proof.Proofs

open Machine Laws

/-- Entering banks changes of a stack its banks alone. -/
theorem enterBanks_stack (i : Fin 32) (f : BankQ → BankQ) (bs : List Nat) (s : State) :
    ∃ b, (bs.foldl (fun s b => modBank i b f s) s).memStacks[i] = { s.memStacks[i] with banks := b } := by
  induction bs generalizing s with
  | nil => exact ⟨_, rfl⟩
  | cons x bs ih =>
    obtain ⟨b, hb⟩ := ih (modBank i x f s)
    exact ⟨b, hb.trans (by rw [modBank, getElem_modStack])⟩

/-- Entering banks leaves DRAM alone. -/
theorem enterBanks_mem (i : Fin 32) (f : BankQ → BankQ) (bs : List Nat) (s : State) :
    (bs.foldl (fun s b => modBank i b f s) s).mem = s.mem := (leaveBankQueues_run i f bs s).same .mem rfl

/-- A clean read of a line of a stack completes with what the slice cache answers (R167). -/
theorem serveLine_read {r : LineReq} (hw : r.write = false) (hecc : r.ecc = .clean) (s : State) :
    serveLine r s = complete (MemReq.line r).stack r.who r.id (some (cacheRead (MemReq.line r).stack (lineNo r.addr) r.hint s).1)
      (cacheRead (MemReq.line r).stack (lineNo r.addr) r.hint s).2 := by
  simp only [serveLine, hw, hecc, sectorCheck, Bool.false_and, Bool.false_eq_true, if_false]

theorem enterBank_served {r : MemReq} {s : State} (h : waitBank r s = none) : enterBank r s = admitReq r s := by
  simp only [enterBank, h]

/-- A read of a stack by the hub that nothing stands in the way of goes to its bank. -/
theorem lineReq_hub_read {r : LineReq} {i : Fin 32} {s : State} (hwho : r.who = .hub) (hw : r.write = false)
    (hrange : rangeOf r.addr = .stack i) (hcause : reqCause (.line r) s = none) : lineReq r s = enterBank (.line r) s := by
  simp only [lineReq, hcause, hrange, hwho, hw, Bool.false_and, Bool.false_eq_true, if_false]

theorem complete_hub (i : Fin 32) (id : Nat) (d : Bytes) (s : State) :
    complete i .hub id (some d) s = emit (.memDone .hub id .ok d) (leaveBanks i (.hub, id) s) := rfl

/-- The hub reads line `n` of stack 0. -/
def hubRead (n : Nat) : LineReq :=
  { who := .hub, id := 0, addr := 128 * n, write := false, data := [], hint := .none, prefetch := false, dst := 0, ecc := .clean }

theorem hubRead_stack {n : Nat} (hn : n < 2 ^ 30) : (MemReq.line (hubRead n)).stack = 0 := by
  have h : 128 * n / 2 ^ 37 = 0 := by omega
  show Fin.ofNat 32 (128 * n / 2 ^ 37) = 0
  rw [h]
  rfl

theorem reqCause_hubRead (k : Nat) {n : Nat} (hn : n < 2 ^ 30) : reqCause (.line (hubRead n)) (evictingNow k n) = none :=
  accessCause_evicting k hn

/-- No bank of the package has a request. -/
theorem waitBank_hubRead (k n : Nat) : waitBank (.line (hubRead n)) (evictingNow k n) = none := by
  simp [waitBank, evictingNow_stack, oneWayStack, Stack.reset, roomIn, bankQ, -Fin.getElem_fin]

/-- The package once the read has entered its bank. -/
def hubReadEntered (k n : Nat) : State :=
  ((MemReq.line (hubRead n)).banks (evictingNow k n)).foldl
    (fun s b => modBank 0 b (fun q => { q with queue := q.queue ++ [.line (hubRead n)] }) s) (evictingNow k n)

/-- The line as it is read: not resident, so from DRAM. -/
def readLine (k n : Nat) : CacheLine :=
  { line := n, way := 0, data := lineData 0 n (hubReadEntered k n), dirty := false, keep := false }

theorem hubReadEntered_set {k n : Nat} (hset : setIdx k = setIdx n) :
    cacheSetOf n (hubReadEntered k n).memStacks[(0 : Fin 32)] = oneWaySet k ∧
      waysOf (hubReadEntered k n).memStacks[(0 : Fin 32)] (oneWaySet k) = 1 := by
  obtain ⟨b, hb⟩ := enterBanks_stack 0 (fun q => { q with queue := q.queue ++ [.line (hubRead n)] })
    ((MemReq.line (hubRead n)).banks (evictingNow k n)) (evictingNow k n)
  rw [hubReadEntered, hb, evictingNow_stack]
  exact ⟨cacheSetOf_oneWayStack hset, rfl⟩

/-- Line `n` is not resident: it is read from DRAM, and takes its place in the slice cache. -/
theorem cacheRead_hubReadEntered {k n : Nat} (hne : k ≠ n) (hset : setIdx k = setIdx n) :
    cacheRead 0 n .none (hubReadEntered k n) =
      (lineData 0 n (hubReadEntered k n), cacheInsert 0 (readLine k n) true (hubReadEntered k n)) := by
  have hout : cachedLine n (hubReadEntered k n).memStacks[(0 : Fin 32)] = none := by
    simp only [cachedLine, (hubReadEntered_set hset).1]
    simp [oneWaySet, hne]
  have hkeep : (Hint.none == Hint.keep) = false := rfl
  simp only [cacheRead, hout, hkeep, readLine]

theorem exec_hubRead {k n : Nat} (hn : n < 2 ^ 30) (hne : k ≠ n) (hset : setIdx k = setIdx n) :
    exec (.lineRequest (hubRead n)) (evictingNow k n) =
      .next (emit (.memDone .hub 0 .ok (lineData 0 n (hubReadEntered k n)))
        (leaveBanks 0 (.hub, 0) (cacheInsert 0 (readLine k n) true (hubReadEntered k n)))) := by
  have hadmit : admitReq (.line (hubRead n)) (evictingNow k n) = serveLine (hubRead n) (hubReadEntered k n) := by
    simp only [admitReq, serve, hubRead_stack hn, hubReadEntered]
  have hline : lineNo (hubRead n).addr = n := lineNo_line hn
  obtain ⟨hhint, hwho, hid⟩ : (hubRead n).hint = .none ∧ (hubRead n).who = .hub ∧ (hubRead n).id = 0 := ⟨rfl, rfl, rfl⟩
  show Host.Outcome.next (lineReq (hubRead n) (evictingNow k n)) = _
  rw [lineReq_hub_read rfl rfl (rangeOf_line hn) (reqCause_hubRead k hn), enterBank_served (waitBank_hubRead k n), hadmit,
    serveLine_read rfl rfl, hubRead_stack hn, hline, hhint, cacheRead_hubReadEntered hne hset, hwho, hid, complete_hub]

theorem physGet_after_hubRead {k n : Nat} (hk : k < 2 ^ 30) (hne : k ≠ n) (hset : setIdx k = setIdx n) (o : Out) :
    physGet (emit o (leaveBanks 0 (.hub, 0) (cacheInsert 0 (readLine k n) true (hubReadEntered k n)))) (128 * k) = 0 := by
  obtain ⟨b, hb⟩ := enterBanks_stack 0 (fun q => { q with queue := q.queue ++ [.line (hubRead n)] })
    ((MemReq.line (hubRead n)).banks (evictingNow k n)) (evictingNow k n)
  rw [evictingNow_stack] at hb
  have hmem : (hubReadEntered k n).mem = [] := (enterBanks_mem _ _ _ _).trans (evictingNow_mem k n)
  obtain ⟨w, hins⟩ := cacheInsert_evicts_clean (i := 0) (s := hubReadEntered k n) (c := oneWaySet k) (l := readLine k n)
    (hubReadEntered_set hset).1 rfl (hubReadEntered_set hset).2 hne rfl rfl rfl
  rw [hins]
  simp only [physGet, rangeOf_line hk, lineNo_line hk, emit, leaveBanks, getElem_modStack, hubReadEntered, hb]
  simp [cachedLine, cacheSetOf, oneWayStack, oneWaySet, putSet, hne.symm, readLine]
  exact congrArg (memGet · _) hmem

/-- Refutes O37, as O52 is refuted: `CachesOk` does not ask that the clean lines of a slice cache hold what DRAM holds. In `evictingNow k n`
line `k` reads as ones and is clean; the hub's read of line `n` of the same set brings that line into the cache and evicts line `k`, which
is not written back (R167) and reads as zeros afterwards, although the statement says that a read changes no byte. -/
theorem not_lineRequests : ¬ Obligations.LineRequests := by
  unfold Obligations.LineRequests
  intro h
  obtain ⟨k, hk, n, hn, hne, hset⟩ := exists_lines_same_set
  obtain ⟨hstacks, -⟩ := h (hubRead n) (evictingNow k n) (reqCause_hubRead k hn) rfl (evictingNow_cachesOk hk n)
  obtain ⟨hread, -⟩ := hstacks 0 (rangeOf_line hn) (waitBank_hubRead k n)
  obtain ⟨t, hexec, -, hsame, -⟩ := hread rfl rfl
  obtain rfl := Host.Outcome.next.inj ((exec_hubRead hn hne hset).symm.trans hexec)
  have hbyte := hsame (128 * k)
  rw [physGet_after_hubRead hk hne hset, physGet_evictingNow n hk] at hbyte
  exact absurd hbyte (by decide)

end Sys2Proof.Proofs

/-! ### A MOVE that reads a clean line for the last time (R150, R168) -/

namespace Sys2Proof.Proofs

open Machine Laws

/-! #### The package -/

/-- A MOVE task of core 0: one byte from address 0 to the base of far-tier window 0, under the hint LAST. -/
def lastMove : TaskRec :=
  { taskid := 3, stream := 0, flags := 0, unit := 0, start := 0, deadline := 0, waits := [], issue := 0, dtype := 4,
    body := leBytes 8 (2 ^ 60) ++ leBytes 8 (2 ^ 60 + farBase 0) ++ leBytes 8 1 ++ [3] }

/-- Its run, at work. -/
def lastMoveRun : TaskRun :=
  { task := 3, step := 0, st := .firm, startT := 0, endT := none, checksOk := true, pnf := false, psat := false, undetected := [],
    gauges := [], overs := [], nfFwd := 0, loss := 0, nfLoss := 0, again := false, wrote := false }

def lastMoveImage : JobImage := { decodeImage [] with tasks := [lastMove] }

/-- A set in which line 0 lies, clean. DRAM, which holds zeros, does not have its bytes. -/
def lineZeroSet : CacheSet :=
  { idx := setIdx 0, lines := [{ line := 0, way := 0, data := List.replicate 128 1, dirty := false, keep := false }], disabled := [] }

/-- A package with that line in stack 0, far-tier window 0 and the task at work. -/
def lastMoving : State :=
  { State.reset with
    dies := Vector.replicate 4 { Die.reset with inReset := false }
    links := Vector.replicate 41 { DieLink.reset with up := true }
    memStacks := Vector.replicate 32 { Stack.reset with inReset := false, cache := [lineZeroSet] }
    far := Vector.replicate 2 { st := 2, cap := 2 ^ 30, wr := 0, rd := 0, linkUp := true }
    job := { JobCtl.reset with state := .running, image := some lastMoveImage }
    exec := { Exec.reset with runs := [lastMoveRun] } }

theorem lastMoving_stack (i : Fin 32) :
    lastMoving.memStacks[i] = { Stack.reset with inReset := false, cache := [lineZeroSet] } := by
  simp [lastMoving]

theorem decodeMove_lastMove :
    decodeMove lastMove.body = { src := 2 ^ 60, dst := 2 ^ 60 + farBase 0, length := 1, hint := 3, prefetch := false } := by
  rfl

theorem lastMoving_taskRec : taskRec 3 lastMoving = some lastMove := rfl

theorem lastMoving_runningRun : runningRun 3 lastMoving = some lastMoveRun := rfl

theorem lastMoving_spans : taskSpans lastMoveImage lastMove = [(0, 1), (farBase 0, 1)] := by decide

theorem settleRange_of_no_banks {s : State} (h : ∀ i : Fin 32, s.memStacks[i].banks = []) (a n : Nat) : settleRange a n s = s := by
  unfold settleRange
  split
  next i _ => simp [parkedWrites, h i, -Fin.getElem_fin]
  · rfl

theorem lastMoving_settled : settleTask lastMoveImage lastMove lastMoving = lastMoving := by
  have hbanks : ∀ i : Fin 32, lastMoving.memStacks[i].banks = [] := fun i => by rw [lastMoving_stack]; rfl
  have hdtype : lastMove.dtype ≠ 5 := by decide
  simp only [settleTask, lastMoving_spans, List.foldl_cons, List.foldl_nil, settleRange_of_no_banks hbanks, if_neg hdtype]

theorem lastMoving_cachesOk : CachesOk lastMoving := by
  refine ⟨rfl, fun i => ?_⟩
  rw [lastMoving_stack]
  refine ⟨by simp, fun c hc => ?_⟩
  obtain rfl : c = lineZeroSet := by simpa using hc
  exact ⟨fun l hl => by simp_all [lineZeroSet], by simp [lineZeroSet], by simp [lineZeroSet, waysOf, enabledWays, Stack.reset], by simp [lineZeroSet]⟩

/-- The core reaches stack 0, whose die is its own, and the far tier is mapped. -/
theorem lastMoving_taskCause : taskCause lastMoveImage lastMove lastMoving = none := by
  have hwho : requesterOf lastMove lastMoving = .core 0 0 0 := rfl
  have hstack : accessCause (.core 0 0 0) 0 1 lastMoving = none := by
    have hpath : pathOk (.core 0 0 0) 0 lastMoving = true := rfl
    have hrange : rangeOf 0 = .stack 0 := rfl
    simp [accessCause, hrange, lastMoving_stack, hpath, Stack.reset, -Fin.getElem_fin]
  have hfar : accessCause (.core 0 0 0) (farBase 0) 1 lastMoving = none := by
    have hrange : rangeOf (farBase 0) = .far 0 := rfl
    simp [accessCause, hrange, lastMoving]
  simp [taskCause, lastMoving_spans, hwho, spanCause, hstack, hfar]

/-! #### Its work -/

/-- A clean line that is read under LAST leaves the slice cache, and nothing is written back (Table 7.3). -/
theorem cacheRead_last_clean {i : Fin 32} {ln : Nat} {l : CacheLine} {s : State} (hl : cachedLine ln s.memStacks[i] = some l)
    (hclean : l.dirty = false) : (cacheRead i ln .last s).2 = cacheRemove i ln s := by
  simp only [cacheRead, hl, hclean, Bool.false_eq_true, if_false]

/-- The package once the line has been read. -/
def lineZeroRead : State := cacheRemove 0 0 lastMoving

theorem lastMoving_cachedLine : cachedLine 0 lastMoving.memStacks[(0 : Fin 32)] =
    some { line := 0, way := 0, data := List.replicate 128 1, dirty := false, keep := false } := by
  rw [lastMoving_stack]
  simp [cachedLine, cacheSetOf, lineZeroSet]

theorem touch_lineZero : touch .last 0 1 lastMoving = lineZeroRead := by
  have hrange : rangeOf 0 = .stack 0 := rfl
  have hread := cacheRead_last_clean lastMoving_cachedLine rfl
  simp only [touch, dmaRead, hrange]
  exact hread

theorem lastMoving_touchReads : touchReads lastMoveImage lastMove lastMoving = lineZeroRead := by
  have hreads : taskReads lastMoveImage lastMove = [{ space := 1, core := 0, base := 0, pitch := 0, rows := 1, width := 1 }] := rfl
  have hhint : readHint lastMoveImage lastMove 0 = .last := rfl
  simp [touchReads, hreads, cdiv, hhint, touch_lineZero, List.range_succ]

/-- The work of a MOVE that prefetches nothing. -/
theorem moveWork_plain {t : TaskRec} {s : State} (h : (decodeMove t.body).prefetch = false) :
    moveWork t s = .done (ptrWriteH (hintOf (decodeMove t.body).hint) (placeOf t s) (decodeMove t.body).dst 0
      (ptrRead (placeOf t s) (decodeMove t.body).src 0 (decodeMove t.body).length s) s) {} := by
  simp only [moveWork, h]

/-- A byte written to the far tier goes past the slice caches (R191). -/
theorem dmaWrite_far_byte {a : Nat} {f : Fin 2} (h : rangeOf a = .far f) (hint : Hint) (b : Byte) (s : State) :
    dmaWrite hint a [b] s = { s with mem := memWrite s.mem a [b] } := by
  obtain ⟨j, hj⟩ : ∃ j, 128 - a % 128 = j + 1 := ⟨127 - a % 128, by have := Nat.mod_lt a (show 128 > 0 by decide); omega⟩
  simp [dmaWrite, linePieces, h, hj]

theorem moveWork_lastMove : moveWork lastMove lineZeroRead =
    .done { lineZeroRead with mem := memWrite lineZeroRead.mem (farBase 0) [physGet lineZeroRead 0] } {} := by
  have hdst : ptr (2 ^ 60 + farBase 0) = .phys (farBase 0) := rfl
  have hsrc : ptr (2 ^ 60) = .phys 0 := rfl
  have hrange : rangeOf (farBase 0) = .far 0 := rfl
  have hpre : (decodeMove lastMove.body).prefetch = false := by rw [decodeMove_lastMove]
  have hread : physRead lineZeroRead (0 + 0) 1 = [physGet lineZeroRead 0] := rfl
  rw [moveWork_plain hpre, decodeMove_lastMove]
  simp only [ptrWriteH, ptrRead, hdst, hsrc, hread, Nat.add_zero]
  rw [dmaWrite_far_byte hrange]

theorem lineZeroRead_cachedLine : cachedLine 0 lineZeroRead.memStacks[(0 : Fin 32)] = none := by
  have hset : cacheSetOf 0 lastMoving.memStacks[(0 : Fin 32)] = lineZeroSet := by
    rw [lastMoving_stack]
    simp [cacheSetOf, lineZeroSet]
  have hin : (lineZeroSet.lines.any fun x => x.line == 0) = true := rfl
  have hgone : lineZeroRead = modStack 0 (fun st => { st with cache := putSet { lineZeroSet with lines := [] } st.cache }) lastMoving := by
    unfold lineZeroRead cacheRemove
    rw [hset, if_pos hin]
    rfl
  rw [hgone, getElem_modStack, lastMoving_stack]
  simp [cachedLine, cacheSetOf, lineZeroSet, putSet]

theorem lineZeroRead_mem : lineZeroRead.mem = [] :=
  (cacheRemove_run (flds := [.memStacks]) 0 0 lastMoving (.refl _ _) (by decide)).same .mem rfl

theorem physGet_lastMoving : physGet lastMoving 0 = 1 := by
  have hrange : rangeOf 0 = .stack 0 := rfl
  have hline : lineNo 0 = 0 := rfl
  simp only [physGet, hrange, hline, lastMoving_cachedLine]
  rfl

/-- The byte that line 0 had is gone, and DRAM never had it. -/
theorem physGet_after_lastMove {b : Byte} {t : State} (hmem : t.mem = memWrite lineZeroRead.mem (farBase 0) [b])
    (hstacks : t.memStacks = lineZeroRead.memStacks) : physGet t 0 = 0 := by
  have hrange : rangeOf 0 = .stack 0 := rfl
  have hline : lineNo 0 = 0 := rfl
  simp only [physGet, hrange, hline, hstacks, lineZeroRead_cachedLine, hmem, lineZeroRead_mem]
  rw [memWrite_other rfl (.inl (by decide))]
  rfl

theorem finishTask_memory {im : JobImage} {t : TaskRec} {r : TaskRun} {s : State} (h : t.stream ≠ 2) :
    (finishTask im t r s).mem = s.mem ∧ (finishTask im t r s).memStacks = s.memStacks := by
  unfold finishTask
  split
  · exact ⟨rfl, rfl⟩
  · have hrun : Run [.cores] s (taskThread t .idle s) := taskThread_run t .idle s (.refl _ s) (by decide)
    exact ⟨hrun.same .mem rfl, hrun.same .memStacks rfl⟩

/-! #### The step -/

theorem exec_lastMove : exec (.taskEnd 3) lastMoving = .next (finishTask lastMoveImage lastMove (lastMoveRun.withFx {})
    { lineZeroRead with mem := memWrite lineZeroRead.mem (farBase 0) [physGet lineZeroRead 0] }) := by
  have hwork : ∀ s, taskWork lastMoveImage lastMove 0 [] s = moveWork lastMove s := fun _ => rfl
  show Host.Outcome.next (onRunning 3 (fun im t r s => endTask im t r (settleTask im t s)) lastMoving) = _
  rw [onRunning_of_running (im := lastMoveImage) rfl lastMoving_taskRec lastMoving_runningRun rfl, lastMoving_settled]
  have hstep : lastMoveRun.step = 0 := rfl
  have hfresh : lastMoveRun.wrote = false := rfl
  have hnone : lastMoveRun.undetected = [] := rfl
  simp only [endTask, lastMoving_taskCause, hfresh, hstep, hnone, lastMoving_touchReads, hwork, moveWork_lastMove, Bool.false_eq_true, if_false]

/-- Refutes O56: `CachesOk` does not ask that the clean lines of a slice cache hold what DRAM holds. In `lastMoving` line 0 reads as ones and is
clean, and a MOVE copies its first byte to the far tier under the hint LAST. The line leaves the cache without being written back (Table 7.3)
and reads as zeros afterwards, although the statement says that a MOVE changes the bytes of its destination alone. -/
theorem not_taskStartAndEnd : ¬ Obligations.TaskStartAndEnd := by
  unfold Obligations.TaskStartAndEnd
  intro h
  obtain ⟨-, hend⟩ := h 3 lastMoveImage lastMove lastMoving rfl lastMoving_taskRec
  have hrun := hend lastMoveRun lastMoving_runningRun rfl rfl
  rw [lastMoving_settled] at hrun
  obtain ⟨-, -, hmove⟩ := hrun lastMoving_taskCause
  have hpre : (decodeMove lastMove.body).prefetch = false := by rw [decodeMove_lastMove]
  obtain ⟨t, hexec, hstores, -⟩ := hmove 0 (farBase 0) rfl (by decide) hpre rfl rfl lastMoving_cachesOk
  obtain rfl := Host.Outcome.next.inj (exec_lastMove.symm.trans hexec)
  obtain ⟨hmem, hstacks⟩ := finishTask_memory (im := lastMoveImage) (t := lastMove) (r := lastMoveRun.withFx {})
    (s := { lineZeroRead with mem := memWrite lineZeroRead.mem (farBase 0) [physGet lineZeroRead 0] }) (by decide)
  have hbyte := hstores 0
  rw [physGet_after_lastMove hmem hstacks, if_neg (fun hin => absurd hin.1 (by decide)), physGet_lastMoving] at hbyte
  exact absurd hbyte (by decide)

end Sys2Proof.Proofs

/-! ### Step boundaries (R151, R152, R207, R212, R269) -/

namespace Sys2Proof.Proofs

open Machine Laws

/-! #### Notices without a slip -/

theorem slipSum_noted_zero {n : Notice} (hn : n.amount = 0) (step : Nat) (s : State) :
    slipSum step { s with exec := { s.exec with notices := s.exec.notices ++ [n] } } = slipSum step s := by
  by_cases hstep : n.step = step <;> cases hb : n.breach <;> simp [slipSum, List.filter_append, hstep, hb, hn]

/-- A notice of the current step without a slip moves neither an origin nor a deadline. -/
theorem takeNotice_of_no_slip {n : Notice} {s : State} (hn : n.amount = 0) (hstep : n.step = s.job.cstep) :
    takeNotice n s = { s with exec := { s.exec with notices := s.exec.notices ++ [n] } } := by
  simp [takeNotice, slipSum_noted_zero hn, hstep, extendCommands]

theorem setExec_run (e : Exec) (s : State) : Run [.exec] s { s with exec := e } :=
  ⟨fun f hf => by cases f <;> first | exact absurd hf (by decide) | exact Eq.refl _, id, id, id, List.prefix_refl _, Nat.le_refl _⟩

/-- What a notice of code 2 or 3 can write: neither the job nor an accepted command (R244). -/
theorem plainNotice_run_no_slip (code : Nat) (s : State) :
    Run [.out, .hostA, .hostB, .seq, .log, .exec, .fabric] s (plainNotice code s) := by
  unfold plainNotice sendNotice
  extract_lets nseq n u
  have hu : Run [.out, .fabric] s u := bcastMsg_run _ s (.refl _ s) (by decide)
  have hjob : u.job = s.job := hu.same .job rfl
  have htake : Run [.exec] u (takeNotice n u) := by
    rw [takeNotice_of_no_slip (n := n) rfl (by rw [hjob])]
    exact setExec_run _ u
  exact logNotice_run _ _ _ _ _ _ _ _ _ ((hu.mono (by decide)).trans htake (by decide)) (by decide)

/-! #### What every boundary does -/

/-- The levee windows are changed, no bundle stands over its threshold, and no loss of lock is counted. -/
structure BoundaryDone (t : State) : Prop where
  changes : t.levee.changes = []
  bundles : ∀ l : Fin 41, ∀ x ∈ t.links[l].bundles, x.overs = false
  losses : ∀ u : Fin 36, t.plls[u].losses = 0

theorem foldl_setWindow_changes (cs : List (Nat × Window)) (s : State) :
    (cs.foldl (fun s c => setWindow c.1 c.2 s) s).levee.changes = s.levee.changes := by
  induction cs generalizing s with
  | nil => rfl
  | cons c cs ih => exact ih _

theorem applyChanges_changes (s : State) : (applyChanges s).levee.changes = [] := foldl_setWindow_changes _ _

theorem windowsNow_changes (s : State) : (windowsNow s).levee.changes = [] := applyChanges_changes s

/-- The tests of one link's bundles. -/
def startLinkTest (s : State) (l : Fin 41) : State :=
  if s.links[l].bundles.any (·.overs) then
    modLink l (fun k => { k with bundles := k.bundles.map fun x => if x.overs then { x with overs := false, testing := true } else x }) s
  else s

/-- No bundle of a link stands over its threshold. -/
def LinkClear (l : Fin 41) (s : State) : Prop := ∀ x ∈ s.links[l].bundles, x.overs = false

theorem startLinkTest_clear (l : Fin 41) (s : State) : LinkClear l (startLinkTest s l) := by
  unfold startLinkTest LinkClear
  split
  next hany =>
    intro x hx
    simp only [modLink, Vector.getElem_set_self, List.mem_map, Fin.getElem_fin] at hx
    obtain ⟨y, -, rfl⟩ := hx
    split <;> simp_all
  next hnone => simpa using hnone

theorem startLinkTest_keepsClear {l : Fin 41} {s : State} (h : LinkClear l s) (k : Fin 41) : LinkClear l (startLinkTest s k) := by
  by_cases hk : k = l
  · exact hk ▸ startLinkTest_clear k s
  · unfold startLinkTest LinkClear
    split
    · have hne : k.val ≠ l.val := fun hv => hk (Fin.ext hv)
      simpa only [LinkClear, modLink, Fin.getElem_fin, Vector.getElem_set_ne _ _ hne] using h
    · exact h

theorem foldl_startLinkTest_clear (ls : List (Fin 41)) (s : State) (l : Fin 41) (h : l ∈ ls ∨ LinkClear l s) :
    LinkClear l (ls.foldl startLinkTest s) := by
  induction ls generalizing s with
  | nil => simpa using h
  | cons k ls ih =>
    refine ih _ ?_
    rcases h with hmem | hclear
    · rcases List.mem_cons.mp hmem with rfl | hmem
      · exact .inr (startLinkTest_clear l s)
      · exact .inl hmem
    · exact .inr (startLinkTest_keepsClear hclear k)

theorem startTests_clear (s : State) (l : Fin 41) : LinkClear l (startTests s) :=
  foldl_startLinkTest_clear _ s l (.inl (List.mem_finRange l))

/-- Port halves move with a notice at most. -/
theorem moveHalf_run_no_slip (p : FPort) (s : State) :
    Run [.out, .hostA, .hostB, .seq, .log, .exec, .fabric, .flash] s (moveHalf p s) := by
  unfold moveHalf
  extract_lets f half u v
  split
  · exact .refl _ s
  · have hu : Run [.fabric] s u := modFab_run _ _ s (.refl _ s) (by decide)
    have hv : Run [.out, .hostA, .hostB, .seq, .log, .exec, .fabric, .flash] s v :=
      logPort_run _ _ _ (ledgerReplace_run _ _ _ _ _ _ (emit_run _ _ (hu.mono (by decide)) (by decide)) (by decide)) (by decide)
    split
    · exact hv.trans (plainNotice_run_no_slip 3 v) (by decide)
    · exact hv

theorem belowNotice_run_no_slip (l : Fin 41) (s : State) :
    Run [.out, .hostA, .hostB, .seq, .log, .exec, .links, .fabric] s (belowNotice l s) := by
  unfold belowNotice
  extract_lets u
  split
  · exact .refl _ s
  · have hu : Run [.out, .hostA, .hostB, .seq, .log, .exec, .links, .fabric] s u := modLink_run _ _ s (.refl _ s) (by decide)
    split
    · exact hu.trans (plainNotice_run_no_slip 3 u) (by decide)
    · exact hu

theorem belowNotice_keepsClear {k : Fin 41} {s : State} (h : LinkClear k s) (l : Fin 41) : LinkClear k (belowNotice l s) := by
  unfold belowNotice
  extract_lets u
  have hu : LinkClear k u := by
    by_cases hk : l = k
    · subst hk
      simpa [LinkClear, u, modLink] using h
    · have hne : l.val ≠ k.val := fun hv => hk (Fin.ext hv)
      simpa only [LinkClear, u, modLink, Fin.getElem_fin, Vector.getElem_set_ne _ _ hne] using h
  split
  · exact h
  · split
    · have hlinks : (plainNotice 3 u).links = u.links := (plainNotice_run_no_slip 3 u).same .links rfl
      rw [LinkClear, hlinks]
      exact hu
    · exact hu

/-! #### Handovers where no failed core waits -/

theorem returnCore_wait (s : State) : (returnCore s).inspect.wait = s.inspect.wait := by
  unfold returnCore
  split
  · split <;> rfl
  · rfl

theorem enterSlot_wait (s : State) : (enterSlot s).inspect.wait = s.inspect.wait := by
  unfold enterSlot
  split
  · extract_lets drop
    split
    · split <;> rfl
    · rfl
  · rfl

theorem takeOver_of_no_wait {s : State} (h : s.inspect.wait = []) : takeOver s = s := by
  rw [takeOver, h]
  rfl

theorem handovers_run_of_no_wait {s : State} (h : s.inspect.wait = []) : Run [.dies, .coreStore, .flash, .inspect] s (handovers s) := by
  have hback : Run [.dies, .coreStore, .flash, .inspect] s (returnCore s) := returnCore_run s (.refl _ s) (by decide)
  have hrelief : Run [.dies, .flash] (returnCore s) (enableReliefs (returnCore s)) := enableReliefs_run _ (.refl _ _) (by decide)
  have hwait : (returnCore s).inspect.wait = [] := (returnCore_wait s).trans h
  have hwait' : (enableReliefs (returnCore s)).inspect.wait = [] := (congrArg Inspect.wait (hrelief.same .inspect rfl)).trans hwait
  rw [handovers, takeOver_of_no_wait hwait, takeOver_of_no_wait hwait']
  exact enterSlot_run _ (hback.trans hrelief (by decide)) (by decide)

theorem lateHandovers_run_of_no_wait {s : State} (h : s.inspect.wait = []) : Run [.dies, .coreStore, .inspect] s (lateHandovers s) := by
  unfold lateHandovers
  split
  · rw [takeOver_of_no_wait ((returnCore_wait s).trans h)]
    exact enterSlot_run _ (returnCore_run s (.refl _ s) (by decide)) (by decide)
  · exact .refl _ s

theorem lateHandovers_wait {s : State} (h : s.inspect.wait = []) : (lateHandovers s).inspect.wait = [] := by
  unfold lateHandovers
  split
  · rw [takeOver_of_no_wait ((returnCore_wait s).trans h), enterSlot_wait, returnCore_wait, h]
  · exact h

/-! #### The boundary's own actions -/

/-- The losses of lock of the step are over (R312). -/
def lossesCleared (s : State) : State := { s with plls := s.plls.map fun k => { k with losses := 0 } }

theorem lossesCleared_run (s : State) : Run [.plls] s (lossesCleared s) :=
  ⟨fun f hf => by cases f <;> first | exact absurd hf (by decide) | exact Eq.refl _, id, id, id, List.prefix_refl _, Nat.le_refl _⟩

theorem lossesCleared_losses (s : State) (u : Fin 36) : (lossesCleared s).plls[u].losses = 0 := by
  rw [lossesCleared, Fin.getElem_fin, Vector.getElem_map]

/-- The boundary of a running job up to the tests of bundles. -/
def windowsAndTests (s : State) : State := startTests (windowsNow (lossesCleared s))

/-- The port halves that move and the losses that are announced. -/
def boundaryNotices (s : State) : State := (List.finRange 41).foldl (fun s l => belowNotice l s) (fports.foldl (fun s p => moveHalf p s) s)

theorem boundaryActions_eq (s : State) : boundaryActions s = handovers (boundaryNotices (windowsAndTests s)) := rfl

theorem windowsAndTests_run (s : State) : Run [.plls, .warden, .links, .levee] s (windowsAndTests s) :=
  startTests_run _ (windowsNow_run _ ((lossesCleared_run s).mono (by decide)) (by decide)) (by decide)

theorem windowsAndTests_done (s : State) : BoundaryDone (windowsAndTests s) := by
  have hwindows : Run [.levee, .warden] (lossesCleared s) (windowsNow (lossesCleared s)) := windowsNow_run _ (.refl _ _) (by decide)
  have htests : Run [.links] (windowsNow (lossesCleared s)) (windowsAndTests s) := startTests_run _ (.refl _ _) (by decide)
  have hlevee : (windowsAndTests s).levee = (windowsNow (lossesCleared s)).levee := htests.same .levee rfl
  have hplls : (windowsAndTests s).plls = (lossesCleared s).plls := (htests.same .plls rfl).trans (hwindows.same .plls rfl)
  exact ⟨by rw [hlevee, windowsNow_changes], startTests_clear _, fun u => by rw [hplls, lossesCleared_losses]⟩

theorem boundaryNotices_run (s : State) :
    Run [.out, .hostA, .hostB, .seq, .log, .exec, .links, .fabric, .flash] s (boundaryNotices s) :=
  .foldl (.foldl (.refl _ s) fun p x hx => hx.trans (moveHalf_run_no_slip p x) (by decide))
    fun l x hx => hx.trans (belowNotice_run_no_slip l x) (by decide)

theorem foldl_belowNotice_keepsClear {k : Fin 41} (ls : List (Fin 41)) {s : State} (h : LinkClear k s) :
    LinkClear k (ls.foldl (fun s l => belowNotice l s) s) := by
  induction ls generalizing s with
  | nil => exact h
  | cons l ls ih => exact ih (belowNotice_keepsClear h l)

theorem boundaryNotices_keepsClear {k : Fin 41} {s : State} (h : LinkClear k s) : LinkClear k (boundaryNotices s) := by
  have hlinks : (fports.foldl (fun s p => moveHalf p s) s).links = s.links :=
    (Run.foldl (w := [.out, .hostA, .hostB, .seq, .log, .exec, .fabric, .flash]) (.refl _ s)
      fun p x hx => hx.trans (moveHalf_run_no_slip p x) (by decide)).same .links rfl
  exact foldl_belowNotice_keepsClear _ (by rwa [LinkClear, hlinks])

/-- The last of a boundary's actions are the handovers. -/
theorem boundaryActions_after_notices {s : State} (h : s.inspect.wait = []) :
    Run [.dies, .coreStore, .flash, .inspect] (boundaryNotices (windowsAndTests s)) (boundaryActions s) := by
  have hinspect : (boundaryNotices (windowsAndTests s)).inspect = s.inspect :=
    ((boundaryNotices_run _).same .inspect rfl).trans ((windowsAndTests_run s).same .inspect rfl)
  rw [boundaryActions_eq]
  exact handovers_run_of_no_wait (by rw [hinspect, h])

/-- What a boundary can write where no failed core waits: the job, its memory and its commands' ends are not among it. -/
theorem boundaryActions_run_of_no_wait {s : State} (h : s.inspect.wait = []) :
    Run [.out, .plls, .hostA, .hostB, .warden, .seq, .log, .exec, .dies, .coreStore, .links, .levee, .fabric, .flash, .inspect] s
      (boundaryActions s) := by
  have hrun := ((windowsAndTests_run s).mono (w := [.out, .plls, .hostA, .hostB, .warden, .seq, .log, .exec, .dies, .coreStore, .links,
    .levee, .fabric, .flash, .inspect]) (by decide)).trans (boundaryNotices_run (windowsAndTests s)) (by decide)
  exact hrun.trans (boundaryActions_after_notices h) (by decide)

theorem boundaryActions_done {s : State} (h : s.inspect.wait = []) : BoundaryDone (boundaryActions s) := by
  have hnotices := boundaryNotices_run (windowsAndTests s)
  have hhand := boundaryActions_after_notices h
  have hlevee : (boundaryActions s).levee = (windowsAndTests s).levee := (hhand.same .levee rfl).trans (hnotices.same .levee rfl)
  have hplls : (boundaryActions s).plls = (windowsAndTests s).plls := (hhand.same .plls rfl).trans (hnotices.same .plls rfl)
  have hlinks : (boundaryActions s).links = (boundaryNotices (windowsAndTests s)).links := hhand.same .links rfl
  obtain ⟨hchanges, hclear, hlosses⟩ := windowsAndTests_done s
  exact ⟨by rw [hlevee, hchanges], fun l => by rw [hlinks]; exact boundaryNotices_keepsClear (hclear l), fun u => by rw [hplls]; exact hlosses u⟩

theorem BoundaryDone.of_same {s t : State} (h : BoundaryDone s) (hlevee : t.levee = s.levee) (hlinks : t.links = s.links)
    (hplls : t.plls = s.plls) : BoundaryDone t := by
  obtain ⟨hchanges, hclear, hlosses⟩ := h
  exact ⟨by rw [hlevee, hchanges], by rw [hlinks]; exact hclear, by rw [hplls]; exact hlosses⟩

/-! #### Ends of commands -/

theorem endWhere_keepsDone {f : Accepted → Bool} {d e : Done} {a : Accepted} {s : State} (ha : a ∈ s.warden.accepted)
    (hdone : a.done = some e) : a ∈ (endWhere f d s).warden.accepted :=
  List.mem_map.mpr ⟨a, ha, by simp [hdone]⟩

theorem endWhere_ends {f : Accepted → Bool} {a : Accepted} {s : State} (ha : a ∈ s.warden.accepted) (hopen : a.done = none)
    (hf : f a = true) (d : Done) : { a with done := some d } ∈ (endWhere f d s).warden.accepted :=
  List.mem_map.mpr ⟨a, ha, by simp [hopen, hf]⟩

theorem endWhere_passes {f : Accepted → Bool} {a : Accepted} {s : State} (ha : a ∈ s.warden.accepted) (hf : f a = false) (d : Done) :
    a ∈ (endWhere f d s).warden.accepted :=
  List.mem_map.mpr ⟨a, ha, by simp [hf]⟩

theorem windowsNow_keepsDone {a : Accepted} {e : Done} {s : State} (ha : a ∈ s.warden.accepted) (hdone : a.done = some e) :
    a ∈ (windowsNow s).warden.accepted := by
  have hwarden : (applyChanges s).warden = s.warden := (applyChanges_run (flds := [.levee]) s (.refl _ s) (by decide)).same .warden rfl
  exact endWhere_keepsDone (by rwa [hwarden]) hdone

theorem boundaryActions_keepsDone {a : Accepted} {e : Done} {s : State} (h : s.inspect.wait = []) (ha : a ∈ s.warden.accepted)
    (hdone : a.done = some e) : a ∈ (boundaryActions s).warden.accepted := by
  have hnotices := boundaryNotices_run (windowsAndTests s)
  have hhand := boundaryActions_after_notices h
  have htests : Run [.links] (windowsNow (lossesCleared s)) (windowsAndTests s) := startTests_run _ (.refl _ _) (by decide)
  have hwarden : (boundaryActions s).warden = (windowsNow (lossesCleared s)).warden :=
    ((hhand.same .warden rfl).trans (hnotices.same .warden rfl)).trans (htests.same .warden rfl)
  rw [hwarden]
  exact windowsNow_keepsDone ha hdone

/-! #### The start of a run -/

theorem setJob_job (n : JobState) (s : State) : (setJob n s).job = { s.job with state := n } := by
  unfold setJob
  split
  next h =>
    have hstate : s.job.state = n := by simpa using h
    rw [← hstate]
  next =>
    extract_lets old
    exact (logEv_run (flds := [.out, .hostA, .hostB, .seq, .log]) _ _ _ _ _ _ _ (.refl _ _) (by decide)).same .job rfl

theorem startRun_eq (t0 : Nat) (s : State) :
    ∃ u, startRun t0 s = endWhere (fun a => entOp a.entry == 0x0102 && a.started) { status := 0, result := 0, fault := 0, at_ := s.now }
      (setJob .running u) ∧ u.warden = s.warden ∧ u.job = { s.job with
        cstep := s.job.nextFirst, ts := s.job.nextFirst, t0 := t0, shift := 0, startAt := none, stopping := false, abandoned := false } :=
  ⟨_, rfl, rfl, rfl⟩

theorem startRun_job (t0 : Nat) (s : State) : (startRun t0 s).job =
    { s.job with state := .running, cstep := s.job.nextFirst, ts := s.job.nextFirst, t0 := t0, shift := 0, startAt := none,
                 stopping := false, abandoned := false } := by
  obtain ⟨u, heq, -, hjob⟩ := startRun_eq t0 s
  rw [heq, endWhere_job, setJob_job, hjob]

theorem startRun_ends {a : Accepted} {s : State} (ha : a ∈ s.warden.accepted) (hop : entOp a.entry = 0x0102) (hstarted : a.started = true)
    (hopen : a.done = none) (t0 : Nat) :
    { a with done := some { status := 0, result := 0, fault := 0, at_ := s.now } } ∈ (startRun t0 s).warden.accepted := by
  obtain ⟨u, heq, huw, -⟩ := startRun_eq t0 s
  have hwarden : (setJob .running u).warden = s.warden :=
    ((setJob_run (flds := [.out, .hostA, .hostB, .seq, .log, .job]) .running u (.refl _ u) (by decide)).same .warden rfl).trans huw
  rw [heq]
  exact endWhere_ends (by rwa [hwarden]) hopen (by simp [hop, hstarted]) _

theorem origin_startRun (t0 : Nat) (s : State) {t : State} (h : t.job = (startRun t0 s).job) : origin t = t0 := by
  simp [origin, h, startRun_job]

/-! #### Before an origin -/

theorem closeStep_eq (s : State) : ∃ n, s.exec.doneTo ≤ n ∧ closeStep s = { s with exec := { s.exec with doneTo := n } } := by
  unfold closeStep
  extract_lets k
  split
  · exact ⟨k + 1, Nat.le_succ k, rfl⟩
  · exact ⟨k, Nat.le_refl k, rfl⟩

theorem iter_closeStep_eq (m : Nat) (s : State) :
    ∃ n, s.exec.doneTo ≤ n ∧ iter closeStep m s = { s with exec := { s.exec with doneTo := n } } := by
  induction m generalizing s with
  | zero => exact ⟨s.exec.doneTo, Nat.le_refl _, rfl⟩
  | succ m ih =>
    obtain ⟨n, hn, heq⟩ := closeStep_eq s
    obtain ⟨n', hn', heq'⟩ := ih (closeStep s)
    rw [heq] at hn' heq'
    exact ⟨n', hn.trans hn', by rw [iter, heq, heq']⟩

/-- Steps that are over are closed, and nothing else changes. -/
theorem closeSteps_eq (s : State) : ∃ n, s.exec.doneTo ≤ n ∧ closeSteps s = { s with exec := { s.exec with doneTo := n } } :=
  iter_closeStep_eq _ s

theorem ckptStream_of_none {s : State} (h : s.twin.inProg = none) : ckptStream s = s := by
  unfold ckptStream
  rw [h]
  split
  next heq => exact absurd heq (by simp)
  · rfl

/-- A running job at a boundary, before its stop or its next step. -/
def beforeOrigin (s : State) : State := lateHandovers (logSteps (ckptStream (closeSteps s)))

theorem stepBoundary_running {im : JobImage} {s : State} (hstart : s.job.startAt = none) (himage : s.job.image = some im)
    (hrun : s.job.state = .running) : stepBoundary s =
      if stopDue (beforeOrigin s) then finishStop (beforeOrigin s).job.cstep ((beforeOrigin s).job.cstep + 1) (beforeOrigin s)
      else if originDue (beforeOrigin s) then newStep im (beforeOrigin s) else beforeOrigin s := by
  have hrunning : running s = true := by simp [running, hrun]
  simp only [stepBoundary, hstart, himage, hrunning]
  rfl

theorem nextOrigin_congr {s t : State} (hjob : t.job = s.job) (hnotices : t.exec.notices = s.exec.notices) : nextOrigin t = nextOrigin s := by
  simp only [nextOrigin, origin, period, slipSum, hjob, hnotices]

section
variable {s : State} (hwait : s.inspect.wait = []) (hprog : s.twin.inProg = none)

include hwait hprog

theorem beforeOrigin_after_closeSteps : Run [.out, .hostA, .hostB, .seq, .log, .gauges, .dies, .coreStore, .inspect] (closeSteps s)
    (beforeOrigin s) := by
  obtain ⟨n, -, hclose⟩ := closeSteps_eq s
  have hlog : Run [.out, .hostA, .hostB, .seq, .log, .gauges] (closeSteps s) (logSteps (closeSteps s)) :=
    logSteps_run _ (.refl _ _) (by decide)
  have hinspect : (logSteps (closeSteps s)).inspect = s.inspect := (hlog.same .inspect rfl).trans (by rw [hclose])
  rw [beforeOrigin, ckptStream_of_none (by rw [hclose]; exact hprog)]
  exact (hlog.mono (by decide)).trans (lateHandovers_run_of_no_wait (by rw [hinspect, hwait])) (by decide)

theorem beforeOrigin_run : Run [.out, .hostA, .hostB, .seq, .log, .exec, .gauges, .dies, .coreStore, .inspect] s (beforeOrigin s) :=
  (closeSteps_run s (.refl _ s) (by decide)).trans (beforeOrigin_after_closeSteps hwait hprog) (by decide)

theorem beforeOrigin_exec : ∃ n, s.exec.doneTo ≤ n ∧ (beforeOrigin s).exec = { s.exec with doneTo := n } := by
  obtain ⟨n, hn, hclose⟩ := closeSteps_eq s
  exact ⟨n, hn, ((beforeOrigin_after_closeSteps hwait hprog).same .exec rfl).trans (by rw [hclose])⟩

theorem beforeOrigin_wait : (beforeOrigin s).inspect.wait = [] := by
  obtain ⟨n, -, hclose⟩ := closeSteps_eq s
  have hinspect : (logSteps (closeSteps s)).inspect = s.inspect :=
    ((logSteps_run (flds := [.out, .hostA, .hostB, .seq, .log, .gauges]) _ (.refl _ _) (by decide)).same .inspect rfl).trans (by rw [hclose])
  rw [beforeOrigin, ckptStream_of_none (by rw [hclose]; exact hprog)]
  exact lateHandovers_wait (by rw [hinspect, hwait])

theorem beforeOrigin_job : (beforeOrigin s).job = s.job := (beforeOrigin_run hwait hprog).same .job rfl

theorem beforeOrigin_twin : (beforeOrigin s).twin = s.twin := (beforeOrigin_run hwait hprog).same .twin rfl

theorem beforeOrigin_nextOrigin : nextOrigin (beforeOrigin s) = nextOrigin s := by
  obtain ⟨n, -, hexec⟩ := beforeOrigin_exec hwait hprog
  exact nextOrigin_congr (beforeOrigin_job hwait hprog) (by rw [hexec])

theorem beforeOrigin_tideNow : tideNow (beforeOrigin s) = tideNow s :=
  congrArg (fun x => x.count.toNat) ((beforeOrigin_run hwait hprog).same .tide rfl)

end

theorem mem_openSteps {k : Nat} {s : State} : k ∈ openSteps s ↔ max s.job.ts s.exec.doneTo ≤ k ∧ k ≤ s.job.cstep := by
  simp only [openSteps, List.mem_map, List.mem_range]
  constructor
  · rintro ⟨i, hi, rfl⟩
    omega
  · rintro ⟨hlo, hhi⟩
    exact ⟨k - max s.job.ts s.exec.doneTo, by omega, by omega⟩

/-- A step that has committed stays so while steps are closed. -/
theorem stepCommitted_mono {k : Nat} {s t : State} (h : stepCommitted k s = true) (hjob : t.job = s.job)
    (hruns : t.exec.runs = s.exec.runs) (hdone : s.exec.doneTo ≤ t.exec.doneTo) : stepCommitted k t = true := by
  simp only [stepCommitted, stepOver, tasks, runOf, hjob, hruns, Bool.or_eq_true, decide_eq_true_eq] at h ⊢
  exact h.imp_left fun hk => Nat.lt_of_lt_of_le hk hdone

theorem openSteps_committed {s t : State} (h : ∀ k ∈ openSteps s, stepCommitted k s = true) (hjob : t.job = s.job)
    (hruns : t.exec.runs = s.exec.runs) (hdone : s.exec.doneTo ≤ t.exec.doneTo) : ∀ k ∈ openSteps t, stepCommitted k t = true := by
  intro k hk
  rw [mem_openSteps, hjob] at hk
  exact stepCommitted_mono (h k (mem_openSteps.mpr ⟨by omega, hk.2⟩)) hjob hruns hdone

/-! #### The next step -/

/-- The next step is current (R151). -/
def advanced (s : State) : State :=
  { s with exec := { s.exec with origins := s.exec.origins ++ [(s.job.cstep, origin s)] },
           job := { s.job with cstep := s.job.cstep + 1, shift := s.job.shift + slipSum s.job.cstep s } }

theorem newStep_without_ckpt (im : JobImage) {s : State} (hstop : s.job.stopping = false) (hsched : s.twin.sched.contains s.job.cstep = false)
    (hprog : s.twin.inProg = none) : newStep im s = leadSchedule (boundaryActions (prune (logSteps (advanced s)))) := by
  have htwin : (logSteps (advanced s)).twin = s.twin :=
    (logSteps_run (flds := [.out, .hostA, .hostB, .seq, .log, .gauges]) _ (.refl _ (advanced s)) (by decide)).same .twin rfl
  have hstream : ckptStream (logSteps (advanced s)) = logSteps (advanced s) := ckptStream_of_none (by rw [htwin, hprog])
  have hstop' : ¬ s.job.stopping = true := by simp [hstop]
  simp only [newStep, if_neg hstop', hsched, Bool.false_eq_true, if_false, if_true, Nat.add_zero]
  exact congrArg (fun u => leadSchedule (boundaryActions (prune u))) hstream

theorem origin_advanced {s t : State} (hts : s.job.ts ≤ s.job.cstep) (hjob : t.job = (advanced s).job) : origin t = nextOrigin s := by
  have hsteps : s.job.cstep + 1 - s.job.ts = s.job.cstep - s.job.ts + 1 := by omega
  simp only [nextOrigin, origin, period, hjob, advanced, hsteps, Nat.add_mul, Nat.one_mul]
  omega

/-- What a step that begins without a checkpoint has: the job is that of `advanced`, and the boundary's actions are done. -/
theorem boundary_of_advanced {s : State} (hwait : s.inspect.wait = []) :
    let t := leadSchedule (boundaryActions (prune (logSteps (advanced s))))
    t.job = (advanced s).job ∧ t.mem = s.mem ∧ BoundaryDone t := by
  intro t
  have hadvance : Run [.exec, .job] s (advanced s) :=
    ⟨fun f hf => by cases f <;> first | exact absurd hf (by decide) | exact Eq.refl _, id, id, id, List.prefix_refl _, Nat.le_refl _⟩
  have hprune : Run [.out, .hostA, .hostB, .seq, .log, .gauges, .exec] (advanced s) (prune (logSteps (advanced s))) :=
    prune_run _ (logSteps_run _ (.refl _ _) (by decide)) (by decide)
  have hwait' : (prune (logSteps (advanced s))).inspect.wait = [] :=
    (congrArg Inspect.wait ((hprune.same .inspect rfl).trans (hadvance.same .inspect rfl))).trans hwait
  have hact := boundaryActions_run_of_no_wait hwait'
  have hlead : Run [.out, .fabric, .twin] (boundaryActions (prune (logSteps (advanced s)))) t := leadSchedule_run _ (.refl _ _) (by decide)
  refine ⟨?_, ?_, (boundaryActions_done hwait').of_same (hlead.same .levee rfl) (hlead.same .links rfl) (hlead.same .plls rfl)⟩
  · exact ((hlead.same .job rfl).trans (hact.same .job rfl)).trans (hprune.same .job rfl)
  · exact (((hlead.same .mem rfl).trans (hact.same .mem rfl)).trans (hprune.same .mem rfl)).trans (hadvance.same .mem rfl)

/-! #### The end of a run -/

theorem finishStop_eq (t first : Nat) (s : State) :
    ∃ u v, finishStop t first s = endOp 0x0103 { status := 0, result := t, fault := 0, at_ := v.now } (endOp 0x0201 (doneNow 0x0A 0 v) v) ∧
      v = abandonTasks (setJob .stopped u) ∧ u.warden = s.warden ∧ u.now = s.now ∧
      u.job = { s.job with stopping := false, nextFirst := first, abandoned := false } :=
  ⟨_, _, rfl, rfl, rfl, rfl, rfl⟩

theorem finishStop_job (t first : Nat) (s : State) : (finishStop t first s).job =
    { s.job with state := .stopped, stopping := false, nextFirst := first, abandoned := false } := by
  obtain ⟨u, v, heq, rfl, -, -, hjob⟩ := finishStop_eq t first s
  have hdrop : (abandonTasks (setJob .stopped u)).job = (setJob .stopped u).job :=
    (abandonTasks_run (flds := [.out, .exec, .cores, .memStacks]) _ (.refl _ _) (by decide)).same .job rfl
  rw [heq, endOp, endOp, endWhere_job, endWhere_job, hdrop, setJob_job, hjob]

theorem finishStop_ends {a : Accepted} {s : State} (ha : a ∈ s.warden.accepted) (hop : entOp a.entry = 0x0103) (hopen : a.done = none)
    (t first : Nat) :
    { a with done := some { status := 0, result := t, fault := 0, at_ := s.now } } ∈ (finishStop t first s).warden.accepted := by
  obtain ⟨u, v, heq, rfl, huw, hun, -⟩ := finishStop_eq t first s
  have hrun : Run [.out, .hostA, .hostB, .seq, .log, .job, .exec, .cores, .memStacks] u (abandonTasks (setJob .stopped u)) :=
    abandonTasks_run _ (setJob_run .stopped u (.refl _ u) (by decide)) (by decide)
  have hwarden : (abandonTasks (setJob .stopped u)).warden = s.warden := (hrun.same .warden rfl).trans huw
  have hnow : (abandonTasks (setJob .stopped u)).now = s.now := (hrun.same .now rfl).trans hun
  rw [heq, hnow]
  exact endWhere_ends (endWhere_passes (by rwa [hwarden]) (by simp [hop]) _) hopen (by simp [hop]) _

/-! #### The three boundaries -/

/-- A start whose time has come. -/
theorem exec_stepBoundary_start {s : State} {t0 : Nat} (hstart : s.job.startAt = some t0) (hdue : t0 ≤ tideNow s)
    (hstate : s.job.state ≠ .running) : exec .stepBoundary s = .next (boundaryActions (startRun t0 s)) := by
  have hnot : running s = false := by simpa [running] using hstate
  show Host.Outcome.next (stepBoundary s) = _
  simp only [stepBoundary, hstart, hnot, Bool.not_false, and_true, if_pos hdue]

theorem exec_stepBoundary_next {im : JobImage} {s : State} (hwait : s.inspect.wait = []) (hprog : s.twin.inProg = none)
    (hstart : s.job.startAt = none) (himage : s.job.image = some im) (hstate : s.job.state = .running) (hstop : s.job.stopping = false)
    (hvoided : s.exec.voided = false) (hleft : s.job.abandoned = false) (hdue : nextOrigin s ≤ tideNow s)
    (hsched : s.twin.sched.contains s.job.cstep = false) :
    exec .stepBoundary s = .next (leadSchedule (boundaryActions (prune (logSteps (advanced (beforeOrigin s)))))) := by
  obtain ⟨n, -, hexec⟩ := beforeOrigin_exec hwait hprog
  have hjob := beforeOrigin_job hwait hprog
  have htwin := beforeOrigin_twin hwait hprog
  have hnostop : stopDue (beforeOrigin s) = false := by simp [stopDue, hjob, hstop]
  have hcome : originDue (beforeOrigin s) = true := by
    simp [originDue, running, hjob, hstate, hexec, hvoided, hleft, beforeOrigin_nextOrigin hwait hprog, beforeOrigin_tideNow hwait hprog, hdue]
  show Host.Outcome.next (stepBoundary s) = _
  rw [stepBoundary_running hstart himage hstate, hnostop, hcome,
    ← newStep_without_ckpt im (by rw [hjob, hstop]) (by rw [htwin, hjob, hsched]) (by rw [htwin, hprog])]
  rfl

theorem exec_stepBoundary_stop {im : JobImage} {s : State} (hwait : s.inspect.wait = []) (hprog : s.twin.inProg = none)
    (hstart : s.job.startAt = none) (himage : s.job.image = some im) (hstate : s.job.state = .running) (hstop : s.job.stopping = true)
    (hdue : nextOrigin s ≤ tideNow s) (hcommitted : ∀ k ∈ openSteps s, stepCommitted k s = true) :
    exec .stepBoundary s = .next (finishStop s.job.cstep (s.job.cstep + 1) (beforeOrigin s)) := by
  obtain ⟨n, hn, hexec⟩ := beforeOrigin_exec hwait hprog
  have hjob := beforeOrigin_job hwait hprog
  have hall : ∀ k ∈ openSteps (beforeOrigin s), stepCommitted k (beforeOrigin s) = true :=
    openSteps_committed hcommitted hjob (by rw [hexec]) (by rw [hexec]; exact hn)
  have hend : stopDue (beforeOrigin s) = true := by
    simpa [stopDue, running, hjob, hstate, hstop, beforeOrigin_twin hwait hprog, hprog, beforeOrigin_nextOrigin hwait hprog,
      beforeOrigin_tideNow hwait hprog, hdue] using hall
  show Host.Outcome.next (stepBoundary s) = _
  rw [stepBoundary_running hstart himage hstate, hend, hjob]
  rfl

/-- Settles O55. No failed core waits, so the handovers of a boundary fail no package, and its notices have no slip: neither the job, nor its
memory, nor a command that has ended changes behind `startRun`, `advanced` or `finishStop`. -/
theorem stepBoundaries : Obligations.StepBoundaries := by
  unfold Obligations.StepBoundaries
  intro s hwait bound
  refine ⟨fun t0 hstart hdue hstate => ?_, fun im hstart himage hstate hprog => ⟨fun hstop hvoided hleft hdue hsched hts => ?_,
    fun hstop hdue hcommitted => ?_⟩⟩
  · have hbegin : Run [.out, .hostA, .hostB, .warden, .seq, .log, .job, .exec, .twin] s (startRun t0 s) :=
      startRun_run t0 s (.refl _ s) (by decide)
    have hwait' : (startRun t0 s).inspect.wait = [] := (congrArg Inspect.wait (hbegin.same .inspect rfl)).trans hwait
    have hrun := boundaryActions_run_of_no_wait hwait'
    have hjob : (boundaryActions (startRun t0 s)).job = (startRun t0 s).job := hrun.same .job rfl
    obtain ⟨hchanges, hclear, hlosses⟩ := boundaryActions_done hwait'
    have hbegun := hjob.trans (startRun_job t0 s)
    refine ⟨_, exec_stepBoundary_start hstart hdue hstate, by rw [hbegun], by rw [hbegun], by rw [hbegun], by rw [hbegun], by rw [hbegun],
      origin_startRun t0 s hjob,
      (hrun.same .mem rfl).trans (hbegin.same .mem rfl), ⟨hchanges, hclear, hlosses⟩, fun a ha hop hstarted hopen => ?_⟩
    exact ⟨_, boundaryActions_keepsDone hwait' (startRun_ends ha hop hstarted hopen t0) rfl, rfl, rfl⟩
  · have hjob := beforeOrigin_job hwait hprog
    obtain ⟨hjob', hmem, hchanges, hclear, hlosses⟩ := boundary_of_advanced (beforeOrigin_wait hwait hprog)
    refine ⟨_, exec_stepBoundary_next hwait hprog hstart himage hstate hstop hvoided hleft hdue hsched, ?_, ?_, ?_,
      hmem.trans ((beforeOrigin_run hwait hprog).same .mem rfl), hchanges, hclear, hlosses⟩
    · rw [hjob', advanced, hjob, hstate]
    · rw [hjob', advanced, hjob]
    · rw [origin_advanced (by rw [hjob]; exact hts) hjob', beforeOrigin_nextOrigin hwait hprog]
  · have hrun := beforeOrigin_run hwait hprog
    have hwarden : (beforeOrigin s).warden = s.warden := hrun.same .warden rfl
    have hnow : (beforeOrigin s).now = s.now := hrun.same .now rfl
    have hmem : (finishStop s.job.cstep (s.job.cstep + 1) (beforeOrigin s)).mem = s.mem :=
      (finishStop_run _ _ _ (hrun.mono (w := [.out, .hostA, .hostB, .warden, .seq, .log, .job, .exec, .gauges, .dies, .cores, .coreStore,
        .memStacks, .twin, .inspect]) (by decide)) (by decide)).same .mem rfl
    refine ⟨_, exec_stepBoundary_stop hwait hprog hstart himage hstate hstop hdue hcommitted, by rw [finishStop_job], by rw [finishStop_job],
      hmem, fun a ha hop hopen => ⟨_, finishStop_ends (by rwa [hwarden]) hop hopen _ _, rfl, by rw [hnow]⟩⟩

end Sys2Proof.Proofs

/-! ### Loading a job (R145, R152, R284) -/

namespace Sys2Proof.Proofs

open Machine Laws

/-! #### Checks and stretches beside the mailboxes -/

theorem check17_of_mailboxOnly {s t : State} (h : MailboxOnly s t) (hl : SameLinks s t) (im : JobImage) : check17 im t = check17 im s := by
  have hlinks : t.links = s.links := congr_mailboxOnly State.links h
  have hfabric : t.fabric = s.fabric := congr_mailboxOnly State.fabric h
  have hfar : t.far = s.far := congr_mailboxOnly State.far h
  have hlevee : t.levee = s.levee := congr_mailboxOnly State.levee h
  have hpolicy : policyDiffers im t = policyDiffers im s := congr_mailboxOnly (policyDiffers im) h
  simp only [check17, linkBelow, fabOf, hlinks, hfabric, hfar, hlevee, hpolicy, hl .a, hl .b, List.all_cons, List.all_nil]

theorem imageCheck_of_mailboxOnly {s t : State} (h : MailboxOnly s t) (hl : SameLinks s t) (b : Bytes) (a : LoadArgs) :
    imageCheck b a t = imageCheck b a s := by
  have hguard : t.warden.guard = s.warden.guard := congr_mailboxOnly (fun u => u.warden.guard) h
  have hneigh : ∀ im, neighbourFails im a t = neighbourFails im a s := fun im => congr_mailboxOnly (neighbourFails im a) h
  simp only [imageCheck, check17_of_mailboxOnly h hl, hneigh, hguard]

theorem stretchCause_of_mailboxOnly {s t : State} (h : MailboxOnly s t) (ps : List (Nat × Nat)) : stretchCause ps t = stretchCause ps s :=
  congr_mailboxOnly (stretchCause ps) h

theorem keepLocked_sameLinks (a : Accepted) (s : State) : SameLinks s (keepLocked a s)
  | .a => rfl
  | .b => rfl

theorem lock_sameLinks (l : Lock) (s : State) : SameLinks s { s with lock := l }
  | .a => rfl
  | .b => rfl

theorem restartLease_sameLinks (s : State) : SameLinks s (restartLease s) := lock_sameLinks _ s

theorem takenState_sameLinks (mb : Mbox) (e : Bytes) (ext : EnvAnswer) (s : State) : SameLinks s (takenState mb e ext s) := by
  unfold takenState
  extract_lets t
  have ht : SameLinks s t := (popEntry_sameLinks mb s).trans (keepLocked_sameLinks _ _)
  split
  · exact ht.trans (restartLease_sameLinks t)
  · exact ht

theorem acceptedState_sameLinks (mb : Mbox) (e : Bytes) (ext : EnvAnswer) (s : State) : SameLinks s (acceptedState mb e ext s) :=
  (takenState_sameLinks mb e ext s).trans (putCpl_sameLinks mb e 0 0 (cmdDeadline true e (popEntry mb s)) 0 0 false (takenState mb e ext s))

theorem startedState_sameLinks (mb : Mbox) (e : Bytes) (ext : EnvAnswer) (s : State) : SameLinks s (startedState mb e ext s) := by
  have h := acceptedState_sameLinks mb e ext s
  unfold startedState
  generalize acceptedState mb e ext s = t at h ⊢
  exact h

theorem withStretches_of_cause {ps : List (Nat × Nat)} {x k : Nat} {s : State} (h : stretchCause ps s = some (x, k)) (a : Accepted)
    (f : State → State) : withStretches ps a f s = finish a 6 0 (logAccess x .hub k s) := by
  simp only [withStretches, h]

theorem withStretches_of_reached {ps : List (Nat × Nat)} {s : State} (h : stretchCause ps s = none) (a : Accepted)
    (f : State → State) : withStretches ps a f s = f s := by
  simp only [withStretches, h]

/-! #### What a load writes -/

/-- The job of an image, none of whose bytes has been written yet. -/
def loadBase (im : JobImage) (a : LoadArgs) (s : State) : State :=
  { s with
    exec := Exec.reset, inspect := { s.inspect with wait := [] }, gauges := { cells := [], step := [] }, queues := im.queues.map loadQueue,
    job := { JobCtl.reset with state := s.job.state, image := some im, tag := BitVec.ofNat 16 a.tag, x := a.x, y := a.y, z := a.z,
                               neigh := a.neigh, cstep := im.step0, nextFirst := im.step0 },
    twin := { s.twin with rollback := none, sched := [], byStop := false, inProg := none, sent := none, doneFrom := [],
                          m := 86400000000000, ran := 0, schedRun := 0, lastStopEnd := 0, nextCkpt := none, gaugesCopy := none } }

/-- The record of a tensor's optimizer, written to its stream. -/
def putOptRec (s : State) (o : OptRec) : State :=
  match tensorOf o.tensor 0x18 s with
  | some e => ptrWrite (entryPlace e s) e.base 0 o.bytes s
  | none => s

/-- What a load writes beside its control state. -/
def loadWrites (im : JobImage) (s : State) : State :=
  let s := copyPayloads (im.init ++ im.chanlist ++ im.berm) (clearKeeps s)
  let s := im.chanlist.foldl (fun s p => keepLists (ptrAddr p.dest) p.data s) s
  let s := im.optrecs.foldl putOptRec s
  let s := (recordStreams im 0x0B).foldl (fun s e => ptrWrite (entryPlace e s) e.base 0 (leBytes 4 0) s) s
  (updTensors im).foldl (fun s k => regenTensor im k s) s

theorem loadJob_eq (im : JobImage) (a : LoadArgs) (s : State) : loadJob im a s = setJob .loaded (loadWrites im (loadBase im a s)) := rfl

theorem putOptRec_run (o : OptRec) (s : State) : Run [.out, .coreStore, .memStacks, .mem] s (putOptRec s o) := by
  unfold putOptRec
  split
  · exact ptrWrite_run _ _ _ _ s (.refl _ s) (by decide)
  · exact .refl _ s

theorem loadWrites_run (im : JobImage) (s : State) : Run [.out, .exec, .coreStore, .memStacks, .mem] s (loadWrites im s) := by
  unfold loadWrites
  refine .foldl (.foldl (.foldl (.foldl (copyPayloads_run _ _ (clearKeeps_run s (.refl _ s) (by decide)) (by decide)) ?_) ?_) ?_) ?_
  · exact fun p x hx => keepLists_run _ _ x hx (by decide)
  · exact fun o x hx => hx.trans (putOptRec_run o x) (by decide)
  · exact fun e x hx => ptrWrite_run _ _ _ _ x hx (by decide)
  · exact fun k x hx => regenTensor_run im k x hx (by decide)

theorem loadBase_run (im : JobImage) (a : LoadArgs) (s : State) : Run [.queues, .job, .exec, .gauges, .twin, .inspect] s (loadBase im a s) :=
  ⟨fun f hf => by cases f <;> first | exact absurd hf (by decide) | exact Eq.refl _, id, id, id, List.prefix_refl _, Nat.le_refl _⟩

theorem loadJob_after_base (im : JobImage) (a : LoadArgs) (s : State) :
    Run [.out, .hostA, .hostB, .seq, .log, .job, .exec, .coreStore, .memStacks, .mem] (loadBase im a s) (loadJob im a s) :=
  setJob_run _ _ ((loadWrites_run im _).mono (by decide)) (by decide)

theorem loadJob_job (im : JobImage) (a : LoadArgs) (s : State) : (loadJob im a s).job = { (loadBase im a s).job with state := .loaded } := by
  have hjob : (loadWrites im (loadBase im a s)).job = (loadBase im a s).job := (loadWrites_run im _).same .job rfl
  rw [loadJob_eq, setJob_job, hjob]

/-! #### JOB_LOAD -/

section
variable {mb : Mbox} {data : Option Bytes} {e : Bytes} {s : State} (ho : Offered 0x0101 mb e s) (hl : LockedIdle s)

include ho in
theorem cmdDeadline_jobLoad : cmdDeadline true e s = lockedFrom s + cdiv (entLen e) 100 + 2000000000 := by
  simp [cmdDeadline, ho.opcode, boundStart, lockedFrom]

include ho in
/-- Host memory answers with the image where it has as many bytes as the entry names. -/
theorem dataExt_jobLoad : dataExt mb data s = .data (data.bind fun b => if b.length = entLen e then some b else none) := by
  have hop : entOp e = 0x0101 := ho.opcode
  have hdrain : drain mb s = s := drain_of_command ho.front (by rw [hop]; rfl)
  unfold dataExt
  rw [hdrain, ho.front]
  cases data with
  | none => rfl
  | some b => rfl

include ho hl in
theorem exec_jobLoad : exec (.jobLoad mb data) s = .next (drain mb (runJobLoad (startedCmd mb e (dataExt mb data s) s)
    (startedState mb e (dataExt mb data s) s))) :=
  exec_starts (f := runJobLoad) (i := .jobLoad mb data) rfl ho hl rfl rfl (by decide) fun a t ha hop => by simp [runOp, ha, hop]

end

/-- A command that ends at once after an operation that leaves the warden and the clock alone. -/
theorem ends_of_run {flds : List StateField} {mb : Mbox} {e : Bytes} {ext : EnvAnswer} {s t : State}
    (h : Run flds (startedState mb e ext s) t) (hwarden : flds.contains .warden = false) (hnow : flds.contains .now = false)
    (status result : Nat) :
    Ends mb e (cmdDeadline true e s) status result s (drain mb (finish (startedCmd mb e ext s) status result t)) := by
  have hw : t.warden = (startedState mb e ext s).warden := h.same .warden hwarden
  have hn : t.now = s.now := (h.same .now hnow).trans (startedState_now mb e ext s)
  exact ends_finish (hw ▸ startedCmd_mem_startedState mb e ext s) hn status result

theorem finish_drain_mailboxOnly (mb : Mbox) (a : Accepted) (status result : Nat) (s : State) :
    MailboxOnly s (drain mb (finish a status result s)) :=
  mailboxOnly_trans (finishAt_mailboxOnly ..) (drain_mailboxOnly ..)

/-- A command that ends at once after an event that it logs: nothing but mailboxes changes. -/
theorem ends_of_log {mb : Mbox} {e : Bytes} {ext : EnvAnswer} {s t : State}
    (h : Run [.out, .hostA, .hostB, .i3c, .seq, .log] (startedState mb e ext s) t) (status result : Nat) :
    MailboxOnly s (drain mb (finish (startedCmd mb e ext s) status result t)) ∧
      Ends mb e (cmdDeadline true e s) status result s (drain mb (finish (startedCmd mb e ext s) status result t)) :=
  ⟨mailboxOnly_trans (mailboxOnly_trans (startedState_mailboxOnly mb e ext s) (mailboxOnly_of_run h)) (finish_drain_mailboxOnly ..),
    ends_of_run h rfl rfl status result⟩

section
variable {a : Accepted} {s : State}

theorem runJobLoad_unpaired (h : s.twin.phys = none) : runJobLoad a s = finish a 6 0 s := by simp [runJobLoad, h]

theorem runJobLoad_no_image (h : s.twin.phys ≠ none) (hext : a.ext = .data none) : runJobLoad a s = finish a 9 0 s := by
  simp [runJobLoad, h, hext]

theorem runJobLoad_refused {b : Bytes} (h : s.twin.phys ≠ none) (hext : a.ext = .data (some b)) (hcheck : imageCheck b (loadArgs a.entry) s ≠ 0) :
    runJobLoad a s = finish a 7 (imageCheck b (loadArgs a.entry) s) (logEv 0x0002
      (imageUnit a b (imageCheck b (loadArgs a.entry) s) s) 0x0101 7 (imageCheck b (loadArgs a.entry) s) (entTag a.entry) s) := by
  simp only [runJobLoad, Option.isNone_iff_eq_none, h, hext, if_neg hcheck, if_false]

theorem runJobLoad_accepted {b : Bytes} (h : s.twin.phys ≠ none) (hext : a.ext = .data (some b)) (hcheck : imageCheck b (loadArgs a.entry) s = 0) :
    runJobLoad a s = withStretches (loadStretches (decodeImage b)) a
      (fun s => finish a 0 0 (loadJob (decodeImage b) (loadArgs a.entry) s)) s := by
  simp only [runJobLoad, Option.isNone_iff_eq_none, h, hext, if_pos hcheck, if_false]

end

/-- What JOB_LOAD does (R145, R152, R284). -/
theorem jobLoad_effect {mb : Mbox} {data : Option Bytes} {e : Bytes} {s : State} (ho : Offered 0x0101 mb e s) (hl : LockedIdle s) :
    ∃ t, exec (.jobLoad mb data) s = .next t ∧
      (s.twin.phys = none → MailboxOnly s t ∧ Ends mb e (cmdDeadline true e s) 6 0 s t) ∧
      (s.twin.phys ≠ none → (∀ b, data = some b → b.length ≠ entLen e) → MailboxOnly s t ∧ Ends mb e (cmdDeadline true e s) 9 0 s t) ∧
      (∀ b, s.twin.phys ≠ none → data = some b → b.length = entLen e →
        (imageCheck b (loadArgs e) s ≠ 0 →
          MailboxOnly s t ∧ Ends mb e (cmdDeadline true e s) 7 (imageCheck b (loadArgs e) s) s t) ∧
        (imageCheck b (loadArgs e) s = 0 → stretchCause (loadStretches (decodeImage b)) s ≠ none →
          MailboxOnly s t ∧ Ends mb e (cmdDeadline true e s) 6 0 s t) ∧
        (imageCheck b (loadArgs e) s = 0 → stretchCause (loadStretches (decodeImage b)) s = none →
          Ends mb e (cmdDeadline true e s) 0 0 s t ∧ ∃ u, MailboxOnly s u ∧ MailboxOnly (loadJob (decodeImage b) (loadArgs e) u) t)) := by
  have hw := startedState_mailboxOnly mb e (dataExt mb data s) s
  have hlinks := startedState_sameLinks mb e (dataExt mb data s) s
  have hentry : (startedCmd mb e (dataExt mb data s) s).entry = e := rfl
  have hext : (startedCmd mb e (dataExt mb data s) s).ext = .data (data.bind fun b => if b.length = entLen e then some b else none) :=
    dataExt_jobLoad ho
  have hexec := exec_jobLoad (data := data) ho hl
  generalize hx : dataExt mb data s = ext at hexec hw hlinks hentry hext
  clear hx
  have hphys : (startedState mb e ext s).twin.phys = s.twin.phys := congr_mailboxOnly (fun u => u.twin.phys) hw
  refine ⟨_, hexec, fun hnone => ?_, fun hpaired hdata => ?_, fun b hpaired hdata hlen => ?_⟩
  · rw [runJobLoad_unpaired (by rw [hphys, hnone])]
    exact ends_of_log (.refl _ _) 6 0
  · have hanswer : (startedCmd mb e ext s).ext = .data none := by
      rw [hext]
      cases data with
      | none => rfl
      | some b => simp [hdata b rfl]
    rw [runJobLoad_no_image (by rwa [hphys]) hanswer]
    exact ends_of_log (.refl _ _) 9 0
  · have hanswer : (startedCmd mb e ext s).ext = .data (some b) := by rw [hext, hdata]; simp [hlen]
    have hcheck := imageCheck_of_mailboxOnly hw hlinks b (loadArgs e)
    have hcause := stretchCause_of_mailboxOnly hw (loadStretches (decodeImage b))
    refine ⟨fun hfails => ?_, fun hpass hfails => ?_, fun hpass hreached => ?_⟩
    · rw [runJobLoad_refused (by rwa [hphys]) hanswer (by rwa [hentry, hcheck]), hentry, hcheck]
      exact ends_of_log (logEv_run _ _ _ _ _ _ _ (.refl _ _) (by decide)) 7 _
    · obtain ⟨⟨x, k⟩, hsome⟩ := Option.ne_none_iff_exists'.mp hfails
      rw [runJobLoad_accepted (by rwa [hphys]) hanswer (by rwa [hentry, hcheck]), withStretches_of_cause (hcause.trans hsome)]
      exact ends_of_log (logEv_run _ _ _ _ _ _ _ (.refl _ _) (by decide)) 6 0
    · rw [runJobLoad_accepted (by rwa [hphys]) hanswer (by rwa [hentry, hcheck]), withStretches_of_reached (hcause.trans hreached), hentry]
      exact ⟨ends_of_run (loadJob_run (flds := [.out, .hostA, .hostB, .seq, .log, .queues, .job, .exec, .gauges, .coreStore, .memStacks, .mem,
        .twin, .inspect]) _ _ _ (.refl _ _) (by decide)) rfl rfl 0 0, _, hw, finish_drain_mailboxOnly ..⟩

/-- The control state of a loaded job. -/
theorem loaded_fields {im : JobImage} {a : LoadArgs} {s u t : State} (hu : MailboxOnly s u) (ht : MailboxOnly (loadJob im a u) t) :
    t.job.state = .loaded ∧ t.job.image = some im ∧ t.job.tag = BitVec.ofNat 16 a.tag ∧ t.job.x = a.x ∧ t.job.y = a.y ∧ t.job.z = a.z ∧
      t.job.cstep = im.step0 ∧ t.job.nextFirst = im.step0 ∧ t.queues = im.queues.map loadQueue ∧ t.twin.rollback = none ∧
      t.twin.phys = s.twin.phys ∧ t.fabric = s.fabric ∧ t.flash = s.flash := by
  have hafter := loadJob_after_base im a u
  have hbase := loadBase_run im a u
  have hjob : t.job = { (loadBase im a u).job with state := .loaded } := (congr_mailboxOnly State.job ht).trans (loadJob_job im a u)
  have hqueues : t.queues = (loadBase im a u).queues := (congr_mailboxOnly State.queues ht).trans (hafter.same .queues rfl)
  have htwin : t.twin = (loadBase im a u).twin := (congr_mailboxOnly State.twin ht).trans (hafter.same .twin rfl)
  have hphys : u.twin.phys = s.twin.phys := congr_mailboxOnly (fun x => x.twin.phys) hu
  have hfabric : t.fabric = u.fabric := (congr_mailboxOnly State.fabric ht).trans ((hafter.same .fabric rfl).trans (hbase.same .fabric rfl))
  have hflash : t.flash = u.flash := (congr_mailboxOnly State.flash ht).trans ((hafter.same .flash rfl).trans (hbase.same .flash rfl))
  rw [hjob, hqueues, htwin, hfabric, hflash, ← hphys]
  exact ⟨rfl, rfl, rfl, rfl, rfl, rfl, rfl, rfl, rfl, rfl, rfl, congr_mailboxOnly State.fabric hu, congr_mailboxOnly State.flash hu⟩

/-! ### A restore (R294, R295, log entry 67) -/

/-! #### Contract scales -/

theorem scaleOf_setScale_same (slot step : Nat) (v : Int) (s : State) : scaleOf slot step (setScale slot step v s) = v := by
  simp [scaleOf, setScale]

theorem find?_setScale_other {slot slot' : Nat} (h : slot' ≠ slot) (step step' : Nat) (v : Int) (s : State) :
    (setScale slot step v s).exec.scales.find? (fun x => x.1 == slot' && x.2.1 == step') =
      s.exec.scales.find? fun x => x.1 == slot' && x.2.1 == step' := by
  show List.find? _ ((slot, step, v) :: s.exec.scales.filter _) = _
  rw [List.find?_cons_of_neg (by simp [h.symm]), List.find?_filter]
  refine congrArg (fun p => List.find? p s.exec.scales) (funext fun x => ?_)
  by_cases hx : x.1 = slot'
  · have hslot : (x.1 == slot) = false := by simp [hx, h]
    simp only [hslot, Bool.false_and, Bool.not_false, Bool.and_true, true_and, Bool.decide_eq_true]
  · have hslot : (x.1 == slot') = false := by simp [hx]
    simp only [hslot, Bool.false_and, Bool.false_eq_true, and_false, decide_false]

theorem scaleOf_setScale_other {slot slot' : Nat} (h : slot' ≠ slot) (step step' : Nat) (v : Int) (s : State) :
    scaleOf slot' step' (setScale slot step v s) = scaleOf slot' step' s := by
  unfold scaleOf
  rw [find?_setScale_other h]
  rfl

/-- Scales that are set one after the other, where every one of a slot has the same value. -/
theorem scaleOf_foldl_setScale {α : Type} {slot : α → Nat} {val : α → Int} {k step : Nat} {v : Int} (l : List α) (s : State)
    (hval : ∀ x ∈ l, slot x = k → val x = v) (hset : (∃ x ∈ l, slot x = k) ∨ scaleOf k step s = v) :
    scaleOf k step (l.foldl (fun s x => setScale (slot x) step (val x) s) s) = v := by
  induction l generalizing s with
  | nil => simpa using hset
  | cons x l ih =>
    refine ih _ (fun y hy => hval y (.tail _ hy)) ?_
    by_cases hx : slot x = k
    · exact .inr (by rw [← hx, scaleOf_setScale_same, hval x (.head _) hx])
    · rcases hset with ⟨y, hy, hyk⟩ | hs
      · rcases List.mem_cons.mp hy with rfl | hy
        · exact absurd hyk hx
        · exact .inl ⟨y, hy, hyk⟩
      · exact .inr (by rw [scaleOf_setScale_other (Ne.symm hx), hs])

theorem scaleOf_congr {s t : State} (hscales : t.exec.scales = s.exec.scales) (himage : t.job.image = s.job.image) (slot step : Nat) :
    scaleOf slot step t = scaleOf slot step s := by
  simp only [scaleOf, hscales, himage]

/-! #### The stages of a record -/

/-- The streams and the channel lists of a record are put back. -/
def putRecordStreams (im : JobImage) (b : Bytes) (s : State) : State :=
  let sec := fun k => sectionOf k b
  let s := putStreams (recordStreams im 0x15) (sec 1) s
  let s := putStreams (recordStreams im 0x16) (sec 2) s
  let s := putStreams (recordStreams im 0x17) (sec 3) s
  let s := putStreams (recordStreams im 0x18) (sec 4) s
  let s := putStreams (recordStreams im 0x07) (sec 5) s
  (recordStreams im 0x07).foldl (fun s e => keepLists (ptrAddr e.base) (streamBytes s e) s) s

/-- The contract scales of the step after that of a record. -/
def putRecordScales (im : JobImage) (t : Nat) (b : Bytes) (s : State) : State :=
  (im.contracts.zipIdx).foldl (fun s c => setScale c.1.cslot (t + 1) (toSigned 16 (field (sectionOf 6 b) (2 * c.2) 2)) s) s

/-- The history of verdict sums and the checkpoint control of a record. -/
def putRecordControl (b : Bytes) (s : State) : State :=
  let h := sectionOf 8 b
  let c := sectionOf 10 b
  { s with
    exec := { s.exec with verdicts := [], nfLogged := [],
                          history := (List.range (min (field h 0 4) 64)).map fun i => toSigned 64 (field h (4 + 8 * i) 8) }
    twin := { s.twin with m := field c 0 8, ran := field c 8 8, lastStopEnd := field c 16 8 } }

/-- The gauges of a record. -/
def putRecordGauges (im : JobImage) (t : Nat) (b : Bytes) (s : State) : State :=
  match s.twin.gaugesCopy with
  | some (k, g) => if k = t then putGauges im g s else if bit (field b 18 1) 1 then s else putGauges im (sectionOf 9 b) s
  | none => if bit (field b 18 1) 1 then s else putGauges im (sectionOf 9 b) s

/-- The seed factors of a record, and what is generated again from the streams. -/
def regenRecord (im : JobImage) (b : Bytes) (s : State) : State :=
  let s := copyPayloads im.berm (putSeeds im (sectionOf 7 b) s)
  let us := im.tasks.filter fun k => k.dtype == 3
  us.foldl (fun s t => regenTctl im t s) (us.foldl (restoreShard im) s)

theorem applyRecord_eq (im : JobImage) (t : Nat) (b : Bytes) (s : State) : applyRecord im t b s =
    regenRecord im b (putRecordGauges im t b (putRecordControl b (putRecordScales im t b (putRecordStreams im b s)))) := rfl

/-- The restored scales and history stand, and so does the checkpoint control. -/
structure KeepsRestored (s t : State) : Prop where
  scales : t.exec.scales = s.exec.scales
  history : t.exec.history = s.exec.history
  twin : t.twin = s.twin
  job : t.job = s.job

theorem KeepsRestored.refl (s : State) : KeepsRestored s s := ⟨rfl, rfl, rfl, rfl⟩

theorem KeepsRestored.trans {s t u : State} (h : KeepsRestored s t) (k : KeepsRestored t u) : KeepsRestored s u :=
  ⟨k.scales.trans h.scales, k.history.trans h.history, k.twin.trans h.twin, k.job.trans h.job⟩

theorem KeepsRestored.of_run {flds : List StateField} {s t : State} (h : Run flds s t) (hexec : flds.contains .exec = false)
    (htwin : flds.contains .twin = false) (hjob : flds.contains .job = false) : KeepsRestored s t :=
  have hsame : t.exec = s.exec := h.same .exec hexec
  ⟨by rw [hsame], by rw [hsame], h.same .twin htwin, h.same .job hjob⟩

theorem KeepsRestored.foldl {α : Type} {f : State → α → State} (hf : ∀ s a, KeepsRestored s (f s a)) (l : List α) (s : State) :
    KeepsRestored s (l.foldl f s) := by
  induction l generalizing s with
  | nil => exact .refl s
  | cons a l ih => exact (hf s a).trans (ih _)

theorem putRecordGauges_keeps (im : JobImage) (t : Nat) (b : Bytes) (s : State) : KeepsRestored s (putRecordGauges im t b s) := by
  have hput : ∀ g, KeepsRestored s (putGauges im g s) := fun _ => ⟨rfl, rfl, rfl, rfl⟩
  unfold putRecordGauges
  split
  · split
    · exact hput _
    · split
      · exact .refl s
      · exact hput _
  · split
    · exact .refl s
    · exact hput _

theorem ptrWrite_keepsRestored (at_ : Place) (p off : Nat) (data : Bytes) (s : State) : KeepsRestored s (ptrWrite at_ p off data s) :=
  .of_run (ptrWrite_run (flds := [.out, .coreStore, .memStacks, .mem]) at_ p off data s (.refl _ s) (by decide)) rfl rfl rfl

/-- One seed factor of a record. -/
def putSeed (b : Bytes) (x : Nat × State) (e : TensorEntry) : Nat × State :=
  if field b x.1 4 = 1 then
    let s := ptrWrite (entryPlace e x.2) e.base 0 (slice b x.1 e.length) x.2
    (x.1 + e.length, { s with exec := { s.exec with seedFlags := e.tensor :: s.exec.seedFlags } })
  else (x.1 + 4, x.2)

theorem foldl_putSeed_keeps (b : Bytes) (l : List TensorEntry) (x : Nat × State) : KeepsRestored x.2 (l.foldl (putSeed b) x).2 := by
  induction l generalizing x with
  | nil => exact .refl x.2
  | cons e l ih =>
    refine .trans ?_ (ih _)
    unfold putSeed
    split
    · obtain ⟨hscales, hhistory, htwin, hjob⟩ := ptrWrite_keepsRestored (entryPlace e x.2) e.base 0 (slice b x.1 e.length) x.2
      exact ⟨hscales, hhistory, htwin, hjob⟩
    · exact .refl x.2

theorem putSeeds_keeps (im : JobImage) (b : Bytes) (s : State) : KeepsRestored s (putSeeds im b s) := by
  obtain ⟨hscales, hhistory, htwin, hjob⟩ := foldl_putSeed_keeps b (recordStreams im 0x0B) (0, { s with exec := { s.exec with seedFlags := [] } })
  exact ⟨hscales, hhistory, htwin, hjob⟩

theorem putFactor_keepsRestored (at_ : Place) (v first rows : Nat) (cols : List (List F32)) (s : State) :
    KeepsRestored s (putFactor at_ v first rows cols s) :=
  .of_run (putFactor_run (flds := [.out, .coreStore, .memStacks, .mem]) at_ v first rows cols s (.refl _ s) (by decide)) rfl rfl rfl

theorem putBerm_keepsRestored (tensor : Nat) (before after : F32) (resets : Nat) (s : State) :
    KeepsRestored s (putBerm tensor before after resets s) := ⟨rfl, rfl, rfl, rfl⟩

theorem regenBerm_keepsRestored (im : JobImage) (t : TaskRec) (vprev : List (List F32)) (s : State) :
    KeepsRestored s (regenBerm im t vprev s) :=
  ((putFactor_keepsRestored _ _ _ _ _ s).trans (putFactor_keepsRestored _ _ _ _ _ _)).trans (putBerm_keepsRestored _ _ _ _ _)

theorem restoreShard_keeps (im : JobImage) (s : State) (t : TaskRec) : KeepsRestored s (restoreShard im s t) := by
  unfold restoreShard
  extract_lets u v
  have hv : KeepsRestored s v :=
    .of_run (regenTiles_run (flds := [.out, .coreStore, .memStacks, .mem]) im t s (.refl _ s) (by decide)) rfl rfl rfl
  split
  · exact hv.trans (regenBerm_keepsRestored _ _ _ v)
  · exact hv

theorem regenRecord_keeps (im : JobImage) (b : Bytes) (s : State) : KeepsRestored s (regenRecord im b s) := by
  have hcopy : ∀ u, KeepsRestored u (copyPayloads im.berm u) := fun u =>
    .of_run (copyPayloads_run (flds := [.out, .memStacks, .mem]) _ u (.refl _ u) (by decide)) rfl rfl rfl
  have htctl : ∀ u t, KeepsRestored u (regenTctl im t u) := fun u t =>
    .of_run (regenTctl_run (flds := [.out, .coreStore, .memStacks, .mem]) im t u (.refl _ u) (by decide)) rfl rfl rfl
  exact (((putSeeds_keeps im _ s).trans (hcopy _)).trans (.foldl (restoreShard_keeps im) _ _)).trans (.foldl htctl _ _)

/-- What a restore brings stands at its end. -/
theorem applyRecord_keeps (im : JobImage) (t : Nat) (b : Bytes) (s : State) :
    KeepsRestored (putRecordControl b (putRecordScales im t b (putRecordStreams im b s))) (applyRecord im t b s) := by
  rw [applyRecord_eq]
  exact (putRecordGauges_keeps im t b _).trans (regenRecord_keeps im b _)

theorem putRecordScales_scale {im : JobImage} {c : ContractSlot} {n : Nat} (hc : im.contracts[n]? = some c)
    (honly : ∀ m c', im.contracts[m]? = some c' → c'.cslot = c.cslot → m = n) (t : Nat) (b : Bytes) (s : State) :
    scaleOf c.cslot (t + 1) (putRecordScales im t b s) = toSigned 16 (field (sectionOf 6 b) (2 * n) 2) := by
  refine scaleOf_foldl_setScale (slot := fun x : ContractSlot × Nat => x.1.cslot)
    (val := fun x => toSigned 16 (field (sectionOf 6 b) (2 * x.2) 2)) im.contracts.zipIdx s (fun x hx hslot => ?_) (.inl ⟨(c, n), ?_, rfl⟩)
  · rw [honly x.2 x.1 (List.mem_zipIdx_iff_getElem?.mp hx) hslot]
  · exact List.mem_zipIdx_iff_getElem?.mpr hc

theorem applyRecord_scale {im : JobImage} {c : ContractSlot} {n : Nat} (hc : im.contracts[n]? = some c)
    (honly : ∀ m c', im.contracts[m]? = some c' → c'.cslot = c.cslot → m = n) (t : Nat) (b : Bytes) (s : State) :
    scaleOf c.cslot (t + 1) (applyRecord im t b s) = toSigned 16 (field (sectionOf 6 b) (2 * n) 2) := by
  obtain ⟨hscales, -, -, hjob⟩ := applyRecord_keeps im t b s
  rw [scaleOf_congr hscales (congrArg JobCtl.image hjob)]
  exact putRecordScales_scale hc honly t b (putRecordStreams im b s)

theorem applyRecord_history (im : JobImage) (t : Nat) (b : Bytes) (s : State) : (applyRecord im t b s).exec.history =
    (List.range (min (field (sectionOf 8 b) 0 4) 64)).map fun i => toSigned 64 (field (sectionOf 8 b) (4 + 8 * i) 8) :=
  (applyRecord_keeps im t b s).history

theorem applyRecord_twin (im : JobImage) (t : Nat) (b : Bytes) (s : State) :
    (applyRecord im t b s).twin.m = field (sectionOf 10 b) 0 8 ∧ (applyRecord im t b s).twin.ran = field (sectionOf 10 b) 8 8 ∧
      (applyRecord im t b s).twin.lastStopEnd = field (sectionOf 10 b) 16 8 := by
  rw [(applyRecord_keeps im t b s).twin]
  exact ⟨rfl, rfl, rfl⟩

/-! #### RESTORE -/

/-- A package restored to step `t` from a record of slot `k` (R294, R295). -/
def restored (im : JobImage) (t k : Nat) (b : Bytes) (s : State) : State :=
  let s := applyRecord im t b s
  { s with
    job := { s.job with nextFirst := t + 1, cstep := t, failStopped := false, invalid := false },
    twin := { s.twin with rollback := some (t, k), nextCkpt := none } }

/-- A package whose job is invalid until a restore or a load. -/
def invalidated (s : State) : State := { s with job := { s.job with invalid := true } }

section
variable {a : Accepted} {im : JobImage} {b1 b2 : Bytes} {s : State}

theorem restoreFrom_without_record (himage : s.job.image = some im)
    (hbad : [b1, b2].find? (fun b => recordGood im (arg a.entry 0 4) b s) = none) :
    restoreFrom a b1 b2 s = finish a 0x0A 0 (invalidated s) := by
  simp only [restoreFrom, invalidated, himage, hbad]

theorem restoreFrom_record {b : Bytes} (himage : s.job.image = some im)
    (hgood : [b1, b2].find? (fun b => recordGood im (arg a.entry 0 4) b s) = some b) :
    restoreFrom a b1 b2 s = withStretches (restoreStretches im) a (fun u =>
      finish a 0 0 (restored im (arg a.entry 0 4) (restoreSlot (arg a.entry 0 4) s) b u)) s := by
  simp only [restoreFrom, himage, hgood]
  rfl

/-- A restore runs behind the abort of an inspection slot (Table 11.7). -/
theorem runRestore_unpaired (hown : arg a.entry 4 1 = 0) (h : s.twin.phys = none) : runRestore a s = finish a 6 0 (abortSlot s) := by
  have hphys : (abortSlot s).twin.phys = none := h
  simp only [runRestore, hown, hphys]
  rfl

theorem runRestore_own (hown : arg a.entry 4 1 = 1) : runRestore a s = withStretches areaStretches a
    (fun u => restoreFrom a (ownRecord (arg a.entry 0 4) u) (ownRecord (arg a.entry 0 4) u) u) (abortSlot s) := by
  simp only [runRestore, hown, if_true]

theorem runRestore_twin {p : Nat} (hown : arg a.entry 4 1 = 0) (h : s.twin.phys = some p) (hext : a.ext = .records b1 b2) :
    runRestore a s = restoreFrom a b1 b2 (peerToPhys 0x8030 p
      (leBytes 4 (arg a.entry 0 4) ++ leBytes 1 (restoreSlot (arg a.entry 0 4) (abortSlot s))) (abortSlot s)) := by
  have hphys : (abortSlot s).twin.phys = some p := h
  simp only [runRestore, hown, hphys, hext]
  rfl

end

/-- A `Run` over the outputs, the fabric and the inspection walk, as the one record update that it is. -/
theorem eq_peer_upd {s t : State} (h : Run [.out, .fabric, .inspect] s t) :
    t = { s with out := t.out, fabric := t.fabric, inspect := t.inspect } :=
  State.ext (h.same .pending rfl) (h.same .now rfl) (h.same .freeCtr rfl) rfl (h.same .power rfl) (h.same .plls rfl)
    (h.same .tide rfl) (h.same .tideHi rfl) (h.same .hostA rfl) (h.same .hostB rfl) (h.same .lock rfl) (h.same .i3c rfl)
    (h.same .peer rfl) (h.same .warden rfl) (h.same .seq rfl) (h.same .log rfl) (h.same .queues rfl) (h.same .job rfl)
    (h.same .exec rfl) (h.same .gauges rfl) (h.same .dies rfl) (h.same .cores rfl) (h.same .coreStore rfl)
    (h.same .memStacks rfl) (h.same .mem rfl) (h.same .far rfl) (h.same .links rfl) (h.same .levee rfl) rfl
    (h.same .twin rfl) (h.same .flash rfl) rfl

theorem stretchCause_of_peer {s t : State} (h : Run [.out, .fabric, .inspect] s t) (ps : List (Nat × Nat)) :
    stretchCause ps t = stretchCause ps s := (congrArg (stretchCause ps) (eq_peer_upd h)).trans rfl

theorem recordGood_congr {s t : State} (h : t.job = s.job) (im : JobImage) (k : Nat) (b : Bytes) : recordGood im k b t = recordGood im k b s := by
  simp only [recordGood, logId, h]

/-- What RESTORE does once its records have been read (R294, R295). -/
theorem restoreFrom_effect {mb : Mbox} {ext : EnvAnswer} {e : Bytes} {b1 b2 : Bytes} {im : JobImage} {s v t : State}
    (hv : Run [.out, .fabric, .inspect] (startedState mb e ext s) v) (himage : s.job.image = some im)
    (ht : t = drain mb (restoreFrom (startedCmd mb e ext s) b1 b2 v)) :
    let k := arg e 0 4
    ((∀ b ∈ [b1, b2], recordGood im k b s = false) →
      Ends mb e (cmdDeadline true e s) 0x0A 0 s t ∧ t.job = { s.job with invalid := true } ∧ t.mem = s.mem) ∧
    (∀ b, [b1, b2].find? (fun b => recordGood im k b s) = some b →
      (stretchCause (restoreStretches im) s ≠ none → Ends mb e (cmdDeadline true e s) 6 0 s t ∧ t.job = s.job ∧ t.mem = s.mem) ∧
      (stretchCause (restoreStretches im) s = none →
        Ends mb e (cmdDeadline true e s) 0 0 s t ∧ ∃ j, MailboxOnly (restored im k j b v) t)) := by
  intro k
  subst ht
  have hw := startedState_mailboxOnly mb e ext s
  have hjob : v.job = s.job := (hv.same .job rfl).trans (congr_mailboxOnly State.job hw)
  have hmem : v.mem = s.mem := (hv.same .mem rfl).trans (congr_mailboxOnly State.mem hw)
  have himage' : v.job.image = some im := by rw [hjob, himage]
  have hentry : (startedCmd mb e ext s).entry = e := rfl
  have hgood : (fun b => recordGood im k b v) = fun b => recordGood im k b s := funext fun b => recordGood_congr hjob im k b
  have hcause := (stretchCause_of_peer hv (restoreStretches im)).trans (stretchCause_of_mailboxOnly hw _)
  refine ⟨fun hbad => ?_, fun b hfind => ?_⟩
  · have hnone : [b1, b2].find? (fun b => recordGood im k b v) = none := by
      rw [hgood, List.find?_eq_none]
      exact fun b hb => by simp [hbad b hb]
    rw [restoreFrom_without_record himage' (by rw [hentry]; exact hnone)]
    have hinvalid : Run [.out, .fabric, .inspect, .job] (startedState mb e ext s) (invalidated v) := (hv.mono (by decide)).trans (v := [.job])
      ⟨fun f hf => by cases f <;> first | exact absurd hf (by decide) | exact Eq.refl _, id, id, id, List.prefix_refl _, Nat.le_refl _⟩ (by decide)
    have honly := finish_drain_mailboxOnly mb (startedCmd mb e ext s) 0x0A 0 (invalidated v)
    refine ⟨ends_of_run hinvalid rfl rfl _ _, (congr_mailboxOnly State.job honly).trans ?_, (congr_mailboxOnly State.mem honly).trans hmem⟩
    rw [← hjob]
    rfl
  · rw [restoreFrom_record himage' (by rw [hentry, hgood]; exact hfind), hentry]
    refine ⟨fun hfails => ?_, fun hreached => ?_⟩
    · obtain ⟨⟨x, c⟩, hsome⟩ := Option.ne_none_iff_exists'.mp hfails
      rw [withStretches_of_cause (hcause.trans hsome)]
      have hlog : Run [.out, .hostA, .hostB, .seq, .log] v (logAccess x .hub c v) := logEv_run _ _ _ _ _ _ _ (.refl _ v) (by decide)
      have hrun := (hv.mono (w := [.out, .fabric, .inspect, .hostA, .hostB, .seq, .log]) (by decide)).trans hlog (by decide)
      have honly := finish_drain_mailboxOnly mb (startedCmd mb e ext s) 6 0 (logAccess x .hub c v)
      exact ⟨ends_of_run hrun rfl rfl 6 0, (congr_mailboxOnly State.job honly).trans ((hlog.same .job rfl).trans hjob),
        (congr_mailboxOnly State.mem honly).trans ((hlog.same .mem rfl).trans hmem)⟩
    · rw [withStretches_of_reached (hcause.trans hreached)]
      have happly : Run [.out, .fabric, .inspect, .exec, .gauges, .coreStore, .memStacks, .mem, .twin] (startedState mb e ext s)
          (applyRecord im k b v) := applyRecord_run _ _ _ _ (hv.mono (by decide)) (by decide)
      have hrestored : Run [.job, .twin] (applyRecord im k b v) (restored im k (restoreSlot k v) b v) :=
        ⟨fun f hf => by cases f <;> first | exact absurd hf (by decide) | exact Eq.refl _, id, id, id, List.prefix_refl _, Nat.le_refl _⟩
      exact ⟨ends_of_run ((happly.mono (w := [.out, .fabric, .inspect, .exec, .gauges, .coreStore, .memStacks, .mem, .twin, .job])
        (by decide)).trans hrestored (by decide)) rfl rfl 0 0, _, finish_drain_mailboxOnly ..⟩

/-- The control state of a restored package. -/
theorem restored_fields {im : JobImage} {k j : Nat} {b : Bytes} {v t : State} (h : MailboxOnly (restored im k j b v) t) :
    t.job = { v.job with nextFirst := k + 1, cstep := k, failStopped := false, invalid := false } ∧
      (∀ c n, im.contracts[n]? = some c → (∀ m c', im.contracts[m]? = some c' → c'.cslot = c.cslot → m = n) →
        scaleOf c.cslot (k + 1) t = toSigned 16 (field (sectionOf 6 b) (2 * n) 2)) ∧
      t.exec.history = (List.range (min (field (sectionOf 8 b) 0 4) 64)).map (fun i => toSigned 64 (field (sectionOf 8 b) (4 + 8 * i) 8)) ∧
      t.twin.m = field (sectionOf 10 b) 0 8 ∧ t.twin.ran = field (sectionOf 10 b) 8 8 ∧
      t.twin.lastStopEnd = field (sectionOf 10 b) 16 8 ∧ t.twin.rollback.map (·.1) = some k := by
  have hjob : (applyRecord im k b v).job = v.job :=
    (applyRecord_run (flds := [.out, .exec, .gauges, .coreStore, .memStacks, .mem, .twin]) im k b v (.refl _ v) (by decide)).same .job rfl
  have himage : t.job.image = (applyRecord im k b v).job.image :=
    congr_mailboxOnly (s := restored im k j b v) (fun u => u.job.image) h
  have hexec : t.exec = (applyRecord im k b v).exec := congr_mailboxOnly (s := restored im k j b v) State.exec h
  have htwin : t.twin = (restored im k j b v).twin := congr_mailboxOnly State.twin h
  obtain ⟨hm, hran, hstop⟩ := applyRecord_twin im k b v
  refine ⟨?_, fun c n hc honly => ?_, by rw [hexec, applyRecord_history], by rw [htwin]; exact hm, by rw [htwin]; exact hran,
    by rw [htwin]; exact hstop, by rw [htwin]; rfl⟩
  · rw [← hjob]
    exact congr_mailboxOnly State.job h
  · rw [scaleOf_congr (congrArg Exec.scales hexec) himage]
    exact applyRecord_scale hc honly k b v

section
variable {mb : Mbox} {b1 b2 e : Bytes} {s : State} (ho : Offered 0x0202 mb e s) (hl : LockedIdle s)

include ho in
theorem cmdDeadline_restore : cmdDeadline true e s = lockedFrom s + 20000000000 := by
  simp [cmdDeadline, ho.opcode, boundStart, lockedFrom]

include ho hl in
theorem exec_restore : exec (.restore mb b1 b2) s =
    .next (drain mb (runRestore (startedCmd mb e (.records b1 b2) s) (startedState mb e (.records b1 b2) s))) :=
  exec_starts (f := runRestore) (i := .restore mb b1 b2) rfl ho hl rfl rfl (by decide)
    fun a t ha hop => by simp [runOp, ha, hop]

end

theorem find?_pair_self {α : Type} (p : α → Bool) (x : α) : [x, x].find? p = [x].find? p := by
  cases h : p x <;> simp [h]

/-- A RESTORE from its acceptance until its records have been read: it restores from `rs`, in the state `v`. -/
theorem restore_reads {mb : Mbox} {b1 b2 e : Bytes} {s : State}
    (h : arg e 4 1 = 1 ∧ stretchCause areaStretches s = none ∨ arg e 4 1 = 0 ∧ s.twin.phys ≠ none) :
    ∃ r1 r2 v, runRestore (startedCmd mb e (.records b1 b2) s) (startedState mb e (.records b1 b2) s) =
        restoreFrom (startedCmd mb e (.records b1 b2) s) r1 r2 v ∧
      Run [.out, .fabric, .inspect] (startedState mb e (.records b1 b2) s) v ∧
      ∀ p : Bytes → Bool, [r1, r2].find? p = (if arg e 4 1 = 1 then [ownRecord (arg e 0 4) s] else [b1, b2]).find? p := by
  have hw := startedState_mailboxOnly mb e (.records b1 b2) s
  have hentry : (startedCmd mb e (.records b1 b2) s).entry = e := rfl
  have habort : Run [.inspect] (startedState mb e (.records b1 b2) s) (abortSlot (startedState mb e (.records b1 b2) s)) :=
    abortSlot_run _ (.refl _ _) (by decide)
  rcases h with ⟨hown, hreached⟩ | ⟨hown, hpaired⟩
  · have hcause := ((stretchCause_of_peer (habort.mono (by decide)) areaStretches).trans (stretchCause_of_mailboxOnly hw _)).trans hreached
    have hrecord : ownRecord (arg e 0 4) (abortSlot (startedState mb e (.records b1 b2) s)) = ownRecord (arg e 0 4) s :=
      congr_mailboxOnly (fun u => ownRecord (arg e 0 4) (abortSlot u)) hw
    refine ⟨ownRecord (arg e 0 4) s, ownRecord (arg e 0 4) s, _, ?_, habort.mono (by decide), fun p => ?_⟩
    · rw [runRestore_own (by rw [hentry, hown]), withStretches_of_reached hcause, hentry, hrecord]
    · rw [if_pos hown, find?_pair_self]
  · obtain ⟨p, hp⟩ := Option.ne_none_iff_exists'.mp hpaired
    have hphys : (startedState mb e (.records b1 b2) s).twin.phys = some p := (congr_mailboxOnly (fun u => u.twin.phys) hw).trans hp
    refine ⟨b1, b2, _, runRestore_twin (by rw [hentry, hown]) hphys rfl, ?_, fun q => ?_⟩
    · exact peerToPhys_run _ _ _ _ (habort.mono (by decide)) (by decide)
    · rw [if_neg (by rw [hown]; decide)]

theorem restore_effect {mb : Mbox} {b1 b2 e : Bytes} {im : JobImage} {s : State} (ho : Offered 0x0202 mb e s) (hl : LockedIdle s)
    (himage : s.job.image = some im) :
    ∃ t, exec (.restore mb b1 b2) s = .next t ∧
      let k := arg e 0 4
      let d := lockedFrom s + 20000000000
      (arg e 4 1 = 0 → s.twin.phys = none → Ends mb e d 6 0 s t ∧ t.job = s.job) ∧
      (arg e 4 1 = 1 → stretchCause areaStretches s ≠ none → Ends mb e d 6 0 s t ∧ t.job = s.job) ∧
      (arg e 4 1 = 1 ∧ stretchCause areaStretches s = none ∨ arg e 4 1 = 0 ∧ s.twin.phys ≠ none →
        let rs := if arg e 4 1 = 1 then [ownRecord k s] else [b1, b2]
        ((∀ b ∈ rs, recordGood im k b s = false) → Ends mb e d 0x0A 0 s t ∧ t.job = { s.job with invalid := true } ∧ t.mem = s.mem) ∧
        (∀ b, rs.find? (fun b => recordGood im k b s) = some b →
          (stretchCause (restoreStretches im) s ≠ none → Ends mb e d 6 0 s t ∧ t.job = s.job ∧ t.mem = s.mem) ∧
          (stretchCause (restoreStretches im) s = none → Ends mb e d 0 0 s t ∧
            ∃ j v, v.job = s.job ∧ MailboxOnly (restored im k j b v) t))) := by
  have hw := startedState_mailboxOnly mb e (.records b1 b2) s
  have hentry : (startedCmd mb e (.records b1 b2) s).entry = e := rfl
  have hjob : (startedState mb e (.records b1 b2) s).job = s.job := congr_mailboxOnly State.job hw
  have habort : Run [.inspect] (startedState mb e (.records b1 b2) s) (abortSlot (startedState mb e (.records b1 b2) s)) :=
    abortSlot_run _ (.refl _ _) (by decide)
  refine ⟨_, exec_restore ho hl, ?_⟩
  rw [← cmdDeadline_restore ho]
  refine ⟨fun hown hnone => ?_, fun hown hfails => ?_, fun hreads => ?_⟩
  · have hphys : (startedState mb e (.records b1 b2) s).twin.phys = none := (congr_mailboxOnly (fun u => u.twin.phys) hw).trans hnone
    rw [runRestore_unpaired (by rw [hentry, hown]) hphys]
    exact ⟨ends_of_run habort rfl rfl 6 0, (congr_mailboxOnly State.job (finish_drain_mailboxOnly ..)).trans ((habort.same .job rfl).trans hjob)⟩
  · obtain ⟨⟨x, c⟩, hsome⟩ := Option.ne_none_iff_exists'.mp hfails
    have hcause := ((stretchCause_of_peer (habort.mono (by decide)) areaStretches).trans (stretchCause_of_mailboxOnly hw _)).trans hsome
    have hlog : Run [.inspect, .out, .hostA, .hostB, .seq, .log] (startedState mb e (.records b1 b2) s)
        (logAccess x .hub c (abortSlot (startedState mb e (.records b1 b2) s))) :=
      logEv_run _ _ _ _ _ _ _ (habort.mono (by decide)) (by decide)
    rw [runRestore_own (by rw [hentry, hown]), withStretches_of_cause hcause]
    exact ⟨ends_of_run hlog rfl rfl 6 0, (congr_mailboxOnly State.job (finish_drain_mailboxOnly ..)).trans ((hlog.same .job rfl).trans hjob)⟩
  · obtain ⟨r1, r2, v, hrun, hv, hfind⟩ := restore_reads (mb := mb) (b1 := b1) (b2 := b2) hreads
    have hvjob : v.job = s.job := (hv.same .job rfl).trans hjob
    obtain ⟨hbad, hgood⟩ := restoreFrom_effect hv himage (congrArg (drain mb) hrun)
    refine ⟨fun hnone => hbad ?_, fun b hb => ?_⟩
    · have h := (hfind fun b => recordGood im (arg e 0 4) b s).trans (List.find?_eq_none.mpr fun b hb => by simp [hnone b hb])
      exact fun b hb => by simpa using List.find?_eq_none.mp h b hb
    · obtain ⟨hfails, hdone⟩ := hgood b ((hfind _).trans hb)
      refine ⟨hfails, fun hreached => ?_⟩
      obtain ⟨hends, j, honly⟩ := hdone hreached
      exact ⟨hends, j, v, hvjob, honly⟩

/-- Settles O24: a load or restore that is refused changes nothing but mailboxes or the job's `invalid`; one that goes on writes its control state
(`loadBase`, `restored`), and what it writes behind that, streams and regenerated tiles, leaves that control state alone. -/
theorem jobLoadAndRestore : Obligations.JobLoadAndRestore := by
  unfold Obligations.JobLoadAndRestore
  refine ⟨fun mb data e s ho hl => ?_, fun mb b1 b2 e im s ho hl himage => ?_⟩
  · obtain ⟨t, hexec, hunpaired, hanswer, himage⟩ := jobLoad_effect (data := data) ho hl
    rw [cmdDeadline_jobLoad ho] at hunpaired hanswer himage
    refine ⟨t, hexec, hunpaired, hanswer, fun b hphys hdata hlen => ?_⟩
    obtain ⟨hrefused, hunreached, hloads⟩ := himage b hphys hdata hlen
    refine ⟨hrefused, hunreached, fun hpass hreached => ?_⟩
    obtain ⟨hends, u, hu, ht⟩ := hloads hpass hreached
    exact ⟨hends, loaded_fields hu ht⟩
  · obtain ⟨t, hexec, hunpaired, harea, hreads⟩ := restore_effect (b1 := b1) (b2 := b2) ho hl himage
    refine ⟨t, hexec, hunpaired, harea, fun h => ?_⟩
    obtain ⟨hbad, hgood⟩ := hreads h
    refine ⟨hbad, fun b hb => ?_⟩
    obtain ⟨hfails, hdone⟩ := hgood b hb
    refine ⟨hfails, fun hreached => ?_⟩
    obtain ⟨hends, j, v, hjob, honly⟩ := hdone hreached
    exact ⟨hends, hjob ▸ restored_fields honly⟩

end Sys2Proof.Proofs

/-! ### Every command but a power-on reset is one `Run` -/

namespace Sys2Proof.Proofs

open Machine Laws

/-- What commands write: every field but the queue of waiting commands and the model's time. -/
def commandFields : List StateField :=
  [.freeCtr, .out, .power, .plls, .tide, .tideHi, .hostA, .hostB, .lock, .i3c, .peer, .warden, .seq, .log, .queues, .job, .exec, .gauges,
   .dies, .cores, .coreStore, .memStacks, .mem, .far, .links, .levee, .fabric, .twin, .flash, .inspect]

/-- An outcome of a command at `s`: a next state that follows from `s` by a `Run` over `commandFields`. -/
def Runs (o : Host.Outcome State Fault Refusal) (s : State) : Prop := ∃ t, o = .next t ∧ Run commandFields s t

theorem Runs.next {s t : State} (h : Run commandFields s t) : Runs (.next t) s := ⟨t, rfl, h⟩

/-- A command that acts where its condition holds and does nothing otherwise. -/
theorem run_if {w : List StateField} {c : Prop} [Decidable c] {s a : State} (h : Run w s a) : Run w s (if c then a else s) := by
  split
  · exact h
  · exact .refl w s

/-- A command that does nothing where a condition holds, and acts otherwise. -/
theorem run_unless {w : List StateField} {c : Prop} [Decidable c] {s a : State} (h : Run w s a) : Run w s (if c then s else a) := by
  split
  · exact .refl w s
  · exact h

theorem run_choice {w : List StateField} {c : Prop} [Decidable c] {s a b : State} (h : Run w s a) (k : Run w s b) :
    Run w s (if c then a else b) := by
  split
  · exact h
  · exact k

/-! #### Rows that act through a port, a mailbox or a message -/

/-- The commands of Table 10.8. -/
theorem cmdOf_runs {i : Instr} {op : Nat} {mb : Mbox} (h : cmdOf i = some (op, mb)) (s : State) : Runs (exec i s) s := by
  obtain ⟨ext, hx⟩ := exec_command h s
  rw [hx]
  exact .next (fromMailbox_run op mb ext s (.refl _ s) (by decide))

/-- A row that acts where its port answers. -/
theorem viaPort_runs {p : HPort} {f : State → State} (s : State)
    (hf : ∀ x, Run commandFields s x → Run commandFields s (f x)) : Runs (.next (viaPort p f s)) s :=
  .next (viaPort_run (.refl _ s) hf)

/-- A row that takes the peer entry in front. -/
theorem onPeer_runs {op : Nat} {f : PeerEntry → State → State} (s : State)
    (hf : ∀ e x, Run commandFields s x → Run commandFields s (f e x)) : Runs (.next (onPeer op f s)) s :=
  .next (onPeer_run (.refl _ s) hf (by decide))

/-- A row that takes the fabric message in front. -/
theorem onMsg_runs {p : FPort} {cls type : Nat} {sub : Bool} {f : Msg → State → State} (s : State)
    (hf : ∀ m x, Run commandFields s x → Run commandFields s (f m x)) : Runs (.next (onMsg p cls type sub f s)) s :=
  .next (onMsg_run (.refl _ s) hf (by decide))

/-- A row that acts on a running task. -/
theorem onRunning_runs {task : Nat} {f : JobImage → TaskRec → TaskRun → State → State} (s : State)
    (hf : ∀ im t r, Run commandFields s (f im t r s)) : Runs (.next (onRunning task f s)) s :=
  .next (onRunning_run (.refl _ s) hf)

/-! #### Host ports and the management bus -/

theorem execLeaseExpiry_runs (s : State) : Runs (execLeaseExpiry s) s :=
  .next (run_if (freeLock_run _ s (.refl _ s) (by decide)))

theorem execDoorbellUnmask_runs (q : Nat) (s : State) : Runs (execDoorbellUnmask q s) s := by
  refine .next (run_choice ?_ ?_)
  · exact run_if (logRing_run _ _ _ _ _ (seeEntries_run _ _ (modHost_run _ _ s (.refl _ s) (by decide)) (by decide)) (by decide))
  · split
    · exact .refl _ s
    · exact run_if (logRing_run _ _ _ _ _ (modQueue_run _ _ _ s (.refl _ s) (by decide)) (by decide))

theorem execDoorbellPoll_runs (q : Nat) (s : State) : Runs (execDoorbellPoll q s) s := by
  refine .next (run_choice (run_if ?_) ?_)
  · have hpoll : ∀ p f, Run commandFields s (modHost p f s) := fun p f => modHost_run p f s (.refl _ s) (by decide)
    exact run_choice (drain_run _ _ (seeEntries_run _ _ (hpoll _ _) (by decide)) (by decide)) (hpoll _ _)
  · split
    · exact run_if (modQueue_run _ _ _ s (.refl _ s) (by decide))
    · exact .refl _ s

theorem execCdb_runs (p : HPort) (v : BitVec 32) (entries : List Bytes) (s : State) : Runs (execCdb p v entries s) s :=
  .next (drain_run _ _ (viaPort_run (.refl _ s) fun x h => writeCdb_run p v entries x h (by decide)) (by decide))

/-- A change of the I3C target alone. -/
theorem i3c_run (s : State) (f : I3c) : Run commandFields s { s with i3c := f } :=
  .mk_upd rfl (.refl _ s) (fun f hf => by cases f <;> first | exact absurd hf (by decide) | rfl) rfl rfl rfl rfl rfl

theorem execI3cPrivateWrite_runs (data : Bytes) (s : State) : Runs (execI3cPrivateWrite data s) s :=
  .next (run_if (drain_run _ _ (i3c_run s _) (by decide)))

theorem execI3cPrivateRead_runs (s : State) : Runs (execI3cPrivateRead s) s := by
  refine .next (run_unless ?_)
  split <;> exact emit_run _ _ (i3c_run s _) (by decide)

theorem execSetdasa_runs (addr dyn : BitVec 7) (s : State) : Runs (execSetdasa addr dyn s) s := .next (run_if (i3c_run s _))

theorem execCommandCompletion_runs (k : Nat) (s : State) : Runs (execCommandCompletion k s) s := by
  refine .next ?_
  split
  · split
    · exact run_if (completeOne_run _ _ s (.refl _ s) (by decide))
    · exact .refl _ s
  · exact .refl _ s

/-! #### Board inputs, power, resets -/

theorem execPerstAssert_runs (p : HPort) (held inactive : Nat) (s : State) : Runs (execPerstAssert p held inactive s) s := by
  refine .next (run_unless ?_)
  have hact := activate_run (perstOf p) held inactive s (.refl commandFields s) (by decide)
  exact run_choice (portReset_run _ _ _ (modHost_run _ _ _ hact (by decide)) (by decide)) hact

theorem execPerstRelease_runs (p : HPort) (atRating : Bool) (s : State) : Runs (execPerstRelease p atRating s) s := by
  refine .next (run_unless ?_)
  have hin : ∀ f, Run commandFields s (modInput (perstOf p) f s) := fun f => modInput_run _ f s (.refl _ s) (by decide)
  exact run_choice (hin _) (releasePort_run _ _ _ (hin _) (by decide))

theorem execFunctionLevelReset_runs (p : HPort) (s : State) : Runs (execFunctionLevelReset p s) s :=
  .next (run_if (portReset_run _ _ s (.refl _ s) (by decide)))

theorem execPcieLinkLoss_runs (p : HPort) (s : State) : Runs (execPcieLinkLoss p s) s :=
  .next (run_if (portReset_run _ _ _ (modHost_run _ _ s (.refl _ s) (by decide)) (by decide)))

theorem execPcieRateChange_runs (p : HPort) (atRating : Bool) (s : State) : Runs (execPcieRateChange p atRating s) s :=
  .next (run_unless (trainPort_run _ _ _ (run_if (logLoop_run _ _ _ s (.refl _ s) (by decide))) (by decide)))

theorem execInputUnmask_runs (i : BoardInput) (inactive : Nat) (s : State) : Runs (execInputUnmask i inactive s) s := by
  refine .next (run_unless ?_)
  have hin : Run commandFields s (countInput i 3 (modInput i (fun k => { k with masked := false, active := false, acts := [] }) s)) :=
    countInput_run _ _ _ (modInput_run _ _ s (.refl _ s) (by decide)) (by decide)
  cases i with
  | perstA | perstB => exact releasePort_run _ _ _ hin (by decide)
  | pfail => exact run_choice (powerFailEnd_run _ hin (by decide)) hin
  | pwrok => exact hin

theorem execInputEventLog_runs (i : BoardInput) (s : State) : Runs (execInputEventLog i s) s :=
  .next (run_if (logEv_run _ _ _ _ _ _ _ (modInput_run _ _ s (.refl _ s) (by decide)) (by decide)))

theorem execPwrokRise_runs (held inactive : Nat) (pins : Straps) (s : State) : Runs (execPwrokRise held inactive pins s) s :=
  .next (run_unless (run_if (powerUp_run _ _ (activate_run _ _ _ s (.refl _ s) (by decide)) (by decide))))

theorem execOscDelayExpiry_runs (s : State) : Runs (execOscDelayExpiry s) s :=
  .next (run_if (poldersUp_run s (.refl _ s) (by decide)))

theorem execFirmwareBoot_runs (s : State) : Runs (execFirmwareBoot s) s := .next (run_if (bootRom_run s (.refl _ s) (by decide)))

theorem execBootComplete_runs (f0 f1 : FarProbe) (s : State) : Runs (execBootComplete f0 f1 s) s :=
  .next (run_if (bootDone_run _ _ s (.refl _ s) (by decide)))

theorem execWarmReset_runs (s : State) : Runs (execWarmReset s) s := .next (run_if (warmReset_run s (.refl _ s) (by decide)))

theorem execColdReset_runs (s : State) : Runs (execColdReset s) s := .next (run_if (coldReset_run s (.refl _ s) (by decide)))

theorem execPfailAssert_runs (held inactive : Nat) (s : State) : Runs (execPfailAssert held inactive s) s := by
  refine .next (run_unless ?_)
  have hact := activate_run .pfail held inactive s (.refl commandFields s) (by decide)
  exact run_choice (powerFail_run _ hact (by decide)) hact

theorem execPfailEnd_runs (inactive : Nat) (s : State) : Runs (execPfailEnd inactive s) s :=
  .next (run_if (powerFailEnd_run s (.refl _ s) (by decide)))

/-! #### Temperature, current, clocks -/

theorem execJunctionSample_runs (u : Sensor) (celsius : Int) (s : State) : Runs (execJunctionSample u celsius s) s := by
  refine .next (run_unless ?_)
  cases u with
  | die d => exact dieSample_run d celsius s (.refl _ s) (by decide)
  | hub => exact hubSample_run celsius s (.refl _ s) (by decide)
  | stack i => exact stackSample_run i celsius s (.refl _ s) (by decide)

theorem execStackThermalSample_runs (i : Fin 32) (celsius : Int) (s : State) : Runs (execStackThermalSample i celsius s) s :=
  .next (run_if (bandSample_run i celsius s (.refl _ s) (by decide)))

theorem execOvercurrentStop_runs (r : Rail) (amps held : Nat) (s : State) : Runs (execOvercurrentStop r amps held s) s :=
  .next (run_if (railStop_run _ _ s (.refl _ s) (by decide)))

theorem execOvercurrentRestart_runs (r : Rail) (below : Nat) (s : State) : Runs (execOvercurrentRestart r below s) s :=
  .next (run_if (restartStep_run _ (setRail_run _ _ s (.refl _ s) (by decide)) (by decide)))

theorem execRailDeviation_runs (d : Fin 4) (mv held : Nat) (s : State) : Runs (execRailDeviation d mv held s) s :=
  .next (run_if (railStop_run _ _ s (.refl _ s) (by decide)))

theorem execPllLossOfLock_runs (u : Fin 36) (pll : Fin 2) (s : State) : Runs (execPllLossOfLock u pll s) s :=
  .next (run_if (lossOfLock_run _ _ s (.refl _ s) (by decide)))

theorem execPllRelock_runs (u : Fin 36) (ok : Bool) (s : State) : Runs (execPllRelock u ok s) s :=
  .next (run_if (modPll_run _ _ s (.refl _ s) (by decide)))

theorem execBoostStep_runs (d : Fin 4) (step : Fin 5) (celsius : Int) (amps : Nat) (s : State) : Runs (execBoostStep d step celsius amps s) s :=
  .next (run_if (modPll_run _ _ s (.refl _ s) (by decide)))

/-! #### Memory -/

theorem execLand_runs (addr : Nat) (lanes : List (BitVec 32)) (s : State) : Runs (execLand addr lanes s) s :=
  .next (run_unless (onAdder_run (.refl _ s)
    (fun i x h => ackWrite_run _ _ _ _ _ (narrowWrite_run _ _ _ x h (by decide)) (by decide)) (by decide)))

theorem execAdd32_runs (addr : Nat) (x : AddLanes) (s : State) : Runs (execAdd32 addr x s) s := by
  refine .next (run_unless (onAdder_run (.refl _ s) (fun i y h => ?_) (by decide)))
  have hcheck := sectorCheck_run i .hub addr x.ecc y h (by decide)
  exact run_choice (answerErr_run _ _ _ hcheck (by decide))
    (ackWrite_run _ _ _ _ _ (countSat_run _ _ (addLanes_run _ _ _ _ hcheck (by decide)) (by decide)) (by decide))

theorem execZero_runs (addr count : Nat) (s : State) : Runs (execZero addr count s) s :=
  .next (run_unless (onAdder_run (.refl _ s)
    (fun i x h => ackWrite_run _ _ _ _ _ (Run.foldl h fun k y hy => narrowWrite_run _ _ _ y hy (by decide)) (by decide)) (by decide)))

theorem execParkedRequestAdmit_runs (i : Fin 32) (bank : Nat) (s : State) : Runs (execParkedRequestAdmit i bank s) s := by
  refine .next ?_
  dsimp only
  split
  · exact .refl _ s
  · exact run_if (admitReq_run _ _ (modBank_run _ _ _ s (.refl _ s) (by decide)) (by decide))

theorem execRetryReissue_runs (r : Reissue) (s : State) : Runs (execRetryReissue r s) s := by
  refine .next ?_
  split
  · split
    next ht => exact reissue_run _ _ (takeRetry_run _ _ _ s _ ht (.refl _ s) (by decide)) (by decide)
    next => exact .refl _ s
  · exact reissue_run _ s (.refl _ s) (by decide)

theorem execWriteDrain_runs (i : Fin 32) (pc : Fin 64) (s : State) : Runs (execWriteDrain i pc s) s :=
  .next (run_if (modStack_run _ _ s (.refl _ s) (by decide)))

theorem execRefresh_runs (i : Fin 32) (pc : Fin 64) (s : State) : Runs (execRefresh i pc s) s :=
  .next (run_if (modStack_run _ _ s (.refl _ s) (by decide)))

theorem execStaleNoticeAck_runs (i : Fin 32) (id : Nat) (s : State) : Runs (execStaleNoticeAck i id s) s :=
  .next (releaseAcks_run _ _ _ (modStack_run _ _ s (.refl _ s) (by decide)) (by decide))

theorem execLineLanding_runs (die : Fin 4) (core id : Nat) (s : State) : Runs (execLineLanding die core id s) s := by
  refine .next (run_unless ?_)
  split
  · split
    · exact landLine_run _ _ _ _ s (.refl _ s) (by decide)
    · exact .refl _ s
  · exact .refl _ s

theorem execFarTierLinkDown_runs (f : Fin 2) (s : State) : Runs (execFarTierLinkDown f s) s := by
  refine .next (run_unless ?_)
  have hlost := loseArea_run f _ (sweepRequests_run _
    (modFar_run f (fun k => { k with linkUp := false, st := 0 }) s (.refl commandFields s) (by decide)) (by decide)) (by decide)
  exact run_choice (failHere_run _ _ hlost (by decide)) hlost

/-! #### Die links and the levee -/

theorem execFlit_runs (l : Fin 41) (rev : Bool) (bundle : Fin 128) (seq : BitVec 6) (rx : FlitIn) (sent : Bytes) (s : State) :
    Runs (execFlit l rev bundle seq rx sent s) s := by
  refine .next (run_unless ?_)
  have hheld := modBundle_run l rev bundle.val (holdFlit seq (slice sent 0 64)) s (.refl commandFields s) (by decide)
  exact run_choice (goodFlit_run _ _ _ _ _ _ hheld (by decide)) (badFlit_run _ _ _ _ _ hheld (by decide))

theorem execNak_runs (l : Fin 41) (rev : Bool) (bundle : Fin 128) (seq : BitVec 6) (s : State) : Runs (execNak l rev bundle seq s) s :=
  .next (run_if (resendFlits_run _ _ _ _ s (.refl _ s) (by decide)))

theorem execLinkTraining_runs (l : Fin 41) (obs : TrainObs) (s : State) : Runs (execLinkTraining l obs s) s :=
  .next (run_if (train_run _ _ s (.refl _ s) (by decide)))

theorem execLinkDrop_runs (l : Fin 41) (s : State) : Runs (execLinkDrop l s) s :=
  .next (run_if (takeDown_run _ _ (emit_run _ s (.refl _ s) (by decide)) (by decide)))

theorem execDropAck_runs (l : Fin 41) (s : State) : Runs (execDropAck l s) s := .next (run_if (takeDown_run _ s (.refl _ s) (by decide)))

theorem execDropAckTimeout_runs (l : Fin 41) (s : State) : Runs (execDropAckTimeout l s) s := by
  refine .next ?_
  split
  · exact run_if (takeDown_run _ s (.refl _ s) (by decide))
  · exact .refl _ s

theorem execForwardedClockLoss_runs (l : Fin 41) (held : Nat) (s : State) : Runs (execForwardedClockLoss l held s) s :=
  .next (run_if (takeDown_run _ s (.refl _ s) (by decide)))

theorem execBundleThreshold_runs (l : Fin 41) (rev : Bool) (bundle : Fin 128) (s : State) : Runs (execBundleThreshold l rev bundle s) s :=
  .next (run_if (modBundle_run _ _ _ _ s (.refl _ s) (by decide)))

theorem execBundleWireTest_runs (l : Fin 41) (rev : Bool) (bundle : Fin 128) (failed : List Nat) (s : State) :
    Runs (execBundleWireTest l rev bundle failed s) s :=
  .next (run_if (wireTest_run _ _ _ _ s (.refl _ s) (by decide)))

theorem execGuestRequest_runs (r : GuestReq) (s : State) : Runs (execGuestRequest r s) s :=
  .next (run_if (guestRequest_run _ s (.refl _ s) (by decide)))

theorem execGuestBucketAdmit_runs (w : Fin 8) (s : State) : Runs (execGuestBucketAdmit w s) s :=
  .next (run_if (bucketAdmit_run _ s (.refl _ s) (by decide)))

theorem execGuestResponseTimeout_runs (id : Nat) (s : State) : Runs (execGuestResponseTimeout id s) s := by
  refine .next ?_
  split
  · exact run_if (logEv_run _ _ _ _ _ _ _ (modLevee_run _ s (.refl _ s) (by decide)) (by decide))
  · exact .refl _ s

theorem execLeveeViolationLog_runs (k : Fin 9) (s : State) : Runs (execLeveeViolationLog k s) s :=
  .next (run_if (logEv_run _ _ _ _ _ _ _ (modViol_run _ _ s (.refl _ s) (by decide)) (by decide)))

/-! #### The fabric, the peer, the tide clock -/

theorem execFabricFrame_runs (p : FPort) (f : Frame) (s : State) : Runs (execFabricFrame p f s) s :=
  .next (run_unless (run_choice (goodFrame_run _ _ s (.refl _ s) (by decide)) (badFrame_run _ _ s (.refl _ s) (by decide))))

theorem execFrameNak_runs (p : FPort) (seq : BitVec 12) (s : State) : Runs (execFrameNak p seq s) s :=
  .next (run_if (resendFrames_run _ _ s (.refl _ s) (by decide)))

theorem execFabricPortUp_runs (p : FPort) (low high : Bool) (s : State) : Runs (execFabricPortUp p low high s) s :=
  .next (run_if (portUp_run _ _ _ s (.refl _ s) (by decide)))

theorem execUnpair_runs (s : State) : Runs (execUnpair s) s :=
  onPeer_runs s fun e x h =>
    have hanswer := fun st => peerAnswer_run e 1 st x h (by decide)
    run_choice (endPair_run _ (hanswer 0) (by decide)) (hanswer 6)

theorem execCkptCommitTimeout_runs (s : State) : Runs (execCkptCommitTimeout s) s := by
  refine .next ?_
  split
  · exact .refl _ s
  · exact run_choice (run_if (sendCommit_run _ _ s (.refl _ s) (by decide))) (run_if (applyCommit_run _ _ s (.refl _ s) (by decide)))

theorem execPeerCompletion_runs (s : State) : Runs (execPeerCompletion s) s :=
  .next (.mk_upd rfl (.refl _ s) (fun f hf => by cases f <;> first | exact absurd hf (by decide) | rfl) rfl rfl rfl rfl rfl)

theorem execPairTimeout_runs (s : State) : Runs (execPairTimeout s) s := by
  refine .next ?_
  split
  · exact run_if (endOp_run _ _ s (.refl _ s) (by decide))
  · exact .refl _ s

theorem execSyncPeriod_runs (s : State) : Runs (execSyncPeriod s) s :=
  .next (run_if (Run.foldl (modTide_run _ s (.refl _ s) (by decide)) fun p x h => sendSync_run _ _ _ _ _ x h (by decide)))

theorem execSyncRequest_runs (p : FPort) (sub : Bool) (s : State) : Runs (execSyncRequest p sub s) s :=
  .next (run_if (onMsg_run (.refl _ s) (fun m x h => takeRequest_run _ _ x h (by decide)) (by decide)))

theorem execSyncResponse_runs (p : FPort) (sub : Bool) (s : State) : Runs (execSyncResponse p sub s) s :=
  .next (run_if (onMsg_run (.refl _ s)
    (fun m x h => run_choice (takeResponse_run _ _ x h (by decide)) (hearSync_run _ _ x h (by decide))) (by decide)))

theorem execTideUnsync_runs (s : State) : Runs (execTideUnsync s) s := .next (run_if (loseSync_run s (.refl _ s) (by decide)))

theorem execRootElection_runs (s : State) : Runs (execRootElection s) s := .next (run_if (becomeRoot_run s (.refl _ s) (by decide)))

/-! #### The steps of a job, inspection, wear gauges -/

theorem execTaskStart_runs (task : Nat) (s : State) : Runs (execTaskStart task s) s := by
  refine .next ?_
  split
  · split
    · exact startTask_run _ _ _ s (.refl _ s) (by decide)
    · exact .refl _ s
  · exact .refl _ s

theorem execTileProductEnd_runs (task slab col chunk : Nat) (faults : List ArrayFault) (s : State) :
    Runs (execTileProductEnd task slab col chunk faults s) s := by
  refine .next ?_
  split
  · exact run_unless (run_choice (endProduct_run _ _ _ _ _ _ _ s (.refl _ s) (by decide))
      (lateProduct_run _ _ _ _ _ _ _ s (.refl _ s) (by decide)))
  · exact .refl _ s

theorem execCheckHorizon_runs (task : Nat) (s : State) : Runs (execCheckHorizon task s) s := by
  refine .next ?_
  split
  · split
    · exact run_unless (commitTask_run _ _ _ s (.refl _ s) (by decide))
    · exact .refl _ s
  · exact .refl _ s

theorem execInspectionSlotEnd_runs (r : ScanResult) (s : State) : Runs (execInspectionSlotEnd r s) s := by
  refine .next ?_
  split
  · exact run_if (endSlot_run _ _ _ s (.refl _ s) (by decide))
  · exact .refl _ s

/-- Every command but a power-on reset answers a next state, which follows by a `Run` over `commandFields`. -/
theorem exec_runs (i : Instr) (s : State) (hi : ∀ held, i ≠ .powerOnReset held) : Runs (exec i s) s := by
  have hz : Run commandFields s s := .refl _ s
  cases i with
  | nop | identify | gaugeRead | eventRead | wearReport | ledgerRead | exportTensor | jobLoad | jobStart | jobStop | jobUnload | ckptStop
  | restore | twinPair | twinUnpair | memPolicy | farTierSetup | leveeWindow | guestReset | unitReset | pkgReset | clockMode | inspectCfg
  | guardMode | linkTest | coreScan | fwWrite | fwActivate => exact cmdOf_runs rfl s
  | commandCompletion k => exact execCommandCompletion_runs k s
  | pairReq => exact onPeer_runs s fun e x h => recvPair_run e x h (by decide)
  | unpair => exact execUnpair_runs s
  | ckptSched => exact onPeer_runs s fun e x h => recvSched_run e x h (by decide)
  | ckptBegin => exact onPeer_runs s fun e x h => recvBegin_run e x h (by decide)
  | ckptEnd => exact onPeer_runs s fun e x h => recvEnd_run e x h (by decide)
  | ckptAck => exact onPeer_runs s fun e x h => recvAck_run e x h (by decide)
  | ckptDone => exact onPeer_runs s fun e x h => recvDone_run e x h (by decide)
  | ckptCommit => exact onPeer_runs s fun e x h => applyCommit_run _ _ x h (by decide)
  | ckptCommitTimeout => exact execCkptCommitTimeout_runs s
  | failReport => exact onPeer_runs s fun e x h => receiveFail_run _ _ _ (peerAnswer_run e 1 0 x h (by decide)) (by decide)
  | restoreReq => exact onPeer_runs s fun e x h => recvRestore_run e x h (by decide)
  | copyReq => exact onPeer_runs s fun e x h => recvCopy_run e x h (by decide)
  | peerCompletion => exact execPeerCompletion_runs s
  | pairTimeout => exact execPairTimeout_runs s
  | acq p v | rel p v | renew p v => exact viaPort_runs s fun x h => writeLock_run p v x h (by decide)
  | lease p v => exact viaPort_runs s fun x h => writeLease_run p v x h (by decide)
  | leaseExpiry => exact execLeaseExpiry_runs s
  | cdb p v entries => exact execCdb_runs p v entries s
  | doorbellPoll q => exact execDoorbellPoll_runs q s
  | doorbellUnmask q => exact execDoorbellUnmask_runs q s
  | mailboxEnable p v => exact viaPort_runs s fun x h => writeEn_run p v x h (by decide)
  | qdb p q v => exact viaPort_runs s fun x h => writeQdb_run p _ v x h (by decide)
  | wbasehi p v => exact viaPort_runs s fun x h => writeWbaseHi_run p v x h (by decide)
  | tidelo p len | elseqlo p len => exact viaPort_runs s fun x h => readBar0_run p _ _ x h (by decide)
  | registerWrite p off data => exact viaPort_runs s fun x h => writeWords_run p _ off data x h (by decide)
  | bar2Read p off r => exact viaPort_runs s fun x h => bar2Read_run p off _ _ x h (by decide)
  | bar2Write p off w => exact viaPort_runs s fun x h => bar2Write_run p off _ _ x h (by decide)
  | i3cPrivateWrite data => exact execI3cPrivateWrite_runs data s
  | i3cPrivateRead => exact execI3cPrivateRead_runs s
  | setdasa addr dyn => exact execSetdasa_runs addr dyn s
  | perstAssert p held inactive => exact execPerstAssert_runs p held inactive s
  | perstRelease p atRating => exact execPerstRelease_runs p atRating s
  | functionLevelReset p => exact execFunctionLevelReset_runs p s
  | pcieLinkLoss p => exact execPcieLinkLoss_runs p s
  | pcieRateChange p atRating => exact execPcieRateChange_runs p atRating s
  | inputUnmask b inactive => exact execInputUnmask_runs b inactive s
  | inputEventLog b => exact execInputEventLog_runs b s
  | pwrokRise held inactive pins => exact execPwrokRise_runs held inactive pins s
  | oscDelayExpiry => exact execOscDelayExpiry_runs s
  | bootComplete f0 f1 => exact execBootComplete_runs f0 f1 s
  | powerOnReset held => exact absurd rfl (hi held)
  | warmReset => exact execWarmReset_runs s
  | coldReset => exact execColdReset_runs s
  | pfailAssert held inactive => exact execPfailAssert_runs held inactive s
  | pfailEnd inactive => exact execPfailEnd_runs inactive s
  | junctionSample u celsius => exact execJunctionSample_runs u celsius s
  | overcurrentStop r amps held => exact execOvercurrentStop_runs r amps held s
  | overcurrentRestart r below => exact execOvercurrentRestart_runs r below s
  | railDeviation d mv held => exact execRailDeviation_runs d mv held s
  | pllLossOfLock u pll => exact execPllLossOfLock_runs u pll s
  | pllRelock u ok => exact execPllRelock_runs u ok s
  | boostStep d step celsius amps => exact execBoostStep_runs d step celsius amps s
  | stackThermalSample sk celsius => exact execStackThermalSample_runs sk celsius s
  | lineRequest r => exact .next (lineReq_run r s hz (by decide))
  | gather r | scatter r | scatterAdd r => exact .next (narrowReq_run r _ s hz (by decide))
  | land addr lanes => exact execLand_runs addr lanes s
  | add32 addr x => exact execAdd32_runs addr x s
  | zero addr count => exact execZero_runs addr count s
  | parkedRequestAdmit sk bank => exact execParkedRequestAdmit_runs sk bank s
  | retryReissue r => exact execRetryReissue_runs r s
  | writeDrain sk pc => exact execWriteDrain_runs sk pc s
  | refresh sk pc => exact execRefresh_runs sk pc s
  | staleNoticeAck sk id => exact execStaleNoticeAck_runs sk id s
  | lineLanding die core id => exact execLineLanding_runs die core id s
  | farTierLinkDown f => exact execFarTierLinkDown_runs f s
  | flit l rev bundle seq rx sent => exact execFlit_runs l rev bundle seq rx sent s
  | nak l rev bundle seq => exact execNak_runs l rev bundle seq s
  | linkTraining l obs => exact execLinkTraining_runs l obs s
  | linkDrop l => exact execLinkDrop_runs l s
  | dropAck l => exact execDropAck_runs l s
  | dropAckTimeout l => exact execDropAckTimeout_runs l s
  | forwardedClockLoss l held => exact execForwardedClockLoss_runs l held s
  | bundleThreshold l rev bundle => exact execBundleThreshold_runs l rev bundle s
  | bundleWireTest l rev bundle failed => exact execBundleWireTest_runs l rev bundle failed s
  | guestRequest r => exact execGuestRequest_runs r s
  | guestBucketAdmit w => exact execGuestBucketAdmit_runs w s
  | guestResponseTimeout id => exact execGuestResponseTimeout_runs id s
  | leveeViolationLog k => exact execLeveeViolationLog_runs k s
  | fabricFrame p f => exact execFabricFrame_runs p f s
  | frameNak p seq => exact execFrameNak_runs p seq s
  | laneFailure p lane => exact .next (laneFail_run p _ s hz (by decide))
  | linkid p sub => exact onMsg_runs s fun m x h => takeLinkid_run p m x h (by decide)
  | contrib p sub => exact onMsg_runs s fun m x h => onRed_run h (fun r y hy => recvContrib_run r m y hy (by decide)) (by decide)
  | result p sub => exact onMsg_runs s fun m x h => onRed_run h (fun r y hy => recvResult_run r m y hy (by decide)) (by decide)
  | exch p sub => exact onMsg_runs s fun m x h => takeExch_run m x h (by decide)
  | scale p sub => exact onMsg_runs s fun m x h => takeScale_run m x h (by decide)
  | verdict p sub => exact onMsg_runs s fun m x h => takeVerdictMsg_run p m x h (by decide)
  | qdata p sub => exact onMsg_runs s fun m x h => takeQdata_run m x h (by decide)
  | qcredit p sub => exact onMsg_runs s fun m x h => takeQcredit_run m x h (by decide)
  | breach p sub | late p sub => exact onMsg_runs s fun m x h => recvNotice_run _ p m x h (by decide)
  | write p sub => exact onMsg_runs s fun m x h => takeWrite_run p m x h (by decide)
  | wrack p sub => exact onMsg_runs s fun _ _ h => h
  | syncPeriod => exact execSyncPeriod_runs s
  | syncRequest p sub => exact execSyncRequest_runs p sub s
  | syncResponse p sub => exact execSyncResponse_runs p sub s
  | tideUnsync => exact execTideUnsync_runs s
  | rootElection => exact execRootElection_runs s
  | stepBoundary => exact .next (stepBoundary_run s hz (by decide))
  | taskStart task => exact execTaskStart_runs task s
  | tileProductEnd task slab col chunk faults => exact execTileProductEnd_runs task slab col chunk faults s
  | fallbackBeyondFreeboard task => exact onRunning_runs s fun im t r => run_if (sendFallbacks_run t _ _ s hz (by decide))
  | deadlineCheck task remaining unitTime code origin queue =>
    exact onRunning_runs s fun im t r => checkDeadline_run im t r _ _ _ _ _ s hz (by decide)
  | taskEnd task => exact onRunning_runs s fun im t r => endTask_run im t r _ (settleTask_run im t s hz (by decide)) (by decide)
  | checkHorizon task => exact execCheckHorizon_runs task s
  | inspectionSlotStart => exact .next (run_if (startSlot_run s hz (by decide)))
  | inspectionSlotEnd result => exact execInspectionSlotEnd_runs result s
  | gaugeSample gauge unit value => exact .next (run_if (sample_run _ _ _ s hz (by decide)))
  | settlementDaily => exact .next (run_if (putDay_run s hz (by decide)))
  | settlementHourly => exact .next (run_if (putHours_run s hz (by decide)))
  | pairReqHoldExpiry => exact .next (modTwin_run _ s hz (by decide))
  | fabricPortUp p low high => exact execFabricPortUp_runs p low high s
  | firmwareBoot => exact execFirmwareBoot_runs s

/-! #### The memories -/

/-- A power-on reset keeps of DRAM what lies in the far tier, and no byte of a core store (R188, R317). -/
theorem powerOff_memOk {s : State} (h : MemOk s) : MemOk (powerOff s) := ⟨memFilter_wfFrom h.1, rfl⟩

theorem execPowerOnReset_memOk (held : Nat) {s t : State} (h : MemOk s) (ht : execPowerOnReset held s = .next t) : MemOk t := by
  obtain rfl := Host.Outcome.next.inj ht
  split
  · exact h
  · split
    · exact powerOff_memOk h
    · exact h

theorem exec_memOk (i : Instr) {s t : State} (h : MemOk s) (ht : exec i s = .next t) : MemOk t := by
  by_cases hi : ∃ held, i = .powerOnReset held
  · obtain ⟨held, rfl⟩ := hi
    exact execPowerOnReset_memOk held h ht
  · obtain ⟨u, hu, hrun⟩ := exec_runs i s fun held heq => hi ⟨held, heq⟩
    obtain rfl := Host.Outcome.next.inj (ht.symm.trans hu)
    exact ⟨hrun.mem h.1, hrun.store h.2⟩

/-- Settles O7: a nanosecond writes no memory, a power-on reset clears what it does not keep, and every other command is a `Run`, whose
writes of memory go through the laws of byte memory. -/
theorem memoryStaysCanonical : Obligations.MemoryStaysCanonical := by
  unfold Obligations.MemoryStaysCanonical
  intro s t h ht
  unfold step at ht
  split at ht
  next =>
    obtain rfl := Host.Outcome.next.inj ht
    exact h
  next c rest hp =>
    have hpop : MemOk { s with pending := rest } := h
    exact exec_memOk c hpop ht

end Sys2Proof.Proofs

/-! ### A way that is disabled while its set's lines lie in another one (R171) -/

namespace Sys2Proof.Proofs

open Machine Laws

/-! #### The package -/

/-- A set with one enabled way, 15, whose line is recorded in way 0. -/
def strayWaySet : CacheSet := { lineZeroSet with disabled := List.range 15 }

def strayWayStack : Stack := { Stack.reset with inReset := false, cache := [strayWaySet] }

def strayWays : State := { State.reset with memStacks := Vector.replicate 32 strayWayStack }

/-- The update engine of stack 0 reads line 0, and the error code finds that way 15 fails. -/
def strayRead : LineReq :=
  { who := .update 0, id := 0, addr := 0, write := false, data := [], hint := .stream, prefetch := false, dst := 0, ecc := .badWay 15 }

theorem strayWays_stack (i : Fin 32) : strayWays.memStacks[i] = strayWayStack := by simp [strayWays]

theorem strayWayStack_waysOf : waysOf strayWayStack strayWaySet = 1 := by decide

theorem strayWays_cachesOk : CachesOk strayWays := by
  refine ⟨rfl, fun i => ?_⟩
  rw [strayWays_stack]
  refine ⟨by simp [strayWayStack], fun c hc => ?_⟩
  obtain rfl : c = strayWaySet := by simpa [strayWayStack] using hc
  exact ⟨fun l hl => by simp_all [strayWaySet, lineZeroSet], by simp [strayWaySet, lineZeroSet], strayWayStack_waysOf.ge, Nat.zero_le _⟩

theorem cacheSetOf_strayWayStack : cacheSetOf 0 strayWayStack = strayWaySet := by
  simp [cacheSetOf, strayWayStack, strayWaySet, lineZeroSet]

/-! #### The way fails -/

/-- The set once way 15 is disabled: no way is left, and the line, which lay in another one, stays. -/
def spentSet : CacheSet := { strayWaySet with disabled := List.range 15 ++ [15] }

theorem spentSet_waysOf : waysOf strayWayStack spentSet = 0 := by decide

/-- Disabling a way that holds no line of its set, where no keep mark stands: the way is disabled, and the lines stay. -/
theorem disableWay_of_no_line {i : Fin 32} {ln way : Nat} {c : CacheSet} {s : State} (hc : cacheSetOf ln s.memStacks[i] = c)
    (hway : (enabledWays s.memStacks[i] c).contains way = true) (hlines : ∀ l ∈ c.lines, l.way ≠ way) (hkeep : ∀ l ∈ c.lines, l.keep = false) :
    (disableWay i ln way s).2 = none ∧
      (disableWay i ln way s).1.memStacks[i] =
        { s.memStacks[i] with cache := putSet { c with disabled := c.disabled ++ [way] } s.memStacks[i].cache } := by
  have hlost : (c.lines.find? fun l => l.way == way && l.dirty) = none := List.find?_eq_none.mpr fun l hl => by simp [hlines l hl]
  have hkept : (c.lines.filter fun l => l.way != way) = c.lines := List.filter_eq_self.mpr fun l hl => by simp [hlines l hl]
  have hmarks : (c.lines.filter (·.keep)) = [] := List.filter_eq_nil_iff.mpr fun l hl => by simp [hkeep l hl]
  have htrim : ∀ n, trimKeep n 17 c.lines = c.lines := fun n => by simp [trimKeep, hmarks]
  simp only [disableWay, hc, hway, hlost, hkept, htrim, Bool.not_true, Bool.false_eq_true, if_false, Option.map_none, true_and]
  refine Eq.trans (congrArg (fun v : Vector Stack 32 => v[i]) ((logEv_run (flds := [.out, .hostA, .hostB, .seq, .log, .flash]) _ _ _ _ _ _ _
    (ledgerAppend_run _ _ _ _ _ _ (.refl _ _) (by decide)) (by decide)).same .memStacks rfl)) (getElem_modStack ..)

theorem disableWay_strayWays :
    (disableWay 0 0 15 strayWays).2 = none ∧
      (disableWay 0 0 15 strayWays).1.memStacks[(0 : Fin 32)] = { strayWayStack with cache := [spentSet] } := by
  have hset : cacheSetOf 0 strayWays.memStacks[(0 : Fin 32)] = strayWaySet := by rw [strayWays_stack, cacheSetOf_strayWayStack]
  obtain ⟨hlost, hstack⟩ := disableWay_of_no_line (way := 15) hset (by rw [strayWays_stack]; decide) (by simp [strayWaySet, lineZeroSet])
    (by simp [strayWaySet, lineZeroSet])
  rw [strayWays_stack] at hstack
  exact ⟨hlost, hstack.trans (by simp [putSet, strayWayStack, strayWaySet, spentSet])⟩

/-! #### The step -/

/-- The line is resident, so the read enters no bank. -/
theorem strayRead_banks : (MemReq.line strayRead).banks strayWays = [] := by
  have hstack : (MemReq.line strayRead).stack = 0 := rfl
  have haddrs : (MemReq.line strayRead).addrs = [0] := rfl
  have hline : lineNo 0 = 0 := rfl
  simp only [MemReq.banks, hstack, haddrs, strayWays_stack]
  simp [cachedLine, hline, cacheSetOf_strayWayStack, strayWaySet, lineZeroSet]

theorem lineReq_strayRead : lineReq strayRead strayWays = serveLine strayRead strayWays := by
  have hrange : rangeOf strayRead.addr = .stack 0 := rfl
  have hcause : reqCause (.line strayRead) strayWays = none := by
    simp only [reqCause, accessCause]
    simp [strayRead, strayWays_stack, strayWayStack, Stack.reset, pathOk, rangeOf, -Fin.getElem_fin]
  have hwait : waitBank (.line strayRead) strayWays = none := by
    have hbanks : strayWays.memStacks[(MemReq.line strayRead).stack].banks = [] := by rw [strayWays_stack]; rfl
    simp only [waitBank, hbanks, strayRead_banks, List.find?_nil]
  have hwho : strayRead.who = .update 0 := rfl
  have hread : strayRead.write = false := rfl
  simp only [lineReq, hcause, hrange, hwho, hread, Bool.false_and, Bool.false_eq_true, if_false]
  rw [enterBank_served hwait, admitReq, strayRead_banks]
  rfl

/-- A read of a line of which the error code finds no error that it must report completes with what the slice cache answers. -/
theorem serveLine_checked_read {r : LineReq} {s u : State} (hw : r.write = false)
    (hcheck : sectorCheck (MemReq.line r).stack r.who r.addr r.ecc s = (u, false)) :
    serveLine r s = complete (MemReq.line r).stack r.who r.id (some (cacheRead (MemReq.line r).stack (lineNo r.addr) r.hint u).1)
      (cacheRead (MemReq.line r).stack (lineNo r.addr) r.hint u).2 := by
  simp only [serveLine, hw, hcheck, Bool.false_and, Bool.false_eq_true, if_false]

/-- A resident line that is read under STREAM stays as it is (Table 7.3). -/
theorem cacheRead_stream_resident {i : Fin 32} {ln : Nat} {s : State} (h : (cachedLine ln s.memStacks[i]).isSome = true) :
    (cacheRead i ln .stream s).2 = s := by
  obtain ⟨l, hl⟩ := Option.isSome_iff_exists.mp h
  simp only [cacheRead, hl]

theorem serveLine_strayRead :
    ∃ b, (serveLine strayRead strayWays).memStacks[(0 : Fin 32)] = { strayWayStack with cache := [spentSet], banks := b } := by
  obtain ⟨hlost, hstack⟩ := disableWay_strayWays
  generalize hx : disableWay 0 0 15 strayWays = x at hlost hstack
  obtain ⟨u, lost⟩ := x
  obtain rfl : lost = none := hlost
  dsimp only at hstack
  have hcheck : sectorCheck 0 (.update 0) 0 (.badWay 15) strayWays = (u, false) := by
    have hline : lineNo 0 = 0 := rfl
    simp [sectorCheck, hline, hx]
  have hcached : (cachedLine 0 u.memStacks[(0 : Fin 32)]).isSome = true := by
    rw [hstack]
    simp [cachedLine, cacheSetOf, spentSet, strayWaySet, lineZeroSet]
  have hstay : (cacheRead 0 (lineNo strayRead.addr) strayRead.hint u).2 = u := cacheRead_stream_resident hcached
  have hstack0 : (MemReq.line strayRead).stack = 0 := rfl
  rw [serveLine_checked_read (r := strayRead) (u := u) rfl hcheck, hstack0, hstay]
  show ∃ b, (emit _ (leaveBanks 0 (.update 0, 0) u)).memStacks[(0 : Fin 32)] = _
  rw [emit_memStacks, leaveBanks, getElem_modStack, hstack]
  exact ⟨_, rfl⟩

/-- Refutes O35: `CachesOk` does not ask that each line of a set lies in an enabled way of its own. In `strayWays` the one line of a set is
recorded in way 0, and way 15 is the one that is enabled. A read of the line finds that way 15 fails; disabling it (R171) takes out the lines
of way 15, of which there is none, so the set holds one line and has no enabled way. -/
theorem not_sliceCachesStaySound : ¬ Obligations.SliceCachesStaySound := by
  unfold Obligations.SliceCachesStaySound
  rintro ⟨-, hstep⟩
  have hstart : CachesOk { strayWays with pending := [.lineRequest strayRead] } := strayWays_cachesOk
  have hnext : step { strayWays with pending := [.lineRequest strayRead] } = .next (serveLine strayRead strayWays) :=
    congrArg Host.Outcome.next lineReq_strayRead
  obtain ⟨-, hcaches⟩ := hstep _ _ hstart hnext
  obtain ⟨b, hstack⟩ := serveLine_strayRead
  obtain ⟨-, hsets⟩ := hcaches 0
  rw [hstack] at hsets
  have hways : 1 ≤ waysOf strayWayStack spentSet := (hsets spentSet (List.mem_singleton_self _)).ways
  rw [spentSet_waysOf] at hways
  omega

end Sys2Proof.Proofs

/-! ### A read under LAST of a clean line that DRAM does not hold (R168, R174, R274) -/

namespace Sys2Proof.Proofs

open Machine Laws

/-! #### Line 0 of stack 0 -/

/-- Line 0 of stack 0 lies in its slice cache, clean, and reads as ones; DRAM, which holds zeros, does not have its bytes. -/
structure HoldsLineZero (s : State) : Prop where
  cache : s.memStacks[(0 : Fin 32)].cache = [lineZeroSet]
  mem : s.mem = []

/-- The line has left the slice cache, and DRAM is as it was. -/
structure LostLineZero (s : State) : Prop where
  cache : s.memStacks[(0 : Fin 32)].cache = [{ lineZeroSet with lines := [] }]
  mem : s.mem = []

theorem HoldsLineZero.cachedLine {s : State} (h : HoldsLineZero s) : cachedLine 0 s.memStacks[(0 : Fin 32)] =
    some { line := 0, way := 0, data := List.replicate 128 1, dirty := false, keep := false } := by
  rw [Machine.cachedLine, cacheSetOf, h.cache]
  simp [lineZeroSet]

theorem HoldsLineZero.physGet {s : State} (h : HoldsLineZero s) : physGet s 0 = 1 := by
  have hrange : rangeOf 0 = .stack 0 := rfl
  have hline : lineNo 0 = 0 := rfl
  simp only [Machine.physGet, hrange, hline, h.cachedLine]
  rfl

theorem LostLineZero.physGet {s : State} (h : LostLineZero s) : physGet s 0 = 0 := by
  have hrange : rangeOf 0 = .stack 0 := rfl
  have hline : lineNo 0 = 0 := rfl
  have hout : Machine.cachedLine 0 s.memStacks[(0 : Fin 32)] = none := by
    rw [Machine.cachedLine, cacheSetOf, h.cache]
    simp [lineZeroSet]
  simp only [Machine.physGet, hrange, hline, hout, h.mem]
  rfl

/-- Under LAST the line leaves the slice cache, and as it is clean nothing is written back (Table 7.3). -/
theorem HoldsLineZero.cacheRead_last {s : State} (h : HoldsLineZero s) : LostLineZero (cacheRead 0 0 .last s).2 := by
  have hset : cacheSetOf 0 s.memStacks[(0 : Fin 32)] = lineZeroSet := by
    rw [cacheSetOf, h.cache]
    simp [lineZeroSet]
  have hin : (lineZeroSet.lines.any fun x => x.line == 0) = true := rfl
  rw [cacheRead_last_clean h.cachedLine rfl, cacheRemove, hset, if_pos hin]
  refine ⟨?_, h.mem⟩
  rw [getElem_modStack, h.cache]
  simp [putSet, lineZeroSet]

/-- A read under LAST keeps no byte of the line. -/
theorem not_sameMemory_of_lost {s t : State} (h : HoldsLineZero s) (k : LostLineZero t) : ¬ SameMemory s t := by
  intro hsame
  have hbyte := hsame 0
  rw [h.physGet, k.physGet] at hbyte
  exact absurd hbyte (by decide)

/-! #### The package -/

/-- A package whose stacks hold that set, with the given banks; its paths work, port A is up, and its BAR2 reads under LAST. -/
def lastReading (banks : List BankQ) : State :=
  { State.reset with
    power := { State.reset.power with phase := .ready }
    warden := { State.reset.warden with ready := true }
    hostA := { HostPort.reset with inReset := false, state := 0, hint := 3 }
    dies := Vector.replicate 4 { Die.reset with inReset := false }
    links := Vector.replicate 41 { DieLink.reset with up := true }
    memStacks := Vector.replicate 32 { Stack.reset with inReset := false, cache := [lineZeroSet], banks := banks } }

theorem lastReading_stack (banks : List BankQ) (i : Fin 32) :
    (lastReading banks).memStacks[i] = { Stack.reset with inReset := false, cache := [lineZeroSet], banks := banks } := by
  simp [lastReading]

theorem lastReading_holds (banks : List BankQ) : HoldsLineZero (lastReading banks) := ⟨by rw [lastReading_stack], rfl⟩

theorem lastReading_cachesOk (banks : List BankQ) : CachesOk (lastReading banks) := by
  refine ⟨rfl, fun i => ?_⟩
  have hold := lastMoving_cachesOk.2 i
  rw [lastMoving_stack] at hold
  rw [lastReading_stack]
  exact ⟨hold.1, fun c hc => ⟨(hold.2 c hc).home, (hold.2 c hc).once, (hold.2 c hc).ways, (hold.2 c hc).keeps⟩⟩

/-- The hub and the ports reach stack 0. -/
theorem accessCause_lastReading {who : Requester} (hwho : who = .hub ∨ ∃ p, who = .host p) (banks : List BankQ) :
    accessCause who 0 1 (lastReading banks) = none := by
  have hpath : pathOk who 0 (lastReading banks) = true := by
    obtain rfl | ⟨p, rfl⟩ := hwho
    · rfl
    · rfl
  have hrange : rangeOf 0 = .stack 0 := rfl
  simp [accessCause, hrange, lastReading_stack, hpath, Stack.reset, -Fin.getElem_fin]

/-! #### A BAR2 read -/

theorem exec_bar2Read_lastReading : ∃ t, exec (.bar2Read .a 0 ⟨1, .clean⟩) (lastReading []) = .next t ∧ LostLineZero t := by
  have hsettled : settleRange 0 1 (lastReading []) = lastReading [] :=
    settleRange_of_no_banks (fun i => by rw [lastReading_stack]) 0 1
  have haddr : bar2Addr .a 0 (lastReading []) = 0 := rfl
  have hhint : hintOf (hostOf .a (lastReading [])).hint.toNat = .last := rfl
  have hrange : rangeOf 0 = .stack 0 := rfl
  have hread : (dmaRead .last 2 0 1 (lastReading [])).2 = (cacheRead 0 0 .last (lastReading [])).2 := by
    simp only [dmaRead, hrange]
    rfl
  have hbar2 : bar2Read .a 0 1 .clean (lastReading []) =
      emit (.readResp .a 0 (dmaRead .last 2 0 1 (lastReading [])).1) (dmaRead .last 2 0 1 (lastReading [])).2 := by
    simp only [bar2Read, haddr, Nat.max_self, accessCause_lastReading (.inr ⟨_, rfl⟩), rangeCheck, hrange, hsettled, sectorCheck, hhint]
    rfl
  obtain ⟨hcache, hmem⟩ := (lastReading_holds []).cacheRead_last
  refine ⟨_, rfl, ?_⟩
  rw [viaPort_of_alive rfl, hbar2, hread]
  exact ⟨hcache, hmem⟩

/-- Refutes O41, as O56 is refuted: `CachesOk` does not ask that the clean lines of a slice cache hold what DRAM holds. In `lastReading []` line 0
of stack 0 reads as ones and is clean; a BAR2 read of its first byte under the hint LAST, which BAR2CTL names (R274), takes the line out of the
cache without writing it back (Table 7.3), and it reads as zeros afterwards, although the statement says that a read changes no byte. -/
theorem not_bar2AndFarTier : ¬ Obligations.Bar2AndFarTier := by
  unfold Obligations.Bar2AndFarTier
  intro h
  obtain ⟨-, hread, -⟩ := (h (lastReading [])).1 .a 0 1 rfl (by decide) (by decide) (lastReading_cachesOk [])
  obtain ⟨t, hexec, -, hsame, -⟩ := hread (accessCause_lastReading (.inr ⟨_, rfl⟩) [])
  obtain ⟨u, hu, hlost⟩ := exec_bar2Read_lastReading
  obtain rfl := Host.Outcome.next.inj (hu.symm.trans hexec)
  have hsettled : settleRange 0 1 (lastReading []) = lastReading [] :=
    settleRange_of_no_banks (fun i => by rw [lastReading_stack]) 0 1
  exact not_sameMemory_of_lost (lastReading_holds []) hlost (hsettled ▸ hsame)

/-! #### A parked read -/

/-- The hub reads line 0 of stack 0 under LAST. -/
def lastRead : LineReq :=
  { who := .hub, id := 0, addr := 0, write := false, data := [], hint := .last, prefetch := false, dst := 0, ecc := .clean }

/-- Bank 0 with that read parked. -/
def lastParked : BankQ := { bank := 0, queue := [], parked := [.line lastRead] }

theorem bankQ_lastReading : bankQ 0 0 (lastReading [lastParked]) = lastParked := by
  rw [bankQ, lastReading_stack]
  rfl

/-- The package once the read has left the parking list. -/
def lastUnparked : State := modBank 0 0 (fun q => { q with parked := [] }) (lastReading [lastParked])

theorem lastUnparked_holds : HoldsLineZero lastUnparked := by
  refine ⟨?_, rfl⟩
  rw [lastUnparked, modBank, getElem_modStack, lastReading_stack]

/-- The line is resident, so the read enters no bank. -/
theorem lastRead_banks {s : State} (h : HoldsLineZero s) : (MemReq.line lastRead).banks s = [] := by
  have hstack : (MemReq.line lastRead).stack = 0 := rfl
  have haddrs : (MemReq.line lastRead).addrs = [0] := rfl
  have hline : lineNo 0 = 0 := rfl
  simp only [MemReq.banks, hstack, haddrs, List.filter_cons, hline, h.cachedLine]
  rfl

theorem exec_parkedRequestAdmit_lastRead :
    ∃ t, exec (.parkedRequestAdmit 0 0) (lastReading [lastParked]) = .next t ∧ LostLineZero t := by
  have hparked : (bankQ 0 0 (lastReading [lastParked])).parked = [.line lastRead] := by rw [bankQ_lastReading]; rfl
  have hadmit : exec (.parkedRequestAdmit 0 0) (lastReading [lastParked]) = .next (serveLine lastRead lastUnparked) := by
    show execParkedRequestAdmit 0 0 (lastReading [lastParked]) = _
    simp only [execParkedRequestAdmit, hparked, lastRead_banks (lastReading_holds _), List.all_nil, if_true]
    rw [← lastUnparked, admitReq, lastRead_banks lastUnparked_holds]
    rfl
  obtain ⟨hcache, hmem⟩ := lastUnparked_holds.cacheRead_last
  refine ⟨_, hadmit, ?_⟩
  rw [serveLine_read rfl rfl]
  refine ⟨?_, hmem⟩
  show (emit _ (leaveBanks 0 (.hub, 0) (cacheRead 0 0 .last lastUnparked).2)).memStacks[(0 : Fin 32)].cache = _
  rw [emit_memStacks, leaveBanks, getElem_modStack]
  exact hcache

/-- Refutes O39, as O41 is refuted: in `lastReading [lastParked]` the parked read of line 0 is admitted, takes the clean line out of the slice
cache under the hint LAST, and the line reads as zeros afterwards. -/
theorem not_bankQueues : ¬ Obligations.BankQueues := by
  unfold Obligations.BankQueues
  intro h
  obtain ⟨-, -, -, -, hadmit⟩ := h lastRead 0 0 (lastReading [lastParked]) (accessCause_lastReading (.inl rfl) _) rfl rfl
    (fun hw => Bool.noConfusion hw)
  obtain ⟨t, hexec, -, hsame, -⟩ := hadmit [] (by rw [bankQ_lastReading]; rfl)
    (fun k hk => by rw [lastRead_banks (lastReading_holds _)] at hk; exact (List.not_mem_nil hk).elim) rfl (lastReading_cachesOk _)
  obtain ⟨u, hu, hlost⟩ := exec_parkedRequestAdmit_lastRead
  obtain rfl := Host.Outcome.next.inj (hu.symm.trans hexec)
  exact not_sameMemory_of_lost (lastReading_holds _) hlost (hsame rfl).1

end Sys2Proof.Proofs

/-! ### Accesses that are not performed (R16, R163) -/

namespace Sys2Proof.Proofs

open Machine Laws

/-! #### A request with a cause of Table 10.15 -/

theorem lineReq_failed {r : LineReq} {k : Nat} {s : State} (h : reqCause (.line r) s = some k) :
    lineReq r s = failReq (.line r) k s := by
  simp only [lineReq, h]

theorem narrowReq_failed {r : NarrowReq} {q : MemReq} {k : Nat} {s : State} (hok : narrowOk r = true) (h : reqCause q s = some k) :
    narrowReq r q s = failReq q k s := by
  simp only [narrowReq, hok, h, Bool.not_true, Bool.false_eq_true, if_false]

theorem onAdder_failed {addr len k : Nat} {s : State} (h : accessCause .hub addr len s = some k) (f : Fin 32 → State → State) :
    onAdder addr len f s = answerErr .hub 0 (logAccess addr .hub k s) := by
  simp only [onAdder, h]

/-! #### Stacks that answer no one -/

/-- An access to a stack that is stopped or held in reset, or whose path is not whole, has a cause. -/
theorem accessCause_isSome_of_stack {who : Requester} {addr : Nat} {i : Fin 32} {s : State} (hrange : rangeOf addr = .stack i)
    (h : (s.memStacks[i].stopped = true ∨ s.memStacks[i].inReset = true) ∨ pathOk who i s = false) (len : Nat) :
    (accessCause who addr len s).isSome = true := by
  unfold accessCause
  split
  · rfl
  · simp only [hrange]
    split
    · rfl
    next hoff =>
      obtain ⟨⟨hstopped, hreset⟩, -⟩ : (s.memStacks[i].stopped = false ∧ s.memStacks[i].inReset = false) ∧ s.memStacks[i].selfRefresh = false := by
        simpa only [Bool.not_eq_true, Bool.or_eq_false_iff] using hoff
      obtain (hs | hr) | hpath := h
      · exact absurd (hs.symm.trans hstopped) (by decide)
      · exact absurd (hr.symm.trans hreset) (by decide)
      · rw [hpath]; rfl

/-- With the owning die in reset only the stack's own update engine reaches it (R15, R16). -/
theorem pathOk_of_shut {who : Requester} {i : Fin 32} {s : State} (hshut : s.dies[ownerDie i].inReset = true) (hwho : ∀ j, who ≠ .update j) :
    pathOk who i s = false := by
  cases who with
  | update j => exact absurd rfl (hwho j)
  | core c n th =>
    by_cases hc : c = ownerDie i
    · subst hc
      simp [pathOk, hshut, -Fin.getElem_fin]
    · simp [pathOk, hshut, hc, -Fin.getElem_fin]
  | hub | host | guest => simp [pathOk, hshut, -Fin.getElem_fin]

/-- A core of a die in reset, or of another die with no ring path to the owning one, does not reach the stack (R15, R16). -/
theorem pathOk_core_cut {c : Fin 4} {n : Nat} {th : Fin 8} {i : Fin 32} {s : State}
    (h : s.dies[c].inReset = true ∨ (c ≠ ownerDie i ∧ ringPath c (ownerDie i) s = false)) : pathOk (.core c n th) i s = false := by
  obtain hdie | ⟨hne, hring⟩ := h
  · simp [pathOk, hdie, -Fin.getElem_fin]
  · simp [pathOk, hne, hring, -Fin.getElem_fin]

/-- What stops the access to its first address stops a request. -/
theorem reqCause_isSome {m : MemReq} {s : State} (h : ∀ n, (accessCause m.key.1 (m.addrs.headD 0) n s).isSome = true) :
    (reqCause m s).isSome = true := by
  have hnarrow : ∀ (c : Prop) [Decidable c], (if c then some 6 else accessCause m.key.1 (m.addrs.headD 0) 32 s).isSome = true := by
    intro c _
    split
    · rfl
    · exact h 32
  cases m with
  | line r => exact h _
  | gather | scatter | scatterAdd => exact hnarrow _

/-- Settles O36: each request fails where its cause is found, before anything is performed; a stack that is off, a die in reset and a broken
ring path each make `accessCause` find one. -/
theorem failedAccess : Obligations.FailedAccess := by
  unfold Obligations.FailedAccess
  intro k s fails
  refine ⟨fun r h => congrArg Host.Outcome.next (lineReq_failed h), fun r hok => ⟨fun h => ?_, fun h => ?_, fun h => ?_⟩,
    fun addr l ecc hok h => ⟨?_, ?_⟩, fun addr n haddr hn hpos h => ?_, fun i => ?_⟩
  · exact congrArg Host.Outcome.next (narrowReq_failed hok h)
  · exact congrArg Host.Outcome.next (narrowReq_failed hok h)
  · exact congrArg Host.Outcome.next (narrowReq_failed hok h)
  · have hland : exec (.land addr l) s = .next (onAdder addr (4 * l.length) _ s) := congrArg Host.Outcome.next (if_neg (by simp [hok]))
    exact hland.trans (congrArg Host.Outcome.next (onAdder_failed h _))
  · have hadd : exec (.add32 addr ⟨l, ecc⟩) s = .next (onAdder addr (4 * l.length) _ s) := congrArg Host.Outcome.next (if_neg (by simp [hok]))
    exact hadd.trans (congrArg Host.Outcome.next (onAdder_failed h _))
  · have hzero : exec (.zero addr n) s = .next (onAdder addr (4 * n) _ s) := congrArg Host.Outcome.next (if_neg (by omega))
    exact hzero.trans (congrArg Host.Outcome.next (onAdder_failed h _))
  · intro off shut
    refine ⟨fun m hrange hcut => reqCause_isSome (accessCause_isSome_of_stack hrange ?_),
      fun addr n hrange hcut => accessCause_isSome_of_stack hrange ?_ n⟩
    · obtain hoff | ⟨hshut, hwho⟩ | ⟨c, n, th, hkey, hcore⟩ := hcut
      · exact .inl hoff
      · exact .inr (pathOk_of_shut hshut hwho)
      · exact .inr (hkey ▸ pathOk_core_cut hcore)
    · exact hcut.imp_right fun hshut => pathOk_of_shut hshut fun j => nofun

end Sys2Proof.Proofs

/-! ### MEM_POLICY and FARTIER_SETUP (R166, R192, Table 7.12) -/

namespace Sys2Proof.Proofs

open Machine Laws

/-! #### A stack whose policy changes -/

/-- Changing a stack leaves the others as they are. -/
theorem getElem_modStack_ne {i j : Fin 32} (h : j ≠ i) (f : Stack → Stack) (s : State) :
    (modStack i f s).memStacks[j] = s.memStacks[j] :=
  Vector.getElem_set_ne i.isLt j.isLt fun hij => h (Fin.ext hij.symm)

/-- Whether MEM_POLICY changes the policy of a stack. -/
def policyChanges (mask : Nat) (p : Bool) (s : State) (i : Fin 32) : Bool := bit mask i.val && s.memStacks[i].policy != p

theorem policyChanges_iff {mask : Nat} {p : Bool} {s : State} {i : Fin 32} :
    policyChanges mask p s i = true ↔ mask.testBit i.val = true ∧ s.memStacks[i].policy ≠ p := by
  simp [policyChanges, bit]

/-- What MEM_POLICY does with one stack. -/
def policyStep (mask : Nat) (p : Bool) (s : State) (i : Fin 32) : State :=
  if policyChanges mask p s i then
    ledgerAppend 0x40 6 i.val 0 (leBytes 4 (b2n p)) (modStack i (fun k => { k with policy := p }) (zeroStack i s))
  else s

/-- A stack with a new policy and an empty slice cache. -/
def repoliced (p : Bool) (k : Stack) : Stack :=
  { k with policy := p, cache := (k.cache.map fun c => { c with lines := [] }).filter fun c => !c.disabled.isEmpty }

theorem repoliced_cache_empty (p : Bool) (k : Stack) : ∀ c ∈ (repoliced p k).cache, c.lines = [] := by
  intro c hc
  obtain ⟨d, -, rfl⟩ := List.mem_map.mp (List.mem_filter.mp hc).1
  rfl

section
variable (mask : Nat) (p : Bool)

theorem policyStep_stack (s : State) (i j : Fin 32) :
    (policyStep mask p s i).memStacks[j] = if j = i ∧ policyChanges mask p s i = true then repoliced p s.memStacks[j] else s.memStacks[j] := by
  unfold policyStep
  by_cases hc : policyChanges mask p s i = true
  · rw [if_pos hc]
    show (modStack i (fun k => { k with policy := p }) (invalidateCache i { s with mem := _ })).memStacks[j] = _
    by_cases hj : j = i
    · subst hj
      rw [getElem_modStack, invalidateCache, getElem_modStack, if_pos ⟨rfl, hc⟩, repoliced]
    · rw [getElem_modStack_ne hj, invalidateCache, getElem_modStack_ne hj, if_neg fun h => hj h.1]
  · rw [if_neg hc, if_neg fun h => hc h.2]

theorem policyStep_mem {s : State} (h : s.mem.wf = true) (i : Fin 32) (a : Nat) :
    memGet (policyStep mask p s i).mem a = if a / 2 ^ 37 = i.val ∧ policyChanges mask p s i = true then 0 else memGet s.mem a := by
  unfold policyStep
  by_cases hc : policyChanges mask p s i = true
  · rw [if_pos hc]
    show memGet (memClear s.mem (i.val * 2 ^ 37) ((i.val + 1) * 2 ^ 37)) a = _
    rw [memGet_memClear h]
    have hin : (i.val * 2 ^ 37 ≤ a ∧ a < (i.val + 1) * 2 ^ 37) ↔ a / 2 ^ 37 = i.val := by omega
    simp only [hin, hc, and_true]
  · rw [if_neg hc, if_neg fun h => hc h.2]

theorem policyStep_run (s : State) (i : Fin 32) : Run [.memStacks, .mem, .flash] s (policyStep mask p s i) :=
  run_if (ledgerAppend_run _ _ _ _ _ _ (modStack_run _ _ _ (zeroStack_run _ _ (.refl _ s) (by decide)) (by decide)) (by decide))

/-- What MEM_POLICY does with a list of stacks. -/
theorem foldl_policyStep_run (l : List (Fin 32)) (s : State) : Run [.memStacks, .mem, .flash] s (l.foldl (policyStep mask p) s) :=
  Run.foldl (.refl _ s) fun i x h => h.trans (policyStep_run mask p x i) (by decide)

/-- Another stack's policy decides whether it changes, whatever became of the stacks before it. -/
theorem policyChanges_policyStep {s : State} {i j : Fin 32} (h : j ≠ i) :
    policyChanges mask p (policyStep mask p s i) j = policyChanges mask p s j := by
  rw [policyChanges, policyStep_stack, if_neg fun hj => h hj.1, policyChanges]

theorem foldl_policyStep_stack {l : List (Fin 32)} (hl : l.Nodup) (s : State) (j : Fin 32) :
    (l.foldl (policyStep mask p) s).memStacks[j] =
      if j ∈ l ∧ policyChanges mask p s j = true then repoliced p s.memStacks[j] else s.memStacks[j] := by
  induction l generalizing s with
  | nil => simp
  | cons i l ih =>
    obtain ⟨hi, hl⟩ := List.nodup_cons.mp hl
    rw [List.foldl_cons, ih hl, policyStep_stack]
    by_cases hj : j = i
    · subst hj
      simp [hi]
    · simp [policyChanges_policyStep mask p hj, hj]

theorem foldl_policyStep_mem {l : List (Fin 32)} (hl : l.Nodup) {s : State} (hwf : s.mem.wf = true) {a : Nat} {j : Fin 32}
    (ha : a / 2 ^ 37 = j.val) : memGet (l.foldl (policyStep mask p) s).mem a =
      if j ∈ l ∧ policyChanges mask p s j = true then 0 else memGet s.mem a := by
  induction l generalizing s with
  | nil => simp
  | cons i l ih =>
    obtain ⟨hi, hl⟩ := List.nodup_cons.mp hl
    rw [List.foldl_cons, ih hl ((policyStep_run mask p s i).mem hwf), policyStep_mem mask p hwf]
    by_cases hj : j = i
    · subst hj
      simp only [hi, ha, false_and, if_false, true_and, List.mem_cons, true_or]
    · have hai : a / 2 ^ 37 ≠ i.val := fun h => hj (Fin.ext (ha.symm.trans h))
      simp only [policyChanges_policyStep mask p hj, hj, hai, false_and, if_false, List.mem_cons, false_or]

theorem foldl_policyStep_mem_above {l : List (Fin 32)} {s : State} (hwf : s.mem.wf = true) {a : Nat} (ha : 32 ≤ a / 2 ^ 37) :
    memGet (l.foldl (policyStep mask p) s).mem a = memGet s.mem a := by
  induction l generalizing s with
  | nil => rfl
  | cons i l ih =>
    have hai : a / 2 ^ 37 ≠ i.val := by omega
    rw [List.foldl_cons, ih ((policyStep_run mask p s i).mem hwf), policyStep_mem mask p hwf, if_neg fun h => hai h.1]

end

/-- MEM_POLICY, from its mailbox to its end. -/
theorem memPolicy_effect {mb : Mbox} {e : Bytes} {s : State} (ho : Offered 0x0301 mb e s) (hl : LockedIdle s) (hm : MemOk s) :
    ∃ t, exec (.memPolicy mb) s = .next t ∧ Ends mb e (lockedFrom s + 100000000) 0 0 s t ∧
      (∀ i : Fin 32, t.memStacks[i] =
        if policyChanges (arg e 0 4) (arg e 4 1 == 1) s i = true then repoliced (arg e 4 1 == 1) s.memStacks[i] else s.memStacks[i]) ∧
      (∀ (a : Nat) (j : Fin 32), a / 2 ^ 37 = j.val →
        memGet t.mem a = if policyChanges (arg e 0 4) (arg e 4 1 == 1) s j = true then 0 else memGet s.mem a) ∧
      (∀ a, 32 ≤ a / 2 ^ 37 → memGet t.mem a = memGet s.mem a) ∧ t.coreStore = s.coreStore ∧ t.job = s.job := by
  generalize hmask : arg e 0 4 = mask
  generalize hp : (arg e 4 1 == 1) = p
  have hu := startedState_mailboxOnly mb e .none s
  have hstacks : (startedState mb e .none s).memStacks = s.memStacks := congr_mailboxOnly State.memStacks hu
  have hmem : (startedState mb e .none s).mem = s.mem := congr_mailboxOnly State.mem hu
  have hexec := exec_starts (ext := .none) (f := runMemPolicy) (i := .memPolicy mb) rfl ho hl rfl rfl (by decide)
    fun a t ha hop => by simp [runOp, readsData, ha, hop]
  have hwork : runMemPolicy (startedCmd mb e .none s) (startedState mb e .none s) =
      finish (startedCmd mb e .none s) 0 0 ((List.finRange 32).foldl (policyStep mask p) (startedState mb e .none s)) := by
    subst hmask hp
    rfl
  rw [hwork] at hexec
  have hrun := foldl_policyStep_run mask p (List.finRange 32) (startedState mb e .none s)
  obtain ⟨t, hexec, hends, ht⟩ := exec_finishes hexec (congrArg Warden.accepted (hrun.same .warden rfl)) (hrun.same .now rfl)
    (by simp [cmdDeadline, ho.opcode, boundStart, lockedFrom] : _ = lockedFrom s + 100000000)
  have hchanges : ∀ i, policyChanges mask p (startedState mb e .none s) i = policyChanges mask p s i := fun i => by
    rw [policyChanges, policyChanges, hstacks]
  have htstacks := congr_mailboxOnly State.memStacks ht
  have htmem : t.mem = _ := congr_mailboxOnly State.mem ht
  have hwf : (startedState mb e .none s).mem.wf = true := hmem ▸ hm.1
  refine ⟨t, hexec, hends, fun i => ?_, fun a j ha => ?_, fun a ha => ?_, ?_, ?_⟩
  · rw [htstacks]
    show ((List.finRange 32).foldl (policyStep mask p) (startedState mb e .none s)).memStacks[i] = _
    rw [foldl_policyStep_stack mask p (List.nodup_finRange 32), hchanges, hstacks]
    simp [List.mem_finRange]
  · rw [htmem, foldl_policyStep_mem mask p (List.nodup_finRange 32) hwf ha, hchanges, hmem]
    simp [List.mem_finRange]
  · rw [htmem, foldl_policyStep_mem_above mask p hwf ha, hmem]
  · exact ((congr_mailboxOnly State.coreStore ht).trans (hrun.same .coreStore rfl)).trans (congr_mailboxOnly State.coreStore hu)
  · exact ((congr_mailboxOnly State.job ht).trans (hrun.same .job rfl)).trans (congr_mailboxOnly State.job hu)

/-! #### A far-tier port that is set up -/

/-- What setup finds of a port (Table 7.12). -/
def farFound (q : FarProbe) : FarPort :=
  let n := farStep q
  let ok := decide (5 ≤ n)
  { st := if n = 6 then 2 else if n = 5 then 1 else 0, cap := if n < 5 then 0 else min q.capBytes (2 ^ 42), wr := if ok then q.wrRate else 0,
    rd := if ok then q.rdRate else 0, linkUp := ok }

/-- Setup that stops before its fifth step maps nothing. -/
theorem farFound_eq (q : FarProbe) : farFound q =
    { st := if farStep q = 6 then 2 else if farStep q = 5 then 1 else 0, cap := if farStep q < 5 then 0 else min q.capBytes (2 ^ 42),
      wr := if farStep q < 5 then 0 else q.wrRate, rd := if farStep q < 5 then 0 else q.rdRate, linkUp := decide (5 ≤ farStep q) } := by
  by_cases h : farStep q < 5
  · simp [farFound, h]
  · simp [farFound, h, Nat.not_lt.mp h]

/-- No far-tier window begins below `0x1000_0000_0000` (Table 7.1). -/
theorem farBase_ge (f : Fin 2) : 0x100000000000 ≤ farBase f := by
  unfold farBase
  split <;> decide

theorem memGet_memSets_below {l : List (Byte × Nat)} {g : Nat → Nat} (hg : ∀ n, 0x100000000000 ≤ g n) {m : Memory} (hm : m.wf = true)
    {a : Nat} (ha : a < 0x100000000000) : memGet (l.foldl (fun m x => memSet m (g x.2) x.1) m) a = memGet m a := by
  induction l generalizing m with
  | nil => rfl
  | cons x l ih =>
    have hne : a ≠ g x.2 := fun h => absurd (hg x.2) (by omega)
    rw [List.foldl_cons, ih (memSet_wf hm), memGet_memSet hm, if_neg hne]

/-- The slots of the checkpoint area lie in the far tier (R286). -/
theorem slotAddr_ge (slot o : Nat) : 0x100000000000 ≤ slotAddr slot o := by
  have hbase := farBase_ge (Fin.ofNat 2 (o / 2 ^ 20 % 2))
  unfold slotAddr
  omega

theorem slotWrite_mem_below {s : State} (hm : s.mem.wf = true) {a : Nat} (ha : a < 0x100000000000) (slot o : Nat) (b : Bytes) :
    memGet (slotWrite slot o b s).mem a = memGet s.mem a :=
  memGet_memSets_below (fun n => slotAddr_ge slot (o + n)) hm ha

theorem loseArea_mem_below {s : State} (hm : s.mem.wf = true) {a : Nat} (ha : a < 0x100000000000) (f : Fin 2) :
    memGet (loseArea f s).mem a = memGet s.mem a := by
  unfold loseArea
  extract_lets u
  have hu : memGet u.mem a = memGet s.mem a := by
    rw [slotWrite_mem_below ((slotWrite_run (flds := [.mem]) 0 0 (leBytes 256 0) s (.refl _ s) (by decide)).mem hm) ha, slotWrite_mem_below hm ha]
  clear_value u
  split
  · exact hu
  · exact (congrArg (memGet · a) ((logAccess_run (flds := [.out, .hostA, .hostB, .seq, .log]) _ _ _ _ (.refl _ _) (by decide)).same .mem
      rfl)).trans hu

/-- A port before its outcome is logged: what setup found of it, and the tested range zeroed. -/
def farTested (hold : Bool) (f : Fin 2) (q : FarProbe) (s : State) : State :=
  let s := modFar f (fun _ => farFound q) s
  let cap := (farFound q).cap
  let len := min cap (2 ^ 30)
  let lo := farBase f + (if hold then cap - len else 0)
  if (farFound q).linkUp then { s with mem := memClear s.mem lo (lo + len) } else s

/-- The event of the outcome (R192). -/
def farLogged (hold : Bool) (f : Fin 2) (q : FarProbe) (s : State) : State :=
  logEv 0x0015 0 f.val (farStep q) ((farFound q).cap / 2 ^ 30) (if (farFound q).linkUp then min q.wrRate q.rdRate / 10 else 0)
    (farTested hold f q s)

/-- Setting a port up: a port below rating may lose the checkpoint area of a pair (R286). -/
theorem setupFar_eq (hold : Bool) (f : Fin 2) (q : FarProbe) (s : State) :
    setupFar hold f q s =
      if farStep q = 6 then farLogged hold f q s
      else if (farLogged hold f q s).twin.phys.isSome then loseArea f (farLogged hold f q s) else farLogged hold f q s := rfl

theorem farLogged_logged (hold : Bool) (f : Fin 2) (q : FarProbe) (s : State) :
    Run [.out, .hostA, .hostB, .seq, .log] (farTested hold f q s) (farLogged hold f q s) := logEv_ports_run ..

theorem setupFar_far (hold : Bool) (f : Fin 2) (q : FarProbe) (s : State) : (setupFar hold f q s).far = s.far.set f (farFound q) := by
  have htested : (farTested hold f q s).far = s.far.set f (farFound q) := by
    unfold farTested
    dsimp only
    split <;> rfl
  have hlogged : (farLogged hold f q s).far = s.far.set f (farFound q) := ((farLogged_logged hold f q s).same .far rfl).trans htested
  have hlost : (loseArea f (farLogged hold f q s)).far = s.far.set f (farFound q) :=
    ((loseArea_run (flds := [.out, .hostA, .hostB, .seq, .log, .mem, .twin]) f _ (.refl _ _) (by decide)).same .far rfl).trans hlogged
  rw [setupFar_eq]
  split
  · exact hlogged
  · split
    · exact hlost
    · exact hlogged

theorem farTested_mem {hold : Bool} {f : Fin 2} {q : FarProbe} {s : State} (hm : s.mem.wf = true) :
    (farTested hold f q s).mem.wf = true ∧ ∀ a, a < 0x100000000000 → memGet (farTested hold f q s).mem a = memGet s.mem a := by
  have hbase := farBase_ge f
  unfold farTested
  dsimp only
  split
  · refine ⟨memClear_wf hm, fun a ha => ?_⟩
    show memGet (memClear s.mem _ _) a = _
    rw [memGet_memClear hm, if_neg (by omega)]
  · exact ⟨hm, fun a _ => rfl⟩

theorem setupFar_mem_below {s : State} (hm : s.mem.wf = true) {a : Nat} (ha : a < 0x100000000000) (hold : Bool) (f : Fin 2) (q : FarProbe) :
    memGet (setupFar hold f q s).mem a = memGet s.mem a := by
  obtain ⟨hwf, htested⟩ := farTested_mem (hold := hold) (f := f) (q := q) hm
  have hlog : (farLogged hold f q s).mem = (farTested hold f q s).mem := (farLogged_logged hold f q s).same .mem rfl
  have hlogged : memGet (farLogged hold f q s).mem a = memGet s.mem a := by rw [hlog, htested a ha]
  rw [setupFar_eq]
  split
  · exact hlogged
  · split
    · rw [loseArea_mem_below (hlog ▸ hwf) ha, hlogged]
    · exact hlogged

/-! #### Both ports -/

theorem setupBoth_far (mask : Nat) (f0 f1 : FarProbe) (s : State) (f : Fin 2) :
    (setupBoth mask f0 f1 s).far[f] = if mask.testBit f.val then farFound (if f = 0 then f0 else f1) else s.far[f] := by
  have hbit : ∀ k, bit mask k = mask.testBit k := fun _ => rfl
  unfold setupBoth
  extract_lets hold u
  have hu : ∀ g : Fin 2, u.far[g] = if g = 0 ∧ mask.testBit 0 = true then farFound f0 else s.far[g] := fun g => by
    subst u
    by_cases h0 : mask.testBit 0 = true
    · rw [hbit, if_pos h0, setupFar_far]
      fin_cases g <;> simp [h0]
    · rw [hbit, if_neg h0, if_neg fun h => h0 h.2]
  by_cases h1 : mask.testBit 1 = true
  · rw [hbit, if_pos h1, setupFar_far]
    fin_cases f
    · simpa using hu 0
    · simp [h1]
  · rw [hbit, if_neg h1, hu]
    fin_cases f
    · simp
    · simp [h1]

theorem setupBoth_mem_below {s : State} (hm : s.mem.wf = true) {a : Nat} (ha : a < 0x100000000000) (mask : Nat) (f0 f1 : FarProbe) :
    memGet (setupBoth mask f0 f1 s).mem a = memGet s.mem a := by
  unfold setupBoth
  extract_lets hold u
  have hu : u.mem.wf = true ∧ memGet u.mem a = memGet s.mem a := by
    subst u
    split
    · exact ⟨(setupFar_run hold 0 f0 s (.refl commandFields s) (by decide)).mem hm, setupFar_mem_below hm ha hold 0 f0⟩
    · exact ⟨hm, rfl⟩
  split
  · rw [setupFar_mem_below hu.1 ha, hu.2]
  · exact hu.2

/-- FARTIER_SETUP, from its mailbox to its end. -/
theorem farTierSetup_effect {mb : Mbox} {e : Bytes} {s : State} (ho : Offered 0x0302 mb e s) (hl : LockedIdle s) (f0 f1 : FarProbe) :
    ∃ t, exec (.farTierSetup mb f0 f1) s = .next t ∧ Ends mb e (lockedFrom s + 5000000000) 0 0 s t ∧
      (∀ f : Fin 2, t.far[f] = if (arg e 0 1).testBit f.val then farFound (if f = 0 then f0 else f1) else s.far[f]) ∧
      (∀ a, a < 0x100000000000 → MemOk s → memGet t.mem a = memGet s.mem a) ∧ t.memStacks = s.memStacks ∧ t.coreStore = s.coreStore := by
  have hu := startedState_mailboxOnly mb e (.far f0 f1) s
  have hfar : (startedState mb e (.far f0 f1) s).far = s.far := congr_mailboxOnly State.far hu
  have hmem : (startedState mb e (.far f0 f1) s).mem = s.mem := congr_mailboxOnly State.mem hu
  have hexec := exec_starts (ext := .far f0 f1) (f := runFarSetup) (i := .farTierSetup mb f0 f1) rfl ho hl rfl rfl (by decide)
    fun a t ha hop => by simp [runOp, readsData, ha, hop]
  have hrun := setupBoth_run (flds := [.out, .hostA, .hostB, .seq, .log, .mem, .far, .twin]) (arg e 0 1) f0 f1
    (startedState mb e (.far f0 f1) s) (.refl _ _) (by decide)
  obtain ⟨t, hexec, hends, ht⟩ := exec_finishes (w := setupBoth (arg e 0 1) f0 f1 (startedState mb e (.far f0 f1) s)) hexec
    (congrArg Warden.accepted (hrun.same .warden rfl)) (hrun.same .now rfl)
    (by simp [cmdDeadline, ho.opcode, boundStart, lockedFrom] : _ = lockedFrom s + 5000000000)
  have htfar := congr_mailboxOnly State.far ht
  have htmem : t.mem = _ := congr_mailboxOnly State.mem ht
  refine ⟨t, hexec, hends, fun f => ?_, fun a ha hm => ?_, ?_, ?_⟩
  · rw [htfar]
    show (setupBoth (arg e 0 1) f0 f1 (startedState mb e (.far f0 f1) s)).far[f] = _
    rw [setupBoth_far, hfar]
  · rw [htmem]
    show memGet (setupBoth (arg e 0 1) f0 f1 (startedState mb e (.far f0 f1) s)).mem a = _
    rw [setupBoth_mem_below (by rw [hmem]; exact hm.1) ha, hmem]
  · exact ((congr_mailboxOnly State.memStacks ht).trans (hrun.same .memStacks rfl)).trans (congr_mailboxOnly State.memStacks hu)
  · exact ((congr_mailboxOnly State.coreStore ht).trans (hrun.same .coreStore rfl)).trans (congr_mailboxOnly State.coreStore hu)

/-- Settles O27: MEM_POLICY through `policyStep`, stack by stack; FARTIER_SETUP through `setupFar`, which writes the far tier alone. -/
theorem memoryCommands : Obligations.MemoryCommands := by
  unfold Obligations.MemoryCommands
  intro mb e s hl
  refine ⟨fun ho hm => ?_, fun f0 f1 ho => ?_⟩
  · obtain ⟨t, hexec, hends, hstacks, hmem, habove, hstore, hjob⟩ := memPolicy_effect ho hl hm
    refine ⟨t, hexec, hends, fun i => ?_, fun a ha => ?_, fun a ha => habove a (by omega), fun i => ?_, hstore, hjob⟩
    · rw [hstacks]
      split
      next h => rw [if_pos (policyChanges_iff.mp h).1, repoliced]
      next h =>
        split
        next hbit => exact not_not.mp fun hne => h (policyChanges_iff.mpr ⟨hbit, hne⟩)
        · rfl
    · have hj : a / 2 ^ 37 < 32 := by omega
      have hval : (Fin.ofNat 32 (a / 2 ^ 37)).val = a / 2 ^ 37 := Nat.mod_eq_of_lt hj
      rw [hmem a (Fin.ofNat 32 (a / 2 ^ 37)) hval.symm]
      simp only [policyChanges_iff, hval]
    · by_cases h : policyChanges (arg e 0 4) (arg e 4 1 == 1) s i = true
      · rw [if_pos (policyChanges_iff.mp h), hstacks, if_pos h]
        exact repoliced_cache_empty _ _
      · rw [if_neg fun hc => h (policyChanges_iff.mpr hc), hstacks, if_neg h]
  · obtain ⟨t, hexec, hends, hfar, hmem, hstacks, hstore⟩ := farTierSetup_effect ho hl f0 f1
    refine ⟨t, hexec, hends, fun f => ?_, hmem, hstacks, hstore⟩
    intro q n
    rw [hfar, farFound_eq]

end Sys2Proof.Proofs

/-! ### The narrow path and the adder (R172, R173, R177) -/

namespace Sys2Proof.Proofs

open Machine Laws

/-! #### Lines and bytes -/

theorem rangeOf_eq_stack {a : Nat} {i : Fin 32} : rangeOf a = .stack i ↔ a / 2 ^ 37 = i.val := by
  have hi := i.isLt
  unfold rangeOf
  by_cases h : a / 2 ^ 37 < 32
  · rw [dif_pos h, Range.stack.injEq, Fin.ext_iff]
  · rw [dif_neg h]
    refine iff_of_false ?_ (by omega)
    repeat' split
    all_goals exact nofun

/-- Two addresses of one stack share a line exactly where they agree but for the 7 low bits. -/
theorem lineNo_eq_iff {a x : Nat} {i : Fin 32} (ha : rangeOf a = .stack i) (hx : rangeOf x = .stack i) :
    lineNo x = lineNo a ↔ x / 128 = a / 128 := by
  rw [rangeOf_eq_stack] at ha hx
  unfold lineNo
  omega

theorem slice_length (b : Bytes) (off n : Nat) : (slice b off n).length = n := by
  simp only [slice, List.length_append, List.length_take, List.length_drop, List.length_replicate]
  omega

/-- Bytes past the end of a string read as zero, in a slice as in the string. -/
theorem slice_getD {b : Bytes} {n k : Nat} (h : k < n) : (slice b 0 n).getD k 0 = b.getD k 0 := by
  simp only [slice, List.drop_zero, List.getD_eq_getElem?_getD]
  by_cases hk : k < b.length
  · rw [List.getElem?_append_left (by rw [List.length_take]; omega), List.getElem?_take_of_lt h]
  · rw [List.getElem?_append_right (by rw [List.length_take]; omega), List.getElem?_eq_none (l := b) (by omega), List.getElem?_replicate]
    split <;> rfl

/-- The bytes of a line in which some are replaced. -/
theorem mergeLine_getD {old new : Bytes} {off k : Nat} (hfit : off + new.length ≤ old.length) (hk : k < old.length) :
    (mergeLine old off new).getD k 0 = if off ≤ k ∧ k < off + new.length then new.getD (k - off) 0 else old.getD k 0 := by
  have htake : (old.take off).length = off := by rw [List.length_take]; omega
  simp only [mergeLine, List.getD_eq_getElem?_getD, List.getElem?_take_of_lt hk]
  by_cases hlow : k < off
  · rw [if_neg (by omega), List.append_assoc, List.getElem?_append_left (by omega), List.getElem?_take_of_lt hlow]
  · by_cases hin : k < off + new.length
    · rw [if_pos ⟨by omega, hin⟩, List.getElem?_append_left (by rw [List.length_append]; omega),
        List.getElem?_append_right (by omega), htake]
    · rw [if_neg (by omega), List.getElem?_append_right (by rw [List.length_append]; omega), List.length_append, htake, List.getElem?_drop]
      congr 2
      omega

/-! #### A resident line that is written in place -/

theorem cacheSetOf_idx (ln : Nat) (st : Stack) : (cacheSetOf ln st).idx = setIdx ln := by
  unfold cacheSetOf
  cases h : st.cache.find? fun c => c.idx == setIdx ln with
  | none => rfl
  | some c => simpa using List.find?_some h

theorem find?_putSet (c : CacheSet) (k : Nat) (l : List CacheSet) :
    (putSet c l).find? (fun x => x.idx == k) = if c.idx = k then some c else l.find? (fun x => x.idx == k) := by
  induction l with
  | nil => by_cases h : c.idx = k <;> simp [putSet, h]
  | cons x r ih =>
    unfold putSet
    by_cases hx : x.idx = c.idx
    · rw [if_pos hx]
      by_cases h : c.idx = k <;> simp [h, hx]
    · rw [if_neg hx]
      by_cases hk : x.idx = k
      · have hne : c.idx ≠ k := fun h => hx (hk.trans h.symm)
        simp [hk, hne]
      · simp [hk, ih]

theorem cacheSetOf_putSet {c : CacheSet} {ln : Nat} (hc : c.idx = setIdx ln) (k : Nat) (st : Stack) :
    cacheSetOf k { st with cache := putSet c st.cache } = if setIdx ln = setIdx k then c else cacheSetOf k st := by
  simp only [cacheSetOf, find?_putSet, hc]
  split <;> rfl

/-- A line with new data where it is line `ln`. -/
def rewritten (ln : Nat) (data : Bytes) (l : CacheLine) : CacheLine := if l.line = ln then { l with data := data, dirty := true } else l

theorem rewritten_line (ln : Nat) (data : Bytes) (l : CacheLine) : (rewritten ln data l).line = l.line := by
  unfold rewritten
  split <;> rfl

theorem rewritten_of_ne {ln : Nat} {l : CacheLine} (h : l.line ≠ ln) (data : Bytes) : rewritten ln data l = l := if_neg h

/-- What a line holds once the line `ln` is replaced in place. -/
theorem cachedLine_cacheUpdate (i : Fin 32) (ln k : Nat) (data : Bytes) (s : State) :
    cachedLine k (cacheUpdate i ln data s).memStacks[i] = (cachedLine k s.memStacks[i]).map (rewritten ln data) := by
  generalize hst : s.memStacks[i] = st
  have hcache : (cacheUpdate i ln data s).memStacks[i] =
      { st with cache := putSet { cacheSetOf ln st with lines := (cacheSetOf ln st).lines.map (rewritten ln data) } st.cache } := by
    rw [cacheUpdate, getElem_modStack, hst]
    rfl
  generalize hc : ({ cacheSetOf ln st with lines := (cacheSetOf ln st).lines.map (rewritten ln data) } : CacheSet) = c at hcache
  have hidx : c.idx = setIdx ln := hc ▸ cacheSetOf_idx ln st
  rw [hcache, cachedLine, cacheSetOf_putSet hidx]
  by_cases h : setIdx ln = setIdx k
  · have hsame : cacheSetOf k st = cacheSetOf ln st := by simp only [cacheSetOf, h]
    rw [if_pos h, cachedLine, hsame, ← hc, List.find?_map]
    simp only [Function.comp_def, rewritten_line]
  · rw [if_neg h, cachedLine]
    cases hf : (cacheSetOf k st).lines.find? fun l => l.line == k with
    | none => rfl
    | some l =>
      have hlk : l.line = k := by simpa using List.find?_some hf
      have hne : l.line ≠ ln := fun heq => h (by rw [← heq, hlk])
      rw [Option.map_some, rewritten_of_ne hne]

theorem narrowWrite_resident {i : Fin 32} {a : Nat} {data : Bytes} {l : CacheLine} {s : State}
    (h : cachedLine (lineNo a) s.memStacks[i] = some l) :
    narrowWrite i a data s = cacheUpdate i (lineNo a) (mergeLine (slice l.data 0 128) (a % 128) data) s := by
  simp only [narrowWrite, h]

theorem narrowWrite_absent {i : Fin 32} {a : Nat} {data : Bytes} {s : State} (h : cachedLine (lineNo a) s.memStacks[i] = none) :
    narrowWrite i a data s = modStack i (fun st => { st with writeQ := queueWrite (bankOf i (lineNo a) s / 64) st.writeQ })
      { s with mem := memWrite s.mem a data } := by
  simp only [narrowWrite, h]

theorem physGet_of_stack {x : Nat} {i : Fin 32} {s : State} (h : rangeOf x = .stack i) :
    physGet s x = ((cachedLine (lineNo x) s.memStacks[i]).map fun l => l.data.getD (x % 128) 0).getD (memGet s.mem x) := by
  simp only [physGet, h]
  cases cachedLine (lineNo x) s.memStacks[i] with
  | none => rfl
  | some l => rfl

/-- Bytes that other stacks hold, and the far tier's, do not depend on a stack. -/
theorem physGet_congr_other {x : Nat} {i : Fin 32} {s t : State} (hx : rangeOf x ≠ .stack i) (hmem : memGet t.mem x = memGet s.mem x)
    (hc : ∀ j : Fin 32, j ≠ i → t.memStacks[j].cache = s.memStacks[j].cache) : physGet t x = physGet s x := by
  unfold physGet
  cases hr : rangeOf x with
  | stack j =>
    have hj : t.memStacks[j].cache = s.memStacks[j].cache := hc j fun h => hx (h ▸ hr)
    simp only [cachedLine, cacheSetOf, hj, hmem]
  | far | mmio | hole => exact hmem

/-- A write of the narrow path or of the adder, within one line: its bytes are stored, and no other byte changes. -/
theorem narrowWrite_storesAt {i : Fin 32} {a : Nat} {data : Bytes} {s : State} (hm : s.mem.wf = true) (ha : rangeOf a = .stack i)
    (hfit : a % 128 + data.length ≤ 128) : StoresAt a data s (narrowWrite i a data s) := by
  have hidx := rangeOf_eq_stack.mp ha
  intro x
  cases hl : cachedLine (lineNo a) s.memStacks[i] with
  | some l =>
    rw [narrowWrite_resident hl]
    generalize hd : mergeLine (slice l.data 0 128) (a % 128) data = d
    by_cases hx : rangeOf x = .stack i
    · rw [physGet_of_stack hx, physGet_of_stack hx, cachedLine_cacheUpdate]
      by_cases hline : x / 128 = a / 128
      · have hln : lineNo x = lineNo a := (lineNo_eq_iff ha hx).mpr hline
        have hll : l.line = lineNo a := by simpa using List.find?_some hl
        have hbyte : d.getD (x % 128) 0 = if a ≤ x ∧ x < a + data.length then data.getD (x - a) 0 else l.data.getD (x % 128) 0 := by
          rw [← hd, mergeLine_getD (by rw [slice_length]; exact hfit) (by rw [slice_length]; omega), slice_getD (by omega)]
          have hin : (a % 128 ≤ x % 128 ∧ x % 128 < a % 128 + data.length) ↔ (a ≤ x ∧ x < a + data.length) := by omega
          have hoff : x % 128 - a % 128 = x - a ∨ ¬ (a ≤ x ∧ x < a + data.length) := by omega
          simp only [hin]
          split
          next h => rw [hoff.resolve_right (not_not.mpr h)]
          · rfl
        rw [hln, hl, Option.map_some, rewritten, if_pos hll]
        exact hbyte
      · have hne : lineNo x ≠ lineNo a := fun h => hline ((lineNo_eq_iff ha hx).mp h)
        rw [if_neg (by omega)]
        cases hk : cachedLine (lineNo x) s.memStacks[i] with
        | none => rfl
        | some k =>
          have hkl : k.line = lineNo x := by simpa using List.find?_some hk
          rw [Option.map_some, rewritten_of_ne (by rw [hkl]; exact hne)]
          rfl
    · have hout : ¬ (a ≤ x ∧ x < a + data.length) := fun h => hx (rangeOf_eq_stack.mpr (by omega))
      rw [if_neg hout]
      exact physGet_congr_other hx rfl fun j hj => by rw [cacheUpdate, getElem_modStack_ne hj]
  | none =>
    rw [narrowWrite_absent hl]
    generalize hu : modStack i _ _ = u
    have hcache : ∀ j : Fin 32, u.memStacks[j].cache = s.memStacks[j].cache := fun j => by
      by_cases hj : j = i
      · subst hj
        rw [← hu, getElem_modStack]
      · rw [← hu, getElem_modStack_ne hj]
    have hmem : memGet u.mem x = if a ≤ x ∧ x < a + data.length then data.getD (x - a) 0 else memGet s.mem x := by
      rw [← hu]
      exact memGet_memWrite hm
    by_cases hin : a ≤ x ∧ x < a + data.length
    · have hx : rangeOf x = .stack i := rangeOf_eq_stack.mpr (by omega)
      have hln : lineNo x = lineNo a := (lineNo_eq_iff ha hx).mpr (by omega)
      have hout : cachedLine (lineNo x) u.memStacks[i] = none := by
        rw [hln, ← hl]
        simp only [cachedLine, cacheSetOf, hcache]
      rw [physGet_of_stack hx, hout, if_pos hin]
      exact hmem.trans (if_pos hin)
    · rw [if_neg hin]
      rw [if_neg hin] at hmem
      unfold physGet
      cases rangeOf x with
      | stack j => simp only [cachedLine, cacheSetOf, hcache, hmem]
      | far | mmio | hole => exact hmem

theorem narrowWrite_watch (i : Fin 32) (a : Nat) (data : Bytes) (s : State) :
    (narrowWrite i a data s).memStacks[i].watch = s.memStacks[i].watch := by
  cases hl : cachedLine (lineNo a) s.memStacks[i] with
  | some l => rw [narrowWrite_resident hl, cacheUpdate, getElem_modStack]
  | none => rw [narrowWrite_absent hl, getElem_modStack]

/-! #### What leaves package memory as it is -/

theorem sameMemory_trans {s t u : State} (h : SameMemory s t) (k : SameMemory t u) : SameMemory s u := fun x => (k x).trans (h x)

theorem physRead_of_sameMemory {s t : State} (h : SameMemory s t) (a n : Nat) : physRead t a n = physRead s a n :=
  List.map_congr_left fun k _ => h (a + k)

theorem physRead_length (s : State) (a n : Nat) : (physRead s a n).length = n := by simp [physRead]

/-- A write between operations that leave package memory as it is. -/
theorem storesAt_of_sameMemory {a : Nat} {data : Bytes} {s s' t' t : State} (h : SameMemory s s') (k : StoresAt a data s' t')
    (l : SameMemory t' t) : StoresAt a data s t := fun x => by rw [l x, k x, h x]

/-- Two writes, the second right after the bytes of the first. -/
theorem storesAt_append {a : Nat} {d e : Bytes} {s t u : State} (h : StoresAt a d s t) (k : StoresAt (a + d.length) e t u) :
    StoresAt a (d ++ e) s u := by
  intro x
  rw [k x, h x, List.length_append]
  by_cases hd : a ≤ x ∧ x < a + d.length
  · rw [if_neg (by omega), if_pos hd, if_pos (by omega), List.getD_append _ _ _ _ (by omega)]
  · by_cases he : a + d.length ≤ x ∧ x < a + d.length + e.length
    · rw [if_pos he, if_pos (by omega), List.getD_append_right _ _ _ _ (by omega), Nat.sub_add_eq]
    · rw [if_neg he, if_neg hd, if_neg (by omega)]

/-- An operation that changes of a stack no line of its slice cache. -/
theorem sameMemory_modStack {i : Fin 32} {f : Stack → Stack} (h : ∀ st, (f st).cache = st.cache) (s : State) :
    SameMemory s (modStack i f s) := by
  refine physGet_congr rfl fun j => ?_
  by_cases hj : j = i
  · subst hj
    rw [getElem_modStack, h]
  · rw [getElem_modStack_ne hj]

theorem leaveBanks_sameMemory (i : Fin 32) (k : Requester × Nat) (s : State) : SameMemory s (leaveBanks i k s) := by
  unfold leaveBanks
  exact sameMemory_modStack (by exact fun _ => rfl) s

theorem countSat_sameMemory (n : Nat) (s : State) : SameMemory s (countSat n s) := by
  have h : Run [.gauges] s (countSat n s) := countSat_run n s (.refl _ s) (by decide)
  exact physGet_congr (h.same .mem rfl) fun i => by rw [show (countSat n s).memStacks = s.memStacks from h.same .memStacks rfl]

theorem withhold_sameMemory (i : Fin 32) (a n : Nat) (k : WAck) (s : State) : SameMemory s (withhold i a n k s) := by
  unfold withhold
  exact sameMemory_modStack (by exact fun _ => rfl) s

/-! #### Acknowledgements of requesters that are no cores -/

theorem dropOutst_of_notCore {k : Requester × Nat} (h : k.1.notCore = true) (s : State) : dropOutst k s = s := by
  obtain ⟨who, id⟩ := k
  cases who with
  | core => exact Bool.noConfusion h
  | update | hub | host | guest => rfl

/-- No core waits for an acknowledgement. -/
def FreeAck (a : WAck) : Prop := ∀ k, a.key = some k → k.1.notCore = true

theorem sendAck_run_of_free {i : Fin 32} {a : WAck} (h : FreeAck a) (s : State) : Run [.out, .memStacks] s (sendAck i a s) := by
  unfold sendAck
  cases hk : a.key with
  | none => exact emit_run _ s (.refl _ s) (by decide)
  | some k =>
    simp only [dropOutst_of_notCore (h k hk)]
    exact emit_run _ _ (leaveBanks_run i k s (.refl _ s) (by decide)) (by decide)

theorem sendAck_sameMemory {i : Fin 32} {a : WAck} (h : FreeAck a) (s : State) : SameMemory s (sendAck i a s) := by
  unfold sendAck
  cases hk : a.key with
  | none => exact fun x => rfl
  | some k =>
    simp only [dropOutst_of_notCore (h k hk)]
    exact leaveBanks_sameMemory i k s

theorem modStack_of_eq {i : Fin 32} {f : Stack → Stack} {s : State} (h : f s.memStacks[i] = s.memStacks[i]) : modStack i f s = s := by
  have hset : s.memStacks.set i s.memStacks[i] = s.memStacks := Vector.set_getElem_self i.isLt
  rw [modStack, h, hset]

theorem markStale_of_unwatched {i : Fin 32} {a n : Nat} {s : State} (h : Unwatched i a n s) : markStale i a n s = s := by
  have hnone : (s.memStacks[i].watch.filter fun w => watchHit a n w && !w.stale) = [] :=
    List.filter_eq_nil_iff.mpr fun w hw => by simp [h w hw]
  have hsame : (s.memStacks[i].watch.map fun w => { w with stale := w.stale || watchHit a n w }) = s.memStacks[i].watch :=
    (List.map_congr_left fun w hw => by rw [h w hw, Bool.or_false]; rfl).trans (List.map_id _)
  have hstack : modStack i (fun st => { st with watch := st.watch.map fun w => { w with stale := w.stale || watchHit a n w } }) s = s :=
    modStack_of_eq (by rw [hsame])
  simp only [markStale, hnone, hstack, List.map_nil, emitAll, List.append_nil]

theorem ackWrite_of_unwatched {i : Fin 32} {a n : Nat} {s : State} (h : Unwatched i a n s) (k : WAck) :
    ackWrite i a n k s = sendAck i k s := by
  have hwait : mustWait i a n s = false := List.any_eq_false.mpr fun w hw => by simp [watchWaits, h w hw]
  simp only [ackWrite, markStale_of_unwatched h, hwait, Bool.false_eq_true, if_false]

theorem ackNarrow_of_unwatched {i : Fin 32} {addrs : List Nat} {s : State} (h : ∀ a ∈ addrs, Unwatched i a 32 s) (k : WAck) :
    ackNarrow i addrs k s = sendAck i k s := by
  have hnone : (s.memStacks[i].watch.filter fun w => addrs.any fun a => watchWaits a 32 w) = [] :=
    List.filter_eq_nil_iff.mpr fun w hw => by
      simp only [Bool.not_eq_true, List.any_eq_false]
      exact fun a ha => by simp [watchWaits, h a ha w hw]
  simp only [ackNarrow, hnone, List.map_nil, List.isEmpty_nil, if_true]

theorem ackWrite_sameMemory {k : WAck} (h : FreeAck k) (i : Fin 32) (a n : Nat) (s : State) : SameMemory s (ackWrite i a n k s) := by
  have hm : SameMemory s (markStale i a n s) := physGet_markStale i a n s
  unfold ackWrite
  dsimp only
  split
  · exact sameMemory_trans hm (withhold_sameMemory i a n k _)
  · exact sameMemory_trans hm (sendAck_sameMemory h _)

theorem ackNarrow_sameMemory {k : WAck} (h : FreeAck k) (i : Fin 32) (addrs : List Nat) (s : State) :
    SameMemory s (ackNarrow i addrs k s) := by
  unfold ackNarrow
  dsimp only
  split
  · exact sendAck_sameMemory h _
  · exact sameMemory_modStack (by exact fun _ => rfl) _

theorem ackWrite_run_of_free {k : WAck} (h : FreeAck k) (i : Fin 32) (a n : Nat) (s : State) :
    Run [.out, .memStacks] s (ackWrite i a n k s) := by
  have hm : Run [.out, .memStacks] s (markStale i a n s) := markStale_run i a n s (.refl _ s) (by decide)
  unfold ackWrite
  dsimp only
  split
  · exact withhold_run i a n k _ hm (by decide)
  · exact (sendAck_run_of_free h _).lift hm (by decide)

theorem ackNarrow_run_of_free {k : WAck} (h : FreeAck k) (i : Fin 32) (addrs : List Nat) (s : State) :
    Run [.out, .memStacks] s (ackNarrow i addrs k s) := by
  unfold ackNarrow
  dsimp only
  split
  · exact sendAck_run_of_free h s
  · exact modStack_run i _ s (.refl _ s) (by decide)

/-- What writes the stacks, memory, the outputs and the gauges alone leaves every other part of the package. -/
theorem eq_memory_gauges_upd {s t : State} (h : Run [.out, .gauges, .memStacks, .mem] s t) :
    t = { s with memStacks := t.memStacks, mem := t.mem, out := t.out, gauges := t.gauges } :=
  State.ext (h.same .pending rfl) (h.same .now rfl) (h.same .freeCtr rfl) rfl (h.same .power rfl) (h.same .plls rfl)
    (h.same .tide rfl) (h.same .tideHi rfl) (h.same .hostA rfl) (h.same .hostB rfl) (h.same .lock rfl) (h.same .i3c rfl)
    (h.same .peer rfl) (h.same .warden rfl) (h.same .seq rfl) (h.same .log rfl)
    (h.same .queues rfl) (h.same .job rfl) (h.same .exec rfl) rfl (h.same .dies rfl) (h.same .cores rfl)
    (h.same .coreStore rfl) rfl rfl (h.same .far rfl) (h.same .links rfl)
    (h.same .levee rfl) (h.same .fabric rfl) (h.same .twin rfl) (h.same .flash rfl) (h.same .inspect rfl)

/-- The same where the gauges are left alone too. -/
theorem eq_memory_upd {s t : State} (h : Run [.out, .memStacks, .mem] s t) :
    t = { s with memStacks := t.memStacks, mem := t.mem, out := t.out } := by
  have hg : t.gauges = s.gauges := h.same .gauges rfl
  simpa only [hg] using eq_memory_gauges_upd (h.mono (by decide))

/-! #### Lanes (R177) -/

theorem laneBytes_length (l : List Int) : (laneBytes l).length = 4 * l.length := by
  simp [laneBytes, List.length_flatMap, leBytes_length, Nat.mul_comm]

theorem lanesOf_length (b : Bytes) : (lanesOf b).length = b.length / 4 := by simp [lanesOf]

/-- A lane of ADD32 holds the sum within ±(2^31 − 1), and saturates where that is not the sum. -/
theorem combine_zero (a b : Int) : combine 0 a b = (satLane a b, decide (satLane a b ≠ a + b)) := by
  refine Prod.ext ?_ (decide_eq_decide.mpr ?_)
  · show satI (a + b) (-(2 ^ 31 - 1)) (2 ^ 31 - 1) = satLane a b
    unfold satI satLane
    split
    · omega
    · split <;> omega
  · unfold satLane
    omega

theorem addLanes_eq (i : Fin 32) (a : Nat) (x : List Int) (s : State) :
    addLanes i a x s = (narrowWrite i a (laneBytes ((lanesOf (physRead s a (4 * x.length))).zipWith satLane x)) s,
      ((lanesOf (physRead s a (4 * x.length))).zip x).countP fun y => decide (satLane y.1 y.2 ≠ y.1 + y.2)) := by
  have hcombine : combine 0 = fun a b => (satLane a b, decide (satLane a b ≠ a + b)) := funext fun a => funext (combine_zero a)
  simp only [addLanes, hcombine, ← List.map_uncurry_zip_eq_zipWith, List.countP_map, List.map_map]
  rfl

theorem addLanes_storesAt {i : Fin 32} {a : Nat} {x : List Int} {s : State} (hm : s.mem.wf = true) (ha : rangeOf a = .stack i)
    (hfit : a % 128 + 4 * x.length ≤ 128) :
    StoresAt a (laneBytes ((lanesOf (physRead s a (4 * x.length))).zipWith satLane x)) s (addLanes i a x s).1 := by
  rw [addLanes_eq]
  refine narrowWrite_storesAt hm ha ?_
  rw [laneBytes_length, List.length_zipWith, lanesOf_length, physRead_length]
  omega

/-! #### A narrow request that its banks have room for (R172) -/

/-- The package once a request has entered its banks. -/
def entered (q : MemReq) (s : State) : State :=
  (q.banks s).foldl (fun s b => modBank q.stack b (fun x => { x with queue := x.queue ++ [q] }) s) s

theorem entered_run (q : MemReq) (s : State) : Run [.memStacks] s (entered q s) := leaveBankQueues_run _ _ _ s

/-- Banks alone change, in every stack. -/
theorem entered_stack (q : MemReq) (s : State) (j : Fin 32) : ∃ b, (entered q s).memStacks[j] = { s.memStacks[j] with banks := b } := by
  unfold entered
  generalize q.banks s = bs
  induction bs generalizing s with
  | nil => exact ⟨_, rfl⟩
  | cons x bs ih =>
    obtain ⟨b, hb⟩ := ih (modBank q.stack x (fun y => { y with queue := y.queue ++ [q] }) s)
    refine ⟨b, hb.trans ?_⟩
    by_cases hj : j = q.stack
    · subst hj
      rw [modBank, getElem_modStack]
    · rw [modBank, getElem_modStack_ne hj]

theorem entered_sameMemory (q : MemReq) (s : State) : SameMemory s (entered q s) :=
  physGet_congr ((entered_run q s).same .mem rfl) fun i => by
    obtain ⟨b, hb⟩ := entered_stack q s i
    rw [hb]

theorem entered_unwatched {q : MemReq} {i : Fin 32} {a n : Nat} {s : State} (h : Unwatched i a n s) : Unwatched i a n (entered q s) := by
  obtain ⟨b, hb⟩ := entered_stack q s i
  unfold Unwatched
  rw [hb]
  exact h

theorem stack_of_rangeOf {q : MemReq} {i : Fin 32} (h : rangeOf (q.addrs.headD 0) = .stack i) : q.stack = i := by
  rw [MemReq.stack, rangeOf_eq_stack.mp h, Fin.ofNat_val_eq_self]

theorem narrowReq_served {r : NarrowReq} {q : MemReq} {i : Fin 32} {s : State} (hok : narrowOk r = true)
    (hrange : rangeOf (r.addrs.headD 0) = .stack i) (hwho : r.who.notCore = true) (hcause : reqCause q s = none)
    (hwait : waitBank q s = none) : narrowReq r q s = serve q (entered q s) := by
  have henter : narrowReq r q s = enterBank q s := by
    simp only [narrowReq, hok, hcause, hrange, Bool.not_true, Bool.false_eq_true, if_false]
    cases hw : r.who with
    | core => rw [hw] at hwho; exact Bool.noConfusion hwho
    | update | hub | host | guest => rfl
  rw [henter, enterBank_served hwait]
  rfl

/-- The sectors of a narrow request that nothing stands in the way of are aligned, and of one stack. -/
theorem sector_of_narrow {r : NarrowReq} {q : MemReq} {i : Fin 32} {s : State} (hq : q.addrs = r.addrs) (hline : ∀ l, q ≠ .line l)
    (hok : narrowOk r = true) (hrange : rangeOf (r.addrs.headD 0) = .stack i) (hcause : reqCause q s = none) {a : Nat}
    (ha : a ∈ r.addrs) : rangeOf a = .stack i ∧ a % 32 = 0 := by
  have halign : r.addrs.all (fun a => a % 32 == 0) = true := by
    simp only [narrowOk, Bool.and_eq_true] at hok
    exact hok.2
  have hsame : (q.addrs.map rangeOf).any (fun k => k != rangeOf (q.addrs.headD 0)) = false := by
    rw [Bool.eq_false_iff]
    intro hany
    cases q with
    | line l => exact hline l rfl
    | gather | scatter | scatterAdd => simp only [reqCause, hany, if_true] at hcause; exact nomatch hcause
  rw [hq, hrange, List.any_eq_false] at hsame
  exact ⟨by simpa using hsame _ (List.mem_map_of_mem ha), by simpa using List.all_eq_true.mp halign a ha⟩

/-! #### GATHER -/

theorem exec_gather {r : NarrowReq} {i : Fin 32} {s : State} (hok : narrowOk r = true) (hrange : rangeOf (r.addrs.headD 0) = .stack i)
    (hecc : r.ecc = .clean) (hwho : r.who.notCore = true) (hcause : reqCause (.gather r) s = none)
    (hwait : waitBank (.gather r) s = none) :
    exec (.gather r) s = .next (emit (.memDone r.who r.id .ok (slice (r.addrs.flatMap fun a => physRead s a 32) 0 128))
      (leaveBanks i (r.who, r.id) (entered (.gather r) s))) := by
  have hread : (fun a => sectorRead a (entered (.gather r) s)) = fun a => physRead s a 32 :=
    funext fun a => physRead_of_sameMemory (entered_sameMemory (.gather r) s) a 32
  have hcomplete : ∀ d u, complete i r.who r.id (some d) u = emit (.memDone r.who r.id .ok d) (leaveBanks i (r.who, r.id) u) := fun d u => by
    cases hw : r.who with
    | core => rw [hw] at hwho; exact Bool.noConfusion hwho
    | update | hub | host | guest => rfl
  have hstack : (MemReq.gather r).stack = i := stack_of_rangeOf hrange
  show Host.Outcome.next (narrowReq r (.gather r) s) = _
  rw [narrowReq_served hok hrange hwho hcause hwait]
  simp only [serve, serveGather, hecc, sectorCheck, hstack, hread, hcomplete, Bool.false_eq_true, if_false]

/-- GATHER changes of the stacks the banks alone. -/
theorem gather_effect {r : NarrowReq} {i : Fin 32} {s : State} (hok : narrowOk r = true) (hrange : rangeOf (r.addrs.headD 0) = .stack i)
    (hecc : r.ecc = .clean) (hwho : r.who.notCore = true) (hcause : reqCause (.gather r) s = none)
    (hwait : waitBank (.gather r) s = none) :
    ∃ t, exec (.gather r) s = .next t ∧ SameMemory s t ∧
      (∀ k : Fin 32, t.memStacks[k] = { s.memStacks[k] with banks := t.memStacks[k].banks }) ∧
      t = { s with memStacks := t.memStacks,
                   out := s.out ++ [.memDone r.who r.id .ok (slice (r.addrs.flatMap fun a => physRead s a 32) 0 128)] } := by
  have hrun : Run [.memStacks] s (leaveBanks i (r.who, r.id) (entered (.gather r) s)) :=
    leaveBanks_run i _ _ (entered_run _ s) (by decide)
  have hsame := sameMemory_trans (entered_sameMemory (.gather r) s) (leaveBanks_sameMemory i (r.who, r.id) _)
  have hbanks : ∀ k : Fin 32, ∃ b, (leaveBanks i (r.who, r.id) (entered (.gather r) s)).memStacks[k] = { s.memStacks[k] with banks := b } :=
    fun k => by
      obtain ⟨b, hb⟩ := entered_stack (.gather r) s k
      by_cases hk : k = i
      · subst hk
        exact ⟨_, by rw [leaveBanks, getElem_modStack, hb]⟩
      · exact ⟨b, by rw [leaveBanks, getElem_modStack_ne hk, hb]⟩
  refine ⟨_, exec_gather hok hrange hecc hwho hcause hwait, hsame, fun k => ?_, ?_⟩
  · obtain ⟨b, hb⟩ := hbanks k
    rw [emit_memStacks, hb]
  · generalize leaveBanks i (r.who, r.id) (entered (.gather r) s) = u at hrun
    have hout : u.out = s.out := hrun.same .out rfl
    have hmem : u.mem = s.mem := hrun.same .mem rfl
    have hall : ∀ o, Run [.out, .memStacks, .mem] s (emit o u) := fun o => emit_run o u (hrun.mono (by decide)) (by decide)
    have hupd := eq_memory_upd (hall (.memDone r.who r.id .ok (slice (r.addrs.flatMap fun a => physRead s a 32) 0 128)))
    rw [emit_mem, emit_out, hout, hmem] at hupd
    exact hupd

/-! #### SCATTER -/

/-- The ranges that are watched depend on the watch table alone. -/
theorem unwatched_congr {i : Fin 32} {a n : Nat} {s t : State} (h : Unwatched i a n s)
    (hw : t.memStacks[i].watch = s.memStacks[i].watch) : Unwatched i a n t := fun w hm => h w (hw ▸ hm)

/-- The sectors of a SCATTER written, in request order. -/
def scattered (i : Fin 32) (l : List (Nat × Bytes)) (s : State) : State :=
  l.foldl (fun s p => narrowWrite i p.1 (slice p.2 0 32) (markStale i p.1 32 s)) s

theorem sectorStep_run (i : Fin 32) (a : Nat) (d : Bytes) (s : State) :
    Run [.out, .memStacks, .mem] s (narrowWrite i a d (markStale i a 32 s)) :=
  narrowWrite_run i a d _ (markStale_run i a 32 s (.refl _ s) (by decide)) (by decide)

theorem scattered_run (i : Fin 32) (l : List (Nat × Bytes)) (s : State) : Run [.out, .memStacks, .mem] s (scattered i l s) :=
  Run.foldl (.refl _ s) fun p x h => (sectorStep_run i p.1 (slice p.2 0 32) x).lift h (by decide)

theorem physGet_scattered {i : Fin 32} {l : List (Nat × Bytes)} (hl : ∀ p ∈ l, rangeOf p.1 = .stack i ∧ p.1 % 32 = 0) {s : State}
    (hm : s.mem.wf = true) (x : Nat) : physGet (scattered i l s) x =
      l.foldl (fun b p => if p.1 ≤ x ∧ x < p.1 + 32 then (slice p.2 0 32).getD (x - p.1) 0 else b) (physGet s x) := by
  induction l generalizing s with
  | nil => rfl
  | cons p l ih =>
    obtain ⟨hrange, halign⟩ := hl p (List.mem_cons_self ..)
    have hstores := narrowWrite_storesAt (s := markStale i p.1 32 s) (data := slice p.2 0 32) hm hrange
      (by rw [slice_length]; omega) x
    rw [physGet_markStale, slice_length] at hstores
    rw [List.foldl_cons, ← hstores]
    exact ih (fun q hq => hl q (List.mem_cons_of_mem _ hq)) ((sectorStep_run i p.1 (slice p.2 0 32) s).mem hm)

/-- Where no prefetch is watched no sector sends a stale notice, and the watch table stays. -/
theorem scattered_unwatched {i : Fin 32} {l : List (Nat × Bytes)} {s : State} (h : ∀ p ∈ l, Unwatched i p.1 32 s) :
    (scattered i l s).out = s.out ∧ (scattered i l s).memStacks[i].watch = s.memStacks[i].watch := by
  induction l generalizing s with
  | nil => exact ⟨rfl, rfl⟩
  | cons p l ih =>
    have hstep : scattered i (p :: l) s = scattered i l (narrowWrite i p.1 (slice p.2 0 32) s) := by
      rw [scattered, List.foldl_cons, markStale_of_unwatched (h p (List.mem_cons_self ..))]
      rfl
    have hwatch := narrowWrite_watch i p.1 (slice p.2 0 32) s
    have hout : (narrowWrite i p.1 (slice p.2 0 32) s).out = s.out :=
      (narrowWrite_run (flds := [.memStacks, .mem]) i p.1 (slice p.2 0 32) s (.refl _ s) (by decide)).same .out rfl
    obtain ⟨ho, hw⟩ := ih (s := narrowWrite i p.1 (slice p.2 0 32) s) fun q hq =>
      unwatched_congr (h q (List.mem_cons_of_mem _ hq)) hwatch
    rw [hstep]
    exact ⟨ho.trans hout, hw.trans hwatch⟩

theorem exec_scatter {r : NarrowReq} {i : Fin 32} {s : State} (hok : narrowOk r = true) (hrange : rangeOf (r.addrs.headD 0) = .stack i)
    (hecc : r.ecc = .clean) (hwho : r.who.notCore = true) (hcause : reqCause (.scatter r) s = none)
    (hwait : waitBank (.scatter r) s = none) :
    exec (.scatter r) s =
      .next (ackNarrow i r.addrs (.req r.who r.id) (scattered i (r.addrs.zip r.data) (entered (.scatter r) s))) := by
  have hstack : (MemReq.scatter r).stack = i := stack_of_rangeOf hrange
  show Host.Outcome.next (narrowReq r (.scatter r) s) = _
  rw [narrowReq_served hok hrange hwho hcause hwait]
  simp only [serve, serveScatter, hecc, writeEcc, sectorCheck, hstack, Bool.false_eq_true, if_false]
  rfl

theorem ackOut_req {who : Requester} (h : who ≠ .guest) (id : Nat) : ackOut (.req who id) = .memDone who id .ok [] := by
  cases who with
  | guest => exact absurd rfl h
  | core | update | hub | host => rfl

theorem scatter_effect {r : NarrowReq} {i : Fin 32} {s : State} (hok : narrowOk r = true) (hrange : rangeOf (r.addrs.headD 0) = .stack i)
    (hecc : r.ecc = .clean) (hwho : r.who.notCore = true) (hguest : r.who ≠ .guest) (hm : s.mem.wf = true)
    (hcause : reqCause (.scatter r) s = none) (hwait : waitBank (.scatter r) s = none) :
    ∃ t, exec (.scatter r) s = .next t ∧ t = { s with memStacks := t.memStacks, mem := t.mem, out := t.out } ∧
      (∀ x, physGet t x = (r.addrs.zip r.data).foldl
        (fun b p => if p.1 ≤ x ∧ x < p.1 + 32 then (slice p.2 0 32).getD (x - p.1) 0 else b) (physGet s x)) ∧
      ((∀ a ∈ r.addrs, Unwatched i a 32 s) → t.out = s.out ++ [.memDone r.who r.id .ok []]) := by
  have hfree : FreeAck (.req r.who r.id) := fun k hk => by
    obtain rfl := Option.some.inj hk
    exact hwho
  have hin := entered_run (.scatter r) s
  have hrun : Run [.out, .memStacks, .mem] s (scattered i (r.addrs.zip r.data) (entered (.scatter r) s)) :=
    (scattered_run i _ _).lift (hin.mono (by decide)) (by decide)
  refine ⟨_, exec_scatter hok hrange hecc hwho hcause hwait, eq_memory_upd ((ackNarrow_run_of_free hfree i r.addrs _).lift hrun (by decide)),
    fun x => ?_, fun hun => ?_⟩
  · rw [ackNarrow_sameMemory hfree, physGet_scattered (fun p hp => ?_) (hin.mem hm), entered_sameMemory]
    exact sector_of_narrow (q := .scatter r) rfl (fun l => nofun) hok hrange hcause (List.of_mem_zip hp).1
  · obtain ⟨hout, hwatch⟩ := scattered_unwatched (l := r.addrs.zip r.data) fun p hp =>
      entered_unwatched (q := .scatter r) (hun p.1 (List.of_mem_zip hp).1)
    have hstill : ∀ a ∈ r.addrs, Unwatched i a 32 (scattered i (r.addrs.zip r.data) (entered (.scatter r) s)) := fun a ha =>
      unwatched_congr (entered_unwatched (q := .scatter r) (hun a ha)) hwatch
    have hbefore : (entered (.scatter r) s).out = s.out := hin.same .out rfl
    rw [ackNarrow_of_unwatched hstill, sendAck_out, hout, hbefore, ackOut_req hguest]

/-! #### SCATTER_ADD of one sector -/

/-- One sector added, and the lanes that saturated counted. -/
def sectorAdded (i : Fin 32) (a : Nat) (x : List Int) (s : State) : State := countSat (addLanes i a x s).2 (addLanes i a x s).1

theorem sectorAdded_run (i : Fin 32) (a : Nat) (x : List Int) (s : State) :
    Run [.gauges, .memStacks, .mem] s (sectorAdded i a x s) :=
  countSat_run _ _ (addLanes_run i a x s (.refl _ s) (by decide)) (by decide)

theorem sectorAdded_storesAt {i : Fin 32} {a : Nat} {x : List Int} {s : State} (hm : s.mem.wf = true) (ha : rangeOf a = .stack i)
    (hfit : a % 128 + 4 * x.length ≤ 128) :
    StoresAt a (laneBytes ((lanesOf (physRead s a (4 * x.length))).zipWith satLane x)) s (sectorAdded i a x s) :=
  storesAt_of_sameMemory (fun _ => rfl) (addLanes_storesAt hm ha hfit) (countSat_sameMemory _ _)

theorem sectorAdded_watch (i : Fin 32) (a : Nat) (x : List Int) (s : State) :
    (sectorAdded i a x s).memStacks[i].watch = s.memStacks[i].watch := by
  have hcount : (sectorAdded i a x s).memStacks = (addLanes i a x s).1.memStacks :=
    (countSat_run (flds := [.gauges]) (addLanes i a x s).2 (addLanes i a x s).1 (.refl _ _) (by decide)).same .memStacks rfl
  rw [hcount, addLanes_eq, narrowWrite_watch]

theorem exec_scatterAdd_one {r : NarrowReq} {i : Fin 32} {a : Nat} {d : Bytes} {s : State} (hok : narrowOk r = true)
    (hrange : rangeOf a = .stack i) (hecc : r.ecc = .clean) (hwho : r.who.notCore = true) (haddrs : r.addrs = [a]) (hdata : r.data = [d])
    (hcause : reqCause (.scatterAdd r) s = none) (hwait : waitBank (.scatterAdd r) s = none) :
    let u := markStale i a 32 (entered (.scatterAdd r) s)
    exec (.scatterAdd r) s = .next (ackNarrow i [a] (.scatterAdd r.who r.id a (addLanes i a (lanesOf (slice d 0 32)) u).2)
      (sectorAdded i a (lanesOf (slice d 0 32)) u)) := by
  intro u
  have hhead : rangeOf (r.addrs.headD 0) = .stack i := by rw [haddrs]; exact hrange
  have hstack : (MemReq.scatterAdd r).stack = i := stack_of_rangeOf hhead
  show Host.Outcome.next (narrowReq r (.scatterAdd r) s) = _
  rw [narrowReq_served hok hhead hwho hcause hwait]
  simp only [serve, serveScatterAdd, hecc, sectorCheck, hstack, haddrs, hdata, Bool.false_eq_true, if_false, List.zip_cons_cons,
    List.zip_nil_left, List.foldl_cons, List.foldl_nil, Nat.zero_add]
  rfl

theorem scatterAdd_one_effect {r : NarrowReq} {i : Fin 32} {a : Nat} {d : Bytes} {s : State} (hok : narrowOk r = true)
    (hrange : rangeOf a = .stack i) (hecc : r.ecc = .clean) (hwho : r.who.notCore = true) (hm : s.mem.wf = true)
    (haddrs : r.addrs = [a]) (hdata : r.data = [d]) (hcause : reqCause (.scatterAdd r) s = none)
    (hwait : waitBank (.scatterAdd r) s = none) :
    let old := lanesOf (physRead s a 32)
    let add := lanesOf (slice d 0 32)
    ∃ t, exec (.scatterAdd r) s = .next t ∧ StoresAt a (laneBytes (old.zipWith satLane add)) s t ∧
      t = { s with memStacks := t.memStacks, mem := t.mem, out := t.out, gauges := t.gauges } ∧
      (Unwatched i a 32 s →
        t.out = s.out ++ [.adderAck a ((old.zip add).countP fun x => decide (satLane x.1 x.2 ≠ x.1 + x.2))]) := by
  intro old add
  have hfree : ∀ n, FreeAck (.scatterAdd r.who r.id a n) := fun n k hk => by
    obtain rfl := Option.some.inj hk
    exact hwho
  have hlen : 4 * add.length = 32 := by rw [lanesOf_length, slice_length]
  have hsector : rangeOf a = .stack i ∧ a % 32 = 0 :=
    sector_of_narrow (q := .scatterAdd r) rfl (fun l => nofun) hok (by rw [haddrs]; exact hrange) hcause (by simp [haddrs])
  have hin : SameMemory s (markStale i a 32 (entered (.scatterAdd r) s)) :=
    sameMemory_trans (entered_sameMemory (.scatterAdd r) s) (physGet_markStale i a 32 _)
  have hinRun : Run [.out, .gauges, .memStacks, .mem] s (markStale i a 32 (entered (.scatterAdd r) s)) :=
    markStale_run i a 32 _ ((entered_run (.scatterAdd r) s).mono (by decide)) (by decide)
  have hunmarked : Unwatched i a 32 s → markStale i a 32 (entered (.scatterAdd r) s) = entered (.scatterAdd r) s := fun hun =>
    markStale_of_unwatched (entered_unwatched hun)
  have hexec := exec_scatterAdd_one hok hrange hecc hwho haddrs hdata hcause hwait
  dsimp only at hexec
  generalize hu : markStale i a 32 (entered (.scatterAdd r) s) = u at hexec hin hinRun hunmarked
  have hold : lanesOf (physRead u a (4 * add.length)) = old := by rw [hlen, physRead_of_sameMemory hin a 32]
  have hstores := sectorAdded_storesAt (x := add) (hinRun.mem hm) hrange (by omega)
  rw [hold] at hstores
  refine ⟨_, hexec, storesAt_of_sameMemory hin hstores (ackNarrow_sameMemory (hfree _) i [a] _),
    eq_memory_gauges_upd ((ackNarrow_run_of_free (hfree _) i [a] _).lift ((sectorAdded_run i a add u).lift hinRun (by decide)) (by decide)),
    fun hun => ?_⟩
  have hstill : Unwatched i a 32 u := by
    rw [hunmarked hun]
    exact entered_unwatched hun
  have hout : (sectorAdded i a add u).out = s.out := by
    have hadded : (sectorAdded i a add u).out = u.out := (sectorAdded_run i a add u).same .out rfl
    rw [hadded, hunmarked hun]
    exact (entered_run (.scatterAdd r) s).same .out rfl
  have hack := ackNarrow_of_unwatched (addrs := [a]) (s := sectorAdded i a add u)
    (fun b hb => by rw [List.mem_singleton.mp hb]; exact unwatched_congr hstill (sectorAdded_watch i a add u))
  rw [hack, sendAck_out, hout, addLanes_eq, hold]
  rfl

/-! #### The adder (R177) -/

theorem settleRange_of_no_parked {addr n : Nat} {i : Fin 32} {s : State} (hrange : rangeOf addr = .stack i)
    (h : parkedWrites i s = []) : settleRange addr n s = s := by
  simp only [settleRange, hrange, h, List.filter_nil, List.foldl_nil]

theorem settleRange_wf (addr n : Nat) {s : State} (hm : s.mem.wf = true) : (settleRange addr n s).mem.wf = true :=
  (settleRange_run (flds := commandFields) addr n s (.refl _ s) (by decide)).mem hm

theorem onAdder_performed {addr len : Nat} {i : Fin 32} {s : State} (hrange : rangeOf addr = .stack i)
    (hcause : accessCause .hub addr len s = none) (f : Fin 32 → State → State) :
    onAdder addr len f s = f i (settleRange addr len s) := by
  simp only [onAdder, hcause, hrange]

theorem adderOk_fits {addr n : Nat} (h : adderOk addr n = true) : addr % 128 + 4 * n ≤ 128 := by
  simp only [adderOk, Bool.or_eq_true, Bool.and_eq_true, beq_iff_eq] at h
  omega

theorem freeAck_adder (addr n : Nat) : FreeAck (.adder addr n) := fun _ hk => nomatch hk

/-- An adder operation that stored its bytes and is acknowledged. -/
theorem ackWrite_adder {i : Fin 32} {addr n len : Nat} {data : Bytes} {u v : State} (hstores : StoresAt addr data u v)
    (hwatch : v.memStacks[i].watch = u.memStacks[i].watch) (hout : v.out = u.out) :
    StoresAt addr data u (ackWrite i addr len (.adder addr n) v) ∧
      (Unwatched i addr len u → (ackWrite i addr len (.adder addr n) v).out = u.out ++ [.adderAck addr n]) := by
  refine ⟨storesAt_of_sameMemory (fun _ => rfl) hstores (ackWrite_sameMemory (freeAck_adder addr n) i addr len v), fun hun => ?_⟩
  have hstill : Unwatched i addr len v := unwatched_congr hun hwatch
  rw [ackWrite_of_unwatched hstill, sendAck_out, hout]
  rfl

/-- Zeros written to the sectors of a range. -/
def zeroed (i : Fin 32) (addr m : Nat) (s : State) : State :=
  (List.range m).foldl (fun s k => narrowWrite i (addr + 32 * k) (List.replicate 32 0) s) s

theorem zeroed_succ (i : Fin 32) (addr m : Nat) (s : State) :
    zeroed i addr (m + 1) s = narrowWrite i (addr + 32 * m) (List.replicate 32 0) (zeroed i addr m s) := by
  simp only [zeroed, List.range_succ, List.foldl_append, List.foldl_cons, List.foldl_nil]

theorem zeroed_run (i : Fin 32) (addr m : Nat) (s : State) : Run [.memStacks, .mem] s (zeroed i addr m s) :=
  Run.foldl (.refl _ s) fun k x h => narrowWrite_run i (addr + 32 * k) _ x h (by decide)

theorem zeroed_watch (i : Fin 32) (addr m : Nat) (s : State) : (zeroed i addr m s).memStacks[i].watch = s.memStacks[i].watch := by
  induction m with
  | zero => rfl
  | succ m ih => rw [zeroed_succ, narrowWrite_watch, ih]

theorem zeroed_storesAt {i : Fin 32} {addr m : Nat} {s : State} (hm : s.mem.wf = true) (halign : addr % 32 = 0)
    (hin : ∀ k < m, rangeOf (addr + 32 * k) = .stack i) : StoresAt addr (List.replicate (32 * m) 0) s (zeroed i addr m s) := by
  induction m with
  | zero => exact fun x => (if_neg fun h => by rw [List.length_replicate] at h; omega).symm
  | succ m ih =>
    have hlast := narrowWrite_storesAt (data := List.replicate 32 0) ((zeroed_run i addr m s).mem hm) (hin m (by omega))
      (by rw [List.length_replicate]; omega)
    have hboth := storesAt_append (e := List.replicate 32 0) (ih fun k hk => hin k (by omega)) (by rw [List.length_replicate]; exact hlast)
    rwa [← List.replicate_add, ← zeroed_succ] at hboth

/-- A range that an access may reach lies in one stack. -/
theorem rangeOf_within {who : Requester} {addr len k : Nat} {i : Fin 32} {s : State} (hrange : rangeOf addr = .stack i)
    (hcause : accessCause who addr len s = none) (hk : k < len) : rangeOf (addr + k) = .stack i := by
  have hend : rangeOf addr = rangeOf (addr + len - 1) := by
    by_contra hne
    simp only [accessCause, ne_eq, hne, not_false_eq_true, if_true] at hcause
    exact nomatch hcause
  rw [hrange, eq_comm, rangeOf_eq_stack] at hend
  rw [rangeOf_eq_stack] at hrange ⊢
  omega

theorem land_effect {addr : Nat} {i : Fin 32} {l : List (BitVec 32)} {s : State} (hrange : rangeOf addr = .stack i) (hm : s.mem.wf = true)
    (hok : adderOk addr l.length = true) (hcause : accessCause .hub addr (4 * l.length) s = none) :
    let u := settleRange addr (4 * l.length) s
    ∃ t, exec (.land addr l) s = .next t ∧ StoresAt addr (l.flatMap fun x => leBytes 4 x.toNat) u t ∧
      t = { u with memStacks := t.memStacks, mem := t.mem, out := t.out } ∧
      (Unwatched i addr (4 * l.length) u → t.out = u.out ++ [.adderAck addr 0]) := by
  intro u
  have hlength : (l.flatMap fun x => leBytes 4 x.toNat).length = 4 * l.length := by
    simp [List.length_flatMap, leBytes_length, Nat.mul_comm]
  have hexec : exec (.land addr l) s = .next (ackWrite i addr (4 * l.length) (.adder addr 0)
      (narrowWrite i addr (l.flatMap fun x => leBytes 4 x.toNat) u)) := by
    show execLand addr l s = _
    rw [execLand, hok, onAdder_performed hrange hcause]
    rfl
  have hrun : Run [.out, .memStacks, .mem] u (narrowWrite i addr (l.flatMap fun x => leBytes 4 x.toNat) u) :=
    narrowWrite_run i addr _ u (.refl _ u) (by decide)
  have hout : (narrowWrite i addr (l.flatMap fun x => leBytes 4 x.toNat) u).out = u.out :=
    (narrowWrite_run (flds := [.memStacks, .mem]) i addr _ u (.refl _ u) (by decide)).same .out rfl
  obtain ⟨hstores, hack⟩ := ackWrite_adder (n := 0) (len := 4 * l.length)
    (narrowWrite_storesAt (settleRange_wf addr (4 * l.length) hm) hrange (hlength ▸ adderOk_fits hok)) (narrowWrite_watch i addr _ u) hout
  exact ⟨_, hexec, hstores, eq_memory_upd ((ackWrite_run_of_free (freeAck_adder addr 0) i addr _ _).lift hrun (by decide)), hack⟩

theorem add32_effect {addr : Nat} {i : Fin 32} {l : List (BitVec 32)} {s : State} (hrange : rangeOf addr = .stack i) (hm : s.mem.wf = true)
    (hok : adderOk addr l.length = true) (hcause : accessCause .hub addr (4 * l.length) s = none) :
    let u := settleRange addr (4 * l.length) s
    let old := lanesOf (physRead u addr (4 * l.length))
    let add := l.map (·.toInt)
    ∃ t, exec (.add32 addr ⟨l, .clean⟩) s = .next t ∧ StoresAt addr (laneBytes (old.zipWith satLane add)) u t ∧
      t = { u with memStacks := t.memStacks, mem := t.mem, out := t.out, gauges := t.gauges } ∧
      (Unwatched i addr (4 * l.length) u →
        t.out = u.out ++ [.adderAck addr ((old.zip add).countP fun x => decide (satLane x.1 x.2 ≠ x.1 + x.2))]) := by
  intro u old add
  have hlen : add.length = l.length := List.length_map ..
  have hcount : (addLanes i addr add u).2 = (old.zip add).countP fun x => decide (satLane x.1 x.2 ≠ x.1 + x.2) := by
    rw [addLanes_eq, hlen]
  have hexec : exec (.add32 addr ⟨l, .clean⟩) s = .next (ackWrite i addr (4 * l.length)
      (.adder addr ((old.zip add).countP fun x => decide (satLane x.1 x.2 ≠ x.1 + x.2))) (sectorAdded i addr add u)) := by
    show execAdd32 addr ⟨l, .clean⟩ s = _
    rw [execAdd32, hok, onAdder_performed hrange hcause, ← hcount]
    rfl
  have hrun := sectorAdded_run i addr add u
  have hstoresAdded := sectorAdded_storesAt (x := add) (settleRange_wf addr (4 * l.length) hm) hrange (hlen ▸ adderOk_fits hok)
  rw [hlen] at hstoresAdded
  have hwatch : (sectorAdded i addr add u).memStacks[i].watch = u.memStacks[i].watch := sectorAdded_watch i addr add u
  obtain ⟨hstores, hack⟩ := ackWrite_adder (len := 4 * l.length) hstoresAdded hwatch (hrun.same .out rfl)
  exact ⟨_, hexec, hstores,
    eq_memory_gauges_upd ((ackWrite_run_of_free (freeAck_adder addr _) i addr _ _).lift (hrun.mono (by decide)) (by decide)), hack⟩

theorem zero_effect {addr n : Nat} {i : Fin 32} {s : State} (hrange : rangeOf addr = .stack i) (hm : s.mem.wf = true)
    (halign : addr % 32 = 0) (hn : n % 8 = 0) (hpos : 0 < n) (hcause : accessCause .hub addr (4 * n) s = none) :
    let u := settleRange addr (4 * n) s
    ∃ t, exec (.zero addr n) s = .next t ∧ StoresAt addr (List.replicate (4 * n) 0) u t ∧
      t = { u with memStacks := t.memStacks, mem := t.mem, out := t.out } ∧
      (Unwatched i addr (4 * n) u → t.out = u.out ++ [.adderAck addr 0]) := by
  intro u
  have hexec : exec (.zero addr n) s = .next (ackWrite i addr (4 * n) (.adder addr 0) (zeroed i addr (n / 8) u)) := by
    show execZero addr n s = _
    rw [execZero, if_neg (by omega), onAdder_performed hrange hcause]
    rfl
  have hrun := zeroed_run i addr (n / 8) u
  have hzeroed := zeroed_storesAt (m := n / 8) (settleRange_wf addr (4 * n) hm) halign
    fun k hk => rangeOf_within hrange hcause (by omega)
  have hbytes : 32 * (n / 8) = 4 * n := by omega
  rw [hbytes] at hzeroed
  obtain ⟨hstores, hack⟩ := ackWrite_adder (n := 0) (len := 4 * n) hzeroed (zeroed_watch i addr (n / 8) u) (hrun.same .out rfl)
  exact ⟨_, hexec, hstores,
    eq_memory_upd ((ackWrite_run_of_free (freeAck_adder addr 0) i addr _ _).lift (hrun.mono (by decide)) (by decide)), hack⟩

/-- Settles O38: every write of the narrow path and of the adder is a `narrowWrite` within one line, which `narrowWrite_storesAt` describes; what
happens before it and after it, in banks, watch table, gauges and acknowledgements, leaves package memory as it is. -/
theorem narrowPathAndAdder : Obligations.NarrowPathAndAdder := by
  unfold Obligations.NarrowPathAndAdder
  refine ⟨fun r i s hok hrange hecc hwho hguest hcaches => ⟨fun hcause hwait => gather_effect hok hrange hecc hwho hcause hwait,
    fun hcause hwait _ => scatter_effect hok hrange hecc hwho hguest hcaches.1 hcause hwait,
    fun a d haddrs hdata hcause hwait => scatterAdd_one_effect hok ?_ hecc hwho hcaches.1 haddrs hdata hcause hwait⟩,
    fun addr i s hrange hcaches => ⟨fun l hok hcause => ⟨settleRange_of_no_parked hrange,
      land_effect hrange hcaches.1 hok hcause, add32_effect hrange hcaches.1 hok hcause⟩,
    fun n halign hn hpos hcause => zero_effect hrange hcaches.1 halign hn hpos hcause⟩⟩
  rw [haddrs] at hrange
  exact hrange

end Sys2Proof.Proofs

/-! ### Flits, NAKs, thresholds and wire tests of a bundle (R195 to R199, R206 to R208) -/

namespace Sys2Proof.Proofs

open Machine Laws

/-! #### One die link, one bundle -/

/-- A link that was changed reads as changed. -/
@[simp] theorem getElem_modLink (l : Fin 41) (f : DieLink → DieLink) (s : State) : (modLink l f s).links[l] = f s.links[l] :=
  Vector.getElem_set_self l.isLt

/-- Changing a link leaves the others as they are. -/
theorem getElem_modLink_ne {l k : Fin 41} (h : k ≠ l) (f : DieLink → DieLink) (s : State) : (modLink l f s).links[k] = s.links[k] :=
  Vector.getElem_set_ne l.isLt k.isLt fun hlk => h (Fin.ext hlk.symm)

theorem modLink_modLink (l : Fin 41) (f g : DieLink → DieLink) (s : State) : modLink l g (modLink l f s) = modLink l (g ∘ f) s := by
  simp [modLink]

/-- A `Run` over links and outputs, as the one record update that it is. -/
theorem eq_links_upd {s t : State} (h : Run [.out, .links] s t) : t = { s with links := t.links, out := t.out } :=
  State.ext (h.same .pending rfl) (h.same .now rfl) (h.same .freeCtr rfl) rfl (h.same .power rfl) (h.same .plls rfl)
    (h.same .tide rfl) (h.same .tideHi rfl) (h.same .hostA rfl) (h.same .hostB rfl) (h.same .lock rfl) (h.same .i3c rfl)
    (h.same .peer rfl) (h.same .warden rfl) (h.same .seq rfl) (h.same .log rfl) (h.same .queues rfl) (h.same .job rfl)
    (h.same .exec rfl) (h.same .gauges rfl) (h.same .dies rfl) (h.same .cores rfl) (h.same .coreStore rfl)
    (h.same .memStacks rfl) (h.same .mem rfl) (h.same .far rfl) rfl (h.same .levee rfl) (h.same .fabric rfl)
    (h.same .twin rfl) (h.same .flash rfl) (h.same .inspect rfl)

theorem isBundle_iff {rev : Bool} {b : Nat} {x : Bundle} : isBundle rev b x = true ↔ x.rev = rev ∧ x.bundle = b := by
  simp [isBundle]

theorem bundleOf_ids (k : DieLink) (rev : Bool) (b : Nat) : (bundleOf k rev b).rev = rev ∧ (bundleOf k rev b).bundle = b := by
  unfold bundleOf
  cases h : k.bundles.find? (isBundle rev b) with
  | none => exact ⟨rfl, rfl⟩
  | some x => exact isBundle_iff.mp (List.find?_some h)

theorem find?_putBundle_self (x : Bundle) (l : List Bundle) : (putBundle x l).find? (isBundle x.rev x.bundle) = some x := by
  induction l with
  | nil => simp [putBundle, isBundle]
  | cons y r ih =>
    unfold putBundle
    split
    next => simp [isBundle]
    next hy => rw [List.find?_cons_of_neg hy, ih]

theorem find?_putBundle_other {x : Bundle} {rev : Bool} {b : Nat} (h : (rev, b) ≠ (x.rev, x.bundle)) (l : List Bundle) :
    (putBundle x l).find? (isBundle rev b) = l.find? (isBundle rev b) := by
  have hnot : ∀ y : Bundle, y.rev = x.rev ∧ y.bundle = x.bundle → ¬isBundle rev b y = true := fun y hy hb => by
    obtain ⟨hrev, hbundle⟩ := isBundle_iff.mp hb
    exact h (by rw [← hrev, ← hbundle, hy.1, hy.2])
  induction l with
  | nil => simpa [putBundle] using hnot x ⟨rfl, rfl⟩
  | cons y r ih =>
    unfold putBundle
    split
    next hy => rw [List.find?_cons_of_neg (hnot x ⟨rfl, rfl⟩), List.find?_cons_of_neg (hnot y (isBundle_iff.mp hy))]
    next => rw [List.find?_cons, List.find?_cons, ih]

/-- A change of a bundle's record that leaves its direction and number. -/
def KeepsIds (f : Bundle → Bundle) : Prop := ∀ x, (f x).rev = x.rev ∧ (f x).bundle = x.bundle

/-- A link with the record of one bundle changed. -/
def withBundle (rev : Bool) (b : Nat) (f : Bundle → Bundle) (k : DieLink) : DieLink :=
  { k with bundles := putBundle (f (bundleOf k rev b)) k.bundles }

theorem modBundle_eq (l : Fin 41) (rev : Bool) (b : Nat) (f : Bundle → Bundle) (s : State) :
    modBundle l rev b f s = modLink l (withBundle rev b f) s := rfl

section
variable {f : Bundle → Bundle} (hf : KeepsIds f) (rev : Bool) (b : Nat) (k : DieLink)
include hf

theorem bundleOf_withBundle_self : bundleOf (withBundle rev b f k) rev b = f (bundleOf k rev b) := by
  obtain ⟨hrev, hbundle⟩ := bundleOf_ids k rev b
  obtain ⟨frev, fbundle⟩ := hf (bundleOf k rev b)
  have hput := find?_putBundle_self (f (bundleOf k rev b)) k.bundles
  rw [frev, fbundle, hrev, hbundle] at hput
  exact congrArg (Option.getD · (Bundle.fresh rev b)) hput

theorem bundleOf_withBundle_other {rev' : Bool} {c : Nat} (h : (rev', c) ≠ (rev, b)) :
    bundleOf (withBundle rev b f k) rev' c = bundleOf k rev' c := by
  obtain ⟨hrev, hbundle⟩ := bundleOf_ids k rev b
  obtain ⟨frev, fbundle⟩ := hf (bundleOf k rev b)
  refine congrArg (Option.getD · (Bundle.fresh rev' c)) (find?_putBundle_other ?_ k.bundles)
  rwa [frev, fbundle, hrev, hbundle]

end

theorem bundleOf_modBundle {f : Bundle → Bundle} (hf : KeepsIds f) (l : Fin 41) (rev : Bool) (b : Nat) (s : State) :
    bundleOf (modBundle l rev b f s).links[l] rev b = f (bundleOf s.links[l] rev b) := by
  rw [modBundle_eq, getElem_modLink, bundleOf_withBundle_self hf]

theorem modBundle_masks (l : Fin 41) (rev : Bool) (b : Nat) (f : Bundle → Bundle) (s : State) :
    (modBundle l rev b f s).links[l].masks = s.links[l].masks := by
  rw [modBundle_eq, getElem_modLink]
  rfl

theorem modBundle_rx (l : Fin 41) (rev : Bool) (b : Nat) (f : Bundle → Bundle) (s : State) :
    (modBundle l rev b f s).links[l].rx = s.links[l].rx := by
  rw [modBundle_eq, getElem_modLink]
  rfl

/-! #### A flit in the replay buffer (R197) -/

/-- Keeping a flit changes the replay buffer and the next number to be sent alone. -/
theorem holdFlit_eq (seq : BitVec 6) (data : Bytes) (x : Bundle) :
    holdFlit seq data x = { x with tx := (holdFlit seq data x).tx, txSeq := (holdFlit seq data x).txSeq } := by
  unfold holdFlit
  split
  · rfl
  · rfl

section
variable (seq : BitVec 6) (data : Bytes) (x : Bundle)

@[simp] theorem holdFlit_rxSeq : (holdFlit seq data x).rxSeq = x.rxSeq := by rw [holdFlit_eq]

@[simp] theorem holdFlit_fails : (holdFlit seq data x).fails = x.fails := by rw [holdFlit_eq]

@[simp] theorem holdFlit_seen : (holdFlit seq data x).seen = x.seen := by rw [holdFlit_eq]

@[simp] theorem holdFlit_errTimes : (holdFlit seq data x).errTimes = x.errTimes := by rw [holdFlit_eq]

end

theorem holdFlit_keepsIds (seq : BitVec 6) (data : Bytes) : KeepsIds (holdFlit seq data) := fun x => by
  rw [holdFlit_eq]
  exact ⟨rfl, rfl⟩

/-- A flit that is sent for the first time is the newest in the buffer. -/
theorem mem_holdFlit_new (data : Bytes) {seq : BitVec 6} {x : Bundle}
    (h : ¬(seq ≠ x.txSeq ∧ x.tx.any (fun e => e.1 == seq.toNat) = true)) : (seq.toNat, data) ∈ (holdFlit seq data x).tx := by
  rw [holdFlit, if_neg h]
  refine List.mem_drop_iff_getElem.mpr ⟨x.tx.length - (x.tx.length - 63), ?_, ?_⟩
  · simp only [List.length_append, List.length_singleton]
    omega
  · have hlast : x.tx.length - 63 + (x.tx.length - (x.tx.length - 63)) = x.tx.length := by omega
    simp [hlast]

theorem mem_holdFlit_of_next {seq : BitVec 6} {x : Bundle} (h : seq = x.txSeq) (data : Bytes) :
    (seq.toNat, data) ∈ (holdFlit seq data x).tx := mem_holdFlit_new data fun hold => hold.1 h

theorem exists_mem_holdFlit (seq : BitVec 6) (data : Bytes) (x : Bundle) : ∃ e ∈ (holdFlit seq data x).tx, e.1 = seq.toNat := by
  by_cases h : seq ≠ x.txSeq ∧ x.tx.any (fun e => e.1 == seq.toNat) = true
  · obtain ⟨e, he, hseq⟩ := List.any_eq_true.mp h.2
    rw [holdFlit, if_pos h]
    exact ⟨e, he, by simpa using hseq⟩
  · exact ⟨_, mem_holdFlit_new data h, rfl⟩

/-- The transmitter has kept the flit that it sends. -/
def flitKept (l : Fin 41) (rev : Bool) (b : Nat) (seq : BitVec 6) (sent : Bytes) (s : State) : State :=
  modBundle l rev b (holdFlit seq (slice sent 0 64)) s

theorem bundleOf_flitKept (l : Fin 41) (rev : Bool) (b : Nat) (seq : BitVec 6) (sent : Bytes) (s : State) :
    bundleOf (flitKept l rev b seq sent s).links[l] rev b = holdFlit seq (slice sent 0 64) (bundleOf s.links[l] rev b) :=
  bundleOf_modBundle (holdFlit_keepsIds seq _) l rev b s

/-- What the receiver knows of the bundle is what it knew. -/
theorem flitKept_receiver (l : Fin 41) (rev : Bool) (b : Nat) (seq : BitVec 6) (sent : Bytes) (s : State) :
    let x := bundleOf s.links[l] rev b
    let y := bundleOf (flitKept l rev b seq sent s).links[l] rev b
    y.rxSeq = x.rxSeq ∧ y.fails = x.fails ∧ y.seen = x.seen ∧ y.errTimes = x.errTimes := by
  simp only [bundleOf_flitKept, holdFlit_rxSeq, holdFlit_fails, holdFlit_seen, holdFlit_errTimes, and_self]

/-! #### A flit whose CRC matches (R195, R197) -/

section
variable (l : Fin 41) (rev : Bool) (b : Nat) (seq : BitVec 6) (data : Bytes) (s : State)

/-- The receiver's record once a flit is taken. -/
def flitTaken (seq : BitVec 6) (x : Bundle) : Bundle :=
  { x with rxSeq := x.rxSeq + 1, fails := 0, seen := x.seen.filter (· != seq.toNat) }

theorem flitTaken_keepsIds (seq : BitVec 6) : KeepsIds (flitTaken seq) := fun _ => ⟨rfl, rfl⟩

/-- The link once a flit is delivered: one that had been delivered on another bundle brings no data (R208). -/
def flitDelivered (rev : Bool) (b : Nat) (seq : BitVec 6) (data : Bytes) (k : DieLink) : DieLink :=
  { withBundle rev b (flitTaken seq) k with
    rx := k.rx ++ if (bundleOf k rev b).seen.contains seq.toNat then [] else [(rev, b, data)] }

theorem goodFlit_next {seq : BitVec 6} (h : seq = (bundleOf s.links[l] rev b).rxSeq) :
    goodFlit l rev b seq data s = emit (.sb1 l.val (.ack rev b seq.toNat)) (modLink l (flitDelivered rev b seq data) s) := by
  unfold goodFlit
  extract_lets x u v
  rw [if_pos h]
  refine congrArg (emit _) ?_
  have hu : u = modLink l (withBundle rev b (flitTaken seq)) s := rfl
  subst v
  by_cases hseen : x.seen.contains seq.toNat = true
  · rw [if_pos hseen, hu]
    refine congrArg (fun k => ({ s with links := s.links.set l k } : State)) ?_
    rw [flitDelivered, if_pos hseen, List.append_nil]
    rfl
  · rw [if_neg hseen, hu, modLink_modLink]
    refine congrArg (fun k => ({ s with links := s.links.set l k } : State)) ?_
    rw [flitDelivered, if_neg hseen]
    rfl

theorem goodFlit_out_of_turn {seq : BitVec 6} (h : seq ≠ (bundleOf s.links[l] rev b).rxSeq) : goodFlit l rev b seq data s = s :=
  if_neg h

theorem bundleOf_flitDelivered (k : DieLink) :
    bundleOf (flitDelivered rev b seq data k) rev b = flitTaken seq (bundleOf k rev b) :=
  bundleOf_withBundle_self (flitTaken_keepsIds seq) rev b k

end

/-! #### A flit whose CRC does not match (R197, R206) -/

/-- The receiver's record once a mismatch is counted; `mine` says that the flit is the one it waits for. -/
def mismatched (now : Nat) (mine : Bool) (x : Bundle) : Bundle :=
  { x with errTimes := now :: lastMilli now x.errTimes, fails := if mine then x.fails + 1 else x.fails }

theorem mismatched_keepsIds (now : Nat) (mine : Bool) : KeepsIds (mismatched now mine) := fun _ => ⟨rfl, rfl⟩

section
variable {l : Fin 41} {rev : Bool} {b : Nat} {seq : BitVec 6} {s : State}

theorem badFlit_out_of_turn (h : seq ≠ (bundleOf s.links[l] rev b).rxSeq) :
    badFlit l rev b seq s = modBundle l rev b (mismatched s.now false) s := by
  have hmine : (seq == (bundleOf s.links[l] rev b).rxSeq) = false := by simpa using h
  simp only [badFlit, hmine, Bool.not_false, if_true]
  rfl

theorem badFlit_nak (h : seq = (bundleOf s.links[l] rev b).rxSeq) (hfails : (bundleOf s.links[l] rev b).fails < 3) :
    badFlit l rev b seq s = emit (.sb1 l.val (.nak rev b seq.toNat)) (modBundle l rev b (mismatched s.now true) s) := by
  have hmine : (seq == (bundleOf s.links[l] rev b).rxSeq) = true := by simpa using h
  have hless : ¬4 ≤ (bundleOf s.links[l] rev b).fails + 1 := by omega
  simp only [badFlit, hmine, Bool.not_true, Bool.false_eq_true, if_false, if_neg hless]
  rfl

theorem badFlit_hard (h : seq = (bundleOf s.links[l] rev b).rxSeq) (hfails : 3 ≤ (bundleOf s.links[l] rev b).fails) :
    badFlit l rev b seq s = hardFailure l rev b (modBundle l rev b (mismatched s.now true) s) := by
  have hmine : (seq == (bundleOf s.links[l] rev b).rxSeq) = true := by simpa using h
  have hmore : 4 ≤ (bundleOf s.links[l] rev b).fails + 1 := by omega
  simp only [badFlit, hmine, Bool.not_true, Bool.false_eq_true, if_false, if_pos hmore]
  rfl

end

/-! #### Bundles that are marked out (R207, R208) -/

theorem dropBit_self (m : BitVec 128) (b : Nat) : (dropBit m b).getLsbD b = false := by
  by_cases hb : b < 128
  · rw [dropBit, BitVec.getLsbD_and, BitVec.getLsbD_not, BitVec.getLsbD_ofNat, Nat.testBit_two_pow_self]
    simp [hb]
  · exact BitVec.getLsbD_of_ge _ _ (by omega)

/-- The direction of a link carries nothing on a bundle. -/
def MaskedOut (rev : Bool) (b : Nat) (k : DieLink) : Prop := (maskOfDir k rev).getLsbD b = false

theorem MaskedOut.of_masks {rev : Bool} {b : Nat} {k k' : DieLink} (h : MaskedOut rev b k) (hm : k'.masks = k.masks) :
    MaskedOut rev b k' := by
  simpa only [MaskedOut, maskOfDir, hm] using h

theorem maskedOut_reset (rev : Bool) (b : Nat) : MaskedOut rev b DieLink.reset := by
  cases rev <;> simp [MaskedOut, maskOfDir, DieLink.reset]

/-- A link with a bundle cleared from the mask of a direction. -/
def maskCleared (rev : Bool) (b : Nat) (k : DieLink) : DieLink := setMask rev (dropBit (maskOfDir k rev) b) k

theorem maskOfDir_setMask (rev : Bool) (m : BitVec 128) (k : DieLink) : maskOfDir (setMask rev m k) rev = m := by
  cases rev <;> rfl

theorem maskedOut_maskCleared (rev : Bool) (b : Nat) (k : DieLink) : MaskedOut rev b (maskCleared rev b k) := by
  rw [MaskedOut, maskCleared, maskOfDir_setMask, dropBit_self]

/-- What a mark-out makes of a link: it is down, or its mask lacks the bundle and its rating is looked at. -/
def Marked (rev : Bool) (b : Nat) (k k' : DieLink) : Prop :=
  k' = DieLink.reset ∨ ∃ below, k' = { maskCleared rev b k with below := below }

theorem Marked.maskedOut {rev : Bool} {b : Nat} {k k' : DieLink} (h : Marked rev b k k') : MaskedOut rev b k' := by
  obtain rfl | ⟨below, rfl⟩ := h
  · exact maskedOut_reset rev b
  · exact (maskedOut_maskCleared rev b k).of_masks rfl

/-! #### Links that are taken down (R204) -/

/-- A link that is taken down, before anyone learns of it. -/
def linkReset (l : Fin 41) (s : State) : State := modLink l (fun _ => DieLink.reset) s

/-- What was on its way on the link has ended with an error. -/
def linkLost (l : Fin 41) (s : State) : State :=
  let s := sweepRequests (logLink l 0 0 (linkReset l s))
  if l = 40 then failGuest s else s

theorem takeDown_of_down {l : Fin 41} {s : State} (h : s.links[l].up = false) : takeDown l s = s := by
  simp only [takeDown, h, Bool.not_false, if_true]

theorem takeDown_of_up {l : Fin 41} {s : State} (h : s.links[l].up = true) : takeDown l s =
    if running (linkLost l s) && imageUsesLink l (linkLost l s) && !(l = 40 && (linkLost l s).levee.quarantine) then
      failPackage 3 0x0A (logLink l 0 0 (linkReset l s)).seq (linkLost l s)
    else linkLost l s := by
  simp only [takeDown, h, Bool.not_true, Bool.false_eq_true, if_false]
  rfl

theorem linkLost_run (l : Fin 41) (s : State) :
    Run [.out, .hostA, .hostB, .seq, .log, .cores, .memStacks, .levee] (logLink l 0 0 (linkReset l s)) (linkLost l s) := by
  have hsweep : Run [.out, .hostA, .hostB, .seq, .log, .cores, .memStacks, .levee] (logLink l 0 0 (linkReset l s))
      (sweepRequests (logLink l 0 0 (linkReset l s))) := sweepRequests_run _ (.refl _ _) (by decide)
  unfold linkLost
  split
  · exact failGuest_run _ hsweep (by decide)
  · exact hsweep

theorem takeDown_linkLost_run {l : Fin 41} {s : State} (h : s.links[l].up = true) :
    Run [.out, .hostA, .hostB, .warden, .seq, .log, .job, .exec, .cores, .memStacks, .fabric, .twin, .inspect]
      (linkLost l s) (takeDown l s) := by
  rw [takeDown_of_up h]
  split
  · exact failPackage_run _ _ _ _ (.refl _ _) (by decide)
  · exact .refl _ _

theorem takeDown_links {l : Fin 41} {s : State} (h : s.links[l].up = true) : (takeDown l s).links = (linkReset l s).links := by
  have hlog : (logLink l 0 0 (linkReset l s)).links = (linkReset l s).links := (logEv_ports_run ..).same .links rfl
  have hlost : (linkLost l s).links = (logLink l 0 0 (linkReset l s)).links := (linkLost_run l s).same .links rfl
  have hdown : (takeDown l s).links = (linkLost l s).links := (takeDown_linkLost_run h).same .links rfl
  rw [hdown, hlost, hlog]

theorem takeDown_link (l : Fin 41) (s : State) :
    (takeDown l s).links[l] = DieLink.reset ∨ (takeDown l s).links[l] = s.links[l] := by
  cases h : s.links[l].up with
  | false => exact .inr (by rw [takeDown_of_down h])
  | true => exact .inl (by rw [takeDown_links h, linkReset, getElem_modLink])

/-! #### Mark-outs and hard failures -/

/-- A bundle that is marked out, before the direction's width is looked at. -/
def markedNow (l : Fin 41) (rev : Bool) (b : Nat) (s : State) : State :=
  let s := emit (.sb1 l.val (.maskOut rev b)) (modLink l (maskCleared rev b) s)
  ledgerReplace 0x10 5 l.val (bundleSub rev b) (leBytes 4 1) (logLink l 3 (maskOfDir s.links[l] rev) s)

theorem markedNow_link (l : Fin 41) (rev : Bool) (b : Nat) (s : State) : (markedNow l rev b s).links[l] = maskCleared rev b s.links[l] := by
  have hrun : Run [.out, .hostA, .hostB, .seq, .log, .flash] (modLink l (maskCleared rev b) s) (markedNow l rev b s) :=
    ledgerReplace_run _ _ _ _ _ _ (logLink_run _ _ _ _ (emit_run _ _ (.refl _ _) (by decide)) (by decide)) (by decide)
  have hlinks : (markedNow l rev b s).links = (modLink l (maskCleared rev b) s).links := hrun.same .links rfl
  rw [hlinks, getElem_modLink]

theorem markOut_link (l : Fin 41) (rev : Bool) (b : Nat) (s : State) : Marked rev b s.links[l] (markOut l rev b s).links[l] := by
  have hmark := markedNow_link l rev b s
  have hkept : Marked rev b s.links[l] (markedNow l rev b s).links[l] := .inr ⟨_, hmark⟩
  unfold markOut
  extract_lets u m v
  have hv : v = markedNow l rev b s := rfl
  clear_value v m
  subst hv
  split
  · obtain hdown | hdown := takeDown_link l (markedNow l rev b s)
    · exact .inl hdown
    · rw [hdown]; exact hkept
  · split
    · have hlog : (logLink l 2 m (modLink l (fun k => { k with below := true }) (markedNow l rev b s))).links =
          (modLink l (fun k => { k with below := true }) (markedNow l rev b s)).links := (logEv_ports_run ..).same .links rfl
      have hbelow := (congrArg (·[l]) hlog).trans (getElem_modLink l (fun k => { k with below := true }) (markedNow l rev b s))
      exact .inr ⟨true, hbelow.trans (by rw [hmark])⟩
    · exact hkept

/-- The record of a bundle once a flit of another one goes out on it under the number `q`. -/
def takenOver (q : BitVec 6) (d : Bytes × Bool) (x : Bundle) : Bundle :=
  { holdFlit q d.1 x with seen := if d.2 then q.toNat :: x.seen else x.seen.filter (· != q.toNat) }

theorem moveFlits_masks (l : Fin 41) (rev : Bool) (b : Nat) (fs : List (Bytes × Bool)) (s : State) :
    (moveFlits l rev b fs s).links[l].masks = s.links[l].masks := by
  induction fs generalizing s with
  | nil => rfl
  | cons d fs ih =>
    exact (ih _).trans (modBundle_masks l rev b (takenOver (bundleOf s.links[l] rev b).txSeq d) s)

theorem hardFailure_maskedOut (l : Fin 41) (rev : Bool) (b : Nat) (s : State) : MaskedOut rev b (hardFailure l rev b s).links[l] := by
  have hmark := (markOut_link l rev b s).maskedOut
  unfold hardFailure
  extract_lets x late fs u
  split
  · exact hmark.of_masks (moveFlits_masks l rev _ fs u)
  · exact hmark

theorem belowNotice_link (l : Fin 41) (s : State) : ∃ below, (belowNotice l s).links[l] = { s.links[l] with below := below } := by
  unfold belowNotice
  extract_lets u
  have hu : u.links[l] = { s.links[l] with below := false } := getElem_modLink l _ s
  split
  · exact ⟨_, rfl⟩
  · split
    · have hlinks : (plainNotice 3 u).links = u.links := (plainNotice_run_no_slip 3 u).same .links rfl
      exact ⟨false, (congrArg (·[l]) hlinks).trans hu⟩
    · exact ⟨false, hu⟩

/-! #### FLIT -/

section
variable {l : Fin 41} {rev : Bool} {b : Fin 128} {s : State} (seq : BitVec 6) (data sent : Bytes) (crc : BitVec 8)

theorem exec_flit_good (hc : carries l rev b.val s = true) (hcrc : crc8 (slice data 0 64) = crc.toNat) :
    exec (.flit l rev b seq ⟨data, crc⟩ sent) s =
      .next (goodFlit l rev b.val seq (slice data 0 64) (flitKept l rev b.val seq sent s)) := by
  show execFlit .. = _
  simp only [execFlit, hc, hcrc, Bool.not_true, Bool.false_eq_true, if_false, if_true, flitKept]

theorem exec_flit_bad (hc : carries l rev b.val s = true) (hcrc : crc8 (slice data 0 64) ≠ crc.toNat) :
    exec (.flit l rev b seq ⟨data, crc⟩ sent) s = .next (badFlit l rev b.val seq (flitKept l rev b.val seq sent s)) := by
  show execFlit .. = _
  simp only [execFlit, hc, hcrc, Bool.not_true, Bool.false_eq_true, if_false, flitKept]

end

section
variable {l : Fin 41} {rev : Bool} {b : Nat} {seq : BitVec 6} {sent : Bytes} {s : State}

theorem flitKept_link_ne {k : Fin 41} (h : k ≠ l) : (flitKept l rev b seq sent s).links[k] = s.links[k] := getElem_modLink_ne h _ s

/-- A good flit that is the next. -/
theorem flit_next (data : Bytes) (h : seq = (bundleOf s.links[l] rev b).rxSeq) :
    let x := bundleOf s.links[l] rev b
    let t := goodFlit l rev b seq data (flitKept l rev b seq sent s)
    (∀ k, k ≠ l → t.links[k] = s.links[k]) ∧
      t.links[l].rx = s.links[l].rx ++ (if x.seen.contains seq.toNat then [] else [(rev, b, data)]) ∧
      bundleOf t.links[l] rev b = flitTaken seq (holdFlit seq (slice sent 0 64) x) ∧
      t.out = s.out ++ [.sb1 l.val (.ack rev b seq.toNat)] := by
  intro x t
  obtain ⟨hrx, -, hseen, -⟩ := flitKept_receiver l rev b seq sent s
  have hkept := bundleOf_flitKept l rev b seq sent s
  have hrec : (flitKept l rev b seq sent s).links[l].rx = s.links[l].rx := modBundle_rx l rev b _ s
  have ht : t = emit (.sb1 l.val (.ack rev b seq.toNat)) (modLink l (flitDelivered rev b seq data) (flitKept l rev b seq sent s)) :=
    goodFlit_next l rev b data _ (h.trans hrx.symm)
  refine ⟨fun k hk => ?_, ?_, ?_, ?_⟩
  · rw [ht]
    exact (getElem_modLink_ne hk _ _).trans (flitKept_link_ne hk)
  · rw [ht, emit_links, getElem_modLink, flitDelivered, hseen, hrec]
  · rw [ht, emit_links, getElem_modLink, bundleOf_flitDelivered, hkept]
  · rw [ht]
    rfl

/-- A good flit out of turn. -/
theorem flit_out_of_turn (data : Bytes) (h : seq ≠ (bundleOf s.links[l] rev b).rxSeq) :
    goodFlit l rev b seq data (flitKept l rev b seq sent s) = flitKept l rev b seq sent s := by
  obtain ⟨hrx, -, -, -⟩ := flitKept_receiver l rev b seq sent s
  exact goodFlit_out_of_turn l rev b data _ fun hseq => h (hseq.trans hrx)

theorem flitKept_run (l : Fin 41) (rev : Bool) (b : Nat) (seq : BitVec 6) (sent : Bytes) (s : State) :
    Run [.out, .links] s (flitKept l rev b seq sent s) := modBundle_run _ _ _ _ s (.refl _ s) (by decide)

/-- The mismatch of a flit that was kept, counted. -/
def mismatchCounted (l : Fin 41) (rev : Bool) (b : Nat) (mine : Bool) (seq : BitVec 6) (sent : Bytes) (s : State) : State :=
  modBundle l rev b (mismatched s.now mine) (flitKept l rev b seq sent s)

theorem bundleOf_mismatchCounted (mine : Bool) : bundleOf (mismatchCounted l rev b mine seq sent s).links[l] rev b =
    mismatched s.now mine (holdFlit seq (slice sent 0 64) (bundleOf s.links[l] rev b)) := by
  rw [mismatchCounted, bundleOf_modBundle (mismatched_keepsIds _ _), bundleOf_flitKept]

end

section
variable {l : Fin 41} {rev : Bool} {b : Fin 128} {s : State}

theorem flit_good_effect (seq : BitVec 6) (data sent : Bytes) (crc : BitVec 8) (hc : carries l rev b.val s = true)
    (hcrc : crc8 (slice data 0 64) = crc.toNat) :
    let x := bundleOf s.links[l] rev b.val
    ∃ t, exec (.flit l rev b seq ⟨data, crc⟩ sent) s = .next t ∧ t = { s with links := t.links, out := t.out } ∧
      (∀ k, k ≠ l → t.links[k] = s.links[k]) ∧ (∃ e ∈ (bundleOf t.links[l] rev b.val).tx, e.1 = seq.toNat) ∧
      (seq = x.rxSeq →
        t.links[l].rx = s.links[l].rx ++ (if x.seen.contains seq.toNat then [] else [(rev, b.val, slice data 0 64)]) ∧
          (bundleOf t.links[l] rev b.val).rxSeq = x.rxSeq + 1 ∧ (bundleOf t.links[l] rev b.val).fails = 0 ∧
          t.out = s.out ++ [.sb1 l.val (.ack rev b.val seq.toNat)]) ∧
      (seq ≠ x.rxSeq → t.links[l].rx = s.links[l].rx ∧ (bundleOf t.links[l] rev b.val).rxSeq = x.rxSeq ∧ t.out = s.out) := by
  intro x
  refine ⟨_, exec_flit_good seq data sent crc hc hcrc,
    eq_links_upd (goodFlit_run _ _ _ _ _ _ (flitKept_run l rev b.val seq sent s) (by decide)), ?_⟩
  by_cases h : seq = x.rxSeq
  · obtain ⟨hothers, hrx, hrec, hout⟩ := flit_next (sent := sent) (slice data 0 64) h
    rw [hrec]
    exact ⟨hothers, exists_mem_holdFlit .., fun _ => ⟨hrx, by rw [flitTaken, holdFlit_rxSeq], rfl, hout⟩, fun hne => absurd h hne⟩
  · rw [flit_out_of_turn _ h, bundleOf_flitKept, holdFlit_rxSeq]
    exact ⟨fun k hk => flitKept_link_ne hk, exists_mem_holdFlit .., fun heq => absurd heq h, fun _ => ⟨modBundle_rx .., rfl, rfl⟩⟩

theorem exec_flit_nak (seq : BitVec 6) (data sent : Bytes) (crc : BitVec 8) (hc : carries l rev b.val s = true)
    (hcrc : crc8 (slice data 0 64) ≠ crc.toNat) (hseq : seq = (bundleOf s.links[l] rev b.val).rxSeq)
    (hfails : (bundleOf s.links[l] rev b.val).fails < 3) :
    exec (.flit l rev b seq ⟨data, crc⟩ sent) s =
      .next (emit (.sb1 l.val (.nak rev b.val seq.toNat)) (mismatchCounted l rev b.val true seq sent s)) := by
  obtain ⟨hrx, hkept, -, -⟩ := flitKept_receiver l rev b.val seq sent s
  rw [exec_flit_bad seq data sent crc hc hcrc, badFlit_nak (hseq.trans hrx.symm) (hkept ▸ hfails)]
  rfl

theorem exec_flit_bad_out_of_turn (seq : BitVec 6) (data sent : Bytes) (crc : BitVec 8) (hc : carries l rev b.val s = true)
    (hcrc : crc8 (slice data 0 64) ≠ crc.toNat) (hseq : seq ≠ (bundleOf s.links[l] rev b.val).rxSeq) :
    exec (.flit l rev b seq ⟨data, crc⟩ sent) s = .next (mismatchCounted l rev b.val false seq sent s) := by
  obtain ⟨hrx, -, -, -⟩ := flitKept_receiver l rev b.val seq sent s
  rw [exec_flit_bad seq data sent crc hc hcrc, badFlit_out_of_turn fun h => hseq (h.trans hrx)]
  rfl

theorem flit_nak_effect (seq : BitVec 6) (data sent : Bytes) (crc : BitVec 8) (hc : carries l rev b.val s = true)
    (hcrc : crc8 (slice data 0 64) ≠ crc.toNat) (hseq : seq = (bundleOf s.links[l] rev b.val).rxSeq)
    (hfails : (bundleOf s.links[l] rev b.val).fails < 3) :
    let x := bundleOf s.links[l] rev b.val
    ∃ t, exec (.flit l rev b seq ⟨data, crc⟩ sent) s = .next t ∧ t = { s with links := t.links, out := t.out } ∧
      t.links[l].rx = s.links[l].rx ∧
      (seq = x.txSeq → (seq.toNat, slice sent 0 64) ∈ (bundleOf t.links[l] rev b.val).tx) ∧
      (bundleOf t.links[l] rev b.val).fails = x.fails + 1 ∧ (bundleOf t.links[l] rev b.val).rxSeq = x.rxSeq ∧
      t.out = s.out ++ [.sb1 l.val (.nak rev b.val seq.toNat)] := by
  intro x
  have hrec := bundleOf_mismatchCounted (l := l) (rev := rev) (b := b.val) (seq := seq) (sent := sent) (s := s) true
  have hrx : (mismatchCounted l rev b.val true seq sent s).links[l].rx = s.links[l].rx :=
    (modBundle_rx ..).trans (modBundle_rx l rev b.val _ s)
  refine ⟨_, exec_flit_nak seq data sent crc hc hcrc hseq hfails,
    eq_links_upd (emit_run _ _ (modBundle_run _ _ _ _ _ (flitKept_run l rev b.val seq sent s) (by decide)) (by decide)), hrx, ?_⟩
  rw [emit_links, hrec]
  refine ⟨fun h => mem_holdFlit_of_next h _, ?_, ?_, rfl⟩
  · simp only [mismatched, holdFlit_fails, if_true, x]
  · exact holdFlit_rxSeq ..

/-- The fourth failure of one flit (R208). -/
theorem flit_hard_effect (seq : BitVec 6) (data sent : Bytes) (crc : BitVec 8) (hc : carries l rev b.val s = true)
    (hcrc : crc8 (slice data 0 64) ≠ crc.toNat) (hseq : seq = (bundleOf s.links[l] rev b.val).rxSeq)
    (hfails : 3 ≤ (bundleOf s.links[l] rev b.val).fails) :
    ∃ t, exec (.flit l rev b seq ⟨data, crc⟩ sent) s = .next t ∧ (maskOfDir t.links[l] rev).getLsbD b.val = false := by
  obtain ⟨hrx, hkept, -, -⟩ := flitKept_receiver l rev b.val seq sent s
  refine ⟨_, exec_flit_bad seq data sent crc hc hcrc, ?_⟩
  rw [badFlit_hard (hseq.trans hrx.symm) (hkept ▸ hfails)]
  exact hardFailure_maskedOut ..

/-- A mismatch is counted on its own bundle alone. -/
theorem mismatchCounted_errors (mine : Bool) (seq : BitVec 6) (sent : Bytes) :
    let t := mismatchCounted l rev b.val mine seq sent s
    (bundleOf t.links[l] rev b.val).errTimes =
        s.now :: (bundleOf s.links[l] rev b.val).errTimes.filter (fun k => decide (s.now < k + 1000000)) ∧
      (∀ rev' c, (rev', c) ≠ (rev, b.val) → bundleOf t.links[l] rev' c = bundleOf s.links[l] rev' c) ∧
      (∀ k, k ≠ l → t.links[k] = s.links[k]) := by
  intro t
  refine ⟨?_, fun rev' c hne => ?_, fun k hk => ?_⟩
  · rw [bundleOf_mismatchCounted, mismatched, holdFlit_errTimes]
    rfl
  · show bundleOf (modLink l (withBundle rev b.val (mismatched s.now mine))
      (modLink l (withBundle rev b.val (holdFlit seq (slice sent 0 64))) s)).links[l] rev' c = _
    rw [getElem_modLink, getElem_modLink, bundleOf_withBundle_other (mismatched_keepsIds _ _) _ _ _ hne,
      bundleOf_withBundle_other (holdFlit_keepsIds _ _) _ _ _ hne]
  · exact (getElem_modLink_ne hk _ _).trans (getElem_modLink_ne hk _ s)

theorem flit_mismatch_effect (seq : BitVec 6) (data sent : Bytes) (crc : BitVec 8) (hc : carries l rev b.val s = true)
    (hcrc : crc8 (slice data 0 64) ≠ crc.toNat)
    (h : seq ≠ (bundleOf s.links[l] rev b.val).rxSeq ∨ (bundleOf s.links[l] rev b.val).fails < 3) :
    ∃ t, exec (.flit l rev b seq ⟨data, crc⟩ sent) s = .next t ∧
      (bundleOf t.links[l] rev b.val).errTimes =
          s.now :: (bundleOf s.links[l] rev b.val).errTimes.filter (fun k => decide (s.now < k + 1000000)) ∧
        (∀ rev' c, (rev', c) ≠ (rev, b.val) → bundleOf t.links[l] rev' c = bundleOf s.links[l] rev' c) ∧
        (∀ k, k ≠ l → t.links[k] = s.links[k]) := by
  by_cases hseq : seq = (bundleOf s.links[l] rev b.val).rxSeq
  · have hfails : (bundleOf s.links[l] rev b.val).fails < 3 := h.resolve_left fun hne => hne hseq
    exact ⟨_, exec_flit_nak seq data sent crc hc hcrc hseq hfails, mismatchCounted_errors true seq sent⟩
  · exact ⟨_, exec_flit_bad_out_of_turn seq data sent crc hc hcrc hseq, mismatchCounted_errors false seq sent⟩

/-! #### NAK, BUNDLE_THRESHOLD, BUNDLE_WIRE_TEST -/

theorem exec_nak (seq : BitVec 6) (hc : carries l rev b.val s = true) :
    let x := bundleOf s.links[l] rev b.val
    exec (.nak l rev b seq) s = .next { s with out := s.out ++
      (x.tx.dropWhile fun e => e.1 != seq.toNat).map fun e => Out.flitOut l.val rev b.val e.1 e.2 (wiresOf x.failed e.2) } := by
  obtain ⟨hrev, hbundle⟩ := bundleOf_ids s.links[l] rev b.val
  show execNak .. = _
  simp only [execNak, hc, if_true, resendFlits, emitAll, laterFlits, flitMsg, hrev, hbundle]

theorem exec_bundleThreshold_below
    (h : ((bundleOf s.links[l] rev b.val).errTimes.filter fun k => decide (s.now < k + 1000000)).length ≤ 32) :
    exec (.bundleThreshold l rev b) s = .next s := by
  have hnot : ¬32 < (lastMilli s.now (bundleOf s.links[l] rev b.val).errTimes).length := Nat.not_lt.mpr h
  show execBundleThreshold .. = _
  simp only [execBundleThreshold, hnot, decide_false, Bool.and_false, Bool.false_eq_true, if_false]

theorem bundleThreshold_effect (hc : carries l rev b.val s = true)
    (h : 32 < ((bundleOf s.links[l] rev b.val).errTimes.filter fun k => decide (s.now < k + 1000000)).length) :
    ∃ t, exec (.bundleThreshold l rev b) s = .next t ∧ t = { s with links := t.links } ∧
      (bundleOf t.links[l] rev b.val).overs = true ∧ t.links[l].masks = s.links[l].masks := by
  have hmany : 32 < (lastMilli s.now (bundleOf s.links[l] rev b.val).errTimes).length := h
  refine ⟨modBundle l rev b.val (fun x => { x with overs := true }) s, ?_, rfl, ?_, modBundle_masks ..⟩
  · show execBundleThreshold .. = _
    simp only [execBundleThreshold, hc, hmany, decide_true, Bool.and_self, if_true]
  · rw [bundleOf_modBundle (f := fun x => { x with overs := true }) fun _ => ⟨rfl, rfl⟩]

/-- The bundle is back in service after its test. -/
def testEnded (x : Bundle) : Bundle := { x with testing := false, errTimes := [] }

theorem testEnded_keepsIds : KeepsIds testEnded := fun _ => ⟨rfl, rfl⟩

/-- The failed wires after a test that found some. -/
def wiresAfter (found : List Nat) (x : Bundle) : List Nat := (x.failed ++ found).eraseDups

/-- A test whose wires the spares carry extends the list of failed ones. -/
theorem wireTest_spared {found : List Nat} (h : sparesDo (wiresAfter found (bundleOf s.links[l] rev b.val)) = true) :
    bundleOf (wireTest l rev b.val found s).links[l] rev b.val =
        { testEnded (bundleOf s.links[l] rev b.val) with failed := wiresAfter found (bundleOf s.links[l] rev b.val) } ∧
      (wireTest l rev b.val found s).links[l].masks = s.links[l].masks := by
  unfold wireTest
  extract_lets x ws u v
  have hws : sparesDo ws = true := h
  rw [if_pos hws]
  have hrec : bundleOf v.links[l] rev b.val = { testEnded x with failed := ws } := by
    have hu : bundleOf u.links[l] rev b.val = testEnded x := bundleOf_modBundle testEnded_keepsIds l rev b.val s
    rw [← hu]
    exact bundleOf_modBundle (f := fun y => { y with failed := ws }) (fun _ => ⟨rfl, rfl⟩) l rev b.val u
  have hmasks : v.links[l].masks = s.links[l].masks := (modBundle_masks ..).trans (modBundle_masks l rev b.val _ s)
  have hread : ∀ t : State, t.links = v.links →
      bundleOf t.links[l] rev b.val = { testEnded x with failed := ws } ∧ t.links[l].masks = s.links[l].masks := fun t ht => by
    rw [ht]
    exact ⟨hrec, hmasks⟩
  split
  · exact hread _ rfl
  · exact hread _ ((ledgerReplace_run (flds := [.out, .hostA, .hostB, .seq, .log, .flash]) _ _ _ _ _ v (.refl _ v)
      (by decide)).same .links rfl)

theorem Marked.testing {rev : Bool} {b : Nat} {k k' : DieLink} (h : Marked rev b k k') (hk : (bundleOf k rev b).testing = false) :
    (bundleOf k' rev b).testing = false := by
  obtain rfl | ⟨below, rfl⟩ := h
  · rfl
  · cases rev <;> exact hk

/-- A test whose wires the spares do not carry marks the bundle out. -/
theorem wireTest_marked {found : List Nat} (h : sparesDo (wiresAfter found (bundleOf s.links[l] rev b.val)) = false) :
    (bundleOf (wireTest l rev b.val found s).links[l] rev b.val).testing = false ∧
      MaskedOut rev b.val (wireTest l rev b.val found s).links[l] := by
  unfold wireTest
  extract_lets x ws u v
  have hws : ¬sparesDo ws = true := Bool.eq_false_iff.mp h
  rw [if_neg hws]
  have hended : (bundleOf u.links[l] rev b.val).testing = false :=
    congrArg Bundle.testing (bundleOf_modBundle testEnded_keepsIds l rev b.val s)
  have hmark := markOut_link l rev b.val u
  obtain ⟨below, hbelow⟩ := belowNotice_link l (markOut l rev b.val u)
  rw [hbelow]
  exact ⟨hmark.testing hended, hmark.maskedOut.of_masks rfl⟩

theorem bundleWireTest_effect (found : List Nat) (htest : (bundleOf s.links[l] rev b.val).testing = true) (hup : s.links[l].up = true) :
    let x := bundleOf s.links[l] rev b.val
    ∃ t, exec (.bundleWireTest l rev b found) s = .next t ∧ (bundleOf t.links[l] rev b.val).testing = false ∧
      (sparesDo ((x.failed ++ found).eraseDups) = true →
        (bundleOf t.links[l] rev b.val).failed = (x.failed ++ found).eraseDups ∧ t.links[l].masks = s.links[l].masks) ∧
      (sparesDo ((x.failed ++ found).eraseDups) = false → (maskOfDir t.links[l] rev).getLsbD b.val = false) := by
  intro x
  refine ⟨wireTest l rev b.val found s, ?_, ?_⟩
  · show execBundleWireTest .. = _
    simp only [execBundleWireTest, htest, hup, Bool.and_self, if_true]
  · cases h : sparesDo ((x.failed ++ found).eraseDups) with
    | true =>
      obtain ⟨hrec, hmasks⟩ := wireTest_spared h
      rw [hrec]
      exact ⟨rfl, fun _ => ⟨rfl, hmasks⟩, fun hf => Bool.noConfusion hf⟩
    | false =>
      obtain ⟨htesting, hmasked⟩ := wireTest_marked h
      exact ⟨htesting, fun ht => Bool.noConfusion ht, fun _ => hmasked⟩

end

/-- Settles O42: a flit is kept, `flitKept`, and then taken, discarded or answered as its CRC and its number say; a hard failure and a wire
test that the spares do not carry mark the bundle out, `markOut_link`. -/
theorem bundleTraffic : Obligations.BundleTraffic := by
  unfold Obligations.BundleTraffic
  intro l rev b s
  exact ⟨fun seq data crc sent hc => ⟨flit_good_effect seq data sent crc hc, flit_nak_effect seq data sent crc hc,
      flit_hard_effect seq data sent crc hc⟩,
    fun seq data crc sent hc => flit_mismatch_effect seq data sent crc hc, exec_bundleThreshold_below,
    fun seq hc => exec_nak seq hc, bundleThreshold_effect, bundleWireTest_effect⟩

end Sys2Proof.Proofs

/-! ### Die links that train and drop (R200 to R205) -/

namespace Sys2Proof.Proofs

open Machine Laws

/-! #### A link that is dropped (R204, R205) -/

/-- The guest's pending transactions are over; windows, buckets, counters and the quarantine stay. -/
theorem failGuest_levee (s : State) : (failGuest s).levee = { s.levee with held := [], resps := [] } := by
  have hacks : (dropGuestAcks (takenResps s)).levee = (takenResps s).levee :=
    (dropGuestAcks_run (flds := [.memStacks]) _ (.refl _ _) (by decide)).same .levee rfl
  show ({ (dropGuestAcks (takenResps s)).levee with held := [], resps := [] } : Levee) = _
  rw [hacks]
  rfl

theorem linkLost_job (l : Fin 41) (s : State) : (linkLost l s).job = s.job :=
  ((linkLost_run l s).same .job rfl).trans ((logEv_ports_run ..).same .job rfl)

theorem linkLost_quarantine (l : Fin 41) (s : State) : (linkLost l s).levee.quarantine = s.levee.quarantine := by
  have hlog : (logLink l 0 0 (linkReset l s)).levee = s.levee := (logEv_ports_run ..).same .levee rfl
  have hsweep : (sweepRequests (logLink l 0 0 (linkReset l s))).levee = s.levee :=
    ((sweepRequests_run (flds := [.out, .hostA, .hostB, .seq, .log, .cores, .memStacks]) _ (.refl _ _) (by decide)).same .levee rfl).trans hlog
  unfold linkLost
  extract_lets u
  have hu : u.levee = s.levee := hsweep
  split
  · rw [failGuest_levee, hu]
  · rw [hu]

/-- Between `s` and `t` a link has gone down with what was on its way, and a package whose running image uses it has failed. -/
def LinkDropped (l : Fin 41) (s t : State) : Prop :=
  t.links[l] = DieLink.reset ∧ (∀ k, k ≠ l → t.links[k] = s.links[k]) ∧ s.seq < t.seq ∧
    (∀ im, s.job.image = some im → s.job.state = .running → im.mapping.dielinks.testBit l.val = true →
      ¬(l = 40 ∧ s.levee.quarantine = true) → t.job.state = .failed)

theorem takeDown_seq {l : Fin 41} {s : State} (h : s.links[l].up = true) : s.seq < (takeDown l s).seq := by
  have hlog : (logLink l 0 0 (linkReset l s)).seq = s.seq + 1 := logEv_seq ..
  have hlost := (linkLost_run l s).seq
  have hdown := (takeDown_linkLost_run h).seq
  omega

/-- A package whose running image uses the link fails (R205), but not for the guest link of a guest in quarantine (R217). -/
theorem takeDown_fails {l : Fin 41} {s : State} {im : JobImage} (h : s.links[l].up = true) (him : s.job.image = some im)
    (hrun : s.job.state = .running) (huses : im.mapping.dielinks.testBit l.val = true) (hq : ¬(l = 40 ∧ s.levee.quarantine = true)) :
    (takeDown l s).job.state = .failed := by
  have hjob := linkLost_job l s
  have hrunning : running (linkLost l s) = true := by simp [running, hjob, hrun]
  have himage : imageUsesLink l (linkLost l s) = true := by
    simp only [imageUsesLink, hjob, him, Option.map_some, Option.getD_some]
    exact huses
  have hnot : (!(decide (l = 40) && (linkLost l s).levee.quarantine)) = true := by
    rw [linkLost_quarantine]
    simpa [imp_iff_not_or] using hq
  rw [takeDown_of_up h, hrunning, himage, hnot, Bool.and_self, Bool.and_self, if_pos rfl]
  exact (failPackage_of_started (.inl (by rw [hjob, hrun])) _ _ _).1

theorem takeDown_dropped {l : Fin 41} {s : State} (h : s.links[l].up = true) : LinkDropped l s (takeDown l s) := by
  refine ⟨?_, fun k hk => ?_, takeDown_seq h, fun im him hrun huses hq => takeDown_fails h him hrun huses hq⟩
  · rw [takeDown_links h]
    exact getElem_modLink ..
  · rw [takeDown_links h]
    exact getElem_modLink_ne hk ..

section
variable {l : Fin 41} {s : State} (hup : s.links[l].up = true)
include hup

theorem linkDrop_effect : ∃ t, exec (.linkDrop l) s = .next t ∧ LinkDropped l s t ∧ .sb1 l.val .dropAck ∈ t.out := by
  refine ⟨takeDown l (emit (.sb1 l.val .dropAck) s), ?_, takeDown_dropped (s := emit (.sb1 l.val .dropAck) s) hup, ?_⟩
  · show execLinkDrop l s = _
    rw [execLinkDrop, if_pos hup]
  · exact (takeDown_run (flds := commandFields) l _ (.refl _ _) (by decide)).out.subset (by simp)

theorem dropAck_effect (hsent : s.links[l].dropAt ≠ none) : ∃ t, exec (.dropAck l) s = .next t ∧ LinkDropped l s t := by
  refine ⟨takeDown l s, ?_, takeDown_dropped hup⟩
  show execDropAck l s = _
  rw [execDropAck, if_pos (Option.isSome_iff_ne_none.mpr hsent)]

theorem dropAckTimeout_effect {k : Nat} (hsent : s.links[l].dropAt = some k) (hlate : k + 1000 ≤ s.now) :
    ∃ t, exec (.dropAckTimeout l) s = .next t ∧ LinkDropped l s t := by
  refine ⟨takeDown l s, ?_, takeDown_dropped hup⟩
  show execDropAckTimeout l s = _
  simp only [execDropAckTimeout, hsent, if_pos hlate]

theorem forwardedClockLoss_effect {held : Nat} (hheld : 100 ≤ held) :
    ∃ t, exec (.forwardedClockLoss l held) s = .next t ∧ LinkDropped l s t := by
  refine ⟨takeDown l s, ?_, takeDown_dropped hup⟩
  show execForwardedClockLoss l held s = _
  rw [execForwardedClockLoss, if_pos hheld]

end

/-! #### The agreed masks (R202) -/

theorem testBit_sum_two_pow (f : Nat → Bool) (n b : Nat) :
    (((List.range n).filter f).map fun i => 2 ^ i).sum.testBit b = (decide (b < n) && f b) := by
  have hsorted : ((List.range n).filter f).SortedLT := (List.pairwise_lt_range.filter f).sortedLT
  have hmem := Nat.mem_bitIndices (i := b) (n := (((List.range n).filter f).map fun i => 2 ^ i).sum)
  rw [Nat.bitIndices_sum_map_two_pow hsorted, List.mem_filter, List.mem_range] at hmem
  rw [Bool.eq_iff_iff, ← hmem, Bool.and_eq_true, decide_eq_true_iff]

/-- A mask or a proposal of one direction. -/
def dirOf (rev : Bool) (p : BitVec 128 × BitVec 128) : BitVec 128 := if rev then p.2 else p.1

/-- Both ends have proposed every bundle of an agreed mask. -/
theorem agreedMask_proposed {l : Fin 41} {rev : Bool} {o : TrainObs} {s : State} {b : Nat} (h : (agreedMask l rev o s).getLsbD b = true) :
    (dirOf rev o.tx).getLsbD b = true ∧ (dirOf rev o.rx).getLsbD b = true := by
  unfold agreedMask at h
  rw [BitVec.getLsbD_ofNat, testBit_sum_two_pow] at h
  simp only [Bool.and_eq_true] at h
  obtain ⟨-, -, ⟨⟨⟨⟨⟨-, htx⟩, hrx⟩, -⟩, -⟩, -⟩, -⟩ := h
  exact ⟨htx, hrx⟩

/-! #### Training (R200 to R203) -/

/-- A link as its training leaves it. -/
def trainedLink (l : Fin 41) (o : TrainObs) (s : State) : DieLink :=
  let m0 := agreedMask l false o s
  let m1 := agreedMask l true o s
  { DieLink.reset with
    up := m0 != 0 && m1 != 0, masks := (m0, m1),
    bundles := trainedBundles l false m0 o.wires s ++ trainedBundles l true m1 o.wires s }

/-- The link is trained, before the ledger has its masks and lists. -/
def linkTrained (l : Fin 41) (o : TrainObs) (s : State) : State :=
  modLink l (fun _ => trainedLink l o s) (emit (.sb1 l.val .present) s)

/-- The ledger has the masks and lists of the training (R203). -/
def trainingRecorded (l : Fin 41) (o : TrainObs) (s : State) : State :=
  recordTraining l true (agreedMask l true o s) o.wires (recordTraining l false (agreedMask l false o s) o.wires (linkTrained l o s))

/-- The ends of a link that is up have granted their credits and sent LINK_UP. -/
def linkUpSent (l : Fin 41) (s : State) : State :=
  emitAll ((List.range 6).map (fun c => Out.sb1 l.val (.credit c (reservedCredits c))) ++ [.sb1 l.val .linkUp]) s

/-- A link that is up is logged, and its width where it is below rating. -/
def linkUpLogged (l : Fin 41) (s : State) : State := if linkBelow l (logBoth l 1 s) then logBoth l 2 (logBoth l 1 s) else logBoth l 1 s

theorem train_absent {l : Fin 41} {o : TrainObs} {s : State} (h : o.present = false) :
    train l o s = logLink l 0 0 (emit (.sb1 l.val .present) s) := by
  simp only [train, h, Bool.not_false, if_true]

theorem train_present {l : Fin 41} {o : TrainObs} {s : State} (h : o.present = true) :
    train l o s = if (trainedLink l o s).up then linkUpLogged l (linkUpSent l (trainingRecorded l o s))
      else logBoth l 0 (trainingRecorded l o s) := by
  unfold train
  extract_lets u m0 m1 bs up v w x y
  have hup : up = (trainedLink l o s).up := rfl
  rw [h, Bool.not_true, if_neg Bool.false_ne_true, hup]
  cases (trainedLink l o s).up with
  | true => rfl
  | false => rfl

theorem trainingRecorded_run (l : Fin 41) (o : TrainObs) (s : State) :
    Run [.out, .hostA, .hostB, .seq, .log, .flash] (linkTrained l o s) (trainingRecorded l o s) :=
  recordTraining_run _ _ _ _ _ (recordTraining_run _ _ _ _ _ (.refl _ _) (by decide)) (by decide)

theorem linkUpLogged_run (l : Fin 41) (s : State) : Run [.out, .hostA, .hostB, .seq, .log] s (linkUpLogged l s) := by
  have hlog : Run [.out, .hostA, .hostB, .seq, .log] s (logBoth l 1 s) := logBoth_run l 1 s (.refl _ s) (by decide)
  unfold linkUpLogged
  split
  · exact logBoth_run l 2 _ hlog (by decide)
  · exact hlog

theorem train_present_run {l : Fin 41} {o : TrainObs} {s : State} (h : o.present = true) :
    Run [.out, .hostA, .hostB, .seq, .log, .flash] (linkTrained l o s) (train l o s) := by
  have hrec := trainingRecorded_run l o s
  rw [train_present h]
  split
  · exact (linkUpLogged_run l _).lift (emitAll_run _ _ hrec (by decide)) (by decide)
  · exact logBoth_run l 0 _ hrec (by decide)

theorem train_link {l : Fin 41} {o : TrainObs} {s : State} (h : o.present = true) : (train l o s).links[l] = trainedLink l o s := by
  have hlinks : (train l o s).links = (linkTrained l o s).links := (train_present_run h).same .links rfl
  rw [hlinks]
  exact getElem_modLink ..

/-- LINK_UP goes out where the link comes up. -/
theorem linkUp_mem_train {l : Fin 41} {o : TrainObs} {s : State} (h : o.present = true) (hup : (trainedLink l o s).up = true) :
    .sb1 l.val .linkUp ∈ (train l o s).out := by
  rw [train_present h, if_pos hup]
  exact (linkUpLogged_run l _).out.subset (by simp [linkUpSent, emitAll])

theorem train_absent_run {l : Fin 41} {o : TrainObs} {s : State} (h : o.present = false) :
    Run [.out, .hostA, .hostB, .seq, .log] s (train l o s) := by
  rw [train_absent h]
  exact logLink_run _ _ _ _ (emit_run _ s (.refl _ s) (by decide)) (by decide)

theorem present_mem_train (l : Fin 41) (o : TrainObs) (s : State) : .sb1 l.val .present ∈ (train l o s).out := by
  have hsent : .sb1 l.val .present ∈ (emit (.sb1 l.val .present) s).out := by simp
  cases h : o.present with
  | false =>
    rw [train_absent h]
    exact (logEv_ports_run ..).out.subset hsent
  | true => exact (train_present_run h).out.subset hsent

theorem linkTraining_effect {l : Fin 41} {s : State} (o : TrainObs) (hends : endsReady l s = true) (hdown : s.links[l].up = false) :
    ∃ t, exec (.linkTraining l o) s = .next t ∧ (∀ k, k ≠ l → t.links[k] = s.links[k]) ∧ .sb1 l.val .present ∈ t.out ∧
      (t.links[l].up = true → .sb1 l.val .linkUp ∈ t.out) ∧
      (o.present = false → t.links = s.links ∧ t.flash = s.flash) ∧
      (o.present = true →
        (∀ b, t.links[l].masks.1.getLsbD b = true → o.tx.1.getLsbD b = true ∧ o.rx.1.getLsbD b = true) ∧
        (∀ b, t.links[l].masks.2.getLsbD b = true → o.tx.2.getLsbD b = true ∧ o.rx.2.getLsbD b = true) ∧
        t.links[l].masks = (agreedMask l false o s, agreedMask l true o s) ∧
        t.links[l].up = (t.links[l].masks.1 != 0 && t.links[l].masks.2 != 0)) := by
  refine ⟨train l o s, ?_, ?_, present_mem_train l o s, ?_⟩
  · show execLinkTraining l o s = _
    simp only [execLinkTraining, hends, hdown, Bool.not_false, Bool.and_self, if_true]
  · intro k hk
    cases h : o.present with
    | false => rw [show (train l o s).links = s.links from (train_absent_run h).same .links rfl]
    | true =>
      rw [show (train l o s).links = (linkTrained l o s).links from (train_present_run h).same .links rfl]
      exact getElem_modLink_ne hk ..
  · cases h : o.present with
    | false =>
      have hlinks : (train l o s).links = s.links := (train_absent_run h).same .links rfl
      refine ⟨fun hup => ?_, fun _ => ⟨hlinks, (train_absent_run h).same .flash rfl⟩, fun hp => Bool.noConfusion hp⟩
      rw [hlinks, hdown] at hup
      exact Bool.noConfusion hup
    | true =>
      rw [train_link h]
      exact ⟨linkUp_mem_train h, fun hp => Bool.noConfusion hp,
        fun _ => ⟨fun b => agreedMask_proposed, fun b => agreedMask_proposed, rfl, rfl⟩⟩

/-- Settles O43: training by what it leaves of the link, `train_link`, and each way in which a link goes down by `takeDown_dropped`. -/
theorem linksTrainAndDrop : Obligations.LinksTrainAndDrop := by
  unfold Obligations.LinksTrainAndDrop
  exact fun l s => ⟨linkTraining_effect, fun hup => ⟨linkDrop_effect hup, dropAck_effect hup,
    fun _ => dropAckTimeout_effect hup, fun _ => forwardedClockLoss_effect hup⟩⟩

end Sys2Proof.Proofs

/-! ### LEVEE_WINDOW, GUEST_RESET and UNIT_RESET (R212, R217, R318) -/

namespace Sys2Proof.Proofs

open Machine Laws

/-! #### What the levee alone changes beside the mailboxes -/

theorem modLevee_mailboxOnly (f : Levee → Levee) {s t : State} (h : MailboxOnly s t) : MailboxOnly (modLevee f s) (modLevee f t) :=
  congr_mailboxOnly (modLevee f) h

/-- What mailboxes keep, then a levee, then what mailboxes keep. -/
theorem mailboxOnly_of_levee {s u t : State} {f : Levee → Levee} (h : MailboxOnly s u) (k : MailboxOnly (modLevee f u) t) :
    MailboxOnly { s with levee := t.levee } t := by
  have hu : u.levee = s.levee := congr_mailboxOnly State.levee h
  have ht : t.levee = f s.levee := (congr_mailboxOnly State.levee k).trans (congrArg f hu)
  rw [ht]
  exact mailboxOnly_trans (modLevee_mailboxOnly f h) k

/-- A command that stays at work. -/
theorem holds_of_mem {mb : Mbox} {e : Bytes} {ext : EnvAnswer} {s t : State} (h : startedCmd mb e ext s ∈ t.warden.accepted) :
    Holds mb e (cmdDeadline true e s) none s t := ⟨_, h, rfl, rfl, rfl, rfl, rfl, rfl, rfl⟩

/-- A command that ends at a later instant, its work done in `w`. -/
theorem holds_finishAt_drain {mb : Mbox} {e : Bytes} {ext : EnvAnswer} {s w : State} {deadline at_ : Nat}
    (hacc : w.warden = (startedState mb e ext s).warden) (hdeadline : cmdDeadline true e s = deadline) :
    Holds mb e deadline (some { status := 0, result := 0, fault := 0, at_ := at_ }) s
      (drain mb (finishAt (startedCmd mb e ext s) 0 0 at_ w)) := by
  subst hdeadline
  exact holds_drain (holds_finishAt (hacc ▸ startedCmd_mem_startedState mb e ext s) 0 0 at_)

/-- What the mailboxes do at the end of a command leaves the rest as its work left it. -/
theorem finishAt_drain_mailboxOnly (mb : Mbox) (a : Accepted) (status result at_ : Nat) (w : State) :
    MailboxOnly w (drain mb (finishAt a status result at_ w)) :=
  mailboxOnly_trans (finishAt_mailboxOnly ..) (drain_mailboxOnly ..)

/-! #### LEVEE_WINDOW (R212) -/

/-- The record waits for the boundary. -/
def windowWaiting (e : Bytes) (s : State) : State := modLevee (fun l => { l with changes := l.changes ++ [windowArg e] }) s

theorem waitsBoundary_window {e : Bytes} (h : entOp e = 0x0303) (s : State) : waitsBoundary e s = running s := by
  simp [waitsBoundary, h]

theorem exec_leveeWindow {mb : Mbox} {e : Bytes} {s : State} (ho : Offered 0x0303 mb e s) (hl : LockedIdle s) :
    exec (.leveeWindow mb) s = .next (drain mb (runWindow (startedCmd mb e .none s)
      (if running s && s.power.gsite then windowWaiting e (startedState mb e .none s) else startedState mb e .none s))) := by
  have hop : entOp e = 0x0303 := ho.opcode
  have hu := acceptedState_mailboxOnly mb e .none s
  have hrunning : running (acceptedState mb e .none s) = running s := congr_mailboxOnly running hu
  have hpower : (acceptedState mb e .none s).power = s.power := congr_mailboxOnly State.power hu
  have heffect : acceptEffect e (acceptedState mb e .none s) =
      if running s && s.power.gsite then windowWaiting e (acceptedState mb e .none s) else acceptedState mb e .none s := by
    simp only [acceptEffect, hop, waitsBoundary_window hop, hrunning, hpower]
    rfl
  have hacc : (acceptEffect e (acceptedState mb e .none s)).warden.accepted = s.warden.accepted ++ [acceptedCmd mb e .none s] := by
    rw [heffect, ← acceptedState_accepted]
    split
    · rfl
    · rfl
  show Host.Outcome.next (fromMailbox 0x0303 mb .none s) = _
  rw [fromMailbox_of_offered ho rfl rfl, startNext_append hacc hl rfl rfl rfl]
  simp only [runOp, acceptedCmd, startedCmd, hop, Bool.false_and, Bool.false_eq_true, if_false]
  rw [heffect]
  split
  · rfl
  · rfl

theorem cmdDeadline_leveeWindow {e : Bytes} (h : entOp e = 0x0303) (s : State) : cmdDeadline true e s =
    if s.job.state = .running then max (lockedFrom s) (nextOrigin s + 1000000) else lockedFrom s + 1000000 := by
  simp [cmdDeadline, h, waitsBoundary_window h, running, boundStart, lockedFrom]

section
variable {mb : Mbox} {e : Bytes} {s : State}

/-- LEVEE_WINDOW in ordering code SE. -/
theorem leveeWindow_se (ho : Offered 0x0303 mb e s) (hl : LockedIdle s) (hg : s.power.gsite = false) :
    ∃ t, exec (.leveeWindow mb) s = .next t ∧ MailboxOnly s t ∧
      Ends mb e (if s.job.state = .running then max (lockedFrom s) (nextOrigin s + 1000000) else lockedFrom s + 1000000) 6 0 s t := by
  have hexec := exec_leveeWindow ho hl
  have hu := startedState_mailboxOnly mb e .none s
  have hsite : (startedState mb e .none s).power.gsite = false := (congrArg Power.gsite (congr_mailboxOnly State.power hu)).trans hg
  rw [hg, Bool.and_false, if_neg Bool.false_ne_true, runWindow, if_pos (by rw [hsite]; rfl)] at hexec
  obtain ⟨t, hexec, hends, ht⟩ := exec_finishes hexec rfl rfl (cmdDeadline_leveeWindow ho.opcode s)
  exact ⟨t, hexec, mailboxOnly_trans hu ht, hends⟩

/-- Nothing is wrong with the operands of a command that is not refused. -/
theorem argBad_of_granted {op : Nat} (ho : Offered op mb e s) (hrow : (cmdRow op).isSome = true) : argBad op e s = false := by
  obtain ⟨row, hrow⟩ := Option.isSome_iff_exists.mp hrow
  have hgranted := ho.granted
  rw [refusalOf_row (ho.opcode.symm ▸ hrow), ho.opcode] at hgranted
  cases hbad : argBad op e s with
  | false => rfl
  | true =>
    rw [hbad, Bool.or_true, if_pos rfl] at hgranted
    split_ifs at hgranted

theorem window_lt (ho : Offered 0x0303 mb e s) (hg : s.power.gsite = true) : (windowArg e).1 < 8 := by
  have hargs := argBad_of_granted ho rfl
  simp only [argBad, hg, Bool.true_and, Bool.or_eq_false_iff, decide_eq_false_iff_not] at hargs
  omega

/-- A stored window is what its record says, and the others stay. -/
theorem setWindow_windows {k : Nat} (hk : k < 8) (w : Window) (s : State) :
    (setWindow k w s).levee.windows[Fin.ofNat 8 k] = (if w.isOpen then w else Window.closed) ∧
      ∀ j : Fin 8, j.val ≠ k → (setWindow k w s).levee.windows[j] = s.levee.windows[j] := by
  refine ⟨Vector.getElem_set_self (Fin.ofNat 8 k).isLt, fun j hj => ?_⟩
  have hval : (Fin.ofNat 8 k).val = k := Nat.mod_eq_of_lt hk
  exact Vector.getElem_set_ne (Fin.ofNat 8 k).isLt j.isLt (by omega)

/-- LEVEE_WINDOW with a guest site, no job running: the record takes effect at once. -/
theorem leveeWindow_now (ho : Offered 0x0303 mb e s) (hl : LockedIdle s) (hg : s.power.gsite = true) (hrun : s.job.state ≠ .running) :
    ∃ t, exec (.leveeWindow mb) s = .next t ∧ MailboxOnly { s with levee := t.levee } t ∧ Ends mb e (lockedFrom s + 1000000) 0 0 s t ∧
      (windowArg e).1 < 8 ∧
      t.levee.windows[Fin.ofNat 8 (windowArg e).1] = (if (windowArg e).2.isOpen then (windowArg e).2 else Window.closed) ∧
      (∀ j : Fin 8, j.val ≠ (windowArg e).1 → t.levee.windows[j] = s.levee.windows[j]) := by
  have hexec := exec_leveeWindow ho hl
  have hu := startedState_mailboxOnly mb e .none s
  have hsite : (startedState mb e .none s).power.gsite = true := (congrArg Power.gsite (congr_mailboxOnly State.power hu)).trans hg
  have hlevee : (startedState mb e .none s).levee = s.levee := congr_mailboxOnly State.levee hu
  have hstill : running s = false := by simpa [running] using hrun
  have haux : (startedCmd mb e .none s).aux = 0 := by
    show b2n (waitsBoundary e s) = 0
    rw [waitsBoundary_window ho.opcode, hstill]
    rfl
  rw [hstill, Bool.false_and, if_neg Bool.false_ne_true, runWindow, if_neg (by rw [hsite]; exact Bool.false_ne_true),
    if_neg (fun h => h haux)] at hexec
  obtain ⟨t, hexec, hends, ht⟩ := exec_finishes hexec rfl rfl ((cmdDeadline_leveeWindow ho.opcode s).trans (if_neg hrun))
  have hlt := window_lt ho hg
  obtain ⟨hset, hothers⟩ := setWindow_windows hlt (windowArg e).2 (startedState mb e .none s)
  have htlevee : t.levee = (setWindow (windowArg e).1 (windowArg e).2 (startedState mb e .none s)).levee := congr_mailboxOnly State.levee ht
  refine ⟨t, hexec, mailboxOnly_of_levee hu ht, hends, hlt, ?_, fun j hj => ?_⟩
  · rw [htlevee]
    exact hset
  · rw [htlevee, ← hlevee]
    exact hothers j hj

/-- LEVEE_WINDOW with a guest site and a job running: the record waits for the boundary. -/
theorem leveeWindow_running (ho : Offered 0x0303 mb e s) (hl : LockedIdle s) (hg : s.power.gsite = true) (hrun : s.job.state = .running) :
    ∃ t, exec (.leveeWindow mb) s = .next t ∧
      MailboxOnly { s with levee := { s.levee with changes := s.levee.changes ++ [windowArg e] } } t ∧
      Holds mb e (max (lockedFrom s) (nextOrigin s + 1000000)) none s t := by
  have hexec := exec_leveeWindow ho hl
  have hu := startedState_mailboxOnly mb e .none s
  have hsite : (windowWaiting e (startedState mb e .none s)).power.gsite = true :=
    (congrArg Power.gsite (congr_mailboxOnly State.power hu)).trans hg
  have hrunning : running s = true := by simp [running, hrun]
  have haux : (startedCmd mb e .none s).aux ≠ 0 := by
    show b2n (waitsBoundary e s) ≠ 0
    rw [waitsBoundary_window ho.opcode, hrunning]
    exact Nat.one_ne_zero
  rw [hrunning, hg, Bool.true_and, if_pos rfl, runWindow, if_neg (by rw [hsite]; exact Bool.false_ne_true), if_pos haux] at hexec
  have hholds := holds_of_mem (t := windowWaiting e (startedState mb e .none s)) (startedCmd_mem_startedState mb e .none s)
  rw [cmdDeadline_leveeWindow ho.opcode, if_pos hrun] at hholds
  exact ⟨_, hexec, mailboxOnly_trans (modLevee_mailboxOnly (fun l => { l with changes := l.changes ++ [windowArg e] }) hu)
    (drain_mailboxOnly ..), holds_drain hholds⟩

/-! #### GUEST_RESET (R217) -/

/-- A guest in reset: what it had under way is over, and a release ends its quarantine. -/
theorem holdGuest_levee (release : Bool) (s : State) : (holdGuest release s).levee =
    { s.levee with held := [], resps := [], guestReset := true, resetUntil := s.now + 1000000,
                   quarantine := s.levee.quarantine && !release } := by
  have hdrop : (dropLinks [40] s).levee = s.levee := (dropLinks_run (flds := [.out, .links]) [40] s (.refl _ s) (by decide)).same .levee rfl
  have hfail : (failGuest (dropLinks [40] s)).levee = { s.levee with held := [], resps := [] } := by rw [failGuest_levee, hdrop]
  simp only [holdGuest, modLevee_levee, hfail]

theorem holdGuest_warden (release : Bool) (s : State) : (holdGuest release s).warden = s.warden :=
  (holdGuest_run (flds := [.out, .hostA, .hostB, .seq, .log, .memStacks, .links, .levee]) release s (.refl _ s) (by decide)).same .warden rfl

theorem exec_guestReset (ho : Offered 0x0304 mb e s) (hl : LockedIdle s) :
    exec (.guestReset mb) s = .next (drain mb (runGuestReset (startedCmd mb e .none s) (startedState mb e .none s))) :=
  exec_starts (ext := .none) (f := runGuestReset) (i := .guestReset mb) rfl ho hl rfl rfl (by decide)
    fun a t ha hop => by simp [runOp, readsData, ha, hop]

theorem cmdDeadline_guestReset {e : Bytes} (h : entOp e = 0x0304) (s : State) : cmdDeadline true e s = lockedFrom s + 200000000 := by
  simp [cmdDeadline, h, boundStart, lockedFrom]

theorem startedState_gsite (mb : Mbox) (e : Bytes) (s : State) : (startedState mb e .none s).power.gsite = s.power.gsite :=
  congrArg Power.gsite (congr_mailboxOnly State.power (startedState_mailboxOnly mb e .none s))

theorem startedState_levee (mb : Mbox) (e : Bytes) (s : State) : (startedState mb e .none s).levee = s.levee :=
  congr_mailboxOnly State.levee (startedState_mailboxOnly mb e .none s)

/-- GUEST_RESET in ordering code SE. -/
theorem guestReset_se (ho : Offered 0x0304 mb e s) (hl : LockedIdle s) (hg : s.power.gsite = false) :
    ∃ t, exec (.guestReset mb) s = .next t ∧ MailboxOnly s t ∧ Ends mb e (lockedFrom s + 200000000) 6 0 s t := by
  have hexec := exec_guestReset ho hl
  rw [runGuestReset, startedState_gsite, hg, if_neg Bool.false_ne_true] at hexec
  obtain ⟨t, hexec, hends, ht⟩ := exec_finishes hexec rfl rfl (cmdDeadline_guestReset ho.opcode s)
  exact ⟨t, hexec, mailboxOnly_trans (startedState_mailboxOnly ..) ht, hends⟩

/-- GUEST_RESET with a guest site. -/
theorem guestReset_effect (ho : Offered 0x0304 mb e s) (hl : LockedIdle s) (hg : s.power.gsite = true) :
    ∃ t, exec (.guestReset mb) s = .next t ∧ t.levee.guestReset = true ∧ t.levee.resetUntil = s.now + 1000000 ∧
      t.levee.quarantine = false ∧ t.levee.windows = s.levee.windows ∧ t.levee.held = [] ∧ t.levee.resps = [] ∧
      Holds mb e (lockedFrom s + 200000000) (some { status := 0, result := 0, fault := 0, at_ := s.now + 1000000 }) s t := by
  have hexec := exec_guestReset ho hl
  rw [runGuestReset, startedState_gsite, hg, if_pos rfl, startedState_now] at hexec
  refine ⟨_, hexec, ?_⟩
  have hlevee := congr_mailboxOnly State.levee (finishAt_drain_mailboxOnly mb (startedCmd mb e .none s) 0 0 (s.now + 1000000)
    (holdGuest true (startedState mb e .none s)))
  rw [hlevee, holdGuest_levee, startedState_now, startedState_levee, Bool.not_true, Bool.and_false]
  exact ⟨rfl, rfl, rfl, rfl, rfl, rfl, holds_finishAt_drain (holdGuest_warden ..) (cmdDeadline_guestReset ho.opcode s)⟩

end

/-! #### A compute die in reset (R318, Table 12.7) -/

/-- A die that is told to reset, before its cores forget what they were at. -/
theorem holdDie_dies (d : Fin 4) (s : State) :
    (holdDie d s).dies = s.dies.set d { s.dies[d] with inReset := true, resetUntil := s.now + 1000000 } := by
  unfold holdDie
  extract_lets u v w
  have hu : Run [.out, .cores, .memStacks, .links] s u :=
    dropWatches_run _ _ (dropLinks_run _ s (.refl _ s) (by decide)) (by decide)
  have hv : Run [.out, .cores, .memStacks, .links] s v :=
    Run.foldl hu fun i x hx => modStack_run _ _ x hx (by decide)
  have hdies : v.dies = s.dies := hv.same .dies rfl
  have hnow : v.now = s.now := hv.same .now rfl
  show v.dies.set d { v.dies[d] with inReset := true, resetUntil := v.now + 1000000 } = _
  rw [hdies, hnow]

theorem zeroStores_coreStore (d : Nat) (s : State) :
    (zeroStores d s).coreStore = memClear s.coreStore (storeKey d 0 0) (storeKey (d + 1) 0 0) := rfl

theorem holdDie_coreStore (d : Fin 4) (s : State) :
    (holdDie d s).coreStore = memClear s.coreStore (storeKey d.val 0 0) (storeKey (d.val + 1) 0 0) := by
  unfold holdDie
  extract_lets u v w
  have hu : Run [.out, .cores, .memStacks, .links] s u :=
    dropWatches_run _ _ (dropLinks_run _ s (.refl _ s) (by decide)) (by decide)
  have hv : Run [.out, .cores, .memStacks, .links] s v :=
    Run.foldl hu fun i x hx => modStack_run _ _ x hx (by decide)
  have hstore : v.coreStore = s.coreStore := hv.same .coreStore rfl
  simp only [w, zeroStores_coreStore, modDie_coreStore, hstore]

/-- The bytes of a die's core stores lie between its first key and the next die's. -/
theorem storeKey_within (d : Nat) {c off : Nat} (hc : c < 1088) (hoff : off < 393216) :
    storeKey d 0 0 ≤ storeKey d c off ∧ storeKey d c off < storeKey (d + 1) 0 0 := by
  simp only [storeKey, storeBytes]
  omega

/-! #### A stack in reset (R318, Table 12.7) -/

/-- Dirty lines of a stack in DRAM. -/
def writtenBack (i : Fin 32) (l : List CacheLine) (s : State) : State :=
  l.foldl (fun s l => { s with mem := memWrite s.mem (lineAddr i l.line) (slice l.data 0 128) }) s

theorem writtenBack_memStacks (i : Fin 32) (l : List CacheLine) (s : State) : (writtenBack i l s).memStacks = s.memStacks := by
  induction l generalizing s with
  | nil => rfl
  | cons x l ih => exact ih _

/-- The dirty lines of a stack. -/
def dirtyLines (st : Stack) : List CacheLine := (st.cache.flatMap (·.lines)).filter (·.dirty)

theorem dirtyLines_of_clean {st : Stack} (h : ∀ c ∈ st.cache, ∀ l ∈ c.lines, l.dirty = false) : dirtyLines st = [] := by
  simp only [dirtyLines, List.filter_eq_nil_iff, List.mem_flatMap]
  rintro l ⟨c, hc, hl⟩
  rw [h c hc l hl]
  exact Bool.false_ne_true

/-- The record of a stack whose dirty lines have been written back. -/
def cleaned (st : Stack) : Stack :=
  { st with writeQ := [], cache := st.cache.map fun c => { c with lines := c.lines.map fun l => { l with dirty := false } } }

theorem flushCache_eq (i : Fin 32) (s : State) : flushCache i s = modStack i cleaned (writtenBack i (dirtyLines s.memStacks[i]) s) := rfl

/-- The record of a stack in reset. -/
def stackHeld (until_ : Nat) (st : Stack) : Stack :=
  { st with
    cache := (st.cache.map fun c => { c with lines := [] }).filter fun c => !c.disabled.isEmpty,
    inReset := true, resetUntil := until_, selfRefresh := true, watch := [] }

theorem modStack_modStack (i : Fin 32) (f g : Stack → Stack) (s : State) : modStack i g (modStack i f s) = modStack i (g ∘ f) s := by
  simp [modStack]

/-- A stack in reset: its links drop, its dirty lines go to DRAM, its record is that of a stack in reset. -/
theorem holdStack_eq (i : Fin 32) (s : State) : holdStack i s =
    modStack i (stackHeld (s.now + 1000000) ∘ cleaned)
      (writtenBack i (dirtyLines s.memStacks[i]) (dropLinks [stackLink i.val] s)) := by
  have hdrop : Run [.out, .links] s (dropLinks [stackLink i.val] s) := dropLinks_run _ s (.refl _ s) (by decide)
  have hstacks : (dropLinks [stackLink i.val] s).memStacks = s.memStacks := hdrop.same .memStacks rfl
  have hnow : (flushCache i (dropLinks [stackLink i.val] s)).now = s.now :=
    ((flushCache_run (flds := [.memStacks, .mem]) i _ (.refl _ _) (by decide)).same .now rfl).trans (hdrop.same .now rfl)
  unfold holdStack
  extract_lets u
  have hu : u.now = s.now := hnow
  rw [hu]
  subst u
  rw [invalidateCache, flushCache_eq, hstacks, modStack_modStack, modStack_modStack]
  rfl

theorem holdStack_stack (i j : Fin 32) (s : State) :
    (holdStack i s).memStacks[j] = if j = i then stackHeld (s.now + 1000000) (cleaned s.memStacks[j]) else s.memStacks[j] := by
  have hdrop : (dropLinks [stackLink i.val] s).memStacks = s.memStacks :=
    (dropLinks_run (flds := [.out, .links]) _ s (.refl _ s) (by decide)).same .memStacks rfl
  have hback : (writtenBack i (dirtyLines s.memStacks[i]) (dropLinks [stackLink i.val] s)).memStacks = s.memStacks :=
    (writtenBack_memStacks ..).trans hdrop
  rw [holdStack_eq]
  by_cases hj : j = i
  · subst hj
    rw [getElem_modStack, if_pos rfl, hback]
    rfl
  · rw [getElem_modStack_ne hj, if_neg hj, hback]

/-- A stack without a dirty line writes nothing back. -/
theorem holdStack_mem_of_clean {i : Fin 32} {s : State} (h : ∀ c ∈ s.memStacks[i].cache, ∀ l ∈ c.lines, l.dirty = false) :
    (holdStack i s).mem = s.mem := by
  rw [holdStack_eq, dirtyLines_of_clean h]
  exact (dropLinks_run (flds := [.out, .links]) _ s (.refl _ s) (by decide)).same .mem rfl

/-! #### UNIT_RESET (R318) -/

section
variable {mb : Mbox} {e : Bytes} {s : State}

theorem exec_unitReset (ho : Offered 0x0305 mb e s) (hl : LockedIdle s) :
    exec (.unitReset mb) s = .next (drain mb (runUnitReset (startedCmd mb e .none s) (startedState mb e .none s))) :=
  exec_starts (ext := .none) (f := runUnitReset) (i := .unitReset mb) rfl ho hl rfl rfl (by decide)
    fun a t ha hop => by simp [runOp, readsData, ha, hop]

theorem cmdDeadline_unitReset {e : Bytes} (h : entOp e = 0x0305) (s : State) : cmdDeadline true e s = lockedFrom s + 500000000 := by
  simp [cmdDeadline, h, boundStart, lockedFrom]

/-- The command ends when the unit's hold does. -/
def UnitHeld (mb : Mbox) (e : Bytes) (s t : State) : Prop :=
  Holds mb e (lockedFrom s + 500000000) (some { status := 0, result := 0, fault := 0, at_ := s.now + 1000000 }) s t

/-- The state in which UNIT_RESET has held a unit, the unit's part done in `w`. -/
def unitResetEnd (mb : Mbox) (e : Bytes) (s w : State) : State :=
  drain mb (finishAt (startedCmd mb e .none s) 0 0 (s.now + 1000000) w)

theorem unitResetEnd_held (ho : Offered 0x0305 mb e s) {w : State} (h : w.warden = (startedState mb e .none s).warden) :
    UnitHeld mb e s (unitResetEnd mb e s w) := holds_finishAt_drain h (cmdDeadline_unitReset ho.opcode s)

theorem unitResetEnd_mailboxOnly (mb : Mbox) (e : Bytes) (s w : State) : MailboxOnly w (unitResetEnd mb e s w) :=
  finishAt_drain_mailboxOnly ..

section
variable (w : State)

@[simp] theorem unitResetEnd_dies : (unitResetEnd mb e s w).dies = w.dies := congr_mailboxOnly State.dies (unitResetEnd_mailboxOnly mb e s w)

@[simp] theorem unitResetEnd_coreStore : (unitResetEnd mb e s w).coreStore = w.coreStore :=
  congr_mailboxOnly State.coreStore (unitResetEnd_mailboxOnly mb e s w)

@[simp] theorem unitResetEnd_memStacks : (unitResetEnd mb e s w).memStacks = w.memStacks :=
  congr_mailboxOnly State.memStacks (unitResetEnd_mailboxOnly mb e s w)

@[simp] theorem unitResetEnd_mem : (unitResetEnd mb e s w).mem = w.mem := congr_mailboxOnly State.mem (unitResetEnd_mailboxOnly mb e s w)

@[simp] theorem unitResetEnd_levee : (unitResetEnd mb e s w).levee = w.levee :=
  congr_mailboxOnly State.levee (unitResetEnd_mailboxOnly mb e s w)

end

theorem unitReset_die (ho : Offered 0x0305 mb e s) (d : Fin 4) (hm : MemOk s) :
    let t := unitResetEnd mb e s (holdDie d (startedState mb e .none s))
    UnitHeld mb e s t ∧ t.dies[d].inReset = true ∧ t.dies[d].resetUntil = s.now + 1000000 ∧ (∀ k, k ≠ d → t.dies[k] = s.dies[k]) ∧
      (∀ c off, c < 1088 → off < 393216 → memGet t.coreStore (storeKey d.val c off) = 0) ∧
      (∀ a, a < storeKey d.val 0 0 ∨ storeKey (d.val + 1) 0 0 ≤ a → memGet t.coreStore a = memGet s.coreStore a) ∧ t.mem = s.mem := by
  intro t
  have hu := startedState_mailboxOnly mb e .none s
  have hrun : Run [.out, .dies, .cores, .coreStore, .memStacks, .links] (startedState mb e .none s) (holdDie d (startedState mb e .none s)) :=
    holdDie_run d _ (.refl _ _) (by decide)
  have hdies : t.dies = s.dies.set d { s.dies[d] with inReset := true, resetUntil := s.now + 1000000 } := by
    have hstart : (startedState mb e .none s).dies = s.dies := congr_mailboxOnly State.dies hu
    rw [unitResetEnd_dies, holdDie_dies, hstart, startedState_now]
  have hstore : t.coreStore = memClear s.coreStore (storeKey d.val 0 0) (storeKey (d.val + 1) 0 0) := by
    have hstart : (startedState mb e .none s).coreStore = s.coreStore := congr_mailboxOnly State.coreStore hu
    rw [unitResetEnd_coreStore, holdDie_coreStore, hstart]
  have hmem : t.mem = s.mem := by
    have hstart : (startedState mb e .none s).mem = s.mem := congr_mailboxOnly State.mem hu
    have hheld : (holdDie d (startedState mb e .none s)).mem = (startedState mb e .none s).mem := hrun.same .mem rfl
    rw [unitResetEnd_mem, hheld, hstart]
  have hself : t.dies[d] = { s.dies[d] with inReset := true, resetUntil := s.now + 1000000 } := by
    rw [hdies]
    exact Vector.getElem_set_self d.isLt
  refine ⟨unitResetEnd_held ho (hrun.same .warden rfl), by rw [hself], by rw [hself], fun k hk => ?_, fun c off hc hoff => ?_,
    fun a ha => ?_, hmem⟩
  · rw [hdies]
    exact Vector.getElem_set_ne d.isLt k.isLt fun h => hk (Fin.ext h.symm)
  · rw [hstore, memGet_memClear hm.2, if_pos (storeKey_within d.val hc hoff)]
  · rw [hstore, memGet_memClear hm.2, if_neg (by omega)]

theorem unitReset_stack (ho : Offered 0x0305 mb e s) (i : Fin 32) :
    let t := unitResetEnd mb e s (holdStack i (startedState mb e .none s))
    UnitHeld mb e s t ∧ t.memStacks[i].inReset = true ∧ t.memStacks[i].resetUntil = s.now + 1000000 ∧ t.memStacks[i].selfRefresh = true ∧
      t.memStacks[i].policy = s.memStacks[i].policy ∧ (∀ k, k ≠ i → t.memStacks[k] = s.memStacks[k]) ∧ t.coreStore = s.coreStore ∧
      ((∀ c ∈ s.memStacks[i].cache, ∀ l ∈ c.lines, l.dirty = false) → t.mem = s.mem) := by
  intro t
  have hu := startedState_mailboxOnly mb e .none s
  have hrun : Run [.out, .memStacks, .mem, .links] (startedState mb e .none s) (holdStack i (startedState mb e .none s)) :=
    holdStack_run i _ (.refl _ _) (by decide)
  have hstart : (startedState mb e .none s).memStacks = s.memStacks := congr_mailboxOnly State.memStacks hu
  have hstacks : ∀ k : Fin 32, t.memStacks[k] =
      if k = i then stackHeld (s.now + 1000000) (cleaned s.memStacks[k]) else s.memStacks[k] := fun k => by
    rw [unitResetEnd_memStacks, holdStack_stack, hstart, startedState_now]
  have hself : t.memStacks[i] = stackHeld (s.now + 1000000) (cleaned s.memStacks[i]) := (hstacks i).trans (if_pos rfl)
  rw [hself]
  refine ⟨unitResetEnd_held ho (hrun.same .warden rfl), rfl, rfl, rfl, rfl, fun k hk => (hstacks k).trans (if_neg hk), ?_, fun hclean => ?_⟩
  · have hheld : (holdStack i (startedState mb e .none s)).coreStore = (startedState mb e .none s).coreStore := hrun.same .coreStore rfl
    rw [unitResetEnd_coreStore, hheld]
    exact congr_mailboxOnly State.coreStore hu
  · rw [unitResetEnd_mem, holdStack_mem_of_clean (by rw [hstart]; exact hclean)]
    exact congr_mailboxOnly State.mem hu

theorem unitReset_guest (ho : Offered 0x0305 mb e s) :
    let t := unitResetEnd mb e s (holdGuest false (startedState mb e .none s))
    UnitHeld mb e s t ∧ t.levee.guestReset = true ∧ t.levee.quarantine = s.levee.quarantine ∧ t.levee.windows = s.levee.windows := by
  intro t
  rw [unitResetEnd_levee, holdGuest_levee, startedState_levee, Bool.not_false, Bool.and_true]
  exact ⟨unitResetEnd_held ho (holdGuest_warden ..), rfl, rfl, rfl⟩

/-- UNIT_RESET by its unit. -/
theorem unitReset_effect (ho : Offered 0x0305 mb e s) (hl : LockedIdle s) :
    ∃ t, exec (.unitReset mb) s = .next t ∧
      (∀ d : Fin 4, arg e 0 1 = 0 → arg e 1 1 = d.val → t = unitResetEnd mb e s (holdDie d (startedState mb e .none s))) ∧
      (∀ i : Fin 32, arg e 0 1 = 1 → arg e 1 1 = i.val → t = unitResetEnd mb e s (holdStack i (startedState mb e .none s))) ∧
      (arg e 0 1 = 2 → s.power.gsite = false → MailboxOnly s t ∧ Ends mb e (lockedFrom s + 500000000) 6 0 s t) ∧
      (arg e 0 1 = 2 → s.power.gsite = true → t = unitResetEnd mb e s (holdGuest false (startedState mb e .none s))) := by
  have hu := startedState_mailboxOnly mb e .none s
  have hentry : (startedCmd mb e .none s).entry = e := rfl
  refine ⟨_, exec_unitReset ho hl, fun d hunit hd => ?_, fun i hunit hi => ?_, fun hunit hg => ?_, fun hunit hg => ?_⟩
  · simp only [runUnitReset, hentry, hunit, hd, Fin.ofNat_val_eq_self, startedState_now, unitResetEnd]
  · simp only [runUnitReset, hentry, hunit, hi, Fin.ofNat_val_eq_self, startedState_now, unitResetEnd]
  · have hwork : runUnitReset (startedCmd mb e .none s) (startedState mb e .none s) =
        finish (startedCmd mb e .none s) 6 0 (startedState mb e .none s) := by
      simp only [runUnitReset, hentry, hunit, startedState_gsite, hg, Bool.false_eq_true, if_false]
    rw [hwork]
    refine ⟨mailboxOnly_trans hu (finishAt_drain_mailboxOnly ..), ?_⟩
    have hends := ends_finish (mb := mb) (startedCmd_mem_startedState mb e .none s) (startedState_now mb e .none s) 6 0
    rwa [cmdDeadline_unitReset ho.opcode] at hends
  · simp only [runUnitReset, hentry, hunit, startedState_gsite, hg, if_true, startedState_now, unitResetEnd]

end

/-- Settles O28: LEVEE_WINDOW by `exec_leveeWindow`, GUEST_RESET by `holdGuest_levee`, and UNIT_RESET by the unit that it holds,
`unitReset_effect`. -/
theorem leveeCommandsAndUnitReset : Obligations.LeveeCommandsAndUnitReset := by
  unfold Obligations.LeveeCommandsAndUnitReset
  refine ⟨fun mb e s hl => ⟨fun hg => ⟨fun ho => leveeWindow_se ho hl hg, fun ho => guestReset_se ho hl hg⟩,
    fun hg => ⟨fun ho hrun => leveeWindow_now ho hl hg hrun, fun ho hrun => leveeWindow_running ho hl hg hrun,
      fun ho => guestReset_effect ho hl hg⟩⟩, fun mb e s hl ho => ?_⟩
  obtain ⟨t, hexec, hdie, hstack, hse, hguest⟩ := unitReset_effect ho hl
  refine ⟨t, hexec, fun d hunit hd hm => ?_, fun i hunit hi => ?_, hse, fun hunit hg => ?_⟩
  · rw [hdie d hunit hd]
    exact unitReset_die ho d hm
  · rw [hstack i hunit hi]
    exact unitReset_stack ho i
  · rw [hguest hunit hg]
    exact unitReset_guest ho

end Sys2Proof.Proofs

/-! ### A guest's line read into a set whose resident line is clean (R167, R214) -/

namespace Sys2Proof.Proofs

open Machine Laws

/-! #### A guest's line read -/

/-- A request that passes its window and finds tokens and space, with none held before it, is admitted. -/
theorem guestRequest_admits {i : Fin 8} {r : GuestReq} {s : State} (hcheck : leveeCheck r s = .ok i)
    (hcan : canAdmit i r (takenResps s) = true) (hheld : ∀ h ∈ s.levee.held, h.1 ≠ i.val) :
    guestRequest r s = guestAdmit i r (takenResps s) := by
  have hnone : ((takenResps s).levee.held.any fun h => h.1 == i.val) = false :=
    List.any_eq_false.mpr fun h hmem => by simpa using hheld h hmem
  have hsame : leveeCheck r (takenResps s) = .ok i := hcheck
  simp only [guestRequest, hsame, hcan, hnone, Bool.not_false, Bool.and_self, if_true]

/-- The held request of a window is no longer held. -/
def heldTaken (w : Fin 8) (s : State) : State :=
  modLevee (fun l => { l with held := l.held.eraseP fun x => x.1 == w.val }) (takenResps s)

/-- The first held request of a window that still passes it, and finds tokens and space, is admitted. -/
theorem bucketAdmit_admits {w : Fin 8} {r : GuestReq} {s : State} (hfind : s.levee.held.find? (fun h => h.1 == w.val) = some (w.val, r))
    (hcheck : leveeCheck r s = .ok w) (hcan : canAdmit w r (takenResps s) = true) : bucketAdmit w s = guestAdmit w r (heldTaken w s) := by
  have hsame : leveeCheck r (heldTaken w s) = .ok w := hcheck
  have hroom : canAdmit w r (heldTaken w s) = true := hcan
  have hcase : bucketAdmit w s =
      match leveeCheck r (heldTaken w s) with
      | .ok i =>
        if i = w ∧ canAdmit i r (heldTaken w s) then guestAdmit i r (heldTaken w s)
        else if i = w then s else guestRequest r (heldTaken w s)
      | v => guestReject v r (heldTaken w s) := by
    simp only [bucketAdmit, hfind]
    rfl
  rw [hcase, hsame]
  exact if_pos ⟨rfl, hroom⟩

/-- A clean line read of a stack goes through its slice cache (R167). -/
theorem guestRead_stack {r : GuestReq} {i : Fin 32} {s : State} (hecc : r.ecc = .clean) (hrange : rangeOf r.addr = .stack i)
    (hcause : accessCause .guest r.addr 128 s = none) :
    guestRead r s = respond r (cacheRead i (lineNo r.addr) .none (settleRange r.addr 128 s)).1
      (cacheRead i (lineNo r.addr) .none (settleRange r.addr 128 s)).2 := by
  simp only [guestRead, hcause, hrange, hecc, sectorCheck, Bool.false_eq_true, if_false]

theorem respond_sameMemory (r : GuestReq) (data : Bytes) (s : State) : SameMemory s (respond r data s) := fun _ => rfl

/-! #### The line that is lost -/

/-- Stack 0 holds line `k` alone, clean, in a set with one way left, and DRAM holds zeros. -/
structure LoneLine (k : Nat) (s : State) : Prop where
  stack : s.memStacks[(0 : Fin 32)] = oneWayStack k
  dram : s.mem = []

section
variable {k n : Nat} {s : State}

theorem LoneLine.settled (h : LoneLine k s) (hn : n < 2 ^ 30) (len : Nat) : settleRange (128 * n) len s = s :=
  settleRange_of_no_parked (rangeOf_line hn) (by
    rw [parkedWrites, h.stack]
    rfl)

/-- A read of another line of the set brings that line in and evicts line `k`, which is not written back (R167). -/
theorem LoneLine.physGet_read (h : LoneLine k s) (hk : k < 2 ^ 30) (hne : k ≠ n) (hset : setIdx k = setIdx n) :
    physGet (cacheRead 0 n .none s).2 (128 * k) = 0 := by
  have hout : cachedLine n s.memStacks[(0 : Fin 32)] = none := by
    rw [h.stack]
    simp [cachedLine, cacheSetOf_oneWayStack hset, oneWaySet, hne]
  have hread : (cacheRead 0 n .none s).2 = cacheInsert 0 ⟨n, 0, lineData 0 n s, false, false⟩ true s := by
    simp only [cacheRead, hout]
    rfl
  obtain ⟨w, hins⟩ := cacheInsert_evicts_clean (i := 0) (s := s) (c := oneWaySet k) (l := ⟨n, 0, lineData 0 n s, false, false⟩)
    (by rw [h.stack, cacheSetOf_oneWayStack hset]) rfl (by rw [h.stack]; rfl) hne rfl rfl rfl
  rw [hread, hins]
  simp only [physGet, rangeOf_line hk, lineNo_line hk, getElem_modStack, h.stack]
  simp [cachedLine, cacheSetOf, oneWayStack, oneWaySet, putSet, hne.symm, h.dram, memGet]

/-- The guest reads line `n` of stack 0. -/
def guestLineRead (n : Nat) : GuestReq :=
  { id := 1, op := .lineRead, addr := 128 * n, len := 128, addrs := [], data := [], queue := 0, ecc := .clean }

/-- Admitted, the read makes line `k` read as zeros. -/
theorem LoneLine.physGet_admit (h : LoneLine k s) (hk : k < 2 ^ 30) (hn : n < 2 ^ 30) (hne : k ≠ n) (hset : setIdx k = setIdx n)
    (hcause : accessCause .guest (128 * n) 128 s = none) (i : Fin 8) : physGet (guestAdmit i (guestLineRead n) s) (128 * k) = 0 := by
  unfold guestAdmit
  extract_lets b
  generalize hu : modLevee (fun l => { l with buckets := l.buckets.set i b }) s = u
  have hlone : LoneLine k u := by subst hu; exact ⟨h.stack, h.dram⟩
  have hreach : accessCause .guest (128 * n) 128 u = none := by subst hu; exact hcause
  have hrun : guestRun (guestLineRead n) u = respond (guestLineRead n) (cacheRead 0 n .none u).1 (cacheRead 0 n .none u).2 := by
    have hread := guestRead_stack (r := guestLineRead n) rfl (rangeOf_line hn) hreach
    rw [show (guestLineRead n).addr = 128 * n from rfl, hlone.settled hn, lineNo_line hn] at hread
    exact hread
  rw [hrun, respond_sameMemory, hlone.physGet_read hk hne hset]

end

/-! #### The package -/

/-- A memory window on stack 0 that permits line reads. -/
def readWindow : Window := { Window.closed with isOpen := true, read := true, size := 2 ^ 37 }

/-- The package of `evictingNow k n` with a guest site, whose window 0 is open for reads of stack 0 and has the tokens of one line. -/
def guestEvicting (k n : Nat) (held : List (Nat × GuestReq)) : State :=
  { evictingNow k n with
    power := { (evictingNow k n).power with gsite := true }
    levee :=
      { Levee.reset with
        guestReset := false, held := held, buckets := Vector.replicate 8 { level := 128000, asOf := 0 },
        windows := Levee.reset.windows.set 0 readWindow } }

section
variable {k n : Nat} (held : List (Nat × GuestReq))

theorem guestEvicting_loneLine : LoneLine k (guestEvicting k n held) := ⟨evictingNow_stack k n 0, evictingNow_mem k n⟩

theorem guestEvicting_cachesOk (hk : k < 2 ^ 30) : CachesOk (guestEvicting k n held) := evictingNow_cachesOk hk n

theorem guestUp_guestEvicting : guestUp (guestEvicting k n held) = true := rfl

theorem physGet_guestEvicting (hk : k < 2 ^ 30) : physGet (guestEvicting k n held) (128 * k) = 1 := physGet_evictingNow n hk

theorem accessCause_guestEvicting (hn : n < 2 ^ 30) : accessCause .guest (128 * n) 128 (guestEvicting k n held) = none := by
  have hlast : (128 * n + 128 - 1) / 2 ^ 37 = 0 := by omega
  have hrange : rangeOf (128 * n + 128 - 1) = .stack 0 := by
    simp only [rangeOf, hlast]
    rfl
  have hpath : pathOk .guest 0 (guestEvicting k n held) = true := rfl
  have hstack : (guestEvicting k n held).memStacks[(0 : Fin 32)] = oneWayStack k := (guestEvicting_loneLine held).stack
  simp only [accessCause, rangeOf_line hn, hrange, ne_eq, not_true_eq_false, if_false, hstack, hpath]
  rfl

theorem guestEvicting_window : (guestEvicting k n held).levee.windows[(0 : Fin 8)] = readWindow := rfl

theorem windowAt_guestEvicting (hn : n < 2 ^ 30) : windowAt (128 * n) (guestEvicting k n held) = some 0 := by
  have hin : 0 ≤ 128 * n ∧ 128 * n < 0 + 2 ^ 37 := by omega
  unfold windowAt
  rw [List.finRange_succ]
  refine List.find?_cons_of_pos ?_
  simp only [guestEvicting_window, readWindow, Window.closed, hin, and_self, decide_true, Bool.not_false, Bool.and_self]

theorem leveeCheck_guestEvicting (hn : n < 2 ^ 30) : leveeCheck (guestLineRead n) (guestEvicting k n held) = .ok 0 := by
  have hform : guestMalformed (guestLineRead n) = false := by simp [guestMalformed, guestLineRead]
  have hparts : guestParts (guestLineRead n) = [(128 * n, 128)] := rfl
  have hin : readWindow.base ≤ 128 * n ∧ 128 * n + 128 ≤ readWindow.base + readWindow.size := by
    simp only [readWindow, Window.closed]
    omega
  have hpermits : permits readWindow (guestLineRead n).op = true := rfl
  have hmemory : onQueue (guestLineRead n).op = false := rfl
  simp only [leveeCheck, hform, hmemory, hparts, List.headD_cons, windowAt_guestEvicting held hn, guestEvicting_window, List.all_cons,
    List.all_nil, hin, and_self, decide_true, Bool.and_self, hpermits, Bool.not_true, Bool.false_eq_true, if_false]

theorem bucketNow_guestEvicting : bucketNow 0 (takenResps (guestEvicting k n held)) = 128000 := by
  show min 4096000 (128000 + 0 * (0 - 0)) = 128000
  decide

theorem canAdmit_guestEvicting : canAdmit 0 (guestLineRead n) (takenResps (guestEvicting k n held)) = true := by
  have hresps : (takenResps (guestEvicting k n held)).levee.resps = [] := rfl
  simp only [canAdmit, bucketNow_guestEvicting, hresps, guestBytes, guestSpace, guestLineRead, List.map_nil, List.sum_nil]
  decide

end

/-- Refutes O44, as O37 is refuted: `CachesOk` does not ask that the clean lines of a slice cache hold what DRAM holds. In
`guestEvicting k n []` line `k` reads as ones and is clean; the guest's read of line `n` of the same set brings that line into the cache and
evicts line `k`, which is not written back (R167) and reads as zeros afterwards, although the statement says that a read changes no byte. -/
theorem not_guestRequests : ¬ Obligations.GuestRequests := by
  unfold Obligations.GuestRequests
  intro h
  obtain ⟨k, hk, n, hn, hne, hset⟩ := exists_lines_same_set
  have hcheck := leveeCheck_guestEvicting (k := k) [] hn
  have hcan := canAdmit_guestEvicting (k := k) (n := n) []
  have hcause := accessCause_guestEvicting (k := k) [] hn
  obtain ⟨hpasses, -⟩ := h (guestLineRead n) (guestEvicting k n []) (guestUp_guestEvicting []) (guestEvicting_cachesOk [] hk)
  obtain ⟨-, -, hadmitted, -⟩ := hpasses 0 hcheck
  obtain ⟨-, hread, -⟩ := hadmitted hcan nofun
  obtain ⟨t, hexec, hsame, -⟩ := hread 0 rfl rfl (rangeOf_line hn) hcause
  have hserved : exec (.guestRequest (guestLineRead n)) (guestEvicting k n []) =
      .next (guestAdmit 0 (guestLineRead n) (takenResps (guestEvicting k n []))) :=
    congrArg Host.Outcome.next (guestRequest_admits hcheck hcan nofun)
  obtain rfl := Host.Outcome.next.inj (hserved.symm.trans hexec)
  have hbyte := hsame (128 * k)
  have hlone := guestEvicting_loneLine (k := k) (n := n) []
  rw [show (guestLineRead n).addr = 128 * n from rfl, hlone.settled hn, physGet_guestEvicting [] hk,
    LoneLine.physGet_admit (s := takenResps (guestEvicting k n [])) ⟨hlone.stack, hlone.dram⟩ hk hn hne hset hcause 0] at hbyte
  exact absurd hbyte (by decide)

/-- Refutes O45, as O44 is refuted: in `guestEvicting k n [(0, guestLineRead n)]` the guest's read of line `n` is held, and its admission
evicts line `k`, which is clean, is not what DRAM holds, and reads as zeros afterwards. -/
theorem not_leveeWindowsAndTimers : ¬ Obligations.LeveeWindowsAndTimers := by
  unfold Obligations.LeveeWindowsAndTimers
  rintro ⟨-, h⟩
  obtain ⟨k, hk, n, hn, hne, hset⟩ := exists_lines_same_set
  have hcheck := leveeCheck_guestEvicting (k := k) [(0, guestLineRead n)] hn
  have hcan := canAdmit_guestEvicting (k := k) (n := n) [(0, guestLineRead n)]
  have hcause := accessCause_guestEvicting (k := k) [(0, guestLineRead n)] hn
  obtain ⟨hadmit, -⟩ := h (guestEvicting k n [(0, guestLineRead n)])
  obtain ⟨t, hexec, -, hsame, -⟩ := hadmit 0 (guestLineRead n) 0 (guestUp_guestEvicting _) (guestEvicting_cachesOk _ hk) rfl hcheck hcan rfl rfl
    (rangeOf_line hn) hcause
  have hserved : exec (.guestBucketAdmit 0) (guestEvicting k n [(0, guestLineRead n)]) =
      .next (guestAdmit 0 (guestLineRead n) (heldTaken 0 (guestEvicting k n [(0, guestLineRead n)]))) :=
    congrArg Host.Outcome.next (bucketAdmit_admits rfl hcheck hcan)
  obtain rfl := Host.Outcome.next.inj (hserved.symm.trans hexec)
  have hbyte := hsame (128 * k)
  have hlone := guestEvicting_loneLine (k := k) (n := n) [(0, guestLineRead n)]
  rw [show (guestLineRead n).addr = 128 * n from rfl, hlone.settled hn, physGet_guestEvicting _ hk,
    LoneLine.physGet_admit (s := heldTaken 0 (guestEvicting k n [(0, guestLineRead n)])) ⟨hlone.stack, hlone.dram⟩ hk hn hne hset hcause 0]
    at hbyte
  exact absurd hbyte (by decide)

end Sys2Proof.Proofs

/-! ### One nanosecond (R248) -/

namespace Sys2Proof.Proofs

open Machine Laws

theorem tideTick_stopped {t : Tide} (h : t.running = false) (now : Nat) : tideTick now t = t := by
  simp only [tideTick, h, Bool.not_false, if_true]

theorem tideTick_counts {t : Tide} {now : Nat} (h : t.running = true) (hslew : now % 1000 ≠ 0 ∨ t.slew = 0) :
    tideTick now t = { t with count := t.count + 1 } := by
  have hplain : ¬(now % 1000 = 0 ∧ t.slew ≠ 0) := by omega
  simp [tideTick, h, hplain]

theorem tideTick_slews {t : Tide} {now : Nat} (h : t.running = true) (hnow : now % 1000 = 0) (hslew : t.slew ≠ 0) :
    tideTick now t =
      if 0 < t.slew then { t with count := t.count + 2, slew := t.slew - 1 } else { t with slew := t.slew + 1 } := by
  simp [tideTick, h, hnow, hslew]

/-- Settles O2: the step is `tick`, and a slew moves the count by at most 1 ns in each microsecond. -/
theorem idleStepIsOneNanosecond : Obligations.IdleStepIsOneNanosecond := by
  unfold Obligations.IdleStepIsOneNanosecond
  intro s hidle
  have hstep : step s = .next (tick s) := by simp only [step, hidle]
  refine ⟨tick s, hstep, rfl, fun h => tideTick_stopped h _, fun h => ⟨fun hslew => tideTick_counts h hslew, fun hnow hslew => ?_,
    fun hnow hslew => ?_⟩⟩
  · exact (tideTick_slews h hnow hslew.ne').trans (if_pos hslew)
  · exact (tideTick_slews h hnow hslew.ne).trans (if_neg (by omega))

end Sys2Proof.Proofs

/-! ### What sending leaves of the fabric ports (R221, R222) -/

namespace Sys2Proof.Proofs

open Machine Laws

/-- Between `s` and `t` the fabric ports have sent at most: their frame numbers, the frames they keep and the credits in use may differ. -/
def PortsSend (s t : State) : Prop := ∀ q, ∃ n l c, fabOf q t = { fabOf q s with txSeq := n, tx := l, used := c }

section
variable {s t u : State} {p q : FPort}

theorem PortsSend.refl (s : State) : PortsSend s s := fun _ => ⟨_, _, _, rfl⟩

theorem PortsSend.trans (h : PortsSend s t) (k : PortsSend t u) : PortsSend s u := fun q => by
  obtain ⟨n, l, c, hq⟩ := h q
  obtain ⟨n', l', c', kq⟩ := k q
  exact ⟨n', l', c', by rw [kq, hq]⟩

theorem fabOf_congr (h : t.fabric = s.fabric) (q : FPort) : fabOf q t = fabOf q s := by rw [fabOf, fabOf, h]

theorem PortsSend.of_fabric (h : t.fabric = s.fabric) : PortsSend s t := fun q => ⟨_, _, _, fabOf_congr h q⟩

theorem PortsSend.of_run {flds : List StateField} (h : Run flds s t) (hf : flds.contains .fabric = false) : PortsSend s t :=
  .of_fabric (h.same .fabric hf)

theorem PortsSend.ite {c : Prop} [Decidable c] (ht : PortsSend s t) (hu : PortsSend s u) : PortsSend s (if c then t else u) := by
  split
  · exact ht
  · exact hu

theorem PortsSend.foldl {α : Type} {f : State → α → State} (hf : ∀ s a, PortsSend s (f s a)) (l : List α) (s : State) :
    PortsSend s (l.foldl f s) := by
  induction l generalizing s with
  | nil => exact .refl s
  | cons a l ih => exact (hf s a).trans (ih _)

theorem PortsSend.up (h : PortsSend s t) (q : FPort) : (fabOf q t).up = (fabOf q s).up := by
  obtain ⟨n, l, c, hq⟩ := h q
  rw [hq]

theorem PortsSend.half (h : PortsSend s t) (q : FPort) : (fabOf q t).half = (fabOf q s).half := by
  obtain ⟨n, l, c, hq⟩ := h q
  rw [hq]

theorem PortsSend.rxSeq (h : PortsSend s t) (q : FPort) : (fabOf q t).rxSeq = (fabOf q s).rxSeq := by
  obtain ⟨n, l, c, hq⟩ := h q
  rw [hq]

theorem PortsSend.inbox (h : PortsSend s t) (q : FPort) : (fabOf q t).inbox = (fabOf q s).inbox := by
  obtain ⟨n, l, c, hq⟩ := h q
  rw [hq]

theorem PortsSend.drops (h : PortsSend s t) (q : FPort) : (fabOf q t).drops = (fabOf q s).drops := by
  obtain ⟨n, l, c, hq⟩ := h q
  rw [hq]

end

/-! #### Frames and messages that go out -/

/-- A port once it has sent frame `n` with a payload. -/
def framed (n : Nat) (pl : Bytes) (f : FabPort) : FabPort :=
  let c := pieceCredits pl
  { f with txSeq := f.txSeq + 1, tx := (f.tx ++ [(n, pl, 1)]).drop (f.tx.length + 1 - 256),
           used := setCredits c.1 c.2.1 (creditsUsed c.1 c.2.1 f.used + c.2.2) f.used }

theorem fabOf_sendFrame (p q : FPort) (pl : Bytes) (ret : Nat × Bool × Nat) (s : State) :
    fabOf q (sendFrame p pl ret s) = fabOf q (modFab p (framed (fabOf p s).txSeq.toNat pl) s) := rfl

theorem fabOf_sendFrame_ne {p q : FPort} (h : q ≠ p) (pl : Bytes) (ret : Nat × Bool × Nat) (s : State) :
    fabOf q (sendFrame p pl ret s) = fabOf q s := (fabOf_sendFrame p q pl ret s).trans (fabOf_modFab_ne h _ s)

theorem sendFrame_portsSend (p : FPort) (pl : Bytes) (ret : Nat × Bool × Nat) (s : State) : PortsSend s (sendFrame p pl ret s) := fun q => by
  by_cases h : q = p
  · subst h
    exact ⟨_, _, _, (fabOf_sendFrame q q pl ret s).trans (fabOf_modFab q _ s)⟩
  · exact ⟨_, _, _, fabOf_sendFrame_ne h pl ret s⟩

/-- The frame of a payload goes out with its number and its CRC. -/
theorem frame_mem_sendFrame (p : FPort) (pl : Bytes) (ret : Nat × Bool × Nat) (s : State) :
    ∃ q crc, .frame p q pl ret crc ∈ (sendFrame p pl ret s).out :=
  ⟨_, _, List.mem_append_right _ (List.mem_singleton_self _)⟩

theorem sendOn_portsSend (p : FPort) (m : Msg) (s : State) : PortsSend s (sendOn p m s) := by
  unfold sendOn
  exact .ite ((PortsSend.of_fabric (t := emit (.msg p m) s) rfl).trans (.foldl (fun t f => sendFrame_portsSend p f noReturn t) _ _)) (.refl s)

theorem fabOf_sendOn_ne {p q : FPort} (h : q ≠ p) (m : Msg) (s : State) : fabOf q (sendOn p m s) = fabOf q s := by
  have hfold : ∀ (l : List Bytes) (t : State), fabOf q (l.foldl (fun s f => sendFrame p f noReturn s) t) = fabOf q t := fun l => by
    induction l with
    | nil => exact fun _ => rfl
    | cons f l ih => exact fun t => (ih _).trans (fabOf_sendFrame_ne h f noReturn t)
  unfold sendOn
  split
  · exact hfold _ _
  · rfl

/-- A message goes out on a port that is up. -/
theorem msg_mem_sendOn {p : FPort} {s : State} (h : (fabOf p s).up = true) (m : Msg) : .msg p m ∈ (sendOn p m s).out := by
  have hframes : Run [.out, .fabric] (emit (.msg p m) s) (sendOn p m s) := by
    rw [sendOn, if_pos h]
    exact .foldl (.refl _ _) fun f x hx => sendFrame_run p f noReturn x hx (by decide)
  exact hframes.out.subset (List.mem_append_right _ (List.mem_singleton_self _))

theorem sendAxis_portsSend (axis : Nat) (plus : Bool) (m : Msg) (s : State) : PortsSend s (sendAxis axis plus m s) :=
  sendOn_portsSend _ _ s

theorem sendLog_portsSend (m : Msg) (s : State) : PortsSend s (sendLog m s) := by
  unfold sendLog
  split
  · exact .refl s
  · exact sendAxis_portsSend _ _ m s

theorem sendPhys_portsSend (m : Msg) (s : State) : PortsSend s (sendPhys m s) := by
  unfold sendPhys
  split
  · exact sendOn_portsSend _ _ s
  · split
    · exact .refl s
    · exact sendOn_portsSend _ _ s

theorem sendMsg_portsSend (m : Msg) (s : State) : PortsSend s (sendMsg m s) := .ite (sendPhys_portsSend m s) (sendLog_portsSend m s)

theorem bcastAxis_portsSend (m : Msg) (s0 s : State) (axis : Nat) : PortsSend s (bcastAxis m s0 s axis) := by
  unfold bcastAxis
  extract_lets len ring pos s1
  have h1 : PortsSend s s1 := .ite (sendAxis_portsSend _ _ _ s) (.refl s)
  exact .ite (h1.trans (sendAxis_portsSend _ _ _ s1)) h1

theorem peerBcast_portsSend (op step : Nat) (args : Bytes) (s : State) : PortsSend s (peerBcast op step args s) :=
  .foldl (bcastAxis_portsSend _ s) _ s

/-- A failure is announced by a broadcast and changes no port otherwise. -/
theorem failPackage_portsSend (code status fault : Nat) (s : State) : PortsSend s (failPackage code status fault s) := by
  have hrest : ∀ t, PortsSend t (overtake status fault (setJob .failed (abandonTasks (abortSlot t)))) := fun t =>
    .of_run (flds := [.out, .hostA, .hostB, .warden, .seq, .log, .job, .exec, .cores, .memStacks, .twin, .inspect])
      (overtake_run _ _ _ (setJob_run _ _ (abandonTasks_run _ (abortSlot_run t (.refl _ t) (by decide)) (by decide)) (by decide)) (by decide)) rfl
  have hsend := peerBcast_portsSend 0x8020 s.job.cstep (failArgs (logId s) code s.job.cstep) s
  unfold failPackage
  split
  · exact .refl s
  · exact .refl s
  · exact hrest s
  · exact (hsend.trans (PortsSend.of_fabric (t := noteFailure _) rfl)).trans (hrest _)

theorem reportOther_portsSend (id code : Nat) (s : State) : PortsSend s (reportOther id code s) :=
  (peerBcast_portsSend _ _ _ s).trans
    (.of_run (flds := [.out, .hostA, .hostB, .warden, .seq, .log, .job, .exec, .cores, .memStacks, .twin, .inspect])
      (receiveFail_run _ _ _ (.refl _ _) (by decide)) rfl)

/-- A `Run` over the outputs and the fabric, as the one record update that it is. -/
theorem eq_send_upd {s t : State} (h : Run [.out, .fabric] s t) : t = { s with out := t.out, fabric := t.fabric } := by
  have hpeer := eq_peer_upd (h.mono (by decide))
  rwa [show t.inspect = s.inspect from h.same .inspect rfl] at hpeer

/-! #### Ports that go down or change half -/

theorem logPort_portsSend (p : FPort) (lane : Nat) (s : State) : PortsSend s (logPort p lane s) :=
  .of_run (logPort_run (flds := [.out, .hostA, .hostB, .seq, .log]) p lane s (.refl _ s) (by decide)) rfl

/-- A port that is taken down is down, whatever the job makes of it. -/
theorem portDown_down (p : FPort) (lane : Nat) (s : State) : (fabOf p (portDown p lane s)).up = false := by
  unfold portDown
  split
  next h => simpa using h
  next =>
    extract_lets fresh s1 s2
    have h1 : (fabOf p s1).up = false := by
      rw [fabOf_modFab]
      rfl
    have h2 : (fabOf p s2).up = false := ((logPort_portsSend p lane s1).up p).trans h1
    split
    · split
      · exact ((failPackage_portsSend _ _ _ s2).up p).trans h2
      · exact ((reportOther_portsSend _ _ s2).up p).trans h2
    · exact h2

end Sys2Proof.Proofs

/-! ### Frames, their retries, and the messages they bring (R221, R222, R231, R234) -/

namespace Sys2Proof.Proofs

open Machine Laws

/-! #### A frame that is taken in -/

section
variable {p : FPort} {f : Frame} {s : State}

theorem exec_fabricFrame (h : (fabOf p s).up = true) (f : Frame) :
    exec (.fabricFrame p f) s = .next (if frameOk p f s then goodFrame p f s else badFrame p f.seq s) := by
  show Host.Outcome.next (if !(fabOf p s).up then s else if frameOk p f s then goodFrame p f s else badFrame p f.seq s) = _
  rw [h]
  rfl

theorem exec_fabricFrame_good (h : (fabOf p s).up = true) (hok : frameOk p f s = true) :
    exec (.fabricFrame p f) s = .next (goodFrame p f s) := by rw [exec_fabricFrame h, if_pos hok]

theorem exec_fabricFrame_bad (h : (fabOf p s).up = true) (hok : frameOk p f s = false) :
    exec (.fabricFrame p f) s = .next (badFrame p f.seq s) := by rw [exec_fabricFrame h, hok]; rfl

/-- The port once the frame expected has arrived: it expects the next one, and its credit return is taken. -/
def nextExpected (p : FPort) (f : Frame) (s : State) : State :=
  takeCredits p f.ret (modFab p (fun k => { k with rxSeq := k.rxSeq + 1, fails := 0, naked := false }) s)

theorem fabOf_nextExpected (p : FPort) (f : Frame) (s : State) :
    ∃ c, fabOf p (nextExpected p f s) = { fabOf p s with rxSeq := (fabOf p s).rxSeq + 1, fails := 0, naked := false, used := c } :=
  ⟨_, by rw [nextExpected, takeCredits, fabOf_modFab, fabOf_modFab]⟩

theorem nextExpected_run (p : FPort) (f : Frame) (s : State) : Run [.fabric] s (nextExpected p f s) :=
  takeCredits_run _ _ _ (modFab_run _ _ s (.refl _ s) (by decide)) (by decide)

theorem goodFrame_outOfTurn (h : f.seq ≠ (fabOf p s).rxSeq) : goodFrame p f s = s := by simp only [goodFrame, if_pos h]

theorem goodFrame_next (hseq : f.seq = (fabOf p s).rxSeq) (hnak : f.nak = false) :
    goodFrame p f s = takePiece p (slice f.payload 0 496) (nextExpected p f s) := by
  simp [goodFrame, hseq, hnak, nextExpected]

theorem takePiece_idle {pl : Bytes} (h : (field pl 0 1).testBit 6 = true) (s : State) : takePiece p pl s = s := by
  simp [takePiece, bit, h]

/-- The class of a piece (Table 9.8). -/
theorem bits_class (d : Nat) : bits d 2 0 = d % 8 := by simp [bits]

/-- A first piece that may come finds no part of a message before it (R222). -/
theorem no_part_of_frameOk (h : frameOk p f s = true) (hidle : (field (slice f.payload 0 496) 0 1).testBit 6 = false)
    (hfirst : (field (slice f.payload 0 496) 0 1).testBit 4 = true) :
    (fabOf p s).parts.any (isPart (field (slice f.payload 0 496) 0 1 % 8) ((field (slice f.payload 0 496) 0 1).testBit 3)) = false := by
  rw [← bits_class]
  simp only [frameOk, pieceOk, bit, hidle, hfirst, Bool.and_eq_true, Bool.false_eq_true, if_false] at h
  obtain ⟨-, -, -, hopen⟩ := h
  simpa [bit] using hopen

end

/-! #### A whole message in one frame -/

section
variable {p : FPort} {cls : Nat} {sub : Bool} {bs : Bytes} {s t : State}

theorem dropCause_congr (h : t.job = s.job) (cls : Nat) (sub : Bool) (bs : Bytes) : dropCause cls sub bs t = dropCause cls sub bs s := by
  unfold dropCause jobLoaded
  rw [h]

theorem forMe_congr (hjob : t.job = s.job) (hpower : t.power = s.power) (m : Msg) : forMe m t = forMe m s := by
  simp only [forMe, physId, logId, hjob, hpower]

theorem takeMsg_dropped {c : Nat} (h : dropCause cls sub bs s = some c) : takeMsg p cls sub bs s = dropMsg p c bs s := by
  simp only [takeMsg, h]

theorem takeMsg_delivered (h : dropCause cls sub bs s = none) (hme : forMe (parseMsg bs) s = true) :
    takeMsg p cls sub bs s = deliver p (parseMsg bs) s := by
  simp only [takeMsg, h, hme, if_true]

theorem takeMsg_forwarded (h : dropCause cls sub bs s = none) (hme : forMe (parseMsg bs) s = false) :
    takeMsg p cls sub bs s = sendMsg (parseMsg bs) s := by
  simp only [takeMsg, h, hme, Bool.false_eq_true, if_false]

theorem fabOf_dropMsg (p : FPort) (cause : Nat) (bs : Bytes) (s : State) :
    fabOf p (dropMsg p cause bs s) = { fabOf p s with drops := (fabOf p s).drops + 1 } :=
  (fabOf_congr ((logEv_ports_run ..).same .fabric rfl) p).trans (fabOf_modFab p _ s)

/-- Event 0x0033 names the TYPE of the message and why it is dropped (Table 9.9). -/
theorem dropMsg_logged (p : FPort) {cause : Nat} (hcause : cause < 2 ^ 64) (bs : Bytes) (s : State) :
    ∃ l ∈ (dropMsg p cause bs s).log, l.seq = s.seq + 1 ∧ l.code = 0x0033 ∧ l.d0 = field bs 0 1 % 2 ^ 64 ∧ l.d3 = cause :=
  ⟨_, eventEntry_mem_logEv .., rfl, rfl, rfl, Nat.mod_eq_of_lt hcause⟩

/-- A message that its port takes in leaves the frames of the port as they are. -/
theorem takeMsg_port (p : FPort) (cls : Nat) (sub : Bool) (bs : Bytes) (s : State) :
    (fabOf p (takeMsg p cls sub bs s)).up = (fabOf p s).up ∧ (fabOf p (takeMsg p cls sub bs s)).rxSeq = (fabOf p s).rxSeq := by
  cases hdrop : dropCause cls sub bs s with
  | some c => rw [takeMsg_dropped hdrop, fabOf_dropMsg]; exact ⟨rfl, rfl⟩
  | none =>
    cases hme : forMe (parseMsg bs) s with
    | true => rw [takeMsg_delivered hdrop hme, deliver, fabOf_modFab]; exact ⟨rfl, rfl⟩
    | false =>
      rw [takeMsg_forwarded hdrop hme]
      exact ⟨(sendMsg_portsSend _ s).up p, (sendMsg_portsSend _ s).rxSeq p⟩

/-- The port with no part of a message of a class and sub-channel. -/
def partTaken (p : FPort) (cls : Nat) (sub : Bool) (s : State) : State :=
  modFab p (fun f => { f with parts := f.parts.filter fun x => !isPart cls sub x }) s

/-- A piece that is a whole message is taken in as one, and an idle frame returns its credits (log entry 70). -/
theorem takePiece_whole {pl : Bytes} (hidle : (field pl 0 1).testBit 6 = false) (hlast : (field pl 0 1).testBit 5 = true)
    (hopen : (fabOf p s).parts.any (isPart (field pl 0 1 % 8) ((field pl 0 1).testBit 3)) = false) (hup : (fabOf p s).up = true) :
    takePiece p pl s = sendFrame p idlePayload (field pl 0 1 % 8, (field pl 0 1).testBit 3, (field pl 2 2 + 63) / 64)
      (takeMsg p (field pl 0 1 % 8) ((field pl 0 1).testBit 3) (slice pl 4 (field pl 2 2))
        (partTaken p (field pl 0 1 % 8) ((field pl 0 1).testBit 3) s)) := by
  have hnone : (fabOf p s).parts.find? (isPart (field pl 0 1 % 8) ((field pl 0 1).testBit 3)) = none := by simpa using hopen
  have hcredits : pieceCredits pl = (field pl 0 1 % 8, (field pl 0 1).testBit 3, (field pl 2 2 + 63) / 64) := by
    simp [pieceCredits, bits_class, bit, hidle, cdiv]
  have hstays : (fabOf p (takeMsg p (field pl 0 1 % 8) ((field pl 0 1).testBit 3) (slice pl 4 (field pl 2 2))
      (partTaken p (field pl 0 1 % 8) ((field pl 0 1).testBit 3) s))).up = true := by
    rw [(takeMsg_port ..).1, partTaken, fabOf_modFab]
    exact hup
  simp only [takePiece, bit, hidle, hlast, bits_class, hnone, hcredits, Bool.false_eq_true, if_false, if_true, Option.map_none,
    Option.getD_none, List.nil_append]
  exact if_pos hstays

end

/-- `v` differs from `s` in the port `p` alone, which has counted the frame that it expected. -/
structure FrameCounted (p : FPort) (s v : State) : Prop where
  run : Run [.fabric] s v
  up : (fabOf p v).up = (fabOf p s).up
  rxSeq : (fabOf p v).rxSeq = (fabOf p s).rxSeq + 1
  drops : (fabOf p v).drops = (fabOf p s).drops
  inbox : (fabOf p v).inbox = (fabOf p s).inbox

theorem partTaken_counted (p : FPort) (f : Frame) (cls : Nat) (sub : Bool) (s : State) :
    FrameCounted p s (partTaken p cls sub (nextExpected p f s)) := by
  obtain ⟨c, hport⟩ := fabOf_nextExpected p f s
  have hv : fabOf p (partTaken p cls sub (nextExpected p f s)) = _ := fabOf_modFab p _ _
  rw [hport] at hv
  exact ⟨modFab_run _ _ _ (nextExpected_run p f s) (by decide), by rw [hv], by rw [hv], by rw [hv], by rw [hv]⟩

/-- A good frame that is the next, with a whole message: the message is taken in where the port has counted the frame. -/
theorem goodFrame_whole {p : FPort} {f : Frame} {pl : Bytes} {s : State} (hpl : slice f.payload 0 496 = pl) (hup : (fabOf p s).up = true)
    (hok : frameOk p f s = true) (hseq : f.seq = (fabOf p s).rxSeq) (hnak : f.nak = false) (hidle : (field pl 0 1).testBit 6 = false)
    (hfirst : (field pl 0 1).testBit 4 = true) (hlast : (field pl 0 1).testBit 5 = true) :
    ∃ v, FrameCounted p s v ∧
      goodFrame p f s = sendFrame p idlePayload (field pl 0 1 % 8, (field pl 0 1).testBit 3, (field pl 2 2 + 63) / 64)
        (takeMsg p (field pl 0 1 % 8) ((field pl 0 1).testBit 3) (slice pl 4 (field pl 2 2)) v) := by
  subst hpl
  obtain ⟨c, hport⟩ := fabOf_nextExpected p f s
  refine ⟨_, partTaken_counted p f _ _ s, (goodFrame_next hseq hnak).trans (takePiece_whole hidle hlast ?_ ?_)⟩
  · rw [hport]
    exact no_part_of_frameOk hok hidle hfirst
  · rw [hport]
    exact hup

/-- What the frame that brings a whole message leaves (R222, R231, R234). -/
theorem wholeMessage_effect {p : FPort} {cls units : Nat} {sub : Bool} {bs : Bytes} {s v : State} (hv : FrameCounted p s v)
    (hsize : field bs 0 1 < 2 ^ 64) :
    let t := sendFrame p idlePayload (cls, sub, units) (takeMsg p cls sub bs v)
    (fabOf p t).rxSeq = (fabOf p s).rxSeq + 1 ∧
      (∀ c, dropCause cls sub bs s = some c → c < 2 ^ 64 →
        (fabOf p t).drops = (fabOf p s).drops + 1 ∧ (fabOf p t).inbox = (fabOf p s).inbox ∧
          ∃ l ∈ t.log, l.seq = s.seq + 1 ∧ l.code = 0x0033 ∧ l.d0 = field bs 0 1 ∧ l.d3 = c) ∧
      (dropCause cls sub bs s = none → forMe (parseMsg bs) s = true →
        (fabOf p t).inbox = (fabOf p s).inbox ++ [{ parseMsg bs with at_ := tideNow s }] ∧
          t = { s with fabric := t.fabric, out := t.out }) := by
  intro t
  have hsend : PortsSend (takeMsg p cls sub bs v) t := sendFrame_portsSend p idlePayload _ _
  have hjob : v.job = s.job := hv.run.same .job rfl
  have hpower : v.power = s.power := hv.run.same .power rfl
  have hdrop := dropCause_congr hjob cls sub bs
  refine ⟨?_, fun c hc hlt => ?_, fun hnone hme => ?_⟩
  · rw [hsend.rxSeq, (takeMsg_port ..).2, hv.rxSeq]
  · have htake : takeMsg p cls sub bs v = dropMsg p c bs v := takeMsg_dropped (hdrop.trans hc)
    have hseq : v.seq = s.seq := hv.run.same .seq rfl
    obtain ⟨l, hl, hlseq, hcode, hd0, hd3⟩ := dropMsg_logged p hlt bs v
    refine ⟨?_, ?_, l, ?_, ?_, hcode, hd0.trans (Nat.mod_eq_of_lt hsize), hd3⟩
    · rw [hsend.drops, htake, fabOf_dropMsg, hv.drops]
    · rw [hsend.inbox, htake, fabOf_dropMsg, hv.inbox]
    · rw [← htake] at hl
      exact hl
    · rw [hlseq, hseq]
  · have hme' : forMe (parseMsg bs) v = true := (forMe_congr hjob hpower _).trans hme
    have htake : takeMsg p cls sub bs v = deliver p (parseMsg bs) v := takeMsg_delivered (hdrop.trans hnone) hme'
    have htide : tideNow v = tideNow s := congrArg (fun t : Tide => t.count.toNat) (hv.run.same .tide rfl)
    have hrun : Run [.out, .fabric] s t := by
      refine sendFrame_run _ _ _ _ ?_ (by decide)
      rw [htake]
      exact deliver_run _ _ _ (hv.run.mono (by decide)) (by decide)
    refine ⟨?_, eq_send_upd hrun⟩
    rw [hsend.inbox, htake, deliver, fabOf_modFab, hv.inbox, htide]

/-- The causes of Table 9.9 are 1 to 5. -/
theorem dropCause_le {cls c : Nat} {sub : Bool} {bs : Bytes} {s : State} (h : dropCause cls sub bs s = some c) : c ≤ 5 := by
  unfold dropCause at h
  extract_lets type pl at h
  split at h
  · simp only [Option.some.injEq] at h
    omega
  · split_ifs at h <;> simp only [Option.some.injEq] at h <;> omega

/-- A field of one byte is a byte. -/
theorem field_one_lt (bs : Bytes) (off : Nat) : field bs off 1 < 256 := by
  unfold field
  cases bs.drop off with
  | nil => decide
  | cons b r =>
    have := b.isLt
    simp [leVal]
    omega

/-! #### Frames that fail, and frames sent again (R221) -/

section
variable {p : FPort} {s : State}

theorem badFrame_discarded {seq : BitVec 12} (hnaked : (fabOf p s).naked = true) (hseq : seq ≠ (fabOf p s).rxSeq) : badFrame p seq s = s := by
  simp [badFrame, hnaked, hseq]

/-- The port once one more failure of the frame expected counts. -/
def frameFailed (p : FPort) (s : State) : State := modFab p (fun f => { f with fails := (fabOf p s).fails + 1, naked := true }) s

theorem badFrame_counted {seq : BitVec 12} (h : (fabOf p s).naked = false ∨ seq = (fabOf p s).rxSeq) :
    badFrame p seq s = if 8 ≤ (fabOf p s).fails + 1 then portDown p 0 (frameFailed p s)
      else emit (.frameNak p (fabOf p s).rxSeq.toNat) (frameFailed p s) := by
  have hcounts : ((fabOf p s).naked && seq != (fabOf p s).rxSeq) = false := by
    rcases h with h | h <;> simp [h]
  simp only [badFrame, hcounts, Bool.false_eq_true, if_false]
  rfl

theorem exec_frameNak (h : (fabOf p s).up = true) (q : BitVec 12) : exec (.frameNak p q) s = .next (resendFrames p q.toNat s) := by
  show Host.Outcome.next (if (fabOf p s).up then resendFrames p q.toNat s else s) = _
  rw [if_pos h]

theorem resendFrames_unknown {n : Nat} (h : ∀ e ∈ (fabOf p s).tx, e.1 ≠ n) : resendFrames p n s = s := by
  have hnone : ((fabOf p s).tx.dropWhile fun e => e.1 != n) = [] := List.dropWhile_eq_nil_iff.mpr fun e he => by simpa using h e he
  simp only [resendFrames, hnone]

/-- The port once the frames from number `n` on, of which `e` is the first, are sent again. -/
def framesResent (p : FPort) (n : Nat) (e : Nat × Bytes × Nat) (r : List (Nat × Bytes × Nat)) (s : State) : State :=
  modFab p (fun f =>
    { f with tx := (f.tx.takeWhile fun x => x.1 != n) ++ (e :: r).map fun x => (x.1, x.2.1, x.2.2 + b2n (x.1 == e.1)) }) s

theorem resendFrames_known {n : Nat} {e : Nat × Bytes × Nat} {r : List (Nat × Bytes × Nat)}
    (h : ((fabOf p s).tx.dropWhile fun e => e.1 != n) = e :: r) :
    resendFrames p n s = if 8 ≤ e.2.2 then portDown p 0 s
      else emitAll ((e :: r).map fun e =>
        .frame p e.1 e.2.1 noReturn (crc32c (Config.linkHeader e.1 (fabOf p s).rxSeq.toNat noReturn ++ e.2.1))) (framesResent p n e r s) := by
  simp only [resendFrames, h]
  rfl

end

/-- Settles O46: a good frame in turn is counted and its message taken in, a bad one counts a failure, and a NAK sends frames again. -/
theorem fabricFrames : Obligations.FabricFrames := by
  unfold Obligations.FabricFrames
  intro p f s hup pl d bs
  refine ⟨fun hok hseq => ?_, fun hok hseq hnak hidle => ?_, fun hok hseq hnak hidle hfirst hlast => ?_, fun hok hnaked hseq => ?_,
    fun hok hcount => ?_, fun q e r hsel => ?_, fun q hnone => ?_⟩
  · rw [exec_fabricFrame_good hup hok, goodFrame_outOfTurn hseq]
  · rw [exec_fabricFrame_good hup hok, goodFrame_next hseq hnak, takePiece_idle hidle]
    rfl
  · obtain ⟨v, hv, hframe⟩ := goodFrame_whole (pl := pl) rfl hup hok hseq hnak hidle hfirst hlast
    obtain ⟨hrx, hdropped, htaken⟩ := wholeMessage_effect (cls := d % 8) (sub := d.testBit 3) (bs := bs) (units := (field pl 2 2 + 63) / 64) hv
      ((field_one_lt bs 0).trans (by decide))
    exact ⟨_, (exec_fabricFrame_good hup hok).trans (congrArg Host.Outcome.next hframe), hrx, fun _ => frame_mem_sendFrame ..,
      fun c hc => hdropped c hc ((dropCause_le hc).trans_lt (by decide)), htaken⟩
  · rw [exec_fabricFrame_bad hup hok, badFrame_discarded hnaked hseq]
  · refine ⟨_, (exec_fabricFrame_bad hup hok).trans (congrArg Host.Outcome.next (badFrame_counted hcount)), fun hfew => ?_, fun hmany => ?_⟩
    · rw [if_neg (by omega)]
      have hport : fabOf p (frameFailed p s) = _ := fabOf_modFab p _ s
      have hrx := congrArg FabPort.rxSeq hport
      exact ⟨rfl, congrArg FabPort.naked hport, congrArg FabPort.fails hport, hrx, rfl⟩
    · rw [if_pos (by omega)]
      exact portDown_down p 0 _
  · refine ⟨_, (exec_frameNak hup q).trans (congrArg Host.Outcome.next (resendFrames_known hsel)), fun hfew => ?_, fun hmany => ?_⟩
    · rw [if_neg (by omega)]
      refine ⟨rfl, ?_, rfl⟩
      have hport : fabOf p (framesResent p q.toNat e r s) = _ := fabOf_modFab p _ s
      have hcount : ∀ x : Nat × Bytes × Nat, x.2.2 + b2n (x.1 == e.1) = if x.1 = e.1 then x.2.2 + 1 else x.2.2 := fun x => by
        by_cases hx : x.1 = e.1 <;> simp [hx, b2n]
      refine (congrArg FabPort.tx hport).trans ?_
      simp only [hcount]
    · rw [if_pos hmany]
      exact portDown_down p 0 s
  · rw [exec_frameNak hup, resendFrames_unknown hnone]

end Sys2Proof.Proofs

/-! ### Lanes that fail, ports that train, and what a neighbour is (R219, R220, R225, R359) -/

namespace Sys2Proof.Proofs

open Machine Laws

/-! #### A lane that fails (R220) -/

section
variable {p : FPort} {lane : Nat} {s : State}

/-- A port with a half in which a lane has failed. -/
def halfFailed (lane : Nat) (f : FabPort) : FabPort := if lane < 8 then { f with failLow := true } else { f with failHigh := true }

theorem halfFailed_up (lane : Nat) (f : FabPort) : (halfFailed lane f).up = f.up := by
  unfold halfFailed
  split <;> rfl

/-- Whether a port uses a half in which a lane has failed. -/
def usesFailed (f : FabPort) : Bool := f.half == 0 || (f.half == 1 && f.failLow) || (f.half == 2 && f.failHigh)

/-- The port with its failed lane marked, logged; it is to move where it uses that half. -/
def laneMarked (p : FPort) (lane : Nat) (s : State) : State :=
  logPort p lane (modFab p (fun f => { f with move := usesFailed (halfFailed lane (fabOf p s)) }) (modFab p (halfFailed lane) s))

theorem laneMarked_run (p : FPort) (lane : Nat) (s : State) : Run [.out, .hostA, .hostB, .seq, .log, .fabric] s (laneMarked p lane s) :=
  logPort_run _ _ _ (modFab_run _ _ _ (modFab_run _ _ s (.refl _ s) (by decide)) (by decide)) (by decide)

theorem fabOf_laneMarked (p : FPort) (lane : Nat) (s : State) :
    fabOf p (laneMarked p lane s) = { halfFailed lane (fabOf p s) with move := usesFailed (halfFailed lane (fabOf p s)) } :=
  (fabOf_congr ((logPort_run (flds := [.out, .hostA, .hostB, .seq, .log]) p lane _ (.refl _ _) (by decide)).same .fabric rfl) p).trans
    (by rw [fabOf_modFab, fabOf_modFab])

/-- A port of which both halves have failed goes down; any other one moves at the next step boundary, and at once where no job runs. -/
theorem laneFail_eq (hup : (fabOf p s).up = true) (lane : Nat) :
    laneFail p lane s =
      if (halfFailed lane (fabOf p s)).failLow && (halfFailed lane (fabOf p s)).failHigh then portDown p lane (modFab p (halfFailed lane) s)
      else if s.job.state = .running then laneMarked p lane s else moveHalf p (laneMarked p lane s) := by
  have hport : fabOf p (modFab p (halfFailed lane) s) = halfFailed lane (fabOf p s) := fabOf_modFab p _ s
  have hjob : (laneMarked p lane s).job = s.job := (laneMarked_run p lane s).same .job rfl
  have hrun : (running (laneMarked p lane s) = true) = (s.job.state = .running) := by rw [running, hjob, beq_iff_eq]
  simp only [← hrun]
  unfold laneMarked
  rw [← hport, laneFail, hup]
  rfl

/-- The first lane that fails on a port. -/
theorem halfFailed_first {f : FabPort} (hlow : f.failLow = false) (hhigh : f.failHigh = false) (lane : Nat) :
    (halfFailed lane f).failLow = decide (lane < 8) ∧ (halfFailed lane f).failHigh = !decide (lane < 8) := by
  unfold halfFailed
  split <;> simp_all

/-- A lane that fails beside a failed half. -/
theorem halfFailed_second {f : FabPort} (hother : (if lane < 8 then f.failHigh else f.failLow) = true) :
    ((halfFailed lane f).failLow && (halfFailed lane f).failHigh) = true := by
  unfold halfFailed
  by_cases h : lane < 8
  · rw [if_pos h] at hother ⊢
    simp [hother]
  · rw [if_neg h] at hother ⊢
    simp [hother]

theorem halfFailed_half (lane : Nat) (f : FabPort) : (halfFailed lane f).half = f.half := by
  unfold halfFailed
  split <;> rfl

/-- The half on which a port with a failed lane goes on. -/
theorem moveHalf_effect (hmove : (fabOf p s).move = true) (hidle : s.job.state ≠ .running) :
    fabOf p (moveHalf p s) = { fabOf p s with move := false, half := if (fabOf p s).failLow then 2 else 1 } ∧
      .halfMove p (if (fabOf p s).failLow then 2 else 1) ∈ (moveHalf p s).out := by
  unfold moveHalf
  extract_lets f half u v
  have hv : Run [.out, .hostA, .hostB, .seq, .log, .flash] (emit (.halfMove p half) u) v :=
    logPort_run _ _ _ (ledgerReplace_run _ _ _ _ _ _ (.refl _ _) (by decide)) (by decide)
  have hjob : v.job = s.job := hv.same .job rfl
  have hrest : running v = false := by simpa only [running, hjob, beq_eq_false_iff_ne] using hidle
  rw [if_neg (by simp [f, hmove]), if_neg (by simp [hrest])]
  refine ⟨?_, hv.out.subset (List.mem_append_right _ (List.mem_singleton_self _))⟩
  have hu : fabOf p u = _ := fabOf_modFab p _ s
  exact (fabOf_congr (hv.same .fabric rfl) p).trans hu

end

/-! #### A port that comes up (R219, R225) -/

section
variable {p : FPort} {low high : Bool} {s : State}

/-- The half that a port trains on. -/
def trainedHalf (low high : Bool) : Nat := if low && high then 0 else if low then 1 else 2

/-- The port as it trains. -/
def trained (low high : Bool) (f : FabPort) : FabPort :=
  { FabPort.reset with up := true, half := trainedHalf low high, failLow := !low, failHigh := !high, drops := f.drops, inbox := f.inbox }

/-- The port has trained; where it runs on one half, the repair ledger says so (R219). -/
def portRecorded (p : FPort) (low high : Bool) (s : State) : State :=
  let u := modFab p (trained low high) s
  if trainedHalf low high = 0 then u else ledgerReplace 0x30 1 (fportNo p).val 0 (leBytes 4 (trainedHalf low high - 1)) u

theorem portRecorded_run (p : FPort) (low high : Bool) (s : State) :
    Run [.out, .hostA, .hostB, .seq, .log, .flash] (modFab p (trained low high) s) (portRecorded p low high s) :=
  run_choice (.refl _ _) (ledgerReplace_run _ _ _ _ _ _ (.refl _ _) (by decide))

/-- The port has trained, recorded and logged. -/
def portTrained (p : FPort) (low high : Bool) (s : State) : State := logPort p 0 (portRecorded p low high s)

theorem portTrained_run (p : FPort) (low high : Bool) (s : State) :
    Run [.out, .hostA, .hostB, .seq, .log, .flash] (modFab p (trained low high) s) (portTrained p low high s) :=
  logPort_run _ _ _ (portRecorded_run p low high s) (by decide)

theorem fabOf_portTrained (p q : FPort) (low high : Bool) (s : State) :
    fabOf q (portTrained p low high s) = fabOf q (modFab p (trained low high) s) :=
  fabOf_congr ((portTrained_run p low high s).same .fabric rfl) q

/-- A port that has trained sends its LINKID (R225). -/
theorem portUp_eq (p : FPort) (low high : Bool) (s : State) :
    ∃ m, portUp p low high s = sendOn p m (portTrained p low high s) ∧ m.type = 0x0D ∧ m.payload.take 2 = leBytes 2 (physId s) := by
  have hpower : (portRecorded p low high s).power = s.power := (portRecorded_run p low high s).same .power rfl
  have hid : physId (portRecorded p low high s) = physId s := by rw [physId, hpower, physId]
  exact ⟨linkidMsg p (portRecorded p low high s), rfl, rfl, congrArg (leBytes 2) hid⟩

end

/-! #### The rows -/

theorem exec_fabricPortUp (hserdes : serdesOn s = true) (hdown : (fabOf p s).up = false) (htrains : low = true ∨ high = true) :
    exec (.fabricPortUp p low high) s = .next (portUp p low high s) := by
  show Host.Outcome.next (if serdesOn s && !(fabOf p s).up && (low || high) then portUp p low high s else s) = _
  rw [if_pos (by simpa [hserdes, hdown] using htrains)]

/-- The record that a LINKID message makes of its sender (Table 9.10). -/
def linkRecOf (m : Msg) : LinkRec :=
  { phys := field m.payload 0 2, port := field m.payload 2 1, feed := field m.payload 3 1, stepping := field m.payload 4 1,
    job := (field m.payload 5 1).testBit 0, jobtag := field m.payload 6 2 }

theorem fabOf_dropFront (p : FPort) (cls : Nat) (sub : Bool) (s : State) :
    fabOf p (dropFront p cls sub s) = { fabOf p s with inbox := (fabOf p s).inbox.eraseP (inClass cls sub) } := fabOf_modFab p _ s

theorem fabOf_dropFront_ne {p q : FPort} (h : q ≠ p) (cls : Nat) (sub : Bool) (s : State) : fabOf q (dropFront p cls sub s) = fabOf q s :=
  fabOf_modFab_ne h _ s

theorem fabOf_takeLinkid (p : FPort) (m : Msg) (s : State) : fabOf p (takeLinkid p m s) = { fabOf p s with neigh := some (linkRecOf m) } :=
  fabOf_modFab p _ s

/-- Settles O47: a lane marks its half as failed, a port that trains starts afresh on what works, and a LINKID is remembered. -/
theorem fabricPorts : Obligations.FabricPorts := by
  unfold Obligations.FabricPorts
  intro p s
  refine ⟨fun lane hup => ?_, fun low high hserdes hdown htrains => ?_, fun sub m hfront => ?_⟩
  · intro low
    refine ⟨_, congrArg Host.Outcome.next (laneFail_eq hup lane.val), fun hother => ?_, fun hlow hhigh hhalf => ?_⟩
    · rw [if_pos (halfFailed_second (by simpa [low] using hother))]
      exact portDown_down p _ _
    · obtain ⟨hfl, hfh⟩ := halfFailed_first hlow hhigh lane.val
      have hport := fabOf_laneMarked p lane.val s
      have huses : usesFailed (halfFailed lane.val (fabOf p s)) = true := by simp [usesFailed, halfFailed_half, hhalf]
      rw [huses] at hport
      rw [if_neg (by simp [hfl, hfh])]
      by_cases hjob : s.job.state = .running
      · rw [if_pos hjob, hport]
        exact ⟨(halfFailed_up _ _).trans hup, hfl, hfh, fun _ => ⟨(halfFailed_half _ _).trans hhalf, rfl⟩, fun h => absurd hjob h⟩
      · have hstate : (laneMarked p lane.val s).job.state ≠ .running := by
          rw [show (laneMarked p lane.val s).job = s.job from (laneMarked_run p lane.val s).same .job rfl]
          exact hjob
        obtain ⟨hmoved, hout⟩ := moveHalf_effect (by rw [hport]) hstate
        rw [hport] at hmoved hout
        rw [if_neg hjob, hmoved]
        simp only [hfl, decide_eq_true_eq] at hout ⊢
        exact ⟨(halfFailed_up _ _).trans hup, rfl, hfh, fun h => absurd h hjob, fun _ => ⟨by simp [low], trivial, by simpa [low] using hout⟩⟩
  · obtain ⟨m, hup, htype, hpayload⟩ := portUp_eq p low high s
    have hport : fabOf p (portTrained p low high s) = trained low high (fabOf p s) := (fabOf_portTrained p p low high s).trans (fabOf_modFab p _ s)
    have hsend := sendOn_portsSend p m (portTrained p low high s)
    refine ⟨_, (exec_fabricPortUp hserdes hdown htrains).trans (congrArg Host.Outcome.next hup), ?_, ?_, ?_, ?_,
      ⟨m, msg_mem_sendOn (by rw [hport]; rfl) m, htype, hpayload⟩, fun q hq => ?_⟩
    · rw [hsend.up, hport]; rfl
    · rw [hsend.half, hport]; rfl
    · rw [hsend.rxSeq, hport]; rfl
    · rw [hsend.inbox, hport]; rfl
    · rw [fabOf_sendOn_ne hq, fabOf_portTrained, fabOf_modFab_ne hq]
  · have hexec : exec (.linkid p sub) s = .next (takeLinkid p m (dropFront p 2 sub s)) := by
      show Host.Outcome.next (onMsg p 2 0x0D sub (takeLinkid p) s) = _
      rw [onMsg_front hfront]
    have hport := (fabOf_takeLinkid p m _).trans (congrArg (fun f : FabPort => { f with neigh := some (linkRecOf m) }) (fabOf_dropFront p 2 sub s))
    refine ⟨_, hexec, rfl, ?_, ?_, fun q hq => ?_⟩
    · rw [hport]
    · rw [hport]; rfl
    · rw [takeLinkid, fabOf_modFab_ne hq, fabOf_dropFront_ne hq]

end Sys2Proof.Proofs

/-! ### The tide clock: exchanges, parents, roots (R248 to R250, R316, R360) -/

namespace Sys2Proof.Proofs

open Machine Laws

/-! #### Requests and answers (R249, R360) -/

theorem sendSync_portsSend (p : FPort) (ref t1 t2 t3 : Nat) (s : State) : PortsSend s (sendSync p ref t1 t2 t3 s) := sendOn_portsSend _ _ s

/-- A SYNC message goes out on a port that is up, with its three instants in front (Table 9.11). -/
theorem msg_mem_sendSync {p : FPort} {s : State} (h : (fabOf p s).up = true) (ref t1 t2 t3 : Nat) :
    ∃ m, .msg p m ∈ (sendSync p ref t1 t2 t3 s).out ∧ m.type = 0x0A ∧ m.ref = ref ∧
      m.payload.take 24 = leBytes 8 t1 ++ leBytes 8 t2 ++ leBytes 8 t3 :=
  ⟨_, msg_mem_sendOn h _, rfl, rfl, rfl⟩

/-- A request at a port: it carries the present count. -/
def requestOn (s : State) (p : FPort) : State := sendSync p 0 (tideNow s) 0 0 s

theorem requestOn_run (s : State) (p : FPort) : Run [.out, .fabric] s (requestOn s p) := sendSync_run _ _ _ _ _ s (.refl _ s) (by decide)

theorem requests_run (l : List FPort) (s : State) : Run [.out, .fabric] s (l.foldl requestOn s) :=
  .foldl (.refl _ s) fun p x h => sendSync_run _ _ _ _ _ x h (by decide)

/-- Every port of a list that is up sends its request. -/
theorem requests_out (l : List FPort) (s : State) : ∀ p ∈ l, (fabOf p s).up = true →
    ∃ m, .msg p m ∈ (l.foldl requestOn s).out ∧ m.type = 0x0A ∧ m.ref = 0 ∧ m.payload.take 8 = leBytes 8 (tideNow s) := by
  induction l generalizing s with
  | nil => exact fun p hp => absurd hp List.not_mem_nil
  | cons q l ih =>
    intro p hp hup
    rcases List.mem_cons.mp hp with rfl | hp
    · obtain ⟨m, hm, htype, href, hpayload⟩ := msg_mem_sendSync hup 0 (tideNow s) 0 0
      refine ⟨m, (requests_run l (requestOn s p)).out.subset hm, htype, href, ?_⟩
      have hfirst := congrArg (List.take 8) hpayload
      rwa [List.take_take] at hfirst
    · have htide : tideNow (requestOn s q) = tideNow s := congrArg (fun t : Tide => t.count.toNat) ((requestOn_run s q).same .tide rfl)
      rw [← htide]
      exact ih (requestOn s q) p hp (((sendSync_portsSend q _ _ _ _ s).up p).trans hup)

theorem exec_syncPeriod {s : State} (hsync : syncing s = true) (hdue : s.tide.lastReq + 1000000 ≤ s.now) :
    exec .syncPeriod s = .next ((syncPorts s).foldl requestOn (modTide (fun t => { t with lastReq := s.now }) s)) := by
  show Host.Outcome.next (if syncing s && decide (s.tide.lastReq + 1000000 ≤ s.now) then
    (syncPorts s).foldl requestOn (modTide (fun t => { t with lastReq := s.now }) s) else s) = _
  rw [if_pos (by simp [hsync, hdue])]

/-- What a SYNC message tells of its sender (Table 9.11). -/
def syncRecOf (m : Msg) : SyncRec :=
  { tsync := (field m.payload 24 1).testBit 0, hops := field m.payload 25 1, root := field m.payload 26 2 }

theorem fabOf_hearSync (p : FPort) (m : Msg) (s : State) : fabOf p (hearSync p m s) = { fabOf p s with sync := some (syncRecOf m) } := by
  show fabOf p (modFab p (fun f => { f with sync := some (syncRecOf m) }) s) = _
  rw [fabOf_modFab]

section
variable {p : FPort} {sub : Bool} {m : Msg} {s : State}

theorem exec_syncRequest (hfront : frontMsg p 2 0x0A sub s = some m) (href : m.ref = 0) :
    exec (.syncRequest p sub) s = .next (takeRequest p m (dropFront p 2 sub s)) := by
  show Host.Outcome.next (if ((frontMsg p 2 0x0A sub s).map (·.ref)) = some 0 then onMsg p 2 0x0A sub (takeRequest p) s else s) = _
  rw [onMsg_front hfront, hfront, if_pos (by simp [href])]

theorem exec_syncResponse (hfront : frontMsg p 2 0x0A sub s = some m) (href : m.ref = 1) (hsync : syncing s = true) :
    exec (.syncResponse p sub) s = .next (takeResponse p m (dropFront p 2 sub s)) := by
  show Host.Outcome.next (if ((frontMsg p 2 0x0A sub s).map (·.ref)) = some 1 then
    onMsg p 2 0x0A sub (fun m s => if syncing s then takeResponse p m s else hearSync p m s) s else s) = _
  rw [onMsg_front hfront, hfront, if_pos (by simp [href]), if_pos (show syncing (dropFront p 2 sub s) = true from hsync)]

theorem takeRequest_answers (hsync : syncing s = true) :
    takeRequest p m s = sendSync p 1 (field m.payload 0 8) m.at_ (tideNow s) (hearSync p m s) := by
  rw [takeRequest, if_pos (show syncing (hearSync p m s) = true from hsync)]
  rfl

/-! #### Parents (R249, R316) -/

/-- The tide clock that follows a neighbour. -/
def followed (p : FPort) (r : SyncRec) (o : Int) (load keep : Bool) (now : Nat) (t : Tide) : Tide :=
  { t with parent := some p, root := r.root, hops := r.hops + 1, offset := o, lastValid := now, loaded := true,
           count := if load then BitVec.ofInt 64 (t.count.toInt + o) else t.count, slew := if load then 0 else o,
           tsync := load || nearRoot o || (keep && t.tsync) }

/-- Following a neighbour: the change of a root is logged, and so is a synchronism that is lost, which fails a running job. -/
theorem follow_eq (p : FPort) (r : SyncRec) (o : Int) (load keep : Bool) (s : State) :
    follow p r o load keep s =
      let u := modTide (followed p r o load keep s.now) s
      let v := if s.tide.tsync && s.tide.root ≠ r.root then logTide s.tide.parent (some p) u else u
      if s.tide.tsync && !v.tide.tsync then unsyncFailure (if s.tide.root = r.root then logTide s.tide.parent (some p) v else v) else v := rfl

/-- A package that was not synchronised follows its neighbour and logs nothing. -/
theorem follow_unsynced (h : s.tide.tsync = false) (r : SyncRec) (o : Int) (load keep : Bool) :
    follow p r o load keep s = modTide (followed p r o load keep s.now) s := by
  simp only [follow_eq, h, Bool.false_and, Bool.false_eq_true, if_false]

/-- A synchronised package whose parent keeps its root stays synchronised. -/
theorem follow_parent {r : SyncRec} (h : s.tide.tsync = true) (hroot : r.root = s.tide.root) (o : Int) (load : Bool) :
    follow p r o load true s = modTide (followed p r o load true s.now) s := by
  have hstays : (modTide (followed p r o load true s.now) s).tide.tsync = true := by simp [modTide, followed, h]
  simp [follow_eq, hroot, hstays]

/-- A neighbour that says it is synchronised can be a parent. -/
theorem syncAt_hearSync (hup : (fabOf p s).up = true) (htsync : (field m.payload 24 1).testBit 0 = true) :
    syncAt p (hearSync p m s) = some (syncRecOf m) := by
  simp [syncAt, fabOf_hearSync, hup, syncRecOf, htsync]

/-- The first response of the best neighbour loads the count (R316). -/
theorem takeResponse_first (hup : (fabOf p s).up = true) (htsync : (field m.payload 24 1).testBit 0 = true)
    (hunsync : s.tide.tsync = false) (hload : s.tide.loaded = false) (hbest : bestParent (fun _ => true) (hearSync p m s) = some p) :
    takeResponse p m s = modTide (followed p (syncRecOf m) (syncOffset m.payload m.at_) true false s.now) (hearSync p m s) := by
  have hat := syncAt_hearSync hup htsync
  have hunsync' : (hearSync p m s).tide.tsync = false := hunsync
  have hload' : (hearSync p m s).tide.loaded = false := hload
  simp only [takeResponse, hat, hunsync', hload', hbest, Bool.not_false, if_true]
  exact follow_unsynced hunsync' _ _ _ _

/-- A response of the parent slews the clock (R249). -/
theorem takeResponse_parent (hup : (fabOf p s).up = true) (htsync : (field m.payload 24 1).testBit 0 = true)
    (hsynced : s.tide.tsync = true) (hparent : s.tide.parent = some p) (hroot : s.tide.root = field m.payload 26 2) :
    takeResponse p m s = modTide (followed p (syncRecOf m) (syncOffset m.payload m.at_) false true s.now) (hearSync p m s) := by
  have hat := syncAt_hearSync hup htsync
  have hsynced' : (hearSync p m s).tide.tsync = true := hsynced
  have hparent' : (hearSync p m s).tide.parent = some p := hparent
  have hroot' : (syncRecOf m).root = (hearSync p m s).tide.root := hroot.symm
  simp only [takeResponse, hat, hsynced', hparent', hroot', Bool.not_true, Bool.false_eq_true, if_false, if_true, decide_true]
  exact follow_parent hsynced' hroot' _ _

end

/-! #### Roots, and the loss of synchronism (R250, R316) -/

section
variable {s : State}

theorem bestParent_none (h : ∀ q, syncAt q s = none) (ok : FPort → Bool) : bestParent ok s = none := by
  unfold bestParent
  simp only [h]
  generalize fports = l
  induction l with
  | nil => rfl
  | cons p l ih =>
    rw [List.foldl_cons]
    cases ok p with
    | true => exact ih
    | false => exact ih

/-- The clock without a parent, unsynchronised. -/
def unsynced (s : State) : State := modTide (fun t => { t with tsync := false, parent := none }) s

/-- With no synchronised neighbour, a package falls out of synchronism while its parent's port is up or a reset is pending. -/
theorem loseSync_waits {p : FPort} (h : ∀ q, syncAt q s = none) (hparent : s.tide.parent = some p)
    (hwaits : (fabOf p s).up = true ∨ s.power.pend.isSome = true) : loseSync s = unsyncFailure (logTide (some p) none (unsynced s)) := by
  have hcase : (s.tide.parent.any (fun p => (fabOf p s).up) || s.power.pend.isSome) = true := by simpa [hparent] using hwaits
  simp only [loseSync, bestParent_none h, hcase, if_true]
  rw [hparent]
  rfl

/-- With no synchronised neighbour and neither of these, it becomes root. -/
theorem loseSync_roots {p : FPort} (h : ∀ q, syncAt q s = none) (hparent : s.tide.parent = some p)
    (hwaits : ¬((fabOf p s).up = true ∨ s.power.pend.isSome = true)) : loseSync s = becomeRoot s := by
  have hcase : (s.tide.parent.any (fun p => (fabOf p s).up) || s.power.pend.isSome) = false := by simpa [hparent] using hwaits
  simp only [loseSync, bestParent_none h, hcase, Bool.false_eq_true, if_false]

/-- Losing synchronism changes the clock no more than that, and fails a job that runs (R250). -/
theorem unsyncFailure_effect (old : Option FPort) (s : State) :
    (unsyncFailure (logTide old none (unsynced s))).tide = (unsynced s).tide ∧
      (s.job.state = .running → (unsyncFailure (logTide old none (unsynced s))).job.state = .failed) := by
  have hlog : Run [.out, .hostA, .hostB, .seq, .log] (unsynced s) (logTide old none (unsynced s)) := logTide_run _ _ _ (.refl _ _) (by decide)
  generalize logTide old none (unsynced s) = u at hlog
  have hrun := unsyncFailure_run (flds := [.out, .hostA, .hostB, .warden, .seq, .log, .job, .exec, .cores, .memStacks, .fabric, .twin, .inspect])
    u (.refl _ u) (by decide)
  have htide : u.tide = (unsynced s).tide := hlog.same .tide rfl
  have hjob : u.job = s.job := hlog.same .job rfl
  refine ⟨(hrun.same .tide rfl).trans htide, fun hstate => ?_⟩
  have hu : u.job.state = .running := (congrArg JobCtl.state hjob).trans hstate
  rw [unsyncFailure, if_pos (by simp [running, hu])]
  exact (failPackage_of_started (.inl hu) _ _ _).1

/-- The clock of a root. -/
def rooted (id now : Nat) (t : Tide) : Tide :=
  { t with tsync := true, parent := none, root := id, hops := 0, lowest := min t.lowest id, loaded := true, slew := 0, offset := 0,
           lastValid := now }

/-- A package that becomes root logs it where it has followed another one before. -/
theorem becomeRoot_eq (s : State) :
    becomeRoot s = if s.tide.loaded then logTide s.tide.parent none (modTide (rooted (physId s) s.now) s)
      else modTide (rooted (physId s) s.now) s := by
  unfold becomeRoot
  split <;> rfl

theorem becomeRoot_run_clock (s : State) :
    Run [.out, .hostA, .hostB, .seq, .log] (modTide (rooted (physId s) s.now) s) (becomeRoot s) := by
  rw [becomeRoot_eq]
  exact run_choice (logTide_run _ _ _ (.refl _ _) (by decide)) (.refl _ _)

theorem exec_tideUnsync (hsynced : s.tide.tsync = true) (hparent : s.tide.parent.isSome = true) (hlate : s.tide.lastValid + 2000000 ≤ s.now) :
    exec .tideUnsync s = .next (loseSync s) := by
  show Host.Outcome.next (if s.tide.tsync && s.tide.parent.isSome && decide (s.tide.lastValid + 2000000 ≤ s.now) then loseSync s else s) = _
  rw [if_pos (by simp [hsynced, hparent, hlate])]

theorem exec_rootElection (hsync : syncing s = true) (hunsync : s.tide.tsync = false) (hload : s.tide.loaded = false)
    (hlate : s.tide.tR + 40000000 ≤ s.now) (hlowest : physId s ≤ s.tide.lowest) (hnone : ∀ q, syncAt q s = none) :
    exec .rootElection s = .next (becomeRoot s) := by
  show Host.Outcome.next (if syncing s && !s.tide.tsync && !s.tide.loaded && decide (s.tide.tR + 40000000 ≤ s.now) &&
    decide (physId s ≤ s.tide.lowest) && fports.all fun p => (syncAt p s).isNone then becomeRoot s else s) = _
  rw [if_pos (by simp [hsync, hunsync, hload, hlate, hlowest, hnone])]

end

/-- Settles O48: the exchanges go through `requestOn` and `takeResponse`, the loss of synchronism through `loseSync`, the election through
`becomeRoot`. -/
theorem tideClock : Obligations.TideClock := by
  unfold Obligations.TideClock
  intro s
  refine ⟨fun hsync hdue => ?_, fun p sub m hfront href hsync hup => ?_, fun p sub m hfront href hsync hup htsync => ?_,
    fun p hsynced hparent hlate hnone => ?_, fun hsync hunsync hload hlate hlowest hnone => ?_⟩
  · have hrun := requests_run (syncPorts s) (modTide (fun t => { t with lastReq := s.now }) s)
    have htide := hrun.same .tide rfl
    exact ⟨_, exec_syncPeriod hsync hdue, htide, (eq_send_upd hrun).trans (by rw [← htide]; rfl),
      requests_out (syncPorts s) (modTide (fun t => { t with lastReq := s.now }) s)⟩
  · have hup' : (fabOf p (hearSync p m (dropFront p 2 sub s))).up = true := by rw [fabOf_hearSync, fabOf_dropFront]; exact hup
    have hexec := exec_syncRequest hfront href
    rw [takeRequest_answers (s := dropFront p 2 sub s) hsync] at hexec
    obtain ⟨r, hr, htype, hrref, hpayload⟩ := msg_mem_sendSync hup' 1 (field m.payload 0 8) m.at_ (tideNow s)
    have hsend := sendSync_portsSend p 1 (field m.payload 0 8) m.at_ (tideNow s) (hearSync p m (dropFront p 2 sub s))
    have hrun := sendSync_run (flds := [.out, .fabric]) p 1 (field m.payload 0 8) m.at_ (tideNow s) (hearSync p m (dropFront p 2 sub s))
      (.refl _ _) (by decide)
    have hcount := congrArg Tide.count (hrun.same .tide rfl)
    refine ⟨_, hexec, ?_, hcount, r, hr, htype, hrref, hpayload⟩
    exact (hsend.inbox p).trans (by rw [fabOf_hearSync, fabOf_dropFront])
  · intro o
    have hup' : (fabOf p (dropFront p 2 sub s)).up = true := by rw [fabOf_dropFront]; exact hup
    refine ⟨_, exec_syncResponse hfront href hsync, fun hunsync hload hbest => ?_, fun hsynced hparent hroot => ?_⟩
    · rw [takeResponse_first hup' htsync hunsync hload hbest]
      exact ⟨rfl, rfl, rfl, rfl, rfl, rfl⟩
    · rw [takeResponse_parent hup' htsync hsynced hparent hroot]
      have hstays : (followed p (syncRecOf m) o false true s.now s.tide).tsync = true := by simp [followed, hsynced]
      exact ⟨rfl, rfl, rfl, rfl, hstays⟩
  · refine ⟨_, exec_tideUnsync hsynced (by rw [hparent]; rfl) hlate, ?_⟩
    by_cases hwaits : (fabOf p s).up = true ∨ s.power.pend.isSome = true
    · rw [loseSync_waits hnone hparent hwaits]
      obtain ⟨htide, hfails⟩ := unsyncFailure_effect (some p) s
      refine ⟨by rw [htide]; rfl, fun _ => ⟨by rw [htide]; rfl, hfails⟩, fun hup hpend => ?_⟩
      simp [hup, hpend] at hwaits
    · rw [loseSync_roots hnone hparent hwaits]
      have htide : (becomeRoot s).tide = rooted (physId s) s.now s.tide := (becomeRoot_run_clock s).same .tide rfl
      have hjob : (becomeRoot s).job = s.job := (becomeRoot_run_clock s).same .job rfl
      rw [htide]
      exact ⟨rfl, fun hup => absurd (.inl hup) hwaits, fun _ _ => ⟨rfl, rfl, rfl, hjob⟩⟩
  · rw [exec_rootElection hsync hunsync hload hlate hlowest hnone, becomeRoot_eq, hload]
    simp only [Bool.false_eq_true, if_false, modTide, rooted, min_eq_right hlowest]

end Sys2Proof.Proofs

/-! ### Scales and verdicts (R133, R134, R241) -/

namespace Sys2Proof.Proofs

open Machine Laws

/-! #### The run of a reduction, stored and read -/

theorem redOf_redid (id step : Nat) (s : State) : (redOf id step s).redid = id := by
  unfold redOf
  cases h : s.exec.reds.find? (fun r => r.redid == id && r.step == step) with
  | none => rfl
  | some q =>
    have hq := List.find?_some h
    simp only [Bool.and_eq_true, beq_iff_eq] at hq
    exact hq.1

theorem redOf_step (id step : Nat) (s : State) : (redOf id step s).step = step := by
  unfold redOf
  cases h : s.exec.reds.find? (fun r => r.redid == id && r.step == step) with
  | none => rfl
  | some q =>
    have hq := List.find?_some h
    simp only [Bool.and_eq_true, beq_iff_eq] at hq
    exact hq.2

theorem redOf_congr {s t : State} (h : t.exec = s.exec) (id step : Nat) : redOf id step t = redOf id step s := by
  rw [redOf, redOf, h]

theorem find?_putRed (q : RedRun) (l : List RedRun) :
    (putRed q l).find? (fun r => r.redid == q.redid && r.step == q.step) = some q := by
  induction l with
  | nil => simp [putRed]
  | cons x l ih =>
    rw [putRed]
    split
    · simp
    · next h =>
      rw [List.find?_cons_of_neg (by simpa using h)]
      exact ih

/-- A stored run is the one that its reduction and step then have. -/
theorem redOf_setRed {id step : Nat} {q : RedRun} (hid : q.redid = id) (hstep : q.step = step) (s : State) :
    redOf id step (setRed q s) = q := by
  subst hid hstep
  rw [redOf, setRed_exec, find?_putRed]
  rfl

/-- Another version of the run of a reduction, stored, is the one read. -/
theorem scales_setRed {id step : Nat} {q : RedRun} {s : State} (hid : q.redid = (redOf id step s).redid)
    (hstep : q.step = (redOf id step s).step) : (redOf id step (setRed q s)).scales = q.scales :=
  congrArg RedRun.scales (redOf_setRed (hid.trans (redOf_redid id step s)) (hstep.trans (redOf_step id step s)) s)

/-! #### The candidates of a reduction, which sending them on does not change -/

/-- The candidates that a reduction has taken in are the same in `t`. -/
def KeepsScales (id step : Nat) (s t : State) : Prop := (redOf id step t).scales = (redOf id step s).scales

section
variable {id step : Nat} {s t u : State}

theorem KeepsScales.trans (h : KeepsScales id step s t) (k : KeepsScales id step t u) : KeepsScales id step s u := Eq.trans k h

theorem KeepsScales.of_run {flds : List StateField} (h : Run flds s t) (hf : flds.contains .exec = false) : KeepsScales id step s t :=
  congrArg RedRun.scales (redOf_congr (h.same .exec hf) id step)

theorem KeepsScales.ite {c : Prop} [Decidable c] (ht : KeepsScales id step s t) (hu : KeepsScales id step s u) :
    KeepsScales id step s (if c then t else u) := by
  split
  · exact ht
  · exact hu

theorem KeepsScales.iter {f : State → State} (hf : ∀ s, KeepsScales id step s (f s)) (n : Nat) (s : State) :
    KeepsScales id step s (Machine.iter f n s) := by
  induction n generalizing s with
  | zero => rfl
  | succ n ih => exact (hf s).trans (ih _)

theorem KeepsScales.foldl {α : Type} {f : State → α → State} (hf : ∀ s a, KeepsScales id step s (f s a)) (l : List α) (s : State) :
    KeepsScales id step s (l.foldl f s) := by
  induction l generalizing s with
  | nil => rfl
  | cons a l ih => exact (hf s a).trans (ih _)

end

theorem sendLog_keepsScales (id step : Nat) (m : Msg) (s : State) : KeepsScales id step s (sendLog m s) :=
  .of_run (sendLog_run (flds := [.out, .fabric]) m s (.refl _ s) (by decide)) rfl

theorem sentOn_keepsScales (id step : Nat) (c : Prop) [Decidable c] (m : Msg) (s : State) :
    KeepsScales id step s (if c then sendLog m s else s) := .ite (sendLog_keepsScales id step m s) rfl

theorem sendStage_keepsScales (r : PlanEntry) (step : Nat) (s : State) : KeepsScales r.redid step s (sendStage r step s) := by
  unfold sendStage
  extract_lets q ls ps i v s1
  have h1 : KeepsScales r.redid step s s1 := scales_setRed rfl rfl
  refine .ite rfl ?_
  split
  · exact h1.trans (sendLog_keepsScales _ _ _ s1)
  · exact h1.trans (.foldl (fun t d => sendLog_keepsScales _ _ _ t) ps s1)

theorem runScale_keepsScales (r : PlanEntry) (step : Nat) (s : State) : KeepsScales r.redid step s (runScale r step s) := by
  unfold runScale
  extract_lets ls own s1 q v
  have h1 : KeepsScales r.redid step s s1 := .iter (sendStage_keepsScales r step) _ s
  have hset : KeepsScales r.redid step s1 (setScale r.cslot (step + 1) (if v = noCandidate then scaleOf r.cslot step s1 else v) s1) := rfl
  exact .ite rfl (.ite (h1.trans hset) h1)

theorem checkEnd_keepsScales (r : PlanEntry) (step : Nat) (s : State) : KeepsScales r.redid step s (checkEnd r step s) := by
  unfold checkEnd
  exact .ite (scales_setRed rfl rfl) rfl

/-- Going on with a reduction's scale and its end keeps the candidates it has. -/
theorem scaleOn_keepsScales (r : PlanEntry) (step : Nat) (s : State) : KeepsScales r.redid step s (checkEnd r step (runScale r step s)) :=
  (runScale_keepsScales r step s).trans (checkEnd_keepsScales r step _)

/-! #### SCALE (R241) -/

theorem collecting_of_running {s : State} (hrun : s.job.state = .running) (hvoid : s.exec.voided = false) : collecting s = true := by
  simp [collecting, running, hrun, hvoid]

theorem levelIdx_lt {ls : List Level} {axis i : Nat} (h : levelIdx ls axis = some i) : i < ls.length := by
  have hi := (List.findIdx?_eq_some_iff_getElem.mp h)
  exact hi.1

/-- A run with one more candidate. -/
def scaled (r : PlanEntry) (step : Nat) (c : Nat × Nat × Int) (s : State) : State :=
  setRed { redOf r.redid step s with scales := (redOf r.redid step s).scales ++ [c] } s

theorem scales_scaled (r : PlanEntry) (step : Nat) (c : Nat × Nat × Int) (s : State) :
    (redOf r.redid step (scaled r step c s)).scales = (redOf r.redid step s).scales ++ [c] :=
  scales_setRed rfl rfl

section
variable {r : PlanEntry} {m : Msg} {s : State}

/-- A candidate from a package of the peer set. -/
theorem recvScale_peer (hpeer : (peerPackages r s).contains m.src = true) (hoff : m.offset = m.src) :
    (redOf r.redid m.step (recvScale r m s)).scales =
      (redOf r.redid m.step s).scales ++ [((levelsOf r s).length, m.src, toSigned 16 (field m.payload 0 2))] := by
  have hcase : (peerPackages r s).contains m.src = true ∧ m.offset = m.src := ⟨hpeer, hoff⟩
  rw [recvScale, if_pos hcase]
  exact Eq.trans (scaleOn_keepsScales r m.step (scaled r m.step _ s)) (scales_scaled r m.step _ s)

/-- A candidate from a position of an axis, sent on or not. -/
theorem recvScale_axis {i : Nat} (hpeer : (peerPackages r s).contains m.src = false) (hidx : levelIdx (levelsOf r s) m.axis = some i) :
    (redOf r.redid m.step (recvScale r m s)).scales =
      (redOf r.redid m.step s).scales ++ [(i, m.offset, toSigned 16 (field m.payload 0 2))] := by
  have hcase : ¬((peerPackages r s).contains m.src = true ∧ m.offset = m.src) := fun h => Bool.false_ne_true (hpeer.symm.trans h.1)
  have hlevel : (levelsOf r s)[i]? = some ((levelsOf r s)[i]'(levelIdx_lt hidx)) := List.getElem?_eq_getElem _
  simp only [recvScale, if_neg hcase, hidx, hlevel]
  have hscaled := scales_scaled r m.step (i, m.offset, toSigned 16 (field m.payload 0 2)) s
  exact Eq.trans ((sentOn_keepsScales _ _ _ _ _).trans (scaleOn_keepsScales r m.step _)) hscaled

theorem exec_scale {p : FPort} {sub : Bool} (hfront : frontMsg p 3 0x04 sub s = some m) :
    exec (.scale p sub) s = .next (takeScale m (dropFront p 3 sub s)) := by
  show Host.Outcome.next (onMsg p 3 0x04 sub takeScale s) = _
  rw [onMsg_front hfront]

theorem takeScale_recvScale (hcol : collecting s = true)
    (hr : (plan s).find? (fun r => r.kind == 0 && r.cslot != 0 && r.cslot == m.ref) = some r)
    (hdig : scaleDigest r m.step (toSigned 16 (field m.payload 0 2)) s = m.digest) : takeScale m s = recvScale r m s := by
  simp [takeScale, hr, hcol, hdig]

theorem recvScale_fields (r : PlanEntry) (m : Msg) (s : State) : Run [.out, .exec, .fabric] s (recvScale r m s) :=
  recvScale_run r m s (.refl _ s) (by decide)

end

/-! #### VERDICT (R133, R134) -/

theorem verdictAt_step (step : Nat) (s : State) : (verdictAt step s).step = step := by
  unfold verdictAt
  cases h : s.exec.verdicts.find? (fun v => v.step == step) with
  | none => rfl
  | some v =>
    have hv := List.find?_some h
    exact beq_iff_eq.mp hv

theorem verdictAt_cons {v : Verdict} {l : List Verdict} {step : Nat} {s : State} (h : s.exec.verdicts = v :: l) (hstep : v.step = step) :
    verdictAt step s = v := by
  simp [verdictAt, h, hstep]

/-- The verdict of a step with one more record. -/
def recorded (step : Nat) (x : Nat × Int × Nat × Nat) (s : State) : Verdict :=
  { verdictAt step s with recs := (verdictAt step s).recs ++ [x] }

/-- The state that holds a verdict. -/
def withVerdict (v : Verdict) (s : State) : State :=
  { s with exec := { s.exec with verdicts := v :: s.exec.verdicts.filter fun x => x.step != v.step } }

theorem verdictAt_withVerdict (v : Verdict) (s : State) : verdictAt v.step (withVerdict v s) = v := verdictAt_cons rfl rfl

/-- A verdict that is decided, as `verdictOf` says. -/
def decided (im : JobImage) (v : Verdict) (s : State) : Verdict :=
  let x := verdictOf s.exec.history (v.recs.map fun r => r.2.1).sum (v.recs.map fun r => r.2.2.1).sum
    (v.recs.map fun r => r.2.2.2).sum im.spikef (im.spkact == 1)
  { v with done := true, spike := x.1, skip := x.2.1 }

theorem logVerdict_exec (step : Nat) (sum med : Int) (what : Nat) (s : State) : (logVerdict step sum med what s).exec = s.exec :=
  (logVerdict_run (flds := [.out, .hostA, .hostB, .seq, .log]) step sum med what s (.refl _ s) (by decide)).same .exec rfl

theorem exec_ite_logVerdict (c : Prop) [Decidable c] (step : Nat) (sum med : Int) (what : Nat) (s : State) :
    (if c then logVerdict step sum med what s else s).exec = s.exec := by
  split
  · exact logVerdict_exec ..
  · rfl

theorem verdictAt_decideVerdict (im : JobImage) (v : Verdict) (s : State) : verdictAt v.step (decideVerdict im v s) = decided im v s := by
  have hexec : (decideVerdict im v s).exec.verdicts = decided im v s :: s.exec.verdicts.filter fun x => x.step != v.step := by
    unfold decideVerdict
    exact congrArg Exec.verdicts ((exec_ite_logVerdict _ _ _ _ _ _).trans (exec_ite_logVerdict _ _ _ _ _ _))
  exact verdictAt_cons hexec rfl

section
variable {im : JobImage} {step src : Nat} {loss : Int} {nl nf : Nat} {s : State}

/-- A record that is there already, or comes after the decision, changes nothing. -/
theorem takeVerdict_known (h : (verdictAt step s).done = true ∨ ∃ r ∈ (verdictAt step s).recs, r.1 = src) :
    takeVerdict im step src loss nl nf s = s := by
  have hcase : ((verdictAt step s).done || (verdictAt step s).recs.any fun r => r.1 == src) = true := by simpa using h
  rw [takeVerdict, if_pos hcase]

/-- A new record is taken in; the last one decides. -/
theorem takeVerdict_new (hdone : (verdictAt step s).done = false) (hsrc : ∀ r ∈ (verdictAt step s).recs, r.1 ≠ src) :
    takeVerdict im step src loss nl nf s =
      let v := recorded step (src, loss, nl, nf) s
      if v.recs.length = jobSize s then decideVerdict im v (withVerdict v s) else withVerdict v s := by
  have hcase : ¬((verdictAt step s).done || (verdictAt step s).recs.any fun r => r.1 == src) = true := by
    rw [hdone, Bool.false_or, List.any_eq_true]
    exact fun ⟨r, hr, heq⟩ => hsrc r hr (beq_iff_eq.mp heq)
  rw [takeVerdict, if_neg hcase]
  have hstep : (recorded step (src, loss, nl, nf) s).step = step := verdictAt_step step s
  have hheld : withVerdict (recorded step (src, loss, nl, nf) s) s =
      { s with exec := { s.exec with verdicts := recorded step (src, loss, nl, nf) s :: s.exec.verdicts.filter fun x => x.step != step } } := by
    rw [withVerdict, hstep]
  simp only [hheld]
  rfl

/-- The verdict after a new record. -/
theorem verdictAt_takeVerdict (hdone : (verdictAt step s).done = false) (hsrc : ∀ r ∈ (verdictAt step s).recs, r.1 ≠ src) :
    verdictAt step (takeVerdict im step src loss nl nf s) =
      let v := recorded step (src, loss, nl, nf) s
      if v.recs.length = jobSize s then decided im v s else v := by
  have hstep : (recorded step (src, loss, nl, nf) s).step = step := verdictAt_step step s
  rw [takeVerdict_new hdone hsrc]
  simp only
  split
  · exact (congrArg (verdictAt · _) hstep.symm).trans (verdictAt_decideVerdict im _ (withVerdict _ s))
  · exact (congrArg (verdictAt · _) hstep.symm).trans (verdictAt_withVerdict _ s)

end

theorem sum_map_ne_zero {α : Type} (f : α → Nat) (l : List α) : (l.map f).sum ≠ 0 ↔ ∃ x ∈ l, f x ≠ 0 := by
  rw [Ne, List.sum_eq_zero_iff]
  simp

/-- The spike of R134. -/
theorem decided_spike (im : JobImage) (v : Verdict) (s : State) :
    (decided im v s).spike = true ↔ 64 ≤ s.exec.history.length ∧ im.spikef ≠ 0 ∧
      im.spikef * median64 s.exec.history < 256 * (v.recs.map fun r => r.2.1).sum := by
  simp [decided, verdictOf, and_assoc]

/-- The step is skipped for a non-finite value of any record, or for a spike where the image says so. -/
theorem decided_skip (im : JobImage) (v : Verdict) (s : State) :
    (decided im v s).skip = true ↔
      (∃ r ∈ v.recs, r.2.2.1 ≠ 0 ∨ r.2.2.2 ≠ 0) ∨ ((decided im v s).spike = true ∧ im.spkact = 1) := by
  have hnl := sum_map_ne_zero (fun r : Nat × Int × Nat × Nat => r.2.2.1) v.recs
  have hnf := sum_map_ne_zero (fun r : Nat × Int × Nat × Nat => r.2.2.2) v.recs
  have hany : (∃ r ∈ v.recs, r.2.2.1 ≠ 0 ∨ r.2.2.2 ≠ 0) ↔ (v.recs.map fun r => r.2.2.1).sum ≠ 0 ∨ (v.recs.map fun r => r.2.2.2).sum ≠ 0 := by
    rw [hnl, hnf, ← exists_or]
    exact exists_congr fun r => and_or_left
  rw [hany]
  simp only [decided, verdictOf, Bool.or_eq_true, Bool.and_eq_true, bne_iff_ne, beq_iff_eq]

theorem exec_verdict {p : FPort} {sub : Bool} {m : Msg} {s : State} (hfront : frontMsg p 3 0x05 sub s = some m) :
    exec (.verdict p sub) s = .next (takeVerdictMsg p m (dropFront p 3 sub s)) := by
  show Host.Outcome.next (onMsg p 3 0x05 sub (takeVerdictMsg p) s) = _
  rw [onMsg_front hfront]

section
variable {p : FPort} {m : Msg} {s : State} {im : JobImage}

theorem takeVerdictMsg_good (hcol : collecting s = true) (him : s.job.image = some im)
    (hdig : digest (seedOf s) m.step 0 0
      [toSigned 64 (field m.payload 0 8), (field m.payload 8 8 : Int), (field m.payload 16 8 : Int)] = m.digest) :
    takeVerdictMsg p m s = takeVerdict im m.step m.src (toSigned 64 (field m.payload 0 8)) (field m.payload 8 8) (field m.payload 16 8)
      (bcastForward p m s) := by
  simp [takeVerdictMsg, him, hcol, hdig]

theorem takeVerdictMsg_bad (hcol : collecting s = true) (him : s.job.image = some im)
    (hdig : digest (seedOf s) m.step 0 0
      [toSigned 64 (field m.payload 0 8), (field m.payload 8 8 : Int), (field m.payload 16 8 : Int)] ≠ m.digest) :
    takeVerdictMsg p m s = resendVerdict im m.step (sendNotice true m.step 0 2000 4 (logId s) 0 0 0 s) := by
  simp [takeVerdictMsg, him, hcol, hdig]

/-- A message sent on leaves the verdicts, the history and the shape of the job as they are. -/
theorem bcastForward_fields (p : FPort) (m : Msg) (s : State) : Run [.out, .fabric] s (bcastForward p m s) :=
  bcastForward_run p m s (.refl _ s) (by decide)

end

/-- A notice leaves the verdicts alone. -/
theorem takeNotice_verdicts (n : Notice) (s : State) : (takeNotice n s).exec.verdicts = s.exec.verdicts := by
  unfold takeNotice
  extract_lets before src s1 d job exec twin s2
  have h2 : s2.exec.verdicts = s.exec.verdicts := by
    subst s2
    split
    · rfl
    · rfl
  split
  · have hrun : Run [.out, .hostA, .hostB, .i3c, .warden, .seq, .log] s2 (extendCommands d n.code s2) :=
      extendCommands_run d n.code s2 (.refl _ s2) (by decide)
    exact (congrArg Exec.verdicts (hrun.same .exec rfl)).trans h2
  · exact h2

theorem sendNotice_verdicts (breach : Bool) (step da amount code origin task red queue : Nat) (s : State) :
    (sendNotice breach step da amount code origin task red queue s).exec.verdicts = s.exec.verdicts := by
  unfold sendNotice
  extract_lets nseq n s1
  have hb : Run [.out, .fabric] s s1 := bcastMsg_run _ s (.refl _ s) (by decide)
  have hl : Run [.out, .hostA, .hostB, .seq, .log] (takeNotice n s1) (logNotice breach step da amount code origin task red (takeNotice n s1)) :=
    logNotice_run _ _ _ _ _ _ _ _ _ (.refl _ _) (by decide)
  calc _ = (takeNotice n s1).exec.verdicts := congrArg Exec.verdicts (hl.same .exec rfl)
    _ = s1.exec.verdicts := takeNotice_verdicts n s1
    _ = s.exec.verdicts := congrArg Exec.verdicts (hb.same .exec rfl)

/-- Settles O51: a SCALE adds its candidate by `recvScale_peer` or `recvScale_axis`; a VERDICT is taken in as `verdictAt_takeVerdict` says, or
announced by `sendNotice_noticed`. -/
theorem scalesAndVerdicts : Obligations.ScalesAndVerdicts := by
  unfold Obligations.ScalesAndVerdicts
  intro p sub m s hrun hvoid
  have hcol : collecting (dropFront p 3 sub s) = true := collecting_of_running (s := dropFront p 3 sub s) hrun hvoid
  refine ⟨fun r hfront hr hdig => ?_, fun im hfront him => ?_⟩
  · have hexec := exec_scale hfront
    rw [takeScale_recvScale hcol hr hdig] at hexec
    have hfields := recvScale_fields r m (dropFront p 3 sub s)
    exact ⟨_, hexec, hfields.same .mem rfl, hfields.same .job rfl, recvScale_peer (s := dropFront p 3 sub s),
      fun i => recvScale_axis (s := dropFront p 3 sub s)⟩
  · intro loss nl nf v
    refine ⟨fun hdig => ?_, fun hdig => ?_⟩
    · have hexec := exec_verdict hfront
      rw [takeVerdictMsg_good hcol him hdig] at hexec
      have hsent := bcastForward_fields p m (dropFront p 3 sub s)
      generalize bcastForward p m (dropFront p 3 sub s) = b at hexec hsent
      have bexec : b.exec = s.exec := hsent.same .exec rfl
      have bjob : b.job = s.job := hsent.same .job rfl
      have bverdict : verdictAt m.step b = v := by rw [verdictAt, bexec]; rfl
      have bsize : jobSize b = jobSize s := by simp only [jobSize, axisLen, bjob]
      have hfields := takeVerdict_run (flds := [.out, .hostA, .hostB, .seq, .log, .exec]) im m.step m.src loss nl nf b (.refl _ b) (by decide)
      refine ⟨_, hexec, (hfields.same .mem rfl).trans (hsent.same .mem rfl), (hfields.same .job rfl).trans bjob, fun hknown => ?_,
        fun hdone hsrc => ?_⟩
      · rw [takeVerdict_known (bverdict ▸ hknown)]
        exact bexec
      · have hw := verdictAt_takeVerdict (im := im) (loss := loss) (nl := nl) (nf := nf) (bverdict ▸ hdone) (bverdict ▸ hsrc)
        have hrecs : (recorded m.step (m.src, loss, nl, nf) b).recs = v.recs ++ [(m.src, loss, nl, nf)] := by rw [recorded, bverdict]
        have hcount : (recorded m.step (m.src, loss, nl, nf) b).recs.length = v.recs.length + 1 := by rw [hrecs]; simp
        simp only [hcount, bsize] at hw
        intro w sum
        have hw' : w = _ := hw
        by_cases hlast : v.recs.length + 1 = jobSize s
        · rw [if_pos hlast] at hw'
          rw [hw']
          refine ⟨hrecs, by simp [hlast, decided], fun _ => ⟨?_, decided_skip im _ b⟩⟩
          rw [decided_spike, hrecs, bexec]
        · rw [if_neg hlast] at hw'
          rw [hw']
          refine ⟨hrecs, ?_, fun h => absurd h hlast⟩
          rw [decide_eq_false hlast, recorded, bverdict]
          exact hdone
    · have hexec := exec_verdict hfront
      rw [takeVerdictMsg_bad hcol him hdig] at hexec
      obtain ⟨_, hnotices, _⟩ := sendNotice_noticed true m.step 0 2000 4 (logId s) 0 0 0 (dropFront p 3 sub s)
      have hverdicts := sendNotice_verdicts true m.step 0 2000 4 (logId s) 0 0 0 (dropFront p 3 sub s)
      have hagain := (resendVerdict_run_ports im m.step (sendNotice true m.step 0 2000 4 (logId s) 0 0 0 (dropFront p 3 sub s))).same .exec rfl
      exact ⟨_, _, hexec, (congrArg Exec.notices hagain).trans hnotices, rfl, rfl, rfl, rfl, (congrArg Exec.verdicts hagain).trans hverdicts⟩

end Sys2Proof.Proofs

/-! ### A contribution in a step whose parked writes fail the job (R174, R240, R297) -/

namespace Sys2Proof.Proofs

open Machine Laws

/-! #### The package -/

/-- A task of stack 0. -/
def stackTask : TaskRec :=
  { taskid := 3, stream := 2, flags := 0, unit := 0, start := 0, deadline := 0, waits := [], issue := 0, dtype := 0, body := [] }

/-- A reduction over the Z axis, whose reduced buffer lies in line 0 of stack 0. -/
def lineZeroRed : PlanEntry :=
  { redid := 7, kind := 0, axes := 0, peers := 0, elems := 8, cslot := 0, src := 2 ^ 60 + 4096, dst := 2 ^ 60, token := 5, deadline := 0, dur := 0 }

/-- A job of two packages along Z, each of them a replica of the data. -/
def replicaImage : JobImage :=
  { decodeImage [] with
    tasks := [stackTask], plan := [lineZeroRed], mapping := { (decodeImage []).mapping with lx := 1, ly := 1, lz := 2 } }

/-- A write of four bytes to line 0 by the stack's update engine, upon which the line returns an uncorrectable error. -/
def poisonedWrite : MemReq :=
  .line { who := .update 0, id := 1, addr := 0, write := true, data := [0, 0, 0, 0], hint := .none, prefetch := false, dst := 0,
          ecc := .uncorrectable 0 0 0 }

/-- A CONTRIB of the other package; the digest of no elements is 0, and its own is 1. -/
def badContrib : Msg :=
  { type := 1, cls := 3, sub := false, axis := 2, pnf := false, psat := false, last := false, resend := false, bcast := false, src := 512,
    srcPhys := false, dst := 0, dstPhys := false, jobtag := 0, step := 0, ref := 7, offset := 0, digest := 1, payload := [] }

/-- The message waits at port X+ of a package that runs the task, has the write parked, has failed twice on that line in this step, and
has had one mismatch on the message's hop. -/
def contribFailing : State :=
  { State.reset with
    dies := Vector.replicate 4 { Die.reset with inReset := false }
    memStacks := Vector.replicate 32 { Stack.reset with inReset := false, banks := [{ bank := 0, queue := [], parked := [poisonedWrite] }] }
    fabric := Vector.replicate 6 { FabPort.reset with inbox := [badContrib] }
    job := { JobCtl.reset with state := .running, image := some replicaImage }
    exec := { Exec.reset with
      runs := [lastMoveRun], attempts := [(0, 0, 2)], reds := [{ RedRun.new 7 0 with bad := [(0, 1)], endT := some 0 }] } }

/-- The same package once the message has left its buffer and the parked write is applied. -/
def contribSettled : State := settlePlan lineZeroRed (dropFront .xp 3 false contribFailing)

/-- The message is one of the reduction, on its hop. -/
theorem levelIdx_contribSettled : levelIdx (levelsOf lineZeroRed contribSettled) badContrib.axis = some 0 := by decide +kernel

theorem badContrib_digest :
    digestAt lineZeroRed.kind badContrib.step lineZeroRed.redid badContrib.offset (elemsOf lineZeroRed.kind badContrib.payload) contribSettled ≠
      badContrib.digest := by decide +kernel

/-- The mismatch before it has stayed. -/
theorem badBefore_contribSettled : (redOf lineZeroRed.redid badContrib.step contribSettled).bad.find? (fun x => x.1 == 0) = some (0, 1) := by
  decide +kernel

/-- The sender is another package, and a replica can take its record. -/
theorem sender_replaceable : ¬(badContrib.src = logId contribSettled ∨ noReplica contribSettled = true) := by decide +kernel

/-- The state of the job after a step. -/
def jobAfter (o : Host.Outcome State Fault Refusal) : JobState :=
  match o with
  | .next t => t.job.state
  | _ => .none

/-- The step evaluated: the third attempt on the line fails the job before the message is looked at. -/
theorem jobAfter_contribFailing : jobAfter (exec (.contrib .xp false) contribFailing) = .failed := by decide +kernel

/-- Refutes O49: a CONTRIB first applies the parked writes to its reduced buffer (R174), and one of them can meet its third uncorrectable error,
which fails this package (R99, R297). The second mismatch on the hop then finds a job that is FAILED and stays so, where the statement has it
stopped. -/
theorem not_contributions : ¬ Obligations.Contributions := by
  unfold Obligations.Contributions
  intro h
  obtain ⟨-, -, hbad⟩ := h .xp false badContrib lineZeroRed 0 contribFailing (by decide +kernel) rfl rfl rfl (by decide +kernel)
    levelIdx_contribSettled
  obtain ⟨t, hexec, -, hsecond⟩ := hbad badContrib_digest
  obtain ⟨hstate, -⟩ := hsecond 1 badBefore_contribSettled (Nat.le_refl 1)
  have hstopped : t.job.state = .stopped := hstate.trans (if_neg sender_replaceable)
  have hfailed : t.job.state = .failed := (congrArg jobAfter hexec).symm.trans jobAfter_contribFailing
  exact absurd (hfailed.symm.trans hstopped) (by decide)

end Sys2Proof.Proofs

/-! ### A result into a set whose resident line is clean (R167, R236) -/

namespace Sys2Proof.Proofs

open Machine Laws

/-! #### Where the elements of a RESULT go -/

/-- Package memory reads alike where neither DRAM nor a slice cache changes. -/
theorem sameMemory_of_run {flds : List StateField} {s t : State} (h : Run flds s t) (hmem : flds.contains .mem = false)
    (hstacks : flds.contains .memStacks = false) : SameMemory s t :=
  physGet_congr (h.same .mem hmem) fun i => congrArg (fun v => (v[i]).cache) (h.same .memStacks hstacks)

section
variable {r : PlanEntry} {m : Msg} {i : Nat} {s : State}

theorem landPiece_memory {step : Nat} {p : Piece}
    (hcause : ptrCause .hub r.dst (elemSize r.kind * p.lo) (elemBytes r.kind p.vals).length s = none) :
    SameMemory (ptrWrite (.stack 0) r.dst (elemSize r.kind * p.lo) (elemBytes r.kind p.vals) s) (landPiece r step p s) := by
  simp only [landPiece, hcause]
  exact sameMemory_of_run (setRed_run (flds := [.exec]) _ _ (.refl _ _) (by decide)) rfl rfl

/-- A RESULT whose digest matches writes its elements into the reduced buffer and nothing else into package memory. -/
theorem recvResult_memory (hidx : levelIdx (levelsOf r s) m.axis = some i)
    (hdig : digestAt r.kind m.step r.redid m.offset (elemsOf r.kind m.payload) s = m.digest) (hkind : r.kind ≠ 5)
    (hcause : ptrCause .hub r.dst (elemSize r.kind * m.offset) (elemBytes r.kind (elemsOf r.kind m.payload)).length s = none) :
    SameMemory (ptrWrite (.stack 0) r.dst (elemSize r.kind * m.offset) (elemBytes r.kind (elemsOf r.kind m.payload)) s) (recvResult r m s) := by
  have hlevel : (levelsOf r s)[i]? = some ((levelsOf r s)[i]'(levelIdx_lt hidx)) := List.getElem?_eq_getElem _
  simp only [recvResult, hidx, hdig, ne_eq, not_true_eq_false, if_false, if_neg hkind, hlevel]
  have hland := landPiece_memory (step := m.step) (p := ⟨i, m.offset, elemsOf r.kind m.payload, m.digest, m.pnf, m.psat⟩) hcause
  refine sameMemory_trans hland (sameMemory_of_run (flds := [.out, .exec, .fabric]) ?_ rfl rfl)
  refine checkEnd_run _ _ _ (gatherOn_run _ _ _ _ _ ?_ (by decide)) (by decide)
  exact run_choice (sendElems_run _ _ _ _ _ _ _ (.refl _ _) (by decide)) (.refl _ _)

theorem exec_result {p : FPort} {sub : Bool} (hfront : frontMsg p 3 0x02 sub s = some m) (hplan : planRec m.ref s = some r)
    (hcol : collecting s = true) (hdue : outdated r m s = false) :
    exec (.result p sub) s = .next (recvResult r m (settlePlan r (dropFront p 3 sub s))) := by
  have hplan' : planRec m.ref (dropFront p 3 sub s) = some r := hplan
  have hcase : (collecting (dropFront p 3 sub s) && !outdated r m (dropFront p 3 sub s)) = true :=
    by simpa using ⟨hcol, hdue⟩
  show Host.Outcome.next (onMsg p 3 0x02 sub (onRed recvResult) s) = _
  rw [onMsg_front hfront]
  simp only [onRed, hplan', if_pos hcase]

end

/-! #### A write into a line that evicts a clean one -/

section
variable {k n : Nat} {s : State} {data : Bytes}

/-- A write within a line, from its first byte on. -/
theorem physWrite_line (hn : n < 2 ^ 30) (hpos : data ≠ []) (hlen : data.length ≤ 128) (s : State) :
    physWrite (128 * n) data s = markStale 0 (128 * n) data.length (cacheWrite 0 (128 * n) data .none s) := by
  obtain ⟨b, bs, rfl⟩ := List.exists_cons_of_ne_nil hpos
  have hmod : 128 * n % 128 = 0 := by omega
  have hpieces : linePieces ((b :: bs).length / 128 + 2) (128 * n) (b :: bs) = [(128 * n, b :: bs)] := by
    simp only [linePieces, hmod, Nat.sub_zero, List.take_of_length_le hlen, List.drop_of_length_le hlen]
  simp only [physWrite, dmaWrite, hpieces, List.foldl_cons, List.foldl_nil, rangeOf_line hn]

/-- It brings its line in and evicts line `k`, which is not written back (R167). -/
theorem LoneLine.physGet_write (h : LoneLine k s) (hk : k < 2 ^ 30) (hn : n < 2 ^ 30) (hne : k ≠ n) (hset : setIdx k = setIdx n)
    (hpos : data ≠ []) (hlen : data.length ≤ 128) : physGet (physWrite (128 * n) data s) (128 * k) = 0 := by
  have hout : cachedLine n s.memStacks[(0 : Fin 32)] = none := by
    rw [h.stack]
    simp [cachedLine, cacheSetOf_oneWayStack hset, oneWaySet, hne]
  have hwrite : cacheWrite 0 (128 * n) data .none s =
      cacheInsert 0 ⟨n, 0, mergeLine (lineData 0 n s) (128 * n % 128) data, true, false⟩ true s := by
    simp only [cacheWrite, lineNo_line hn, hout]
    rfl
  obtain ⟨w, hins⟩ := cacheInsert_evicts_clean (i := 0) (s := s) (c := oneWaySet k)
    (l := ⟨n, 0, mergeLine (lineData 0 n s) (128 * n % 128) data, true, false⟩)
    (by rw [h.stack, cacheSetOf_oneWayStack hset]) rfl (by rw [h.stack]; rfl) hne rfl rfl rfl
  rw [physWrite_line hn hpos hlen, physGet_markStale, hwrite, hins]
  simp only [physGet, rangeOf_line hk, lineNo_line hk, getElem_modStack, h.stack]
  simp [cachedLine, cacheSetOf, oneWayStack, oneWaySet, putSet, hne.symm, h.dram, memGet]

end

/-! #### The package -/

/-- A reduction whose reduced buffer lies in line `n` of stack 0. -/
def lineRed (n : Nat) : PlanEntry := { lineZeroRed with dst := 2 ^ 60 + 128 * n }

/-- A RESULT of its first element, which is 0; the digest of that is 0. -/
def zeroResult : Msg := { badContrib with type := 2, digest := 0, payload := [0, 0, 0, 0] }

/-- The package of `evicting k n` with that job, the message at port X+. -/
def resultEvicting (k n : Nat) : State :=
  { evicting k n with
    fabric := Vector.replicate 6 { FabPort.reset with inbox := [zeroResult] }
    job := { JobCtl.reset with state := .running, image := some { replicaImage with plan := [lineRed n] } } }

/-- The same package once the message has left its buffer. -/
def resultEvictingNow (k n : Nat) : State := dropFront .xp 3 false (resultEvicting k n)

section
variable {n : Nat} (k : Nat)

theorem resultEvictingNow_loneLine (n : Nat) : LoneLine k (resultEvictingNow k n) := ⟨evictingNow_stack k n 0, evictingNow_mem k n⟩

theorem ptr_lineRed (hn : n < 2 ^ 30) : ptr (lineRed n).dst = .phys (128 * n) := ptr_byteQueue hn

/-- No write is parked. -/
theorem settlePlan_resultEvictingNow (hn : n < 2 ^ 30) : settlePlan (lineRed n) (resultEvictingNow k n) = resultEvictingNow k n := by
  simp only [settlePlan, settlePtr, ptr_lineRed hn, Nat.add_zero, (resultEvictingNow_loneLine k n).settled hn]

theorem levelIdx_resultEvictingNow (n : Nat) : levelIdx (levelsOf (lineRed n) (resultEvictingNow k n)) zeroResult.axis = some 0 := rfl

theorem elemsOf_zeroResult (n : Nat) : elemsOf (lineRed n).kind zeroResult.payload = [0] := by
  show elemsOf 0 [0, 0, 0, 0] = [0]
  decide

theorem elemBytes_zeroResult (n : Nat) : elemBytes (lineRed n).kind (elemsOf (lineRed n).kind zeroResult.payload) = [0, 0, 0, 0] := by
  rw [elemsOf_zeroResult]
  show elemBytes 0 [0] = [0, 0, 0, 0]
  decide

theorem lineRed_kind (n : Nat) : (lineRed n).kind ≠ 5 := Nat.zero_ne_add_one 4

theorem zeroResult_digest (n : Nat) :
    digestAt (lineRed n).kind zeroResult.step (lineRed n).redid zeroResult.offset (elemsOf (lineRed n).kind zeroResult.payload)
      (resultEvictingNow k n) = zeroResult.digest := by
  rw [elemsOf_zeroResult]
  show digest 0 0 7 0 [0] = 0
  decide

/-- The reduced buffer can be reached. -/
theorem ptrCause_resultEvictingNow (hn : n < 2 ^ 30) : ptrCause .hub (lineRed n).dst (elemSize (lineRed n).kind * zeroResult.offset)
    (elemBytes (lineRed n).kind (elemsOf (lineRed n).kind zeroResult.payload)).length (resultEvictingNow k n) = none := by
  have hrange : ∀ x, 128 * n ≤ x → x < 128 * n + 128 → rangeOf x = .stack 0 := by
    intro x hlo hhi
    have hx : x / 2 ^ 37 = 0 := by omega
    simp only [rangeOf, hx]
    rfl
  have hfree : ∀ x, 128 * n ≤ x → x < 128 * n + 128 → accessCause .hub x 1 (resultEvictingNow k n) = none := by
    intro x hlo hhi
    have hstack := (resultEvictingNow_loneLine k n).stack
    have hpath : pathOk .hub 0 (resultEvictingNow k n) = true := rfl
    simp only [accessCause, Nat.add_sub_cancel, hrange x hlo hhi, ne_eq, not_true_eq_false, if_false, hstack, hpath]
    rfl
  rw [elemBytes_zeroResult]
  show ptrCause .hub (lineRed n).dst 0 4 (resultEvictingNow k n) = none
  simp only [ptrCause, ptr_lineRed hn, spanCause]
  rw [hfree _ (by omega) (by omega), hfree _ (by omega) (by omega)]
  rfl

end

/-- Refutes O50, as O52 is refuted: `CachesOk` does not ask that the clean lines of a slice cache hold what DRAM holds. In `resultEvicting k n`
line `k` reads as ones and is clean, and the element that lands in line `n` of the same set evicts it; a clean line is not written back
(R167), so line `k` reads as zeros afterwards, although the message does not name it. -/
theorem not_resultsAndExchanges : ¬ Obligations.ResultsAndExchanges := by
  unfold Obligations.ResultsAndExchanges
  intro h
  obtain ⟨k, hk, n, hn, hne, hset⟩ := exists_lines_same_set
  have hu : settlePlan (lineRed n) (dropFront .xp 3 false (resultEvicting k n)) = resultEvictingNow k n := settlePlan_resultEvictingNow k hn
  obtain ⟨hresult, -⟩ := h .xp false zeroResult (resultEvicting k n) rfl rfl
  obtain ⟨-, hgood, -⟩ := hresult (lineRed n) 0 rfl rfl rfl (lineRed_kind n) (hu.symm ▸ levelIdx_resultEvictingNow k n)
  obtain ⟨t, hexec, -, -, -, hmem, -⟩ := hgood (hu.symm ▸ zeroResult_digest k n) (hu.symm ▸ ptrCause_resultEvictingNow k hn)
  rw [exec_result (m := zeroResult) (r := lineRed n) rfl rfl rfl rfl, hu] at hexec
  obtain rfl := Host.Outcome.next.inj hexec
  have hstores := hmem _ (ptr_lineRed hn) (hu.symm ▸ evictingNow_cachesOk hk n)
  rw [elemBytes_zeroResult] at hstores
  have hkept : physGet (recvResult (lineRed n) zeroResult (resultEvictingNow k n)) (128 * k) = physGet (resultEvictingNow k n) (128 * k) := by
    refine (hstores (128 * k)).trans ((if_neg fun hin => ?_).trans (congrArg (physGet · (128 * k)) hu))
    obtain ⟨hlo, hhi⟩ : 128 * n ≤ 128 * k ∧ 128 * k < 128 * n + 4 := hin
    omega
  have hlost : physGet (recvResult (lineRed n) zeroResult (resultEvictingNow k n)) (128 * k) = 0 := by
    rw [recvResult_memory (levelIdx_resultEvictingNow k n) (zeroResult_digest k n) (lineRed_kind n) (ptrCause_resultEvictingNow k hn)]
    simp only [ptrWrite, ptrWriteH, ptr_lineRed hn, elemBytes_zeroResult]
    exact (resultEvictingNow_loneLine k n).physGet_write hk hn hne hset (by decide) (by decide)
  have hone : physGet (resultEvictingNow k n) (128 * k) = 1 := physGet_evictingNow n hk
  exact absurd (hlost.symm.trans (hkept.trans hone)) (by decide)

end Sys2Proof.Proofs

/-! ### Every command completes, and the event log stays whole (R275) -/

namespace Sys2Proof.Proofs

open Machine Laws

/-- What every command leaves of the queue, the model's time and the outputs; a power-on reset alone takes back an event. -/
structure OnlyAdds (i : Instr) (s t : State) : Prop where
  pending : t.pending = s.pending
  now : t.now = s.now
  out : s.out <+: t.out
  seq : (∀ held, i ≠ .powerOnReset held) → s.seq ≤ t.seq

theorem onlyAdds_of_run {i : Instr} {s t : State} (h : Run commandFields s t) : OnlyAdds i s t :=
  ⟨h.same .pending rfl, h.same .now rfl, h.out, fun _ => h.seq⟩

/-- A low of PWROK: nothing where no power is up, the reset where it lasts 2 µs, else a counted pulse (R317, R332, R333). -/
theorem execPowerOnReset_next {held : Nat} {s t : State} (h : execPowerOnReset held s = .next t) :
    Run commandFields s t ∨ t = powerOff s := by
  obtain rfl := Host.Outcome.next.inj h
  split
  · exact .inl (.refl _ s)
  · split
    · exact .inr rfl
    · exact .inl (countInput_run _ _ s (.refl _ s) (by decide))

theorem exec_onlyAdds (i : Instr) (s : State) : ∃ t, exec i s = .next t ∧ OnlyAdds i s t := by
  by_cases hi : ∃ held, i = .powerOnReset held
  · obtain ⟨held, rfl⟩ := hi
    refine ⟨_, rfl, ?_⟩
    rcases execPowerOnReset_next (s := s) (held := held) rfl with h | h
    · exact onlyAdds_of_run h
    · rw [h]
      exact ⟨rfl, rfl, List.prefix_refl _, fun hne => absurd rfl (hne held)⟩
  · obtain ⟨t, ht, hrun⟩ := exec_runs i s fun held heq => hi ⟨held, heq⟩
    exact ⟨t, ht, onlyAdds_of_run hrun⟩

/-- Settles O5: every command but a power-on reset is a `Run` over `commandFields`, and the reset keeps queue, time and outputs. -/
theorem commandsOnlyAdd : Obligations.CommandsOnlyAdd := by
  unfold Obligations.CommandsOnlyAdd
  intro i s
  obtain ⟨t, ht, hadds⟩ := exec_onlyAdds i s
  exact ⟨t, ht, hadds.pending, hadds.now, hadds.out, hadds.seq⟩

theorem exec_logOk (i : Instr) {s t : State} (h : LogOk s) (ht : exec i s = .next t) : LogOk t := by
  by_cases hi : ∃ held, i = .powerOnReset held
  · obtain ⟨held, rfl⟩ := hi
    rcases execPowerOnReset_next ht with hrun | rfl
    · exact hrun.log h
    · exact powerOff_log s
  · obtain ⟨u, hu, hrun⟩ := exec_runs i s fun held heq => hi ⟨held, heq⟩
    obtain rfl := Host.Outcome.next.inj (ht.symm.trans hu)
    exact hrun.log h

/-- Settles O6: a nanosecond logs nothing, a power-on reset starts an empty log, and every other command is a `Run`, which writes the log
through `logAt` alone. -/
theorem eventLogStaysWhole : Obligations.EventLogStaysWhole := by
  unfold Obligations.EventLogStaysWhole
  intro s t h ht
  unfold step at ht
  split at ht
  next =>
    obtain rfl := Host.Outcome.next.inj ht
    exact h
  next c rest hp =>
    have hpop : LogOk { s with pending := rest } := h
    exact exec_logOk c hpop ht

end Sys2Proof.Proofs

/-! ### The event log: what an event writes, and how long its entry stays (R275, Table 10.12) -/

namespace Sys2Proof.Proofs

open Machine Laws

/-! #### Interrupts of an event -/

/-- The MSI-X message that a cause of a port sends, where one goes out (Table 10.12). -/
def msixOf (p : HPort) (v : Nat) (s : State) : List Out :=
  if (hostOf p s).irqen.getLsbD v && !(hostOf p s).inReset then [.msix p v] else []

theorem raiseIrq_eq (p : HPort) (v : Nat) (s : State) :
    raiseIrq p v s =
      { modHost p (fun h => { h with irqst := h.irqst ||| BitVec.ofNat 4 (2 ^ v) }) s with out := s.out ++ msixOf p v s } := by
  unfold raiseIrq msixOf
  cases p <;> (dsimp only; split <;> simp [emit, modHost])

theorem raiseIrq_if_a (c : Prop) [Decidable c] (s : State) :
    (if c then raiseIrq .a 1 s else s) =
      { s with hostA := if c then { s.hostA with irqst := s.hostA.irqst ||| 2 } else s.hostA
               out := s.out ++ if c then msixOf .a 1 s else [] } := by
  by_cases h : c <;> simp [h, raiseIrq_eq, modHost]

theorem raiseIrq_if_b (c : Prop) [Decidable c] (s : State) :
    (if c then raiseIrq .b 1 s else s) =
      { s with hostB := if c then { s.hostB with irqst := s.hostB.irqst ||| 2 } else s.hostB
               out := s.out ++ if c then msixOf .b 1 s else [] } := by
  by_cases h : c <;> simp [h, raiseIrq_eq, modHost]

/-- Settles O4: an event is its entry in front of the log, then `raiseIrq` on each port whose ELLVL it reaches. -/
theorem loggingAnEvent : Obligations.LoggingAnEvent := by
  unfold Obligations.LoggingAnEvent
  intro code unit d0 d1 d2 d3 s
  simp only [logEv, logAt, raiseIrq_if_a, raiseIrq_if_b]
  by_cases hA : s.hostA.ellvl.toNat ≤ evLevel code <;> by_cases hB : s.hostB.ellvl.toNat ≤ evLevel code <;>
    simp [hA, hB, msixOf, hostOf]

/-! #### How far an entry moves back -/

/-- Between `s` and `t` at most `n` events are logged: an entry moves back by at most `n` places, and leaves the log only beyond the last
of its 4,096. -/
def LogsAtMost (n : Nat) (s t : State) : Prop :=
  ∀ (i : Nat) (l : LogEntry), s.log[i]? = some l → i + n < 4096 → ∃ j, j ≤ i + n ∧ t.log[j]? = some l

theorem LogsAtMost.of_log_eq {s t : State} (h : t.log = s.log) : LogsAtMost 0 s t := fun i _ hl _ => ⟨i, Nat.le_refl _, h ▸ hl⟩

theorem LogsAtMost.trans {m n : Nat} {s t u : State} (h : LogsAtMost m s t) (k : LogsAtMost n t u) : LogsAtMost (m + n) s u := by
  intro i l hl hi
  obtain ⟨j, hj, hjl⟩ := h i l hl (by omega)
  obtain ⟨k, hk, hkl⟩ := k j l hjl (by omega)
  exact ⟨k, by omega, hkl⟩

theorem LogsAtMost.mono {m n : Nat} {s t : State} (h : LogsAtMost m s t) (hmn : m ≤ n) : LogsAtMost n s t := fun i l hl hi =>
  have ⟨j, hj, hjl⟩ := h i l hl (by omega)
  ⟨j, by omega, hjl⟩

theorem logEv_logsAtMost (code unit d0 d1 d2 d3 : Nat) (s : State) : LogsAtMost 1 s (logEv code unit d0 d1 d2 d3 s) := by
  intro i l hl hi
  refine ⟨i + 1, Nat.le_refl _, ?_⟩
  rw [logEv_log, List.getElem?_take_of_lt hi, List.getElem?_cons_succ]
  exact hl

/-- The newest entry of the log stays in it over fewer than 4,096 events. -/
theorem LogsAtMost.newest_mem {n : Nat} {s t : State} (h : LogsAtMost n s t) (hn : n < 4096) {l : LogEntry} (hl : s.log[0]? = some l) :
    l ∈ t.log :=
  have ⟨_, _, hj⟩ := h 0 l hl (by omega)
  List.mem_of_getElem? hj

theorem logEv_newest (code unit d0 d1 d2 d3 : Nat) (s : State) :
    (logEv code unit d0 d1 d2 d3 s).log[0]? = some (eventEntry code unit d0 d1 d2 d3 s) := by
  rw [logEv_log]
  rfl

/-! #### What mailboxes log -/

theorem popEntry_log (mb : Mbox) (s : State) : (popEntry mb s).log = s.log := by cases mb <;> rfl

theorem putCpl_logsAtMost (mb : Mbox) (e : Bytes) (kind st d r f : Nat) (discard : Bool) (s : State) :
    LogsAtMost 1 s (putCpl mb e kind st d r f discard s) :=
  .trans (logEv_logsAtMost _ _ _ _ _ _ s) (.of_log_eq (putCpl_log mb e kind st d r f discard s))

theorem refuse_logsAtMost (mb : Mbox) (e : Bytes) (st : Nat) (s : State) : LogsAtMost 2 s (refuse mb e st s) :=
  .trans (logEv_logsAtMost _ _ _ _ _ _ s) (putCpl_logsAtMost _ _ _ _ _ _ _ _ _)

/-- Refusing what is no command logs two events an entry. -/
theorem drainBad_logsAtMost (mb : Mbox) (n : Nat) (s : State) : LogsAtMost (2 * n) s (drainBad mb n s) := by
  induction n generalizing s with
  | zero => exact .of_log_eq rfl
  | succ n ih =>
    have hstay : LogsAtMost (2 * (n + 1)) s s := (LogsAtMost.of_log_eq rfl).mono (Nat.zero_le _)
    unfold drainBad
    split
    next e _ =>
      split
      next hbad =>
        obtain ⟨hop, -⟩ := Bool.and_eq_true_iff.mp hbad
        rw [takeEntry_unknown hop]
        have hpop : LogsAtMost 0 s (popEntry mb s) := .of_log_eq (popEntry_log mb s)
        exact ((hpop.trans (refuse_logsAtMost mb e 2 _)).trans (ih _)).mono (by omega)
      next => exact hstay
    next => exact hstay

theorem drain_logsAtMost (mb : Mbox) (s : State) : LogsAtMost 2048 s (drain mb s) := drainBad_logsAtMost mb 1024 s

end Sys2Proof.Proofs

/-! ### The lock of the package (R259, R260) -/

namespace Sys2Proof.Proofs

open Machine Laws

/-! #### What the log of a write leaves -/

/-- A `Run` over ports, lock, queues, log and outputs, as the one record update that it is. -/
theorem eq_registers_upd {s t : State} (h : Run [.out, .hostA, .hostB, .lock, .queues, .seq, .log] s t) :
    t = { s with lock := t.lock, queues := t.queues, hostA := t.hostA, hostB := t.hostB, out := t.out, seq := t.seq, log := t.log } :=
  State.ext (h.same .pending rfl) (h.same .now rfl) (h.same .freeCtr rfl) rfl (h.same .power rfl) (h.same .plls rfl)
    (h.same .tide rfl) (h.same .tideHi rfl) rfl rfl rfl (h.same .i3c rfl) (h.same .peer rfl) (h.same .warden rfl) rfl rfl
    rfl (h.same .job rfl) (h.same .exec rfl) (h.same .gauges rfl) (h.same .dies rfl) (h.same .cores rfl)
    (h.same .coreStore rfl) (h.same .memStacks rfl) (h.same .mem rfl) (h.same .far rfl) (h.same .links rfl)
    (h.same .levee rfl) (h.same .fabric rfl) (h.same .twin rfl) (h.same .flash rfl) (h.same .inspect rfl)

/-- The same where no queue changes. -/
theorem eq_lock_upd {s t : State} (h : Run [.out, .hostA, .hostB, .lock, .seq, .log] s t) :
    t = { s with lock := t.lock, hostA := t.hostA, hostB := t.hostB, out := t.out, seq := t.seq, log := t.log } := by
  have hq : t.queues = s.queues := h.same .queues rfl
  simpa only [hq] using eq_registers_upd (h.mono (by decide))

theorem logDiff_ports_run (p : HPort) (off v : Nat) (s : State) : Run [.out, .hostA, .hostB, .seq, .log] s (logDiff p off v s) :=
  logDiff_run p off v s (.refl _ s) (by decide)

theorem logDiff_onlyCauses (p : HPort) (off v : Nat) (s : State) : OnlyCauses s (logDiff p off v s) := by
  unfold logDiff
  extract_lets d
  split
  · exact .refl s
  · exact logWrite_onlyCauses p off v d s

@[simp] theorem logDiff_lock (p : HPort) (off v : Nat) (s : State) : (logDiff p off v s).lock = s.lock :=
  (logDiff_ports_run p off v s).same .lock rfl

@[simp] theorem logDiff_now (p : HPort) (off v : Nat) (s : State) : (logDiff p off v s).now = s.now :=
  (logDiff_ports_run p off v s).same .now rfl

@[simp] theorem hostOf_logDiff_mb (q p : HPort) (off v : Nat) (s : State) : (hostOf q (logDiff p off v s)).mb = (hostOf q s).mb :=
  (logDiff_onlyCauses p off v s).mb q

@[simp] theorem logEv_lock (code unit d0 d1 d2 d3 : Nat) (s : State) : (logEv code unit d0 d1 d2 d3 s).lock = s.lock :=
  (logEv_ports_run code unit d0 d1 d2 d3 s).same .lock rfl

/-- A write that is ignored as a whole leaves the lock and is logged with its offset and value (R6). -/
theorem logIgnored_records (p : HPort) {off : Nat} (v : BitVec 32) (s : State) (hoff : off < 2 ^ 64) :
    let t := logIgnored p off v.toNat s
    t.lock = s.lock ∧ t.seq = s.seq + 1 ∧ ∃ l ∈ t.log, l.seq = t.seq ∧ l.code = 0x0001 ∧ l.d0 = off ∧ l.d1 = v.toNat := by
  have hv : v.toNat < 2 ^ 64 := Nat.lt_trans v.isLt (by decide)
  exact ⟨logEv_lock .., logEv_seq .., _, eventEntry_mem_logEv .., (logEv_seq ..).symm, rfl, Nat.mod_eq_of_lt hoff, Nat.mod_eq_of_lt hv⟩

/-! #### Lock events -/

@[simp] theorem logLock_lock (what : Nat) (p : HPort) (s : State) : (logLock what p s).lock = s.lock := logEv_lock ..

/-- Event 0x0060 names what happened, the port and the generation (R260). -/
theorem logLock_records (what : Nat) (p : HPort) (s : State) (hwhat : what < 2 ^ 64) :
    ∃ l ∈ (logLock what p s).log, l.seq = (logLock what p s).seq ∧ l.code = 0x0060 ∧ l.d0 = what ∧ l.d1 = hportNo p ∧
      l.d2 = s.lock.gen.toNat := by
  have hgen : s.lock.gen.toNat < 2 ^ 64 := Nat.lt_trans s.lock.gen.isLt (by decide)
  have hp : hportNo p < 2 ^ 64 := by cases p <;> decide
  exact ⟨_, eventEntry_mem_logEv .., (logEv_seq ..).symm, rfl, Nat.mod_eq_of_lt hwhat, Nat.mod_eq_of_lt hp, Nat.mod_eq_of_lt hgen⟩

theorem freeLock_of_owner {p : HPort} {s : State} (h : s.lock.owner = some p) (what : Nat) :
    freeLock what s = logLock what p { s with lock := { s.lock with owner := none } } := by
  simp only [freeLock, h]

/-- A lock that is taken: the next generation, and the lease from now on (R259, R260). -/
theorem acquireLock_effect (p : HPort) (s : State) :
    (acquireLock p s).lock =
        { gen := s.lock.gen + 1, owner := some p, lease := s.lock.lease, leaseEnd := s.now + s.lock.lease.toNat * 1000000 } ∧
      ∃ l ∈ (acquireLock p s).log, l.seq = (acquireLock p s).seq ∧ l.code = 0x0060 ∧ l.d0 = 0 ∧ l.d1 = hportNo p ∧
        l.d2 = (s.lock.gen + 1).toNat :=
  ⟨logLock_lock .., logLock_records 0 p (restartLease { s with lock := { s.lock with owner := some p, gen := s.lock.gen + 1 } }) (by decide)⟩

/-! #### A write of the lock word -/

theorem getLsbD_of_lockBits {v : BitVec 32} {x : BitVec 3} (h : v.extractLsb' 0 3 = x) :
    v.getLsbD 2 = x.getLsbD 2 ∧ v.getLsbD 1 = x.getLsbD 1 ∧ v.getLsbD 0 = x.getLsbD 0 := by
  subst h
  simp

section
variable {p : HPort} {v : BitVec 32} {s : State}

theorem writeLock_none (h : v.extractLsb' 0 3 = 0) : writeLock p v s = logDiff p 0x1000 v.toNat s := by
  obtain ⟨h2, h1, h0⟩ : v.getLsbD 2 = false ∧ v.getLsbD 1 = false ∧ v.getLsbD 0 = false := getLsbD_of_lockBits h
  simp only [writeLock, h2, h1, h0]

theorem writeLock_acq (h : v.extractLsb' 0 3 = 1) :
    writeLock p v s = if s.lock.owner.isNone then acquireLock p (logDiff p 0x1000 v.toNat s) else logDiff p 0x1000 v.toNat s := by
  obtain ⟨h2, h1, h0⟩ : v.getLsbD 2 = false ∧ v.getLsbD 1 = false ∧ v.getLsbD 0 = true := getLsbD_of_lockBits h
  simp only [writeLock, h2, h1, h0, logDiff_lock]

theorem writeLock_renew (h : v.extractLsb' 0 3 = 2) :
    writeLock p v s =
      if s.lock.owner == some p then restartLease (logDiff p 0x1000 v.toNat s) else logIgnored p 0x1000 v.toNat s := by
  obtain ⟨h2, h1, h0⟩ : v.getLsbD 2 = false ∧ v.getLsbD 1 = true ∧ v.getLsbD 0 = false := getLsbD_of_lockBits h
  simp only [writeLock, h2, h1, h0]

theorem writeLock_rel (h : v.extractLsb' 0 3 = 4) :
    writeLock p v s =
      if s.lock.owner == some p then freeLock 1 (logDiff p 0x1000 v.toNat s) else logIgnored p 0x1000 v.toNat s := by
  obtain ⟨h2, h1, h0⟩ : v.getLsbD 2 = true ∧ v.getLsbD 1 = false ∧ v.getLsbD 0 = false := getLsbD_of_lockBits h
  simp only [writeLock, h2, h1, h0]

theorem writeLock_several (h : v.extractLsb' 0 3 = 3 ∨ v.extractLsb' 0 3 = 5 ∨ v.extractLsb' 0 3 = 6 ∨ v.extractLsb' 0 3 = 7) :
    writeLock p v s = logIgnored p 0x1000 v.toNat s := by
  rcases h with h | h | h | h
  · obtain ⟨h2, h1, h0⟩ : v.getLsbD 2 = false ∧ v.getLsbD 1 = true ∧ v.getLsbD 0 = true := getLsbD_of_lockBits h
    simp only [writeLock, h2, h1, h0]
  · obtain ⟨h2, h1, h0⟩ : v.getLsbD 2 = true ∧ v.getLsbD 1 = false ∧ v.getLsbD 0 = true := getLsbD_of_lockBits h
    simp only [writeLock, h2, h1, h0]
  · obtain ⟨h2, h1, h0⟩ : v.getLsbD 2 = true ∧ v.getLsbD 1 = true ∧ v.getLsbD 0 = false := getLsbD_of_lockBits h
    simp only [writeLock, h2, h1, h0]
  · obtain ⟨h2, h1, h0⟩ : v.getLsbD 2 = true ∧ v.getLsbD 1 = true ∧ v.getLsbD 0 = true := getLsbD_of_lockBits h
    simp only [writeLock, h2, h1, h0]

theorem lockBits_cases : ∀ x : BitVec 3, x ≠ 0 → x ≠ 1 → x = 2 ∨ x = 4 ∨ x = 3 ∨ x = 5 ∨ x = 6 ∨ x = 7 := by decide

/-- More than one of REL, RENEW and ACQ, and REL or RENEW by a port that is not the owner, are ignored (R259). -/
theorem writeLock_ignored (h0 : v.extractLsb' 0 3 ≠ 0) (h1 : v.extractLsb' 0 3 ≠ 1)
    (hown : s.lock.owner = some p → v.extractLsb' 0 3 ≠ 2 ∧ v.extractLsb' 0 3 ≠ 4) :
    writeLock p v s = logIgnored p 0x1000 v.toNat s := by
  rcases lockBits_cases _ h0 h1 with h | h | h
  · have hno : (s.lock.owner == some p) = false := beq_eq_false_iff_ne.mpr fun ho => (hown ho).1 h
    rw [writeLock_renew h, hno, if_neg Bool.false_ne_true]
  · have hno : (s.lock.owner == some p) = false := beq_eq_false_iff_ne.mpr fun ho => (hown ho).2 h
    rw [writeLock_rel h, hno, if_neg Bool.false_ne_true]
  · exact writeLock_several h

/-- ACQ of a free lock: the next generation, the lease from now on, event 0x0060 with D0 = 0 (R259, R260). -/
theorem writeLock_takes (h : v.extractLsb' 0 3 = 1) (hfree : s.lock.owner = none) :
    (writeLock p v s).lock =
        { gen := s.lock.gen + 1, owner := some p, lease := s.lock.lease, leaseEnd := s.now + s.lock.lease.toNat * 1000000 } ∧
      ∃ l ∈ (writeLock p v s).log, l.seq = (writeLock p v s).seq ∧ l.code = 0x0060 ∧ l.d0 = 0 ∧ l.d1 = hportNo p ∧
        l.d2 = (s.lock.gen + 1).toNat := by
  obtain ⟨hlock, hrecords⟩ := acquireLock_effect p (logDiff p 0x1000 v.toNat s)
  rw [logDiff_lock] at hrecords
  rw [logDiff_lock, logDiff_now] at hlock
  rw [writeLock_acq h, hfree, if_pos (by rfl)]
  exact ⟨hlock, hrecords⟩

theorem writeLock_renews (h : v.extractLsb' 0 3 = 2) (hown : s.lock.owner = some p) :
    (writeLock p v s).lock = { s.lock with leaseEnd := s.now + s.lock.lease.toNat * 1000000 } := by
  rw [writeLock_renew h, hown, if_pos (beq_self_eq_true _)]
  simp only [restartLease, logDiff_lock, logDiff_now]

/-- REL by the owner: event 0x0060 with D0 = 1 (R260). -/
theorem writeLock_releases (h : v.extractLsb' 0 3 = 4) (hown : s.lock.owner = some p) :
    (writeLock p v s).lock = { s.lock with owner := none } ∧
      ∃ l ∈ (writeLock p v s).log, l.seq = (writeLock p v s).seq ∧ l.code = 0x0060 ∧ l.d0 = 1 := by
  have hown' : (logDiff p 0x1000 v.toNat s).lock.owner = some p := (congrArg Lock.owner (logDiff_lock ..)).trans hown
  rw [writeLock_rel h, hown, if_pos (beq_self_eq_true _), freeLock_of_owner hown']
  obtain ⟨l, hl, hseq, hcode, hd0, -⟩ := logLock_records 1 p
    { logDiff p 0x1000 v.toNat s with lock := { (logDiff p 0x1000 v.toNat s).lock with owner := none } } (by decide)
  exact ⟨by simp only [logLock_lock, logDiff_lock], l, hl, hseq, hcode, hd0⟩

theorem writeLock_upd (p : HPort) (v : BitVec 32) (s : State) :
    writeLock p v s = { s with lock := (writeLock p v s).lock, hostA := (writeLock p v s).hostA, hostB := (writeLock p v s).hostB,
                               out := (writeLock p v s).out, seq := (writeLock p v s).seq, log := (writeLock p v s).log } :=
  eq_lock_upd (writeLock_run p v s (.refl _ s) (by decide))

theorem exec_lockWrite {i : Instr} (hp : portAlive p s = true) (hi : i ∈ [.acq p v, .rel p v, .renew p v]) :
    exec i s = .next (writeLock p v s) := by
  have hvia : Host.Outcome.next (viaPort p (writeLock p v) s) = (.next (writeLock p v s) : Host.Outcome State Fault Refusal) :=
    congrArg _ (viaPort_of_alive hp _)
  simp only [List.mem_cons, List.not_mem_nil, or_false] at hi
  rcases hi with rfl | rfl | rfl
  · exact hvia
  · exact hvia
  · exact hvia

/-! #### A write of LEASE -/

/-- LEASE by the owner, or by either port while the lock is free (R259). -/
theorem writeLease_takes (hown : s.lock.owner = none ∨ s.lock.owner = some p) (hlo : 100 ≤ v.toNat % 65536)
    (hhi : v.toNat % 65536 ≤ 60000) : (writeLease p v s).lock = { s.lock with lease := BitVec.ofNat 16 v.toNat } := by
  have hmod : BitVec.ofNat 16 (v.toNat % 65536) = BitVec.ofNat 16 v.toNat := by
    apply BitVec.eq_of_toNat_eq
    simp
  have hcond : (s.lock.owner.isNone = true ∨ s.lock.owner = some p) ∧ 100 ≤ v.toNat % 65536 ∧ v.toNat % 65536 ≤ 60000 :=
    ⟨hown.imp_left fun h => by rw [h]; rfl, hlo, hhi⟩
  simp only [writeLease, if_pos hcond, logDiff_lock, hmod]

theorem writeLease_ignored
    (h : (∃ q, q ≠ p ∧ s.lock.owner = some q) ∨ v.toNat % 65536 < 100 ∨ 60000 < v.toNat % 65536) :
    writeLease p v s = logIgnored p 0x1004 v.toNat s := by
  have hcond : ¬((s.lock.owner.isNone = true ∨ s.lock.owner = some p) ∧ 100 ≤ v.toNat % 65536 ∧ v.toNat % 65536 ≤ 60000) := by
    rintro ⟨hown, hlo, hhi⟩
    rcases h with ⟨q, hq, howner⟩ | h | h
    · simp [howner, hq] at hown
    · omega
    · omega
  simp only [writeLease, if_neg hcond]

theorem writeLease_upd (p : HPort) (v : BitVec 32) (s : State) :
    writeLease p v s = { s with lock := (writeLease p v s).lock, hostA := (writeLease p v s).hostA, hostB := (writeLease p v s).hostB,
                                out := (writeLease p v s).out, seq := (writeLease p v s).seq, log := (writeLease p v s).log } :=
  eq_lock_upd (writeLease_run p v s (.refl _ s) (by decide))

end

/-- Settles O17: each case of `writeLock` and `writeLease` by its own lemma; LEASE_EXPIRY frees the lock. -/
theorem lockAndLease : Obligations.LockAndLease := by
  unfold Obligations.LockAndLease
  refine ⟨fun p v s i hp hi => ⟨_, exec_lockWrite hp hi, writeLock_upd p v s, writeLock_takes, fun h hne => ?_, writeLock_renews,
    writeLock_releases, fun ⟨h0, h1, hown⟩ => ?_, fun h => ?_⟩, fun s => ⟨fun p v hp => ?_, fun p hown hend => ?_⟩⟩
  · rw [writeLock_acq h, if_neg (by simpa using hne), logDiff_lock]
  · rw [writeLock_ignored h0 h1 hown]
    exact logIgnored_records p v s (by decide)
  · rw [writeLock_none h, logDiff_lock]
  · refine ⟨_, congrArg Host.Outcome.next (viaPort_of_alive hp _), writeLease_upd p v s, writeLease_takes, fun h => ?_⟩
    rw [writeLease_ignored h]
    exact logIgnored_records p v s (by decide)
  · have hdue : s.lock.owner.isSome = true ∧ s.lock.leaseEnd ≤ s.now := ⟨by rw [hown]; rfl, hend⟩
    exact congrArg Host.Outcome.next ((if_pos hdue).trans (freeLock_of_owner hown 2))

end Sys2Proof.Proofs

/-! ### The window base and the latched high words (R257, R274, Tables 10.4, 10.12) -/

namespace Sys2Proof.Proofs

open Machine Laws

theorem baseOk_iff {b : Nat} :
    baseOk b = true ↔ b % 2 ^ 36 = 0 ∧ (b < 0x40000000000 ∨ 0x100000000000 ≤ b ∧ b < 0x180000000000) := by
  simp only [baseOk, Bool.and_eq_true, Bool.or_eq_true, beq_iff_eq, decide_eq_true_eq]

/-! #### Reads of several words -/

/-- `n` bytes hold the value modulo 256^n. -/
theorem leBytes_mod (n v : Nat) : leBytes n (v % 256 ^ n) = leBytes n v := by
  induction n generalizing v with
  | zero => rfl
  | succ n ih =>
    have hlow : v % 256 ^ (n + 1) % 256 = v % 256 := Nat.mod_mod_of_dvd v (dvd_pow_self 256 n.succ_ne_zero)
    have hhigh : v % 256 ^ (n + 1) / 256 = v / 256 % 256 ^ n := by
      rw [Nat.pow_succ', Nat.mod_mul_right_div_self]
    simp only [leBytes, hlow, hhigh, ih]

theorem readWords_succ (p : HPort) (n off : Nat) (s : State) :
    readWords p (n + 1) off s =
      (leBytes 4 (bar0Word p off s) ++ (readWords p n (off + 4) (latch p off s)).1, (readWords p n (off + 4) (latch p off s)).2) := rfl

theorem latch_other {off : Nat} (htide : off ≠ 0x0020) (hevent : off ≠ 0x3020) (p : HPort) (s : State) : latch p off s = s := by
  simp only [latch, if_neg htide, if_neg hevent]

/-- Words that latch nothing leave the state as it is. -/
theorem readWords_noLatch (p : HPort) (s : State) (n off : Nat) (h : ∀ i < n, off + 4 * i ≠ 0x0020 ∧ off + 4 * i ≠ 0x3020) :
    (readWords p n off s).2 = s := by
  induction n generalizing off with
  | zero => rfl
  | succ n ih =>
    obtain ⟨htide, hevent⟩ : off ≠ 0x0020 ∧ off ≠ 0x3020 := h 0 n.succ_pos
    rw [readWords_succ, latch_other htide hevent]
    exact ih (off + 4) fun i hi => by
      obtain ⟨h1, h2⟩ := h (i + 1) (Nat.succ_lt_succ hi)
      omega

/-- A read from an aligned word on that is the only one to latch: its value, the latch, and the word behind it as the latch left it. -/
theorem readBar0_latches {p : HPort} {off len : Nat} {s : State} (hoff : off % 4 = 0) (hlen : 1 ≤ len) (hmax : len ≤ 4096)
    (hrest : ∀ i < 1024, off + 4 + 4 * i ≠ 0x0020 ∧ off + 4 + 4 * i ≠ 0x3020) :
    ∃ bs, readBar0 p off (max 1 len) s = emit (.readResp p off bs) (latch p off s) ∧ bs.take 4 = leBytes 4 (bar0Word p off s) ∧
      (4 < len → (bs.drop 4).take 4 = leBytes 4 (bar0Word p (off + 4) (latch p off s))) := by
  obtain ⟨n, hn⟩ : ∃ n, cdiv (off % 4 + max 1 len) 4 = n + 1 :=
    Nat.exists_eq_succ_of_ne_zero (by unfold cdiv; omega)
  have hn1024 : n < 1024 := by unfold cdiv at hn; omega
  have hstate := readWords_noLatch p (latch p off s) n (off + 4) fun i hi => hrest i (by omega)
  refine ⟨(readWords p (n + 1) off s).1, ?_, ?_, fun h4 => ?_⟩
  · rw [readBar0, hn, hoff, Nat.sub_zero, readWords_succ, hstate]
  · rw [readWords_succ, List.take_left' (leBytes_length ..)]
  · obtain ⟨k, rfl⟩ : ∃ k, n = k + 1 := Nat.exists_eq_succ_of_ne_zero (by unfold cdiv at hn; omega)
    rw [readWords_succ, List.drop_left' (leBytes_length ..), readWords_succ, List.take_left' (leBytes_length ..)]

/-! #### The two pairs of words -/

theorem leBytes_word (v : Nat) : leBytes 4 (v % 2 ^ 32) = leBytes 4 v := leBytes_mod 4 v

section
variable {p : HPort} {len : Nat} {s : State}

theorem tidelo_effect (hp : portAlive p s = true) (hlen : 1 ≤ len) (hmax : len ≤ 4096) :
    ∃ bs, exec (.tidelo p len) s =
        .next { s with tideHi := BitVec.ofNat 32 (tideNow s / 2 ^ 32), out := s.out ++ [.readResp p 0x0020 bs] } ∧
      bs.take 4 = leBytes 4 (tideNow s) ∧ (4 < len → (bs.drop 4).take 4 = leBytes 4 (tideNow s / 2 ^ 32)) := by
  obtain ⟨bs, hread, hlow, hhigh⟩ := readBar0_latches (p := p) (off := 0x0020) (s := s) rfl hlen hmax fun i hi => by omega
  exact ⟨bs, congrArg Host.Outcome.next ((viaPort_of_alive hp _).trans hread), hlow.trans (leBytes_word _),
    fun h4 => (hhigh h4).trans (leBytes_word _)⟩

theorem elseqlo_effect (hp : portAlive p s = true) (hlen : 1 ≤ len) (hmax : len ≤ 4096) :
    ∃ bs, exec (.elseqlo p len) s =
        .next (emit (.readResp p 0x3020 bs) (modHost p (fun h => { h with elseqHi := BitVec.ofNat 32 (s.seq / 2 ^ 32) }) s)) ∧
      bs.take 4 = leBytes 4 s.seq ∧ (4 < len → (bs.drop 4).take 4 = leBytes 4 (s.seq / 2 ^ 32)) := by
  obtain ⟨bs, hread, hlow, hhigh⟩ := readBar0_latches (p := p) (off := 0x3020) (s := s) rfl hlen hmax fun i hi => by omega
  have hword : bar0Word p 0x3024 (latch p 0x3020 s) = s.seq / 2 ^ 32 % 2 ^ 32 := by
    show (hostOf p (modHost p (fun h => { h with elseqHi := BitVec.ofNat 32 (s.seq / 2 ^ 32) }) s)).elseqHi.toNat = _
    rw [hostOf_modHost, BitVec.toNat_ofNat]
  exact ⟨bs, congrArg Host.Outcome.next ((viaPort_of_alive hp _).trans hread), hlow.trans (leBytes_word _),
    fun h4 => (hhigh h4).trans (hword ▸ leBytes_word _)⟩

end

/-- Settles O21: WBASEHI by `baseOk`; the reads by `readBar0_latches`. -/
theorem windowBaseAndLatches : Obligations.WindowBaseAndLatches := by
  unfold Obligations.WindowBaseAndLatches
  refine ⟨fun p v s hp => ?_, fun p len s hp hlen hmax => ⟨tidelo_effect hp hlen hmax, elseqlo_effect hp hlen hmax⟩⟩
  intro b
  have hexec : exec (.wbasehi p v) s = .next (writeWbaseHi p v s) := congrArg Host.Outcome.next (viaPort_of_alive hp _)
  rw [hexec, writeWbaseHi]
  refine ⟨fun hal hrange => ?_, fun hbad => ?_⟩
  · rw [if_pos (baseOk_iff.mpr ⟨hal, hrange⟩)]
  · rw [if_neg (by rw [baseOk_iff]; omega)]

end Sys2Proof.Proofs

/-! ### What a drain leaves of a mailbox (R263, R267) -/

namespace Sys2Proof.Proofs

open Machine Laws

/-- Two changes of a port that agree on it as it stands. -/
theorem modHost_congr {p : HPort} {f g : HostPort → HostPort} {s : State} (h : f (hostOf p s) = g (hostOf p s)) :
    modHost p f s = modHost p g s := by
  cases p with
  | a => exact congrArg (fun x => { s with hostA := x }) h
  | b => exact congrArg (fun x => { s with hostB := x }) h

/-- Two changes of a port, one after the other. -/
theorem modHost_modHost (p : HPort) (f g : HostPort → HostPort) (s : State) :
    modHost p f (modHost p g s) = modHost p (fun h => f (g h)) s := by
  cases p <;> rfl

/-- The entries of a mailbox that the warden has seen. -/
def waitingIn (mb : Mbox) (s : State) : List Bytes :=
  match mboxPort mb with
  | some p => (hostOf p s).mb.waiting
  | none => s.i3c.waiting

theorem head?_of_headEntry {mb : Mbox} {e : Bytes} {s : State} (h : headEntry mb s = some e) : (waitingIn mb s).head? = some e := by
  unfold headEntry at h
  unfold waitingIn
  cases hp : mboxPort mb with
  | none => simpa only [hp] using h
  | some p =>
    simp only [hp] at h ⊢
    split at h
    · exact h
    · exact absurd h.symm (Option.some_ne_none e)

theorem eq_i3c_of_mboxPort_none {mb : Mbox} (h : mboxPort mb = none) : mb = .i3c := by
  cases mb with
  | hostA | hostB => exact absurd h (Option.some_ne_none _)
  | i3c => rfl

/-- A completion entry moves PPI of its own ring and nothing else of a mailbox (R266). -/
theorem putCpl_mb (q : HPort) (mb : Mbox) (e : Bytes) (kind st d r f : Nat) (discard : Bool) (s : State) :
    ∃ x, (hostOf q (putCpl mb e kind st d r f discard s)).mb = { (hostOf q s).mb with ppi := x } := by
  unfold putCpl
  extract_lets u seq
  have hu : (hostOf q u).mb = (hostOf q s).mb := hostOf_logEv_mb ..
  split
  · exact ⟨_, hu⟩
  · split
    · exact ⟨_, hu⟩
    next p _ =>
      extract_lets m n c v w
      obtain ⟨x, hw⟩ : ∃ x, (hostOf q w).mb = { (hostOf q s).mb with ppi := x } := by
        have hv : (hostOf q v).mb = (hostOf q s).mb := hu
        by_cases hq : q = p
        · subst hq
          refine ⟨BitVec.ofNat 16 (((hostOf q v).mb.ppi.toNat + 1) % (2 * n)), ?_⟩
          rw [← hv, show w = modHost q _ v from rfl, hostOf_modHost]
        · exact ⟨(hostOf q s).mb.ppi, by rw [show w = modHost p _ v from rfl, hostOf_modHost_ne hq, hv]⟩
      have hraise : ∀ k, (hostOf q (raiseIrq p k w)).mb = (hostOf q w).mb := fun k => (raiseIrq_onlyCauses p k w).mb q
      refine ⟨x, ?_⟩
      rw [← hw]
      split
      · exact hraise 0
      · split
        · exact hraise 3
        · rfl

theorem putCpl_i3c_waiting (mb : Mbox) (e : Bytes) (kind st d r f : Nat) (discard : Bool) (s : State) :
    (putCpl mb e kind st d r f discard s).i3c.waiting = s.i3c.waiting := by
  cases mb with
  | hostA | hostB => rw [putCpl_port_i3c rfl]
  | i3c => cases discard <;> simp [putCpl, mboxPort]

theorem refuse_waitingIn (mb mb' : Mbox) (e : Bytes) (st : Nat) (s : State) : waitingIn mb (refuse mb' e st s) = waitingIn mb s := by
  unfold waitingIn refuse
  cases hm : mboxPort mb with
  | none => simp only [putCpl_i3c_waiting, logEv_i3c]
  | some p =>
    obtain ⟨x, hx⟩ := putCpl_mb p mb' e 2 st 0 0 0 false (logEv 0x0002 (mboxUnit mb') (entOp e) st 0 (entTag e) s)
    simp only [hx, hostOf_logEv_mb]

theorem popEntry_waitingIn (mb : Mbox) (s : State) : waitingIn mb (popEntry mb s) = (waitingIn mb s).tail := by
  cases mb <;> rfl

/-- A drain ends at a command of Table 10.8, at a mailbox that cannot be read yet, or at an empty one. -/
theorem drainBad_front {mb : Mbox} {n : Nat} {s : State} (hlen : (waitingIn mb s).length ≤ n) {e : Bytes}
    (hfront : headEntry mb (drainBad mb n s) = some e) (hread : canAccept mb (drainBad mb n s) = true) :
    (cmdRow (entOp e)).isSome = true := by
  induction n generalizing s with
  | zero =>
    have hempty : waitingIn mb s = [] := List.eq_nil_of_length_eq_zero (Nat.le_zero.mp hlen)
    have hhead := head?_of_headEntry hfront
    rw [show drainBad mb 0 s = s from rfl, hempty] at hhead
    exact absurd hhead.symm (Option.some_ne_none e)
  | succ n ih =>
    unfold drainBad at hfront hread
    split at hfront
    next x hx =>
      simp only [hx] at hread
      split at hfront
      next hbad =>
        obtain ⟨hop, -⟩ := Bool.and_eq_true_iff.mp hbad
        rw [if_pos hbad] at hread
        rw [takeEntry_unknown hop] at hfront hread
        refine ih ?_ hfront hread
        rw [refuse_waitingIn, popEntry_waitingIn, List.length_tail]
        omega
      next hgood =>
        rw [if_neg hgood] at hread
        obtain rfl : x = e := Option.some_inj.mp (hx.symm.trans hfront)
        rw [hread, Bool.and_true, Bool.not_eq_true, Option.isNone_eq_false_iff] at hgood
        exact hgood
    next hnone => exact absurd hfront.symm (hnone ▸ Option.some_ne_none e)

theorem popEntry_cpi (q : HPort) (mb : Mbox) (s : State) : (hostOf q (popEntry mb s)).mb.cpi = (hostOf q s).mb.cpi := by
  cases mb <;> cases q <;> rfl

theorem refuse_cpi (q : HPort) (mb : Mbox) (e : Bytes) (st : Nat) (s : State) : (hostOf q (refuse mb e st s)).mb.cpi = (hostOf q s).mb.cpi := by
  obtain ⟨x, hx⟩ := putCpl_mb q mb e 2 st 0 0 0 false (logEv 0x0002 (mboxUnit mb) (entOp e) st 0 (entTag e) s)
  simp only [refuse, hx, hostOf_logEv_mb]

/-- The producer index of a command ring is the host's alone (R268). -/
theorem drain_cpi (q : HPort) (mb : Mbox) (s : State) : (hostOf q (drain mb s)).mb.cpi = (hostOf q s).mb.cpi := by
  unfold drain
  induction ringMost generalizing s with
  | zero => rfl
  | succ n ih =>
    unfold drainBad
    split
    next e _ =>
      split
      next hbad =>
        obtain ⟨hop, -⟩ := Bool.and_eq_true_iff.mp hbad
        rw [takeEntry_unknown hop, ih, refuse_cpi, popEntry_cpi]
      next => rfl
    next => rfl

end Sys2Proof.Proofs

/-! ### The command doorbell (R268) -/

namespace Sys2Proof.Proofs

open Machine Laws

/-! #### What a doorbell word logs of its reserved bits -/

/-- The bits of a word above its low half. -/
theorem and_upper_half {v : Nat} (h : v < 2 ^ 32) : v &&& 0xFFFF0000 = 0 ↔ v < 65536 := by
  have hdiv : (v &&& 0xFFFF0000) / 2 ^ 16 = v / 2 ^ 16 % 2 ^ 16 := by
    rw [Nat.and_div_two_pow]
    exact Nat.and_two_pow_sub_one_eq_mod (v / 2 ^ 16) 16
  have hmod : (v &&& 0xFFFF0000) % 2 ^ 16 = 0 := by
    rw [Nat.and_mod_two_pow]
    exact Nat.and_zero _
  omega

/-- Where a word defines its low half and reads 0, a write differs in its upper half. -/
theorem diffMask_half {off v : Nat} (hmask : writeMask off = some 0xFFFF) : diffMask off v 0 = v &&& 0xFFFF0000 := by
  simp [diffMask, hmask]

theorem logDiff_cdb_seq (p : HPort) (v : BitVec 32) (s : State) :
    (logDiff p 0x2020 v.toNat s).seq = s.seq + if v.toNat < 65536 then 0 else 1 := by
  have hdiff : diffMask 0x2020 v.toNat (bar0Word p 0x2020 s) = v.toNat &&& 0xFFFF0000 := diffMask_half rfl
  by_cases hv : v.toNat < 65536
  · rw [if_pos hv, logDiff_of_diffMask_zero (hdiff.trans ((and_upper_half v.isLt).mpr hv))]
    rfl
  · rw [if_neg hv, logDiff_of_diffMask_ne (hdiff ▸ mt (and_upper_half v.isLt).mp hv), logWrite_seq]

/-! #### A write of CDB -/

/-- Entries that a ring may still take. -/
def ringFree (m : Mailbox) : Nat := 2 ^ m.clog.toNat - (m.cpi.toNat + 2 * 2 ^ m.clog.toNat - m.cci.toNat) % (2 * 2 ^ m.clog.toNat)

/-- By how much a write moves the producer index of a ring. -/
def ringMoved (m : Mailbox) (new : Nat) : Nat := (new + 2 * 2 ^ m.clog.toNat - m.cpi.toNat) % (2 * 2 ^ m.clog.toNat)

section
variable {p : HPort} {v : BitVec 32} {es : List Bytes} {s : State} {new : Nat}

/-- A write that moves the producer index within the free space of the ring. -/
theorem writeCdb_moves (hnew : new = v.toNat % 65536) (hlt : new < 2 * 2 ^ (hostOf p s).mb.clog.toNat)
    (hne : new ≠ (hostOf p s).mb.cpi.toNat) (hfree : ringMoved (hostOf p s).mb new ≤ ringFree (hostOf p s).mb) :
    let taken := (List.range (ringMoved (hostOf p s).mb new)).map fun i => slice (es.getD i []) 0 128
    writeCdb p v es s = modHost p (fun h => { h with mb :=
      if (hostOf p s).mb.masked || !(hostOf p s).mb.en then { h.mb with cpi := BitVec.ofNat 16 new, unseen := h.mb.unseen ++ taken }
      else { h.mb with cpi := BitVec.ofNat 16 new, waiting := h.mb.waiting ++ taken } }) (logDiff p 0x2020 v.toNat s) := by
  subst hnew
  unfold ringMoved ringFree at hfree
  simp only [writeCdb, cSize, hostOf_logDiff_mb, if_neg (Nat.not_le.mpr hlt), if_neg hne, if_neg (Nat.not_lt.mpr hfree)]
  refine modHost_congr ?_
  rw [hostOf_logDiff_mb]
  rfl

/-- Any other write rings the doorbell for nothing, or is refused. -/
theorem writeCdb_bad (hnew : new = v.toNat % 65536)
    (h : 2 * 2 ^ (hostOf p s).mb.clog.toNat ≤ new ∨ new = (hostOf p s).mb.cpi.toNat ∨
      ringFree (hostOf p s).mb < ringMoved (hostOf p s).mb new) :
    writeCdb p v es s =
      badRing p (if new < 2 * 2 ^ (hostOf p s).mb.clog.toNat ∧ new = (hostOf p s).mb.cpi.toNat then 0 else 1) new
        (logDiff p 0x2020 v.toNat s) := by
  subst hnew
  unfold ringMoved ringFree at h
  simp only [writeCdb, cSize, hostOf_logDiff_mb]
  by_cases hbig : 2 * 2 ^ (hostOf p s).mb.clog.toNat ≤ v.toNat % 65536
  · rw [if_pos hbig, if_neg fun hc => Nat.not_lt.mpr hbig hc.1]
  · by_cases hsame : v.toNat % 65536 = (hostOf p s).mb.cpi.toNat
    · rw [if_neg hbig, if_pos hsame, if_pos ⟨Nat.not_le.mp hbig, hsame⟩]
    · rw [if_neg hbig, if_neg hsame, if_pos ((h.resolve_left hbig).resolve_left hsame), if_neg fun hc => hsame hc.2]

end

/-! #### A spurious ring or a refusal -/

theorem logRing_mb (q p : HPort) (queue ev v : Nat) (s : State) : (hostOf q (logRing p queue ev v s)).mb = (hostOf q s).mb :=
  hostOf_logEv_mb ..

/-- The mailbox keeps its indices: times of bad rings, and whether the doorbell is masked, are all that changes. -/
theorem badRing_cpi (p : HPort) (ev v : Nat) (s : State) : (hostOf p (badRing p ev v s)).mb.cpi = (hostOf p s).mb.cpi := by
  unfold badRing
  extract_lets u bad w
  have hw : (hostOf p w).mb.cpi = (hostOf p s).mb.cpi := by
    rw [show w = modHost p _ u from rfl, hostOf_modHost]
    show (hostOf p u).mb.cpi = _
    rw [show u = logRing p (ringQueue p) ev v s from rfl, logRing_mb]
  split
  · rw [logRing_mb, hostOf_modHost]
    exact hw
  · exact hw

theorem modHost_logsAtMost (p : HPort) (f : HostPort → HostPort) (s : State) : LogsAtMost 0 s (modHost p f s) :=
  .of_log_eq (modHost_log p f s)

/-- Event 0x0061 of a bad ring, and the one of masking at most behind it. -/
theorem badRing_logsAtMost (p : HPort) (ev v : Nat) (s : State) :
    LogsAtMost 1 (logRing p (ringQueue p) ev v s) (badRing p ev v s) := by
  unfold badRing
  extract_lets u bad w
  have hw : LogsAtMost 0 u w := modHost_logsAtMost p _ u
  split
  · have hmask := modHost_logsAtMost p (fun h => { h with mb := { h.mb with masked := true, lastPoll := w.now } }) w
    exact (hw.trans hmask).trans (logEv_logsAtMost _ _ _ _ _ _ _)
  · exact hw.mono (Nat.zero_le 1)

/-- Event 0x0061 names the doorbell, what it was, and the value (R268). -/
theorem badRing_entry (p : HPort) {ev v : Nat} (s : State) (hev : ev < 2 ^ 64) (hv : v < 2 ^ 64) :
    ∃ l ∈ (drain (portMbox p) (badRing p ev v s)).log, l.seq = s.seq + 1 ∧ l.code = 0x0061 ∧ l.d0 = 2 * hportNo p ∧ l.d1 = ev ∧ l.d2 = v := by
  have hstays := (badRing_logsAtMost p ev v s).trans (drain_logsAtMost (portMbox p) _)
  refine ⟨_, hstays.newest_mem (by decide) (logEv_newest ..), rfl, rfl, ?_, Nat.mod_eq_of_lt hev, Nat.mod_eq_of_lt hv⟩
  cases p <;> rfl

/-- Settles O18: a write of CDB by `writeCdb_moves` and `writeCdb_bad`; the front of a mailbox by induction over its drain. -/
theorem commandDoorbell : Obligations.CommandDoorbell := by
  unfold Obligations.CommandDoorbell
  refine ⟨fun p v es s hp => ?_, fun mb e s hport hi3c hfront hread => ?_⟩
  · intro m n new moved free taken
    have hexec : exec (.cdb p v es) s = .next (drain (portMbox p) (writeCdb p v es s)) :=
      congrArg (fun t => Host.Outcome.next (drain (portMbox p) t)) (viaPort_of_alive hp _)
    refine ⟨fun hlt hne hfree => ?_, fun hbad => ?_⟩
    · rw [hexec, writeCdb_moves rfl hlt hne hfree]
      rfl
    · have hnew : new < 2 ^ 64 := Nat.lt_trans (Nat.mod_lt _ (by decide)) (by decide : 65536 < 2 ^ 64)
      have hrun : Run [.out, .hostA, .hostB, .i3c, .seq, .log] s (drain (portMbox p) (writeCdb p v es s)) :=
        drain_run _ _ (writeCdb_run p v es s (.refl _ s) (by decide)) (by decide)
      refine ⟨_, hexec, ?_, eq_mailbox_upd hrun, ?_⟩
      · rw [drain_cpi, writeCdb_bad rfl hbad, badRing_cpi, hostOf_logDiff_mb]
      · rw [writeCdb_bad rfl hbad]
        obtain ⟨l, hl, hseq, hcode, hd0, hd1, hd2⟩ := badRing_entry p (ev := if new < 2 * n ∧ new = m.cpi.toNat then 0 else 1)
          (logDiff p 0x2020 v.toNat s) (by split <;> decide) hnew
        refine ⟨l, hl, ?_, hcode, hd0, hd1, hd2⟩
        rw [hseq, logDiff_cdb_seq]
        split <;> rfl
  · refine drainBad_front (n := ringMost) ?_ hfront hread
    unfold waitingIn
    split
    next p hmb => exact hport p hmb
    next hmb => exact hi3c (eq_i3c_of_mboxPort_none hmb)

end Sys2Proof.Proofs

/-! ### Masked doorbells and the enable of a mailbox (R264, R268, R273) -/

namespace Sys2Proof.Proofs

open Machine Laws

/-! #### Polling and unmasking -/

theorem modQueue_of_queueOf {q : Nat} {e : HwQueue} {s : State} (h : queueOf q s = some e) (p : HPort) (f : HwQueue → HwQueue) :
    modQueue q p f s = { s with queues := putQueue (f e) s.queues } := by
  simp only [modQueue, h, Option.getD_some]

/-- The record of a queue once the warden has taken up the index that its doorbell had moved (R273). -/
def seenQueue (e : HwQueue) : HwQueue :=
  match e.unseen with
  | some v => moveIndex e v
  | none => e

/-- The entries that a masked doorbell had kept from the warden, taken up (R268). -/
theorem seeEntries_eq (p : HPort) (s : State) :
    seeEntries p s = modHost p (fun h => { h with mb := { h.mb with waiting := h.mb.waiting ++ h.mb.unseen, unseen := [] } }) s := rfl

/-- DOORBELL_POLL of a command ring (R268). -/
theorem execDoorbellPoll_ring (p : HPort) (s : State) :
    let u := modHost p (fun h => { h with mb := { h.mb with lastPoll := s.now } }) s
    execDoorbellPoll (2 * hportNo p) s = .next (
      if pollDue (hostOf p s).mb.masked (hostOf p s).mb.lastPoll s then
        if (hostOf p u).mb.en then drain (portMbox p) (seeEntries p u) else u
      else s) := by
  cases p <;> rfl

/-- DOORBELL_UNMASK of a command ring (R268). -/
theorem execDoorbellUnmask_ring (p : HPort) (s : State) :
    execDoorbellUnmask (2 * hportNo p) s = .next (
      if (hostOf p s).mb.masked ∧ (hostOf p s).mb.lastBad + 10000000 ≤ s.now then
        logRing p (2 * hportNo p) 3 0 (seeEntries p (modHost p (fun h => { h with mb := { h.mb with masked := false } }) s))
      else s) := by
  cases p <;> simp [execDoorbellUnmask, hportNo]

theorem pollDue_of_due {masked : Bool} {last : Nat} {s : State} (hmask : masked = true) (hdue : last + 10000 ≤ s.now) :
    pollDue masked last s = true := by
  rw [pollDue, hmask, decide_eq_true hdue, Bool.and_self]

section
variable {p : HPort} {q : Nat} {e : HwQueue} {s : State}

/-- The warden looks at a masked doorbell every 10 µs (R268). -/
theorem doorbellPoll_ring (hmask : (hostOf p s).mb.masked = true) (hdue : (hostOf p s).mb.lastPoll + 10000 ≤ s.now) :
    let u := modHost p (fun h => { h with mb := { h.mb with lastPoll := s.now } }) s
    exec (.doorbellPoll (2 * hportNo p)) s = .next (if (hostOf p s).mb.en then drain (portMbox p) (seeEntries p u) else u) := by
  intro u
  have hen : (hostOf p u).mb.en = (hostOf p s).mb.en := congrArg (fun h => h.mb.en) (hostOf_modHost p _ s)
  rw [← hen]
  exact (execDoorbellPoll_ring p s).trans (congrArg Host.Outcome.next (if_pos (pollDue_of_due hmask hdue)))

/-- A masked doorbell is unmasked after 10 ms without a spurious ring or a refusal (R268). -/
theorem doorbellUnmask_ring (hmask : (hostOf p s).mb.masked = true) (hdue : (hostOf p s).mb.lastBad + 10000000 ≤ s.now) :
    exec (.doorbellUnmask (2 * hportNo p)) s =
      .next (logRing p (2 * hportNo p) 3 0 (seeEntries p (modHost p (fun h => { h with mb := { h.mb with masked := false } }) s))) :=
  (execDoorbellUnmask_ring p s).trans (congrArg Host.Outcome.next (if_pos ⟨hmask, hdue⟩))

/-- DOORBELL_POLL of a hardware queue (R273). -/
theorem doorbellPoll_queue (hq : 16 ≤ q) (he : queueOf q s = some e) (hmask : e.masked = true) (hdue : e.lastPoll + 10000 ≤ s.now) :
    exec (.doorbellPoll q) s = .next { s with queues := putQueue { seenQueue e with unseen := none, lastPoll := s.now } s.queues } := by
  show execDoorbellPoll q s = _
  simp only [execDoorbellPoll, if_neg (Nat.not_lt.mpr hq), he, pollDue_of_due hmask hdue, if_true, modQueue_of_queueOf he]
  rfl

/-- DOORBELL_UNMASK of a hardware queue (R273). -/
theorem doorbellUnmask_queue (hq : 16 ≤ q) (he : queueOf q s = some e) (hmask : e.masked = true)
    (hdue : e.lastBad + 10000000 ≤ s.now) :
    exec (.doorbellUnmask q) s =
      .next (logRing e.port q 3 0 { s with queues := putQueue { seenQueue e with masked := false, unseen := none } s.queues }) := by
  have hcond : e.masked = true ∧ e.lastBad + 10000000 ≤ s.now := ⟨hmask, hdue⟩
  show execDoorbellUnmask q s = _
  simp only [execDoorbellUnmask, if_neg (Nat.not_lt.mpr hq), he, if_pos hcond, modQueue_of_queueOf he]
  rfl

end

/-! #### MAILBOX_ENABLE -/

section
variable {p : HPort} {v : BitVec 32} {s : State}

theorem writeEn_refused (hon : v.getLsbD 0 = true) (hoff : (hostOf p s).mb.en = false) (hrings : ringsOk (hostOf p s).mb = false) :
    writeEn p v s = logWrite p 0x2030 v.toNat (diffMask 0x2030 v.toNat (bar0Word p 0x2030 s) ||| 1) s := by
  simp only [writeEn, hon, hoff, hrings, Bool.not_false, Bool.and_self, if_true]

/-- EN as written, where nothing forbids it; a doorbell that is not masked shows the entries it had moved (R264). -/
theorem writeEn_taken (h : v.getLsbD 0 = true → (hostOf p s).mb.en = true ∨ ringsOk (hostOf p s).mb = true) :
    writeEn p v s =
      let t := modHost p (fun h => { h with mb := { h.mb with en := v.getLsbD 0 } }) (logDiff p 0x2030 v.toNat s)
      if v.getLsbD 0 && !(hostOf p s).mb.masked then seeEntries p t else t := by
  have hno : (v.getLsbD 0 && !(hostOf p s).mb.en && !ringsOk (hostOf p s).mb) = false := by
    cases hv : v.getLsbD 0 with
    | false => rfl
    | true => rcases h hv with hok | hok <;> simp [hok]
  simp only [writeEn, hno, Bool.false_eq_true, if_false, hostOf_modHost, hostOf_logDiff_mb]

theorem writeEn_on (hon : v.getLsbD 0 = true) (h : (hostOf p s).mb.en = true ∨ ringsOk (hostOf p s).mb = true) :
    (hostOf p (writeEn p v s)).mb =
      if (hostOf p s).mb.masked then { (hostOf p s).mb with en := true }
      else { (hostOf p s).mb with en := true, waiting := (hostOf p s).mb.waiting ++ (hostOf p s).mb.unseen, unseen := [] } := by
  rw [writeEn_taken fun _ => h, hon]
  cases hmask : (hostOf p s).mb.masked with
  | true => simp
  | false => simp [seeEntries]

theorem writeEn_off (hoff : v.getLsbD 0 = false) : (hostOf p (writeEn p v s)).mb = { (hostOf p s).mb with en := false } := by
  have hon : v.getLsbD 0 ≠ true := by rw [hoff]; exact Bool.false_ne_true
  rw [writeEn_taken fun h => absurd h hon, hoff]
  simp

theorem writeEn_upd (p : HPort) (v : BitVec 32) (s : State) :
    writeEn p v s = { s with hostA := (writeEn p v s).hostA, hostB := (writeEn p v s).hostB, out := (writeEn p v s).out,
                             seq := (writeEn p v s).seq, log := (writeEn p v s).log } :=
  eq_port_upd (writeEn_run p v s (.refl _ s) (by decide))

/-- An enable that is refused leaves the mailbox and is logged (R264). -/
theorem writeEn_refused_effect (hon : v.getLsbD 0 = true) (hoff : (hostOf p s).mb.en = false) (hrings : ringsOk (hostOf p s).mb = false) :
    (hostOf p (writeEn p v s)).mb = (hostOf p s).mb ∧ (writeEn p v s).seq = s.seq + 1 ∧
      ∃ l ∈ (writeEn p v s).log, l.seq = (writeEn p v s).seq ∧ l.code = 0x0001 ∧ l.d0 = 0x2030 ∧ l.d1 = v.toNat := by
  rw [writeEn_refused hon hoff hrings]
  have hv : v.toNat < 2 ^ 64 := Nat.lt_trans v.isLt (by decide)
  exact ⟨OnlyCauses.mb (logWrite_onlyCauses p _ _ _ s) p, logWrite_seq .., _, eventEntry_mem_logEv .., (logWrite_seq ..).symm, rfl, rfl, Nat.mod_eq_of_lt hv⟩

end

/-- Settles O19: polling and unmasking by one lemma for a command ring and one for a hardware queue, MAILBOX_ENABLE by `writeEn_taken` and
`writeEn_refused`. -/
theorem maskingAndEnable : Obligations.MaskingAndEnable := by
  unfold Obligations.MaskingAndEnable
  refine ⟨fun s => ⟨fun p hmask => ⟨fun hdue => doorbellPoll_ring hmask hdue, fun hdue => ?_⟩, fun q e hq he hmask =>
    ⟨fun hdue => doorbellPoll_queue hq he hmask hdue, fun hdue => doorbellUnmask_queue hq he hmask hdue⟩⟩, fun p v s hp => ?_⟩
  · rw [doorbellUnmask_ring hmask hdue, seeEntries_eq, modHost_modHost]
    rfl
  · have hexec : exec (.mailboxEnable p v) s = .next (writeEn p v s) := congrArg Host.Outcome.next (viaPort_of_alive hp _)
    refine ⟨fun hon h => ⟨_, hexec, writeEn_on hon h, writeEn_upd p v s⟩, fun hon hoff hrings => ?_,
      fun hoff => ⟨_, hexec, writeEn_off hoff, writeEn_upd p v s⟩⟩
    obtain ⟨hmb, hseq, hentry⟩ := writeEn_refused_effect hon hoff hrings
    refine ⟨_, hexec, hmb, ?_, hentry⟩
    rw [← hseq]
    exact writeEn_upd p v s

end Sys2Proof.Proofs

/-! ### The queue doorbells (R273) -/

namespace Sys2Proof.Proofs

open Machine Laws

/-! #### The record of a queue -/

theorem find?_putQueue {e : HwQueue} {q : Nat} (h : e.queue = q) (l : List HwQueue) : (putQueue e l).find? (·.queue == q) = some e := by
  subst h
  induction l with
  | nil => simp [putQueue]
  | cons x r ih =>
    unfold putQueue
    split
    · simp
    next hx => rw [List.find?_cons_of_neg (by simpa using hx), ih]

theorem queue_of_queueOf {q : Nat} {e : HwQueue} {s : State} (h : queueOf q s = some e) : e.queue = q := by
  simpa using List.find?_some h

/-- A change of the record of a queue that keeps its number. -/
theorem queueOf_modQueue {q : Nat} {e : HwQueue} {s : State} (h : queueOf q s = some e) (p : HPort) {f : HwQueue → HwQueue}
    (hf : (f e).queue = e.queue) : queueOf q (modQueue q p f s) = some (f e) := by
  rw [modQueue_of_queueOf h]
  exact find?_putQueue (hf.trans (queue_of_queueOf h)) _

theorem queueOf_logRing (q : Nat) (p : HPort) (queue ev v : Nat) (s : State) : queueOf q (logRing p queue ev v s) = queueOf q s := by
  have hqueues : (logRing p queue ev v s).queues = s.queues := (logEv_ports_run ..).same .queues rfl
  simp only [queueOf, hqueues]

/-! #### A refusal of a queue doorbell -/

/-- The indices and credits of a queue stand as they did. -/
theorem badQueueRing_keeps {q : Nat} {e : HwQueue} {s : State} (h : queueOf q s = some e) (p : HPort) (v : Nat) :
    ∃ e', queueOf q (badQueueRing p q v s) = some e' ∧ e'.pi = e.pi ∧ e'.ci = e.ci ∧ e'.credits = e.credits := by
  unfold badQueueRing
  extract_lets u k bad w
  have hu : queueOf q u = some e := (queueOf_logRing ..).trans h
  have hw : queueOf q w = some { e with bad := bad, lastBad := u.now } :=
    queueOf_modQueue (f := fun e => { e with bad := bad, lastBad := u.now }) hu p rfl
  split
  · refine ⟨_, (queueOf_logRing ..).trans (queueOf_modQueue hw p ?_), rfl, rfl, rfl⟩
    rfl
  · exact ⟨_, hw, rfl, rfl, rfl⟩

theorem modQueue_logsAtMost (q : Nat) (p : HPort) (f : HwQueue → HwQueue) (s : State) : LogsAtMost 0 s (modQueue q p f s) :=
  .of_log_eq rfl

/-- Event 0x0061 names the queue, the refusal and the value (R273). -/
theorem badQueueRing_entry (p : HPort) {q v : Nat} (s : State) (hq : q < 2 ^ 64) (hv : v < 2 ^ 64) :
    ∃ l ∈ (badQueueRing p q v s).log, l.seq = s.seq + 1 ∧ l.code = 0x0061 ∧ l.d0 = q ∧ l.d1 = 1 ∧ l.d2 = v := by
  have hstays : LogsAtMost 1 (logRing p q 1 v s) (badQueueRing p q v s) := by
    unfold badQueueRing
    extract_lets u k bad w
    have hw : LogsAtMost 0 u w := modQueue_logsAtMost q p _ u
    split
    · have hmask := modQueue_logsAtMost q p (fun e => { e with masked := true, lastPoll := w.now }) w
      exact (hw.trans hmask).trans (logEv_logsAtMost _ _ _ _ _ _ _)
    · exact hw.mono (Nat.zero_le 1)
  exact ⟨_, hstays.newest_mem (by decide) (logEv_newest ..), rfl, rfl, Nat.mod_eq_of_lt hq, rfl, Nat.mod_eq_of_lt hv⟩

/-! #### A write of QDB -/

theorem bar0Word_qdb (p : HPort) {q : Nat} (hq : q < 65536) (s : State) : bar0Word p (0x100008 + 16 * q) s = 0 := by
  have hword : (0x100008 + 16 * q - 0x100000) % 16 = 8 := by omega
  unfold bar0Word
  rw [if_neg (by omega), if_neg (by omega), if_neg (by omega), if_neg (by omega), if_pos (by omega)]
  unfold queueWord
  split
  · rfl
  · simp only [hword, ite_self]

section
variable {p : HPort} {q : Nat} {v : BitVec 32} {s : State}

/-- A value without reserved bits is not logged. -/
theorem logDiff_qdb (hq : q < 65536) (hv : v.toNat < 65536) : logDiff p (0x100008 + 16 * q) v.toNat s = s := by
  refine logDiff_of_diffMask_zero ?_
  rw [bar0Word_qdb p hq, diffMask_half (writeMask_qdb hq), and_upper_half v.isLt]
  exact hv

theorem exec_qdb (hp : portAlive p s = true) (hq : q < 65536) : exec (.qdb p q v) s = .next (writeQdb p q v s) := by
  have hmod : q % 65536 = q := Nat.mod_eq_of_lt hq
  show Host.Outcome.next (viaPort p (writeQdb p (q % 65536) v) s) = _
  rw [viaPort_of_alive hp, hmod]

/-- A write that may take effect moves the index at once, or once the doorbell is masked no more. -/
theorem writeQdb_moves {e : HwQueue} (hq : q < 65536) (hv : v.toNat < 65536) (he : queueOf q s = some e)
    (hok : qdbOk p e v.toNat = true) :
    writeQdb p q v s =
      { s with queues := putQueue (if e.masked then { e with unseen := some v.toNat } else moveIndex e v.toNat) s.queues } := by
  simp only [writeQdb, logDiff_qdb hq hv, Nat.mod_eq_of_lt hv, he, hok, if_true, modQueue_of_queueOf he]
  split <;> rfl

theorem writeQdb_refused (hq : q < 65536) (hv : v.toNat < 65536) (hbad : ∀ e, queueOf q s = some e → qdbOk p e v.toNat = false) :
    writeQdb p q v s = badQueueRing p q v.toNat s := by
  cases he : queueOf q s with
  | none => simp only [writeQdb, logDiff_qdb hq hv, Nat.mod_eq_of_lt hv, he]
  | some e => simp only [writeQdb, logDiff_qdb hq hv, Nat.mod_eq_of_lt hv, he, hbad e he, Bool.false_eq_true, if_false]

end

/-- PI of a host-fed queue moves forward and not past CI (R273). -/
theorem qdbOk_fed {p : HPort} {e : HwQueue} {v : Nat} (hq : 16 ≤ e.queue) (hp : e.port = p) (hv : v < 2 * e.depth) (hrole : e.role = 2)
    (hfwd : 0 < (v + 2 * e.depth - e.pi) % (2 * e.depth)) (hroom : (v + 2 * e.depth - e.pi) % (2 * e.depth) + queueFill e ≤ e.depth) :
    qdbOk p e v = true := by
  have hle : (v + 2 * e.depth - e.pi) % (2 * e.depth) ≤ e.depth - queueFill e := by omega
  simp [qdbOk, hrole, hp, hq, hv, hfwd, hle]

/-- CI of a host-drained queue moves forward and not past PI (R273). -/
theorem qdbOk_drained {p : HPort} {e : HwQueue} {v : Nat} (hq : 16 ≤ e.queue) (hp : e.port = p) (hv : v < 2 * e.depth) (hrole : e.role = 3)
    (hfwd : 0 < (v + 2 * e.depth - e.ci) % (2 * e.depth)) (hfill : (v + 2 * e.depth - e.ci) % (2 * e.depth) ≤ queueFill e) :
    qdbOk p e v = true := by
  simp [qdbOk, hrole, hp, hq, hv, hfwd, hfill]

/-- Settles O20: a write that `qdbOk` admits by `writeQdb_moves`, any other by `badQueueRing`. -/
theorem queueDoorbell : Obligations.QueueDoorbell := by
  unfold Obligations.QueueDoorbell
  intro p q v s hp hq hv
  rw [exec_qdb hp hq]
  refine ⟨fun e he hq16 hport hdepth => ⟨fun hrole hfwd hroom => ?_, fun hrole hfwd hfill => ?_⟩, fun hbad => ?_⟩
  · have hnum : 16 ≤ e.queue := queue_of_queueOf he ▸ hq16
    rw [writeQdb_moves hq hv he (qdbOk_fed hnum hport hdepth hrole hfwd hroom)]
    simp only [moveIndex, hrole, if_true]
  · have hnum : 16 ≤ e.queue := queue_of_queueOf he ▸ hq16
    have hne : ¬e.role = 2 := by omega
    rw [writeQdb_moves hq hv he (qdbOk_drained hnum hport hdepth hrole hfwd hfill)]
    simp only [moveIndex, if_neg hne]
  · rw [writeQdb_refused hq hv hbad]
    have hrun : Run [.out, .hostA, .hostB, .seq, .log, .queues] s (badQueueRing p q v.toNat s) :=
      badQueueRing_run p q v.toNat s (.refl _ s) (by decide)
    have hlock : (badQueueRing p q v.toNat s).lock = s.lock := hrun.same .lock rfl
    refine ⟨_, rfl, ?_, fun e he => badQueueRing_keeps he p v.toNat, badQueueRing_entry p s (by omega) (by omega)⟩
    simpa only [hlock] using eq_registers_upd (hrun.mono (by decide))

end Sys2Proof.Proofs

/-! ### Resets and training of a host port (R253, R255, R331, R332) -/

namespace Sys2Proof.Proofs

open Machine Laws

/-! #### What a reset of a port leaves (R255, Table 10.2) -/

/-- A `Run` over ports, lock, warden, log and outputs, as the one record update that it is. -/
theorem eq_portReset_upd {s t : State} (h : Run [.out, .hostA, .hostB, .lock, .warden, .seq, .log] s t) :
    t = { s with out := t.out, hostA := t.hostA, hostB := t.hostB, lock := t.lock, warden := t.warden, seq := t.seq, log := t.log } :=
  State.ext (h.same .pending rfl) (h.same .now rfl) (h.same .freeCtr rfl) rfl (h.same .power rfl) (h.same .plls rfl)
    (h.same .tide rfl) (h.same .tideHi rfl) rfl rfl rfl (h.same .i3c rfl) (h.same .peer rfl) rfl rfl rfl
    (h.same .queues rfl) (h.same .job rfl) (h.same .exec rfl) (h.same .gauges rfl) (h.same .dies rfl) (h.same .cores rfl)
    (h.same .coreStore rfl) (h.same .memStacks rfl) (h.same .mem rfl) (h.same .far rfl) (h.same .links rfl)
    (h.same .levee rfl) (h.same .fabric rfl) (h.same .twin rfl) (h.same .flash rfl) (h.same .inspect rfl)

/-- An event below the ELLVL of a port leaves its interrupt causes too (Table 10.12). -/
theorem hostOf_logEv_of_level {q : HPort} {code : Nat} {s : State} (h : evLevel code < (hostOf q s).ellvl.toNat) (unit d0 d1 d2 d3 : Nat) :
    hostOf q (logEv code unit d0 d1 d2 d3 s) = hostOf q s := by
  simp only [logEv, logAt, raiseIrq_if_a, raiseIrq_if_b]
  cases q with
  | a => exact if_neg (Nat.not_le.mpr h)
  | b => exact if_neg (Nat.not_le.mpr h)

/-- Which commands a reset of a port orphans (R255). -/
def orphanOf (p : HPort) (a : Accepted) : Accepted := if a.mb = portMbox p then { a with orphan := true } else a

/-- A reset of a port before its lock is freed. -/
def portCleared (p : HPort) (cause : Nat) (s : State) : State :=
  let t := clearPort p (logPort62 p cause s)
  { t with warden := { t.warden with accepted := t.warden.accepted.map (orphanOf p) } }

theorem portReset_eq (p : HPort) (cause : Nat) (s : State) :
    portReset p cause s =
      if (portCleared p cause s).lock.owner = some p then freeLock 3 (portCleared p cause s) else portCleared p cause s := rfl

theorem logPort62_onlyCauses (p : HPort) (cause : Nat) (s : State) : OnlyCauses s (logPort62 p cause s) := logEv_onlyCauses _ _ _ _ _ _ s

theorem hostOf_portCleared (p : HPort) (cause : Nat) (s : State) :
    hostOf p (portCleared p cause s) =
      { HostPort.reset with held := (hostOf p s).held, inReset := (hostOf p s).inReset, state := (hostOf p s).state } := by
  show hostOf p (clearPort p (logPort62 p cause s)) = _
  rw [clearPort, hostOf_modHost, logPort62_onlyCauses p cause s p]

theorem hostOf_portCleared_ne {p q : HPort} (h : q ≠ p) (cause : Nat) (s : State) :
    hostOf q (portCleared p cause s) = { hostOf q s with irqst := (hostOf q (portCleared p cause s)).irqst } := by
  have hclear : hostOf q (portCleared p cause s) = hostOf q (logPort62 p cause s) := hostOf_modHost_ne h _ _
  rw [hclear]
  exact logPort62_onlyCauses p cause s q

theorem portCleared_lock (p : HPort) (cause : Nat) (s : State) : (portCleared p cause s).lock = s.lock :=
  (modHost_lock p _ _).trans (logEv_lock ..)

theorem portCleared_warden (p : HPort) (cause : Nat) (s : State) :
    (portCleared p cause s).warden = { s.warden with accepted := s.warden.accepted.map (orphanOf p) } := by
  have h : (clearPort p (logPort62 p cause s)).warden = s.warden :=
    (modHost_warden p _ _).trans ((logEv_ports_run ..).same .warden rfl)
  simp only [portCleared, h]

section
variable {p q : HPort} {s : State}

/-- The lock of a port that is reset is freed with event 0x0060 (R260). -/
theorem portReset_of_owner (h : s.lock.owner = some p) (cause : Nat) :
    portReset p cause s =
      logLock 3 p { portCleared p cause s with lock := { (portCleared p cause s).lock with owner := none } } := by
  have hown : (portCleared p cause s).lock.owner = some p := (congrArg Lock.owner (portCleared_lock p cause s)).trans h
  rw [portReset_eq, if_pos hown, freeLock_of_owner hown]

theorem portReset_of_other (h : s.lock.owner ≠ some p) (cause : Nat) : portReset p cause s = portCleared p cause s := by
  rw [portReset_eq, portCleared_lock, if_neg h]

/-- The fresh ELLVL of the port does not let event 0x0060 through. -/
theorem hostOf_portReset (p : HPort) (cause : Nat) (s : State) :
    hostOf p (portReset p cause s) =
      { HostPort.reset with held := (hostOf p s).held, inReset := (hostOf p s).inReset, state := (hostOf p s).state } := by
  rw [← hostOf_portCleared p cause s]
  by_cases h : s.lock.owner = some p
  · rw [portReset_of_owner h]
    refine hostOf_logEv_of_level (q := p) ?_ ..
    show 1 < (hostOf p (portCleared p cause s)).ellvl.toNat
    rw [hostOf_portCleared]
    exact (by decide : 1 < HostPort.reset.ellvl.toNat)
  · rw [portReset_of_other h]

theorem hostOf_portReset_ne (hq : q ≠ p) (cause : Nat) (s : State) :
    hostOf q (portReset p cause s) = { hostOf q s with irqst := (hostOf q (portReset p cause s)).irqst } := by
  have hcleared := hostOf_portCleared_ne hq cause s
  by_cases h : s.lock.owner = some p
  · rw [portReset_of_owner h]
    refine (logEv_onlyCauses _ _ _ _ _ _ _ q).trans ?_
    show ({ hostOf q (portCleared p cause s) with irqst := _ } : HostPort) = _
    rw [hcleared]
    rfl
  · rw [portReset_of_other h]
    exact hcleared

theorem portReset_lock (p : HPort) (cause : Nat) (s : State) :
    (portReset p cause s).lock = { s.lock with owner := if s.lock.owner = some p then none else s.lock.owner } := by
  by_cases h : s.lock.owner = some p
  · rw [portReset_of_owner h, logLock_lock, portCleared_lock, if_pos h]
  · rw [portReset_of_other h, portCleared_lock, if_neg h]

theorem portReset_warden (p : HPort) (cause : Nat) (s : State) :
    (portReset p cause s).warden = { s.warden with accepted := s.warden.accepted.map (orphanOf p) } := by
  rw [← portCleared_warden p cause s]
  by_cases h : s.lock.owner = some p
  · rw [portReset_of_owner h]
    exact (logEv_ports_run ..).same .warden rfl
  · rw [portReset_of_other h]

theorem portReset_resets_run (p : HPort) (cause : Nat) (s : State) :
    Run [.out, .hostA, .hostB, .lock, .warden, .seq, .log] s (portReset p cause s) :=
  portReset_run p cause s (.refl _ s) (by decide)

theorem portReset_power (p : HPort) (cause : Nat) (s : State) : (portReset p cause s).power = s.power :=
  (portReset_resets_run p cause s).same .power rfl

/-- What a reset leaves of a port whose link, or whose input, changed from `s` to `u` just before. -/
theorem portReset_isReset {u : State} {w : Power} {a b : HostPort} (hu : u = { s with power := w, hostA := a, hostB := b })
    (hother : ∀ q, q ≠ p → hostOf q u = hostOf q s) (cause : Nat) :
    PortIsReset p (hostOf p u).held (hostOf p u).inReset (hostOf p u).state s (portReset p cause u) := by
  have ulock : u.lock = s.lock := by rw [hu]
  have uwarden : u.warden = s.warden := by rw [hu]
  have hupd := eq_portReset_upd (portReset_resets_run p cause u)
  refine ⟨hostOf_portReset p cause u, ulock ▸ portReset_lock p cause u, uwarden ▸ portReset_warden p cause u, fun q hq => ?_, ?_⟩
  · rw [← hother q hq]
    exact hostOf_portReset_ne hq cause u
  · rw [portReset_power]
    refine hupd.trans ?_
    rw [hu]

end

/-! #### The rows that reset a port -/

theorem activate_power (i : BoardInput) (held inactive : Nat) (s : State) :
    (activate i held inactive s).2 = { s with power := (activate i held inactive s).2.power } := by
  unfold activate
  split
  · rfl
  · dsimp only
    split <;> split <;> rfl

/-- An activation that lasts 2 µs and comes 10 ms after the last one acts (R332). -/
theorem activate_acts {held inactive : Nat} (hheld : 2000 ≤ held) (hgap : 10000000 ≤ inactive) (i : BoardInput) (s : State) :
    (activate i held inactive s).1 = true := by
  rw [activate, if_neg (Nat.not_lt.mpr hheld)]
  exact decide_eq_true hgap

theorem modHost_eq (p : HPort) (f : HostPort → HostPort) (s : State) :
    modHost p f s = { s with hostA := (modHost p f s).hostA, hostB := (modHost p f s).hostB } := by
  cases p <;> rfl

theorem hostOf_withPower (q : HPort) (w : Power) (s : State) : hostOf q { s with power := w } = hostOf q s := by
  cases q <;> rfl

section
variable {p : HPort} {s : State}

theorem perstAssert_effect {held inactive : Nat} (hup : poweredUp s = true) (hheld : 2000 ≤ held) (hgap : 10000000 ≤ inactive) :
    ∃ t, exec (.perstAssert p held inactive) s = .next t ∧ PortIsReset p true true 2 s t := by
  obtain ⟨power, hact⟩ : ∃ w, activate (perstOf p) held inactive s = (true, { s with power := w }) :=
    ⟨_, Prod.ext (activate_acts hheld hgap ..) (activate_power ..)⟩
  let w := modHost p (fun h => { h with held := true, inReset := true, state := 2 }) { s with power := power }
  have hexec : exec (.perstAssert p held inactive) s = .next (portReset p 0 w) := by
    show execPerstAssert p held inactive s = _
    simp only [execPerstAssert, hup, Bool.not_true, Bool.false_eq_true, if_false, hact, Bool.true_or, if_true, w]
  have hw : w = { s with power := power, hostA := w.hostA, hostB := w.hostB } := modHost_eq ..
  have hother : ∀ q, q ≠ p → hostOf q w = hostOf q s := fun q hq => (hostOf_modHost_ne hq ..).trans (hostOf_withPower q power s)
  have hreset := portReset_isReset hw hother 0
  rw [show hostOf p w = _ from hostOf_modHost ..] at hreset
  exact ⟨_, hexec, hreset⟩

theorem functionLevelReset_effect (hp : portAlive p s = true) :
    ∃ t, exec (.functionLevelReset p) s = .next t ∧ t.power = s.power ∧
      PortIsReset p (hostOf p s).held (hostOf p s).inReset (hostOf p s).state s t :=
  ⟨_, congrArg Host.Outcome.next (if_pos hp), portReset_power p 1 s, portReset_isReset rfl (fun _ _ => rfl) 1⟩

theorem pcieLinkLoss_effect (hin : (hostOf p s).inReset = false) (hstate : (hostOf p s).state ≠ 2) :
    ∃ t, exec (.pcieLinkLoss p) s = .next t ∧ t.power = s.power ∧ PortIsReset p (hostOf p s).held false 2 s t := by
  have hcond : (!(hostOf p s).inReset && (hostOf p s).state != 2) = true := by rw [hin, bne_iff_ne.mpr hstate]; rfl
  let w := modHost p (fun h => { h with state := 2 }) s
  have hw : w = { s with power := s.power, hostA := w.hostA, hostB := w.hostB } := modHost_eq ..
  have hreset := portReset_isReset (p := p) hw (fun q hq => hostOf_modHost_ne hq ..) 2
  rw [show hostOf p w = _ from hostOf_modHost .., hin] at hreset
  exact ⟨_, congrArg Host.Outcome.next (if_pos hcond), (portReset_power ..).trans (modHost_power ..), hreset⟩

end

/-! #### Training (R253, R255, R331) -/

/-- The state of a link that has trained: at rating or below. -/
def trainedState (atRating : Bool) : BitVec 2 := if atRating then 0 else 1

theorem trainPort_eq {p : HPort} {s : State} (h : canTrain p s = true) (atRating : Bool) :
    trainPort p atRating s =
      let t := modHost p (fun h => { h with inReset := false, state := trainedState atRating }) s
      if atRating then t else logPort62 p 3 t := if_pos h

/-- A port that trains is out of reset; below rating it is announced by event 0x0062 (R331). -/
theorem trainPort_effect {p : HPort} {s : State} (h : canTrain p s = true) (atRating : Bool) :
    (hostOf p (trainPort p atRating s)).held = (hostOf p s).held ∧ (hostOf p (trainPort p atRating s)).inReset = false ∧
      (hostOf p (trainPort p atRating s)).state = trainedState atRating ∧
      (trainPort p atRating s).seq = s.seq + if atRating then 0 else 1 := by
  rw [trainPort_eq h]
  cases atRating with
  | true => simp [hostOf_modHost]
  | false =>
    simp only [Bool.false_eq_true, if_false]
    rw [logPort62_onlyCauses, hostOf_modHost]
    exact ⟨rfl, rfl, rfl, (logEv_seq ..).trans (congrArg (· + 1) (modHost_seq ..))⟩

theorem trainPort_ports_run (p : HPort) (atRating : Bool) (s : State) :
    Run [.out, .hostA, .hostB, .seq, .log] s (trainPort p atRating s) :=
  trainPort_run p atRating s (.refl _ s) (by decide)

/-- Whether a port can train depends on the phase of power-up alone. -/
theorem canTrain_congr {p : HPort} {s t : State} (h : t.power.phase = s.power.phase) : canTrain p t = canTrain p s := by
  simp only [canTrain, h]

/-- A `Run` over the power record, the ports, the log and outputs, as the one record update that it is. -/
theorem eq_portRelease_upd {s t : State} (h : Run [.out, .power, .hostA, .hostB, .seq, .log] s t) :
    t = { s with power := t.power, hostA := t.hostA, hostB := t.hostB, out := t.out, seq := t.seq, log := t.log } :=
  State.ext (h.same .pending rfl) (h.same .now rfl) (h.same .freeCtr rfl) rfl rfl (h.same .plls rfl)
    (h.same .tide rfl) (h.same .tideHi rfl) rfl rfl (h.same .lock rfl) (h.same .i3c rfl) (h.same .peer rfl) (h.same .warden rfl)
    rfl rfl (h.same .queues rfl) (h.same .job rfl) (h.same .exec rfl) (h.same .gauges rfl) (h.same .dies rfl) (h.same .cores rfl)
    (h.same .coreStore rfl) (h.same .memStacks rfl) (h.same .mem rfl) (h.same .far rfl) (h.same .links rfl)
    (h.same .levee rfl) (h.same .fabric rfl) (h.same .twin rfl) (h.same .flash rfl) (h.same .inspect rfl)

/-- The board inputs are part of the power record. -/
theorem inputOf_congr (i : BoardInput) {s t : State} (h : t.power = s.power) : inputOf i t = inputOf i s := by
  cases i <;> simp only [inputOf, h]

theorem inputOf_modInput (i : BoardInput) (f : InputSt → InputSt) (s : State) : inputOf i (modInput i f s) = f (inputOf i s) := by
  cases i <;> rfl

theorem modInput_phase (i : BoardInput) (f : InputSt → InputSt) (s : State) : (modInput i f s).power.phase = s.power.phase := by
  cases i <;> rfl

section
variable {p : HPort} {atRating : Bool} {s : State}

/-- PERST_RELEASE of an input that is not masked. -/
theorem exec_perstRelease (hup : poweredUp s = true) (hheld : (hostOf p s).held = true) (hmask : (inputOf (perstOf p) s).masked = false) :
    exec (.perstRelease p atRating) s =
      .next (releasePort p atRating (modInput (perstOf p) (fun k => { k with active := false }) s)) := by
  have hcond : (!poweredUp s || !(hostOf p s).held) = false := by rw [hup, hheld]; rfl
  have hclear : (inputOf (perstOf p) (modInput (perstOf p) (fun k => { k with active := false }) s)).masked = false := by
    rw [inputOf_modInput]
    exact hmask
  show execPerstRelease p atRating s = _
  simp only [execPerstRelease, hcond, hclear, Bool.false_eq_true, if_false]

theorem perstRelease_effect (hcan : canTrain p s = true) (hup : poweredUp s = true) (hheld : (hostOf p s).held = true)
    (hmask : (inputOf (perstOf p) s).masked = false) :
    ∃ t, exec (.perstRelease p atRating) s = .next t ∧ (hostOf p t).held = false ∧ (hostOf p t).inReset = false ∧
      (hostOf p t).state = trainedState atRating ∧ (inputOf (perstOf p) t).active = false ∧
      t = { s with power := t.power, hostA := t.hostA, hostB := t.hostB, out := t.out, seq := t.seq, log := t.log } := by
  let u := modInput (perstOf p) (fun k => { k with active := false }) s
  let w := modHost p (fun h => { h with held := false }) u
  have hcanw : canTrain p w = true := by
    rw [canTrain_congr (s := s), hcan]
    exact (congrArg Power.phase (modHost_power ..)).trans (modInput_phase ..)
  obtain ⟨hheldt, hreset, hstate, -⟩ := trainPort_effect hcanw atRating
  have hrun := trainPort_ports_run p atRating w
  have hpower : (trainPort p atRating w).power = u.power := (hrun.same .power rfl).trans (modHost_power ..)
  have hactive : ∀ t : State, t.power = u.power → (inputOf (perstOf p) t).active = false := fun t ht => by
    rw [inputOf_congr _ ht, inputOf_modInput]
  refine ⟨_, exec_perstRelease hup hheld hmask, hheldt.trans (congrArg HostPort.held (hostOf_modHost ..)), hreset, hstate,
    hactive _ hpower, ?_⟩
  have hinput : Run [.out, .power, .hostA, .hostB, .seq, .log] s u := modInput_run _ _ s (.refl _ s) (by decide)
  have hheldRun : Run [.out, .power, .hostA, .hostB, .seq, .log] u w := modHost_run _ _ u (.refl _ u) (by decide)
  exact eq_portRelease_upd ((hinput.trans hheldRun (by decide)).trans hrun (by decide))

theorem pcieRateChange_effect (hcan : canTrain p s = true) (hin : (hostOf p s).inReset = false) :
    ∃ t, exec (.pcieRateChange p atRating) s = .next t ∧ (hostOf p t).inReset = false ∧ (hostOf p t).state = trainedState atRating ∧
      t = { s with hostA := t.hostA, hostB := t.hostB, out := t.out, seq := t.seq, log := t.log } ∧
      t.seq = s.seq + (if jobLoaded s then 1 else 0) + (if atRating then 0 else 1) := by
  let u := if jobLoaded s then logLoop 10 8 (b2n (!atRating)) s else s
  have hu : Run [.out, .hostA, .hostB, .seq, .log] s u := run_if (logLoop_run _ _ _ s (.refl _ s) (by decide))
  have hseq : u.seq = s.seq + if jobLoaded s then 1 else 0 := by
    show (if jobLoaded s then _ else s : State).seq = _
    split
    · exact logEv_seq ..
    · rfl
  have hcond : ((hostOf p s).inReset || !canTrain p s) = false := by rw [hin, hcan]; rfl
  have hcanu : canTrain p u = true := (canTrain_congr (congrArg Power.phase (hu.same .power rfl))).trans hcan
  have hexec : exec (.pcieRateChange p atRating) s = .next (trainPort p atRating u) := by
    show execPcieRateChange p atRating s = _
    simp only [execPcieRateChange, hcond, Bool.false_eq_true, if_false, u]
  obtain ⟨-, hreset, hstate, htseq⟩ := trainPort_effect hcanu atRating
  exact ⟨_, hexec, hreset, hstate, eq_port_upd (hu.trans (trainPort_ports_run p atRating u) (by decide)), by rw [htseq, hseq]⟩

end

/-- Settles O10: the three resets by `portReset_isReset`, the two rows that train by `trainPort_effect`. -/
theorem portResetsAndTraining : Obligations.PortResetsAndTraining := by
  unfold Obligations.PortResetsAndTraining
  exact ⟨fun p s => ⟨fun held inactive => perstAssert_effect, functionLevelReset_effect, pcieLinkLoss_effect⟩,
    fun p atRating s hcan => ⟨perstRelease_effect hcan, pcieRateChange_effect hcan⟩⟩

end Sys2Proof.Proofs

/-! ### Peer writes and their acknowledgements (R361, R364) -/

namespace Sys2Proof.Proofs

open Machine Laws

/-! #### Sending to a neighbour -/

theorem portTo_up {phys : Nat} {q : FPort} {s : State} (h : portTo phys s = some q) : (fabOf q s).up = true := by
  have hfound := List.find?_some h
  rw [Bool.and_eq_true] at hfound
  exact hfound.1

theorem portTo_dropFront (p : FPort) (cls : Nat) (sub : Bool) (phys : Nat) (s : State) :
    portTo phys (dropFront p cls sub s) = portTo phys s := by
  unfold portTo
  congr 1
  funext q
  by_cases h : q = p
  · subst h
    rw [fabOf_dropFront]
  · rw [fabOf_dropFront_ne h]

/-- A message to a package next to this one goes out on the port to it. -/
theorem msg_mem_sendPhys {m : Msg} {q : FPort} {s : State} (h : portTo m.dst s = some q) :
    ∃ axis sub, .msg q { m with axis := axis, sub := sub } ∈ (sendPhys m s).out := by
  simp only [sendPhys, h]
  exact ⟨_, _, msg_mem_sendOn (portTo_up h) _⟩

theorem ackWriteMsg_portsSend (m : Msg) (s : State) : PortsSend s (ackWriteMsg m s) := by
  unfold ackWriteMsg
  exact .ite (.refl s) (.ite (sendMsg_portsSend _ s) (sendMsg_portsSend _ s))

/-- The WRACK of a WRITE from a neighbour. -/
theorem wrack_mem_ackWriteMsg {m : Msg} {q : FPort} {s : State} (hb : m.bcast = false) (hphys : m.srcPhys = true) (h : portTo m.src s = some q) :
    ∃ x, .msg q x ∈ (ackWriteMsg m s).out ∧ x.type = 0x0C ∧ x.dst = m.src ∧ x.ref = m.ref ∧ x.offset = m.offset := by
  obtain ⟨axis, sub, hmem⟩ := msg_mem_sendPhys (m := physMsg 0x0C 2 m.src m.step m.ref m.offset [] s) h
  have hack : ackWriteMsg m s = sendPhys (physMsg 0x0C 2 m.src m.step m.ref m.offset [] s) s := by
    simp only [ackWriteMsg, hb, hphys, Bool.false_eq_true, if_false, if_true]
    rfl
  rw [hack]
  exact ⟨_, hmem, rfl, rfl, rfl, rfl⟩

theorem peerAnswer_portsSend (e : PeerEntry) (kind status : Nat) (s : State) : PortsSend s (peerAnswer e kind status s) := by
  have hlog : PortsSend s (logEv 0x0003 (unitWord 0 0 6) (entOp e.bytes) kind status (entTag e.bytes) s) :=
    .of_run (logEv_ports_run ..) rfl
  unfold peerAnswer
  exact .ite (.refl s) (.ite (hlog.trans (sendMsg_portsSend _ _)) (.ite hlog (hlog.trans (sendMsg_portsSend _ _))))

theorem takePeer_portsSend (e : PeerEntry) (s : State) : PortsSend s (takePeer e s) := by
  unfold takePeer
  extract_lets bad
  exact .ite (.of_fabric rfl) (PortsSend.trans (.of_run (logEv_ports_run ..) rfl) (peerAnswer_portsSend e 2 bad _))

theorem storeSlot_portsSend (m : Msg) (slot o : Nat) (s : State) : PortsSend s (storeSlot m slot o s) :=
  .of_run (storeSlot_run (flds := [.out, .hostA, .hostB, .seq, .log, .mem, .twin]) m slot o s (.refl _ s) (by decide)) rfl

/-! #### Where a WRITE goes (R361) -/

/-- The entry that a WRITE outside a slot brings. -/
def writeEntry (p : FPort) (m : Msg) : PeerEntry := { port := p, src := m.src, phys := m.srcPhys, bcast := m.bcast, bytes := m.payload }

/-- A WRITE that is acknowledged, into the window of its REF. -/
def fileWrite (p : FPort) (m : Msg) (s : State) : State :=
  match m.ref / 2 ^ 24 with
  | 0 => if m.offset = 0 then takePeer { writeEntry p m with bytes := slice m.payload 0 128 } s
         else { s with peer := { s.peer with completions := s.peer.completions ++ [writeEntry p m] } }
  | k + 1 => storeSlot m k (m.ref % 512 * 2 ^ 32 + m.offset) s

section
variable {p : FPort} {m : Msg} {s : State}

theorem takeWrite_eq (h : m.bcast = false) : takeWrite p m s = fileWrite p m (ackWriteMsg m s) := by
  rw [takeWrite, h]
  simp only [Bool.false_eq_true, if_false, fileWrite, writeEntry, h] <;> rfl

theorem fileWrite_command (href : m.ref = 0) (hoffset : m.offset = 0) :
    fileWrite p m s = takePeer { writeEntry p m with bytes := slice m.payload 0 128 } s := by
  simp only [fileWrite, href, hoffset, Nat.zero_div, if_true]

theorem fileWrite_completion (href : m.ref = 0) (hoffset : m.offset ≠ 0) :
    fileWrite p m s = { s with peer := { s.peer with completions := s.peer.completions ++ [writeEntry p m] } } := by
  simp only [fileWrite, href, hoffset, Nat.zero_div, if_false]

theorem fileWrite_slot {k : Nat} (href : m.ref / 2 ^ 24 = k + 1) :
    fileWrite p m s = storeSlot m k (m.ref % 512 * 2 ^ 32 + m.offset) s := by
  simp only [fileWrite, href]

theorem fileWrite_portsSend (p : FPort) (m : Msg) (s : State) : PortsSend s (fileWrite p m s) := by
  unfold fileWrite
  split
  · exact .ite (takePeer_portsSend _ s) (.of_fabric rfl)
  · exact storeSlot_portsSend m _ _ s

theorem fileWrite_out (p : FPort) (m : Msg) (s : State) : s.out <+: (fileWrite p m s).out := by
  unfold fileWrite
  split
  · split
    · exact (takePeer_run (flds := [.out, .hostA, .hostB, .peer, .seq, .log, .fabric]) _ s (.refl _ s) (by decide)).out
    · exact List.prefix_refl _
  · exact (storeSlot_run (flds := [.out, .hostA, .hostB, .seq, .log, .mem, .twin]) _ _ _ s (.refl _ s) (by decide)).out

theorem takePeer_known {e : PeerEntry} (hknown : peerKnown (entOp e.bytes) = true) (hres : peerReserved e.bytes = false) (s : State) :
    takePeer e s = { s with peer := { s.peer with waiting := s.peer.waiting ++ [e] } } := by
  simp only [takePeer, hknown, hres, Bool.not_true, Bool.false_eq_true, if_false, if_true]

/-- Bytes of a slot that the package may write, with no record coming in. -/
theorem storeSlot_plain {slot o : Nat} (hrestore : restoring s = false) (haccess : accessCause .hub (slotAddr slot o) 1 s = none)
    (hrx : s.twin.rx = none) : storeSlot m slot o s = slotWrite slot o m.payload s := by
  simp only [storeSlot, hrestore, haccess, hrx, Bool.false_and, Bool.false_eq_true, if_false]

end

/-! #### The bytes of a slot (R285) -/

/-- The 2 TiB of a record fill the slot's half of each far-tier port, no byte twice. -/
theorem slotAddr_inj {slot o o' : Nat} (ho : o < 2 ^ 41) (ho' : o' < 2 ^ 41) (h : slotAddr slot o = slotAddr slot o') : o = o' := by
  unfold slotAddr at h
  have hbase : ∀ n : Nat, farBase (Fin.ofNat 2 (n % 2)) = 0x100000000000 + n % 2 * 0x40000000000 := fun n => by
    rcases Nat.mod_two_eq_zero_or_one n with hn | hn <;> rw [hn] <;> rfl
  have hpair : ∀ n : Nat, n / 2 ^ 21 = n / 2 ^ 20 / 2 := fun n => (Nat.div_div_eq_div_mul n (2 ^ 20) 2).symm
  rw [hbase, hbase, hpair o, hpair o'] at h
  omega

/-- Bytes set at other addresses leave an address. -/
theorem memGet_memSets_other {g : Nat → Nat} {a : Nat} {l : Bytes} : ∀ {n : Nat} {m : Memory}, m.wf = true →
    (∀ j, j < l.length → a ≠ g (n + j)) →
    memGet ((l.zipIdx n).foldl (fun m x => memSet m (g x.2) x.1) m) a = memGet m a := by
  induction l with
  | nil => exact fun _ _ => rfl
  | cons b l ih =>
    intro n m hm h
    rw [List.zipIdx_cons, List.foldl_cons, ih (memSet_wf hm) fun j hj => by
      rw [Nat.add_right_comm]
      exact h (j + 1) (Nat.succ_lt_succ hj)]
    exact (memGet_memSet hm).trans (if_neg (h 0 (Nat.succ_pos _)))

/-- Bytes set at addresses that differ are read back. -/
theorem memGet_memSets_at {g : Nat → Nat} {l : Bytes} : ∀ {n : Nat} {m : Memory}, m.wf = true →
    (∀ i j, i < l.length → j < l.length → g (n + i) = g (n + j) → i = j) → ∀ j, j < l.length →
    memGet ((l.zipIdx n).foldl (fun m x => memSet m (g x.2) x.1) m) (g (n + j)) = l.getD j 0 := by
  induction l with
  | nil => exact fun _ _ j hj => absurd hj (Nat.not_lt_zero j)
  | cons b l ih =>
    intro n m hm hinj j hj
    rw [List.zipIdx_cons, List.foldl_cons]
    have hshift : ∀ i, g (n + 1 + i) = g (n + (i + 1)) := fun i => congrArg g (by omega)
    cases j with
    | zero =>
      rw [memGet_memSets_other (memSet_wf hm) fun j hj heq => ?_, memGet_memSet hm]
      · exact if_pos rfl
      · rw [hshift] at heq
        exact absurd (hinj 0 (j + 1) (Nat.succ_pos _) (Nat.succ_lt_succ hj) heq) (Nat.succ_ne_zero j).symm
    | succ j =>
      rw [← hshift]
      refine ih (memSet_wf hm) (fun i k hi hk heq => ?_) j (Nat.lt_of_succ_lt_succ hj)
      rw [hshift, hshift] at heq
      exact Nat.succ.inj (hinj _ _ (Nat.succ_lt_succ hi) (Nat.succ_lt_succ hk) heq)

section
variable {slot o : Nat} {b : Bytes} {s : State}

theorem slotWrite_get (hm : s.mem.wf = true) (hfits : o + b.length ≤ 2 ^ 41) {j : Nat} (hj : j < b.length) :
    memGet (slotWrite slot o b s).mem (slotAddr slot (o + j)) = b.getD j 0 := by
  have h := memGet_memSets_at (g := fun n => slotAddr slot (o + n)) (n := 0) hm
    (fun i k hi hk heq => by have := slotAddr_inj (by omega) (by omega) heq; omega) j hj
  rw [Nat.zero_add] at h
  exact h

theorem slotWrite_get_other (hm : s.mem.wf = true) {a : Nat} (ha : ∀ j, j < b.length → a ≠ slotAddr slot (o + j)) :
    memGet (slotWrite slot o b s).mem a = memGet s.mem a :=
  memGet_memSets_other (g := fun n => slotAddr slot (o + n)) (n := 0) hm fun j hj => by
    rw [Nat.zero_add]
    exact ha j hj

end

/-! #### The row -/

/-- What stands before a WRITE goes into its window: the message taken from its port, and the WRACK gone out. -/
theorem ackedWrite_upd (p : FPort) (sub : Bool) (m : Msg) (s : State) :
    ackWriteMsg m (dropFront p 4 sub s) =
      { s with out := (ackWriteMsg m (dropFront p 4 sub s)).out, fabric := (ackWriteMsg m (dropFront p 4 sub s)).fabric } :=
  eq_send_upd (ackWriteMsg_run m _ (modFab_run p _ s (.refl _ s) (by decide)) (by decide))

/-- A WRITE that is no broadcast, but for where its bytes go. -/
theorem write_effect {p : FPort} {sub : Bool} {m : Msg} {s : State} (hfront : frontMsg p 4 0x0B sub s = some m) (hb : m.bcast = false) :
    exec (.write p sub) s = .next (fileWrite p m (ackWriteMsg m (dropFront p 4 sub s))) ∧
      (fabOf p (fileWrite p m (ackWriteMsg m (dropFront p 4 sub s)))).inbox = (fabOf p s).inbox.eraseP (inClass 4 sub) ∧
      (∀ q, m.srcPhys = true → portTo m.src s = some q →
        ∃ x, .msg q x ∈ (fileWrite p m (ackWriteMsg m (dropFront p 4 sub s))).out ∧ x.type = 0x0C ∧ x.dst = m.src ∧ x.ref = m.ref ∧
          x.offset = m.offset) := by
  refine ⟨congrArg Host.Outcome.next ((onMsg_front hfront _).trans (takeWrite_eq hb)), ?_, fun q hphys hq => ?_⟩
  · rw [PortsSend.inbox (fileWrite_portsSend p m _) p, PortsSend.inbox (ackWriteMsg_portsSend m _) p, fabOf_dropFront]
  · obtain ⟨x, hmem, hx⟩ := wrack_mem_ackWriteMsg hb hphys ((portTo_dropFront p 4 sub m.src s).trans hq)
    exact ⟨x, (fileWrite_out p m _).subset hmem, hx⟩

/-- Whether an access may be made does not depend on the fabric. -/
theorem accessCause_withSent (who : Requester) (a n : Nat) (s : State) (o : List Out) (f : Vector FabPort 6) :
    accessCause who a n { s with out := o, fabric := f } = accessCause who a n s := rfl

/-- Bytes that go to a slot once the WRACK has gone out. -/
theorem storeSlot_effect {m : Msg} {s u : State} {k o : Nat} (hsent : u = { s with out := u.out, fabric := u.fabric })
    (hrestore : restoring s = false) (hrx : s.twin.rx = none) (haccess : accessCause .hub (slotAddr k o) 1 s = none)
    (hm : s.mem.wf = true) (hfits : o + m.payload.length ≤ 2 ^ 41) :
    storeSlot m k o u = { s with fabric := (storeSlot m k o u).fabric, out := (storeSlot m k o u).out, mem := (storeSlot m k o u).mem } ∧
      (∀ j, j < m.payload.length → memGet (storeSlot m k o u).mem (slotAddr k (o + j)) = m.payload.getD j 0) ∧
      (∀ x, (∀ j, j < m.payload.length → x ≠ slotAddr k (o + j)) → memGet (storeSlot m k o u).mem x = memGet s.mem x) := by
  have hmem : u.mem = s.mem := by rw [hsent]
  have hfile : storeSlot m k o u = slotWrite k o m.payload u :=
    storeSlot_plain (by rw [hsent]; exact hrestore) (by rw [hsent, accessCause_withSent]; exact haccess) (by rw [hsent]; exact hrx)
  rw [hfile, ← hmem]
  refine ⟨?_, fun j => slotWrite_get (hmem ▸ hm) hfits, fun a => slotWrite_get_other (hmem ▸ hm)⟩
  rw [slotWrite, hsent]

/-- Settles O54: `write_effect`, then the window of each REF. -/
theorem peerWrites : Obligations.PeerWrites := by
  unfold Obligations.PeerWrites
  refine fun p sub m s => ⟨fun h => congrArg Host.Outcome.next (onMsg_front h _), fun hfront hb => ?_⟩
  obtain ⟨hexec, hinbox, hack⟩ := write_effect hfront hb
  have hsent := ackedWrite_upd p sub m s
  generalize ackWriteMsg m (dropFront p 4 sub s) = u at hexec hinbox hack hsent
  refine ⟨_, hexec, hinbox, hack, fun href hoffset hknown hres => ?_, fun href hoffset => ?_, fun k href hrestore hrx => ?_⟩
  · rw [fileWrite_command href hoffset, writeEntry, hb, takePeer_known hknown hres, hsent]
  · rw [fileWrite_completion href hoffset, hsent, writeEntry, hb]
  · intro o haccess hm hfits
    have hrecord : o + m.payload.length ≤ 2 ^ 41 := by
      have : m.ref % 512 < 512 := Nat.mod_lt _ (by decide)
      simp only [o]
      omega
    rw [fileWrite_slot href]
    exact storeSlot_effect hsent hrestore hrx haccess hm hrecord

end Sys2Proof.Proofs

/-! ### What the work of a command leaves raised and accepted (R266, R267) -/

namespace Sys2Proof.Proofs

open Machine Laws

/-- Between `s` and `t` no interrupt cause falls and as many commands are accepted. -/
structure Attends (s t : State) : Prop where
  causes : KeepsCauses s t
  count : t.warden.accepted.length = s.warden.accepted.length

section
variable {s t u : State}

theorem Attends.refl (s : State) : Attends s s := ⟨.refl s, rfl⟩

theorem Attends.trans (h : Attends s t) (k : Attends t u) : Attends s u := ⟨h.causes.trans k.causes, k.count.trans h.count⟩

theorem Attends.ite {c : Prop} [Decidable c] (ht : Attends s t) (hu : Attends s u) : Attends s (if c then t else u) := by
  split
  · exact ht
  · exact hu

theorem Attends.foldl {α : Type} {f : State → α → State} (hf : ∀ s a, Attends s (f s a)) (l : List α) (s : State) :
    Attends s (l.foldl f s) := by
  induction l generalizing s with
  | nil => exact .refl s
  | cons a l ih => exact (hf s a).trans (ih _)

theorem run_ite {flds : List StateField} {c : Prop} [Decidable c] (ht : Run flds s t) (hu : Run flds s u) :
    Run flds s (if c then t else u) := by
  split
  · exact ht
  · exact hu

/-- Work that leaves the warden and only adds causes. -/
theorem Attends.of_causes {flds : List StateField} (k : KeepsCauses s t) (h : Run flds s t) (hw : flds.contains .warden = false) :
    Attends s t := ⟨k, by rw [h.same .warden hw]⟩

/-- An update of other parts of the state. -/
theorem Attends.update (ha : t.hostA = s.hostA) (hb : t.hostB = s.hostB) (hw : t.warden.accepted = s.warden.accepted) : Attends s t :=
  ⟨fun p v hv => by cases p <;> simpa only [hostOf, ha, hb] using hv, congrArg List.length hw⟩

theorem Attends.updated (k : Attends t u) (ha : t.hostA = s.hostA) (hb : t.hostB = s.hostB) (hw : t.warden.accepted = s.warden.accepted) :
    Attends s u := (Attends.update ha hb hw).trans k

/-- Work that leaves the ports and the warden. -/
theorem Attends.of_run {flds : List StateField} (h : Run flds s t)
    (hf : (flds.contains .hostA || flds.contains .hostB || flds.contains .warden) = false) : Attends s t := by
  simp only [Bool.or_eq_false_iff] at hf
  obtain ⟨⟨ha, hb⟩, hw⟩ := hf
  exact .of_causes (.of_run h ha hb) h hw

end

/-! #### The operations that end a command -/

theorem endWhere_attends (f : Accepted → Bool) (d : Done) (s : State) : Attends s (endWhere f d s) :=
  ⟨.of_run (endWhere_run (flds := [.warden]) f d s (.refl _ s) (by decide)) rfl rfl, List.length_map _⟩

theorem finishAt_attends (a : Accepted) (st r at_ : Nat) (s : State) : Attends s (finishAt a st r at_ s) := endWhere_attends _ _ s

theorem finish_attends (a : Accepted) (st r : Nat) (s : State) : Attends s (finish a st r s) := endWhere_attends _ _ s

theorem logEv_attends (code unit d0 d1 d2 d3 : Nat) (s : State) : Attends s (logEv code unit d0 d1 d2 d3 s) :=
  .of_causes (logEv_keepsCauses _ _ _ _ _ _ s) (logEv_ports_run ..) rfl

theorem logAccess_attends (a : Nat) (who : Requester) (k : Nat) (s : State) : Attends s (logAccess a who k s) := logEv_attends _ _ _ _ _ _ s

theorem setJob_attends (n : JobState) (s : State) : Attends s (setJob n s) := by
  unfold setJob
  extract_lets old
  exact .ite (.refl s) (Attends.updated (logEv_attends ..) rfl rfl rfl)

theorem emit_attends (o : Out) (s : State) : Attends s (emit o s) := .update rfl rfl rfl

theorem deliverAt_attends (a : Accepted) (b : Bytes) (r at_ : Nat) (s : State) : Attends s (deliverAt a b r at_ s) := by
  unfold deliverAt
  refine .ite (finishAt_attends ..) ?_
  split
  · exact finish_attends ..
  · exact finish_attends ..
  · exact finish_attends ..
  · exact Attends.trans (emit_attends _ s) (finishAt_attends ..)

/-- A result that goes into the I3C target's buffer. -/
theorem finishBuffer_attends (a : Accepted) (st r : Nat) (b : Bytes) (s : State) :
    Attends s (finish a st r { s with i3c := { s.i3c with buffer := b } }) :=
  Attends.updated (finish_attends ..) rfl rfl rfl

theorem deliverAll_attends (a : Accepted) (b : Bytes) (s : State) : Attends s (deliverAll a b s) := by
  unfold deliverAll
  exact .ite (finishBuffer_attends ..) (deliverAt_attends ..)

theorem withStretches_attends {f : State → State} {a : Accepted} {s : State} (h : Attends s (f s)) (ps : List (Nat × Nat)) :
    Attends s (withStretches ps a f s) := by
  unfold withStretches
  split
  · exact Attends.trans (logAccess_attends ..) (finish_attends ..)
  · exact h

theorem finishStop_attends (t first : Nat) (s : State) : Attends s (finishStop t first s) := by
  unfold finishStop
  extract_lets u _ v w
  have hu : Attends s u := .of_run (endRunTime_run (flds := [.twin]) s (.refl _ s) (by decide)) rfl
  have hv : Attends s v := hu.trans (.update rfl rfl rfl)
  have hw : Attends s w := (hv.trans (setJob_attends _ v)).trans
    (.of_run (abandonTasks_run (flds := [.out, .exec, .cores, .memStacks]) _ (.refl _ _) (by decide)) rfl)
  clear_value w
  exact (hw.trans (endWhere_attends _ _ w)).trans (endWhere_attends _ _ _)

theorem tryFinish_attends (s : State) : Attends s (tryFinish s) := by
  unfold tryFinish
  exact .ite (finishStop_attends ..) (.refl s)

/-! #### The commands of Table 10.8 -/

theorem runEventRead_attends (a : Accepted) (s : State) : Attends s (runEventRead a s) := by
  unfold runEventRead
  exact .ite (finishBuffer_attends ..) (deliverAt_attends ..)

theorem runIdentify_attends (a : Accepted) (s : State) : Attends s (runIdentify a s) := by
  unfold runIdentify
  exact .ite (finishBuffer_attends ..) (deliverAll_attends ..)

theorem runExport_attends (a : Accepted) (s : State) : Attends s (runExport a s) := by
  unfold runExport
  split
  · refine withStretches_attends ?_ _
    exact deliverAll_attends ..
  · exact finish_attends ..

theorem loadJob_attends (im : JobImage) (a : LoadArgs) (s : State) : Attends s (loadJob im a s) := by
  unfold loadJob
  extract_lets _ _ _ s1 s2 s3 s4 s5
  have h1 : Attends s s1 := .update rfl rfl rfl
  have hrun : Run [.out, .exec, .coreStore, .memStacks, .mem] s1 ((updTensors im).foldl (fun s k => regenTensor im k s) s5) := by
    refine .foldl ?_ fun k x hx => regenTensor_run im k x hx (by decide)
    refine .foldl ?_ fun e x hx => ptrWrite_run _ _ _ _ x hx (by decide)
    refine .foldl ?_ fun o x hx => ?_
    · refine .foldl ?_ fun p x hx => keepLists_run _ _ x hx (by decide)
      exact copyPayloads_run _ _ (clearKeeps_run s1 (.refl _ s1) (by decide)) (by decide)
    · split
      · exact ptrWrite_run _ _ _ _ x hx (by decide)
      · exact hx
  exact (h1.trans (.of_run hrun rfl)).trans (setJob_attends _ _)

theorem runJobLoad_attends (a : Accepted) (s : State) : Attends s (runJobLoad a s) := by
  unfold runJobLoad
  refine .ite (finish_attends ..) ?_
  split
  · refine .ite (withStretches_attends ?_ _) (Attends.trans (logEv_attends _ _ _ _ _ _ s) (finish_attends ..))
    exact Attends.trans (loadJob_attends ..) (finish_attends ..)
  · exact finish_attends ..

theorem runJobStart_attends (a : Accepted) (s : State) : Attends s (runJobStart a s) := by
  unfold runJobStart
  exact .ite (.update rfl rfl rfl) (finish_attends ..)

theorem runJobStop_attends (a : Accepted) (s : State) : Attends s (runJobStop a s) := by
  unfold runJobStop
  exact .ite (finish_attends ..) (.ite (finishStop_attends ..) (.update rfl rfl rfl))

theorem runJobUnload_attends (a : Accepted) (s : State) : Attends s (runJobUnload a s) := by
  unfold runJobUnload
  extract_lets u
  have hu : Attends s u := Attends.trans
    (.of_run (abandonTasks_run (flds := [.out, .exec, .cores, .memStacks]) s (.refl _ s) (by decide)) rfl) (setJob_attends ..)
  clear_value u
  exact hu.trans (Attends.updated (finish_attends ..) rfl rfl rfl)

theorem runCkptStop_attends (a : Accepted) (s : State) : Attends s (runCkptStop a s) := by
  unfold runCkptStop
  exact .ite (.refl s) (finish_attends ..)

theorem restoreFrom_attends (a : Accepted) (b1 b2 : Bytes) (s : State) : Attends s (restoreFrom a b1 b2 s) := by
  unfold restoreFrom
  extract_lets t
  split
  · exact finish_attends ..
  next im _ =>
    extract_lets good
    clear_value good
    cases good with
    | none => exact Attends.updated (finish_attends ..) rfl rfl rfl
    | some b =>
      refine withStretches_attends ?_ _
      extract_lets u
      have hu : Attends s u := .of_run
        (applyRecord_run (flds := [.out, .exec, .gauges, .coreStore, .memStacks, .mem, .twin]) im t b s (.refl _ s) (by decide)) rfl
      exact hu.trans (Attends.updated (finish_attends ..) rfl rfl rfl)

theorem peerToPhys_attends (op dst : Nat) (args : Bytes) (s : State) : Attends s (peerToPhys op dst args s) :=
  .of_run (peerToPhys_run (flds := [.out, .fabric]) op dst args s (.refl _ s) (by decide)) rfl

theorem runRestore_attends (a : Accepted) (s : State) : Attends s (runRestore a s) := by
  unfold runRestore
  extract_lets t u
  have hu : Attends s u := .of_run (abortSlot_run (flds := [.inspect]) s (.refl _ s) (by decide)) rfl
  clear_value u
  refine hu.trans (.ite (withStretches_attends ?_ _) ?_)
  · exact restoreFrom_attends ..
  split
  · exact finish_attends ..
  next p _ =>
    extract_lets v
    have hv : Attends u v := peerToPhys_attends ..
    clear_value v
    refine hv.trans ?_
    split
    · exact restoreFrom_attends ..
    · exact restoreFrom_attends ..

theorem startPair_attends (phys : Nat) (ovr : Bool) (s : State) : Attends s (startPair phys ovr s) := by
  unfold startPair
  extract_lets u
  have hu : Attends s u := peerToPhys_attends ..
  clear_value u
  refine hu.trans (.ite (endWhere_attends ..) ?_)
  unfold tryPair
  split
  · exact .refl u
  · extract_lets phys ovr
    split
    · exact .refl u
    · refine .ite (endWhere_attends ..) ?_
      extract_lets same
      exact .ite (.refl u) (Attends.trans (.of_run (modTwin_run (flds := [.twin]) _ u (.refl _ u) (by decide)) rfl) (endWhere_attends ..))

theorem runUnpair_attends (a : Accepted) (s : State) : Attends s (runUnpair a s) := by
  unfold runUnpair
  split
  · exact finish_attends ..
  · exact (Attends.trans (peerToPhys_attends ..) (.of_run (endPair_run (flds := [.twin]) _ (.refl _ _) (by decide)) rfl)).trans
      (finish_attends ..)

theorem runMemPolicy_attends (a : Accepted) (s : State) : Attends s (runMemPolicy a s) := by
  unfold runMemPolicy
  extract_lets p
  have hstacks : Run [.memStacks, .mem, .flash] s ((List.finRange 32).foldl (fun s i =>
      if bit (arg a.entry 0 4) i.val && s.memStacks[i].policy != p then
        ledgerAppend 0x40 6 i.val 0 (leBytes 4 (b2n p)) (modStack i (fun k => { k with policy := p }) (zeroStack i s))
      else s) s) :=
    .foldl (.refl _ s) fun i x hx => run_ite (ledgerAppend_run _ _ _ _ _ _ (modStack_run _ _ _ (zeroStack_run i x hx (by decide)) (by decide))
      (by decide)) hx
  exact (Attends.of_run hstacks rfl).trans (finish_attends ..)

theorem loseArea_attends (f : Fin 2) (s : State) : Attends s (loseArea f s) := by
  unfold loseArea
  extract_lets u
  have hu : Attends s u := .of_run (slotWrite_run (flds := [.mem]) _ _ _ _ (slotWrite_run _ _ _ s (.refl _ s) (by decide)) (by decide)) rfl
  clear_value u
  refine hu.trans (.ite (.refl u) ?_)
  exact Attends.trans (.of_run (modTwin_run (flds := [.twin]) _ u (.refl _ u) (by decide)) rfl) (logAccess_attends ..)

theorem setupFar_attends (hold : Bool) (f : Fin 2) (q : FarProbe) (s : State) : Attends s (setupFar hold f q s) := by
  unfold setupFar
  extract_lets n cap ok u len lo v w
  have hu : Attends s u := .of_run (modFar_run (flds := [.far]) f _ s (.refl _ s) (by decide)) rfl
  have hv : Attends s v := hu.trans (.ite (.update rfl rfl rfl) (.refl u))
  have hw : Attends s w := hv.trans (logEv_attends ..)
  clear_value w
  exact .ite hw (.ite (hw.trans (loseArea_attends ..)) hw)

theorem setupBoth_attends (mask : Nat) (f0 f1 : FarProbe) (s : State) : Attends s (setupBoth mask f0 f1 s) := by
  unfold setupBoth
  extract_lets hold u
  have hu : Attends s u := .ite (setupFar_attends ..) (.refl s)
  exact .ite (hu.trans (setupFar_attends ..)) hu

theorem runFarSetup_attends (a : Accepted) (s : State) : Attends s (runFarSetup a s) := by
  unfold runFarSetup
  split
  · exact Attends.trans (setupBoth_attends ..) (finish_attends ..)
  · exact finish_attends ..

theorem runWindow_attends (a : Accepted) (s : State) : Attends s (runWindow a s) := by
  unfold runWindow
  refine .ite (finish_attends ..) (.ite (.refl s) ?_)
  exact Attends.trans (.of_run (setWindow_run (flds := [.levee]) _ _ s (.refl _ s) (by decide)) rfl) (finish_attends ..)

theorem holdGuest_attends (release : Bool) (s : State) : Attends s (holdGuest release s) :=
  .of_run (modLevee_run (flds := [.out, .memStacks, .links, .levee]) _ _
    (failGuest_run _ (dropLinks_run [40] s (.refl _ s) (by decide)) (by decide)) (by decide)) rfl

theorem runGuestReset_attends (a : Accepted) (s : State) : Attends s (runGuestReset a s) := by
  unfold runGuestReset
  exact .ite (Attends.trans (holdGuest_attends ..) (finishAt_attends ..)) (finish_attends ..)

theorem runUnitReset_attends (a : Accepted) (s : State) : Attends s (runUnitReset a s) := by
  unfold runUnitReset
  extract_lets t
  split
  · exact Attends.trans (.of_run (holdDie_run (flds := [.out, .dies, .cores, .coreStore, .memStacks, .links]) _ s (.refl _ s) (by decide)) rfl)
      (finishAt_attends ..)
  · exact Attends.trans (.of_run (holdStack_run (flds := [.out, .memStacks, .mem, .links]) _ s (.refl _ s) (by decide)) rfl)
      (finishAt_attends ..)
  · exact .ite (Attends.trans (holdGuest_attends ..) (finishAt_attends ..)) (finish_attends ..)

theorem runClockMode_attends (a : Accepted) (s : State) : Attends s (runClockMode a s) := by
  unfold runClockMode
  extract_lets on u v
  have hu : Run [.power, .plls] s u := modPower_run _ s (.refl _ s) (by decide)
  have hv : Run [.power, .plls] s v := by
    show Run _ s (if on then u else _)
    split
    · exact hu
    · exact .foldl hu fun d x hx => modPll_run _ _ x hx (by decide)
  exact (Attends.of_run hv rfl).trans (finish_attends ..)

theorem runGuard_attends (a : Accepted) (s : State) : Attends s (runGuard a s) := by
  unfold runGuard
  extract_lets k rest
  exact Attends.updated (finish_attends ..) rfl rfl rfl

theorem runLinkTest_attends (a : Accepted) (s : State) : Attends s (runLinkTest a s) := by
  unfold runLinkTest
  extract_lets mode ls ws u b
  refine .ite (finish_attends ..) ?_
  have hu : Run [.flash] s u := .foldl (.refl _ s) fun x y hy => sampleMargin_run ws y x hy (by decide)
  exact (Attends.of_run hu rfl).trans (deliverAt_attends ..)

theorem runScan_attends (a : Accepted) (s : State) : Attends s (runScan a s) := by
  unfold runScan
  extract_lets d
  refine .ite (finish_attends ..) ?_
  split
  · exact deliverAt_attends ..
  · exact finish_attends ..

theorem failedImage_attends (a : Accepted) (k c : Nat) (s : State) : Attends s (finish a 8 0 (logEv 0x0071 0 k c 0 0 s)) :=
  Attends.trans (logEv_attends _ _ _ _ _ _ s) (finish_attends ..)

/-- A command that ends with flash written. -/
theorem finishFlash_attends (a : Accepted) (f : Flash) (s : State) : Attends s (finish a 0 0 { s with flash := f }) :=
  Attends.updated (finish_attends ..) rfl rfl rfl

theorem runFwWrite_attends (a : Accepted) (s : State) : Attends s (runFwWrite a s) := by
  unfold runFwWrite
  split
  · exact .ite (failedImage_attends ..) (finishFlash_attends ..)
  · exact finish_attends ..

theorem runFwActivate_attends (a : Accepted) (s : State) : Attends s (runFwActivate a s) := by
  unfold runFwActivate
  exact .ite (failedImage_attends ..) (finishFlash_attends ..)

theorem runOp_attends (a : Accepted) (s : State) : Attends s (runOp a s) := by
  unfold runOp
  refine .ite (finish_attends ..) ?_
  split
  case h_1 => exact finish_attends ..
  case h_2 => exact runIdentify_attends a s
  case h_3 => exact deliverAll_attends ..
  case h_4 => exact runEventRead_attends a s
  case h_5 => exact deliverAll_attends ..
  case h_6 => exact deliverAll_attends ..
  case h_7 => exact runExport_attends a s
  case h_8 => exact runJobLoad_attends a s
  case h_9 => exact runJobStart_attends a s
  case h_10 => exact runJobStop_attends a s
  case h_11 => exact runJobUnload_attends a s
  case h_12 => exact runCkptStop_attends a s
  case h_13 => exact runRestore_attends a s
  case h_14 => exact startPair_attends _ _ s
  case h_15 => exact runUnpair_attends a s
  case h_16 => exact runMemPolicy_attends a s
  case h_17 => exact runFarSetup_attends a s
  case h_18 => exact runWindow_attends a s
  case h_19 => exact runGuestReset_attends a s
  case h_20 => exact runUnitReset_attends a s
  case h_21 => exact runClockMode_attends a s
  case h_22 => exact Attends.trans (.of_run (modPower_run (flds := [.power]) _ s (.refl _ s) (by decide)) rfl) (finish_attends ..)
  case h_23 => exact runGuard_attends a s
  case h_24 => exact runLinkTest_attends a s
  case h_25 => exact runScan_attends a s
  case h_26 => exact runFwWrite_attends a s
  case h_27 => exact runFwActivate_attends a s
  case h_28 => exact .refl s

/-! #### Starting the next command, and reading on -/

theorem length_replaceFirst (a b : Accepted) (l : List Accepted) : (replaceFirst a b l).length = l.length := by
  induction l with
  | nil => rfl
  | cons x l ih =>
    unfold replaceFirst
    split
    · rfl
    · exact congrArg (· + 1) ih

theorem startOp_attends (a : Accepted) (s : State) : Attends s (startOp a s) := by
  unfold startOp
  extract_lets b
  have hmark : Attends s { s with warden := { s.warden with accepted := replaceFirst a b s.warden.accepted } } :=
    ⟨fun _ _ hv => hv, length_replaceFirst a b _⟩
  exact hmark.trans (runOp_attends b _)

theorem startNext_attends (s : State) : Attends s (startNext s) := by
  unfold startNext
  split
  · exact .ite (.refl s) (startOp_attends ..)
  · exact .refl s

theorem releaseUnits_attends (s : State) : Attends s (releaseUnits s) := by
  unfold releaseUnits
  extract_lets u v
  have hu : Run [.dies, .memStacks, .levee] s u := .foldl (.refl _ s) fun d x hx => run_ite (modDie_run _ _ x hx (by decide)) hx
  have hv : Run [.dies, .memStacks, .levee] s v := .foldl hu fun i x hx => run_ite (modStack_run _ _ x hx (by decide)) hx
  exact .ite (.of_run (modLevee_run _ v hv (by decide)) rfl) (.of_run hv rfl)

theorem afterDone_attends (a : Accepted) (s : State) : Attends s (afterDone a s) := by
  unfold afterDone
  exact .ite (releaseUnits_attends s) (.refl s)

theorem popEntry_keepsCauses (mb : Mbox) (s : State) : KeepsCauses s (popEntry mb s) := by
  unfold popEntry
  split
  · exact modHost_keepsCauses (fun h v hv => by exact hv) _ s
  · exact fun _ _ hv => hv

theorem drain_keepsCauses (mb : Mbox) (s : State) : KeepsCauses s (drain mb s) := by
  have hdrain : ∀ (n : Nat) (s : State), KeepsCauses s (drainBad mb n s) := fun n => by
    induction n with
    | zero => exact .refl
    | succ n ih =>
      intro s
      unfold drainBad
      split
      next e _ =>
        split
        next hbad =>
          obtain ⟨hop, -⟩ := Bool.and_eq_true_iff.mp hbad
          rw [takeEntry_unknown hop]
          have hrefuse : KeepsCauses (popEntry mb s) (refuse mb e 2 (popEntry mb s)) :=
            .trans (logEv_keepsCauses _ _ _ _ _ _ _) (putCpl_keepsCauses _ _ _ _ _ _ _ _ _)
          exact ((popEntry_keepsCauses mb s).trans hrefuse).trans (ih _)
        next => exact .refl s
      next => exact .refl s
  exact hdrain ringMost s

theorem drain_attends (mb : Mbox) (s : State) : Attends s (drain mb s) :=
  .of_causes (drain_keepsCauses mb s) (drain_run (flds := [.out, .hostA, .hostB, .i3c, .seq, .log]) mb s (.refl _ s) (by decide)) rfl

end Sys2Proof.Proofs

/-! ### Completion entries and the management bus (R266, R267, R277) -/

namespace Sys2Proof.Proofs

open Machine Laws

/-! #### The DONE entry -/

theorem raiseIrq_raises_completion (p : HPort) (s : State) : (hostOf p (raiseIrq p 0 s)).irqst.getLsbD 0 = true := by
  unfold raiseIrq
  extract_lets h t
  have ht : (hostOf p t).irqst.getLsbD 0 = true := by simp [t]
  split
  · exact ht
  · exact ht

section
variable {mb : Mbox} {p : HPort} (hp : mboxPort mb = some p)
include hp

/-- A DONE entry that a port takes, with the SEQ of the event that records the end of its command (R266). -/
theorem done_mem_putCpl (e : Bytes) (st r f : Nat) (s : State) :
    .cpl mb ((hostOf p s).mb.ppi.toNat % pSize (hostOf p s).mb)
        (cplBytes e 1 st (decide ((hostOf p s).mb.ppi.toNat < pSize (hostOf p s).mb)) 0 r (if f = 0 then s.seq + 1 else f))
      ∈ (putCpl mb e 1 st 0 r f false s).out := by
  unfold putCpl
  simp only [hp, Bool.false_eq_true, if_false, logEv_seq, hostOf_logEv_mb, true_and]
  split
  · exact (raiseIrq_run (flds := [.out, .hostA, .hostB]) p 0 _ (.refl _ _) (by decide)).out.subset (by simp [emit])
  · simp [emit]

/-- FLAGS asks for the completion interrupt of a DONE entry (R266). -/
theorem putCpl_raises {e : Bytes} (hirq : entIrq e = true) (st r f : Nat) (s : State) :
    (hostOf p (putCpl mb e 1 st 0 r f false s)).irqst.getLsbD 0 = true := by
  unfold putCpl
  simp only [hp, Bool.false_eq_true, if_false, hirq, and_self, if_true]
  exact raiseIrq_raises_completion p _

end

/-! #### A command that is done (R267) -/

/-- The state once the DONE entry of a command is out and the command is accepted no more. -/
def withdrawn (a : Accepted) (d : Done) (s : State) : State :=
  let t := putCpl a.mb a.entry 1 d.status 0 d.result d.fault a.orphan s
  { t with warden := { t.warden with accepted := t.warden.accepted.erase a } }

theorem length_withdrawn {a : Accepted} {s : State} (ha : a ∈ s.warden.accepted) (d : Done) :
    (withdrawn a d s).warden.accepted.length + 1 = s.warden.accepted.length := by
  have hwarden : (withdrawn a d s).warden.accepted = s.warden.accepted.erase a := by simp only [withdrawn, putCpl_warden]
  rw [hwarden, List.length_erase_of_mem ha]
  exact Nat.sub_add_cancel (List.length_pos_of_mem ha)

/-- What follows a DONE entry lowers no cause and accepts no command. -/
theorem completeOne_attends (a : Accepted) (d : Done) (s : State) : Attends (withdrawn a d s) (completeOne a d s) :=
  (((afterDone_attends a _).trans (startNext_attends _)).trans (tryFinish_attends _)).trans (drain_attends a.mb _)

/-- The fields that the end of a command may change. -/
def completionFields : List StateField :=
  [.out, .power, .plls, .tideHi, .hostA, .hostB, .i3c, .warden, .seq, .log, .queues, .job, .exec, .gauges, .dies, .cores, .coreStore, .memStacks,
    .mem, .far, .links, .levee, .fabric, .twin, .flash, .inspect]

theorem completeOne_follows (a : Accepted) (d : Done) (s : State) : Run completionFields (withdrawn a d s) (completeOne a d s) :=
  drain_run a.mb _ (tryFinish_run _ (startNext_run _ (afterDone_run a _ (.refl _ _) (by decide)) (by decide)) (by decide)) (by decide)

theorem length_completeOne {a : Accepted} {s : State} (ha : a ∈ s.warden.accepted) (d : Done) :
    (completeOne a d s).warden.accepted.length + 1 = s.warden.accepted.length := by
  rw [(completeOne_attends a d s).count, length_withdrawn ha]

section
variable {a : Accepted} {d : Done} {p : HPort} {s : State}

/-- The DONE entry of a command of a port stays in what has gone out. -/
theorem done_mem_completeOne (hp : mboxPort a.mb = some p) (horphan : a.orphan = false) :
    .cpl a.mb ((hostOf p s).mb.ppi.toNat % pSize (hostOf p s).mb)
        (cplBytes a.entry 1 d.status (decide ((hostOf p s).mb.ppi.toNat < pSize (hostOf p s).mb)) 0 d.result
          (if d.fault = 0 then s.seq + 1 else d.fault))
      ∈ (completeOne a d s).out := by
  refine (completeOne_follows a d s).out.subset ?_
  rw [withdrawn, horphan]
  exact done_mem_putCpl hp a.entry d.status d.result d.fault s

theorem completeOne_raises (hp : mboxPort a.mb = some p) (horphan : a.orphan = false) (hirq : entIrq a.entry = true) :
    (hostOf p (completeOne a d s)).irqst.getLsbD 0 = true := by
  refine (completeOne_attends a d s).causes p 0 ?_
  rw [withdrawn, horphan]
  exact putCpl_raises hp hirq d.status d.result d.fault s

/-- The event that records the end of a command (R275). -/
theorem completeOne_seq (a : Accepted) (d : Done) (s : State) : s.seq + 1 ≤ (completeOne a d s).seq :=
  (putCpl_seq a.mb a.entry 1 d.status 0 d.result d.fault a.orphan s).ge.trans (completeOne_follows a d s).seq

theorem exec_commandCompletion {i : Nat} (hi : s.warden.accepted[i]? = some a) (hd : a.done = some d) (hat : d.at_ ≤ s.now)
    (hop : entOp a.entry ≠ 0x0306) (hspace : a.orphan = true ∨ cplSpace a.mb s = true) :
    exec (.commandCompletion i) s = .next (completeOne a d s) := by
  show execCommandCompletion i s = _
  simp only [execCommandCompletion, hi, hd]
  exact congrArg Host.Outcome.next (if_pos ⟨hat, hspace, hop⟩)

end

/-! #### The I3C target (R277) -/

/-- A read of 32 bytes takes them from a buffer that holds so many. -/
theorem slice_of_length_ge {b : Bytes} {n : Nat} (h : n ≤ b.length) : slice b 0 n = b.take n := by
  simp [slice, Nat.min_eq_left h]

theorem exec_i3cPrivateWrite_other {data : Bytes} (s : State) (h : data.length ≠ 128) : exec (.i3cPrivateWrite data) s = .next s :=
  congrArg Host.Outcome.next (if_neg (by simp [h]))

theorem exec_setdasa_other {addr : BitVec 7} (h : addr ≠ 0x2A) (dyn : BitVec 7) (s : State) : exec (.setdasa addr dyn) s = .next s :=
  congrArg Host.Outcome.next (if_neg (fun hcond => h (beq_iff_eq.mp (Bool.and_eq_true_iff.mp hcond).2)))

section
variable {s : State} (hup : i3cUp s = true)
include hup

theorem exec_i3cPrivateWrite_entry {data : Bytes} (h : data.length = 128) :
    exec (.i3cPrivateWrite data) s = .next (drain .i3c { s with i3c := { s.i3c with waiting := s.i3c.waiting ++ [data] } }) :=
  congrArg Host.Outcome.next (if_pos (by rw [hup, h]; rfl))

theorem exec_i3cPrivateRead_entry {e : Bytes} {r : List Bytes} (h : s.i3c.done = e :: r) :
    exec .i3cPrivateRead s = .next { s with i3c := { s.i3c with done := r, ibi := !r.isEmpty }, out := s.out ++ [.i3cResp e] } := by
  show execI3cPrivateRead s = _
  simp only [execI3cPrivateRead, hup, h, Bool.not_true, Bool.false_eq_true, if_false]
  rfl

theorem exec_i3cPrivateRead_buffer (h : s.i3c.done = []) :
    exec .i3cPrivateRead s =
      .next { s with i3c := { s.i3c with buffer := s.i3c.buffer.drop 32, ibi := false }, out := s.out ++ [.i3cResp (slice s.i3c.buffer 0 32)] } := by
  show execI3cPrivateRead s = _
  simp only [execI3cPrivateRead, hup, h, Bool.not_true, Bool.false_eq_true, if_false]
  rfl

theorem exec_setdasa_own (dyn : BitVec 7) : exec (.setdasa 0x2A dyn) s = .next { s with i3c := { s.i3c with dyn := some dyn } } :=
  congrArg Host.Outcome.next (if_pos (by rw [hup]; rfl))

end

/-- Settles O31: COMMAND_COMPLETION by `completeOne_attends`, the management bus row by row. -/
theorem completionsAndManagementBus : Obligations.CompletionsAndManagementBus := by
  unfold Obligations.CompletionsAndManagementBus
  refine ⟨fun i a d p s hi hd hat hop hp => ?_, fun s hup => ?_⟩
  · have hcount := length_completeOne (List.mem_of_getElem? hi) d
    refine ⟨fun horphan hspace => ?_, fun horphan => ?_⟩
    · exact ⟨_, exec_commandCompletion hi hd hat hop (.inr hspace), hcount, done_mem_completeOne hp horphan, completeOne_raises hp horphan⟩
    · exact ⟨_, exec_commandCompletion hi hd hat hop (.inl horphan), hcount, completeOne_seq a d s⟩
  · refine ⟨fun _ => exec_i3cPrivateWrite_entry hup, fun _ => exec_i3cPrivateWrite_other s, fun _ _ => exec_i3cPrivateRead_entry hup,
      fun h => ?_, exec_setdasa_own hup, fun _ dyn h => exec_setdasa_other h dyn s⟩
    exact ⟨_, exec_i3cPrivateRead_buffer hup h, slice_length _ 0 32, fun hempty => by rw [hempty]; rfl, slice_of_length_ge⟩

end Sys2Proof.Proofs

/-! ### Acceptance of the commands of Table 10.8 (R267, R269) -/

namespace Sys2Proof.Proofs

open Machine Laws

/-! #### The rows of Table 10.8 -/

/-- The commands from 0x0101 on need the lock (R261). -/
theorem cmdRow_lock_iff {op : Nat} {row : CmdRow} (h : cmdRow op = some row) : row.lock = true ↔ 0x0101 ≤ op := by
  unfold cmdRow at h
  split at h <;> cases h <;> decide

/-- The I3C target is granted the reads alone (R269). -/
theorem op_le_of_offered_i3c {op : Nat} {e : Bytes} {s : State} (ho : Offered op .i3c e s) : op ≤ 6 := by
  by_contra hop
  have hrefused : refusalOf .i3c e s = 2 := refusalOf_not_allowed (opAllowed_i3c (by rw [ho.opcode]; omega))
  exact absurd (hrefused.symm.trans ho.granted) (by decide)

/-! #### The ACCEPTED entry -/

/-- The completion ring of each port and the event count stand in `u` as in `s`. -/
structure SameRings (s u : State) : Prop where
  seq : u.seq = s.seq
  ring : ∀ p, (hostOf p u).mb.ppi = (hostOf p s).mb.ppi ∧ (hostOf p u).mb.plog = (hostOf p s).mb.plog

theorem popEntry_sameRings (mb : Mbox) (s : State) : SameRings s (popEntry mb s) := ⟨popEntry_seq mb s, fun p => popEntry_ring mb p s⟩

section
variable {s u : State}

theorem SameRings.keepFree (h : SameRings s u) (a : Accepted) : SameRings s (keepFree a u) := ⟨h.seq, h.ring⟩

theorem SameRings.keepLocked (h : SameRings s u) (a : Accepted) : SameRings s (keepLocked a u) := ⟨h.seq, h.ring⟩

theorem SameRings.withLock (h : SameRings s u) (l : Lock) : SameRings s { u with lock := l } := ⟨h.seq, h.ring⟩

end

theorem takenState_sameRings (mb : Mbox) (e : Bytes) (ext : EnvAnswer) (s : State) : SameRings s (takenState mb e ext s) := by
  unfold takenState
  extract_lets t
  have ht : SameRings s t := (popEntry_sameRings mb s).keepLocked _
  split
  · exact ht.withLock _
  · exact ht

/-- `t` has given out the ACCEPTED entry of a command of a port, and logged at least the event that it names. -/
def GaveAccepted (mb : Mbox) (e : Bytes) (d : Nat) (s t : State) : Prop :=
  s.seq + 1 ≤ t.seq ∧ ∀ p, mboxPort mb = some p →
    .cpl mb ((hostOf p s).mb.ppi.toNat % pSize (hostOf p s).mb)
      (cplBytes e 0 0 (decide ((hostOf p s).mb.ppi.toNat < pSize (hostOf p s).mb)) d 0 (s.seq + 1)) ∈ t.out

theorem putCpl_gaveAccepted {mb : Mbox} {s u : State} (h : SameRings s u) (e : Bytes) (d : Nat) :
    GaveAccepted mb e d s (putCpl mb e 0 0 d 0 0 false u) := by
  refine ⟨(h.seq ▸ putCpl_seq ..).ge, fun p hp => ?_⟩
  obtain ⟨hppi, hplog⟩ := h.ring p
  have hcpl := cpl_mem_putCpl hp e 0 0 d 0 u
  simp only [pSize, hppi, hplog, h.seq] at hcpl
  exact hcpl

/-- The ACCEPTED entry stays in what has gone out, whatever the command does then. -/
theorem GaveAccepted.of_run {mb : Mbox} {e : Bytes} {d : Nat} {s t u : State} {flds : List StateField} (h : GaveAccepted mb e d s t)
    (hrun : Run flds t u) : GaveAccepted mb e d s u :=
  ⟨h.1.trans hrun.seq, fun p hp => hrun.out.subset (h.2 p hp)⟩

theorem GaveAccepted.markStarted {mb : Mbox} {e : Bytes} {d : Nat} {s t : State} (h : GaveAccepted mb e d s t) (a : Accepted) :
    GaveAccepted mb e d s (markStarted a t) := h

section
variable {op : Nat} {mb : Mbox} {e : Bytes} {ext : EnvAnswer} {s : State} {row : CmdRow}

/-- A command that needs the lock, accepted. -/
theorem fromMailbox_locked_gaveAccepted (ho : Offered op mb e s) (hrow : cmdRow op = some row) (hlock : row.lock = true) :
    GaveAccepted mb e (cmdDeadline true e s) s (fromMailbox op mb ext s) := by
  rw [fromMailbox_of_offered ho hrow hlock, ← cmdDeadline_popEntry mb]
  exact (putCpl_gaveAccepted (takenState_sameRings mb e ext s) e _).of_run (flds := completionFields)
    (drain_run _ _ (startNext_run _ (acceptEffect_run _ _ (.refl _ _) (by decide)) (by decide)) (by decide))

/-- A command that needs no lock, accepted and started. -/
theorem fromMailbox_free (ho : Offered op mb e s) (hrow : cmdRow op = some row) (hlock : row.lock = false) :
    fromMailbox op mb ext s = drain mb (runOp (freeCmd mb e ext s) (freeStarted mb e ext s)) := by
  have hop : ¬0x0101 ≤ op := fun h => Bool.noConfusion (((cmdRow_lock_iff hrow).mpr h).symm.trans hlock)
  exact fromMailbox_starts_free ho hrow hlock (by simp only [List.mem_cons, List.not_mem_nil, or_false]; omega) ext

theorem fromMailbox_free_gaveAccepted (ho : Offered op mb e s) (hrow : cmdRow op = some row) (hlock : row.lock = false) :
    GaveAccepted mb e (cmdDeadline false e s) s (fromMailbox op mb ext s) := by
  rw [fromMailbox_free ho hrow hlock]
  exact ((putCpl_gaveAccepted ((popEntry_sameRings mb s).keepFree _) e _).markStarted _).of_run (flds := completionFields)
    (drain_run _ _ (runOp_run _ _ (.refl _ _) (by decide)) (by decide))

end

/-! #### What the I3C target's reads leave in its queue 5 (R277) -/

theorem finish_i3c (a : Accepted) (st r : Nat) (s : State) : (finish a st r s).i3c = s.i3c :=
  (finish_run (flds := [.warden]) a st r s (.refl _ s) (by decide)).same .i3c rfl

/-- A result in the target's buffer leaves its queue 5. -/
theorem finishBuffer_i3c_done (a : Accepted) (st r : Nat) (b : Bytes) (s : State) :
    (finish a st r { s with i3c := { s.i3c with buffer := b } }).i3c.done = s.i3c.done := by
  rw [finish_i3c]

theorem deliverAt_i3c_done (a : Accepted) (b : Bytes) (r at_ : Nat) (s : State) : (deliverAt a b r at_ s).i3c.done = s.i3c.done :=
  congrArg I3c.done ((deliverAt_run (flds := [.out, .warden]) a b r at_ s (.refl _ s) (by decide)).same .i3c rfl)

theorem deliverAll_i3c_done (a : Accepted) (b : Bytes) (s : State) : (deliverAll a b s).i3c.done = s.i3c.done := by
  unfold deliverAll
  split
  · exact finishBuffer_i3c_done ..
  · exact deliverAt_i3c_done ..

theorem runIdentify_i3c_done (a : Accepted) (s : State) : (runIdentify a s).i3c.done = s.i3c.done := by
  unfold runIdentify
  split
  · exact finishBuffer_i3c_done ..
  · exact deliverAll_i3c_done ..

theorem runEventRead_i3c_done (a : Accepted) (s : State) : (runEventRead a s).i3c.done = s.i3c.done := by
  unfold runEventRead
  split
  · exact finishBuffer_i3c_done ..
  · exact deliverAt_i3c_done ..

/-- A read writes no entry of queue 5 itself. -/
theorem runOp_i3c_done {a : Accepted} (h : entOp a.entry ≤ 6) (s : State) : (runOp a s).i3c.done = s.i3c.done := by
  unfold runOp
  split
  · rfl
  · split
    case h_1 => rfl
    case h_2 => exact runIdentify_i3c_done a s
    case h_3 => exact deliverAll_i3c_done ..
    case h_4 => exact runEventRead_i3c_done a s
    case h_5 => exact deliverAll_i3c_done ..
    case h_6 => exact deliverAll_i3c_done ..
    case h_28 => rfl
    all_goals omega

/-- The ACCEPTED entry of a command that came over the management bus waits in queue 5. -/
theorem done_mem_fromMailbox {op : Nat} {e : Bytes} {ext : EnvAnswer} {s : State} {row : CmdRow} (ho : Offered op .i3c e s)
    (hrow : cmdRow op = some row) (hlock : row.lock = false) :
    cplBytes e 0 0 true (cmdDeadline false e s) 0 (s.seq + 1) ∈ (fromMailbox op .i3c ext s).i3c.done := by
  have hread : entOp (freeCmd .i3c e ext s).entry ≤ 6 := (show entOp e = op from ho.opcode) ▸ op_le_of_offered_i3c ho
  have hdone : (freeStarted .i3c e ext s).i3c.done = s.i3c.done ++ [cplBytes e 0 0 true (cmdDeadline false e s) 0 (s.seq + 1)] := by
    refine (putCpl_i3c_done e 0 0 _ 0 _).trans ?_
    rw [((popEntry_sameRings .i3c s).keepFree _).seq]
    rfl
  rw [fromMailbox_free ho hrow hlock]
  refine (drain_done_prefix .i3c _).subset ?_
  rw [runOp_i3c_done hread, hdone]
  exact List.mem_append_right _ (List.mem_singleton_self _)

/-! #### A command that waits behind another (R269) -/

/-- The next locked command waits for the one at work, or for the DONE entry of the one that has ended. -/
theorem startNext_of_busy {a : Accepted} {s : State} (h : s.warden.accepted.find? (·.locked) = some a)
    (hbusy : a.started = true ∨ a.done.isSome = true) : startNext s = s := by
  simp only [startNext, h]
  exact if_pos (Bool.or_eq_true_iff.mpr hbusy)

theorem acceptedState_lockedDeadline (mb : Mbox) (e : Bytes) (ext : EnvAnswer) (s : State) :
    (acceptedState mb e ext s).warden.lockedDeadline = cmdDeadline true e s := by
  simp only [acceptedState, takenState, keepLocked, putCpl_warden, apply_ite State.warden, restartLease, ite_self, acceptedCmd_popEntry]
  rfl

theorem fromMailbox_of_busy {op : Nat} {mb : Mbox} {e : Bytes} {ext : EnvAnswer} {s : State} {row : CmdRow} {a : Accepted}
    (ho : Offered op mb e s) (hrow : cmdRow op = some row) (hlock : row.lock = true) (hplain : op ∉ [0x0103, 0x0201, 0x0303, 0x0306])
    (h : s.warden.accepted.find? (·.locked) = some a) (hbusy : a.started = true ∨ a.done.isSome = true) :
    fromMailbox op mb ext s = drain mb (acceptedState mb e ext s) := by
  have hfind : (acceptedState mb e ext s).warden.accepted.find? (·.locked) = some a := by
    rw [acceptedState_accepted, List.find?_append, h]
    rfl
  rw [fromMailbox_of_offered ho hrow hlock, acceptEffect_of_plain (ho.opcode.symm ▸ hplain), startNext_of_busy hfind hbusy]

/-- Settles O9: `GaveAccepted` for the entry, `fromMailbox_of_busy` for the command that waits. -/
theorem acceptance : Obligations.Acceptance := by
  unfold Obligations.Acceptance
  refine ⟨fun i op mb e s hi ho => ?_, fun i op mb e s a hi ho hop hplain hfind hbusy => ?_⟩
  all_goals
    obtain ⟨row, hrow⟩ := Option.isSome_iff_exists.mp (cmdRow_of_cmdOf hi)
    obtain ⟨ext, hexec⟩ := exec_command hi s
  · have hd : ((cmdRow op).map (·.lock)).getD false = row.lock := by rw [hrow]; rfl
    rw [hd]
    cases hlock : row.lock with
    | true =>
      obtain ⟨hseq, hcpl⟩ := fromMailbox_locked_gaveAccepted (ext := ext) ho hrow hlock
      refine ⟨_, _, hexec, hseq, rfl, hcpl, fun hmb => ?_⟩
      subst hmb
      exact absurd ((cmdRow_lock_iff hrow).mp hlock) (by have := op_le_of_offered_i3c ho; omega)
    | false =>
      obtain ⟨hseq, hcpl⟩ := fromMailbox_free_gaveAccepted (ext := ext) ho hrow hlock
      refine ⟨_, _, hexec, hseq, rfl, hcpl, fun hmb => ?_⟩
      subst hmb
      exact done_mem_fromMailbox ho hrow hlock
  · have hbusyState := fromMailbox_of_busy (ext := ext) ho hrow ((cmdRow_lock_iff hrow).mpr hop) hplain hfind hbusy
    refine ⟨_, hexec, ?_, acceptedCmd mb e ext s, ?_, rfl, rfl, rfl, rfl, rfl, rfl, ?_⟩
    · rw [hbusyState]
      exact mailboxOnly_trans (acceptedState_mailboxOnly mb e ext s) (drain_mailboxOnly mb _)
    · rw [hbusyState, drain_warden, acceptedState_accepted]
    · rw [hbusyState, drain_warden, acceptedState_lockedDeadline]
      rfl

end Sys2Proof.Proofs

/-! ### Firmware writing and activation (R279, R281) -/

namespace Sys2Proof.Proofs

open Machine Laws

/-- The checks of R279 are numbered 1 to 4. -/
theorem fwCheck_le (b : Bytes) (svnMin : Nat) : fwCheck b svnMin ≤ 4 := by
  unfold fwCheck
  extract_lets len be
  split_ifs <;> decide

theorem arg_byte_lt (e : Bytes) (off : Nat) : arg e off 1 < 256 := by
  have hlen : ((e.drop (32 + off)).take 1).length ≤ 1 := List.length_take_le ..
  exact (leVal_lt _).trans_le (Nat.pow_le_pow_right (n := 256) (by decide) hlen)

/-- A state with another content of flash. -/
def withFlash (f : Flash) (s : State) : State := { s with flash := f }

theorem withFlash_mailboxOnly (f : Flash) {s t : State} (h : MailboxOnly s t) : MailboxOnly (withFlash f s) (withFlash f t) :=
  congr_mailboxOnly (withFlash f) h

/-! #### The two ends of a command that checks an image -/

section
variable {i : Instr} {mb : Mbox} {e : Bytes} {ext : EnvAnswer} {s : State} {deadline : Nat}

/-- An image that fails is named by event 0x0071, and flash stays. -/
theorem exec_failsImage {k c : Nat}
    (hexec : exec i s = .next (drain mb (finish (startedCmd mb e ext s) 8 0 (logEv 0x0071 0 k c 0 0 (startedState mb e ext s)))))
    (hdeadline : cmdDeadline true e s = deadline) (hk : k < 256) (hc : c ≤ 4) :
    ∃ t, exec i s = .next t ∧ MailboxOnly { s with flash := t.flash } t ∧ Ends mb e deadline 8 0 s t ∧ t.flash = s.flash ∧
      ∃ l ∈ t.log, l.code = 0x0071 ∧ l.d0 = k ∧ l.d1 = c := by
  let u := startedState mb e ext s
  let w := logEv 0x0071 0 k c 0 0 u
  have hrun : Run [.out, .hostA, .hostB, .seq, .log] u w := logEv_ports_run ..
  have hmem : startedCmd mb e ext s ∈ w.warden.accepted := by
    rw [hrun.same .warden rfl]
    exact startedCmd_mem_startedState mb e ext s
  have honly : MailboxOnly s (drain mb (finish (startedCmd mb e ext s) 8 0 w)) :=
    mailboxOnly_trans (mailboxOnly_trans (startedState_mailboxOnly mb e ext s) (mailboxOnly_of_run (hrun.mono (by decide))))
      (mailboxOnly_trans (finishAt_mailboxOnly ..) (drain_mailboxOnly mb _))
  have hflash := congr_mailboxOnly State.flash honly
  have hnow : w.now = s.now := (hrun.same .now rfl).trans (startedState_now mb e ext s)
  refine ⟨_, hexec, ?_, hdeadline ▸ ends_finish hmem hnow 8 0, hflash, _,
    LogsAtMost.newest_mem (drain_logsAtMost mb _) (by decide) (logEv_newest 0x0071 0 k c 0 0 u), rfl, ?_, ?_⟩
  · rw [hflash]
    exact honly
  · exact Nat.mod_eq_of_lt (hk.trans (by decide))
  · exact Nat.mod_eq_of_lt (hc.trans_lt (by decide))

/-- A command that ends with flash written. -/
theorem exec_writesFlash {f : Flash}
    (hexec : exec i s = .next (drain mb (finish (startedCmd mb e ext s) 0 0 (withFlash f (startedState mb e ext s)))))
    (hdeadline : cmdDeadline true e s = deadline) :
    ∃ t, exec i s = .next t ∧ MailboxOnly { s with flash := t.flash } t ∧ Ends mb e deadline 0 0 s t ∧ t.flash = f := by
  obtain ⟨t, hexec, hends, ht⟩ := exec_finishes hexec rfl rfl hdeadline
  have hflash : t.flash = f := congr_mailboxOnly State.flash ht
  refine ⟨t, hexec, ?_, hends, hflash⟩
  rw [hflash]
  exact mailboxOnly_trans (withFlash_mailboxOnly f (startedState_mailboxOnly mb e ext s)) ht

end

/-! #### FW_WRITE -/

/-- The slot that an image goes to. -/
def slotWritten (k : Nat) (b : Bytes) (f : Flash) : Flash := if k = 0 then { f with slotA := b } else { f with slotB := b }

section
variable {a : Accepted} {b : Bytes} {mb : Mbox} {e : Bytes} {s : State}

theorem runFwWrite_bad (hext : a.ext = .data (some b)) (h : fwCheck b s.warden.svnMin ≠ 0) :
    runFwWrite a s = finish a 8 0 (logEv 0x0071 0 (arg a.entry 0 1) (fwCheck b s.warden.svnMin) 0 0 s) := by
  simp only [runFwWrite, hext]
  exact if_pos h

theorem runFwWrite_good (hext : a.ext = .data (some b)) (h : fwCheck b s.warden.svnMin = 0) :
    runFwWrite a s = finish a 0 0 (withFlash (slotWritten (arg a.entry 0 1) b s.flash) s) := by
  simp only [runFwWrite, hext, h]
  rfl

theorem runFwWrite_none (hext : a.ext = .data none) : runFwWrite a s = finish a 9 0 s := by
  simp only [runFwWrite, hext]

theorem startedState_svnMin (mb : Mbox) (e : Bytes) (ext : EnvAnswer) (s : State) :
    (startedState mb e ext s).warden.svnMin = s.warden.svnMin :=
  congr_mailboxOnly (fun x => x.warden.svnMin) (startedState_mailboxOnly mb e ext s)

theorem startedState_flash (mb : Mbox) (e : Bytes) (ext : EnvAnswer) (s : State) : (startedState mb e ext s).flash = s.flash :=
  congr_mailboxOnly State.flash (startedState_mailboxOnly mb e ext s)

/-- DATA of the length that DATALEN gives is what a command reads (R265). -/
theorem dataExt_of_waits {op : Nat} (hw : Waits op mb e s) (hc : (cmdRow op).isSome = true) (hlen : b.length = entLen e) :
    dataExt mb (some b) s = .data (some b) := by
  simp only [dataExt, drain_of_command hw.front (hw.opcode ▸ hc), hw.front, hlen, if_true]

theorem exec_fwWrite {d : Option Bytes} {ext : EnvAnswer} (hext : dataExt mb d s = ext) (ho : Offered 0x0501 mb e s) (hl : LockedIdle s) :
    exec (.fwWrite mb d) s = .next (drain mb (runFwWrite (startedCmd mb e ext s) (startedState mb e ext s))) :=
  exec_starts (hext ▸ rfl) ho hl rfl rfl (by decide) fun a t ha hop => by simp [runOp, readsData, ha, hop]

theorem cmdDeadline_fwWrite (ho : Offered 0x0501 mb e s) : cmdDeadline true e s = lockedFrom s + entLen e * 1000 + 5000000000 := by
  simp [cmdDeadline, ho.opcode, boundStart, lockedFrom]

theorem fwWrite_effect (ho : Offered 0x0501 mb e s) (hl : LockedIdle s) (hlen : b.length = entLen e) :
    ∃ t, exec (.fwWrite mb (some b)) s = .next t ∧ MailboxOnly { s with flash := t.flash } t ∧
      if fwCheck b s.warden.svnMin = 0 then
        Ends mb e (lockedFrom s + entLen e * 1000 + 5000000000) 0 0 s t ∧ t.flash = slotWritten (arg e 0 1) b s.flash
      else
        Ends mb e (lockedFrom s + entLen e * 1000 + 5000000000) 8 0 s t ∧ t.flash = s.flash ∧
          ∃ l ∈ t.log, l.code = 0x0071 ∧ l.d0 = arg e 0 1 ∧ l.d1 = fwCheck b s.warden.svnMin := by
  have hexec := exec_fwWrite (dataExt_of_waits ho.toWaits rfl hlen) ho hl
  have hsvn := startedState_svnMin mb e (.data (some b)) s
  by_cases hcheck : fwCheck b s.warden.svnMin = 0
  · simp only [hcheck, if_true]
    rw [runFwWrite_good rfl (hsvn ▸ hcheck), startedState_flash] at hexec
    exact exec_writesFlash hexec (cmdDeadline_fwWrite ho)
  · simp only [hcheck, if_false]
    rw [runFwWrite_bad (a := startedCmd mb e (.data (some b)) s) rfl (hsvn ▸ hcheck), hsvn] at hexec
    exact exec_failsImage hexec (cmdDeadline_fwWrite ho) (arg_byte_lt e 0) (fwCheck_le ..)

/-- Host memory that does not answer. -/
theorem fwWrite_unanswered (ho : Offered 0x0501 mb e s) (hl : LockedIdle s) :
    ∃ t, exec (.fwWrite mb none) s = .next t ∧ MailboxOnly s t ∧ Ends mb e (lockedFrom s + entLen e * 1000 + 5000000000) 9 0 s t := by
  have hexec := exec_fwWrite (d := none) (ext := .data none) rfl ho hl
  rw [runFwWrite_none rfl] at hexec
  obtain ⟨t, hexec, hends, ht⟩ := exec_finishes hexec rfl rfl (cmdDeadline_fwWrite ho)
  exact ⟨t, hexec, mailboxOnly_trans (startedState_mailboxOnly ..) ht, hends⟩

end

/-! #### FW_ACTIVATE -/

/-- The boot-record copy with the lower write count gives way to a record of a slot (R281). -/
def bootWritten (second : Bool) (f : Flash) : Flash :=
  let r : BootRec := { slot := second, count := max f.bootA.count f.bootB.count + 1 }
  if f.bootA.count < f.bootB.count then { f with bootA := r } else { f with bootB := r }

section
variable {a : Accepted} {mb : Mbox} {e : Bytes} {s : State}

theorem runFwActivate_bad {c : Nat} (hc : fwCheck (fwSlot (arg a.entry 0 1 == 1) s) s.warden.svnMin = c) (h : c ≠ 0) :
    runFwActivate a s = finish a 8 0 (logEv 0x0071 0 (arg a.entry 0 1) c 0 0 s) := by
  subst hc
  exact if_pos h

theorem runFwActivate_good (h : fwCheck (fwSlot (arg a.entry 0 1 == 1) s) s.warden.svnMin = 0) :
    runFwActivate a s = finish a 0 0 (withFlash (bootWritten (arg a.entry 0 1 == 1) s.flash) s) := by
  simp only [runFwActivate, h]
  rfl

theorem fwSlot_startedState (k : Bool) (mb : Mbox) (e : Bytes) (ext : EnvAnswer) (s : State) :
    fwSlot k (startedState mb e ext s) = fwSlot k s := by
  rw [fwSlot, fwSlot, startedState_flash]

theorem cmdDeadline_fwActivate (ho : Offered 0x0502 mb e s) : cmdDeadline true e s = lockedFrom s + 2000000000 := by
  simp [cmdDeadline, ho.opcode, boundStart, lockedFrom]

theorem fwActivate_effect (ho : Offered 0x0502 mb e s) (hl : LockedIdle s) :
    ∃ t, exec (.fwActivate mb) s = .next t ∧ MailboxOnly { s with flash := t.flash } t ∧
      if fwCheck (fwSlot (arg e 0 1 == 1) s) s.warden.svnMin = 0 then
        Ends mb e (lockedFrom s + 2000000000) 0 0 s t ∧ t.flash = bootWritten (arg e 0 1 == 1) s.flash
      else
        Ends mb e (lockedFrom s + 2000000000) 8 0 s t ∧ t.flash = s.flash ∧
          ∃ l ∈ t.log, l.code = 0x0071 ∧ l.d0 = arg e 0 1 ∧ l.d1 = fwCheck (fwSlot (arg e 0 1 == 1) s) s.warden.svnMin := by
  have hexec := exec_starts (ext := .none) (f := runFwActivate) (i := .fwActivate mb) rfl ho hl rfl rfl (by decide)
    fun a t ha hop => by simp [runOp, readsData, ha, hop]
  have hchecked : fwCheck (fwSlot (arg e 0 1 == 1) (startedState mb e .none s)) (startedState mb e .none s).warden.svnMin =
      fwCheck (fwSlot (arg e 0 1 == 1) s) s.warden.svnMin := by
    rw [fwSlot_startedState, startedState_svnMin]
  by_cases hcheck : fwCheck (fwSlot (arg e 0 1 == 1) s) s.warden.svnMin = 0
  · simp only [hcheck, if_true]
    rw [runFwActivate_good (hchecked.trans hcheck), startedState_flash] at hexec
    exact exec_writesFlash hexec (cmdDeadline_fwActivate ho)
  · simp only [hcheck, if_false]
    rw [runFwActivate_bad (a := startedCmd mb e .none s) hchecked hcheck] at hexec
    exact exec_failsImage hexec (cmdDeadline_fwActivate ho) (arg_byte_lt e 0) (fwCheck_le ..)

theorem fwSlot_eq (k : Nat) (s : State) : fwSlot (k == 1) s = if k = 1 then s.flash.slotB else s.flash.slotA := by
  simp only [fwSlot, beq_iff_eq]

end

/-- Settles O30: `fwWrite_effect`, `fwWrite_unanswered` and `fwActivate_effect`. -/
theorem firmware : Obligations.Firmware := by
  unfold Obligations.Firmware
  refine fun mb e s hl => ⟨fun b ho hlen => fwWrite_effect ho hl hlen, fun ho => fwWrite_unanswered ho hl, fun ho => ?_⟩
  have heffect := fwActivate_effect ho hl
  rw [fwSlot_eq] at heffect
  exact heffect

end Sys2Proof.Proofs

/-! ### Reset values (R293, Tables 10.4 to 10.6, 10.12, 12.7, 13.2) -/

namespace Sys2Proof.Proofs

open Machine Laws

theorem reset_hostOf (p : HPort) : hostOf p State.reset = HostPort.reset := by
  cases p with
  | a => rfl
  | b => rfl

theorem reset_cvid (d : Fin 4) : State.reset.power.cvid[d] = 8 := Vector.getElem_replicate d.isLt

theorem reset_memStacks (i : Fin 32) : State.reset.memStacks[i] = Stack.reset := Vector.getElem_replicate i.isLt

theorem reset_windows (k : Fin 8) : State.reset.levee.windows[k] = Window.closed := Vector.getElem_replicate k.isLt

theorem logOk_reset : LogOk State.reset := ⟨rfl, fun _ h => absurd h (Nat.not_lt_zero _)⟩

theorem memOk_reset : MemOk State.reset := ⟨rfl, rfl⟩

/-- Settles O3: `reset_hostOf` and its like for what comes in several copies, `rfl` for the rest, and the invariants `logOk_reset`
and `memOk_reset`. -/
theorem resetValues : Obligations.ResetValues := by
  unfold Obligations.ResetValues
  refine ⟨⟨rfl, rfl, rfl, rfl, rfl, rfl, rfl, rfl, rfl, rfl, rfl, rfl, fun p => ?_, rfl, rfl, rfl, rfl, rfl, rfl, rfl, rfl, reset_cvid,
    fun i => ?_, fun k => ?_⟩, logOk_reset, memOk_reset⟩
  · rw [reset_hostOf]
    exact ⟨rfl, rfl, rfl, rfl, rfl⟩
  · rw [reset_memStacks]
    rfl
  · rw [reset_windows]
    rfl

end Sys2Proof.Proofs

/-! ### Wear gauges and settlement records (R304, R305) -/

namespace Sys2Proof.Proofs

open Machine Laws

/-! #### Values of gauges and units -/

theorem valueOf_cons (g u : Nat) (x : Nat × Nat × F32) (l : List (Nat × Nat × F32)) :
    valueOf g u (x :: l) = if x.1 = g ∧ x.2.1 = u then some x.2.2 else valueOf g u l := by
  by_cases h : x.1 = g ∧ x.2.1 = u
  · simp [valueOf, h]
  · rw [if_neg h, valueOf, List.find?_cons_of_neg (by simpa using h)]
    rfl

/-- A list of values, read after one of them has been put. -/
theorem valueOf_putValue (g u : Nat) (v : F32) (l : List (Nat × Nat × F32)) (h k : Nat) :
    valueOf h k (putValue g u v l) = if g = h ∧ u = k then some v else valueOf h k l := by
  induction l with
  | nil => exact valueOf_cons ..
  | cons x l ih =>
    rw [putValue]
    split
    next hx =>
      obtain ⟨hg, hu⟩ := hx
      rw [valueOf_cons, valueOf_cons, hg, hu]
      split
      · rfl
      · rfl
    next hx =>
      split
      · exact valueOf_cons ..
      · rw [valueOf_cons, valueOf_cons, ih]
        split_ifs with hread hput
        · exact absurd ⟨hread.1.trans hput.1.symm, hread.2.trans hput.2.symm⟩ hx
        · rfl
        · rfl
        · rfl

theorem valueOf_putValue_self (g u : Nat) (v : F32) (l : List (Nat × Nat × F32)) : valueOf g u (putValue g u v l) = some v := by
  rw [valueOf_putValue, if_pos ⟨rfl, rfl⟩]

theorem valueOf_putValue_other {g u h k : Nat} (hne : (h, k) ≠ (g, u)) (v : F32) (l : List (Nat × Nat × F32)) :
    valueOf h k (putValue g u v l) = valueOf h k l := by
  rw [valueOf_putValue, if_neg fun heq => hne (by rw [heq.1, heq.2])]

/-! #### Samples -/

/-- A copy of the settlement history with a value as the first-boot value of a gauge and unit that has none yet (R304). -/
def withFirst (g u : Nat) (v : F32) (c : Settle) : Settle :=
  if (valueOf g u c.refs).isSome then c else { c with refs := putValue g u v c.refs }

theorem valueOf_withFirst (g u : Nat) (v : F32) (c : Settle) :
    valueOf g u (withFirst g u v c).refs = some ((valueOf g u c.refs).getD v) := by
  unfold withFirst
  cases h : valueOf g u c.refs with
  | none => exact valueOf_putValue_self ..
  | some w => exact h

theorem withFirst_days (g u : Nat) (v : F32) (c : Settle) : (withFirst g u v c).days = c.days := by
  unfold withFirst
  split
  · rfl
  · rfl

theorem sample_eq (g u : Nat) (v : F32) (s : State) :
    sample g u v s = { s with flash := { s.flash with
      current := putValue g u (sampleValue g u v s) s.flash.current
      settleA := withFirst g u (sampleValue g u v s) s.flash.settleA
      settleB := withFirst g u (sampleValue g u v s) s.flash.settleB } } := rfl

theorem sampleValue_measured {g : Nat} (h : g < 3 ∨ g = 6) (u : Nat) (v : F32) (s : State) : sampleValue g u v s = v := by
  unfold sampleValue
  split
  · omega
  · omega
  · omega
  · rfl

theorem sampleValue_corrections (i : Fin 32) (v : F32) (s : State) :
    sampleValue 3 i.val v s = toFp32 (s.memStacks[i].corrected : Int) 0 := by
  simp only [sampleValue, i.isLt, if_true, Fin.ofNat_val_eq_self]

theorem sampleValue_spares (d : Fin 4) (v : F32) (s : State) : sampleValue 5 d.val v s = toFp32 (s.dies[d].spares : Int) 0 := by
  simp only [sampleValue, d.isLt, if_true, Fin.ofNat_val_eq_self]

section
variable {s : State}

theorem sampling_of_ready (h : s.power.phase = .ready) : sampling s = true := by simp [sampling, h]

theorem exec_gaugeSample (h : s.power.phase = .ready) (g : Fin 7) {unit : Nat} (hu : unit < 65536) (v : F32) :
    exec (.gaugeSample g unit v) s = .next (sample g.val unit v s) := by
  show Host.Outcome.next _ = _
  rw [if_pos (sampling_of_ready h), Nat.mod_eq_of_lt hu]

/-! #### The end of a day, the end of an hour -/

/-- A stack's count of corrections starts again. -/
def clearCorrected (s : State) (i : Fin 32) : State := modStack i (fun st => { st with corrected := 0 }) s

/-- A copy of the settlement history with the slot of a day that has ended: the last 365 days stay (R305). -/
def withDay (f : Flash) (day hours : Nat) (c : Settle) : Settle :=
  { c with gen := max f.settleA.gen f.settleB.gen + 1, hours := hours,
           days := (c.days ++ [({ day := day, values := f.current } : DaySlot)]).drop (c.days.length + 1 - 365) }

/-- The flash at the end of a day. -/
def dayFlash (s : State) : Flash :=
  { s.flash with settleA := withDay s.flash (dayOn s) (hoursOn s) s.flash.settleA
                 settleB := withDay s.flash (dayOn s) (hoursOn s) s.flash.settleB }

theorem putDay_eq (s : State) : putDay s = (List.finRange 32).foldl clearCorrected { s with flash := dayFlash s } := by
  unfold putDay dayFlash withDay clearCorrected
  rfl

theorem foldl_clearCorrected_run (l : List (Fin 32)) (s : State) : Run [.memStacks] s (l.foldl clearCorrected s) :=
  .foldl (.refl _ s) fun i x hx => modStack_run i _ x hx (by decide)

theorem putDay_flash (s : State) : (putDay s).flash = dayFlash s := by
  rw [putDay_eq]
  exact (foldl_clearCorrected_run _ _).same .flash rfl

theorem putDay_upd (s : State) : putDay s = { s with flash := (putDay s).flash, memStacks := (putDay s).memStacks } := by
  have hrun := foldl_clearCorrected_run (List.finRange 32) { s with flash := dayFlash s }
  rw [← putDay_eq] at hrun
  have hmem : (putDay s).mem = s.mem := hrun.same .mem rfl
  have hout : (putDay s).out = s.out := hrun.same .out rfl
  have hupd := eq_memory_upd (hrun.mono (by decide))
  rw [hmem, hout, ← putDay_flash] at hupd
  exact hupd

theorem exec_settlementDaily (h : s.power.phase = .ready) (hday : 0 < dayOn s) (hnew : ∀ x ∈ settleDays s.flash, x.day < dayOn s) :
    exec .settlementDaily s = .next (putDay s) := by
  have hany : ((settleDays s.flash).any fun x => decide (dayOn s ≤ x.day)) = false :=
    List.any_eq_false.mpr fun x hx => by simpa using hnew x hx
  show Host.Outcome.next _ = _
  rw [if_pos (by simp [sampling_of_ready h, hday, hany])]

theorem exec_settlementHourly (h : s.power.phase = .ready) (hhour : (settleBest s.flash).hours < hoursOn s) :
    exec .settlementHourly s = .next (putHours s) := by
  show Host.Outcome.next _ = _
  rw [if_pos (by simp [sampling_of_ready h, hhour])]

end

/-- Settles O60: `sample_eq` with the values that `putValue` and `withFirst` leave, `putDay_flash` and `putDay_upd`, and the headers of
an hour. -/
theorem wearGauges : Obligations.WearGauges := by
  unfold Obligations.WearGauges
  refine fun s hready => ⟨fun g unit v hunit => ?_, fun hday hnew => ?_, fun hhour => exec_settlementHourly hready hhour⟩
  · refine ⟨_, exec_gaugeSample hready g hunit v, rfl, fun hg => sampleValue_measured hg .., fun i hg hu => ?_, fun d hg hu => ?_,
      valueOf_putValue_self .., fun h u hne => valueOf_putValue_other hne .., valueOf_withFirst .., valueOf_withFirst ..,
      withFirst_days .., rfl⟩
    · rw [hg, hu, sampleValue_corrections]
    · rw [hg, hu, sampleValue_spares]
  · refine ⟨_, exec_settlementDaily hready hday hnew, putDay_upd s, ?_⟩
    rw [putDay_flash]
    simp only [dayFlash, withDay, and_self]

end Sys2Proof.Proofs

/-! ### Peer entries at the front of queue 6 (R263, R361) -/

namespace Sys2Proof.Proofs

open Machine Laws

/-- The state once the peer entry in front of queue 6 has been taken. -/
def peerTaken (r : List PeerEntry) (s : State) : State := { s with peer := { s.peer with waiting := r } }

theorem onPeer_front {op : Nat} {e : PeerEntry} {r : List PeerEntry} {s : State} (h : s.peer.waiting = e :: r) (hop : entOp e.bytes = op)
    (f : PeerEntry → State → State) : onPeer op f s = f e (peerTaken r s) := by
  simp only [onPeer, h, hop, if_true, peerTaken]

theorem peerAnswer_answers (e : PeerEntry) (kind status : Nat) (s : State) :
    Run [.out, .hostA, .hostB, .peer, .seq, .log, .fabric] s (peerAnswer e kind status s) :=
  peerAnswer_run e kind status s (.refl _ s) (by decide)

theorem peerAnswer_twin (e : PeerEntry) (kind status : Nat) (s : State) : (peerAnswer e kind status s).twin = s.twin :=
  (peerAnswer_answers e kind status s).same .twin rfl

theorem peerAnswer_mem (e : PeerEntry) (kind status : Nat) (s : State) : (peerAnswer e kind status s).mem = s.mem :=
  (peerAnswer_answers e kind status s).same .mem rfl

theorem peerAnswer_job (e : PeerEntry) (kind status : Nat) (s : State) : (peerAnswer e kind status s).job = s.job :=
  (peerAnswer_answers e kind status s).same .job rfl

/-- An answer takes nothing more from queue 6. -/
theorem peerAnswer_waiting (e : PeerEntry) (kind status : Nat) (s : State) :
    (peerAnswer e kind status s).peer.waiting = s.peer.waiting := by
  have hlog : (logEv 0x0003 (unitWord 0 0 6) (entOp e.bytes) kind status (entTag e.bytes) s).peer = s.peer :=
    (logEv_ports_run ..).same .peer rfl
  have hsend : ∀ m t, (sendMsg m t).peer = t.peer := fun m t =>
    (sendMsg_run (flds := [.out, .fabric]) m t (.refl _ t) (by decide)).same .peer rfl
  unfold peerAnswer
  extract_lets u pl
  split
  · rfl
  · split
    · rw [hsend, hlog]
    · split
      · show u.peer.waiting = s.peer.waiting
        exact congrArg PeerBox.waiting hlog
      · rw [hsend, hlog]

end Sys2Proof.Proofs

/-! ### The commit of a checkpoint (R292, Table 11.4) -/

namespace Sys2Proof.Proofs

open Machine Laws

/-- Between `s` and `t` the checkpoint of step `k` has been committed. -/
def Committed (k : Nat) (s t : State) : Prop :=
  t.twin.inProg = none ∧ t.twin.rollback = some (k, targetSlot s) ∧ t.twin.lastStopEnd = s.twin.newOrigin ∧ t.twin.changed = false

/-- Between `s` and `t` a checkpoint has ended without a commit. -/
def Uncommitted (s t : State) : Prop :=
  t.twin.inProg = none ∧ t.twin.rollback = s.twin.rollback ∧ t.twin.lastStopEnd = s.twin.lastStopEnd

section
variable {k r : Nat} {s t u : State} {e : PeerEntry}

theorem applyCommit_twin (h : s.twin.inProg = some k) (r : Nat) :
    (applyCommit k r s).twin.inProg = none ∧
      (applyCommit k r s).twin.rollback = (if r = 0 then some (k, targetSlot s) else s.twin.rollback) ∧
      (applyCommit k r s).twin.lastStopEnd = (if r = 0 then s.twin.newOrigin else s.twin.lastStopEnd) ∧
      (applyCommit k r s).twin.changed = (decide (r ≠ 0) && s.twin.changed) := by
  rw [applyCommit, if_neg (not_not_intro h)]
  extract_lets j v st
  split
  · rw [show (logEv 0x0003 (unitWord 0 0 0) 0x0201 1 st 0 v).twin = v.twin from (logEv_ports_run ..).same .twin rfl]
    exact ⟨rfl, rfl, rfl, rfl⟩
  · exact ⟨rfl, rfl, rfl, rfl⟩

theorem applyCommit_committed (h : s.twin.inProg = some k) : Committed k s (applyCommit k 0 s) := applyCommit_twin h 0

theorem applyCommit_uncommitted (h : s.twin.inProg = some k) (hr : r ≠ 0) : Uncommitted s (applyCommit k r s) := by
  obtain ⟨hprog, hroll, hend, -⟩ := applyCommit_twin h r
  rw [if_neg hr] at hroll hend
  exact ⟨hprog, hroll, hend⟩

theorem peerBcast_twin (op step : Nat) (args : Bytes) (s : State) : (peerBcast op step args s).twin = s.twin :=
  (peerBcast_run (flds := [.out, .fabric]) op step args s (.refl _ s) (by decide)).same .twin rfl

/-- What the twin's record says of a commit does not depend on the reports collected so far. -/
theorem Committed.of_twin {l : List (Nat × Nat)} (h : Committed k u t) (hu : u.twin = { s.twin with doneFrom := l }) : Committed k s t := by
  simpa only [Committed, targetSlot, hu] using h

theorem Uncommitted.of_twin {l : List (Nat × Nat)} (h : Uncommitted u t) (hu : u.twin = { s.twin with doneFrom := l }) :
    Uncommitted s t := by
  simpa only [Uncommitted, hu] using h

theorem sendCommit_committed (h : s.twin.inProg = some k) : Committed k s (sendCommit k 0 s) :=
  (applyCommit_committed (by rwa [peerBcast_twin])).of_twin (peerBcast_twin ..)

theorem sendCommit_uncommitted (h : s.twin.inProg = some k) (hr : r ≠ 0) : Uncommitted s (sendCommit k r s) :=
  (applyCommit_uncommitted (by rwa [peerBcast_twin]) hr).of_twin (peerBcast_twin ..)

/-! #### CKPT_DONE at the lead -/

/-- What the lead has collected, with the report of a package in place of an earlier one of it. -/
def reports (e : PeerEntry) (l : List (Nat × Nat)) : List (Nat × Nat) := l.filter (fun d => d.1 != e.src) ++ [(e.src, arg e.bytes 4 1)]

/-- A report taken in at the lead. -/
def reported (e : PeerEntry) (s : State) : State := modTwin (fun w => { w with doneFrom := reports e w.doneFrom }) (peerAnswer e 1 0 s)

theorem reported_twin (e : PeerEntry) (s : State) :
    (reported e s).twin = { s.twin with doneFrom := reports e s.twin.doneFrom } := by
  show { (peerAnswer e 1 0 s).twin with doneFrom := reports e (peerAnswer e 1 0 s).twin.doneFrom } = _
  rw [peerAnswer_twin]

theorem reported_job (e : PeerEntry) (s : State) : (reported e s).job = s.job := peerAnswer_job e 1 0 s

theorem recvDone_lead (hlead : logId s = 0) (h : s.twin.inProg = some (arg e.bytes 0 4)) :
    recvDone e s =
      if arg e.bytes 4 1 ≠ 0 then sendCommit (arg e.bytes 0 4) 1 (reported e s)
      else if (reports e s.twin.doneFrom).length = jobSize s then sendCommit (arg e.bytes 0 4) 0 (reported e s)
      else reported e s := by
  have hid : logId (peerAnswer e 1 0 s) = 0 := by rw [logId, peerAnswer_job]; exact hlead
  have hsize : jobSize (reported e s) = jobSize s := by simp only [jobSize, axisLen, reported_job]
  have hprog : (peerAnswer e 1 0 s).twin.inProg = some (arg e.bytes 0 4) := by rw [peerAnswer_twin, h]
  rw [recvDone]
  extract_lets l v
  rw [if_neg (by simp [hid, hprog])]
  have hl : l = reports e s.twin.doneFrom := by simp only [l, peerAnswer_twin]; rfl
  have hv : v = reported e s := rfl
  rw [hv, hsize, hl]

end

/-! #### The rows -/

section
variable {k : Nat} {s : State} {e : PeerEntry} {r : List PeerEntry}

theorem ckptCommit_effect (hprog : s.twin.inProg = some k) (hw : s.peer.waiting = e :: r) (hop : entOp e.bytes = 0x8015)
    (hk : arg e.bytes 0 4 = k) :
    ∃ t, exec .ckptCommit s = .next t ∧ t.peer.waiting = r ∧ (arg e.bytes 4 1 = 0 → Committed k s t) ∧
      (arg e.bytes 4 1 ≠ 0 → Uncommitted s t) ∧ t.mem = s.mem ∧ t.job = s.job := by
  subst hk
  have hrun : Run [.out, .hostA, .hostB, .warden, .seq, .log, .twin] (peerTaken r s)
      (applyCommit (arg e.bytes 0 4) (arg e.bytes 4 1) (peerTaken r s)) := applyCommit_run _ _ _ (.refl _ _) (by decide)
  have htaken : (peerTaken r s).twin.inProg = some (arg e.bytes 0 4) := hprog
  have hexec : exec .ckptCommit s = .next (applyCommit (arg e.bytes 0 4) (arg e.bytes 4 1) (peerTaken r s)) :=
    congrArg Host.Outcome.next (onPeer_front hw hop _)
  have hpeer : (applyCommit (arg e.bytes 0 4) (arg e.bytes 4 1) (peerTaken r s)).peer = (peerTaken r s).peer := hrun.same .peer rfl
  refine ⟨_, hexec, congrArg PeerBox.waiting hpeer, fun h0 => ?_,
    fun h => (applyCommit_uncommitted htaken h).of_twin (l := s.twin.doneFrom) rfl, hrun.same .mem rfl, hrun.same .job rfl⟩
  rw [h0]
  exact (applyCommit_committed htaken).of_twin (l := s.twin.doneFrom) rfl

theorem ckptDone_effect (hprog : s.twin.inProg = some k) (hw : s.peer.waiting = e :: r) (hop : entOp e.bytes = 0x8014)
    (hk : arg e.bytes 0 4 = k) (hlead : logId s = 0) :
    ∃ t, exec .ckptDone s = .next t ∧ (arg e.bytes 4 1 ≠ 0 → Uncommitted s t) ∧
      (arg e.bytes 4 1 = 0 → (reports e s.twin.doneFrom).length = jobSize s → Committed k s t) ∧
      (arg e.bytes 4 1 = 0 → (reports e s.twin.doneFrom).length ≠ jobSize s →
        t.twin = { s.twin with doneFrom := reports e s.twin.doneFrom }) := by
  subst hk
  have htwin := reported_twin e (peerTaken r s)
  have htaken : (reported e (peerTaken r s)).twin.inProg = some (arg e.bytes 0 4) := by
    rw [htwin]
    exact hprog
  have hexec : exec .ckptDone s = .next _ :=
    congrArg Host.Outcome.next ((onPeer_front hw hop recvDone).trans (recvDone_lead (s := peerTaken r s) hlead hprog))
  refine ⟨_, hexec, fun h => ?_, fun h0 hall => ?_, fun h0 hsome => ?_⟩
  · rw [if_pos h]
    exact (sendCommit_uncommitted htaken Nat.one_ne_zero).of_twin htwin
  · rw [if_neg (not_not_intro h0)]
    exact (congrArg (Committed _ s) (if_pos hall)).mpr ((sendCommit_committed htaken).of_twin htwin)
  · rw [if_neg (not_not_intro h0)]
    exact (congrArg State.twin (if_neg hsome)).trans htwin

theorem ckptCommitTimeout_effect (hprog : s.twin.inProg = some k)
    (hdue : if logId s = 0 then s.twin.newOrigin + 1000000 ≤ tideNow s else s.twin.newOrigin + 1000000 + noticeBound s ≤ tideNow s) :
    ∃ t, exec .ckptCommitTimeout s = .next t ∧ Uncommitted s t ∧ t.mem = s.mem ∧ t.job = s.job := by
  have hexec : exec .ckptCommitTimeout s =
      .next (if logId s = 0 then (if s.twin.newOrigin + 1000000 ≤ tideNow s then sendCommit k 1 s else s)
        else if s.twin.newOrigin + 1000000 + noticeBound s ≤ tideNow s then applyCommit k 1 s else s) := by
    show execCkptCommitTimeout s = _
    simp only [execCkptCommitTimeout, hprog]
  rw [hexec]
  by_cases hlead : logId s = 0
  · rw [if_pos hlead] at hdue ⊢
    have hrun : Run [.out, .hostA, .hostB, .warden, .seq, .log, .fabric, .twin] s (sendCommit k 1 s) :=
      sendCommit_run _ _ _ (.refl _ _) (by decide)
    exact ⟨_, congrArg Host.Outcome.next (if_pos hdue), sendCommit_uncommitted hprog Nat.one_ne_zero, hrun.same .mem rfl,
      hrun.same .job rfl⟩
  · rw [if_neg hlead] at hdue ⊢
    have hrun : Run [.out, .hostA, .hostB, .warden, .seq, .log, .twin] s (applyCommit k 1 s) :=
      applyCommit_run _ _ _ (.refl _ _) (by decide)
    exact ⟨_, congrArg Host.Outcome.next (if_pos hdue), applyCommit_uncommitted hprog Nat.one_ne_zero, hrun.same .mem rfl,
      hrun.same .job rfl⟩

end

/-- Settles O33: `ckptCommit_effect`, `ckptDone_effect` and `ckptCommitTimeout_effect`. -/
theorem checkpointCommit : Obligations.CheckpointCommit := by
  unfold Obligations.CheckpointCommit
  exact fun k s hprog => ⟨fun e r hw hop hk => ckptCommit_effect hprog hw hop hk,
    fun e r hw hop hk hlead => ckptDone_effect hprog hw hop hk hlead, fun hdue => ckptCommitTimeout_effect hprog hdue⟩

end Sys2Proof.Proofs

/-! ### Failure reports (R297, R298) -/

namespace Sys2Proof.Proofs

open Machine Laws

/-- The state that a FAIL_REPORT naming a package leaves the job in (R297, R298; log entry 75). -/
def failState (id : Nat) (s : State) : JobState :=
  if id = logId s then (if s.job.state == .none then .none else .failed)
  else
    match s.job.state, noReplica s with
    | .running, false => .stopped
    | .running, true => .failed
    | .stopped, true => .failed
    | _, _ => s.job.state

/-- The job cannot start again without a restore (R297). -/
def askRestore (s : State) : State := { s with job := { s.job with failStopped := true } }

/-- A FAIL_REPORT logged, the step abandoned and a restore asked for; the job's state has not changed yet. -/
def failNoted (id code : Nat) (s : State) : State :=
  askRestore (abandonTasks (abortSlot (noteFailure (logEv 0x0051 0 id code 0 0 s))))

section
variable {id : Nat} {s : State}

theorem failState_named (hid : id = logId s) (h : s.job.state ≠ .none) : failState id s = .failed := by
  simp [failState, hid, h]

theorem failState_other (hid : id ≠ logId s) (hrun : s.job.state = .running) (hrep : noReplica s = false) : failState id s = .stopped := by
  simp only [failState, if_neg hid, hrun, hrep]

theorem failState_noReplica (h : s.job.state = .running ∨ s.job.state = .stopped) (hrep : noReplica s = true) :
    failState id s = .failed := by
  unfold failState
  rcases h with h | h
  · simp [h, hrep]
  · simp [h, hrep]

theorem failState_none (hid : id = logId s) (h : s.job.state = .none) : failState id s = .none := by
  simp [failState, hid, h]

theorem failState_kept (hid : id ≠ logId s) (hstop : s.job.state = .running → noReplica s = false → False)
    (hrun : s.job.state = .running → noReplica s = true → False) (hstopped : s.job.state = .stopped → noReplica s = true → False) :
    failState id s = s.job.state := by
  rw [failState, if_neg hid]
  split
  next h hrep => exact (hstop h hrep).elim
  next h hrep => exact (hrun h hrep).elim
  next h hrep => exact (hstopped h hrep).elim
  next => rfl

theorem failState_congr {t : State} (hstate : t.job.state = s.job.state) (hid : logId t = logId s) (hrep : noReplica t = noReplica s) :
    failState id t = failState id s := by
  unfold failState
  rw [hstate, hid, hrep]

theorem setJob_same (s : State) : setJob s.job.state s = s := if_pos (beq_self_eq_true _)

theorem receiveFail_eq (id code : Nat) (s : State) :
    ∃ fault, receiveFail id code s = overtake 0x0A fault (setJob (failState id (failNoted id code s)) (failNoted id code s)) := by
  unfold receiveFail
  extract_lets u seq v j t
  refine ⟨seq, ?_⟩
  have hv : failNoted id code s = askRestore v := rfl
  rw [hv]
  clear_value v
  have ht : askRestore v = t := rfl
  rw [ht]
  clear_value t
  by_cases hid : id = logId t
  · rw [if_pos hid]
    by_cases hnone : t.job.state = .none
    · rw [if_pos (by simp [hnone]), failState_none hid hnone, ← hnone, setJob_same]
    · rw [if_neg (by simp [hnone]), failState_named hid hnone]
  · rw [if_neg hid]
    split
    next hrun hrep => rw [failState_other hid hrun hrep]
    next hrun hrep => rw [failState_noReplica (.inl hrun) hrep]
    next hstopped hrep => rw [failState_noReplica (.inr hstopped) hrep]
    next hstop hrun hstopped => rw [failState_kept hid hstop hrun hstopped, setJob_same]

theorem failNoted_run (id code : Nat) (s : State) :
    Run [.out, .hostA, .hostB, .seq, .log, .exec, .cores, .memStacks, .twin, .inspect] s
      (abandonTasks (abortSlot (noteFailure (logEv 0x0051 0 id code 0 0 s)))) :=
  abandonTasks_run _ (abortSlot_run _ (noteFailure_run _ (logEv_run _ _ _ _ _ _ _ (.refl _ s) (by decide)) (by decide)) (by decide))
    (by decide)

theorem failNoted_job (id code : Nat) (s : State) : (failNoted id code s).job = { s.job with failStopped := true } :=
  congrArg (fun j : JobCtl => { j with failStopped := true }) ((failNoted_run id code s).same .job rfl)

theorem failState_failNoted (id code : Nat) (s : State) : failState id (failNoted id code s) = failState id s :=
  failState_congr (by rw [failNoted_job]) (by simp only [logId, failNoted_job]) (by simp only [noReplica, failNoted_job])

/-- What a failure leaves of the execution: no deadline, no notice, no task that has not committed. -/
theorem abandonTasks_exec (s : State) :
    (abandonTasks s).exec.voided = true ∧ (abandonTasks s).exec.notices = [] ∧ ∀ x ∈ (abandonTasks s).exec.runs, x.st = .committed := by
  unfold abandonTasks
  generalize dropWatches (fun _ => true) s = u
  exact ⟨rfl, rfl, fun x hx => by simpa using (List.mem_filter.mp hx).2⟩

theorem receiveFail_job (id code : Nat) (s : State) : (receiveFail id code s).job =
    { s.job with failStopped := true, state := failState id s, startAt := none, stopping := false } := by
  have hover : ∀ fault u, (overtake 0x0A fault u).job = { u.job with startAt := none, stopping := false } := fun _ _ => rfl
  obtain ⟨fault, heq⟩ := receiveFail_eq id code s
  rw [heq, hover, setJob_job, failNoted_job, failState_failNoted]

theorem receiveFail_exec (id code : Nat) (s : State) :
    (receiveFail id code s).exec = (abandonTasks (abortSlot (noteFailure (logEv 0x0051 0 id code 0 0 s)))).exec := by
  have hover : ∀ fault u, (overtake 0x0A fault u).exec = u.exec := fun _ _ => rfl
  obtain ⟨fault, heq⟩ := receiveFail_eq id code s
  rw [heq, hover]
  exact (setJob_run (flds := [.out, .hostA, .hostB, .seq, .log, .job]) _ _ (.refl _ _) (by decide)).same .exec rfl

end

theorem failReport_effect {e : PeerEntry} {r : List PeerEntry} {s : State} (hw : s.peer.waiting = e :: r) (hop : entOp e.bytes = 0x8020) :
    ∃ t, exec .failReport s = .next t ∧ t.peer.waiting = r ∧ t.exec.voided = true ∧ t.exec.notices = [] ∧
      (∀ x ∈ t.exec.runs, x.st = .committed) ∧ t.job.failStopped = true ∧ t.job.state = failState (arg e.bytes 0 2) s ∧
      t.mem = s.mem ∧ t.coreStore = s.coreStore := by
  have hexec : exec .failReport s =
      .next (receiveFail (arg e.bytes 0 2) (arg e.bytes 2 1) (peerAnswer e 1 0 (peerTaken r s))) :=
    congrArg Host.Outcome.next (onPeer_front hw hop _)
  generalize hu : peerAnswer e 1 0 (peerTaken r s) = u at hexec
  have hjob : u.job = s.job := hu ▸ peerAnswer_job ..
  have hwait : u.peer.waiting = r := hu ▸ peerAnswer_waiting ..
  have hanswer : Run [.out, .hostA, .hostB, .peer, .seq, .log, .fabric] (peerTaken r s) u := hu ▸ peerAnswer_answers ..
  have hrun : Run [.out, .hostA, .hostB, .warden, .seq, .log, .job, .exec, .cores, .memStacks, .twin, .inspect] u
      (receiveFail (arg e.bytes 0 2) (arg e.bytes 2 1) u) := receiveFail_run _ _ _ (.refl _ u) (by decide)
  have hstate : failState (arg e.bytes 0 2) u = failState (arg e.bytes 0 2) s :=
    failState_congr (by rw [hjob]) (by simp only [logId, hjob]) (by simp only [noReplica, hjob])
  obtain ⟨hvoid, hnotices, hruns⟩ := abandonTasks_exec (abortSlot (noteFailure (logEv 0x0051 0 (arg e.bytes 0 2) (arg e.bytes 2 1) 0 0 u)))
  rw [← receiveFail_exec] at hvoid hnotices hruns
  refine ⟨_, hexec, (congrArg PeerBox.waiting (hrun.same .peer rfl)).trans hwait, hvoid, hnotices, hruns, ?_, ?_,
    (hrun.same .mem rfl).trans (hanswer.same .mem rfl), (hrun.same .coreStore rfl).trans (hanswer.same .coreStore rfl)⟩
  · rw [receiveFail_job]
  · rw [receiveFail_job]
    exact hstate

end Sys2Proof.Proofs

/-! ### Restore and copy requests (R294, R298) -/

namespace Sys2Proof.Proofs

open Machine Laws

/-- A `Run` that answers a peer entry of a neighbour, as the one record update that it is. -/
theorem eq_answer_upd {s t : State} (h : Run [.out, .hostA, .hostB, .seq, .log, .fabric] s t) :
    t = { s with fabric := t.fabric, out := t.out, hostA := t.hostA, hostB := t.hostB, seq := t.seq, log := t.log } :=
  State.ext (h.same .pending rfl) (h.same .now rfl) (h.same .freeCtr rfl) rfl (h.same .power rfl) (h.same .plls rfl)
    (h.same .tide rfl) (h.same .tideHi rfl) rfl rfl (h.same .lock rfl) (h.same .i3c rfl) (h.same .peer rfl) (h.same .warden rfl) rfl rfl
    (h.same .queues rfl) (h.same .job rfl) (h.same .exec rfl) (h.same .gauges rfl) (h.same .dies rfl) (h.same .cores rfl)
    (h.same .coreStore rfl) (h.same .memStacks rfl) (h.same .mem rfl) (h.same .far rfl) (h.same .links rfl)
    (h.same .levee rfl) rfl (h.same .twin rfl) (h.same .flash rfl) (h.same .inspect rfl)

/-- The same after the entry has been taken from queue 6. -/
theorem eq_peerTaken_upd {r : List PeerEntry} {s t : State} (h : Run [.out, .hostA, .hostB, .seq, .log, .fabric] (peerTaken r s) t) :
    t = { s with
      peer := { s.peer with waiting := r }, fabric := t.fabric, out := t.out, hostA := t.hostA, hostB := t.hostB, seq := t.seq,
      log := t.log } := eq_answer_upd h

/-- Sending leaves who the neighbours are. -/
theorem PortsSend.portTo {s t : State} (h : PortsSend s t) (phys : Nat) : portTo phys t = portTo phys s := by
  unfold Machine.portTo
  congr 1
  funext q
  obtain ⟨n, l, c, hq⟩ := h q
  rw [hq]

/-! #### The answer -/

/-- The log of `t` holds the answer to a peer command of an opcode, the first event since `s`. -/
def Answered (op status : Nat) (s t : State) : Prop :=
  ∃ l ∈ t.log, l.seq = s.seq + 1 ∧ l.code = 0x0003 ∧ l.d0 = op ∧ l.d1 = 1 ∧ l.d2 = status

theorem Answered.of_seq {op status : Nat} {s s' t : State} (h : Answered op status s t) (hseq : s.seq = s'.seq) :
    Answered op status s' t := by
  unfold Answered at h ⊢
  rwa [← hseq]

section
variable {e : PeerEntry} {status : Nat} {s : State}

theorem peerAnswer_neighbour (hb : e.bcast = false) (hp : e.phys = true) (kind status : Nat) (s : State) :
    ∃ m, peerAnswer e kind status s = sendMsg m (logEv 0x0003 (unitWord 0 0 6) (entOp e.bytes) kind status (entTag e.bytes) s) := by
  unfold peerAnswer
  extract_lets u pl
  rw [hb, hp, if_neg Bool.false_ne_true, if_pos rfl]
  exact ⟨_, rfl⟩

theorem sendMsg_sends (m : Msg) (s : State) : Run [.out, .fabric] s (sendMsg m s) := sendMsg_run m s (.refl _ s) (by decide)

theorem peerAnswer_neighbour_run (hb : e.bcast = false) (hp : e.phys = true) (kind status : Nat) (s : State) :
    Run [.out, .hostA, .hostB, .seq, .log, .fabric] s (peerAnswer e kind status s) := by
  obtain ⟨m, h⟩ := peerAnswer_neighbour hb hp kind status s
  rw [h]
  exact ((logEv_ports_run ..).mono (by decide)).trans (sendMsg_sends m _) (by decide)

theorem peerAnswer_answered (hb : e.bcast = false) (hp : e.phys = true) (hop : entOp e.bytes < 2 ^ 64) (hst : status < 2 ^ 64) :
    Answered (entOp e.bytes) status s (peerAnswer e 1 status s) := by
  obtain ⟨m, h⟩ := peerAnswer_neighbour hb hp 1 status s
  have hlog : (peerAnswer e 1 status s).log = _ := h ▸ (sendMsg_sends m _).same .log rfl
  refine ⟨_, hlog ▸ eventEntry_mem_logEv .., rfl, rfl, Nat.mod_eq_of_lt hop, rfl, Nat.mod_eq_of_lt hst⟩

end

/-! #### The stream of a record -/

theorem sendSlotWrite_portsSend (dst slot o : Nat) (b : Bytes) (s : State) : PortsSend s (sendSlotWrite dst slot o b s) :=
  sendMsg_portsSend _ s

theorem streamSlot_portsSend (dst slot o : Nat) (b : Bytes) (s : State) : PortsSend s (streamSlot dst slot o b s) :=
  .foldl (fun s _ => sendSlotWrite_portsSend dst slot _ _ s) _ s

theorem streamRecord_sends (dst slot : Nat) (h : Bytes) (s : State) : Run [.out, .fabric] s (streamRecord dst slot h s) :=
  streamRecord_run dst slot h s (.refl _ s) (by decide)

/-- The header of a record that goes to a neighbour. -/
def HeaderSent (q : FPort) (dst slot : Nat) (h : Bytes) (t : State) : Prop :=
  ∃ m, .msg q m ∈ t.out ∧ m.type = 0x0B ∧ m.dst = dst ∧ m.ref = (1 + slot) * 2 ^ 24 ∧ m.offset = 0 ∧ m.payload = h

theorem streamRecord_header {dst : Nat} {q : FPort} {s : State} (hq : portTo dst s = some q) (slot : Nat) (h : Bytes) :
    HeaderSent q dst slot h (streamRecord dst slot h s) := by
  unfold streamRecord
  generalize hu : streamSlot dst slot 256 _ s = u
  have hto : portTo dst u = some q := by
    rw [← hu, PortsSend.portTo (streamSlot_portsSend _ _ _ _ _), hq]
  obtain ⟨axis, sub, hmem⟩ := msg_mem_sendPhys (m := physMsg 0x0B 4 dst 0 ((1 + slot) * 2 ^ 24 + 0 / 2 ^ 32) (0 % 2 ^ 32) h u) hto
  exact ⟨_, hmem, rfl, rfl, Nat.add_zero _, rfl, rfl⟩

/-! #### The rows -/

/-- Whether a slot holds a valid record of a step. -/
def holdsRecord (slot step : Nat) (s : State) : Bool :=
  headerValid (slotRead slot 0 256 s) && field (slotRead slot 0 256 s) 8 4 == step

/-- The answer to a package that asks for a record: the record after 0x00 where there is one, else 0x06. -/
def answerStream (e : PeerEntry) (found : Bool) (dst slot : Nat) (h : Bytes) (s : State) : State :=
  if found then streamRecord dst slot h (peerAnswer e 1 0 s) else peerAnswer e 1 6 s

section
variable {e : PeerEntry} {s : State}

theorem answerStream_run (hb : e.bcast = false) (hp : e.phys = true) (found : Bool) (dst slot : Nat) (h : Bytes) (s : State) :
    Run [.out, .hostA, .hostB, .seq, .log, .fabric] s (answerStream e found dst slot h s) := by
  unfold answerStream
  split
  · exact (peerAnswer_neighbour_run hb hp 1 0 s).trans (streamRecord_sends ..) (by decide)
  · exact peerAnswer_neighbour_run hb hp 1 6 s

theorem answerStream_answered (hb : e.bcast = false) (hp : e.phys = true) (hop : entOp e.bytes < 2 ^ 64) (found : Bool) (dst slot : Nat)
    (h : Bytes) (s : State) : Answered (entOp e.bytes) (if found then 0 else 6) s (answerStream e found dst slot h s) := by
  unfold answerStream
  split
  · have hlog := (streamRecord_sends dst slot h (peerAnswer e 1 0 s)).same .log rfl
    unfold Answered
    rw [hlog]
    exact peerAnswer_answered hb hp hop (by decide)
  · exact peerAnswer_answered hb hp hop (by decide)

theorem answerStream_header {dst : Nat} {q : FPort} (hq : portTo dst s = some q) (slot : Nat) (h : Bytes) :
    HeaderSent q dst slot h (answerStream e true dst slot h s) :=
  streamRecord_header (by rw [PortsSend.portTo (peerAnswer_portsSend _ _ _ _), hq]) slot h

theorem recvRestore_eq (hp : e.phys = true) (hslot : arg e.bytes 4 1 ≤ 1) :
    recvRestore e s = answerStream e (holdsRecord (arg e.bytes 4 1) (arg e.bytes 0 4) s) e.src (arg e.bytes 4 1)
      (slotRead (arg e.bytes 4 1) 0 256 s) s := by
  rw [recvRestore]
  extract_lets h
  rw [if_neg (Nat.not_lt.mpr hslot), hp, Bool.and_true]
  rfl

theorem recvCopy_found (hp : e.phys = true) {k : Nat} (h : [0, 1].find? (fun k => holdsRecord k (arg e.bytes 0 4) s) = some k) :
    recvCopy e s =
      streamRecord (arg e.bytes 6 2 % 8192) k (copyHeader (slotRead k 0 256 s) (arg e.bytes 4 2) e.src) (peerAnswer e 1 0 s) := by
  unfold holdsRecord at h
  simp only [recvCopy, h, hp, if_true]

theorem recvCopy_missing (h : [0, 1].find? (fun k => holdsRecord k (arg e.bytes 0 4) s) = none) : recvCopy e s = peerAnswer e 1 6 s := by
  unfold holdsRecord at h
  simp only [recvCopy, h]

/-- The slot of a copy is the first that holds the record (log entry 48). -/
theorem recvCopy_eq (hp : e.phys = true) :
    recvCopy e s =
      answerStream e (holdsRecord 0 (arg e.bytes 0 4) s || holdsRecord 1 (arg e.bytes 0 4) s) (arg e.bytes 6 2 % 8192)
        (if holdsRecord 0 (arg e.bytes 0 4) s then 0 else 1)
        (copyHeader (slotRead (if holdsRecord 0 (arg e.bytes 0 4) s then 0 else 1) 0 256 s) (arg e.bytes 4 2) e.src) s := by
  cases h0 : holdsRecord 0 (arg e.bytes 0 4) s with
  | true => exact recvCopy_found hp (by simp [h0])
  | false =>
    cases h1 : holdsRecord 1 (arg e.bytes 0 4) s with
    | true => exact recvCopy_found hp (by simp [h0, h1])
    | false => exact recvCopy_missing (by simp [h0, h1])

end

section
variable {e : PeerEntry} {r : List PeerEntry} {s : State} {op : Nat}

theorem slotRead_peerTaken (slot o n : Nat) : slotRead slot o n (peerTaken r s) = slotRead slot o n s := rfl

theorem holdsRecord_peerTaken (slot step : Nat) : holdsRecord slot step (peerTaken r s) = holdsRecord slot step s := rfl

theorem portTo_peerTaken (phys : Nat) : portTo phys (peerTaken r s) = portTo phys s := rfl

/-- What the answer to a neighbour's request leaves once its entry has been taken. -/
theorem answerStream_effect (hb : e.bcast = false) (hp : e.phys = true) (hop : entOp e.bytes = op) (hlt : op < 2 ^ 64) (found : Bool)
    (dst slot : Nat) (h : Bytes) :
    Run [.out, .hostA, .hostB, .seq, .log, .fabric] (peerTaken r s) (answerStream e found dst slot h (peerTaken r s)) ∧
      Answered op (if found then 0 else 6) s (answerStream e found dst slot h (peerTaken r s)) ∧
      ∀ q, found = true → portTo dst s = some q → HeaderSent q dst slot h (answerStream e found dst slot h (peerTaken r s)) := by
  subst hop
  refine ⟨answerStream_run hb hp .., (answerStream_answered hb hp hlt ..).of_seq rfl, fun q hfound hq => ?_⟩
  rw [hfound]
  exact answerStream_header ((portTo_peerTaken dst).trans hq) ..

theorem restoreReq_effect (hw : s.peer.waiting = e :: r) (hop : entOp e.bytes = 0x8030) (hb : e.bcast = false) (hp : e.phys = true)
    (hslot : arg e.bytes 4 1 ≤ 1) :
    ∃ t, exec .restoreReq s = .next t ∧ Run [.out, .hostA, .hostB, .seq, .log, .fabric] (peerTaken r s) t ∧
      Answered 0x8030 (if holdsRecord (arg e.bytes 4 1) (arg e.bytes 0 4) s then 0 else 6) s t ∧
      ∀ q, holdsRecord (arg e.bytes 4 1) (arg e.bytes 0 4) s = true → portTo e.src s = some q →
        HeaderSent q e.src (arg e.bytes 4 1) (slotRead (arg e.bytes 4 1) 0 256 s) t := by
  have hexec : exec .restoreReq s = .next (recvRestore e (peerTaken r s)) := congrArg Host.Outcome.next (onPeer_front hw hop recvRestore)
  rw [recvRestore_eq hp hslot, holdsRecord_peerTaken, slotRead_peerTaken] at hexec
  exact ⟨_, hexec, answerStream_effect hb hp hop (by decide) ..⟩

theorem copyReq_effect (hw : s.peer.waiting = e :: r) (hop : entOp e.bytes = 0x8031) (hb : e.bcast = false) (hp : e.phys = true) :
    let k := if holdsRecord 0 (arg e.bytes 0 4) s then 0 else 1
    ∃ t, exec .copyReq s = .next t ∧ Run [.out, .hostA, .hostB, .seq, .log, .fabric] (peerTaken r s) t ∧
      Answered 0x8031 (if holdsRecord 0 (arg e.bytes 0 4) s || holdsRecord 1 (arg e.bytes 0 4) s then 0 else 6) s t ∧
      ∀ q, (holdsRecord 0 (arg e.bytes 0 4) s || holdsRecord 1 (arg e.bytes 0 4) s) = true →
        portTo (arg e.bytes 6 2 % 8192) s = some q →
        HeaderSent q (arg e.bytes 6 2 % 8192) k (copyHeader (slotRead k 0 256 s) (arg e.bytes 4 2) e.src) t := by
  have hexec : exec .copyReq s = .next (recvCopy e (peerTaken r s)) := congrArg Host.Outcome.next (onPeer_front hw hop recvCopy)
  rw [recvCopy_eq hp, holdsRecord_peerTaken, holdsRecord_peerTaken, slotRead_peerTaken] at hexec
  exact ⟨_, hexec, answerStream_effect hb hp hop (by decide) ..⟩

end

/-- Settles O34: `failReport_effect` with the states of `failState`, `restoreReq_effect` and `copyReq_effect`. -/
theorem failuresAndRestores : Obligations.FailuresAndRestores := by
  unfold Obligations.FailuresAndRestores
  refine ⟨fun e r s hw hop => ?_, fun e r s hw hb hp => ⟨fun hop hslot => ?_, fun hop => ?_⟩⟩
  · obtain ⟨t, hexec, hwait, hvoid, hnotices, hruns, hstopped, hstate, hmem, hstore⟩ := failReport_effect hw hop
    exact ⟨t, hexec, hwait, hvoid, hstopped, hnotices, hruns, fun hid hjob => hstate.trans (failState_named hid hjob),
      fun hid hrun hrep => hstate.trans (failState_other hid hrun hrep), fun hjob hrep => hstate.trans (failState_noReplica hjob hrep),
      hmem, hstore⟩
  · obtain ⟨t, hexec, hrun, hans, hsent⟩ := restoreReq_effect hw hop hb hp hslot
    exact ⟨t, hexec, eq_peerTaken_upd hrun, hans, hsent⟩
  · obtain ⟨t, hexec, hrun, hans, hsent⟩ := copyReq_effect hw hop hb hp
    exact ⟨t, hexec, eq_peerTaken_upd hrun, hans, hsent⟩

end Sys2Proof.Proofs

/-! ### Pairing with a twin (R282 to R284, Table 11.1) -/

namespace Sys2Proof.Proofs

open Machine Laws

/-! #### Open commands of an opcode -/

section
variable {op : Nat} {a : Accepted} {s t : State}

theorem mem_openOps : a ∈ openOps op s ↔ a ∈ s.warden.accepted ∧ a.done = none ∧ entOp a.entry = op := by
  simp [openOps]

/-- The end of the commands of an opcode leaves none of them open. -/
theorem openOps_endOp (op : Nat) (d : Done) (s : State) : openOps op (endOp op d s) = [] := by
  refine List.filter_eq_nil_iff.mpr fun a ha => ?_
  obtain ⟨b, -, rfl⟩ := List.mem_map.mp ha
  split
  next => simp
  next h => exact h

theorem pairOp_open (h : pairOp s = some a) : a ∈ s.warden.accepted ∧ a.done = none ∧ entOp a.entry = 0x0203 :=
  mem_openOps.mp (List.mem_of_find?_eq_some h)

theorem pairOp_congr (h : t.warden = s.warden) : pairOp t = pairOp s := by
  simp only [pairOp, openOps, h]

theorem endOp_ends (ha : a ∈ s.warden.accepted) (hopen : a.done = none) (hop : entOp a.entry = op) (d : Done) :
    { a with done := some d } ∈ (endOp op d s).warden.accepted :=
  endWhere_ends (f := fun a => entOp a.entry == op) ha hopen (beq_iff_eq.mpr hop) d

/-- A TWIN_PAIR that starts with no other open is the open one. -/
theorem pairOp_started (hacc : t.warden.accepted = s.warden.accepted ++ [a]) (hopen : openOps 0x0203 s = []) (hstarted : a.started = true)
    (hdone : a.done = none) (hop : entOp a.entry = 0x0203) : pairOp t = some a := by
  have hfilter : openOps 0x0203 t = openOps 0x0203 s ++ [a] := by simp [openOps, hacc, hdone, hop]
  rw [pairOp, hfilter, hopen]
  simp [hstarted]

/-- A command that the end of its opcode's commands ends. -/
theorem ends_endOp {mb : Mbox} {e : Bytes} {ext : EnvAnswer} {w : State} (h : startedCmd mb e ext s ∈ t.warden.accepted)
    (hop : entOp e = op) (hnow : w.now = s.now) (status result : Nat) :
    Ends mb e (cmdDeadline true e s) status result s (endOp op (doneNow status result w) t) := by
  refine ⟨_, endOp_ends h rfl hop _, rfl, rfl, rfl, rfl, rfl, rfl, ?_⟩
  rw [doneNow, hnow]

end

/-! #### A pairing -/

/-- The twin's record once a package with another feed is the twin. -/
def paired (phys : Nat) (s : State) : State :=
  modTwin (fun t => { t with phys := some phys, exposed := false, unprotected := false, areaLost := false, rx := none,
                             changed := t.changed || decide (t.phys != some phys) }) s

section
variable {a : Accepted} {h : HeldPair} {s : State}

theorem tryPair_idle (hop : pairOp s = none) : tryPair s = s := by
  simp only [tryPair, hop]

theorem tryPair_waits (hop : pairOp s = some a) (hheld : s.twin.held.find? (fun h => h.phys == arg a.entry 0 2) = none) : tryPair s = s := by
  simp only [tryPair, hop, hheld]

theorem tryPair_pairs (hop : pairOp s = some a) (hheld : s.twin.held.find? (fun h => h.phys == arg a.entry 0 2) = some h)
    (hok : h.twinok = true) (hfeed : h.feed ≠ s.power.straps.feed.toNat) :
    tryPair s = endOp 0x0203 (doneNow 0 0 s) (paired (arg a.entry 0 2) s) := by
  simp only [tryPair, hop, hheld, hok, beq_eq_false_iff_ne.mpr hfeed, Bool.not_true, Bool.false_and, Bool.false_eq_true, if_false]
  rfl

theorem tryPair_writes (s : State) : Run [.warden, .twin] s (tryPair s) := tryPair_run s (.refl _ s) (by decide)

theorem tryPair_held (s : State) : (tryPair s).twin.held = s.twin.held := by
  unfold tryPair
  split
  · rfl
  · extract_lets phys ovr
    split
    · rfl
    · split
      · rfl
      · extract_lets same
        split
        · rfl
        · rfl

end

/-! #### TWIN_PAIR -/

section
variable {mb : Mbox} {e : Bytes} {s : State}

/-- The state in which TWIN_PAIR has sent its PAIR_REQ. -/
def pairSent (mb : Mbox) (e : Bytes) (s : State) : State :=
  peerToPhys 0x8001 (arg e 0 2) (pairArgs (bit (arg e 2 1) 0) (startedState mb e .none s)) (startedState mb e .none s)

/-- How TWIN_PAIR goes on. -/
def pairTried (mb : Mbox) (e : Bytes) (s : State) : State :=
  if !canTwin (pairSent mb e s) then endOp 0x0203 (doneNow 6 0 (pairSent mb e s)) (pairSent mb e s) else tryPair (pairSent mb e s)

theorem exec_twinPair (ho : Offered 0x0203 mb e s) (hl : LockedIdle s) :
    exec (.twinPair mb) s = .next (drain mb (pairTried mb e s)) :=
  exec_starts (ext := .none) (f := fun a => startPair (arg a.entry 0 2) (bit (arg a.entry 2 1) 0)) (i := .twinPair mb) rfl ho hl rfl rfl
    (by decide) fun a t ha hop => by simp [runOp, readsData, ha, hop]

theorem pairSent_run (mb : Mbox) (e : Bytes) (s : State) : Run [.out, .fabric] (startedState mb e .none s) (pairSent mb e s) :=
  peerToPhys_run _ _ _ _ (.refl _ _) (by decide)

theorem pairSent_twin (mb : Mbox) (e : Bytes) (s : State) : (pairSent mb e s).twin = s.twin :=
  ((pairSent_run mb e s).same .twin rfl).trans (congr_mailboxOnly State.twin (startedState_mailboxOnly mb e .none s))

theorem pairSent_power (mb : Mbox) (e : Bytes) (s : State) : (pairSent mb e s).power = s.power :=
  ((pairSent_run mb e s).same .power rfl).trans (congr_mailboxOnly State.power (startedState_mailboxOnly mb e .none s))

theorem pairSent_now (mb : Mbox) (e : Bytes) (s : State) : (pairSent mb e s).now = s.now :=
  ((pairSent_run mb e s).same .now rfl).trans (startedState_now mb e .none s)

theorem pairSent_warden (mb : Mbox) (e : Bytes) (s : State) : (pairSent mb e s).warden = (startedState mb e .none s).warden :=
  (pairSent_run mb e s).same .warden rfl

theorem pairSent_far (mb : Mbox) (e : Bytes) (s : State) : (pairSent mb e s).far = s.far :=
  ((pairSent_run mb e s).same .far rfl).trans (congr_mailboxOnly State.far (startedState_mailboxOnly mb e .none s))

theorem canTwin_pairSent (mb : Mbox) (e : Bytes) (s : State) : canTwin (pairSent mb e s) = canTwin s := by
  simp only [canTwin, pairSent_far]

theorem startedCmd_mem_pairSent (mb : Mbox) (e : Bytes) (s : State) : startedCmd mb e .none s ∈ (pairSent mb e s).warden.accepted := by
  rw [pairSent_warden]
  exact startedCmd_mem_startedState mb e .none s

theorem pairOp_pairSent (ho : Offered 0x0203 mb e s) (hopen : openOps 0x0203 s = []) :
    pairOp (pairSent mb e s) = some (startedCmd mb e .none s) :=
  pairOp_started (congrArg Warden.accepted (pairSent_warden mb e s)) hopen rfl rfl ho.opcode

theorem cmdDeadline_twinPair (ho : Offered 0x0203 mb e s) : cmdDeadline true e s = lockedFrom s + 1000000000 := by
  simp [cmdDeadline, ho.opcode, boundStart, lockedFrom]

/-- The neighbour that a TWIN_PAIR names is one that LINKID has reported. -/
theorem portTo_of_twinPair (ho : Offered 0x0203 mb e s) : ∃ p, portTo (arg e 0 2) s = some p := by
  have hargs := argBad_of_granted ho rfl
  cases h : portTo (arg e 0 2) s with
  | some p => exact ⟨p, rfl⟩
  | none => simp [argBad, feedOf, h] at hargs

theorem pairTried_run (mb : Mbox) (e : Bytes) (s : State) : Run [.warden, .twin] (pairSent mb e s) (pairTried mb e s) := by
  unfold pairTried
  split
  · exact endOp_run _ _ _ (.refl _ _) (by decide)
  · exact tryPair_writes _

/-- The PAIR_REQ of this package goes to the neighbour that the command names. -/
theorem pairReq_mem_pairTried {p : FPort} (hp : portTo (arg e 0 2) s = some p) :
    ∃ m, .msg p m ∈ (drain mb (pairTried mb e s)).out ∧ m.type = 0x0B ∧ m.dst = arg e 0 2 ∧
      m.payload = peerEntry 0x8001 0 (pairArgs (bit (arg e 2 1) 0) s) := by
  have hu := startedState_mailboxOnly mb e .none s
  have hto : portTo (arg e 0 2) (startedState mb e .none s) = some p := (congr_mailboxOnly (portTo (arg e 0 2)) hu).trans hp
  have hargs : pairArgs (bit (arg e 2 1) 0) (startedState mb e .none s) = pairArgs (bit (arg e 2 1) 0) s :=
    congr_mailboxOnly (pairArgs (bit (arg e 2 1) 0)) hu
  obtain ⟨axis, sub, hmem⟩ := msg_mem_sendPhys (m := physMsg 0x0B 4 (arg e 0 2) 0 0 0
    (peerEntry 0x8001 0 (pairArgs (bit (arg e 2 1) 0) (startedState mb e .none s))) (startedState mb e .none s)) hto
  refine ⟨_, out_subset_drain ((pairTried_run mb e s).out.subset hmem) mb, rfl, rfl, ?_⟩
  rw [← hargs]
  rfl

theorem pairTried_unable (ho : Offered 0x0203 mb e s) (hcan : canTwin s = false) :
    Ends mb e (lockedFrom s + 1000000000) 6 0 s (drain mb (pairTried mb e s)) ∧ (drain mb (pairTried mb e s)).twin = s.twin := by
  have htried : pairTried mb e s = endOp 0x0203 (doneNow 6 0 (pairSent mb e s)) (pairSent mb e s) :=
    if_pos (by rw [canTwin_pairSent, hcan]; rfl)
  rw [htried, ← cmdDeadline_twinPair ho]
  exact ⟨holds_drain (ends_endOp (startedCmd_mem_pairSent mb e s) ho.opcode (pairSent_now mb e s) 6 0),
    (congr_mailboxOnly State.twin (drain_mailboxOnly mb _)).trans (pairSent_twin mb e s)⟩

theorem pairTried_able (hcan : canTwin s = true) : pairTried mb e s = tryPair (pairSent mb e s) :=
  if_neg (by rw [canTwin_pairSent, hcan]; decide)

theorem pairTried_waits (ho : Offered 0x0203 mb e s) (hopen : openOps 0x0203 s = []) (hcan : canTwin s = true)
    (hheld : ∀ h ∈ s.twin.held, h.phys ≠ arg e 0 2) :
    Holds mb e (lockedFrom s + 1000000000) none s (drain mb (pairTried mb e s)) ∧ (drain mb (pairTried mb e s)).twin = s.twin := by
  have hnone : (pairSent mb e s).twin.held.find? (fun h => h.phys == arg e 0 2) = none := by
    rw [pairSent_twin]
    exact List.find?_eq_none.mpr fun h hh => by simpa using hheld h hh
  rw [pairTried_able hcan, tryPair_waits (pairOp_pairSent ho hopen) hnone, ← cmdDeadline_twinPair ho]
  exact ⟨holds_drain (holds_of_mem (startedCmd_mem_pairSent mb e s)),
    (congr_mailboxOnly State.twin (drain_mailboxOnly mb _)).trans (pairSent_twin mb e s)⟩

theorem pairTried_pairs {h : HeldPair} (ho : Offered 0x0203 mb e s) (hopen : openOps 0x0203 s = []) (hcan : canTwin s = true)
    (hheld : s.twin.held.find? (fun h => h.phys == arg e 0 2) = some h) (hok : h.twinok = true)
    (hfeed : h.feed ≠ s.power.straps.feed.toNat) :
    Ends mb e (lockedFrom s + 1000000000) 0 0 s (drain mb (pairTried mb e s)) ∧
      (drain mb (pairTried mb e s)).twin.phys = some (arg e 0 2) ∧ (drain mb (pairTried mb e s)).twin.exposed = false := by
  have hpairs : pairTried mb e s = endOp 0x0203 (doneNow 0 0 (pairSent mb e s)) (paired (arg e 0 2) (pairSent mb e s)) :=
    (pairTried_able hcan).trans (tryPair_pairs (pairOp_pairSent ho hopen) ((pairSent_twin mb e s).symm ▸ hheld) hok
      ((pairSent_power mb e s).symm ▸ hfeed))
  have htwin : (drain mb (pairTried mb e s)).twin = (paired (arg e 0 2) (pairSent mb e s)).twin := by
    rw [hpairs]
    exact congr_mailboxOnly State.twin (drain_mailboxOnly mb _)
  rw [htwin, hpairs, ← cmdDeadline_twinPair ho]
  exact ⟨holds_drain (ends_endOp (t := paired (arg e 0 2) (pairSent mb e s)) (startedCmd_mem_pairSent mb e s) ho.opcode
    (pairSent_now mb e s) 0 0), rfl, rfl⟩

/-! #### TWIN_UNPAIR -/

theorem twinUnpair_effect (ho : Offered 0x0204 mb e s) (hl : LockedIdle s) :
    ∃ t, exec (.twinUnpair mb) s = .next t ∧ t.twin.phys = none ∧
      Ends mb e (lockedFrom s + 100000000) (if s.twin.phys = none then 6 else 0) 0 s t ∧ t.twin.rollback = s.twin.rollback ∧
      t.mem = s.mem := by
  have hexec := exec_starts (ext := .none) (f := runUnpair) (i := .twinUnpair mb) rfl ho hl rfl rfl (by decide)
    fun a t ha hop => by simp [runOp, readsData, ha, hop]
  have hdeadline : cmdDeadline true e s = lockedFrom s + 100000000 := by simp [cmdDeadline, ho.opcode, boundStart, lockedFrom]
  have hu := startedState_mailboxOnly mb e .none s
  have htwin : (startedState mb e .none s).twin = s.twin := congr_mailboxOnly State.twin hu
  have hmem : (startedState mb e .none s).mem = s.mem := congr_mailboxOnly State.mem hu
  cases hphys : s.twin.phys with
  | none =>
    have hrun : runUnpair (startedCmd mb e .none s) (startedState mb e .none s) =
        finish (startedCmd mb e .none s) 6 0 (startedState mb e .none s) := by
      simp only [runUnpair, htwin, hphys]
    rw [hrun] at hexec
    obtain ⟨t, hexec, hends, ht⟩ := exec_finishes hexec rfl rfl hdeadline
    have httwin : t.twin = s.twin := (congr_mailboxOnly State.twin ht).trans htwin
    exact ⟨t, hexec, by rw [httwin, hphys], hends, by rw [httwin], (congr_mailboxOnly State.mem ht).trans hmem⟩
  | some p =>
    have hrun : runUnpair (startedCmd mb e .none s) (startedState mb e .none s) =
        finish (startedCmd mb e .none s) 0 0 (endPair (peerToPhys 0x8002 p [] (startedState mb e .none s))) := by
      simp only [runUnpair, htwin, hphys]
    rw [hrun] at hexec
    have hsent : Run [.out, .fabric] (startedState mb e .none s) (peerToPhys 0x8002 p [] (startedState mb e .none s)) :=
      peerToPhys_run _ _ _ _ (.refl _ _) (by decide)
    have hends : Run [.out, .fabric, .twin] (startedState mb e .none s)
        (endPair (peerToPhys 0x8002 p [] (startedState mb e .none s))) :=
      endPair_run _ (hsent.mono (by decide)) (by decide)
    have hback : (endPair (peerToPhys 0x8002 p [] (startedState mb e .none s))).twin.rollback = s.twin.rollback := by
      show (peerToPhys 0x8002 p [] (startedState mb e .none s)).twin.rollback = _
      rw [show (peerToPhys 0x8002 p [] (startedState mb e .none s)).twin = _ from hsent.same .twin rfl, htwin]
    obtain ⟨t, hexec, hend, ht⟩ := exec_finishes hexec (congrArg Warden.accepted (hends.same .warden rfl)) (hends.same .now rfl) hdeadline
    have httwin := congr_mailboxOnly State.twin ht
    have htmem := congr_mailboxOnly State.mem ht
    exact ⟨t, hexec, by rw [httwin]; rfl, hend, by rw [httwin]; exact hback, htmem.trans ((hends.same .mem rfl).trans hmem)⟩

end

/-! #### PAIR_REQ -/

/-- What a PAIR_REQ that is held says. -/
def heldOf (b : Bytes) (now : Nat) : HeldPair :=
  { phys := arg b 0 2, feed := arg b 2 1, override := bit (arg b 3 1) 0, twinok := bit (arg b 3 1) 1, since := now }

/-- The held requests with one more, which takes the place of an earlier one of its sender. -/
def withHeld (h : HeldPair) (l : List HeldPair) : List HeldPair := l.filter (fun x => x.phys != h.phys) ++ [h]

theorem find?_withHeld (h : HeldPair) (l : List HeldPair) : (withHeld h l).find? (fun x => x.phys == h.phys) = some h := by
  have hnone : (l.filter fun x => x.phys != h.phys).find? (fun x => x.phys == h.phys) = none :=
    List.find?_eq_none.mpr fun x hx => by simpa using (List.mem_filter.mp hx).2
  rw [withHeld, List.find?_append, hnone]
  simp

/-- A PAIR_REQ that is held and answered. -/
def pairAnswered (e : PeerEntry) (s : State) : State :=
  peerAnswer e 1 0 (modTwin (fun t => { t with held := withHeld (heldOf e.bytes s.now) t.held }) s)

theorem recvPair_eq (e : PeerEntry) (s : State) : recvPair e s = tryPair (pairAnswered e s) := rfl

section
variable {e : PeerEntry} {r : List PeerEntry} {s : State} {a : Accepted}

theorem pairAnswered_run (e : PeerEntry) (s : State) :
    Run [.out, .hostA, .hostB, .peer, .seq, .log, .fabric, .twin] s (pairAnswered e s) :=
  peerAnswer_run _ _ _ _ (modTwin_run _ s (.refl _ s) (by decide)) (by decide)

theorem pairAnswered_twin (e : PeerEntry) (s : State) :
    (pairAnswered e s).twin = { s.twin with held := withHeld (heldOf e.bytes s.now) s.twin.held } := peerAnswer_twin ..

theorem pairAnswered_pairOp (e : PeerEntry) (s : State) : pairOp (pairAnswered e s) = pairOp s :=
  pairOp_congr ((pairAnswered_run e s).same .warden rfl)

theorem tryPair_pairAnswered_phys (h : pairOp s = none) : (tryPair (pairAnswered e s)).twin.phys = s.twin.phys := by
  rw [tryPair_idle ((pairAnswered_pairOp e s).trans h), pairAnswered_twin]

theorem heldOf_mem_pairAnswered (e : PeerEntry) (s : State) : heldOf e.bytes s.now ∈ (tryPair (pairAnswered e s)).twin.held := by
  rw [tryPair_held, pairAnswered_twin]
  exact List.mem_append_right _ (List.mem_singleton_self _)

/-- A PAIR_REQ of the package that an open TWIN_PAIR names completes it where the feeds differ. -/
theorem pairAnswered_pairs (h : pairOp s = some a) (hphys : arg a.entry 0 2 = arg e.bytes 0 2) (hok : bit (arg e.bytes 3 1) 1 = true)
    (hfeed : arg e.bytes 2 1 ≠ s.power.straps.feed.toNat) :
    let t := tryPair (pairAnswered e s)
    t.twin.phys = some (arg e.bytes 0 2) ∧ t.twin.exposed = false ∧ openOps 0x0203 t = [] := by
  have hfind : (pairAnswered e s).twin.held.find? (fun x => x.phys == arg a.entry 0 2) = some (heldOf e.bytes s.now) := by
    rw [pairAnswered_twin, hphys]
    exact find?_withHeld (heldOf e.bytes s.now) s.twin.held
  have hpower : (pairAnswered e s).power = s.power := (pairAnswered_run e s).same .power rfl
  intro t
  have ht : t = endOp 0x0203 (doneNow 0 0 (pairAnswered e s)) (paired (arg e.bytes 0 2) (pairAnswered e s)) := by
    rw [← hphys]
    exact tryPair_pairs ((pairAnswered_pairOp e s).trans h) hfind hok (hpower ▸ hfeed)
  rw [ht]
  exact ⟨rfl, rfl, openOps_endOp ..⟩

theorem pairReq_effect (hw : s.peer.waiting = e :: r) (hop : entOp e.bytes = 0x8001) :
    ∃ t, exec .pairReq s = .next t ∧ t.peer.waiting = r ∧ heldOf e.bytes s.now ∈ t.twin.held ∧
      (pairOp s = none → t.twin.phys = s.twin.phys) ∧
      (∀ a, pairOp s = some a → arg a.entry 0 2 = arg e.bytes 0 2 → bit (arg e.bytes 3 1) 1 = true →
        arg e.bytes 2 1 ≠ s.power.straps.feed.toNat →
        t.twin.phys = some (arg e.bytes 0 2) ∧ t.twin.exposed = false ∧ openOps 0x0203 t = []) := by
  have hexec : exec .pairReq s = .next (tryPair (pairAnswered e (peerTaken r s))) :=
    congrArg Host.Outcome.next (onPeer_front hw hop recvPair)
  have hpair : pairOp (peerTaken r s) = pairOp s := rfl
  have hpeer : (tryPair (pairAnswered e (peerTaken r s))).peer = (pairAnswered e (peerTaken r s)).peer :=
    (tryPair_writes _).same .peer rfl
  refine ⟨_, hexec, (congrArg PeerBox.waiting hpeer).trans (peerAnswer_waiting ..), heldOf_mem_pairAnswered e (peerTaken r s),
    fun h => tryPair_pairAnswered_phys (hpair.trans h), fun a h hphys hok hfeed => pairAnswered_pairs (hpair.trans h) hphys hok hfeed⟩

/-! #### UNPAIR and the timers -/

theorem exec_unpair (hw : s.peer.waiting = e :: r) (hop : entOp e.bytes = 0x8002) :
    exec .unpair s = .next (if fromTwin e s then endPair (peerAnswer e 1 0 (peerTaken r s)) else peerAnswer e 1 6 (peerTaken r s)) :=
  congrArg Host.Outcome.next (onPeer_front hw hop _)

theorem unpair_effect (hw : s.peer.waiting = e :: r) (hop : entOp e.bytes = 0x8002) :
    ∃ t, exec .unpair s = .next t ∧ t.peer.waiting = r ∧
      (e.phys = true → s.twin.phys = some e.src → t.twin = { s.twin with phys := none, exposed := false, rx := none }) ∧
      ((e.phys = false ∨ s.twin.phys ≠ some e.src) → t.twin = s.twin) ∧ t.mem = s.mem := by
  have hexec := exec_unpair hw hop
  by_cases htwin : fromTwin e s = true
  · obtain ⟨hp, hsrc⟩ : e.phys = true ∧ s.twin.phys = some e.src := by simpa [fromTwin] using htwin
    rw [if_pos htwin] at hexec
    refine ⟨_, hexec, peerAnswer_waiting .., fun _ _ => ?_, fun h => ?_, peerAnswer_mem ..⟩
    · show { (peerAnswer e 1 0 (peerTaken r s)).twin with phys := none, exposed := false, rx := none } = _
      rw [peerAnswer_twin]
      rfl
    · rcases h with h | h
      · exact Bool.noConfusion (hp.symm.trans h)
      · exact absurd hsrc h
  · rw [if_neg htwin] at hexec
    refine ⟨_, hexec, peerAnswer_waiting .., fun hp hsrc => ?_, fun _ => peerAnswer_twin .., peerAnswer_mem ..⟩
    exact absurd (by simp [fromTwin, hp, hsrc]) htwin

theorem pairTimeout_effect (h : pairOp s = some a) (hdue : a.deadline ≤ tideNow s) :
    ∃ t, exec .pairTimeout s = .next t ∧ t = { s with warden := { s.warden with accepted := t.warden.accepted } } ∧
      { a with done := some { status := 6, result := 0, fault := 0, at_ := s.now } } ∈ t.warden.accepted ∧ openOps 0x0203 t = [] := by
  have hexec : exec .pairTimeout s = .next (endOp 0x0203 (doneNow 6 0 s) s) := by
    show execPairTimeout s = _
    simp only [execPairTimeout, h, if_pos hdue]
  obtain ⟨hmem, hdone, hop⟩ := pairOp_open h
  exact ⟨_, hexec, rfl, endOp_ends hmem hdone hop _, openOps_endOp ..⟩

end

/-- Settles O26: `pairTried` for TWIN_PAIR, `twinUnpair_effect`, `pairReq_effect`, `unpair_effect` and `pairTimeout_effect`. -/
theorem pairing : Obligations.Pairing := by
  unfold Obligations.Pairing
  refine ⟨fun mb e s => ⟨fun ho hl hopen => ?_, fun ho hl => twinUnpair_effect ho hl⟩, fun s => ⟨fun e r hw hop => pairReq_effect hw hop,
    fun e r hw hop => unpair_effect hw hop, fun a h hdue => pairTimeout_effect h hdue, rfl, rfl⟩⟩
  obtain ⟨p, hp⟩ := portTo_of_twinPair ho
  exact ⟨_, p, exec_twinPair ho hl, hp, pairReq_mem_pairTried hp, pairTried_unable ho, pairTried_waits ho hopen,
    fun h hcan hheld hok hfeed => pairTried_pairs ho hopen hcan hheld hok hfeed⟩

end Sys2Proof.Proofs
